-- ==== Sys2Proof/Word.lean ====
section
/-! DEFINITION. The word types of the model: bytes and byte strings (R6, R7), and the octet strings the wire
formats are made of. -/

namespace Sys2Proof

/-- One byte of a wire format or of an object of type OCTETS (R6). -/
abbrev Byte := BitVec 8

/-- A byte string, in transmission order (R7). -/
abbrev Octets := List Byte

/-- A Nat as one byte, modulo 256. -/
def Byte.ofNat (n : Nat) : Byte := BitVec.ofNat 8 n

end Sys2Proof
end

