-- ==== Sys2Proof/Syntax.lean ====
section
/-! DEFINITION. The commands of the block: one constructor of Instr per row of spec/opcode_table.json, with the
operands that the row's rule gives it, and the message and frame types those operands are made of. -/

namespace Sys2Proof

/-- A TIME80 on the wire: seconds and nanoseconds (R9); the nanosecond field may be out of range (R10). -/
structure Time80 where
  sec : Nat
  ns  : Nat
  deriving DecidableEq, Repr

/-- The address of an object: index, subindex, ELEMENT bit and element number (R772). -/
structure Addr where
  idx : Nat
  sub : Nat
  isElem : Bool := false
  elem : Nat := 0
  deriving DecidableEq, Repr

/-- A value record: address, type code and value bytes; the 16-bit length is the number of bytes (R774). -/
structure ValueRec where
  addr : Addr
  code : Nat
  data : Octets
  deriving DecidableEq, Repr

/-- The path a Camanent message came on (R720): M0 or M1, the intercept of a clear port, the MCH of a line port. -/
inductive Path where
  | mgmt (m : Fin 2)
  | clear (port : Fin 64)
  | mch (port : Fin 64)
  deriving DecidableEq, Repr

/-- The header of a received Camanent message (R742) with the facts the receiver establishes about it: whether the
version, reserved bits and length pass check 1, and whether the tag verifies under the session's key (check 3, R783).
`cipher` is the ciphertext, which R759 compares whole. -/
structure Hdr where
  path : Path
  src : Nat
  version : Nat := 1
  reservedZero : Bool := true
  lengthOk : Bool := true
  session : Nat
  sequence : Nat
  bpid : Nat := 0
  relay : Nat := 0xFF
  cipher : Octets := []
  tagOk : Bool := true
  deriving DecidableEq, Repr

/-- The secret a credential proves itself with (R752): a password under a salt, or a key. -/
inductive Secret where
  | password (text : Octets) (salt : Octets)
  | key (k : Octets)
  deriving DecidableEq, Repr

/-- A value sealed with GCM (R103, R220, R745): the key and the IV it was sealed under, its additional data, its
plaintext, and whether it arrived unaltered. It opens exactly under that key, IV and additional data (log 4). -/
structure Sealed where
  key : Octets
  iv : Octets
  aad : Octets
  plain : Octets
  intact : Bool := true
  deriving DecidableEq, Repr

/-- The SecTAG of an 802.1AE frame (R214, R229). -/
structure SecTag where
  v : Bool := false
  es : Bool := false
  sc : Bool := true
  scb : Bool := false
  e : Bool := true
  c : Bool := true
  an : Nat := 0
  sl : Nat := 0
  pn : Nat := 0
  sci : Octets := []
  deriving DecidableEq, Repr

/-- An Ethernet frame at a port, without its FCS: its bytes from the destination address on, and whether its FCS is
good (R56). -/
structure Frame where
  bytes : Octets
  fcsOk : Bool := true
  /-- The ingress stamp falls on the second T-clock edge of its D-clock cycle: stamps have a resolution of 0.4 ns (R31). -/
  half : Bool := false
  deriving DecidableEq, Repr

/-- A frame on a frame-mode line port: the client frame's clear bytes up to the SecTAG and, where it has one, the
SecTAG and what is sealed behind it; length is the frame's length on the wire with its FCS (R57). -/
structure LineFrame where
  head : Octets
  tag : Option SecTag
  body : Sealed
  length : Nat
  fcsOk : Bool := true
  half : Bool := false
  deriving DecidableEq, Repr

/-- A Gelix frame as received (R88, R93): the overhead fields, and the sealed payload with its outer tag. For a NOKEY
frame the payload is what the far pipeline put out and is never opened (R92). -/
structure GelixFrame where
  /-- The frame alignment word of bytes 0 to 5; a frame that is received in SYNC stands where a FAW is expected (R93, R128). -/
  faw : Nat := 0x3EA5C91B74D0
  mfas : Nat
  trc : Byte
  stat : Nat
  rei : Nat
  bip : Nat
  kep : Nat
  fcnt : Nat
  ttx : Octets
  mch : Octets
  rsv : Octets
  payload : Sealed
  payloadParity : Nat
  half : Bool := false
  deriving DecidableEq, Repr

/-- What a frame on M0 or M1 carries (R722). -/
inductive MgmtKind where
  | arp
  | neighbourDiscovery
  | echo4
  | echo6
  | camanent (udpPort : Nat) (msg : Octets)
  | ptp
  | other
  deriving DecidableEq, Repr

/-- A PTP message taken for the ordinary clock (R582), or a Pdelay message on a P2P port (R589). Times in units of
2^-16 ns. `link` is the mean link delay a completed Pdelay exchange yields. -/
inductive PtpKind where
  | sync (twoStep : Bool) (origin : Nat) (correction : Int) (rx : Nat)
  | followUp (origin : Nat) (correction : Int)
  | delayResp (rx : Nat) (correction : Int)
  | delayReq
  | pdelayReq
  | pdelayResp (link : Nat)
  | announce (utcOffset : Int)
  | notActedOn
  deriving DecidableEq, Repr

/-- The detector of a pair that reports alarm (R860, R861). -/
inductive Detector where
  | one
  | two
  | both
  deriving DecidableEq, Repr

/-- What a master asks of a stowage line (R652): a read, a write of the line, or a write of some of its bytes (R661). -/
inductive AccessKind where
  | read
  | write (data : Octets)
  | partialWrite (offset : Nat) (data : Octets)
  deriving DecidableEq, Repr

/-- What the memory device answers a fetch with (R660): what was written to it; the data line with its tag, or a counter line of a level, with
bits flipped against what was written, a data line with or without a corrected error reported; or poison. -/
inductive DeviceResult where
  | ok
  | data (corrected : Bool) (flips : Nat)
  | counter (level : Nat) (flips : Nat)
  | poisonData
  | poisonCounter (level : Nat)
  deriving DecidableEq, Repr

/-- What a start-up meets (R377 to R381, R977, R978): a step that fails, 0 for none, the attempts that it fails at, and the units and sources that
fail their tests, by the numbers of the self-tests. -/
structure StartTrial where
  failStep : Nat := 0
  fails : Nat := 3
  units : List Nat := []
  deriving DecidableEq, Repr

/-- A unit of a crypto bank (R342 to R350, R366): a pipeline, a lane of the masked engine, or a GHASH pair, of which 16
and 17 are the masked engine's own. -/
inductive CipherUnit where
  | pipeline (n : Fin 14)
  | maskedLane (n : Fin 6)
  | ghashPair (n : Fin 18)
  deriving DecidableEq, Repr

/-- The commands, in the table's order. -/
inductive Instr where
  | open_ (h : Hdr) (role method cred : Nat) (nonce : Octets) (sid : Nat) (moduleNonce : Octets)
  | prove (h : Hdr) (proof : Option Secret)
  | close (h : Hdr)
  | read (h : Hdr) (addrs : List Addr)
  | write (h : Hdr) (recs : List ValueRec)
  | readElements (h : Hdr) (first : Addr) (count : Nat)
  | writeElements (h : Hdr) (first : Addr) (stride : Nat) (vals : List Octets)
  | commit (h : Hdr)
  | commitDryRun (h : Hdr)
  | subscribe (h : Hdr) (filters : List (Nat × Nat))
  | relayMessage (h : Hdr) (msg : Octets)
  | relayReturn (port : Fin 64) (session : Nat) (msg : Octets)
  | mchMessageReceive (port : Fin 64) (msg : Octets) (allCellsKeyed : Bool)
  | mgmtPortFrame (m : Fin 2) (src : Nat) (kind : MgmtKind)
  | sessionProveTimeout (slot : Fin 32)
  | sessionIdleExpire (slot : Fin 32)
  | sessionIdForget (sid : Nat)
  | credentialLockExpire (cred : Fin 64)
  | relayEntryLapse (port : Fin 64) (session : Nat)
  | sessionPilotTakeover
  | interceptReplySend (port : Fin 64)
  | interceptReplyDiscard (port : Fin 64)
  | sessionTerminate (h : Hdr) (slot : Nat) (v : Bool)
  | credentialErase (h : Hdr) (cred : Nat) (v : Bool)
  | keyWrite (h : Hdr) (slot : Nat) (wrapped : Octets)
  | keySlotErase (h : Hdr) (slot : Nat) (v : Bool)
  | kekShareWrite (h : Hdr) (berth : Nat) (shareB : Bool) (share : Octets)
  | kekShareExpire (berth : Fin 256)
  | kekErase (h : Hdr) (berth : Nat) (v : Bool)
  | learnAcknowledge (h : Hdr) (basin : Nat) (seq : Nat)
  | lpmInsert (h : Hdr) (table : Nat) (record : Octets)
  | lpmDelete (h : Hdr) (table : Nat) (record : Octets)
  | lpmQuery (h : Hdr) (table : Nat) (query : Octets)
  | testPatternWrite (h : Hdr) (lane : Nat) (v : Nat)
  | timeIncrementWrite (h : Hdr) (v : Nat)
  | timeSlewWrite (h : Hdr) (x : Int)
  | timeStepWrite (h : Hdr) (x : Int)
  | timeSetWrite (h : Hdr) (t : Time80)
  | hostLeaseWrite (h : Hdr) (v : Nat)
  | captureRead (h : Hdr) (input : Nat)
  | expertGrantWrite (h : Hdr) (slot : Nat) (minutes : Nat)
  | debugPortOpen (h : Hdr) (v : Bool)
  | windowWrite (h : Hdr) (harbour : Fin 2) (wordAddr : Nat) (v : Nat)
  | locatorQuery (h : Hdr) (record : Octets)
  | indirectDataRead (h : Hdr)
  | indirectDataWrite (h : Hdr) (v : Nat)
  | snapshotAcknowledge (h : Hdr) (basin : Nat) (w : Nat)
  | alarmClear (h : Hdr) (pin : Nat) (v : Bool)
  | responseRelease (h : Hdr) (source : Nat) (v : Bool)
  | cellSwapWindowWrite (h : Hdr) (minutes : Nat)
  | retireConfirmation (h : Hdr) (serial : Octets)
  | retireConfirmationExpire
  | regionRelease (h : Hdr) (region : Nat) (v : Bool)
  | berthResetKeep (h : Hdr) (berth : Nat)
  | berthResetRelease (h : Hdr) (berth : Nat)
  | firmwareChunkWrite (h : Hdr) (n : Nat) (chunk : Octets)
  | firmwareVerify (h : Hdr) (v : Bool)
  | firmwareInstall (h : Hdr) (v : Bool)
  | firmwareInstallComplete
  | firmwareActivate (h : Hdr) (slot : Nat)
  | pilotsStopForActivation
  | firmwareRunning
  | firmwareStartTimeout
  | firmwareConfirm (h : Hdr) (v : Bool)
  | serviceIdentityGenerate (h : Hdr) (v : Bool)
  | certificateInstall (h : Hdr) (v : Bool)
  | serviceIdentityErase (h : Hdr) (v : Bool)
  | operatorAnchorWrite (h : Hdr) (anchor : Octets)
  | attestationReportRead (h : Hdr)
  | moduleRestart (h : Hdr) (v : Bool)
  | clearFrameReceive (port : Fin 64) (frame : Frame)
  | holdExpire (basin : Fin 4)
  | frameModeReceive (port : Fin 64) (frame : LineFrame)
  | gelixFrameReceive (port : Fin 64) (frame : GelixFrame)
  | fawFound (port : Fin 64) (offset mfas : Nat)
  | expectedFawCheck (port : Fin 64) (bitErrors : Nat) (mfas : Nat)
  | gelixFrameSend (port : Fin 64)
  | frameRelease (port : Fin 64) (waited : Nat)
  | cryptoBankEntry (basin : Fin 4)
  | frameEgressComplete (port : Fin 64) (predictionError : Int)
  | pipelineFault (basin : Fin 4) (tx : Bool) (unit : CipherUnit) (stage : Fin 16) (secondShare : Bool)
      (flips keyFlips nextFlips : Nat)
  | pipelineDrained (basin : Fin 4) (tx : Bool) (unit : CipherUnit)
  | quarantineTestEnd (basin : Fin 4) (tx : Bool) (unit : CipherUnit) (passed : Bool)
  | knownAnswerTest (basin : Fin 4) (tx : Bool) (unit : CipherUnit) (stage : Fin 16) (secondShare : Bool := false)
      (flips : Nat := 0) (keyFlips : Nat := 0) (nextFlips : Nat := 0)
  | ghashMismatch (basin : Fin 4) (tx : Bool) (pair : Fin 18) (flips : Nat) (repeatFlips : Nat := 0)
  | keyStoreError (basin : Fin 4) (tx : Bool) (doubleBit : Bool)
  | ballastKeyReseed (basin : Fin 4) (tx : Bool)
  | shuffleReseed (basin : Fin 4) (tx : Bool)
  | maskReseed (basin : Fin 4) (tx : Bool)
  | entropyTestFailure (harbour : Fin 2) (sourceB : Bool) (proportion : Bool) (samples : List Bool := [])
  | losDeclare (lane : Fin 64)
  | losClear (lane : Fin 64)
  | lolDeclare (lane : Fin 64)
  | lolClear (lane : Fin 64)
  | adaptComplete (lane : Fin 64)
  | codewordLock (lane : Fin 64)
  | codewordLockLoss (lane : Fin 64)
  | laneLock (lane : Fin 64) (mfas : Nat)
  | laneLockLoss (lane : Fin 64)
  | skewLimitExceeded (port : Fin 64) (skew : Nat)
  | portAligned (port : Fin 64) (skew : Nat)
  | faultSignalReceived (port : Fin 64) (kind : Nat)
  | portUpTimeout (port : Fin 64)
  | lofDeclare (port : Fin 64)
  | lofClear (port : Fin 64)
  | lomDeclare (port : Fin 64)
  | lomClear (port : Fin 64)
  | faultForwardStart (port : Fin 64)
  | lineSecondEnd (port : Fin 64)
  | switchScheduledTime (assoc : Fin 65536)
  | queueDrained (queue : Fin 32768)
  | rateLoweringApplied (queue : Fin 32768)
  | berthNodeLoweringApplied (berth : Fin 256) (port : Fin 64)
  | gateEntryChange (port : Fin 64)
  | gateSwap (port : Fin 64)
  | timeChangeEdge
  | slewComplete
  | ptpMessageReceive (port : Fin 66) (domain : Nat) (kind : PtpKind)
  | ptpMessageSend
  | timeSourceLost
  | holdoverExpire
  | hostLeaseExpire
  | lockstepCheck
  | lockstepCopy
  | dieLinkDown
  | dieLinkUp
  | ttReportSend (port : Fin 64)
  | ttReportReceive (port : Fin 64)
  | ppsInEdge
  | captureEdge (input : Fin 9) (rising : Bool)
  | triggerEdge (trigger : Fin 9)
  | runtimeSave
  | configSave
  | cxlLinkReady (harbour : Fin 2) (lanes rate capacityMiB metaBits : Nat) (type3 : Bool)
  | cxlLinkDown (harbour : Fin 2)
  | cxlLinkReturn (harbour : Fin 2)
  | stowageAccess (harbour : Fin 2) (master : Fin 6) (line : Nat) (kind : AccessKind) (device : DeviceResult)
  | berthResetEdge (berth : Fin 256)
  | berthResetComplete (berth : Fin 256)
  | berthReleaseComplete (berth : Fin 256)
  | expertGrantExpire (slot : Fin 32)
  | snapshotCapture (harbour : Fin 2)
  | snapshotComplete
  | alarmPulseEnd (pin : Fin 4)
  | journalSeal
  | sealSigned
  | tamperAlarm (quantity : Fin 6) (detector : Detector)
  | tamperAlarmClear (quantity : Fin 6)
  | monitorFault (quantity : Fin 6) (detector : Detector)
  | monitorFaultClear (quantity : Fin 7)
  | zeroizePins
  | zeroizePinFault (pinB : Bool)
  | quiesceNAssert
  | quiesceNRelease
  | hostloopPulse (returned : Bool)
  | zeroizeRestart (trial : StartTrial := {})
  | tamperBitBurn
  | cellRemove
  | cellInsert
  | cellSwapWindowClose (millivolts : Nat)
  | cellSwapWindowExpire
  | mainsInRange (failStep : Nat) (units : List Nat) (fails : Nat := 3)
  | ready
  | mainsLost
  | mainsEarlyWarning
  | mainsReturn
  | bulkThreshold
  | keelLockLost (trial : StartTrial := {})
  | referenceLock (ref : Nat)
  | referenceLost
  | referenceChange (ref : Nat)
  | pilotWatchdog (harbour : Fin 2)
  | pilotRestarted (harbour : Fin 2)
  | candidateDropped (port : Fin 64) (offset : Nat)
  | pcsFecLockLoss (port : Fin 64)
  | lossOfAllPower
  | managementPortLinkChange (m : Fin 2) (up : Bool)
  | commandedRestartBegin (trial : StartTrial := {})
  | ballastShareUpdate (harbour : Fin 2)
  deriving DecidableEq, Repr

end Sys2Proof
end

