-- ==== Sys2Proof/Decode.lean ====
section
/-! DEFINITION. The commands that words of the table spell. The table gives no row any bits: a command reaches the block as a message, a
frame or an event, and no word spells one. -/

namespace Sys2Proof

/-- The command a word spells: none, since no row of the table has bits. -/
def decodeTableWord (_nbits _w : Nat) : Option Instr := none

end Sys2Proof
end

