-- ==== Sys2Proof/Machine/Bytes.lean ====
section
/-! DEFINITION. Byte-order helpers (R7), the TIME80 layout (R9), bit fields of a Nat, saturation, and the sparse tables
the state is made of. -/

namespace Sys2Proof.Machine

/-- The n low bytes of a value, most significant first (R7). -/
def bytesOf : Nat → Nat → Octets
  | 0, _ => []
  | n + 1, v => Byte.ofNat (v / 256 ^ n) :: bytesOf n v

abbrev b1 (v : Nat) : Octets := bytesOf 1 v
abbrev b2 (v : Nat) : Octets := bytesOf 2 v
abbrev b3 (v : Nat) : Octets := bytesOf 3 v
abbrev b4 (v : Nat) : Octets := bytesOf 4 v
abbrev b8 (v : Nat) : Octets := bytesOf 8 v

/-- A signed value in n bytes, two's complement (R773). -/
def bytesOfInt (n : Nat) (x : Int) : Octets := bytesOf n (x % (256 ^ n : Nat)).toNat

/-- The unsigned value of a byte string, most significant byte first (R7). -/
def natOf (bs : Octets) : Nat := bs.foldl (fun a b => a * 256 + b.toNat) 0

/-- The two's complement value of a byte string (R773). -/
def intOf (bs : Octets) : Int :=
  if natOf bs < 2 ^ (8 * bs.length - 1) ∨ bs.length = 0 then natOf bs else (natOf bs : Int) - (2 ^ (8 * bs.length) : Nat)

/-- n bytes of a byte string from an offset; short where the string ends. -/
def sub (bs : Octets) (off n : Nat) : Octets := (bs.drop off).take n

/-- The value of n bytes of a byte string from an offset. -/
def natAt (bs : Octets) (off n : Nat) : Nat := natOf (sub bs off n)

/-- n zero bytes. -/
def zeros (n : Nat) : Octets := List.replicate n 0

/-- A byte string cut or filled with zero bytes to n bytes. -/
def fit (n : Nat) (bs : Octets) : Octets := bs.take n ++ zeros (n - bs.length)

/-- ASCII text as bytes. -/
def ascii (s : String) : Octets := s.toList.map fun c => Byte.ofNat c.toNat

/-- Nanoseconds in a second. -/
def nsPerSec : Nat := 1000000000

/-- A time in ns as a TIME80: 48-bit seconds, then 32-bit nanoseconds (R9). -/
def timeBytes (ns : Nat) : Octets := bytesOf 6 (ns / nsPerSec) ++ bytesOf 4 (ns % nsPerSec)

/-- Bit i of a value. -/
def bit (v i : Nat) : Bool := v.testBit i

/-- Bits [lo + n - 1 : lo] of a value. -/
def bits (v lo n : Nat) : Nat := v / 2 ^ lo % 2 ^ n

/-- A Bool as 0 or 1. -/
def b01 (b : Bool) : Nat := if b then 1 else 0

/-- A Bool at a bit position. -/
def bitAt (b : Bool) (i : Nat) : Nat := if b then 2 ^ i else 0

/-- A value with one bit set or cleared. -/
def setBit (v i : Nat) (b : Bool) : Nat := v - bitAt (v.testBit i) i + bitAt b i

/-- A value with the bits of a list, by position. -/
def mask (ns : List Nat) : Nat := ns.foldl (fun a i => setBit a i true) 0

/-- How many of the first n bits of a value are set. -/
def popCount : Nat → Nat → Nat
  | 0, _ => 0
  | n + 1, v => b01 (v.testBit n) + popCount n v

/-- The bitwise exclusive or of two byte strings. -/
def xorBytes (a b : Octets) : Octets := List.zipWith (· ^^^ ·) a b

/-- Counting up to the all-ones value of a width and stopping there (R823). -/
def satAdd (w a n : Nat) : Nat := min (a + n) (2 ^ w - 1)

/-- A signed value held to a range. -/
def clampInt (lo hi x : Int) : Int := max lo (min hi x)

/-- Division rounding up. -/
def ceilDiv (a b : Nat) : Nat := (a + b - 1) / b

/-- The number of bits set in a byte. -/
def Byte.ones (b : Byte) : Nat := popCount 8 b.toNat

/-- The numbers from lo, n of them. -/
def span (lo n : Nat) : List Nat := (List.range n).map (lo + ·)

/-- The lowest number below n that a test accepts. -/
def firstBelow (n : Nat) (p : Nat → Bool) : Option Nat := (List.range n).find? p

/-! ### Sparse tables -/

/-- A table by number: strictly rising numbers, no entry equal to the default it is read with. -/
abbrev Tbl (α : Type) := List (Nat × α)

/-- An entry of a table, or the default. -/
def tget {α : Type} (d : α) : Tbl α → Nat → α
  | [], _ => d
  | (j, v) :: r, k => if j = k then v else tget d r k

/-- A table without the entry of a number. -/
def tdel {α : Type} (t : Tbl α) (k : Nat) : Tbl α := t.filter fun e => e.1 != k

/-- A table with an entry put in order. -/
def tins {α : Type} (k : Nat) (v : α) : Tbl α → Tbl α
  | [] => [(k, v)]
  | (j, w) :: r => if k < j then (k, v) :: (j, w) :: r else (j, w) :: tins k v r

/-- A table with one entry replaced; an entry equal to the default is left out. -/
def tset {α : Type} [DecidableEq α] (d : α) (t : Tbl α) (k : Nat) (v : α) : Tbl α :=
  if v = d then tdel t k else tins k v (tdel t k)

/-- A table with one entry changed. -/
def tmod {α : Type} [DecidableEq α] (d : α) (t : Tbl α) (k : Nat) (f : α → α) : Tbl α := tset d t k (f (tget d t k))

/-- A table with every entry changed; an entry that comes to equal the default is left out. -/
def tmap {α : Type} [DecidableEq α] (d : α) (f : α → α) (t : Tbl α) : Tbl α := (t.map fun e => (e.1, f e.2)).filter fun e => e.2 != d

/-- The canonical form of a table: strictly rising numbers, and no entry that equals the default. -/
def twf {α : Type} [DecidableEq α] (d : α) : Tbl α → Bool
  | [] => true
  | [(_, v)] => v != d
  | (j, v) :: (k, w) :: r => v != d && decide (j < k) && twf d ((k, w) :: r)

/-- The numbers of a table's entries that a test accepts. -/
def tkeys {α : Type} (t : Tbl α) (p : Nat → α → Bool) : List Nat := (t.filter fun e => p e.1 e.2).map (·.1)

end Sys2Proof.Machine
end

