-- ==== Sys2Proof/Machine/Aes.lean ====
section
/-! DEFINITION. AES of FIPS 197, GCM of SP 800-38D and the AES key wrap of RFC 3394, which the spec names without stating them (log 6). A
block is a number of 128 bits, byte 0 the most significant. -/

namespace Sys2Proof.Machine

/-! ### Blocks -/

/-- A function of a number that is computed first: what it gives is unchanged, and Lean's kernel computes the number once. -/
def computed {α : Type} (x : Nat) (f : Nat → α) : α :=
  match x with
  | 0 => f 0
  | n + 1 => f (n + 1)

/-- Byte i of a block. -/
def byteAt (x i : Nat) : Nat := (x >>> (8 * (15 - i))) % 256

/-- The block of 16 bytes given by position. -/
def blockOf (f : Nat → Nat) : Nat := (List.range 16).foldl (fun a i => a * 256 + f i) 0

/-- The block that a byte string of at most 16 bytes makes, zeros behind it. -/
def blockOfBytes (b : Octets) : Nat := natOf (fit 16 b)

/-- The blocks of a byte string, the last one filled with zeros; the number bounds them. -/
def blocksOfBytes : Nat → Octets → List Nat
  | 0, _ => []
  | _, [] => []
  | n + 1, b => blockOfBytes (b.take 16) :: blocksOfBytes n (b.drop 16)

def toBlocks (b : Octets) : List Nat := blocksOfBytes (ceilDiv b.length 16) b

/-! ### AES -/

/-- The S-box of FIPS 197: eight rows of 32 bytes, the first in the low bits. -/
def sboxRows : List Nat :=
  [0xC072A49CAFA2D4ADF04759FA7DC982CA76ABD7FE2B670130C56F6BF27B777C63,
   0x75B227EBE28012079A059618C323C7041531D871F1E5A534CCF73F362693FDB7,
   0xCF584C4A39BECB6A5BB1FC20ED00D153842FE329B3D63B52A05A6E1B1A2C8309,
   0xD2F3FF1021DAB6BCF5389D928F40A351A89F3C507F02F94585334D43FBAAEFD0,
   0xDB0B5EDE14B8EE4688902A22DC4F816073195D643D7EA7C41744975FEC130CCD,
   0x08AE7A65EAF4566CA94ED58D6D37C8E779E4959162ACD3C25C2406490A3A32E0,
   0x9E1DC186B95735610EF6034866B53E708A8BBD4B1F74DDE8C6B4A61C2E2578BA,
   0x16BB54B00F2D99416842E6BF0D89A18CDF2855CEE9871E9B948ED9691198F8E1]

/-- Its inverse. -/
def invSboxRows : List Nat :=
  [0xCBE9DEC444438E3487FF2F9B8239E37CFBD7F3819EA340BF38A53630D56A0952,
   0x25D18B6D49A25B76B224D92866A12E084EC3FA420B954CEE3D23C2A632947B54,
   0x849D8DA75746155EDAB9EDFD5048706C92B6655DCC5CA4D41698688664F6F872,
   0x6B8A130103BDAFC1020F3FCA8F1E2CD00645B3B80558E4F70AD3BC8C00ABD890,
   0x6EDF751CE837F9E28535ADE72274AC9673E6B4F0CECFF297EADC674F4111913A,
   0xF45ACD78FEC0DB9A2079D2C64B3E56FC1BBE18AA0E62B76F89C5291D711AF147,
   0xEF9CC9939F7AE52D0D4AB519A97F51605FEC8027591012B131C7078833A8DD1F,
   0x7D0C2155631469E126D677BA7E042B17619953833CBBEBC8B0F52AAE4D3BE0A0]

/-- An entry of a table of bytes held in rows of 32. -/
def rowByte (rows : List Nat) (x : Nat) : Nat := (rows.getD (x / 32) 0 >>> (8 * (x % 32))) % 256

def sbox (x : Nat) : Nat := rowByte sboxRows x
def invSbox (x : Nat) : Nat := rowByte invSboxRows x

/-- A byte times x in GF(2^8). -/
def xtime (x : Nat) : Nat := if 128 ≤ x then (2 * x) ^^^ 0x11B else 2 * x

/-- Where byte i comes from in ShiftRows and in its inverse. -/
def shiftFrom (i : Nat) : Nat := (i + 4 * (i % 4)) % 16
def unshiftFrom (i : Nat) : Nat := (i + 12 * (i % 4)) % 16

def shiftRows (x : Nat) : Nat := blockOf fun i => byteAt x (shiftFrom i)

/-- The byte k rows below byte i in its column, cyclically. -/
def colByte (x i k : Nat) : Nat := byteAt x (i / 4 * 4 + (i + k) % 4)

def mixColumns (x : Nat) : Nat :=
  blockOf fun i => xtime (colByte x i 0) ^^^ xtime (colByte x i 1) ^^^ colByte x i 1 ^^^ colByte x i 2 ^^^ colByte x i 3

/-- MixColumns undone: 14, 11, 13 and 9 are 2, 3, 1 and 1 times 5, 0, 4 and 0 in the algebra of columns, so that every byte first takes four
times its sum with the byte two rows below. -/
def unmixColumns (x : Nat) : Nat := mixColumns (blockOf fun i => byteAt x i ^^^ xtime (xtime (byteAt x i ^^^ colByte x i 2)))

/-- Word i of a round key, and a word of four bytes given by position. -/
def wordAt (k i : Nat) : Nat := (k >>> (32 * (3 - i))) % 2 ^ 32
def wordOf (f : Nat → Nat) : Nat := (List.range 4).foldl (fun a j => a * 256 + f j) 0

/-- The round constant: a power of x. -/
def rcon (n : Nat) : Nat := (List.range n).foldl (fun a _ => xtime a) 1

/-- Whether round key number n of a 256-bit key is made without rotation and round constant. -/
def plainWord (long : Bool) (n : Nat) : Bool := long && n % 2 == 1

/-- The word that the last word of a round key puts into round key number n: through the S-box, given by position, and rotated by a byte
with a round constant, or neither. -/
def scheduleWord (sub : Nat → Nat → Nat) (long : Bool) (n w : Nat) : Nat :=
  let b (j : Nat) : Nat := (w >>> (8 * (3 - j))) % 256
  if plainWord long n then wordOf fun j => sub j (b j)
  else (wordOf fun j => sub j (b ((j + 1) % 4))) ^^^ (rcon (if long then n / 2 - 1 else n - 1) * 2 ^ 24)

/-- Four words of a round key, each the exclusive or of an older one with the word made last. -/
def chainWords (old t : Nat) : Nat :=
  let w0 := wordAt old 0 ^^^ t
  let w1 := wordAt old 1 ^^^ w0
  let w2 := wordAt old 2 ^^^ w1
  ((w0 * 2 ^ 32 + w1) * 2 ^ 32 + w2) * 2 ^ 32 + (wordAt old 3 ^^^ w2)

/-- The round keys that travel with a block, after stage r (R329): with a 256-bit key round keys r and r + 1 become r + 1 and r + 2, with a
128-bit key round key r becomes r + 1 and the second is not used. -/
def nextKeys (sub : Nat → Nat → Nat) (long : Bool) (r : Nat) (k : Nat × Nat) : Nat × Nat :=
  if long then (k.2, chainWords k.1 (scheduleWord sub true (r + 2) (wordAt k.2 3)))
  else (chainWords k.1 (scheduleWord sub false (r + 1) (wordAt k.1 3)), 0)

/-- A key of more than 16 bytes is a 256-bit key. -/
def keyLong (key : Octets) : Bool := decide (16 < key.length)

/-- The round keys a block enters stage 0 with. -/
def firstKeys (key : Octets) : Nat × Nat := (blockOfBytes (key.take 16), if keyLong key then blockOfBytes (key.drop 16) else 0)

/-- The rounds of a key length: 14 for a 256-bit key, 10 for a 128-bit key. -/
def roundsOf (long : Bool) : Nat := if long then 14 else 10

/-- The next n round keys from stage r on. -/
def roundKeys (long : Bool) : Nat → Nat → Nat × Nat → List Nat
  | 0, _, _ => []
  | n + 1, r, k => computed k.1 fun a => computed k.2 fun b => a :: roundKeys long n (r + 1) (nextKeys (fun _ => sbox) long r (a, b))

/-- The round keys of a key. -/
def keySchedule (key : Octets) : List Nat := roundKeys (keyLong key) (roundsOf (keyLong key) + 1) 0 (firstKeys key)

def subBytes (x : Nat) : Nat := blockOf fun i => sbox (byteAt x i)

/-- The rounds after the first AddRoundKey; the last has no MixColumns. -/
def aesRounds : List Nat → Nat → Nat
  | [], x => x
  | [k], x => shiftRows (subBytes x) ^^^ k
  | k :: ks, x => computed (mixColumns (shiftRows (subBytes x)) ^^^ k) (aesRounds ks)

/-- AES of a block under a key schedule, and under a key. -/
def encWith (ks : List Nat) (x : Nat) : Nat := aesRounds ks.tail (x ^^^ ks.headD 0)
def aesEnc (key : Octets) (x : Nat) : Nat := encWith (keySchedule key) x

/-- ShiftRows and SubBytes undone. -/
def unsub (x : Nat) : Nat := blockOf fun i => invSbox (byteAt x (unshiftFrom i))

/-- The rounds undone, the last round key in front. -/
def unRounds : List Nat → Nat → Nat
  | [], x => x
  | [k], x => unsub x ^^^ k
  | k :: ks, x => computed (unmixColumns (unsub x ^^^ k)) (unRounds ks)

/-- The block that AES takes to x, under a key schedule. -/
def decWith (ks : List Nat) (x : Nat) : Nat := unRounds ks.reverse.tail (x ^^^ ks.reverse.headD 0)

/-! ### GCM -/

/-- A product in GF(2^128) with GCM's bit order: bit 127 of a block is the coefficient of 1. The number counts the bits still to come. -/
def gfMul (x : Nat) : Nat → Nat → Nat → Nat
  | 0, _, z => z
  | n + 1, v, z => gfMul x n (if v.testBit 0 then (v >>> 1) ^^^ (0xE1 <<< 120) else v >>> 1) (if x.testBit n then z ^^^ v else z)

def ghashMul (x y : Nat) : Nat := gfMul x 128 y 0

/-- The powers of a hash subkey that a key holds, highest first: H^n to H (R334). -/
def ghashPowers (h : Nat) : Nat → List Nat
  | 0 => []
  | 1 => [h]
  | n + 2 => match ghashPowers h (n + 1) with
    | p :: r => ghashMul p h :: p :: r
    | [] => [h]

/-- The steps of one cycle: up to eight blocks of a message, each on its own pair, with the accumulator added to the first (R334). -/
def ghashCycle (powers : List Nat) (acc : Nat) (bs : List Nat) : Nat :=
  match bs with
  | [] => acc
  | b :: r => (List.zipWith ghashMul ((b ^^^ acc) :: r) (powers.drop (powers.length - bs.length))).foldl (· ^^^ ·) 0

/-- GHASH of blocks, eight a cycle; the number bounds the cycles. -/
def ghashRun (powers : List Nat) : Nat → Nat → List Nat → Nat
  | 0, acc, _ => acc
  | n + 1, acc, bs => if bs.isEmpty then acc else ghashRun powers n (ghashCycle powers acc (bs.take 8)) (bs.drop 8)

/-- The counter block after another: its last 32 bits count (SP 800-38D). -/
def counterBlock (j0 i : Nat) : Nat := j0 / 2 ^ 32 * 2 ^ 32 + (j0 + i) % 2 ^ 32

/-- The counter block that a 96-bit IV begins with. -/
def firstCounter (iv : Octets) : Nat := natOf (fit 12 iv) * 2 ^ 32 + 1

/-- Data under the key stream from counter block i on. -/
def ctrStream (ks : List Nat) (j0 : Nat) : Nat → Nat → Octets → Octets
  | 0, _, _ => []
  | _, _, [] => []
  | n + 1, i, b => xorBytes (b.take 16) (bytesOf 16 (encWith ks (counterBlock j0 i))) ++ ctrStream ks j0 n (i + 1) (b.drop 16)

def ctrOf (ks : List Nat) (iv data : Octets) : Octets := ctrStream ks (firstCounter iv) (ceilDiv data.length 16) 1 data

/-- The 16-byte tag over additional data and ciphertext. -/
def gcmTag (ks : List Nat) (iv aad cipher : Octets) : Octets :=
  let bs := toBlocks aad ++ toBlocks cipher ++ [8 * aad.length * 2 ^ 64 + 8 * cipher.length]
  bytesOf 16 (ghashRun (ghashPowers (encWith ks 0) 8) bs.length 0 bs ^^^ encWith ks (firstCounter iv))

/-- GCM sealed: ciphertext and tag. -/
def gcmSeal (key iv aad plain : Octets) : Octets :=
  let ks := keySchedule key
  let c := ctrOf ks iv plain
  c ++ gcmTag ks iv aad c

/-- GCM opened: the plaintext of a ciphertext and its tag, none when the tag fails. -/
def gcmOpen (key iv aad data : Octets) : Option Octets :=
  let ks := keySchedule key
  let c := data.take (data.length - 16)
  if data.drop (data.length - 16) = gcmTag ks iv aad c then some (ctrOf ks iv c) else none

/-! ### Key wrap -/

/-- The initial value of the key wrap (R249). -/
def wrapIv : Nat := 0xA6A6A6A6A6A6A6A6

/-- A list with its last element taken off. -/
def unsnoc (l : List Nat) : Nat × List Nat := (l.getLast?.getD 0, l.dropLast)

/-- One block decryption of the unwrap, numbered t: the integrity register, and the 64-bit words in a ring whose last is next. -/
def unwrapStep (ks : List Nat) (t : Nat) (s : Nat × List Nat) : Nat × List Nat :=
  let (r, rest) := unsnoc s.2
  let b := decWith ks ((s.1 ^^^ t) * 2 ^ 64 + r)
  (b / 2 ^ 64, (b % 2 ^ 64) :: rest)

/-- The block decryptions of an unwrap, counted down. -/
def unwrapSteps (ks : List Nat) : Nat → Nat × List Nat → Nat × List Nat
  | 0, s => s
  | t + 1, s => unwrapSteps ks t (unwrapStep ks (t + 1) s)

/-- The 64-bit words of a byte string, n of them. -/
def words64 : Nat → Octets → List Nat
  | 0, _ => []
  | n + 1, b => natOf (b.take 8) :: words64 n (b.drop 8)

/-- What a wrapped value of 56 bytes unwraps to under a KEK: 36 block decryptions, six for each 64-bit word; none when the integrity check
fails (R249 to R251). -/
def aesUnwrap (kek data : Octets) : Option Octets :=
  if data.length ≠ 56 then none
  else
    let (a, ws) := unwrapSteps (keySchedule kek) 36 (natOf (data.take 8), words64 6 (data.drop 8))
    if a = wrapIv then some (ws.flatMap (bytesOf 8)) else none

/-- One block encryption of the wrap. -/
def wrapStep (ks : List Nat) (t : Nat) (s : Nat × List Nat) : Nat × List Nat :=
  let b := encWith ks (s.1 * 2 ^ 64 + s.2.headD 0)
  ((b / 2 ^ 64) ^^^ t, s.2.tail ++ [b % 2 ^ 64])

/-- The 56-byte value that wraps a 48-byte plaintext, as a far key manager makes it. -/
def aesWrap (kek plain : Octets) : Octets :=
  let ks := keySchedule kek
  let (a, ws) := (List.range 36).foldl (fun s i => wrapStep ks (i + 1) s) (wrapIv, words64 6 plain)
  bytesOf 8 a ++ ws.flatMap (bytesOf 8)

end Sys2Proof.Machine
end

