-- ==== Sys2Proof/Config.lean ====
section
/-! DEFINITION. What the spec leaves open or takes from outside standards without stating it. Each constant here is
opaque: nothing can evaluate it, and a statement that mentions it holds whatever it is. The assumption log names each. -/

namespace Sys2Proof.Config

/-- The raw samples an entropy source's generator delivers (R361): harbour × 2 + 1 for source B, and the sample's number in its stream.
FREE VALUE (log 5). -/
opaque rawSample : Nat → Nat → Bool

/-- PBKDF2 of RFC 8018 with HMAC-SHA-256: password, salt, iterations (R752). Uninterpreted (log 6). -/
opaque pbkdf2 : Octets → Octets → Nat → Octets

/-- An SLH-DSA signature as FIPS 205 defines it: secret key, message (R895, R919, R926). Uninterpreted (log 6). -/
opaque slhSign : Octets → Octets → Octets

/-- Whether an SLH-DSA signature verifies: public key, message, signature (R922, R934). Uninterpreted (log 6). -/
opaque slhVerify : Octets → Octets → Octets → Bool

/-- The 32-byte SLH-DSA public key that belongs to three seeds (R915, R919). Uninterpreted (log 6). -/
opaque slhPublic : Octets → Octets

/-- The part of a path's fixed latency that follows release (R30), in D-clock cycles: egress on a line port, line mode. The
spec leaves the division open. FREE VALUE (log 9). -/
opaque releaseLead : Bool → Bool → Nat

/-- How long before a Gelix frame's first bit its bank instant comes (R1038), in D-clock cycles: width. The spec calls it a fixed part of the
fixed latency and gives no figure. FREE VALUE (log 9). -/
opaque bankLead : Nat → Nat

/-- What the servo makes of the increment at an update: increment, offset in 0.1 ns (R569). The servo's filter is not given.
FREE VALUE (log 9). -/
opaque servoTrim : Nat → Int → Nat

/-- The key a harbour's SRAM PUF yields (R915). Fixed for the die; uninterpreted (log 6). -/
opaque pufKey : Nat → Octets

/-- The keyed hash of the LPM banks (R409): seed, table, family, length, masked prefix value, which of the two
candidate buckets. The spec does not give the function. FREE VALUE (log 7). -/
opaque lpmHash : Octets → Nat → Nat → Nat → Nat → Nat → Nat

/-- The keyed expanders (R332, R335, R358 to R360, R366): what a generator gives under a seed, by what it is asked for (0 a block's shuffle
draw, 1 a wiring choice, 2 a dispatch draw, 3 ballast operands of a GHASH pair, 4 a mask) and by a number. The expander is not given. FREE
VALUE (log 7). -/
opaque expand : Octets → Nat → Nat → Nat

/-- Where the locator finds a value (R813): index, subindex, element to harbour (2: the pilot alone holds it), bit offset, width less
one, word number; each is taken modulo its range. The map is not given. FREE VALUE (log 8). -/
opaque locate : Nat → Nat → Nat → Nat × Nat × Nat × Nat

/-- The register that a word of the configuration or state part of the register space belongs to (R806, R810): harbour and byte address
to its lowest address, its words, whether it is a byte string, and the values it shows, each with index, subindex, element, bit offset
and width; none where the address is reserved. The map is not given. FREE VALUE (log 8). -/
opaque registerAt : Nat → Nat → Option (Nat × Nat × Bool × List (Nat × Nat × Nat × Nat × Nat))

/-- The revision a block reports in BLOCK_ID (R812) and the tether in TETHER_ID (R902). FREE VALUE (log 8). -/
opaque blockRevision : Nat → Nat

/-- The MAC address of M0 and M1 and the clock identity, which come from the module serial (R795, R615): serial, port; serial. The
derivation is not given. FREE VALUE (log 7). -/
opaque serialMac : Octets → Nat → Octets
opaque serialClock : Octets → Octets

/-- Quantities a sensor or counter of the analogue parts reports, by object index, subindex, element and the cycle of the
reading (R902, R965, R1033, 0x3000:05 to 08). The spec gives no value. FREE VALUE (log 8). -/
opaque sensor : Nat → Nat → Nat → Nat → Nat

/-- The errors and codewords a lane counts, 0x3000:06 to 08 and 0A (R79): object subindex, lane, and the cycle up to which they are counted.
FREE VALUE (log 8). -/
opaque laneErrors : Nat → Nat → Nat → Nat

/-- Whether an enabled clear port that is down only because it receives Remote Fault answers Local Fault; else Remote Fault (R70): port.
The spec asks for one of the two and does not say which. FREE VALUE (log 50). -/
opaque answersLocal : Nat → Bool

/-- The salt an OPEN for a credential that does not exist is answered with (R751): boot epoch, identifier. The derivation
is not given. FREE VALUE (log 7). -/
opaque decoySalt : Nat → Nat → Octets

/-- Whether a lost range of a park region that is not the whole region holds a byte of a parked frame (R665): harbour, first
line, lines, cycle. Where a frame lies in the region is not given. FREE VALUE (log 10). -/
opaque holdsParked : Nat → Nat → Nat → Nat → Bool

/-- How many D-clock cycles after an accepted reset its edge E0 falls, at most 1 ms (R702), and how many blocks, steps and jobs of the
old generation are discarded (R718): berth, cycle. The spec leaves both open. FREE VALUE (log 11). -/
opaque resetDelay : Nat → Nat → Nat
opaque resetItems : Nat → Nat → Nat

/-- The event code of the journal entry that records a COMMIT setting or clearing suite BYPASS (R276). The spec asks for the entry and
gives no code. FREE VALUE (log 12). -/
opaque bypassCode : Nat → Nat

/-- The event code of the journal entry that records a berth reset with its credential (R706). The spec asks for the entry and gives its event,
0xA001, no place for a credential (R719, R846). FREE VALUE (log 12). -/
opaque resetCode : Nat

/-- Whether the module supply stayed in regulation through a power-down, so that the reset record was kept (R981, R986),
by the cycle at which start-up begins. FREE VALUE (log 8). -/
opaque supplyRetained : Nat → Bool

end Sys2Proof.Config
end

