-- ==== Sys2Proof/Machine/State.lean ====
section
/-! DEFINITION. The state of the module as plain data, the reasons a command can stop, and the state after reset. -/

namespace Sys2Proof.Machine

/-- Why the model stops. Safe: the module itself goes on or could not be given such an input. -/
inductive Fault where
  /-- Raised by every meaning (through `run`) for a command that is not well formed: an operand that does not fit the field that
  carries it, which no host and no line can send. Safe. -/
  | malformed (what : String)
  deriving DecidableEq, Repr

/-- Why the model has no meaning for a command. -/
inductive Refusal where
  /-- Raised by the dispatcher for a command without a meaning. Safe. -/
  | notModelled (mnemonic : String)
  deriving DecidableEq, Repr

/-! ### Values and outputs -/

/-- The value of an object: an unsigned number, BOOL, RATE or TIME80 in ns; a signed number; octets or a string (R773). -/
inductive Val where
  | nat (n : Nat)
  | int (x : Int)
  | oct (b : Octets)
  deriving DecidableEq, Repr

/-- A message the module sends under R742: its path and destination, header fields and plaintext body. -/
structure Msg where
  path : Path
  dst : Nat
  op : Nat
  session : Nat
  sequence : Nat
  status : Nat
  reference : Nat
  isReply : Bool := true
  sealed : Bool := true
  more : Bool := false
  body : Octets := []
  /-- The whole message, for one that the module passes on unchanged (R737). -/
  raw : Option Octets := none
  /-- The Ethernet header of a message that leaves on a clear port (R728). -/
  head : Octets := []
  deriving DecidableEq, Repr

/-- What the module puts out: messages, frames, relayed messages, and pin edges. A message over MCH leaves in the cells of Gelix frames. -/
inductive Out where
  | message (m : Msg)
  | relayed (path : Path) (dst : Nat) (msg : Octets)
  | mgmtAnswer (m : Nat) (kind : MgmtKind)
  | clearFrame (port : Nat) (bytes : Octets)
  | lineFrame (port : Nat) (f : LineFrame)
  | gelix (port : Nat) (f : GelixFrame)
  | ptp (port : Nat) (kind : PtpKind)
  | trigger (trigger : Nat) (high : Bool)
  /-- A clear port begins to transmit a fault sequence, or stops: 0 none, 1 Local Fault, 2 Remote Fault (R70, R175). -/
  | faultSignal (port kind : Nat)
  /-- What the stowage engine answers a master's access with (R624, R652, R660): the line of a read, nothing for a write carried out, and none
  for an error. -/
  | stowageAnswer (harbour master : Nat) (answer : Option Octets)
  deriving DecidableEq, Repr

/-! ### Events, journal and notification -/

/-- An event record (R844). -/
structure EvRec where
  code : Nat
  flags : Nat
  seq : Nat
  time : Nat
  runtime : Nat
  bpid : Nat
  params : Octets
  deriving DecidableEq, Repr

/-- A journal entry: its number and its record (R891). -/
structure Entry where
  num : Nat
  ev : EvRec
  deriving DecidableEq, Repr

/-- A seal: its entry number, the chain value of the seal entry, the signature once made, and its flags (R894 to R909). -/
structure Seal where
  num : Nat
  entry : Nat
  chain : Octets
  signature : Octets := []
  unsigned : Bool := false
  pending : Bool := false
  deriving DecidableEq, Repr

/-- A session's subscription and notify queue (R787 to R790), with the role and BPID that R788 filters by. -/
structure Sub where
  filters : List (Nat × Nat) := []
  role : Nat := 0
  bpid : Nat := 0
  session : Nat := 0
  queue : List EvRec := []
  lost : Nat := 0
  overs : Bool := false
  deriving DecidableEq, Repr

/-- An alarm pin (R847): asserted, and in pulse mode when the pulse ends, in D-clock cycles. -/
structure Pin where
  asserted : Bool := false
  until_ : Nat := 0
  deriving DecidableEq, Repr

/-- Events raised since start-up, the journal and its seals, the subscriptions and the alarm pins. -/
structure Ev where
  /-- The sequence of the next event (R845). -/
  seq : Nat := 1
  /-- The entries held on the die, newest first (R899), the newest entry's number and its chain value (R892). -/
  journal : List Entry := []
  newest : Nat := 0
  chain : Octets := zeros 32
  /-- Entries and runtime since the previous seal (R894). -/
  sinceSeal : Nat := 0
  sealRuntime : Nat := 0
  seals : List Seal := []
  sealsIssued : Nat := 0
  /-- The export mark and whether 0x9025 has been raised for it (R900). -/
  mark : Nat := 0
  marked : Bool := false
  /-- Events held before the pilots run (R971), oldest first. -/
  early : List EvRec := []
  /-- Hardware events held while both pilots are stopped, per harbour, and those not held (R944). -/
  held0 : List EvRec := []
  held1 : List EvRec := []
  notHeld : Nat := 0
  subs : Tbl Sub := []
  pins : Tbl Pin := []
  /-- Counters that have raised 0xB001 (R823), by key. -/
  saturated : List Nat := []
  /-- The journal writer's accesses to a journal region that a harbour's engine has refused (R652, R667), and by harbour and region when it last
  raised 0x8004 for one. -/
  refused : Tbl Nat := []
  refusedAt : Tbl (Option Nat) := []
  deriving DecidableEq, Repr

/-! ### The tether -/

/-- What the vault's canary reads as (R859, R903). -/
inductive Canary where
  | valid
  | marker
  | lost
  deriving DecidableEq, Repr

/-- A held tamper-buffer entry: its record, tether sequence, and whether its bit is not yet burned (R878). -/
structure Buffered where
  ev : EvRec
  tseq : Nat
  unburned : Bool := true
  /-- The journal has taken it. -/
  taken : Bool := false
  deriving DecidableEq, Repr

/-- The vault of the tether (R857). -/
structure Vault where
  canary : Canary := .valid
  canaryBytes : Octets := []
  bootEpoch : Nat := 0
  /-- The rwc values of table 0x2100, by key. -/
  cfg : Tbl Val := []
  /-- The secret S of each credential (R752), by element. -/
  secrets : Tbl (Option Secret) := []
  svcSecret : Octets := []
  svcPublic : Octets := []
  svcCert : Octets := []
  svcState : Nat := 0
  headNum : Nat := 0
  headChain : Octets := []
  headValid : Bool := false
  deriving DecidableEq, Repr

/-- A source of R868: in alarm, the response in force (rank) and the units of its scope it reaches, events counted since
start-up, network time of the last (R907). -/
structure Source where
  alarm : Bool := false
  inForce : Nat := 0
  units : List Nat := []
  events : Nat := 0
  last : Nat := 0
  deriving DecidableEq, Repr

/-- The tether: it keeps running on the cell (R857, R858). -/
structure Tether where
  vault : Vault := {}
  /-- The head register. -/
  headNum : Nat := 0
  headChain : Octets := []
  headValid : Bool := false
  buffer : List Buffered := []
  overflow : Bool := false
  lost : Nat := 0
  runtime : Nat := 0
  runtimeAtLoss : Nat := 0
  /-- D-clock cycles towards the next second of runtime. -/
  runtimeSub : Nat := 0
  tseq : Nat := 0
  onCell : Bool := true
  cellPresent : Bool := true
  zeroized : Bool := false
  retirePending : Bool := false
  /-- Sources with a response of rank 1 to 3 recorded on the cell (R877), and the responses in force, by source, as the
  tether keeps them when it passes to the cell. -/
  recorded : List Nat := []
  responses : List Nat := []
  loopOn : Bool := false
  /-- Quantity in alarm, detectors in alarm (two bits each), quantity in monitor fault (bit 6: zeroize pins). -/
  qAlarm : Nat := 0
  detectors : Nat := 0
  qFault : Nat := 0
  quiescePin : Bool := false
  /-- A cell has been fitted within the swap window (R885). -/
  swapSwapped : Bool := false
  loopMissed : Nat := 0
  loopGood : Nat := 0
  /-- End of the cell swap window, in D-clock cycles; whether a cell was fitted in it. -/
  swapEnd : Option Nat := none
  deriving DecidableEq, Repr

/-! ### Sessions and management -/

/-- A stored reply of R759: the request's sequence and ciphertext, and the reply messages. -/
structure Stored where
  sequence : Nat
  cipher : Octets
  reply : List Msg
  deriving DecidableEq, Repr

/-- A session slot (R747 to R764, R794), with what is held per session: pending set, indirect address, locator, query
results, latched words and attestation report. -/
structure Sess where
  state : Nat := 0
  id : Nat := 0
  role : Nat := 0
  method : Nat := 0
  cred : Nat := 0
  bpid : Nat := 0
  /-- The berth that a Tenant session is bound to (R683). -/
  berth : Nat := 256
  path : Path := .mgmt 0
  src : Nat := 0
  openedTime : Nat := 0
  requestTime : Nat := 0
  openedAt : Nat := 0
  requestAt : Nat := 0
  hi : Nat := 0
  sent : Nat := 0
  pend : Tbl Val := []
  secret : Option Secret := none
  transcript : Octets := []
  hostNonce : Octets := []
  moduleNonce : Octets := []
  stored : List Stored := []
  indirect : Nat := 0
  locQuery : Octets := zeros 8
  locResult : Octets := []
  latch : List (Nat × Nat) := []
  query : Tbl Octets := []
  report : Octets := []
  reportSig : Octets := []
  deriving DecidableEq, Repr

/-- A relay entry (R733, R734). -/
structure Relay where
  port : Nat
  session : Nat
  path : Path
  src : Nat
  usedAt : Nat
  deriving DecidableEq, Repr

/-- The intercept of a clear port (R726 to R730): tracked sources, bucket levels and their times, the buffer, and
replies that wait for idle time, with the time they were made; of a line port only the messages that wait for the cells of MCH (R143). -/
structure Intercept where
  sources : List Nat := []
  /-- By source position; 32 is the shared bucket: bytes of credit used, and when it was last brought up to date. -/
  used : Tbl Nat := []
  at_ : Tbl Nat := []
  /-- The intercept buffer: arrival cycle and length of each frame that waits. -/
  waiting : List (Nat × Nat) := []
  replies : List (Nat × Msg) := []
  /-- The tags of the last frame that the intercept took of each source (R728). -/
  tags : Tbl Octets := []
  deriving DecidableEq, Repr

/-- Management state of the session pilot (R738 to R770). -/
structure Mgmt where
  sessions : Tbl Sess := []
  /-- Identifiers of expired sessions and when they expired (R762). -/
  expired : List (Nat × Nat) := []
  pilot : Nat := 0
  relay : List Relay := []
  icept : Tbl Intercept := []
  linkUp : Tbl Bool := []
  /-- Consecutive failed proofs and end of the lock, by credential (R756). -/
  fails : Tbl Nat := []
  lockedTo : Tbl (Option Nat) := []
  lastUse : Tbl Nat := []
  /-- When each harbour's reserved intercept path is free, and the port its round robin looks at first (R727). -/
  pathFree : Tbl Nat := []
  pathNext : Tbl Nat := []
  /-- Expert grants (R799): end in cycles, end in network time, granting credential, by slot. -/
  grants : Tbl (Option (Nat × Nat × Nat)) := []
  /-- The session slots that hold the debug access ports open (R804). -/
  debugBy : List Nat := []
  /-- 0x9040: the credential of a held retire confirmation and when it was written (R888). -/
  retireBy : Option (Nat × Nat) := none
  /-- The SCRATCH registers of the register space, by harbour × 2^32 + address (R811). -/
  scratch : Tbl Nat := []
  /-- Values written to the rw SerDes registers, by lane element × 256 + offset (R822). -/
  taps : Tbl (Option Nat) := []
  reports : Nat := 0
  deriving DecidableEq, Repr

/-! ### System: supply, clocks, start-up, pilots -/

/-- Start-up, mains, keel, reference loop and pilots (R959 to R994). -/
structure Sys where
  /-- D-clock cycles since the model's first step. -/
  elapsed : Nat := 0
  /-- 0x1100:01 and :02. -/
  state : Nat := 0
  step : Nat := 1
  /-- Both harbours are out of reset and the datapath runs. -/
  running : Bool := false
  startedAt : Nat := 0
  duration : Nat := 0
  cause : Nat := 0
  stopStep : Nat := 0
  attempt : Nat := 0
  mains : Bool := false
  mainsLostAt : Option Nat := none
  warned : Bool := false
  rides : Nat := 0
  /-- ALM2 driven by the supply controller (R978). -/
  failDriven : Bool := false
  pilot0 : Bool := false
  pilot1 : Bool := false
  keel : Bool := true
  refInForce : Nat := 0
  refState : Nat := 0
  /-- The steering value that holdover holds (R965). -/
  steering : Int := 0
  refValid : Nat := 0
  refLosses : Nat := 0
  /-- A commanded restart waits for its seal: when the wait ends (R983). -/
  restartAt : Option Nat := none
  /-- A restart of a zeroize or Retire is due: its latest time and cause (R876, R889). -/
  zeroAt : Option (Nat × Nat) := none
  /-- The birth identity is available (R916). -/
  birthOk : Bool := false
  tetherLostNow : Bool := false
  runtimeRestored : Bool := false
  /-- The retire fuse as start-up read it, or a Retire burned it (R890). -/
  retired : Bool := false
  pastSaturation : Nat := 0
  epochRestarted : Bool := false
  /-- A configuration in force that is not yet in flash (R972). -/
  unsaved : Bool := false
  /-- When a watchdog last stopped a pilot. -/
  pilotDownAt : Nat := 0
  /-- The CXL reference clock output is driven (R1008). -/
  cxlClock : Bool := false
  deriving DecidableEq, Repr

/-! ### Lanes and ports -/

/-- The detectors and lock state of a lane (R60, R82, R120 to R122, R153). -/
structure Lane where
  los : Bool := false
  lol : Bool := false
  signal : Bool := false
  cdr : Bool := false
  adapted : Bool := false
  cwLock : Bool := false
  /-- Logical lane number once the lane holds lane lock (R118, R121). -/
  logical : Option Nat := none
  /-- The lane has been powered up since start-up. -/
  ran : Bool := false
  deriving DecidableEq, Repr

/-- A port's receive and training state (R60 to R85) and its defects (R153). -/
structure Port where
  /-- 0x3100:06 PHASE of an enabled port. -/
  phase : Nat := 0
  up : Bool := false
  /-- When the lanes last began to train (R61); kept while the port is disabled. -/
  enabledAt : Nat := 0
  timedOut : Bool := false
  /-- The lanes are locked and deskewed (R60); they have reached phase Up since Enable came into force (R61). -/
  aligned : Bool := false
  wasUp : Bool := false
  /-- The fault sequence a clear port transmits (R70, R175): 0 none, 1 Local Fault, 2 Remote Fault. -/
  sends : Nat := 0
  pcsLost : Bool := false
  fault : Nat := 0
  deskew : Nat := 0
  skew : Nat := 0
  loal : Bool := false
  lof : Bool := false
  lom : Bool := false
  tim : Bool := false
  auth : Bool := false
  deg : Bool := false
  feRdi : Bool := false
  /-- Fault forwarding active, and since when each defect that can trigger it has been declared (R172). -/
  fwd : Bool := false
  since : Tbl Nat := []
  deriving DecidableEq, Repr

/-- A record of the client stream under way at the receiver (R107, R116). -/
structure Parse where
  /-- Bytes of the current record taken so far, header included. -/
  part : Octets := []
  /-- Waiting for the header that a later FHP names. -/
  resync : Bool := true
  /-- Stamp of the Gelix frame in which the record began. -/
  stamp : Nat := 0
  deriving DecidableEq, Repr

/-- The receive side of a Gelix port (R118 to R148, R154 to R159, R170). -/
structure GelRx where
  /-- 0 HUNT, 1 PRESYNC, 2 SYNC. -/
  st : Nat := 0
  /-- Candidates: position of the first FAW and exact FAWs found. -/
  cands : List (Nat × Nat) := []
  fawErr : Nat := 0
  overflowed : Bool := false
  mfIn : Bool := false
  mfExpect : Option Nat := none
  mfBad : Nat := 0
  stat : Nat := 0
  /-- Parity of the previous payload when it was received in SYNC. -/
  parity : Option Nat := none
  /-- Outcome of the last keyed frames, newest first, at most 16; run of good ones. -/
  hist : List Bool := []
  goodRun : Nat := 0
  rdiLast : Bool := false
  rdiRun : Nat := 0
  parse : Parse := {}
  /-- Trace bytes of the quarter under way, the last message formed, and how often it was formed in a row. -/
  trace : Octets := []
  traceLast : Octets := []
  traceRun : Nat := 0
  /-- Management channel message in progress and the expected cell sequence. -/
  mch : Octets := []
  mchOpen : Bool := false
  mchSeq : Option Nat := none
  mchKeyed : Bool := true
  /-- When KNR was last taken (R314), and whether 0x4023 has been raised in the run of KSP = 1 (R321). -/
  knrAt : Option Nat := none
  kspTold : Bool := false
  /-- When SYNC was entered, when the out-of-frame time started, and what the integrator held then (R154). -/
  syncAt : Nat := 0
  oofAt : Nat := 0
  oofHeld : Nat := 0
  mfInAt : Nat := 0
  lomHeld : Nat := 0
  deriving DecidableEq, Repr

/-- One second's grading, held until it is committed (R184). -/
structure Second where
  time : Nat := 0
  es : Bool := false
  ses : Bool := false
  nks : Bool := false
  fes : Bool := false
  fses : Bool := false
  inh : Bool := false
  errored : Nat := 0
  rei : Nat := 0
  /-- The second was classified. -/
  graded : Bool := true
  /-- A step of the time counter has put the second into its 15-minute or 24-hour bin already (R187, R190). -/
  in15 : Bool := false
  in24 : Bool := false
  untraceable : Bool := false
  /-- Time was stepped in the second (R199). -/
  stepped : Bool := false
  /-- The second belongs to the run that goes against its end's availability (R182). -/
  neIn : Bool := false
  feIn : Bool := false
  /-- Availability of each end decided for this second. -/
  neUnavail : Bool := false
  feUnavail : Bool := false
  deriving DecidableEq, Repr

/-- A bin record (R198). -/
structure Bin where
  start : Nat := 0
  flags : Nat := 0
  es : Nat := 0
  ses : Nat := 0
  uas : Nat := 0
  bbe : Nat := 0
  nks : Nat := 0
  fes : Nat := 0
  fses : Nat := 0
  fuas : Nat := 0
  fbbe : Nat := 0
  graded : Nat := 0
  /-- A 1 s history record whose stowage content has been lost (R192): it reads as never written once the loss is released. -/
  lost : Bool := false
  deriving DecidableEq, Repr

/-- Performance monitoring of a line port (R177 to R199). -/
structure Pm where
  /-- Facts of the second under way: errored frames, BIP errors, REI sum, NOKEY, out of SYNC, defects LOS to DEG raised at
  any moment (bits as R194), RDI received. -/
  errored : Nat := 0
  anyError : Bool := false
  rei : Nat := 0
  nokey : Bool := false
  oof : Bool := false
  seen : Nat := 0
  seenRdi : Bool := false
  untraceable : Bool := false
  stepped : Bool := false
  partialSec : Bool := true
  /-- PM enable was FALSE at some moment of the second (R178). -/
  pmOff : Bool := false
  /-- The seconds before this one, by their number, were not wholly enabled (R177). -/
  partialTo : Nat := 0
  /-- Seconds graded and not yet committed, newest first, at most ten. -/
  recent : List Second := []
  neUnavail : Bool := false
  feUnavail : Bool := false
  /-- Consecutive seconds that go against each end's availability, with the time of the first. -/
  neRun : Nat := 0
  feRun : Nat := 0
  neFirst : Nat := 0
  feFirst : Nat := 0
  lastClass : Nat := 0
  lastErrored : Nat := 0
  lastRei : Nat := 0
  cur15 : Bin := {}
  hist15 : List Bin := []
  cur24 : Bin := {}
  prev24 : Bin := {}
  hist1 : List Bin := []
  /-- Consecutive bad and good seconds of DEG (R160). -/
  degBad : Nat := 0
  degGood : Nat := 0
  /-- The last second of the time counter whose end has been graded. -/
  done : Nat := 0
  deriving DecidableEq, Repr

/-! ### Stowage, berths, snapshots -/

/-- A lost-range record (R675). -/
structure LostRec where
  region : Nat
  first : Nat
  count : Nat
  cause : Nat
  time : Nat
  released : Bool := false
  deriving DecidableEq, Repr

/-- One harbour's stowage engine (R619 to R670). -/
structure Stow where
  st : Nat := 0
  capacity : Nat := 0
  metaBits : Nat := 0
  /-- The stowage key, once drawn (R625). -/
  key : Octets := []
  restarts : Nat := 0
  /-- Plaintext of written data lines, by line number; an unlisted line has never been written (R637). -/
  lines : Tbl Octets := []
  /-- Minor counter of a data line; counter of a tree line: level × 2^34 + index of the counter (R632, R636). -/
  minors : Tbl Nat := []
  counters : Tbl Nat := []
  recs : List LostRec := []
  overflow : Bool := false
  /-- Losses that no record holds (R670): their lines are lost as those of a record are. -/
  unrecorded : List LostRec := []
  quiesced : List Nat := []
  /-- MiB that the HDM decoder maps from DPA 0 on (R622); 0 before it is programmed. -/
  hdm : Nat := 0
  /-- Lost data lines that the engine has written back with poison (R635, R660). -/
  poisoned : List Nat := []
  deriving DecidableEq, Repr

/-- A berth's reset state and its last record (R699 to R718). -/
structure Berth where
  gen : Nat := 0
  resets : Nat := 0
  /-- Mode of a reset whose edge E0 is fixed and not yet reached, E0 in cycles, credential that wrote it. -/
  due : Option (Nat × Nat × Nat) := none
  resetting : Bool := false
  releasing : Bool := false
  started : Nat := 0
  /-- The cycle of E0. -/
  startedAt : Nat := 0
  completed : Nat := 0
  mode : Nat := 0
  oldGen : Nat := 0
  discarded : Nat := 0
  items : Nat := 0
  held : Nat := 0
  slots : Nat := 0
  traceable : Bool := false
  /-- The BPID that the record carries (R686). -/
  bpid : Nat := 0
  deriving DecidableEq, Repr

/-- A KEK and the shares held towards one (R253 to R259). -/
structure Kek where
  kek : Octets := []
  shareA : Option (Octets × Nat × Nat) := none
  shareB : Option (Octets × Nat × Nat) := none
  failures : Nat := 0
  deriving DecidableEq, Repr

/-- The snapshot (R826 to R843). -/
structure Snap where
  /-- 0 idle, 1 scheduled, 2 draining, 3 held. -/
  st : Nat := 0
  seq : Nat := 0
  time : Nat := 0
  scope : Nat := 1
  value : Nat := 0
  flags : Nat := 0
  /-- Harbours that have captured. -/
  captured : List Nat := []
  /-- By basin: all words of the part, words written, oldest held, words archived, and the cycle up to which the drain has been
  brought. -/
  words : Tbl (List Nat) := []
  written : Tbl Nat := []
  oldest : Tbl Nat := []
  archived : Tbl Nat := []
  drained : Tbl Nat := []
  deriving DecidableEq, Repr

/-! ### What survives mains: OTP and flash -/

/-- A harbour's identity record (R912). -/
structure IdRec where
  lot : Octets := zeros 8
  wafer : Nat := 1
  dieX : Int := 0
  dieY : Int := 0
  week : Nat := 0
  deriving DecidableEq, Repr

/-- The one-time-programmable fuses (R769, R879, R889, R912 to R915, R933, R948). -/
structure Otp where
  serial : Octets := zeros 12
  week : Nat := 0
  rec0 : IdRec := {}
  rec1 : IdRec := {}
  birthPublic : Octets := zeros 32
  statementDigest : Octets := zeros 32
  enrolCode : Octets := []
  enrolSalt : Octets := zeros 16
  vendorKeys : List Octets := [zeros 32, zeros 32, zeros 32, zeros 32]
  revoked : Nat := 0
  rollback : Nat := 0
  mirror0 : Nat := 0
  mirror1 : Nat := 0
  retired : Bool := false
  /-- Both PUFs still yield the keys the birth public key was made with (R915, R916). -/
  pufOk : Bool := true
  deriving DecidableEq, Repr

/-- A firmware slot: its state, the image header, and what holds of the image in flash: its vendor signature verifies, its
payload matches the digest, its co-signature was checked and verifies (R932, R934, R954). -/
structure FwSlot where
  state : Nat := 0
  header : Octets := []
  signedOk : Bool := false
  payloadOk : Bool := false
  coSigned : Bool := false
  deriving DecidableEq, Repr

/-- The header of the image the module is delivered with (R932; log 2): version and security version 0, vendor key 0. -/
def factoryHeader : Octets :=
  b4 0x56534657 ++ b1 1 ++ zeros 3 ++ b4 0 ++ b4 0 ++ b4 1 ++ zeros 32 ++ zeros 4 ++
  (ascii "VS6404-M" ++ zeros 4) ++ zeros 12 ++ zeros 176

/-- A bank of a gate control list (R509). -/
structure GBank where
  on : Bool := false
  cycle : Nat := 100000
  base : Nat := 0
  entries : List (Nat × Nat) := [(0xFF, 100000)]
  fitted : Nat := 0
  limits : Octets := List.replicate 16 0xFF
  deriving DecidableEq, Repr

/-- A copy of the configuration in flash (R972): the rwc objects in force, the prefixes in the order of insertion, and by port the
gate bank in force with whether a pending bank was committed and not yet swapped. -/
structure Copy where
  config : Tbl Val := []
  prefixes : List Octets := []
  gates : Tbl (GBank × Bool) := []
  deriving DecidableEq, Repr

/-- Flash: firmware slots, the stored configuration, anchor, runtime, certificate signature, birth statement. -/
structure Flash where
  slotA : FwSlot := { state := 2, header := factoryHeader, signedOk := true, payloadOk := true }
  slotB : FwSlot := {}
  boot : Nat := 0
  /-- The newer whole copy of the configuration, and the older one; none where no whole copy exists. -/
  stored : Option Copy := none
  older : Option Copy := none
  anchor : Octets := zeros 32
  coRequired : Bool := false
  certSignature : Octets := []
  runtime : Nat := 0
  statement : Octets := zeros 96
  statementSig : Octets := []
  deriving DecidableEq, Repr

/-- Firmware staging and activation state (R936 to R949). -/
structure Fw where
  running : Nat := 0
  staging : Nat := 0
  cause : Nat := 0
  length : Nat := 0
  /-- Bytes of the staging region, by chunk. -/
  chunks : Tbl Octets := []
  installing : Bool := false
  installInvalid : Bool := false
  /-- Activation under way: slot, and 1 while the seal is awaited, 2 while the pilots are stopped. -/
  activating : Option (Nat × Nat) := none
  stoppedAt : Nat := 0
  version : Nat := 0
  certBody : Octets := zeros 128
  certSig : Octets := zeros 7856
  request : Octets := []
  requestSig : Octets := []
  deriving DecidableEq, Repr

/-! ### Associations and keys -/

/-- A key slot (R231, R235 to R240, R248, R249): the key and salt, key epoch, PNs or FCNT, and the order in which it was
written among the association's keys (R288; 0 empty). -/
structure Slot where
  full : Bool := false
  key : Octets := []
  salt : Octets := []
  kep : Nat := 0
  initPn : Nat := 1
  next : Nat := 0
  spent : Bool := false
  order : Nat := 0
  /-- Highest FCNT passed under a line RX slot; none passed yet (R235). -/
  hi : Option Nat := none
  peerEpoch : Nat := 0
  peerPort : Nat := 0
  /-- 0x4001 and 0x4002 have been raised for this key (R239, R240). -/
  rekeyed : Bool := false
  stopped : Bool := false
  deriving DecidableEq, Repr

/-- An association's key and switch state (R201 to R271, R287 to R325). -/
structure Assoc where
  s0 : Slot := {}
  s1 : Slot := {}
  written : Nat := 0
  txPhase : Nat := 0
  rxCur : Nat := 0
  /-- Replay state of the receive-current slot: H, bitmap, lowest PN (R230). -/
  high : Nat := 0
  bitmap : Nat := 0
  lowest : Nat := 0
  /-- 0x4040:04; multiframes of notice that remain; KSP is being sent; last switch, switches, KNR wait. -/
  sw : Nat := 0
  notice : Nat := 0
  ksp : Bool := false
  given : Nat := 0
  lastSwitch : Nat := 0
  /-- The D-clock cycle of the last switch (R324). -/
  flipAt : Nat := 0
  switches : Nat := 0
  knrWait : Nat := 0
  waitEvent : Bool := false
  /-- The request came into force because a step passed over its time (R562). -/
  stepped : Bool := false
  deriving DecidableEq, Repr

/-- A harbour's key fingerprint filter (R261 to R264) and keys written since start-up. -/
structure KeyFilter where
  bits : Tbl Bool := []
  keys : Nat := 0
  told : Nat := 0
  deriving DecidableEq, Repr
/-! ### Network time -/

/-- A harbour's time counter (R552, R559): its value and the remaining slew in units of 2^-32 ns, the increment in force,
and the part of a unit of slew carried over. -/
structure Ctr where
  val : Nat := 0
  inc : Nat := 1717986918
  slew : Int := 0
  resid : Nat := 0
  deriving DecidableEq, Repr

/-- A change of the time counter that has been accepted and waits for its edge (R558). -/
inductive TimeChange where
  | increment (v : Nat)
  | slew (x : Int)
  | step (x : Int)
  | set (t : Nat)
  deriving DecidableEq, Repr

/-- An input with its capture records, oldest first, when the last was recorded, and whether a step fell since (R606 to
R610). -/
structure Capture where
  recs : List Octets := []
  lastAt : Option Nat := none
  stepped : Bool := false
  deriving DecidableEq, Repr

/-- A trigger output (R600 to R605): driven active, the scheduled end of the pulse under way, the time from which pulses are
produced, whether a one-shot has fired, and whether a step fell since the last record. -/
structure Trig where
  active : Bool := false
  stop : Nat := 0
  since : Nat := 0
  fired : Bool := false
  stepped : Bool := false
  /-- The polarity at the pin: pulses are low (R601). -/
  low : Bool := false
  deriving DecidableEq, Repr

/-- Time transfer on a Gelix port (R591 to R593): sent MFAS 0 frames (KEP, FCNT, time, cycle), received pairs (TTX, own
stamp, cycle), the latest receive stamp (KEP, FCNT, time, traceable), the next report's sequence. Times in 0.1 ns. -/
structure Tt where
  sends : List (Nat × Nat × Nat × Nat) := []
  pairs : List (Nat × Nat × Nat) := []
  stamp : Option (Nat × Nat × Nat × Bool) := none
  seq : Nat := 0
  /-- Reports received and not yet used, with whether every cell came keyed (R593). -/
  got : List (Octets × Bool) := []
  deriving DecidableEq, Repr

/-- The module's time (R551 to R612). -/
structure TimeSt where
  c0 : Ctr := {}
  c1 : Ctr := {}
  /-- Accepted changes and the cycle of their edge, in half cycles of the D-clock (T-clock edges) since the first step. -/
  changes : List (Nat × TimeChange) := []
  /-- 0x7000:06 and 0x7000:07. -/
  state : Nat := 0
  src : Nat := 0
  /-- Consecutive updates within the threshold, and beyond four times it. -/
  good : Nat := 0
  bad : Nat := 0
  offset : Int := 0
  delay : Nat := 0
  utc : Int := 0
  /-- When the last usable measurement and the last delay exchange were made, and when holdover was entered. -/
  measAt : Nat := 0
  delayAt : Nat := 0
  holdAt : Nat := 0
  leaseEnd : Option Nat := none
  /-- Increments while locked, newest first: T-clock edges, increment (R566). -/
  locked : List (Nat × Nat) := []
  lastStep : Nat := 0
  steps : Nat := 0
  lock1 : Bool := true
  linkUp : Bool := true
  copyAt : Option Nat := none
  lockFaults : Nat := 0
  /-- Seconds value of the PPS edge before (R597). -/
  ppsSec : Option Nat := none
  /-- The ordinary clock: last Sync's receive time and origin with correction, a two-step Sync waiting, the send time of the
  last Delay_Req, in 2^-16 ns; a Sync and a delay exchange seen. -/
  ptpRx : Option Nat := none
  ptpWait : Option (Nat × Int) := none
  ptpOrigin : Int := 0
  ptpReq : Option Nat := none
  ptpDelay : Option Nat := none
  /-- When the ordinary clock last sent its periodic message, and as timeTransmitter an Announce and a Pdelay_Req (R581). -/
  ptpSent : Option Nat := none
  ptpAnnounced : Option Nat := none
  ptpAsked : Option Nat := none
  caps : Tbl Capture := []
  trigs : Tbl Trig := []
  tts : Tbl Tt := []
  deriving DecidableEq, Repr

/-! ### Cipher banks -/

/-- A pipeline, masked lane or GHASH pair (R330, R344, R384): 0 in service, 1 out of service and not yet empty,
2 quarantine, 3 retired. -/
structure CUnit where
  st : Nat := 0
  faults : Nat := 0
  last : Nat := 0
  lastTime : Nat := 0
  cause : Nat := 0
  leftAt : Nat := 0
  deriving DecidableEq, Repr

/-- A block as it entered stage 0 of a pipeline, recorded for a replay (R343): its key, counter block and data block. -/
structure Blk where
  key : Octets := []
  counter : Nat := 0
  data : Nat := 0
  serial : Nat := 0
  deriving DecidableEq, Repr

/-- The blocks of a frame, or of a Gelix frame, on their way into a bank's pipelines (R328, R332, R343): block 0 masks the tag, block i takes
the i-th 16 bytes of the data. The key is taken once, as the frame enters the bank (R271, R301, R303). `serial` names the frame the blocks belong
to. -/
structure Job where
  key : Octets := []
  /-- The whole counter runs on from block to block, as in a NOKEY frame (R356); else its last 32 bits do. -/
  runs : Bool := false
  /-- The first counter block, as a number. -/
  j0 : Nat := 0
  data : Octets := []
  /-- The additional data of a message that GHASH authenticates (R333); none for other work. -/
  aad : Option Octets := none
  count : Nat := 0
  sent : Nat := 0
  serial : Nat := 0
  /-- A recorded block that is computed again (R343). -/
  again : Option Blk := none
  deriving DecidableEq, Repr

/-- A GHASH step (R333, R334): the cycle on which a pair carries it, and which input it takes of which message, by its key and first counter
block. -/
structure HashStep where
  cycle : Nat
  message : Octets × Nat
  input : Nat
  deriving DecidableEq, Repr

/-- A frame block in a pipeline: the pipeline, the cycle on which it entered stage 0, and whether it is a replay (R342). -/
structure Flight where
  pipe : Nat
  cycle : Nat
  blk : Blk
  replay : Bool := false
  deriving DecidableEq, Repr

/-- Work of the masked engine (R370): the cycle its first round starts on, the lanes it takes, the first lane's place in the mask
generator's stream, the blocks, the round keys' key, and the frame. A key unwrap takes one lane. -/
structure EngineJob where
  start : Nat
  lanes : List Nat
  job : Job
  masks : Nat := 0
  replay : Bool := false
  deriving DecidableEq, Repr

/-- A crypto bank (R328 to R372). Pairs 16 and 17 are the masked engine's own (R366). -/
structure Bank where
  pipes : Tbl CUnit := []
  lanes : Tbl CUnit := []
  pairs : Tbl CUnit := []
  spare : Option Nat := some 13
  laneSpare : Option Nat := some 5
  /-- From when a unit that has become the spare serves as spare (R347). -/
  spareFrom : Nat := 0
  laneSpareFrom : Nat := 0
  /-- The ballast keys and the cycle they were drawn on (R357); the shuffle generators' seeds, their cycle and the wiring choices (R359,
  R360); the mask generator's seed and the blocks computed under it (R366). -/
  ballast : Tbl Octets := []
  ballastAt : Nat := 0
  seeds : Tbl Octets := []
  seededAt : Nat := 0
  /-- The ballast keys and seeds before these, which the blocks still inside carry, and their cycles (R356, R358). -/
  ballastOld : Tbl Octets := []
  ballastOldAt : Nat := 0
  seedsOld : Tbl Octets := []
  seededOldAt : Nat := 0
  wiring : Tbl Nat := []
  maskSeed : Octets := []
  maskBlocks : Nat := 0
  /-- Blocks that wait for a pipeline, in frame order, the frame blocks inside the pipelines, and the work of the masked engine. -/
  jobs : List Job := []
  flight : List Flight := []
  engine : List EngineJob := []
  /-- The GHASH steps under way or waiting, in order, and the messages they belong to (R333, R334). -/
  steps : List HashStep := []
  hashing : List Job := []
  /-- Frames of which a block came out wrong with no check to show it: the serial numbers (R338, R339). -/
  spoiled : List Nat := []
  /-- The second of the harbour's time counter under way with its active slots and frame blocks, and those of the last whole second
  (R1039). -/
  second : Nat := 0
  secSlots : Nat := 0
  secBlocks : Nat := 0
  lastSlots : Nat := 0
  lastBlocks : Nat := 0
  /-- The second of runtime in which each unit last computed a known answer (R339), plus one: pipelines, masked lanes from 14 on. -/
  answered : Tbl Nat := []
  /-- Until when the masked engine's lanes are taken (R370). -/
  busy : Nat := 0
  deriving DecidableEq, Repr

/-- The output of an entropy source (R361): the conditioner input whose digest is being delivered, the bytes of it delivered, and the next
input to be gathered. -/
structure Feed where
  cur : Nat := 0
  used : Nat := 32
  next : Nat := 0
  deriving DecidableEq, Repr

/-- A harbour's entropy sources (R361 to R365): declared failed, times of test failures, the reserve feed in force. -/
structure Entropy where
  failA : Bool := false
  failB : Bool := false
  timesA : List Nat := []
  timesB : List Nat := []
  reserve : Bool := false
  tested : Bool := false
  deriving DecidableEq, Repr

/-! ### Classification -/

/-- A prefix in an LPM bank (R398, R408, R442): its table, family, length and masked address, its result, where it lies, and
its place in the order of first insertion. -/
structure Prefix where
  table : Nat
  v6 : Bool
  len : Nat
  addr : Nat
  drop : Bool
  queue : Nat
  assoc : Nat
  bucket : Nat
  way : Nat
  deriving DecidableEq, Repr

/-- A frame descriptor: the frame from the classification result or verification to its last byte (R464, R471, R704). -/
structure Desc where
  bytes : Octets
  queue : Nat
  /-- TX association; 65536 for an inbound frame. -/
  assoc : Nat := 65536
  len : Nat
  debit : Nat := 0
  cells : Nat := 0
  yellow : Bool := false
  /-- Ingress port, network time of the ingress stamp in 2^-16 ns and cycle at which it was taken. -/
  ingress : Nat
  stamp : Nat
  at_ : Nat
  /-- Berth and its generation when the frame entered the queue manager. -/
  berth : Nat := 0
  gen : Nat := 0
  /-- Time spent in the learn-hold buffer, in 0.1 ns (R430). -/
  heldFor : Nat := 0
  /-- Taken through the masked engine (R368, R371). -/
  masked : Bool := false
  /-- Bytes of the park region the frame holds (R655). -/
  parkBytes : Nat := 0
  /-- Service tier at release: excess tier is yellow (R483). -/
  excess : Bool := false
  /-- First cycle on the egress boundary, once released. -/
  startAt : Nat := 0
  /-- The module changed its correctionField (R585). -/
  ptp : Bool := false
  /-- The frame as protected for a frame-mode line port. -/
  line : Option LineFrame := none
  /-- The cycle from which the frame can be released: the part of its path's fixed latency before admission is over (R26, R30). -/
  ready : Nat := 0
  /-- The D-clock cycle that the frame takes in its basin and direction (R31). -/
  slot : Nat := 0
  /-- The last cycle by which it is delivered (R20, R22), and its number at the crypto bank. -/
  deadline : Nat := 0
  serial : Nat := 0
  /-- The number of the Gelix frame that carries its record, or the record's bytes up to now. -/
  outer : Nat := 0
  deriving DecidableEq, Repr

/-- A Gelix frame whose content is fixed and whose first bit has not yet left (R89, R1038): the cycle on which it leaves, the frame, its
number at the crypto bank, and for a frame with MFAS 0 that time transfer keeps, KEP, FCNT and time (R591). -/
structure Leaving where
  leave : Nat
  frame : GelixFrame
  serial : Nat := 0
  /-- Client records whose last byte it carries. -/
  records : Nat := 0
  sends : Option (Nat × Nat × Nat) := none
  deriving DecidableEq, Repr

/-- The transmit side of a Gelix port (R89 to R113, R139 to R147). -/
structure GelTx where
  mfas : Nat := 0
  started : Bool := false
  parity : Nat := 0
  /-- Errored frames received since the last frame sent (R97). -/
  rei : Nat := 0
  trace : Octets := zeros 64
  /-- The rest of the record begun, with its frame (none for an idle record), and the records not yet begun. -/
  cur : Octets := []
  curDesc : Option Desc := none
  waiting : List (Desc × Octets) := []
  /-- The last frame sent was NOKEY, and whether event 0x4003 has been raised since it was keyed (R242). -/
  noKey : Bool := true
  told : Bool := true
  /-- Management channel messages waiting, and the one being sent. -/
  mchQueue : List Octets := []
  mchNow : Octets := []
  mchFirst : Bool := true
  mchSeq : Nat := 0
  /-- The throw-away key of NOKEY frames (R92, R357), and the cycle it was drawn on. -/
  throw : Octets := []
  throwAt : Nat := 0
  /-- The blocks of NOKEY payload made so far: the running counter of R356. -/
  count : Nat := 0
  /-- When the next Gelix frame's bank instant falls (R89), in femtoseconds. -/
  due : Nat := 0
  /-- The key in use, by association, phase and its order among the keys written: a key comes into use only with MFAS 0 (R102). -/
  inUse : Option (Nat × Nat × Nat) := none
  /-- The frames fixed and not yet on the lanes, in order. -/
  fixed : List Leaving := []
  deriving DecidableEq, Repr

/-- A pending learn notification (R432 to R435): sequence, record, flow, berth. -/
structure Learn where
  seq : Nat
  bytes : Octets
  flow : Nat × Bool × Nat
  deriving DecidableEq, Repr

/-- A frame in the learn-hold buffer (R426 to R431): its descriptor, flow, table, direct-table element. -/
structure Held where
  d : Desc
  flow : Nat × Bool × Nat
  table : Nat
  elem : Nat
  deriving DecidableEq, Repr

/-- A basin's classifier (R390 to R449). -/
structure Cls where
  prefixes : List Prefix := []
  seed : Octets := []
  learn : List Learn := []
  nextSeq : Nat := 0
  full : Bool := false
  missed : Nat := 0
  held : List Held := []
  /-- Banks above 90 % (R418). -/
  above : Tbl Bool := []
  deriving DecidableEq, Repr

/-! ### Queues, nodes, arbiters, gates -/

/-- A queue (R450 to R502): its frames, head first; enabled in force while draining; the rates in force for service; tokens
and residue of each bucket; deficit; the cycle of the last refill. -/
structure Queue where
  frames : List Desc := []
  draining : Bool := false
  lowering : Bool := false
  rate : Nat := 0
  pir : Nat := 0
  tokC : Int := 0
  resC : Nat := 0
  tokP : Int := 0
  resP : Nat := 0
  at_ : Nat := 0
  deficit : Int := 0
  deriving DecidableEq, Repr

/-- A berth node (R486, R497, R506), with the deficits of its class nodes by class. -/
structure Node where
  rate : Nat := 0xFFFFFFFF
  tokens : Int := 0
  residue : Nat := 0
  at_ : Nat := 0
  lowering : Bool := false
  deficits : Tbl Int := []
  started : Bool := false
  deriving DecidableEq, Repr

/-- A port's arbiter (R468, R487, R488): the pacing timeline in femtoseconds, the current members of each DWRR level, the
class deficits, the frames released and not yet at the crypto bank, and those on their way out. -/
structure Arb where
  pace : Nat := 0
  classCur : Nat := 0
  classDef : Tbl Int := []
  berthCur : Tbl Nat := []
  queueCur : Tbl Nat := []
  released : List Desc := []
  egress : List Desc := []
  deriving DecidableEq, Repr

/-- A port's gates (R508, R526 to R532): the bank in force and the pending one with its candidate S in network time; after a
step, the shift from old to new time, the end of the old cycle on the old time, and the end of the fill. -/
structure Gate where
  force : GBank := {}
  pend : Option GBank := none
  swap : Nat := 0
  /-- Configuration time of the pending bank; 0 with IMMEDIATE. -/
  conf : Nat := 0
  deferred : Bool := false
  swaps : Nat := 0
  rephase : Option (Int × Nat × Nat) := none
  deriving DecidableEq, Repr


/-! ### The module -/

/-- Everything that is not fuses or flash: the tether and what a reset loses. -/
structure Mod where
  sys : Sys := {}
  tether : Tether := {}
  ev : Ev := {}
  mgmt : Mgmt := {}
  time : TimeSt := {}
  lanes : Tbl Lane := []
  ports : Tbl Port := []
  rx : Tbl GelRx := []
  tx : Tbl GelTx := []
  pm : Tbl Pm := []
  stow : Tbl Stow := []
  berths : Tbl Berth := []
  keks : Tbl Kek := []
  assocs : Tbl Assoc := []
  filters : Tbl KeyFilter := []
  banks : Tbl Bank := []
  entropy : Tbl Entropy := []
  cls : Tbl Cls := []
  queues : Tbl Queue := []
  nodes : Tbl Node := []
  arbs : Tbl Arb := []
  gates : Tbl Gate := []
  /-- Over flags 0xA010:0D by berth × 4 + basin (R696, R717). -/
  overs : Tbl Nat := []
  /-- When the events that are raised at most once a second were last raised, by code × 65536 + unit. -/
  onceAt : Tbl (Option Nat) := []
  sources : Tbl Source := []
  snap : Snap := {}
  fw : Fw := {}
  /-- The cycle up to which a lane's error counters 0x3000:06 to 08 and 0A have been brought. -/
  counted : Tbl Nat := []
  /-- Objects by key: the values in force of rwc and rw objects, and counters; an unlisted object has its default. -/
  obj : Tbl Val := []
  /-- Messages, frames and edges put out, oldest first (the model's record of its outputs, log 3). -/
  out : List Out := []
  /-- What the entropy sources have delivered, by source: harbour × 2, and 1 more for source B (R361, log 5). -/
  drawn : Tbl Feed := []
  /-- Frames given a serial number at the crypto banks so far (the model's own, log 53). -/
  serials : Nat := 0
  /-- The D-clock cycles, of the last 1,024 and to come, in which each basin and direction accepts a frame from its ports, or releases one (R31). -/
  slots : Tbl (List Nat) := []
  deriving DecidableEq, Repr

/-- The state of the block. -/
structure State where
  otp : Otp := {}
  flash : Flash := {}
  mod : Mod := {}
  pending : List Instr := []
  deriving DecidableEq, Repr

/-- The module before mains is applied: both harbours held in reset, every object at its default, the vault valid and
empty, nothing queued. What the spec gives no value for is zero or empty (log 2). -/
def State.reset : State := {}

/-- The same fuses, flash and queue with another module. -/
def State.upd (s : State) (m : Mod) : State := { s with mod := m }

end Sys2Proof.Machine
end

