-- ==== Sys2Proof/Machine/Dictionary.lean ====
section
/-! DEFINITION. The object dictionary: for every object its type, access, default and range, as the object tables of the
spec give them (R193 to R992). Defaults and ranges that depend on the element stand in `dfltOf` of Ops.lean and in Write.lean. -/

namespace Sys2Proof.Machine

/-- The type of an object (R773); numbers are the value's bytes. -/
inductive Ty where
  | bool
  | u (bytes : Nat)
  | i (bytes : Nat)
  | oct (n : Nat)
  | str (n : Nat)
  | time
  | rate
  deriving DecidableEq, Repr

/-- The access of an object (R13 to R16). -/
inductive Acc where
  | const
  | ro
  | rw
  | rwc
  | wo
  deriving DecidableEq, Repr

/-- The range of a value. -/
inductive Rng where
  | any
  | nat (lo hi : Nat)
  | natOr (lo hi extra : Nat)
  | int (lo hi : Int)
  deriving DecidableEq, Repr

/-- One row of an object table: subindex, type, access, default, range, and whether it is a saturating counter (R823). -/
structure Obj where
  sub : Nat
  ty : Ty
  acc : Acc
  dflt : Val
  rng : Rng := .any
  count : Bool := false
  deriving DecidableEq, Repr

/-- Object 0x1000. -/
def od1000 : List Obj :=
  [⟨0x00, (.u 1), .const, (.nat 5), .any, false⟩,  -- Highest subindex
   ⟨0x01, (.str 16), .const, (.oct (ascii "VS6404-M")), .any, false⟩,  -- Product
   ⟨0x02, (.oct 12), .const, (.oct (zeros 12)), .any, false⟩,  -- Serial
   ⟨0x03, (.u 2), .const, (.nat 0), .any, false⟩,  -- Manufacture week
   ⟨0x04, (.oct 32), .const, (.oct (zeros 32)), .any, false⟩,  -- Birth public key
   ⟨0x05, .bool, .ro, (.nat 0), .any, false⟩]  -- Birth identity available

/-- Object 0x1010. -/
def od1010 : List Obj :=
  [⟨0x00, (.u 1), .const, (.nat 5), .any, false⟩,  -- Highest subindex
   ⟨0x01, (.oct 8), .const, (.oct (zeros 8)), .any, false⟩,  -- Lot code
   ⟨0x02, (.u 1), .const, (.nat 0), .any, false⟩,  -- Wafer
   ⟨0x03, (.i 1), .const, (.int (0)), .any, false⟩,  -- Die X
   ⟨0x04, (.i 1), .const, (.int (0)), .any, false⟩,  -- Die Y
   ⟨0x05, (.u 2), .const, (.nat 0), .any, false⟩]  -- Test week

/-- Object 0x1020. -/
def od1020 : List Obj :=
  [⟨0x00, (.u 1), .const, (.nat 2), .any, false⟩,  -- Highest subindex
   ⟨0x01, (.oct 96), .const, (.oct (zeros 96)), .any, false⟩,  -- Birth statement
   ⟨0x02, (.oct 7856), .const, (.oct (zeros 7856)), .any, false⟩]  -- Manufacturing signature

/-- Object 0x1100. -/
def od1100 : List Obj :=
  [⟨0x00, (.u 1), .const, (.nat 7), .any, false⟩,  -- Highest subindex
   ⟨0x01, (.u 1), .ro, (.nat 0), .any, false⟩,  -- Module state
   ⟨0x02, (.u 1), .ro, (.nat 0), .any, false⟩,  -- Step reached
   ⟨0x03, (.u 4), .ro, (.nat 0), .any, false⟩,  -- Start-up duration
   ⟨0x04, (.u 4), .ro, (.nat 0), .any, false⟩,  -- Reset record
   ⟨0x05, (.u 2), .ro, (.nat 0), .any, false⟩,  -- Mains voltage
   ⟨0x06, (.u 2), .ro, (.nat 0), .any, false⟩,  -- Bulk voltage
   ⟨0x07, (.u 4), .ro, (.nat 0), .any, true⟩]  -- Mains interruptions ridden through

/-- Object 0x1110. -/
def od1110 : List Obj :=
  [⟨0x00, (.u 1), .const, (.nat 6), .any, false⟩,  -- Highest subindex
   ⟨0x01, (.i 2), .ro, (.int (0)), .any, false⟩,  -- Base plate temperature
   ⟨0x02, (.i 2), .ro, (.int (0)), .any, false⟩,  -- H0 detector temperature
   ⟨0x03, (.i 2), .ro, (.int (0)), .any, false⟩,  -- H1 detector temperature
   ⟨0x04, (.u 2), .ro, (.nat 0), .any, false⟩,  -- Input power
   ⟨0x05, (.u 2), .ro, (.nat 0), .any, false⟩,  -- Power factor
   ⟨0x06, (.u 8), .ro, (.nat 0), .any, true⟩]  -- Input energy since start-up

/-- Object 0x2000. -/
def od2000 : List Obj :=
  [⟨0x00, (.u 1), .const, (.nat 11), .any, false⟩,  -- Highest subindex
   ⟨0x01, (.u 2), .rwc, (.nat 29170), (.nat 1024 65535), false⟩,  -- UDP port
   ⟨0x02, (.u 2), .rwc, (.nat 34997), .any, false⟩,  -- Intercept EtherType
   ⟨0x03, (.u 4), .rwc, (.nat 900), (.nat 60 86400), false⟩,  -- Idle time
   ⟨0x04, .bool, .rwc, (.nat 0), .any, false⟩,  -- Relay enable
   ⟨0x05, (.u 1), .ro, (.nat 0), .any, false⟩,  -- Sessions held
   ⟨0x06, (.u 1), .ro, (.nat 0), .any, false⟩,  -- Session pilot
   ⟨0x07, (.u 8), .ro, (.nat 0), .any, true⟩,  -- Failed proofs
   ⟨0x08, (.u 8), .ro, (.nat 0), .any, true⟩,  -- Messages discarded
   ⟨0x09, (.u 8), .ro, (.nat 0), .any, true⟩,  -- Messages relayed
   ⟨0x0A, (.u 1), .ro, (.nat 0), .any, false⟩,  -- Relay entries
   ⟨0x0B, (.u 8), .ro, (.nat 0), .any, true⟩]  -- MCH messages not recognised

/-- Object 0x2010. -/
def od2010 : List Obj :=
  [⟨0x00, (.u 1), .const, (.nat 11), .any, false⟩,  -- Highest subindex
   ⟨0x01, (.u 1), .ro, (.nat 0), .any, false⟩,  -- State
   ⟨0x02, (.u 4), .ro, (.nat 0), .any, false⟩,  -- Session ID
   ⟨0x03, (.u 1), .ro, (.nat 0), .any, false⟩,  -- Role
   ⟨0x04, (.u 2), .ro, (.nat 0), .any, false⟩,  -- Credential
   ⟨0x05, (.u 4), .ro, (.nat 0), .any, false⟩,  -- BPID
   ⟨0x06, (.u 1), .ro, (.nat 0), .any, false⟩,  -- Last path
   ⟨0x07, .time, .ro, (.nat 0), .any, false⟩,  -- Opened
   ⟨0x08, .time, .ro, (.nat 0), .any, false⟩,  -- Last request
   ⟨0x09, (.u 8), .ro, (.nat 0), .any, false⟩,  -- Highest sequence accepted
   ⟨0x0A, (.u 2), .ro, (.nat 0), .any, false⟩,  -- Pending records
   ⟨0x0B, .bool, .wo, (.nat 0), .any, false⟩]  -- Terminate

/-- Object 0x2020. -/
def od2020 : List Obj :=
  [⟨0x00, (.u 1), .const, (.nat 12), .any, false⟩,  -- Highest subindex
   ⟨0x01, .bool, .rwc, (.nat 1), .any, false⟩,  -- Enable
   ⟨0x02, (.oct 6), .const, (.oct (zeros 6)), .any, false⟩,  -- MAC address
   ⟨0x03, (.u 2), .rwc, (.nat 65535), (.natOr 0 4095 65535), false⟩,  -- VLAN
   ⟨0x04, (.oct 16), .rwc, (.oct (zeros 16)), .any, false⟩,  -- IPv6 address
   ⟨0x05, (.u 1), .rwc, (.nat 64), (.nat 1 128), false⟩,  -- IPv6 prefix length
   ⟨0x06, (.oct 16), .rwc, (.oct (zeros 16)), .any, false⟩,  -- IPv6 gateway
   ⟨0x07, (.oct 4), .rwc, (.oct (zeros 4)), .any, false⟩,  -- IPv4 address
   ⟨0x08, (.u 1), .rwc, (.nat 24), (.nat 1 32), false⟩,  -- IPv4 prefix length
   ⟨0x09, (.oct 4), .rwc, (.oct (zeros 4)), .any, false⟩,  -- IPv4 gateway
   ⟨0x0A, .bool, .ro, (.nat 0), .any, false⟩,  -- Link up
   ⟨0x0B, (.u 8), .ro, (.nat 0), .any, true⟩,  -- Datagrams received
   ⟨0x0C, (.u 8), .ro, (.nat 0), .any, true⟩]  -- Frames dropped

/-- Object 0x2030. -/
def od2030 : List Obj :=
  [⟨0x00, (.u 1), .const, (.nat 6), .any, false⟩,  -- Highest subindex
   ⟨0x01, (.u 8), .ro, (.nat 0), .any, true⟩,  -- Frames intercepted
   ⟨0x02, (.u 8), .ro, (.nat 0), .any, true⟩,  -- Frames dropped by rate
   ⟨0x03, (.u 1), .ro, (.nat 0), .any, false⟩,  -- Sources tracked
   ⟨0x04, (.u 8), .ro, (.nat 0), .any, true⟩,  -- Replies sent
   ⟨0x05, (.u 8), .ro, (.nat 0), .any, true⟩,  -- Replies discarded
   ⟨0x06, (.u 8), .ro, (.nat 0), .any, true⟩]  -- Frames dropped, intercept buffer full

/-- Object 0x2040. -/
def od2040 : List Obj :=
  [⟨0x00, (.u 1), .const, (.nat 4), .any, false⟩,  -- Highest subindex
   ⟨0x01, (.u 2), .rw, (.nat 0), (.nat 0 480), false⟩,  -- Grant duration
   ⟨0x02, .bool, .rw, (.nat 0), .any, false⟩,  -- Debug port permitted
   ⟨0x03, .time, .ro, (.nat 0), .any, false⟩,  -- Grant expires
   ⟨0x04, (.u 2), .ro, (.nat 0), .any, false⟩]  -- Granted by

/-- Object 0x2100. -/
def od2100 : List Obj :=
  [⟨0x00, (.u 1), .const, (.nat 10), .any, false⟩,  -- Highest subindex
   ⟨0x01, (.u 1), .rwc, (.nat 0), (.nat 0 5), false⟩,  -- Role
   ⟨0x02, (.u 1), .rwc, (.nat 0), (.nat 0 1), false⟩,  -- Method
   ⟨0x03, (.u 4), .rwc, (.nat 0), (.nat 0 1048575), false⟩,  -- BPID
   ⟨0x04, (.str 64), .wo, (.oct []), .any, false⟩,  -- Password
   ⟨0x05, (.oct 32), .wo, (.oct (zeros 32)), .any, false⟩,  -- Key
   ⟨0x06, (.str 32), .rwc, (.oct []), .any, false⟩,  -- Label
   ⟨0x07, (.u 1), .ro, (.nat 0), .any, false⟩,  -- Credential state
   ⟨0x08, (.u 4), .ro, (.nat 0), .any, true⟩,  -- Failed proofs
   ⟨0x09, .time, .ro, (.nat 0), .any, false⟩,  -- Last use
   ⟨0x0A, .bool, .wo, (.nat 0), .any, false⟩]  -- Erase

/-- Object 0x3000. -/
def od3000 : List Obj :=
  [⟨0x00, (.u 1), .const, (.nat 10), .any, false⟩,  -- Highest subindex
   ⟨0x01, .bool, .rwc, (.nat 0), .any, false⟩,  -- TX polarity inverted
   ⟨0x02, .bool, .rwc, (.nat 0), .any, false⟩,  -- RX polarity inverted
   ⟨0x03, (.u 1), .rwc, (.nat 1), (.nat 0 7), false⟩,  -- TX equaliser preset
   ⟨0x04, (.u 1), .ro, (.nat 0), .any, false⟩,  -- Lane state
   ⟨0x05, (.u 2), .ro, (.nat 0), .any, false⟩,  -- Receive SNR
   ⟨0x06, (.u 8), .ro, (.nat 0), .any, true⟩,  -- Pre-FEC bit errors
   ⟨0x07, (.u 8), .ro, (.nat 0), .any, true⟩,  -- FEC corrected codewords
   ⟨0x08, (.u 8), .ro, (.nat 0), .any, true⟩,  -- FEC uncorrectable codewords
   ⟨0x09, (.u 1), .rw, (.nat 0), (.nat 0 2), false⟩,  -- Test pattern
   ⟨0x0A, (.u 8), .ro, (.nat 0), .any, true⟩]  -- Test pattern errors

/-- Object 0x3100. -/
def od3100 : List Obj :=
  [⟨0x00, (.u 1), .const, (.nat 17), .any, false⟩,  -- Highest subindex
   ⟨0x01, (.u 1), .rwc, (.nat 1), .any, false⟩,  -- Width
   ⟨0x02, (.u 1), .rwc, (.nat 0), (.nat 0 1), false⟩,  -- Mode
   ⟨0x03, .bool, .rwc, (.nat 0), .any, false⟩,  -- Enable
   ⟨0x04, (.u 1), .rwc, (.nat 0), (.nat 0 1), false⟩,  -- Electrical profile
   ⟨0x05, (.u 4), .ro, (.nat 0), .any, false⟩,  -- Reserved
   ⟨0x06, (.u 4), .ro, (.nat 0), .any, false⟩,  -- Port state
   ⟨0x07, (.u 4), .ro, (.nat 0), .any, false⟩,  -- Deskew value
   ⟨0x08, (.u 4), .ro, (.nat 0), .any, false⟩,  -- Measured skew
   ⟨0x09, .rate, .ro, (.nat 0), .any, false⟩,  -- Rate carried
   ⟨0x0A, (.u 4), .ro, (.nat 0), .any, true⟩,  -- Alignments
   ⟨0x0B, (.u 4), .ro, (.nat 0), .any, true⟩,  -- Down transitions
   ⟨0x0C, (.u 2), .ro, (.nat 9216), .any, false⟩,  -- Frame length limit
   ⟨0x0D, (.u 8), .ro, (.nat 0), .any, true⟩,  -- FCS errors
   ⟨0x0E, (.u 8), .ro, (.nat 0), .any, false⟩,  -- Length errors
   ⟨0x0F, (.u 8), .ro, (.nat 0), .any, false⟩,  -- MAC Control dropped
   ⟨0x10, (.u 1), .ro, (.nat 0), .any, false⟩,  -- Fault signalling received
   ⟨0x11, (.u 4), .ro, (.nat 256), .any, false⟩]  -- Configuration in force

/-- Object 0x3200. -/
def od3200 : List Obj :=
  [⟨0x00, (.u 1), .const, (.nat 22), .any, false⟩,  -- Highest subindex
   ⟨0x01, (.oct 64), .rwc, (.oct (zeros 64)), .any, false⟩,  -- Transmitted trace message
   ⟨0x02, (.oct 64), .rwc, (.oct (zeros 64)), .any, false⟩,  -- Expected trace message
   ⟨0x03, (.u 1), .rwc, (.nat 0), (.nat 0 3), false⟩,  -- Trace compare mode
   ⟨0x04, (.oct 64), .ro, (.oct (zeros 64)), .any, false⟩,  -- Accepted received trace message
   ⟨0x05, .bool, .rwc, (.nat 0), .any, false⟩,  -- Time transfer enable
   ⟨0x06, (.u 4), .ro, (.nat 0), .any, false⟩,  -- Alignment state
   ⟨0x07, (.u 8), .ro, (.nat 0), .any, true⟩,  -- Gelix frames sent
   ⟨0x08, (.u 8), .ro, (.nat 0), .any, true⟩,  -- Client frames sent
   ⟨0x09, (.u 8), .ro, (.nat 0), .any, true⟩,  -- Gelix frames received in SYNC
   ⟨0x0A, (.u 8), .ro, (.nat 0), .any, true⟩,  -- Outer tag failures
   ⟨0x0B, (.u 8), .ro, (.nat 0), .any, true⟩,  -- Receive slot empty
   ⟨0x0C, (.u 8), .ro, (.nat 0), .any, true⟩,  -- FCNT not increasing
   ⟨0x0D, (.u 8), .ro, (.nat 0), .any, true⟩,  -- KEP mismatches
   ⟨0x0E, (.u 8), .ro, (.nat 0), .any, true⟩,  -- NOKEY frames received
   ⟨0x0F, (.u 8), .ro, (.nat 0), .any, true⟩,  -- BIP-8 errors
   ⟨0x10, (.u 8), .ro, (.nat 0), .any, true⟩,  -- Records discarded
   ⟨0x11, (.u 8), .ro, (.nat 0), .any, true⟩,  -- Partial client frames discarded
   ⟨0x12, (.u 8), .ro, (.nat 0), .any, true⟩,  -- MCH messages discarded
   ⟨0x13, (.u 8), .ro, (.nat 0), .any, true⟩,  -- Candidates dropped
   ⟨0x14, (.u 8), .ro, (.nat 0), .any, true⟩,  -- Candidate overflows
   ⟨0x15, (.u 1), .ro, (.nat 0), .any, false⟩,  -- STAT in force
   ⟨0x16, (.u 8), .ro, (.nat 0), .any, true⟩]  -- Client frames received

/-- Object 0x3300. -/
def od3300 : List Obj :=
  [⟨0x00, (.u 1), .const, (.nat 7), .any, false⟩,  -- Highest subindex
   ⟨0x01, (.u 4), .ro, (.nat 0), .any, false⟩,  -- Defect state, raw
   ⟨0x02, (.u 4), .ro, (.nat 0), .any, false⟩,  -- Defect state, reported
   ⟨0x03, (.u 1), .rwc, (.nat 0), (.nat 0 2), false⟩,  -- TIM action
   ⟨0x04, (.u 2), .rwc, (.nat 100), (.nat 1 1500), false⟩,  -- DEG threshold
   ⟨0x05, (.u 1), .rwc, (.nat 7), (.nat 2 10), false⟩,  -- DEG seconds
   ⟨0x06, (.u 8), .ro, (.nat 0), .any, true⟩,  -- Gelix frames discarded on TIM
   ⟨0x07, .bool, .ro, (.nat 0), .any, false⟩]  -- RDI sent

/-- Object 0x3310. -/
def od3310 : List Obj :=
  [⟨0x00, (.u 1), .const, (.nat 4), .any, false⟩,  -- Highest subindex
   ⟨0x01, (.u 1), .rwc, (.nat 255), .any, false⟩,  -- Source line port
   ⟨0x02, (.u 1), .rwc, (.nat 4), (.nat 1 7), false⟩,  -- Trigger level
   ⟨0x03, (.u 2), .rwc, (.nat 0), (.nat 0 1000), false⟩,  -- Hold-off
   ⟨0x04, .bool, .ro, (.nat 0), .any, false⟩]  -- Forwarding active

/-- Object 0x3400. -/
def od3400 : List Obj :=
  [⟨0x00, (.u 1), .const, (.nat 10), .any, false⟩,  -- Highest subindex
   ⟨0x01, .bool, .rwc, (.nat 1), .any, false⟩,  -- PM enable
   ⟨0x02, (.u 4), .rwc, (.nat 0), (.nat 0 86399), false⟩,  -- 24 h offset
   ⟨0x03, .bool, .rwc, (.nat 0), .any, false⟩,  -- 1 s history in stowage
   ⟨0x04, (.u 2), .ro, (.nat 0), .any, false⟩,  -- Last second class
   ⟨0x05, (.u 4), .ro, (.nat 0), .any, false⟩,  -- Last second errored Gelix frames
   ⟨0x06, (.u 4), .ro, (.nat 0), .any, false⟩,  -- Last second REI sum
   ⟨0x07, (.u 1), .ro, (.nat 0), .any, false⟩,  -- Near-end availability
   ⟨0x08, (.u 1), .ro, (.nat 0), .any, false⟩,  -- Far-end availability
   ⟨0x09, (.u 4), .const, (.nat 0), .any, false⟩,  -- SES threshold
   ⟨0x0A, (.u 4), .const, (.nat 0), .any, false⟩]  -- Nominal Gelix frames per second

/-- Object 0x3410. -/
def od3410 : List Obj :=
  [⟨0x00, (.u 1), .const, (.nat 12), .any, false⟩,  -- Highest subindex
   ⟨0x01, .time, .ro, (.nat 0), .any, false⟩,  -- Start time
   ⟨0x02, (.u 4), .ro, (.nat 0), .any, false⟩,  -- Flags
   ⟨0x03, (.u 4), .ro, (.nat 0), .any, false⟩,  -- NE ES
   ⟨0x04, (.u 4), .ro, (.nat 0), .any, false⟩,  -- NE SES
   ⟨0x05, (.u 4), .ro, (.nat 0), .any, false⟩,  -- NE UAS
   ⟨0x06, (.u 4), .ro, (.nat 0), .any, false⟩,  -- NE BBE
   ⟨0x07, (.u 4), .ro, (.nat 0), .any, false⟩,  -- NKS
   ⟨0x08, (.u 4), .ro, (.nat 0), .any, false⟩,  -- FE ES
   ⟨0x09, (.u 4), .ro, (.nat 0), .any, false⟩,  -- FE SES
   ⟨0x0A, (.u 4), .ro, (.nat 0), .any, false⟩,  -- FE UAS
   ⟨0x0B, (.u 4), .ro, (.nat 0), .any, false⟩,  -- FE BBE
   ⟨0x0C, (.u 4), .ro, (.nat 0), .any, false⟩]  -- Seconds classified

/-- Object 0x3420. -/
def od3420 : List Obj :=
  [⟨0x00, (.u 1), .const, (.nat 12), .any, false⟩,  -- Highest subindex
   ⟨0x01, .time, .ro, (.nat 0), .any, false⟩,  -- Start time
   ⟨0x02, (.u 4), .ro, (.nat 0), .any, false⟩,  -- Flags
   ⟨0x03, (.u 4), .ro, (.nat 0), .any, false⟩,  -- NE ES
   ⟨0x04, (.u 4), .ro, (.nat 0), .any, false⟩,  -- NE SES
   ⟨0x05, (.u 4), .ro, (.nat 0), .any, false⟩,  -- NE UAS
   ⟨0x06, (.u 4), .ro, (.nat 0), .any, false⟩,  -- NE BBE
   ⟨0x07, (.u 4), .ro, (.nat 0), .any, false⟩,  -- NKS
   ⟨0x08, (.u 4), .ro, (.nat 0), .any, false⟩,  -- FE ES
   ⟨0x09, (.u 4), .ro, (.nat 0), .any, false⟩,  -- FE SES
   ⟨0x0A, (.u 4), .ro, (.nat 0), .any, false⟩,  -- FE UAS
   ⟨0x0B, (.u 4), .ro, (.nat 0), .any, false⟩,  -- FE BBE
   ⟨0x0C, (.u 4), .ro, (.nat 0), .any, false⟩]  -- Seconds classified

/-- Object 0x3430. -/
def od3430 : List Obj :=
  [⟨0x00, (.u 1), .const, (.nat 12), .any, false⟩,  -- Highest subindex
   ⟨0x01, .time, .ro, (.nat 0), .any, false⟩,  -- Start time
   ⟨0x02, (.u 4), .ro, (.nat 0), .any, false⟩,  -- Flags
   ⟨0x03, (.u 4), .ro, (.nat 0), .any, false⟩,  -- NE ES
   ⟨0x04, (.u 4), .ro, (.nat 0), .any, false⟩,  -- NE SES
   ⟨0x05, (.u 4), .ro, (.nat 0), .any, false⟩,  -- NE UAS
   ⟨0x06, (.u 4), .ro, (.nat 0), .any, false⟩,  -- NE BBE
   ⟨0x07, (.u 4), .ro, (.nat 0), .any, false⟩,  -- NKS
   ⟨0x08, (.u 4), .ro, (.nat 0), .any, false⟩,  -- FE ES
   ⟨0x09, (.u 4), .ro, (.nat 0), .any, false⟩,  -- FE SES
   ⟨0x0A, (.u 4), .ro, (.nat 0), .any, false⟩,  -- FE UAS
   ⟨0x0B, (.u 4), .ro, (.nat 0), .any, false⟩,  -- FE BBE
   ⟨0x0C, (.u 4), .ro, (.nat 0), .any, false⟩]  -- Seconds classified

/-- Object 0x4000. -/
def od4000 : List Obj :=
  [⟨0x00, (.u 1), .const, (.nat 16), .any, false⟩,  -- Highest subindex
   ⟨0x01, (.u 1), .rwc, (.nat 0), (.nat 0 6), false⟩,  -- Type
   ⟨0x02, (.u 1), .rwc, (.nat 0), .any, false⟩,  -- Suite
   ⟨0x03, (.u 1), .rwc, (.nat 0), .any, false⟩,  -- Owning berth
   ⟨0x04, (.u 1), .rwc, (.nat 255), .any, false⟩,  -- Port
   ⟨0x05, (.u 4), .rwc, (.nat 0), .any, false⟩,  -- Flags
   ⟨0x06, (.oct 8), .rwc, (.oct (zeros 8)), .any, false⟩,  -- SCI
   ⟨0x07, (.u 4), .rwc, (.nat 0), .any, false⟩,  -- SSCI
   ⟨0x08, (.u 2), .rwc, (.nat 0), .any, false⟩,  -- Peer
   ⟨0x09, (.u 2), .rwc, (.nat 0), .any, false⟩,  -- Queue
   ⟨0x0A, (.u 1), .rwc, (.nat 0), (.nat 0 63), false⟩,  -- Replay window
   ⟨0x0B, (.u 8), .rwc, (.nat 0), .any, false⟩,  -- Rekey threshold
   ⟨0x0C, (.u 4), .ro, (.nat 0), .any, false⟩,  -- State
   ⟨0x0D, (.u 8), .ro, (.nat 0), .any, false⟩,  -- Next PN or FCNT
   ⟨0x0E, (.u 8), .ro, (.nat 0), .any, false⟩,  -- Lowest PN
   ⟨0x0F, (.u 8), .ro, (.nat 0), .any, false⟩,  -- Replay bitmap
   ⟨0x10, (.u 8), .ro, (.nat 0), .any, false⟩]  -- Highest PN accepted

/-- Object 0x4010. -/
def od4010 : List Obj :=
  [⟨0x00, (.u 1), .const, (.nat 8), .any, false⟩,  -- Highest subindex
   ⟨0x01, (.oct 56), .wo, (.oct (zeros 56)), .any, false⟩,  -- Wrapped key
   ⟨0x02, (.u 1), .rw, (.nat 0), (.nat 0 3), false⟩,  -- AN
   ⟨0x03, (.u 2), .ro, (.nat 0), .any, false⟩,  -- Key epoch
   ⟨0x04, (.u 8), .rw, (.nat 1), .any, false⟩,  -- Initial PN
   ⟨0x05, (.u 1), .ro, (.nat 0), .any, false⟩,  -- Slot status
   ⟨0x06, .bool, .wo, (.nat 0), .any, false⟩,  -- Erase
   ⟨0x07, (.u 8), .ro, (.nat 0), .any, false⟩,  -- Highest FCNT passed
   ⟨0x08, (.u 4), .rw, (.nat 0), .any, false⟩]  -- Peer boot epoch

/-- Object 0x4020. -/
def od4020 : List Obj :=
  [⟨0x00, (.u 1), .const, (.nat 16), .any, false⟩,  -- Highest subindex
   ⟨0x01, (.u 8), .ro, (.nat 0), .any, true⟩,  -- Protected
   ⟨0x02, (.u 8), .ro, (.nat 0), .any, true⟩,  -- Octets protected
   ⟨0x03, (.u 8), .ro, (.nat 0), .any, true⟩,  -- Not accepted: no usable key
   ⟨0x04, (.u 8), .ro, (.nat 0), .any, true⟩,  -- Discarded after acceptance: key slot empty
   ⟨0x05, (.u 8), .ro, (.nat 0), .any, true⟩,  -- Discarded after acceptance: hard stop
   ⟨0x06, (.u 8), .ro, (.nat 0), .any, true⟩,  -- Bypassed, sent
   ⟨0x07, (.u 8), .ro, (.nat 0), .any, true⟩,  -- Not accepted: untagged with CLEAR_TAG
   ⟨0x08, (.u 8), .ro, (.nat 0), .any, true⟩,  -- Received OK
   ⟨0x09, (.u 8), .ro, (.nat 0), .any, true⟩,  -- Octets received OK
   ⟨0x0A, (.u 8), .ro, (.nat 0), .any, true⟩,  -- Late
   ⟨0x0B, (.u 8), .ro, (.nat 0), .any, true⟩,  -- Replayed
   ⟨0x0C, (.u 8), .ro, (.nat 0), .any, true⟩,  -- ICV not valid
   ⟨0x0D, (.u 8), .ro, (.nat 0), .any, true⟩,  -- No slot for AN
   ⟨0x0E, (.u 8), .ro, (.nat 0), .any, true⟩,  -- SCI mismatch
   ⟨0x0F, (.u 8), .ro, (.nat 0), .any, true⟩,  -- Stale phase
   ⟨0x10, (.u 8), .ro, (.nat 0), .any, true⟩]  -- Bypassed, received

/-- Object 0x4030. -/
def od4030 : List Obj :=
  [⟨0x00, (.u 1), .const, (.nat 4), .any, false⟩,  -- Highest subindex
   ⟨0x01, (.u 1), .rwc, (.nat 0), (.nat 0 1), false⟩,  -- Receive lookup mode
   ⟨0x02, (.u 8), .ro, (.nat 0), .any, true⟩,  -- Untagged dropped
   ⟨0x03, (.u 8), .ro, (.nat 0), .any, true⟩,  -- Bad SecTAG
   ⟨0x04, (.u 8), .ro, (.nat 0), .any, true⟩]  -- No association

/-- Object 0x4040. -/
def od4040 : List Obj :=
  [⟨0x00, (.u 1), .const, (.nat 10), .any, false⟩,  -- Highest subindex
   ⟨0x01, (.u 1), .rwc, (.nat 0), (.nat 0 2), false⟩,  -- Switch request
   ⟨0x02, .time, .rwc, (.nat 0), .any, false⟩,  -- Scheduled time
   ⟨0x03, (.u 1), .rwc, (.nat 4), (.nat 4 64), false⟩,  -- Notice
   ⟨0x04, (.u 1), .ro, (.nat 0), .any, false⟩,  -- Switch state
   ⟨0x05, (.u 1), .ro, (.nat 1), .any, false⟩,  -- Target phase
   ⟨0x06, (.u 1), .ro, (.nat 0), .any, false⟩,  -- Notice remaining
   ⟨0x07, .time, .ro, (.nat 0), .any, false⟩,  -- Last switch time
   ⟨0x08, (.u 4), .ro, (.nat 0), .any, true⟩,  -- Switches
   ⟨0x09, (.u 4), .ro, (.nat 0), .any, true⟩,  -- KNR wait
   ⟨0x0A, .bool, .ro, (.nat 0), .any, false⟩]  -- KNR sent

/-- Object 0x4100. -/
def od4100 : List Obj :=
  [⟨0x00, (.u 1), .const, (.nat 6), .any, false⟩,  -- Highest subindex
   ⟨0x01, (.oct 32), .wo, (.oct (zeros 32)), .any, false⟩,  -- KEK share A
   ⟨0x02, (.oct 32), .wo, (.oct (zeros 32)), .any, false⟩,  -- KEK share B
   ⟨0x03, (.u 1), .ro, (.nat 0), .any, false⟩,  -- KEK state
   ⟨0x04, (.oct 4), .ro, (.oct (zeros 4)), .any, false⟩,  -- KEK check value
   ⟨0x05, (.u 8), .ro, (.nat 0), .any, true⟩,  -- Unwrap failures
   ⟨0x06, .bool, .wo, (.nat 0), .any, false⟩]  -- Erase KEK

/-- Object 0x4200. -/
def od4200 : List Obj :=
  [⟨0x00, (.u 1), .const, (.nat 12), .any, false⟩,  -- Highest subindex
   ⟨0x01, (.u 2), .ro, (.nat 16383), .any, false⟩,  -- Pipelines in service
   ⟨0x02, (.u 1), .ro, (.nat 13), .any, false⟩,  -- Spare pipeline
   ⟨0x03, (.u 1), .ro, (.nat 13), .any, false⟩,  -- Active pipelines
   ⟨0x04, .rate, .ro, (.nat 2080000000), .any, false⟩,  -- Active capacity
   ⟨0x05, .rate, .ro, (.nat 0), .any, false⟩,  -- Committed demand
   ⟨0x06, (.u 2), .ro, (.nat 0), .any, false⟩,  -- Ballast share
   ⟨0x07, (.u 8), .ro, (.nat 0), .any, true⟩,  -- Frame blocks
   ⟨0x08, (.u 8), .ro, (.nat 0), .any, true⟩,  -- Ballast blocks
   ⟨0x09, (.u 8), .ro, (.nat 0), .any, true⟩,  -- Blocks replayed
   ⟨0x0A, (.u 8), .ro, (.nat 0), .any, true⟩,  -- GHASH steps repeated
   ⟨0x0B, (.u 2), .ro, (.nat 65535), .any, false⟩,  -- GHASH pairs in service
   ⟨0x0C, (.u 8), .ro, (.nat 0), .any, true⟩]  -- Key store corrections

/-- Object 0x4210. -/
def od4210 : List Obj :=
  [⟨0x00, (.u 1), .const, (.nat 9), .any, false⟩,  -- Highest subindex
   ⟨0x01, (.u 1), .rwc, (.nat 0), (.nat 0 2), false⟩,  -- Fall-back policy
   ⟨0x02, .bool, .ro, (.nat 0), .any, false⟩,  -- Fall-back in force
   ⟨0x03, .rate, .ro, (.nat 0), .any, false⟩,  -- Masked transmit commitment
   ⟨0x04, .rate, .const, (.nat 48000000), .any, false⟩,  -- Masked budget
   ⟨0x05, (.u 1), .ro, (.nat 63), .any, false⟩,  -- Masked lanes in service, transmit
   ⟨0x06, (.u 1), .ro, (.nat 63), .any, false⟩,  -- Masked lanes in service, receive
   ⟨0x07, (.u 4), .const, (.nat 1536), .any, false⟩,  -- Masked-path addition
   ⟨0x08, (.u 8), .ro, (.nat 0), .any, true⟩,  -- Received HA frames not accepted
   ⟨0x09, (.u 8), .ro, (.nat 0), .any, true⟩]  -- Blocks through masked engines

/-- Object 0x4220. -/
def od4220 : List Obj :=
  [⟨0x00, (.u 1), .const, (.nat 5), .any, false⟩,  -- Highest subindex
   ⟨0x01, (.u 1), .ro, (.nat 0), .any, false⟩,  -- Pipeline state
   ⟨0x02, (.u 1), .ro, (.nat 0), .any, false⟩,  -- Faults since start-up
   ⟨0x03, (.u 4), .ro, (.nat 0), .any, false⟩,  -- Last fault
   ⟨0x04, .time, .ro, (.nat 0), .any, false⟩,  -- Last fault time
   ⟨0x05, (.u 1), .ro, (.nat 0), .any, false⟩]  -- Retire cause

/-- Object 0x4230. -/
def od4230 : List Obj :=
  [⟨0x00, (.u 1), .const, (.nat 8), .any, false⟩,  -- Highest subindex
   ⟨0x01, (.u 1), .ro, (.nat 0), .any, false⟩,  -- Source A state
   ⟨0x02, (.u 1), .ro, (.nat 0), .any, false⟩,  -- Source B state
   ⟨0x03, (.u 4), .ro, (.nat 0), .any, true⟩,  -- Source A test failures
   ⟨0x04, (.u 4), .ro, (.nat 0), .any, true⟩,  -- Source B test failures
   ⟨0x05, .bool, .ro, (.nat 0), .any, false⟩,  -- Reserve feed active
   ⟨0x06, .rate, .const, (.nat 1000000), .any, false⟩,  -- Source A output rate
   ⟨0x07, .rate, .const, (.nat 100000), .any, false⟩,  -- Source B output rate
   ⟨0x08, (.u 1), .ro, (.nat 0), .any, false⟩]  -- Last failing test

/-- Object 0x4240. -/
def od4240 : List Obj :=
  [⟨0x00, (.u 1), .const, (.nat 5), .any, false⟩,  -- Highest subindex
   ⟨0x01, (.u 4), .ro, (.nat 0), .any, false⟩,  -- Self-test outcome
   ⟨0x02, (.u 4), .ro, (.nat 0), .any, false⟩,  -- Self-test duration
   ⟨0x03, (.u 8), .ro, (.nat 0), .any, false⟩,  -- Pipelines failed
   ⟨0x04, (.u 8), .ro, (.nat 0), .any, false⟩,  -- GHASH pairs failed
   ⟨0x05, (.u 4), .ro, (.nat 0), .any, false⟩]  -- Masked lanes failed

/-- Object 0x4300. -/
def od4300 : List Obj :=
  [⟨0x00, (.u 1), .const, (.nat 5), .any, false⟩,  -- Highest subindex
   ⟨0x01, (.u 4), .ro, (.nat 0), .any, false⟩,  -- Boot epoch
   ⟨0x02, .bool, .ro, (.nat 0), .any, false⟩,  -- Boot epoch restarted
   ⟨0x03, (.u 4), .ro, (.nat 0), .any, false⟩,  -- Filter bits set
   ⟨0x04, (.u 4), .ro, (.nat 0), .any, true⟩,  -- Keys written since start-up
   ⟨0x05, (.u 4), .ro, (.nat 0), .any, false⟩]  -- False-match chance

/-- Object 0x5000. -/
def od5000 : List Obj :=
  [⟨0x00, (.u 1), .const, (.nat 10), .any, false⟩,  -- Highest subindex
   ⟨0x01, (.u 1), .rwc, (.nat 0), (.nat 0 2), false⟩,  -- Clear action
   ⟨0x02, (.u 1), .rwc, (.nat 0), .any, false⟩,  -- Berth
   ⟨0x03, (.u 1), .rwc, (.nat 0), (.nat 0 7), false⟩,  -- LPM table
   ⟨0x04, (.u 1), .rwc, (.nat 0), .any, false⟩,  -- Flags
   ⟨0x05, (.u 2), .rwc, (.nat 0), .any, false⟩,  -- Default queue
   ⟨0x06, (.u 2), .rwc, (.nat 65535), .any, false⟩,  -- Default association
   ⟨0x07, (.u 2), .rwc, (.nat 2000), (.nat 10 2000), false⟩,  -- Hold time
   ⟨0x08, (.u 2), .rwc, (.nat 65535), .any, false⟩,  -- Line RX association
   ⟨0x09, (.u 8), .ro, (.nat 0), .any, true⟩,  -- Clear hits
   ⟨0x0A, (.u 8), .ro, (.nat 0), .any, true⟩]  -- Line hits

/-- Object 0x5040. -/
def od5040 : List Obj :=
  [⟨0x00, (.u 1), .const, (.nat 12), .any, false⟩,  -- Highest subindex
   ⟨0x01, (.u 8), .ro, (.nat 0), .any, true⟩,  -- No policy
   ⟨0x02, (.u 8), .ro, (.nat 0), .any, true⟩,  -- Non-IP dropped
   ⟨0x03, (.u 8), .ro, (.nat 0), .any, true⟩,  -- LPM miss dropped
   ⟨0x04, (.u 8), .ro, (.nat 0), .any, true⟩,  -- Result unusable
   ⟨0x05, (.u 8), .ro, (.nat 0), .any, true⟩,  -- Dropped by prefix
   ⟨0x06, (.u 8), .ro, (.nat 0), .any, true⟩,  -- Learn notifications posted
   ⟨0x07, (.u 8), .ro, (.nat 0), .any, true⟩,  -- Learn notifications suppressed
   ⟨0x08, (.u 8), .ro, (.nat 0), .any, true⟩,  -- Learn overflow
   ⟨0x09, (.u 8), .ro, (.nat 0), .any, true⟩,  -- Frames held
   ⟨0x0A, (.u 8), .ro, (.nat 0), .any, true⟩,  -- Held frames released
   ⟨0x0B, (.u 8), .ro, (.nat 0), .any, true⟩,  -- Hold expired
   ⟨0x0C, (.u 8), .ro, (.nat 0), .any, true⟩]  -- Hold refused

/-- Object 0x5100. -/
def od5100 : List Obj :=
  [⟨0x00, (.u 1), .const, (.nat 7), .any, false⟩,  -- Highest subindex
   ⟨0x01, (.u 1), .rwc, (.nat 0), .any, false⟩,  -- Owning berth
   ⟨0x02, (.oct 33), .rwc, (.oct (zeros 33)), .any, false⟩,  -- IPv4 bank map
   ⟨0x03, (.oct 129), .rwc, (.oct (zeros 129)), .any, false⟩,  -- IPv6 bank map
   ⟨0x04, (.u 4), .ro, (.nat 0), .any, false⟩,  -- IPv4 prefixes
   ⟨0x05, (.u 4), .ro, (.nat 0), .any, false⟩,  -- IPv6 prefixes
   ⟨0x06, (.u 4), .ro, (.nat 0), .any, false⟩,  -- Slots used
   ⟨0x07, (.u 4), .ro, (.nat 0), .any, true⟩]  -- Probe budget refusals

/-- Object 0x5110. -/
def od5110 : List Obj :=
  [⟨0x00, (.u 1), .const, (.nat 4), .any, false⟩,  -- Highest subindex
   ⟨0x01, (.oct 24), .wo, (.oct (zeros 24)), .any, false⟩,  -- Insert
   ⟨0x02, (.oct 24), .wo, (.oct (zeros 24)), .any, false⟩,  -- Delete
   ⟨0x03, (.oct 17), .rw, (.oct (zeros 17)), .any, false⟩,  -- Query address
   ⟨0x04, (.oct 24), .ro, (.oct (zeros 24)), .any, false⟩]  -- Query result

/-- Object 0x5120. -/
def od5120 : List Obj :=
  [⟨0x00, (.u 1), .const, (.nat 3), .any, false⟩,  -- Highest subindex
   ⟨0x01, (.oct 24), .ro, (.oct (zeros 24)), .any, false⟩,  -- Prefix record
   ⟨0x02, (.u 1), .ro, (.nat 0), .any, false⟩,  -- Slot state
   ⟨0x03, (.u 1), .ro, (.nat 0), .any, false⟩]  -- Table

/-- Object 0x5130. -/
def od5130 : List Obj :=
  [⟨0x00, (.u 1), .const, (.nat 3), .any, false⟩,  -- Highest subindex
   ⟨0x01, (.u 4), .ro, (.nat 0), .any, false⟩,  -- Slots used
   ⟨0x02, (.u 4), .ro, (.nat 0), .any, true⟩,  -- Placement refusals
   ⟨0x03, (.u 8), .ro, (.nat 0), .any, true⟩]  -- Relocations

/-- Object 0x5200. -/
def od5200 : List Obj :=
  [⟨0x00, (.u 1), .const, (.nat 8), .any, false⟩,  -- Highest subindex
   ⟨0x01, (.u 2), .ro, (.nat 0), .any, false⟩,  -- Pending notifications
   ⟨0x02, (.u 4), .ro, (.nat 0), .any, false⟩,  -- Oldest pending sequence
   ⟨0x03, (.u 4), .ro, (.nat 0), .any, false⟩,  -- Newest pending sequence
   ⟨0x04, (.u 4), .wo, (.nat 0), .any, false⟩,  -- Acknowledge
   ⟨0x05, (.u 8), .ro, (.nat 0), .any, true⟩,  -- Notifications posted
   ⟨0x06, (.u 8), .ro, (.nat 0), .any, true⟩,  -- Overflows
   ⟨0x07, (.u 2), .ro, (.nat 0), .any, false⟩,  -- Frames held now
   ⟨0x08, (.u 4), .ro, (.nat 0), .any, false⟩]  -- Bytes held now

/-- Object 0x5210. -/
def od5210 : List Obj :=
  [⟨0x00, (.u 1), .const, (.nat 1), .any, false⟩,  -- Highest subindex
   ⟨0x01, (.oct 40), .ro, (.oct (zeros 40)), .any, false⟩]  -- Notification

/-- Object 0x6000. -/
def od6000 : List Obj :=
  [⟨0x00, (.u 1), .const, (.nat 24), .any, false⟩,  -- Highest subindex
   ⟨0x01, .bool, .rwc, (.nat 0), .any, false⟩,  -- Enable
   ⟨0x02, (.u 1), .rwc, (.nat 0), .any, false⟩,  -- Berth
   ⟨0x03, (.u 1), .rwc, (.nat 255), .any, false⟩,  -- Egress port
   ⟨0x04, (.u 1), .rwc, (.nat 0), (.nat 0 7), false⟩,  -- Class
   ⟨0x05, (.u 2), .rwc, (.nat 16), (.nat 1 1024), false⟩,  -- Weight
   ⟨0x06, (.u 1), .rwc, (.nat 0), (.nat 0 1), false⟩,  -- Shaper mode
   ⟨0x07, .rate, .rwc, (.nat 0), .any, false⟩,  -- Rate or CIR
   ⟨0x08, (.u 4), .rwc, (.nat 16384), .any, false⟩,  -- Burst or CBS
   ⟨0x09, .rate, .rwc, (.nat 0), .any, false⟩,  -- PIR
   ⟨0x0A, (.u 4), .rwc, (.nat 16384), .any, false⟩,  -- PBS
   ⟨0x0B, (.u 1), .rwc, (.nat 0), .any, false⟩,  -- Flags
   ⟨0x0C, (.i 1), .rwc, (.int (-128)), .any, false⟩,  -- Length overhead
   ⟨0x0D, (.u 4), .rwc, (.nat 0), .any, false⟩,  -- Delivery bound
   ⟨0x0E, (.u 1), .rwc, (.nat 100), (.nat 1 100), false⟩,  -- Yellow threshold
   ⟨0x0F, (.u 4), .ro, (.nat 0), .any, false⟩,  -- Backlog limit in force
   ⟨0x10, (.u 4), .ro, (.nat 0), .any, false⟩,  -- Queue state
   ⟨0x11, .rate, .ro, (.nat 0), .any, false⟩,  -- Rate or CIR in force for service
   ⟨0x12, .rate, .ro, (.nat 0), .any, false⟩,  -- PIR in force for service
   ⟨0x13, (.i 8), .ro, (.int (0)), .any, false⟩,  -- Tokens T or C
   ⟨0x14, (.i 8), .ro, (.int (0)), .any, false⟩,  -- Tokens P
   ⟨0x15, (.u 4), .ro, (.nat 0), .any, false⟩,  -- Backlog
   ⟨0x16, (.u 4), .ro, (.nat 0), .any, false⟩,  -- Backlog frames
   ⟨0x17, .rate, .ro, (.nat 0), .any, false⟩,  -- Committed peak rate
   ⟨0x18, (.u 4), .ro, (.nat 0), .any, false⟩]  -- Buffer cells held

/-- Object 0x6010. -/
def od6010 : List Obj :=
  [⟨0x00, (.u 1), .const, (.nat 12), .any, false⟩,  -- Highest subindex
   ⟨0x01, (.u 8), .ro, (.nat 0), .any, true⟩,  -- Accepted
   ⟨0x02, (.u 8), .ro, (.nat 0), .any, true⟩,  -- Accepted debit
   ⟨0x03, (.u 8), .ro, (.nat 0), .any, true⟩,  -- Delivered
   ⟨0x04, (.u 8), .ro, (.nat 0), .any, true⟩,  -- Released green
   ⟨0x05, (.u 8), .ro, (.nat 0), .any, true⟩,  -- Released yellow
   ⟨0x06, (.u 8), .ro, (.nat 0), .any, true⟩,  -- Not accepted: backlog limit
   ⟨0x07, (.u 8), .ro, (.nat 0), .any, true⟩,  -- Not accepted: yellow threshold
   ⟨0x08, (.u 8), .ro, (.nat 0), .any, true⟩,  -- Not accepted: berth buffer share
   ⟨0x09, (.u 8), .ro, (.nat 0), .any, true⟩,  -- Not accepted: basin buffer
   ⟨0x0A, (.u 8), .ro, (.nat 0), .any, true⟩,  -- Not accepted: oversize for window
   ⟨0x0B, (.u 8), .ro, (.nat 0), .any, true⟩,  -- Not accepted: egress port down
   ⟨0x0C, (.u 8), .ro, (.nat 0), .any, true⟩]  -- Not accepted: queue closed

/-- Object 0x6020. -/
def od6020 : List Obj :=
  [⟨0x00, (.u 1), .const, (.nat 6), .any, false⟩,  -- Highest subindex
   ⟨0x01, (.u 8), .ro, (.nat 0), .any, true⟩,  -- Key slot empty
   ⟨0x02, (.u 8), .ro, (.nat 0), .any, true⟩,  -- PN or FCNT hard stop
   ⟨0x03, (.u 8), .ro, (.nat 0), .any, true⟩,  -- Egress port down
   ⟨0x04, (.u 8), .ro, (.nat 0), .any, true⟩,  -- Quiesce
   ⟨0x05, (.u 8), .ro, (.nat 0), .any, true⟩,  -- Zeroize or Retire
   ⟨0x06, (.u 8), .ro, (.nat 0), .any, true⟩]  -- Berth reset

/-- Object 0x6100. -/
def od6100 : List Obj :=
  [⟨0x00, (.u 1), .const, (.nat 10), .any, false⟩,  -- Highest subindex
   ⟨0x01, (.u 2), .rwc, (.nat 16), (.nat 1 1024), false⟩,  -- Class 0 weight
   ⟨0x02, (.u 2), .rwc, (.nat 16), (.nat 1 1024), false⟩,  -- Class 1 weight
   ⟨0x03, (.u 2), .rwc, (.nat 16), (.nat 1 1024), false⟩,  -- Class 2 weight
   ⟨0x04, (.u 2), .rwc, (.nat 16), (.nat 1 1024), false⟩,  -- Class 3 weight
   ⟨0x05, (.u 2), .rwc, (.nat 16), (.nat 1 1024), false⟩,  -- Class 4 weight
   ⟨0x06, (.u 2), .rwc, (.nat 16), (.nat 1 1024), false⟩,  -- Class 5 weight
   ⟨0x07, (.u 4), .rwc, (.nat 0), (.natOr 65536 131072 0), false⟩,  -- Scaling factor
   ⟨0x08, (.u 4), .ro, (.nat 65536), .any, false⟩,  -- Scaling factor in force
   ⟨0x09, .rate, .ro, (.nat 0), .any, false⟩,  -- Pacing rate
   ⟨0x0A, (.u 2), .ro, (.nat 0), .any, false⟩]  -- Queues bound

/-- Object 0x6200. -/
def od6200 : List Obj :=
  [⟨0x00, (.u 1), .const, (.nat 8), .any, false⟩,  -- Highest subindex
   ⟨0x01, (.u 2), .rwc, (.nat 16), (.nat 1 1024), false⟩,  -- Berth weight
   ⟨0x02, .rate, .rwc, (.nat 4294967295), .any, false⟩,  -- Rate
   ⟨0x03, (.u 4), .rwc, (.nat 65536), .any, false⟩,  -- Burst
   ⟨0x04, .rate, .ro, (.nat 4294967295), .any, false⟩,  -- Rate in force for service
   ⟨0x05, (.i 8), .ro, (.int (0)), .any, false⟩,  -- Tokens
   ⟨0x06, (.u 1), .ro, (.nat 0), .any, false⟩,  -- Node state
   ⟨0x07, (.u 2), .ro, (.nat 0), .any, false⟩,  -- Queues bound
   ⟨0x08, (.u 4), .ro, (.nat 0), .any, false⟩]  -- Backlog

/-- Object 0x6800. -/
def od6800 : List Obj :=
  [⟨0x00, (.u 1), .const, (.nat 18), .any, false⟩,  -- Highest subindex
   ⟨0x01, .bool, .rwc, (.nat 0), .any, false⟩,  -- Gates enabled, pending
   ⟨0x02, (.u 4), .rwc, (.nat 100000), (.nat 1000 400000000), false⟩,  -- Cycle time, pending
   ⟨0x03, .time, .rwc, (.nat 0), .any, false⟩,  -- Base time, pending
   ⟨0x04, .time, .rwc, (.nat 0), .any, false⟩,  -- Configuration time, pending
   ⟨0x05, (.u 2), .rwc, (.nat 1), (.nat 1 1024), false⟩,  -- Entry count, pending
   ⟨0x06, (.u 1), .rwc, (.nat 0), .any, false⟩,  -- Fitted classes, pending
   ⟨0x07, (.u 1), .rwc, (.nat 0), .any, false⟩,  -- Flags
   ⟨0x08, (.oct 16), .rwc, (.oct (List.replicate 16 0xFF)), .any, false⟩,  -- Fit limits, pending
   ⟨0x09, .bool, .ro, (.nat 0), .any, false⟩,  -- Gates enabled in force
   ⟨0x0A, (.u 4), .ro, (.nat 100000), .any, false⟩,  -- Cycle time in force
   ⟨0x0B, .time, .ro, (.nat 0), .any, false⟩,  -- Base time in force
   ⟨0x0C, (.u 2), .ro, (.nat 1), .any, false⟩,  -- Entry count in force
   ⟨0x0D, (.u 1), .ro, (.nat 0), .any, false⟩,  -- Fitted classes in force
   ⟨0x0E, (.u 4), .ro, (.nat 0), .any, false⟩,  -- Gate state
   ⟨0x0F, .time, .ro, (.nat 0), .any, false⟩,  -- Swap time
   ⟨0x10, (.u 4), .ro, (.nat 0), .any, true⟩,  -- Swaps
   ⟨0x11, (.u 2), .ro, (.nat 9236), .any, false⟩,  -- Port maximum debit
   ⟨0x12, (.oct 16), .ro, (.oct (List.replicate 16 0xFF)), .any, false⟩]  -- Fit limits in force

/-- Object 0x6810. -/
def od6810 : List Obj :=
  [⟨0x00, (.u 1), .const, (.nat 2), .any, false⟩,  -- Highest subindex
   ⟨0x01, (.u 1), .rwc, (.nat 255), .any, false⟩,  -- Gate mask
   ⟨0x02, (.u 4), .rwc, (.nat 100000), (.nat 16 400000000), false⟩]  -- Duration

/-- Object 0x6818. -/
def od6818 : List Obj :=
  [⟨0x00, (.u 1), .const, (.nat 2), .any, false⟩,  -- Highest subindex
   ⟨0x01, (.u 1), .ro, (.nat 255), .any, false⟩,  -- Gate mask
   ⟨0x02, (.u 4), .ro, (.nat 100000), .any, false⟩]  -- Duration

/-- Object 0x6820. -/
def od6820 : List Obj :=
  [⟨0x00, (.u 1), .const, (.nat 7), .any, false⟩,  -- Highest subindex
   ⟨0x01, (.u 1), .ro, (.nat 0), .any, false⟩,  -- Discipline in force
   ⟨0x02, (.u 2), .ro, (.nat 0), .any, false⟩,  -- Fit limit
   ⟨0x03, (.u 4), .ro, (.nat 0), .any, false⟩,  -- Gap G
   ⟨0x04, (.u 4), .ro, (.nat 0), .any, false⟩,  -- Blocking β
   ⟨0x05, (.u 4), .ro, (.nat 0), .any, false⟩,  -- Usable open time per cycle
   ⟨0x06, (.u 4), .ro, (.nat 0), .any, false⟩,  -- Capacity K
   ⟨0x07, (.u 4), .ro, (.nat 0), .any, false⟩]  -- Demand Δ

/-- Object 0x6830. -/
def od6830 : List Obj :=
  [⟨0x00, (.u 1), .const, (.nat 5), .any, false⟩,  -- Highest subindex
   ⟨0x01, (.u 4), .ro, (.nat 0), .any, false⟩,  -- Fixed latency used
   ⟨0x02, (.u 4), .ro, (.nat 0), .any, false⟩,  -- Latency term
   ⟨0x03, .rate, .ro, (.nat 0), .any, false⟩,  -- Guaranteed rate
   ⟨0x04, (.u 4), .ro, (.nat 0), .any, false⟩,  -- Minimum provable bound
   ⟨0x05, (.u 1), .ro, (.nat 0), .any, false⟩]  -- Limit basis

/-- Object 0x7000. -/
def od7000 : List Obj :=
  [⟨0x00, (.u 1), .const, (.nat 14), .any, false⟩,  -- Highest subindex
   ⟨0x01, .time, .ro, (.nat 0), .any, false⟩,  -- Time now
   ⟨0x02, (.u 4), .rw, (.nat 1717986918), (.nat 1717815119 1718158717), false⟩,  -- Increment
   ⟨0x03, (.i 4), .wo, (.int (0)), (.int (-1000000) (1000000)), false⟩,  -- Slew
   ⟨0x04, (.i 8), .wo, (.int (0)), .any, false⟩,  -- Step
   ⟨0x05, .time, .wo, (.nat 0), .any, false⟩,  -- Set time
   ⟨0x06, (.u 1), .ro, (.nat 0), .any, false⟩,  -- Synchronisation state
   ⟨0x07, (.u 1), .ro, (.nat 0), .any, false⟩,  -- Source in force
   ⟨0x08, .time, .ro, (.nat 0), .any, false⟩,  -- Last step time
   ⟨0x09, (.u 4), .ro, (.nat 0), .any, true⟩,  -- Steps
   ⟨0x0A, (.i 4), .ro, (.int (0)), .any, false⟩,  -- Slew remaining
   ⟨0x0B, (.u 4), .ro, (.nat 0), .any, false⟩,  -- Runtime
   ⟨0x0C, .bool, .ro, (.nat 1), .any, false⟩,  -- H1 in lockstep
   ⟨0x0D, (.u 4), .ro, (.nat 0), .any, true⟩,  -- Lockstep faults
   ⟨0x0E, .bool, .ro, (.nat 0), .any, false⟩]  -- Runtime restored

/-- Object 0x7010. -/
def od7010 : List Obj :=
  [⟨0x00, (.u 1), .const, (.nat 10), .any, false⟩,  -- Highest subindex
   ⟨0x01, (.u 1), .rwc, (.nat 0), (.nat 0 4), false⟩,  -- Source
   ⟨0x02, (.u 1), .rwc, (.nat 255), (.natOr 0 65 255), false⟩,  -- Source port
   ⟨0x03, (.u 4), .rwc, (.nat 20), (.nat 2 1000000), false⟩,  -- Lock threshold
   ⟨0x04, (.u 2), .rwc, (.nat 10), (.nat 0 3600), false⟩,  -- Holdover time
   ⟨0x05, (.u 1), .rw, (.nat 0), (.nat 0 60), false⟩,  -- Host lease
   ⟨0x06, (.i 4), .ro, (.int (0)), .any, true⟩,  -- Servo offset
   ⟨0x07, (.u 4), .ro, (.nat 0), .any, false⟩,  -- Mean path delay
   ⟨0x08, (.u 8), .rw, (.nat 0), .any, false⟩,  -- PPS time of day
   ⟨0x09, (.i 2), .ro, (.int (0)), .any, false⟩,  -- UTC offset received
   ⟨0x0A, (.u 4), .ro, (.nat 0), .any, true⟩]  -- PPS edges not used

/-- Object 0x7020. -/
def od7020 : List Obj :=
  [⟨0x00, (.u 1), .const, (.nat 12), .any, false⟩,  -- Highest subindex
   ⟨0x01, .bool, .rwc, (.nat 0), .any, false⟩,  -- Enable
   ⟨0x02, (.u 1), .rwc, (.nat 0), (.nat 0 1), false⟩,  -- Role
   ⟨0x03, (.u 1), .rwc, (.nat 0), (.nat 0 2), false⟩,  -- Transport
   ⟨0x04, (.u 1), .rwc, (.nat 0), (.nat 0 1), false⟩,  -- Delay mechanism
   ⟨0x05, (.u 1), .rwc, (.nat 0), .any, false⟩,  -- Domain
   ⟨0x06, .bool, .rwc, (.nat 0), .any, false⟩,  -- Two-step
   ⟨0x07, (.i 1), .rwc, (.int (-3)), (.int (-7) (4)), false⟩,  -- Log Sync interval
   ⟨0x08, (.i 1), .rwc, (.int (0)), (.int (-7) (5)), false⟩,  -- Log minimum Delay_Req interval
   ⟨0x09, (.oct 8), .const, (.oct (zeros 8)), .any, false⟩,  -- Clock identity
   ⟨0x0A, (.oct 16), .rwc, (.oct (zeros 16)), .any, false⟩,  -- Address
   ⟨0x0B, (.u 2), .rwc, (.nat 65535), (.natOr 0 4095 65535), false⟩,  -- VLAN
   ⟨0x0C, (.u 8), .ro, (.nat 0), .any, true⟩]  -- Messages not acted on

/-- Object 0x7030. -/
def od7030 : List Obj :=
  [⟨0x00, (.u 1), .const, (.nat 10), .any, false⟩,  -- Highest subindex
   ⟨0x01, (.u 4), .const, (.nat 0), .any, false⟩,  -- Receive correction
   ⟨0x02, (.u 4), .const, (.nat 0), .any, false⟩,  -- Transmit correction
   ⟨0x03, (.i 4), .rwc, (.int (0)), (.int (-1000000) (1000000)), false⟩,  -- Asymmetry
   ⟨0x04, .bool, .rwc, (.nat 0), .any, false⟩,  -- Transparent clock
   ⟨0x05, .bool, .rwc, (.nat 0), .any, false⟩,  -- P2P
   ⟨0x06, (.u 4), .ro, (.nat 0), .any, false⟩,  -- Mean link delay
   ⟨0x07, (.i 4), .ro, (.int (0)), .any, false⟩,  -- Time-transfer offset
   ⟨0x08, (.u 8), .ro, (.nat 0), .any, true⟩,  -- Time-transfer reports used
   ⟨0x09, (.u 8), .ro, (.nat 0), .any, true⟩,  -- Time-transfer reports not used
   ⟨0x0A, (.u 8), .ro, (.nat 0), .any, true⟩]  -- Prediction mismatches

/-- Object 0x7040. -/
def od7040 : List Obj :=
  [⟨0x00, (.u 1), .const, (.nat 8), .any, false⟩,  -- Highest subindex
   ⟨0x01, (.u 1), .rwc, (.nat 0), (.nat 0 2), false⟩,  -- Mode
   ⟨0x02, .time, .rwc, (.nat 0), .any, false⟩,  -- Start time
   ⟨0x03, (.u 4), .rwc, (.nat 1000000), (.nat 100 4000000000), false⟩,  -- Period
   ⟨0x04, (.u 4), .rwc, (.nat 100), .any, false⟩,  -- Width
   ⟨0x05, .bool, .rwc, (.nat 0), .any, false⟩,  -- Active low
   ⟨0x06, (.u 4), .ro, (.nat 0), .any, true⟩,  -- Pulses
   ⟨0x07, (.oct 12), .ro, (.oct (zeros 12)), .any, false⟩,  -- Last pulse
   ⟨0x08, .bool, .rwc, (.nat 1), .any, false⟩]  -- Only while synchronised

/-- Object 0x7050. -/
def od7050 : List Obj :=
  [⟨0x00, (.u 1), .const, (.nat 4), .any, false⟩,  -- Highest subindex
   ⟨0x01, (.u 1), .rwc, (.nat 0), (.nat 0 3), false⟩,  -- Edge
   ⟨0x02, (.u 1), .ro, (.nat 0), .any, false⟩,  -- Records waiting
   ⟨0x03, (.oct 12), .ro, (.oct (zeros 12)), .any, false⟩,  -- Oldest record
   ⟨0x04, (.u 4), .ro, (.nat 0), .any, true⟩]  -- Edges lost

/-- Object 0x7100. -/
def od7100 : List Obj :=
  [⟨0x00, (.u 1), .const, (.nat 8), .any, false⟩,  -- Highest subindex
   ⟨0x01, (.u 1), .rwc, (.nat 3), (.nat 0 3), false⟩,  -- Reference select
   ⟨0x02, (.u 1), .ro, (.nat 0), .any, false⟩,  -- Reference in force
   ⟨0x03, (.u 1), .ro, (.nat 0), .any, false⟩,  -- Reference state
   ⟨0x04, (.i 4), .ro, (.int (0)), .any, false⟩,  -- Oscillator steering
   ⟨0x05, .bool, .ro, (.nat 0), .any, false⟩,  -- REF10M_IN valid
   ⟨0x06, .bool, .ro, (.nat 0), .any, false⟩,  -- PPS_IN valid
   ⟨0x07, (.u 4), .ro, (.nat 0), .any, true⟩,  -- Reference losses
   ⟨0x08, .bool, .ro, (.nat 1), .any, false⟩]  -- Keel locked

/-- Object 0x8000. -/
def od8000 : List Obj :=
  [⟨0x00, (.u 1), .const, (.nat 15), .any, false⟩,  -- Highest subindex
   ⟨0x01, .bool, .rwc, (.nat 0), .any, false⟩,  -- Stowage enable
   ⟨0x02, (.u 2), .rwc, (.nat 0), (.nat 1 512), false⟩,  -- Data span
   ⟨0x03, (.u 4), .ro, (.nat 0), .any, false⟩,  -- Port state
   ⟨0x04, (.u 4), .ro, (.nat 0), .any, false⟩,  -- Device capacity
   ⟨0x05, (.u 1), .ro, (.nat 0), .any, false⟩,  -- Extended Metadata bits
   ⟨0x06, (.u 1), .ro, (.nat 0), .any, false⟩,  -- Tree depth
   ⟨0x07, (.u 1), .ro, (.nat 0), .any, false⟩,  -- Restart number
   ⟨0x08, (.u 8), .ro, (.nat 0), .any, true⟩,  -- Corrected errors
   ⟨0x09, (.u 8), .ro, (.nat 0), .any, true⟩,  -- Lines lost
   ⟨0x0A, (.u 8), .ro, (.nat 0), .any, true⟩,  -- Integrity violations
   ⟨0x0B, (.u 8), .ro, (.nat 0), .any, true⟩,  -- Accesses refused
   ⟨0x0C, .rate, .ro, (.nat 0), .any, false⟩,  -- Park commitment
   ⟨0x0D, .rate, .const, (.nat 200000000), .any, false⟩,  -- Park cap
   ⟨0x0E, (.u 4), .const, (.nat 20000), .any, false⟩,  -- Park transit term
   ⟨0x0F, (.u 1), .ro, (.nat 0), .any, false⟩]  -- Lost-range records held

/-- Object 0x8010. -/
def od8010 : List Obj :=
  [⟨0x00, (.u 1), .const, (.nat 10), .any, false⟩,  -- Highest subindex
   ⟨0x01, (.u 1), .rwc, (.nat 0), (.nat 0 6), false⟩,  -- Kind
   ⟨0x02, (.u 1), .rwc, (.nat 0), (.nat 0 1), false⟩,  -- Protection class
   ⟨0x03, (.u 4), .rwc, (.nat 0), .any, false⟩,  -- Base
   ⟨0x04, (.u 4), .rwc, (.nat 0), .any, false⟩,  -- Size
   ⟨0x05, (.u 1), .rwc, (.nat 255), .any, false⟩,  -- Basin
   ⟨0x06, (.u 2), .rwc, (.nat 0), .any, false⟩,  -- Rights
   ⟨0x07, .bool, .rwc, (.nat 0), .any, false⟩,  -- Enable
   ⟨0x08, (.u 1), .ro, (.nat 0), .any, false⟩,  -- Region state
   ⟨0x09, (.u 8), .ro, (.nat 0), .any, false⟩,  -- Lines lost now
   ⟨0x0A, .bool, .wo, (.nat 0), .any, false⟩]  -- Release

/-- Object 0x8020. -/
def od8020 : List Obj :=
  [⟨0x00, (.u 1), .const, (.nat 6), .any, false⟩,  -- Highest subindex
   ⟨0x01, (.u 1), .ro, (.nat 255), .any, false⟩,  -- Region
   ⟨0x02, (.u 8), .ro, (.nat 0), .any, false⟩,  -- First line
   ⟨0x03, (.u 8), .ro, (.nat 0), .any, false⟩,  -- Line count
   ⟨0x04, (.u 1), .ro, (.nat 0), .any, false⟩,  -- Cause
   ⟨0x05, .time, .ro, (.nat 0), .any, false⟩,  -- Time
   ⟨0x06, .bool, .ro, (.nat 0), .any, false⟩]  -- Released

/-- Object 0x9000. -/
def od9000 : List Obj :=
  [⟨0x00, (.u 1), .const, (.nat 7), .any, false⟩,  -- Highest subindex
   ⟨0x01, (.u 2), .ro, (.nat 0), .any, false⟩,  -- Tamper count
   ⟨0x02, (.u 4), .ro, (.nat 0), .any, false⟩,  -- Tamper flags
   ⟨0x03, (.u 2), .ro, (.nat 0), .any, false⟩,  -- Mirror H0
   ⟨0x04, (.u 2), .ro, (.nat 0), .any, false⟩,  -- Mirror H1
   ⟨0x05, (.u 4), .ro, (.nat 0), .any, true⟩,  -- Events past saturation
   ⟨0x06, (.u 1), .rwc, (.nat 50), (.nat 1 99), false⟩,  -- Throttle fraction
   ⟨0x07, .bool, .rwc, (.nat 0), .any, false⟩]  -- Host loop enable

/-- Object 0x9010. -/
def od9010 : List Obj :=
  [⟨0x00, (.u 1), .const, (.nat 8), .any, false⟩,  -- Highest subindex
   ⟨0x01, (.u 1), .rwc, (.nat 0), (.nat 0 5), false⟩,  -- Response
   ⟨0x02, (.u 1), .const, (.nat 0), .any, false⟩,  -- Floor
   ⟨0x03, .bool, .const, (.nat 0), .any, false⟩,  -- Tamper-class
   ⟨0x04, (.u 1), .const, (.nat 0), .any, false⟩,  -- Scope
   ⟨0x05, (.u 1), .ro, (.nat 0), .any, false⟩,  -- Source state
   ⟨0x06, .bool, .wo, (.nat 0), .any, false⟩,  -- Release
   ⟨0x07, (.u 4), .ro, (.nat 0), .any, true⟩,  -- Events
   ⟨0x08, .time, .ro, (.nat 0), .any, false⟩]  -- Last event

/-- Object 0x9030. -/
def od9030 : List Obj :=
  [⟨0x00, (.u 1), .const, (.nat 4), .any, false⟩,  -- Highest subindex
   ⟨0x01, (.u 1), .rw, (.nat 0), (.nat 0 30), false⟩,  -- Swap window
   ⟨0x02, (.u 2), .ro, (.nat 0), .any, false⟩,  -- Window remaining
   ⟨0x03, (.u 2), .ro, (.nat 0), .any, false⟩,  -- Cell voltage
   ⟨0x04, .bool, .ro, (.nat 0), .any, false⟩]  -- Cell present

/-- Object 0x9040. -/
def od9040 : List Obj :=
  [⟨0x00, (.u 1), .const, (.nat 2), .any, false⟩,  -- Highest subindex
   ⟨0x01, (.oct 12), .wo, (.oct (zeros 12)), .any, false⟩,  -- Retire confirmation
   ⟨0x02, (.u 1), .ro, (.nat 0), .any, false⟩]  -- Retire state

/-- Object 0x9050. -/
def od9050 : List Obj :=
  [⟨0x00, (.u 1), .const, (.nat 3), .any, false⟩,  -- Highest subindex
   ⟨0x01, (.u 1), .rwc, (.nat 5), (.nat 2 15), false⟩,  -- Early-warning delay
   ⟨0x02, (.u 2), .const, (.nat 280), .any, false⟩,  -- Bulk threshold
   ⟨0x03, .bool, .wo, (.nat 0), .any, false⟩]  -- Restart

/-- Object 0x9100. -/
def od9100 : List Obj :=
  [⟨0x00, (.u 1), .const, (.nat 1), .any, false⟩,  -- Highest subindex
   ⟨0x01, (.oct 72), .ro, (.oct (zeros 72)), .any, false⟩]  -- Entry

/-- Object 0x9110. -/
def od9110 : List Obj :=
  [⟨0x00, (.u 1), .const, (.nat 6), .any, false⟩,  -- Highest subindex
   ⟨0x01, (.u 8), .ro, (.nat 0), .any, false⟩,  -- Seal entry number
   ⟨0x02, (.oct 32), .ro, (.oct (zeros 32)), .any, false⟩,  -- Seal chain value
   ⟨0x03, (.oct 5696), .ro, (.oct (zeros 5696)), .any, false⟩,  -- Signature part 1
   ⟨0x04, (.oct 5696), .ro, (.oct (zeros 5696)), .any, false⟩,  -- Signature part 2
   ⟨0x05, (.oct 5696), .ro, (.oct (zeros 5696)), .any, false⟩,  -- Signature part 3
   ⟨0x06, (.u 1), .ro, (.nat 0), .any, false⟩]  -- Seal flags

/-- Object 0x9120. -/
def od9120 : List Obj :=
  [⟨0x00, (.u 1), .const, (.nat 5), .any, false⟩,  -- Highest subindex
   ⟨0x01, (.u 8), .ro, (.nat 0), .any, false⟩,  -- Oldest entry held
   ⟨0x02, (.u 8), .ro, (.nat 0), .any, false⟩,  -- Newest entry
   ⟨0x03, (.u 8), .rw, (.nat 0), .any, false⟩,  -- Export mark
   ⟨0x04, (.u 4), .ro, (.nat 0), .any, false⟩,  -- Seals issued
   ⟨0x05, (.u 8), .ro, (.nat 0), .any, false⟩]  -- Head stored

/-- Object 0xA000. -/
def odA000 : List Obj :=
  [⟨0x00, (.u 1), .const, (.nat 9), .any, false⟩,  -- Highest subindex
   ⟨0x01, (.u 4), .rwc, (.nat 0), (.nat 1 1048574), false⟩,  -- BPID
   ⟨0x02, .bool, .rwc, (.nat 0), .any, false⟩,  -- Enable
   ⟨0x03, (.str 32), .rwc, (.oct []), .any, false⟩,  -- Label
   ⟨0x04, (.u 4), .ro, (.nat 0), .any, false⟩,  -- Berth state
   ⟨0x05, (.u 1), .ro, (.nat 0), .any, false⟩,  -- Generation
   ⟨0x06, (.u 1), .wo, (.nat 0), (.nat 1 2), false⟩,  -- Reset
   ⟨0x07, (.u 4), .ro, (.nat 0), .any, true⟩,  -- Resets
   ⟨0x08, .bool, .ro, (.nat 0), .any, false⟩,  -- Enable in force
   ⟨0x09, (.u 4), .ro, (.nat 0), .any, false⟩]  -- BPID in force

/-- Object 0xA010. -/
def odA010 : List Obj :=
  [⟨0x00, (.u 1), .const, (.nat 13), .any, false⟩,  -- Highest subindex
   ⟨0x01, (.u 2), .rwc, (.nat 0), (.nat 0 8192), false⟩,  -- Queue share
   ⟨0x02, (.u 2), .rwc, (.nat 0), (.nat 0 16384), false⟩,  -- Association share
   ⟨0x03, (.u 4), .rwc, (.nat 0), (.nat 0 262144), false⟩,  -- LPM slot share
   ⟨0x04, (.u 4), .rwc, (.nat 0), (.nat 0 98304), false⟩,  -- Buffer share
   ⟨0x05, .rate, .rwc, (.nat 0), (.nat 0 2080000000), false⟩,  -- Crypto share
   ⟨0x06, (.u 4), .rwc, (.nat 0), .any, false⟩,  -- Stowage share
   ⟨0x07, (.u 2), .ro, (.nat 0), .any, false⟩,  -- Queues in use
   ⟨0x08, (.u 2), .ro, (.nat 0), .any, false⟩,  -- Associations in use
   ⟨0x09, (.u 4), .ro, (.nat 0), .any, false⟩,  -- LPM slots in use
   ⟨0x0A, (.u 4), .ro, (.nat 0), .any, false⟩,  -- Buffer cells held
   ⟨0x0B, .rate, .ro, (.nat 0), .any, false⟩,  -- Crypto commitment
   ⟨0x0C, (.u 8), .ro, (.nat 0), .any, false⟩,  -- Stowage held
   ⟨0x0D, (.u 1), .ro, (.nat 0), .any, false⟩]  -- Over flags

/-- Object 0xA020. -/
def odA020 : List Obj :=
  [⟨0x00, (.u 1), .const, (.nat 9), .any, false⟩,  -- Highest subindex
   ⟨0x01, .time, .ro, (.nat 0), .any, false⟩,  -- Start time
   ⟨0x02, .time, .ro, (.nat 0), .any, false⟩,  -- Complete time
   ⟨0x03, (.u 1), .ro, (.nat 0), .any, false⟩,  -- Mode
   ⟨0x04, (.u 1), .ro, (.nat 0), .any, false⟩,  -- Old generation
   ⟨0x05, (.u 8), .ro, (.nat 0), .any, false⟩,  -- Accepted frames discarded
   ⟨0x06, (.u 8), .ro, (.nat 0), .any, false⟩,  -- Items of the old generation discarded
   ⟨0x07, (.u 4), .ro, (.nat 0), .any, false⟩,  -- Held frames dropped
   ⟨0x08, (.u 4), .ro, (.nat 0), .any, false⟩,  -- Key slots erased
   ⟨0x09, .bool, .ro, (.nat 0), .any, false⟩]  -- Traceable

/-- Object 0xB000. -/
def odB000 : List Obj :=
  [⟨0x00, (.u 1), .const, (.nat 10), .any, false⟩,  -- Highest subindex
   ⟨0x01, (.u 1), .rwc, (.nat 1), (.nat 1 4), false⟩,  -- Scope
   ⟨0x02, (.u 4), .rwc, (.nat 0), .any, false⟩,  -- Scope value
   ⟨0x03, .time, .rwc, (.nat 0), .any, false⟩,  -- Capture time
   ⟨0x04, (.u 1), .rwc, (.nat 0), (.nat 1 2), false⟩,  -- Request
   ⟨0x05, (.u 1), .ro, (.nat 0), .any, false⟩,  -- Snapshot state
   ⟨0x06, (.u 4), .ro, (.nat 0), .any, false⟩,  -- Last sequence
   ⟨0x07, .time, .ro, (.nat 0), .any, false⟩,  -- Capture time in force
   ⟨0x08, (.u 1), .rwc, (.nat 255), (.natOr 0 15 255), false⟩,  -- Archive region, H0
   ⟨0x09, (.u 1), .rwc, (.nat 255), (.natOr 0 15 255), false⟩,  -- Archive region, H1
   ⟨0x0A, (.u 2), .ro, (.nat 0), .any, false⟩]  -- Last flags

/-- Object 0xB010. -/
def odB010 : List Obj :=
  [⟨0x00, (.u 1), .const, (.nat 1), .any, false⟩,  -- Highest subindex
   ⟨0x01, (.u 8), .ro, (.nat 0), .any, false⟩]  -- Word

/-- Object 0xB020. -/
def odB020 : List Obj :=
  [⟨0x00, (.u 1), .const, (.nat 5), .any, false⟩,  -- Highest subindex
   ⟨0x01, (.u 4), .ro, (.nat 0), .any, false⟩,  -- Words in part
   ⟨0x02, (.u 4), .ro, (.nat 0), .any, false⟩,  -- Words written
   ⟨0x03, (.u 4), .ro, (.nat 0), .any, false⟩,  -- Oldest word held
   ⟨0x04, (.u 4), .wo, (.nat 0), .any, false⟩,  -- Acknowledge
   ⟨0x05, (.u 4), .ro, (.nat 0), .any, false⟩]  -- Words archived

/-- Object 0xB100. -/
def odB100 : List Obj :=
  [⟨0x00, (.u 1), .const, (.nat 5), .any, false⟩,  -- Highest subindex
   ⟨0x01, (.oct 32), .rw, (.oct (zeros 32)), .any, false⟩,  -- Filters
   ⟨0x02, (.u 1), .rw, (.nat 0), (.nat 0 1), false⟩,  -- Mode
   ⟨0x03, (.u 2), .rw, (.nat 100), (.nat 1 10000), false⟩,  -- Pulse width
   ⟨0x04, .bool, .wo, (.nat 0), .any, false⟩,  -- Clear
   ⟨0x05, .bool, .ro, (.nat 0), .any, false⟩]  -- Asserted

/-- Object 0xE000. -/
def odE000 : List Obj :=
  [⟨0x00, (.u 1), .const, (.nat 6), .any, false⟩,  -- Highest subindex
   ⟨0x01, .bool, .ro, (.nat 0), .any, false⟩,  -- Unlocked
   ⟨0x02, .bool, .rw, (.nat 0), .any, false⟩,  -- Debug port open
   ⟨0x03, (.u 8), .ro, (.nat 0), .any, true⟩,  -- Register writes
   ⟨0x04, (.u 8), .ro, (.nat 0), .any, true⟩,  -- Bus errors
   ⟨0x05, (.u 4), .ro, (.nat 0), .any, false⟩,  -- Last faulting address
   ⟨0x06, (.u 1), .ro, (.nat 0), .any, false⟩]  -- Last faulting harbour

/-- Object 0xE010. -/
def odE010 : List Obj :=
  [⟨0x00, (.u 1), .const, (.nat 2), .any, false⟩,  -- Highest subindex
   ⟨0x01, (.oct 8), .rw, (.oct (zeros 8)), .any, false⟩,  -- Query
   ⟨0x02, (.oct 8), .ro, (.oct (zeros 8)), .any, false⟩]  -- Result

/-- Object 0xE100. -/
def odE100 : List Obj :=
  [⟨0x00, (.u 1), .const, (.nat 2), .any, false⟩,  -- Highest subindex
   ⟨0x01, (.u 4), .rw, (.nat 0), .any, false⟩,  -- H0 word
   ⟨0x02, (.u 4), .rw, (.nat 0), .any, false⟩]  -- H1 word

/-- Object 0xE200. -/
def odE200 : List Obj :=
  [⟨0x00, (.u 1), .const, (.nat 2), .any, false⟩,  -- Highest subindex
   ⟨0x01, (.u 4), .rw, (.nat 0), .any, false⟩,  -- Indirect address
   ⟨0x02, (.u 4), .rw, (.nat 0), .any, false⟩]  -- Indirect data

/-- Object 0xF000. -/
def odF000 : List Obj :=
  [⟨0x00, (.u 1), .const, (.nat 6), .any, false⟩,  -- Highest subindex
   ⟨0x01, (.u 1), .ro, (.nat 0), .any, false⟩,  -- Slot state
   ⟨0x02, (.u 4), .ro, (.nat 0), .any, false⟩,  -- Version
   ⟨0x03, (.u 4), .ro, (.nat 0), .any, false⟩,  -- Security version
   ⟨0x04, (.oct 32), .ro, (.oct (zeros 32)), .any, false⟩,  -- Image digest
   ⟨0x05, .bool, .ro, (.nat 0), .any, false⟩,  -- Co-signed
   ⟨0x06, (.u 1), .ro, (.nat 0), .any, false⟩]  -- Vendor key index

/-- Object 0xF010. -/
def odF010 : List Obj :=
  [⟨0x00, (.u 1), .const, (.nat 12), .any, false⟩,  -- Highest subindex
   ⟨0x01, (.u 4), .rw, (.nat 0), .any, false⟩,  -- Staged length
   ⟨0x02, .bool, .wo, (.nat 0), .any, false⟩,  -- Verify
   ⟨0x03, (.u 1), .ro, (.nat 0), .any, false⟩,  -- Staging state
   ⟨0x04, (.u 1), .ro, (.nat 0), .any, false⟩,  -- Refusal cause
   ⟨0x05, .bool, .wo, (.nat 0), .any, false⟩,  -- Install
   ⟨0x06, (.u 1), .wo, (.nat 0), (.nat 0 1), false⟩,  -- Activate
   ⟨0x07, .bool, .wo, (.nat 0), .any, false⟩,  -- Confirm
   ⟨0x08, (.u 1), .ro, (.nat 0), .any, false⟩,  -- Running slot
   ⟨0x09, (.u 1), .ro, (.nat 0), .any, false⟩,  -- Boot slot
   ⟨0x0A, (.u 2), .ro, (.nat 0), .any, false⟩,  -- Rollback counter
   ⟨0x0B, .bool, .rw, (.nat 0), .any, false⟩,  -- Co-signature required
   ⟨0x0C, (.u 1), .ro, (.nat 0), .any, false⟩]  -- Vendor keys revoked

/-- Object 0xF020. -/
def odF020 : List Obj :=
  [⟨0x00, (.u 1), .const, (.nat 1), .any, false⟩,  -- Highest subindex
   ⟨0x01, (.oct 8192), .wo, (.oct (zeros 8192)), .any, false⟩]  -- Chunk

/-- Object 0xF100. -/
def odF100 : List Obj :=
  [⟨0x00, (.u 1), .const, (.nat 6), .any, false⟩,  -- Highest subindex
   ⟨0x01, (.oct 32), .ro, (.oct (zeros 32)), .any, false⟩,  -- Configuration digest
   ⟨0x02, (.oct 256), .ro, (.oct (zeros 256)), .any, false⟩,  -- Report
   ⟨0x03, (.oct 5696), .ro, (.oct (zeros 5696)), .any, false⟩,  -- Signature part 1
   ⟨0x04, (.oct 5696), .ro, (.oct (zeros 5696)), .any, false⟩,  -- Signature part 2
   ⟨0x05, (.oct 5696), .ro, (.oct (zeros 5696)), .any, false⟩,  -- Signature part 3
   ⟨0x06, (.u 4), .ro, (.nat 0), .any, false⟩]  -- Reports issued

/-- Object 0xF200. -/
def odF200 : List Obj :=
  [⟨0x00, (.u 1), .const, (.nat 11), .any, false⟩,  -- Highest subindex
   ⟨0x01, .bool, .wo, (.nat 0), .any, false⟩,  -- Generate
   ⟨0x02, (.u 1), .ro, (.nat 0), .any, false⟩,  -- Service state
   ⟨0x03, (.oct 32), .ro, (.oct (zeros 32)), .any, false⟩,  -- Service public key
   ⟨0x04, (.oct 64), .ro, (.oct (zeros 64)), .any, false⟩,  -- Service request
   ⟨0x05, (.oct 5696), .ro, (.oct (zeros 5696)), .any, false⟩,  -- Request signature part 1
   ⟨0x06, (.oct 5696), .ro, (.oct (zeros 5696)), .any, false⟩,  -- Request signature part 2
   ⟨0x07, (.oct 5696), .ro, (.oct (zeros 5696)), .any, false⟩,  -- Request signature part 3
   ⟨0x08, (.oct 128), .rw, (.oct (zeros 128)), .any, false⟩,  -- Certificate body
   ⟨0x09, (.oct 7856), .rw, (.oct (zeros 7856)), .any, false⟩,  -- Certificate signature
   ⟨0x0A, .bool, .wo, (.nat 0), .any, false⟩,  -- Install
   ⟨0x0B, .bool, .wo, (.nat 0), .any, false⟩]  -- Erase

/-- Object 0xF300. -/
def odF300 : List Obj :=
  [⟨0x00, (.u 1), .const, (.nat 2), .any, false⟩,  -- Highest subindex
   ⟨0x01, (.oct 32), .rw, (.oct (zeros 32)), .any, false⟩,  -- Operator anchor
   ⟨0x02, .bool, .ro, (.nat 0), .any, false⟩]  -- Anchor set

/-- The dictionary, part 1. -/
def dictionary1 : List (Nat × List Obj) :=
  [(0x1000, od1000),
   (0x1010, od1010),
   (0x1020, od1020),
   (0x1100, od1100),
   (0x1110, od1110),
   (0x2000, od2000),
   (0x2010, od2010),
   (0x2020, od2020),
   (0x2030, od2030),
   (0x2040, od2040),
   (0x2100, od2100),
   (0x3000, od3000),
   (0x3100, od3100),
   (0x3200, od3200),
   (0x3300, od3300),
   (0x3310, od3310),
   (0x3400, od3400),
   (0x3410, od3410),
   (0x3420, od3420),
   (0x3430, od3430),
   (0x4000, od4000),
   (0x4010, od4010),
   (0x4020, od4020),
   (0x4030, od4030),
   (0x4040, od4040),
   (0x4100, od4100),
   (0x4200, od4200),
   (0x4210, od4210),
   (0x4220, od4220),
   (0x4230, od4230),
   (0x4240, od4240),
   (0x4300, od4300),
   (0x5000, od5000),
   (0x5040, od5040),
   (0x5100, od5100),
   (0x5110, od5110),
   (0x5120, od5120),
   (0x5130, od5130),
   (0x5200, od5200),
   (0x5210, od5210)]

/-- The dictionary, part 2. -/
def dictionary2 : List (Nat × List Obj) :=
  [(0x6000, od6000),
   (0x6010, od6010),
   (0x6020, od6020),
   (0x6100, od6100),
   (0x6200, od6200),
   (0x6800, od6800),
   (0x6810, od6810),
   (0x6818, od6818),
   (0x6820, od6820),
   (0x6830, od6830),
   (0x7000, od7000),
   (0x7010, od7010),
   (0x7020, od7020),
   (0x7030, od7030),
   (0x7040, od7040),
   (0x7050, od7050),
   (0x7100, od7100),
   (0x8000, od8000),
   (0x8010, od8010),
   (0x8020, od8020),
   (0x9000, od9000),
   (0x9010, od9010),
   (0x9030, od9030),
   (0x9040, od9040),
   (0x9050, od9050),
   (0x9100, od9100),
   (0x9110, od9110),
   (0x9120, od9120),
   (0xA000, odA000),
   (0xA010, odA010),
   (0xA020, odA020),
   (0xB000, odB000),
   (0xB010, odB010),
   (0xB020, odB020),
   (0xB100, odB100),
   (0xE000, odE000),
   (0xE010, odE010),
   (0xE100, odE100),
   (0xE200, odE200),
   (0xF000, odF000)]

/-- The dictionary, part 3. -/
def dictionary3 : List (Nat × List Obj) :=
  [(0xF010, odF010),
   (0xF020, odF020),
   (0xF100, odF100),
   (0xF200, odF200),
   (0xF300, odF300)]

/-- The dictionary. -/
def dictionary : List (Nat × List Obj) := dictionary1 ++ dictionary2 ++ dictionary3

/-- The row of an object; none for an index or subindex that is not implemented. -/
def objRow (idx sub : Nat) : Option Obj := (tget [] dictionary idx).find? fun o => o.sub == sub

end Sys2Proof.Machine
end

