-- ==== Sys2Proof/Machine/Sha256.lean ====
section
/-! DEFINITION. SHA-256 of FIPS 180-4, HMAC of FIPS 198-1 and HKDF of RFC 5869, which the spec names for digests, proofs
and check values without stating them (log 6). -/

namespace Sys2Proof.Machine

abbrev W32 := BitVec 32

/-- The greatest r whose e-th power is at most n, found bit by bit: the bits that remain, and r so far. -/
def rootBits (e n : Nat) : Nat → Nat → Nat
  | 0, r => r
  | k + 1, r => rootBits e n k (if (r + 2 ^ k) ^ e ≤ n then r + 2 ^ k else r)

/-- The first 64 primes, 2 to 311: no number from 2 to 17 but itself divides one. -/
def shaPrimes : List Nat := (List.range 312).filter fun n => decide (2 ≤ n) && (span 2 16).all fun d => d == n || n % d != 0

/-- The first 32 fraction bits of a prime's e-th root (FIPS 180-4, sections 4.2.2 and 5.3.3). -/
def rootWord (e p : Nat) : W32 := BitVec.ofNat 32 (rootBits e (p * 2 ^ (32 * e)) 40 0)

/-- The round constants: cube roots of the first 64 primes. -/
def shaK : List W32 := shaPrimes.map (rootWord 3)

/-- The eight working variables. -/
structure Sha where
  a : W32
  b : W32
  c : W32
  d : W32
  e : W32
  f : W32
  g : W32
  h : W32
  deriving DecidableEq, Repr

/-- The initial hash value: square roots of the first eight primes. -/
def shaInit : Sha :=
  let w (i : Nat) : W32 := rootWord 2 (shaPrimes.getD i 0)
  ⟨w 0, w 1, w 2, w 3, w 4, w 5, w 6, w 7⟩

def rotr (x : W32) (n : Nat) : W32 := x.rotateRight n

/-- One round with its constant and schedule word. -/
def shaRound (s : Sha) (kw : W32 × W32) : Sha :=
  let t1 := s.h + (rotr s.e 6 ^^^ rotr s.e 11 ^^^ rotr s.e 25) + ((s.e &&& s.f) ^^^ (~~~s.e &&& s.g)) + kw.1 + kw.2
  let t2 := (rotr s.a 2 ^^^ rotr s.a 13 ^^^ rotr s.a 22) + ((s.a &&& s.b) ^^^ (s.a &&& s.c) ^^^ (s.b &&& s.c))
  ⟨t1 + t2, s.a, s.b, s.c, s.d + t1, s.e, s.f, s.g⟩

/-- The message schedule, newest word first, grown by n words. -/
def shaSchedule : Nat → List W32 → List W32
  | 0, w => w
  | n + 1, w =>
    let w15 := w.getD 14 0
    let w2 := w.getD 1 0
    let s0 := rotr w15 7 ^^^ rotr w15 18 ^^^ (w15 >>> 3)
    let s1 := rotr w2 17 ^^^ rotr w2 19 ^^^ (w2 >>> 10)
    shaSchedule n ((w.getD 15 0 + s0 + w.getD 6 0 + s1) :: w)

/-- A byte string as big-endian 32-bit words, n of them. -/
def words32 : Nat → Octets → List W32
  | 0, _ => []
  | n + 1, bs => BitVec.ofNat 32 (natOf (bs.take 4)) :: words32 n (bs.drop 4)

/-- The compression of one 64-byte block. -/
def shaBlock (s : Sha) (blk : Octets) : Sha :=
  let r := ((shaK.zip (shaSchedule 48 (words32 16 blk).reverse).reverse).foldl shaRound s)
  ⟨s.a + r.a, s.b + r.b, s.c + r.c, s.d + r.d, s.e + r.e, s.f + r.f, s.g + r.g, s.h + r.h⟩

/-- The compression of n blocks. -/
def shaBlocks : Nat → Sha → Octets → Sha
  | 0, s, _ => s
  | n + 1, s, bs => shaBlocks n (shaBlock s (bs.take 64)) (bs.drop 64)

/-- The padded message: a one bit, zero bits, the 64-bit length. -/
def shaPad (m : Octets) : Octets := m ++ [0x80] ++ zeros ((119 - m.length % 64) % 64) ++ b8 (8 * m.length)

/-- SHA-256 of a byte string, 32 bytes. -/
def sha256 (m : Octets) : Octets :=
  let p := shaPad m
  let r := shaBlocks (p.length / 64) shaInit p
  [r.a, r.b, r.c, r.d, r.e, r.f, r.g, r.h].flatMap fun w => b4 w.toNat

/-- HMAC-SHA-256 under a key. -/
def hmac (key m : Octets) : Octets :=
  let k := fit 64 (if key.length ≤ 64 then key else sha256 key)
  sha256 (k.map (· ^^^ 0x5c) ++ sha256 (k.map (· ^^^ 0x36) ++ m))

/-- HKDF-SHA-256 with 32 bytes of output: input key material, salt, info. -/
def hkdf (ikm salt info : Octets) : Octets := hmac (hmac salt ikm) (info ++ b1 1)

end Sys2Proof.Machine
end

