-- ==== Sys2Proof/Machine/Ops.lean ====
section
/-! DEFINITION. The named operations every meaning is built from: objects in force and pending, counters, event records,
the journal, notification and alarm pins, and outputs. -/

namespace Sys2Proof.Machine

/-! ### Numbering -/

/-- The key of an object: index, subindex and element, of 32 bits (R772). -/
def okey (idx sub elem : Nat) : Nat := (idx * 256 + sub) * 2 ^ 32 + elem % 2 ^ 32

/-- The basin of a global port number: bits [5:4] (R3). -/
def basinOf (p : Nat) : Nat := p / 16 % 4

/-- The SIDE bit of a global port number: a line port (R3). -/
def isLine (p : Nat) : Bool := p.testBit 3

/-- The harbour of a basin. -/
def harbourOfBasin (b : Nat) : Nat := b / 2

/-- The harbour of a global port number. -/
def harbourOf (p : Nat) : Nat := basinOf p / 2

/-- The lane element at an index of a port's basin side (R41). -/
def laneAt (p i : Nat) : Nat := (if isLine p then 32 else 0) + basinOf p * 8 + i

/-- The port number whose first lane a lane element would be (R41). -/
def portAt (lane : Nat) : Nat := lane % 32 / 8 * 16 + lane / 32 * 8 + lane % 8

/-- A duration in D-clock cycles of 0.8 ns (R31). -/
def cyclesOfNs (ns : Nat) : Nat := ceilDiv (ns * 5) 4
def secCycles : Nat := 1250000000
def msCycles : Nat := 1250000
def usCycles : Nat := 1250

/-! ### Objects -/

/-- The bank maps by which an LPM table starts: IPv4 with 33 lengths, IPv6 with 129 (R402). -/
def defaultMap (n : Nat) : Octets := (List.range n).map fun l => Byte.ofNat ((l + l / 8) % 8)

/-- The source rows of R868: event, tamper-class, default, floor, highest, scope (0 module, 1 harbour, 2 basin, 3 region). -/
def sourceRows : List (Nat × Bool × Nat × Nat × Nat × Nat) :=
  [(0x9001, true, 4, 4, 5, 0), (0x9002, true, 4, 3, 5, 0), (0x9003, true, 4, 3, 5, 0), (0x9004, true, 4, 1, 5, 0),
   (0x9005, true, 4, 4, 5, 0), (0x9006, true, 4, 1, 5, 0), (0x9007, true, 1, 0, 5, 0), (0x9008, true, 4, 4, 4, 0),
   (0x9009, false, 3, 3, 3, 0), (0x900A, true, 1, 0, 4, 0), (0x8003, true, 3, 1, 5, 3), (0x4036, true, 1, 1, 5, 1),
   (0x4033, true, 3, 3, 5, 2), (0x8002, false, 3, 3, 3, 3), (0x900B, true, 1, 1, 1, 0)]

/-- One source of R868. -/
def sourceRow (i : Nat) : Nat × Bool × Nat × Nat × Nat × Nat := sourceRows.getD i (0, false, 0, 0, 0, 0)

/-- The default alarm filters (R848). -/
def defaultFilters (pin : Nat) : Octets :=
  fit 32 (match pin with
    | 0 => [0x90, 0x00, 0xF0, 0x00]
    | 1 => [0x40, 0x33, 0xFF, 0xFF, 0x80, 0x03, 0xFF, 0xFF, 0x40, 0x36, 0xFF, 0xFF]
    | 2 => [0x10, 0x00, 0xF0, 0x00]
    | _ => [])

/-- The default of an object at an element; the empty byte string stands for a default that follows another object
(the rekey threshold by suite, region rights by kind) and is resolved in `look`. -/
def dfltOf (idx sub elem : Nat) : Val :=
  if idx = 0x3100 ∧ sub = 0x04 then .nat (b01 (isLine elem))
  else if idx = 0x3100 ∧ sub = 0x0C then .nat (if isLine elem then 9248 else 9216)
  else if idx = 0xA000 ∧ (sub = 0x02 ∨ sub = 0x08) then .nat (b01 (elem == 0))
  else if idx = 0x9010 then
    let r := sourceRow elem
    if sub = 0x01 then .nat r.2.2.1 else if sub = 0x02 then .nat r.2.2.2.1 else if sub = 0x03 then .nat (b01 r.2.1)
    else if sub = 0x04 then .nat r.2.2.2.2.2 else .nat (if sub = 0 then 8 else 0)
  else if idx = 0xB100 ∧ sub = 0x01 then .oct (defaultFilters elem)
  else if idx = 0x5100 ∧ sub = 0x02 then .oct (defaultMap 33)
  else if idx = 0x5100 ∧ sub = 0x03 then .oct (defaultMap 129)
  else if idx = 0x7040 ∧ sub = 0x01 ∧ elem = 8 then .nat 2
  else if idx = 0x7040 ∧ sub = 0x03 ∧ elem = 8 then .nat 1000000000
  else if idx = 0x7050 ∧ sub = 0x01 ∧ elem = 8 then .nat 1
  else if (idx = 0x4000 ∧ sub = 0x0B) ∨ (idx = 0x8010 ∧ sub = 0x06) then .oct []
  else match objRow idx sub with
    | some o => o.dflt
    | none => .nat 0

/-- An entry of a table, where there is one. -/
def tfind {α : Type} : Tbl α → Nat → Option α
  | [], _ => none
  | (j, v) :: r, k => if j = k then some v else tfind r k

/-- A value as an unsigned number. -/
def Val.toNat : Val → Nat
  | .nat n => n
  | .int x => x.toNat
  | .oct b => natOf b

/-- A value as a signed number. -/
def Val.toInt : Val → Int
  | .nat n => n
  | .int x => x
  | .oct b => natOf b

/-- A value as octets. -/
def Val.toOct : Val → Octets
  | .oct b => b
  | _ => []

/-- Where the value in force of an object is held: credentials in the vault (R765), their counter (R824) and everything else in
the module. -/
def store (m : Mod) (idx sub : Nat) : Tbl Val := if idx = 0x2100 ∧ sub ≠ 8 then m.tether.vault.cfg else m.obj

/-- The rights a region has by default, by kind and basin (R642). -/
def defaultRights (kind basin : Nat) : Nat :=
  match kind with
  | 1 => if basin % 2 = 0 then 0x00C else 0x030
  | 2 => 0x0C1
  | 3 => 0x003
  | 4 => 0x003
  | 5 => 0x301
  | 6 => 0x003
  | _ => 0

/-- The rekey threshold an association starts with, by type and suite (R238). -/
def defaultRekey (type suite : Nat) : Nat :=
  if type = 3 ∨ type = 4 then 2 ^ 47 else if suite = 3 ∨ suite = 4 then 2 ^ 62 else 2 ^ 31

/-- The value an object would have with a pending set applied over the values in force. -/
def look (m : Mod) (p : Tbl Val) (idx sub elem : Nat) : Val :=
  let k := okey idx sub elem
  let raw (i s e : Nat) : Nat := ((tfind p (okey i s e)).getD ((tfind (store m i s) (okey i s e)).getD (dfltOf i s e))).toNat
  match tfind p k with
  | some v => v
  | none =>
    match tfind (store m idx sub) k with
    | some v => v
    | none =>
      if idx = 0x4000 ∧ sub = 0x0B then .nat (defaultRekey (raw 0x4000 1 elem) (raw 0x4000 2 elem))
      else if idx = 0x8010 ∧ sub = 0x06 then .nat (defaultRights (raw 0x8010 1 elem) (raw 0x8010 5 elem))
      else dfltOf idx sub elem

/-- The value in force of an object, as a number. -/
def inf (m : Mod) (idx sub elem : Nat) : Nat := (look m [] idx sub elem).toNat

/-- A BOOL in force. -/
def infB (m : Mod) (idx sub elem : Nat) : Bool := inf m idx sub elem != 0

/-- A value with a pending set applied, as a number. -/
def cfg (m : Mod) (p : Tbl Val) (idx sub elem : Nat) : Nat := (look m p idx sub elem).toNat

/-- A table of object values with one object set; a value equal to the default is not listed. -/
def putVal (t : Tbl Val) (idx sub elem : Nat) (v : Val) : Tbl Val :=
  if v = dfltOf idx sub elem then tdel t (okey idx sub elem) else tins (okey idx sub elem) v (tdel t (okey idx sub elem))

/-- An object set, outside table 0x2100. -/
def setObj (m : Mod) (idx sub elem : Nat) (v : Val) : Mod := { m with obj := putVal m.obj idx sub elem v }

/-- An object set to a number. -/
def setNat (m : Mod) (idx sub elem n : Nat) : Mod := setObj m idx sub elem (.nat n)

/-! ### Ports and lanes in force -/

/-- An index is absorbed by a wider port of its basin side (R48), under a pending set: the ports are laid out from index 0 upwards, so
that the width of an index which is itself absorbed does not count. -/
def absorbedIn (m : Mod) (p : Tbl Val) (port : Nat) : Bool :=
  decide (port % 8 < (List.range (port % 8)).foldl (fun free j => if j < free then free else j + cfg m p 0x3100 1 (port / 8 * 8 + j)) 0)

/-- The width of a port with a pending set applied; 0 when absorbed. -/
def widthIn (m : Mod) (p : Tbl Val) (port : Nat) : Nat := if absorbedIn m p port then 0 else cfg m p 0x3100 1 port

def absorbed (m : Mod) (port : Nat) : Bool := absorbedIn m [] port
def width (m : Mod) (port : Nat) : Nat := widthIn m [] port
def portMode (m : Mod) (port : Nat) : Nat := inf m 0x3100 2 port
def portEnabled (m : Mod) (port : Nat) : Bool := infB m 0x3100 3 port && !absorbed m port

/-- A line port in line mode. -/
def isGelix (m : Mod) (port : Nat) : Bool := isLine port && portMode m port == 1 && !absorbed m port

/-- A subindex of 0x7030 applies to a port (R580, R584, R589 to R591, R616): the asymmetry to ports of the ordinary clock and of time transfer, P2P and
the link delay to clear ports and those in line mode, time transfer to those in line mode, the transparent clock to every port but M0 and M1. -/
def portTimeHas (m : Mod) (sub p : Nat) : Bool :=
  match sub with
  | 3 => decide (64 ≤ p) || !isLine p || isGelix m p
  | 4 => decide (p < 64)
  | 5 => decide (p < 64) && (!isLine p || isGelix m p)
  | 6 => decide (p < 64) && (!isLine p || isGelix m p)
  | 0x0A => decide (p < 64)
  | _ => decide (p < 64) && isGelix m p

/-- The lane elements of a port. -/
def portLanes (m : Mod) (port : Nat) : List Nat := (List.range (width m port)).map fun i => laneAt port (port % 8 + i)

/-- The port a lane belongs to in force. -/
def lanePort (m : Mod) (lane : Nat) : Nat :=
  let p := portAt lane
  ((List.range 8).find? fun j => decide (j ≤ p % 8) && decide (width m (p - j) > j)).elim p (p - ·)

/-- A lane is powered up: its port is enabled, or a test pattern runs on it (R42). -/
def lanePowered (m : Mod) (lane : Nat) : Bool := portEnabled m (lanePort m lane) || inf m 0x3000 9 lane != 0

def port (m : Mod) (p : Nat) : Port := tget {} m.ports p
def setPort (m : Mod) (p : Nat) (x : Port) : Mod := { m with ports := tset {} m.ports p x }
def lane (m : Mod) (l : Nat) : Lane := tget {} m.lanes l
def setLane (m : Mod) (l : Nat) (x : Lane) : Mod := { m with lanes := tset {} m.lanes l x }

/-- The SNR a lane's receiver reports, 0x3000:05 (R79): 0 while the lane has never been powered up since start-up (R824), else a free
value (log 8). -/
def laneSnr (m : Mod) (l : Nat) : Nat := if (lane m l).ran then Config.sensor 0x3000 5 l m.sys.elapsed % 65536 else 0

def rxOf (m : Mod) (p : Nat) : GelRx := tget {} m.rx p
def setRx (m : Mod) (p : Nat) (x : GelRx) : Mod := { m with rx := tset {} m.rx p x }
def txOf (m : Mod) (p : Nat) : GelTx := tget {} m.tx p
def setTx (m : Mod) (p : Nat) (x : GelTx) : Mod := { m with tx := tset {} m.tx p x }
def pmOf (m : Mod) (p : Nat) : Pm := tget {} m.pm p
def setPm (m : Mod) (p : Nat) (x : Pm) : Mod := { m with pm := tset {} m.pm p x }
def sess (m : Mod) (i : Nat) : Sess := tget {} m.mgmt.sessions i
def setSess (m : Mod) (i : Nat) (x : Sess) : Mod :=
  { m with mgmt := { m.mgmt with sessions := tset {} m.mgmt.sessions i x } }
def berth (m : Mod) (b : Nat) : Berth := tget {} m.berths b
def setBerth (m : Mod) (b : Nat) (x : Berth) : Mod := { m with berths := tset {} m.berths b x }
def stow (m : Mod) (h : Nat) : Stow := tget {} m.stow h
def setStow (m : Mod) (h : Nat) (x : Stow) : Mod := { m with stow := tset {} m.stow h x }
def source (m : Mod) (i : Nat) : Source := tget {} m.sources i
def setSource (m : Mod) (i : Nat) (x : Source) : Mod := { m with sources := tset {} m.sources i x }
def kek (m : Mod) (b : Nat) : Kek := tget {} m.keks b
def setKek (m : Mod) (b : Nat) (x : Kek) : Mod := { m with keks := tset {} m.keks b x }

def assoc (m : Mod) (a : Nat) : Assoc := tget {} m.assocs a
def setAssoc (m : Mod) (a : Nat) (x : Assoc) : Mod := { m with assocs := tset {} m.assocs a x }

/-- A slot of an association by phase. -/
def Assoc.slot (x : Assoc) (ph : Nat) : Slot := if ph = 1 then x.s1 else x.s0
def Assoc.setSlot (x : Assoc) (ph : Nat) (y : Slot) : Assoc := if ph = 1 then { x with s1 := y } else { x with s0 := y }

/-- The key bytes a suite uses (R249). -/
def suiteKey (suite : Nat) (key : Octets) : Octets := if suite = 1 ∨ suite = 3 then key.take 16 else key.take 32

/-- The BPID a berth is bound to (R680). -/
def bpidOf (m : Mod) (b : Nat) : Nat := if b = 0 then 0 else inf m 0xA000 1 b

def bank (m : Mod) (k : Nat) : Bank := tget {} m.banks k
def setBank (m : Mod) (k : Nat) (x : Bank) : Mod := { m with banks := tset {} m.banks k x }
def entropyOf (m : Mod) (h : Nat) : Entropy := tget {} m.entropy h
def setEntropy (m : Mod) (h : Nat) (x : Entropy) : Mod := { m with entropy := tset {} m.entropy h x }
def clsOf (m : Mod) (b : Nat) : Cls := tget {} m.cls b
def setCls (m : Mod) (b : Nat) (x : Cls) : Mod := { m with cls := tset {} m.cls b x }
def queue (m : Mod) (q : Nat) : Queue := tget {} m.queues q
def setQueue (m : Mod) (q : Nat) (x : Queue) : Mod := { m with queues := tset {} m.queues q x }
def node (m : Mod) (k : Nat) : Node := tget {} m.nodes k
def setNode (m : Mod) (k : Nat) (x : Node) : Mod := { m with nodes := tset {} m.nodes k x }
def arb (m : Mod) (p : Nat) : Arb := tget {} m.arbs p
def setArb (m : Mod) (p : Nat) (x : Arb) : Mod := { m with arbs := tset {} m.arbs p x }
def gate (m : Mod) (p : Nat) : Gate := tget {} m.gates p
def setGate (m : Mod) (p : Nat) (x : Gate) : Mod := { m with gates := tset {} m.gates p x }

/-! ### Time, pilots, outputs -/

/-- The network time a harbour's counter shows, in ns (R550). -/
def nowH (m : Mod) (h : Nat) : Nat := (if h = 1 then m.time.c1.val else m.time.c0.val) / 2 ^ 32
def now (m : Mod) : Nat := nowH m 0

/-- A harbour is synchronised (R566). -/
def synced (m : Mod) (h : Nat) : Bool := (m.time.state == 1 || m.time.state == 2) && (h == 0 || m.time.lock1)

/-- The pilot of a harbour runs. -/
def pilotUp (m : Mod) (h : Nat) : Bool := if h = 1 then m.sys.pilot1 else m.sys.pilot0

/-- Something put out. -/
def emit (m : Mod) (o : Out) : Mod := { m with out := m.out ++ [o] }

/-- The entropy sources of a harbour, by number. -/
abbrev srcA (h : Nat) : Nat := h * 2
abbrev srcB (h : Nat) : Nat := h * 2 + 1

/-- The raw bits that a conditioner takes for one output: 512 of source A, 1,024 of source B (R361). -/
def rawBits (src : Nat) : Nat := if src % 2 = 1 then 1024 else 512

/-- A conditioner input as bytes: its raw samples in the order they come, the first in the top bit. -/
def rawInput (src n : Nat) : Octets :=
  (List.range (rawBits src / 8)).map fun j =>
    Byte.ofNat ((List.range 8).foldl (fun a i => a * 2 + b01 (Config.rawSample src (n * rawBits src + j * 8 + i))) 0)

/-- A byte of the output that a conditioner makes of one of its inputs: SHA-256 gives 32 of them (R361). -/
def conditionedByte (src n i : Nat) : Byte := (sha256 (rawInput src n)).getD i 0

/-- The i-th byte that a source delivers from now on: the rest of the output under way, then those of the next inputs. -/
def Feed.byte (x : Feed) (src i : Nat) : Byte :=
  if x.used + i < 32 then conditionedByte src x.cur (x.used + i)
  else conditionedByte src (x.next + (x.used + i - 32) / 32) ((x.used + i - 32) % 32)

/-- A source that has delivered n more bytes. -/
def Feed.after (x : Feed) (n : Nat) : Feed :=
  if x.used + n ≤ 32 then { x with used := x.used + n }
  else
    let k := x.next + (x.used + n - 33) / 32
    { cur := k, used := (x.used + n - 33) % 32 + 1, next := k + 1 }

/-- n bytes drawn from an entropy source (R361). -/
def draw (m : Mod) (src n : Nat) : Octets × Mod :=
  let x := tget ({} : Feed) m.drawn src
  ((List.range n).map (x.byte src), { m with drawn := tset {} m.drawn src (x.after n) })

/-- The conditioner input under way is discarded (R363). -/
def discardInput (m : Mod) (src : Nat) : Mod :=
  let x := tget ({} : Feed) m.drawn src
  { m with drawn := tset {} m.drawn src { x with next := x.next + 1 } }

/-- The source B that serves a harbour: its own, or the other harbour's when its own has failed (R245, R970). -/
def goodB (m : Mod) (h : Nat) : Nat := srcB (if (entropyOf m h).failB then 1 - h else h)

/-- What a harbour draws ballast keys, shuffle seeds and NOKEY keys from: source A, or source B once A has failed (R361, R374). -/
def feedOf (m : Mod) (h : Nat) : Nat := if (entropyOf m h).failA then srcB h else srcA h
def feedOk (m : Mod) (h : Nat) : Bool := !(entropyOf m h).failA || !(entropyOf m h).failB

/-! ### Event records -/

/-- An event record's bytes: 32 to 64, a multiple of 8 (R844). -/
def EvRec.bytes (r : EvRec) : Octets :=
  b2 r.code ++ b1 r.flags ++ b1 r.params.length ++ b4 r.seq ++
  (if r.flags.testBit 6 then zeros 10 else timeBytes r.time) ++ b4 r.runtime ++ b3 r.bpid ++ zeros 7 ++
  fit (ceilDiv r.params.length 8 * 8) r.params

/-- Where an event comes from, as bits [5:4] of its flags (R844). -/
abbrev srcH (h : Nat) : Nat := h
abbrev srcModule : Nat := 2
abbrev srcTether : Nat := 3

/-- The record of an event raised now (R844 to R846). -/
def mkRec (m : Mod) (code src bpid : Nat) (params : Octets) : EvRec :=
  { code, seq := m.ev.seq, bpid, params
    flags := bitAt (synced m (if src = 1 then 1 else 0) && !m.tether.onCell) 7 + bitAt m.tether.onCell 6 + src * 16
    time := if m.tether.onCell then 0 else nowH m (if src = 1 then 1 else 0)
    runtime := if m.tether.onCell then m.tether.runtimeAtLoss else m.tether.runtime }

/-- An event code meets a filter of code and mask (R787); mask 0 is a filter in a subscription, not on a pin. -/
def matchesFilter (code : Nat) (f : Nat × Nat) : Bool := (code &&& f.2) == (f.1 &&& f.2)

/-- The filters of an alarm pin (R847): pairs of code and mask, mask 0 unused. -/
def pinFilters (b : Octets) : List (Nat × Nat) :=
  ((List.range 8).map fun i => (natAt b (4 * i) 2, natAt b (4 * i + 2) 2)).filter fun f => f.2 != 0

/-- The pins after an event: a pin with a matching filter is asserted, and in mode 1 until its pulse ends (R847). -/
def pinsAfter (m : Mod) (code : Nat) (pins : Tbl Pin) : Tbl Pin :=
  (List.range 4).foldl (fun t p =>
    if (pinFilters (look m [] 0xB100 1 p).toOct).any (matchesFilter code) then
      tset {} t p { asserted := true, until_ := m.sys.elapsed + inf m 0xB100 3 p * msCycles }
    else t) pins

/-- What ALM0 to ALM3 show: a pin is asserted by its filters, and ALM2 by the supply controller in *start-up failed* (R847, R978); without mains
all are released (R1016). -/
def alarmPin (m : Mod) (p : Nat) : Bool := (tget ({} : Pin) m.ev.pins p).asserted || p == 2 && m.sys.failDriven

/-! ### Stowage regions -/

/-- A region of a harbour: kind, first line, lines, whether it is enabled. -/
def regionKind (m : Mod) (h r : Nat) : Nat := inf m 0x8010 1 (h * 16 + r)
def regionBase (m : Mod) (h r : Nat) : Nat := inf m 0x8010 3 (h * 16 + r) * 16384
def regionSize (m : Mod) (h r : Nat) : Nat := inf m 0x8010 4 (h * 16 + r) * 16384
def regionOn (m : Mod) (h r : Nat) : Bool := infB m 0x8010 7 (h * 16 + r)

/-- The losses of a port that have not ended, recorded or not (R660, R670). -/
def losses (x : Stow) : List LostRec := (x.recs ++ x.unrecorded).filter (!·.released)

/-- The losses that a line lies in. -/
def lossesAt (m : Mod) (h line : Nat) : List LostRec :=
  (losses (stow m h)).filter fun e => decide (regionBase m h e.region + e.first ≤ line ∧ line < regionBase m h e.region + e.first + e.count)

/-- The first loss that a line lies in. -/
def lostAt (m : Mod) (h line : Nat) : Option LostRec := (lossesAt m h line).head?

/-- The rights of a master in a region: 0 none, 1 read, 3 read-write (R674). -/
def rightsOf (m : Mod) (h r master : Nat) : Nat := bits (inf m 0x8010 6 (h * 16 + r)) (2 * master) 2

/-- The harbour range guard (R653). -/
def guarded (m : Mod) (h r master : Nat) : Bool := [1, 2, 4, 5].contains master && [2, 3, 4].contains (regionKind m h r)

/-- The engine's check refuses a master's access to a region: the region is quiesced, the guard forbids it, or the rights fall short of the need, 1 to
read and 3 to write (R652, R653, R667). -/
def denied (m : Mod) (h r master need : Nat) : Bool :=
  (stow m h).quiesced.contains r || guarded m h r master || decide (rightsOf m h r master < need)

/-- The enabled region of a kind of a harbour that has at most one of it (R642). -/
def regionOfKind (m : Mod) (h kind : Nat) : Option Nat := firstBelow 16 fun r => regionKind m h r == kind && regionOn m h r

/-- The journal region that the journal writer copies into (R899): that of a harbour whose port is ready and whose engine lets it. -/
def journalRegion (m : Mod) (h : Nat) : Option Nat :=
  if (stow m h).st ≠ 2 then none else (regionOfKind m h 2).filter fun r => !denied m h r 3 3

/-- The journal regions of ready ports whose engine refuses the journal writer (R652, R667): harbour and region. -/
def journalRefusers (m : Mod) : List (Nat × Nat) :=
  [0, 1].filterMap fun h => if (stow m h).st ≠ 2 then none else ((regionOfKind m h 2).filter (denied m h · 3 3)).map (h, ·)

/-! ### Events -/

/-- The entries the journal holds: 4,096 on the die, or what the largest journal region that its writer copies into takes in 72-byte
slots (R899). -/
def journalRoom (m : Mod) : Nat :=
  [0, 1].foldl (fun a h => match journalRegion m h with
    | some r => max a (inf m 0x8010 4 (h * 16 + r) * 1048576 / 72)
    | none => a) 4096

/-- The journal with a record added, and whether 0x9025 is due (R891, R892, R899, R900). -/
def journalAdd (room : Nat) (e : Ev) (r : EvRec) : Ev × Bool :=
  let num := e.newest + 1
  let lost := match e.journal[room - 1]? with
    | some x => decide (x.num > e.mark) && !e.marked
    | none => false
  ({ e with journal := ({ num, ev := r } :: e.journal).take room, newest := num, sinceSeal := e.sinceSeal + 1,
            chain := sha256 (e.chain ++ b8 num ++ r.bytes), marked := e.marked || lost }, lost)

/-- A subscription with a record queued (R788, R790): the new queue, and whether this was a new overflow. -/
def Sub.offer (s : Sub) (r : EvRec) : Sub × Bool :=
  if !(s.filters.any (matchesFilter r.code)) || (s.role == 3 && r.bpid != s.bpid) then (s, false)
  else if s.queue.length < 256 then ({ s with queue := s.queue ++ [r] }, false)
  else ({ s with lost := satAdd 32 s.lost 1, overs := true }, !s.overs)

/-- Every subscription offered a record: the table, and the slots that overflowed anew. -/
def offerAll (subs : Tbl Sub) (r : EvRec) : Tbl Sub × List Nat :=
  (subs.map fun x => (x.1, (x.2.offer r).1), (subs.filter fun x => (x.2.offer r).2).map (·.1))

/-- A refused copy of a journal entry (R652): counted, and whether 0x8004 is due, at most once a second for a region and not for a quiesced one. -/
def journalRefused (m : Mod) (e : Ev) (h r : Nat) : Ev × Bool :=
  let due := !(stow m h).quiesced.contains r && (tget none e.refusedAt (h * 16 + r)).all fun t => decide (t + secCycles ≤ m.sys.elapsed)
  ({ e with refused := tset 0 e.refused h (satAdd 64 (tget 0 e.refused h) 1),
            refusedAt := if due then tset none e.refusedAt (h * 16 + r) (some m.sys.elapsed) else e.refusedAt }, due)

/-- A record taken by the running pilots: into the journal, to the subscriptions and the pins, with the events that this
itself raises (0x9025 of R900, 0xC007 of R790, 0x8004 of R652). The number bounds that chain. -/
def take (m : Mod) : Nat → Ev → EvRec → Ev
  | 0, e, _ => e
  | n + 1, e, r =>
    let (e1, lost) := journalAdd (journalRoom m) e r
    let (subs, overs) := offerAll e1.subs r
    let e2 := { e1 with subs, pins := pinsAfter m r.code e1.pins }
    let more (x : Ev) (code src : Nat) (ps : Octets) (bpid : Nat := 0) : Ev :=
      take m n { x with seq := (x.seq + 1) % 2 ^ 32 } { r with code, params := ps, bpid, seq := x.seq, flags := r.flags / 64 * 64 + src * 16 }
    let e3 := if lost then more e2 0x9025 srcModule (b8 e2.mark ++ b8 ((e2.journal.getLast?.map (·.num)).getD 0)) else e2
    let e4 := overs.foldl (fun x i => more x 0xC007 srcModule (b4 (tget {} x.subs i).session ++ b4 (tget {} x.subs i).lost)
      (if (tget {} x.subs i).role = 3 then (tget {} x.subs i).bpid else 0)) e3
    (journalRefusers m).foldl (fun x hr =>
      let (y, due) := journalRefused m x hr.1 hr.2
      if due then more y 0x8004 hr.1 (b1 hr.1 ++ b1 3 ++ b1 hr.2 ++ b1 0) else y) e4

/-- A record that has been made: taken by the pilots, or held while they are stopped (R944) or not yet started (R971). -/
def record (m : Mod) (e : Ev) (r : EvRec) : Ev :=
  let src := r.flags / 16 % 4
  let h := if src = 1 then 1 else 0
  if pilotUp m h || (2 ≤ src && (m.sys.pilot0 || m.sys.pilot1)) then take m 4 e r
  else if m.sys.running && m.sys.state == 1 then
    if h = 1 then
      if e.held1.length < 1024 then { e with held1 := e.held1 ++ [r] } else { e with notHeld := e.notHeld + 1 }
    else if e.held0.length < 1024 then { e with held0 := e.held0 ++ [r] } else { e with notHeld := e.notHeld + 1 }
  else { e with early := e.early ++ [{ r with flags := r.flags % 128 }] }

/-- An event raised (R786, R844 to R847). -/
def raise (m : Mod) (code src bpid : Nat) (params : Octets) : Mod :=
  { m with ev := record m { m.ev with seq := (m.ev.seq + 1) % 2 ^ 32 } (mkRec m code src bpid params) }

/-- An address record (R772). -/
def addrBytes (a : Addr) : Octets := b2 a.idx ++ b1 a.sub ++ b1 (b01 a.isElem) ++ b4 a.elem

/-- The bytes a number of a type takes. -/
def Ty.size : Ty → Nat
  | .bool => 1
  | .u n => n
  | .i n => n
  | .oct n => n
  | .str n => n
  | .time => 10
  | .rate => 4

/-- The harbour whose pilot reads and writes an object's element (R738); none for the module's own objects. -/
def objHarbour (idx e : Nat) : Option Nat :=
  match idx with
  | 0x2020 => some (e % 2)
  | 0x2030 => some (e / 32)
  | 0x3000 => some (e % 32 / 16)
  | 0x3100 => some (e / 32)
  | 0x3200 => some (e / 32)
  | 0x3300 => some (e / 32)
  | 0x3310 => some (e / 32)
  | 0x3400 => some (e / 32)
  | 0x3410 => some (e / 4096)
  | 0x3420 => some (e / 64)
  | 0x3430 => some (e / 4194304)
  | 0x4000 => some (e / 32768)
  | 0x4010 => some (e / 65536)
  | 0x4020 => some (e / 32768)
  | 0x4030 => some (e / 32)
  | 0x4040 => some (e / 32768)
  | 0x4200 => some (e / 4)
  | 0x4210 => some (e / 2)
  | 0x4220 => some (e / 56)
  | 0x4230 => some (e % 2)
  | 0x4240 => some (e % 2)
  | 0x4300 => some (e % 2)
  | 0x5000 => some (e / 131072)
  | 0x5040 => some (e / 32)
  | 0x5100 => some (e / 16)
  | 0x5110 => some (e / 16)
  | 0x5120 => some (e / 524288)
  | 0x5130 => some (e / 16)
  | 0x5200 => some (e / 2)
  | 0x5210 => some (e / 8192)
  | 0x6000 => some (e / 16384)
  | 0x6010 => some (e / 16384)
  | 0x6020 => some (e / 16384)
  | 0x6830 => some (e / 16384)
  | 0x6100 => some (e / 32)
  | 0x6200 => some (e % 64 / 32)
  | 0x6800 => some (e / 32)
  | 0x6810 => some (e / 32768)
  | 0x6818 => some (e / 32768)
  | 0x6820 => some (e / 256)
  | 0x7030 => some (if e < 64 then e / 32 else e % 2)
  | 0x7040 => some (e % 8 / 4)
  | 0x7050 => some (e % 8 / 4)
  | 0x8000 => some (e % 2)
  | 0x8010 => some (e / 16)
  | 0x8020 => some (e / 64)
  | 0xA010 => some (e % 4 / 2)
  | 0xB010 => some (e / 2 ^ 29)
  | 0xB020 => some (e / 2)
  | _ => none

/-- An event that is raised at most once a second for a unit of it: raised unless it was within the last second (R137, R427,
R472, R588, R652). -/
def raiseOnce (m : Mod) (code unit src bpid : Nat) (params : Octets) : Mod :=
  let k := code * 65536 + unit
  match tget none m.onceAt k with
  | some t =>
    if m.sys.elapsed < t + secCycles then m
    else raise { m with onceAt := tset none m.onceAt k (some m.sys.elapsed) } code src bpid params
  | none => raise { m with onceAt := tset none m.onceAt k (some m.sys.elapsed) } code src bpid params

/-- An object index that is a table (R772): everything but the single objects. -/
def isTable (idx : Nat) : Bool :=
  !([0x1000, 0x1020, 0x1100, 0x1110, 0x2000, 0x7000, 0x7010, 0x7020, 0x7100, 0x9000, 0x9030, 0x9040, 0x9050, 0x9120,
     0xB000, 0xE000, 0xE010, 0xE200, 0xF010, 0xF100, 0xF200, 0xF300].contains idx)

/-- The berth whose queue, association or clear half a counter counts for (R677); berth 0 for what belongs to no one berth. -/
def counterBerth (m : Mod) (idx e : Nat) : Nat :=
  match idx with
  | 0x4020 => inf m 0x4000 3 e
  | 0x5000 => inf m 0x5000 2 e
  | 0x6010 => inf m 0x6000 2 e
  | 0x6020 => inf m 0x6000 2 e
  | _ => 0

/-- A counter raised by n, stopping at the all-ones value of its type; 0xB001 is raised once, with the BPID of the berth it concerns (R686, R823). -/
def bump (m : Mod) (idx sub elem n : Nat) : Mod :=
  let (w, sat) := match objRow idx sub with
    | some o => (8 * o.ty.size, o.count)
    | none => (64, false)
  let old := inf m idx sub elem
  let v := satAdd w old n
  let m1 := setNat m idx sub elem v
  let k := okey idx sub elem
  if sat && v == 2 ^ w - 1 && !(m.ev.saturated.contains k) && n != 0 then
    raise { m1 with ev := { m1.ev with saturated := k :: m1.ev.saturated } } 0xB001 2 (bpidOf m (counterBerth m idx elem))
      (addrBytes { idx, sub, isElem := isTable idx, elem } ++ b1 ((objHarbour idx elem).getD 0))
  else m1

/-- Accesses that a harbour's engine refuses a master (R652, R667): counted, and evented at most once a second for a master and region, but for a
quiesced region not at all; the region is none where the access addresses no enabled one. -/
def refuseAccess (m : Mod) (h master : Nat) (r : Option Nat) (n : Nat) : Mod :=
  let m1 := bump m 0x8000 0x0B h n
  if n = 0 ∨ r.any (stow m h).quiesced.contains then m1
  else raiseOnce m1 0x8004 ((h * 8 + master) * 256 + r.getD 255) (srcH h) 0 (b1 h ++ b1 master ++ b1 (r.getD 0) ++ b1 (b01 (r.any (guarded m h · master))))

/-- Accesses refused, 0x8000:0B: those of the journal writer among them. -/
def refusedCount (m : Mod) (h : Nat) : Nat := satAdd 64 (inf m 0x8000 0x0B h) (tget 0 m.ev.refused h)

/-- A lane's error counters brought up to now, for a lane that has been powered up, and checking a test pattern, since they last were: what
it counted is a free value (R79, R81, R823; log 8). -/
def countLane (m : Mod) (l : Nat) (on pattern : Bool) : Mod :=
  if m.sys.elapsed ≤ tget 0 m.counted l then m
  else
    let add (m : Mod) (sub : Nat) : Mod := bump m 0x3000 sub l (Config.laneErrors sub l m.sys.elapsed)
    let m1 := { m with counted := tset 0 m.counted l m.sys.elapsed }
    let m2 := if on then [6, 7, 8].foldl add m1 else m1
    if on && pattern then add m2 0x0A else m2

/-- A lane's error counters brought up to now as the lane stands. -/
def countNow (m : Mod) (l : Nat) : Mod := countLane m l (lanePowered m l) (inf m 0x3000 9 l != 0)

/-! ### The frequency reference -/

/-- The oscillator's steering value 0x7100:04, in units of 0.001 ppm: none while it runs unsteered (R963), the held value in holdover
(R965), and else what the loop makes of the reference, within the pull range of R961 (a free value, log 8). -/
def steeringNow (y : Sys) : Int :=
  if y.refState = 0 then 0
  else if y.refState = 3 then y.steering
  else (Config.sensor 0x7100 4 0 y.elapsed % 100001 : Nat) - 50000

end Sys2Proof.Machine
end

