-- ==== Sys2Proof/Machine/Clock.lean ====
section
/-! DEFINITION. The passage of time: D-clock cycles, the harbours' time counters (R552, R559), the runtime (R611), the block dispatchers with
the ballast that fills the active pipelines (R32, R328 to R332, R356), and the Gelix frames that leave (R89, R1038). -/

namespace Sys2Proof.Machine

/-- A time counter after a number of T-clock edges (R552, R559): each adds the increment in force, and while a slew remains
one part in 10,000 of it in the slew's direction. -/
def Ctr.run (c : Ctr) (edges : Nat) : Ctr :=
  let base := c.val + edges * c.inc
  if c.slew = 0 then { c with val := base, resid := 0 }
  else
    let all := edges * c.inc + c.resid
    let take := min (all / 10000) c.slew.natAbs
    let rest := if c.slew < 0 then c.slew + take else c.slew - take
    { c with val := if c.slew < 0 then base - take else base + take, slew := rest, resid := if rest = 0 then 0 else all % 10000 }

/-- The T-clock edges until a counter reaches a value; the counter's own rounding is met by one more edge. -/
def Ctr.edgesTo (c : Ctr) (target : Nat) : Nat :=
  if target ≤ c.val ∨ c.inc = 0 then 0
  else
    let need := target - c.val
    let rate := if c.slew < 0 then 9999 else 10001
    let slow := ceilDiv (need * 10000) (c.inc * rate)
    let n := if c.slew = 0 then ceilDiv need c.inc
      else if slow * c.inc ≤ c.slew.natAbs * 10000 then slow
      else if c.slew < 0 then ceilDiv (need + c.slew.natAbs) c.inc else ceilDiv (need - c.slew.natAbs) c.inc
    if (c.run n).val < target then n + 1 else n

/-- The active pipelines of a bank: those in service but for the spare (R330, R331). -/
def Bank.inService (b : Bank) : List Nat := (List.range 14).filter fun i => (tget ({} : CUnit) b.pipes i).st == 0
def Bank.active (b : Bank) : Nat := b.inService.length - b01 b.spare.isSome

def Bank.activeList (b : Bank) : List Nat := b.inService.filter fun i => b.spare != some i

/-! ### The block dispatcher -/

/-- Block i of a job: block 0 is the tag mask, under the first counter block; the others follow the data. Under a throw-away key the whole
counter runs on (R92, R356). -/
def jobBlock (j : Job) (i : Nat) : Blk :=
  j.again.getD { key := j.key, counter := if j.runs then (j.j0 + i) % 2 ^ 128 else counterBlock j.j0 i
                 data := if i = 0 then 0 else blockOfBytes (Machine.sub j.data (16 * (i - 1)) 16), serial := j.serial }

/-! ### The GHASH bank -/

/-- What tells a message from the others at a bank. -/
def Job.message (j : Job) : Octets × Nat := (j.key, j.j0)

/-- The blocks of additional data, and of data, of a message. -/
def Job.aadBlocks (j : Job) : Nat := ceilDiv (j.aad.getD []).length 16
def Job.dataBlocks (j : Job) : Nat := ceilDiv j.data.length 16

/-- Input i of a message's GHASH: the additional data, the ciphertext, which a receive bank is given and a transmit bank computes, and the
lengths (R106). -/
def Job.hashInput (j : Job) (rx : Bool) (i : Nat) : Nat :=
  let part (b : Octets) (n : Nat) : Octets := Machine.sub b (16 * n) 16
  let n := i - j.aadBlocks
  if i < j.aadBlocks then blockOfBytes (part (j.aad.getD []) i)
  else if n < j.dataBlocks then blockOfBytes (if rx then part j.data n else xorBytes (part j.data n) (bytesOf 16 (aesEnc j.key (counterBlock j.j0 (n + 1)))))
  else 8 * (j.aad.getD []).length * 2 ^ 64 + 8 * j.data.length

/-- The inputs that block i of a message makes ready as it leaves stage 15: its additional data with the tag mask, its ciphertext, and with the last
block the lengths. -/
def Job.inputsOf (j : Job) (i : Nat) : List Nat :=
  if j.aad.isNone then []
  else (if i = 0 then List.range j.aadBlocks else if i ≤ j.dataBlocks then [j.aadBlocks + i - 1] else []) ++
    (if i + 1 = j.count then [j.aadBlocks + j.dataBlocks] else [])

/-- The pairs 0 to 15 in service, and the steps they can carry on a cycle: at most 15, with one pair kept free (R334). -/
def Bank.pairsIn (b : Bank) : List Nat := (List.range 16).filter fun i => (tget ({} : CUnit) b.pairs i).st == 0
def Bank.stepRoom (b : Bank) : Nat := min 15 (b.pairsIn.length - 1)

/-- The cycle for the next step of a message: the first, from the one on which its input is ready and not before the message's other steps, that has
a pair for it and fewer than eight steps of the message (R334). -/
def Bank.stepCycle (b : Bank) (message : Octets × Nat) (ready : Nat) : Nat :=
  let own := b.steps.filter (·.message == message)
  let lo := own.foldl (fun a s => max a s.cycle) ready
  let fits (t : Nat) : Bool :=
    decide ((b.steps.filter (·.cycle == t)).length < b.stepRoom) && decide ((own.filter (·.cycle == t)).length < 8)
  lo + ((List.range 4096).find? fun i => fits (lo + i)).getD 4096

/-- The steps that a block of a message brings when it leaves on a cycle. -/
def Bank.addSteps (b : Bank) (j : Job) (i leaves : Nat) : Bank :=
  (j.inputsOf i).foldl (fun b n => { b with steps := b.steps ++ [{ cycle := b.stepCycle j.message leaves, message := j.message, input := n }] }) b

/-- The steps still to come, or on the present cycle, and their messages. -/
def Bank.hashNow (b : Bank) (now : Nat) : Bank :=
  let steps := b.steps.filter fun s => decide (now ≤ s.cycle)
  { b with steps, hashing := b.hashing.filter fun j => b.jobs.any (·.message == j.message) || steps.any (·.message == j.message) }

/-! ### Dispatch -/

/-- The next n blocks in frame order, and the jobs with what is left of them (R332). -/
def nextBlocks : Nat → List Job → List (Job × Nat) × List Job
  | _, [] => ([], [])
  | n, j :: r =>
    let t := min n (j.count - j.sent)
    let mine := (List.range t).map fun i => (j, j.sent + i)
    if j.sent + t < j.count then (mine, { j with sent := j.sent + t } :: r)
    else
      let (more, rest) := nextBlocks (n - t) r
      (mine ++ more, rest)

/-- One cycle of a bank's dispatcher (R332): frame blocks take slots first, in frame order, from a pipeline that the shuffle generator draws,
in ascending order modulo the active set. With the bank comes how many it sent. -/
def Bank.dispatch (b : Bank) (c : Nat) : Bank × Nat :=
  let act := b.activeList
  let (blocks, jobs) := nextBlocks act.length b.jobs
  let first := Config.expand (tget [] b.seeds (act.headD 0)) 2 (c - b.seededAt)
  let sent := blocks.zipIdx.map fun x => { pipe := act.getD ((first + x.2) % act.length) 0, cycle := c, blk := jobBlock x.1.1 x.1.2 : Flight }
  let new := (blocks.filter fun x => x.1.aad.isSome && x.2 == 0).map (·.1)
  let b1 := { b with jobs, flight := (b.flight.filter fun f => decide (c ≤ f.cycle + 16)) ++ sent, hashing := b.hashing ++ new }
  (blocks.foldl (fun b x => b.addSteps x.1 x.2 (c + 15)) b1, blocks.length)

/-- The dispatcher over n cycles from cycle c, until no block waits; with how many blocks it sent. -/
def Bank.dispatchRun : Nat → Nat → Bank → Bank × Nat
  | 0, _, b => (b, 0)
  | n + 1, c, b =>
    if b.jobs.isEmpty || b.activeList.isEmpty then (b, 0)
    else
      let (b1, k) := b.dispatch c
      let (b2, l) := Bank.dispatchRun n (c + 1) b1
      (b2, k + l)

/-- The account of whole seconds of the harbour's time counter (R1039): n cycles with their active slots and frame blocks, of which the
last `late` cycles fall in the second now under way. -/
def Bank.account (b : Bank) (second n late active used : Nat) : Bank :=
  if second = b.second then { b with secSlots := b.secSlots + n * active, secBlocks := b.secBlocks + used }
  else
    let early := min used ((n - late) * active)
    { b with second, secSlots := late * active, secBlocks := used - early
             lastSlots := if second = b.second + 1 then b.secSlots + (n - late) * active else secCycles * active
             lastBlocks := if second = b.second + 1 then b.secBlocks + early else 0 }

/-- A bank over the n cycles up to now: frame blocks are dispatched, and every active slot left takes a ballast block (R32, R332, R1039). -/
def runBank (m : Mod) (k n : Nat) : Mod :=
  let c := if k / 4 = 1 then m.time.c1 else m.time.c0
  let (b, used) := (bank m k).dispatchRun n (m.sys.elapsed - n + 1)
  let late := if c.inc = 0 then n else min n (c.val % (nsPerSec * 2 ^ 32) / (2 * c.inc))
  let b1 := (b.account (c.val / (nsPerSec * 2 ^ 32)) n late b.active used)
  let b2 := { b1 with flight := b1.flight.filter fun f => decide (m.sys.elapsed ≤ f.cycle + 16) }.hashNow m.sys.elapsed
  bump (bump (setBank m k b2) 0x4200 7 k used) 0x4200 8 k (n * b.active - used)

/-- The key length of ballast on a cycle: that of the frame block on the nearest active slot of the cycle, that of AES-256 where the cycle
carries none (R356; log 53). -/
def Bank.ballastLong (b : Bank) (pipe cycle : Nat) : Bool :=
  let here := b.flight.filter fun f => f.cycle == cycle && !f.replay
  match here.mergeSort fun x y => decide ((x.pipe + 14 - pipe) % 14 ≤ (y.pipe + 14 - pipe) % 14) with
  | f :: _ => keyLong f.blk.key
  | [] => true

/-- The ballast block that a pipeline takes on a cycle (R356): the counter runs with the cycles since its ballast key was drawn (log 53).
Its output is discarded at stage 15, after the check. -/
def Bank.ballastBlock (b : Bank) (pipe cycle : Nat) : Blk :=
  let old := decide (cycle < b.ballastAt)
  let key := tget [] (if old then b.ballastOld else b.ballast) pipe
  { key := if b.ballastLong pipe cycle then fit 32 key else fit 16 key, counter := (cycle - if old then b.ballastOldAt else b.ballastAt) % 2 ^ 128 }

/-- The block that entered a pipeline on a cycle: a frame block or a replay where one did, else ballast; with whether it is a frame block. -/
def Bank.blockAt (b : Bank) (pipe cycle : Nat) : Blk × Option Flight :=
  match b.flight.find? fun f => f.pipe == pipe && f.cycle == cycle with
  | some f => (f.blk, some f)
  | none => (b.ballastBlock pipe cycle, none)

/-! ### Gelix frames that leave -/

/-- The trace message of which a port sends bytes: 0x3200:01 as it stands when a frame with MFAS 64q is sent (R139, R1038). -/
def traceSent (m : Mod) (p mfas : Nat) : Octets := if mfas % 64 = 0 then (look m [] 0x3200 1 p).toOct else (txOf m p).trace

/-- A Gelix frame put out with its TRC (R89, R1038). -/
def putOut (m : Mod) (p : Nat) (x : Leaving) : Mod :=
  let ok := !((bank m (basinOf p * 2)).spoiled.contains x.serial)
  let trace := traceSent m p x.frame.mfas
  emit (setTx m p { txOf m p with trace })
    (.gelix p { x.frame with trc := trace.getD (x.frame.mfas % 64) 0, payload := { x.frame.payload with intact := x.frame.payload.intact && ok } })

/-- Time transfer keeps the instant of a frame with MFAS 0 for a second (R591). -/
def keepSend (m : Mod) (p : Nat) (x : Leaving) : Mod :=
  match x.sends with
  | none => m
  | some (kep, fcnt, at_) =>
    let t := tget ({} : Tt) m.time.tts p
    let sends := ((kep, fcnt, at_, x.leave) :: t.sends).filter fun s => decide (m.sys.elapsed ≤ s.2.2.2 + secCycles)
    { m with time := { m.time with tts := tset {} m.time.tts p { t with sends } } }

/-- A Gelix frame's first bit leaves (R89, R1038): it is put out and counted with its records, and time transfer may keep it. -/
def leaveFrame (p : Nat) (m : Mod) (x : Leaving) : Mod :=
  keepSend (bump (bump (putOut m p x) 0x3200 7 p 1) 0x3200 8 p x.records) p x

/-- The frames of a port whose time to leave has come, in order. -/
def leavePort (m : Mod) (p : Nat) : Mod :=
  let t := txOf m p
  let due := t.fixed.filter fun x => decide (x.leave ≤ m.sys.elapsed)
  if due.isEmpty then m else due.foldl (leaveFrame p) (setTx m p { t with fixed := t.fixed.filter fun x => !decide (x.leave ≤ m.sys.elapsed) })

def leaveGelix (m : Mod) : Mod := (m.tx.map (·.1)).foldl leavePort m

/-! ### Time -/

/-- The increments while locked, brought up to 60 s of T-clock edges (R566). -/
def keepLocked (l : List (Nat × Nat)) (edges inc : Nat) : List (Nat × Nat) :=
  let l1 := match l with
    | (e, i) :: r => if i = inc then (e + edges, i) :: r else (edges, inc) :: l
    | [] => [(edges, inc)]
  (l1.foldl (fun (acc : List (Nat × Nat) × Nat) x =>
    if acc.2 = 0 then acc else (acc.1 ++ [(min x.1 acc.2, x.2)], acc.2 - x.1)) ([], 150000000000)).1

/-- The time counters and the runtime over n D-clock cycles (R552, R611). -/
def runClocks (m : Mod) (n : Nat) : Mod :=
  let t := m.time
  let sub := m.tether.runtimeSub + n
  { m with
    sys := { m.sys with elapsed := m.sys.elapsed + n }
    time := if m.sys.running then
        { t with c0 := t.c0.run (2 * n), c1 := t.c1.run (2 * n), locked := if t.state = 1 then keepLocked t.locked (2 * n) t.c0.inc else t.locked }
      else t
    tether := if m.sys.mains ∧ !m.tether.onCell then
        { m.tether with runtime := satAdd 32 m.tether.runtime (sub / secCycles), runtimeSub := sub % secCycles }
      else m.tether }

/-- n D-clock cycles pass (R31). -/
def advance (m : Mod) (n : Nat) : Mod :=
  let m1 := runClocks m n
  if m.sys.running then leaveGelix ((List.range 8).foldl (fun m k => runBank m k n) m1) else m1

/-- Time passes up to a cycle; none when it has passed. -/
def advanceTo (m : Mod) (at_ : Nat) : Mod := advance m (at_ - m.sys.elapsed)

/-- Time passes until a harbour's counter reaches a network time in ns; none when it has. -/
def advanceToNet (m : Mod) (h t : Nat) : Mod :=
  let c := if h = 1 then m.time.c1 else m.time.c0
  advance m (ceilDiv (c.edgesTo (t * 2 ^ 32)) 2)

end Sys2Proof.Machine
end

