-- ==== Sys2Proof/Machine/Session.lean ====
section
/-! DEFINITION. Camanent sessions: the order of checks (R783), replies (R745, R759, R764), opening, proving and ending a
session (R747 to R770), subscriptions, relay and the management paths. -/

namespace Sys2Proof.Machine

/-- A path as 0x2010:06 and the events show it (R794). -/
def pathCode : Path → Nat
  | .mgmt m => 0x40 + m.val
  | .clear p => p.val
  | .mch p => p.val ||| 0x80

/-- The slot that holds a session ID. -/
def slotOf (m : Mod) (id : Nat) : Option Nat :=
  firstBelow 32 fun i => (sess m i).state != 0 && (sess m i).id == id

/-- A path can carry messages: the management port's link is up and it is enabled (R721, R795), the clear port is up (R726), the Gelix
port is in SYNC and the pilot of its harbour runs (R141, R143, R732). -/
def reachable (m : Mod) : Path → Bool
  | .mgmt k => tget false m.mgmt.linkUp k.val && infB m 0x2020 1 k.val
  | .clear p => !isLine p.val && (port m p.val).up
  | .mch p => isGelix m p.val && (rxOf m p.val).st == 2 && pilotUp m (harbourOf p.val)

/-- A message reaches the module's own command processing: its path carries it, and on a path other than MCH it names no relay port
(R733, R737); one that does is the row RELAY_MESSAGE. -/
def arrives (m : Mod) (h : Hdr) : Bool :=
  reachable m h.path && (match h.path with
    | .mch _ => true
    | _ => h.relay == 0xFF)

/-- The session pilot runs and the module is Ready (R740, R943, R975). -/
def serving (m : Mod) : Bool := m.sys.running && m.sys.state == 1 && pilotUp m m.mgmt.pilot

/-- A message waits at a port for its way out. -/
def sendLater (m : Mod) (p : Nat) (x : Msg) : Mod :=
  let i := tget {} m.mgmt.icept p
  { m with mgmt := { m.mgmt with icept := tset {} m.mgmt.icept p { i with replies := i.replies ++ [(m.sys.elapsed, x)] } } }

/-- A message handed to its path: sent, on a clear port waiting for idle time (R728 to R730), over MCH for the cells that carry it (R143). -/
def send (m : Mod) (x : Msg) : Mod :=
  match x.path with
  | .clear p => sendLater m p.val x
  | .mch p => sendLater m p.val x
  | .mgmt _ => emit m (.message x)

/-- An unprotected reply (R746). -/
def replyPlain (m : Mod) (h : Hdr) (op session status : Nat) (body : Octets) : Mod :=
  send m { path := h.path, dst := h.src, op, session, sequence := 0, status, reference := h.sequence % 2 ^ 32, sealed := false, body }

/-- The 24-byte detail of a refusal: the address record and four values (R780). -/
def detail (a : Addr) (vs : List Nat) : Octets := addrBytes a ++ ((List.range 4).flatMap fun i => b4 (vs.getD i 0))

/-- The bodies of a reply that must be split: entries gathered whole, each part within the message limit (R720, R776). -/
def splitBody (first : Octets) : List Octets → List Octets
  | [] => [first]
  | e :: es => if first.length + e.length ≤ 9120 then splitBody (first ++ e) es else first :: splitBody e es

/-- The protected messages of a reply, numbered from the session's next number (R745, R761, R776). -/
def replyMsgs (h : Hdr) (op status : Nat) (sent : Nat) (id : Nat) : List Octets → List Msg
  | [] => []
  | [b] => [{ path := h.path, dst := h.src, op, session := id, sequence := sent + 1, status, reference := h.sequence % 2 ^ 32, body := b }]
  | b :: bs => { path := h.path, dst := h.src, op, session := id, sequence := sent + 1, status,
                 reference := h.sequence % 2 ^ 32, more := true, body := b } :: replyMsgs h op status (sent + 1) id bs

/-- A protected reply of a session: sent on the request's path, and stored with the request (R759, R764). -/
def replySealed (m : Mod) (slot : Nat) (id sent : Nat) (h : Hdr) (op status : Nat) (bodies : List Octets) : Mod :=
  let ms := replyMsgs h op status sent id bodies
  let m1 := ms.foldl send m
  let x := sess m1 slot
  if x.state = 2 ∧ x.id = id then
    setSess m1 slot { x with sent := sent + ms.length,
                             stored := ({ sequence := h.sequence, cipher := h.cipher, reply := ms } :: x.stored).take 16 }
  else m1

/-- The outcome of checks 1 to 7 of R783. -/
inductive Admit where
  /-- The message goes no further: the module as its answer leaves it. -/
  | stop (m : Mod)
  /-- The message is accepted in this slot. -/
  | go (m : Mod) (slot : Nat)

/-- Checks 1 to 7 of R783 for a message of a session. -/
def admission (m : Mod) (h : Hdr) (op : Nat) : Admit :=
  if !arrives m h then .stop m
  else if !(m.sys.state == 1 && m.sys.running) then .stop (bump m 0x2000 8 0 1)
  else if !serving m then .stop m
  else if h.version != 1 || !h.reservedZero || !h.lengthOk then .stop (bump m 0x2000 8 0 1)
  else match slotOf m h.session with
    | none =>
      let status := if m.mgmt.expired.any (·.1 == h.session) then 0x6004 else 0x4001
      .stop (replyPlain m h op h.session status [])
    | some i =>
      let x := sess m i
      if !h.tagOk then .stop (bump m 0x2000 8 0 1)
      else if x.state != 2 then .stop (replyPlain m h op h.session 0x6002 [])
      else match x.stored.find? fun r => r.sequence == h.sequence && r.cipher == h.cipher with
        | some r => .stop (r.reply.foldl send m)
        | none =>
          if h.sequence ≤ x.hi then
            let ms := replyMsgs h op 0x6003 x.sent x.id [[]]
            .stop (setSess (ms.foldl send m) i { x with sent := x.sent + 1 })
          else if x.hi + 65536 < h.sequence then
            let ms := replyMsgs h op 0x6002 x.sent x.id [[]]
            .stop (setSess (ms.foldl send m) i { x with sent := x.sent + 1 })
          else
            let m1 := setSess m i { x with hi := h.sequence, requestAt := m.sys.elapsed, requestTime := now m, path := h.path, src := h.src }
            if h.bpid != (if x.role = 3 then x.bpid else 0) then
              .stop (replySealed m1 i x.id x.sent h op 0x1006 [[]])
            else .go m1 i

/-- A message of a session served: checked, carried out, answered. -/
def serve (s : State) (h : Hdr) (op : Nat) (act : State → Nat → State × Nat × List Octets) : State :=
  match admission s.mod h op with
  | .stop m => s.upd m
  | .go m slot =>
    let x := sess m slot
    let (s1, status, bodies) := act (s.upd m) slot
    s1.upd (replySealed s1.mod slot x.id x.sent h op status bodies)

/-! ### Grants and the debug port -/

/-- A session's opening of the debug access ports is undone; they close with the last (R804). -/
def closeDebug (m : Mod) (slot id : Nat) : Mod :=
  if m.mgmt.debugBy.contains slot then
    let rest := m.mgmt.debugBy.filter (· != slot)
    let m1 := { m with mgmt := { m.mgmt with debugBy := rest } }
    if rest = [] then raise (raise m1 0xC102 2 0 (b4 id ++ b1 0 ++ b1 0)) 0xC102 2 0 (b4 id ++ b1 1 ++ b1 0) else m1
  else m

/-- An expert grant ends, and with it the debug port (R802 to R804). -/
def endGrant (m : Mod) (slot : Nat) : Mod :=
  match tget none m.mgmt.grants slot with
  | none => m
  | some (_, _, officer) =>
    let x := sess m slot
    let m1 := closeDebug { m with mgmt := { m.mgmt with grants := tset none m.mgmt.grants slot none } } slot x.id
    raise (setNat (setNat m1 0x2040 1 slot 0) 0x2040 2 slot 0) 0xC101 2 0 (b4 x.id ++ b2 x.cred ++ b2 officer ++ b1 0)

/-! ### Ending sessions -/

/-- A slot freed: key, pending set and subscription erased (R763). -/
def freeSlot (m : Mod) (slot : Nat) : Mod :=
  { setSess m slot {} with ev := { m.ev with subs := tdel m.ev.subs slot } }

/-- A proved session ends with a cause: 0 close, 1 idle, 2 terminated, 3 berth reset, 4 credential erased, 5 pilot restart,
6 zeroize or Retire (R763, R798). A session not yet proved is released without an event (R755). -/
def endSession (m : Mod) (slot cause : Nat) : Mod :=
  let x := sess m slot
  if x.state = 2 then
    raise (freeSlot (endGrant m slot) slot) 0xC002 2 (if x.role = 3 then x.bpid else 0) (b4 x.id ++ b1 cause)
  else if x.state = 1 then freeSlot m slot
  else m

/-- Every session a test picks ends. -/
def endSessions (m : Mod) (cause : Nat) (p : Sess → Bool) : Mod :=
  (List.range 32).foldl (fun m i => if (sess m i).state != 0 && p (sess m i) then endSession m i cause else m) m

/-! ### OPEN and PROVE -/

/-- The secret of a credential in force (R752). -/
def credSecret (m : Mod) (c : Nat) : Option Secret := tget none m.tether.vault.secrets c

/-- A credential is in force: it has a role and a secret. -/
def credInForce (m : Mod) (c : Nat) : Bool := inf m 0x2100 1 c != 0 && (credSecret m c).isSome

/-- Some Officer credential is in force (R768, R769). -/
def officerInForce (m : Mod) : Bool := (List.range 64).any fun c => credInForce m c && inf m 0x2100 1 c == 1

/-- The salt a secret was made with; zero for a key (R750). -/
def secretSalt : Secret → Octets
  | .password _ salt => fit 16 salt
  | .key _ => zeros 16

/-- The 32-byte S of a secret (R752). -/
def secretBytes : Secret → Octets
  | .password text salt => Config.pbkdf2 text salt 100000
  | .key k => k

/-- The secret an OPEN is to be proved with: the credential's when role and method agree, the enrolment code's when
enrolment is open (R751, R769); none otherwise. -/
def openSecret (s : State) (path : Path) (role method cred : Nat) : Option Secret :=
  let m := s.mod
  if cred = 0xFFFF then
    match path with
    | .mgmt _ => if role = 1 ∧ method = 0 ∧ !officerInForce m then some (.password s.otp.enrolCode s.otp.enrolSalt) else none
    | _ => none
  else if cred < 64 ∧ inf m 0x2100 1 cred = role ∧ inf m 0x2100 2 cred = method ∧ credInForce m cred then credSecret m cred
  else none

/-- The berth a BPID names: enabled and not resetting (R685). -/
def berthOfBpid (m : Mod) (bpid : Nat) : Option Nat :=
  firstBelow 256 fun b => b != 0 && infB m 0xA000 2 b && inf m 0xA000 1 b == bpid && !(berth m b).resetting

/-- The reply body of OPEN (R750). -/
def openReply (moduleNonce salt : Octets) (iterations : Nat) : Octets := moduleNonce ++ salt ++ b4 iterations ++ zeros 4

/-- OPEN (R747 to R751, R757, R769): a session opened in a free slot, with a session ID and module nonce from source B. -/
def openSession (s : State) (h : Hdr) (role method cred : Nat) (nonce : Octets) (sid : Nat) (moduleNonce : Octets) : State :=
  let m := s.mod
  let used := (List.range 32).filter fun i => (sess m i).state != 0
  let unproved := used.filter fun i => (sess m i).state == 1
  if !arrives m h then s
  else if !(m.sys.state == 1 && m.sys.running) then s.upd (bump m 0x2000 8 0 1)
  else if !serving m then s
  else if h.version != 1 || !h.reservedZero || !h.lengthOk then s.upd (bump m 0x2000 8 0 1)
  else if 32 ≤ used.length then s.upd (replyPlain m h 1 0 0x3001 (detail { idx := 0, sub := 0 } [32]))
  else if 8 ≤ unproved.length then s.upd (replyPlain m h 1 0 0x3001 (detail { idx := 0, sub := 0 } [8]))
  else
    let secret := openSecret s h.path role method cred
    let bpid := if secret.isSome ∧ role = 3 then inf m 0x2100 3 cred else 0
    if secret.isSome ∧ role = 3 ∧ (berthOfBpid m bpid).isNone then s.upd (replyPlain m h 1 0 0x1006 [])
    else
      let salt := match secret with
        | some x => secretSalt x
        | none => if method = 0 then fit 16 (Config.decoySalt m.tether.vault.bootEpoch cred) else zeros 16
      let body := openReply moduleNonce salt (if method = 0 then 100000 else 0)
      let asked := b1 role ++ b1 method ++ b2 cred ++ nonce ++ zeros 4
      match firstBelow 32 fun i => (sess m i).state == 0 with
      | none => s
      | some i =>
        let x : Sess := { state := 1, id := sid, role, method, cred, bpid, berth := if role = 3 then (berthOfBpid m bpid).getD 256 else 256, path := h.path, src := h.src, openedTime := now m,
                          openedAt := m.sys.elapsed, requestTime := now m, requestAt := m.sys.elapsed, secret,
                          transcript := sha256 (asked ++ body), hostNonce := nonce, moduleNonce }
        s.upd (replyPlain (setSess m i x) h 1 sid 0 body)

/-- A wrong proof (R755, R756): counted, the session released, and at the fifth in a row the credential locked. -/
def failProof (m : Mod) (h : Hdr) (slot : Nat) (locked : Bool) : Mod :=
  let x := sess m slot
  let m1 := freeSlot (bump m 0x2000 7 0 1) slot
  let m2 := raise m1 0xC003 2 x.bpid (b2 x.cred ++ b1 (pathCode h.path))
  let m3 :=
    if x.cred < 64 ∧ inf m 0x2100 1 x.cred ≠ 0 ∧ !locked then
      let m4 := bump m2 0x2100 8 x.cred 1
      let n := tget 0 m.mgmt.fails x.cred + 1
      if n = 5 then
        raise { m4 with mgmt := { m4.mgmt with fails := tset 0 m4.mgmt.fails x.cred 0,
                                               lockedTo := tset none m4.mgmt.lockedTo x.cred (some (m.sys.elapsed + 300 * secCycles)) } }
          0xC004 2 x.bpid (b2 x.cred ++ b1 1)
      else { m4 with mgmt := { m4.mgmt with fails := tset 0 m4.mgmt.fails x.cred n } }
    else m2
  replyPlain m3 h 2 h.session 0x6001 []

/-- PROVE (R753 to R756). -/
def proveSession (s : State) (h : Hdr) (proof : Option Secret) : State :=
  let m := s.mod
  if !arrives m h then s
  else if !(m.sys.state == 1 && m.sys.running) then s.upd (bump m 0x2000 8 0 1)
  else if !serving m then s
  else if h.version != 1 || !h.reservedZero || !h.lengthOk then s.upd (bump m 0x2000 8 0 1)
  else match slotOf m h.session with
    | none => s.upd (replyPlain m h 2 h.session (if m.mgmt.expired.any (·.1 == h.session) then 0x6004 else 0x4001) [])
    | some i =>
      let x := sess m i
      if x.state ≠ 1 then s.upd (replyPlain m h 2 h.session 0x6002 [])
      else if h.bpid ≠ (if x.role = 3 then x.bpid else 0) then s.upd (replyPlain m h 2 h.session 0x1006 [])
      else
        let locked := (tget none m.mgmt.lockedTo x.cred).isSome
        if locked || x.secret.isNone || proof != x.secret || (x.cred == 0xFFFF && officerInForce m) then s.upd (failProof m h i locked)
        else
          let m1 := setSess m i { x with state := 2, requestAt := m.sys.elapsed, requestTime := now m, path := h.path, src := h.src }
          let m2 := { m1 with mgmt := { m1.mgmt with fails := tset 0 m1.mgmt.fails x.cred 0, lastUse := tset 0 m1.mgmt.lastUse x.cred (now m) },
                              ev := { m1.ev with subs := tins i { role := x.role, bpid := x.bpid, session := x.id } (tdel m1.ev.subs i) } }
          let m3 := raise m2 0xC001 2 x.bpid (b4 x.id ++ b1 x.role ++ b2 x.cred ++ b4 x.bpid ++ b1 (pathCode h.path))
          s.upd (replyPlain m3 h 2 x.id 0 (hmac ((x.secret.map secretBytes).getD []) (ascii "CAMANENT ACCEPT" ++ x.transcript)))

/-- The session key of a proved session (R754). -/
def sessionKey (x : Sess) : Octets :=
  hkdf ((x.secret.map secretBytes).getD []) x.transcript (ascii "CAMANENT SESSION" ++ b4 x.id)

/-- CLOSE: answered, then the session ends (R763). -/
def closeSession (s : State) (h : Hdr) : State :=
  match admission s.mod h 3 with
  | .stop m => s.upd m
  | .go m slot =>
    let x := sess m slot
    s.upd (endSession (replySealed m slot x.id x.sent h 3 0 [[]]) slot 0)

/-- SUBSCRIBE: the session's filters replaced (R775, R787). -/
def subscribeAct (filters : List (Nat × Nat)) (s : State) (slot : Nat) : State × Nat × List Octets :=
  if 16 < filters.length then (s, 0x2001, [[]])
  else
    let x := sess s.mod slot
    let old := tget ({} : Sub) s.mod.ev.subs slot
    let sub := { old with filters, role := x.role, bpid := x.bpid, session := x.id }
    (s.upd { s.mod with ev := { s.mod.ev with subs := tins slot sub (tdel s.mod.ev.subs slot) } }, 0, [[]])

/-- The queued events of a session sent in NOTIFY messages: the lost count, then the records (R764, R789). -/
def notifySlot (m : Mod) (slot : Nat) : Mod :=
  let q := tget ({} : Sub) m.ev.subs slot
  let x := sess m slot
  if q.queue.isEmpty || x.state != 2 || !serving m || !reachable m x.path then m
  else
    let bodies := splitBody (b4 q.lost) (q.queue.map EvRec.bytes)
    let ms := bodies.zipIdx.map fun b => ({ path := x.path, dst := x.src, op := 0x21, session := x.id, sequence := x.sent + 1 + b.2,
                                            status := 0, reference := 0, isReply := false, body := b.1 } : Msg)
    let m1 := ms.foldl send m
    setSess { m1 with ev := { m1.ev with subs := tins slot { q with queue := [], lost := 0, overs := false } (tdel m1.ev.subs slot) } } slot
      { x with sent := x.sent + ms.length }

/-! ### Expiry -/

/-- A session not proved within 5 s of its OPEN reply is released (R755). -/
def proveTimeout (m : Mod) (slot : Nat) : Mod :=
  let x := sess m slot
  if x.state = 1 then freeSlot (advanceTo m (x.openedAt + 5 * secCycles)) slot else m

/-- A session idle for 0x2000:03 expires (R762, R763). -/
def idleExpire (m : Mod) (slot : Nat) : Mod :=
  let x := sess m slot
  if x.state = 2 then
    let m1 := advanceTo m (x.requestAt + inf m 0x2000 3 0 * secCycles)
    let m2 := endSession m1 slot 1
    { m2 with mgmt := { m2.mgmt with expired := m2.mgmt.expired ++ [(x.id, m1.sys.elapsed)] } }
  else m

/-- The ID of an expired session is forgotten after 3,600 s (R762). -/
def forgetId (m : Mod) (sid : Nat) : Mod :=
  match m.mgmt.expired.find? (·.1 == sid) with
  | none => m
  | some (_, t) =>
    let m1 := advanceTo m (t + 3600 * secCycles)
    { m1 with mgmt := { m1.mgmt with expired := m1.mgmt.expired.filter (·.1 != sid) } }

/-- A locked credential is unlocked after 300 s (R756). -/
def unlockCred (m : Mod) (c : Nat) : Mod :=
  match tget none m.mgmt.lockedTo c with
  | none => m
  | some t =>
    let m1 := advanceTo m t
    raise { m1 with mgmt := { m1.mgmt with lockedTo := tset none m1.mgmt.lockedTo c none } } 0xC004 2 (inf m 0x2100 3 c) (b2 c ++ b1 0)

/-! ### Relay, MCH and management ports -/

/-- A line port in line mode, in force (R733, R736). -/
def relayPort (m : Mod) (p : Nat) : Bool := p < 64 && isGelix m p

/-- A message with a relay port (R733 to R736): relayed as an MCH message, or answered with 0x4002 under its own operation code. -/
def relayOut (m : Mod) (h : Hdr) (msg : Octets) : Mod :=
  if !serving m || !reachable m h.path || arrives m h then m
  else if !infB m 0x2000 4 0 || !relayPort m h.relay then replyPlain m h (natAt msg 1 1) h.session 0x4002 []
  else
    let e : Relay := { port := h.relay, session := h.session, path := h.path, src := h.src, usedAt := m.sys.elapsed }
    let rest := m.mgmt.relay.filter fun x => !(x.port == h.relay && x.session == h.session)
    if 64 ≤ rest.length then raise m 0xC006 2 0 (b1 h.relay ++ b4 h.session)
    else
      let t := txOf m h.relay
      let m1 := bump { m with mgmt := { m.mgmt with relay := rest ++ [e] } } 0x2000 9 0 1
      setTx m1 h.relay { t with mchQueue := t.mchQueue ++ [msg] }

/-- An MCH reply or NOTIFY of a relayed session goes back unchanged on the entry's return path (R737), on a clear port as its replies do
(R728 to R730). -/
def relayBack (m : Mod) (port session : Nat) (msg : Octets) : Mod :=
  match m.mgmt.relay.find? fun x => x.port == port && x.session == session with
  | none => m
  | some e =>
    if !serving m then m
    else
      let m1 := { m with mgmt := { m.mgmt with relay := m.mgmt.relay.map fun x =>
                    if x.port == port && x.session == session then { x with usedAt := m.sys.elapsed } else x } }
      match e.path with
      | .clear p => sendLater m1 p.val { path := e.path, dst := e.src, op := natAt msg 1 1, session, sequence := natAt msg 8 8, status := natAt msg 20 2,
                                         reference := natAt msg 28 4, isReply := (natAt msg 2 2).testBit 15, body := [], raw := some msg }
      | path => emit m1 (.relayed path e.src msg)

/-- A relay entry lapses 900 s after its last use (R734). -/
def relayLapse (m : Mod) (port session : Nat) : Mod :=
  match m.mgmt.relay.find? fun x => x.port == port && x.session == session with
  | none => m
  | some e =>
    let m1 := advanceTo m (e.usedAt + 900 * secCycles)
    { m1 with mgmt := { m1.mgmt with relay := m1.mgmt.relay.filter fun x => !(x.port == port && x.session == session) } }

/-- The other pilot becomes session pilot 100 ms after the last heartbeat (R739). -/
def takeover (m : Mod) : Mod :=
  let other := 1 - m.mgmt.pilot
  if m.sys.running ∧ !pilotUp m m.mgmt.pilot ∧ pilotUp m other then
    let m1 := advanceTo m (m.sys.pilotDownAt + 100 * msCycles)
    raise { m1 with mgmt := { m1.mgmt with pilot := other } } 0xC005 2 0 (b1 other)
  else m

end Sys2Proof.Machine
end

