-- ==== Sys2Proof/Machine/Keys.lean ====
section
/-! DEFINITION. Key slots, KEKs, the fingerprint filter, nonces, the replay window, boot epoch and key switches (R201 to
R327). -/

namespace Sys2Proof.Machine

/-! ### Associations -/

def aType (m : Mod) (a : Nat) : Nat := inf m 0x4000 1 a
def aSuite (m : Mod) (a : Nat) : Nat := inf m 0x4000 2 a
def aBerth (m : Mod) (a : Nat) : Nat := inf m 0x4000 3 a
def aPort (m : Mod) (a : Nat) : Nat := inf m 0x4000 4 a

/-- High assurance (R278). -/
def aHa (m : Mod) (a : Nat) : Bool := (inf m 0x4000 5 a).testBit 7

/-- The basin and harbour of an association index. -/
def aBasin (a : Nat) : Nat := a / 16384
def aHarbour (a : Nat) : Nat := a / 32768

/-- A GCM suite; an XPN suite (R209). -/
def isGcm (suite : Nat) : Bool := 1 ≤ suite && suite ≤ 4
def isXpn (suite : Nat) : Bool := suite == 3 || suite == 4

/-- A transmit association (types 1, 3, 5). -/
def isTx (type : Nat) : Bool := type == 1 || type == 3 || type == 5

/-- The active slot of an association in use (R266): the transmit phase, or receive-current, even when it is empty. -/
def activePhase (m : Mod) (a : Nat) : Nat := if isTx (aType m a) then (assoc m a).txPhase else (assoc m a).rxCur
def isActive (m : Mod) (a ph : Nat) : Bool := aType m a != 0 && activePhase m a == ph

/-- The last PN or FCNT sent (R238). -/
def lastPn (type suite : Nat) : Nat := if type = 3 ∨ type = 4 then 2 ^ 48 - 1 else if isXpn suite then 2 ^ 64 - 1 else 2 ^ 32 - 1

/-- Slot status 0x4010:05: empty, loaded, active, spent (R280). -/
def slotStatus (m : Mod) (a ph : Nat) : Nat :=
  let x := (assoc m a).slot ph
  if !x.full then 0 else if x.spent then 3 else if isActive m a ph then 2 else 1

/-- State 0x4000:0C (R279). -/
def assocState (m : Mod) (a : Nat) : Nat :=
  let x := assoc m a
  x.txPhase + x.rxCur * 2 + bitAt x.s0.full 4 + bitAt x.s1.full 5 + bitAt x.s0.spent 6 + bitAt x.s1.spent 7

/-- The transmit slot in force is usable: it holds a key that is not spent (R241). -/
def txUsable (m : Mod) (a : Nat) : Bool := ((assoc m a).slot (assoc m a).txPhase).full && !((assoc m a).slot (assoc m a).txPhase).spent

/-- The association of a type bound to a port, the lowest index. -/
def boundAssoc (m : Mod) (type p : Nat) : Option Nat :=
  ((m.obj.filter fun e => decide (e.1 / 2 ^ 32 = 0x400001) && e.2 == .nat type).map fun e => e.1 % 2 ^ 32).find? fun a => aPort m a == p

/-! ### Boot epoch -/

/-- The boot epoch incremented, never past its end (R243). -/
def nextEpoch (m : Mod) : Mod :=
  let v := m.tether.vault
  { m with tether := { m.tether with vault := { v with bootEpoch := min (2 ^ 32 - 1) (v.bootEpoch + 1) } } }

/-- The boot epoch after the vault was lost or erased: 31 bits from the source B named, or the last value when source B has failed in
both harbours; event 0x400A (R245). -/
def freshEpoch (src : Option Nat) (m : Mod) : Mod :=
  let (e, m2) := match src with
    | none => (2 ^ 32 - 1, m)
    | some b => let (bytes, m1) := draw m b 4; (natOf bytes % 2 ^ 31, m1)
  raise { m2 with tether := { m2.tether with vault := { m2.tether.vault with bootEpoch := e } }, sys := { m2.sys with epochRestarted := true } }
    0x400A srcModule 0 (b4 e)

/-! ### KEKs -/

/-- KEK state 0x4100:03. -/
def kekState (m : Mod) (b : Nat) : Nat :=
  let x := kek m b
  if x.kek = [] then (if x.shareA.isSome then 1 else if x.shareB.isSome then 2 else 0)
  else if x.shareA.isSome then 4 else if x.shareB.isSome then 5 else 3

/-- KEK check value 0x4100:04 (R258). -/
def kekCheck (m : Mod) (b : Nat) : Octets := if (kek m b).kek = [] then zeros 4 else (hmac (kek m b).kek (ascii "KCV")).take 4

/-- A KEK share written by an Officer (R254 to R258): held, or with the other share of another credential the KEK comes into
force in both harbours. -/
def writeShare (m : Mod) (b : Nat) (isB : Bool) (share : Octets) (cred : Nat) : Mod × Nat :=
  let x := kek m b
  match if isB then x.shareA else x.shareB with
  | none =>
    let h := some (share, cred, m.sys.elapsed)
    (setKek m b (if isB then { x with shareB := h } else { x with shareA := h }), 0)
  | some (other, c, _) =>
    if c = cred then (m, 0x1005)
    else
      let m1 := setKek m b { x with kek := xorBytes share other, shareA := none, shareB := none }
      (raise m1 0x4008 srcModule (bpidOf m b) (b1 b ++ b1 0), 0)

/-- A share not matched within 300 s is erased: event 0x4008 (R257). -/
def expireShare (m : Mod) (b : Nat) : Mod :=
  let x := kek m b
  match x.shareA, x.shareB with
  | none, none => m
  | some (_, _, t), _ => 
    let m1 := advanceTo m (t + 300 * secCycles)
    raise (setKek m1 b { x with shareA := none }) 0x4008 srcModule (bpidOf m b) (b1 b ++ b1 1)
  | none, some (_, _, t) =>
    let m1 := advanceTo m (t + 300 * secCycles)
    raise (setKek m1 b { x with shareB := none }) 0x4008 srcModule (bpidOf m b) (b1 b ++ b1 2)

/-- A berth's KEK and held shares erased in both harbours (R259). -/
def eraseKek (m : Mod) (b : Nat) : Mod := setKek m b { kek m b with kek := [], shareA := none, shareB := none }

/-! ### Switch requests -/

/-- A request ends without a switch, with event 0x4022: 0 cancelled, 1 target erased, 2 port disabled (R297, R298, R300, R322). -/
def cancelSwitch (m : Mod) (a cause : Nat) : Mod :=
  let x := assoc m a
  if x.sw = 0 then m
  else raise (setNat (setAssoc m a { x with sw := 0, notice := 0, ksp := false }) 0x4040 1 a 0) 0x4022 (srcH (aHarbour a)) (bpidOf m (aBerth m a))
    (b2 a ++ b1 cause)

/-- The transmit phase moves to the other slot (R298, R301, R305, R315): event 0x4020, of which the flag byte shows traceability in bit 0 and STEPPED
(R562) in bit 1 (DESIGN CHOICE, log 55). -/
def flip (m : Mod) (a : Nat) : Mod :=
  let x := assoc m a
  let ph := 1 - x.txPhase
  let t := nowH m (aHarbour a)
  let m1 := setAssoc m a { x with txPhase := ph, sw := 0, notice := 0, ksp := false, stepped := false, lastSwitch := t, flipAt := m.sys.elapsed, switches := satAdd 32 x.switches 1 }
  raise (setNat m1 0x4040 1 a 0) 0x4020 (srcH (aHarbour a)) (bpidOf m (aBerth m a))
    (b2 a ++ b1 ph ++ b2 (x.slot ph).kep ++ timeBytes t ++ b1 (bitAt (synced m (aHarbour a)) 0 + bitAt x.stepped 1))

/-- A request comes into force (R293, R301, R312, R318): frame and inner associations switch; a line association gives notice,
or waits for KNR at once when its slot in force is empty or spent. -/
def switchInForce (m : Mod) (a : Nat) : Mod :=
  if aType m a = 3 then
    let x := assoc m a
    setAssoc m a (if txUsable m a then { x with sw := 2, notice := inf m 0x4040 3 a, given := inf m 0x4040 3 a, ksp := false }
                  else { x with sw := 3, notice := 0, given := 0, ksp := false })
  else flip m a

/-- A committed request: 0 cancels, 1 comes into force, 2 waits for its time (R293, R297). -/
def requestSwitch (m : Mod) (a req : Nat) : Mod :=
  if req = 0 then cancelSwitch m a 0
  else
    let m1 := setAssoc m a { assoc m a with sw := 1, notice := 0, ksp := false, stepped := false, knrWait := 0, waitEvent := false }
    if req = 1 then switchInForce m1 a else m1

/-- A scheduled request of an association comes into force (R296). -/
def scheduledSwitch (m : Mod) (a : Nat) : Mod := if (assoc m a).sw = 1 then switchInForce m a else m

/-- What stands before an erase of a slot on its edge (R324, R325): a scheduled switch that is due on the edge, or a line flip whose bank instant falls
on it (R315), precedes an erase of the slot in force, and an erase of the slot that a switch on this very edge brought into force takes effect on the
next one. A COMMIT that follows an erase takes effect on a later edge, as the session pilot serves one message after another (R738; log 52). -/
def beforeErase (m : Mod) (a ph : Nat) : Mod :=
  let x := assoc m a
  if x.sw = 1 ∧ ph = x.txPhase ∧ inf m 0x4040 2 a ≤ nowH m (aHarbour a) then scheduledSwitch m a
  else if x.sw = 4 ∧ ph = x.txPhase ∧ (txOf m (aPort m a)).mfas = 0 ∧ (txOf m (aPort m a)).due < (m.sys.elapsed + 1) * 800000 then flip m a
  else if x.switches ≠ 0 ∧ ph = x.txPhase ∧ x.flipAt = m.sys.elapsed then advance m 1
  else m

/-- During notice the slot in force became empty or spent: the remaining notice is dropped (R319). -/
def dropNotice (m : Mod) (a : Nat) : Mod :=
  let x := assoc m a
  if x.sw = 2 ∧ !txUsable m a then setAssoc m a { x with sw := 3, notice := 0, ksp := false } else m

/-! ### Loading and erasing keys -/

/-- The eight filter positions of a key and salt (R261). -/
def filterBits (keySalt : Octets) : List Nat :=
  let d := natOf (sha256 keySalt)
  (List.range 8).map fun i => bits d (256 - 25 * (i + 1)) 25

/-- A harbour's filter with the positions set, and the fill levels passed by it (R262, R264). -/
def addFingerprint (m : Mod) (h : Nat) (ps : List Nat) : Mod :=
  let f := tget ({} : KeyFilter) m.filters h
  let b := ps.foldl (fun t p => tset false t p true) f.bits
  let told := if 2 ^ 24 < b.length then 2 else if 2 ^ 23 < b.length then 1 else 0
  let m1 := { m with filters := tset {} m.filters h { bits := b, keys := satAdd 32 f.keys 1, told := max f.told told } }
  if f.told < told then raise m1 0x4009 (srcH h) 0 (b1 h ++ b1 (if told = 2 then 50 else 25)) else m1

/-- A slot with a key written to it (R237, R248, R268). An initial PN beyond the last one that may be sent leaves nothing to send: the slot
is spent (R238). -/
def loadedSlot (m : Mod) (a ph type : Nat) (plain : Octets) (order : Nat) : Slot :=
  let init := inf m 0x4010 4 (a * 2 + ph)
  { full := true, key := plain.take 32, salt := sub plain 32 12, kep := natAt plain 46 2, initPn := init,
    next := if type = 3 then 0 else init, spent := type != 3 && decide (lastPn type (aSuite m a) < init), order, peerEpoch := inf m 0x4010 8 (a * 2 + ph), peerPort := inf m 0x4000 8 a }

/-- A wrapped key written to a slot (R247, R249 to R253, R262, R267, R268, R281, R377, R701, R890): the unwrapped plaintext is none when
its integrity check failed. -/
def writeKey (m : Mod) (retired sourceBFailed : Bool) (a ph : Nat) (unwrapped : Octets → Option Octets) : Mod × Nat :=
  let type := aType m a
  let suite := aSuite m a
  let b := aBerth m a
  let src := srcH (aHarbour a)
  if retired || type == 0 || !isGcm suite || (kek m b).kek == [] then (m, 0x4002)
  else if sourceBFailed || (type == 3 && m.tether.vault.bootEpoch == 2 ^ 32 - 1) then (m, 0x4002)
  else if (berth m b).resetting then (m, 0x3002)
  else if isActive m a ph then (m, 0x3003)
  else if type ≠ 3 ∧ type ≠ 4 ∧ ((assoc m a).slot (1 - ph)).full ∧ inf m 0x4010 2 (a * 2) = inf m 0x4010 2 (a * 2 + 1) then (m, 0x3003)
  else
    let fail := (raise (setKek m b { kek m b with failures := satAdd 64 (kek m b).failures 1 }) 0x4006 src (bpidOf m b) (b1 b ++ b2 a), 0x6001)
    match unwrapped (kek m b).kek with
    | none => fail
    | some plain =>
      if plain.length ≠ 48 ∨ natAt plain 44 2 ≠ a then fail
      else if (!isXpn suite && sub plain 32 12 != zeros 12) || ((suite == 1 || suite == 3) && sub plain 16 16 != zeros 16) then (m, 0x2001)
      else
        let ps := filterBits (plain.take 44)
        let f := tget ({} : KeyFilter) m.filters (aHarbour a)
        if ps.all fun p => tget false f.bits p then (raise m 0x4007 src (bpidOf m b) (b2 a ++ b1 (aHarbour a)), 0x3005)
        else
          let x := assoc m a
          let y := loadedSlot m a ph type plain (x.written + 1)
          let m1 := setAssoc m a { x.setSlot ph y with written := x.written + 1 }
          let m2 := raise m1 0x4004 src (bpidOf m b) (b2 a ++ b1 ph ++ b2 y.kep)
          (addFingerprint m2 (aHarbour a) ps, 0)

/-- A slot erased at once (R269, R300, R319, R324, R325). -/
def eraseSlot (m0 : Mod) (a ph : Nat) : Mod :=
  let m := beforeErase m0 a ph
  let x := assoc m a
  if !(x.slot ph).full then m
  else
    let active := isActive m a ph
    let m1 := raise (setAssoc m a (x.setSlot ph {})) 0x4005 (srcH (aHarbour a)) (bpidOf m (aBerth m a)) (b2 a ++ b1 ph ++ b1 (b01 active))
    if x.sw ≠ 0 ∧ ph = 1 - x.txPhase then cancelSwitch m1 a 1 else dropNotice m1 a

/-- Every slot, KEK and held share erased; requests end without a switch and without events, and 0x4040:01 returns
to 0 (R298, R874, R986). -/
def eraseAllKeys (m : Mod) : Mod :=
  { m with obj := m.obj.filter fun e => e.1 / 2 ^ 32 != 0x404001
           assocs := tmap {} (fun x => { x with s0 := {}, s1 := {}, sw := 0, notice := 0, ksp := false }) m.assocs
           keks := tmap {} (fun x => { x with kek := [], shareA := none, shareB := none }) m.keks }

/-! ### Nonces -/

/-- The GCM IV of a frame (R220): SCI and 32-bit PN, or for XPN the SSCI and PN under the salt. -/
def gcmIv (suite : Nat) (sci : Octets) (ssci pn : Nat) (salt : Octets) : Octets :=
  if isXpn suite then xorBytes (b4 ssci ++ b8 pn) (fit 12 salt) else fit 8 sci ++ b4 pn

/-- A PN or FCNT assigned under the transmit slot in force (R236 to R240): its value, with the rekey event at the threshold,
and the slot spent after its last value. -/
def assignPn (m : Mod) (a : Nat) : Nat × Mod :=
  let x := assoc m a
  let ph := x.txPhase
  let y := x.slot ph
  let pn := y.next
  let type := aType m a
  let src := srcH (aHarbour a)
  let bp := bpidOf m (aBerth m a)
  let last := decide (lastPn type (aSuite m a) ≤ pn)
  let m1 := setAssoc m a (x.setSlot ph { y with next := pn + 1, spent := last, rekeyed := y.rekeyed || pn == inf m 0x4000 0x0B a, stopped := y.stopped || last })
  let m2 := if pn = inf m 0x4000 0x0B a ∧ !y.rekeyed then raise m1 0x4001 src bp (b2 a ++ b1 ph ++ b8 pn) else m1
  (pn, if last ∧ !y.stopped then dropNotice (raise m2 0x4002 src bp (b2 a ++ b1 ph)) a else m2)

/-! ### The replay window -/

/-- The full PN recovered from the SecTAG's 32 bits and the lowest PN (R233). -/
def recoverPn (suite pn low : Nat) : Nat :=
  if isXpn suite then (if low % 2 ^ 32 ≤ pn then low / 2 ^ 32 * 2 ^ 32 + pn else (low / 2 ^ 32 + 1) * 2 ^ 32 + pn) else pn

/-- The replay state after a frame has verified with a PN (R234). -/
def Assoc.accept (x : Assoc) (pn window : Nat) : Assoc :=
  let y := if x.high < pn then
      { x with bitmap := if 64 ≤ pn - x.high then 1 else (x.bitmap * 2 ^ (pn - x.high) + 1) % 2 ^ 64, high := pn }
    else { x with bitmap := setBit x.bitmap (x.high - pn) true }
  if window ≤ y.high then { y with lowest := max y.lowest (y.high - window) } else y

/-- A slot becomes receive-current with the replay state of R231. -/
def Assoc.makeCurrent (x : Assoc) (ph : Nat) : Assoc :=
  { x with rxCur := ph, high := (x.slot ph).initPn - 1, bitmap := 0, lowest := (x.slot ph).initPn }

/-- Checks 3 to 7 of R229 for a received frame: the subindex of 0x4020 that counts the failure, or the slot and recovered PN. -/
def rxChecks (m : Mod) (a : Nat) (t : SecTag) : Except Nat (Nat × Nat) :=
  let x := assoc m a
  if t.sc && t.sci != (look m [] 0x4000 6 a).toOct then .error 0x0E
  else
    let fits (ph : Nat) : Bool := (x.slot ph).full && inf m 0x4010 2 (a * 2 + ph) == t.an
    let pick := if fits (1 - x.rxCur) ∧ ((x.slot x.rxCur).order < (x.slot (1 - x.rxCur)).order ∨ !fits x.rxCur) then some (1 - x.rxCur)
                else if fits x.rxCur then some x.rxCur else none
    match pick with
    | none => .error 0x0D
    | some ph =>
      let y := x.slot ph
      if ph ≠ x.rxCur ∧ y.order < (x.slot x.rxCur).order then .error 0x0F
      else
        let fresh := ph ≠ x.rxCur ∨ x.lowest = 0
        let low := if fresh then y.initPn else x.lowest
        let pn := recoverPn (aSuite m a) t.pn low
        if pn < low then .error 0x0A
        else if !fresh ∧ pn ≤ x.high ∧ x.bitmap.testBit (x.high - pn) then .error 0x0B
        else .ok (ph, pn)

/-- A frame has verified under a slot (R232, R234). -/
def rxVerified (m : Mod) (a ph pn : Nat) : Mod :=
  let x := assoc m a
  let y := if ph ≠ x.rxCur ∨ x.lowest = 0 then x.makeCurrent ph else x
  setAssoc m a (y.accept pn (inf m 0x4000 0x0A a))

/-! ### KNR -/

/-- A line RX association's other slot holds a newer key than the phase last taken (R310). -/
def knrOf (m : Mod) (a : Nat) : Bool :=
  let x := assoc m a
  (x.slot (1 - x.rxCur)).full && decide ((x.slot x.rxCur).order < (x.slot (1 - x.rxCur)).order)

/-- KNR as a port sends it (R310). -/
def knrSent (m : Mod) (p : Nat) : Bool :=
  match boundAssoc m 4 p with
  | some a => knrOf m a
  | none => false

end Sys2Proof.Machine
end

