-- ==== Sys2Proof/Machine/Scope.lean ====
section
/-! DEFINITION. What a response in force reaches (R868 to R872). -/

namespace Sys2Proof.Machine

/-- The response rank configured for a source: the value in force, or on the cell the one the tether keeps (R877). -/
def responseOf (m : Mod) (i : Nat) : Nat :=
  if m.tether.onCell then m.tether.responses.getD i (sourceRow i).2.2.1 else inf m 0x9010 1 i

/-- The basins that a unit of a scope covers: module, harbour, basin; a region covers none (R868). -/
def basinsOf (scope unit : Nat) : List Nat :=
  match scope with
  | 0 => [0, 1, 2, 3]
  | 1 => [2 * unit, 2 * unit + 1]
  | 2 => [unit]
  | _ => []

/-- A source's response in force reaches a basin. -/
def reaches (m : Mod) (i b : Nat) : Bool :=
  (source m i).inForce != 0 && (source m i).units.any fun u => (basinsOf (sourceRow i).2.2.2.2.2 u).contains b

/-- The highest response in force that reaches a basin (R872). -/
def rankAt (m : Mod) (b : Nat) : Nat :=
  (List.range 15).foldl (fun a i => if reaches m i b then max a (source m i).inForce else a) 0

/-- A basin is under Quiesce or a higher response (R871). -/
def quiesced (m : Mod) (b : Nat) : Bool := 3 ≤ rankAt m b

/-- A basin is under Throttle (R870). -/
def throttled (m : Mod) (b : Nat) : Bool := rankAt m b == 2

/-- Some response of rank 1 or more is in force (R906 ALERT). -/
def alerted (m : Mod) : Bool := (List.range 15).any fun i => (source m i).inForce != 0

end Sys2Proof.Machine
end

