-- ==== Sys2Proof/Machine/Bound.lean ====
section
/-! DEFINITION. The figures a configuration has under a pending set: pacing, maximum debits, what feeds what, committed peak
rates, bank demand (R352, R369), and the bound proof with its terms (R534 to R543). Times in the proof are in units of
0.1 ns. -/

namespace Sys2Proof.Machine

/-! ### Elements and ports -/

/-- The elements of an object that have a value of their own, in force or pending. -/
def elems (m : Mod) (p : Tbl Val) (idx sub : Nat) : List Nat :=
  let here (t : Tbl Val) : List Nat := (t.filter fun e => decide (e.1 / 2 ^ 32 = idx * 256 + sub)).map fun e => e.1 % 2 ^ 32
  let a := here (store m idx sub)
  a ++ (here p).filter fun e => !a.contains e

/-- A line port in line mode, with a pending set applied. -/
def gelixIn (m : Mod) (p : Tbl Val) (port : Nat) : Bool := isLine port && cfg m p 0x3100 2 port == 1

/-- The pacing rate of a port, kbit/s (R52, R468). -/
def paceRate (m : Mod) (p : Tbl Val) (port : Nat) : Nat :=
  widthIn m p port * (if gelixIn m p port then 105823529 else 100000000)

/-- The port maximum debit M_p (R536). -/
def maxDebit (m : Mod) (p : Tbl Val) (port : Nat) : Nat :=
  if !isLine port then 9236 else if gelixIn m p port then 9290 else 9268

/-- The scaling factor a port resolves to (R466). -/
def scaleOf (m : Mod) (p : Tbl Val) (port : Nat) : Nat :=
  let f := cfg m p 0x6100 7 port
  if f = 0 then (if gelixIn m p port then 65802 else 65536) else f

/-- The time n debit bytes take at a rate, 0.1 ns, rounded up (R536). -/
def bytesTime (n rate : Nat) : Nat := if rate = 0 then 0 else ceilDiv (n * 80000000) rate

/-- The bytes a time in 0.1 ns carries at a rate, rounded down. -/
def timeBytesAt (t rate : Nat) : Nat := t * rate / 80000000

/-- One Gelix frame time of a width, 0.1 ns, rounded up: 131,072 bits at 112.0 Gbit/s × 514/544 a lane (R26). -/
def gelixTime (w : Nat) : Nat := if w = 0 then 0 else ceilDiv (1310720 * 544) (57568 * w)

/-- The femtoseconds of one Gelix frame, and of a number of bytes of it (R26). -/
def frameFs (w : Nat) : Nat := if w = 0 then 0 else 131072 * 544 * 1000000 / (57568 * w)

/-- The fixed latency of a path in D-clock cycles, rounded up (R26): outbound or inbound, by its line port. -/
def pathCycles (m : Mod) (out : Bool) (line : Nat) : Nat :=
  ceilDiv ((if out then 640000000 else 720000000) +
    (if gelixIn m [] line then frameFs (width m line) + (if out then 0 else (port m line).deskew * 400000) else 0)) 800000

/-- The part of a path's fixed latency that follows release, in D-clock cycles, towards a port (R30, R516): what the model leaves free of it,
and never more than the 640 or 720 ns of R26; on a Gelix port the frame time comes on top, from the client area to the lanes (R518; log 9). -/
def releasePart (m : Mod) (p : Nat) : Nat :=
  min (if isLine p then 800 else 900) (Config.releaseLead (isLine p) (gelixIn m [] p))

/-- The lead of a Gelix frame's bank instant (R1038), within the part of the fixed latency that follows release. -/
def gelixLead (m : Mod) (p : Nat) : Nat := min (releasePart m p) (Config.bankLead (width m p))

/-! ### Queues -/

def qEn (m : Mod) (p : Tbl Val) (q : Nat) : Bool := cfg m p 0x6000 1 q != 0
def qBerth (m : Mod) (p : Tbl Val) (q : Nat) : Nat := cfg m p 0x6000 2 q
def qPort (m : Mod) (p : Tbl Val) (q : Nat) : Nat := cfg m p 0x6000 3 q
def qClass (m : Mod) (p : Tbl Val) (q : Nat) : Nat := cfg m p 0x6000 4 q
def qMode (m : Mod) (p : Tbl Val) (q : Nat) : Nat := cfg m p 0x6000 6 q
def qRate (m : Mod) (p : Tbl Val) (q : Nat) : Nat := cfg m p 0x6000 7 q
def qPark (m : Mod) (p : Tbl Val) (q : Nat) : Bool := (cfg m p 0x6000 0x0B q).testBit 1
def qBasin (q : Nat) : Nat := q / 8192

/-- A queue's Enable counts: committed TRUE, or in force while it drains, as that of a queue with frames still will where a pending set takes it away
(R459). -/
def qLive (m : Mod) (p : Tbl Val) (q : Nat) : Bool := qEn m p q || (queue m q).draining || (qEn m [] q && !(queue m q).frames.isEmpty)

/-- The peak rate and burst committed for admission (R473). -/
def qPeak (m : Mod) (p : Tbl Val) (q : Nat) : Nat := if qMode m p q = 1 then cfg m p 0x6000 9 q else qRate m p q
def qPeakBurst (m : Mod) (p : Tbl Val) (q : Nat) : Nat := cfg m p 0x6000 (if qMode m p q = 1 then 0x0A else 8) q

/-- The peak rate in force for service. -/
def qServed (m : Mod) (q : Nat) : Nat := if inf m 0x6000 6 q = 1 then (queue m q).pir else (queue m q).rate

/-- The committed peak rate of a queue (R475). -/
def committedPeak (m : Mod) (p : Tbl Val) (q : Nat) : Nat := max (qPeak m p q) (qServed m q)

/-- The queues bound to a port (R456), and those of a class. -/
def boundQueues (m : Mod) (p : Tbl Val) (port : Nat) : List Nat := (elems m p 0x6000 3).filter fun q => qPort m p q == port && qBasin q == basinOf port

/-- A clear half's default result is in use (R396). -/
def defaultUsed (m : Mod) (p : Tbl Val) (e : Nat) : Bool :=
  let f := cfg m p 0x5000 4 e
  cfg m p 0x5000 1 e == 1 || (cfg m p 0x5000 1 e == 2 && (bits f 3 2 == 1 || f.testBit 1))

/-- The associations a queue's frames can name: by the direct table and by the prefixes (R452). -/
def fedAssocs (m : Mod) (p : Tbl Val) (q : Nat) : List Nat :=
  ((elems m p 0x5000 1).filter fun e => defaultUsed m p e && cfg m p 0x5000 5 e == q).map (fun e => cfg m p 0x5000 6 e) ++
  ((clsOf m (qBasin q)).prefixes.filter fun x => !x.drop && x.queue == q).map (·.assoc)

def isHa (m : Mod) (p : Tbl Val) (a : Nat) : Bool := (cfg m p 0x4000 5 a).testBit 7

/-- A TX association that encrypts frames: frame TX or inner TX with a GCM suite. -/
def encrypts (m : Mod) (p : Tbl Val) (a : Nat) : Bool :=
  (cfg m p 0x4000 1 a == 1 || cfg m p 0x4000 1 a == 5) && isGcm (cfg m p 0x4000 2 a)

/-- DIVERT acts in a basin: source A of its harbour has failed and the policy is 0 (R373, R375). -/
def diverting (m : Mod) (p : Tbl Val) (b : Nat) : Bool := (entropyOf m (b / 2)).failA && cfg m p 0x4210 1 b == 0

/-- An HA association that sends frames, whatever its suite (R369); one that the policy diverts, frame TX of any suite or inner TX of a GCM suite
(R375). -/
def sendsHa (m : Mod) (p : Tbl Val) (a : Nat) : Bool := (cfg m p 0x4000 1 a == 1 || cfg m p 0x4000 1 a == 5) && isHa m p a
def divertsIn (m : Mod) (p : Tbl Val) (a : Nat) : Bool := (cfg m p 0x4000 1 a == 1 || encrypts m p a) && !isHa m p a && diverting m p (a / 16384)

/-- A queue feeds an HA association (R369); a queue is diverted (R375); the masked engine computes blocks of its frames (R368). -/
def feedsHa (m : Mod) (p : Tbl Val) (q : Nat) : Bool := (fedAssocs m p q).any (sendsHa m p)
def isDiverted (m : Mod) (p : Tbl Val) (q : Nat) : Bool := (fedAssocs m p q).any (divertsIn m p)
def feedsMasked (m : Mod) (p : Tbl Val) (q : Nat) : Bool := (fedAssocs m p q).any fun a => encrypts m p a && (isHa m p a || diverting m p (qBasin q))

/-! ### Demand -/

/-- A line port counts in the demand (R352). -/
def demandPorts (m : Mod) (p : Tbl Val) (b : Nat) : List Nat :=
  (List.range 8).filterMap fun i =>
    let port := b * 16 + 8 + i
    if cfg m p 0x3100 3 port ≠ 0 ∧ !absorbedIn m p port then some port else none

/-- The committed demand of a bank, kbit/s (R352): on a line-mode port by the queues that feed inner TX associations of a GCM suite, on a
frame-mode port by those that feed frame TX associations of any suite, neither with HA. -/
def bankDemand (m : Mod) (p : Tbl Val) (k : Nat) : Nat :=
  let b := k / 2
  let counts (a : Nat) : Bool := !isHa m p a && (cfg m p 0x4000 1 a == 1 || cfg m p 0x4000 1 a == 5 && isGcm (cfg m p 0x4000 2 a))
  let queuesOf (port : Nat) : Nat :=
    ((boundQueues m p port).filter fun q => qLive m p q && (fedAssocs m p q).any counts).foldl (fun s q => s + committedPeak m p q) 0
  (demandPorts m p b).foldl (fun s port =>
    let lanes := widthIn m p port * 105823529
    let payload := lanes * 16320 / 16384
    let client := lanes * 16318 / 16384
    let innerRx := (elems m p 0x4000 1).any fun a =>
      cfg m p 0x4000 1 a == 6 && cfg m p 0x4000 4 a == port && isGcm (cfg m p 0x4000 2 a) && !isHa m p a
    s + (if gelixIn m p port then ceilDiv (payload * 1021) 1020 + (if k % 2 = 0 then queuesOf port else if innerRx then client else 0)
         else if k % 2 = 0 then queuesOf port else widthIn m p port * 100000000)) 0

/-- The masked transmit commitment of a basin (R369, R383): HA and diverted queues. -/
def maskedHa (m : Mod) (p : Tbl Val) (b : Nat) : Nat :=
  ((elems m p 0x6000 3).filter fun q => qBasin q == b && qLive m p q && feedsHa m p q).foldl (fun s q => s + committedPeak m p q) 0
def divertedQueues (m : Mod) (p : Tbl Val) (b : Nat) : List Nat :=
  (elems m p 0x6000 3).filter fun q => qBasin q == b && qLive m p q && isDiverted m p q && !feedsHa m p q
def maskedCommit (m : Mod) (p : Tbl Val) (b : Nat) : Nat :=
  maskedHa m p b + (divertedQueues m p b).foldl (fun s q => s + committedPeak m p q) 0

/-- Pipelines of a bank that are not retired (R353). -/
def notRetired (b : Bank) : Nat := ((List.range 14).filter fun i => (tget ({} : CUnit) b.pipes i).st != 3).length

/-- The park commitment of a harbour (R658). -/
def parkCommit (m : Mod) (p : Tbl Val) (h : Nat) : Nat :=
  ((elems m p 0x6000 0x0B).filter fun q => qBasin q / 2 == h && qLive m p q && qPark m p q).foldl (fun s q => s + committedPeak m p q) 0

/-- The crypto commitment of a berth in a basin (R691). -/
def cryptoUse (m : Mod) (p : Tbl Val) (berth basin : Nat) : Nat :=
  ((elems m p 0x6000 3).filter fun q => qBasin q == basin && qBerth m p q == berth && qLive m p q && (fedAssocs m p q).any (encrypts m p ·)).foldl
    (fun s q => s + committedPeak m p q) 0

/-! ### Windows -/

/-- A gate bank as the proof takes it: cycle and entries in 0.1 ns, the accuracy term (R540). -/
def GBank.proof (b : GBank) : Nat × List (Nat × Nat) × Nat :=
  if b.on then (b.cycle * 10, b.entries.map fun e => (e.1, e.2 * 10), 160) else (1000000, [(0xFF, 1000000)], 0)

/-- The fitted classes of a bank: none while its gates are disabled (R515). -/
def GBank.fits (b : GBank) (c : Nat) : Bool := b.on && b.fitted.testBit c

/-- The open intervals of a class over one cycle from an instant on. -/
def openRuns (c : Nat) : Nat → List (Nat × Nat) → List (Nat × Nat)
  | _, [] => []
  | t, (mask, d) :: r =>
    let rest := openRuns c (t + d) r
    if mask.testBit c then
      match rest with
      | (s, e) :: more => if s = t + d then (t, e) :: more else (t, t + d) :: rest
      | [] => [(t, t + d)]
    else rest

/-- The windows of a class in a cycle; one that runs on over the cycle's end ends past it (R514). -/
def windows (b : GBank) (c : Nat) : List (Nat × Nat) :=
  let (cyc, es, _) := b.proof
  let w := openRuns c 0 es
  match w, w.getLast? with
  | (0, e) :: r, some (s, l) => if l = cyc ∧ r ≠ [] then r.dropLast ++ [(s, cyc + e)] else w
  | _, _ => w

/-- The masks of all entries that open the class, together. -/
def withMask (b : GBank) (c : Nat) : Nat := (b.proof.2.1.filter fun e => e.1.testBit c).foldl (fun a e => a ||| e.1) 0

/-- The window is open without end. -/
def endless (b : GBank) (w : List (Nat × Nat)) : Bool := w == [(0, b.proof.1)]

/-- The fit limit of a fitted class in one bank (R520). -/
def bankFit (m : Mod) (p : Tbl Val) (port : Nat) (b : GBank) (c : Nat) : Nat :=
  let conf := natAt b.limits (2 * c) 2
  let top := if conf = 0xFFFF then maxDebit m p port else conf
  let w := windows b c
  if endless b w then top
  else w.foldl (fun a x => min a (timeBytesAt (x.2 - x.1 - 160) (paceRate m p port))) (if w = [] then 0 else top)

/-- The fit limit over the banks in which a class is fitted (R520, R521): none when it is listed in all of them. -/
def fitLimit (m : Mod) (p : Tbl Val) (port : Nat) (bs : List GBank) (c : Nat) : Option Nat :=
  (bs.filter (·.fits c)).foldl (fun a b => some (match a with
    | none => bankFit m p port b c
    | some x => min x (bankFit m p port b c))) none

/-- Pieces of intervals with a cut taken out. -/
def cutOut (ps : List (Nat × Nat)) (a b : Nat) : List (Nat × Nat) :=
  ps.flatMap fun x => if b ≤ x.1 ∨ x.2 ≤ a then [x] else (if x.1 < a then [(x.1, a)] else []) ++ (if b < x.2 then [(b, x.2)] else [])

/-- What the proof finds for a class in one bank (R536, R537, R539). -/
structure ClassTerms where
  /-- Longest gap without the seam; none when the class has no usable open time. -/
  gap : Option Nat
  /-- From the start of the bank to the first usable open instant. -/
  first : Nat
  beta : Nat
  usable : Nat
  /-- The sum over the windows of usable open time less blocking. -/
  room : Int
  deriving DecidableEq, Repr

/-- The terms of a class in one bank (R520, R523, R536, R537, R731). -/
def classTerms (m : Mod) (p : Tbl Val) (port : Nat) (b : GBank) (fit : Option Nat) (c : Nat) : ClassTerms :=
  let rate := paceRate m p port
  let (cyc, _, acc) := b.proof
  let full := bytesTime (maxDebit m p port) rate
  let fitted := b.fits c
  let other := withMask b c - bitAt ((withMask b c).testBit c) c
  let beta := if other ≠ 0 ∨ (!isLine port ∧ !fitted) then full else 0
  let opens := ((List.range 8).filter fun d => b.fits d && !endless b (windows b d)).flatMap fun d => (windows b d).flatMap fun x => [x.1, x.1 + cyc]
  -- a class that is open without end runs from a fitted opening to the same a cycle later, with the guard before it at the end
  let w := match endless b (windows b c) && !fitted, opens.min? with
    | true, some o => [(o, o + cyc)]
    | _, _ => windows b c
  let guards (x : Nat × Nat) : List Nat := if fitted then [] else (opens.filter fun o => decide (x.1 < o ∧ o ≤ x.2)).eraseDups
  let tail := if fitted ∧ !endless b w then bytesTime (fit.getD 0) rate else 0
  let use (x : Nat × Nat) : Nat := x.2 - x.1 - acc - tail - (guards x).length * full
  let pieces := w.flatMap fun x => if use x = 0 then [] else (guards x).foldl (fun ps o => cutOut ps (o - full) o) [(x.1, x.2 - tail)]
  let gaps := pieces.zipIdx.map fun y =>
    match pieces[y.2 + 1]? with
    | some z => z.1 - y.1.2
    | none => ((pieces.head?.map (·.1)).getD 0 + cyc) - y.1.2
  { gap := if pieces = [] then none else some (gaps.foldl max 0 + acc)
    -- a piece that runs on over the cycle's end is open at its start
    first := ((pieces.map fun x => if x.1 < cyc ∧ cyc < x.2 then 0 else x.1 % cyc).min?).getD 0
    beta
    usable := w.foldl (fun a x => a + use x) 0
    room := w.foldl (fun (a : Int) x => a + use x - beta) 0 }

/-- The capacity K_c in one bank, debit bytes per cycle (R539). -/
def ClassTerms.capacity (x : ClassTerms) (rate : Nat) : Nat := timeBytesAt x.room.toNat rate

/-! ### The proof of a port -/

/-- The banks that may serve a port: in force, then pending. -/
def banksOf (g : Gate) : List GBank := g.force :: g.pend.toList

/-- The gap the proof uses: the largest of in force, pending and the seam (R538). -/
def gapOf (m : Mod) (p : Tbl Val) (port : Nat) (g : Gate) (c : Nat) : Option Nat :=
  let fit := fitLimit m p port (banksOf g) c
  let a := classTerms m p port g.force fit c
  match g.pend with
  | none => a.gap
  | some b =>
    let t := classTerms m p port b fit c
    match a.gap, t.gap with
    | some x, some y => some (max (max x y) (x + t.first))
    | _, _ => none

/-- The blocking the proof uses: the largest over the banks that may serve. -/
def betaOf (m : Mod) (p : Tbl Val) (port : Nat) (g : Gate) (c : Nat) : Nat :=
  (banksOf g).foldl (fun a b => max a (classTerms m p port b (fitLimit m p port (banksOf g) c) c).beta) 0

/-- The DWRR wait Q_q, 0.1 ns (R536). -/
def dwrrWait (m : Mod) (p : Tbl Val) (port q : Nat) : Nat :=
  let c := qClass m p q
  let b := qBerth m p q
  let bound := boundQueues m p port
  let mp := maxDebit m p port
  let same := bound.filter fun x => qClass m p x == c
  let berths := ((same.map (qBerth m p ·)).filter (· != b)).eraseDups
  let peers := same.filter fun x => qBerth m p x == b && x != q
  let classes := if c ≤ 5 then (List.range 6).filter fun d => d != c && bound.any fun x => qClass m p x == d && qLive m p x else []
  let sum := berths.foldl (fun s x => s + 64 * cfg m p 0x6200 1 (x * 64 + port) + mp) 0 +
    peers.foldl (fun s x => s + 64 * cfg m p 0x6000 5 x + mp) 0 +
    classes.foldl (fun s d => s + 64 * cfg m p 0x6100 (d + 1) port + mp) 0
  bytesTime sum (paceRate m p port)

/-- The RX associations that name a queue (R452). -/
def rxNaming (m : Mod) (p : Tbl Val) (q : Nat) : List Nat :=
  (elems m p 0x4000 9).filter fun a => cfg m p 0x4000 9 a == q && (cfg m p 0x4000 1 a == 2 || cfg m p 0x4000 1 a == 6)

/-- The fixed latency Λ_q, 0.1 ns (R26, R371, R536, R542). -/
def fixedLatency (m : Mod) (p : Tbl Val) (q : Nat) : Nat :=
  let port := qPort m p q
  let base :=
    if isLine port then 6400 + (if gelixIn m p port then gelixTime (widthIn m p port) else 0)
    else
      let lat (v : Tbl Val) : Nat := (rxNaming m v q).foldl (fun a x =>
        let l := cfg m v 0x4000 4 x
        max a (7200 + if cfg m v 0x4000 1 x = 6 then gelixTime (widthIn m v l) + 1800 else 0)) 7200
      max (lat p) (lat [])
  let masked := if isLine port then feedsMasked m p q else (rxNaming m p q).any (isHa m p ·) || (rxNaming m [] q).any (isHa m [] ·)
  base + (if masked then 15360 else 0) + (if qPark m p q then 200000 else 0)

/-- M_q: the fit limit of a fitted class, the port maximum of a listed one (R536). -/
def unitDebit (m : Mod) (p : Tbl Val) (port : Nat) (g : Gate) (c : Nat) : Nat :=
  (fitLimit m p port (banksOf g) c).getD (maxDebit m p port)

/-- The latency term T_q, 0.1 ns; none when the class never opens. -/
def latencyTerm (m : Mod) (p : Tbl Val) (g : Gate) (q : Nat) : Option Nat :=
  let port := qPort m p q
  let c := qClass m p q
  (gapOf m p port g c).map fun x => x + betaOf m p port g c + dwrrWait m p port q

/-- The backlog limit at a rate for a time already held and a latency term, in debit bytes (R539). -/
def backlogFor (m : Mod) (p : Tbl Val) (q rate held t : Nat) : Nat :=
  (cfg m p 0x6000 0x0D q * 10 - held - fixedLatency m p q - t) * (rate * 9998) / 800000000000

/-- The backlog limit B_q at a rate for a time already held, in debit bytes (R539). -/
def backlogLimit (m : Mod) (p : Tbl Val) (g : Gate) (q rate held : Nat) : Nat :=
  if rate = 0 then 0 else (latencyTerm m p g q).elim 0 (backlogFor m p q rate held)

/-- The minimum provable bound at a rate, ns; the largest value when the class never opens (R541). At a rate of 0, which needs no proof, it is 0 (DESIGN
CHOICE, log 55). -/
def minBound (m : Mod) (p : Tbl Val) (g : Gate) (q rate : Nat) : Nat :=
  match latencyTerm m p g q with
  | none => 2 ^ 32 - 1
  | some t => if rate = 0 then 0
    else min (2 ^ 32 - 1) (ceilDiv (fixedLatency m p q + t + ceilDiv (unitDebit m p (qPort m p q) g (qClass m p q) * 800000000000) (rate * 9998)) 10)

/-- The demand Δ_c in one bank, in parts of 1 ÷ 80,000,000 of a debit byte per cycle (R539). -/
def classDemand (m : Mod) (p : Tbl Val) (port : Nat) (b : GBank) (c : Nat) : Nat :=
  let (cyc, _, _) := b.proof
  ((boundQueues m p port).filter fun x => qLive m p x).foldl (fun s x =>
    let d := qClass m p x
    if !(withMask b c).testBit d then s
    else if d > c ∧ 6 ≤ d then s + committedPeak m p x * cyc + 80000000 * qPeakBurst m p x
    else if d = c ∨ (c ≤ 5 ∧ d ≤ 5) then
      s + max (qRate m p x) (queue m x).rate * cyc + 80000000 * cfg m p 0x6000 8 x
    else s) 0

/-- What a refusal at COMMIT answers: the status and the 24-byte detail (R780). -/
structure Refuse where
  status : Nat
  addr : Addr := { idx := 0, sub := 0 }
  vals : List Nat := []
  deriving DecidableEq, Repr

/-- Conditions 1 to 3 of R539 on a port, under the banks given (R535). -/
def condOne (m : Mod) (p : Tbl Val) (g : Nat → Gate) (port : Nat) : Option Refuse :=
  ((boundQueues m p port).filter (qLive m p ·)).findSome? fun q =>
    if qRate m p q = 0 ∨ !qEn m p q then none
    else if backlogLimit m p (g port) q (qRate m p q) 0 < unitDebit m p port (g port) (qClass m p q) ∨ (latencyTerm m p (g port) q).isNone then
      some { status := 0x4003, addr := { idx := 0x6000, sub := 0x0D, isElem := true, elem := q },
             vals := [q, minBound m p (g port) q (qRate m p q), cfg m p 0x6000 0x0D q] }
    else none
def condTwo (m : Mod) (p : Tbl Val) (g : Nat → Gate) (port : Nat) : Option Refuse :=
  (List.range 8).findSome? fun c =>
    if (boundQueues m p port).any fun q => qClass m p q == c && qLive m p q then
      (banksOf (g port)).findSome? fun b =>
        let k := classTerms m p port b (fitLimit m p port (banksOf (g port)) c) c
        let d := classDemand m p port b c
        if k.room * paceRate m p port < d then some { status := 0x4003, vals := [port, c, ceilDiv d 80000000, k.capacity (paceRate m p port)] } else none
    else none
def condThree (m : Mod) (p : Tbl Val) (port : Nat) : Option Refuse :=
  (((boundQueues m p port).filter (qLive m p ·)).map (qBerth m p ·)).eraseDups.findSome? fun b =>
    let k := b * 64 + port
    let rate := cfg m p 0x6200 2 k
    let sum := ((boundQueues m p port).filter fun q => qLive m p q && qBerth m p q == b).foldl (fun s q => s + committedPeak m p q) 0
    if rate ≠ 0xFFFFFFFF ∧ rate < sum then
      some { status := 0x4003, addr := { idx := 0x6200, sub := 2, isElem := true, elem := k }, vals := [b, port, rate, sum] }
    else none

/-- The committed peak rates of diverted queues that a proof counts: with their rates lowered, what they still hold for service does not count
against the budget (R24, R376). -/
def servedOut (m : Mod) (p : Tbl Val) (b : Nat) : Bool := diverting m p b && !diverting m [] b

/-- Condition 4: bank demand and masked budget, each only where the COMMIT would raise it (R353, R369, R539); then the park
cap (R658). -/
def condFour (m : Mod) (p : Tbl Val) : Option Refuse :=
  ((List.range 8).findSome? fun k =>
    let d := bankDemand m p k
    let cap := 160000000 * (notRetired (bank m k) - 1)
    if cap < d ∧ bankDemand m [] k < d then some { status := 0x4003, vals := [k, d, cap, 0] } else none) <|>
  ((List.range 4).findSome? fun b =>
    let d := if servedOut m p b then maskedHa m p b + (divertedQueues m p b).foldl (fun s q => s + qPeak m p q) 0 else maskedCommit m p b
    if 48000000 < d ∧ maskedCommit m [] b < d then some { status := 0x4003, vals := [b, d, 48000000, 0] } else none) <|>
  ((List.range 2).findSome? fun h =>
    let d := parkCommit m p h
    if 200000000 < d ∧ parkCommit m [] h < d then some { status := 0x4003, vals := [h, d, 200000000, 0] } else none)

/-- The ports a pending set's changes affect (R534). -/
def affectedPorts (m : Mod) (p : Tbl Val) : List Nat :=
  let both (idx sub e : Nat) : List Nat := [cfg m p idx sub e, cfg m [] idx sub e]
  let qs (q : Nat) : List Nat := both 0x6000 3 q
  let assocPorts (a : Nat) : List Nat := both 0x4000 4 a ++ ((both 0x4000 9 a).flatMap qs)
  let named (l : Nat) : List Nat := ((elems m p 0x4000 4).filter fun a => (both 0x4000 4 a).contains l).flatMap assocPorts
  ((p.flatMap fun e =>
    let k := e.1 / 2 ^ 32
    let idx := k / 256
    let sub := k % 256
    let el := e.1 % 2 ^ 32
    if idx = 0x6000 then qs el
    else if idx = 0x6200 then [el % 64]
    else if idx = 0x6100 ∨ idx = 0x6800 then [el]
    else if idx = 0x6810 then [el / 1024]
    else if idx = 0x3100 ∧ (sub = 1 ∨ sub = 2) then el :: named el
    else if idx = 0x4000 ∧ [1, 2, 4, 5, 9].contains sub then assocPorts el
    else if idx = 0x4210 then (List.range 16).map (el * 16 + ·)
    else []).eraseDups).filter (· < 64)

/-- The bound proof of a COMMIT: the first failing condition in the order of R535, over the ports affected in ascending
order. -/
def boundProof (m : Mod) (p : Tbl Val) (g : Nat → Gate) : Option Refuse :=
  let ports := (List.range 64).filter (affectedPorts m p).contains
  (ports.findSome? (condOne m p g)) <|> (ports.findSome? (condTwo m p g)) <|> (ports.findSome? (condThree m p)) <|> condFour m p

/-! ### Diversion -/

/-- What DIVERT makes of the diverted queues of a basin (R376): each with its new rate or CIR and PIR, scaled to what the masked engine has
left, and 0 where the bound cannot be proved at the masked latency. -/
def divertedRates (m : Mod) (p : Tbl Val) (g : Nat → Gate) (b : Nat) : List (Nat × Nat × Nat) :=
  let qs := divertedQueues m p b
  let room := 48000000 - maskedHa m p b
  let sum := qs.foldl (fun s q => s + committedPeak m p q) 0
  let scale (v : Nat) : Nat := if room < sum then v * room / sum else v
  qs.map fun q =>
    let r := scale (qRate m p q)
    let port := qPort m p q
    if unitDebit m p port (g port) (qClass m p q) ≤ backlogLimit m p (g port) q r 0 then (q, r, scale (cfg m p 0x6000 9 q)) else (q, 0, 0)

/-- A pending set with the rates that DIVERT gives in the basins where the COMMIT puts it in force (R373, R376). -/
def withDivert (m : Mod) (p : Tbl Val) (g : Nat → Gate) : Tbl Val :=
  ((List.range 4).filter fun b => diverting m p b && !diverting m [] b).foldl (fun t b =>
    (divertedRates m p g b).foldl (fun t x =>
      let put (t : Tbl Val) (sub v : Nat) : Tbl Val := tins (okey 0x6000 sub x.1) (.nat v) (tdel t (okey 0x6000 sub x.1))
      put (put t 7 x.2.1) 9 x.2.2) t) p

/-- The rate or CIR a queue is admitted against: the committed rate, or under Throttle its share of it, or 0 when the bound
cannot then be proved (R870). -/
def admRate (m : Mod) (q : Nat) : Nat :=
  let r := qRate m [] q
  if throttled m (qBasin q) then
    let t := r * inf m 0x9000 6 0 / 100
    let port := qPort m [] q
    if backlogLimit m [] (gate m port) q t 0 < unitDebit m [] port (gate m port) (qClass m [] q) then 0 else t
  else r

/-- The PIR that goes with it. -/
def admPir (m : Mod) (q : Nat) : Nat :=
  if throttled m (qBasin q) then (if admRate m q = 0 then 0 else cfg m [] 0x6000 9 q * inf m 0x9000 6 0 / 100) else cfg m [] 0x6000 9 q

/-- The backlog limit in force of a queue (R470, R530), for a time already held in 0.1 ns. -/
def limitOf (m : Mod) (q held : Nat) : Nat :=
  if !qLive m [] q ∨ 64 ≤ qPort m [] q then 0 else backlogLimit m [] (gate m (qPort m [] q)) q (admRate m q) held

end Sys2Proof.Machine
end

