-- ==== Sys2Proof/Machine/Wire.lean ====
section
/-! DEFINITION. What the module reads and writes in a frame: tags and destination address (R391, R420), the SecTAG (R214 to R221,
R229), PTP messages and their correctionField (R582 to R589). -/

namespace Sys2Proof.Machine

/-! ### Tags and addresses -/

/-- What the classifier reads of a frame's tags (R390, R391): untagged, VID, EtherType, and where the header after it begins. -/
structure Tags where
  untagged : Bool
  vid : Nat
  ethertype : Nat
  off : Nat
  deriving DecidableEq, Repr

/-- At most two tags are read (R391). -/
def tagsOf (b : Octets) : Tags :=
  let t := natAt b 12 2
  if t = 0x8100 ∨ t = 0x88A8 then
    let two := natAt b 16 2 == 0x8100
    { untagged := false, vid := natAt b 14 2 % 4096, ethertype := natAt b (if two then 20 else 16) 2, off := if two then 22 else 18 }
  else { untagged := true, vid := 0, ethertype := t, off := 14 }

/-- The destination address of an IPv4 or IPv6 frame with a complete header (R420 step 3). -/
def ipDest (b : Octets) (t : Tags) : Option (Bool × Nat) :=
  if t.ethertype = 0x0800 ∧ t.off + 20 ≤ b.length then some (false, natAt b (t.off + 16) 4)
  else if t.ethertype = 0x86DD ∧ t.off + 40 ≤ b.length then some (true, natAt b (t.off + 24) 16)
  else none

/-! ### The SecTAG -/

/-- CONF and CLEAR_TAG of an association (R215, R216, R278). -/
def conf (m : Mod) (a : Nat) : Nat := bits (inf m 0x4000 5 a) 4 2
def clearTag (m : Mod) (a : Nat) : Bool := (inf m 0x4000 5 a).testBit 6

/-- Bytes left in clear by a CONF value; all of a frame's secure data with integrity only (R215, R218). -/
def clearBytes (c len : Nat) : Nat := if c = 0 then 0 else if c = 1 then 30 else if c = 2 then 50 else len

/-- A SecTAG as sent: EtherType, TCI and AN, SL, PN, and the SCI when SC is set (R214). -/
def secTagBytes (t : SecTag) : Octets :=
  b2 0x88E5 ++ b1 (bitAt t.v 7 + bitAt t.es 6 + bitAt t.sc 5 + bitAt t.scb 4 + bitAt t.e 3 + bitAt t.c 2 + t.an % 4) ++ b1 (t.sl % 64) ++ b4 t.pn ++
  (if t.sc then fit 8 t.sci else [])

/-- The SecTAG read from bytes that begin with its EtherType, and its length: 16 with an SCI, 8 without. -/
def secTagOf (b : Octets) : Option (SecTag × Nat) :=
  if natAt b 0 2 ≠ 0x88E5 ∨ b.length < 8 then none
  else
    let x := natAt b 2 1
    let sc := x.testBit 5
    if sc && b.length < 16 then none
    else some ({ v := x.testBit 7, es := x.testBit 6, sc, scb := x.testBit 4, e := x.testBit 3, c := x.testBit 2, an := x % 4,
                 sl := natAt b 3 1, pn := natAt b 4 4, sci := if sc then sub b 8 8 else [] }, if sc then 16 else 8)

/-- Check 1 of R229: a SecTAG is well formed for secure data of a length. -/
def wellFormedTag (t : SecTag) (len : Nat) : Bool :=
  !t.v && !t.es && (!t.c || t.e) &&
  (if len < 48 then t.sl == len else t.sl == 0)

/-- The SecTAG that a TX association puts on secure data of a length under its slot in force with a PN (R214). -/
def mkTag (m : Mod) (a len pn : Nat) : SecTag :=
  { e := conf m a != 3, c := conf m a != 3, an := inf m 0x4010 2 (a * 2 + (assoc m a).txPhase), sl := if len < 48 then len else 0,
    pn := pn % 2 ^ 32, sci := (look m [] 0x4000 6 a).toOct }

/-- The additional data of a protected frame: addresses, SecTAG, and what CONF leaves in clear (R215, R218). -/
def secAad (addresses : Octets) (t : SecTag) (c : Nat) (data : Octets) : Octets := addresses ++ secTagBytes t ++ data.take (clearBytes c data.length)

/-! ### PTP -/

/-- Where a frame carries a PTP message: the offset of its header and, for UDP, of the UDP header with the IP version. -/
structure PtpAt where
  off : Nat
  udp : Option (Nat × Nat) := none
  port : Nat := 0
  deriving DecidableEq, Repr

/-- A PTP message in a frame: EtherType 0x88F7 after at most two tags, or UDP to port 319 or 320 over IPv4, or over IPv6 without
extension headers (R582, R584). -/
def ptpAt (b : Octets) : Option PtpAt :=
  let t := tagsOf b
  if t.ethertype = 0x88F7 then some { off := t.off }
  else
    let udp (u ver : Nat) : Option PtpAt :=
      let p := natAt b (u + 2) 2
      if p = 319 ∨ p = 320 then some { off := u + 8, udp := some (u, ver), port := p } else none
    if t.ethertype = 0x0800 ∧ natAt b (t.off + 9) 1 = 17 ∧ natAt b (t.off + 6) 2 % 0x4000 = 0 then udp (t.off + natAt b t.off 1 % 16 * 4) 4
    else if t.ethertype = 0x86DD ∧ natAt b (t.off + 6) 1 = 17 then udp (t.off + 40) 6
    else none

/-- The messageType of a PTP message. -/
def ptpType (b : Octets) (x : PtpAt) : Nat := natAt b x.off 1 % 16

/-- A PTP event message the transparent clock acts on (R584). -/
def isPtpEvent (b : Octets) : Bool :=
  match ptpAt b with
  | some x => decide (ptpType b x ≤ 3) && (x.udp.isNone || x.port == 319)
  | none => false

/-- A Pdelay message: Pdelay_Req, Pdelay_Resp, Pdelay_Resp_Follow_Up (R589). -/
def isPdelay (b : Octets) : Bool :=
  match ptpAt b with
  | some x => [2, 3, 10].contains (ptpType b x)
  | none => false

/-- A PTP message addressed to the ordinary clock under its transport in force (R582, R615). -/
def forClock (m : Mod) (b : Octets) : Bool :=
  match ptpAt b with
  | none => false
  | some x =>
    let addr := (look m [] 0x7020 0x0A 0).toOct
    let t := tagsOf b
    match x.udp, inf m 0x7020 3 0 with
    | none, 0 => true
    | some (_, 4), 1 => sub b (t.off + 16) 4 == sub addr 0 4
    | some (_, 6), 2 => sub b (t.off + 24) 16 == fit 16 addr
    | _, _ => false

/-- Bytes written over others at an offset. -/
def patch (b : Octets) (off : Nat) (v : Octets) : Octets := b.take off ++ v ++ b.drop (off + v.length)

/-- A 16-bit one's complement sum folded. -/
def fold16 (n : Nat) : Nat := let a := n % 65536 + n / 65536; a % 65536 + a / 65536

/-- The correctionField raised by an amount in units of 2^-16 ns; an IPv4 UDP checksum becomes 0, an IPv6 one follows the change
(R585, R587). -/
def correct (b : Octets) (x : PtpAt) (amount : Int) : Octets :=
  let old := sub b (x.off + 8) 8
  let new := bytesOfInt 8 (intOf old + amount)
  let c := patch b (x.off + 8) new
  match x.udp with
  | none => c
  | some (u, 4) => patch c (u + 6) (b2 0)
  | some (u, _) =>
    let words (o : Octets) : List Nat := (List.range 4).map fun i => natAt o (2 * i) 2
    let s := (65535 - natAt b (u + 6) 2) + (words old).foldl (fun a w => a + (65535 - w)) 0 + (words new).foldl (· + ·) 0
    patch c (u + 6) (b2 (65535 - fold16 s))

/-- P2P acts on a port (R589, R590): it applies to clear ports and to line ports in line mode. -/
def p2pOn (m : Mod) (p : Nat) : Bool := infB m 0x7030 5 p && decide (p < 64) && (!isLine p || isGelix m p)

/-- The mean link delay of a P2P port added to a Sync that enters there (R589); 0x7030:06 is in 0.1 ns. -/
def linkCorrect (m : Mod) (port : Nat) (b : Octets) : Octets :=
  match ptpAt b with
  | some x => if p2pOn m port && ptpType b x == 0 then correct b x (inf m 0x7030 6 port * 65536 / 10 : Nat) else b
  | none => b

/-- A harbour's network time in units of 2^-16 ns. -/
def nowFine (m : Mod) (h : Nat) : Nat := (if h = 1 then m.time.c1.val else m.time.c0.val) / 65536

/-- The receive and transmit corrections of a port, 0.1 ns (R576); 64 and 65 are M0 and M1. -/
def corrections (m : Mod) (p : Nat) : Nat × Nat :=
  if 64 ≤ p then (384, 256)
  else if isGelix m p then (1312, 584)
  else match width m p with
    | 1 => (1428, 612)
    | 2 => (1476, 636)
    | 4 => (1524, 660)
    | 8 => (1620, 708)
    | _ => (0, 0)

/-- What lies between the lane boundary of a receive port and the point inside the PCS at which a stamp is taken, where the commands that bring frames
fall (log 9), in 0.1 ns: the port's correction and its deskew value (R575 to R577). -/
def rxPath (m : Mod) (p : Nat) : Nat := (corrections m p).1 + (port m p).deskew * 4

/-- The receive stamp of what reaches a port now, on the first or second T-clock edge of the cycle (R31, R575), in 2^-16 ns, and its cycle. -/
def stampFine (m : Mod) (p : Nat) (half : Bool) : Nat :=
  let c := if harbourOf p = 1 then m.time.c1 else m.time.c0
  (if half then (c.run 1).val / 65536 else nowFine m (harbourOf p)) - rxPath m p * 65536 / 10
def stampCycle (m : Mod) (p : Nat) : Nat := m.sys.elapsed - rxPath m p / 8

/-- The transmit stamp of what a port sends now (R576), in 2^-16 ns. -/
def sendFine (m : Mod) (p : Nat) : Nat := nowFine m (harbourOf p) + (corrections m p).2 * 65536 / 10

/-! ### The frame check sequence -/

/-- The remainder of CRC-32 of IEEE 802.3, reflected, over the bits of a byte that remain. -/
def crcBits : Nat → Nat → Nat
  | 0, c => c
  | n + 1, c => crcBits n (if c.testBit 0 then (c / 2) ^^^ 0xEDB88320 else c / 2)

/-- The frame check sequence that the egress clear port adds to a frame, as its four bytes go out (R113). -/
def fcsOf (b : Octets) : Octets :=
  ((bytesOf 4 ((b.foldl (fun c x => crcBits 8 (c ^^^ x.toNat)) 0xFFFFFFFF) ^^^ 0xFFFFFFFF))).reverse

end Sys2Proof.Machine
end

