-- ==== Sys2Proof/Machine/Queue.lean ====
section
/-! DEFINITION. Queues: debit, cells, admission (R464 to R472), buckets (R476 to R480), discards after acceptance (R23), drains
and deferred lowerings (R459, R490 to R499), and the scheduler (R485 to R489) with its gate tests (R515 to R524). -/

namespace Sys2Proof.Machine

/-! ### Debit and space -/

/-- The length overhead of a frame (R465); 65536 names no association. -/
def overheadOf (m : Mod) (q a : Nat) : Int :=
  let x := (look m [] 0x6000 0x0C q).toInt
  let port := qPort m [] q
  if x ≠ -128 then x
  else if !isLine port then 20
  else if gelixIn m [] port then (if isGcm (aSuite m a) then 36 else 4)
  else if isGcm (aSuite m a) then 52 else 20

/-- A frame's debit (R464). A negative overhead that exceeds the length gives 0 (DESIGN CHOICE, log 55). -/
def debitOf (m : Mod) (q a len : Nat) : Nat :=
  let x : Int := len + overheadOf m q a
  ceilDiv (x.toNat * scaleOf m [] (qPort m [] q)) 65536

/-- Cells and park bytes a frame takes (R471, R655). -/
def cellsFor (len : Nat) : Nat := ceilDiv (len + 16) 256
def parkFor (len : Nat) : Nat := ceilDiv (len + 16) 16 * 16

/-- The backlog of a queue in debit bytes. -/
def backlog (m : Mod) (q : Nat) : Nat := (queue m q).frames.foldl (fun s d => s + d.debit) 0

/-- Blocks of a frame are still inside a bank: waiting, in a pipeline or again in one, or under way in the masked engine (R328, R342, R370). -/
def Bank.inside (b : Bank) (now serial : Nat) : Bool :=
  b.jobs.any (·.serial == serial) || (b.flight.any fun f => f.blk.serial == serial && decide (now < f.cycle + 16)) ||
  b.engine.any fun x => x.job.serial == serial && decide (now < x.start + x.job.count * 16)

/-- A frame has its space still: it has not entered the bank, or its last block has not left it (R471, R655). -/
def holding (m : Mod) (d : Desc) : Bool := d.serial == 0 || (bank m (qBasin d.queue * 2)).inside m.sys.elapsed d.serial

/-- The frames that hold buffer space: in the queues, released, on their way to the lanes with blocks still in the crypto bank, and inbound frames
on their way out (R471). -/
def holders (m : Mod) : List Desc :=
  m.queues.flatMap (fun e => e.2.frames) ++
  (m.arbs.flatMap (fun e => e.2.released ++ e.2.egress) ++ m.tx.flatMap fun e => e.2.waiting.map (·.1) ++ e.2.curDesc.toList).filter (holding m)

/-- Cells held by frames that a test picks; park bytes likewise. -/
def cellsHeld (m : Mod) (f : Desc → Bool) : Nat := ((holders m).filter f).foldl (fun s d => s + d.cells) 0
def parkHeld (m : Mod) (f : Desc → Bool) : Nat := ((holders m).filter f).foldl (fun s d => s + d.parkBytes) 0

/-- The capacity of a basin for a shared resource 1 to 5 (R691); 6 is the park region in MiB. -/
def capacityOf (m : Mod) (basin r : Nat) : Nat :=
  match r with
  | 1 => 8192
  | 2 => 16384
  | 3 => 262144
  | 4 => 98304
  | 5 => 2080000000
  | _ => (List.range 16).foldl (fun s i =>
      let e := basin / 2 * 16 + i
      if inf m 0x8010 1 e = 1 ∧ inf m 0x8010 5 e = basin ∧ infB m 0x8010 7 e then s + inf m 0x8010 4 e else s) 0

/-- A berth's share of a resource in a basin; berth 0 has what the others leave (R691, R693). -/
def shareOf (m : Mod) (p : Tbl Val) (b basin r : Nat) : Nat :=
  if b = 0 then capacityOf m basin r - ((elems m p 0xA010 r).filter fun e => e % 4 == basin && 4 ≤ e).foldl (fun s e => s + cfg m p 0xA010 r e) 0
  else cfg m p 0xA010 r (b * 4 + basin)

/-! ### Buckets -/

/-- A bucket refilled for a number of cycles (R477, R480). -/
def refillBucket (tok : Int) (res rate burst cycles : Nat) : Int × Nat :=
  let num := rate * cycles + res
  let t := tok + (num / 10000000 : Nat)
  if (burst : Int) ≤ t then (burst, 0) else (t, num % 10000000)

/-- A bucket's tokens after a release: no less than −2^39 (R476, R477). -/
def debited (tok dt : Int) : Int := max (-(2 ^ 39 : Int)) (tok - dt)

/-- A queue's buckets brought up to now. -/
def refillQueue (m : Mod) (q : Nat) : Mod :=
  let x := queue m q
  let n := m.sys.elapsed - x.at_
  let (tc, rc) := refillBucket x.tokC x.resC x.rate (inf m 0x6000 8 q) n
  let (tp, rp) := refillBucket x.tokP x.resP x.pir (inf m 0x6000 0x0A q) n
  setQueue m q { x with tokC := tc, resC := rc, tokP := if qMode m [] q = 1 then tp else x.tokP, resP := if qMode m [] q = 1 then rp else x.resP, at_ := m.sys.elapsed }

/-- A berth node's bucket brought up to now (R486); its first use as a shaped node starts it with its burst (R476). -/
def refillNode (m : Mod) (k : Nat) : Mod :=
  let x := node m k
  if x.rate = 0xFFFFFFFF then (if x.at_ = m.sys.elapsed then m else setNode m k { x with at_ := m.sys.elapsed })
  else if !x.started then setNode m k { x with started := true, tokens := inf m 0x6200 3 k, residue := 0, at_ := m.sys.elapsed }
  else
    let (t, r) := refillBucket x.tokens x.residue x.rate (inf m 0x6200 3 k) (m.sys.elapsed - x.at_)
    setNode m k { x with tokens := t, residue := r, at_ := m.sys.elapsed }

/-- The tier a queue's shaper allows: 0 none, 1 committed, 2 excess (R478, R479). -/
def tierOf (m : Mod) (q : Nat) : Nat :=
  let x := queue m q
  if qMode m [] q = 1 then (if x.tokP < 0 then 0 else if x.tokC < 0 then 2 else 1) else if x.tokC < 0 then 0 else 1

/-! ### Rates -/

/-- The service rates switch to the rates committed for admission; tokens and residue carry over (R491, R494). -/
def switchRates (m : Mod) (q : Nat) : Mod :=
  let m1 := refillQueue m q
  setQueue m1 q { queue m1 q with rate := admRate m q, pir := if qMode m [] q = 1 then admPir m q else 0, lowering := false }

/-- RATE_LOWERING_APPLIED: the first edge with the backlog at or below the new limit (R492, R496): event 0x6002. -/
def applyLowering (m : Mod) (q : Nat) : Mod :=
  if (queue m q).lowering ∧ backlog m q ≤ limitOf m q 0 then
    let m1 := switchRates m q
    let x := queue m1 q
    raise m1 0x6002 (srcH (q / 16384)) (bpidOf m (qBerth m [] q)) (b2 q ++ b4 x.rate ++ b4 x.pir ++ bytesOfInt 8 x.tokC)
  else m

/-- New admission rates meet the rates in force for service (R491 to R493): applied at once, or deferred with event 0x6001. -/
def retarget (m : Mod) (q : Nat) : Mod :=
  let x := queue m q
  let rate := admRate m q
  let pir := if qMode m [] q = 1 then admPir m q else 0
  if x.rate ≤ rate ∧ x.pir ≤ pir then switchRates m q
  else if backlog m q ≤ limitOf m q 0 then switchRates m q
  else
    let m1 := setQueue m q { x with lowering := true }
    raise m1 0x6001 (srcH (q / 16384)) (bpidOf m (qBerth m [] q)) (b2 q ++ b4 rate ++ b4 pir ++ b4 x.rate ++ b4 x.pir)

/-- Whether a rate lowering of a queue would be deferred (R492, R782). -/
def defers (m : Mod) (q : Nat) : Bool :=
  let x := queue m q
  !(decide (x.rate ≤ admRate m q) && decide (x.pir ≤ (if qMode m [] q = 1 then admPir m q else 0))) && decide (limitOf m q 0 < backlog m q)

/-- The rates in force for service: those a queue in service has been given; without a backlog every change is in force on its edge (R491, R492). -/
def servedRate (m : Mod) (q : Nat) : Nat := if qLive m [] q then (queue m q).rate else admRate m q
def servedPir (m : Mod) (q : Nat) : Nat := if qLive m [] q then (queue m q).pir else if qMode m [] q = 1 then admPir m q else 0

/-- A drained queue becomes disabled in force: event 0x6003 (R459); what its last release or discard leaves ends a lowering first (R499). -/
def drained (m0 : Mod) (q : Nat) : Mod :=
  let m := applyLowering m0 q
  let x := queue m q
  if x.draining ∧ x.frames = [] then
    raise (setQueue m q { x with draining := false, rate := 0, pir := 0 }) 0x6003 (srcH (q / 16384)) (bpidOf m (qBerth m [] q)) (b2 q)
  else m

/-- The queues of a berth node. -/
def nodeQueues (m : Mod) (k : Nat) : List Nat := (boundQueues m [] (k % 64)).filter fun q => qBerth m [] q == k / 64

/-- Every queue of a node is at or below its limit. -/
def nodeFits (m : Mod) (k : Nat) : Bool := (nodeQueues m k).all fun q => decide (backlog m q ≤ limitOf m q 0)

/-- A berth node takes its committed rate; a node that becomes shaped starts its bucket with its burst (R476, R486). -/
def startNode (m : Mod) (k : Nat) : Mod :=
  let r := inf m 0x6200 2 k
  setNode m k { node m k with rate := r, started := r != 0xFFFFFFFF, tokens := if r = 0xFFFFFFFF then 0 else inf m 0x6200 3 k, residue := 0,
                              at_ := m.sys.elapsed, lowering := false }

/-- BERTH_NODE_LOWERING_APPLIED: event 0x6004 (R497). -/
def applyNodeLowering (m : Mod) (k : Nat) : Mod :=
  if (node m k).lowering ∧ nodeFits m k then
    let m1 := refillNode m k
    let r := inf m 0x6200 2 k
    let m2 := if (node m1 k).rate = 0xFFFFFFFF then startNode m1 k else setNode m1 k { node m1 k with rate := r, lowering := false }
    raise m2 0x6004 (srcH (harbourOf (k % 64))) (bpidOf m (k / 64)) (b1 (k / 64) ++ b1 (k % 64) ++ b4 r)
  else m

/-- What a discard leaves settles at once: a lowering that now fits, and a drain that is done (R499, R709). -/
def settle (m : Mod) (q : Nat) : Mod := drained m q

/-! ### Discards after acceptance -/

/-- A frame is on the wire: its first bit has crossed the egress lane boundary. -/
def crossed (m : Mod) (d : Desc) : Bool := decide (d.startAt ≤ m.sys.elapsed)

/-- The accepted frames that a test picks, counted by queue under a cause of 0x6020. -/
def countDiscards (m : Mod) (sub : Nat) (ds : List Desc) : Mod := ds.foldl (fun m d => bump m 0x6020 sub d.queue 1) m

/-- Accepted frames discarded (R22, R23): those a test picks, wherever they sit, but for frames on the wire, and for the
record begun on a Gelix port unless `cut`; each is counted under the cause. -/
def discardFrames (m : Mod) (f : Desc → Bool) (cut : Bool) (sub : Nat) : Mod × Nat :=
  let inQ := m.queues.flatMap fun e => e.2.frames.filter f
  let rel := m.arbs.flatMap fun e => e.2.released.filter f
  let out := m.arbs.flatMap fun e => e.2.egress.filter fun d => f d && !crossed m d
  let wait := m.tx.flatMap fun e => (e.2.waiting.map (·.1)).filter f
  let begun := if cut then m.tx.filterMap (fun e => match e.2.curDesc with
    | some d => if f d then some d else none
    | none => none) else []
  let gone := inQ ++ rel ++ out ++ wait ++ begun
  let qs := (gone.map (·.queue)).eraseDups
  let m1 : Mod := { m with
    queues := tmap {} (fun x => { x with frames := x.frames.filter fun d => !f d }) m.queues
    arbs := tmap {} (fun x => { x with released := x.released.filter (fun d => !f d),
                                        egress := x.egress.filter fun d => !f d || crossed m d }) m.arbs
    tx := tmap {} (fun x =>
      let w := { x with waiting := x.waiting.filter fun y => !f y.1 }
      match x.curDesc with
      | some d => if cut && f d then { w with cur := [], curDesc := none } else w
      | none => w) m.tx }
  (qs.foldl settle (countDiscards m1 sub gone), gone.length)

/-- Every accepted frame of a basin discarded under a cause of 0x6020: 4 Quiesce, 5 Zeroize or Retire (R871, R875). -/
def discardBasin (m : Mod) (b sub : Nat) : Mod := (discardFrames m (fun d => qBasin d.queue == b) false sub).1

/-- Every frame accepted for a port discarded as it goes down (R73 to R75), with the count. -/
def discardPort (m : Mod) (p : Nat) : Mod × Nat := discardFrames m (fun d => qPort m [] d.queue == p) true 3

/-- A frame parked in a basin's region; how many there are; their discard (R665). -/
def parked (m : Mod) (b : Nat) (d : Desc) : Bool := d.parkBytes != 0 && qBasin d.queue == b && holding m d
def parkedFrames (m : Mod) (b : Nat) : Nat := ((holders m).filter (parked m b)).length
def discardParked (m : Mod) (b : Nat) : Mod × Nat := discardFrames m (parked m b) false 4

/-- The rates of every enabled queue of a basin follow the Throttle that now applies or no longer does (R870, R873). -/
def throttleBasin (m : Mod) (b : Nat) : Mod :=
  ((elems m [] 0x6000 1).filter fun q => qBasin q == b && qLive m [] q).foldl retarget m

/-! ### Admission -/

/-- The line TX association of a Gelix port sends keyed frames (R91, R242). -/
def lineKeyed (m : Mod) (p : Nat) : Bool :=
  match boundAssoc m 3 p with
  | some a => txUsable m a && !(txOf m p).noKey
  | none => false

/-- A TX association can send (R241, R242). -/
def canSend (m : Mod) (a : Nat) : Bool :=
  (!isGcm (aSuite m a) || txUsable m a) && (aType m a != 5 || lineKeyed m (aPort m a))

/-- The blocks of a frame go through the masked engine (R368, R375). -/
def viaMasked (m : Mod) (a : Nat) : Bool := encrypts m [] a && (isHa m [] a || diverting m [] (aBasin a))

/-- The fall-back policy admits a frame (R375, R377): STOP admits none, and with source B failed neither an HA nor a diverted
frame is accepted. -/
def policyAdmits (m : Mod) (basin a : Nat) (rxHa : Bool) : Bool :=
  let e := entropyOf m (basin / 2)
  !(e.failA && inf m 0x4210 1 basin == 2) && !(e.failB && (rxHa || (a != 65536 && (sendsHa m [] a || divertsIn m [] a))))

/-- A basin's park region takes no frame: it is quiesced (R665), or its port is not ready (log 55). -/
def parkQuiesced (m : Mod) (b : Nat) : Bool :=
  (stow m (b / 2)).st != 2 ||
  (List.range 16).any fun i => (stow m (b / 2)).quiesced.contains i && inf m 0x8010 1 (b / 2 * 16 + i) == 1 && inf m 0x8010 5 (b / 2 * 16 + i) == b

/-- Admission to a queue is closed (check 1 of R469; R706, R871, R890, R975). -/
def closedQueue (m : Mod) (q : Nat) : Bool :=
  m.sys.state != 1 || m.sys.retired || !qEn m [] q || (queue m q).draining || admRate m q == 0 || quiesced m (qBasin q) ||
  (berth m (qBerth m [] q)).resetting || (qPark m [] q && parkQuiesced m (qBasin q))

/-- Check 1 of R469 would refuse every frame of a queue (R502): admission is closed, the policy admits none, or of all associations that give it frames
none can send or is admitted. -/
def refusesAll (m : Mod) (q : Nat) : Bool :=
  let out := fedAssocs m [] q
  let inn := rxNaming m [] q
  let b := qBasin q
  closedQueue m q || !policyAdmits m b 65536 false ||
  !(out.isEmpty && inn.isEmpty) && out.all (fun a => !canSend m a || !policyAdmits m b a false) && inn.all fun a => !policyAdmits m b 65536 (isHa m [] a)

/-- The first DEI bit of a frame: yellow when COLOUR_AWARE is set and its first tag carries DEI (R481). -/
def arrivesYellow (m : Mod) (q : Nat) (frame : Octets) : Bool :=
  (inf m 0x6000 0x0B q).testBit 0 && (natAt frame 12 2 == 0x8100 || natAt frame 12 2 == 0x88A8) && (natAt frame 14 2).testBit 12

/-- The subindex of 0x6010 that a frame not accepted counts under, by the checks of R469 in order; none when it is accepted. -/
def admitCheck (m : Mod) (d : Desc) (rxHa : Bool) : Option Nat :=
  let q := d.queue
  let port := qPort m [] q
  let out := d.assoc != 65536
  let lim := limitOf m q d.heldFor
  let g := gate m port
  let c := qClass m [] q
  let park := qPark m [] q
  let basin := qBasin q
  let b := qBerth m [] q
  if 64 ≤ port ∨ isLine port ≠ out ∨ basinOf port ≠ basinOf d.ingress ∨ basin ≠ basinOf d.ingress then some 0x0C
  else if closedQueue m q || (out && !canSend m d.assoc) || !policyAdmits m basin d.assoc rxHa then some 0x0C
  else if !(port < 64 && (Mod.ports m |> fun t => (tget ({} : Port) t port).up)) then some 0x0B
  else if ((fitLimit m [] port (banksOf g) c).map fun x => decide (x < d.debit)) = some true then some 0x0A
  else if d.yellow ∧ lim * inf m 0x6000 0x0E q < (backlog m q + d.debit) * 100 then some 7
  else if lim < backlog m q + d.debit then some 6
  else if park then
    if shareOf m [] b basin 6 * 1048576 < parkHeld m (fun x => qBasin x.queue == basin && x.berth == b) + d.parkBytes then some 8
    else if capacityOf m basin 6 * 1048576 < parkHeld m (fun x => qBasin x.queue == basin) + d.parkBytes then some 9 else none
  else if shareOf m [] b basin 4 < cellsHeld m (fun x => qBasin x.queue == basin && x.berth == b) + d.cells then some 8
  else if 98304 < cellsHeld m (fun x => qBasin x.queue == basin) + d.cells then some 9
  else none

/-- The slot numbers of a basin: frames taken outbound and inbound, frames released outbound and inbound. -/
def slotIn (basin : Nat) (out : Bool) : Nat := basin * 4 + b01 (!out)
def slotOut (basin : Nat) (out : Bool) : Nat := basin * 4 + 2 + b01 (!out)

/-- The first cycle from one on in which a basin and direction takes no other frame: one frame a D-clock cycle (R31). -/
def frameSlot (m : Mod) (k at_ : Nat) : Nat :=
  let used := tget [] m.slots k
  at_ + ((List.range (used.length + 1)).find? fun i => !used.contains (at_ + i)).getD 0

/-- A basin and direction takes a frame in a cycle; those that have passed are no longer kept. -/
def takeSlot (m : Mod) (k c : Nat) : Mod :=
  { m with slots := tset [] m.slots k ((tget [] m.slots k).filter (fun x => decide (m.sys.elapsed ≤ x + 1024)) ++ [c]) }

/-- The descriptor of a frame for a queue (R464, R471, R655, R704): the frame can be released when the part of its path's fixed latency before
admission is over (R26, R30), and it is delivered by its bound, counted from its ingress stamp (R20, R21). -/
def mkDesc (m : Mod) (bytes : Octets) (q a ingress stamp at_ heldFor : Nat) : Desc :=
  let len := bytes.length + 4
  let b := qBerth m [] q
  let park := qPark m [] q
  let out := a != 65536
  let slot := frameSlot m (slotIn (basinOf ingress) out) at_
  { bytes, queue := q, assoc := a, len, debit := debitOf m q a len, cells := if park then 0 else cellsFor len, yellow := arrivesYellow m q bytes,
    ingress, stamp, at_, berth := b, gen := (berth m b).gen, heldFor, masked := a != 65536 && viaMasked m a,
    parkBytes := if park then parkFor len else 0, slot, deadline := at_ + inf m 0x6000 0x0D q * 5 / 4
    ready := slot + (if heldFor = 0 then pathCycles m out (if out then qPort m [] q else ingress) - releasePart m (qPort m [] q) else 0) }

/-- A frame offered to its queue (R469 to R472): accepted behind the frames that wait, or not accepted and counted. -/
def offer (m : Mod) (d : Desc) (rxHa : Bool) : Mod :=
  match admitCheck m d rxHa with
  | none =>
    let m0 := takeSlot m (slotIn (basinOf d.ingress) (d.assoc != 65536)) d.slot
    let m1 := setQueue m0 d.queue { queue m0 d.queue with frames := (queue m0 d.queue).frames ++ [d] }
    bump (bump m1 0x6010 1 d.queue 1) 0x6010 2 d.queue d.debit
  | some sub =>
    let m1 := bump m 0x6010 sub d.queue 1
    let m2 := if sub = 0x0C ∧ d.assoc ≠ 65536 ∧ !canSend m d.assoc ∧ !closedQueue m d.queue then bump m1 0x4020 3 d.assoc 1 else m1
    if sub = 9 ∧ d.parkBytes = 0 then
      raiseOnce m2 0x6005 (qBasin d.queue) (srcH (d.queue / 16384)) 0 (b1 (qBasin d.queue) ++ b4 (cellsHeld m fun x => qBasin x.queue == qBasin d.queue))
    else m2

/-! ### Gates -/

/-- A harbour's network time in 0.1 ns. -/
def tenths (m : Mod) (h : Nat) : Nat := (if h = 1 then m.time.c1.val else m.time.c0.val) * 10 / 2 ^ 32

/-- The entries of a bank from an instant on the bank's time (0.1 ns) to the end of its cycle, then two more cycles (R513). -/
def entriesFrom (b : GBank) (t : Int) : List (Nat × Nat) :=
  let cyc := b.cycle * 10
  let pos := ((t - b.base * 10) % cyc).toNat
  let es := b.entries.map fun e => (e.1, e.2 * 10)
  let rest := (es.foldl (fun (acc : List (Nat × Nat) × Nat) e =>
    if acc.2 + e.2 ≤ pos then (acc.1, acc.2 + e.2)
    else (acc.1 ++ [(e.1, if acc.2 < pos then acc.2 + e.2 - pos else e.2)], acc.2 + e.2)) ([], 0)).1
  rest ++ es ++ es

/-- The first part of a list of entries, of a total duration. -/
def entriesUpTo : Nat → List (Nat × Nat) → List (Nat × Nat)
  | _, [] => []
  | n, (k, d) :: r => if n = 0 then [] else if n ≤ d then [(k, n)] else (k, d) :: entriesUpTo (n - d) r

/-- The gate entries of a port from a network time on (0.1 ns): the old cycle's rest and the fill after a step (R532), then the
list in force, cut by a swap at a known time (R519); from that time on the pending list (R516, R527). -/
def gateLine (g : Gate) (t : Nat) : List (Nat × Nat) :=
  let always := [(0xFF, 2 ^ 63)]
  let force : List (Nat × Nat) :=
    if !g.force.on then always
    else match g.rephase with
      | none => entriesFrom g.force t
      | some (shift, oldEnd, fillEnd) =>
        let old : Int := (t : Int) - shift * 10
        if old < oldEnd * 10 then
          entriesUpTo (oldEnd * 10 - old).toNat (entriesFrom g.force old) ++
            [(0xFF, ((fillEnd : Int) * 10 - ((oldEnd : Int) + shift) * 10).toNat)] ++ entriesFrom g.force (fillEnd * 10 : Nat)
        else if t < fillEnd * 10 then (0xFF, fillEnd * 10 - t) :: entriesFrom g.force (fillEnd * 10 : Nat)
        else entriesFrom g.force t
  match g.pend with
  | none => force
  | some b =>
    let next (u : Nat) : List (Nat × Nat) := if b.on then entriesFrom b (u : Nat) else always
    if g.swap * 10 ≤ t then next t else entriesUpTo (g.swap * 10 - t) force ++ next (g.swap * 10)

/-- A class is fitted at a network time (0.1 ns): in the bank in force up to a swap at a known time, and in the pending bank from then on. -/
def fitsAt (g : Gate) (c t : Nat) : Bool :=
  match g.pend with
  | some b => if g.swap * 10 ≤ t then b.fits c else g.force.fits c
  | none => g.force.fits c

/-- How long a class stays open from the start of a list of entries. -/
def openFor (c : Nat) : List (Nat × Nat) → Nat
  | [] => 0
  | (k, d) :: r => if k.testBit c then d + openFor c r else 0

/-- The times, from the start of a list of entries, at which a closed class opens. -/
def openings (c : Nat) : Bool → Nat → List (Nat × Nat) → List Nat
  | _, _, [] => []
  | was, t, (k, d) :: r => if k.testBit c && !was then t :: openings c (k.testBit c) (t + d) r else openings c (k.testBit c) (t + d) r

/-- The times, from a network time (0.1 ns) on, at which a fitted window of a port opens (R523). -/
def fittedOpenings (g : Gate) (t : Nat) : List Nat :=
  let es := gateLine g t
  (List.range 8).flatMap fun c => (openings c ((es.head?.map fun e => e.1.testBit c).getD false) 0 es).filter fun o => fitsAt g c (t + o)

/-- The gate of a class admits a frame whose transmission starts at a network time (0.1 ns) and lasts a time (R515, R519,
R522, R523). -/
def gateAdmits (g : Gate) (c t tx : Nat) : Bool :=
  let es := gateLine g t
  decide (0 < openFor c es) && (if fitsAt g c t then decide (tx ≤ openFor c es) else (fittedOpenings g t).all fun o => decide (tx ≤ o))

/-! ### The scheduler -/

/-- The release lead of a frame in D-clock cycles (R516). -/
def leadOf (m : Mod) (p : Nat) (masked : Bool) : Nat := releasePart m p + (if masked then 1920 else 0)

/-- The network time at which a frame released now starts on the lanes; with the gates disabled it decides nothing. -/
def startTenths (m : Mod) (p : Nat) (masked : Bool) : Nat := tenths m (harbourOf p) + leadOf m p masked * 8

/-- The masked engine of a bank can start a frame at once (R370). -/
def engineFree (m : Mod) (k : Nat) : Bool := decide ((bank m k).busy ≤ m.sys.elapsed)

/-- A queue is eligible in a tier (R30, R485, R370). -/
def eligible (m : Mod) (p q tier : Nat) : Bool :=
  match (queue m q).frames with
  | [] => false
  | d :: _ =>
    tierOf m q == tier && decide (d.ready ≤ m.sys.elapsed) &&
    (let k := qBerth m [] q * 64 + p
     (node m k).rate == 0xFFFFFFFF || decide (0 ≤ (node m k).tokens)) &&
    (!d.masked || engineFree m (qBasin q * 2)) &&
    (let g := gate m p
     if !g.force.on && g.pend.isNone then true
     else gateAdmits g (qClass m [] q) (startTenths m p d.masked) (bytesTime d.debit (paceRate m [] p)))

/-- DWRR among the members of a level (R488): the member picked, and the deficits after it; the number bounds the rounds. -/
def dwrr (members : List Nat) (weight : Nat → Nat) (ok : Nat → Bool) : Nat → Nat → (Nat → Int) → Option (Nat × (Nat → Int))
  | 0, _, _ => none
  | n + 1, cur, def_ =>
    let here := if members.contains cur then cur else (members.find? (cur < ·)).getD (members.headD 0)
    if ok here ∧ 0 < def_ here then some (here, def_)
    else
      let v := if ok here then def_ here + weight here * 64 else if 0 < def_ here then 0 else def_ here
      let next := (members.find? (here < ·)).getD (members.headD 0)
      dwrr members weight ok n next fun i => if i = here then v else def_ i

/-- Enough rounds for some eligible member's deficit to become positive. -/
def rounds (members : List Nat) (def_ : Nat → Int) : Nat :=
  (members.length + 1) * (3 + (members.foldl (fun a i => max a (def_ i).natAbs) 0) / 64)

/-- The deficit table of some members. -/
def saveDef (t : Tbl Int) (members : List Nat) (f : Nat → Int) : Tbl Int := members.foldl (fun t i => tset 0 t i (f i)) t

/-- What the arbiter picks: class and tier, berth and queue, with the DWRR state brought along (R487). -/
structure Pick where
  queue : Nat
  tier : Nat
  m : Mod

/-- The queue picked within a class and tier. -/
def pickIn (m : Mod) (p c tier : Nat) : Option Pick :=
  let qs := ((boundQueues m [] p).filter fun q => qClass m [] q == c).mergeSort (· ≤ ·)
  let a := arb m p
  let berths := ((qs.map (qBerth m [] ·)).eraseDups).mergeSort (· ≤ ·)
  let okB (b : Nat) : Bool := qs.any fun q => qBerth m [] q == b && eligible m p q tier
  let defB (b : Nat) : Int := tget 0 (node m (b * 64 + p)).deficits c
  match dwrr berths (fun b => inf m 0x6200 1 (b * 64 + p)) okB (rounds berths defB) (tget 0 a.berthCur c) defB with
  | none => none
  | some (b, defB') =>
    let m1 := berths.foldl (fun m i => setNode m (i * 64 + p) { node m (i * 64 + p) with deficits := tset 0 (node m (i * 64 + p)).deficits c (defB' i) }) m
    let mine := qs.filter fun q => qBerth m [] q == b
    let defQ (q : Nat) : Int := (queue m1 q).deficit
    match dwrr mine (fun q => inf m 0x6000 5 q) (fun q => eligible m p q tier) (rounds mine defQ) (tget 0 a.queueCur (b * 8 + c)) defQ with
    | none => none
    | some (q, defQ') =>
      let m2 := mine.foldl (fun m i => setQueue m i { queue m i with deficit := defQ' i }) m1
      some { queue := q, tier, m := setArb m2 p { arb m2 p with berthCur := tset 0 a.berthCur c b, queueCur := tset 0 a.queueCur (b * 8 + c) q } }

/-- The class 0 to 5 picked in a tier, then the queue. -/
def pickLow (m : Mod) (p tier : Nat) : Option Pick :=
  let a := arb m p
  let classes := (List.range 6).filter fun c => (boundQueues m [] p).any fun q => qClass m [] q == c
  let ok (c : Nat) : Bool := (boundQueues m [] p).any fun q => qClass m [] q == c && eligible m p q tier
  let d (c : Nat) : Int := tget 0 a.classDef c
  match dwrr classes (fun c => inf m 0x6100 (c + 1) p) ok (rounds classes d) a.classCur d with
  | none => none
  | some (c, d') =>
    pickIn (setArb m p { a with classCur := c, classDef := saveDef a.classDef classes d' }) p c tier

/-- The next frame of a port (R487). -/
def pickNext (m : Mod) (p : Nat) : Option Pick :=
  pickIn m p 7 1 <|> pickIn m p 7 2 <|> pickIn m p 6 1 <|> pickIn m p 6 2 <|> pickLow m p 1 <|> pickLow m p 2

/-- The blocks of a frame, tag mask included (R370). -/
def blocksOf (len : Nat) : Nat := ceilDiv len 16 + 1

/-- Active lanes of the masked engine of a bank (R366). -/
def Bank.activeLanes (b : Bank) : Nat :=
  ((List.range 6).filter fun i => (tget ({} : CUnit) b.lanes i).st == 0).length - b01 b.laneSpare.isSome

/-- The lanes of a bank's masked engine that take blocks: those in service but for the spare (R366). -/
def Bank.laneList (b : Bank) : List Nat := (List.range 6).filter fun i => (tget ({} : CUnit) b.lanes i).st == 0 && b.laneSpare != some i

/-- The cycle after an engine job's last round: rounds of 16 cycles, a block for each of its lanes (R370). -/
def EngineJob.done (x : EngineJob) : Nat := x.start + (if x.lanes.isEmpty then 0 else ceilDiv x.job.count x.lanes.length * 16)

/-- Some lanes of a bank's masked engine take the blocks of a job from a cycle on (R366, R370); blocks are counted in 0x4210:09 (R383). -/
def engineTakes (m : Mod) (k start : Nat) (lanes : List Nat) (j : Job) : Mod :=
  let b := bank m k
  let x : EngineJob := { start, lanes, job := j, masks := b.maskBlocks }
  bump (setBank m k { b with engine := (b.engine.filter fun y => decide (m.sys.elapsed ≤ y.done + 16)) ++ [x], maskBlocks := b.maskBlocks + j.count,
                             busy := max b.busy (x.done - 1) }) 0x4210 9 (k / 2) j.count

/-- The masked engine of a bank takes the blocks of a frame, from the next cycle (R370). -/
def takeEngine (m : Mod) (k : Nat) (j : Job) : Mod := engineTakes m k (m.sys.elapsed + 1) (bank m k).laneList j

/-- What the first client byte of a record follows its gate-tested time by, in fs (R518, R585): one Gelix frame time, for the client area leaves that
long after it is filled (DEDUCED, log 9), and the record's header of 8 bytes. -/
def recordFs (m : Mod) (p : Nat) : Nat := if gelixIn m [] p then frameFs (width m p) + frameFs (width m p) * 8 / 16384 else 0

/-- The residence time, in 2^-16 ns, that the transparent clock writes at release (R585). -/
def residence (m : Mod) (p : Nat) (d : Desc) : Int :=
  let h := harbourOf p
  (nowFine m h + leadOf m p d.masked * 262144 / 5 + recordFs m p * 65536 / 1000000 : Nat) - (d.stamp : Int)

/-- A released PTP event frame with its residence time added (R584, R585). -/
def timed (m : Mod) (p : Nat) (d : Desc) : Desc :=
  if infB m 0x7030 4 d.ingress && isPtpEvent d.bytes then
    match ptpAt d.bytes with
    | some x => { d with bytes := correct d.bytes x (residence m p d), ptp := true }
    | none => d
  else d

/-- D-clock cycles a frame of a length takes at a port's rate; on a Gelix port, those of the Gelix frame that carries its last byte (R21). -/
def wireCycles (m : Mod) (p len : Nat) : Nat :=
  if gelixIn m [] p then ceilDiv (frameFs (width m p)) 800000 else if paceRate m [] p = 0 then 0 else ceilDiv (len * 10000000) (paceRate m [] p)

/-- The cycles that the last bit of a frame takes to follow its first (R21): its bytes as they are on the line. -/
def carryCycles (m : Mod) (p : Nat) (d : Desc) : Nat := wireCycles m p (d.len + (if isLine p && isGcm (aSuite m d.assoc) then 32 else 0))

/-- The first cycle of a frame on the egress boundary when it could start there at a cycle: no earlier than its path's fixed latency allows,
and early enough for its bound (R20, R22, R26). A command that reaches the model later than the module's own arbiter would have acted is
taken to have acted in time (log 9). -/
def startOf (m : Mod) (p : Nat) (d : Desc) (at_ : Nat) : Nat :=
  max (d.ready + leadOf m p d.masked) (min at_ (d.deadline - carryCycles m p d))

/-- How long the arbiter of a port can wait and still deliver every frame at the head of its queues in its bound (R22). -/
def slackOf (m : Mod) (p : Nat) : Option Nat :=
  (boundQueues m [] p).foldl (fun a q =>
    match (queue m q).frames with
    | [] => a
    | d :: _ =>
      let t := max d.ready (d.deadline - carryCycles m p d - leadOf m p d.masked) - m.sys.elapsed
      some (a.elim t (min t))) none

/-- The cycles that FRAME_RELEASE waits when it is given a wait: no more than leaves every frame at the head of a queue its bound (R22; log 9), and
no less than the basin and direction need (R31). -/
def waitOf (m : Mod) (p waited : Nat) : Nat :=
  max ((slackOf m p).elim waited (min waited)) (frameSlot m (slotOut (basinOf p) (isLine p)) m.sys.elapsed - m.sys.elapsed)

/-- FRAME_RELEASE: after a wait, which no frame's bound is exceeded for, the arbiter of an up port picks a frame whose turn the pacing timeline
has reached, and releases it, one frame a D-clock cycle for a basin and direction (R22, R31, R468, R477, R483, R487 to R489). -/
def releaseFrame (m0 : Mod) (p waited : Nat) : Mod :=
  let slot := slotOut (basinOf p) (isLine p)
  let m := advance m0 (waitOf m0 p waited)
  let a := arb m p
  if !(m.sys.running && (tget ({} : Port) m.ports p).up) || (isLine p && !isGelix m p && quiesced m (basinOf p)) || m.sys.elapsed * 800000 < a.pace then m
  else
    let bound := boundQueues m [] p
    let m1 := bound.foldl refillQueue m
    let m2 := ((bound.map fun q => qBerth m [] q * 64 + p).eraseDups).foldl refillNode m1
    match pickNext m2 p with
    | none => m2
    | some k =>
      let x := queue k.m k.queue
      match x.frames with
      | [] => m2
      | d :: rest =>
        let dt : Int := d.debit
        let mode1 := qMode k.m [] k.queue = 1
        let m3 := setQueue k.m k.queue { x with frames := rest, tokC := debited x.tokC dt, tokP := if mode1 then debited x.tokP dt else x.tokP, deficit := x.deficit - dt }
        let nk := d.berth * 64 + p
        let c := qClass m [] k.queue
        let nd := node m3 nk
        let m4 := setNode m3 nk { nd with tokens := if nd.rate = 0xFFFFFFFF then nd.tokens else debited nd.tokens dt,
                                          deficits := tset 0 nd.deficits c (tget 0 nd.deficits c - dt) }
        let b := arb m4 p
        let start := startOf m p d (m.sys.elapsed + leadOf m p d.masked)
        let d' := timed m p { d with excess := k.tier == 2, startAt := start }
        let old := d.gen ≠ (berth m d.berth).gen
        let m5 := setArb m4 p { b with pace := max b.pace (m.sys.elapsed * 800000) + ceilDiv (d.debit * 8000000000000) (paceRate m [] p),
                                       classDef := if c ≤ 5 then tset 0 b.classDef c (tget 0 b.classDef c - dt) else b.classDef,
                                       released := if old ∨ !isLine p then b.released else b.released ++ [d'],
                                       egress := if old ∨ isLine p then b.egress else b.egress ++ [d'] }
        let m6 := if d.masked ∧ isLine p then takeEngine m5 (basinOf p * 2) { key := suiteKey (aSuite m5 d.assoc) ((assoc m5 d.assoc).slot (assoc m5 d.assoc).txPhase).key, data := d.bytes.drop 12, count := blocksOf d.len } else m5
        let m7 := takeSlot m6 slot m.sys.elapsed
        if old then countDiscards m7 6 [d] else bump m7 0x6010 (if k.tier = 2 then 5 else 4) k.queue 1

end Sys2Proof.Machine
end

