-- ==== Sys2Proof/Machine/Gates.lean ====
section
/-! DEFINITION. Gate control lists: the pending bank, the swap and its deferral, entry changes, and re-phasing after a step
(R508 to R533). -/

namespace Sys2Proof.Machine

/-- The pending bank as committed (R509). -/
def pendingBank (m : Mod) (p : Tbl Val) (port : Nat) : GBank :=
  let n := cfg m p 0x6800 5 port
  { on := cfg m p 0x6800 1 port != 0, cycle := cfg m p 0x6800 2 port, base := cfg m p 0x6800 3 port,
    entries := (List.range n).map fun i => (cfg m p 0x6810 1 (port * 1024 + i), cfg m p 0x6810 2 (port * 1024 + i)),
    fitted := cfg m p 0x6800 6 port, limits := (look m p 0x6800 8 port).toOct }

/-- The first boundary of a bank at or after a time, ns (R513). -/
def GBank.boundary (b : GBank) (t : Nat) : Nat :=
  if b.cycle = 0 then t
  else (((b.base : Int) % b.cycle) + -((-((t : Int) - (b.base : Int) % b.cycle)) / b.cycle) * b.cycle).toNat

/-- The first candidate S of a pending bank at or after a time (R526). -/
def swapCandidate (force pend : GBank) (t : Nat) : Nat :=
  if pend.on then pend.boundary t else if force.on then force.boundary t else t

/-- The candidate S of a port's pending bank at or after a time; one that falls inside a re-phasing fill moves past it (R526, R532). -/
def candidate (g : Gate) (pend : GBank) (t : Nat) : Nat :=
  let s := swapCandidate g.force pend t
  match g.rephase with
  | some (shift, oldEnd, fillEnd) =>
    if g.force.on ∧ (oldEnd : Int) + shift ≤ s ∧ s < fillEnd then swapCandidate g.force pend fillEnd else s
  | none => s

/-- IMMEDIATE of a pending bank (R545). -/
def gateImmediate (m : Mod) (p : Tbl Val) (port : Nat) : Bool := (cfg m p 0x6800 7 port).testBit 0

/-- The gates of a port with a pending bank committed at a network time (R526, R528). -/
def withPending (m : Mod) (p : Tbl Val) (port : Nat) : Gate :=
  let g := gate m port
  let b := pendingBank m p port
  let conf := if gateImmediate m p port then 0 else cfg m p 0x6800 4 port
  { g with pend := some b, conf, swap := candidate g b (max (nowH m (harbourOf port)) conf), deferred := false }

/-- The bank comes into force at S: event 0x6010 (R527). -/
def doSwap (m : Mod) (port : Nat) : Mod :=
  let g := gate m port
  match g.pend with
  | none => m
  | some b =>
    let h := harbourOf port
    raise (setGate m port { g with force := b, pend := none, swap := 0, conf := 0, deferred := false, swaps := satAdd 32 g.swaps 1, rephase := none })
      0x6010 (srcH h) 0 (b1 port ++ timeBytes g.swap ++ b1 (b01 (synced m h)) ++ b1 (b01 b.on))

/-- The backlog limit of a queue for the pending bank of its port and for the seam, the lower of the two (R530, R531, R538). -/
def pendingLimit (m : Mod) (port q : Nat) : Nat :=
  let g := gate m port
  let c := qClass m [] q
  let fit := fitLimit m [] port (banksOf g) c
  match g.pend with
  | none => limitOf m q 0
  | some b =>
    let was := classTerms m [] port g.force fit c
    let next := classTerms m [] port b fit c
    let limit (gap beta : Nat) : Nat := backlogFor m [] q (admRate m q) 0 (gap + beta + dwrrWait m [] port q)
    if !qLive m [] q then 0
    else match was.gap, next.gap with
      | some x, some y => min (limit y next.beta) (limit (x + next.first) (max was.beta next.beta))
      | _, _ => 0

/-- A queue of the port whose backlog exceeds its limit for the pending bank and the seam (R531). -/
def overLimit (m : Mod) (port : Nat) : Option Nat :=
  (boundQueues m [] port).find? fun q => decide (pendingLimit m port q < backlog m q)

/-- GATE_SWAP: at S the bank comes into force, or the swap moves to the next candidate with event 0x6011 once (R527, R531). -/
def gateSwap (m0 : Mod) (port : Nat) : Mod :=
  let g := gate m0 port
  match g.pend with
  | none => m0
  | some b =>
    let m := advanceToNet m0 (harbourOf port) g.swap
    match overLimit m port with
    | none => doSwap m port
    | some q =>
      let next := candidate g b (g.swap + 1)
      let m1 := setGate m port { g with swap := next, deferred := true }
      if g.deferred then m1 else raise m1 0x6011 (srcH (harbourOf port)) (bpidOf m (qBerth m [] q)) (b1 port ++ b2 q ++ timeBytes next)

/-- A committed pending bank (R526, R528); with neither bank enabled it swaps on the COMMIT edge. -/
def commitBank (m : Mod) (port : Nat) : Mod :=
  let g := withPending m [] port
  let m1 := setGate m port g
  if !g.force.on ∧ !(g.pend.map (·.on)).getD false then doSwap (setGate m1 port { g with swap := nowH m (harbourOf port) }) port else m1

/-- The time left of the entry in force, 0.1 ns; none while the gates are disabled and no bank is pending. -/
def entryRest (m : Mod) (port : Nat) : Option Nat :=
  let g := gate m port
  if !g.force.on then none else ((gateLine g (tenths m (harbourOf port))).head?).map (·.2)

/-- GATE_ENTRY_CHANGE: time runs to the start of the next entry of the list in force (R513). -/
def nextEntry (m : Mod) (port : Nat) : Mod :=
  match entryRest m port with
  | none => m
  | some r => advanceToNet m (harbourOf port) (ceilDiv (tenths m (harbourOf port) + r) 10)

/-- The entry in force and the open classes (R546); the fill shows the last entry with every gate open. -/
def entryNow (m : Mod) (port : Nat) : Nat × Nat × Bool :=
  let g := gate m port
  let t := nowH m (harbourOf port)
  let at_ (x : Int) : Nat × Nat :=
    let pos := ((x - g.force.base) % g.force.cycle).toNat
    let r := g.force.entries.foldl (fun (acc : Nat × Nat × Nat × Bool) e =>
      if acc.2.2.2 then acc else if acc.2.1 + e.2 ≤ pos then (acc.1 + 1, acc.2.1 + e.2, acc.2.2.1, false) else (acc.1, acc.2.1, e.1, true)) (0, 0, 0, false)
    (r.1, r.2.2.1)
  if !g.force.on then (0, 0xFF, false)
  else match g.rephase with
    | none => ((at_ t).1, (at_ t).2, false)
    | some (shift, oldEnd, fillEnd) =>
      if (t : Int) - shift < oldEnd then ((at_ (t - shift)).1, (at_ (t - shift)).2, false)
      else if t < fillEnd then (0, 0xFF, true) else ((at_ t).1, (at_ t).2, false)

/-- The end of the cycle in progress and the shift that holds at a network time: an earlier re-phasing still finishes its cycle
on elapsed time, and inside its fill the cycle has ended (R532). -/
def cycleEnd (g : Gate) (t : Nat) : Int × Nat :=
  match g.rephase with
  | some (shift, oldEnd, fillEnd) =>
    if (t : Int) - shift < oldEnd then (shift, oldEnd) else if t < fillEnd then (0, t) else (0, g.force.boundary (t + 1))
  | none => (0, g.force.boundary (t + 1))

/-- A step of a harbour's counter re-phases a port's gates: event 0x6012 (R532). -/
def gateStep (m : Mod) (port old new : Nat) : Mod :=
  let g := gate m port
  let step : Int := (new : Int) - old
  let shift := step + (cycleEnd g old).1
  let oldEnd := (cycleEnd g old).2
  let from_ := ((oldEnd : Int) + shift).toNat
  let fillEnd := g.force.boundary from_
  let g1 := if g.force.on then { g with rephase := some (shift, oldEnd, fillEnd) } else g
  let g2 := match g.pend with
    | none => g1
    | some b => { g1 with swap := candidate g1 b (max new g.conf) }
  let m1 := setGate m port g2
  if g.force.on then raise m1 0x6012 (srcH (harbourOf port)) 0 (b1 port ++ bytesOfInt 8 step ++ b4 ((fillEnd - from_) / 1000)) else m1

end Sys2Proof.Machine
end

