-- ==== Sys2Proof/Machine/Pipeline.lean ====
section
/-! DEFINITION. A block on its way through a pipeline or a masked lane: sixteen stages with predicted parity at every one (R328, R329, R336 to
R338), the shuffled and rewired S-box instances (R358, R359), and the two shares of the masked engine (R366, R367). A pipeline carries one
share of a block, a masked lane two, whose exclusive or is the block. -/

namespace Sys2Proof.Machine

/-! ### Parity -/

/-- The parity of a byte: 1 for an odd number of ones. -/
def oddByte (b : Nat) : Bool := popCount 8 b % 2 == 1

/-- The parities of the bytes of a block or round key, byte 0 in the top bit of 16; of byte i of them; and parities given by position. -/
def parBits (f : Nat → Bool) : Nat := (List.range 16).foldl (fun a i => a * 2 + b01 (f i)) 0
def parityOfBlock (x : Nat) : Nat := parBits fun i => oddByte (byteAt x i)
def parAt (p i : Nat) : Bool := p.testBit (15 - i)

/-- ShiftRows takes the parities along with their bytes. -/
def predShift (p : Nat) : Nat := parBits fun i => parAt p (shiftFrom i)

/-- MixColumns: from the parities of the input bytes and their most significant bits, since doubling a byte drops that bit and adds an even
number of ones in its place. -/
def predMix (x p : Nat) : Nat :=
  let at_ (i k : Nat) : Nat := i / 4 * 4 + (i + k) % 4
  let top (i : Nat) : Bool := decide (128 ≤ byteAt x i)
  parBits fun i => parAt p (at_ i 0) ^^ top (at_ i 0) ^^ top (at_ i 1) ^^ parAt p (at_ i 2) ^^ parAt p (at_ i 3)

/-- The parities of four words of a round key under the exclusive ors of the key schedule, of words of four parities. -/
def predChain (old t : Nat) : Nat :=
  let w (i : Nat) : Nat := (old >>> (4 * (3 - i))) % 16
  let w0 := w 0 ^^^ t
  let w1 := w 1 ^^^ w0
  let w2 := w 2 ^^^ w1
  ((w0 * 16 + w1) * 16 + w2) * 16 + (w 3 ^^^ w2)

/-- The parities of a word's four bytes. -/
def parityOfWord (w : Nat) : Nat := (List.range 4).foldl (fun a j => a * 2 + b01 (oddByte ((w >>> (8 * (3 - j))) % 256))) 0

/-! ### S-box instances -/

/-- The permutation of 16 numbers that a wiring choice stands for: in the factorial base, from the numbers that are left. -/
def permOf : Nat → Nat → List Nat → List Nat
  | 0, _, _ => []
  | n + 1, c, left => left.getD (c % (n + 1)) 0 :: permOf n (c / (n + 1)) (left.eraseIdx (c % (n + 1)))

/-- How a block's bytes are placed on the S-box instances: the pipeline's wiring choice and the block's shuffle draw of 84 bits. -/
structure Shuffle where
  wiring : Nat := 0
  draw : Nat := 0
  deriving DecidableEq, Repr

/-- The draw's values for round stage r: four bits for the state, two for the key schedule (R358). -/
def Shuffle.stateShift (s : Shuffle) (r : Nat) : Nat := bits s.draw (6 * (r - 1)) 4
def Shuffle.keyShift (s : Shuffle) (r : Nat) : Nat := bits s.draw (6 * (r - 1) + 4) 2

/-- The instance that byte i of the state is on in stage r (R358, R359). -/
def Shuffle.place (s : Shuffle) (r i : Nat) : Nat := (permOf 16 s.wiring (List.range 16)).getD ((i + s.stateShift r) % 16) 0

/-- The byte of the state that instance j of stage r holds. -/
def Shuffle.held (s : Shuffle) (r j : Nat) : Nat := ((List.range 16).find? fun i => s.place r i == j).getD 0

/-- The bytes on the instances of stage r, by instance. -/
def Shuffle.onInstances (s : Shuffle) (r x : Nat) : List Nat := (List.range 16).map fun j => byteAt x (s.held r j)

/-- SubBytes: every instance computes the byte placed on it, and the results return to their places. -/
def Shuffle.sub (s : Shuffle) (r x : Nat) : Nat :=
  let inst := (s.onInstances r x).map sbox
  blockOf fun i => inst.getD (s.place r i) 0

/-- The key-schedule S-boxes of a stage: byte j of a word is on instance (j + t) mod 4, and every instance holds the same table. -/
def Shuffle.keySub (s : Shuffle) (r j b : Nat) : Nat := ([sbox, sbox, sbox, sbox].getD ((j + s.keyShift r) % 4) sbox) b

/-! ### Stages -/

/-- One share of a block between two stages: the state, the two round keys that travel with it, and the parity predicted for each byte of
the three. -/
structure Share where
  x : Nat := 0
  px : Nat := 0
  k : Nat × Nat := (0, 0)
  pk : Nat × Nat := (0, 0)
  deriving DecidableEq, Repr

/-- A block between two stages: its shares, and its fault flag with the stage of the first mismatch and whether it was in the key schedule
(R337). -/
structure Flow where
  shares : List Share
  flag : Option (Nat × Bool) := none
  deriving DecidableEq, Repr

/-- Bits that a fault flips at the output of a stage (R338): the share, and which bits of its state and of the two round keys that travel with
it. -/
structure Upset where
  stage : Nat
  share : Nat := 0
  flips : Nat := 0
  keyFlips : Nat := 0
  nextFlips : Nat := 0
  deriving DecidableEq, Repr

/-- The state of a block: the exclusive or of its shares; the last word of a round key likewise. -/
def blockState (l : List Share) : Nat := l.foldl (fun a s => a ^^^ s.x) 0
def lastWord (second : Bool) (l : List Share) : Nat := l.foldl (fun a s => a ^^^ wordAt (if second then s.k.2 else s.k.1) 3) 0

/-- A value split into shares: the first takes it with the mask, the second the mask; an unmasked block has no mask. -/
def shareValue (i v mask : Nat) : Nat := if i = 0 then v ^^^ mask else mask

/-- The shares after SubBytes, under a fresh mask (R366); the prediction comes from the table beside each instance (R336). -/
def subShares (sh : Shuffle) (r mask : Nat) (l : List Share) : List Share :=
  let y := sh.sub r (blockState l)
  l.zipIdx.map fun s => let v := shareValue s.2 y mask; { s.1 with x := v, px := parityOfBlock v }

/-- The linear layers of a round on a share: ShiftRows, MixColumns but in the last round, AddRoundKey. -/
def linearShare (last : Bool) (s : Share) : Share :=
  let x := shiftRows s.x
  let p := predShift s.px
  { s with x := (if last then x else mixColumns x) ^^^ s.k.1, px := (if last then p else predMix x p) ^^^ s.pk.1 }

/-- The round keys of the shares after stage r, until the last round key has been made, with a fresh mask on the word that comes through the S-boxes (R329, R366). -/
def keyShares (sh : Shuffle) (long : Bool) (r mask : Nat) (l : List Share) : List Share :=
  if roundsOf long < r + 1 then l
  else if roundsOf long < r + 1 + b01 long then l.map fun s => { s with k := (s.k.2, s.k.2), pk := (s.pk.2, s.pk.2) }
  else
    let t := scheduleWord (sh.keySub r) long (r + 1 + b01 long) (lastWord long l)
    l.zipIdx.map fun s =>
      let w := shareValue s.2 t mask
      let k := chainWords s.1.k.1 w
      let p := predChain s.1.pk.1 (parityOfWord w)
      { s.1 with k := if long then (s.1.k.2, k) else (k, 0), pk := if long then (s.1.pk.2, p) else (p, 0) }

/-- The parities of the four bytes that a round key's last word gives the key-schedule S-boxes, as they travel with it; RotWord permutes them with
their bytes (R336). -/
def lastParity (second : Bool) (l : List Share) : Nat := l.foldl (fun a s => a ^^^ (if second then s.pk.2 else s.pk.1) % 16) 0
def rotParity (p : Nat) : Nat := p % 8 * 2 + p / 8

/-- The check of every S-box instance of a stage on its input byte, against the byte's input parity (R336): no mismatch, one in the state, or one in
the key schedule. -/
def inputCheck (sh : Shuffle) (long : Bool) (r : Nat) (l : List Share) : Option Bool :=
  let x := blockState l
  let px := l.foldl (fun a s => a ^^^ s.px) 0
  if 1 ≤ r ∧ r ≤ roundsOf long ∧ ((List.range 16).any fun j => oddByte (byteAt x (sh.held r j)) != parAt px (sh.held r j)) then some false
  else if roundsOf long < r + 1 + b01 long then none
  else
    let n := r + 1 + b01 long
    let w := lastWord long l
    let p := lastParity long l
    let turn := !plainWord long n
    let byte_ (j : Nat) : Nat := (w >>> (8 * (3 - if turn then (j + 1) % 4 else j))) % 256
    if (List.range 4).any fun j => oddByte (byte_ j) != (if turn then rotParity p else p).testBit (3 - j) then some true else none

/-- What a stage computes on the shares (R328): the first AddRoundKey, a round, a pass, and at stage 15 the data block. -/
def stageShares (sh : Shuffle) (long : Bool) (r data mask : Nat) (l : List Share) : List Share :=
  if r = 0 then l.map fun s => { s with x := s.x ^^^ s.k.1, px := s.px ^^^ s.pk.1 }
  else if r ≤ roundsOf long then (subShares sh r mask l).map (linearShare (r == roundsOf long))
  else if r = 15 then l.zipIdx.map fun s => if s.2 = 0 then { s.1 with x := s.1.x ^^^ data, px := s.1.px ^^^ parityOfBlock data } else s.1
  else l

/-- An upset strikes the share it names; with a 128-bit key no second round key travels. -/
def strike (u : Option Upset) (long : Bool) (r : Nat) (l : List Share) : List Share :=
  match u with
  | none => l
  | some u =>
    if u.stage ≠ r then l
    else l.zipIdx.map fun s =>
      if s.2 ≠ u.share then s.1
      else { s.1 with x := s.1.x ^^^ u.flips % 2 ^ 128, k := (s.1.k.1 ^^^ u.keyFlips % 2 ^ 128, if long then s.1.k.2 ^^^ u.nextFlips % 2 ^ 128 else s.1.k.2) }

/-- The comparison at a stage's output: no mismatch, one in the state, or one in the key schedule (R336, R337). -/
def stageCheck (l : List Share) : Option Bool :=
  if l.any fun s => parityOfBlock s.x != s.px then some false
  else if l.any fun s => parityOfBlock s.k.1 != s.pk.1 || parityOfBlock s.k.2 != s.pk.2 then some true
  else none

/-- One stage: the S-box instances' check of what they are given, the round, the upset, the comparison, and the next round key on its way. -/
def stage (sh : Shuffle) (long : Bool) (data : Nat) (masks : Nat → Nat) (u : Option Upset) (f : Flow) (r : Nat) : Flow :=
  let l := strike u long r (stageShares sh long r data (masks (2 * r)) f.shares)
  let flag := f.flag <|> (inputCheck sh long r f.shares <|> stageCheck l).map fun inKey => (r, inKey)
  { shares := keyShares sh long r (masks (2 * r + 1) % 2 ^ 32) l, flag }

/-- A block as it enters stage 0: its counter block and the round keys of its key, in shares under the masks given. -/
def enter (two : Bool) (key : Octets) (counter m0 m1 m2 : Nat) : List Share :=
  let k := firstKeys key
  let share (i : Nat) (x a b : Nat) : Share :=
    let v := shareValue i counter x
    let c := shareValue i k.1 a
    let d := shareValue i k.2 b
    { x := v, px := parityOfBlock v, k := (c, d), pk := (parityOfBlock c, parityOfBlock d) }
  if two then [share 0 m0 m1 m2, share 1 m0 m1 m2] else [share 0 0 0 0]

/-- A block through the sixteen stages of a pipeline: what leaves stage 15, and the fault flag (R328, R337). -/
def runBlock (sh : Shuffle) (key : Octets) (counter data : Nat) (u : Option Upset) : Nat × Option (Nat × Bool) :=
  let f := (List.range 16).foldl (stage sh (keyLong key) data (fun _ => 0) u) { shares := enter false key counter 0 0 0 }
  (blockState f.shares, f.flag)

/-- A block through a masked lane, under the masks of its draw from the mask generator (R366, R367). -/
def runMasked (masks : Nat → Nat) (key : Octets) (counter data : Nat) (u : Option Upset) : Nat × Option (Nat × Bool) :=
  let f := (List.range 16).foldl (stage {} (keyLong key) data masks u) { shares := enter true key counter (masks 32) (masks 33) (masks 34) }
  (blockState f.shares, f.flag)

/-- What a block comes to with no fault: AES of its counter block under its key, with the data block. -/
def cleanBlock (key : Octets) (counter data : Nat) : Nat := aesEnc key counter ^^^ data

/-! ### GHASH pairs -/

/-- The two products of a pair on its operands, the second multiplier's with the bits a fault flips (R333). -/
def pairProducts (a b flips : Nat) : Nat × Nat := (ghashMul a b, ghashMul a b ^^^ flips % 2 ^ 128)

/-- The comparison of a pair on a cycle. -/
def pairAgrees (p : Nat × Nat) : Bool := p.1 == p.2

/-- The pairs that carry a cycle's GHASH steps, in the order of the steps: at most 15, and one pair in service is left free for repeats
(R334). -/
def pairsFor (serving : List Nat) (steps : Nat) : List Nat := serving.dropLast.take (min 15 steps)

/-- The pair kept free. -/
def freePair (serving : List Nat) : Option Nat := serving.getLast?

/-! ### Health tests -/

/-- The longest run of equal samples at the front of a list, given the run under way. -/
def longestRun : Option Bool → Nat → List Bool → Nat
  | _, n, [] => n
  | last, n, b :: r => if last = some b then longestRun last (n + 1) r else max n (longestRun (some b) 1 r)

/-- The repetition count test: 40 equal samples in a row of an oscillator of source A, 24 of a cell of source B (R362). -/
def repetitionFails (isB : Bool) (samples : List Bool) : Bool := decide ((if isB then 24 else 40) ≤ longestRun none 0 samples)

/-- The adaptive proportion test: in a window of 1,024 samples 640 equal to the first for source A, 384 in 512 for source B (R362). -/
def proportionFails (isB : Bool) (samples : List Bool) : Bool :=
  let w := samples.take (if isB then 512 else 1024)
  w.length == (if isB then 512 else 1024) && decide ((if isB then 384 else 640) ≤ (w.filter (some · == w.head?)).length)

end Sys2Proof.Machine
end

