-- ==== Sys2Proof/Machine/Tamper.lean ====
section
/-! DEFINITION. The tether's sources and responses: events, the tamper buffer and counter, Quiesce, Zeroize and Retire, the
pins, the host loop and the cell (R857 to R890, R1040). -/

namespace Sys2Proof.Machine

/-- The tamper count: bits burned in the fuller mirror (R879). -/
def tamperCount (o : Otp) : Nat := max o.mirror0 o.mirror1

/-! ### Zeroize and Retire -/

/-- The vault as a zeroize leaves it: erased, with the marker in place of the canary (R874). -/
def erasedVault : Vault := { canary := .marker }

/-- The vault erased, in the tether (R874, R877). -/
def eraseVault (m : Mod) : Mod := { m with tether := { m.tether with vault := erasedVault, zeroized := true } }

/-- A zeroize (R874, R875): every accepted frame discarded as *Zeroize or Retire*, keys, sessions, seeds, stowage keys, the
birth key's working copy and the vault erased; a restart is due within 100 ms, with reset cause 2, or 3 for a Retire. -/
def zeroize (m : Mod) (cause : Nat) : Mod :=
  let m1 := [0, 1, 2, 3].foldl (fun m b => discardBasin m b 5) m
  let m2 := endSessions (eraseAllKeys m1) 6 fun _ => true
  let m3 := if m2.tether.vault.svcState ≠ 0 then raise m2 0xF013 srcModule 0 (b1 (cause - 1)) else m2
  let m4 := eraseVault m3
  { m4 with banks := tmap {} (fun x => { x with ballast := [], seeds := [], maskSeed := [] }) m4.banks,
            tx := tmap {} (fun x => { x with throw := [] }) m4.tx,
            stow := tmap {} (fun x => { x with key := [], lines := [], minors := [], counters := [] }) m4.stow,
            sys := { m4.sys with birthOk := false, zeroAt := some (m4.sys.elapsed + 100 * msCycles, cause) } }

/-- Retire (R889): the zeroize, the retire fuse of both harbours, event 0x900E with cause 0 source or 1 command. -/
def retire (s : State) (cause : Nat) : State :=
  { s with otp := { s.otp with retired := true }, 
           mod := raise { zeroize s.mod 3 with sys := { (zeroize s.mod 3).sys with retired := true } } 0x900E srcTether 0 (b1 cause) }

/-! ### Responses -/

/-- The rates of every basin that has come under a Throttle, or out of one, follow (R870, R872, R873): `was` is the module before. -/
def rethrottle (was m : Mod) : Mod :=
  [0, 1, 2, 3].foldl (fun x b => if throttled was b = throttled m b then x else throttleBasin x b) m

/-- A park region under Quiesce: its park queues are closed and its parked frames discarded (R665). -/
def quiesceRegion (m : Mod) (h r : Nat) : Mod :=
  let st := stow m h
  if st.quiesced.contains r then m
  else
    let m1 := setStow m h { st with quiesced := st.quiesced ++ [r] }
    let basin := inf m 0x8010 5 (h * 16 + r)
    let parked := if inf m 0x8010 1 (h * 16 + r) = 1 then basin else 4
    let (m2, n) := discardParked m1 parked
    raise m2 0x8005 (srcH h) 0 (b1 h ++ b1 r ++ b1 1 ++ b8 n)

/-- A source's response acts on a unit of its scope (R870 to R872). -/
def respond (s : State) (i unit rank : Nat) : State :=
  let m := s.mod
  let src := source m i
  let m1 := setSource m i { src with inForce := max src.inForce rank, units := if rank = 0 ∨ src.units.contains unit then src.units else src.units ++ [unit] }
  let scope := (sourceRow i).2.2.2.2.2
  match rank with
  | 0 => s
  | 1 => s.upd m1
  | 2 => s.upd (rethrottle m m1)
  | 3 => s.upd (if scope = 3 then quiesceRegion m1 (unit / 16) (unit % 16) else rethrottle m ((basinsOf scope unit).foldl (fun m b => discardBasin m b 4) m1))
  | 4 => s.upd (zeroize m1 2)
  | _ => retire (s.upd m1) 0

/-- A response on the cell (R877): Zeroize and Retire erase the vault, a Retire is recorded for the next start-up, and lower
ranks are recorded only. -/
def respondOnCell (m : Mod) (i rank : Nat) : Mod :=
  if rank = 0 then m
  else if rank < 4 then { m with tether := { m.tether with recorded := m.tether.recorded ++ [i] } }
  else { eraseVault m with tether := { (eraseVault m).tether with retirePending := m.tether.retirePending || rank == 5 } }

/-- A record in the tether buffer (R878, R881): 16 are held, a further one sets the overflow flag and the lost count. -/
def buffer (t : Tether) (r : EvRec) (taken : Bool) : Tether :=
  if t.buffer.length < 16 then { t with buffer := t.buffer ++ [{ ev := r, tseq := t.tseq, taken }] }
  else { t with overflow := true, lost := satAdd 8 t.lost 1 }

/-- An event of a source (R868, R878): for a tamper-class source the tether sequence rises and the record enters the buffer
before anything else; then, on mains, it is raised; then the response acts. -/
def sourceEvent (s : State) (i unit code src bpid rank : Nat) (params : Nat → Octets) : State :=
  let m := s.mod
  let cls := (sourceRow i).2.1
  let t := if cls then { m.tether with tseq := (m.tether.tseq + 1) % 2 ^ 32 } else m.tether
  let r := mkRec { m with tether := t } code src bpid (params t.tseq)
  let up := m.sys.pilot0 || m.sys.pilot1
  let m1 := { m with tether := if cls then buffer t r (up && !t.onCell) else t }
  let so := source m1 i
  let m2 := setSource m1 i { so with events := satAdd 32 so.events 1, last := now m }
  if t.onCell then s.upd (respondOnCell m2 i rank)
  else respond (s.upd (raise m2 code src bpid (params t.tseq))) i unit rank

/-- A source marked in alarm or out of it (R861, R907). -/
def setAlarm (m : Mod) (i : Nat) (on : Bool) : Mod := setSource m i { source m i with alarm := on }

/-! ### Quantities -/

/-- The detector bits of an alarm report (R902). -/
def detectorBits : Detector → Nat
  | .one => 1
  | .two => 2
  | .both => 3

/-- A quantity enters alarm (R861); the supply is not watched on the cell (R863). A quantity already in alarm raises
nothing. -/
def quantityAlarm (s : State) (q : Nat) (det : Detector) : State :=
  let m := s.mod
  if m.tether.onCell ∧ q = 2 then s
  else
    let t := { m.tether with qAlarm := setBit m.tether.qAlarm q true,
                             detectors := m.tether.detectors ||| detectorBits det * 4 ^ q }
    if m.tether.qAlarm.testBit q then s.upd { m with tether := t }
    else
      let rank := responseOf m q
      sourceEvent (s.upd (setAlarm { m with tether := t } q true)) q 0 (0x9001 + q) srcTether 0 rank
        fun n => b1 (detectorBits det) ++ b1 rank ++ b4 n

/-- A quantity leaves alarm (R861). -/
def quantityClear (m : Mod) (q : Nat) : Mod :=
  if m.tether.qAlarm.testBit q then
    setAlarm { m with tether := { m.tether with qAlarm := setBit m.tether.qAlarm q false,
                                                detectors := m.tether.detectors - m.tether.detectors / 4 ^ q % 4 * 4 ^ q } } q false
  else m

/-- A monitor fault of a quantity, 6 for the zeroize pins (R862, R865): source 9. The supply is not watched on the cell (R863). -/
def monitorAlarm (s : State) (q det : Nat) : State :=
  let m := s.mod
  if m.tether.qFault.testBit q ∨ (m.tether.onCell ∧ q = 2) then s
  else
    let m1 := setAlarm { m with tether := { m.tether with qFault := setBit m.tether.qFault q true } } 9 true
    sourceEvent (s.upd m1) 9 0 0x900A srcTether 0 (responseOf m 9) fun n => b1 q ++ b1 det ++ b4 n

/-- A monitor fault clears (R862, R865). -/
def monitorClear (m : Mod) (q : Nat) : Mod :=
  let f := setBit m.tether.qFault q false
  setAlarm { m with tether := { m.tether with qFault := f } } 9 (f != 0)

/-! ### Pins and the host loop -/

/-- QUIESCE_N low for 1 µs (R866, R976): source 8, Quiesce of the module; ignored on the cell. -/
def quiesceAssert (s : State) : State :=
  let m := s.mod
  if m.tether.onCell then s
  else
    let m1 := { m with tether := { m.tether with quiescePin := true } }
    if m.sys.step < 3 ∨ !m.sys.running ∨ m.tether.quiescePin then s.upd m1
    else sourceEvent (s.upd (setAlarm m1 8 true)) 8 0 0x9009 srcTether 0 3 fun _ => b1 1

/-- QUIESCE_N high for 10 ms (R866): the source leaves alarm and its Quiesce ends. -/
def quiesceRelease (m : Mod) : Mod :=
  if m.tether.onCell then m
  else
    let m1 := { m with tether := { m.tether with quiescePin := false } }
    if (source m 8).alarm then rethrottle m (raise (setSource m1 8 { source m1 8 with alarm := false, inForce := 0, units := [] }) 0x9009 srcTether 0 (b1 0))
    else m1

/-- A host loop pulse (R867): the second missed in a row raises source 6, and a second of good ones ends its alarm. -/
def loopPulse (s : State) (returned : Bool) : State :=
  let m := s.mod
  let t := m.tether
  if !(if t.onCell then t.loopOn else infB m 0x9000 7 0) then s
  else if returned then
    let m1 := { m with tether := { t with loopMissed := 0, loopGood := t.loopGood + 1 } }
    s.upd (if 100 ≤ t.loopGood + 1 then setAlarm m1 6 false else m1)
  else
    let m1 := { m with tether := { t with loopMissed := t.loopMissed + 1, loopGood := 0 } }
    if 2 ≤ t.loopMissed + 1 ∧ !(source m 6).alarm then
      let rank := responseOf m 6
      sourceEvent (s.upd (setAlarm m1 6 true)) 6 0 0x9007 srcTether 0 rank fun n => b1 0 ++ b1 rank ++ b4 n
    else s.upd m1

/-! ### The cell -/

/-- A cell event inside a swap window: 0x9006 with response Record, counted (R885). -/
def cellRecord (s : State) : State := sourceEvent s 5 0 0x9006 srcTether 0 0 fun n => b1 0 ++ b1 0 ++ b4 n

/-- The swap window closes with a cause: 0 cell stable, 1 expired, 2 closed (R885, R886, R911). -/
def closeWindow (m : Mod) (millivolts cause : Nat) : Mod :=
  raise { m with tether := { m.tether with swapEnd := none } } 0x900D srcTether 0 (b2 millivolts ++ b1 cause)

/-- All power lost: the tether loses its vault, head register, buffer, runtime and sequence (R857). -/
def losePower (m : Mod) : Mod :=
  { m with tether := { vault := { canary := .lost }, onCell := true, cellPresent := m.tether.cellPresent } }

/-- The cell is removed (R884, R885, R887). -/
def removeCell (s : State) : State :=
  let m := s.mod
  let m1 := { m with tether := { m.tether with cellPresent := false } }
  if !m.tether.cellPresent then s
  else if m.tether.onCell then s.upd (losePower m1)
  else if m.tether.swapEnd.isSome then cellRecord (s.upd m1)
  else quantityAlarm (s.upd m1) 5 .both

/-- A cell is fitted (R885). -/
def insertCell (s : State) : State :=
  let m := s.mod
  if m.tether.cellPresent then s
  else
    let m1 := { m with tether := { m.tether with cellPresent := true, swapSwapped := true } }
    if m.tether.swapEnd.isSome ∧ !m.tether.onCell then cellRecord (s.upd m1) else s.upd m1

/-- The swap window expires (R886): with no cell, 0x9006 is raised again with the configured response, though the cell quantity may be in
alarm already. -/
def expireWindow (s : State) : State :=
  match s.mod.tether.swapEnd with
  | none => s
  | some t =>
    let m := advanceTo s.mod t
    let m1 := closeWindow m (Config.sensor 0x9030 3 0 m.sys.elapsed % 65536) 1
    if m.tether.cellPresent then s.upd m1
    else
      let m2 := { m1 with tether := { m1.tether with qAlarm := setBit m1.tether.qAlarm 5 false } }
      quantityAlarm (s.upd m2) 5 .both

/-! ### The tamper counter -/

/-- One bit burned in both mirrors, at most 4,096 in each (R878, R883). -/
def burnBit (o : Otp) : Otp := { o with mirror0 := max o.mirror0 (min 4096 (o.mirror0 + 1)), mirror1 := max o.mirror1 (min 4096 (o.mirror1 + 1)) }

/-- A bit burned for one event: at 4,032 event 0x900C, past 4,096 counted in 0x9000:05 (R878, R882, R883). -/
def burn (s : State) : State :=
  let o := burnBit s.otp
  if tamperCount s.otp = 4096 then s.upd { s.mod with sys := { s.mod.sys with pastSaturation := satAdd 32 s.mod.sys.pastSaturation 1 } }
  else if tamperCount o = 4032 then { s with otp := o, mod := raise s.mod 0x900C srcModule 0 (b4 4032) }
  else { s with otp := o }

/-- The first unburned entry of the buffer marked burned; an entry burned and taken by the journal leaves (R878). -/
def markBurned : List Buffered → List Buffered
  | [] => []
  | e :: es => if e.unburned then (if e.taken then es else { e with unburned := false } :: es) else e :: markBurned es

/-- The pilots burn the bit of an unburned entry (R878, R945). -/
def burnEntry (s : State) : State :=
  if s.mod.tether.buffer.any (·.unburned) ∧ (s.mod.sys.pilot0 ∨ s.mod.sys.pilot1) ∧ !s.mod.tether.onCell then
    let s1 := burn s
    s1.upd { s1.mod with tether := { s1.mod.tether with buffer := markBurned s1.mod.tether.buffer } }
  else s

/-! ### Writes -/

/-- 0x9010:06: the response in force from a source ends (R873). -/
def releaseResponse (m : Mod) (i : Nat) : Mod × Nat :=
  if i = 8 then (m, 0x4002)
  else if (source m i).alarm then (m, 0x3003)
  else
    (rethrottle m (setSource m i { source m i with inForce := 0, units := [] }), 0)

/-- 0x9030:01: an Officer opens a swap window, or closes it with 0 (R885). -/
def swapWindow (m : Mod) (minutes : Nat) : Mod :=
  if minutes = 0 then (if m.tether.swapEnd.isSome then closeWindow m (Config.sensor 0x9030 3 0 m.sys.elapsed % 65536) 2 else m)
  else { m with tether := { m.tether with swapEnd := some (m.sys.elapsed + minutes * 60 * secCycles), swapSwapped := false } }

/-- 0x9040:01: a retire confirmation (R888). -/
def confirmRetire (s : State) (cred : Nat) (serial : Octets) : State × Nat :=
  let m := s.mod
  if serial ≠ s.otp.serial then (s, 0x2001)
  else match m.mgmt.retireBy with
    | none => (s.upd { m with mgmt := { m.mgmt with retireBy := some (cred, m.sys.elapsed) } }, 0)
    | some (c, t) =>
      if c = cred then (s, 0x1005)
      else if t + 300 * secCycles < m.sys.elapsed then (s.upd { m with mgmt := { m.mgmt with retireBy := some (cred, m.sys.elapsed) } }, 0)
      else (retire (s.upd { m with mgmt := { m.mgmt with retireBy := none } }) 1, 0)

/-- A held retire confirmation lapses after 300 s (R888). -/
def expireRetire (m : Mod) : Mod :=
  match m.mgmt.retireBy with
  | none => m
  | some (_, t) =>
    let m1 := advanceTo m (t + 300 * secCycles)
    { m1 with mgmt := { m1.mgmt with retireBy := none } }

end Sys2Proof.Machine
end

