-- ==== Sys2Proof/Machine/Cipher.lean ====
section
/-! DEFINITION. The cipher engines: unit states, retry, faults beyond repair, capacity, reseeding, entropy sources, fall-back and
self-tests (R328 to R389). -/

namespace Sys2Proof.Machine

/-! ### Units -/

/-- A unit of a bank, and the bank with one changed. -/
def Bank.unit (b : Bank) : CipherUnit → CUnit
  | .pipeline n => tget {} b.pipes n.val
  | .maskedLane n => tget {} b.lanes n.val
  | .ghashPair n => tget {} b.pairs n.val
def Bank.setUnit (b : Bank) (u : CipherUnit) (x : CUnit) : Bank :=
  match u with
  | .pipeline n => { b with pipes := tset {} b.pipes n.val x }
  | .maskedLane n => { b with lanes := tset {} b.lanes n.val x }
  | .ghashPair n => { b with pairs := tset {} b.pairs n.val x }

/-- The number of a unit in its group. -/
def unitNum : CipherUnit → Nat
  | .pipeline n => n.val
  | .maskedLane n => n.val
  | .ghashPair n => n.val

/-- The bank of a basin and direction (R382). -/
def bankOf (basin : Nat) (tx : Bool) : Nat := basin * 2 + b01 (!tx)

/-- The spare of a unit's group; the pairs have none of their own (R334). -/
def Bank.spareOf (b : Bank) : CipherUnit → Option Nat
  | .pipeline _ => b.spare
  | .maskedLane _ => b.laneSpare
  | .ghashPair _ => none
def Bank.setSpare (b : Bank) (u : CipherUnit) (x : Option Nat) : Bank :=
  match u with
  | .pipeline _ => { b with spare := x }
  | .maskedLane _ => { b with laneSpare := x }
  | .ghashPair _ => b

/-- The units of a group that are in service. -/
def Bank.serving (b : Bank) : CipherUnit → List Nat
  | .pipeline _ => (List.range 14).filter fun i => (tget ({} : CUnit) b.pipes i).st == 0
  | .maskedLane _ => (List.range 6).filter fun i => (tget ({} : CUnit) b.lanes i).st == 0
  | .ghashPair n => ((if n.val < 16 then List.range 16 else [16, 17])).filter fun i => (tget ({} : CUnit) b.pairs i).st == 0

/-- The state a unit shows (R330): a unit that is emptying has left service and shows quarantine. -/
def Bank.shown (b : Bank) (u : CipherUnit) : Nat :=
  match (b.unit u).st with
  | 0 => if b.spareOf u = some (unitNum u) then 1 else 0
  | 3 => 3
  | _ => 2

/-- A unit's change of state reported (R345, R367): 0x4031 for a pipeline, 0x4038 for a masked lane; a pair reports its
retirement under 0x4031. -/
def unitEvent (m : Mod) (k : Nat) (u : CipherUnit) (st cause : Nat) : Mod :=
  let h := srcH (k / 4)
  let head := b1 (k / 2) ++ b1 (k % 2) ++ b1 (unitNum u) ++ b1 st
  match u with
  | .pipeline _ => raise m 0x4031 h 0 (head ++ b1 cause)
  | .maskedLane _ => raise m 0x4038 h 0 head
  | .ghashPair _ => if st = 3 then raise m 0x4031 h 0 (head ++ b1 cause) else m

/-- Another unit of the same group. -/
def withNum (u : CipherUnit) (n : Nat) : CipherUnit :=
  match u with
  | .pipeline _ => .pipeline (Fin.ofNat 14 n)
  | .maskedLane _ => .maskedLane (Fin.ofNat 6 n)
  | .ghashPair _ => .ghashPair (Fin.ofNat 18 n)

/-- From when the spare of a unit's group serves as spare (R347). -/
def Bank.servesFrom (b : Bank) : CipherUnit → Nat
  | .maskedLane _ => b.laneSpareFrom
  | _ => b.spareFrom
def Bank.setFrom (b : Bank) (u : CipherUnit) (t : Nat) : Bank :=
  match u with
  | .maskedLane _ => { b with laneSpareFrom := t }
  | _ => { b with spareFrom := t }

/-- Where the spare has left its place, the highest-numbered active unit becomes the spare, with the event of its new state; it serves as spare
16 cycles later, when its last block has left it (R331, R347, R389). -/
def promote (m : Mod) (k : Nat) (u : CipherUnit) : Mod :=
  let b := bank m k
  match b.spareOf u with
  | none => m
  | some i =>
    if (b.serving u).contains i then m
    else match (b.serving u).getLast? with
      | none => setBank m k (b.setSpare u none)
      | some j => unitEvent (setBank m k ((b.setSpare u (some j)).setFrom u (m.sys.elapsed + 16))) k (withNum u j) 1 0

/-! ### Faults beyond repair -/

/-- A fault beyond repair: event 0x4033 and the response of source 12 on the basin (R350, R351). -/
def beyondRepair (s : State) (k cause : Nat) : State :=
  sourceEvent s 12 (k / 2) 0x4033 (srcH (k / 4)) 0 (responseOf s.mod 12) fun _ => b1 (k / 2) ++ b1 (k % 2) ++ b1 cause

/-- A unit is retired (R345, R379): its bank keeps a spare, runs without one, or no longer covers its demand (R331, R354,
R355). A spare that becomes active has the event of its new state (R389). -/
def retireUnit (s : State) (k : Nat) (u : CipherUnit) (cause : Nat) : State :=
  let b := bank s.mod k
  let m := promote (unitEvent (setBank s.mod k (b.setUnit u { b.unit u with st := 3, cause })) k u 3 cause) k u
  match u with
  | .pipeline _ =>
    let n := ((bank m k).serving u).length
    let demand := bankDemand m [] k
    if 160000000 * n < demand then beyondRepair (s.upd m) k 4
    else if 160000000 * (n - 1) < demand then
      let m1 := match (bank m k).spare with
        | some i => unitEvent (setBank m k { bank m k with spare := none }) k (withNum u i) 0 0
        | none => m
      s.upd (raise m1 0x4032 (srcH (k / 4)) 0 (b1 (k / 2) ++ b1 (k % 2) ++ b4 demand ++ b4 (160000000 * n)))
    else s.upd m
  | _ => s.upd m

/-! ### Blocks that leave -/

/-- A block that leaves a unit: the block as it entered, whether it is a frame block, whether a replay, and the cycle on which it leaves
stage 15. -/
structure Exit where
  blk : Blk
  frame : Bool
  replay : Bool := false
  at_ : Nat
  deriving DecidableEq, Repr

/-- The place of a lane's block under way on a cycle in an engine job: its number in the job, if it has one (R370). -/
def EngineJob.blockOn (x : EngineJob) (lane t : Nat) : Option Nat :=
  match x.lanes.findIdx? (· == lane) with
  | none => none
  | some i =>
    let n := (t - x.start) / 16 * x.lanes.length + i
    if x.start ≤ t ∧ t < x.done ∧ n < x.job.count then some n else none

/-- The block under way in a masked lane, which leaves at the end of its round of 16 cycles, with its number in the mask generator's stream. -/
def laneExit (m : Mod) (b : Bank) (lane : Nat) : Option (Exit × Nat) :=
  let t := m.sys.elapsed
  b.engine.findSome? fun x => (x.blockOn lane t).map fun n =>
    ({ blk := jobBlock x.job (x.job.sent + n), frame := true, replay := x.replay, at_ := x.start + (t - x.start) / 16 * 16 + 15 }, x.masks + n)

/-- How the bytes of the block that entered a pipeline on a cycle were placed on the S-box instances (R358, R359): by the draw it took on entry, from
the seed of that cycle. -/
def Bank.shuffleAt (b : Bank) (pipe cycle : Nat) : Shuffle :=
  let old := decide (cycle < b.seededAt)
  { wiring := tget 0 b.wiring pipe
    draw := Config.expand (tget [] (if old then b.seedsOld else b.seeds) pipe) 0 (cycle - if old then b.seededOldAt else b.seededAt) % 2 ^ 84 }

/-- The masks of a block of the masked engine (R366). -/
def Bank.masksOf (b : Bank) (n i : Nat) : Nat := Config.expand b.maskSeed 4 (n * 64 + i)

/-- What comes of the block that leaves a unit now when a fault flips bits on its way (R328, R336 to R338, R367): the block, its output and its
fault flag. A pipeline always carries a block; a masked lane where a job gives it one, a GHASH pair none. -/
def verdict (m : Mod) (k : Nat) (u : CipherUnit) (x : Upset) : Option (Exit × Nat × Option (Nat × Bool)) :=
  let b := bank m k
  let t := m.sys.elapsed
  match u with
  | .pipeline n =>
    let (blk, f) := b.blockAt n.val (t - 15)
    some ({ blk, frame := f.isSome, replay := f.any (·.replay), at_ := t }, runBlock (b.shuffleAt n.val (t - 15)) blk.key blk.counter blk.data (some x))
  | .maskedLane n => (laneExit m b n.val).map fun e => (e.1, runMasked (b.masksOf e.2) e.1.blk.key e.1.blk.counter e.1.blk.data (some x))
  | .ghashPair _ => none

/-! ### Faults -/

/-- A unit stops taking blocks after a fault (R342, R344, R346, R347). -/
def takeOut (m : Mod) (k : Nat) (u : CipherUnit) : Mod :=
  let b := bank m k
  let x := b.unit u
  promote (setBank m k (b.setUnit u { x with st := 1, faults := min 3 (x.faults + 1), leftAt := m.sys.elapsed })) k u

/-- The frame blocks of a pipeline that are replayed when it stops on a cycle: those that leave it from then on, in the order they leave (R342). -/
def Bank.toReplay (b : Bank) (pipe t : Nat) : List Flight := b.flight.filter fun f => f.pipe == pipe && !f.replay && decide (t ≤ f.cycle + 15 ∧ f.cycle ≤ t)

/-- The jobs of the masked engine once a lane has stopped with the block it carried on a cycle: the blocks not yet begun are dealt across the
job's other lanes from the next cycle, those of a job of this lane alone on another active lane. -/
def Bank.redeal (b : Bank) (lane t : Nat) : List EngineJob :=
  b.engine.flatMap fun x =>
    let begun := ((t - x.start) / 16 + 1) * x.lanes.length
    if x.lanes.contains lane ∧ x.start ≤ t ∧ begun < x.job.count then
      [{ x with job := { x.job with count := begun } },
       { x with start := t + 1, lanes := if x.lanes = [lane] then (b.laneList.filter (· != lane)).take 1 else x.lanes.filter (· != lane), masks := x.masks + begun,
                job := { x.job with sent := x.job.sent + begun, count := x.job.count - begun } }]
    else [x]

/-- A unit that stops with a block at its end still carries blocks of frames, or replays for another unit, now or on the cycles to come (R342, R346,
R367). Replays cannot be replayed again (R349), so that such a spare is beyond repair (log 53). -/
def Bank.carries (b : Bank) (u : CipherUnit) (e : Exit) (t : Nat) : Bool :=
  match u with
  | .maskedLane _ => e.frame
  | _ => !(b.toReplay (unitNum u) t).isEmpty || b.flight.any fun f => f.pipe == unitNum u && f.replay && decide (t ≤ f.cycle + 15)

/-- The spare of a unit's group is still replaying for another (R350). -/
def Bank.replaying (b : Bank) (u : CipherUnit) (t : Nat) : Bool :=
  match u with
  | .maskedLane _ => b.engine.any fun x => x.replay && decide (t < x.done)
  | _ => b.flight.any fun f => f.replay && decide (t ≤ f.cycle + 15)

/-- The spare can take the replays of a unit's blocks: it is another unit, serves as spare by now and replays for no other (R347, R350). -/
def Bank.spareReady (b : Bank) (u : CipherUnit) (i t : Nat) : Bool := i != unitNum u && !b.replaying u t && decide (b.servesFrom u ≤ t)

/-- The replays on the spare (R342, R343, R348): each block leaves 16 cycles after it would have, from what was recorded on entry; with their
number. A masked lane's block is replayed alone, and the rest of its job is dealt anew. -/
def startReplays (b : Bank) (u : CipherUnit) (e : Exit) (spare t : Nat) : Bank × Nat :=
  match u with
  | .maskedLane n =>
    let j : EngineJob := { start := t + 1, lanes := [spare], replay := true, masks := b.maskBlocks
                           job := { again := some e.blk, count := 1, serial := e.blk.serial } }
    let engine := b.redeal n.val t ++ [j]
    ({ b with engine, maskBlocks := b.maskBlocks + 1, busy := engine.foldl (fun a x => if x.replay then a else max a (x.done - 1)) b.busy }, 1)
  | _ =>
    let again := b.toReplay (unitNum u) t
    ({ b with flight := (b.flight.filter fun f => !again.contains f) ++
        again.map fun f => { f with pipe := spare, cycle := f.cycle + 16, replay := true } }, again.length)

/-- The accepted frames that a block or step beyond repair belonged to are discarded with cause Quiesce (R23, R351): the frame itself, or those whose
bytes its Gelix frame carries, which leaves with a block missing. -/
def failFrame (m : Mod) (k serial : Nat) : Mod :=
  let f (d : Desc) : Bool := d.serial == serial || d.outer == serial
  if serial = 0 then m
  else
    let gone := m.arbs.flatMap (fun e => e.2.egress.filter f) ++ m.tx.flatMap fun e => ((e.2.waiting.map (·.1)) ++ e.2.curDesc.toList).filter f
    let m1 : Mod := { m with
      arbs := tmap {} (fun x => { x with egress := x.egress.filter fun d => !f d }) m.arbs
      tx := tmap {} (fun x =>
        let w := { x with waiting := x.waiting.filter fun y => !f y.1 }
        if x.curDesc.any f then { w with cur := [], curDesc := none } else w) m.tx }
    countDiscards (setBank m1 k { bank m1 k with spoiled := (bank m1 k).spoiled ++ [serial] }) 4 gone

/-- A block flagged at stage 15 (R337, R342 to R351, R367, R385): the unit stops; what it still carries of frames is replayed on the spare, also
after a fault on ballast (R346), or is beyond repair, which discards the frame. -/
def flagged (s : State) (k : Nat) (u : CipherUnit) (e : Exit) (stage : Nat) (inKey : Bool) : State :=
  let m := s.mod
  let b := bank m k
  let kind := b01 inKey
  let last := stage * 256 + kind * 4 + b01 (!e.frame) * 2 + 1
  let m1 := setBank m k (b.setUnit u { b.unit u with last, lastTime := nowH m (k / 4) })
  let m2 := match u with
    | .pipeline n => raise m1 0x4030 (srcH (k / 4)) 0 (b1 (k / 2) ++ b1 (k % 2) ++ b1 n.val ++ b1 stage ++ b1 kind ++ b1 (b01 (!e.frame)))
    | _ => unitEvent m1 k u 2 0
  let m3 := takeOut m2 k u
  let lost := failFrame m3 k e.blk.serial
  if e.replay then beyondRepair (s.upd lost) k 0
  else if !b.carries u e m.sys.elapsed then s.upd m3
  else match b.spareOf u with
    | none => beyondRepair (s.upd lost) k 1
    | some i =>
      if !b.spareReady u i m.sys.elapsed then beyondRepair (s.upd lost) k 1
      else
        let (b4, n) := startReplays (bank m3 k) u e i m.sys.elapsed
        s.upd (bump (setBank m3 k b4) 0x4200 9 k n)

/-- A block came out wrong with no check to show it (R338, R339): its frame will fail its tag at the far end; a record on its way to the packer
takes the error into its own tag (log 53). -/
def spoil (m : Mod) (k serial diff : Nat) : Mod :=
  let hurt (x : Desc × Octets) : Desc × Octets :=
    if x.1.serial = serial then (x.1, x.2.take (x.2.length - 16) ++ xorBytes (x.2.drop (x.2.length - 16)) (bytesOf 16 diff)) else x
  let m1 := setBank m k { bank m k with spoiled := (bank m k).spoiled ++ [serial] }
  { m1 with tx := tmap {} (fun x => { x with waiting := x.waiting.map hurt }) m1.tx }

/-- What a block comes to is judged as it leaves: flagged, spoiled or as it should be. -/
def judged (s : State) (k : Nat) (u : CipherUnit) (e : Exit) (out : Nat) (flag : Option (Nat × Bool)) : State :=
  let s1 := s.upd (advanceTo s.mod e.at_)
  match flag with
  | some (stage, inKey) => flagged s1 k u e stage inKey
  | none =>
    let diff := out ^^^ cleanBlock e.blk.key e.blk.counter e.blk.data
    if e.blk.serial = 0 ∨ diff = 0 then s1 else s1.upd (spoil s1.mod k e.blk.serial diff)

/-- PIPELINE_FAULT: a fault strikes the block that leaves a pipeline now, or the one under way in a masked lane (R336 to R351, R367). -/
def pipelineFault (s : State) (k : Nat) (u : CipherUnit) (x : Upset) : State :=
  if !s.mod.sys.running || ((bank s.mod k).unit u).st != 0 then s
  else match verdict s.mod k u x with
    | none => s
    | some (e, out, flag) => judged s k u e out flag

/-- PIPELINE_DRAINED: the unit is empty; quarantine tests, or retired at its third fault (R344, R345). -/
def unitDrained (s : State) (k : Nat) (u : CipherUnit) : State :=
  let x := (bank s.mod k).unit u
  if x.st ≠ 1 then s
  else
    let m := advanceTo s.mod (x.leftAt + (match u with
      | .ghashPair _ => 1
      | _ => 16))
    if 3 ≤ x.faults then retireUnit (s.upd m) k u 3
    else s.upd (unitEvent (setBank m k ((bank m k).setUnit u { x with st := 2 })) k u 2 0)

/-- QUARANTINE_TEST_END: back to service, as spare where none is present, or retired (R344, R345, R354). -/
def quarantineEnd (s : State) (k : Nat) (u : CipherUnit) (passed : Bool) : State :=
  let b := bank s.mod k
  let x := b.unit u
  if x.st ≠ 2 then s
  else if !passed then retireUnit s k u 2
  else
    let b1 := b.setUnit u { x with st := 0 }
    let b2 := if (b.spareOf u).isNone then b1.setSpare u (some (unitNum u)) else b1
    s.upd (unitEvent (setBank s.mod k b2) k u (b2.shown u) 0)

/-! ### Known answers -/

/-- The known answer of FIPS 197 for AES-256: key, block and result (log 53). -/
def answerKey : Octets := (List.range 32).map Byte.ofNat
def answerBlock : Nat := 0x00112233445566778899AABBCCDDEEFF
def knownResult : Nat := 0x8EA2B7CA516745BFEAFC49904B496089

/-- The number under which a bank keeps when a unit last computed a known answer. -/
def answerNum : CipherUnit → Nat
  | .maskedLane n => 14 + n.val
  | u => unitNum u

/-- Time passes until a unit's next known answer is due: one in every second of runtime (R339). -/
def answerDue (m : Mod) (k : Nat) (u : CipherUnit) : Mod :=
  if tget 0 (bank m k).answered (answerNum u) = m.tether.runtime + 1 then advance m (secCycles - m.tether.runtimeSub) else m

/-- A unit that takes a known-answer block: a masked lane is held for its 16 cycles (R370). -/
def takeAnswer (m : Mod) (k : Nat) (u : CipherUnit) : Mod :=
  let b := bank m k
  let m1 := setBank m k { b with answered := tset 0 b.answered (answerNum u) (m.tether.runtime + 1) }
  match u with
  | .maskedLane n => engineTakes m1 k (max b.busy m.sys.elapsed + 1) [n.val] { key := answerKey, runs := true, j0 := answerBlock, count := 1 }
  | _ => m1

/-- What a unit makes of the known-answer block when a fault flips bits on its way. -/
def answerOf (m : Mod) (k : Nat) (u : CipherUnit) (x : Upset) : Nat × Option (Nat × Bool) :=
  let b := bank m k
  match u with
  | .maskedLane _ => runMasked (b.masksOf b.maskBlocks) answerKey answerBlock 0 (some x)
  | _ => runBlock (b.shuffleAt (unitNum u) m.sys.elapsed) answerKey answerBlock 0 (some x)

/-- KNOWN_ANSWER_TEST: a unit in service computes the known answer; a flag is a fault on a block that is no frame's, a wrong output without one
is a silent fault and retires the unit at once (R339, R346, R1039). -/
def knownAnswer (s : State) (k : Nat) (u : CipherUnit) (x : Upset) : State :=
  if !s.mod.sys.running || ((bank s.mod k).unit u).st != 0 then s
  else
    let m0 := answerDue s.mod k u
    let m := takeAnswer m0 k u
    match answerOf m0 k u x with
    | (_, some (stage, inKey)) => flagged (s.upd m) k u { blk := {}, frame := false, at_ := m.sys.elapsed } stage inKey
    | (out, none) =>
      if out = knownResult then s.upd m
      else
        let b := bank m k
        retireUnit (s.upd (setBank m k (b.setUnit u { b.unit u with last := 2 * 4 + 1, lastTime := nowH m (k / 4) }))) k u 4

/-! ### GHASH pairs -/

/-- The steps that the GHASH bank carries on a cycle, in order (R333, R334). -/
def Bank.stepsOn (b : Bank) (t : Nat) : List HashStep := b.steps.filter (·.cycle == t)

/-- The accumulator of a message before one of its inputs (R334). -/
def Job.accBefore (j : Job) (rx : Bool) (i : Nat) : Nat := ghashRun (ghashPowers (aesEnc j.key 0) 8) (i + 1) 0 ((List.range i).map (j.hashInput rx))

/-- What a pair multiplies for the step at a place among a message's steps of one cycle (R334): the step's input, the first with the accumulator
added, and the power of the hash subkey that the place among them takes. -/
def Job.operands (j : Job) (rx : Bool) (first input n : Nat) : Nat × Nat :=
  let powers := ghashPowers (aesEnc j.key 0) 8
  ((if input = first then j.accBefore rx first else 0) ^^^ j.hashInput rx input, powers.getD (8 - n + (input - first)) 0)

/-- The input that the masked engine's own pairs take on a cycle for a job: its additional data in its first round, and in every later cycle the
block of a lane that left in the round before (R366; log 53). -/
def EngineJob.inputAt (x : EngineJob) (t : Nat) : Option Nat :=
  let u := t - x.start
  let g := (u / 16 - 1) * x.lanes.length + u % 16
  if t < x.start ∨ x.job.aad.isNone then none
  else if u < 16 then (if u < x.job.aadBlocks then some u else none)
  else if u % 16 < x.lanes.length ∧ 1 ≤ x.job.sent + g ∧ g < x.job.count ∧ x.job.sent + g ≤ x.job.dataBlocks then some (x.job.aadBlocks + x.job.sent + g - 1)
  else none

/-- What a pair multiplies on the present cycle: the step it carries (R334), else none: ballast (R335). Of the masked engine's own pairs the first in
service carries the steps of its jobs. -/
def pairStep (m : Mod) (k n : Nat) : Option (Nat × Nat) :=
  let b := bank m k
  let t := m.sys.elapsed
  let rx := k % 2 == 1
  if n < 16 then
    let now := b.stepsOn t
    match (pairsFor b.pairsIn now.length).findIdx? (· == n) with
    | none => none
    | some i => now[i]?.bind fun s => (b.hashing.find? (·.message == s.message)).map fun j =>
        let own := (now.filter (·.message == s.message)).map (·.input)
        j.operands rx (own.headD 0) s.input own.length
  else if (b.serving (.ghashPair 16)).head? = some n then
    b.engine.findSome? fun x => (x.inputAt t).map fun i => x.job.operands rx i i 1
  else none

/-- Ballast operands of a pair on a cycle, from a shuffle generator (R335). -/
def ballastOperands (m : Mod) (k n : Nat) : Nat × Nat :=
  let seed := tget [] (bank m k).seeds (n % 14)
  let x (i : Nat) : Nat := Config.expand seed 3 ((m.sys.elapsed * 18 + n) * 2 + i) % 2 ^ 128
  (x 0, x 1)

/-- A pair's two products on the present cycle agree, with the bits a fault flips (R333). -/
def pairHolds (m : Mod) (k n flips : Nat) : Bool :=
  let (a, b) := (pairStep m k n).getD (ballastOperands m k n)
  pairAgrees (pairProducts a b flips)

/-- The number of the frame whose step a pair carries on the present cycle; 0 for none. -/
def stepSerial (m : Mod) (k n : Nat) : Nat :=
  let b := bank m k
  if n < 16 then
    let now := b.stepsOn m.sys.elapsed
    ((((pairsFor b.pairsIn now.length).findIdx? (· == n)).bind (now[·]?)).bind fun s => b.hashing.find? (·.message == s.message)).elim 0 (·.serial)
  else (b.engine.find? fun x => (x.inputAt m.sys.elapsed).isSome).elim 0 (·.job.serial)

/-- The event and the leave of a pair that mismatched (R340). -/
def pairLeaves (m : Mod) (k : Nat) (n : Fin 18) : Mod :=
  raise (takeOut m k (.ghashPair n)) 0x4034 (srcH (k / 4)) 0 (b1 (k / 2) ++ b1 (k % 2) ++ b1 n.val)

/-- GHASH_MISMATCH: a fault strikes a pair; a step that it carries is discarded and repeated on the free pair, ballast products are only discarded
(R335, R340, R349, R350). A step that no pair is left for cannot be repeated (log 53). -/
def ghashMismatch (s : State) (k : Nat) (n : Fin 18) (flips repeatFlips : Nat) : State :=
  let m := s.mod
  if !m.sys.running || ((bank m k).unit (.ghashPair n)).st != 0 || pairHolds m k n.val flips then s
  else
    let m1 := pairLeaves m k n
    match pairStep m k n.val with
    | none => s.upd m1
    | some _ =>
      match freePair ((bank m1 k).serving (.ghashPair n)) with
      | none => beyondRepair (s.upd (failFrame m1 k (stepSerial m k n.val))) k 2
      | some j =>
        let m2 := bump (advance m1 1) 0x4200 0x0A k 1
        if repeatFlips % 2 ^ 128 = 0 then s.upd m2
        else beyondRepair (s.upd (failFrame (pairLeaves m2 k (Fin.ofNat 18 j)) k (stepSerial m k n.val))) k 2

/-- KEY_STORE_ERROR: corrected and counted, or beyond repair (R341). -/
def keyStoreError (s : State) (k : Nat) (double : Bool) : State :=
  if !s.mod.sys.running then s else if double then beyondRepair s k 3 else s.upd (bump s.mod 0x4200 0x0C k 1)

/-! ### Reseeding -/

/-- n bytes for each pipeline that is not retired, put into the bank. -/
def eachPipe (m : Mod) (k n : Nat) (f : Bank → Nat → Octets → Bank) : Mod :=
  (List.range 14).foldl (fun m i =>
    if (tget ({} : CUnit) (bank m k).pipes i).st = 3 then m
    else
      let (bs, m1) := draw m (feedOf m (k / 4)) n
      setBank m1 k (f (bank m1 k) i bs)) m

/-- A fresh 256-bit ballast key for each pipeline (R357). -/
def drawBallast (m : Mod) (k : Nat) : Mod :=
  if feedOk m (k / 4) then
    let m1 := eachPipe m k 32 fun b i bs => { b with ballast := tset [] b.ballast i bs }
    setBank m1 k { bank m1 k with ballastAt := m.sys.elapsed, ballastOld := (bank m k).ballast, ballastOldAt := (bank m k).ballastAt }
  else m

/-- A fresh 128-bit seed for each shuffle generator and a new wiring choice for each pipeline (R359, R360). -/
def drawShuffle (m : Mod) (k : Nat) : Mod :=
  if feedOk m (k / 4) then
    let m1 := eachPipe m k 16 fun b i bs => { b with seeds := tset [] b.seeds i bs, wiring := tset 0 b.wiring i (Config.expand bs 1 i % 20922789888000) }
    setBank m1 k { bank m1 k with seededAt := m.sys.elapsed, seedsOld := (bank m k).seeds, seededOldAt := (bank m k).seededAt }
  else m

/-- A fresh 256-bit seed of the mask generator from the harbour's source B (R366). -/
def drawMasks (m : Mod) (k : Nat) : Mod :=
  if (entropyOf m (k / 4)).failB then m
  else
    let (bs, m1) := draw m (srcB (k / 4)) 32
    setBank m1 k { bank m1 k with maskSeed := bs, maskBlocks := 0 }

/-- The seeds that every bank begins to run on at start-up (R365; log 53). -/
def seedBanks (m : Mod) : Mod := (List.range 8).foldl (fun m k => drawMasks (drawShuffle (drawBallast m k) k) k) m

/-- D-clock cycles between two reseeds of what source A feeds (R357, R360), and under the reserve feed (R374). -/
def reseedPeriod (m : Mod) (k : Nat) : Nat := if (entropyOf m (k / 4)).reserve then 1048576 else 65536

/-- BALLAST_KEY_RESEED: the next reseed of the ballast keys, once its period is over (R357, R374). -/
def ballastReseed (m : Mod) (k : Nat) : Mod :=
  if m.sys.running then drawBallast (advanceTo m ((bank m k).ballastAt + reseedPeriod m k)) k else m

/-- SHUFFLE_RESEED: the next reseed of the shuffle generators, once its period is over (R359, R360, R374). -/
def shuffleReseed (m : Mod) (k : Nat) : Mod :=
  if m.sys.running then drawShuffle (advanceTo m ((bank m k).seededAt + reseedPeriod m k)) k else m

/-- MASK_RESEED: after 65,536 blocks the mask generator takes a new seed; with source B failed it keeps the one it holds (R365, R366). -/
def maskReseed (m : Mod) (k : Nat) : Mod := if m.sys.running && decide (65536 ≤ (bank m k).maskBlocks) then drawMasks m k else m

/-! ### Entropy sources and fall-back -/

/-- DIVERT lowers the diverted queues of a basin to what the masked engine has left (R376): rates scaled, and 0 where the bound
cannot be proved at the masked latency. -/
def divertBasin (m : Mod) (b : Nat) : Mod :=
  (divertedRates m [] (gate m) b).foldl (fun m x => retarget (setNat (setNat m 0x6000 7 x.1 x.2.1) 0x6000 9 x.1 x.2.2) x.1) m

/-- The fall-back policy acts in a basin: event 0x4037 (R373, R375, R376). -/
def engageFallback (m : Mod) (b : Nat) : Mod :=
  let pol := inf m 0x4210 1 b
  let m1 := if pol = 0 then divertBasin m b else m
  raise m1 0x4037 (srcH (b / 2)) 0 (b1 b ++ b1 pol ++ b4 (maskedCommit m1 [] b))

/-- A fresh NOKEY key for every Gelix port of a harbour that sends (R374). -/
def throwKeys (m : Mod) (h : Nat) : Mod :=
  if feedOk m h then
    (List.range 64).foldl (fun m p =>
      if harbourOf p = h ∧ (txOf m p).started ∧ isGelix m p then
        let (bs, m1) := draw m (feedOf m h) 32
        setTx m1 p { txOf m1 p with throw := bs, throwAt := m1.sys.elapsed }
      else m) m
  else m

/-- A source is declared failed (R364, R373, R374, R377): event 0x4036, the reserve feed and the policy for source A, and a
fault beyond repair for every bank when both have failed. -/
def declareFailed (s : State) (h : Nat) (isB : Bool) : State :=
  let e := entropyOf s.mod h
  if (if isB then e.failB else e.failA) then s
  else
    let m1 := setEntropy s.mod h (if isB then { e with failB := true } else { e with failA := true, reserve := true })
    let s1 := sourceEvent (s.upd (setAlarm m1 11 true)) 11 h 0x4036 (srcH h) 0 (responseOf m1 11) fun _ => b1 h ++ b1 (b01 isB)
    let s2 := if isB then s1
      else
        let m2 := throwKeys ((List.range 4).foldl (fun m i => drawShuffle (drawBallast m (h * 4 + i)) (h * 4 + i)) s1.mod) h
        s1.upd (engageFallback (engageFallback m2 (h * 2)) (h * 2 + 1))
    let both := (entropyOf s2.mod h).failA && (entropyOf s2.mod h).failB
    if both then (List.range 4).foldl (fun s i => beyondRepair s (h * 4 + i) 5) s2 else s2

/-- The health test that samples of one oscillator or cell are put to fails (R362). -/
def healthFails (isB proportion : Bool) (samples : List Bool) : Bool := if proportion then proportionFails isB samples else repetitionFails isB samples

/-- ENTROPY_TEST_FAILURE: samples of one oscillator or cell that fail a test: the conditioner input is discarded and counted; the third failure
within a second declares the source failed (R362 to R364). A source that has been declared failed is tested on. -/
def entropyTestFailure (s : State) (h : Nat) (isB proportion : Bool) (samples : List Bool) : State :=
  let m := s.mod
  let e := entropyOf m h
  if !m.sys.running || !healthFails isB proportion samples then s
  else
    let test := 1 + b01 isB * 2 + b01 proportion
    let recent := ((if isB then e.timesB else e.timesA).filter fun t => decide (m.sys.elapsed < t + secCycles)) ++ [m.sys.elapsed]
    let m1 := discardInput (setEntropy m h (if isB then { e with timesB := recent } else { e with timesA := recent })) (h * 2 + b01 isB)
    let m2 := setNat (bump m1 0x4230 (if isB then 4 else 3) h 1) 0x4230 8 h test
    let m3 := raise m2 0x4035 (srcH h) 0 (b1 h ++ b1 (b01 isB) ++ b1 test)
    if 3 ≤ recent.length then declareFailed (s.upd m3) h isB else s.upd m3

/-! ### Self-tests -/

/-- The unit a number of the self-tests names: 0 to 111 pipelines, 112 to 239 GHASH pairs, 240 to 287 masked lanes, 300 to 315 the masked
engines' own pairs. Of the other numbers 288 to 291 are the entropy sources, 292 to 299 the key-unwrap tests of the masked engines. -/
def unitOfNumber (n : Nat) : Option (Nat × CipherUnit) :=
  if n < 112 then some (n / 14, .pipeline (Fin.ofNat 14 n))
  else if n < 240 then some ((n - 112) / 16, .ghashPair ⟨(n - 112) % 16, by omega⟩)
  else if n < 288 then some ((n - 240) / 6, .maskedLane (Fin.ofNat 6 (n - 240)))
  else if 300 ≤ n ∧ n < 316 then some ((n - 300) / 2, .ghashPair ⟨16 + (n - 300) % 2, by omega⟩)
  else none

/-- The outcome word of a harbour (R388): a start-up that goes on has passed HASH and COND (R380). -/
def outcomeWord (h : Nat) (units : List Nat) : Nat :=
  let any (lo n : Nat) : Bool := units.any fun u => decide (lo ≤ u ∧ u < lo + n)
  mask [7, 6] + bitAt (!units.contains (288 + h * 2 + 1)) 5 + bitAt (!units.contains (288 + h * 2)) 4 + bitAt (!any (292 + h * 4) 4) 3 +
  bitAt (!any (240 + h * 24) 24) 2 + bitAt (!(any (112 + h * 64) 64 || any (300 + h * 8) 8)) 1 + bitAt (!any (h * 56) 56) 0

/-- The tests of the sources B at step 2 of start-up, before anything is drawn from them (R378, R379). -/
def testSourceB (s : State) (units : List Nat) : State :=
  [0, 1].foldl (fun s h => if units.contains (289 + h * 2) then declareFailed s h true else s) s

/-- The self-tests of step 5 of start-up (R378 to R381): faulty units are retired with cause 1, failed sources declared, and event 0x4039
raised for each harbour. A key-unwrap test that fails only shows in the outcome: the spec gives it no other effect. -/
def selfTests (s : State) (units : List Nat) : State :=
  let s1 := units.foldl (fun s n => match unitOfNumber n with
    | some (k, u) => retireUnit s k u 1
    | none => if n = 288 ∨ n = 290 then declareFailed s ((n - 288) / 2) false else s) s
  let word (m : Mod) (sub h v : Nat) : Mod := setNat m 0x4240 sub h v
  let m2 := (List.range 2).foldl (fun m h =>
    let part (lo n : Nat) : Nat := mask ((units.filter fun u => decide (lo ≤ u ∧ u < lo + n)).map (· - lo))
    let m1 := setEntropy m h { entropyOf m h with tested := true }
    let m2 := word (word (word (word m1 1 h (outcomeWord h units)) 3 h (part (h * 56) 56)) 4 h (part (112 + h * 64) 64)) 5 h (part (240 + h * 24) 24)
    raise m2 0x4039 (srcH h) 0 (b1 h ++ b1 (outcomeWord h units))) s1.mod
  s1.upd (seedBanks m2)

/-- BALLAST_SHARE_UPDATE: at the next whole second of the harbour's time counter, the ballast share of each bank over the whole second
that ended, rounded down (R1039). -/
def ballastShare (m0 : Mod) (h : Nat) : Mod :=
  if !m0.sys.running then m0
  else
    let m := advanceToNet m0 h ((nowH m0 h / nsPerSec + 1) * nsPerSec)
    (List.range 4).foldl (fun m i =>
      let k := h * 4 + i
      let b := bank m k
      setNat m 0x4200 6 k (if b.lastSlots = 0 then 0 else (b.lastSlots - b.lastBlocks) * 10000 / b.lastSlots)) m

end Sys2Proof.Machine
end

