-- ==== Sys2Proof/Machine/Class.lean ====
section
/-! DEFINITION. Classification and learning: policy key, direct table, LPM tables with their filters and banks, misses, the learn
queue and the learn-hold buffer (R390 to R449). The length filters (R399) follow from the prefixes a table holds. -/

namespace Sys2Proof.Machine

/-! ### The policy key -/

/-- The direct-table element of a frame on a port (R390, R393). -/
def directElem (port : Nat) (t : Tags) : Nat := basinOf port * 65536 + port % 8 * 8192 + (if t.untagged then 4096 else t.vid)

/-! ### Prefixes, filters, banks -/

/-- The bits of an address of a family. -/
def addrBits (v6 : Bool) : Nat := if v6 then 128 else 32

/-- A prefix covers an address. -/
def covers (v6 : Bool) (len addr a : Nat) : Bool := a / 2 ^ (addrBits v6 - len) == addr / 2 ^ (addrBits v6 - len)

/-- The longest match in a table (R405). -/
def lpmFind (c : Cls) (table : Nat) (v6 : Bool) (a : Nat) : Option Prefix :=
  c.prefixes.foldl (fun best p =>
    if p.table = table ∧ p.v6 = v6 ∧ covers v6 p.len p.addr a then
      match best with
      | some b => if b.len < p.len then some p else best
      | none => some p
    else best) none

/-- The first and last filter slot a prefix reaches (R399, R400). -/
def slotRange (v6 : Bool) (len addr : Nat) : Nat × Nat :=
  let lo := addr / 2 ^ (addrBits v6 - 16)
  (lo, if len < 16 then lo + 2 ^ (16 - len) - 1 else lo)

/-- The lengths a filter slot holds (R399, R400). -/
def slotLens (c : Cls) (table : Nat) (v6 : Bool) (slot : Nat) : List Nat :=
  ((c.prefixes.filter fun p => p.table == table && p.v6 == v6 &&
    decide ((slotRange v6 p.len p.addr).1 ≤ slot ∧ slot ≤ (slotRange v6 p.len p.addr).2)).map (·.len)).eraseDups

/-- The bank of a length (R401, R402); tables are numbered basin × 8 + table (R440). -/
def bankOfLen (m : Mod) (p : Tbl Val) (tbl : Nat) (v6 : Bool) (len : Nat) : Nat := natAt (look m p 0x5100 (if v6 then 3 else 2) tbl).toOct len 1

/-- A prefix that takes two slots (R408). -/
def isLong (p : Prefix) : Bool := p.v6 && decide (64 < p.len)
def slotsOf (p : Prefix) : Nat := if isLong p then 2 else 1

/-- The bank a prefix lies in. -/
def bankOfPrefix (m : Mod) (basin : Nat) (p : Prefix) : Nat := bankOfLen m [] (basin * 8 + p.table) p.v6 p.len

/-- Slots used in a bank; by a table; by a berth's tables (R411, R440, R445). -/
def bankUsed (m : Mod) (basin k : Nat) : Nat :=
  ((clsOf m basin).prefixes.filter fun p => bankOfPrefix m basin p == k).foldl (fun s p => s + slotsOf p) 0
def tableUsed (m : Mod) (tbl : Nat) : Nat := ((clsOf m (tbl / 8)).prefixes.filter fun p => p.table == tbl % 8).foldl (fun s p => s + slotsOf p) 0
def lpmUsed (m : Mod) (b basin : Nat) : Nat :=
  ((List.range 8).filter fun t => inf m 0x5100 1 (basin * 8 + t) == b).foldl (fun s t => s + tableUsed m (basin * 8 + t)) 0

/-- The two candidate buckets of a prefix (R409). -/
def bucketsOf (c : Cls) (p : Prefix) : List Nat :=
  [Config.lpmHash c.seed p.table (b01 p.v6) p.len p.addr 0 % 8192, Config.lpmHash c.seed p.table (b01 p.v6) p.len p.addr 1 % 8192]

/-- Whether a way of a bucket is taken, among the prefixes of one bank. -/
def wayTaken (ps : List Prefix) (bucket way : Nat) : Bool :=
  ps.any fun p => p.bucket == bucket && (p.way == way || (isLong p && p.way + 1 == way))

/-- The free ways of a bucket for a prefix: any way, or ways 0 and 1 or 2 and 3 together (R408). -/
def freeWays (ps : List Prefix) (p : Prefix) (bucket : Nat) : List Nat :=
  if isLong p then [0, 2].filter fun w => !wayTaken ps bucket w && !wayTaken ps bucket (w + 1)
  else [0, 1, 2, 3].filter fun w => !wayTaken ps bucket w

/-- Every way to make room for a prefix in a bucket of its bank with at most so many moves (R410): the prefixes after the moves, the way, and the
moves made. -/
def roomsIn (c : Cls) : Nat → List Prefix → Prefix → Nat → List (List Prefix × Nat × Nat)
  | 0, ps, p, b => (freeWays ps p b).map fun w => (ps, w, 0)
  | n + 1, ps, p, b =>
    (freeWays ps p b).map (fun w => (ps, w, 0)) ++
    (ps.filter fun u => u.bucket == b).flatMap fun u => ((bucketsOf c u).filter (· != u.bucket)).flatMap fun other =>
      (roomsIn c n ps u other).flatMap fun x =>
        let moved := x.1.map fun y => if y = u then { u with bucket := other, way := x.2.1 } else y
        ((roomsIn c (n - x.2.2) moved p b).map fun y => (y.1, y.2.1, x.2.2 + 1 + y.2.2)).filter fun y => decide (y.2.2 ≤ n + 1)

/-- The placement of a new prefix (R410): the bank's prefixes after the moves, bucket, way, moves. Of the chains of at most three moves that make
room, the shortest is taken, and of those the first (DESIGN CHOICE, log 55). -/
def placeNew (c : Cls) (ps : List Prefix) (p : Prefix) : Option (List Prefix × Nat × Nat × Nat) :=
  let bs := bucketsOf c p
  [0, 1, 2, 3].findSome? fun n => bs.findSome? fun b => (roomsIn c n ps p b).head?.map fun x => (x.1, b, x.2.1, x.2.2)

/-! ### The prefix record -/

/-- A prefix record (R442); the reserved fields must be zero (R13), in a Delete only those before byte 18. -/
def prefixOf (table : Nat) (r : Octets) (del : Bool) : Option Prefix :=
  let v6 := bit (natAt r 0 1) 7
  let len := natAt r 1 1
  let addr := if v6 then natAt r 2 16 else natAt r 2 4
  if r.length = 24 ∧ natAt r 0 1 % 64 = 0 ∧ len ≤ addrBits v6 ∧ addr % 2 ^ (addrBits v6 - len) = 0 ∧
     (v6 ∨ sub r 6 12 = zeros 12) ∧ (del ∨ natAt r 22 2 = 0) then
    some { table, v6, len, addr, drop := bit (natAt r 0 1) 6, queue := natAt r 18 2, assoc := natAt r 20 2, bucket := 0, way := 0 }
  else none

/-- The record of a prefix (R442). -/
def prefixBytes (p : Prefix) : Octets :=
  b1 (bitAt p.v6 7 + bitAt p.drop 6) ++ b1 p.len ++ (if p.v6 then bytesOf 16 p.addr else b4 p.addr ++ zeros 12) ++ b2 p.queue ++ b2 p.assoc ++ zeros 2

/-- The same prefix of the same table. -/
def samePrefix (p q : Prefix) : Bool := p.table == q.table && p.v6 == q.v6 && p.len == q.len && p.addr == q.addr

/-- What a query finds (R441): the record of the match; byte 1 is 0xFF on a miss. -/
def queryResult (m : Mod) (tbl : Nat) (q : Octets) : Octets :=
  let v6 := bit (natAt q 0 1) 7
  match lpmFind (clsOf m (tbl / 8)) (tbl % 8) v6 (if v6 then natAt q 1 16 else natAt q 1 4) with
  | some p => prefixBytes p
  | none => zeros 1 ++ b1 0xFF ++ zeros 22

/-! ### The probe budget -/

/-- The filter slots at which what a prefix meets can change: the first slot it reaches, and the first and the slot after the last of
every other prefix of the table and family. -/
def slotEdges (c : Cls) (p : Prefix) : List Nat :=
  let (lo, hi) := slotRange p.v6 p.len p.addr
  let near := c.prefixes.filter fun q => q.table == p.table && q.v6 == p.v6
  ((lo :: near.flatMap fun q => [(slotRange q.v6 q.len q.addr).1, (slotRange q.v6 q.len q.addr).2 + 1]).filter fun s =>
    decide (lo ≤ s ∧ s ≤ hi)).mergeSort (· ≤ ·)

/-- The probe budget (R406, R407): slot and clashing length of a refusal, 0xFF for a full slot. -/
def budgetRefusal (m : Mod) (basin : Nat) (p : Prefix) : Option (Nat × Nat) :=
  let c := clsOf m basin
  let open_ := (slotEdges c p).filter fun s => !(slotLens c p.table p.v6 s).contains p.len
  (open_.findSome? fun s => if 8 ≤ (slotLens c p.table p.v6 s).length then some (s, 0xFF) else none) <|>
  (open_.findSome? fun s =>
    ((slotLens c p.table p.v6 s).find? fun l =>
      bankOfLen m [] (basin * 8 + p.table) p.v6 l == bankOfLen m [] (basin * 8 + p.table) p.v6 p.len).map fun l => (s, l))

/-! ### The result of a lookup -/

/-- An association named by an element of the direct table, where 0xFFFF names none (R438); 65536 is no association. -/
def some16 (a : Nat) : Nat := if a = 0xFFFF then 65536 else a

/-- Steps 6 and 7 of R420: a result that has gone stale is not accepted; a frame without the tag that CLEAR_TAG keeps in
clear is not accepted either (R216); otherwise the frame is offered to its queue. -/
def forward (m : Mod) (port : Nat) (bytes : Octets) (stamp at_ heldFor q a : Nat) : Mod :=
  if ¬ (aType m a = 1 ∨ aType m a = 5) ∨ aPort m a ≠ qPort m [] q ∨ 64 ≤ qPort m [] q then bump m 0x5040 4 port 1
  else if aType m a = 1 ∧ clearTag m a ∧ (tagsOf bytes).untagged then bump m 0x4020 7 a 1
  else offer m (mkDesc m bytes q a port stamp at_ heldFor) false

/-- Step 4 of R420: a match. -/
def onMatch (m : Mod) (port : Nat) (bytes : Octets) (stamp at_ heldFor : Nat) (p : Prefix) : Mod :=
  if p.drop then bump m 0x5040 5 port 1 else forward m port bytes stamp at_ heldFor p.queue p.assoc

/-- The time since a cycle, in 0.1 ns. -/
def since (m : Mod) (at_ : Nat) : Nat := (m.sys.elapsed - at_) * 8

/-! ### Held frames -/

/-- Bytes the learn-hold buffer holds. -/
def heldBytes (c : Cls) : Nat := c.held.foldl (fun s x => s + x.d.len) 0

/-- The cycle at which a held frame's hold time ends (R431). -/
def holdEnd (m : Mod) (x : Held) : Nat := x.d.at_ + inf m 0x5000 7 x.elem * usCycles

/-- The held frames of a basin whose hold time is over are dropped (R431), in arrival order. -/
def dropExpired (m : Mod) (basin : Nat) : Mod :=
  let c := clsOf m basin
  let done (x : Held) : Bool := decide (holdEnd m x ≤ m.sys.elapsed)
  if c.held.any done then
    (c.held.filter done).foldl (fun m x => bump m 0x5040 0x0B x.d.ingress 1) (setCls m basin { c with held := c.held.filter fun x => !done x })
  else m

/-- The held frames that stay and those that leave: the ones a test picks, but for a frame behind one of its flow that stays, which it does not
overtake (R428, R431). -/
def splitHeld (hit : Held → Bool) (l : List Held) : List Held × List Held :=
  l.foldl (fun a x => if hit x && !(a.1.any (·.flow == x.flow)) then (a.1, a.2 ++ [x]) else (a.1 ++ [x], a.2)) ([], [])

/-- The held frames of a table that an inserted prefix covers, and whose hold time is not over, are looked up again in arrival order
(R429, R430). -/
def releaseHeld (m0 : Mod) (basin : Nat) (p : Prefix) : Mod :=
  let m := dropExpired m0 basin
  let c := clsOf m basin
  let (stay, go) := splitHeld (fun x => x.table == p.table && x.flow.2.1 == p.v6 && covers p.v6 p.len p.addr x.flow.2.2) c.held
  go.foldl (fun m x =>
    match lpmFind (clsOf m basin) x.table x.flow.2.1 x.flow.2.2 with
    | none => m
    | some q => onMatch (bump m 0x5040 0x0A x.d.ingress 1) x.d.ingress x.d.bytes x.d.stamp x.d.at_ (since m x.d.at_) q)
    (setCls m basin { c with held := stay })

/-- HOLD_EXPIRE: time runs to the end of the shortest hold of the basin, and the frame is dropped (R431). -/
def expireHold (m : Mod) (basin : Nat) : Mod :=
  let c := clsOf m basin
  match c.held.foldl (fun (a : Option Held) x => match a with
    | some y => if holdEnd m x < holdEnd m y then some x else a
    | none => some x) none with
  | none => m
  | some x =>
    let m1 := advanceTo m (holdEnd m x)
    bump (setCls m1 basin { c with held := c.held.erase x }) 0x5040 0x0B x.d.ingress 1

/-! ### Insertion and deletion -/

/-- Event 0x5004 as a bank's slots in use pass 90 %, and again after they fell below 85 % (R418). -/
def watchBank (m : Mod) (basin k : Nat) : Mod :=
  let n := bankUsed m basin k
  let c := clsOf m basin
  if 32768 * 90 < n * 100 ∧ tget false c.above k = false then
    raise (setCls m basin { c with above := tset false c.above k true }) 0x5004 (srcH (basin / 2)) 0 (b1 basin ++ b1 k ++ b4 n)
  else if n * 100 < 32768 * 85 then setCls m basin { c with above := tset false c.above k false }
  else m

/-- Every bank of a basin that is past its mark, watched after prefixes have gone. -/
def watchBanks (m : Mod) (basin : Nat) : Mod := ((clsOf m basin).above.map (·.1)).foldl (watchBank · basin) m

/-- A prefix inserted (R406 to R416, R422, R429): a refusal changes only the refusal counters. The table is numbered
basin × 8 + table; the status comes with the values of the refusal's detail. -/
def insertPrefix (m : Mod) (tbl : Nat) (record : Octets) : Mod × Nat × List Nat :=
  let basin := tbl / 8
  let owner := inf m 0x5100 1 tbl
  match prefixOf (tbl % 8) record false with
  | none => (m, 0x2001, [])
  | some p =>
    let c := clsOf m basin
    if 32768 ≤ p.queue ∨ qBerth m [] p.queue ≠ owner ∨ aBerth m p.assoc ≠ owner then (m, 0x1006, [])
    else if ¬ (aType m p.assoc = 1 ∨ aType m p.assoc = 5) ∨ aBasin p.assoc ≠ basin ∨ qBasin p.queue ≠ basin ∨
        aPort m p.assoc ≠ qPort m [] p.queue ∨ 64 ≤ qPort m [] p.queue then (m, 0x2001, [])
    else if c.prefixes.any (samePrefix p) then
      let ps := c.prefixes.map fun q => if samePrefix p q then { q with drop := p.drop, queue := p.queue, assoc := p.assoc } else q
      (releaseHeld (setCls m basin { c with prefixes := ps }) basin p, 0, [])
    else if shareOf m [] owner basin 3 < lpmUsed m owner basin + slotsOf p then (m, 0x3001, [shareOf m [] owner basin 3])
    else if 262144 < c.prefixes.foldl (fun s q => s + slotsOf q) 0 + slotsOf p then (m, 0x3001, [262144])
    else match budgetRefusal m basin p with
      | some (s, l) => (bump m 0x5100 7 tbl 1, 0x3004, [s, p.len, bankOfPrefix m basin p, l])
      | none =>
        let k := bankOfPrefix m basin p
        match placeNew c (c.prefixes.filter fun q => bankOfPrefix m basin q == k) p with
        | none => (bump m 0x5130 2 (basin * 8 + k) 1, 0x3001, [k, bankUsed m basin k])
        | some (ps, b, w, moves) =>
          let kept := c.prefixes.map fun q => (ps.find? (samePrefix q)).getD q
          let m1 := bump (setCls m basin { c with prefixes := kept ++ [{ p with bucket := b, way := w }] }) 0x5130 3 (basin * 8 + k) moves
          (releaseHeld (watchBank m1 basin k) basin p, 0, [])

/-- A prefix deleted (R414, R443). -/
def deletePrefix (m : Mod) (tbl : Nat) (record : Octets) : Mod × Nat :=
  let basin := tbl / 8
  match prefixOf (tbl % 8) record true with
  | none => (m, 0x2001)
  | some p =>
    let c := clsOf m basin
    if c.prefixes.any (samePrefix p) then
      (watchBank (setCls m basin { c with prefixes := c.prefixes.filter fun q => !samePrefix p q }) basin (bankOfPrefix m basin p), 0)
    else (m, 0x1002)

/-- Start-up restores the stored prefixes under the new seed, in the order of their first insertion; one that cannot be placed is
left out with event 0x5006 (R419). A stored prefix is its table's number and its record. -/
def restorePrefix (m : Mod) (x : Octets) : Mod :=
  let tbl := natAt x 0 1
  let basin := tbl / 8
  match prefixOf (tbl % 8) (x.drop 1) false with
  | none => m
  | some p =>
    let c := clsOf m basin
    let k := bankOfPrefix m basin p
    match placeNew c (c.prefixes.filter fun q => bankOfPrefix m basin q == k) p with
    | none => raise m 0x5006 (srcH (basin / 2)) (bpidOf m (inf m 0x5100 1 tbl)) (b1 basin ++ b1 (tbl % 8) ++ b1 (b01 p.v6) ++ b1 p.len ++ sub x 3 16)
    | some (ps, b, w, moves) =>
      let kept := c.prefixes.map fun q => (ps.find? (samePrefix q)).getD q
      watchBank (bump (setCls m basin { c with prefixes := kept ++ [{ p with bucket := b, way := w }] }) 0x5130 3 (basin * 8 + k) moves) basin k

/-! ### Learning -/

/-- A learn notification (R432, R433). -/
def learnRecord (m : Mod) (port table : Nat) (t : Tags) (v6 : Bool) (a berth stamp len seq : Nat) (held : Bool) : Octets :=
  let basin := basinOf port
  b4 seq ++ b2 (basin * 2 ^ 14 + port % 8 * 2 ^ 11 + bitAt t.untagged 10 + bitAt v6 9 + bitAt held 8 + bitAt (synced m (basin / 2)) 7 + table * 16) ++
  b2 t.vid ++ b1 berth ++ zeros 1 ++ timeBytes (stamp / 65536) ++ (if v6 then bytesOf 16 a else b4 a ++ zeros 12) ++ b2 len ++ zeros 2

/-- A missed frame's notification (R424, R425, R437): posted, suppressed, or not posted for want of room. -/
def notifyMiss (m : Mod) (port : Nat) (flow : Nat × Bool × Nat) (record : Nat → Octets) : Mod :=
  let basin := basinOf port
  let c := clsOf m basin
  if c.learn.any (·.flow == flow) then bump m 0x5040 7 port 1
  else if 4096 ≤ c.learn.length then
    bump (bump (setCls m basin { c with missed := c.missed + 1 }) 0x5040 8 port 1) 0x5200 6 basin 1
  else
    let x : Learn := { seq := c.nextSeq, bytes := record c.nextSeq, flow }
    let full := c.learn.length + 1 == 4096
    let m1 := setCls m basin { c with learn := c.learn ++ [x], nextSeq := (c.nextSeq + 1) % 2 ^ 32, full := c.full || full, missed := if full then 0 else c.missed }
    let m2 := bump (bump m1 0x5040 6 port 1) 0x5200 5 basin 1
    let m3 := if c.learn.isEmpty then raise m2 0x5001 (srcH (basin / 2)) 0 (b1 basin ++ b4 x.seq) else m2
    if full then raise m3 0x5002 (srcH (basin / 2)) 0 (b1 basin) else m3

/-- 0x5200:04: every pending record up to a sequence acknowledged (R435, R437). -/
def acknowledgeLearn (m : Mod) (basin seq : Nat) : Mod × Nat :=
  let c := clsOf m basin
  if c.learn.any (·.seq == seq) then
    let rest := (c.learn.dropWhile fun x => x.seq != seq).drop 1
    let m1 := setCls m basin { c with learn := rest, full := false, missed := if c.full then 0 else c.missed }
    (if c.full then raise m1 0x5003 (srcH (basin / 2)) 0 (b1 basin ++ b8 c.missed) else m1, 0)
  else (m, 0x2001)

/-- The learn-hold buffer takes a frame or not (R427). -/
def holdRoom (c : Cls) (len : Nat) : Bool := decide (c.held.length < 2048) && decide (heldBytes c + len ≤ 1048576)

/-- A frame for the learn-hold buffer (R426 to R428): held behind the others, or dropped and counted; event 0x5005 when the buffer is
full. -/
def holdFrame (m : Mod) (port : Nat) (x : Held) : Mod :=
  let basin := basinOf port
  let c := clsOf m basin
  if !(c.learn.any (·.flow == x.flow) || c.held.any (·.flow == x.flow)) then bump m 0x5040 0x0C port 1
  else if !holdRoom c x.d.len then
    raiseOnce (bump m 0x5040 0x0C port 1) 0x5005 basin (srcH (basin / 2)) 0 (b1 basin ++ b8 c.held.length ++ b8 (heldBytes c))
  else bump (setCls m basin { c with held := c.held ++ [x] }) 0x5040 9 port 1

/-! ### The lookup of a clear frame -/

/-- The miss policy, LEARN and NON_IP of a clear half (R439). -/
def missPolicy (m : Mod) (e : Nat) : Nat := bits (inf m 0x5000 4 e) 3 2
def learns (m : Mod) (e : Nat) : Bool := (inf m 0x5000 4 e).testBit 2
def nonIp (m : Mod) (e : Nat) : Bool := (inf m 0x5000 4 e).testBit 1

/-- R420 for a frame on a clear port: its bytes without FCS, ingress stamp in 2^-16 ns and cycle. A frame whose flow has frames held joins them,
also where the element's action has become fixed or drop since (R428). -/
def classify (m0 : Mod) (port : Nat) (bytes : Octets) (stamp at_ : Nat) : Mod :=
  let t := tagsOf bytes
  let e := directElem port t
  let basin := basinOf port
  let m := bump (dropExpired m0 basin) 0x5000 9 e 1
  let default (m : Mod) : Mod := forward m port bytes stamp at_ 0 (inf m 0x5000 5 e) (some16 (inf m 0x5000 6 e))
  match ipDest bytes t with
    | none => if inf m 0x5000 1 e = 0 then bump m 0x5040 1 port 1 else if inf m 0x5000 1 e = 1 || nonIp m e then default m else bump m 0x5040 2 port 1
    | some (v6, a) =>
      let table := inf m 0x5000 3 e
      let flow := (e % 65536, v6, a)
      let c := clsOf m basin
      let waiting := c.held.any (·.flow == flow)
      let len := bytes.length + 4
      let held : Held := { d := { bytes, queue := 0, len, ingress := port, stamp, at_, berth := inf m 0x5000 2 e }, flow, table, elem := e }
      if inf m 0x5000 1 e ≤ 1 then (if waiting then holdFrame m port held else if inf m 0x5000 1 e = 1 then default m else bump m 0x5040 1 port 1)
      else match lpmFind c table v6 a with
      | some p => if waiting then holdFrame m port held else onMatch m port bytes stamp at_ 0 p
      | none =>
        let willHold := (waiting || missPolicy m e == 2) && holdRoom c len
        let m1 := if learns m e then
            notifyMiss m port flow fun s => learnRecord m port table t v6 a (inf m 0x5000 2 e) stamp len s willHold
          else m
        if waiting || missPolicy m e == 2 then holdFrame m1 port held
        else if missPolicy m e = 1 then default m1
        else bump m1 0x5040 3 port 1

end Sys2Proof.Machine
end

