-- ==== Sys2Proof/Machine/Receive.lean ====
section
/-! DEFINITION. Frames received: the checks of every Ethernet port (R55 to R57), the Camanent and PTP intercepts (R582, R725 to R730),
clear frames, and 802.1AE frames on frame-mode line ports (R214 to R234, R272 to R274). -/

namespace Sys2Proof.Machine

/-! ### The intercept -/

/-- The bucket a source finds on a clear port (R726): its own for the first 32 sources, else the shared one, 32. -/
def bucketOf (x : Intercept) (src : Nat) : Nat × Intercept :=
  match x.sources.findIdx? (· == src) with
  | some i => (i, x)
  | none => if x.sources.length < 32 then (x.sources.length, { x with sources := x.sources ++ [src] }) else (32, x)

/-- Credit used of a bucket now: 20 Mbit/s return one byte in 500 cycles (R726). The part of a byte under way is kept in the time. -/
def bucketNow (m : Mod) (x : Intercept) (i : Nat) : Nat × Nat :=
  let back := (m.sys.elapsed - tget 0 x.at_ i) / 500
  (tget 0 x.used i - back, tget 0 x.at_ i + back * 500)

def interceptOf (m : Mod) (p : Nat) : Intercept := tget {} m.mgmt.icept p
def setIntercept (m : Mod) (p : Nat) (x : Intercept) : Mod := { m with mgmt := { m.mgmt with icept := tset {} m.mgmt.icept p x } }

/-- The clear ports of a harbour in the order its round robin looks at them (R727). -/
def pathOrder (m : Mod) (h : Nat) : List Nat :=
  let ports := (List.range 16).map fun i => h * 32 + i / 8 * 16 + i % 8
  let n := tget 0 m.mgmt.pathNext h
  ports.drop n ++ ports.take n

/-- The reserved path of a harbour serves waiting frames whole, at 1 Gbit/s, ten cycles a byte, up to now; the number bounds them. -/
def servePath (m : Mod) (h : Nat) : Nat → Mod
  | 0 => m
  | n + 1 =>
    let heads := (pathOrder m h).filterMap fun p => ((interceptOf m p).waiting.head?).map fun w => (p, w)
    match heads with
    | [] => m
    | _ =>
      let first := heads.foldl (fun a x => min a x.2.1) (2 ^ 70)
      let start := max (tget 0 m.mgmt.pathFree h) first
      match heads.find? fun x => decide (x.2.1 ≤ start) with
      | none => m
      | some (p, w) =>
        if m.sys.elapsed < start + w.2 * 10 then m
        else
          let x := interceptOf m p
          let i := p % 32 / 16 * 8 + p % 8
          let m1 := setIntercept m p { x with waiting := x.waiting.drop 1 }
          servePath { m1 with mgmt := { m1.mgmt with pathFree := tset 0 m1.mgmt.pathFree h (start + w.2 * 10), pathNext := tset 0 m1.mgmt.pathNext h ((i + 1) % 16) } } h n

/-- A frame taken by the intercept (R725 to R727): policed, held in the port's buffer, and served to the pilot. Its message is
served by the command of its own row. -/
def intercept (m0 : Mod) (p : Nat) (bytes : Octets) : Mod :=
  let h := harbourOf p
  let m := servePath m0 h (((List.range 16).map fun i => (interceptOf m0 (h * 32 + i / 8 * 16 + i % 8)).waiting.length).foldl (· + ·) 0)
  let len := bytes.length + 4
  let (i, x) := bucketOf (interceptOf m p) (natAt bytes 6 6)
  let (used, at_) := bucketNow m x i
  if 65536 ≤ used then bump (setIntercept m p { x with used := tset 0 x.used i used, at_ := tset 0 x.at_ i at_ }) 0x2030 2 p 1
  else
    let y := { x with used := tset 0 x.used i (used + len), at_ := tset 0 x.at_ i (if used = 0 then m.sys.elapsed else at_) }
    if 65536 < y.waiting.foldl (fun s w => s + w.2) 0 + len then bump (setIntercept m p y) 0x2030 6 p 1
    else bump (setIntercept m p { y with waiting := y.waiting ++ [(m.sys.elapsed, len)],
                                         tags := tins (natAt bytes 6 6) (sub bytes 12 ((tagsOf bytes).off - 14)) (tdel y.tags (natAt bytes 6 6)) }) 0x2030 1 p 1

/-- The length of a message on the wire (R742, R745): a 32-byte header, the body, and the tag of a protected message, or that of a message
passed on. -/
def Msg.size (x : Msg) : Nat := (x.raw.map (·.length)).getD (32 + x.body.length + (if x.sealed then 16 else 0))

/-- The flags of a message (R743): an answer, protected, more to follow. -/
def Msg.flags (x : Msg) : Nat := bitAt x.isReply 15 + bitAt x.sealed 14 + bitAt x.more 13

/-- A message as bytes (R742) with the BPID of its session; the body of a protected one stands as plaintext, with zeros for its tag (log 4). -/
def Msg.bytes (x : Msg) (bpid : Nat) : Octets :=
  x.raw.getD <|
  b1 1 ++ b1 x.op ++ b2 x.flags ++ b4 x.session ++ b8 x.sequence ++ b3 bpid ++ b1 0xFF ++ b2 x.status ++ zeros 2 ++ b4 x.body.length ++ b4 x.reference ++
  x.body ++ (if x.sealed then zeros 16 else [])

/-- The Ethernet header of a reply on a clear port (R728): to the request's source, from the MAC address of the management port of the harbour, with the
request's tags. -/
def replyHead (serial : Octets) (m : Mod) (p dst : Nat) : Octets :=
  bytesOf 6 dst ++ fit 6 (Config.serialMac serial (harbourOf p)) ++ tget [] (interceptOf m p).tags dst ++ b2 (inf m 0x2000 2 0)

/-- INTERCEPT_REPLY_SEND: the oldest reply of a clear port starts when the arbiter has no eligible frame and it ends before the
opening of a fitted window (R728, R729). -/
def sendReply (serial : Octets) (m : Mod) (p : Nat) : Mod :=
  let x := interceptOf m p
  match x.replies with
  | [] => m
  | (t, r) :: rest =>
    let head := replyHead serial m p r.dst
    let debit := max 64 (head.length + r.size + 4) + 20
    let a := arb m p
    let idle := (pickNext m p).isNone && decide (a.pace ≤ m.sys.elapsed * 800000)
    let g := gate m p
    let tx := bytesTime debit (paceRate m [] p)
    let clear := (fittedOpenings g (startTenths m p false)).all fun o => decide (tx ≤ o)
    if isLine p || !m.sys.running || !(port m p).up || !idle || !clear || decide (t + secCycles < m.sys.elapsed) then m
    else
      let m1 := setIntercept m p { x with replies := rest }
      let m2 := setArb m1 p { a with pace := max a.pace (m.sys.elapsed * 800000) + ceilDiv (debit * 8000000000000) (paceRate m [] p) }
      emit (bump m2 0x2030 4 p 1) (match r.raw with
        | some b => .relayed r.path r.dst b
        | none => .message { r with head })

/-- INTERCEPT_REPLY_DISCARD: a reply that has not started within 1 s (R730). -/
def discardReply (m : Mod) (p : Nat) : Mod :=
  let x := interceptOf m p
  match x.replies with
  | [] => m
  | (t, _) :: rest => if isLine p then m else bump (setIntercept (advanceTo m (t + secCycles)) p { x with replies := rest }) 0x2030 5 p 1

/-! ### Ethernet ports -/

/-- The counter of 0x3100 that takes a frame on a port (R55 to R57): FCS, length, MAC Control. -/
def portDrop (m : Mod) (p len ethertype : Nat) (fcsOk : Bool) : Option Nat :=
  if !fcsOk then some 0x0D
  else if len < 64 ∨ inf m 0x3100 0x0C p < len then some 0x0E
  else if ethertype = 0x8808 then some 0x0F
  else none

/-- A port's receive side passes frames: enabled and aligned (R60, R70). -/
def receiving (m : Mod) (p : Nat) : Bool :=
  m.sys.running && portEnabled m p && ((port m p).phase == 4 || (port m p).phase == 5) && (isLine p || (port m p).up)

/-- CLEAR_FRAME_RECEIVE: the checks of R56 in order, the intercepts, then the classifier (R420). The EtherType by which a frame is a MAC Control
frame is the one after its VLAN tags (R55; DESIGN CHOICE, log 50). Admission is decided with the command, on the
state it finds; the part of the fixed latency before admission only keeps the frame from an earlier release (log 9). -/
def clearReceive (m : Mod) (p : Nat) (f : Frame) : Mod :=
  if isLine p || !receiving m p then m
  else
    let t := tagsOf f.bytes
    match portDrop m p (f.bytes.length + 4) t.ethertype f.fcsOk with
    | some sub => bump m 0x3100 sub p 1
    | none =>
      let clock := infB m 0x7020 1 0 && inf m 0x7010 2 0 == p && forClock m f.bytes
      if t.ethertype = inf m 0x2000 2 0 then intercept m p f.bytes
      else if clock || (p2pOn m p && isPdelay f.bytes) then intercept m p f.bytes
      else classify m p (linkCorrect m p f.bytes) (stampFine m p f.half) (stampCycle m p)

/-! ### Delivery to queues -/

/-- The blocks of a frame join those that wait for a bank's pipelines, in frame order (R332). -/
def frameBlocks (m : Mod) (k : Nat) (j : Job) : Mod := setBank m k { bank m k with jobs := (bank m k).jobs ++ [j] }

/-- A received frame that has passed its checks: counted and offered to the queue named (R229). What the masked engine decrypted comes 1,536 ns
later (R371). A port with P2P forwards no Pdelay message (R589). -/
def received (m : Mod) (p a : Nat) (bytes : Octets) (stamp at_ : Nat) : Mod :=
  let m1 := bump (bump m 0x4020 8 a 1) 0x4020 9 a (bytes.length + 4)
  let d := mkDesc m1 (linkCorrect m1 p bytes) (inf m 0x4000 9 a) 65536 p stamp at_ 0
  if p2pOn m p && isPdelay bytes then m1
  else offer m1 (if isHa m [] a && isGcm (aSuite m a) then { d with ready := d.ready + 1920 } else d) (isHa m [] a)

/-- Checks 3 to 8 of R229 for a frame with a SecTAG under an association, and its delivery: `cipher` is the sealed part, and `opened` says what
the frame's bytes open to under a key and an IV, none when the ICV fails. A high-assurance frame that finds the engine busy is not accepted (R372). -/
def verifyFrame (m : Mod) (p a : Nat) (t : SecTag) (addresses : Octets) (len stamp at_ : Nat) (inner : Bool)
    (aad cipher : Octets) (opened : Octets → Octets → Option Octets) : Mod :=
  match rxChecks m a t with
  | .error sub => bump m 0x4020 sub a 1
  | .ok (ph, pn) =>
    let k := basinOf p * 2 + 1
    let ha := isHa m [] a
    let n := blocksOf len
    if ha && !engineFree m k then bump m 0x4210 8 (basinOf p) 1
    else
      let y := (assoc m a).slot ph
      let iv := gcmIv (aSuite m a) (if t.sc then t.sci else (look m [] 0x4000 6 a).toOct) (inf m 0x4000 7 a) pn y.salt
      let j : Job := { key := suiteKey (aSuite m a) y.key, j0 := firstCounter iv, data := cipher, aad := some aad, count := n }
      let m1 := if ha then takeEngine m k j else frameBlocks m k j
      match opened (suiteKey (aSuite m a) y.key) iv with
      | none => bump m1 0x4020 0x0C a 1
      | some data =>
        let m2 := rxVerified m1 a ph pn
        received (if inner then bump m2 0x3200 0x16 p 1 else m2) p a (addresses ++ data) stamp at_

/-! ### 802.1AE frames -/

/-- The association a frame's policy key names on a line port, with the element's line hits (R222, R274, R438). -/
def lineLookup (m : Mod) (p : Nat) (head : Octets) : Nat × Mod :=
  let e := directElem p (tagsOf head)
  (some16 (inf m 0x5000 8 e), bump m 0x5000 0x0A e 1)

/-- The lookup result is usable on a port: a frame RX association bound to it with one of some suites (R226, R227). -/
def usableRx (m : Mod) (p a : Nat) (suites : List Nat) : Bool := aType m a == 2 && aPort m a == p && suites.contains (aSuite m a)

/-- What stands before the SecTAG is what the association expects (R217): with CLEAR_TAG the addresses and one 802.1Q tag, else the addresses
alone. -/
def tagExpected (m : Mod) (a : Nat) (head : Octets) : Bool :=
  if clearTag m a then head.length == 16 && (natAt head 12 2 == 0x8100 || natAt head 12 2 == 0x88A8) else head.length == 12

/-- FRAME_MODE_RECEIVE, with admission decided by the command as at a clear port (log 9): the checks of R56, the lookup (R222 to R227), checks 1 to 8 of R229, bypass (R274). A clear tag that the
association does not expect, or one it misses, is a frame for which no association is found. -/
def frameReceive (m : Mod) (p : Nat) (f : LineFrame) : Mod :=
  if !isLine p || isGelix m p || !receiving m p then m
  else
    let stamp := stampFine m p f.half
    match portDrop m p f.length (if f.tag.isNone then (tagsOf f.head).ethertype else 0) f.fcsOk with
    | some sub => bump m 0x3100 sub p 1
    | none =>
      match f.tag with
      | none =>
        let (a, m1) := lineLookup m p f.head
        if usableRx m p a [0xFE] then
          let m2 := bump m1 0x4020 0x10 a 1
          offer m2 (mkDesc m2 (linkCorrect m2 p f.head) (inf m 0x4000 9 a) 65536 p stamp (stampCycle m p) 0) (isHa m [] a)
        else bump m1 0x4030 2 p 1
      | some t =>
        let len := f.body.plain.length
        if !wellFormedTag t len then bump m 0x4030 3 p 1
        else
          let byIndex := inf m 0x4030 1 p == 1
          let (a, m1) := if byIndex then ((if t.sc && natAt t.sci 6 2 / 16384 == basinOf p then natAt t.sci 6 2 else 65536), m) else lineLookup m p f.head
          if !usableRx m p a (if byIndex then [3, 4] else [1, 2]) || !tagExpected m a f.head then bump m1 0x4030 4 p 1
          else
            let cipher := (gcmSeal f.body.key f.body.iv f.body.aad f.body.plain).take len
            verifyFrame m1 p a t f.head len stamp (stampCycle m p) false f.body.aad cipher fun key iv =>
              if f.body.intact ∧ f.body.key = key ∧ f.body.iv = iv ∧ f.body.aad = secAad (f.head.take 12) t (conf m a) f.body.plain then some f.body.plain
              else none

end Sys2Proof.Machine
end

