-- ==== Sys2Proof/Machine/Berths.lean ====
section
/-! DEFINITION. Berths: shares and their over flags (R691 to R698), and the berth reset with its release (R699 to R712). -/

namespace Sys2Proof.Machine

/-! ### Shares -/

/-- The use of a shared resource 1 to 6 by a berth in a basin (R691). -/
def useOf (m : Mod) (b basin r : Nat) : Nat :=
  match r with
  | 1 => ((elems m [] 0x6000 1 ++ m.queues.map (·.1)).eraseDups.filter fun q => qBasin q == basin && qBerth m [] q == b && qLive m [] q).length
  | 2 => ((elems m [] 0x4000 1).filter fun a => aBasin a == basin && aBerth m a == b && aType m a != 0).length
  | 3 => lpmUsed m b basin
  | 4 => cellsHeld m fun d => qBasin d.queue == basin && d.berth == b
  | 5 => cryptoUse m [] b basin
  | _ => parkHeld m fun d => qBasin d.queue == basin && d.berth == b

/-- The share a use is held against, in the same unit. -/
def shareUnits (m : Mod) (b basin r : Nat) : Nat := if r = 6 then shareOf m [] b basin 6 * 1048576 else shareOf m [] b basin r

/-- Over flags of a berth in a basin (R717). -/
def overFlags (m : Mod) (e : Nat) : Nat := tget 0 m.overs e

/-- Use has fallen to the share of a resource: its bit clears, event 0xA004 (R696). -/
def clearOver (m : Mod) (e r : Nat) : Mod :=
  if (overFlags m e).testBit (r - 1) && decide (useOf m (e / 4) (e % 4) r ≤ shareUnits m (e / 4) (e % 4) r) then
    raise { m with overs := tset 0 m.overs e (setBit (overFlags m e) (r - 1) false) } 0xA004 srcModule (bpidOf m (e / 4))
      (b1 (e / 4) ++ b4 (bpidOf m (e / 4)) ++ b1 (e % 4) ++ b1 (r - 1))
  else m

/-- Every over flag whose use is back within its share clears (R696). -/
def settleOver (m : Mod) : Mod := (m.overs.map (·.1)).foldl (fun m e => [1, 2, 3, 4, 5, 6].foldl (fun m r => clearOver m e r) m) m

/-- A share has been lowered below its use: the bit is set, event 0xA003 (R696), which gives the use of stowage as a byte count (R846). -/
def setOver (m : Mod) (e r : Nat) : Mod :=
  let b := e / 4
  let use := useOf m b (e % 4) r
  if shareUnits m b (e % 4) r < use ∧ !(overFlags m e).testBit (r - 1) then
    raise { m with overs := tset 0 m.overs e (setBit (overFlags m e) (r - 1) true) } 0xA003 srcModule (bpidOf m b)
      (b1 b ++ b4 (bpidOf m b) ++ b1 (e % 4) ++ b1 (r - 1) ++ b4 (shareOf m [] b (e % 4) r) ++ (if r = 6 then b8 use else b4 use))
  else m

/-- Some over flag of a berth is set (R715). -/
def anyOver (m : Mod) (b : Nat) : Bool := (List.range 4).any fun k => overFlags m (b * 4 + k) != 0

/-! ### The reset -/

/-- 0xA000:06: a reset accepted (R700 to R702): its edge is fixed within 1 ms; the answer is its predicted network time. -/
def requestReset (m : Mod) (b mode cred : Nat) : Mod × Nat × Nat :=
  let x := berth m b
  if b = 0 then (m, 0x2001, 0)
  else if x.resetting || x.due.isSome then (m, 0x3002, 0)
  else
    let n := Config.resetDelay b m.sys.elapsed % (msCycles + 1)
    (setBerth m b { x with due := some (mode, m.sys.elapsed + n, cred) }, 0, (m.time.c0.run (2 * n)).val / 2 ^ 32)

/-- Both slots of a berth's associations erased and their requests ended without events, with the number of slots (R706). -/
def eraseBerthKeys (m : Mod) (b : Nat) : Mod × Nat :=
  let mine := (m.assocs.map (·.1)).filter fun a => aBerth m a == b
  let n := mine.foldl (fun s a => s + b01 (assoc m a).s0.full + b01 (assoc m a).s1.full) 0
  (mine.foldl (fun m a => setNat (setAssoc m a { assoc m a with s0 := {}, s1 := {}, sw := 0, notice := 0, ksp := false }) 0x4040 1 a 0) (eraseKek m b), n)

/-- The held frames of a berth dropped and the flow marks of its clear halves cleared; the notifications stay (R706). -/
def dropHeld (m : Mod) (b : Nat) : Mod × Nat :=
  [0, 1, 2, 3].foldl (fun (acc : Mod × Nat) basin =>
    let c := clsOf acc.1 basin
    let gone := (c.held.filter fun x => x.d.berth == b).length
    let mark (l : Learn) : Learn := if inf m 0x5000 2 (basin * 65536 + l.flow.1) = b ∧ l.flow.1 < 65536 then { l with flow := (65536, l.flow.2) } else l
    (setCls acc.1 basin { c with held := c.held.filter fun x => x.d.berth != b, learn := c.learn.map mark }, acc.2 + gone)) (m, 0)

/-- The sessions of a berth's tenant end, and their replies not yet sent are not sent (R706). -/
def endTenant (m : Mod) (b bpid : Nat) : Mod :=
  let mine (x : Sess) : Bool := x.role == 3 && (x.berth == b || x.bpid == bpid)
  let ids := (m.mgmt.sessions.filter fun e => mine e.2).map fun e => e.2.id
  let m1 := endSessions m 3 mine
  { m1 with mgmt := { m1.mgmt with icept := tmap {} (fun x => { x with replies := x.replies.filter fun r => !ids.contains r.2.session }) m1.mgmt.icept } }

/-- BERTH_RESET_EDGE: E0 (R703, R706, R707, R709, R718). The journal entry with the credential is one of its own, under an opaque code (log 12). -/
def resetEdge (m0 : Mod) (b : Nat) : Mod :=
  match (berth m0 b).due with
  | none => m0
  | some (mode, e0, cred) =>
    let m := advanceTo m0 e0
    let x := berth m b
    let old := x.gen
    let bpid := bpidOf m b
    let gens := b1 old ++ b1 ((old + 1) % 256)
    let m0 := raise m 0xA001 srcModule bpid (b1 b ++ b4 bpid ++ gens ++ b1 mode)
    let m1 := endTenant (raise m0 (Config.resetCode % 65536) srcModule bpid (b4 bpid ++ gens ++ b1 mode ++ b2 cred)) b bpid
    let (m2, slots) := eraseBerthKeys m1 b
    let (m3, held) := dropHeld m2 b
    let m4 := setBerth m3 b { x with gen := (old + 1) % 256, resets := satAdd 32 x.resets 1, due := none, resetting := true, releasing := mode == 2,
                                     started := now m, startedAt := m.sys.elapsed, completed := 0, mode, oldGen := old,
                                     items := Config.resetItems b m.sys.elapsed, held, slots, traceable := synced m 0, bpid }
    let (m5, n) := discardFrames m4 (fun d => d.berth == b && d.gen == old) false 6
    setBerth m5 b { berth m5 b with discarded := n }

/-- Frames of an earlier generation of a berth that some unit still holds (R705). -/
def oldItems (m : Mod) (b : Nat) : Bool :=
  let old (d : Desc) : Bool := d.berth == b && d.gen != (berth m b).gen
  m.queues.any (fun e => e.2.frames.any old) || m.arbs.any (fun e => e.2.released.any old) || m.tx.any fun e => e.2.waiting.any fun x => old x.1

/-- The reset is complete: event 0xA002, its duration in µs (R705, R706). -/
def finishReset (m : Mod) (b : Nat) : Mod :=
  let x := berth m b
  raise (setBerth m b { x with resetting := false, releasing := false, completed := now m }) 0xA002 srcModule (bpidOf m b)
    (b1 b ++ b4 (bpidOf m b) ++ b1 x.mode ++ b8 x.discarded ++ b4 ((m.sys.elapsed - x.startedAt) / usCycles))

/-- BERTH_RESET_COMPLETE: a mode 1 reset completes once its old generation is gone (R705, R706). -/
def resetComplete (m : Mod) (b : Nat) : Mod :=
  let x := berth m b
  if x.resetting ∧ !x.releasing ∧ !oldItems m b then finishReset m b else m

/-- The values of some subindices of an element at their defaults. -/
def defaultElem (m : Mod) (idx : Nat) (subs : List Nat) (e : Nat) : Mod := { m with obj := subs.foldl (fun t s => tdel t (okey idx s e)) m.obj }

/-- The elements of an object whose owner subindex names a berth. -/
def ownedBy (m : Mod) (idx sub b : Nat) : List Nat := (elems m [] idx sub).filter fun e => inf m idx sub e == b

/-- Every resource of a berth returned to its default and to berth 0 (R711, R712). -/
def releaseAll (m : Mod) (b : Nat) : Mod :=
  let qs := ownedBy m 0x6000 2 b
  let as := ownedBy m 0x4000 3 b
  let ts := ownedBy m 0x5100 1 b
  let es := ownedBy m 0x5000 2 b
  let m1 := qs.foldl (fun m q => setQueue (defaultElem m 0x6000 (span 1 14) q) q {}) m
  let m2 := as.foldl (fun m a => defaultElem (defaultElem (setAssoc m a { ({} : Assoc) with switches := (assoc m a).switches, knrWait := (assoc m a).knrWait, lastSwitch := (assoc m a).lastSwitch }) 0x4000 (span 1 11) a) 0x4040 [1, 2, 3] a) m1
  let m3 := ts.foldl (fun m t =>
    let c := clsOf m (t / 8)
    defaultElem (watchBanks (setCls m (t / 8) { c with prefixes := c.prefixes.filter fun p => p.table != t % 8 }) (t / 8)) 0x5100 [1, 2, 3] t) m2
  let m4 := es.foldl (fun m e => defaultElem m 0x5000 (span 1 7) e) m3
  let m5 := ((List.range 64).map (b * 64 + ·)).foldl (fun m k => setNode (defaultElem m 0x6200 [1, 2, 3] k) k {}) m4
  { m5 with sys := { m5.sys with unsaved := true } }

/-- BERTH_RELEASE_COMPLETE: a mode 2 reset returns the berth's resources and completes (R706, R711). -/
def releaseComplete (m : Mod) (b : Nat) : Mod :=
  let x := berth m b
  if x.resetting ∧ x.releasing ∧ !oldItems m b then finishReset (releaseAll m b) b else m

end Sys2Proof.Machine
end

