-- ==== Sys2Proof/WellFormed.lean ====
section
/-! DEFINITION. Which commands are well formed: every operand fits the field that carries it. A command that is not can be sent by
no host and by no line, and the module is never given it. -/

namespace Sys2Proof

/-- An address record holds a 16-bit index, an 8-bit subindex and a 32-bit element, zero without the ELEMENT bit's field (R772). -/
def Addr.wf (a : Addr) : Bool := decide (a.idx < 2 ^ 16 ∧ a.sub < 2 ^ 8 ∧ a.elem < 2 ^ 32)

/-- A value record has an 8-bit type code and a 16-bit length (R774). -/
def ValueRec.wf (r : ValueRec) : Bool := r.addr.wf && decide (r.code < 2 ^ 8 ∧ r.data.length < 2 ^ 16)

/-- A message header's fields: 8-bit version, 32-bit session, 64-bit sequence, 20-bit BPID, 8-bit relay port, 48-bit source address
(R742). -/
def Hdr.wf (h : Hdr) : Bool :=
  decide (h.src < 2 ^ 48 ∧ h.version < 2 ^ 8 ∧ h.session < 2 ^ 32 ∧ h.sequence < 2 ^ 64 ∧ h.bpid < 2 ^ 20 ∧ h.relay < 2 ^ 8)

/-- A TIME80 has 48-bit seconds and a 32-bit nanosecond field (R9). -/
def Time80.wf (t : Time80) : Bool := decide (t.sec < 2 ^ 48 ∧ t.ns < 2 ^ 32)

/-- An unsigned number of n bits. -/
def fitsU (n v : Nat) : Bool := decide (v < 2 ^ n)

/-- A signed number of n bits. -/
def fitsI (n : Nat) (x : Int) : Bool := decide (-(2 ^ (n - 1) : Nat) ≤ x ∧ x < (2 ^ (n - 1) : Nat))

/-- A byte string of n bytes. -/
def isLen (n : Nat) (b : Octets) : Bool := b.length == n

/-- A SecTAG's fields: 2-bit AN, 6-bit SL, 32-bit PN, an 8-byte SCI where it has one (R214). -/
def SecTag.wf (t : SecTag) : Bool := decide (t.an < 4 ∧ t.sl < 64 ∧ t.pn < 2 ^ 32) && (!t.sc || isLen 8 t.sci)

/-- A frame-mode frame's SecTAG, where it has one; a frame of any length can arrive (R56). -/
def LineFrame.wf (f : LineFrame) : Bool := f.tag.all SecTag.wf

/-- The fields of a Gelix frame (R88, R93). -/
def GelixFrame.wf (f : GelixFrame) : Bool :=
  decide (f.mfas < 256 ∧ f.stat < 256 ∧ f.rei < 256 ∧ f.bip < 256 ∧ f.kep < 2 ^ 16 ∧ f.fcnt < 2 ^ 48 ∧ f.payloadParity < 256) &&
  isLen 10 f.ttx && isLen 16 f.mch && isLen 3 f.rsv && isLen 16320 f.payload.plain

/-- A unit that computes blocks: a pipeline or a masked lane. -/
def CipherUnit.computes : CipherUnit → Bool
  | .ghashPair _ => false
  | _ => true

/-- What a start-up can meet: step 2 to 5 may fail, at one to three attempts (R977, R978). -/
def StartTrial.wf (t : StartTrial) : Bool := decide (t.failStep ≤ 5 ∧ t.failStep ≠ 1 ∧ 1 ≤ t.fails ∧ t.fails ≤ 3)

/-- The bits a device flips lie in the 72 bytes of a data line and its tag, or in the 64 of a counter line (R627, R632). -/
def DeviceResult.wf : DeviceResult → Bool
  | .data _ flips => decide (flips < 2 ^ 576)
  | .counter _ flips => decide (flips < 2 ^ 512)
  | _ => true

/-- What an access writes lies within its 64-byte line (R652). -/
def AccessKind.wf : AccessKind → Bool
  | .read => true
  | .write data => isLen 64 data
  | .partialWrite off data => decide (0 < data.length ∧ off + data.length ≤ 64)

/-- Well-formed commands: each operand fits its field. -/
def Instr.wf : Instr → Bool
  | .open_ h role method cred nonce sid moduleNonce =>
    h.wf && fitsU 8 role && fitsU 8 method && fitsU 16 cred && isLen 32 nonce && fitsU 32 sid && decide (sid ≠ 0) && isLen 32 moduleNonce
  | .prove h _ => h.wf
  | .close h => h.wf
  | .read h addrs => h.wf && addrs.all Addr.wf && fitsU 16 addrs.length
  | .write h recs => h.wf && recs.all ValueRec.wf && fitsU 16 recs.length
  | .readElements h first count => h.wf && first.wf && fitsU 32 count
  | .writeElements h first stride vals => h.wf && first.wf && fitsU 16 stride && fitsU 16 vals.length
  | .commit h => h.wf
  | .commitDryRun h => h.wf
  | .subscribe h filters => h.wf && fitsU 16 filters.length && filters.all fun f => fitsU 16 f.1 && fitsU 16 f.2
  | .relayMessage h msg => h.wf && decide (32 ≤ msg.length ∧ msg.length ≤ 9216)
  | .relayReturn _ session msg => fitsU 32 session && decide (32 ≤ msg.length ∧ msg.length ≤ 9216)
  | .mchMessageReceive _ _ _ => true
  | .mgmtPortFrame _ src _ => fitsU 48 src
  | .sessionProveTimeout _ => true
  | .sessionIdleExpire _ => true
  | .sessionIdForget sid => fitsU 32 sid
  | .credentialLockExpire _ => true
  | .relayEntryLapse _ session => fitsU 32 session
  | .sessionPilotTakeover => true
  | .interceptReplySend _ => true
  | .interceptReplyDiscard _ => true
  | .sessionTerminate h slot _ => h.wf && fitsU 32 slot
  | .credentialErase h cred _ => h.wf && fitsU 32 cred
  | .keyWrite h slot w => h.wf && fitsU 32 slot && fitsU 16 w.length
  | .keySlotErase h slot _ => h.wf && fitsU 32 slot
  | .kekShareWrite h berth _ share => h.wf && fitsU 32 berth && fitsU 16 share.length
  | .kekShareExpire _ => true
  | .kekErase h berth _ => h.wf && fitsU 32 berth
  | .learnAcknowledge h basin seq => h.wf && fitsU 32 basin && fitsU 32 seq
  | .lpmInsert h table record => h.wf && fitsU 32 table && fitsU 16 record.length
  | .lpmDelete h table record => h.wf && fitsU 32 table && fitsU 16 record.length
  | .lpmQuery h table query => h.wf && fitsU 32 table && fitsU 16 query.length
  | .testPatternWrite h lane v => h.wf && fitsU 32 lane && fitsU 8 v
  | .timeIncrementWrite h v => h.wf && fitsU 32 v
  | .timeSlewWrite h x => h.wf && fitsI 32 x
  | .timeStepWrite h x => h.wf && fitsI 64 x
  | .timeSetWrite h t => h.wf && t.wf
  | .hostLeaseWrite h v => h.wf && fitsU 8 v
  | .captureRead h input => h.wf && fitsU 32 input
  | .expertGrantWrite h slot minutes => h.wf && fitsU 32 slot && fitsU 16 minutes
  | .debugPortOpen h _ => h.wf
  | .windowWrite h _ wordAddr v => h.wf && decide (wordAddr < 2 ^ 29) && fitsU 32 v
  | .locatorQuery h record => h.wf && fitsU 16 record.length
  | .indirectDataRead h => h.wf
  | .indirectDataWrite h v => h.wf && fitsU 32 v
  | .snapshotAcknowledge h basin w => h.wf && fitsU 32 basin && fitsU 32 w
  | .alarmClear h pin _ => h.wf && fitsU 32 pin
  | .responseRelease h source _ => h.wf && fitsU 32 source
  | .cellSwapWindowWrite h minutes => h.wf && fitsU 8 minutes
  | .retireConfirmation h serial => h.wf && fitsU 16 serial.length
  | .retireConfirmationExpire => true
  | .regionRelease h region _ => h.wf && fitsU 32 region
  | .berthResetKeep h berth => h.wf && fitsU 32 berth
  | .berthResetRelease h berth => h.wf && fitsU 32 berth
  | .firmwareChunkWrite h n chunk => h.wf && fitsU 32 n && fitsU 16 chunk.length
  | .firmwareVerify h _ => h.wf
  | .firmwareInstall h _ => h.wf
  | .firmwareInstallComplete => true
  | .firmwareActivate h slot => h.wf && fitsU 8 slot
  | .pilotsStopForActivation => true
  | .firmwareRunning => true
  | .firmwareStartTimeout => true
  | .firmwareConfirm h _ => h.wf
  | .serviceIdentityGenerate h _ => h.wf
  | .certificateInstall h _ => h.wf
  | .serviceIdentityErase h _ => h.wf
  | .operatorAnchorWrite h anchor => h.wf && fitsU 16 anchor.length
  | .attestationReportRead h => h.wf
  | .moduleRestart h _ => h.wf
  | .clearFrameReceive _ _ => true
  | .holdExpire _ => true
  | .frameModeReceive _ frame => frame.wf
  | .gelixFrameReceive _ frame => frame.wf
  | .fawFound _ _ mfas => decide (mfas < 256)
  | .expectedFawCheck _ bitErrors mfas => decide (bitErrors ≤ 48 ∧ mfas < 256)
  | .gelixFrameSend _ => true
  | .frameRelease _ _ => true
  | .cryptoBankEntry _ => true
  | .frameEgressComplete _ _ => true
  | .pipelineFault _ _ unit _ _ flips keyFlips nextFlips => unit.computes && fitsU 128 flips && fitsU 128 keyFlips && fitsU 128 nextFlips
  | .pipelineDrained _ _ _ => true
  | .quarantineTestEnd _ _ _ _ => true
  | .knownAnswerTest _ _ unit _ _ flips keyFlips nextFlips => unit.computes && fitsU 128 flips && fitsU 128 keyFlips && fitsU 128 nextFlips
  | .ghashMismatch _ _ _ flips repeatFlips => fitsU 128 flips && fitsU 128 repeatFlips
  | .keyStoreError _ _ _ => true
  | .ballastKeyReseed _ _ => true
  | .shuffleReseed _ _ => true
  | .maskReseed _ _ => true
  | .entropyTestFailure _ _ _ _ => true
  | .losDeclare _ => true
  | .losClear _ => true
  | .lolDeclare _ => true
  | .lolClear _ => true
  | .adaptComplete _ => true
  | .codewordLock _ => true
  | .codewordLockLoss _ => true
  | .laneLock _ mfas => decide (mfas < 256)
  | .laneLockLoss _ => true
  | .skewLimitExceeded _ _ => true
  | .portAligned _ _ => true
  | .faultSignalReceived _ kind => decide (kind < 3)
  | .portUpTimeout _ => true
  | .lofDeclare _ => true
  | .lofClear _ => true
  | .lomDeclare _ => true
  | .lomClear _ => true
  | .faultForwardStart _ => true
  | .lineSecondEnd _ => true
  | .switchScheduledTime _ => true
  | .queueDrained _ => true
  | .rateLoweringApplied _ => true
  | .berthNodeLoweringApplied _ _ => true
  | .gateEntryChange _ => true
  | .gateSwap _ => true
  | .timeChangeEdge => true
  | .slewComplete => true
  | .ptpMessageReceive _ domain _ => fitsU 8 domain
  | .ptpMessageSend => true
  | .timeSourceLost => true
  | .holdoverExpire => true
  | .hostLeaseExpire => true
  | .lockstepCheck => true
  | .lockstepCopy => true
  | .dieLinkDown => true
  | .dieLinkUp => true
  | .ttReportSend _ => true
  | .ttReportReceive _ => true
  | .ppsInEdge => true
  | .captureEdge _ _ => true
  | .triggerEdge _ => true
  | .runtimeSave => true
  | .configSave => true
  | .cxlLinkReady _ _ _ _ _ _ => true
  | .cxlLinkDown _ => true
  | .cxlLinkReturn _ => true
  | .stowageAccess _ _ _ kind device => kind.wf && device.wf
  | .berthResetEdge _ => true
  | .berthResetComplete _ => true
  | .berthReleaseComplete _ => true
  | .expertGrantExpire _ => true
  | .snapshotCapture _ => true
  | .snapshotComplete => true
  | .alarmPulseEnd _ => true
  | .journalSeal => true
  | .sealSigned => true
  | .tamperAlarm _ _ => true
  | .tamperAlarmClear _ => true
  | .monitorFault _ _ => true
  | .monitorFaultClear _ => true
  | .zeroizePins => true
  | .zeroizePinFault _ => true
  | .quiesceNAssert => true
  | .quiesceNRelease => true
  | .hostloopPulse _ => true
  | .zeroizeRestart trial => trial.wf
  | .tamperBitBurn => true
  | .cellRemove => true
  | .cellInsert => true
  | .cellSwapWindowClose millivolts => fitsU 16 millivolts
  | .cellSwapWindowExpire => true
  | .mainsInRange failStep units fails => StartTrial.wf { failStep, units, fails }
  | .ready => true
  | .mainsLost => true
  | .mainsEarlyWarning => true
  | .mainsReturn => true
  | .bulkThreshold => true
  | .keelLockLost trial => trial.wf
  | .referenceLock ref => decide (ref = 1 ∨ ref = 2)
  | .referenceLost => true
  | .referenceChange ref => decide (ref = 1 ∨ ref = 2)
  | .pilotWatchdog _ => true
  | .pilotRestarted _ => true
  | .candidateDropped _ _ => true
  | .pcsFecLockLoss _ => true
  | .lossOfAllPower => true
  | .managementPortLinkChange _ _ => true
  | .commandedRestartBegin trial => trial.wf
  | .ballastShareUpdate _ => true

end Sys2Proof
end

