-- ==== Sys2Proof/Machine/Run.lean ====
section
/-! DEFINITION. What every meaning does beside its own effect: a command whose operands do not fit their fields stops, and after any
other the over flags of the berths follow the use the command has left (R696). -/

namespace Sys2Proof.Machine

/-- The flags that follow a command's effect (R696). -/
def finish (s : State) : State := s.upd (settleOver s.mod)

/-- The outcome of a well-formed command with an effect. -/
def run (name : String) (i : Instr) (s : State) (f : State → State) : Host.Outcome State Fault Refusal :=
  if i.wf then .next (finish (f s)) else .fault (.malformed name)

/-- An effect on the module alone. -/
def onMod (f : Mod → Mod) (s : State) : State := s.upd (f s.mod)

/-- An effect that only harbours out of reset can have (R969, R986). -/
def whileOn (f : State → State) (s : State) : State := if s.mod.sys.running then f s else s

end Sys2Proof.Machine
end

