-- ==== Sys2Proof/Machine/CipherEvents.lean ====
section
/-! DEFINITION. The commands of the crypto banks and entropy sources (R330 to R388, R1039). -/

namespace Sys2Proof.Machine

/-- Bits that a fault flips behind a stage: of the state and of the round keys that travel with it, in a masked lane of the first or the second
share. -/
def upsetOf (stage : Fin 16) (secondShare : Bool) (flips keyFlips nextFlips : Nat) : Upset :=
  { stage := stage.val, share := b01 secondShare, flips, keyFlips, nextFlips }

/-- PIPELINE_FAULT: R336 to R351, R367. -/
def execPipelineFault (basin : Fin 4) (tx : Bool) (unit : CipherUnit) (stage : Fin 16) (secondShare : Bool) (flips keyFlips nextFlips : Nat) (s : State) :
    Host.Outcome State Fault Refusal :=
  run "PIPELINE_FAULT" (.pipelineFault basin tx unit stage secondShare flips keyFlips nextFlips) s
    (whileOn fun s => pipelineFault s (bankOf basin tx) unit (upsetOf stage secondShare flips keyFlips nextFlips))

/-- PIPELINE_DRAINED: R344, R345. -/
def execPipelineDrained (basin : Fin 4) (tx : Bool) (unit : CipherUnit) (s : State) : Host.Outcome State Fault Refusal :=
  run "PIPELINE_DRAINED" (.pipelineDrained basin tx unit) s (whileOn fun s => unitDrained s (bankOf basin tx) unit)

/-- QUARANTINE_TEST_END: R344, R345, R354. -/
def execQuarantineTestEnd (basin : Fin 4) (tx : Bool) (unit : CipherUnit) (passed : Bool) (s : State) : Host.Outcome State Fault Refusal :=
  run "QUARANTINE_TEST_END" (.quarantineTestEnd basin tx unit passed) s (whileOn fun s => quarantineEnd s (bankOf basin tx) unit passed)

/-- KNOWN_ANSWER_TEST: R339. -/
def execKnownAnswerTest (basin : Fin 4) (tx : Bool) (unit : CipherUnit) (stage : Fin 16) (s : State) (secondShare : Bool := false)
    (flips : Nat := 0) (keyFlips : Nat := 0) (nextFlips : Nat := 0) : Host.Outcome State Fault Refusal :=
  run "KNOWN_ANSWER_TEST" (.knownAnswerTest basin tx unit stage secondShare flips keyFlips nextFlips) s
    (whileOn fun s => knownAnswer s (bankOf basin tx) unit (upsetOf stage secondShare flips keyFlips nextFlips))

/-- GHASH_MISMATCH: R333 to R335, R340, R349, R350. -/
def execGhashMismatch (basin : Fin 4) (tx : Bool) (pair : Fin 18) (flips : Nat) (s : State) (repeatFlips : Nat := 0) : Host.Outcome State Fault Refusal :=
  run "GHASH_MISMATCH" (.ghashMismatch basin tx pair flips repeatFlips) s (whileOn fun s => ghashMismatch s (bankOf basin tx) pair flips repeatFlips)

/-- KEY_STORE_ERROR: R341. -/
def execKeyStoreError (basin : Fin 4) (tx doubleBit : Bool) (s : State) : Host.Outcome State Fault Refusal :=
  run "KEY_STORE_ERROR" (.keyStoreError basin tx doubleBit) s (whileOn fun s => keyStoreError s (bankOf basin tx) doubleBit)

/-- BALLAST_KEY_RESEED: R357. -/
def execBallastKeyReseed (basin : Fin 4) (tx : Bool) (s : State) : Host.Outcome State Fault Refusal :=
  run "BALLAST_KEY_RESEED" (.ballastKeyReseed basin tx) s (whileOn (onMod fun m => ballastReseed m (bankOf basin tx)))

/-- SHUFFLE_RESEED: R359, R360. -/
def execShuffleReseed (basin : Fin 4) (tx : Bool) (s : State) : Host.Outcome State Fault Refusal :=
  run "SHUFFLE_RESEED" (.shuffleReseed basin tx) s (whileOn (onMod fun m => shuffleReseed m (bankOf basin tx)))

/-- MASK_RESEED: R366. -/
def execMaskReseed (basin : Fin 4) (tx : Bool) (s : State) : Host.Outcome State Fault Refusal :=
  run "MASK_RESEED" (.maskReseed basin tx) s (whileOn (onMod fun m => maskReseed m (bankOf basin tx)))

/-- ENTROPY_TEST_FAILURE: R362 to R364, R373. -/
def execEntropyTestFailure (harbour : Fin 2) (sourceB proportion : Bool) (s : State) (samples : List Bool := []) : Host.Outcome State Fault Refusal :=
  run "ENTROPY_TEST_FAILURE" (.entropyTestFailure harbour sourceB proportion samples) s
    (whileOn fun s => entropyTestFailure s harbour sourceB proportion samples)

/-- BALLAST_SHARE_UPDATE: R1039. -/
def execBallastShareUpdate (harbour : Fin 2) (s : State) : Host.Outcome State Fault Refusal :=
  run "BALLAST_SHARE_UPDATE" (.ballastShareUpdate harbour) s (whileOn (onMod fun m => ballastShare m harbour))

end Sys2Proof.Machine
end

