-- ==== Sys2Proof/Machine/Line.lean ====
section
/-! DEFINITION. Lanes, ports, defects, suppression, consequent actions and fault forwarding (R40 to R87, R118 to R123, R152 to
R176, R1036). -/

namespace Sys2Proof.Machine

/-! ### Raw and reported defects -/

/-- LOS or LOL of the lane at each index of a port's basin side, for the port's own lanes (R194). -/
def laneBits (m : Mod) (p : Nat) (f : Lane → Bool) : Nat :=
  mask ((List.range (width m p)).filterMap fun i => if f (lane m (laneAt p (p % 8 + i))) then some (p % 8 + i) else none)

/-- The raw defect state 0x3300:01 (R194). -/
def rawDefects (m : Mod) (p : Nat) : Nat :=
  let x := port m p
  let los := laneBits m p (·.los)
  let lol := laneBits m p (·.lol)
  los * 2 ^ 24 + lol * 2 ^ 16 + bitAt x.feRdi 10 + bitAt x.deg 9 + bitAt x.auth 8 + bitAt x.tim 7 + bitAt x.lom 6 + bitAt x.lof 5 +
  bitAt x.loal 4 + bitAt (lol != 0) 3 + bitAt (los != 0) 2

/-- A port defect at a bit of R194 is suppressed: a raw defect above it, up to AUTH, is declared (R162). -/
def suppressed (raw b : Nat) : Bool := bits raw 2 (min b 9 - 2) != 0

/-- The reported defect state 0x3300:02 (R152, R162). -/
def reportedDefects (m : Mod) (p : Nat) : Nat :=
  let raw := rawDefects m p
  let los := bits raw 24 8
  let lol := mask ((List.range 8).filter fun i => raw.testBit (16 + i) && !los.testBit i)
  los * 2 ^ 24 + lol * 2 ^ 16 + bitAt (lol != 0) 3 + bitAt (los != 0) 2 +
  mask ((List.range 7).filterMap fun i => if raw.testBit (4 + i) && !suppressed raw (4 + i) then some (4 + i) else none)

/-- A raw defect with RDI as consequent action is declared (R165 to R167). -/
def rdiCause (m : Mod) (p : Nat) : Bool :=
  let raw := rawDefects m p
  isGelix m p && (bits raw 2 5 != 0 || raw.testBit 8 || (raw.testBit 7 && 1 ≤ inf m 0x3300 3 p))

/-- Triggers of fault forwarding at a level (R172, R173): bits of R194, and 9 for a lost PCS or FEC lock in frame mode. -/
def triggers (m : Mod) (src level : Nat) : List Nat :=
  let raw := rawDefects m src
  let top := if isGelix m src then level else min level 3
  (span 2 top).filter (raw.testBit ·) ++ (if !isGelix m src && 3 ≤ level && (port m src).pcsLost then [9] else [])

/-! ### Ports going down and up -/

/-- The phase an aligned port shows (R60, R72, R85): Up; 5 for a clear port that is down; 3 for a frame-mode line port that receives a
fault, which is not Up and never shows 5, and for a Gelix port whose framer is not in SYNC, with which its Align ends (DEDUCED, log 50). -/
def alignedPhase (m : Mod) (p : Nat) : Nat :=
  let x := port m p
  if isGelix m p then (if (rxOf m p).st = 2 then 4 else 3)
  else if isLine p then (if x.fault = 0 then 4 else 3)
  else if x.up then 4 else 5

/-- The phase of an aligned port follows its state. -/
def refreshPhase (m : Mod) (p : Nat) : Mod :=
  let x := port m p
  if x.aligned then setPort m p { x with phase := alignedPhase m p, wasUp := x.wasUp || alignedPhase m p == 4 } else m

/-- The fault sequence a clear port transmits while it is enabled but down (R70, R175): Local Fault while it forwards a fault; else Remote
Fault, but for a port down only because it receives Remote Fault, whose answer is free. -/
def faultSent (m : Mod) (p : Nat) : Nat :=
  let x := port m p
  if isLine p || !portEnabled m p || x.up then 0
  else if x.fwd || (x.aligned && x.fault == 2 && Config.answersLocal p) then 1 else 2

/-- The transmitted fault sequence follows the port's state. -/
def signalFault (m : Mod) (p : Nat) : Mod :=
  if (port m p).sends = faultSent m p then m
  else emit (setPort m p { port m p with sends := faultSent m p }) (.faultSignal p (faultSent m p))

/-- What a clear port needs to be up (R70, R175), or a line port (R71). -/
def canBeUp (m : Mod) (p : Nat) : Bool :=
  let x := port m p
  portEnabled m p && (isLine p || (bits (rawDefects m p) 2 3 == 0 && !x.pcsLost && x.fault == 0 && !x.fwd && x.aligned))

/-- A port goes down (R73 to R76): its accepted frames are discarded and counted; the causes are 0 disabled, 1 receive
defect, 2 lock lost, 3 fault received. -/
def portDown (m : Mod) (p cause : Nat) : Mod :=
  let x := port m p
  if !x.up then m
  else
    let m1 := bump (setPort m p { x with up := false }) 0x3100 0x0B p 1
    let (m2, n) := discardPort m1 p
    raise (raise m2 0x2011 (srcH (harbourOf p)) 0 (b1 p ++ b1 cause)) 0x2012 (srcH (harbourOf p)) 0 (b1 p ++ b8 n)

/-- A port comes up (R60, R72, R77). -/
def portUp (m : Mod) (p : Nat) : Mod :=
  let x := port m p
  if x.up || !canBeUp m p then m
  else raise (setPort m p { x with up := true }) 0x2010 (srcH (harbourOf p)) 0 (b1 p ++ b4 x.deskew)

/-- A port brought to the state and the phase that its conditions give it (R60, R70, R85). -/
def refreshPort (m : Mod) (p cause : Nat) : Mod :=
  if isLine p then refreshPhase m p else signalFault (refreshPhase (if canBeUp m p then portUp m p else portDown m p cause) p) p

/-- Fault forwarding of a clear port stops: event 0x2014 (R176, R200). -/
def forwardStop (m : Mod) (c src : Nat) : Mod :=
  if (port m c).fwd then raise (setPort m c { port m c with fwd := false }) 0x2014 (srcH (harbourOf c)) 0 (b1 c ++ b1 src ++ b1 0) else m

/-- Fault forwarding stops where no trigger is declared any more (R176). -/
def refreshForward (m : Mod) (line : Nat) : Mod :=
  (List.range 64).foldl (fun m c =>
    if !isLine c && (port m c).fwd && inf m 0x3310 1 c == line && (triggers m line (inf m 0x3310 2 c)).isEmpty then refreshPort (forwardStop m c line) c 1
    else m) m

/-- When a raw defect was declared, kept for the hold-off (R172); 0 when it is not declared. LOS and LOL are timed as the port's, declared on any of
its lanes (DESIGN CHOICE, log 50). -/
def stampDefects (m : Mod) (p : Nat) : Mod :=
  let x := port m p
  let raw := rawDefects m p
  let on (b : Nat) : Bool := if b = 9 then x.pcsLost else raw.testBit b
  setPort m p { x with since := (span 2 8).foldl (fun t b =>
    if !on b then tdel t b else if tget 0 t b = 0 then tset 0 t b (m.sys.elapsed + 1) else t) x.since }

/-- Raw defects seen at some moment of the second under way (R160, R179, R181). -/
def noteDefects (m : Mod) (p : Nat) : Mod :=
  let x := pmOf m p
  setPm m p { x with seen := x.seen ||| bits (rawDefects m p) 0 10, seenRdi := x.seenRdi || (port m p).feRdi }

/-- What follows every change of a raw defect of a port: its stamps, PM, the clear ports that follow it. -/
def afterDefect (m : Mod) (p cause : Nat) : Mod :=
  let m1 := stampDefects m p
  if isLine p then refreshForward (noteDefects m1 p) p else refreshPort m1 p cause

/-- The events of the port defects by bit of R194 (R87, R200). -/
def defectCode (b : Nat) : Nat := if b = 4 then 0x2003 else 0x3010 + (b - 5)

/-- A port with one of its defects set, by bit of R194. -/
def Port.withDefect (x : Port) (b : Nat) (on : Bool) : Port :=
  match b with
  | 4 => { x with loal := on }
  | 5 => { x with lof := on }
  | 6 => { x with lom := on }
  | 7 => { x with tim := on }
  | 8 => { x with auth := on }
  | 9 => { x with deg := on }
  | 10 => { x with feRdi := on }
  | _ => x

/-- The defect of a port at a bit of R194. -/
def Port.defect (x : Port) (b : Nat) : Bool :=
  match b with
  | 4 => x.loal
  | 5 => x.lof
  | 6 => x.lom
  | 7 => x.tim
  | 8 => x.auth
  | 9 => x.deg
  | 10 => x.feRdi
  | _ => false

/-- A port defect declared or cleared, with its event and suppressed flag (R153, R164). -/
def setDefect (m : Mod) (p b : Nat) (on : Bool) : Mod :=
  let x := port m p
  if x.defect b = on then m
  else
    let m1 := setPort m p (x.withDefect b on)
    let flag := b01 (suppressed (rawDefects m1 p) b)
    let ps := if b = 4 then b1 p ++ b4 x.skew ++ b1 (b01 on) ++ b1 flag else b1 p ++ b1 (b01 on) ++ b1 flag
    afterDefect (raise m1 (defectCode b) (srcH (harbourOf p)) 0 ps) p 1

/-- The harbour a lane belongs to (R40). -/
def laneHarbour (l : Nat) : Nat := l % 32 / 16

/-- LOS of a lane declared or cleared (R82, R153, R164): the lane loses its clock and its equalisation with the signal. -/
def setLos (m : Mod) (l : Nat) (on : Bool) : Mod :=
  let x := lane m l
  if x.los = on then m
  else
    let m1 := setLane m l { x with los := on, signal := !on, cdr := x.cdr && !on, adapted := x.adapted && !on }
    afterDefect (raise m1 0x2001 (srcH (laneHarbour l)) 0 (b1 l ++ b1 (b01 on) ++ b1 0)) (lanePort m l) 1

/-- LOL of a lane declared or cleared; LOS on the lane suppresses it (R153, R162). -/
def setLol (m : Mod) (l : Nat) (on : Bool) : Mod :=
  let x := lane m l
  if x.lol = on then m
  else
    let m1 := setLane m l { x with lol := on, cdr := !on, adapted := x.adapted && !on }
    afterDefect (raise m1 0x2002 (srcH (laneHarbour l)) 0 (b1 l ++ b1 (b01 on) ++ b1 (b01 x.los))) (lanePort m l) 1

/-! ### Phases -/

/-- The receive side of an enabled port back in, or on to, a phase before alignment (R60, R85). The deskew value and measured skew keep
what they last held until the port aligns again (DESIGN CHOICE, log 50). -/
def setPhase (m : Mod) (p ph : Nat) : Mod :=
  if portEnabled m p then signalFault (setPort m p { port m p with phase := ph, aligned := false }) p else m

/-- A loss takes an enabled port back to a phase, or leaves it in an earlier one (R60, R85). -/
def fallBack (m : Mod) (p ph : Nat) : Mod := setPhase m p (min (port m p).phase ph)

/-- A lane detector runs while its lane is powered up (R1036); a loss takes the port back to CDR acquire (R85). -/
def laneLos (m : Mod) (l : Nat) (on : Bool) : Mod :=
  if lanePowered m l then (if on then fallBack (setLos m l true) (lanePort m l) 1 else setLos m l false) else m
def laneLol (m : Mod) (l : Nat) (on : Bool) : Mod :=
  if lanePowered m l then
    (if on then fallBack (setLol m l true) (lanePort m l) 1
     else
      -- the clock is recovered, whether or not LOL had been declared
      let m0 := setLol m l false
      let m1 := setLane m0 l { lane m0 l with cdr := true }
      let p := lanePort m l
      if (port m1 p).phase = 1 ∧ (portLanes m1 p).all (fun i => (lane m1 i).cdr) then setPhase m1 p 2 else m1)
  else m

/-- The equaliser has converged; once every lane has, the port aligns (R60). -/
def laneAdapted (m : Mod) (l : Nat) : Mod :=
  if !lanePowered m l || (lane m l).los || (lane m l).lol then m
  else
    let m1 := setLane m l { lane m l with signal := true, cdr := true, adapted := true }
    let p := lanePort m l
    if (port m1 p).phase < 3 ∧ (portLanes m1 p).all (fun i => (lane m1 i).adapted) then setPhase m1 p 3 else m1

/-! ### The Gelix framer leaves SYNC -/

/-- The framer leaves SYNC for HUNT, or starts in HUNT (R123, R124, R130, R131, R154, R155). Event 0x3001 carries the MFAS read with the
fifth errored FAW, and where SYNC ends with alignment or Enable the MFAS that was expected next (DESIGN CHOICE, log 50). -/
def toHunt (m : Mod) (p : Nat) : Mod :=
  let x := rxOf m p
  let was := x.st = 2
  let y := { x with st := 0, cands := [], fawErr := 0, overflowed := false, mfIn := false, mfExpect := none, mfBad := 0,
                    parity := none, trace := [], traceRun := 0, parse := { x.parse with part := [], resync := true },
                    mch := [], mchOpen := false, mchSeq := none,
                    oofAt := if was then m.sys.elapsed else x.oofAt,
                    oofHeld := if was ∧ x.syncAt + 3 * msCycles ≤ m.sys.elapsed then 0 else x.oofHeld,
                    lomHeld := if was ∧ !x.mfIn then x.lomHeld + (m.sys.elapsed - x.mfInAt) else x.lomHeld }
  let m1 := setRx m p y
  let m2 := setPm m1 p { pmOf m1 p with oof := true }
  -- R116, R144: the record and the message in progress are lost with the frame
  let m3 := if was ∧ 8 < x.parse.part.length then bump m2 0x3200 0x11 p 1 else m2
  let m4 := if was ∧ x.mchOpen then raise (bump m3 0x3200 0x12 p 1) 0x3006 (srcH (harbourOf p)) 0 (b1 p ++ b1 1) else m3
  let m5 := if was then raise m4 0x3001 (srcH (harbourOf p)) 0 (b1 p ++ b1 0 ++ b1 (x.mfExpect.getD 0)) else m4
  refreshPhase (if x.mfIn then raise m5 0x3002 (srcH (harbourOf p)) 0 (b1 p ++ b1 0) else m5) p

/-- LOAL is declared: the port returns to Align and nothing is reassembled (R66, R122, R168). With no stream left, a Gelix port's framer
goes to HUNT at once and not after five FAWs (DESIGN CHOICE, log 50). -/
def declareLoal (m : Mod) (p : Nat) : Mod :=
  let m1 := setDefect m p 4 true
  fallBack (if isGelix m1 p then toHunt m1 p else m1) p 3

/-- A lane of a Gelix port loses codeword lock, and with it lane lock (R120, R122). -/
def loseCodeword (m : Mod) (l : Nat) : Mod :=
  if !(lane m l).cwLock then m
  else
    let had := (lane m l).logical.isSome
    let m1 := setLane m l { lane m l with cwLock := false, logical := none }
    if had then declareLoal m1 (lanePort m l) else m1

/-- A lane loses lane lock (R122), or an Ethernet port of 2 or more lanes the alignment markers of a lane (R153). -/
def loseLaneLock (m : Mod) (l : Nat) : Mod :=
  let p := lanePort m l
  if isGelix m p then (if (lane m l).logical.isNone then m else declareLoal (setLane m l { lane m l with logical := none }) p)
  else if portEnabled m p ∧ 2 ≤ width m p ∧ (port m p).aligned then declareLoal m p else m

/-- A lane of an enabled Gelix port reaches codeword lock (R120). -/
def codewordLocked (m : Mod) (l : Nat) : Mod :=
  if isGelix m (lanePort m l) ∧ portEnabled m (lanePort m l) then setLane m l { lane m l with cwLock := true } else m

/-- A lane reaches lane lock: logical lane m mod k, kept until lane lock is lost (R118, R121). -/
def laneLocked (m : Mod) (l mfas : Nat) : Mod :=
  if (lane m l).cwLock ∧ (lane m l).logical.isNone ∧ isGelix m (lanePort m l) then setLane m l { lane m l with logical := some (mfas % 256 % width m (lanePort m l)) } else m

/-- The measured skew as 0x3100:08 can show it: at most 176.0 ns (R84; DESIGN CHOICE, log 50). -/
def shownSkew (skew : Nat) : Nat := min skew 440

/-- Skew leaves the 4.0 ns a port absorbs (R65, R66): LOAL, and back to Align. -/
def skewExceeded (m : Mod) (p skew : Nat) : Mod :=
  if portEnabled m p ∧ 2 ≤ width m p ∧ (port m p).aligned then declareLoal (setPort m p { port m p with skew := shownSkew skew }) p else m

/-- Every lane of a port is ready to be deskewed (R60, R123). -/
def lanesReady (m : Mod) (p : Nat) : Bool :=
  (portLanes m p).all fun l => (lane m l).adapted && !(lane m l).los && !(lane m l).lol && (!isGelix m p || (lane m l).logical.isSome)

/-- A port in Align deskews (R29, R60, R64, R67, R123, R176): more than 176.0 ns keeps it in Align with LOAL. Skew in units of 0.4 ns. -/
def align (m : Mod) (p skew : Nat) : Mod :=
  if !portEnabled m p || (port m p).aligned || (port m p).phase != 3 || !lanesReady m p then m
  else if 2 ≤ width m p ∧ 440 < skew then declareLoal (setPort m p { port m p with skew := shownSkew skew }) p
  else
    let one := width m p = 1
    let x := { port m p with skew := if one then 0 else skew, deskew := if one then 0 else skew + 10, pcsLost := false, aligned := true }
    let m1 := setDefect (bump (setPort m p x) 0x3100 0x0A p 1) p 4 false
    let m2 := refreshPort (if isGelix m1 p then toHunt m1 p else m1) p 1
    afterDefect m2 p 1

/-- Local or Remote Fault received, or its loss (R60, R70, R85). -/
def faultReceived (m : Mod) (p kind : Nat) : Mod :=
  if !portEnabled m p || isGelix m p then m else refreshPort (setPort m p { port m p with fault := kind }) p 3

/-- PCS or FEC lock lost on an Ethernet port (R70, R173). -/
def pcsLoss (m : Mod) (p : Nat) : Mod :=
  if !portEnabled m p || isGelix m p then m
  else
    let x := port m p
    afterDefect (setPort m p { x with pcsLost := true, aligned := false, phase := min x.phase 3 }) p 2

/-- A port whose lanes have not been up 1 s after its enable: event 0x2013 once, and retried from CDR acquire (R61). -/
def upTimeout (m : Mod) (p : Nat) : Mod :=
  let x := port m p
  if !portEnabled m p || x.wasUp then m
  else
    let m1 := advanceTo m (x.enabledAt + secCycles)
    let m2 := if x.timedOut then m1 else raise m1 0x2013 (srcH (harbourOf p)) 0 (b1 p ++ b1 x.phase)
    let m3 := (portLanes m2 p).foldl (fun m l => setLane m l { lane m l with cdr := false, adapted := false }) m2
    signalFault (setPort m3 p { port m3 p with timedOut := true, phase := 1, aligned := false, enabledAt := m1.sys.elapsed }) p

/-- The trigger whose hold-off ends first, the first in the hierarchy where several end together (R172). -/
def firstHeld (m : Mod) (src : Nat) : List Nat → Option Nat
  | [] => none
  | b :: bs => match firstHeld m src bs with
    | none => some b
    | some c => if tget 0 (port m src).since c < tget 0 (port m src).since b then some c else some b

/-- Fault forwarding starts once a trigger has been declared for the hold-off time (R172, R175). A clear port that is disabled starts
none (DESIGN CHOICE, log 50). -/
def forwardStart (m : Mod) (c : Nat) : Mod :=
  let src := inf m 0x3310 1 c
  if isLine c || 64 ≤ src || (port m c).fwd || !portEnabled m c then m
  else match firstHeld m src (triggers m src (inf m 0x3310 2 c)) with
    | none => m
    | some b =>
      let m1 := advanceTo m (tget 0 (port m src).since b - 1 + inf m 0x3310 3 c * msCycles)
      refreshPort (raise (setPort m1 c { port m1 c with fwd := true }) 0x2014 (srcH (harbourOf c)) 0 (b1 c ++ b1 src ++ b1 (b - 1))) c 1

/-! ### LOF and LOM -/

/-- LOF: the out-of-frame integrator reaches 3 ms (R153, R154). -/
def lofDeclared (m : Mod) (p : Nat) : Mod :=
  let x := rxOf m p
  if !isGelix m p || !portEnabled m p || x.st == 2 then m
  else setDefect (advanceTo m (x.oofAt + (3 * msCycles - x.oofHeld))) p 5 true

/-- LOF clears after 3 ms continuously in SYNC, which also resets the integrator (R153, R154). -/
def lofCleared (m : Mod) (p : Nat) : Mod :=
  let x := rxOf m p
  if !isGelix m p || x.st != 2 then m
  else
    let m1 := advanceTo m (x.syncAt + 3 * msCycles)
    setDefect (setRx m1 p { x with oofHeld := 0 }) p 5 false

/-- LOM: 1 ms of SYNC time out of multiframe (R153, R155). -/
def lomDeclared (m : Mod) (p : Nat) : Mod :=
  let x := rxOf m p
  if !isGelix m p || x.st != 2 || x.mfIn then m
  else setDefect (advanceTo m (x.mfInAt + (msCycles - x.lomHeld))) p 6 true

/-- LOM clears after 1 ms continuously in multiframe (R153). -/
def lomCleared (m : Mod) (p : Nat) : Mod :=
  let x := rxOf m p
  if !isGelix m p || x.st != 2 || !x.mfIn then m
  else setDefect (advanceTo m (x.mfInAt + msCycles)) p 6 false

/-! ### Enable -/

/-- A lane powers up (R1036), its counters counting from now on, or down, where its LOS and LOL clear at once with their events. -/
def lanePowerUp (m : Mod) (l : Nat) : Mod :=
  setLane { m with counted := tset 0 m.counted l m.sys.elapsed } l { signal := true, ran := true }
def lanePowerDown (m : Mod) (l : Nat) (pattern : Bool) : Mod :=
  setLane (setLol (setLos (countLane m l true pattern) l false) l false) l { ran := true }

/-- A lane of a port that is being enabled: it powers up; one that a test pattern has powered keeps its detectors, stops its pattern and trains
(R60, R81, R1036). -/
def laneEnable (m : Mod) (l : Nat) : Mod :=
  if inf m 0x3000 9 l = 0 then lanePowerUp m l
  else
    let m1 := setNat (countLane m l true true) 0x3000 9 l 0
    setLane m1 l { lane m1 l with adapted := false, cwLock := false, logical := none }

/-- Enable comes into force as TRUE (R60, R72, R81, R89, R177, R183): test patterns stop, lanes train, a line port is up. The first Gelix frame has
MFAS 0, STAT in force starts at 0, and an end that was unavailable starts available with no event 0x3016 (DESIGN CHOICE, log 50). -/
def enablePort (m : Mod) (p : Nat) : Mod :=
  let m1 := (portLanes m p).foldl laneEnable m
  let x : Port := { phase := 1, enabledAt := m.sys.elapsed }
  let m2 := setPm (setTx (setRx (setPort m1 p x) p { oofAt := m.sys.elapsed }) p { started := true, throw := (txOf m p).throw, throwAt := (txOf m p).throwAt, count := (txOf m p).count, trace := (look m [] 0x3200 1 p).toOct }) p
    { pmOf m1 p with partialSec := true, partialTo := nowH m (harbourOf p) / nsPerSec + 1, untraceable := (pmOf m1 p).untraceable || !synced m (harbourOf p),
                     neUnavail := false, feUnavail := false, neRun := 0, feRun := 0, degBad := 0, degGood := 0 }
  afterDefect (if isLine p then portUp m2 p else m2) p 1

/-- Enable comes into force as FALSE, for a port of a width (R73, R78, R160, R177, R1036): the port goes down, its defects and its lanes'
clear at once, a fault it forwards with event 0x2014. Gelix frames whose first bit has not left are not sent (R89). STAT in force returns to 0, and
the MCH messages that wait or are under way are dropped (DESIGN CHOICE, log 50). -/
def disablePort (m : Mod) (p w : Nat) : Mod :=
  let m1 := signalFault (forwardStop (portDown m p 0) p (inf m 0x3310 1 p)) p
  let m2 := [4, 5, 6, 7, 8, 9, 10].foldl (fun m b => setDefect m p b false) m1
  let m3 := (List.range w).foldl (fun m i => lanePowerDown m (laneAt p (p % 8 + i)) false) m2
  let m4 := if (rxOf m3 p).st = 2 then toHunt m3 p else m3
  let m5 := setPm m4 p { pmOf m4 p with partialSec := true }
  refreshForward (setTx (setRx (setPort m5 p { enabledAt := (port m5 p).enabledAt }) p {}) p { throw := (txOf m5 p).throw, throwAt := (txOf m5 p).throwAt, count := (txOf m5 p).count }) p

end Sys2Proof.Machine
end

