-- ==== Sys2Proof/Machine/Gelix.lean ====
section
/-! DEFINITION. The Gelix framer and receiver (R88 to R151), the sender with its key phases (R312 to R319), the crypto bank's entry
(R236 to R242, R270 to R273, R301) and the egress of frames. -/

namespace Sys2Proof.Machine

/-! ### Framing -/

/-- The port's lanes are aligned, so a stream reaches the framer (R123). -/
def framing (m : Mod) (p : Nat) : Bool := m.sys.running && isGelix m p && portEnabled m p && (port m p).aligned

/-- SYNC is entered: event 0x3001; multiframe alignment starts afresh with this frame (R124, R130, R131, R154). -/
def enterSync (m : Mod) (p mfas : Nat) : Mod :=
  let x := rxOf m p
  let y := { x with st := 2, cands := [], fawErr := 0, mfIn := false, mfExpect := some ((mfas + 1) % 256), mfBad := 0, syncAt := m.sys.elapsed,
                    oofHeld := x.oofHeld + (m.sys.elapsed - x.oofAt), mfInAt := m.sys.elapsed }
  raise (refreshPhase (setRx m p y) p) 0x3001 (srcH (harbourOf p)) 0 (b1 p ++ b1 1 ++ b1 mfas)

/-- FAW_FOUND: an exact FAW at an offset of the stream, with the MFAS after it: it confirms the candidate that expects it, makes a
new one, or finds four held (R124, R125, R127). -/
def fawFound (m : Mod) (p off mfas : Nat) : Mod :=
  let x := rxOf m p
  if !framing m p || x.st == 2 then m
  else match x.cands.find? fun c => c.1 + c.2 * 16384 == off with
    | some c =>
      if c.2 = 2 then enterSync m p mfas
      else setRx m p { x with cands := x.cands.map fun d => if d = c then (d.1, d.2 + 1) else d }
    | none =>
      if x.cands.length < 4 then setRx m p { x with st := 1, cands := x.cands ++ [(off, 1)] }
      else
        let m1 := bump (setRx m p { x with overflowed := true }) 0x3200 0x14 p 1
        if x.overflowed then m1 else raise m1 0x3003 (srcH (harbourOf p)) 0 (b1 p)

/-- CANDIDATE_DROPPED: the FAW at a candidate's checked position is not exact (R124, R126). -/
def dropCandidate (m : Mod) (p off : Nat) : Mod :=
  let x := rxOf m p
  if !framing m p then m
  else match x.cands.find? fun c => c.1 + c.2 * 16384 == off with
    | none => m
    | some c =>
      let rest := x.cands.filter (· != c)
      bump (setRx m p (if rest.isEmpty then { x with st := 0, cands := [], overflowed := false } else { x with cands := rest })) 0x3200 0x13 p 1

/-- Multiframe alignment on a frame's MFAS (R130): in multiframe the expected value runs on by itself. -/
def multiframe (m : Mod) (p mfas : Nat) : Mod :=
  let x := rxOf m p
  let src := srcH (harbourOf p)
  let next (v : Nat) : Option Nat := some ((v + 1) % 256)
  match x.mfExpect with
  | none => setRx m p { x with mfExpect := next mfas }
  | some e =>
    if x.mfIn then
      if mfas = e then setRx m p { x with mfExpect := next e, mfBad := 0 }
      else if x.mfBad + 1 < 5 then setRx m p { x with mfExpect := next e, mfBad := x.mfBad + 1 }
      else raise (setRx m p { x with mfIn := false, mfExpect := next mfas, mfBad := 0, mfInAt := m.sys.elapsed, lomHeld := 0 }) 0x3002 src 0 (b1 p ++ b1 0)
    else if mfas = e then
      raise (setRx m p { x with mfIn := true, mfExpect := next mfas, mfBad := 0, mfInAt := m.sys.elapsed, lomHeld := 0 }) 0x3002 src 0 (b1 p ++ b1 1)
    else setRx m p { x with mfExpect := next mfas }

/-- EXPECTED_FAW_CHECK: more than 2 bit errors make the FAW errored; five errored ones in a row leave SYNC (R124, R128). -/
def checkFaw (m : Mod) (p errors mfas : Nat) : Mod :=
  let x := rxOf m p
  if !framing m p || x.st != 2 then m
  else
    let n := if errors ≤ 2 then 0 else x.fawErr + 1
    if n = 5 then toHunt (setRx m p { x with mfExpect := some mfas }) p
    else multiframe (setRx m p { x with fawErr := n }) p mfas

/-! ### Trace, MCH, fields -/

/-- The bytes of a trace message that a compare mode compares (R157). -/
def compared (mode : Nat) (t : Octets) : Octets := if mode = 1 then t.take 16 else if mode = 2 then sub t 16 16 else if mode = 3 then t.take 32 else []

/-- TIM follows the accepted message and the expected one (R153, R157, R158). -/
def evaluateTim (m : Mod) (p : Nat) : Mod :=
  let mode := inf m 0x3200 3 p
  setDefect m p 7 (compared mode (look m [] 0x3200 4 p).toOct != compared mode (look m [] 0x3200 2 p).toOct)

/-- The TRC byte of a frame at its place in the multiframe (R140, R156): a message identical to the two before it is accepted. -/
def takeTrace (m : Mod) (p : Nat) (trc : Byte) : Mod :=
  let x := rxOf m p
  match x.mfIn, x.mfExpect with
  | true, some e =>
    let at_ := (e + 255) % 256 % 64
    if at_ = 0 then setRx m p { x with trace := [trc], traceRun := if x.trace = [] then x.traceRun else 0 }
    else if x.trace.length ≠ at_ then setRx m p { x with trace := [], traceRun := 0 }
    else if at_ < 63 then setRx m p { x with trace := x.trace ++ [trc] }
    else
      let msg := x.trace ++ [trc]
      let run := if x.traceRun ≠ 0 ∧ msg = x.traceLast then x.traceRun + 1 else 1
      let m1 := setRx m p { x with trace := [], traceLast := msg, traceRun := run }
      if 3 ≤ run then evaluateTim (setObj m1 0x3200 4 p (.oct msg)) p else m1
  | _, _ => setRx m p { x with trace := [], traceRun := 0 }

/-- An MCH message in progress is discarded with a cause: 0 SEQ missing, 1 Gelix frame lost, 2 SOM before EOM, 3 too long, 4 length
disagrees with the header (R144). -/
def dropMch (m : Mod) (p cause : Nat) : Mod :=
  let m1 := setRx m p { rxOf m p with mch := [], mchOpen := false }
  raise (bump m1 0x3200 0x12 p 1) 0x3006 (srcH (harbourOf p)) 0 (b1 p ++ b1 cause)

/-- A complete MCH message (R732): a time-transfer report is kept for its evaluation; a Camanent message is served by the command
of its own row; any other is counted. -/
def mchMessage (m : Mod) (p : Nat) (msg : Octets) (keyed : Bool) : Mod :=
  match msg with
  | 0x01 :: _ => m
  | 0xFF :: _ =>
    let t := tget ({} : Tt) m.time.tts p
    { m with time := { m.time with tts := tset {} m.time.tts p { t with got := t.got ++ [(msg, keyed)] } } }
  | _ => bump m 0x2000 0x0B 0 1

/-- A complete message's length agrees with its own header (R144, R592, R742): a Camanent message has its 32-byte header, the body
LENGTH gives, and 16 bytes of tag when it is protected; a report has 28 bytes. -/
def mchLengthOk (msg : Octets) : Bool :=
  match msg with
  | 0x01 :: _ => decide (32 ≤ msg.length) && msg.length == 32 + natAt msg 24 4 + (if (natAt msg 2 2).testBit 14 then 16 else 0)
  | 0xFF :: _ => msg.length == 28
  | _ => true

/-- One received MCH cell (R141 to R145), which a stopped pilot does not take (R143, R943); keyed: its frame passed its outer checks
(R593). A cell with COUNT 0 is ignored whatever its other bits, and a message under way waits through a stop of the pilot (DESIGN CHOICE, log 50). -/
def takeCell (m : Mod) (p : Nat) (cell : Octets) (keyed : Bool) : Mod :=
  let b := natAt cell 0 1
  let count := b % 16
  if count = 0 || !pilotUp m (harbourOf p) then m
  else
    let seq := bits b 4 2
    let x := rxOf m p
    let m1 := if x.mchOpen ∧ x.mchSeq ≠ some seq then dropMch m p 0 else if x.mchOpen ∧ b.testBit 7 then dropMch m p 2 else m
    let y := rxOf m1 p
    let start := b.testBit 7
    let y1 := { y with mchSeq := some ((seq + 1) % 4), mchOpen := y.mchOpen || start,
                       mch := if start then sub cell 1 count else if y.mchOpen then y.mch ++ sub cell 1 count else [],
                       mchKeyed := keyed && (start || y.mchKeyed) }
    let m2 := setRx m1 p y1
    if !y1.mchOpen then m2
    else if 9216 < y1.mch.length then dropMch m2 p 3
    else if b.testBit 6 then
      if mchLengthOk y1.mch then mchMessage (setRx m2 p { y1 with mch := [], mchOpen := false }) p y1.mch y1.mchKeyed else dropMch m2 p 4
    else m2

/-- MCH_MESSAGE_RECEIVE: a message whose cells a port in SYNC has reassembled and a running pilot takes, checked as the cells' own messages are
(R129, R143, R144). -/
def mchReceive (m : Mod) (p : Nat) (msg : Octets) (keyed : Bool) : Mod :=
  if !pilotUp m (harbourOf p) || !framing m p || (rxOf m p).st != 2 || msg.isEmpty then m
  else if 9216 < msg.length then dropMch m p 3
  else if mchLengthOk msg then mchMessage m p msg keyed
  else dropMch m p 4

/-- RDI taken (R170), REI taken (R171), KNR taken (R314). -/
def takeRemote (m : Mod) (p stat rei : Nat) : Mod :=
  let x := rxOf m p
  let rdi := stat.testBit 7
  let run := if rdi = x.rdiLast then x.rdiRun + 1 else 1
  let st := setBit (setBit x.stat 7 rdi) 4 (stat.testBit 4)
  let m1 := setRx m p { x with stat := st, rdiLast := rdi, rdiRun := run, knrAt := some m.sys.elapsed }
  let m2 := setPm m1 p { pmOf m1 p with rei := (pmOf m1 p).rei + rei }
  if 5 ≤ run then setDefect m2 p 10 rdi else m2

/-- The AUTH window (R134, R153, R159). -/
def takeAuth (m : Mod) (p : Nat) (ok : Bool) : Mod :=
  let x := rxOf m p
  let hist := (ok :: x.hist).take 16
  let good := if ok then x.goodRun + 1 else 0
  let m1 := setRx m p { x with hist, goodRun := good }
  if 8 ≤ (hist.filter (! ·)).length then setDefect m1 p 8 true else if 64 ≤ good then setDefect m1 p 8 false else m1

/-- An errored Gelix frame (R97): it counts once for REI and for the second. -/
def erroredFrame (m : Mod) (p : Nat) : Mod :=
  let m1 := setTx m p { txOf m p with rei := min 255 ((txOf m p).rei + 1) }
  setPm m1 p { pmOf m1 p with errored := (pmOf m1 p).errored + 1, anyError := true }

/-- The payload of a frame is lost: the record in progress goes, counted when it held client bytes (R116). -/
def losePayload (m : Mod) (p : Nat) : Mod :=
  let x := rxOf m p
  let m1 := setRx m p { x with parse := { part := [], resync := true, stamp := 0 } }
  if 8 < x.parse.part.length then bump m1 0x3200 0x11 p 1 else m1

/-! ### Records -/

/-- What the parser finds (R114, R115): an idle record, one to discard, or a client record with the offset of its header. -/
inductive Rec where
  | bad
  | client (bytes : Octets) (off : Int)
  deriving DecidableEq, Repr

/-- What the parser leaves: the records, the bytes of a record not yet whole with its offset, and whether it waits for a header. -/
structure Parsed where
  recs : List Rec
  part : Octets
  off : Int
  resync : Bool
  deriving DecidableEq, Repr

/-- The records of a stretch of client stream that begins at a header, at an offset of the client area (R107 to R115); the number bounds
them. -/
def parseRecords : Nat → Octets → Int → List Rec → Parsed
  | 0, buf, off, acc => ⟨acc.reverse, buf, off, false⟩
  | n + 1, buf, off, acc =>
    if buf.length < 8 then ⟨acc.reverse, buf, off, false⟩
    else
      let len := natAt buf 2 2
      let inner := (natAt buf 6 1).testBit 7
      if len = 0 then
        parseRecords n (buf.drop 8) (off + 8) (if buf.take 8 = zeros 8 then acc else .bad :: acc)
      else if (inner ∧ (len < 92 ∨ 9244 < len)) ∨ (!inner ∧ (len < 60 ∨ 9212 < len)) then ⟨(.bad :: acc).reverse, [], off, true⟩
      else if buf.length < 8 + len then ⟨acc.reverse, buf, off, false⟩
      else
        let reserved := natAt buf 4 2 % 0x400 != 0 || natAt buf 6 2 % 0x8000 != 0
        parseRecords n (buf.drop (8 + len)) (off + 8 + len) ((if reserved then .bad else .client (buf.take (8 + len)) off) :: acc)

/-- Where the first client byte of a record lies after the first bit of the frame under way, in bytes, by the record's offset in its client area:
behind the 50 bytes of overhead and FHP and the record's header; in the frame before where it lies there, with the 66 bytes of tag,
overhead and FHP between the areas (R88, R107, R109). -/
def recordAt (off : Int) : Int := if off + 8 < 0 then off + 58 - 66 else off + 58

/-- The time a number of bytes on the lanes of a Gelix port takes (R26): in 2^-16 ns, and in D-clock cycles. -/
def laneFine (m : Mod) (p : Nat) (n : Int) : Int := n * (frameFs (width m p) : Int) * 4 / 1000000
def laneCycles (m : Mod) (p : Nat) (n : Int) : Int := n * (frameFs (width m p) : Int) / (16384 * 800000)

/-- One client record (R109, R114, R228, R229): its inner association found by index, checked where it is protected, and delivered. `half`: the
frame began half a D-clock cycle late. -/
def takeRecord (m : Mod) (p : Nat) (half : Bool) (r : Rec) : Mod :=
  match r with
  | .bad => bump m 0x3200 0x10 p 1
  | .client bytes off =>
    let a := basinOf p * 16384 + natAt bytes 0 2 % 16384
    let inner := (natAt bytes 6 1).testBit 7
    let frame := bytes.drop 8
    -- the stamp of the first client byte (R575, R1037)
    let stamp := ((stampFine m p half : Int) + laneFine m p (recordAt off)).toNat
    let at_ := ((stampCycle m p : Int) + laneCycles m p (recordAt off)).toNat
    if aType m a ≠ 6 ∨ aPort m a ≠ p ∨ inner ≠ isGcm (aSuite m a) then bump m 0x3200 0x10 p 1
    else if !inner then received (bump m 0x3200 0x16 p 1) p a frame stamp at_
    else match secTagOf (frame.drop 12) with
      | none => bump m 0x3200 0x10 p 1
      | some (t, n) =>
        let data := frame.drop (12 + n)
        let len := data.length - 16
        if !wellFormedTag t len then bump m 0x3200 0x10 p 1
        else
          let c := clearBytes (conf m a) len
          let aad := secAad (frame.take 12) t (conf m a) (data.take len)
          verifyFrame m p a t (frame.take 12) len stamp at_ true aad (Machine.sub data c (len - c)) fun key iv => (gcmOpen key iv aad (data.drop c)).map fun x => data.take c ++ fit (len - c) x

/-- The client area of a frame whose payload is taken (R107, R108, R114 to R116). A resynchronisation whose FHP points past the area finds no record
and takes the next area from its first byte (DESIGN CHOICE, log 50). -/
def takePayload (m : Mod) (p : Nat) (half : Bool) (plain : Octets) : Mod :=
  let x := rxOf m p
  let fhp := natAt plain 0 2
  let area := plain.drop 2
  let held := x.parse.part.length
  if x.parse.resync ∧ fhp = 0xFFFF then m
  else
    let y := if x.parse.resync then parseRecords 2100 (area.drop fhp) fhp [] else parseRecords 2100 (x.parse.part ++ area) (-(held : Int)) []
    let m1 := setRx m p { x with parse := { part := y.part, resync := y.resync, stamp := 0 } }
    y.recs.foldl (fun m r => takeRecord m p half r) m1

/-! ### The received frame -/

/-- The additional data of a Gelix frame: the overhead with bytes 0 to 7 and byte 10 zero (R105). -/
def gelixAad (f : GelixFrame) : Octets :=
  zeros 8 ++ b1 f.stat ++ b1 f.rei ++ zeros 1 ++ b2 f.kep ++ bytesOf 6 f.fcnt ++ fit 10 f.ttx ++ fit 16 f.mch ++ fit 3 f.rsv

/-- The outer IV (R104). -/
def gelixIv (portNo epoch fcnt : Nat) : Octets := b2 (portNo % 64) ++ b4 epoch ++ bytesOf 6 fcnt

/-- The outer checks of a keyed frame (R132, R133): the counter of the first that fails, or none, for a slot. -/
def outerCheck (m : Mod) (a : Option Nat) (f : GelixFrame) : Option Nat :=
  match a with
  | none => some 0x0B
  | some a =>
    let y := (assoc m a).slot (b01 (f.stat.testBit 6))
    if !y.full then some 0x0B
    else if !(f.payload.intact && f.payload.key == suiteKey (aSuite m a) y.key && f.payload.iv == gelixIv y.peerPort y.peerEpoch f.fcnt &&
              f.payload.aad == gelixAad f) then some 0x0A
    else match y.hi with
      | some h => if f.fcnt ≤ h then some 0x0C else none
      | none => none

/-- What a passed frame gives beside its payload (R135 to R137, R148, R320, R321, R591). Of STAT it takes all but the reserved bits, the NOKEY bit
of a keyed frame among them (R95; NOKEY: DESIGN CHOICE, log 50). The newest 64 pairs are kept (DESIGN CHOICE, log 50). -/
def takePassed (m : Mod) (p a : Nat) (f : GelixFrame) : Mod :=
  let ph := b01 (f.stat.testBit 6)
  let h := harbourOf p
  let x := assoc m a
  let y := x.slot ph
  -- KSP while this end sends KNR = 0
  let rx := rxOf m p
  let ksp := f.stat.testBit 5
  let tell := ksp && !knrSent m p && !(rx.kspTold && rx.stat.testBit 5)
  let m1 := setRx m p { rx with stat := f.stat % 256 / 4 * 4, kspTold := ksp && (tell || (rx.kspTold && rx.stat.testBit 5)) }
  let m2 := if tell then raise m1 0x4023 (srcH h) 0 (b1 p ++ b2 a) else m1
  let m3 := setAssoc m2 a { x.setSlot ph { y with hi := some f.fcnt } with rxCur := ph }
  let m4 := if f.kep ≠ y.kep then raiseOnce (bump m3 0x3200 0x0D p 1) 0x3004 p (srcH h) 0 (b1 p ++ b2 f.kep ++ b2 y.kep) else m3
  if f.mfas ≠ 0 then m4
  else
    let t := tget ({} : Tt) m4.time.tts p
    let own := tenths m4 h + (if f.half then 4 else 0) - rxPath m4 p
    let ttx := (natAt f.ttx 0 6 * nsPerSec + natAt f.ttx 6 4) * 10
    let t1 := if f.stat.testBit 3 then { t with pairs := ((ttx, own, m.sys.elapsed) :: t.pairs).take 64 } else t
    let t2 := if infB m4 0x3200 5 p then { t1 with stamp := some (f.kep, f.fcnt, own, synced m4 h) } else t1
    { m4 with time := { m4.time with tts := tset {} m4.time.tts p t2 } }

/-- The blocks of a received payload (R328): the slot that the frame names and the counter of its FCNT. -/
def rxJob (m : Mod) (a : Option Nat) (f : GelixFrame) : Job :=
  let ph := b01 (f.stat.testBit 6)
  let y := (assoc m (a.getD 65536)).slot ph
  { key := suiteKey (aSuite m (a.getD 65536)) y.key, j0 := firstCounter (gelixIv y.peerPort y.peerEpoch f.fcnt), count := 1021, aad := some (gelixAad f)
    data := if f.payload.intact then (gcmSeal f.payload.key f.payload.iv f.payload.aad f.payload.plain).take 16320 else f.payload.plain }

/-- GELIX_FRAME_RECEIVE: a Gelix frame received in SYNC (R97, R99, R129, R132 to R145, R168, R871). It is taken also while LOF is still declared, which
clears only after 3 ms in SYNC (DESIGN CHOICE, log 50). The verdict falls with the command, as admission does (log 9). -/
def gelixReceive (m0 : Mod) (p : Nat) (f : GelixFrame) : Mod :=
  let x := rxOf m0 p
  if !framing m0 p || x.st != 2 then m0
  else
    let m1 := bump (setRx m0 p { x with parity := some f.payloadParity }) 0x3200 9 p 1
    let diff := match x.parity with
      | some v => popCount 8 (v ^^^ f.bip)
      | none => 0
    let m2 := takeTrace (if diff = 0 then m1 else bump m1 0x3200 0x0F p diff) p f.trc
    if f.stat.testBit 2 then
      -- NOKEY: RDI, KNR and REI are taken, the payload is discarded
      let m3 := bump (setPm m2 p { pmOf m2 p with nokey := true }) 0x3200 0x0E p 1
      let m4 := takeRemote m3 p f.stat f.rei
      let m5 := setRx m4 p { rxOf m4 p with stat := setBit (rxOf m4 p).stat 2 true }
      let m6 := losePayload (takeCell m5 p f.mch false) p
      if diff = 0 then m6 else erroredFrame m6 p
    else
      let a := boundAssoc m2 4 p
      let bank := basinOf p * 2 + 1
      match outerCheck m2 a f, a with
      | none, some a =>
        let m3 := takeAuth (frameBlocks m2 bank (rxJob m2 (some a) f)) p true
        let m4 := takeCell (takePassed (takeRemote m3 p f.stat f.rei) p a f) p f.mch true
        let m5 := if diff = 0 then m4 else erroredFrame m4 p
        if (port m5 p).tim ∧ inf m5 0x3300 3 p = 2 then losePayload (bump m5 0x3300 6 p 1) p
        else if quiesced m5 (basinOf p) then losePayload m5 p
        else takePayload m5 p f.half f.payload.plain
      | c, a =>
        let m3 := takeAuth (bump m2 0x3200 (c.getD 0x0B) p 1) p false
        let m4 := if c = some 0x0B then m3 else frameBlocks m3 bank (rxJob m3 a f)
        losePayload (takeCell (erroredFrame m4 p) p f.mch false) p

/-! ### The crypto bank -/

/-- The oldest released frame of a basin's line ports: its port, the frame, and the rest of the port's released frames. -/
def nextReleased (m : Mod) (basin : Nat) : Option (Nat × Desc × List Desc) :=
  (List.range 8).foldl (fun best i =>
    let p := basin * 16 + 8 + i
    match (arb m p).released with
    | [] => best
    | d :: r =>
      match best with
      | some (_, e, _) => if d.startAt < e.startAt then some (p, d, r) else best
      | none => some (p, d, r)) none

/-- The record of a client frame (R109, R110, R112). -/
def recordOf (m : Mod) (d : Desc) (frame : Octets) (inner : Bool) : Octets :=
  b2 (inf m 0x4000 8 d.assoc) ++ b2 frame.length ++ b2 (d.ingress % 8 * 0x2000 + qClass m [] d.queue * 0x400) ++ b2 (bitAt inner 15) ++ frame

/-- A record reaches the Gelix packer (R242): placed behind the others, or discarded while the port sends NOKEY frames. -/
def toPacker (m : Mod) (p : Nat) (d : Desc) (record : Octets) : Mod :=
  let t := txOf m p
  if t.noKey then
    let spent := match boundAssoc m 3 p with
      | some a => ((assoc m a).slot (assoc m a).txPhase).spent
      | none => false
    countDiscards m (if spent then 2 else 1) [d]
  else setTx m p { t with waiting := t.waiting ++ [(d, record)] }

/-- A frame goes on from the crypto bank towards its port's lanes. -/
def toLanes (m : Mod) (p : Nat) (d : Desc) : Mod := setArb m p { arb m p with egress := (arb m p).egress ++ [d] }

/-- The blocks of a frame at the transmit bank (R328): those of a masked frame are under way in the engine since its release, and take their counter
now; those of another wait for a pipeline. -/
def txBlocks (m : Mod) (k : Nat) (d : Desc) (j : Job) : Mod :=
  if d.masked then
    setBank m k { bank m k with engine := (bank m k).engine.map fun x => if x.job.serial = 0 ∧ x.job.data = d.bytes.drop 12 then { x with job := { j with sent := x.job.sent } } else x }
  else frameBlocks m k j

/-- CRYPTO_BANK_ENTRY on the transmit side (an association that has been given up has no slot with a key): the oldest released frame takes its slot
and PN and is protected, or is discarded (R214, R216, R236, R240, R270, R273, R301, R704). -/
def bankEntry (m0 : Mod) (basin : Nat) : Mod :=
  match nextReleased m0 basin with
  | none => m0
  | some (p, d, rest) =>
    let m := setArb m0 p { arb m0 p with released := rest }
    let a := d.assoc
    let inner := aType m a == 5
    if d.gen ≠ (berth m d.berth).gen then countDiscards m 6 [d]
    else if !isTx (aType m a) then countDiscards (bump m 0x4020 4 a 1) 1 [d]
    else if !isGcm (aSuite m a) then
      -- no block of it enters a pipeline, and its space is free (R471, R655)
      let d := { d with cells := 0, parkBytes := 0 }
      if inner then toPacker m p d (recordOf m d d.bytes false)
      else toLanes (bump m 0x4020 6 a 1) p { d with line := some { head := d.bytes, tag := none, body := ⟨[], [], [], [], true⟩, length := d.len } }
    else
      let y := (assoc m a).slot (assoc m a).txPhase
      if !y.full then countDiscards (bump m 0x4020 4 a 1) 1 [d]
      else if y.spent then countDiscards (bump m 0x4020 5 a 1) 2 [d]
      else
        let (pn, m1) := assignPn m a
        let m2 := bump (bump m1 0x4020 1 a 1) 0x4020 2 a d.len
        let h := if !inner && clearTag m a then 16 else 12
        let data := d.bytes.drop h
        let t := mkTag m a data.length pn
        let key := suiteKey (aSuite m a) y.key
        let iv := gcmIv (aSuite m a) t.sci (inf m 0x4000 7 a) pn y.salt
        let aad := secAad (d.bytes.take 12) t (conf m a) data
        let serial := m2.serials + 1
        let m3 := txBlocks { m2 with serials := serial } (basin * 2) d
          { key, j0 := firstCounter iv, data := data.drop (clearBytes (conf m a) data.length), aad := some aad, count := blocksOf d.len, serial }
        let d := { d with serial }
        if inner then
          let c := clearBytes (conf m a) data.length
          let sealed := fit (data.length - c + 16) (gcmSeal key iv aad (data.drop c))
          toPacker m3 p d (recordOf m3 d (d.bytes.take 12 ++ secTagBytes t ++ data.take c ++ sealed) true)
        else
          toLanes m3 p { d with line := some { head := d.bytes.take h, tag := some t, length := d.len + 32,
                                               body := { key, iv, aad, plain := data } } }

/-! ### The sender -/

/-- What the packer makes of the records for a frame's client area. -/
structure Packed where
  area : Octets := []
  cur : Octets := []
  curDesc : Option Desc := none
  waiting : List (Desc × Octets) := []
  done : List Desc := []
  stale : List Desc := []
  fhp : Nat := 0xFFFF
  deriving DecidableEq, Repr

/-- Records placed at a record boundary (R107, R111, R113): the waiting ones, each no earlier than the byte `from_` gives it (R518), and idle records
where none can stand; `old` frames are discarded at their start (R704), and in the last keyed frame none is begun that cannot end in it (R242). The
number bounds the records. -/
def packMore (old : Desc → Bool) (from_ : Desc → Nat) (last : Bool) : Nat → Packed → Packed
  | 0, k => k
  | n + 1, k =>
    let room := 16318 - k.area.length
    if room = 0 then k
    else
      let k1 := { k with fhp := if k.fhp = 0xFFFF then k.area.length else k.fhp }
      match k.waiting with
      | (d, r) :: rest =>
        let idle := min room (ceilDiv (from_ d - k.area.length) 8 * 8)
        if old d then packMore old from_ last n { k with waiting := rest, stale := k.stale ++ [d] }
        else if idle ≠ 0 then packMore old from_ last n { k1 with area := k.area ++ zeros idle, cur := zeros ((8 - idle % 8) % 8) }
        else if last ∧ room < r.length then packMore old from_ last n { k1 with area := k.area ++ zeros (min 8 room), cur := zeros (8 - room) }
        else if r.length ≤ room then packMore old from_ last n { k1 with area := k.area ++ r, waiting := rest, done := k.done ++ [d] }
        else { k1 with area := k.area ++ r.take room, cur := r.drop room, curDesc := some d, waiting := rest }
      | [] => { k1 with area := k.area ++ zeros room, cur := zeros ((8 - room % 8) % 8) }

/-- The byte of the client area of a frame of a width, whose first bit leaves at a time in fs, from which a record can stand (R518): the area is
filled over the frame time before that (DEDUCED, log 9), and the record enters it at its gate-tested time. -/
def recordFrom (w leave : Nat) (d : Desc) : Nat :=
  if w = 0 then 0 else ceilDiv ((d.startAt * 800000 + frameFs w - leave) * 16318) (frameFs w)

/-- The client area of a keyed frame. -/
def pack (old : Desc → Bool) (from_ : Desc → Nat) (last : Bool) (t : GelTx) : Packed :=
  let k : Packed := { waiting := t.waiting }
  if 16318 ≤ t.cur.length then { k with area := t.cur.take 16318, cur := t.cur.drop 16318, curDesc := if 16318 < t.cur.length then t.curDesc else none,
                                        done := if t.cur.length = 16318 then t.curDesc.toList else [] }
  else packMore old from_ last (2 * t.waiting.length + 2100) { k with area := t.cur, done := t.curDesc.toList }

/-- The next MCH cell of a port (R141 to R143, R145), and the sender after it: an idle cell while the pilot of its harbour is stopped (R943), after
which a message under way goes on (DESIGN CHOICE, log 50). -/
def nextCell (pilot : Bool) (t : GelTx) : Octets × GelTx :=
  if !pilot then (zeros 16, t) else
  let u := if t.mchNow = [] then
      match t.mchQueue with
      | x :: r => { t with mchNow := x, mchQueue := r, mchFirst := true }
      | [] => t
    else t
  if u.mchNow = [] then (zeros 16, u)
  else
    let data := u.mchNow.take 15
    let rest := u.mchNow.drop 15
    (fit 16 (b1 (bitAt u.mchFirst 7 + bitAt rest.isEmpty 6 + u.mchSeq * 16 + data.length) ++ data),
     { u with mchNow := rest, mchFirst := rest.isEmpty, mchSeq := (u.mchSeq + 1) % 4 })

/-- A management message that waits is taken up for the cells of a port once it has none to send (R143): relayed messages and reports go first
(DESIGN CHOICE, log 34). -/
def loadMch (m : Mod) (p : Nat) : Mod :=
  let t := txOf m p
  let x := interceptOf m p
  match x.replies with
  | (_, r) :: rest =>
    if pilotUp m (harbourOf p) ∧ t.mchNow = [] ∧ t.mchQueue = [] then
      let bpid := match slotOf m r.session with
        | some i => if (sess m i).role = 3 then (sess m i).bpid else 0
        | none => 0
      setTx (setIntercept m p { x with replies := rest }) p { t with mchQueue := [r.bytes bpid] }
    else m
  | [] => m

/-- The far end holds the next key (R314): KNR in force is 1, from a frame within the last 256 frame times. -/
def farReady (m : Mod) (p : Nat) : Bool :=
  let x := rxOf m p
  x.stat.testBit 4 && (match x.knrAt with
    | some t => decide ((m.sys.elapsed - t) * 8 * 57568 * width m p ≤ 256 * 131072 * 544 * 10)
    | none => false)

/-- The start of a frame with MFAS 0: a due switch flips (R315), notice begins (R313). -/
def atMfas0 (m : Mod) (a : Nat) : Mod :=
  let x := assoc m a
  if x.sw = 4 then flip m a
  else if x.sw = 2 ∧ !x.ksp then setAssoc m a { x with ksp := true }
  else m

/-- A decision point (R312, R314 to R318): the end of notice, or a multiframe of waiting. -/
def atMfas255 (m : Mod) (p a : Nat) : Mod :=
  let x := assoc m a
  let decide_ (m : Mod) : Mod :=
    let y := assoc m a
    if farReady m p then setAssoc m a { y with sw := 4 }
    else
      let m1 := setAssoc m a { y with sw := 3, knrWait := satAdd 32 y.knrWait 1, waitEvent := y.waitEvent || x.sw == 2 }
      if x.sw = 2 ∧ !y.waitEvent then raise m1 0x4021 (srcH (aHarbour a)) (bpidOf m (aBerth m a)) (b2 a ++ b1 p ++ b4 y.given) else m1
  if x.sw = 2 ∧ x.ksp then
    let m1 := setAssoc m a { x with notice := x.notice - 1 }
    if x.notice ≤ 1 then decide_ m1 else m1
  else if x.sw = 3 then decide_ m
  else m

/-- The parity byte of a ciphertext (R98). -/
def parityOf (bs : Octets) : Nat := (bs.foldl (· ^^^ ·) 0).toNat

/-- The key in use of a port is that of an association's transmit slot (R102): since an MFAS 0, the same key of the same slot. -/
def keyInUse (m : Mod) (t : GelTx) (a : Nat) : Bool :=
  let x := assoc m a
  t.inUse == some (a, x.txPhase, (x.slot x.txPhase).order)

/-- The port begins or goes on sending NOKEY frames: what the packer holds is discarded, and event 0x4003 raised once (R242). -/
def goNoKey (m : Mod) (p : Nat) (spent : Bool) : Mod :=
  let t := txOf m p
  let gone := t.curDesc.toList ++ t.waiting.map (·.1)
  let m1 := setTx m p { t with noKey := true, told := true, cur := [], curDesc := none, waiting := [], inUse := none }
  let m2 := if t.told then m1 else raise m1 0x4003 (srcH (harbourOf p)) 0 (b1 p ++ b1 (b01 (!spent)))
  countDiscards m2 (if spent then 2 else 1) gone

/-- The outer layer of a frame: whether it is keyed, its slot's fields, its payload's plaintext, the blocks it gives the bank, and the records it
completes. -/
structure Outer where
  keyed : Bool
  phase : Nat := 0
  kep : Nat := 0
  fcnt : Nat := 0
  key : Octets := []
  iv : Octets := []
  plain : Octets
  job : Job
  records : Nat := 0
  deriving DecidableEq, Repr

/-- The payload and tag bytes of a NOKEY frame (R92, R356): 1,021 blocks of a running counter under the throw-away key. -/
def noKeyBytes (throw : Octets) (count : Nat) : Octets :=
  let ks := keySchedule throw
  (List.range 1021).flatMap fun i => bytesOf 16 (encWith ks ((count + i) % 2 ^ 128))

/-- A frame without a key: its payload, and the blocks that make it. -/
def noKeyOuter (t : GelTx) : Outer :=
  { keyed := false, plain := noKeyBytes t.throw t.count, job := { key := t.throw, runs := true, j0 := t.count, count := 1021 } }

/-- The overhead, the payload and the record of a frame whose bank instant has come (R93 to R101, R103 to R106, R139, R146, R147, R165, R310,
R1038): its blocks join those of the bank, and it leaves when its lead is over. -/
def emitGelix (m0 : Mod) (p : Nat) (o : Outer) (ksp : Bool) : Mod :=
  let m := loadMch m0 p
  let h := harbourOf p
  let t := txOf m p
  let lead := gelixLead m p
  let ttv := o.keyed && infB m 0x3200 5 p && synced m h
  let at_ := tenths m h + lead * 8 + (if t.due % 800000 < 400000 then 0 else 4)
  let stat := bitAt (rdiCause m p) 7 + (if o.keyed then o.phase * 64 + bitAt ksp 5 else 0) + bitAt (knrSent m p) 4 + bitAt ttv 3 + bitAt (!o.keyed) 2
  let (cell, t1) := nextCell (pilotUp m h) t
  let f : GelixFrame := { mfas := t.mfas, trc := 0, stat, rei := min 255 t.rei, bip := t.parity, kep := o.kep, fcnt := o.fcnt,
                          ttx := if ttv then timeBytes (at_ / 10) else zeros 10, mch := cell, rsv := zeros 3,
                          payload := { key := [], iv := [], aad := [], plain := o.plain }, payloadParity := 0 }
  let aad := if o.keyed then gelixAad f else []
  let parity := parityOf (if o.keyed then (gcmSeal o.key o.iv aad o.plain).take 16320 else o.plain.take 16320)
  let f1 := { f with payload := { key := o.key, iv := o.iv, aad, plain := o.plain }, payloadParity := parity }
  let serial := m.serials + 1
  let x : Leaving := { leave := m.sys.elapsed + lead, frame := f1, serial, records := o.records,
                       sends := if t.mfas = 0 ∧ infB m 0x3200 5 p then some (o.kep, o.fcnt, at_) else none }
  let t2 := { t1 with mfas := (t.mfas + 1) % 256, parity, rei := 0, due := t.due + frameFs (width m p), fixed := t1.fixed ++ [x],
                      count := t.count + if o.keyed then 0 else 1021 }
  leavePort (frameBlocks { setTx m p t2 with serials := serial } (basinOf p * 2) { o.job with serial, aad := if o.keyed then some aad else none }) p

/-- GELIX_FRAME_SEND: at the next bank instant the port fixes a Gelix frame (R89 to R92, R102, R242, R271, R312 to R319, R1038). A port whose
association has changed sends NOKEY frames until MFAS 0 (DEDUCED from R102, log 50). -/
def gelixSend (m00 : Mod) (p : Nat) : Mod :=
  if !m00.sys.running || !isGelix m00 p || !(port m00 p).up || !(txOf m00 p).started then m00
  else
    let mA := advanceTo m00 ((txOf m00 p).due / 800000)
    let due := max (txOf mA p).due (mA.sys.elapsed * 800000)
    let m0 := setTx mA p { txOf mA p with due }
    let h := harbourOf p
    -- a fresh throw-away key at every multiframe start (R357), under the reserve feed at its period (R374)
    let rested := !(entropyOf m0 h).reserve || decide ((txOf m0 p).throwAt + 1048576 ≤ m0.sys.elapsed)
    let mB := if (txOf m0 p).mfas = 0 ∧ feedOk m0 h ∧ rested then
        let (bs, m1) := draw m0 (feedOf m0 h) 32
        setTx m1 p { txOf m1 p with throw := bs, throwAt := m1.sys.elapsed }
      else m0
    let a := boundAssoc mB 3 p
    let m1 := match a with
      | some a => if (txOf mB p).mfas = 0 then atMfas0 mB a else mB
      | none => mB
    let t := txOf m1 p
    match a with
    | some a =>
      if txUsable m1 a ∧ (t.mfas = 0 ∨ (!t.noKey ∧ keyInUse m1 t a)) then
        let x := assoc m1 a
        let y := x.slot x.txPhase
        let (fcnt, m2) := assignPn m1 a
        let leave := t.due + gelixLead m1 p * 800000
        let k := pack (fun d => d.gen != (berth m1 d.berth).gen) (recordFrom (width m1 p) leave) (fcnt == 2 ^ 48 - 1) t
        let m3 := setTx m2 p { t with noKey := false, told := false, cur := k.cur, curDesc := k.curDesc.map fun d => { d with outer := m2.serials + 1 }, waiting := k.waiting,
                                      inUse := some (a, x.txPhase, y.order) }
        let m4 := countDiscards m3 6 k.stale
        let m5 := k.done.foldl (fun m d => toLanes m p { d with startAt := m.sys.elapsed + gelixLead m p, outer := m2.serials + 1 }) m4
        let m6 := bump (bump m5 0x4020 1 a 1) 0x4020 2 a 16320
        let key := suiteKey (aSuite m1 a) y.key
        let iv := gelixIv p m1.tether.vault.bootEpoch fcnt
        let plain := b2 k.fhp ++ k.area
        let m7 := emitGelix m6 p { keyed := true, phase := x.txPhase, kep := y.kep, fcnt, key, iv, plain, records := k.done.length
                                   job := { key, j0 := firstCounter iv, data := plain, count := 1021 } } x.ksp
        if t.mfas = 255 then atMfas255 m7 p a else m7
      else
        let m2 := goNoKey (dropNotice m1 a) p ((assoc m1 a).slot (assoc m1 a).txPhase).spent
        let m3 := emitGelix m2 p (noKeyOuter t) false
        if t.mfas = 255 then atMfas255 m3 p a else m3
    | none => emitGelix (goNoKey m1 p false) p (noKeyOuter t) false

/-! ### Egress -/

/-- FRAME_EGRESS_COMPLETE: the last byte of the oldest frame on its way out leaves; it counts as delivered, an inbound frame frees its
cells and carries the FCS that the egress port adds (R113), and a corrected PTP frame's actual stamp is compared, in 0.1 ns (R22, R471, R588).
A frame of which a block came out wrong with no check to show it is not intact (R338). -/
def egressComplete (m0 : Mod) (p : Nat) (err : Int) : Mod :=
  match (arb m0 p).egress with
  | [] => m0
  | d :: rest =>
    let m := advanceTo m0 (d.startAt + carryCycles m0 p d)
    let m1 := bump (setArb m p { arb m p with egress := rest }) 0x6010 3 d.queue 1
    let ok := d.serial = 0 || !((bank m (basinOf p * 2)).spoiled.contains d.serial)
    let m2 := match d.line with
      | some f => emit m1 (.lineFrame p { f with body := { f.body with intact := f.body.intact && ok } })
      | none => if isLine p then m1 else emit m1 (.clearFrame p (d.bytes ++ fcsOf d.bytes))
    if d.ptp ∧ 20 < err.natAbs then
      raiseOnce (bump m2 0x7030 0x0A p 1) 0x7008 p (srcH (harbourOf p)) 0 (b1 p ++ bytesOfInt 8 (Int.tdiv err 10))
    else m2

end Sys2Proof.Machine
end

