-- ==== Sys2Proof/Machine/DataPath.lean ====
section
/-! DEFINITION. The commands of frames on their way through the module: reception, learning hold, release, the crypto bank, egress (R55 to R57, R88 to R149, R214 to R247, R420 to R434, R452 to R500, R1038). -/

namespace Sys2Proof.Machine

/-- CLEAR_FRAME_RECEIVE: R56, R420, R582, R725. -/
def execClearFrameReceive (port : Fin 64) (frame : Frame) (s : State) : Host.Outcome State Fault Refusal :=
  run "CLEAR_FRAME_RECEIVE" (.clearFrameReceive port frame) s (whileOn (onMod fun m => clearReceive m port frame))

/-- HOLD_EXPIRE: R431. -/
def execHoldExpire (basin : Fin 4) (s : State) : Host.Outcome State Fault Refusal :=
  run "HOLD_EXPIRE" (.holdExpire basin) s (whileOn (onMod fun m => expireHold m basin))

/-- FRAME_MODE_RECEIVE: R229 to R234, R272 to R274. -/
def execFrameModeReceive (port : Fin 64) (frame : LineFrame) (s : State) : Host.Outcome State Fault Refusal :=
  run "FRAME_MODE_RECEIVE" (.frameModeReceive port frame) s (whileOn (onMod fun m => frameReceive m port frame))

/-- GELIX_FRAME_RECEIVE: R132 to R146. -/
def execGelixFrameReceive (port : Fin 64) (frame : GelixFrame) (s : State) : Host.Outcome State Fault Refusal :=
  run "GELIX_FRAME_RECEIVE" (.gelixFrameReceive port frame) s (whileOn (onMod fun m => gelixReceive m port frame))

/-- FAW_FOUND: R124 to R127. -/
def execFawFound (port : Fin 64) (offset mfas : Nat) (s : State) : Host.Outcome State Fault Refusal :=
  run "FAW_FOUND" (.fawFound port offset mfas) s (whileOn (onMod fun m => fawFound m port offset mfas))

/-- CANDIDATE_DROPPED: R126. -/
def execCandidateDropped (port : Fin 64) (offset : Nat) (s : State) : Host.Outcome State Fault Refusal :=
  run "CANDIDATE_DROPPED" (.candidateDropped port offset) s (whileOn (onMod fun m => dropCandidate m port offset))

/-- EXPECTED_FAW_CHECK: R128 to R130. -/
def execExpectedFawCheck (port : Fin 64) (bitErrors mfas : Nat) (s : State) : Host.Outcome State Fault Refusal :=
  run "EXPECTED_FAW_CHECK" (.expectedFawCheck port bitErrors mfas) s (whileOn (onMod fun m => checkFaw m port bitErrors mfas))

/-- GELIX_FRAME_SEND: R1038. -/
def execGelixFrameSend (port : Fin 64) (s : State) : Host.Outcome State Fault Refusal :=
  run "GELIX_FRAME_SEND" (.gelixFrameSend port) s (whileOn (onMod fun m => gelixSend m port))

/-- FRAME_RELEASE: R484 to R490, R523. -/
def execFrameRelease (port : Fin 64) (waited : Nat) (s : State) : Host.Outcome State Fault Refusal :=
  run "FRAME_RELEASE" (.frameRelease port waited) s (whileOn (onMod fun m => releaseFrame m port waited))

/-- CRYPTO_BANK_ENTRY: R236 to R241. -/
def execCryptoBankEntry (basin : Fin 4) (s : State) : Host.Outcome State Fault Refusal :=
  run "CRYPTO_BANK_ENTRY" (.cryptoBankEntry basin) s (whileOn (onMod fun m => bankEntry m basin))

/-- FRAME_EGRESS_COMPLETE: R471, R588. -/
def execFrameEgressComplete (port : Fin 64) (predictionError : Int) (s : State) : Host.Outcome State Fault Refusal :=
  run "FRAME_EGRESS_COMPLETE" (.frameEgressComplete port predictionError) s (whileOn (onMod fun m => egressComplete m port predictionError))

end Sys2Proof.Machine
end

