-- ==== Sys2Proof/Machine/Pm.lean ====
section
/-! DEFINITION. Performance monitoring: grading a second, availability, committing seconds to bins, closing bins, DEG
(R160, R161, R177 to R199). -/

namespace Sys2Proof.Machine

/-- Nominal Gelix frames per second and the SES threshold, by width (R161). -/
def nominalFrames : Nat → Nat
  | 1 => 807369
  | 2 => 1614739
  | 4 => 3229478
  | 8 => 6458956
  | _ => 0
def sesThreshold : Nat → Nat
  | 1 => 121106
  | 2 => 242211
  | 4 => 484422
  | 8 => 968844
  | _ => 0

/-- The DEG threshold in frames: units of 0.01 %, rounded up (R161). -/
def degThreshold (m : Mod) (p : Nat) : Nat := ceilDiv (inf m 0x3300 4 p * nominalFrames (width m p)) 10000

/-- The port was not enabled in line mode for all of a second (R160, R177): by the second's own flag, or because Enable came into force
in it or later. -/
def partialSecond (x : Pm) (start : Nat) : Bool := x.partialSec || decide (start / nsPerSec < x.partialTo)

/-- The grading of the second that has ended (R179 to R181); it is not graded when the port was not enabled in line mode for
all of it, or PM was off at some moment of it (R177, R178). -/
def gradeSecond (m : Mod) (p start : Nat) : Second :=
  let x := pmOf m p
  let thr := sesThreshold (width m p)
  let graded := !partialSecond x start && !x.pmOff && infB m 0x3400 1 p
  { time := start, graded, untraceable := x.untraceable || !synced m (harbourOf p), stepped := x.stepped, errored := x.errored, rei := x.rei
    es := x.anyError || x.errored != 0 || x.oof || bits x.seen 2 8 != 0 || thr ≤ x.errored
    ses := thr ≤ x.errored || bits x.seen 2 4 != 0
    nks := x.nokey
    inh := bits x.seen 2 7 != 0
    fes := x.rei != 0 || x.seenRdi
    fses := thr ≤ x.rei || x.seenRdi }

/-- Last second class 0x3400:04 (R197). -/
def classBits (s : Second) : Nat :=
  bitAt s.es 0 + bitAt s.ses 1 + bitAt s.nks 2 + bitAt s.fes 3 + bitAt s.fses 4 + bitAt s.inh 5

/-- One end's availability after a second: the state, the run and the time of its first second (R182). -/
structure Avail where
  unavail : Bool
  run : Nat
  first : Nat
  flipped : Bool
  deriving DecidableEq, Repr

/-- An available end turns unavailable with 10 consecutive SES, and back with 10 consecutive non-SES (R182). -/
def availStep (unavail : Bool) (run first time : Nat) (ses : Bool) : Avail :=
  if ses = unavail then ⟨unavail, 0, first, false⟩
  else
    let f := if run = 0 then time else first
    if run + 1 = 10 then ⟨!unavail, 0, f, true⟩ else ⟨unavail, run + 1, f, false⟩

/-- A 32-bit PM counter (R188): the new value and whether it is saturated. -/
def pmAdd (a n : Nat) : Nat := satAdd 32 a n

/-- A bin with a committed second added (R179 to R182, R187, R188). -/
def Bin.add (b : Bin) (s : Second) : Bin :=
  let f := if b.flags.testBit 0 then b else { b with start := s.time, flags := setBit b.flags 0 true }
  let g := { f with flags := if s.untraceable then setBit f.flags 2 true else f.flags }
  if !s.graded then g
  else
    let ne := !s.neUnavail
    let fe := !s.feUnavail && !s.inh
    let r := { g with
      es := pmAdd g.es (b01 (ne && s.es)), ses := pmAdd g.ses (b01 (ne && s.ses)), uas := pmAdd g.uas (b01 s.neUnavail),
      bbe := pmAdd g.bbe (if ne && !s.ses then s.errored else 0), nks := pmAdd g.nks (b01 (ne && s.nks)),
      fes := pmAdd g.fes (b01 (fe && s.fes)), fses := pmAdd g.fses (b01 (fe && s.fses)),
      fuas := pmAdd g.fuas (b01 (s.feUnavail && !s.inh)), fbbe := pmAdd g.fbbe (if fe && !s.fses then s.rei else 0),
      graded := g.graded + 1 }
    let sat := [r.es, r.ses, r.uas, r.bbe, r.nks, r.fes, r.fses, r.fuas, r.fbbe].any (· == 2 ^ 32 - 1)
    { r with flags := if sat then setBit r.flags 3 true else r.flags }

/-- A bin as it closes: SUSPECT when it graded fewer seconds than its interval (R191). -/
def Bin.closed (b : Bin) (interval : Nat) : Bin :=
  { b with flags := if b.graded < interval then setBit (setBit b.flags 0 true) 1 true else setBit b.flags 0 true }

/-- The current 15-minute bin closes: event 0x3017 (R186). -/
def close15 (m : Mod) (p next : Nat) : Mod :=
  let x := pmOf m p
  let b := x.cur15.closed 900
  raise (setPm m p { x with cur15 := { start := next }, hist15 := (b :: x.hist15).take 96 }) 0x3017 (srcH (harbourOf p)) 0
    (b1 p ++ timeBytes b.start ++ b1 b.flags)

/-- The current 24-hour bin closes: event 0x3018 (R186). -/
def close24 (m : Mod) (p next : Nat) : Mod :=
  let x := pmOf m p
  let b := x.cur24.closed 86400
  raise (setPm m p { x with cur24 := { start := next }, prev24 := b }) 0x3018 (srcH (harbourOf p)) 0 (b1 p ++ timeBytes b.start ++ b1 b.flags)

/-- A second as a port's bins take it: no count advances while PM is off (R178). -/
def counted (m : Mod) (p : Nat) (s : Second) : Second := { s with graded := s.graded && infB m 0x3400 1 p }

/-- A second in the 15-minute bin, and in the 24-hour bin, of the interval in which it occurred; the bin closes with its last second
(R186, R187). A second that a step has put there already is left out. -/
def toBin15 (m : Mod) (p : Nat) (s : Second) : Mod :=
  if s.in15 then m
  else
    let x := pmOf m p
    let m1 := setPm m p { x with cur15 := x.cur15.add (counted m p s) }
    let e := s.time / nsPerSec + 1
    if e % 900 = 0 then close15 m1 p (e * nsPerSec) else m1
def toBin24 (m : Mod) (p : Nat) (s : Second) : Mod :=
  if s.in24 then m
  else
    let x := pmOf m p
    let m1 := setPm m p { x with cur24 := x.cur24.add (counted m p s) }
    let e := s.time / nsPerSec + 1
    if (e + (86400 - inf m 0x3400 2 p)) % 86400 = 0 then close24 m1 p (e * nsPerSec) else m1

/-- The stowage line that holds a port's 1 s history record of a second (R192): the port's place in the PM history region is its line index in
the harbour, the record's place its second of the day (DESIGN CHOICE, log 51); none where no such region is enabled. -/
def historyLine (m : Mod) (p time : Nat) : Option Nat :=
  let h := harbourOf p
  (regionOfKind m h 3).map fun r =>
    regionBase m h r + ((p / 16 % 2 * 8 + p % 8) * 2764800 + time / nsPerSec % 86400 * 32) / 64

/-- The engine of a harbour refuses the pilot an access to the PM history that needs a right (R652, R667): its region, none where none is enabled. A
port that is not ready refuses nothing; it answers an error. -/
def historyRefuses (m : Mod) (h need : Nat) : Bool :=
  (stow m h).st == 2 && (regionOfKind m h 3).all (denied m h · 0 need)
def refuseHistory (m : Mod) (h : Nat) : Mod := refuseAccess m h 0 (regionOfKind m h 3) 1

/-- The pilot's access to the PM history of a harbour gets an error: the stowage port is not ready, or the engine refuses it (R621, R652, R667). -/
def historyShut (m : Mod) (h need : Nat) : Bool := (stow m h).st != 2 || historyRefuses m h need

/-- A harbour's stowage takes a history record of a second: the port is ready, the region is enabled and open to the pilot, and the line is not
lost (R637, R652, R664). -/
def historyOpen (m : Mod) (p time : Nat) : Bool :=
  let h := harbourOf p
  !historyShut m h 3 && (historyLine m p time).any fun l => (lostAt m h l).isNone

/-- The history records in lost lines of a harbour's PM history region (R192, R663), and in a region that is enabled afresh. -/
def loseHistory (m : Mod) (h lo count : Nat) : Mod :=
  ((m.pm.map (·.1)).filter (harbourOf · == h)).foldl (fun m p =>
    setPm m p { pmOf m p with hist1 := (pmOf m p).hist1.map fun b =>
      if (historyLine m p b.start).any fun l => decide (lo ≤ l ∧ l < lo + count) then { b with lost := true } else b }) m

/-- A second committed to the bins (R184, R186). A 1 s history record is kept of a classified second only: it holds 1 in Seconds classified
(R198; DEDUCED, log 51). -/
def commitSecond (m : Mod) (p : Nat) (s : Second) : Mod :=
  let b := ({} : Bin).add s
  let one : Bin := { b with start := s.time, flags := setBit b.flags 1 s.stepped }
  let wanted := s.graded && infB m 0x3400 3 p && infB m 0x3400 1 p
  let m1 := toBin24 (toBin15 m p s) p s
  if wanted && historyRefuses m (harbourOf p) 3 then refuseHistory m1 (harbourOf p)
  else if wanted && historyOpen m p s.time then setPm m1 p { pmOf m1 p with hist1 := (one :: (pmOf m1 p).hist1).take 86400 } else m1

/-- DEG after a second (R153, R160): bad, good, or neither. -/
def degSecond (m : Mod) (p start : Nat) : Mod :=
  let x := pmOf m p
  if partialSecond x start || bits x.seen 2 7 != 0 then m
  else
    let n := inf m 0x3300 5 p
    if degThreshold m p ≤ x.errored then
      let m1 := setPm m p { x with degBad := x.degBad + 1, degGood := 0 }
      if n ≤ x.degBad + 1 then setDefect m1 p 9 true else m1
    else
      let m1 := setPm m p { x with degBad := 0, degGood := x.degGood + 1 }
      if n ≤ x.degGood + 1 then setDefect m1 p 9 false else m1

/-- The second that has ended joins the run that goes against its end's availability, or none; a run that starts drops what was marked before
(R182). -/
def joinRun (ss : List Second) (far joins starts : Bool) : List Second :=
  match ss with
  | [] => []
  | s :: rest =>
    if far then { s with feIn := joins } :: (if starts then rest.map fun t => { t with feIn := false } else rest)
    else { s with neIn := joins } :: (if starts then rest.map fun t => { t with neIn := false } else rest)

/-- The seconds held back that belong to a run take the new availability (R182). -/
def remark (ss : List Second) (far value : Bool) : List Second :=
  ss.map fun s => if far then (if s.feIn then { s with feUnavail := value } else s) else if s.neIn then { s with neUnavail := value } else s

/-- The event of an end that changes availability (R185). -/
def availEvent (m : Mod) (p : Nat) (far : Bool) (a : Avail) : Mod :=
  if a.flipped then raise m 0x3016 (srcH (harbourOf p)) 0 (b1 p ++ b1 (b01 far) ++ b1 (b01 a.unavail) ++ timeBytes a.first) else m

/-- The end of a second that began at a time (R160, R177 to R185): graded, availability decided, the second from 9 s before
committed. -/
def endSecond (m : Mod) (p start : Nat) : Mod :=
  let m0 := degSecond m p start
  let x := pmOf m0 p
  let s := gradeSecond m0 p start
  let ne := if s.graded then availStep x.neUnavail x.neRun x.neFirst s.time s.ses else ⟨x.neUnavail, x.neRun, x.neFirst, false⟩
  let fe := if s.graded && !s.inh then availStep x.feUnavail x.feRun x.feFirst s.time s.fses else ⟨x.feUnavail, x.feRun, x.feFirst, false⟩
  let all := { s with neUnavail := x.neUnavail, feUnavail := x.feUnavail } :: x.recent
  let runs := joinRun (joinRun all false (s.graded && (ne.flipped || ne.run != 0)) (x.neRun == 0))
    true (s.graded && !s.inh && (fe.flipped || fe.run != 0)) (x.feRun == 0)
  let a1 := if ne.flipped then remark runs false ne.unavail else runs
  let a2 := if fe.flipped then remark a1 true fe.unavail else a1
  let raw := bits (rawDefects m0 p) 0 10
  let y := { x with recent := a2.take 9, neUnavail := ne.unavail, neRun := ne.run, neFirst := ne.first,
                    feUnavail := fe.unavail, feRun := fe.run, feFirst := fe.first,
                    lastClass := if s.graded then classBits s else x.lastClass,
                    lastErrored := if s.graded then s.errored else x.lastErrored,
                    lastRei := if s.graded then s.rei else x.lastRei,
                    errored := 0, anyError := false, rei := 0, nokey := false, oof := (rxOf m0 p).st != 2,
                    seen := raw, seenRdi := (port m0 p).feRdi, untraceable := !synced m0 (harbourOf p), stepped := false,
                    partialSec := !(isGelix m0 p && portEnabled m0 p), pmOff := !infB m0 0x3400 1 p, done := start / nsPerSec + 1 }
  let m1 := availEvent (availEvent (setPm m0 p y) p false ne) p true fe
  match a2[9]? with
  | some old => commitSecond m1 p old
  | none => m1

/-- The seconds held back go into their 15-minute or 24-hour bin before a step closes it, oldest first (R187, R190). -/
def flush15 (m : Mod) (p : Nat) : Mod :=
  let m1 := (pmOf m p).recent.reverse.foldl (fun m s => toBin15 m p s) m
  setPm m1 p { pmOf m1 p with recent := (pmOf m1 p).recent.map fun s => { s with in15 := true } }
def flush24 (m : Mod) (p : Nat) : Mod :=
  let m1 := (pmOf m p).recent.reverse.foldl (fun m s => toBin24 m p s) m
  setPm m1 p { pmOf m1 p with recent := (pmOf m1 p).recent.map fun s => { s with in24 := true } }

/-- The second under way has been untraceable so far, which a bin that closes in it takes over (R189). -/
def Bin.untraced (b : Bin) (on : Bool) : Bin := if on then { b with flags := setBit b.flags 2 true } else b

/-- A step of the time counter sets SUSPECT in the current bins and in the record of the second under way, and closes a bin whose boundary it
crosses, with what the second under way has shown until then (R189, R190, R199). -/
def pmStep (m : Mod) (p before after : Nat) : Mod :=
  let x := pmOf m p
  let mark (b : Bin) : Bin := { b with flags := setBit b.flags 1 true }
  let un := x.untraceable || !synced m (harbourOf p)
  let partialTo := if before / nsPerSec < x.partialTo then after / nsPerSec + 1 else 0
  let m1 := setPm m p { x with stepped := true, cur15 := mark x.cur15, cur24 := mark x.cur24, done := after / nsPerSec, partialTo }
  let q (t n off : Nat) : Nat := (t / nsPerSec + (n - off)) / n
  let trace15 (m : Mod) : Mod := setPm m p { pmOf m p with cur15 := (pmOf m p).cur15.untraced un }
  let trace24 (m : Mod) : Mod := setPm m p { pmOf m p with cur24 := (pmOf m p).cur24.untraced un }
  let m2 := if q before 900 0 ≠ q after 900 0 then close15 (trace15 (flush15 m1 p)) p after else m1
  if q before 86400 (inf m 0x3400 2 p) ≠ q after 86400 (inf m 0x3400 2 p) then close24 (trace24 (flush24 m2 p)) p after else m2

/-- The seconds that have ended and of which a port has not been told end now, oldest first, before its Enable changes (R177, R184). -/
def endOverdue (m : Mod) (p : Nat) : Mod :=
  let cur := nowH m (harbourOf p) / nsPerSec
  let last := (pmOf m p).done
  if last = 0 ∨ !isLine p then m else (span last (cur - last)).foldl (fun m n => endSecond m p (n * nsPerSec)) m

/-- A change of PM enable (R178): the second is not wholly classified; with TRUE each end starts available and its run anew, with no event 0x3016
(DESIGN CHOICE, log 50). -/
def pmEnabled (m : Mod) (p : Nat) : Mod :=
  let x := { pmOf m p with pmOff := true }
  setPm m p (if infB m 0x3400 1 p then { x with neUnavail := false, feUnavail := false, neRun := 0, feRun := 0 } else x)

/-- The harbour of a port is not synchronised at this moment: its second and its bins are untraceable (R189). -/
def noteUnsynced (m : Mod) : Mod :=
  (m.pm.map (·.1)).foldl (fun m p => if synced m (harbourOf p) then m else setPm m p { pmOf m p with untraceable := true }) m

end Sys2Proof.Machine
end

