-- ==== Sys2Proof/Machine/Journal.lean ====
section
/-! DEFINITION. Seals of the evidence journal and the journal's start (R891 to R901). -/

namespace Sys2Proof.Machine

/-- The tether's head brought to the journal's newest entry: the vault copy and the head register (R898). -/
def storeHead (m : Mod) : Mod :=
  let t := m.tether
  { m with tether := { t with headNum := m.ev.newest, headChain := m.ev.chain, headValid := true,
                              vault := { t.vault with headNum := m.ev.newest, headChain := m.ev.chain, headValid := true } } }

/-- A seal entry, event 0x9022, and the head stored (R894, R897, R898); the last 8 seals are held (R899). -/
def issueSeal (m : Mod) : Mod :=
  let signing := m.tether.vault.svcState == 2
  let m1 := raise m 0x9022 srcModule 0 m.ev.chain
  let x : Seal := { num := m1.ev.sealsIssued + 1, entry := m1.ev.newest, chain := m1.ev.chain, unsigned := !signing, pending := signing }
  storeHead { m1 with ev := { m1.ev with seals := (x :: m1.ev.seals).take 8, sealsIssued := m1.ev.sealsIssued + 1,
                                         sinceSeal := 0, sealRuntime := m1.tether.runtime } }

/-- A signature is being computed (R896). -/
def signing (m : Mod) : Bool := m.ev.seals.any (·.pending)

/-- The journal writer's seal (R894, R896): after 1,024 entries, or when 60 s of runtime have passed. -/
def sealDue (m : Mod) : Mod :=
  if signing m || !(m.sys.pilot0 || m.sys.pilot1) then m
  else if 1024 ≤ m.ev.sinceSeal then issueSeal m
  else issueSeal (advance m ((m.ev.sealRuntime + 60 - m.tether.runtime) * secCycles))

/-- The message a seal's signature covers (R895). -/
def sealMessage (o : Otp) (m : Mod) (x : Seal) : Octets := o.serial ++ b8 x.entry ++ x.chain ++ b4 m.tether.vault.bootEpoch

/-- The pending seal signed with the service identity by H0's pilot (R895, R929). -/
def signSeal (o : Otp) (m : Mod) : Mod :=
  if m.sys.pilot0 ∧ m.tether.vault.svcState = 2 then
    { m with ev := { m.ev with seals := m.ev.seals.map fun x =>
        if x.pending then { x with pending := false, signature := Config.slhSign m.tether.vault.svcSecret (sealMessage o m x) } else x } }
  else m

/-- Records taken by the running pilots one after another. -/
def takeAll (m : Mod) (rs : List EvRec) : Mod := rs.foldl (fun m r => { m with ev := take m 4 m.ev r }) m

/-- The journal's start (R893, R971): 0x9020 with the previous head's chain value, or 0x9021 when both heads are lost; then
the buffered entries in tether-sequence order; then the events held before the pilots ran. An event that is in the buffer and among those
held is one entry, the replayed one (R891). -/
def startJournal (m : Mod) : Mod :=
  let t := m.tether
  let (num, chain, ok) := if t.vault.headValid then (t.vault.headNum, t.vault.headChain, true)
    else if t.headValid then (t.headNum, t.headChain, true) else (0, zeros 32, false)
  let early := m.ev.early.filter fun r => !t.buffer.any fun e => !e.taken && { e.ev with flags := e.ev.flags % 128 } == r
  let m1 := { m with ev := { m.ev with early := [], newest := num, chain } }
  let m2 := if ok then raise m1 0x9020 srcModule 0 chain else raise m1 0x9021 srcModule 0 []
  let m3 := takeAll m2 ((t.buffer.filter (!·.taken)).map (·.ev))
  let m4 := { m3 with tether := { m3.tether with buffer := (m3.tether.buffer.map fun e => { e with taken := true }).filter (·.unburned) } }
  takeAll m4 early

/-- Events held while the pilots were stopped are journaled when they resume (R944). -/
def resumeJournal (m : Mod) (h0 h1 : Bool) : Mod :=
  let rs := (if h0 then m.ev.held0 else []) ++ (if h1 then m.ev.held1 else [])
  let m1 := { m with ev := { m.ev with held0 := if h0 then [] else m.ev.held0, held1 := if h1 then [] else m.ev.held1 } }
  let m2 := takeAll m1 rs
  { m2 with tether := { m2.tether with buffer := (m2.tether.buffer.map fun e => { e with taken := true }).filter (·.unburned) } }

end Sys2Proof.Machine
end

