-- ==== Sys2Proof/Machine/Firmware.lean ====
section
/-! DEFINITION. Identity, attestation and firmware (R912 to R958). -/

namespace Sys2Proof.Machine

/-! ### Identity -/

/-- An identity record's 14 bytes (R912). -/
def idBytes (r : IdRec) : Octets := fit 8 r.lot ++ b1 r.wafer ++ bytesOfInt 1 r.dieX ++ bytesOfInt 1 r.dieY ++ zeros 1 ++ b2 r.week

/-- The secret seeds of the birth identity, from both PUF keys and the serial (R915). -/
def birthSecret (o : Otp) : Octets := hkdf (Config.pufKey 0 ++ Config.pufKey 1) o.serial (ascii "VOSECEL BIRTH") ++ o.birthPublic.take 16

/-- Tamper flags 0x9000:02 (R906). -/
def tamperFlags (s : State) : Nat :=
  bitAt (alerted s.mod) 0 + bitAt s.mod.sys.tetherLostNow 1 + bitAt (decide (4032 ≤ tamperCount s.otp)) 2 +
  bitAt (decide (4096 ≤ tamperCount s.otp)) 3 + bitAt s.otp.retired 4

/-- 0xF200:01: a service key pair is generated and its request signed by the birth identity (R919, R920). -/
def generateService (s : State) (sourceBFailed : Bool) : State × Nat :=
  let m := s.mod
  let v := m.tether.vault
  if v.svcState ≠ 0 then (s, 0x3003)
  else if s.otp.retired || sourceBFailed || !m.sys.birthOk then (s, 0x4002)
  else
    let (seeds, m1) := draw m (srcB m.mgmt.pilot) 48
    let pub := Config.slhPublic seeds
    let req := b1 3 ++ zeros 1 ++ b2 (tamperCount s.otp) ++ s.otp.serial ++ pub ++ b4 v.bootEpoch ++ b4 m.tether.runtime ++ zeros 8
    let m2 := { m1 with tether := { m1.tether with vault := { v with svcSecret := seeds, svcPublic := pub, svcState := 1 } },
                        fw := { m1.fw with request := req, requestSig := Config.slhSign (birthSecret s.otp) req } }
    (s.upd (raise m2 0xF011 srcModule 0 []), 0)

/-- 0xF200:0A: the certificate verified under the anchor, and the service identity in force (R922, R923). -/
def installCert (s : State) : State × Nat :=
  let m := s.mod
  let v := m.tether.vault
  let body := m.fw.certBody
  if v.svcState ≠ 1 then (s, 0x4002)
  else if s.flash.anchor = zeros 32 then (s, 0x4002)
  else if sub body 4 12 ≠ s.otp.serial ∨ sub body 16 32 ≠ v.svcPublic then (s, 0x2001)
  else if !Config.slhVerify s.flash.anchor body m.fw.certSig then (s, 0x6001)
  else
    let m1 := { m with tether := { m.tether with vault := { v with svcState := 2, svcCert := body } } }
    ({ s with flash := { s.flash with certSignature := m.fw.certSig }, mod := raise m1 0xF012 srcModule 0 (sub body 68 8) }, 0)

/-- 0xF200:0B: the service identity erased (R924). -/
def eraseService (s : State) : State :=
  let m := s.mod
  let v := m.tether.vault
  let m1 := { m with tether := { m.tether with vault := { v with svcState := 0, svcSecret := [], svcPublic := [], svcCert := [] } },
                     fw := { m.fw with request := [], requestSig := [], certBody := zeros 128, certSig := zeros 7856 } }
  { s with flash := { s.flash with certSignature := [] }, mod := raise m1 0xF013 srcModule 0 (b1 0) }

/-- 0xF300:01: the operator anchor set, or cleared with zero bytes (R925). -/
def writeAnchor (s : State) (anchor : Octets) : State × Nat :=
  if anchor = zeros 32 ∧ s.flash.coRequired then (s, 0x3003)
  else ({ s with flash := { s.flash with anchor }, mod := raise s.mod 0xF015 srcModule 0 (b1 (b01 (anchor != zeros 32))) }, 0)

/-- 0xF010:0B: a co-signature is required (R925). -/
def writeCoRequired (s : State) (v : Bool) : State × Nat :=
  if v ∧ s.flash.anchor = zeros 32 then (s, 0x4002) else ({ s with flash := { s.flash with coRequired := v } }, 0)

/-! ### Images -/

/-- The fields of an image header (R932). -/
def hdrVersion (h : Octets) : Nat := natAt h 8 4
def hdrSecurity (h : Octets) : Nat := natAt h 12 4
def hdrPayload (h : Octets) : Nat := natAt h 16 4
def hdrCoSigned (h : Octets) : Bool := bit (natAt h 5 1) 0
def hdrKey (h : Octets) : Nat := natAt h 52 1
def hdrRevoke (h : Octets) : Nat := natAt h 53 1

/-- Causes 2 to 5 of R934 on a header: its fields, product, serial lock, vendor key. -/
def headerCause (o : Otp) (h : Octets) : Nat :=
  if natAt h 0 4 ≠ 0x56534657 ∨ natAt h 4 1 ≠ 1 ∨ 2 ≤ natAt h 5 1 ∨ natAt h 6 2 ≠ 0 ∨ natAt h 54 2 ≠ 0 ∨
     sub h 80 176 ≠ zeros 176 ∨ hdrPayload h = 0 ∨ 33554432 < hdrPayload h ∨ 255 < hdrSecurity h then 2
  else if sub h 56 12 ≠ ascii "VS6404-M" ++ zeros 4 then 3
  else if sub h 68 12 ≠ zeros 12 ∧ sub h 68 12 ≠ o.serial then 4
  else if 4 ≤ hdrKey h ∨ o.revoked.testBit (hdrKey h) ∨ o.vendorKeys.length ≤ hdrKey h then 5
  else 0

/-- The ten checks of R934 on an image of a staged length: the first cause, 0 when all pass. -/
def imageCause (s : State) (img : Octets) (len : Nat) : Nat :=
  let h := img.take 256
  let n := hdrPayload h
  let co := hdrCoSigned h
  if len ≠ 256 + n + 7856 + (if co then 7856 else 0) then 1
  else if headerCause s.otp h ≠ 0 then headerCause s.otp h
  else if !Config.slhVerify (s.otp.vendorKeys.getD (hdrKey h) []) h (sub img (256 + n) 7856) then 6
  else if s.flash.coRequired ∧ !co then 7
  else if co ∧ s.flash.anchor ≠ zeros 32 ∧ !Config.slhVerify s.flash.anchor h (sub img (256 + n + 7856) 7856) then 8
  else if sha256 (sub img 256 n) ≠ sub h 20 32 then 9
  else if hdrSecurity h < s.otp.rollback then 10
  else 0

/-- The status a cause answers with (R934). -/
def causeStatus (c : Nat) : Nat := if c = 0 then 0 else if c = 6 ∨ c = 8 ∨ c = 9 then 0x6001 else 0x2001

/-- A slot passes the boot ROM's check: causes 2 to 6, 9 and 10 (R935). -/
def slotBoots (o : Otp) (x : FwSlot) : Bool :=
  x.state != 0 && headerCause o x.header == 0 && x.signedOk && x.payloadOk && decide (o.rollback ≤ hdrSecurity x.header)

/-- A firmware slot. -/
def slotOfFlash (f : Flash) (i : Nat) : FwSlot := if i = 1 then f.slotB else f.slotA
def setSlot (f : Flash) (i : Nat) (x : FwSlot) : Flash := if i = 1 then { f with slotB := x } else { f with slotA := x }

/-- The state a slot shows: 4 when its valid image is below the rollback counter (R948). -/
def slotState (s : State) (i : Nat) : Nat :=
  let x := slotOfFlash s.flash i
  if x.state = 2 ∧ hdrSecurity x.header < s.otp.rollback then 4 else x.state

/-- The image digest of a slot (R932). -/
def slotDigest (s : State) (i : Nat) : Octets :=
  let x := slotOfFlash s.flash i
  if x.header = [] then zeros 32 else sha256 x.header

/-! ### Staging and installation -/

/-- The staged image: its chunks up to the staged length (R936). -/
def stagedImage (fw : Fw) : Octets :=
  ((List.range (ceilDiv fw.length 8192)).flatMap fun n => fit 8192 (tget [] fw.chunks n)).take fw.length

/-- The harbour whose firmware staging region is used: H0's, or H1's when H0's is not enabled (R936). -/
def stagingRegion (m : Mod) : Option Nat := [0, 1].find? fun h => (regionOfKind m h 4).isSome

/-- 0xF010:02: the staged image verified (R938). -/
def verifyImage (s : State) : State × Nat × List Nat :=
  let m := s.mod
  let img := stagedImage m.fw
  let c := imageCause s img m.fw.length
  let h := img.take 256
  let m1 := { m with fw := { m.fw with staging := if c = 0 then 2 else 3, cause := c } }
  (s.upd (raise m1 0xF001 srcModule 0 (b1 (b01 (c != 0)) ++ b1 c ++ b4 (hdrVersion h) ++ b4 (hdrSecurity h))), causeStatus c, [c])

/-- 0xF010:05: the copy of a verified image into the slot that is not running begins; the slot is erased (R939). -/
def beginInstall (s : State) : State × Nat :=
  let m := s.mod
  if m.fw.staging ≠ 2 then (s, 0x4002)
  else ({ s with flash := setSlot s.flash (1 - m.fw.running) { state := 1 },
                 mod := { m with fw := { m.fw with staging := 4, installing := true, installInvalid := false } } }, 0)

/-- The install ends: the slot checked again from flash under causes 6, 8 and 9 (R939, R940). -/
def endInstall (s : State) : State :=
  let m := s.mod
  if !m.fw.installing then s
  else
    let img := stagedImage m.fw
    let h := img.take 256
    let n := hdrPayload h
    let signedOk := Config.slhVerify (s.otp.vendorKeys.getD (hdrKey h) []) h (sub img (256 + n) 7856)
    let payloadOk := sha256 (sub img 256 n) == sub h 20 32
    let co := hdrCoSigned h && s.flash.anchor != zeros 32
    let coOk := !co || Config.slhVerify s.flash.anchor h (sub img (256 + n + 7856) 7856)
    let ok := !m.fw.installInvalid && signedOk && payloadOk && coOk
    let i := 1 - m.fw.running
    let x : FwSlot := { state := if ok then 2 else 3, header := h, signedOk, payloadOk, coSigned := co && coOk }
    let m1 := { m with fw := { m.fw with installing := false, staging := if m.fw.installInvalid then 6 else if ok then 5 else m.fw.staging } }
    { s with flash := setSlot s.flash i x, mod := raise m1 0xF002 srcModule 0 (b1 i ++ b1 x.state) }

/-- A lost range invalidates the staged image, which must be staged again (R663, R940). -/
def invalidateStaged (m : Mod) (h : Nat) : Mod :=
  if stagingRegion m = some h ∧ m.fw.staging ≠ 0 ∧ m.fw.staging ≠ 6 then
    raise { m with fw := { m.fw with staging := 6, chunks := [], installInvalid := m.fw.installing } } 0xF007 srcModule 0 (b1 h)
  else m

/-! ### Activation -/

/-- A berth is being reset, or its reset is scheduled (R942, R983). -/
def anyResetting (m : Mod) : Bool := m.berths.any fun e => e.2.resetting || e.2.due.isSome

/-- 0xF010:06: activation begins (R942, R943): the boot slot recorded, event 0xF003, a seal, every session closed. -/
def beginActivation (s : State) (i : Nat) : State × Nat :=
  let m := s.mod
  if slotState s i ≠ 2 then (s, 0x3003)
  else if m.fw.installing || anyResetting m then (s, 0x3002)
  else
    let m1 := raise { m with fw := { m.fw with activating := some (i, 1) } } 0xF003 srcModule 0
      (b1 i ++ b4 (hdrVersion (slotOfFlash s.flash i).header))
    ({ s with flash := { s.flash with boot := i }, mod := endSessions (issueSeal m1) 5 fun _ => true }, 0)

/-- Both pilots stop, once the seal is signed (R943). The held events start empty. -/
def stopPilots (m : Mod) : Mod :=
  match m.fw.activating with
  | some (i, 1) =>
    { m with sys := { m.sys with pilot0 := false, pilot1 := false },
             ev := { m.ev with notHeld := 0, seals := m.ev.seals },
             fw := { m.fw with activating := some (i, 2), stoppedAt := m.sys.elapsed } }
  | _ => m

/-- Boot of a slot by the boot ROM: the boot slot when it passes, else the other one (R935). -/
def bootSlot (s : State) : Option Nat :=
  let b := s.flash.boot
  if slotBoots s.otp (slotOfFlash s.flash b) then some b
  else if slotBoots s.otp (slotOfFlash s.flash (1 - b)) then some (1 - b) else none

/-- The pilots report running on a slot (R943 to R945): event 0xF004, the held events journaled. -/
def pilotsRun (s : State) (i : Nat) (fell : Option (Nat × Nat)) : State :=
  let m := s.mod
  let v := hdrVersion (slotOfFlash s.flash i).header
  let m1 := { m with sys := { m.sys with pilot0 := true, pilot1 := true },
                     fw := { m.fw with activating := none, running := i, version := v } }
  let m2 := match fell with
    | some (bad, cause) => raise m1 0xF005 srcModule 0 (b1 bad ++ b1 i ++ b1 cause)
    | none => m1
  let m3 := raise (resumeJournal m2 true true) 0xF004 srcModule 0 (b1 i ++ b4 v ++ b4 m2.ev.notHeld)
  s.upd { m3 with ev := { m3.ev with notHeld := 0 } }

/-- The pilots run after an activation (R935, R943). -/
def firmwareRuns (s : State) : State :=
  match s.mod.fw.activating with
  | some (i, 2) =>
    match bootSlot s with
    | some j =>
      if j = i then pilotsRun s i none
      else pilotsRun { s with flash := { s.flash with boot := j } } j (some (i, 0))
    | none => s
  | _ => s

/-- The pilots have not reported running within 4 s (R947): the other slot is booted, the slot that failed is invalid. -/
def firmwareTimeout (s : State) : State :=
  match s.mod.fw.activating with
  | some (i, 2) =>
    let m := advanceTo s.mod (s.mod.fw.stoppedAt + 4 * secCycles)
    let f := setSlot s.flash i { slotOfFlash s.flash i with state := 3 }
    pilotsRun { s with flash := { f with boot := 1 - i }, mod := m } (1 - i) (some (i, 1))
  | _ => s

/-- 0xF010:07: the rollback counter and revocation bits burned (R949). -/
def confirmImage (s : State) : State :=
  let h := (slotOfFlash s.flash s.mod.fw.running).header
  let counter := max s.otp.rollback (min 255 (hdrSecurity h))
  let kill := (List.range 4).foldl (fun a k => if (hdrRevoke h).testBit k && k != hdrKey h then setBit a k true else a) s.otp.revoked
  if counter = s.otp.rollback ∧ kill = s.otp.revoked then s
  else { s with otp := { s.otp with rollback := counter, revoked := kill },
                mod := raise s.mod 0xF006 srcModule 0 (b4 s.otp.rollback ++ b4 counter ++ b1 kill) }

/-! ### Attestation -/

/-- The attestation report of a session (R928). -/
def reportBytes (s : State) (slot : Nat) (digest : Octets) : Octets :=
  let m := s.mod
  let x := sess m slot
  let inForce := m.tether.vault.svcState == 2
  b1 2 ++ b1 (bitAt s.otp.retired 0 + bitAt (decide (4096 ≤ tamperCount s.otp)) 1 + bitAt (decide (4032 ≤ tamperCount s.otp)) 2 +
    bitAt m.sys.tetherLostNow 3 + bitAt (alerted m) 4 + bitAt inForce 5 + bitAt (synced m 0) 6) ++
  b2 (tamperCount s.otp) ++ s.otp.serial ++ b2 s.otp.week ++ zeros 2 ++ idBytes s.otp.rec0 ++ idBytes s.otp.rec1 ++
  b4 m.tether.vault.bootEpoch ++ b4 m.tether.runtime ++ timeBytes (now m) ++ zeros 2 ++ b4 x.id ++ fit 32 x.hostNonce ++
  slotDigest s 0 ++ slotDigest s 1 ++ b1 m.fw.running ++ zeros 3 ++ b4 m.fw.version ++ b4 s.otp.rollback ++ digest ++
  (if inForce then fit 32 m.tether.vault.svcPublic else zeros 32) ++ b4 (m.mgmt.reports + 1) ++ zeros 8

/-- A read of 0xF100:02 makes a new report, signed with the birth identity by H1's pilot (R916, R926, R929, R931). -/
def newReport (s : State) (slot : Nat) (digest : Octets) : State × Nat :=
  let m := s.mod
  if !m.sys.birthOk then (s, 0x4002)
  else if !m.sys.pilot1 then (s, 0x3002)
  else
    let r := reportBytes s slot digest
    let m1 := setSess m slot { sess m slot with report := r, reportSig := Config.slhSign (birthSecret s.otp) r }
    let m2 := { m1 with mgmt := { m1.mgmt with reports := m1.mgmt.reports + 1 } }
    (s.upd (raise m2 0xF014 srcModule 0 (b4 (sess m slot).id ++ b4 (m.mgmt.reports + 1))), 0)

end Sys2Proof.Machine
end

