-- ==== Sys2Proof/Machine/Stowage.lean ====
section
/-! DEFINITION. Stowage: the CXL port, the counter tree and its restarts, regions, masters and the guard, lost lines and
integrity (R620 to R670). -/

namespace Sys2Proof.Machine

/-! ### Layout -/

/-- Data lines in a span of a number of GiB (R627). -/
def spanLines (gib : Nat) : Nat := gib * 2 ^ 24

/-- Lines of level k of the tree over a span (R630). -/
def levelLines (gib : Nat) : Nat → Nat
  | 0 => spanLines gib
  | 1 => ceilDiv (spanLines gib) 32
  | k + 1 => ceilDiv (levelLines gib k) 8

/-- The depth of the tree: 6 for a span of up to 64 GiB, else 7, as R630 and the range of 0x8000:06 state it; 0 with no span set (log 55). -/
def treeDepth (gib : Nat) : Nat := if gib = 0 then 0 else if gib ≤ 64 then 6 else 7

/-- Bytes the three areas take (R627). -/
def layoutBytes (gib : Nat) : Nat :=
  gib * 2 ^ 30 + gib * 2 ^ 27 + 64 * ((List.range (treeDepth gib)).foldl (fun s k => s + levelLines gib (k + 1)) 0)

/-- The largest span that fits a capacity in MiB (R628). -/
def largestSpan (mib : Nat) : Nat := (((List.range 513).filter fun s => decide (layoutBytes s ≤ mib * 1048576)).getLast?).getD 0

/-! ### The counter tree -/

/-- Where a counter is held: level 1 are the majors by group; level k above guards the lines of level k − 1 (R632). -/
def ckey (level i : Nat) : Nat := level * 2 ^ 34 + i

/-- The value of a counter; on-die counters are level d + 1. A counter of a line that is not fetched takes its guard's value, and one
never written within a restart the restart's (R638). The number bounds the levels. -/
def counterAt (x : Stow) (d : Nat) : Nat → Nat → Nat → Nat
  | 0, _, _ => 0
  | n + 1, level, i =>
    if d < level then tget 0 x.counters (ckey level i)
    else
      let guard := counterAt x d n (level + 1) (if level = 1 then i else i / 8)
      if guard % 2 ^ 48 = 0 then guard else (tfind x.counters (ckey level i)).getD (guard / 2 ^ 48 * 2 ^ 48)

/-- A counter set, and every counter that guards the lines this writes raised by 1, up to the die (R636). The number bounds the
levels. -/
def setCounter (d : Nat) : Nat → Stow → Nat → Nat → Nat → Stow
  | 0, x, _, _, _ => x
  | n + 1, x, level, i, v =>
    let up := if level = 1 then i else i / 8
    let g := counterAt x d (n + 1) (level + 1) up
    let y := { x with counters := tins (ckey level i) v (tdel x.counters (ckey level i)) }
    if d < level then y else setCounter d n y (level + 1) up (g + 1)

/-- A data line written: its minor rises, or at 127 the group's major does and the group is rewritten, its lost lines with poison (R634, R635). -/
def writeLine (x : Stow) (d n : Nat) (data : Octets) (lost : Nat → Bool) : Stow :=
  let g := n / 32
  let minor := tget 0 x.minors n
  let major := counterAt x d 9 1 g
  let y := if minor = 127 then
      let z := { x with minors := tset 0 (x.minors.filter fun e => e.1 / 32 != g) n 1,
                        poisoned := (x.poisoned.filter (· / 32 != g)) ++ (span (32 * g) 32).filter fun i => i != n && lost i }
      setCounter d 9 z 1 g (major + 1)
    else setCounter d 9 { x with minors := tset 0 x.minors n (minor + 1), poisoned := x.poisoned.filter (· != n) } 1 g major
  { y with lines := tins n (fit 64 data) (tdel y.lines n) }

/-! ### What the device holds -/

/-- The enabled region a line lies in. -/
def regionOf (m : Mod) (h line : Nat) : Option Nat :=
  firstBelow 16 fun r => regionOn m h r && decide (regionBase m h r ≤ line ∧ line < regionBase m h r + regionSize m h r)

/-- The 56-bit major counter and the 7-bit minor counter of a data line. -/
def majorOf (x : Stow) (d n : Nat) : Nat := counterAt x d 9 1 (n / 32)
def minorOf (x : Stow) (n : Nat) : Nat := tget 0 x.minors n

/-- The IV of a line in the tree's numbering (R631, R633): 33 bits of line number, 56 of a counter and 7 more. -/
def lineIv (n counter low : Nat) : Octets := bytesOf 12 ((n % 2 ^ 33 * 2 ^ 56 + counter % 2 ^ 56) * 128 + low)

/-- The tag that the engine keeps of GCM's: its first 64 bits. -/
def shortTag (key iv aad cipher : Octets) : Octets := (gcmTag (keySchedule key) iv aad cipher).take 8

/-- A data line as it is encrypted, and its tag (R631). -/
def cipherOf (x : Stow) (d n : Nat) : Octets :=
  ctrOf (keySchedule x.key) (lineIv n (majorOf x d n) (minorOf x n)) (fit 64 ((tfind x.lines n).getD []))
def tagOf (x : Stow) (d n : Nat) : Octets := shortTag x.key (lineIv n (majorOf x d n) (minorOf x n)) [] (cipherOf x d n)

/-- The DPA line number of line j of level k of the tree (R627). -/
def nodeLine (gib k j : Nat) : Nat := (gib * 2 ^ 30 + gib * 2 ^ 27) / 64 + (List.range (k - 1)).foldl (fun s i => s + levelLines gib (i + 1)) 0 + j

/-- Bytes 0 to 55 of a counter line (R632): a group's major and 32 minors, or eight counters. -/
def nodeBytes (x : Stow) (d k j : Nat) : Octets :=
  if k = 1 then
    bytesOf 7 (counterAt x d 9 1 j) ++ bytesOf 28 ((List.range 32).foldl (fun a i => a + minorOf x (32 * j + i) * 2 ^ (7 * i)) 0) ++ zeros 21
  else (List.range 8).flatMap fun i => bytesOf 7 (counterAt x d 9 k (8 * j + i))

/-- The counter that guards line j of level k. -/
def guardOf (x : Stow) (d k j : Nat) : Nat := counterAt x d 9 (k + 1) j

/-- A counter line as the device holds it: authenticated by its node tag, not encrypted (R632, R633). -/
def nodeOnDevice (x : Stow) (gib d k j : Nat) : Octets :=
  let b := nodeBytes x d k j
  b ++ shortTag x.key (lineIv (nodeLine gib k j) (guardOf x d k j) 127) b []

/-- Bytes with some bits flipped. -/
def flipped (b : Octets) (flips : Nat) : Octets := xorBytes b (bytesOf b.length flips)

/-- The level and number of the counter line at a DPA line (R627). -/
def nodeAt (gib line : Nat) : Option (Nat × Nat) :=
  ((span 1 (treeDepth gib)).find? fun k => decide (nodeLine gib k 0 ≤ line ∧ line < nodeLine gib (k + 1) 0)).map fun k => (k, line - nodeLine gib k 0)

/-- A data line's tag stands in the line's Extended Metadata, not in the tag area (R644). -/
def privileged (m : Mod) (h n : Nat) : Bool := (regionOf m h n).any fun r => inf m 0x8010 2 (h * 16 + r) == 1

/-- The depth in force of a harbour's tree. -/
def depthOf (m : Mod) (h : Nat) : Nat := treeDepth (inf m 0x8000 2 h)

/-- Place n of the tag area, the 8 bytes at DPA S + 8n: the tag of data line n, of a privileged one zero (R627, R644). -/
def tagArea (m : Mod) (h n : Nat) : Octets := if privileged m h n then zeros 8 else tagOf (stow m h) (depthOf m h) n

/-- The Extended Metadata of data line n: the tag of a privileged one (R644). -/
def metadataOf (m : Mod) (h n : Nat) : Octets := if privileged m h n then tagOf (stow m h) (depthOf m h) n else []

/-- The device's line at a DPA line number, as the engine writes it: a data line, 8 tags, or a counter line (R627). -/
def deviceLine (m : Mod) (h a : Nat) : Octets :=
  let gib := inf m 0x8000 2 h
  if a < spanLines gib then cipherOf (stow m h) (depthOf m h) a
  else if a < spanLines gib + spanLines gib / 8 then (span ((a - spanLines gib) * 8) 8).flatMap (tagArea m h)
  else match nodeAt gib a with
    | some (k, j) => nodeOnDevice (stow m h) gib (depthOf m h) k j
    | none => zeros 64

/-- What the engine fetches to read data line n: the line and its tag, from its own place (R627, R644). -/
def fetched (m : Mod) (h n : Nat) : Octets :=
  deviceLine m h n ++ if privileged m h n then metadataOf m h n else tagArea m h n

/-- What a data line opens to when the device answers it with bits flipped (R631): none where its tag fails. A line that comes as it was
written opens to what was written. -/
def openLine (m : Mod) (h n flips : Nat) : Option Octets :=
  let x := stow m h
  if flips = 0 then some (fit 64 ((tfind x.lines n).getD []))
  else
    let iv := lineIv n (majorOf x (depthOf m h) n) (minorOf x n)
    let b := flipped (fetched m h n) flips
    if b.drop 64 = shortTag x.key iv [] (b.take 64) then some (ctrOf (keySchedule x.key) iv (b.take 64)) else none

/-- Whether a counter line that the device answers with bits flipped passes its node tag (R633). -/
def nodePasses (x : Stow) (gib d k j flips : Nat) : Bool :=
  flips == 0 ||
  (let b := flipped (nodeOnDevice x gib d k j) flips
   b.drop 56 == shortTag x.key (lineIv (nodeLine gib k j) (guardOf x d k j) 127) (b.take 56) [])

/-- The counters that guard the largest whole subtrees of a range of level-k lines. The number bounds the levels. -/
def guardsOf (d : Nat) : Nat → Nat → Nat → Nat → List (Nat × Nat)
  | 0, _, _, _ => []
  | n + 1, k, a, b =>
    let a8 := ceilDiv a 8
    let b8 := b / 8
    let here (lo hi : Nat) : List (Nat × Nat) := (span lo (hi - lo)).map fun i => (k + 1, i)
    if d ≤ k ∨ b8 ≤ a8 then here a b else here a (8 * a8) ++ here (8 * b8) b ++ guardsOf d n (k + 1) a8 b8

/-- Counters set without a write of the lines that hold them. -/
def putCounter (x : Stow) (level i v : Nat) : Stow := { x with counters := tins (ckey level i) v (tdel x.counters (ckey level i)) }

/-- Each counter line that holds a changed counter written once, level by level, with the counter that guards it raised by 1 (R636, R639); `set` are the
counters set at any level, `raised` those raised at this one. The number bounds the levels. -/
def writeChanged (d : Nat) : Nat → Stow → Nat → List (Nat × Nat) → List Nat → Stow
  | 0, x, _, _, _ => x
  | n + 1, x, level, set, raised =>
    if d < level then x
    else
      let lines := ((raised ++ (set.filter (·.1 == level)).map (·.2)).map (· / 8)).eraseDups
      writeChanged d n (lines.foldl (fun y j => putCounter y (level + 1) j (counterAt y d 9 (level + 1) j + 1)) x) (level + 1) set lines

/-- Groups a to b − 1 lose all that their lines and counter lines hold. -/
def clearGroups (x : Stow) (a b : Nat) : Stow :=
  let gone (key : Nat) : Bool :=
    let level := key / 2 ^ 34
    let i := key % 2 ^ 34
    if level = 1 then decide (a ≤ i ∧ i < b) else decide (a ≤ i * 8 ^ (level - 2) ∧ (i + 1) * 8 ^ (level - 2) ≤ b)
  let inside (n : Nat) : Bool := decide (a * 32 ≤ n ∧ n < b * 32)
  { x with lines := x.lines.filter fun e => !inside e.1, minors := x.minors.filter fun e => !inside e.1,
           counters := x.counters.filter fun e => !gone e.1, poisoned := x.poisoned.filter fun n => !inside n }

/-- Some ranges of groups read as never written from now on, under restart number r (R639): their guards are set, then each counter line that this
changes is written. -/
def clearSpans (x : Stow) (d r : Nat) (ranges : List (Nat × Nat)) : Stow :=
  let guards := (ranges.flatMap fun e => guardsOf d 9 1 e.1 e.2).eraseDups
  let y := guards.foldl (fun y g => putCounter y g.1 g.2 (r * 2 ^ 48)) (ranges.foldl (fun y e => clearGroups y e.1 e.2) x)
  writeChanged d 9 y 2 guards []

/-! ### Losses and records -/

/-- A lost-range record kept: behind the others, over the oldest released one, or not at all (R670). -/
def keepRecord (x : Stow) (e : LostRec) : Stow :=
  if x.recs.length < 64 then { x with recs := x.recs ++ [e] }
  else
    let old := (x.recs.filter (·.released)).foldl (fun (a : Option LostRec) y => match a with
      | some z => if y.time < z.time then some y else a
      | none => some y) none
    match old with
    | some z => { x with recs := x.recs.map fun y => if y = z then e else y }
    | none => { x with overflow := true, unrecorded := x.unrecorded ++ [e] }

/-- The losses that `f` picks are over; their records are marked released. -/
def releaseRecs (x : Stow) (f : LostRec → Bool) : Stow :=
  { x with recs := x.recs.map fun e => if f e then { e with released := true } else e, unrecorded := x.unrecorded.filter fun e => !f e }

/-- A loss without lines a to b − 1 of its region: what is left of it before and behind them. -/
def cutLoss (a b : Nat) (e : LostRec) : List LostRec :=
  let before := min a (e.first + e.count) - e.first
  let from_ := max b e.first
  let after := e.first + e.count - from_
  (if before = 0 then [] else [{ e with count := before }]) ++ if after = 0 then [] else [{ e with first := from_, count := after }]

/-- Lines a to b − 1 of a harbour are lost no more: each loss that holds some of them is kept without them, and a record of which nothing is left is
released. -/
def endLosses (m : Mod) (h a b : Nat) (f : LostRec → Bool) : Mod :=
  ((losses (stow m h)).filter fun e => f e && decide (regionBase m h e.region + e.first < b ∧ a < regionBase m h e.region + e.first + e.count)).foldl (fun m e =>
    let x := stow m h
    let base := regionBase m h e.region
    let parts := cutLoss (a - base) (b - base) e
    if x.recs.contains e then
      let y := { x with recs := x.recs.map fun z => if z = e then (parts.head?.getD { e with released := true }) else z }
      setStow m h ((parts.drop 1).foldl keepRecord y)
    else setStow m h { x with unrecorded := x.unrecorded.flatMap fun z => if z = e then parts else [z] }) m

/-! ### What the module keeps in regions -/

/-- The archive region that a harbour's 0xB000:08 or 09 names, where it is enabled and of kind 5 (R839). -/
def archiveRegion (m : Mod) (h : Nat) : Option Nat :=
  let r := inf m 0xB000 (8 + h) 0
  if r < 16 ∧ regionOn m h r ∧ regionKind m h r = 5 then some r else none

/-- Words that a basin's half of an archive takes, and the line of word w (R839). -/
def archiveHalf (m : Mod) (h r : Nat) : Nat := inf m 0x8010 4 (h * 16 + r) * 1048576 / 2 / 8
def archiveLine (m : Mod) (basin r w : Nat) : Nat :=
  regionBase m (basin / 2) r + (basin % 2 * archiveHalf m (basin / 2) r * 8 + 8 * w) / 64

/-- The archived words in lines a to b − 1 read as zero, as the lines do. -/
def clearArchive (m : Mod) (h a b : Nat) : Mod :=
  match archiveRegion m h with
  | none => m
  | some r =>
    let wipe (t : Tbl (List Nat)) (basin : Nat) : Tbl (List Nat) :=
      let kept := tget 0 m.snap.archived basin
      tset [] t basin ((tget [] t basin).mapIdx fun w v => if w < kept ∧ a ≤ archiveLine m basin r w ∧ archiveLine m basin r w < b then 0 else v)
    { m with snap := { m.snap with words := [2 * h, 2 * h + 1].foldl wipe m.snap.words } }

/-- What the module's own masters have put into lines a to b − 1 of a harbour is gone with a restart: PM history records, archived snapshot words, a
staged image (R639, R668). -/
def clearContents (m : Mod) (h a b : Nat) : Mod :=
  let m1 := clearArchive (loseHistory m h a (b - a)) h a b
  let staged := (List.range 16).any fun r => regionKind m h r == 4 && regionOn m h r && decide (regionBase m h r < b ∧ a < regionBase m h r + regionSize m h r)
  if staged then invalidateStaged m1 h else m1

/-- A restart of some ranges of groups, in one restart number (R639, R640); `op` is the operation that needs it: 0 enabling a region,
1 releasing lost lines, 2 the return of a link. Its lines read as never written, so that they are lost no more, but for those of a region that stays
quiesced (R667). -/
def restartSpans (m : Mod) (h op : Nat) (ranges : List (Nat × Nat)) : Mod × Bool :=
  let x := stow m h
  if x.restarts = 255 then (raise m 0x8006 (srcH h) 0 (b1 h ++ b1 op), false)
  else
    let m1 := setStow m h (clearSpans { x with restarts := x.restarts + 1 } (depthOf m h) (x.restarts + 1) ranges)
    let open_ (e : LostRec) : Bool := !(x.quiesced.contains e.region && regionOn m h e.region)
    (ranges.foldl (fun m e => clearContents (endLosses m h (32 * e.1) (32 * e.2) open_) h (32 * e.1) (32 * e.2)) m1, true)

/-! ### Regions -/

/-- The groups of a region. -/
def regionGroups (m : Mod) (h r : Nat) : Nat × Nat := (regionBase m h r / 32, (regionBase m h r + regionSize m h r) / 32)

/-! ### Lost lines -/

/-- The lines that some ranges (first line, lines) of rising first line cover. -/
def covered (l : List (Nat × Nat)) : Nat :=
  (l.foldl (fun (a : Nat × Nat) e => (a.1 + (max a.2 (e.1 + e.2) - max a.2 e.1), max a.2 (e.1 + e.2))) (0, 0)).1

/-- Lines lost now of a region (R673), each counted once. -/
def lostNow (m : Mod) (h r : Nat) : Nat :=
  covered ((((losses (stow m h)).filter (·.region == r)).map fun e => (e.first, e.count)).insertionSort fun a b => a.1 ≤ b.1)

/-- A region's Enable comes into force as TRUE: its span is restarted and reads as zero throughout, so no line of it is lost any more (R648). -/
def regionEnabled (m : Mod) (h r : Nat) : Mod :=
  let (m1, ok) := restartSpans m h 0 [regionGroups m h r]
  if ok then setStow m1 h (releaseRecs (stow m1 h) (·.region == r)) else m1

/-- A lost range holds a byte of a parked frame (R665). -/
def holdsFrames (m : Mod) (h r first count : Nat) : Bool :=
  let n := parkedFrames m (inf m 0x8010 5 (h * 16 + r))
  n != 0 && (regionSize m h r ≤ count || Config.holdsParked h (regionBase m h r + first) count m.sys.elapsed)

/-- A part of a region: region, first line from its base, lines. -/
abbrev LossPart := Nat × Nat × Nat

/-- What a lost range means for the region it lies in, but for the release of a park range: a park region that holds a parked frame there is quiesced,
history records are lost, and a staged image is invalidated (R192, R663, R665). -/
def afterLoss (s : State) (h : Nat) (x : LossPart) (cause : Nat) : State :=
  let m := s.mod
  match regionKind m h x.1 with
  | 1 =>
    if holdsFrames m h x.1 x.2.1 x.2.2 then
      sourceEvent s 13 (h * 16 + x.1) 0x8002 (srcH h) 0 3 fun _ => b1 h ++ b1 x.1 ++ b8 x.2.1 ++ b8 x.2.2 ++ b1 cause ++ b1 0
    else s
  | 3 => s.upd (loseHistory m h (regionBase m h x.1 + x.2.1) x.2.2)
  | 4 => s.upd (invalidateStaged m h)
  | _ => s

/-- Lines lost in a region (R660, R662): recorded, evented as 0x8002 unless the loss is an integrity violation, and what follows. A
park region that is quiesced for it raises its 0x8002 as the event of source 13. -/
def losePart (h cause : Nat) (evented : Bool) (s : State) (x : LossPart) : State :=
  let m := s.mod
  let kind := regionKind m h x.1
  let lo := regionBase m h x.1 + x.2.1
  let kept := (stow m h).lines.filter fun e => !decide (lo ≤ e.1 ∧ e.1 < lo + x.2.2)
  let m1 := setStow m h (keepRecord { stow m h with lines := kept } { region := x.1, first := x.2.1, count := x.2.2, cause, time := nowH m h })
  let bySource := kind = 1 ∧ holdsFrames m1 h x.1 x.2.1 x.2.2
  let m2 := if evented ∧ !bySource then
      raise m1 0x8002 (srcH h) 0 (b1 h ++ b1 x.1 ++ b8 x.2.1 ++ b8 x.2.2 ++ b1 cause ++ b1 (b01 (kind == 2 || kind == 4)))
    else m1
  afterLoss (s.upd m2) h x cause

/-- The ranges of a detection in park regions that hold no parked frame are released automatically, with one restart (R666); a port whose link is down
restarts nothing. -/
def releaseFree (m : Mod) (h : Nat) (parts : List LossPart) : Mod :=
  let free := parts.filter fun x => regionKind m h x.1 == 1 && !(stow m h).quiesced.contains x.1
  if free = [] ∨ (stow m h).st ≠ 2 then m
  else
    let span_ (x : LossPart) : Nat × Nat := ((regionBase m h x.1 + x.2.1) / 32, ceilDiv (regionBase m h x.1 + x.2.1 + x.2.2) 32)
    (restartSpans m h 1 (free.map span_)).1

/-- The lines that one detection finds lost. -/
def loseLines (s : State) (h : Nat) (parts : List LossPart) (cause : Nat) (evented : Bool) : State :=
  let s1 := parts.foldl (losePart h cause evented) s
  s1.upd (releaseFree s1.mod h parts)

/-- An integrity violation of a region: 0x8000:0A and event 0x8003 as source 10 (R660, R661); kind 0 data line, 1 counter line, 2 partial
write. -/
def violation (s : State) (h r line kind : Nat) : State :=
  let m := bump s.mod 0x8000 0x0A h 1
  sourceEvent (s.upd m) 10 (h * 16 + r) 0x8003 (srcH h) 0 (responseOf m 10) fun _ => b1 h ++ b1 r ++ b8 line ++ b1 kind

/-- The parts of the enabled regions beneath a counter line. -/
def beneath (m : Mod) (h level line : Nat) : List LossPart :=
  let w := 32 * 8 ^ (level - 1)
  let a := line / w * w
  (List.range 16).filterMap fun r =>
    let lo := max a (regionBase m h r)
    let hi := min (a + w) (regionBase m h r + regionSize m h r)
    if regionOn m h r && decide (lo < hi) then some (r, lo - regionBase m h r, hi - lo) else none

/-! ### Accesses -/

/-- The line of level k over a data line has been fetched at some time: its guard is not a bare restart (R638). -/
def nodeFetched (m : Mod) (h level line : Nat) : Bool :=
  counterAt (stow m h) (depthOf m h) 9 (level + 1) (line / (32 * 8 ^ (level - 1))) % 2 ^ 48 != 0

/-- What a fetch on the way to a line finds wrong with a counter line (R660): none when the fetch passes. -/
def counterLoss (s : State) (h line : Nat) (dev : DeviceResult) : Option State :=
  let m := s.mod
  match dev with
  | .poisonCounter k =>
    if 1 ≤ k ∧ k ≤ depthOf m h ∧ nodeFetched m h k line then
      let parts := beneath m h k line
      some (loseLines (s.upd (bump m 0x8000 9 h (parts.foldl (fun n x => n + x.2.2) 0))) h parts 2 true)
    else none
  | .counter k flips =>
    if 1 ≤ k ∧ k ≤ depthOf m h ∧ nodeFetched m h k line ∧
        !nodePasses (stow m h) (inf m 0x8000 2 h) (depthOf m h) k (line / (32 * 8 ^ (k - 1))) flips then
      let parts := beneath m h k line
      some (parts.foldl (fun s x => violation s h x.1 x.2.1 1) (loseLines s h parts 3 false))
    else none
  | _ => none

/-- A line never written in this span (R637): its major's bits [47:0] and its minor are zero. -/
def neverWritten (x : Stow) (d n : Nat) : Bool := majorOf x d n % 2 ^ 48 == 0 && minorOf x n == 0

/-- Bytes written into a line at an offset. -/
def mergedInto (line : Octets) (at_ : Nat) (data : Octets) : Octets := fit 64 (line.take at_ ++ data.take (64 - at_) ++ line.drop (at_ + data.length))

/-- A line written, with what its device reported corrected counted; the write is carried out. -/
def carriedOut (s : State) (h line : Nat) (corrected : Bool) (data : Octets) : State × Option Octets :=
  let m := if corrected then bump s.mod 0x8000 8 h 1 else s.mod
  (s.upd (setStow m h (writeLine (stow m h) (depthOf m h) line data fun n => (lostAt m h n).isSome)), some [])

/-- Data line `line` of region r is lost by cause 1: a memory loss (R660). -/
def loseOne (s : State) (h r line : Nat) : State :=
  loseLines (s.upd (bump s.mod 0x8000 9 h 1)) h [(r, line - regionBase s.mod h r, 1)] 1 true

/-- A read of a line of region r that is open to the master: the line, or an error where it is lost or the device's answer makes it so. -/
def readLine (s : State) (h r line : Nat) (dev : DeviceResult) : State × Option Octets :=
  let m := s.mod
  let x := stow m h
  let held := some (fit 64 ((tfind x.lines line).getD []))
  if (lostAt m h line).isSome then (s, none)
  else if neverWritten x (depthOf m h) line then (s, held)
  else match dev with
    | .data corrected flips =>
      match openLine m h line flips, corrected with
      | some c, true => (s.upd (bump m 0x8000 8 h 1), some c)
      | some c, false => (s, some c)
      | none, true => (loseOne s h r line, none)
      | none, false =>
        let off := line - regionBase m h r
        (violation (loseLines s h [(r, off, 1)] 3 false) h r off 0, none)
    | .poisonData => (loseOne s h r line, none)
    | _ => (s, held)

/-- The read for a merge fails its tag: the write is refused, the line written back with poison, and the region's integrity violated (R660). -/
def mergeFails (s : State) (h r line : Nat) : State :=
  let m := s.mod
  let off := line - regionBase m h r
  let x := stow m h
  let s1 := s.upd (setStow m h { x with poisoned := x.poisoned.filter (· != line) ++ [line] })
  violation (loseLines s1 h [(r, off, 1)] 4 false) h r off 2

/-- A write of part of a line of region r: the line is read, checked, merged and written whole, or the write is refused (R624, R660). On a line
that is lost already the read for the merge finds what it would on another; nothing but a full write ends the loss (R664). -/
def mergeLine (s : State) (h r line at_ : Nat) (data : Octets) (dev : DeviceResult) : State × Option Octets :=
  let m := s.mod
  let x := stow m h
  let held := fit 64 ((tfind x.lines line).getD [])
  let lost := (lostAt m h line).isSome
  if neverWritten x (depthOf m h) line then
    if lost then (s, none) else carriedOut s h line false (mergedInto held at_ data)
  else match dev with
    | .data corrected flips =>
      match openLine m h line flips, corrected with
      | some c, _ => if lost then (s, none) else carriedOut s h line corrected (mergedInto c at_ data)
      | none, true => (loseOne s h r line, none)
      | none, false => (mergeFails s h r line, none)
    | .poisonData => (loseLines s h [(r, line - regionBase m h r, 1)] 1 true, none)
    | _ => if lost then (s, none) else carriedOut s h line false (mergedInto held at_ data)

/-- A write of whole lines from one on may go on: it ends their losses, but for one of cause 2 or 5, which refuses it (R664). -/
def fullWrite (m : Mod) (h line n : Nat) : Option Mod :=
  if (losses (stow m h)).any fun e => (e.cause == 2 || e.cause == 5) &&
      decide (regionBase m h e.region + e.first < line + n ∧ line < regionBase m h e.region + e.first + e.count) then none
  else some (endLosses m h line (line + n) fun _ => true)

/-- An access to a line of region r that is open to the master: its fetches on the way, then the read or write itself. A write of a whole line
ends its loss, but for one of cause 2 or 5, which refuses it (R664). -/
def serveAccess (s : State) (h r line : Nat) (kind : AccessKind) (dev : DeviceResult) : State × Option Octets :=
  match counterLoss s h line dev with
  | some s1 => (s1, none)
  | none =>
    match kind with
    | .read => readLine s h r line dev
    | .partialWrite at_ data => mergeLine s h r line at_ data dev
    | .write data =>
      match fullWrite s.mod h line 1 with
      | some m => carriedOut (s.upd m) h line false data
      | none => (s, none)

/-- The engine's check of an access to a line (R652, R653, R667): the region, or none where it is refused. -/
def allowed (m : Mod) (h master line need : Nat) : Option Nat := (regionOf m h line).filter fun r => !denied m h r master need

/-- What an access comes to in a port that is ready, and its answer: none is an error (R652 to R654, R660, R664, R667). -/
def accessed (s : State) (h master line : Nat) (kind : AccessKind) (dev : DeviceResult) : State × Option Octets :=
  let m := s.mod
  match allowed m h master line (if kind = .read then 1 else 3) with
  | some r => serveAccess s h r line kind dev
  | none => (s.upd (refuseAccess m h master (regionOf m h line) 1), none)

/-- STOWAGE_ACCESS (R624, R637, R652 to R654): the master is answered the line, nothing for a write, or an error; a port that is not ready,
or whose key a zeroize has erased (R874), answers an error, to a quiesced region a counted one (R667), and the debug access port reaches nothing while
it is closed. -/
def stowageAccess (s : State) (h master line : Nat) (kind : AccessKind) (dev : DeviceResult) : State :=
  if !s.mod.sys.running || (master == 5 && s.mod.mgmt.debugBy.isEmpty) then s
  else
    let m := s.mod
    let (t, a) := if (stow m h).st = 2 ∧ (stow m h).key ≠ [] then accessed s h master line kind dev
      else if (regionOf m h line).any (stow m h).quiesced.contains then (s.upd (refuseAccess m h master (regionOf m h line) 1), none)
      else (s, none)
    t.upd (emit t.mod (.stowageAnswer h master a))

/-- 0xF020:01: a chunk staged by the pilot, in the 128 lines of its place (R936, R937). An access that the engine refuses (R652, R667), or lines lost by
cause 2 or 5 (R664), refuse it with 0x4002, as a port that is not ready does (DESIGN CHOICE, log 55). -/
def writeChunk (m : Mod) (n : Nat) (chunk : Octets) : Mod × Nat :=
  match stagingRegion m with
  | none => (m, 0x4002)
  | some h =>
    let r := (regionOfKind m h 4).getD 0
    if m.fw.installing then (m, 0x3002)
    else if (stow m h).st ≠ 2 then (m, 0x4002)
    else if denied m h r 0 3 then (refuseAccess m h 0 (some r) 1, 0x4002)
    else match fullWrite m h (regionBase m h r + 128 * n) 128 with
      | some m1 => ({ m1 with fw := { m1.fw with chunks := tset [] m1.fw.chunks n chunk, staging := 1 } }, 0)
      | none => (m, 0x4002)

/-! ### The port -/

/-- A change of port state, event 0x8001. Causes: 0 link, 1 lanes or rate, 2 not a Type 3 device, 3 capacity, 4 entropy source B. -/
def portState (m : Mod) (h st cause : Nat) : Mod :=
  raise (setStow m h { stow m h with st }) 0x8001 (srcH h) 0 (b1 h ++ b1 st ++ b1 cause)

/-- CXL_LINK_READY: the port trains and enumerates, and reaches ready with its HDM decoder over the whole volatile capacity and a key from source B, or
fails (R620 to R625). -/
def linkReady (m : Mod) (h lanes rate capacity metaBits : Nat) (type3 : Bool) : Mod :=
  let x := stow m h
  if !m.sys.running || 2 ≤ x.st then m
  else
    let m1 := setStow m h { x with capacity, metaBits }
    if lanes < 8 ∨ rate < 64 then portState m h 3 1
    else if !type3 then portState m h 3 2
    else if capacity < 16384 ∨ 524288 < capacity then portState m1 h 3 3
    else if (entropyOf m h).failB then portState m1 h 3 4
    else
      let (k, m2) := draw m1 (srcB h) 32
      portState (setStow m2 h { stow m2 h with key := k, hdm := capacity }) h 2 0

/-- CXL_LINK_DOWN: every line of the enabled regions is lost (R660). -/
def linkDown (s : State) (h : Nat) : State :=
  if (stow s.mod h).st ≠ 2 then s
  else
    let s1 := s.upd (portState s.mod h 4 0)
    loseLines s1 h (((List.range 16).filter (regionOn s1.mod h)).map fun r => (r, 0, regionSize s1.mod h r)) 5 true

/-- CXL_LINK_RETURN: the whole span is restarted and the port is ready again; regions that are not quiesced reopen empty (R669). With no restart
number left the return does not take place (R640). -/
def linkReturn (m : Mod) (h : Nat) : Mod :=
  if (stow m h).st ≠ 4 then m
  else
    let (m1, ok) := restartSpans m h 2 [(0, levelLines (inf m 0x8000 2 h) 1)]
    if ok then
      let m2 := portState m1 h 2 0
      setStow m2 h (releaseRecs (stow m2 h) fun e => !(stow m2 h).quiesced.contains e.region)
    else m1

/-- A region reopens: the sources that had quiesced it no longer reach it (R668, R873). -/
def reopen (m : Mod) (h r : Nat) : Mod :=
  let u := h * 16 + r
  let m1 := setStow m h { stow m h with quiesced := (stow m h).quiesced.filter (· != r) }
  [10, 13].foldl (fun m i =>
    let x := source m i
    let us := x.units.filter (· != u)
    setSource m i { x with units := us, inForce := if us = [] then 0 else x.inForce }) m1

/-- 0x8010:0A: a region's loss or quiesce released (R668); the limit of a refusal is 255. -/
def releaseRegion (m : Mod) (u : Nat) : Mod × Nat × List Nat :=
  let h := u / 16
  let r := u % 16
  let x := stow m h
  if x.quiesced.contains r then
    let (m1, ok) := restartSpans m h 1 [regionGroups m h r]
    if ok then
      let m2 := reopen (setStow m1 h (releaseRecs (stow m1 h) fun e => e.region == r)) h r
      (raise m2 0x8005 (srcH h) 0 (b1 h ++ b1 r ++ b1 0 ++ b8 0), 0, [])
    else (m1, 0x3001, [255])
  else
    let pick (e : LostRec) : Bool := !e.released && e.region == r && (e.cause == 2 || e.cause == 5)
    let lost := (losses x).filter pick
    let base := regionBase m h r
    let (m1, ok) := if lost = [] then (m, true) else restartSpans m h 1 (lost.map fun e => ((base + e.first) / 32, ceilDiv (base + e.first + e.count) 32))
    if ok then (raise (setStow m1 h (releaseRecs (stow m1 h) pick)) 0x8005 (srcH h) 0 (b1 h ++ b1 r ++ b1 0 ++ b8 0), 0, [])
    else (m1, 0x3001, [255])

end Sys2Proof.Machine
end

