-- ==== Sys2Proof/Machine/Snapshot.lean ====
section
/-! DEFINITION. Snapshots: what a scope copies, the capture, the word stream, its drain, archive and acknowledgement (R826 to R843). -/

namespace Sys2Proof.Machine

/-! ### Members -/

/-- The subindices a snapshot copies of an object (R826). -/
def snapSubs (idx : Nat) : List Nat :=
  match idx with
  | 0x2000 => [7, 8, 9, 0x0B]
  | 0x2020 => [0x0B, 0x0C]
  | 0x2030 => [1, 2, 4, 5]
  | 0x3000 => [6, 7, 8]
  | 0x3100 => [0x0A, 0x0B, 0x0D, 0x0E, 0x0F]
  | 0x3200 => span 7 14 ++ [0x16]
  | 0x3300 => [6]
  | 0x4020 => span 1 16
  | 0x4030 => [2, 3, 4]
  | 0x4200 => [7, 8, 9, 0x0A, 0x0C]
  | 0x4210 => [8, 9]
  | 0x5000 => [9, 0x0A]
  | 0x5040 => span 1 12
  | 0x5130 => [2, 3]
  | 0x5200 => [5, 6]
  | 0x6010 => span 1 12
  | 0x6020 => span 1 6
  | 0x8000 => span 8 4
  | _ => []

/-- Queues of a basin that are enabled or draining, and associations in use. -/
def snapQueues (m : Mod) (basin : Nat) (f : Nat → Bool) : List (Nat × Nat) :=
  let qs := (elems m [] 0x6000 1 ++ m.queues.map (·.1)).eraseDups.filter fun q => qBasin q == basin && qLive m [] q && f q
  qs.map (0x6010, ·) ++ qs.map (0x6020, ·)
def snapAssocs (m : Mod) (basin : Nat) (f : Nat → Bool) : List (Nat × Nat) :=
  ((elems m [] 0x4000 1).filter fun a => aBasin a == basin && aType m a != 0 && f a).map (0x4020, ·)

/-- The direct-table elements of a basin (R438). -/
def directElems (basin : Nat) : List Nat := ((List.range 65536).filter fun e => decide (e % 8192 ≤ 4096)).map (basin * 65536 + ·)

/-- Objects and elements a port gives (R826, scope 1). -/
def snapPort (m : Mod) (p : Nat) : List (Nat × Nat) :=
  (portLanes m p).map (0x3000, ·) ++ [(0x3100, p)] ++
  (if isLine p then [(0x3200, p), (0x3300, p), (0x4030, p)] ++ snapAssocs m (basinOf p) (aPort m · == p) else [(0x5040, p), (0x2030, p)]) ++
  snapQueues m (basinOf p) fun q => qPort m [] q == p

/-- Objects and elements a basin's part holds under a scope (R826). -/
def snapItems (m : Mod) (scope value basin : Nat) : List (Nat × Nat) :=
  match scope with
  | 1 => if basinOf value = basin then snapPort m value else []
  | 2 => snapQueues m basin (qBerth m [] · == value) ++ snapAssocs m basin (aBerth m · == value) ++
    ((directElems basin).filter fun e => inf m 0x5000 2 e == value).map (0x5000, ·)
  | _ =>
    if scope = 3 ∧ basin / 2 ≠ value then []
    else
      (((List.range 16).map (basin * 16 + ·)).filter fun p => !absorbed m p).flatMap (snapPort m) ++
      snapAssocs m basin (fun _ => true) ++ snapQueues m basin (fun _ => true) ++
      ((directElems basin).filter fun e => inf m 0x5000 1 e != 0 || inf m 0x5000 8 e != 0xFFFF).map (0x5000, ·) ++
      [(0x4200, basin * 2), (0x4200, basin * 2 + 1), (0x4210, basin), (0x5200, basin)] ++ (span (basin * 8) 8).map (0x5130, ·) ++
      (if basin % 2 = 0 then [(0x8000, basin / 2)] else []) ++
      (if scope = 4 ∧ basin = 0 then [(0x2000, 0), (0x2020, 0), (0x2020, 1)] else [])

/-- The basins and harbours a scope reaches. -/
def snapBasins (scope value : Nat) : List Nat := if scope = 1 then [basinOf value] else if scope = 3 then [value * 2, value * 2 + 1] else [0, 1, 2, 3]
def snapHarbours (scope value : Nat) : List Nat := ((snapBasins scope value).map (· / 2)).eraseDups

/-! ### The stream -/

/-- Runs of consecutive numbers: first and count. -/
def runsOf : List Nat → List (Nat × Nat)
  | [] => []
  | a :: r =>
    match runsOf r with
    | (b, n) :: more => if b = a + 1 then (a, n + 1) :: more else (a, 1) :: (b, n) :: more
    | [] => [(a, 1)]

/-- A counter as a snapshot copies it: as it reads, so a line port in frame mode gives 0 for the counters of Gelix (R149). -/
def counterRead (m : Mod) (idx s e : Nat) : Nat := if (idx = 0x3200 ∨ idx = 0x3300) ∧ !isGelix m e then 0 else if idx = 0x8000 ∧ s = 0x0B then refusedCount m e else inf m idx s e

/-- A section: two header words and its values, and whether one is saturated (R835). -/
def sectionOf (m : Mod) (idx first count : Nat) : List Nat × Bool :=
  let vals := (span first count).flatMap fun e => (snapSubs idx).map fun s => counterRead m idx s e
  let top (s : Nat) : Nat := match objRow idx s with
    | some o => 2 ^ (8 * o.ty.size) - 1
    | none => 2 ^ 64 - 1
  let sat := (span first count).any fun e => (snapSubs idx).any fun s => counterRead m idx s e == top s
  ([natOf (b2 idx ++ b2 (b01 sat) ++ b4 (mask (snapSubs idx))), natOf (b4 first ++ b4 count)] ++ vals, sat)

/-- The sections of a basin's part, by object and element. -/
def sectionsOf (m : Mod) (scope value basin : Nat) : List (List Nat × Bool) :=
  let items := snapItems m scope value basin
  (((items.map (·.1)).eraseDups).mergeSort (· ≤ ·)).flatMap fun i =>
    let es := (((items.filter (·.1 == i)).map (·.2)).eraseDups).mergeSort (· ≤ ·)
    (runsOf es).map fun r => sectionOf m i r.1 r.2

/-- The flags of a part: SAT, TRACEABLE, STEPPED, NOT_ALIGNED (R831, R834, R835). -/
def partFlags (m : Mod) (h : Nat) (sat stepped : Bool) : Nat :=
  bitAt sat 0 + bitAt (synced m h) 1 + bitAt stepped 2 + bitAt (h == 1 && !m.time.lock1) 3

/-- The words of a part (R834, R835). -/
def partWords (m : Mod) (x : Snap) (basin flags : Nat) (secs : List (List Nat × Bool)) : List Nat :=
  let body := secs.flatMap (·.1)
  let t := timeBytes (nowH m (basin / 2))
  [natOf (b4 x.seq ++ b1 basin ++ b1 x.scope ++ b2 flags), natOf (t.take 8), natOf (t.drop 8 ++ zeros 2 ++ b4 x.value),
   natOf (b4 (body.length + 4) ++ b4 secs.length)] ++ body

/-! ### Drain and archive -/

/-- The archive of a basin: its region and how many words its half takes; none where it names no enabled region of kind 5, or the port is not ready
(R839). -/
def archiveOf (m : Mod) (basin : Nat) : Option (Nat × Nat) :=
  let h := basin / 2
  (archiveRegion m h).filter (fun _ => (stow m h).st == 2) |>.map fun r => (r, archiveHalf m h r)

/-- The engine refuses the exporter the archive of a basin (R652, R667). -/
def archiveRefused (m : Mod) (basin : Nat) : Bool := (archiveOf m basin).any fun a => denied m (basin / 2) a.1 4 3

/-- A basin's drain brought up to now: one word in two D-clock cycles, pausing while its holding SRAM is full (R837, R839, R841). A word whose copy into
the archive the engine refuses stays in the holding SRAM, one refused access a word (R652; log 55). -/
def drainBasin (m : Mod) (basin : Nat) : Mod :=
  let x := m.snap
  let total := (tget [] x.words basin).length
  if total = 0 then m
  else
    let from_ := tget 0 x.drained basin
    let k := (m.sys.elapsed - from_) / 2
    let old := tget 0 x.written basin
    let arch := if archiveRefused m basin then none else archiveOf m basin
    let cap := (arch.map (·.2)).getD 0
    let was := tget 0 x.oldest basin
    let w := min total (min (old + k) (max was cap + 131072))
    let archived := if arch.isSome then max (tget 0 x.archived basin) (min cap w) else tget 0 x.archived basin
    let full := arch.isSome && decide (cap < total) && decide (old < cap ∨ old = 0) && decide (cap ≤ w)
    let mark (ws : List Nat) : List Nat := match ws with
      | a :: r => (if full then setBit a 4 true else a) :: r
      | [] => []
    let y := { x with written := tset 0 x.written basin w, drained := tset 0 x.drained basin (from_ + 2 * k),
                      archived := tset 0 x.archived basin archived, oldest := tset 0 x.oldest basin (max was archived),
                      words := if full then tset [] x.words basin (mark (tget [] x.words basin)) else x.words,
                      flags := if full then setBit x.flags 4 true else x.flags }
    let tried := if archiveRefused m basin then min w (((archiveOf m basin).map (·.2)).getD 0) - old else 0
    let m1 := refuseAccess { m with snap := y } (basin / 2) 4 ((archiveOf m basin).map (·.1)) tried
    if full then raise m1 0xB005 (srcH (basin / 2)) 0 (b4 x.seq ++ b1 basin ++ b1 ((arch.map (·.1)).getD 0)) else m1

/-- Words of a basin that are held: written, not freed and not archived. -/
def heldWords (x : Snap) (basin : Nat) : Nat := tget 0 x.written basin - tget 0 x.oldest basin

/-- Every part has been written. -/
def allWritten (x : Snap) : Bool := x.words.all fun e => tget 0 x.written e.1 == e.2.length

/-- With nothing held any more a snapshot is idle. -/
def settleSnap (m : Mod) : Mod :=
  if m.snap.st = 3 ∧ m.snap.words.all fun e => heldWords m.snap e.1 == 0 then { m with snap := { m.snap with st := 0 } } else m

/-- All parts brought up to now. -/
def drainAll (m : Mod) : Mod := settleSnap ([0, 1, 2, 3].foldl drainBasin m)

/-- The engine refuses the pilot a read of a basin's archive region (R652, R667). -/
def pilotShut (m : Mod) (basin r : Nat) : Bool := denied m (basin / 2) r 0 1

/-- A held or archived word of a basin; none when it is not held, or lies in a lost stowage range (R838, R840, R842). -/
def snapWord (m : Mod) (basin w : Nat) : Option Nat :=
  let x := (drainAll m).snap
  if w < tget 0 x.archived basin then
    match archiveOf m basin with
    | some (r, _) => if pilotShut m basin r || (lostAt m (basin / 2) (archiveLine m basin r w)).isSome then none else (tget [] x.words basin)[w]?
    | none => none
  else if tget 0 x.oldest basin ≤ w ∧ w < tget 0 x.written basin then (tget [] x.words basin)[w]?
  else none

/-! ### Commands -/

/-- A harbour loads its shadows on this edge, its lane counters brought up to now: event 0xB002 (R830, R831, R836, R843). -/
def captureNow (m0 : Mod) (h : Nat) (stepped : Bool) : Mod :=
  let m := ((List.range 64).filter fun l => l % 32 / 16 == h).foldl countNow m0
  let x := m.snap
  let first := x.captured = []
  let x1 := if first then { x with seq := satAdd 32 x.seq 1, flags := 0, words := [], written := [], oldest := [], archived := [], drained := [] } else x
  let basins := (snapBasins x.scope x.value).filter (· / 2 == h)
  let x2 := basins.foldl (fun y b =>
    let secs := sectionsOf m x.scope x.value b
    let f := partFlags m h (secs.any (·.2)) stepped
    { y with words := tset [] y.words b (partWords m y b f secs), flags := y.flags ||| f, drained := tset 0 y.drained b m.sys.elapsed }) x1
  let m1 := setNat { m with snap := { x2 with st := 2, captured := x.captured ++ [h] } } 0xB000 4 0 0
  raise m1 0xB002 (srcH h) 0 (b4 x2.seq ++ b1 h ++ timeBytes (nowH m h) ++ b1 x2.flags)

/-- SNAPSHOT_CAPTURE: time runs to the capture time on the harbour's counter (R830). -/
def snapCapture (m : Mod) (h : Nat) : Mod :=
  let x := m.snap
  if (x.st = 1 ∨ x.st = 2) ∧ (snapHarbours x.scope x.value).contains h ∧ !x.captured.contains h then captureNow (advanceToNet m h x.time) h false
  else m

/-- A step takes the captures whose time it passed over (R562, R832). -/
def snapStep (m : Mod) (h before : Nat) : Mod :=
  let x := m.snap
  if (x.st = 1 ∨ x.st = 2) ∧ (snapHarbours x.scope x.value).contains h ∧ !x.captured.contains h ∧ before < x.time ∧ x.time ≤ nowH m h then captureNow m h true
  else m

/-- SNAPSHOT_COMPLETE: every part has drained: event 0xB003 (R843). -/
def snapComplete (m : Mod) : Mod :=
  let x := m.snap
  if x.st ≠ 2 ∨ !(snapHarbours x.scope x.value).all x.captured.contains then m
  else
    let end_ := x.words.foldl (fun a e => max a (tget 0 x.drained e.1 + 2 * (e.2.length - tget 0 x.written e.1))) 0
    let m1 := [0, 1, 2, 3].foldl drainBasin (advanceTo m end_)
    if allWritten m1.snap then
      settleSnap (raise { m1 with snap := { m1.snap with st := 3 } } 0xB003 srcModule 0
        (b4 x.seq ++ b4 (m1.snap.words.foldl (fun s e => s + e.2.length) 0)))
    else m1

/-- 0xB020:04: held words up to one freed (R838). -/
def snapAck (m0 : Mod) (basin w : Nat) : Mod × Nat :=
  let m := drainAll m0
  let x := m.snap
  if tget 0 x.oldest basin ≤ w ∧ w < tget 0 x.written basin then (settleSnap { m with snap := { x with oldest := tset 0 x.oldest basin (w + 1) } }, 0)
  else (m, 0x2001)

/-- The capture time of a request committed now (R828): none when it lies outside its range. -/
def captureTime (m : Mod) (t : Nat) : Option Nat :=
  let n := now m
  if t = 0 then some (ceilDiv (n + 4000) 1000 * 1000)
  else if n + 4000 ≤ t ∧ t ≤ n + 86400 * nsPerSec then some t else none

/-- A request comes into force: 1 schedules, 2 cancels with event 0xB004 (R829). -/
def snapRequest (m : Mod) (req : Nat) : Mod :=
  let x := m.snap
  if req = 1 then
    match captureTime m (inf m 0xB000 3 0) with
    | some t => { m with snap := { x with st := 1, time := t, scope := inf m 0xB000 1 0, value := inf m 0xB000 2 0, captured := [] } }
    | none => m
  else
    let m1 := setNat m 0xB000 4 0 0
    if x.st = 1 then raise { m1 with snap := { x with st := if x.words.any fun e => heldWords x e.1 != 0 then 3 else 0, captured := [] } } 0xB004 srcModule 0 (timeBytes x.time)
    else m1

end Sys2Proof.Machine
end

