-- ==== Sys2Proof/Machine/Time.lean ====
section
/-! DEFINITION. Network time: changes of the counter, steps and what they act on, sources and the servo, lockstep, PTP, Gelix time
transfer, PPS, triggers and captures (R551 to R610). -/

namespace Sys2Proof.Machine

/-! ### Records and triggers -/

/-- The counter of a harbour; what it will hold on the first T-clock edge at or after a network time in ns (R601). -/
def counterOf (m : Mod) (h : Nat) : Ctr := if h = 1 then m.time.c1 else m.time.c0
def edgeAt (m : Mod) (h t : Nat) : Nat := ((counterOf m h).run ((counterOf m h).edgesTo (t * 2 ^ 32))).val

/-- A capture record (R607): a counter value as a time with its fraction, edge, traceable, STEPPED. -/
def record12 (m : Mod) (h v : Nat) (rising stepped : Bool) : Octets :=
  timeBytes (v / 2 ^ 32) ++ b1 (v % 2 ^ 32 / 2 ^ 24) ++ b1 (bitAt rising 0 + bitAt (synced m h) 1 + bitAt stepped 2)

/-- The harbour that drives a trigger or watches a capture input; element 8 is H0's (R600, R606). -/
def pinHarbour (i : Nat) : Nat := if 4 ≤ i ∧ i < 8 then 1 else 0

def trig (m : Mod) (i : Nat) : Trig := tget {} m.time.trigs i
def setTrig (m : Mod) (i : Nat) (x : Trig) : Mod := { m with time := { m.time with trigs := tset {} m.time.trigs i x } }
def capture (m : Mod) (i : Nat) : Capture := tget {} m.time.caps i
def setCapture (m : Mod) (i : Nat) (x : Capture) : Mod := { m with time := { m.time with caps := tset {} m.time.caps i x } }

/-- Start, period and width of a trigger; PPS_OUT is fixed at whole seconds (R605). -/
def trigStart (m : Mod) (i : Nat) : Nat := if i = 8 then 0 else inf m 0x7040 2 i
def trigPeriod (m : Mod) (i : Nat) : Nat := if i = 8 then nsPerSec else inf m 0x7040 3 i

/-- Whether pulses are low: the polarity of the pulse in progress, else the one in force (R601, R603). PPS_OUT's is fixed (R605). -/
def pinLow (m : Mod) (i : Nat) : Bool := if (trig m i).active then (trig m i).low else i != 8 && infB m 0x7040 5 i

/-- The level at a trigger's pin (R601). -/
def pinLevel (m : Mod) (i : Nat) (active : Bool) : Bool := active != pinLow m i

/-- What drives a trigger's pin or PPS_OUT (R1015): nothing but a weak pull-down before step 3 of start-up and on the cell; from step 3 a level,
low until a trigger has been committed, whose pin stands at the inactive level of its polarity between pulses. -/
def trigPin (m : Mod) (i : Nat) : Option Bool := if m.sys.cxlClock then some ((trig m i).active != (trig m i).low) else none

/-- A pulse scheduled at a time starts now: counted and recorded with the counter's value on its edge (R601, R602). -/
def firePulse (m : Mod) (i at_ edge : Nat) : Mod :=
  let x := trig m i
  let m1 := setTrig m i { x with active := true, stop := at_ + inf m 0x7040 4 i, since := at_ + 1, fired := true, stepped := false, low := pinLow m i }
  emit (setObj (bump m1 0x7040 6 i 1) 0x7040 7 i (.oct (record12 m (pinHarbour i) edge true x.stepped))) (.trigger i (pinLevel m i true))

/-- The next pulse of a periodic trigger: the first start + k × period at or after a time, for every integer k (R601). -/
def nextPulse (start period since : Nat) : Nat :=
  if period = 0 then start else since + ((((start : Int) - since) % period).toNat)

/-- TRIGGER_EDGE: time runs to the trigger's next scheduled edge, which is driven (R600 to R605). -/
def triggerEdge (m : Mod) (i : Nat) : Mod :=
  let h := pinHarbour i
  let x := trig m i
  if !m.sys.running then m
  else if x.active then
    let m1 := advanceToNet m h x.stop
    emit (setTrig m1 i { x with active := false }) (.trigger i (pinLevel m i false))
  else match inf m 0x7040 1 i with
    | 1 =>
      let t := trigStart m i
      if x.fired ∨ t < x.since then m else firePulse (advanceToNet m h t) i t (edgeAt m h t)
    | 2 =>
      let t := nextPulse (trigStart m i) (trigPeriod m i) x.since
      let m1 := advanceToNet m h t
      if i = 8 ∧ infB m 0x7040 8 8 ∧ !synced m1 0 then setTrig m1 i { x with since := t + 1 } else firePulse m1 i t (edgeAt m h t)
    | _ => m

/-- Trigger settings committed (R601, R603): pulses are produced from the COMMIT edge on, or after the pulse in progress; an idle pin takes the
inactive level of its polarity. -/
def commitTrigger (m : Mod) (i : Nat) : Mod :=
  let x := trig m i
  let m1 := setTrig m i { x with since := if x.active then x.stop + 1 else nowH m (pinHarbour i), fired := false, low := pinLow m i }
  if pinLow m i = x.low then m1 else emit m1 (.trigger i (pinLow m i))

/-! ### Captures -/

/-- CAPTURE_EDGE: a selected edge stamped and stored, or lost (R606 to R610). -/
def captureEdge (m : Mod) (i : Nat) (rising : Bool) : Mod :=
  let h := pinHarbour i
  let sel := if i = 8 then 1 else inf m 0x7050 1 i
  let x := capture m i
  let tell (m : Mod) : Mod := raise m 0x7006 (srcH h) 0 (b1 i ++ b4 (capture m i).recs.length ++ b4 (inf m 0x7050 4 i))
  if !m.sys.running || !sel.testBit (if rising then 0 else 1) then m
  else
    let near : Bool := match x.lastAt with
      | some t => decide ((m.sys.elapsed - t) * 4 < 250)
      | none => false
    if x.recs.length = 64 ∨ near then tell (bump m 0x7050 4 i 1)
    else
      let m1 := setCapture m i { recs := x.recs ++ [record12 m h (counterOf m h).val rising x.stepped], lastAt := some m.sys.elapsed, stepped := false }
      if x.recs = [] then tell m1 else m1

/-- A read of 0x7050:03: the oldest record, removed; none waits (R608). -/
def takeCapture (m : Mod) (i : Nat) : Option (Octets × Mod) :=
  match (capture m i).recs with
  | [] => none
  | r :: rest => some (r, setCapture m i { capture m i with recs := rest })

/-! ### Steps -/

/-- SWITCH_SCHEDULED_TIME: time runs to the scheduled time (R293, R296). -/
def switchTime (m : Mod) (a : Nat) : Mod :=
  if m.sys.running ∧ (assoc m a).sw = 1 then scheduledSwitch (advanceToNet m (aHarbour a) (inf m 0x4040 2 a)) a else m

/-- What a forward step passes over (R562), by scheduled time: 0 switches, 1 one-shot triggers, 2 the snapshot. -/
def passedOver (m : Mod) (h before after : Nat) : List (Nat × Nat × Nat) :=
  let overs (t : Nat) : Bool := decide (before < t ∧ t ≤ after)
  let sw := (m.assocs.filter fun e => e.2.sw == 1 && aHarbour e.1 == h && overs (inf m 0x4040 2 e.1)).map fun e => (inf m 0x4040 2 e.1, 0, e.1)
  let tr := ((List.range 8).filter fun i => pinHarbour i == h && inf m 0x7040 1 i == 1 && !(trig m i).fired && decide ((trig m i).since ≤ trigStart m i) && overs (trigStart m i)).map
    fun i => (trigStart m i, 1, i)
  let sn := if overs m.snap.time then [(m.snap.time, 2, 0)] else []
  (sw ++ tr ++ sn).mergeSort fun a b => decide (a.1 ≤ b.1)

/-- A step at a trigger: the pulse in progress is completed in elapsed time, and the stepped schedule follows it (R562, R604). -/
def Trig.step (x : Trig) (before after : Nat) : Trig :=
  if x.active then { x with stepped := true, stop := x.stop + after - before, since := x.stop + after - before + 1 } else { x with stepped := true, since := after }

/-- What a step of a harbour's counter acts on: gates, PM bins, scheduled work, periodic triggers, captures (R562, R604, R607). -/
def stepEffects (m0 : Mod) (h before : Nat) : Mod :=
  let after := nowH m0 h
  let ports := (List.range 32).map (h * 32 + ·)
  let m1 := ports.foldl (fun m p => gateStep m p before after) m0
  let m2 := (ports.filter (isGelix m1 ·)).foldl (fun m p => pmStep m p before after) m1
  let m3 := ((List.range 9).filter (pinHarbour · == h)).foldl (fun m i =>
    let m' := setCapture m i { capture m i with stepped := true }
    setTrig m' i ((trig m' i).step before after)) m2
  (passedOver m0 h before after).foldl (fun m x =>
    match x.2.1 with
    | 0 => scheduledSwitch (setAssoc m x.2.2 { assoc m x.2.2 with stepped := true }) x.2.2
    | 1 => raise (firePulse m x.2.2 after (counterOf m h).val) 0x7007 (srcH h) 0 (b1 x.2.2 ++ timeBytes x.1 ++ timeBytes after)
    | _ => snapStep m h before) m3

/-- A step of the counters of the harbours that take it, by an amount in units of 2^-32 ns, discarding the slew: event 0x7002, with
cause 0 write, 1 servo (R558, R561, R562). -/
def stepBy (m : Mod) (x : Int) (cause : Nat) : Mod :=
  let t := m.time
  let before0 := nowH m 0
  let before1 := nowH m 1
  let move (c : Ctr) : Ctr := { c with val := ((c.val : Int) + x).toNat, slew := 0, resid := 0 }
  let m1 := { m with time := { t with c0 := move t.c0, c1 := if t.linkUp then move t.c1 else t.c1, lastStep := before0, steps := satAdd 32 t.steps 1 } }
  let m2 := raise m1 0x7002 (srcH 0) 0 (bytesOfInt 8 (x / 4294967296) ++ timeBytes before0 ++ b1 cause)
  let m3 := stepEffects m2 0 before0
  if t.linkUp then stepEffects m3 1 before1 else m3

/-! ### Accepted changes -/

/-- The largest time a TIME80 holds, in units of 2^-32 ns (R9). -/
def maxTime : Nat := 2 ^ 48 * nsPerSec * 2 ^ 32

/-- What an accepted change does to a counter on its edge (R558, R559, R561). -/
def Ctr.change (c : Ctr) : TimeChange → Ctr
  | .increment v => { c with inc := v }
  | .slew x => { c with slew := x * 4294967296, resid := 0 }
  | .step x => { c with val := ((c.val : Int) + x * 4294967296).toNat, slew := 0, resid := 0 }
  | .set t => { c with val := t * 2 ^ 32, slew := 0, resid := 0 }

/-- The counter's value on the edge of a change accepted now, had it not been made (R558): the changes accepted before it take effect on their
edges. -/
def edgeValue (m : Mod) : Nat :=
  let here := 2 * m.sys.elapsed
  let (c, e) := m.time.changes.foldl (fun a x => ((a.1.run (x.1 - a.2)).change x.2, max a.2 x.1)) (m.time.c0, here)
  (c.run (here + 2500 - e)).val

/-- A change is accepted: it waits for its edge, 2,500 T-clock edges from now (R558); the answer is the edge's time in ns. -/
def acceptChange (m : Mod) (c : TimeChange) : Mod × Nat :=
  ({ m with time := { m.time with changes := m.time.changes ++ [(2 * m.sys.elapsed + 2500, c)] } }, edgeValue m / 2 ^ 32)

/-- The host may steer the counter: source 0 or 4 in force (R557). -/
def hostSteers (m : Mod) : Bool := m.time.src == 0 || m.time.src == 4

/-- Writes of 0x7000:02 to :05 (R553, R557, R559, R561): the status, and the time of the edge. -/
def writeIncrement (m : Mod) (v : Nat) : Mod × Nat × Nat :=
  if v < 1717815119 ∨ 1718158717 < v then (m, 0x2001, 0)
  else if !hostSteers m then (m, 0x4002, 0)
  else ((acceptChange m (.increment v)).1, 0, (acceptChange m (.increment v)).2)
def writeSlew (m : Mod) (x : Int) : Mod × Nat × Nat :=
  if 1000000 < x.natAbs then (m, 0x2001, 0)
  else if !hostSteers m then (m, 0x4002, 0)
  else ((acceptChange m (.slew x)).1, 0, (acceptChange m (.slew x)).2)
def writeStep (m : Mod) (x : Int) : Mod × Nat × Nat :=
  let end_ : Int := (edgeValue m : Int) + x * 4294967296
  if x = 0 ∨ 2 ^ 62 ≤ x.natAbs then (m, 0x2001, 0)
  else if !hostSteers m then (m, 0x4002, 0)
  else if end_ < 0 ∨ (maxTime : Int) ≤ end_ then (m, 0x2001, 0)
  else ((acceptChange m (.step x)).1, 0, (acceptChange m (.step x)).2)
def writeTime (m : Mod) (t : Time80) : Mod × Nat × Nat :=
  if nsPerSec ≤ t.ns ∨ 2 ^ 48 ≤ t.sec then (m, 0x2001, 0)
  else if !hostSteers m then (m, 0x4002, 0)
  else ((acceptChange m (.set (t.sec * nsPerSec + t.ns))).1, 0, (acceptChange m (.set (t.sec * nsPerSec + t.ns))).2)

/-- A change takes effect in both harbours; H1 takes it while the die-to-die link is up (R558, R572, R574). -/
def applyChange (m : Mod) (c : TimeChange) : Mod :=
  let t := m.time
  let both : Mod := { m with time := { t with c0 := t.c0.change c, c1 := if t.linkUp then t.c1.change c else t.c1 } }
  match c with
  | .increment _ => both
  | .slew _ => both
  | .step x => stepBy m (x * 4294967296) 0
  | .set v => stepBy m ((v * 2 ^ 32 : Nat) - (t.c0.val : Int)) 0

/-- TIME_CHANGE_EDGE: time runs to the edge of the oldest accepted change, which takes effect (R558). -/
def changeEdge (m : Mod) : Mod :=
  match m.time.changes with
  | [] => m
  | (e, c) :: rest =>
    let m1 := advanceTo m (ceilDiv e 2)
    applyChange { m1 with time := { m1.time with changes := rest } } c

/-- SLEW_COMPLETE: time runs until nothing of the slew remains (R559). -/
def slewComplete (m : Mod) : Mod :=
  let c := m.time.c0
  if c.slew = 0 ∨ c.inc = 0 ∨ !m.sys.running then m else advance m (ceilDiv (ceilDiv (c.slew.natAbs * 10000 - c.resid) c.inc) 2)

/-! ### Synchronisation -/

/-- The state changes: event 0x7001 for both harbours (R565); a port of a harbour that is no longer synchronised notes it (R189). -/
def setSync (m : Mod) (st : Nat) : Mod :=
  if m.time.state = st then m
  else
    let m1 := { m with time := { m.time with state := st, good := 0, bad := 0 } }
    noteUnsynced (raise (raise m1 0x7001 (srcH 0) 0 (b1 0 ++ b1 st ++ b1 m.time.src)) 0x7001 (srcH 1) 0 (b1 1 ++ b1 st ++ b1 m.time.src))

/-- The mean increment of the last 60 s spent locked (R566). -/
def meanLocked (t : TimeSt) : Nat :=
  let n := t.locked.foldl (fun s x => s + x.1) 0
  if n = 0 then t.c0.inc else t.locked.foldl (fun s x => s + x.1 * x.2) 0 / n

/-- Locked passes to holdover: the mean increment, and no slew (R565, R566). -/
def enterHoldover (m : Mod) : Mod :=
  if m.time.state ≠ 1 then m
  else
    let v := meanLocked m.time
    let hold (c : Ctr) : Ctr := { c with inc := v, slew := 0, resid := 0 }
    let t := m.time
    setSync { m with time := { t with c0 := hold t.c0, c1 := if t.linkUp then hold t.c1 else t.c1, holdAt := m.sys.elapsed } } 2

/-- Locked passes to holdover while the pilot restarts: the counter keeps its increment (R570). -/
def holdAsIs (m : Mod) : Mod := if m.time.state ≠ 1 then m else setSync { m with time := { m.time with holdAt := m.sys.elapsed } } 2

/-- One update of the servo, with the local counter's lead in 0.1 ns (R565, R569): beyond 1 ms a step, else a slew and a trimmed
increment. H0's pilot runs it. -/
def servo (m : Mod) (off : Int) : Mod :=
  if !m.sys.pilot0 then m
  else
    let t := m.time
    let thr := inf m 0x7010 3 0 * 10
    let within := decide (off.natAbs ≤ thr)
    let far := decide (4 * thr < off.natAbs)
    let m1 := { m with time := { t with offset := clampInt (-2147483648) 2147483647 off, measAt := m.sys.elapsed,
                                        good := if within then t.good + 1 else 0, bad := if far then t.bad + 1 else 0 } }
    let m2 := match t.state with
      | 3 => if 16 ≤ m1.time.good then setSync m1 1 else m1
      | 1 => if 4 ≤ m1.time.bad then setSync m1 3 else m1
      | 2 => setSync m1 (if within then 1 else 3)
      | _ => m1
    if 10000000 < off.natAbs then stepBy m2 (-(off * 4294967296 / 10)) 1
    else
      let v := max 1717815119 (min 1718158717 (Config.servoTrim m2.time.c0.inc off))
      let trim (c : Ctr) : Ctr := { c with inc := v, slew := -(off * 4294967296 / 10), resid := 0 }
      { m2 with time := { m2.time with c0 := trim m2.time.c0, c1 := if m2.time.linkUp then trim m2.time.c1 else m2.time.c1 } }

/-- The committed source comes into force (R555, R563, R565); the one in force committed again from free-run acquires anew. -/
def sourceCommitted (m : Mod) (src : Nat) : Mod :=
  let t := m.time
  if t.src = src then
    (if src ≠ 0 ∧ t.state = 0 then setSync { m with time := { t with measAt := m.sys.elapsed, delayAt := m.sys.elapsed } } 3 else m)
  else
    let m1 := enterHoldover { m with time := { t with src, ppsSec := none, ptpRx := none, ptpWait := none, ptpReq := none, ptpDelay := none,
                                                      measAt := m.sys.elapsed, delayAt := m.sys.elapsed, leaseEnd := none, good := 0, bad := 0 } }
    if src = 0 then setSync m1 0 else if m1.time.state = 0 then setSync m1 3 else m1

/-- A loss of the source: event 0x7005 with its cause, and holdover (R563, R565). -/
def sourceLost (m : Mod) (cause : Nat) : Mod := enterHoldover (raise m 0x7005 srcModule 0 (b1 m.time.src ++ b1 cause))

/-- TIME_SOURCE_LOST: the source's limit passes without a usable measurement, or its port leaves SYNC (R563). Causes: 0 no usable
measurement, 1 port left SYNC, 2 no PPS_IN edge, 3 lease ended. -/
def loseSource (m : Mod) : Mod :=
  let t := m.time
  if t.state ≠ 1 then m
  else match t.src with
    | 1 =>
      let m1 := advanceTo m (min t.measAt t.delayAt + 3 * secCycles)
      sourceLost { m1 with time := { m1.time with ptpDelay := none } } 0
    | 2 => if (rxOf m (inf m 0x7010 2 0)).st ≠ 2 then sourceLost m 1 else sourceLost (advanceTo m (t.measAt + secCycles)) 0
    | 3 => sourceLost (advanceTo m (t.measAt + 1500 * msCycles)) 2
    | _ => m

/-- HOLDOVER_EXPIRE (R565). -/
def holdoverEnd (m : Mod) : Mod :=
  if m.time.state ≠ 2 then m else setSync (advanceTo m (m.time.holdAt + inf m 0x7010 4 0 * secCycles)) 0

/-- A lease ends: events 0x7004 with cause 0 expired or 1 by a write, 0x7005, 0x7001 (R571). -/
def endLease (m : Mod) (cause : Nat) : Mod :=
  sourceLost (raise { m with time := { m.time with leaseEnd := none } } 0x7004 srcModule 0 (b1 cause)) 3

/-- HOST_LEASE_EXPIRE (R571). -/
def leaseExpires (m : Mod) : Mod :=
  match m.time.leaseEnd with
  | none => m
  | some t => endLease (advanceTo m t) 0

/-- 0x7010:05: a lease started, renewed or ended (R557, R571). -/
def writeLease (m : Mod) (v : Nat) : Mod × Nat :=
  if m.time.src ≠ 4 then (m, 0x4002)
  else if v = 0 then (if m.time.leaseEnd.isSome then endLease m 1 else m, 0)
  else (setSync { m with time := { m.time with leaseEnd := some (m.sys.elapsed + v * secCycles) } } 1, 0)

/-! ### Two harbours -/

/-- LOCKSTEP_CHECK: at the next whole millisecond H1's counter is compared with H0's (R573, R574). -/
def lockstepCheck (m0 : Mod) : Mod :=
  if !m0.sys.running then m0
  else
    let m := advanceTo m0 ((m0.sys.elapsed / msCycles + 1) * msCycles)
    let t := m.time
    if !t.linkUp then m
    else if t.c1.val = t.c0.val then { m with time := { t with lock1 := true, copyAt := none } }
    else
      let diff : Int := ((t.c1.val : Int) - t.c0.val) / 4294967296
      raise (noteUnsynced { m with time := { t with lock1 := false, lockFaults := satAdd 32 t.lockFaults 1,
                                                    copyAt := some (m.sys.elapsed + 10 * usCycles) } })
        0x7003 (srcH 1) 0 (bytesOfInt 8 diff)

/-- LOCKSTEP_COPY: 10 µs later H1 copies H0's counter, a step for H1 (R573). -/
def lockstepCopy (m0 : Mod) : Mod :=
  match m0.time.copyAt with
  | none => m0
  | some e =>
    let m := advanceTo m0 e
    let t := m.time
    if !t.linkUp then m
    else
      let before := nowH m 1
      let m1 := { m with time := { t with c1 := t.c0, lock1 := true, copyAt := none, lastStep := before, steps := satAdd 32 t.steps 1 } }
      stepEffects (raise m1 0x7002 (srcH 1) 0 (bytesOfInt 8 (((t.c0.val : Int) - t.c1.val) / 4294967296) ++ timeBytes before ++ b1 2)) 1 before

/-- The die-to-die link goes down or returns (R574). -/
def dieLinkDown (m : Mod) : Mod := noteUnsynced { m with time := { m.time with linkUp := false, lock1 := false } }
def dieLinkUp (m : Mod) : Mod := { m with time := { m.time with linkUp := true } }

/-! ### Gelix time transfer -/

/-- TT_REPORT_SEND: at the next multiple of 62.5 ms the latest receive stamp goes to the far end, by the pilot of the port's harbour (R143, R591, R592). -/
def reportSend (m0 : Mod) (p : Nat) : Mod :=
  if !m0.sys.running || !isGelix m0 p || !infB m0 0x3200 5 p || !pilotUp m0 (harbourOf p) then m0
  else
    let m := advanceTo m0 ((m0.sys.elapsed / 78125000 + 1) * 78125000)
    let t := tget ({} : Tt) m.time.tts p
    match t.stamp with
    | none => m
    | some (kep, fcnt, at_, traceable) =>
      let msg := b1 0xFF ++ b1 1 ++ zeros 2 ++ b2 kep ++ bytesOf 6 fcnt ++ timeBytes (at_ / 10) ++ b1 (b01 traceable) ++ zeros 1 ++ b4 t.seq
      let x := txOf m p
      setTx { m with time := { m.time with tts := tset {} m.time.tts p { t with seq := (t.seq + 1) % 2 ^ 32 } } } p { x with mchQueue := x.mchQueue ++ [msg] }

/-- The offset θ and the mean path delay d of a two-way measurement, in 0.1 ns (R593). -/
def twoWay (t1 t2 t3 t4 : Nat) (a : Int) : Int × Int :=
  ((((t2 : Int) - t1) - ((t4 : Int) - t3)) / 2 - a, (((t2 : Int) - t1) + ((t4 : Int) - t3)) / 2)

/-- The own pair whose receive stamp lies nearest a time. -/
def nearestPair (ps : List (Nat × Nat × Nat)) (t3 : Nat) : Option (Nat × Nat) :=
  (ps.foldl (fun (a : Option (Nat × Nat × Nat)) x => match a with
    | some y => if ((x.2.1 : Int) - t3).natAbs < ((y.2.1 : Int) - t3).natAbs then some x else a
    | none => some x) none).map fun x => (x.1, x.2.1)

/-- TT_REPORT_RECEIVE: the oldest report received on a port is evaluated (R590, R593). -/
def reportReceive (m0 : Mod) (p : Nat) : Mod :=
  let t := tget ({} : Tt) m0.time.tts p
  match t.got with
  | [] => m0
  | (msg, keyed) :: rest =>
    let m := { m0 with time := { m0.time with tts := tset {} m0.time.tts p { t with got := rest } } }
    let sent := t.sends.find? fun s => s.1 == natAt msg 4 2 && s.2.1 == natAt msg 6 6
    let good := keyed && natAt msg 1 1 == 1 && (natAt msg 22 1).testBit 0
    match sent with
    | none => bump m 0x7030 9 p 1
    | some (_, _, t3, _) =>
      match nearestPair t.pairs t3 with
      | none => bump m 0x7030 9 p 1
      | some (t1, t2) =>
        if !good then bump m 0x7030 9 p 1
        else
          let (off, d) := twoWay t1 t2 t3 ((natAt msg 12 6 * nsPerSec + natAt msg 18 4) * 10) (look m [] 0x7030 3 p).toInt
          let m1 := setNat (setObj m 0x7030 7 p (.int (clampInt (-2147483648) 2147483647 off))) 0x7030 6 p (min (2 ^ 32 - 1) d.toNat)
          if m.time.src = 2 ∧ inf m 0x7010 2 0 = p then
            servo { bump m1 0x7030 8 p 1 with time := { (bump m1 0x7030 8 p 1).time with delay := min (2 ^ 32 - 1) d.toNat } } off
          else bump m1 0x7030 9 p 1

/-! ### PPS -/

/-- PPS_IN_EDGE: captured, and under source 3 taken as a whole second (R596 to R599). Every edge keeps the source; the servo in H0's pilot uses it. -/
def ppsEdge (m0 : Mod) : Mod :=
  if !m0.sys.running then m0
  else
    let m' := captureEdge m0 8 true
    if m'.time.src ≠ 3 then m'
    else
      let m : Mod := { m' with time := { m'.time with measAt := m'.sys.elapsed } }
      let t : TimeSt := m.time
      let v : Nat := t.c0.val
      let second := nsPerSec * 2 ^ 32
      let near := (v + second / 2) / second
      let fromWhole : Int := (v : Int) - (near * second : Nat)
      match t.ppsSec with
      | none =>
        let set := inf m 0x7010 8 0
        if !m.sys.pilot0 then m
        else if set = 0 then if 1000000 * 4294967296 < fromWhole.natAbs then bump m 0x7010 0x0A 0 1 else { m with time := { t with offset := clampInt (-2147483648) 2147483647 (fromWhole * 10 / 4294967296) } }
        else
          let m1 := setNat { m with time := { t with ppsSec := some set } } 0x7010 8 0 0
          stepBy m1 ((set * second : Nat) - (v : Int)) 1
      | some s =>
        if 1000000 * 4294967296 < fromWhole.natAbs then bump m 0x7010 0x0A 0 1
        else servo { m with time := { t with ppsSec := some (s + 1) } } (((v : Int) - ((s + 1) * second : Nat)) * 10 / 4294967296)

/-! ### PTP -/

/-- The ordinary clock runs on a port: M0, M1 or a clear port, never a line port (R581 to R583). -/
def clockOn (m : Mod) (p : Nat) : Bool := infB m 0x7020 1 0 && inf m 0x7010 2 0 == p && (p == 0x40 || p == 0x41 || (decide (p < 64) && !isLine p))

/-- The ordinary clock can send on its port: a clear port that is down sends no frame (R70, R175). -/
def clockSends (m : Mod) (p : Nat) : Bool := clockOn m p && (decide (64 ≤ p) || (port m p).up)

/-- A message leaves a port for the ordinary clock or a P2P port; a data port that is down sends none (R70, R175). -/
def ptpEmit (m : Mod) (p : Nat) (k : PtpKind) : Mod := if decide (64 ≤ p) || (port m p).up then emit m (.ptp p k) else m

/-- A Sync with its origin time, correction and receive time completes a measurement (R569, R580): times in 2^-16 ns. -/
def syncMeasured (m : Mod) (p : Nat) (origin : Nat) (corr : Int) (rx : Nat) : Mod :=
  let m1 := { m with time := { m.time with ptpRx := some rx, ptpOrigin := (origin : Int) + corr, ptpWait := none } }
  match m.time.ptpDelay with
  | none => m1
  | some d =>
    let off := ((rx : Int) - origin - corr - d) * 10 / 65536 - (look m [] 0x7030 3 p).toInt
    if m.time.src = 1 then servo { m1 with time := { m1.time with delay := min (2 ^ 32 - 1) (d * 10 / 65536) } } off else m1

/-- PTP_MESSAGE_RECEIVE: a message for the ordinary clock, or a Pdelay message on a P2P port (R581, R582, R586, R589). -/
def ptpReceive (m : Mod) (p domain : Nat) (kind : PtpKind) : Mod :=
  if !m.sys.running || !m.sys.pilot0 then m
  else
    let p2p := p2pOn m p
    let clock := clockOn m p && domain == inf m 0x7020 5 0
    let receiver := clock && inf m 0x7020 2 0 == 0
    let other := if clockOn m p then bump m 0x7020 0x0C 0 1 else m
    match kind with
    | .pdelayReq => if p2p || (clock && inf m 0x7020 4 0 == 1) then ptpEmit m p (.pdelayResp 0) else other
    | .pdelayResp link =>
      if p2p || (clock && inf m 0x7020 4 0 == 1) then
        let m1 := if p2p && !isLine p then setNat m 0x7030 6 p (min (2 ^ 32 - 1) (link * 10 / 65536)) else m
        if clock then { m1 with time := { m1.time with ptpDelay := some link, delayAt := m.sys.elapsed } } else m1
      else other
    | .sync twoStep origin corr rx =>
      if !receiver then other
      else if twoStep then { m with time := { m.time with ptpWait := some (rx, corr) } }
      else syncMeasured m p origin corr rx
    | .followUp origin corr =>
      match m.time.ptpWait with
      | some (rx, c) => if receiver then syncMeasured m p origin (corr + c) rx else other
      | none => other
    | .delayResp rx corr =>
      match m.time.ptpReq, m.time.ptpRx with
      | some t3, some t2 =>
        if receiver then
          let d := (((t2 : Int) - m.time.ptpOrigin) + ((rx : Int) - corr - t3)) / 2
          { m with time := { m.time with ptpReq := none, ptpDelay := some d.toNat, delayAt := m.sys.elapsed } }
        else other
      | _, _ => other
    | .delayReq => if clock && inf m 0x7020 2 0 == 1 && inf m 0x7020 4 0 == 0 then ptpEmit m p (.delayResp (stampFine m p false) 0) else other
    | .announce utc => if clock then { m with time := { m.time with utc } } else other
    | .notActedOn => other

/-- The cycles of a log interval (R615). -/
def logCycles (n : Int) : Nat := if n < 0 then secCycles / 2 ^ n.natAbs else secCycles * 2 ^ n.natAbs

/-- As timeTransmitter the ordinary clock announces itself with the Sync every 2 s, the default of IEEE 1588 (PRESUMED, log 55). -/
def announceDue (m : Mod) : Bool := (m.time.ptpAnnounced.map fun t => decide (t + 2 * secCycles ≤ m.sys.elapsed)).getD true

/-- The Sync of a timeTransmitter, with its Announce and its Follow_Up (R581). -/
def sendSync (m : Mod) (p : Nat) : Mod :=
  let t := sendFine m p
  let m1 := if announceDue m then emit { m with time := { m.time with ptpAnnounced := some m.sys.elapsed } } (.ptp p (.announce m.time.utc)) else m
  if infB m 0x7020 6 0 then emit (emit m1 (.ptp p (.sync true 0 0 0))) (.ptp p (.followUp t 0)) else emit m1 (.ptp p (.sync false t 0 0))

/-- PTP_MESSAGE_SEND: the ordinary clock's next periodic message (R581): as timeTransmitter Sync with what goes with it, and under P2P Pdelay_Req, each
at its interval; as timeReceiver Delay_Req or Pdelay_Req. -/
def ptpSend (m0 : Mod) : Mod :=
  if !m0.sys.running || !m0.sys.pilot0 || !infB m0 0x7020 1 0 then m0
  else
    let p := inf m0 0x7010 2 0
    let role := inf m0 0x7020 2 0
    let p2p := inf m0 0x7020 4 0 == 1
    let dueAt (last : Option Nat) (sub : Nat) : Nat := (last.map fun t => t + logCycles (look m0 [] 0x7020 sub 0).toInt).getD m0.sys.elapsed
    let next := dueAt m0.time.ptpSent (if role = 1 then 7 else 8)
    let ask := dueAt m0.time.ptpAsked 8
    if role = 1 ∧ p2p ∧ ask < next then
      let m := advanceTo m0 ask
      let m1 := { m with time := { m.time with ptpAsked := some m.sys.elapsed } }
      if clockSends m p then emit m1 (.ptp p .pdelayReq) else m1
    else
      let m := advanceTo m0 next
      let m1 := { m with time := { m.time with ptpSent := some m.sys.elapsed } }
      if !clockSends m p then m1
      else if role = 1 then sendSync m1 p
      else if p2p then emit m1 (.ptp p .pdelayReq)
      else emit { m1 with time := { m1.time with ptpReq := some (sendFine m p) } } (.ptp p .delayReq)

/-! ### Runtime -/

/-- RUNTIME_SAVE: every 3,600 s of runtime the pilot writes it to flash (R612). -/
def saveRuntime (s : State) : State :=
  let m := s.mod
  if !m.sys.running || !(m.sys.pilot0 || m.sys.pilot1) then s
  else
    let m1 := advance m ((3600 - m.tether.runtime % 3600) * secCycles)
    { s with flash := { s.flash with runtime := m1.tether.runtime }, mod := m1 }

end Sys2Proof.Machine
end

