-- ==== Sys2Proof/Machine/LineEvents.lean ====
section
/-! DEFINITION. The commands of lanes, ports and line maintenance (R60 to R77, R118 to R123, R150 to R200). -/

namespace Sys2Proof.Machine

/-- The second of a line port that ends: the oldest that has not been ended yet; the one under way ends when time has run to its end
(R31, R179, R184). -/
def lineSecond (m : Mod) (p : Nat) : Mod :=
  if !isLine p then m
  else
    let h := harbourOf p
    let cur := nowH m h / nsPerSec
    let last := (pmOf m p).done
    let n := if last = 0 then cur else min last cur
    endSecond (advanceToNet m h ((n + 1) * nsPerSec)) p (n * nsPerSec)

/-- LOS_DECLARE: R153. -/
def execLosDeclare (lane : Fin 64) (s : State) : Host.Outcome State Fault Refusal :=
  run "LOS_DECLARE" (.losDeclare lane) s (whileOn (onMod fun m => laneLos m lane true))

/-- LOS_CLEAR: R153. -/
def execLosClear (lane : Fin 64) (s : State) : Host.Outcome State Fault Refusal :=
  run "LOS_CLEAR" (.losClear lane) s (whileOn (onMod fun m => laneLos m lane false))

/-- LOL_DECLARE: R153, R162. -/
def execLolDeclare (lane : Fin 64) (s : State) : Host.Outcome State Fault Refusal :=
  run "LOL_DECLARE" (.lolDeclare lane) s (whileOn (onMod fun m => laneLol m lane true))

/-- LOL_CLEAR: R153. -/
def execLolClear (lane : Fin 64) (s : State) : Host.Outcome State Fault Refusal :=
  run "LOL_CLEAR" (.lolClear lane) s (whileOn (onMod fun m => laneLol m lane false))

/-- ADAPT_COMPLETE: R60. -/
def execAdaptComplete (lane : Fin 64) (s : State) : Host.Outcome State Fault Refusal :=
  run "ADAPT_COMPLETE" (.adaptComplete lane) s (whileOn (onMod fun m => laneAdapted m lane))

/-- CODEWORD_LOCK: R120. -/
def execCodewordLock (lane : Fin 64) (s : State) : Host.Outcome State Fault Refusal :=
  run "CODEWORD_LOCK" (.codewordLock lane) s (whileOn (onMod fun m => codewordLocked m lane))

/-- CODEWORD_LOCK_LOSS: R120, R122. -/
def execCodewordLockLoss (lane : Fin 64) (s : State) : Host.Outcome State Fault Refusal :=
  run "CODEWORD_LOCK_LOSS" (.codewordLockLoss lane) s (whileOn (onMod fun m => loseCodeword m lane))

/-- LANE_LOCK: R118, R121. -/
def execLaneLock (lane : Fin 64) (mfas : Nat) (s : State) : Host.Outcome State Fault Refusal :=
  run "LANE_LOCK" (.laneLock lane mfas) s (whileOn (onMod fun m => laneLocked m lane mfas))

/-- LANE_LOCK_LOSS: R122. -/
def execLaneLockLoss (lane : Fin 64) (s : State) : Host.Outcome State Fault Refusal :=
  run "LANE_LOCK_LOSS" (.laneLockLoss lane) s (whileOn (onMod fun m => loseLaneLock m lane))

/-- SKEW_LIMIT_EXCEEDED: R65, R66. -/
def execSkewLimitExceeded (port : Fin 64) (skew : Nat) (s : State) : Host.Outcome State Fault Refusal :=
  run "SKEW_LIMIT_EXCEEDED" (.skewLimitExceeded port skew) s (whileOn (onMod fun m => skewExceeded m port skew))

/-- PORT_ALIGNED: R60, R64, R123. -/
def execPortAligned (port : Fin 64) (skew : Nat) (s : State) : Host.Outcome State Fault Refusal :=
  run "PORT_ALIGNED" (.portAligned port skew) s (whileOn (onMod fun m => align m port skew))

/-- FAULT_SIGNAL_RECEIVED: R60, R70; kinds 0 none, 1 local, 2 remote fault (R84). -/
def execFaultSignalReceived (port : Fin 64) (kind : Nat) (s : State) : Host.Outcome State Fault Refusal :=
  run "FAULT_SIGNAL_RECEIVED" (.faultSignalReceived port kind) s (whileOn (onMod fun m => faultReceived m port kind))

/-- PCS_FEC_LOCK_LOSS: R70, R173. -/
def execPcsFecLockLoss (port : Fin 64) (s : State) : Host.Outcome State Fault Refusal :=
  run "PCS_FEC_LOCK_LOSS" (.pcsFecLockLoss port) s (whileOn (onMod fun m => pcsLoss m port))

/-- PORT_UP_TIMEOUT: R61. -/
def execPortUpTimeout (port : Fin 64) (s : State) : Host.Outcome State Fault Refusal :=
  run "PORT_UP_TIMEOUT" (.portUpTimeout port) s (whileOn (onMod fun m => upTimeout m port))

/-- LOF_DECLARE: R153, R154. -/
def execLofDeclare (port : Fin 64) (s : State) : Host.Outcome State Fault Refusal :=
  run "LOF_DECLARE" (.lofDeclare port) s (whileOn (onMod fun m => lofDeclared m port))

/-- LOF_CLEAR: R153, R154. -/
def execLofClear (port : Fin 64) (s : State) : Host.Outcome State Fault Refusal :=
  run "LOF_CLEAR" (.lofClear port) s (whileOn (onMod fun m => lofCleared m port))

/-- LOM_DECLARE: R153, R155. -/
def execLomDeclare (port : Fin 64) (s : State) : Host.Outcome State Fault Refusal :=
  run "LOM_DECLARE" (.lomDeclare port) s (whileOn (onMod fun m => lomDeclared m port))

/-- LOM_CLEAR: R153. -/
def execLomClear (port : Fin 64) (s : State) : Host.Outcome State Fault Refusal :=
  run "LOM_CLEAR" (.lomClear port) s (whileOn (onMod fun m => lomCleared m port))

/-- FAULT_FORWARD_START: R172, R175. -/
def execFaultForwardStart (port : Fin 64) (s : State) : Host.Outcome State Fault Refusal :=
  run "FAULT_FORWARD_START" (.faultForwardStart port) s (whileOn (onMod fun m => forwardStart m port))

/-- LINE_SECOND_END: R179 to R191; the second that the harbour's counter shows ends. -/
def execLineSecondEnd (port : Fin 64) (s : State) : Host.Outcome State Fault Refusal :=
  run "LINE_SECOND_END" (.lineSecondEnd port) s (whileOn (onMod fun m => lineSecond m port))

end Sys2Proof.Machine
end

