-- ==== Sys2Proof/Machine/Store.lean ====
section
/-! DEFINITION. Values on the wire (R772 to R774), the configuration as flash holds it and as the digest covers it (R930, R972), and
its restore at start-up (R419, R555, R972, R973). -/

namespace Sys2Proof.Machine

/-! ### Encoding -/

/-- The type code of R773. -/
def Ty.code : Ty → Nat
  | .bool => 0x01
  | .u n => if n = 1 then 0x02 else if n = 2 then 0x03 else if n = 4 then 0x04 else 0x05
  | .i n => if n = 1 then 0x06 else if n = 2 then 0x07 else if n = 4 then 0x08 else 0x09
  | .oct _ => 0x0A
  | .str _ => 0x0B
  | .time => 0x0C
  | .rate => 0x0D

/-- The value bytes of a value of a type (R773). -/
def encodeVal (ty : Ty) (v : Val) : Octets :=
  match ty with
  | .bool => b1 v.toNat
  | .u n => bytesOf n v.toNat
  | .i n => bytesOfInt n v.toInt
  | .oct n => fit n v.toOct
  | .str n => v.toOct.take n
  | .time => timeBytes v.toNat
  | .rate => b4 v.toNat

/-- A value record (R774). -/
def valueRecord (a : Addr) (ty : Ty) (v : Val) : Octets :=
  let d := encodeVal ty v
  addrBytes a ++ b1 ty.code ++ zeros 1 ++ b2 d.length ++ d

/-- The index, subindex and element of a key. -/
def keyIdx (k : Nat) : Nat := k / 2 ^ 40
def keySub (k : Nat) : Nat := k / 2 ^ 32 % 256
def keyElem (k : Nat) : Nat := k % 2 ^ 32

/-- A value of type T from its bytes: none when they are no value of it (R10, R773). -/
def decodeVal (ty : Ty) (d : Octets) : Option Val :=
  match ty with
  | .bool => if natOf d ≤ 1 then some (.nat (natOf d)) else none
  | .u _ => some (.nat (natOf d))
  | .i _ => some (.int (intOf d))
  | .oct _ => some (.oct d)
  | .str _ => some (.oct d)
  | .time => if natAt d 6 4 < nsPerSec then some (.nat (natAt d 0 6 * nsPerSec + natAt d 6 4)) else none
  | .rate => some (.nat (natOf d))

/-- A length fits a type (R774). -/
def Ty.lengthOk (ty : Ty) (n : Nat) : Bool :=
  match ty with
  | .str k => n ≤ k
  | t => n == t.size

/-- A value lies in a range. -/
def Rng.holds : Rng → Val → Bool
  | .any, _ => true
  | .nat lo hi, v => decide (lo ≤ v.toNat ∧ v.toNat ≤ hi)
  | .natOr lo hi x, v => decide (lo ≤ v.toNat ∧ v.toNat ≤ hi) || v.toNat == x
  | .int lo hi, v => decide (lo ≤ v.toInt ∧ v.toInt ≤ hi)

/-! ### The configuration in force -/

/-- An object of access rwc. -/
def isRwc (k : Nat) : Bool :=
  match objRow (keyIdx k) (keySub k) with
  | some o => o.acc == .rwc
  | none => false

/-- The rwc values in force that are held in flash: those of table 0x2100 are the vault's (R765). -/
def storable (m : Mod) : Tbl Val := m.obj.filter fun e => isRwc e.1

/-- The prefixes of every table in the order of their first insertion, each with its table (R419). -/
def storedPrefixes (m : Mod) : List Octets :=
  (List.range 4).flatMap fun b => (clsOf m b).prefixes.map fun p => b1 (b * 8 + p.table) ++ prefixBytes p

/-- The gate banks of the ports whose gates are not as delivered (R972). -/
def storedGates (m : Mod) : Tbl (GBank × Bool) := m.gates.map fun e => (e.1, e.2.force, e.2.pend.isSome)

/-- A copy of the configuration in force (R972). -/
def configCopy (m : Mod) : Copy := { config := storable m, prefixes := storedPrefixes m, gates := storedGates m }

/-- CONFIG_SAVE: the configuration in force written to flash; the copy that is replaced is the older one (R972). -/
def saveConfig (s : State) : State :=
  { s with flash := { s.flash with older := s.flash.stored, stored := some (configCopy s.mod) },
           mod := { s.mod with sys := { s.mod.sys with unsaved := false } } }

/-- The configuration digest (R930): SHA-256 over the value records of every rwc object that differs from its default, in
ascending order of index, subindex and element. -/
def configDigest (m : Mod) : Octets :=
  let vault := m.tether.vault.cfg.filter fun e => isRwc e.1
  let all := vault.foldl (fun t e => tins e.1 e.2 t) (storable m)
  sha256 (all.flatMap fun e =>
    let i := keyIdx e.1
    let s := keySub e.1
    let n := keyElem e.1
    match objRow i s with
    | some o =>
      if look { m with obj := tdel m.obj e.1 } [] i s n = e.2 then []
      else valueRecord { idx := i, sub := s, isElem := isTable i, elem := if isTable i then n else 0 } o.ty e.2
    | none => [])

/-! ### Coming into force -/

/-- A queue's Enable comes into force as TRUE: each bucket starts with its burst (R476). -/
def startQueue (m : Mod) (q : Nat) : Mod :=
  let x : Queue := { rate := admRate m q, pir := if qMode m [] q = 1 then admPir m q else 0, at_ := m.sys.elapsed,
                     tokC := inf m 0x6000 8 q, tokP := if qMode m [] q = 1 then inf m 0x6000 0x0A q else 0 }
  setQueue m q x

/-- The frequency reference selected (R963, R964, R972): the one named, or under automatic select the higher-ranked of those that are valid; it
stays locked where it was in force, and else is acquired; free-running with none selected. A change of it raises event 0x1004. -/
def selectReference (m : Mod) : Mod :=
  let sel := inf m 0x7100 1 0
  let valid (r : Nat) : Bool := m.sys.refValid.testBit r
  let r := if sel = 1 ∨ sel = 2 then sel else if sel = 3 ∧ valid 1 then 1 else if sel = 3 ∧ valid 2 then 2 else 0
  let st := if sel = 0 then 0 else if r ≠ 0 ∧ r = m.sys.refInForce ∧ m.sys.refState = 2 then 2 else 1
  let m1 := { m with sys := { m.sys with refInForce := r, refState := st } }
  if r = m.sys.refInForce then m1 else raise m1 0x1004 srcModule 0 (b1 r ++ b1 st)

/-- The values of a stored copy as they come back: an association of suite BYPASS starts as type 0 (R275), and no switch request or
snapshot request outlives the reset (R300, R972). -/
def restoredValues (c : Tbl Val) : Tbl Val :=
  let bypass (a : Nat) : Bool := tfind c (okey 0x4000 2 a) == some (.nat 0xFE)
  c.filter fun e =>
    !(keyIdx e.1 == 0x4000 && (keySub e.1 == 1 || keySub e.1 == 2) && bypass (keyElem e.1)) &&
    !(keyIdx e.1 == 0x4040 && keySub e.1 == 1) && !(keyIdx e.1 == 0xB000 && keySub e.1 == 4)

/-- An enabled queue for which a condition of R539 or the capacity of R353 fails (R973). -/
def unprovable (m : Mod) (q : Nat) : Bool :=
  let port := qPort m [] q
  let g := gate m port
  let c := qClass m [] q
  let b := qBerth m [] q
  qEn m [] q && decide (port < 64) &&
  ((decide (qRate m [] q ≠ 0) && (decide (backlogLimit m [] g q (qRate m [] q) 0 < unitDebit m [] port g c) || (latencyTerm m [] g q).isNone)) ||
   (banksOf g).any (fun k => decide ((classTerms m [] port k (fitLimit m [] port (banksOf g) c) c).room * paceRate m [] port < classDemand m [] port k c)) ||
   (inf m 0x6200 2 (b * 64 + port) != 0xFFFFFFFF &&
     decide (inf m 0x6200 2 (b * 64 + port) <
       ((boundQueues m [] port).filter fun x => qLive m [] x && qBerth m [] x == b).foldl (fun s x => s + committedPeak m [] x) 0)) ||
   ((fedAssocs m [] q).any (fun a => encrypts m [] a && !isHa m [] a) &&
     decide (160000000 * (notRetired (bank m (qBasin q * 2)) - 1) < bankDemand m [] (qBasin q * 2))) ||
   (feedsHa m [] q || isDiverted m [] q) && decide (48000000 < maskedCommit m [] (qBasin q)))

/-- A port's gates as they come back (R972): the bank in force, and a pending bank with its swap computed afresh. -/
def restoreGate (m : Mod) (port : Nat) (b : GBank) (pending : Bool) : Mod :=
  let m1 := setGate m port { gate m port with force := b }
  if pending then commitBank m1 port else m1

/-- The hash seeds of the LPM banks drawn from source B (R409). -/
def drawHashSeeds (m : Mod) : Mod :=
  (List.range 4).foldl (fun m b =>
    let (bs, m1) := draw m (goodB m (b / 2)) 16
    setCls m1 b { clsOf m1 b with seed := bs }) m

/-- Step 6 (R555, R972, R973): the newer whole copy restored, or every object at its default with event 0x1012; then the bound
proof, which disables the queues it fails for. -/
def restoreConfig (f : Flash) (m0 : Mod) : Mod :=
  let m := drawHashSeeds m0
  match f.stored with
  | none => selectReference (raise m 0x1012 srcModule 0 (b1 0 ++ b4 0 ++ b2 0))
  | some c =>
    let m1 := { m with obj := (restoredValues c.config).foldl (fun t e => tins e.1 e.2 (tdel t e.1)) m.obj }
    let m2 := c.gates.foldl (fun m e => restoreGate m e.1 e.2.1 e.2.2) m1
    let m3 := c.prefixes.foldl restorePrefix m2
    let bad := (elems m3 [] 0x6000 1).filter (unprovable m3)
    let m4 := bad.foldl (fun m q => setNat m 0x6000 1 q 0) m3
    let m5 := (elems m4 [] 0x6200 2).foldl startNode m4
    let m6 := ((elems m5 [] 0x6000 1).filter (qEn m5 [])).foldl startQueue m5
    -- rates that the fall-back lowers are journaled (R498)
    let m7 := (List.range 4).foldl (fun m b => if diverting m [] b && !(divertedRates m [] (gate m) b).isEmpty then engageFallback m b else m) m6
    let m8 := if bad = [] then m7 else raise m7 0x1012 srcModule 0 (b1 1 ++ b4 bad.length ++ b2 (bad.headD 0))
    let m9 := (List.range 32).foldl (fun m u => if infB m 0x8010 7 u then regionEnabled m (u / 16) (u % 16) else m) m8
    let m10 := (List.range 9).foldl commitTrigger m9
    selectReference (sourceCommitted m10 (inf m10 0x7010 1 0))

/-- Step 7 (R974): the lanes of every port whose Enable is in force power up. -/
def powerPorts (m : Mod) : Mod := (List.range 64).foldl (fun m p => if portEnabled m p then enablePort m p else m) m

/-- The runtime resumes from flash when the tether's counter is found lost: event 0x7009 (R612). -/
def runtimeCheck (f : Flash) (lost : Bool) (m : Mod) : Mod :=
  if lost then
    raise { m with tether := { m.tether with runtime := f.runtime, runtimeSub := 0 }, sys := { m.sys with runtimeRestored := true } } 0x7009 srcModule 0
      (b4 f.runtime)
  else m

end Sys2Proof.Machine
end

