-- ==== Sys2Proof/Machine/Flags.lean ====
section
/-! DEFINITION. The field maps of the read-only objects: lane, port, alignment, queue, gate, stowage and berth state (R82 to R150,
R502, R546, R672, R715), and the figures that go with them. -/

namespace Sys2Proof.Machine

/-- Lane state 0x3000:04 (R82). -/
def laneState (m : Mod) (l : Nat) : Nat :=
  let x := lane m l
  bitAt x.signal 0 + bitAt x.cdr 1 + bitAt x.adapted 2

/-- The lanes of a port that are in phase Up, by index of the basin side (R85). -/
def lanesUp (m : Mod) (p : Nat) : Nat := if (port m p).phase = 4 then mask ((List.range (width m p)).map (p % 8 + ·)) else 0

/-- Port state 0x3100:06 (R85). -/
def portStateWord (m : Mod) (p : Nat) : Nat :=
  let x := port m p
  let raw := rawDefects m p
  lanesUp m p * 2 ^ 16 + (if portEnabled m p then x.phase else 0) * 256 + bitAt x.loal 3 + bitAt (raw.testBit 3) 2 + bitAt (raw.testBit 2) 1 + bitAt x.up 0

/-- The rate a port carries, kbit/s: the Ethernet rate, or the lane sum × 16,320 / 16,384 of R468's rate per lane, rounded down (DESIGN
CHOICE, log 50); 0 when down (R52, R84). -/
def rateCarried (m : Mod) (p : Nat) : Nat :=
  if !(port m p).up then 0 else if gelixIn m [] p then width m p * 105823529 * 16320 / 16384 else width m p * 100000000

/-- Configuration in force 0x3100:11 (R86). -/
def portConfigWord (m : Mod) (p : Nat) : Nat := width m p * 256 + portMode m p * 16 + b01 (portEnabled m p)

/-- Alignment state 0x3200:06 (R150). -/
def alignmentWord (m : Mod) (p : Nat) : Nat :=
  let x := rxOf m p
  mask ((portLanes m p).filterMap fun l => (lane m l).logical) * 2 ^ 24 + x.cands.length * 2 ^ 16 + x.fawErr * 256 + bitAt x.mfIn 3 + x.st

/-- Queue state 0x6000:10 (R502). -/
def queueStateWord (m : Mod) (q : Nat) : Nat :=
  let x := queue m q
  let port := qPort m [] q
  let live := qLive m [] q
  let tier := if !live then 0 else tierOf (refillQueue m q) q
  tier * 64 + bitAt (decide (port < 64) && (node m (qBerth m [] q * 64 + port)).lowering) 4 + bitAt x.lowering 3 + bitAt x.draining 2 +
    bitAt (refusesAll m q || !(decide (port < 64) && (Machine.port m port).up)) 1 + bitAt live 0

/-- Gate state 0x6800:0E (R546). -/
def gateStateWord (m : Mod) (p : Nat) : Nat :=
  let g := gate m p
  let (entry, open_, fill) := entryNow m p
  entry * 2 ^ 16 + open_ * 256 + bitAt fill 3 + bitAt g.deferred 2 + bitAt g.pend.isSome 1 + bitAt g.force.on 0

/-- Port state 0x8000:03 (R672). -/
def stowStateWord (m : Mod) (h : Nat) : Nat := bitAt (stow m h).overflow 8 + (stow m h).st

/-- Region state 0x8010:08: disabled, open, quiesced (R673). -/
def regionState (m : Mod) (u : Nat) : Nat := if !infB m 0x8010 7 u then 0 else if (stow m (u / 16)).quiesced.contains (u % 16) then 2 else 1

/-- Berth state 0xA000:04 (R715). -/
def berthStateWord (m : Mod) (b : Nat) : Nat :=
  let x := berth m b
  bitAt (anyOver m b) 3 + bitAt x.releasing 2 + bitAt x.resetting 1 + bitAt (infB m 0xA000 2 b) 0

/-- Source state 0x9010:05: in alarm, or with its response in force (R907). -/
def sourceState (m : Mod) (i : Nat) : Nat := if (source m i).alarm then 1 else if (source m i).inForce ≠ 0 then 2 else 0

/-- Credential state 0x2100:07: empty, ready, locked (R797). -/
def credState (m : Mod) (c : Nat) : Nat := if !credInForce m c then 0 else if (tget none m.mgmt.lockedTo c).isSome then 2 else 1

/-- The chance of a false match in a harbour's filter, parts per 10^9 (R263, R285): eight positions all set at the fill. -/
def falseMatch (m : Mod) (h : Nat) : Nat := (tget ({} : KeyFilter) m.filters h).bits.length ^ 8 * 1000000000 / 2 ^ 200

/-- A unit's retire cause and last fault, by pipeline element (R384). -/
def pipeAt (m : Mod) (e : Nat) : CUnit := tget {} (bank m (e / 14)).pipes (e % 14)

/-- The banks a class is proved over (R548): in force, and pending while PENDING is set. -/
def proofTerm (m : Mod) (p c : Nat) (f : ClassTerms → Nat) : Nat :=
  let g := gate m p
  (banksOf g).foldl (fun a b => max a (f (classTerms m [] p b (fitLimit m [] p (banksOf g) c) c))) 0

/-- A value held to 32 bits. -/
def top32 (n : Nat) : Nat := min n (2 ^ 32 - 1)

/-- The proof terms of a class, 0x6820 (R548): as the proof of the configuration in force finds them, also before a COMMIT has run one, so that the table's
default of 0 shows only where a term is 0 (DESIGN CHOICE, log 55). -/
def classFigure (m : Mod) (e sub : Nat) : Nat :=
  let p := e / 8
  let c := e % 8
  let g := gate m p
  let fit := fitLimit m [] p (banksOf g) c
  match sub with
  | 1 => b01 (g.force.fits c)
  | 2 => fit.getD 0
  | 3 => match gapOf m [] p g c with
    | some x => top32 x
    | none => 2 ^ 32 - 1
  | 4 => top32 (betaOf m [] p g c)
  | 5 => top32 (proofTerm m p c (·.usable))
  | 6 => top32 (proofTerm m p c (·.capacity (paceRate m [] p)))
  | _ => top32 ((banksOf g).foldl (fun a b => max a (ceilDiv (classDemand m [] p b c) 80000000)) 0)

/-- The proof terms of a queue, 0x6830 (R549): for a queue that is bound, at its rate for admission. -/
def queueFigure (m : Mod) (q sub : Nat) : Nat :=
  let p := qPort m [] q
  if 64 ≤ p then 0
  else
    let g := gate m p
    match sub with
    | 1 => top32 (fixedLatency m [] q)
    | 2 => top32 ((latencyTerm m [] g q).getD (2 ^ 32 - 1))
    | 3 => admRate m q * 9998 / 10000
    | 4 => minBound m [] g q (admRate m q)
    | _ => b01 g.pend.isSome

/-- A bin of a PM table by its number (R198). -/
def binValue (b : Bin) (sub : Nat) : Nat :=
  match sub with
  | 1 => b.start
  | 2 => b.flags
  | 3 => b.es
  | 4 => b.ses
  | 5 => b.uas
  | 6 => b.bbe
  | 7 => b.nks
  | 8 => b.fes
  | 9 => b.fses
  | 10 => b.fuas
  | 11 => b.fbbe
  | _ => b.graded

/-- The slot an element of 0x5120 names: its prefix and whether it is its second slot (R444). -/
def slotAt (m : Mod) (e : Nat) : Option (Prefix × Bool) :=
  let basin := e / 262144
  let k := e / 32768 % 8
  let bucket := e % 32768 / 4
  let way := e % 4
  ((clsOf m basin).prefixes.find? fun p => bankOfPrefix m basin p == k && p.bucket == bucket && (p.way == way || (isLong p && p.way + 1 == way))).map
    fun p => (p, p.way != way)

/-- The learn record an element of 0x5210 shows (R434). -/
def learnAt (m : Mod) (e : Nat) : Option Learn := (clsOf m (e / 4096)).learn.find? fun x => x.seq % 4096 == e % 4096

end Sys2Proof.Machine
end

