-- ==== Sys2Proof/Machine/Operands.lean ====
section
/-! DEFINITION. Objects as operands of a message: which exist (R772), which elements a table has, whose they are, and what each role
may do with them (R770, R771, and the narrower rights of each chapter). -/

namespace Sys2Proof.Machine

/-! ### Elements -/

/-- The elements of a table that is numbered from 0 on, by index (R79 to R1033); 0 for the tables that `elemPresent` decides. -/
def elemCount (idx : Nat) : Nat :=
  match idx with
  | 0x1010 => 2
  | 0x2010 => 32
  | 0x2020 => 2
  | 0x2040 => 32
  | 0x2100 => 64
  | 0x3000 => 64
  | 0x3100 => 64
  | 0x4000 => 65536
  | 0x4010 => 131072
  | 0x4020 => 65536
  | 0x4040 => 65536
  | 0x4100 => 256
  | 0x4200 => 8
  | 0x4210 => 4
  | 0x4220 => 112
  | 0x4230 => 2
  | 0x4240 => 2
  | 0x4300 => 2
  | 0x5100 => 32
  | 0x5110 => 32
  | 0x5120 => 1048576
  | 0x5130 => 32
  | 0x5200 => 4
  | 0x6000 => 32768
  | 0x6010 => 32768
  | 0x6020 => 32768
  | 0x6100 => 64
  | 0x6200 => 16384
  | 0x6800 => 64
  | 0x6810 => 65536
  | 0x6818 => 65536
  | 0x6820 => 512
  | 0x6830 => 32768
  | 0x7030 => 66
  | 0x7040 => 9
  | 0x7050 => 9
  | 0x8000 => 2
  | 0x8010 => 32
  | 0x8020 => 128
  | 0x9010 => 15
  | 0xA000 => 256
  | 0xA010 => 1024
  | 0xA020 => 256
  | 0xB010 => 2 ^ 30
  | 0xB020 => 4
  | 0xB100 => 4
  | 0xE100 => 2 ^ 30
  | 0xF000 => 2
  | 0xF020 => 4098
  | _ => 0

/-- An element is present in its table (R149, R193, R195, R198, R283, R392, R434, R446, R796, R909). An absorbed index names no clear port
(R4). -/
def elemPresent (m : Mod) (idx e : Nat) : Bool :=
  let linePort (p : Nat) : Bool := p < 64 && isLine p
  let clearPort (p : Nat) : Bool := p < 64 && !isLine p && !absorbed m p
  match idx with
  | 0x2030 => clearPort e
  | 0x3200 => linePort e
  | 0x3300 => linePort e
  | 0x3310 => clearPort e
  | 0x3400 => linePort e
  | 0x3410 => linePort (e / 128) && e % 128 ≤ 96
  | 0x3420 => linePort (e / 2)
  | 0x3430 => linePort (e / 131072) && 1 ≤ e % 131072 && e % 131072 ≤ 86400
  | 0x4030 => linePort e
  | 0x5000 => e < 262144 && e % 8192 ≤ 4096
  | 0x5040 => clearPort e
  | 0x5210 => e < 16384 && (learnAt m e).isSome
  | 0x9100 => m.ev.journal.any fun x => x.num % 2 ^ 32 == e
  | 0x9110 => m.ev.seals.any fun x => x.num == e
  | _ => e < elemCount idx

/-- Object and element of an address (checks *object*, *element* and *capacity* of R783): none when both exist. A queue table ends
with the limit 32,768 (R451), a berth table with 256 (R687). -/
def addrCheck (m : Mod) (a : Addr) : Option Refuse :=
  match objRow a.idx a.sub with
  | none => some { status := 0x1001, addr := a }
  | some _ =>
    if a.isElem ≠ isTable a.idx ∨ (!a.isElem ∧ a.elem ≠ 0) then some { status := 0x1002, addr := a }
    else if !a.isElem then none
    else if [0x6000, 0x6010, 0x6020, 0x6830].contains a.idx ∧ 32768 ≤ a.elem then some { status := 0x3001, addr := a, vals := [32768] }
    else if [0xA000, 0xA020, 0x4100].contains a.idx ∧ 256 ≤ a.elem then some { status := 0x3001, addr := a, vals := [256] }
    else if !elemPresent m a.idx a.elem then some { status := 0x1002, addr := a }
    else if a.idx = 0x7040 ∧ a.sub = 8 ∧ a.elem ≠ 8 then some { status := 0x1002, addr := a }
    else none

/-- The access of an object at an element (R13 to R16): element 8 of the triggers and captures is fixed but for its width and
0x7040:08 (R605, R617, R618), berth 0 keeps its BPID, Enable and shares (R688, R693). -/
def accessOf (o : Obj) (idx e : Nat) : Acc :=
  if idx = 0x7040 ∧ e = 8 ∧ (o.sub = 1 ∨ o.sub = 2 ∨ o.sub = 3 ∨ o.sub = 5) then .const
  else if idx = 0x7050 ∧ e = 8 ∧ o.sub = 1 then .const
  else if idx = 0xA000 ∧ e = 0 ∧ (o.sub = 1 ∨ o.sub = 2) then .const
  else if idx = 0xA010 ∧ e < 4 ∧ 1 ≤ o.sub ∧ o.sub ≤ 6 then .ro
  else o.acc

/-! ### Owners -/

/-- The berth an element belongs to (R677, R771); none for an element of no berth. -/
def ownerOf (m : Mod) (idx e : Nat) : Option Nat :=
  match idx with
  | 0x6000 => some (qBerth m [] e)
  | 0x6010 => some (qBerth m [] e)
  | 0x6020 => some (qBerth m [] e)
  | 0x6830 => some (qBerth m [] e)
  | 0x4000 => some (aBerth m e)
  | 0x4020 => some (aBerth m e)
  | 0x4040 => some (aBerth m e)
  | 0x4010 => some (aBerth m (e / 2))
  | 0x5000 => some (inf m 0x5000 2 e)
  | 0x5100 => some (inf m 0x5100 1 e)
  | 0x5110 => some (inf m 0x5100 1 e)
  | 0x5120 => (slotAt m e).map fun x => inf m 0x5100 1 (e / 262144 * 8 + x.1.table)
  | 0x6200 => some (e / 64)
  | 0x4100 => some e
  | 0xA000 => some e
  | 0xA010 => some (e / 4)
  | 0xA020 => some e
  | _ => none

/-! ### Roles -/

/-- A session's expert unlock (R801). -/
def unlocked (m : Mod) (slot : Nat) : Bool := (sess m slot).role == 4 && (tget none m.mgmt.grants slot).isSome

/-- What a role may read in an index range, own-session and own-berth limits aside (R771). -/
def roleReads (role idx : Nat) : Bool :=
  let top := idx / 4096
  if 0x5210 = idx then role == 1 || role == 2
  else match role with
    | 1 => top != 0xE
    | 2 => top != 0xE
    | 3 => [1, 2, 4, 5, 6, 7, 0xA, 0xB].contains top || idx == 0xF100
    | 4 => true
    | 5 => top != 0xE
    | _ => false

/-- What a role may write (R771), with the narrower rights of R208, R373, R394, R436, R461, R505, R506, R512, R551, R650, R688,
R694, R766, R793, R795, R849, R850, R905, R950. -/
def roleWrites (role idx sub : Nat) : Bool :=
  let top := idx / 4096
  match role with
  | 1 => top != 0xE && top != 1
  | 2 => [3, 4, 5, 6, 7, 8, 0xA, 0xB].contains top && !(idx == 0x4100) && !(idx == 0x4210 && sub == 1) &&
         !(idx == 0xA000 && 1 ≤ sub && sub ≤ 3) && idx != 0xB100
  | 3 => (idx == 0x4000 && !(List.contains [1, 3, 4] sub)) || idx == 0x4010 || idx == 0x4040 || idx == 0x5110 ||
         (idx == 0x5100 && sub != 1) || (idx == 0x6000 && !(List.contains [2, 3, 4] sub)) || (idx == 0xA000 && sub == 6) ||
         (idx == 0xB000 && sub != 8 && sub != 9) || (idx == 0xB020 && sub == 4)
  | 4 => idx == 0x3000 || top == 0xE || (idx == 0xF010 && [1, 2, 5].contains sub) || idx == 0xF020
  | _ => false

/-- An enrolment session (R769, R770): it reads module identity and attestation, and writes credentials. -/
def enrolRight (idx : Nat) (wr : Bool) : Bool := if wr then idx == 0x2100 else idx / 4096 == 1 || idx == 0xF100

/-- The role and berth checks of R783 on an access: 0 or the status. Elements that belong to no berth are closed to a Tenant but
for the snapshot objects (R771, R833). -/
def rightCheck (m : Mod) (slot : Nat) (a : Addr) (wr : Bool) : Nat :=
  let x := sess m slot
  let top := a.idx / 4096
  if x.cred = 0xFFFF then (if enrolRight a.idx wr then 0 else 0x1005)
  else if top = 0xE then (if x.role ≠ 4 then 0x1005 else if !unlocked m slot then 0x5002 else 0)
  else if !(if wr then roleWrites x.role a.idx a.sub else roleReads x.role a.idx) then 0x1005
  else if a.idx = 0x2010 ∧ 3 ≤ x.role ∧ a.elem ≠ slot then 0x1005
  else if x.role = 3 ∧ [4, 5, 6, 0xA].contains top then
    match ownerOf m a.idx a.elem with
    | some b => if b = x.berth then 0 else 0x1006
    | none => 0x1005
  else if x.role = 3 ∧ (a.idx = 0xB010 ∨ a.idx = 0xB020) then
    (if m.snap.st ≠ 0 ∧ m.snap.scope = 2 ∧ m.snap.value = x.berth then 0 else 0x1006)
  else if x.role = 3 ∧ a.idx = 0xB100 then 0x1005
  else 0

/-! ### Absorption -/

/-- An access of a table that follows R149 to an absorbed index, or R48 for the port table: the port concerned. -/
def absorbedPort (idx sub e : Nat) : Option Nat :=
  match idx with
  | 0x3100 => if sub = 1 then none else some e
  | 0x3200 => some e
  | 0x3300 => some e
  | 0x3400 => some e
  | 0x6100 => some e
  | 0x6800 => some e
  | _ => none

end Sys2Proof.Machine
end

