-- ==== Sys2Proof/Machine/Access.lean ====
section
/-! DEFINITION. What an object reads as: the values that the module keeps in its units, over the values in force (R16, R48, R772 to
R776, and the object tables of every chapter). -/

namespace Sys2Proof.Machine

/-! ### Values the units keep -/

/-- A number, signed number, flag or byte string as a value. -/
abbrev vn (n : Nat) : Option Val := some (.nat n)
abbrev vi (x : Int) : Option Val := some (.int x)
abbrev vb (b : Bool) : Option Val := some (.nat (b01 b))
abbrev vo (b : Octets) : Option Val := some (.oct b)

/-- A signed 16-bit quantity of a sensor (R1033). -/
def sensed16 (m : Mod) (idx sub : Nat) : Int := intOf (b2 (Config.sensor idx sub 0 m.sys.elapsed))

/-- The mean input power of the n-th second of the start-up, in 0.1 W, a free value; 0 before the first second has ended (R1033). -/
def inputPower (y : Sys) (n : Nat) : Nat := if n = 0 then 0 else Config.sensor 0x1110 4 0 (y.startedAt + n * secCycles) % 65536

/-- Input energy since start-up in J, from the power of each second, saturating (R1033). -/
def inputEnergy (y : Sys) : Nat :=
  min (2 ^ 64 - 1) (((List.range ((y.elapsed - y.startedAt) / secCycles + 1)).map (inputPower y)).sum / 10)

/-- Module, supply and environment: 0x1000 to 0x1110 (R951 to R953, R990, R1033). -/
def readModule (s : State) (idx sub e : Nat) : Option Val :=
  let y := s.mod.sys
  let r := if e = 1 then s.otp.rec1 else s.otp.rec0
  let sense := Config.sensor idx sub e y.elapsed
  match idx, sub with
  | 0x1000, 2 => vo s.otp.serial
  | 0x1000, 3 => vn s.otp.week
  | 0x1000, 4 => vo s.otp.birthPublic
  | 0x1000, 5 => vb y.birthOk
  | 0x1010, 1 => vo r.lot
  | 0x1010, 2 => vn r.wafer
  | 0x1010, 3 => vi r.dieX
  | 0x1010, 4 => vi r.dieY
  | 0x1010, 5 => vn r.week
  | 0x1020, 1 => vo s.flash.statement
  | 0x1020, 2 => vo s.flash.statementSig
  | 0x1100, 1 => vn y.state
  | 0x1100, 2 => vn y.step
  | 0x1100, 3 => vn y.duration
  | 0x1100, 4 => vn (y.cause + y.stopStep * 256 + y.attempt * 4096)
  | 0x1100, 5 => vn (sense % 65536)
  | 0x1100, 6 => vn (sense % 65536)
  | 0x1100, 7 => vn y.rides
  | 0x1110, 1 => vi (sensed16 s.mod idx sub)
  | 0x1110, 2 => vi (sensed16 s.mod idx sub)
  | 0x1110, 3 => vi (sensed16 s.mod idx sub)
  | 0x1110, 4 => vn (inputPower y ((y.elapsed - y.startedAt) / secCycles))
  | 0x1110, 5 => vn (sense % 65536)
  | 0x1110, 6 => vn (inputEnergy y)
  | _, _ => none

/-- Sessions, management ports and credentials: 0x2000 to 0x2100 (R793 to R797, R850). -/
def readSession (s : State) (idx sub e : Nat) : Option Val :=
  let m := s.mod
  let x := sess m e
  match idx, sub with
  | 0x2000, 5 => vn ((List.range 32).filter fun i => (sess m i).state != 0).length
  | 0x2000, 6 => vn m.mgmt.pilot
  | 0x2000, 0x0A => vn m.mgmt.relay.length
  | 0x2010, 1 => vn x.state
  | 0x2010, 2 => vn x.id
  | 0x2010, 3 => vn x.role
  | 0x2010, 4 => vn x.cred
  | 0x2010, 5 => vn x.bpid
  | 0x2010, 6 => vn (if x.state = 0 then 0 else match x.path with
      | .mgmt k => 0x40 + k.val
      | .clear p => p.val
      | .mch p => p.val ||| 0x80)
  | 0x2010, 7 => vn x.openedTime
  | 0x2010, 8 => vn x.requestTime
  | 0x2010, 9 => vn x.hi
  | 0x2010, 0x0A => vn x.pend.length
  | 0x2020, 2 => vo (Config.serialMac s.otp.serial e)
  | 0x2020, 0x0A => vb (tget false m.mgmt.linkUp e)
  | 0x2030, 3 => vn (tget ({} : Intercept) m.mgmt.icept e).sources.length
  | 0x2040, 3 => vn ((tget none m.mgmt.grants e).elim 0 (·.2.1))
  | 0x2040, 4 => vn ((tget none m.mgmt.grants e).elim 0 (·.2.2))
  | 0x2100, 7 => vn (credState m e)
  | 0x2100, 9 => vn (tget 0 m.mgmt.lastUse e)
  | _, _ => none

/-- Lanes, ports, Gelix framing, defects: 0x3000 to 0x3310 (R79 to R86, R149, R193 to R195). A line port in frame mode reads 0 on
the ro subindices of 0x3200. -/
def readPort (m : Mod) (idx sub e : Nat) : Option Val :=
  match idx, sub with
  | 0x3000, 4 => vn (laneState m e)
  | 0x3000, 5 => vn (laneSnr m e)
  | 0x3100, 1 => vn (width m e)
  | 0x3100, 6 => vn (portStateWord m e)
  | 0x3100, 7 => vn (port m e).deskew
  | 0x3100, 8 => vn (port m e).skew
  | 0x3100, 9 => vn (rateCarried m e)
  | 0x3100, 0x10 => vn (port m e).fault
  | 0x3100, 0x11 => vn (portConfigWord m e)
  | 0x3200, 0 => none
  | 0x3200, 6 => if isGelix m e then vn (alignmentWord m e) else vn 0
  | 0x3200, 0x15 => if isGelix m e then vn (rxOf m e).stat else vn 0
  | 0x3200, 4 => if isGelix m e then none else vo (zeros 64)
  | 0x3200, n => if isGelix m e ∨ n = 1 ∨ n = 2 ∨ n = 3 ∨ n = 5 then none else vn 0
  | 0x3300, 1 => vn (rawDefects m e % 32 + rawDefects m e / 65536 * 65536 + (if isGelix m e then bits (rawDefects m e) 5 11 * 32 else 0))
  | 0x3300, 2 => vn (reportedDefects m e % 32 + reportedDefects m e / 65536 * 65536 + (if isGelix m e then bits (reportedDefects m e) 5 11 * 32 else 0))
  | 0x3300, 6 => if isGelix m e then none else vn 0
  | 0x3300, 7 => vb (isGelix m e && portEnabled m e && rdiCause m e)
  | 0x3310, 4 => vb (port m e).fwd
  | _, _ => none

/-- The PM tables 0x3400 to 0x3430 (R196 to R199). -/
def readPm (m : Mod) (idx sub e : Nat) : Option Val :=
  if idx = 0x3400 then
    let x := pmOf m e
    match sub with
    | 4 => vn x.lastClass
    | 5 => vn x.lastErrored
    | 6 => vn x.lastRei
    | 7 => vb x.neUnavail
    | 8 => vb x.feUnavail
    | 9 => vn (sesThreshold (width m e))
    | 0x0A => vn (nominalFrames (width m e))
    | _ => none
  else if sub = 0 then none
  else if idx = 0x3410 then
    let x := pmOf m (e / 128)
    vn (binValue (if e % 128 = 0 then x.cur15 else x.hist15.getD (e % 128 - 1) {}) sub)
  else if idx = 0x3420 then
    let x := pmOf m (e / 2)
    vn (binValue (if e % 2 = 0 then x.cur24 else x.prev24) sub)
  else if idx = 0x3430 then
    let b := (pmOf m (e / 131072)).hist1.getD (e % 131072 - 1) {}
    vn (if b.lost then 0 else binValue b sub)
  else none

/-- Associations, keys, switches and KEKs: 0x4000 to 0x4100, 0x4300 (R277 to R285, R326). -/
def readAssoc (m : Mod) (idx sub e : Nat) : Option Val :=
  let a := if idx = 0x4010 then e / 2 else e
  let x := assoc m a
  let ty := aType m a
  let rx := ty = 2 ∨ ty = 6
  let y := x.slot (e % 2)
  let kf := tget ({} : KeyFilter) m.filters e
  match idx, sub with
  | 0x4000, 0x0C => vn (assocState m a)
  | 0x4000, 0x0D => vn (if isTx ty then (x.slot x.txPhase).next else 0)
  | 0x4000, 0x0E => vn (if rx then x.lowest else 0)
  | 0x4000, 0x0F => vn (if rx then x.bitmap else 0)
  | 0x4000, 0x10 => vn (if rx then x.high else 0)
  | 0x4010, 3 => vn y.kep
  | 0x4010, 5 => vn (slotStatus m a (e % 2))
  | 0x4010, 7 => vn (if ty = 4 then y.hi.getD (2 ^ 64 - 1) else 0)
  | 0x4040, 4 => vn (if isTx ty then x.sw else 0)
  | 0x4040, 5 => vn (if isTx ty then 1 - x.txPhase else 0)
  | 0x4040, 6 => vn (if isTx ty then x.notice else 0)
  | 0x4040, 7 => vn (if isTx ty then x.lastSwitch else 0)
  | 0x4040, 8 => vn (if isTx ty then x.switches else 0)
  | 0x4040, 9 => vn (if isTx ty then x.knrWait else 0)
  | 0x4040, 0x0A => vb (ty == 4 && decide (aPort m a < 64) && knrOf m a)
  | 0x4100, 3 => vn (kekState m e)
  | 0x4100, 4 => vo (kekCheck m e)
  | 0x4100, 5 => vn (kek m e).failures
  | 0x4300, 1 => vn m.tether.vault.bootEpoch
  | 0x4300, 2 => vb m.sys.epochRestarted
  | 0x4300, 3 => vn kf.bits.length
  | 0x4300, 4 => vn kf.keys
  | 0x4300, 5 => vn (falseMatch m e)
  | _, _ => none

/-- Cipher engines: 0x4200 to 0x4240 (R382 to R387). -/
def readCipher (m : Mod) (idx sub e : Nat) : Option Val :=
  let b := bank m e
  let lanes (k : Nat) : Nat := mask ((List.range 6).filter fun i => (tget ({} : CUnit) (bank m k).lanes i).st == 0)
  let u := pipeAt m e
  let h := entropyOf m e
  let srcState (failed : Bool) : Nat := if failed then 2 else if h.tested then 1 else 0
  match idx, sub with
  | 0x4200, 1 => vn (mask b.inService)
  | 0x4200, 2 => vn (b.spare.getD 0xFF)
  | 0x4200, 3 => vn b.active
  | 0x4200, 4 => vn (160000000 * b.active)
  | 0x4200, 5 => vn (bankDemand m [] e)
  | 0x4200, 0x0B => vn (mask ((List.range 16).filter fun i => (tget ({} : CUnit) b.pairs i).st == 0))
  | 0x4210, 2 => vb (entropyOf m (e / 2)).failA
  | 0x4210, 3 => vn (maskedCommit m [] e)
  | 0x4210, 5 => vn (lanes (e * 2))
  | 0x4210, 6 => vn (lanes (e * 2 + 1))
  | 0x4220, 1 => vn ((bank m (e / 14)).shown (.pipeline (Fin.ofNat 14 e)))
  | 0x4220, 2 => vn u.faults
  | 0x4220, 3 => vn u.last
  | 0x4220, 4 => vn u.lastTime
  | 0x4220, 5 => vn u.cause
  -- the duration of the self-tests: a free value within the times of R378 (log 8)
  | 0x4240, 2 => vn (if h.tested then 1 + Config.sensor 0x4240 2 e m.sys.startedAt % 130000 else 0)
  | 0x4230, 1 => vn (srcState h.failA)
  | 0x4230, 2 => vn (srcState h.failB)
  | 0x4230, 5 => vb h.reserve
  | _, _ => none

/-- Classification and learning: 0x5100 to 0x5210 (R440 to R448); query values are the session's. -/
def readClass (m : Mod) (slot idx sub e : Nat) : Option Val :=
  let q := tget (zeros 17) (sess m slot).query e
  let t := (clsOf m (e / 8)).prefixes.filter fun p => p.table == e % 8
  let c := clsOf m e
  match idx, sub with
  | 0x5100, 4 => vn (t.filter fun p => !p.v6).length
  | 0x5100, 5 => vn (t.filter fun p => p.v6).length
  | 0x5100, 6 => vn (tableUsed m e)
  | 0x5110, 3 => vo q
  | 0x5110, 4 => vo (queryResult m e q)
  | 0x5120, 1 => vo (match slotAt m e with
      | some (p, false) => prefixBytes p
      | _ => zeros 24)
  | 0x5120, 2 => vn (match slotAt m e with
      | some (_, false) => 1
      | some (_, true) => 2
      | none => 0)
  | 0x5120, 3 => vn ((slotAt m e).elim 0 (·.1.table))
  | 0x5130, 1 => vn (bankUsed m (e / 8) (e % 8))
  | 0x5200, 1 => vn c.learn.length
  | 0x5200, 2 => vn ((c.learn.head?.map (·.seq)).getD 0)
  | 0x5200, 3 => vn ((c.learn.getLast?.map (·.seq)).getD 0)
  | 0x5200, 7 => vn c.held.length
  | 0x5200, 8 => vn (heldBytes c)
  | 0x5210, 1 => (learnAt m e).map fun x => .oct x.bytes
  | _, _ => none

/-- Queues, nodes, gates and the bound: 0x6000 to 0x6830 (R500 to R506, R544 to R549). -/
def readQueue (m : Mod) (idx sub e : Nat) : Option Val :=
  let x := queue m e
  let g := gate m e
  let n := node m e
  match idx, sub with
  | 0x6000, 0x0F => vn (top32 (limitOf m e 0))
  | 0x6000, 0x10 => vn (queueStateWord m e)
  | 0x6000, 0x11 => vn (servedRate m e)
  | 0x6000, 0x12 => vn (servedPir m e)
  | 0x6000, 0x13 => vi (queue (refillQueue m e) e).tokC
  | 0x6000, 0x14 => vi (if qMode m [] e = 1 then (queue (refillQueue m e) e).tokP else 0)
  | 0x6000, 0x15 => vn (backlog m e)
  | 0x6000, 0x16 => vn x.frames.length
  | 0x6000, 0x17 => vn (committedPeak m [] e)
  | 0x6000, 0x18 => vn (cellsHeld m fun d => d.queue == e)
  | 0x6100, 8 => vn (scaleOf m [] e)
  | 0x6100, 9 => vn (if (port m e).up then paceRate m [] e else 0)
  | 0x6100, 0x0A => vn (boundQueues m [] e).length
  | 0x6200, 4 => vn n.rate
  | 0x6200, 5 => vi (node (refillNode m e) e).tokens
  | 0x6200, 6 => vn (b01 n.lowering)
  | 0x6200, 7 => vn (nodeQueues m e).length
  | 0x6200, 8 => vn ((nodeQueues m e).foldl (fun s q => s + backlog m q) 0)
  | 0x6800, 9 => vb g.force.on
  | 0x6800, 0x0A => vn g.force.cycle
  | 0x6800, 0x0B => vn g.force.base
  | 0x6800, 0x0C => vn g.force.entries.length
  | 0x6800, 0x0D => vn g.force.fitted
  | 0x6800, 0x0E => vn (gateStateWord m e)
  | 0x6800, 0x0F => vn (if g.pend.isSome then g.swap else 0)
  | 0x6800, 0x10 => vn g.swaps
  | 0x6800, 0x11 => vn (maxDebit m [] e)
  | 0x6800, 0x12 => vo g.force.limits
  | 0x6818, 1 => vn (((gate m (e / 1024)).force.entries.getD (e % 1024) (0xFF, 100000)).1)
  | 0x6818, 2 => vn (((gate m (e / 1024)).force.entries.getD (e % 1024) (0xFF, 100000)).2)
  | 0x6820, 0 => none
  | 0x6820, k => vn (classFigure m e k)
  | 0x6830, 0 => none
  | 0x6830, k => vn (queueFigure m e k)
  | _, _ => none

/-- Network time, triggers, captures, frequency reference: 0x7000 to 0x7100 (R613 to R618, R992). -/
def readTime (s : State) (idx sub e : Nat) : Option Val :=
  let m := s.mod
  let t := m.time
  match idx, sub with
  | 0x7000, 1 => vn (now m)
  | 0x7000, 2 => vn t.c0.inc
  | 0x7000, 6 => vn t.state
  | 0x7000, 7 => vn t.src
  | 0x7000, 8 => vn t.lastStep
  | 0x7000, 9 => vn t.steps
  | 0x7000, 0x0A => vi (Int.tdiv t.c0.slew 4294967296)
  | 0x7000, 0x0B => vn m.tether.runtime
  | 0x7000, 0x0C => vb t.lock1
  | 0x7000, 0x0D => vn t.lockFaults
  | 0x7000, 0x0E => vb m.sys.runtimeRestored
  | 0x7010, 5 => vn (match t.leaseEnd with
      | some x => ceilDiv (x - m.sys.elapsed) secCycles
      | none => 0)
  | 0x7010, 6 => vi (clampInt (-2147483648) 2147483647 t.offset)
  | 0x7010, 7 => vn (top32 t.delay)
  | 0x7010, 9 => vi (clampInt (-32768) 32767 t.utc)
  | 0x7020, 9 => vo (Config.serialClock s.otp.serial)
  | 0x7030, 1 => vn (corrections m e).1
  | 0x7030, 2 => vn (corrections m e).2
  | 0x7030, k => if 3 ≤ k ∧ !portTimeHas m k e then vn 0 else none
  | 0x7050, 2 => vn (capture m e).recs.length
  | 0x7050, 3 => (capture m e).recs.head?.map .oct
  | 0x7100, 2 => vn m.sys.refInForce
  | 0x7100, 3 => vn m.sys.refState
  | 0x7100, 4 => vi (steeringNow m.sys)
  | 0x7100, 5 => vb (m.sys.refValid.testBit 1)
  | 0x7100, 6 => vb (m.sys.refValid.testBit 2)
  | 0x7100, 7 => vn m.sys.refLosses
  | 0x7100, 8 => vb m.sys.keel
  | _, _ => none

/-- Stowage: 0x8000 to 0x8020 (R671 to R675). -/
def readStow (m : Mod) (idx sub e : Nat) : Option Val :=
  let x := stow m e
  let r := (stow m (e / 64)).recs[e % 64]?
  match idx, sub with
  | 0x8000, 3 => vn (stowStateWord m e)
  | 0x8000, 4 => vn x.capacity
  | 0x8000, 5 => vn x.metaBits
  | 0x8000, 6 => vn (treeDepth (inf m 0x8000 2 e))
  | 0x8000, 7 => vn x.restarts
  | 0x8000, 0x0B => vn (refusedCount m e)
  | 0x8000, 0x0C => vn (parkCommit m [] e)
  | 0x8000, 0x0F => vn x.recs.length
  | 0x8010, 8 => vn (regionState m e)
  | 0x8010, 9 => vn (lostNow m (e / 16) (e % 16))
  | 0x8020, 1 => vn (r.elim 0xFF (·.region))
  | 0x8020, 2 => vn (r.elim 0 (·.first))
  | 0x8020, 3 => vn (r.elim 0 (·.count))
  | 0x8020, 4 => vn (r.elim 0 (·.cause))
  | 0x8020, 5 => vn (r.elim 0 (·.time))
  | 0x8020, 6 => vb (r.elim false (·.released))
  | _, _ => none

/-- Tamper, responses, journal: 0x9000 to 0x9120 (R905 to R910). -/
def readTamper (s : State) (idx sub_ e : Nat) : Option Val :=
  let m := s.mod
  let t := m.tether
  let row := sourceRow e
  let x := m.ev.journal.find? fun y => y.num % 2 ^ 32 == e
  let z := m.ev.seals.find? fun y => y.num == e
  let part (i : Nat) : Option Val := match z with
    | some y => if y.signature = [] then none else vo (sub (fit 17088 y.signature) (5696 * i) 5696)
    | none => none
  match idx, sub_ with
  | 0x9000, 1 => vn (tamperCount s.otp)
  | 0x9000, 2 => vn (tamperFlags s)
  | 0x9000, 3 => vn s.otp.mirror0
  | 0x9000, 4 => vn s.otp.mirror1
  | 0x9000, 5 => vn m.sys.pastSaturation
  | 0x9010, 2 => vn row.2.2.2.1
  | 0x9010, 3 => vb row.2.1
  | 0x9010, 4 => vn row.2.2.2.2.2
  | 0x9010, 5 => vn (sourceState m e)
  | 0x9010, 7 => vn (source m e).events
  | 0x9010, 8 => vn (source m e).last
  | 0x9030, 1 => vn (if t.swapEnd.isSome then inf m 0x9030 1 0 else 0)
  | 0x9030, 2 => vn (t.swapEnd.elim 0 fun c => ceilDiv (c - m.sys.elapsed) secCycles)
  | 0x9030, 3 => vn (Config.sensor 0x9030 3 0 m.sys.elapsed % 65536)
  | 0x9030, 4 => vb t.cellPresent
  | 0x9040, 2 => vn (if s.otp.retired then 2 else if m.mgmt.retireBy.isSome then 1 else 0)
  | 0x9100, 1 => x.map fun y => .oct (fit 72 (b8 y.num ++ y.ev.bytes))
  | 0x9110, 1 => z.map fun y => .nat y.entry
  | 0x9110, 2 => z.map fun y => .oct y.chain
  | 0x9110, 3 => part 0
  | 0x9110, 4 => part 1
  | 0x9110, 5 => part 2
  | 0x9110, 6 => z.map fun y => .nat (bitAt y.unsigned 0 + bitAt y.pending 1)
  | 0x9120, 1 => vn ((m.ev.journal.getLast?.map (·.num)).getD 0)
  | 0x9120, 2 => vn m.ev.newest
  | 0x9120, 3 => vn m.ev.mark
  | 0x9120, 4 => vn m.ev.sealsIssued
  | 0x9120, 5 => vn (if t.vault.headValid then t.vault.headNum else t.headNum)
  | _, _ => none

/-- Berths: 0xA000 to 0xA020 (R714 to R718). -/
def readBerth (m : Mod) (idx sub e : Nat) : Option Val :=
  let x := berth m e
  let b := e / 4
  let basin := e % 4
  match idx, sub with
  | 0xA000, 4 => vn (berthStateWord m e)
  | 0xA000, 5 => vn x.gen
  | 0xA000, 7 => vn x.resets
  | 0xA000, 8 => vb (infB m 0xA000 2 e)
  | 0xA000, 9 => vn (bpidOf m e)
  | 0xA010, 0 => none
  | 0xA010, 0x0D => vn (overFlags m e)
  | 0xA010, k =>
    if 7 ≤ k then vn (useOf m b basin (k - 6))
    else if b = 0 then vn (shareOf m [] 0 basin k)
    else none
  | 0xA020, 1 => vn x.started
  | 0xA020, 2 => vn x.completed
  | 0xA020, 3 => vn x.mode
  | 0xA020, 4 => vn x.oldGen
  | 0xA020, 5 => vn x.discarded
  | 0xA020, 6 => vn x.items
  | 0xA020, 7 => vn x.held
  | 0xA020, 8 => vn x.slots
  | 0xA020, 9 => vb x.traceable
  | _, _ => none

/-- Snapshots and alarm pins: 0xB000 to 0xB100 (R853 to R855). -/
def readSnap (m : Mod) (idx sub e : Nat) : Option Val :=
  let x := m.snap
  match idx, sub with
  | 0xB000, 5 => vn (drainAll m).snap.st
  | 0xB000, 6 => vn x.seq
  | 0xB000, 7 => vn x.time
  | 0xB000, 0x0A => vn (drainAll m).snap.flags
  | 0xB010, 1 => (snapWord m (e / 2 ^ 28) (e % 2 ^ 28)).map .nat
  | 0xB020, 1 => vn (tget [] x.words e).length
  | 0xB020, 2 => vn (tget 0 (drainAll m).snap.written e)
  | 0xB020, 3 => vn (tget 0 (drainAll m).snap.oldest e)
  | 0xB020, 5 => vn (tget 0 (drainAll m).snap.archived e)
  | 0xB100, 5 => vb (tget ({} : Pin) m.ev.pins e).asserted
  | _, _ => none

/-- Expert access: 0xE000 to 0xE200 (R851, R852); its values are the session's. The window and the indirect data word are read by
their own rules. -/
def readExpert (m : Mod) (slot idx sub : Nat) : Option Val :=
  let x := sess m slot
  match idx, sub with
  | 0xE000, 1 => vb (unlocked m slot)
  | 0xE000, 2 => vb (m.mgmt.debugBy.contains slot)
  | 0xE010, 1 => vo x.locQuery
  | 0xE010, 2 => vo x.locResult
  | 0xE200, 1 => vn x.indirect
  | _, _ => none

/-- Firmware, attestation, service identity: 0xF000 to 0xF300 (R954 to R957). Signature parts and reports are the session's. -/
def readFirmware (s : State) (slot idx sub_ e : Nat) : Option Val :=
  let m := s.mod
  let fw := slotOfFlash s.flash e
  let part (b : Octets) (i : Nat) : Option Val := vo (sub (fit 17088 b) (5696 * i) 5696)
  let v := m.tether.vault
  match idx, sub_ with
  | 0xF000, 1 => vn (slotState s e)
  | 0xF000, 2 => vn (hdrVersion fw.header)
  | 0xF000, 3 => vn (hdrSecurity fw.header)
  | 0xF000, 4 => vo (slotDigest s e)
  | 0xF000, 5 => vb fw.coSigned
  | 0xF000, 6 => vn (hdrKey fw.header)
  | 0xF010, 1 => vn m.fw.length
  | 0xF010, 3 => vn m.fw.staging
  | 0xF010, 4 => vn m.fw.cause
  | 0xF010, 8 => vn m.fw.running
  | 0xF010, 9 => vn s.flash.boot
  | 0xF010, 0x0A => vn s.otp.rollback
  | 0xF010, 0x0B => vb s.flash.coRequired
  | 0xF010, 0x0C => vn s.otp.revoked
  | 0xF100, 1 => vo (configDigest m)
  | 0xF100, 2 => vo (sess m slot).report
  | 0xF100, 3 => part (sess m slot).reportSig 0
  | 0xF100, 4 => part (sess m slot).reportSig 1
  | 0xF100, 5 => part (sess m slot).reportSig 2
  | 0xF100, 6 => vn m.mgmt.reports
  | 0xF200, 2 => vn v.svcState
  | 0xF200, 3 => vo v.svcPublic
  | 0xF200, 4 => vo m.fw.request
  | 0xF200, 5 => part m.fw.requestSig 0
  | 0xF200, 6 => part m.fw.requestSig 1
  | 0xF200, 7 => part m.fw.requestSig 2
  | 0xF200, 8 => vo m.fw.certBody
  | 0xF200, 9 => vo m.fw.certSig
  | 0xF300, 1 => vo s.flash.anchor
  | 0xF300, 2 => vb (s.flash.anchor != zeros 32)
  | _, _ => none

/-- The value a unit keeps for an object, where one does. -/
def unitValue (s : State) (slot idx sub e : Nat) : Option Val :=
  let m := s.mod
  match idx / 4096 with
  | 1 => readModule s idx sub e
  | 2 => readSession s idx sub e
  | 3 => if 0x3400 ≤ idx then readPm m idx sub e else readPort m idx sub e
  | 4 => if 0x4200 ≤ idx ∧ idx < 0x4300 then readCipher m idx sub e else readAssoc m idx sub e
  | 5 => readClass m slot idx sub e
  | 6 => readQueue m idx sub e
  | 7 => readTime s idx sub e
  | 8 => readStow m idx sub e
  | 9 => readTamper s idx sub e
  | 0xA => readBerth m idx sub e
  | 0xB => readSnap m idx sub e
  | 0xE => readExpert m slot idx sub
  | 0xF => readFirmware s slot idx sub e
  | _ => none

/-! ### Reading -/

/-- An object whose values may be absent though its element exists: a snapshot word not held (R838), a capture with none waiting
(R608), a seal's signature not held (R909). -/
def mayLack (idx sub : Nat) : Bool :=
  (idx == 0xB010 && sub == 1) || (idx == 0x7050 && sub == 3) || (idx == 0x9110 && 3 ≤ sub && sub ≤ 5)

/-- The time of the second that an element of the 1 s history shows, or would show where no record stands in it: counted back from the newest
record, or from the last second that has ended (DESIGN CHOICE, log 51). -/
def historyTime (m : Mod) (e : Nat) : Nat :=
  let x := pmOf m (e / 131072)
  let n := e % 131072 - 1
  match x.hist1[n]? with
  | some b => b.start
  | none => (((x.hist1.head?.map (·.start / nsPerSec)).getD (x.done - 1)) + 86400 - n) * nsPerSec

/-- An element of the 1 s history that cannot be read: it lies in a lost range of the PM history region (R192, R663), or its port is not ready or the
engine refuses the pilot (R621, R652, R667; 0x1002 there: DESIGN CHOICE, log 51). -/
def historyLost (m : Mod) (e : Nat) : Bool :=
  let p := e / 131072
  (historyLine m p (historyTime m e)).any fun l => (lostAt m (harbourOf p) l).isSome || historyShut m (harbourOf p) 1

/-- The state check of a read (last of R783): 0 or the status; the objects of a stopped pilot answer busy (R740). -/
def readState (s : State) (idx sub e : Nat) : Nat :=
  let m := s.mod
  if (objHarbour idx e).any (fun h => !pilotUp m h) then 0x3002
  else
  let pmPort := if idx = 0x3400 then some e else if idx = 0x3410 then some (e / 128) else if idx = 0x3420 then some (e / 2)
    else if idx = 0x3430 then some (e / 131072) else none
  match pmPort with
  | some p => if portMode m p ≠ 1 then 0x4002 else if idx = 0x3430 ∧ historyLost m e then 0x1002 else 0
  | none => if idx = 0xF200 ∧ 5 ≤ sub ∧ sub ≤ 7 ∧ !m.sys.birthOk then 0x4002 else 0

/-- The value of an object for a session: its pending value where it has written one (R16, R778), else what the unit keeps, else the
value in force. -/
def valueOf (s : State) (slot idx sub e : Nat) : Option Val :=
  match tfind (sess s.mod slot).pend (okey idx sub e) with
  | some v => some v
  | none =>
    match unitValue s slot idx sub e with
    | some v => some v
    | none => if mayLack idx sub then none else some (look s.mod [] idx sub e)

/-- The checks of R783 on a read of an address: the object's row, or the status. -/
def readCheck (s : State) (slot : Nat) (a : Addr) : Except Nat Obj :=
  match addrCheck s.mod a with
  | some r => .error r.status
  | none =>
    match objRow a.idx a.sub with
    | none => .error 0x1001
    | some o =>
      if accessOf o a.idx a.elem = .wo then .error 0x1004
      else
        let r := rightCheck s.mod slot a false
        if r ≠ 0 then .error r
        else
          let t := readState s a.idx a.sub a.elem
          if t ≠ 0 then .error t else .ok o

/-- A plain read of an address by a session: the object's row and value, or the status. -/
def readObject (s : State) (slot : Nat) (a : Addr) : Except Nat (Obj × Val) :=
  match readCheck s slot a with
  | .error r => .error r
  | .ok o =>
    match valueOf s slot a.idx a.sub a.elem with
    | some v => .ok (o, v)
    | none => .error 0x1002

end Sys2Proof.Machine
end

