-- ==== Sys2Proof/Machine/Expert.lean ====
section
/-! DEFINITION. Expert access: grants and the debug access port, the register window, the locator, the indirect pair with the tether and
SerDes registers (R799 to R822, R902 to R904). -/

namespace Sys2Proof.Machine

/-! ### Grants and the debug access port -/

/-- 0x2040:01: an Officer grants expert access to a session slot, or revokes it with 0 (R799, R800, R802, R803). -/
def grantExpert (m : Mod) (officer slot minutes : Nat) : Mod × Nat :=
  let x := sess m slot
  if minutes = 0 then (endGrant m slot, 0)
  else if x.state ≠ 2 ∨ x.role ≠ 4 then (m, 0x4002)
  else
    let g := (m.sys.elapsed + minutes * 60 * secCycles, now m + minutes * 60 * nsPerSec, officer)
    let m1 := setNat { m with mgmt := { m.mgmt with grants := tset none m.mgmt.grants slot (some g) } } 0x2040 1 slot minutes
    (raise m1 0xC101 srcModule 0 (b4 x.id ++ b2 x.cred ++ b2 officer ++ b1 1), 0)

/-- EXPERT_GRANT_EXPIRE: time runs to the end of the grant, which ends it (R802). -/
def expireGrant (m : Mod) (slot : Nat) : Mod :=
  match tget none m.mgmt.grants slot with
  | none => m
  | some (e, _, _) => endGrant (advanceTo m e) slot

/-- 0xE000:02: the debug access ports opened or closed by an unlocked session (R804). -/
def writeDebug (m : Mod) (slot : Nat) (v : Bool) : Mod × Nat :=
  let id := (sess m slot).id
  if !v then (closeDebug m slot id, 0)
  else if !infB m 0x2040 2 slot then (m, 0x1005)
  else if m.mgmt.debugBy.contains slot then (m, 0)
  else
    let m1 := { m with mgmt := { m.mgmt with debugBy := m.mgmt.debugBy ++ [slot] } }
    (if m.mgmt.debugBy = [] then raise (raise m1 0xC102 srcModule 0 (b4 id ++ b1 0 ++ b1 1)) 0xC102 srcModule 0 (b4 id ++ b1 1 ++ b1 1) else m1, 0)

/-! ### The register space -/

/-- The outcome of a register access: a word with the module after it, or a status with the values of its detail. -/
inductive Reach where
  | ok (v : Nat) (m : Mod)
  | fail (status : Nat) (vals : List Nat) (m : Mod)

/-- A bus error: counted, with its harbour and address (R807, R815, R851). -/
def busError (m : Mod) (h addr : Nat) : Reach :=
  .fail 0x5001 [h, addr] (setNat (setNat (bump m 0xE000 4 0 1) 0xE000 5 0 addr) 0xE000 6 0 h)

/-- The kind and basin of the block an address lies in (R805, R807, R812). -/
def blockAt (m : Mod) (h addr : Nat) : Option (Nat × Nat) :=
  if 0x10000000 ≤ addr ∧ addr < 0x14000000 then
    let b := (addr - 0x10000000) / 0x1000000
    let k := addr % 0x1000000 / 0x100000
    if b / 2 = h ∧ k ≤ 5 then some (k, b) else none
  else match addr / 0x100000 with
    | 0x200 => some (8, 0xFF)
    | 0x210 => some (9, 0xFF)
    | 0x220 => some (0x0A, 0xFF)
    | 0x230 => if m.mgmt.debugBy = [] then none else some (0x0B, 0xFF)
    | _ => none

/-- SHADOW_STATE of a block (R811): draining while a snapshot has words of its basin to write, and loaded until the first of them is written;
harbour-shared blocks drain with the harbour's lower basin (R826). -/
def shadowState (m : Mod) (h basin : Nat) : Nat :=
  let b := if basin = 0xFF then h * 2 else basin
  let x := (drainAll m).snap
  if x.st = 2 ∧ tget 0 x.written b < (tget [] x.words b).length then (if tget 0 x.written b = 0 then 1 else 2) else 0

/-- A session with words latched at a register's other addresses (R810). -/
def latchWords (x : Sess) (key : Nat) (words : List Nat) : Sess :=
  let fresh := (words.drop 1).zipIdx.map fun w => (key + 4 * (w.2 + 1), w.1)
  { x with latch := fresh ++ x.latch.filter fun e => !(fresh.map (·.1)).contains e.1 }

/-- A word of a register that begins at a key and holds some words (R810): its lowest word latches the others for the session, which
then reads those. -/
def readLatched (m : Mod) (slot key base : Nat) (words : List Nat) : Reach :=
  let x := sess m slot
  let i := (key - base) / 4
  if i = 0 then .ok (words.headD 0) (setSess m slot (latchWords x base words))
  else match x.latch.find? (·.1 == key) with
    | some e => .ok e.2 m
    | none => .ok (words.getD i 0) m

/-- The value in force or the state value of an object, as bytes. -/
def shownBytes (s : State) (slot idx sub e : Nat) : Octets :=
  match objRow idx sub with
  | some o => encodeVal o.ty ((unitValue s slot idx sub e).getD (look s.mod [] idx sub e))
  | none => []

/-- The lane counters that a register's values show, brought up to now. -/
def countShown (m : Mod) (fields : List (Nat × Nat × Nat × Nat × Nat)) : Mod :=
  fields.foldl (fun m f => if f.1 = 0x3000 then countNow m f.2.2.1 else m) m

/-- The words of a register of the configuration or state part (R810). -/
def registerWords (s : State) (slot words : Nat) (octets : Bool) (fields : List (Nat × Nat × Nat × Nat × Nat)) : List Nat :=
  if octets then
    let bs := fields.flatMap fun f => shownBytes s slot f.1 f.2.1 f.2.2.1
    (List.range words).map fun i => natOf (fit 4 (sub bs (4 * i) 4))
  else
    let v := fields.foldl (fun a f => a + natOf (shownBytes s slot f.1 f.2.1 f.2.2.1) % 2 ^ f.2.2.2.2 * 2 ^ f.2.2.2.1) 0
    (List.range words).map fun i => bits v (32 * i) 32

/-- A read of a word through the window (R806 to R812, R817). -/
def windowRead (s : State) (slot h addr : Nat) : Reach :=
  let m := s.mod
  if !pilotUp m h then .fail 0x3002 [] m
  else match blockAt m h addr with
    | none => busError m h addr
    | some (k, b) =>
      let off := addr % 0x100000
      if off = 0xF0000 then .ok (k * 2 ^ 24 + b * 2 ^ 16 + Config.blockRevision k % 65536) m
      else if off = 0xF0004 then .ok (tget 0 m.mgmt.scratch (h * 2 ^ 32 + addr)) m
      else if off = 0xF0008 then .ok (shadowState m h b) m
      else if 0xF0000 ≤ off then busError m h addr
      else match Config.registerAt h addr with
        | none => busError m h addr
        | some (base, words, octets, fields) =>
          let m1 := countShown m fields
          readLatched m1 slot (h * 2 ^ 32 + addr) (h * 2 ^ 32 + min base addr) (registerWords (s.upd m1) slot words octets fields)

/-- A write of a word through the window (R806, R808, R811, R817): only SCRATCH takes one. -/
def windowWrite (m : Mod) (h addr v : Nat) : Reach :=
  if !pilotUp m h then .fail 0x3002 [] m
  else match blockAt m h addr with
    | none => busError m h addr
    | some _ =>
      let off := addr % 0x100000
      if off = 0xF0004 then
        .ok v (bump { m with mgmt := { m.mgmt with scratch := tset 0 m.mgmt.scratch (h * 2 ^ 32 + addr) v } } 0xE000 3 0 1)
      else if off = 0xF0000 ∨ off = 0xF0008 then .fail 0x1003 [h, addr] m
      else if 0xF0000 ≤ off then busError m h addr
      else match Config.registerAt h addr with
        | none => busError m h addr
        | some _ => .fail 0x1003 [h, addr] m

/-! ### The locator -/

/-- The address record of eight bytes (R772); none when reserved bits are set. -/
def addrOf (b : Octets) : Option Addr :=
  if 1 < natAt b 3 1 then none
  else some { idx := natAt b 0 2, sub := natAt b 2 1, isElem := natAt b 3 1 == 1, elem := natAt b 4 4 }

/-- The locator's result for an object (R813). -/
def locate (idx sub e : Nat) : Octets :=
  let (h, off, w, a) := Config.locate idx sub e
  b1 (if h % 3 = 2 then 0xFF else h % 3) ++ b1 (off % 32) ++ b1 (w % 80 + 1) ++ zeros 1 ++ b4 (a * 4 % 2 ^ 32)

/-- 0xE010:01: a record that names a value sets the session's query and result; any other is answered as its READ would be
(R813). -/
def locatorWrite (s : State) (slot : Nat) (record : Octets) : State × Nat :=
  match addrOf record with
  | none => (s, 0x2001)
  | some a =>
    match readObject s slot a with
    | .error r => (s, r)
    | .ok _ => (s.upd (setSess s.mod slot { sess s.mod slot with locQuery := record, locResult := locate a.idx a.sub a.elem }), 0)

/-! ### The indirect pair -/

/-- The taps of a preset: TX_PRE2, TX_PRE1, TX_MAIN, TX_POST1 (R83). -/
def presetTaps : Nat → List Nat
  | 0 => [0, 0, 64, 0]
  | 1 => [0, 4, 54, 6]
  | 2 => [0, 6, 50, 8]
  | 3 => [2, 8, 46, 8]
  | 4 => [2, 10, 42, 10]
  | 5 => [3, 12, 38, 11]
  | 6 => [0, 0, 56, 8]
  | _ => [0, 8, 56, 0]

/-- A SerDes register of a lane element: what was written to it, or what the preset in force loads (R822). The two management
elements have no preset object and start with the default preset 1. -/
def serdesReg (m : Mod) (e off : Nat) : Option Nat :=
  if off = 0x14 then some (Config.sensor 0xE200 0x14 e m.sys.elapsed % 2 ^ 32)
  else if 0x14 < off then none
  else some ((tget none m.mgmt.taps (e * 256 + off)).getD
    ((presetTaps (if e < 64 then inf m 0x3000 3 e else 1)).getD (off / 4) 0))

/-- The value a writable SerDes register holds at most: all bits of its field (R822). -/
def serdesTop (off : Nat) : Nat := if off = 0x08 then 127 else if off = 0x10 then 31 else 63

/-- The harbour of a SerDes lane element; M0 is H0's and M1 H1's (R818). -/
def serdesHarbour (e : Nat) : Nat := if e < 64 then e % 32 / 16 else e - 64

/-- TETHER_STATE (R903). -/
def tetherState (m : Mod) : Nat :=
  let t := m.tether
  let canary := match t.vault.canary with
    | .valid => 0
    | .marker => 1
    | .lost => 2
  bitAt t.retirePending 7 + bitAt t.swapEnd.isSome 6 + canary * 16 + bitAt t.zeroized 3 +
  bitAt (if t.onCell then t.loopOn else infB m 0x9000 7 0) 2 + bitAt t.onCell 0

/-- BUFFER_STATE (R904). -/
def bufferState (m : Mod) : Nat :=
  let t := m.tether
  t.lost % 256 * 2 ^ 24 + bitAt t.overflow 16 + mask ((List.range 16).filter fun i => (t.buffer[i]?.map (·.unburned)).getD false)

/-- A tether register: its first offset and its words (R902). -/
def tetherReg (m : Mod) (off : Nat) : Option (Nat × List Nat) :=
  let t := m.tether
  let one (v : Nat) : Option (Nat × List Nat) := some (off, [v])
  let sense := Config.sensor 0xE200 off 0 m.sys.elapsed % 2 ^ 32
  if 0x400 ≤ off ∧ off < 0x800 then
    one (natOf (fit 4 (sub ((t.buffer[(off - 0x400) / 64]?.map (·.ev.bytes)).getD []) ((off - 0x400) % 64) 4)))
  else if 0x40 ≤ off ∧ off < 0x60 then some (0x40, (List.range 8).map fun i => natOf (fit 4 (sub t.headChain (4 * i) 4)))
  else match off with
    | 0x00 => one (Config.blockRevision 256 % 65536)
    | 0x04 => one (tetherState m)
    | 0x08 => one (t.qAlarm % 64)
    | 0x0C => one (t.detectors % 4096)
    | 0x10 => one (t.qFault % 128)
    | 0x14 => one t.runtime
    | 0x18 => one t.runtimeAtLoss
    | 0x1C => one sense
    | 0x20 => one sense
    | 0x24 => one sense
    | 0x28 => one (bufferState m)
    | 0x2C => one t.tseq
    | 0x30 => some (0x30, [t.headNum % 2 ^ 32, t.headNum / 2 ^ 32])
    | 0x34 => some (0x30, [t.headNum % 2 ^ 32, t.headNum / 2 ^ 32])
    | _ => none

/-- A lane element and offset of an indirect address (R818). -/
def serdesAt (a : Nat) : Option (Nat × Nat) :=
  if 0x10000000 ≤ a ∧ a < 0x10000000 + 66 * 0x10000 ∧ a % 0x10000 < 0x100 then some ((a - 0x10000000) / 0x10000, a % 0x10000) else none

/-- A successful access moves the session's indirect address on by 4 (R819). -/
def stepIndirect (m : Mod) (slot : Nat) : Mod := setSess m slot { sess m slot with indirect := ((sess m slot).indirect + 4) % 2 ^ 32 }

/-- A read of 0xE200:02 (R818 to R820, R822). -/
def indirectRead (m : Mod) (slot : Nat) : Reach :=
  let a := (sess m slot).indirect
  let r :=
    if a < 0x1000 then
      match tetherReg m a with
      | some (base, words) => readLatched m slot (2 * 2 ^ 32 + a) (2 * 2 ^ 32 + base) words
      | none => busError m 0 a
    else match serdesAt a with
      | none => busError m 0 a
      | some (e, off) =>
        if !pilotUp m (serdesHarbour e) then .fail 0x3002 [] m
        else match serdesReg m e off with
          | some v => .ok v m
          | none => busError m (serdesHarbour e) a
  match r with
  | .ok v m1 => .ok v (stepIndirect m1 slot)
  | .fail st vs m1 => .fail st vs m1

/-- A write of 0xE200:02 (R818 to R820, R822). -/
def indirectWrite (m : Mod) (slot v : Nat) : Reach :=
  let a := (sess m slot).indirect
  if a < 0x1000 then (.fail 0x1003 [0, a] m)
  else match serdesAt a with
    | none => busError m 0 a
    | some (e, off) =>
      if !pilotUp m (serdesHarbour e) then .fail 0x3002 [] m
      else if 0x14 < off then busError m (serdesHarbour e) a
      else if off = 0x14 then .fail 0x1003 [serdesHarbour e, a] m
      else
        -- a reserved bit of the word takes no effect (R14)
        let m1 := { m with mgmt := { m.mgmt with taps := tset none m.mgmt.taps (e * 256 + off) (some (v % (serdesTop off + 1))) } }
        .ok v (stepIndirect (bump m1 0xE000 3 0 1) slot)

/-- A preset comes into force on a lane: the taps written to it are replaced (R83, R822). -/
def loadPreset (m : Mod) (lane : Nat) : Mod :=
  { m with mgmt := { m.mgmt with taps := (span 0 5).foldl (fun t i => tset none t (lane * 256 + 4 * i) none) m.mgmt.taps } }

end Sys2Proof.Machine
end

