-- ==== Sys2Proof/Machine/Startup.lean ====
section
/-! DEFINITION. Clocks, reset, start-up, mains loss and the reference loop (R959 to R994). -/

namespace Sys2Proof.Machine

/-- The reset record 0x1100:04 (R991). -/
def resetRecord (y : Sys) : Nat := y.cause + y.stopStep * 256 + y.attempt * 4096

/-- The alarm of the host loop, which the tether watches on through a reset (R867, R1040). -/
def loopAlarm (m : Mod) : Tbl Source := if (source m 6).alarm then [(6, { alarm := true })] else []

/-- The module as a reset leaves it before a start-up: the tether and the supply's record are kept, everything else is lost
(R968, R979, R981). -/
def bare (m : Mod) : Mod :=
  { tether := m.tether, out := m.out, drawn := m.drawn, sources := loopAlarm m,
    sys := { elapsed := m.sys.elapsed, mains := m.sys.mains, cause := m.sys.cause, stopStep := m.sys.stopStep,
             attempt := m.sys.attempt, startedAt := m.sys.startedAt },
    mgmt := { linkUp := m.mgmt.linkUp } }

/-- Step 2, items 2 to 8 (R970): the canary, the OTP mirrors, deferred bits, a recorded Retire, the boot epoch, the runtime,
the birth identity. `src` is the source B that step 2 draws from, none when both have failed; `badBit`: a bit burned did not read back. -/
def stepTwo (s : State) (src : Option Nat) (badBit : Bool) : State :=
  let m := s.mod
  let canary := m.tether.vault.canary
  -- item 2: the canary (R859)
  let s1 :=
    match canary with
    | .valid => s
    | .marker => s
    | .lost =>
      let m1 := runtimeCheck s.flash true { m with tether := { m.tether with headValid := false, vault := {} }, sys := { m.sys with tetherLostNow := true } }
      sourceEvent (s.upd m1) 14 0 0x900B srcTether 0 1 fun _ => b4 m1.tether.runtime
  let v := s1.mod.tether.vault
  let (bytes, m2) := match src with
    | some b => draw s1.mod b 16
    | none => (sha256 (s.otp.serial ++ b4 v.bootEpoch), s1.mod)
  let m3 := if canary = .valid then s1.mod
    else { m2 with tether := { m2.tether with vault := { v with canary := .valid, canaryBytes := bytes } } }
  -- items 3 and 4: the mirrors equalised, deferred bits burned (R879, R880)
  let top := max s1.otp.mirror0 s1.otp.mirror1
  let s2 : State := { s1 with otp := { s1.otp with mirror0 := top, mirror1 := top }, mod := m3 }
  let due := (m3.tether.buffer.filter (·.unburned)).length + b01 m3.tether.overflow
  let s3 := (List.range due).foldl (fun s _ => burn s) s2
  let t := s3.mod.tether
  -- a bit that does not read back is followed by the next of its mirror (R977)
  let burned := decide (0 < due) || s1.otp.mirror0 != s1.otp.mirror1
  let unread (m : Mod) : Mod := if burned && badBit then raise m 0x1002 srcModule 0 (b1 2 ++ b1 3 ++ b1 (m.sys.attempt + 1)) else m
  let s4 := s3.upd <| unread { s3.mod with tether := { t with overflow := false, buffer := t.buffer.map fun e => { e with unburned := false } } }
  -- item 5: a Retire recorded on the cell (R877)
  let s5 : State := if t.retirePending then
      { s4 with otp := { s4.otp with retired := true },
                mod := raise { s4.mod with tether := { s4.mod.tether with retirePending := false } } 0x900E srcTether 0 (b1 0) }
    else s4
  -- item 6: the boot epoch (R243, R245, R247)
  let m6 := if canary = .valid then nextEpoch s5.mod else freshEpoch src s5.mod
  -- responses of rank 1 to 3 recorded on the cell are taken as Alert (R877)
  let m6' := m6.tether.recorded.foldl (fun m i => setSource m i { source m i with inForce := 1, units := [0] }) m6
  -- item 7: the runtime (R612); item 8: the birth identity (R915, R916)
  let m7 := if canary = .lost then m6' else runtimeCheck s.flash false m6'
  let m8 := { m7 with tether := { m7.tether with zeroized := false, recorded := [] }, sys := { m7.sys with birthOk := s.otp.pufOk, retired := s5.otp.retired } }
  s5.upd (if s.otp.pufOk then m8 else raise m8 0xF010 srcModule 0 [])

/-- The alarm state the tether keeps shows in the sources after a restart (R1040). -/
def keepAlarms (m : Mod) : Mod :=
  let m1 := (List.range 6).foldl (fun m q => if m.tether.qAlarm.testBit q then setAlarm m q true else m) m
  if m.tether.qFault ≠ 0 then setAlarm m1 9 true else m1

/-- A start-up that cannot go on: *start-up failed* after a failure at step 4 or after three attempts (R977, R978). -/
def failStart (s : State) (step unit attempt : Nat) : State :=
  let m := s.mod
  s.upd { raise m 0x1002 srcModule 0 (b1 step ++ b1 unit ++ b1 attempt) with
    sys := { m.sys with state := 2, step, running := false, pilot0 := false, pilot1 := false, stopStep := step,
                        attempt := min 2 attempt, failDriven := true, cxlClock := decide (3 ≤ step) } }

/-- The source B that step 2 draws from (R245, R970): that of a harbour whose tests passed, H0's when both did. -/
def stepTwoSource (units : List Nat) : Option Nat :=
  if !units.contains 289 then some (srcB 0) else if !units.contains 291 then some (srcB 1) else none

/-- The certificate in force, whose body the vault holds and whose signature flash (R923), stands in 0xF200:08 and 09 again. -/
def installedCert (s : State) : Fw :=
  if s.mod.tether.vault.svcState = 2 then
    { s.mod.fw with certBody := s.mod.tether.vault.svcCert, certSig := s.flash.certSignature }
  else s.mod.fw

/-- Steps 4 to 7 of a start-up behind step 3 (R971 to R974), or what is left of it when step 5 fails, then true. -/
def laterSteps (s2 : State) (i : Nat) (fails5 : Bool) (units : List Nat) : State :=
  let m3 := s2.mod
  let m4 := { m3 with sys := { m3.sys with running := true, pilot0 := true, pilot1 := true, step := 4 },
                      fw := { installedCert s2 with running := i, version := hdrVersion (slotOfFlash s2.flash i).header } }
  let m5 := startJournal m4
  let m6 := if i = s2.flash.boot then m5 else raise m5 0xF005 srcModule 0 (b1 s2.flash.boot ++ b1 i ++ b1 0)
  let s6 : State := { s2 with flash := { s2.flash with boot := i }, mod := m6 }
  if fails5 then s6
  else
    -- step 5: units that fail are retired (R379); step 6: the stowage links train (R672), the configuration (R972, R973)
    let s7 := selfTests s6 units
    let m8 := restoreConfig s7.flash ([0, 1].foldl (fun m h => portState m h 1 0) s7.mod)
    -- step 7: lanes of enabled ports power up (R974)
    let m9 := powerPorts m8
    s7.upd { m9 with sys := { m9.sys with step := 7 } }

/-- A start-up from step 2 on, with the attempts that are left (R968 to R978). A failed hash or conditioner test ends it before anything else of
step 2; after a failure at step 2, 3 or 5 it begins again with reset cause 6, until three attempts have failed. What a failed attempt raised
does not outlast it (log 39). -/
def startFrom : Nat → StartTrial → State → State
  | 0, _, s => s
  | n + 1, t, s =>
    let m0 := bare s.mod
    let m1 := keepAlarms { m0 with sys := { m0.sys with state := 0, step := 2, keel := true } }
    let s1 := s.upd (raise m1 0x1003 srcModule 0 (b4 (resetRecord m1.sys)))
    let fails (step : Nat) : Bool := t.failStep == step && decide (m1.sys.attempt < t.fails)
    let again (s : State) (step unit : Nat) : State :=
      if n = 0 then failStart s step unit 3
      else startFrom n t (s.upd { s.mod with sys := { s.mod.sys with cause := 6, stopStep := step, attempt := s.mod.sys.attempt + 1 } })
    if fails 2 then again s1 2 2
    else
      let s2a := stepTwo (testSourceB s1 t.units) (stepTwoSource t.units) (t.units.contains 316)
      -- step 3: the keel locks, the time counters start at 0, the CXL reference clock is driven (R555, R1008)
      let s2 := s2a.upd { s2a.mod with sys := { s2a.mod.sys with cxlClock := true } }
      if fails 3 then again s2 3 0
      else
        -- slots left installing are invalid (R941); the boot ROM picks the image (R935)
        let fix (x : FwSlot) : FwSlot := if x.state = 1 then { x with state := 3 } else x
        let s3 : State := { s2 with flash := { s2.flash with slotA := fix s2.flash.slotA, slotB := fix s2.flash.slotB } }
        match if fails 4 then none else bootSlot s3 with
        | none => failStart s3 4 1 (s3.mod.sys.attempt + 1)
        | some i => if fails 5 then again (laterSteps s3 i true t.units) 5 2 else laterSteps s3 i false t.units

/-- A restart that begins at step 2 with a reset cause (R979). -/
def restart (s : State) (cause : Nat) (t : StartTrial) : State :=
  let m := s.mod
  startFrom 3 t (s.upd { m with sys := { m.sys with cause, stopStep := 0, attempt := 0, startedAt := m.sys.elapsed } })

/-- Mains in range for 100 ms: start-up from step 1 (R969, R977, R987). The reset cause is 0, or 1 when a power-down past the
bulk threshold left the supply's record (R979, R981). -/
def mainsApplied (s : State) (t : StartTrial) : State :=
  let m := s.mod
  if m.sys.running ∨ (m.sys.mains ∧ m.sys.state ≠ 2 ∧ m.sys.mainsLostAt.isNone) then s
  else if m.sys.state = 2 ∧ m.sys.mains then s
  else
    let kept := m.sys.cause = 1 ∧ Config.supplyRetained m.sys.elapsed
    let m1 := advance m (100 * msCycles)
    let y := { m1.sys with mains := true, mainsLostAt := none, warned := false, failDriven := false, cause := if kept then 1 else 0,
                           stopStep := 0, attempt := 0, startedAt := m.sys.elapsed }
    startFrom 3 t (s.upd { m1 with tether := { m1.tether with onCell := false }, sys := y })

/-- Ready (R975, R976): admission opens, OPEN is accepted, event 0x1001; a low QUIESCE_N is in force from the first moment. A stowage port that still
trains has found no device (R621, R672; log 31). -/
def makeReady (s : State) : State :=
  let m := s.mod
  if !m.sys.running ∨ m.sys.state ≠ 0 ∨ m.sys.step ≠ 7 then s
  else
    let dur := (m.sys.elapsed - m.sys.startedAt) / msCycles
    let m0 := [0, 1].foldl (fun m h => if (stow m h).st = 1 then portState m h 0 0 else m) m
    let m1 := { m0 with sys := { m0.sys with state := 1, step := 8, duration := dur } }
    let m2 := raise m1 0x1001 srcModule 0 (b4 dur ++ b1 m.sys.cause)
    if m.tether.quiescePin ∧ !(source m 8).alarm then sourceEvent (s.upd (setAlarm m2 8 true)) 8 0 0x9009 srcTether 0 3 fun _ => b1 1 else s.upd m2

/-! ### Mains loss -/

/-- A half-cycle below 100 V: mains is absent (R984). -/
def loseMains (m : Mod) : Mod :=
  if m.sys.mains ∧ m.sys.mainsLostAt.isNone then { m with sys := { m.sys with mainsLostAt := some m.sys.elapsed, warned := false } } else m

/-- The early warning (R984): event 0x1010, a seal, runtime and configuration to flash. -/
def earlyWarning (s : State) : State :=
  match s.mod.sys.mainsLostAt with
  | none => s
  | some t =>
    if s.mod.sys.warned || !s.mod.sys.running then s
    else
      let delay := inf s.mod 0x9050 1 0
      let m := advanceTo s.mod (t + delay * msCycles)
      let m1 := issueSeal (raise { m with sys := { m.sys with warned := true } } 0x1010 srcModule 0 (b4 delay))
      saveConfig { s with flash := { s.flash with runtime := m1.tether.runtime }, mod := m1 }

/-- Mains returns before the bulk threshold (R985). -/
def mainsBack (m : Mod) : Mod :=
  match m.sys.mainsLostAt with
  | none => m
  | some t =>
    raise { m with sys := { m.sys with mainsLostAt := none, warned := false, rides := satAdd 32 m.sys.rides 1 } } 0x1011 srcModule 0
      (b4 ((m.sys.elapsed - t) / msCycles))

/-- The bulk threshold (R986): frames, sessions, keys, stowage keys and seeds go, both harbours are held in reset, and the
tether passes to the cell with what it holds (R858). With no cell the tether loses all power (R857). -/
def powerDown (m : Mod) : Mod :=
  match m.sys.mainsLostAt with
  | none => m
  | some _ =>
    let t := { m.tether with onCell := true, runtimeAtLoss := m.tether.runtime, loopOn := infB m 0x9000 7 0,
                             responses := (List.range 15).map (responseOf m) }
    let m1 : Mod := { tether := t, out := m.out, drawn := m.drawn, sources := loopAlarm m,
                      sys := { elapsed := m.sys.elapsed, mains := false, cause := 1 } }
    if t.cellPresent then m1 else losePower m1

/-- Mains absent and no cell: all power lost (R857, R887). -/
def allPowerLost (m : Mod) : Mod := if m.tether.onCell then losePower { m with tether := { m.tether with cellPresent := false } } else m

/-! ### Resets -/

/-- The keel out of lock for 100 ns (R962). -/
def keelLost (s : State) (t : StartTrial) : State := if s.mod.sys.running then restart s 4 t else s

/-- The restart of a zeroize or Retire: the head register takes the chain head, and both harbours restart (R876, R898). A module whose start-up
has failed holds that state (R978). -/
def zeroRestart (s : State) (t : StartTrial) : State :=
  let m := s.mod
  match m.sys.zeroAt with
  | none => s
  | some (_, cause) =>
    if m.sys.state = 2 then s else
    restart (s.upd { m with tether := { m.tether with headNum := m.ev.newest, headChain := m.ev.chain, headValid := true } }) cause t

/-- 0x9050:03: a commanded restart begins with a seal (R983). -/
def commandRestart (m : Mod) : Mod × Nat :=
  if m.fw.installing || anyResetting m then (m, 0x3002)
  else
    let m1 := issueSeal m
    ({ m1 with sys := { m1.sys with restartAt := some (m.sys.elapsed + 100 * msCycles) } }, 0)

/-- The commanded restart, once the seal is signed or 100 ms have passed (R983). -/
def commandedRestart (s : State) (trial : StartTrial) : State :=
  match s.mod.sys.restartAt with
  | none => s
  | some t => restart (s.upd (if signing s.mod then advanceTo s.mod t else s.mod)) 5 trial

/-! ### Pilots -/

/-- A pilot set running or stopped. -/
def setPilot (m : Mod) (h : Nat) (on : Bool) : Mod :=
  { m with sys := if h = 1 then { m.sys with pilot1 := on } else { m.sys with pilot0 := on } }

/-- A pilot's 2 s watchdog expires: that pilot alone stops (R982). -/
def watchdog (m : Mod) (h : Nat) : Mod :=
  if m.sys.running ∧ pilotUp m h then
    let m1 := setPilot m h false
    { m1 with sys := { m1.sys with pilotDownAt := m.sys.elapsed } }
  else m

/-- The pilot runs again (R944, R982): event 0x1006, and the events its harbour held are journaled. A session pilot that
restarts before the other took over has lost its sessions. -/
def pilotBack (m : Mod) (h : Nat) : Mod :=
  if m.sys.running ∧ !pilotUp m h ∧ m.fw.activating.isNone then
    let m1 := resumeJournal (setPilot m h true) (h == 0) (h == 1)
    let m2 := raise m1 0x1006 (srcH h) 0 (b1 h)
    if m.mgmt.pilot = h then endSessions m2 5 fun _ => true else m2
  else m

/-! ### The reference loop -/

/-- The reference chosen by 0x7100:01 includes this one (R963). -/
def refChosen (m : Mod) (r : Nat) : Bool := (r == 1 || r == 2) && (inf m 0x7100 1 0 == r || inf m 0x7100 1 0 == 3)

/-- A selected reference meets its lock criterion (R963, R964); a lower-ranked one takes over only from holdover (R965). -/
def refLock (m : Mod) (r : Nat) : Mod :=
  if refChosen m r ∧ (m.sys.refInForce = 0 ∨ r ≤ m.sys.refInForce ∨ m.sys.refState = 3) then
    let m1 := { m with sys := { m.sys with refInForce := r, refState := 2, refValid := setBit m.sys.refValid r true } }
    if m.sys.refInForce = r then m1 else raise m1 0x1004 srcModule 0 (b1 r ++ b1 2)
  else m

/-- The reference in force is lost: holdover on the last steering value (R965). -/
def refLost (m : Mod) : Mod :=
  if m.sys.refInForce ≠ 0 ∧ m.sys.refState ≠ 3 then
    raise { m with sys := { m.sys with refState := 3, steering := steeringNow m.sys, refValid := setBit m.sys.refValid m.sys.refInForce false,
                                       refLosses := satAdd 32 m.sys.refLosses 1 } } 0x1005 srcModule 0 (b1 m.sys.refInForce)
  else m

/-- Under automatic select a higher-ranked reference, valid for 10 s, is taken (R964). -/
def refChange (m : Mod) (r : Nat) : Mod :=
  if inf m 0x7100 1 0 = 3 ∧ (r = 1 ∨ r = 2) ∧ (m.sys.refInForce = 0 ∨ r < m.sys.refInForce) then
    raise { m with sys := { m.sys with refInForce := r, refState := 1, refValid := setBit m.sys.refValid r true } } 0x1004 srcModule 0 (b1 r ++ b1 1)
  else m

end Sys2Proof.Machine
end

