-- ==== Sys2Proof/Machine/ModuleEvents.lean ====
section
/-! DEFINITION. The commands of keys held for a time, stowage, berth resets, snapshots, alarm pins, firmware and the journal (R257, R625 to R674, R698 to R719, R826 to R850, R888 to R901, R935 to R950, R972). -/

namespace Sys2Proof.Machine

/-- The pulse of a pin in mode 1 ends (R847). -/
def pulseEnd (m : Mod) (pin : Nat) : Mod :=
  let x := tget ({} : Pin) m.ev.pins pin
  if x.asserted && inf m 0xB100 2 pin == 1 then
    let m1 := advanceTo m x.until_
    { m1 with ev := { m1.ev with pins := tset {} m1.ev.pins pin {} } }
  else m

/-- The configuration in force goes to flash once a COMMIT has changed it (R972). -/
def writeConfig (s : State) : State :=
  if s.mod.sys.unsaved && (s.mod.sys.pilot0 || s.mod.sys.pilot1) then saveConfig s else s

/-- A locked harbour passes to holdover where H0's pilot has stopped (R570). -/
def holdIfStopped (m : Mod) : Mod := if m.sys.pilot0 then m else holdAsIs m

/-- Both pilots stop once the activation's seal is signed, or cannot be (R943). -/
def stopForActivation (m : Mod) : Mod := if signing m && m.sys.pilot0 then m else holdIfStopped (stopPilots m)

/-- A pilot stops at its watchdog, and with H0's the servo (R570, R982). -/
def pilotStops (m : Mod) (h : Nat) : Mod := holdIfStopped (watchdog m h)

/-- KEK_SHARE_EXPIRE: R257. -/
def execKekShareExpire (berth : Fin 256) (s : State) : Host.Outcome State Fault Refusal :=
  run "KEK_SHARE_EXPIRE" (.kekShareExpire berth) s (whileOn (onMod fun m => expireShare m berth))

/-- CXL_LINK_READY: R619 to R628. -/
def execCxlLinkReady (harbour : Fin 2) (lanes rate capacityMiB metaBits : Nat) (type3 : Bool) (s : State) : Host.Outcome State Fault Refusal :=
  run "CXL_LINK_READY" (.cxlLinkReady harbour lanes rate capacityMiB metaBits type3) s (whileOn (onMod fun m => linkReady m harbour lanes rate capacityMiB metaBits type3))

/-- CXL_LINK_DOWN: R628, R660. -/
def execCxlLinkDown (harbour : Fin 2) (s : State) : Host.Outcome State Fault Refusal :=
  run "CXL_LINK_DOWN" (.cxlLinkDown harbour) s (whileOn fun s => linkDown s harbour)

/-- CXL_LINK_RETURN: R669. -/
def execCxlLinkReturn (harbour : Fin 2) (s : State) : Host.Outcome State Fault Refusal :=
  run "CXL_LINK_RETURN" (.cxlLinkReturn harbour) s (whileOn (onMod fun m => linkReturn m harbour))

/-- STOWAGE_ACCESS: R652 to R667. -/
def execStowageAccess (harbour : Fin 2) (master : Fin 6) (line : Nat) (kind : AccessKind) (device : DeviceResult) (s : State) : Host.Outcome State Fault Refusal :=
  run "STOWAGE_ACCESS" (.stowageAccess harbour master line kind device) s (whileOn fun s => stowageAccess s harbour master line kind device)

/-- BERTH_RESET_EDGE: R703, R706. -/
def execBerthResetEdge (berth : Fin 256) (s : State) : Host.Outcome State Fault Refusal :=
  run "BERTH_RESET_EDGE" (.berthResetEdge berth) s (whileOn (onMod fun m => resetEdge m berth))

/-- BERTH_RESET_COMPLETE: R705, R706. -/
def execBerthResetComplete (berth : Fin 256) (s : State) : Host.Outcome State Fault Refusal :=
  run "BERTH_RESET_COMPLETE" (.berthResetComplete berth) s (whileOn (onMod fun m => resetComplete m berth))

/-- BERTH_RELEASE_COMPLETE: R706, R711. -/
def execBerthReleaseComplete (berth : Fin 256) (s : State) : Host.Outcome State Fault Refusal :=
  run "BERTH_RELEASE_COMPLETE" (.berthReleaseComplete berth) s (whileOn (onMod fun m => releaseComplete m berth))

/-- EXPERT_GRANT_EXPIRE: R802. -/
def execExpertGrantExpire (slot : Fin 32) (s : State) : Host.Outcome State Fault Refusal :=
  run "EXPERT_GRANT_EXPIRE" (.expertGrantExpire slot) s (whileOn (onMod fun m => expireGrant m slot))

/-- SNAPSHOT_CAPTURE: R830 to R832. -/
def execSnapshotCapture (harbour : Fin 2) (s : State) : Host.Outcome State Fault Refusal :=
  run "SNAPSHOT_CAPTURE" (.snapshotCapture harbour) s (whileOn (onMod fun m => snapCapture m harbour))

/-- SNAPSHOT_COMPLETE: R843. -/
def execSnapshotComplete (s : State) : Host.Outcome State Fault Refusal :=
  run "SNAPSHOT_COMPLETE" .snapshotComplete s (whileOn (onMod fun m => snapComplete m))

/-- ALARM_PULSE_END: R847. -/
def execAlarmPulseEnd (pin : Fin 4) (s : State) : Host.Outcome State Fault Refusal :=
  run "ALARM_PULSE_END" (.alarmPulseEnd pin) s (onMod fun m => pulseEnd m pin)

/-- JOURNAL_SEAL: R894. -/
def execJournalSeal (s : State) : Host.Outcome State Fault Refusal := run "JOURNAL_SEAL" .journalSeal s (whileOn (onMod fun m => sealDue m))

/-- SEAL_SIGNED: R895, R896. -/
def execSealSigned (s : State) : Host.Outcome State Fault Refusal :=
  run "SEAL_SIGNED" .sealSigned s (whileOn fun s => s.upd (signSeal s.otp s.mod))

/-- CONFIG_SAVE: R972. -/
def execConfigSave (s : State) : Host.Outcome State Fault Refusal := run "CONFIG_SAVE" .configSave s (whileOn fun s => writeConfig s)

/-- FIRMWARE_INSTALL_COMPLETE: R939, R940. -/
def execFirmwareInstallComplete (s : State) : Host.Outcome State Fault Refusal :=
  run "FIRMWARE_INSTALL_COMPLETE" .firmwareInstallComplete s (whileOn fun s => endInstall s)

/-- PILOTS_STOP_FOR_ACTIVATION: R570, R943. -/
def execPilotsStopForActivation (s : State) : Host.Outcome State Fault Refusal :=
  run "PILOTS_STOP_FOR_ACTIVATION" .pilotsStopForActivation s (whileOn (onMod fun m => stopForActivation m))

/-- FIRMWARE_RUNNING: R935, R943, R944. -/
def execFirmwareRunning (s : State) : Host.Outcome State Fault Refusal :=
  run "FIRMWARE_RUNNING" .firmwareRunning s (whileOn fun s => firmwareRuns s)

/-- FIRMWARE_START_TIMEOUT: R947. -/
def execFirmwareStartTimeout (s : State) : Host.Outcome State Fault Refusal :=
  run "FIRMWARE_START_TIMEOUT" .firmwareStartTimeout s (whileOn fun s => firmwareTimeout s)

/-- PILOT_WATCHDOG: R570, R982. -/
def execPilotWatchdog (harbour : Fin 2) (s : State) : Host.Outcome State Fault Refusal :=
  run "PILOT_WATCHDOG" (.pilotWatchdog harbour) s (whileOn (onMod fun m => pilotStops m harbour))

/-- PILOT_RESTARTED: R944, R982. -/
def execPilotRestarted (harbour : Fin 2) (s : State) : Host.Outcome State Fault Refusal :=
  run "PILOT_RESTARTED" (.pilotRestarted harbour) s (whileOn (onMod fun m => pilotBack m harbour))

end Sys2Proof.Machine
end

