-- ==== Sys2Proof/Machine/QueueEvents.lean ====
section
/-! DEFINITION. The commands of scheduled switches, queues, rates and gates (R296, R459, R491 to R497, R513, R527). -/

namespace Sys2Proof.Machine

/-- SWITCH_SCHEDULED_TIME: R293, R296. -/
def execSwitchScheduledTime (assoc : Fin 65536) (s : State) : Host.Outcome State Fault Refusal :=
  run "SWITCH_SCHEDULED_TIME" (.switchScheduledTime assoc) s (whileOn (onMod fun m => switchTime m assoc))

/-- QUEUE_DRAINED: R459. -/
def execQueueDrained (queue : Fin 32768) (s : State) : Host.Outcome State Fault Refusal :=
  run "QUEUE_DRAINED" (.queueDrained queue) s (whileOn (onMod fun m => drained m queue))

/-- RATE_LOWERING_APPLIED: R492. -/
def execRateLoweringApplied (queue : Fin 32768) (s : State) : Host.Outcome State Fault Refusal :=
  run "RATE_LOWERING_APPLIED" (.rateLoweringApplied queue) s (whileOn (onMod fun m => applyLowering m queue))

/-- BERTH_NODE_LOWERING_APPLIED: R497. -/
def execBerthNodeLoweringApplied (berth : Fin 256) (port : Fin 64) (s : State) : Host.Outcome State Fault Refusal :=
  run "BERTH_NODE_LOWERING_APPLIED" (.berthNodeLoweringApplied berth port) s (whileOn (onMod fun m => applyNodeLowering m (berth * 64 + port)))

/-- GATE_ENTRY_CHANGE: R513. -/
def execGateEntryChange (port : Fin 64) (s : State) : Host.Outcome State Fault Refusal :=
  run "GATE_ENTRY_CHANGE" (.gateEntryChange port) s (whileOn (onMod fun m => nextEntry m port))

/-- GATE_SWAP: R527 to R530. -/
def execGateSwap (port : Fin 64) (s : State) : Host.Outcome State Fault Refusal :=
  run "GATE_SWAP" (.gateSwap port) s (whileOn (onMod fun m => gateSwap m port))

end Sys2Proof.Machine
end

