-- ==== Sys2Proof/Machine/Write.lean ====
section
/-! DEFINITION. WRITE records (R774, R777 to R779, R783): the checks a record decides alone, the pending set, and the effect of every
rw and wo object. -/

namespace Sys2Proof.Machine

/-! ### Ranges -/

/-- The bits that a write may set in a value with reserved bits; none for a value without (R13, R203, R397, R462, R545, R650). -/
def writableBits (idx sub : Nat) : Option Nat :=
  match idx, sub with
  | 0x4000, 5 => some 0xF0
  | 0x5000, 4 => some 0x1E
  | 0x6000, 0x0B => some 3
  | 0x6800, 7 => some 1
  | 0x8010, 6 => some 0xFFF
  | _, _ => none

/-- No two-bit field of the first n holds the reserved code 2 (R674). -/
def rightsOk (n v : Nat) : Bool := (List.range n).all fun i => bits v (2 * i) 2 != 2

/-- The bytes of a bank map name banks 0 to 7 (R402). -/
def mapOk (b : Octets) : Bool := b.all fun x => decide (x.toNat ≤ 7)

/-- The reserved fields of a value are zero (R13, R921). -/
def reservedOk (idx sub_ : Nat) (v : Val) : Bool :=
  (match writableBits idx sub_ with
    | some w => v.toNat &&& w == v.toNat
    | none => true) &&
  (match idx, sub_ with
    | 0x8010, 6 => rightsOk 6 v.toNat
    | 0xE010, 1 => natAt v.toOct 3 1 ≤ 1
    | 0xF200, 8 => sub v.toOct 1 3 == zeros 3 && sub v.toOct 108 20 == zeros 20
    | 0x5110, 3 => natAt v.toOct 0 1 % 128 == 0
    | _, _ => true)

/-- The range of a value beyond the dictionary's, as the object's rules state it for the element (R778). A queue's egress port 0x6000:03 and
a clear port's source line port 0x3310:01 may name an index that is absorbed: it names no port (R4), no rule refuses it, and until it is one
again the queue is bound to a port of width 0 and the source declares nothing (DESIGN CHOICE, log 50). -/
def rangeOk (m : Mod) (idx sub e : Nat) (v : Val) : Bool :=
  let n := v.toNat
  match idx, sub with
  | 0x2000, 2 => decide (0x0600 ≤ n) && !(List.contains [0x0800, 0x86DD, 0x8100, 0x88A8, 0x88E5, 0x88F7, 0x8808] n)
  | 0x2100, 4 => decide (16 ≤ v.toOct.length)
  | 0x3100, 1 => [1, 2, 4, 8].contains n
  | 0x3310, 1 => n == 0xFF || (decide (n < 64) && isLine n && basinOf n == basinOf e && !absorbed m n)
  | 0x4000, 2 => decide (n ≤ 4) || n == 0xFE
  | 0x4010, 4 => decide (1 ≤ n ∧ n ≤ lastPn (aType m (e / 2)) (aSuite m (e / 2)))
  | 0x5000, 8 => n == 0xFFFF || aBasin n == e / 65536
  | 0x5100, 2 => mapOk v.toOct
  | 0x5100, 3 => mapOk v.toOct
  | 0x6000, 3 => n == 0xFF || (decide (n < 64) && basinOf n == qBasin e)
  | 0x6800, 8 => (List.range 8).all fun c => let l := natAt v.toOct (2 * c) 2; l == 0xFFFF || decide (64 ≤ l ∧ l ≤ 9290)
  | 0x8010, 5 => n == 0xFF || n / 2 == e / 16
  | 0x9010, 1 =>
    let r := sourceRow e
    decide (r.2.2.2.1 ≤ n ∧ n ≤ r.2.2.2.2.1) && !(r.2.2.2.2.2 == 3 && n == 2)
  | 0xE200, 1 => n % 4 == 0
  | _, _ => true

/-! ### Role and state -/

/-- A right that depends on the value written: 0 or the status (R650, R700, R833). -/
def valueRight (m : Mod) (slot idx sub : Nat) (v : Val) (old : Nat) : Nat :=
  let x := sess m slot
  match idx, sub with
  | 0x8010, 6 => if x.role ≠ 1 ∧ bits v.toNat 10 2 ≠ 0 ∧ bits v.toNat 10 2 ≠ bits old 10 2 then 0x1005 else 0
  | 0xA000, 6 => if x.role = 3 ∧ v.toNat = 2 then 0x1005 else 0
  | 0xB000, 1 => if x.role = 3 ∧ v.toNat ≠ 2 then 0x1005 else 0
  | 0xB000, 2 => if x.role = 3 ∧ v.toNat ≠ x.berth then 0x1006 else 0
  | _, _ => 0

/-- A limit of a value that is a capacity (R512, R785): the limit exceeded. -/
def overLimitOf (idx sub : Nat) (v : Val) : Option Nat := if idx = 0x6800 ∧ sub = 5 ∧ 1024 < v.toNat then some 1024 else none

/-- A port's 1 s history has room (R192): stowage is enabled and its port ready, and an enabled region of kind 3 takes 2,764,800 bytes for each line port of
the harbour that keeps one, this port among them, under a pending set. -/
def historyFits (m : Mod) (p : Tbl Val) (e : Nat) : Bool :=
  let h := harbourOf e
  let keepers := ((elems m p 0x3400 3).filter fun x => x != e && harbourOf x == h && cfg m p 0x3400 3 x == 1).length + 1
  infB m 0x8000 1 h && (stow m h).st == 2 && (List.range 16).any fun r =>
    regionOn m h r && regionKind m h r == 3 && decide (keepers * 2764800 ≤ inf m 0x8010 4 (h * 16 + r) * 1048576)

/-- The state check of a write: 0, or the status (R40, R48, R80, R178, R192, R248, R281, R293, R740, R584). -/
def writeState (m : Mod) (idx sub e : Nat) (v : Val) : Nat :=
  if (objHarbour idx e).any fun h => !pilotUp m h then 0x3002
  else if (absorbedPort idx sub e).any (absorbed m ·) then 0x3003
  else
    let active := isActive m (e / 2) (e % 2)
    match idx, sub with
    | 0x3100, 2 => if v.toNat = 1 ∧ !isLine e then 0x4002 else 0
    | 0x3000, 9 => if v.toNat ≠ 0 ∧ portEnabled m (lanePort m e) then 0x3003 else 0
    | 0x3400, 3 => if portMode m e ≠ 1 then 0x4002 else if v.toNat = 1 ∧ !historyFits m [] e then 0x3001 else 0
    | 0x3400, _ => if portMode m e ≠ 1 then 0x4002 else 0
    | 0x4010, 2 =>
      let x := assoc m (e / 2)
      if active then 0x3003
      else if aType m (e / 2) ≠ 3 ∧ aType m (e / 2) ≠ 4 ∧ x.s0.full ∧ x.s1.full ∧ inf m 0x4010 2 (e / 2 * 2 + (1 - e % 2)) = v.toNat then 0x3003 else 0
    | 0x4010, 4 => if active then 0x3003 else 0
    | 0x4040, _ => if [1, 3, 5].contains (aType m e) then 0 else 0x4002
    | 0x7030, 3 => if portTimeHas m 3 e then 0 else 0x4002
    | 0x7030, 4 => if 64 ≤ e then 0x4002 else 0
    | 0x7030, 5 => if 64 ≤ e then 0x4002 else 0
    | _, _ => 0

/-! ### Effects -/

/-- What a record's effect answers: the state, the status with the values of a refusal's detail, and what the reply carries beside the
count (R558, R702). -/
structure Eff where
  s : State
  status : Nat := 0
  vals : List Nat := []
  extra : Octets := []

/-- Effects by what the shared operations answer. -/
abbrev eff (s : State) : Eff := { s }
abbrev effM (s : State) (m : Mod) : Eff := { s := s.upd m }
abbrev effN (s : State) (r : Mod × Nat) : Eff := { s := s.upd r.1, status := r.2 }
abbrev effV (s : State) (r : Mod × Nat × List Nat) : Eff := { s := s.upd r.1, status := r.2.1, vals := r.2.2 }
abbrev effT (s : State) (r : Mod × Nat × Nat) : Eff := { s := s.upd r.1, status := r.2.1, extra := if r.2.1 = 0 then timeBytes r.2.2 else [] }
abbrev effS (r : State × Nat) : Eff := { s := r.1, status := r.2 }
def effR (s : State) : Reach → Eff
  | .ok _ m => effM s m
  | .fail st vs m => { s := s.upd m, status := st, vals := vs }

/-- The enrolment session ends once an Officer credential is in force (R769, R770). -/
def closeEnrolment (m : Mod) : Mod := if officerInForce m then endSessions m 2 fun x => x.cred == 0xFFFF else m

/-- A credential's secret (R752, R767); with it the enrolment session may end. -/
def setSecret (m : Mod) (c : Nat) (x : Option Secret) : Mod :=
  closeEnrolment { m with tether := { m.tether with vault := { m.tether.vault with secrets := tset none m.tether.vault.secrets c x } } }

/-- 0x2100:0A: a credential erased, with its sessions (R763, R797). -/
def eraseCredential (m : Mod) (c : Nat) : Mod :=
  let v := m.tether.vault
  let m1 := { m with tether := { m.tether with vault := { v with secrets := tset none v.secrets c none,
                                                                  cfg := [1, 2, 3, 6].foldl (fun t s => tdel t (okey 0x2100 s c)) v.cfg } },
                     mgmt := { m.mgmt with fails := tset 0 m.mgmt.fails c 0, lockedTo := tset none m.mgmt.lockedTo c none,
                                           lastUse := tset 0 m.mgmt.lastUse c 0 } }
  endSessions m1 4 fun x => x.cred == c

/-- 0x3000:09: a test pattern starts, changes or stops, and its errors restart at 0; the lane powers up or down with it (R42, R81). -/
def writePattern (m : Mod) (l v : Nat) : Mod :=
  let m1 := setNat (setNat (countNow m l) 0x3000 9 l v) 0x3000 0x0A l 0
  match lanePowered m l, lanePowered m1 l with
  | false, true => lanePowerUp m1 l
  | true, false => lanePowerDown m1 l false
  | _, _ => m1

/-- 0x4010:01: a wrapped key, unwrapped in 36 block decryptions by a lane of the transmit bank's masked engine, which it occupies for 576 cycles (R249 to
R253, R369). -/
def keyEffect (m : Mod) (e : Nat) (wrapped : Octets) : Mod × Nat :=
  let a := e / 2
  let (m1, st) := writeKey m m.sys.retired (entropyOf m (aHarbour a)).failB a (e % 2) fun k => aesUnwrap k wrapped
  let k := aBasin a * 2
  (if st = 0 ∨ st = 0x6001 ∨ st = 0x3005 ∨ st = 0x2001 then
     engineTakes m1 k (max (bank m1 k).busy m.sys.elapsed + 1) ((bank m1 k).laneList.take 1) { key := (kek m (aBerth m a)).kek, runs := true, count := 36 }
   else m1, st)

/-- Sessions, expert access: 0x2010 to 0x2100, 0xE000 to 0xE200. -/
def effSession (s : State) (slot idx sub e : Nat) (v : Val) : Eff :=
  let m := s.mod
  let x := sess m slot
  let yes := v.toNat == 1
  match idx, sub with
  | 0x2010, 0x0B => if yes then effM s (endSession m e 2) else eff s
  | 0x2040, 1 => effN s (grantExpert m x.cred e v.toNat)
  | 0x2040, 2 => effM s (setObj m idx sub e v)
  | 0x2100, 4 =>
    let (salt, m1) := draw m (goodB m 0) 16
    effM s (setSecret m1 e (some (.password v.toOct salt)))
  | 0x2100, 5 => effM s (setSecret m e (some (.key v.toOct)))
  | 0x2100, 0x0A => if yes then effM s (eraseCredential m e) else eff s
  | 0xE000, 2 => effN s (writeDebug m slot yes)
  | 0xE010, 1 => effS (locatorWrite s slot v.toOct)
  | 0xE100, 1 => effR s (windowWrite m 0 (e * 4) v.toNat)
  | 0xE100, 2 => effR s (windowWrite m 1 (e * 4) v.toNat)
  | 0xE200, 1 => effM s (setSess m slot { x with indirect := v.toNat })
  | 0xE200, 2 => effR s (indirectWrite m slot v.toNat)
  | _, _ => eff s

/-- Lanes, keys, tables, time, stowage: 0x3000 to 0x8010. -/
def effData (s : State) (slot idx sub e : Nat) (v : Val) : Eff :=
  let m := s.mod
  let yes := v.toNat == 1
  match idx, sub with
  | 0x3000, 9 => effM s (writePattern m e v.toNat)
  | 0x4010, 1 => effN s (keyEffect m e v.toOct)
  | 0x4010, 6 => if yes then effM s (eraseSlot m (e / 2) (e % 2)) else eff s
  | 0x4010, _ => effM s (setObj m idx sub e v)
  | 0x4100, 6 => if yes then effM s (eraseKek m e) else eff s
  | 0x4100, k => if m.sys.retired then { s, status := 0x4002 } else effN s (writeShare m e (k == 2) v.toOct (sess m slot).cred)
  | 0x5110, 1 => effV s (insertPrefix m e v.toOct)
  | 0x5110, 2 => effN s (deletePrefix m e v.toOct)
  | 0x5110, 3 => effM s (setSess m slot { sess m slot with query := tset (zeros 17) (sess m slot).query e v.toOct })
  | 0x5200, 4 => effN s (acknowledgeLearn m e v.toNat)
  | 0x7000, 2 => effT s (writeIncrement m v.toNat)
  | 0x7000, 3 => effT s (writeSlew m v.toInt)
  | 0x7000, 4 => effT s (writeStep m v.toInt)
  | 0x7000, 5 => effT s (writeTime m { sec := v.toNat / nsPerSec, ns := v.toNat % nsPerSec })
  | 0x7010, 5 => effN s (writeLease m v.toNat)
  | 0x7010, 8 => effM s (setObj m idx sub e v)
  | 0x8010, 0x0A => if yes then effV s (releaseRegion m e) else eff s
  | _, _ => eff s

/-- Tamper, berths, snapshots, alarm pins, firmware: 0x9010 to 0xB100, 0xF010 to 0xF300. -/
def effModule (s : State) (slot idx sub e : Nat) (v : Val) : Eff :=
  let m := s.mod
  let yes := v.toNat == 1
  match idx, sub with
  | 0x9010, 6 => if yes then effN s (releaseResponse m e) else eff s
  | 0x9030, 1 => effM s (swapWindow (setObj m idx sub e v) v.toNat)
  | 0x9040, 1 => effS (confirmRetire s (sess m slot).cred v.toOct)
  | 0x9050, 3 => if yes then effN s (commandRestart m) else eff s
  | 0x9120, 3 => effM s { m with ev := { m.ev with mark := v.toNat, marked := false } }
  | 0xA000, 6 => effT s (requestReset m e v.toNat (sess m slot).cred)
  | 0xB020, 4 => effN s (snapAck m e v.toNat)
  | 0xB100, 4 => if yes ∧ inf m 0xB100 2 e = 0 then effM s { m with ev := { m.ev with pins := tset {} m.ev.pins e {} } } else eff s
  | 0xB100, _ => effM s (setObj m idx sub e v)
  | 0xF010, 1 => effM s { m with fw := { m.fw with length := v.toNat } }
  | 0xF010, 2 => if yes then (let r := verifyImage s; { s := r.1, status := r.2.1, vals := r.2.2 }) else eff s
  | 0xF010, 5 => if yes then effS (beginInstall s) else eff s
  | 0xF010, 6 => effS (beginActivation s v.toNat)
  | 0xF010, 7 => if yes then eff (confirmImage s) else eff s
  | 0xF010, 0x0B => effS (writeCoRequired s yes)
  | 0xF020, 1 => effN s (writeChunk m e v.toOct)
  | 0xF200, 1 => if yes then effS (generateService s (entropyOf m m.mgmt.pilot).failB) else eff s
  | 0xF200, 8 => effM s { m with fw := { m.fw with certBody := v.toOct } }
  | 0xF200, 9 => effM s { m with fw := { m.fw with certSig := v.toOct } }
  | 0xF200, 0x0A => if yes then effS (installCert s) else eff s
  | 0xF200, 0x0B => if yes then eff (eraseService s) else eff s
  | 0xF300, 1 => effS (writeAnchor s v.toOct)
  | _, _ => eff s

/-- The effect of a write to an rw or wo object, when its record is processed (R778). -/
def effect (s : State) (slot idx sub e : Nat) (v : Val) : Eff :=
  if idx < 0x3000 ∨ idx / 4096 = 0xE then effSession s slot idx sub e v
  else if idx < 0x9000 then effData s slot idx sub e v
  else effModule s slot idx sub e v

/-! ### Records -/

/-- A record's outcome: refused, or done with what the reply carries. -/
structure Done where
  s : State
  refuse : Option Refuse := none
  extra : Octets := []

/-- A write to an rwc object enters the session's pending set, at most 4,096 records (R778, R779). -/
def toPending (s : State) (slot : Nat) (a : Addr) (v : Val) : Done :=
  let x := sess s.mod slot
  let k := okey a.idx a.sub a.elem
  if (tfind x.pend k).isNone ∧ 4096 ≤ x.pend.length then { s, refuse := some { status := 0x3001, addr := a, vals := [4096] } }
  else { s := s.upd (setSess s.mod slot { x with pend := tins k v (tdel x.pend k) }) }

/-- The checks of a WRITE record up to its value (R774, R783): the object's row and the value. -/
def recordCheck (m : Mod) (slot : Nat) (r : ValueRec) : Except Refuse (Obj × Val) :=
  let a := r.addr
  let no (st : Nat) : Except Refuse (Obj × Val) := .error { status := st, addr := a }
  match addrCheck m a, objRow a.idx a.sub with
  | some x, _ => .error x
  | none, none => no 0x1001
  | none, some o =>
    let acc := accessOf o a.idx a.elem
    if acc = .const ∨ acc = .ro then no 0x1003
    else
      let right := rightCheck m slot a true
      if right ≠ 0 then no right
      else if r.code ≠ o.ty.code then no 0x2002
      else if !o.ty.lengthOk r.data.length then no 0x2003
      else match decodeVal o.ty r.data with
        | none => no 0x2001
        | some v =>
          let vr := valueRight m slot a.idx a.sub v (inf m a.idx a.sub a.elem)
          if vr ≠ 0 then no vr
          else match overLimitOf a.idx a.sub v with
            | some l => .error { status := 0x3001, addr := a, vals := [l] }
            | none =>
              if !reservedOk a.idx a.sub v ∨ !o.rng.holds v ∨ !rangeOk m a.idx a.sub a.elem v then no 0x2001
              else
                let st := writeState m a.idx a.sub a.elem v
                if st ≠ 0 then no st else .ok (o, v)

/-- A WRITE record: checked, then pending or in effect (R777, R778). -/
def writeRecord (s : State) (slot : Nat) (r : ValueRec) : Done :=
  match recordCheck s.mod slot r with
  | .error x => { s, refuse := some x }
  | .ok (o, v) =>
    if o.acc = .rwc then toPending s slot r.addr v
    else
      let f := effect s slot r.addr.idx r.addr.sub r.addr.elem v
      { s := f.s, refuse := if f.status = 0 then none else some { status := f.status, addr := r.addr, vals := f.vals }, extra := f.extra }

/-- Records in order up to the first refusal: how many passed, the refusal, and what the reply carries (R777). -/
def writeAll (slot : Nat) : State → Nat → Octets → List ValueRec → State × Nat × Octets × Option Refuse
  | s, n, x, [] => (s, n, x, none)
  | s, n, x, r :: rs =>
    let d := writeRecord s slot r
    match d.refuse with
    | some e => (d.s, n, x, some e)
    | none => writeAll slot d.s (n + 1) (x ++ d.extra) rs

/-- The reply of a WRITE (R775, R777, R780): the index of the record that ended processing with its detail, or the count. -/
def writeReply (n : Nat) (extra : Octets) : Option Refuse → Nat × List Octets
  | some r => (r.status, [b2 n ++ detail r.addr r.vals])
  | none => (0, [b2 n ++ extra])

/-- A record of the register window or the indirect pair. -/
def isExpert (r : ValueRec) : Bool := r.addr.idx == 0xE100 || r.addr.idx == 0xE200

/-- The harbour and byte address an expert record names, and whether it writes a word. -/
def expertTarget (m : Mod) (slot : Nat) (r : ValueRec) : Nat × Nat :=
  if r.addr.idx = 0xE100 then (r.addr.sub - 1, r.addr.elem * 4)
  else if r.addr.sub = 1 then (0, natOf r.data)
  else
    let a := (sess m slot).indirect
    (((serdesAt a).map fun x => serdesHarbour x.1).getD 0, a)

/-- Event 0xC103 of a message whose accepted records reach 0xE100 or 0xE200 (R803): session, harbour, first address, words. -/
def expertEvent (before : Mod) (slot : Nat) (accepted : List ValueRec) (m : Mod) : Mod :=
  match accepted.find? isExpert with
  | none => m
  | some r =>
    let (h, a) := expertTarget before slot r
    let words := (accepted.filter fun x => x.addr.idx == 0xE100 || (x.addr.idx == 0xE200 && x.addr.sub == 2)).length
    raise m 0xC103 srcModule 0 (b4 (sess before slot).id ++ b1 h ++ b4 a ++ b4 words)

/-- WRITE: 1 to 64 records (R775, R777). -/
def writeAct (recs : List ValueRec) (s : State) (slot : Nat) : State × Nat × List Octets :=
  if recs = [] ∨ 64 < recs.length then (s, 0x2001, [[]])
  else
    let (s1, n, extra, r) := writeAll slot s 0 [] recs
    (s1.upd (expertEvent s.mod slot (recs.take n) s1.mod), writeReply n extra r)

/-- The records of WRITE_ELEMENTS: values of the object's type at elements a stride apart (R775). -/
def elementRecs (first : Addr) (stride : Nat) (vals : List Octets) : List ValueRec :=
  let code := ((objRow first.idx first.sub).map fun o => o.ty.code).getD 0
  vals.zipIdx.map fun v => { addr := { first with elem := first.elem + v.2 * stride }, code, data := v.1 }

/-- WRITE_ELEMENTS (R775, R777): a stride of 1 to 4,096, and at most 2,048 words of the register window (R814). -/
def writeElementsAct (first : Addr) (stride : Nat) (vals : List Octets) (s : State) (slot : Nat) : State × Nat × List Octets :=
  if stride = 0 ∨ 4096 < stride ∨ (first.idx = 0xE100 ∧ 2048 < vals.length) then (s, 0x2001, [[]])
  else
    let recs := elementRecs first stride vals
    let (s1, n, extra, r) := writeAll slot s 0 [] recs
    (s1.upd (expertEvent s.mod slot (recs.take n) s1.mod), writeReply n extra r)

/-- The value record of an object with value bytes. -/
def recOf (idx sub : Nat) (elem : Option Nat) (data : Octets) : ValueRec :=
  { addr := { idx, sub, isElem := elem.isSome, elem := elem.getD 0 }, code := ((objRow idx sub).map fun o => o.ty.code).getD 0, data }

/-- A WRITE of one record. -/
def writeOne (r : ValueRec) (s : State) (slot : Nat) : State × Nat × List Octets :=
  let d := writeRecord s slot r
  (d.s.upd (expertEvent s.mod slot (if d.refuse.isSome then [] else [r]) d.s.mod), writeReply (if d.refuse.isSome then 0 else 1) d.extra d.refuse)

/-- The request of a typed command: a WRITE message with one record of these value bytes. -/
def writeRow (s : State) (h : Hdr) (idx sub : Nat) (elem : Option Nat) (data : Octets) : State :=
  serve s h 0x11 (writeOne (recOf idx sub elem data))

/-! ### Reading -/

/-- The value of a read that has an effect of its own, or of any other object: the state after it and the value, or the status (R608,
R806, R819, R929). -/
def readValue (s : State) (slot : Nat) (a : Addr) : State × Except (Nat × List Nat) Val :=
  let reach : Reach → State × Except (Nat × List Nat) Val
    | .ok w m => (s.upd m, .ok (.nat w))
    | .fail st vs m => (s.upd m, .error (st, vs))
  match a.idx, a.sub with
  | 0x7050, 3 =>
    match takeCapture s.mod a.elem with
    | some (r, m) => (s.upd m, .ok (.oct r))
    | none => (s, .error (0x1002, []))
  | 0x3000, _ =>
    let s1 := s.upd (countNow s.mod a.elem)
    match valueOf s1 slot a.idx a.sub a.elem with
    | some v => (s1, .ok v)
    | none => (s1, .error (0x1002, []))
  | 0xE100, 1 => reach (windowRead s slot 0 (a.elem * 4))
  | 0xE100, 2 => reach (windowRead s slot 1 (a.elem * 4))
  | 0xE200, 2 => reach (indirectRead s.mod slot)
  | 0xF100, 2 =>
    let r := newReport s slot (configDigest s.mod)
    if r.2 ≠ 0 then (r.1, .error (r.2, [])) else (r.1, .ok (.oct (sess r.1.mod slot).report))
  | _, _ =>
    match valueOf s slot a.idx a.sub a.elem with
    | some v => (s, .ok v)
    | none => (s, .error (0x1002, []))

/-- The pilot's access to stowage for a read of an element of the 1 s history or of an archived snapshot word, where the engine refuses it (R652, R667). -/
def refusedRead (m : Mod) (a : Addr) : Mod :=
  if (addrCheck m a).isSome then m
  else if a.idx = 0x3430 then
    let h := harbourOf (a.elem / 131072)
    if historyRefuses m h 1 then refuseHistory m h else m
  else if a.idx = 0xB010 then
    let basin := a.elem / 2 ^ 28
    match archiveOf m basin with
    | some (r, _) => if a.elem % 2 ^ 28 < tget 0 m.snap.archived basin ∧ pilotShut m basin r then refuseAccess m (basin / 2) 0 (some r) 1 else m
    | none => m
  else m

/-- One entry of a READ reply: status, then the value record or the address record (R775), and behind that the limit of a table of which the element
lies past the end (R451, R687; DEDUCED, log 55). -/
def readEntry (s : State) (slot : Nat) (a : Addr) : State × Octets :=
  match readCheck s slot a with
  | .error st => (if st = 0x1002 then s.upd (refusedRead s.mod a) else s, b2 st ++ addrBytes a ++ (((addrCheck s.mod a).map (·.vals)).getD []).flatMap b4)
  | .ok o =>
    match readValue s slot a with
    | (s1, .ok v) => (s1, b2 0 ++ valueRecord a o.ty v)
    | (s1, .error (st, _)) => (if st = 0x1002 then s1.upd (refusedRead s1.mod a) else s1, b2 st ++ addrBytes a)

/-- Addresses read in order, with their entries. -/
def readAll (slot : Nat) : State → List Addr → State × List Octets
  | s, [] => (s, [])
  | s, a :: as =>
    let (s1, e) := readEntry s slot a
    let (s2, es) := readAll slot s1 as
    (s2, e :: es)

/-- READ: 1 to 64 addresses (R775, R776). -/
def readAct (addrs : List Addr) (s : State) (slot : Nat) : State × Nat × List Octets :=
  if addrs = [] ∨ 64 < addrs.length then (s, 0x2001, [[]])
  else
    let (s1, es) := readAll slot s addrs
    (s1, 0, splitBody [] es)

/-- READ_ELEMENTS: 1 to 1,024 consecutive elements (R775). -/
def readElementsAct (first : Addr) (count : Nat) (s : State) (slot : Nat) : State × Nat × List Octets :=
  if count = 0 ∨ 1024 < count then (s, 0x2001, [[]]) else
    let (s1, es) := readAll slot s ((List.range count).map fun i => { first with elem := first.elem + i })
    (s1, 0, splitBody [] es)

end Sys2Proof.Machine
end

