-- ==== Sys2Proof/Machine/Requests.lean ====
section
/-! DEFINITION. The commands that are a WRITE or READ message of one object with a row of its own (R777, R778): each is checked and answered as
the message is. -/

namespace Sys2Proof.Machine

/-- 0x2010:0B: an Officer ends the session in a slot (R763). -/
def execSessionTerminate (h : Hdr) (slot : Nat) (v : Bool) (s : State) : Host.Outcome State Fault Refusal :=
  run "SESSION_TERMINATE" (.sessionTerminate h slot v) s fun s => writeRow s h 0x2010 0x0B (some slot) (b1 (b01 v))

/-- 0x2100:0A: a credential erased (R797). -/
def execCredentialErase (h : Hdr) (cred : Nat) (v : Bool) (s : State) : Host.Outcome State Fault Refusal :=
  run "CREDENTIAL_ERASE" (.credentialErase h cred v) s fun s => writeRow s h 0x2100 0x0A (some cred) (b1 (b01 v))

/-- 0x4010:01: a wrapped key of 56 bytes, which the KEK of the association's berth unwraps (R247 to R253). -/
def execKeyWrite (h : Hdr) (slot : Nat) (wrapped : Octets) (s : State) : Host.Outcome State Fault Refusal :=
  run "KEY_WRITE" (.keyWrite h slot wrapped) s fun s => writeRow s h 0x4010 1 (some slot) wrapped

/-- 0x4010:06: a key slot erased (R269). -/
def execKeySlotErase (h : Hdr) (slot : Nat) (v : Bool) (s : State) : Host.Outcome State Fault Refusal :=
  run "KEY_SLOT_ERASE" (.keySlotErase h slot v) s fun s => writeRow s h 0x4010 6 (some slot) (b1 (b01 v))

/-- 0x4100:01 and 02: a KEK share (R254 to R258). -/
def execKekShareWrite (h : Hdr) (berth : Nat) (shareB : Bool) (share : Octets) (s : State) : Host.Outcome State Fault Refusal :=
  run "KEK_SHARE_WRITE" (.kekShareWrite h berth shareB share) s fun s => writeRow s h 0x4100 (if shareB then 2 else 1) (some berth) share

/-- 0x4100:06: a KEK erased (R259). -/
def execKekErase (h : Hdr) (berth : Nat) (v : Bool) (s : State) : Host.Outcome State Fault Refusal :=
  run "KEK_ERASE" (.kekErase h berth v) s fun s => writeRow s h 0x4100 6 (some berth) (b1 (b01 v))

/-- 0x5200:04: learn notifications acknowledged (R435). -/
def execLearnAcknowledge (h : Hdr) (basin seq : Nat) (s : State) : Host.Outcome State Fault Refusal :=
  run "LEARN_ACKNOWLEDGE" (.learnAcknowledge h basin seq) s fun s => writeRow s h 0x5200 4 (some basin) (b4 seq)

/-- 0x5110:01: a prefix inserted (R413). -/
def execLpmInsert (h : Hdr) (table : Nat) (record : Octets) (s : State) : Host.Outcome State Fault Refusal :=
  run "LPM_INSERT" (.lpmInsert h table record) s fun s => writeRow s h 0x5110 1 (some table) record

/-- 0x5110:02: a prefix deleted (R414). -/
def execLpmDelete (h : Hdr) (table : Nat) (record : Octets) (s : State) : Host.Outcome State Fault Refusal :=
  run "LPM_DELETE" (.lpmDelete h table record) s fun s => writeRow s h 0x5110 2 (some table) record

/-- 0x5110:03: a lookup for the session (R441). -/
def execLpmQuery (h : Hdr) (table : Nat) (query : Octets) (s : State) : Host.Outcome State Fault Refusal :=
  run "LPM_QUERY" (.lpmQuery h table query) s fun s => writeRow s h 0x5110 3 (some table) query

/-- 0x3000:09: a test pattern starts or stops (R81). -/
def execTestPatternWrite (h : Hdr) (lane v : Nat) (s : State) : Host.Outcome State Fault Refusal :=
  run "TEST_PATTERN_WRITE" (.testPatternWrite h lane v) s fun s => writeRow s h 0x3000 9 (some lane) (b1 v)

/-- 0x7000:02: the increment (R553, R557). -/
def execTimeIncrementWrite (h : Hdr) (v : Nat) (s : State) : Host.Outcome State Fault Refusal :=
  run "TIME_INCREMENT_WRITE" (.timeIncrementWrite h v) s fun s => writeRow s h 0x7000 2 none (b4 v)

/-- 0x7000:03: a slew (R559). -/
def execTimeSlewWrite (h : Hdr) (x : Int) (s : State) : Host.Outcome State Fault Refusal :=
  run "TIME_SLEW_WRITE" (.timeSlewWrite h x) s fun s => writeRow s h 0x7000 3 none (bytesOfInt 4 x)

/-- 0x7000:04: a step (R561). -/
def execTimeStepWrite (h : Hdr) (x : Int) (s : State) : Host.Outcome State Fault Refusal :=
  run "TIME_STEP_WRITE" (.timeStepWrite h x) s fun s => writeRow s h 0x7000 4 none (bytesOfInt 8 x)

/-- 0x7000:05: a step to a time (R10, R561). -/
def execTimeSetWrite (h : Hdr) (t : Time80) (s : State) : Host.Outcome State Fault Refusal :=
  run "TIME_SET_WRITE" (.timeSetWrite h t) s fun s => writeRow s h 0x7000 5 none (bytesOf 6 t.sec ++ bytesOf 4 t.ns)

/-- 0x7010:05: the host lease (R571). -/
def execHostLeaseWrite (h : Hdr) (v : Nat) (s : State) : Host.Outcome State Fault Refusal :=
  run "HOST_LEASE_WRITE" (.hostLeaseWrite h v) s fun s => writeRow s h 0x7010 5 none (b1 v)

/-- 0x7050:03: the oldest capture record, removed (R608). -/
def execCaptureRead (h : Hdr) (input : Nat) (s : State) : Host.Outcome State Fault Refusal :=
  run "CAPTURE_READ" (.captureRead h input) s fun s => serve s h 0x10 (readAct [{ idx := 0x7050, sub := 3, isElem := true, elem := input }])

/-- 0x2040:01: an expert grant (R799 to R802). -/
def execExpertGrantWrite (h : Hdr) (slot minutes : Nat) (s : State) : Host.Outcome State Fault Refusal :=
  run "EXPERT_GRANT_WRITE" (.expertGrantWrite h slot minutes) s fun s => writeRow s h 0x2040 1 (some slot) (b2 minutes)

/-- 0xE000:02: the debug access port (R804). -/
def execDebugPortOpen (h : Hdr) (v : Bool) (s : State) : Host.Outcome State Fault Refusal :=
  run "DEBUG_PORT_OPEN" (.debugPortOpen h v) s fun s => writeRow s h 0xE000 2 none (b1 (b01 v))

/-- 0xE100: a word of a harbour's register space (R806, R814). -/
def execWindowWrite (h : Hdr) (harbour : Fin 2) (wordAddr v : Nat) (s : State) : Host.Outcome State Fault Refusal :=
  run "WINDOW_WRITE" (.windowWrite h harbour wordAddr v) s fun s => writeRow s h 0xE100 (harbour.val + 1) (some wordAddr) (b4 v)

/-- 0xE010:01: the register locator (R813). -/
def execLocatorQuery (h : Hdr) (record : Octets) (s : State) : Host.Outcome State Fault Refusal :=
  run "LOCATOR_QUERY" (.locatorQuery h record) s fun s => writeRow s h 0xE010 1 none record

/-- 0xE200:02 read (R818, R819). -/
def execIndirectDataRead (h : Hdr) (s : State) : Host.Outcome State Fault Refusal :=
  run "INDIRECT_DATA_READ" (.indirectDataRead h) s fun s => serve s h 0x10 (readAct [{ idx := 0xE200, sub := 2 }])

/-- 0xE200:02 written (R818 to R820). -/
def execIndirectDataWrite (h : Hdr) (v : Nat) (s : State) : Host.Outcome State Fault Refusal :=
  run "INDIRECT_DATA_WRITE" (.indirectDataWrite h v) s fun s => writeRow s h 0xE200 2 none (b4 v)

/-- 0xB020:04: held snapshot words freed (R838). -/
def execSnapshotAcknowledge (h : Hdr) (basin w : Nat) (s : State) : Host.Outcome State Fault Refusal :=
  run "SNAPSHOT_ACKNOWLEDGE" (.snapshotAcknowledge h basin w) s fun s => writeRow s h 0xB020 4 (some basin) (b4 w)

/-- 0xB100:04: a latched alarm pin released (R847). -/
def execAlarmClear (h : Hdr) (pin : Nat) (v : Bool) (s : State) : Host.Outcome State Fault Refusal :=
  run "ALARM_CLEAR" (.alarmClear h pin v) s fun s => writeRow s h 0xB100 4 (some pin) (b1 (b01 v))

/-- 0x9010:06: a response ended (R873). -/
def execResponseRelease (h : Hdr) (source : Nat) (v : Bool) (s : State) : Host.Outcome State Fault Refusal :=
  run "RESPONSE_RELEASE" (.responseRelease h source v) s fun s => writeRow s h 0x9010 6 (some source) (b1 (b01 v))

/-- 0x9030:01: the cell swap window (R885). -/
def execCellSwapWindowWrite (h : Hdr) (minutes : Nat) (s : State) : Host.Outcome State Fault Refusal :=
  run "CELL_SWAP_WINDOW_WRITE" (.cellSwapWindowWrite h minutes) s fun s => writeRow s h 0x9030 1 none (b1 minutes)

/-- 0x9040:01: a retire confirmation (R888). -/
def execRetireConfirmation (h : Hdr) (serial : Octets) (s : State) : Host.Outcome State Fault Refusal :=
  run "RETIRE_CONFIRMATION" (.retireConfirmation h serial) s fun s => writeRow s h 0x9040 1 none serial

/-- 0x8010:0A: a region released (R668). -/
def execRegionRelease (h : Hdr) (region : Nat) (v : Bool) (s : State) : Host.Outcome State Fault Refusal :=
  run "REGION_RELEASE" (.regionRelease h region v) s fun s => writeRow s h 0x8010 0x0A (some region) (b1 (b01 v))

/-- 0xA000:06 with 1: a reset that keeps the configuration (R699 to R702). -/
def execBerthResetKeep (h : Hdr) (berth : Nat) (s : State) : Host.Outcome State Fault Refusal :=
  run "BERTH_RESET_KEEP" (.berthResetKeep h berth) s fun s => writeRow s h 0xA000 6 (some berth) (b1 1)

/-- 0xA000:06 with 2: a reset that releases the resources (R699 to R702). -/
def execBerthResetRelease (h : Hdr) (berth : Nat) (s : State) : Host.Outcome State Fault Refusal :=
  run "BERTH_RESET_RELEASE" (.berthResetRelease h berth) s fun s => writeRow s h 0xA000 6 (some berth) (b1 2)

/-- 0xF020:01: a chunk staged (R936). -/
def execFirmwareChunkWrite (h : Hdr) (n : Nat) (chunk : Octets) (s : State) : Host.Outcome State Fault Refusal :=
  run "FIRMWARE_CHUNK_WRITE" (.firmwareChunkWrite h n chunk) s fun s => writeRow s h 0xF020 1 (some n) chunk

/-- 0xF010:02: the staged image verified (R938). -/
def execFirmwareVerify (h : Hdr) (v : Bool) (s : State) : Host.Outcome State Fault Refusal :=
  run "FIRMWARE_VERIFY" (.firmwareVerify h v) s fun s => writeRow s h 0xF010 2 none (b1 (b01 v))

/-- 0xF010:05: an install starts (R939). -/
def execFirmwareInstall (h : Hdr) (v : Bool) (s : State) : Host.Outcome State Fault Refusal :=
  run "FIRMWARE_INSTALL" (.firmwareInstall h v) s fun s => writeRow s h 0xF010 5 none (b1 (b01 v))

/-- 0xF010:06: activation (R942, R943). -/
def execFirmwareActivate (h : Hdr) (slot : Nat) (s : State) : Host.Outcome State Fault Refusal :=
  run "FIRMWARE_ACTIVATE" (.firmwareActivate h slot) s fun s => writeRow s h 0xF010 6 none (b1 slot)

/-- 0xF010:07: the image confirmed (R949). -/
def execFirmwareConfirm (h : Hdr) (v : Bool) (s : State) : Host.Outcome State Fault Refusal :=
  run "FIRMWARE_CONFIRM" (.firmwareConfirm h v) s fun s => writeRow s h 0xF010 7 none (b1 (b01 v))

/-- 0xF200:01: a service key pair (R919). -/
def execServiceIdentityGenerate (h : Hdr) (v : Bool) (s : State) : Host.Outcome State Fault Refusal :=
  run "SERVICE_IDENTITY_GENERATE" (.serviceIdentityGenerate h v) s fun s => writeRow s h 0xF200 1 none (b1 (b01 v))

/-- 0xF200:0A: the certificate installed (R922). -/
def execCertificateInstall (h : Hdr) (v : Bool) (s : State) : Host.Outcome State Fault Refusal :=
  run "CERTIFICATE_INSTALL" (.certificateInstall h v) s fun s => writeRow s h 0xF200 0x0A none (b1 (b01 v))

/-- 0xF200:0B: the service identity erased (R924). -/
def execServiceIdentityErase (h : Hdr) (v : Bool) (s : State) : Host.Outcome State Fault Refusal :=
  run "SERVICE_IDENTITY_ERASE" (.serviceIdentityErase h v) s fun s => writeRow s h 0xF200 0x0B none (b1 (b01 v))

/-- 0xF300:01: the operator anchor (R925). -/
def execOperatorAnchorWrite (h : Hdr) (anchor : Octets) (s : State) : Host.Outcome State Fault Refusal :=
  run "OPERATOR_ANCHOR_WRITE" (.operatorAnchorWrite h anchor) s fun s => writeRow s h 0xF300 1 none anchor

/-- 0xF100:02: a new attestation report (R926 to R931). -/
def execAttestationReportRead (h : Hdr) (s : State) : Host.Outcome State Fault Refusal :=
  run "ATTESTATION_REPORT_READ" (.attestationReportRead h) s fun s => serve s h 0x10 (readAct [{ idx := 0xF100, sub := 2 }])

/-- 0x9050:03: a restart begins with a seal (R983). -/
def execModuleRestart (h : Hdr) (v : Bool) (s : State) : Host.Outcome State Fault Refusal :=
  run "MODULE_RESTART" (.moduleRestart h v) s fun s => writeRow s h 0x9050 3 none (b1 (b01 v))

end Sys2Proof.Machine
end

