-- ==== Sys2Proof/Machine/Commit.lean ====
section
/-! DEFINITION. COMMIT (R780 to R782): the checks of every chapter on the configuration that the pending set would leave, the bound
proof, and what comes into force on the COMMIT edge. -/

namespace Sys2Proof.Machine

/-! ### The pending set -/

/-- The elements of some subindices of an object that a pending set holds. -/
def touched (p : Tbl Val) (idx : Nat) (subs : List Nat) : List Nat :=
  ((p.filter fun e => keyIdx e.1 == idx && subs.contains (keySub e.1)).map fun e => keyElem e.1).eraseDups

/-- An object of the pending set. -/
def holds (p : Tbl Val) (idx sub e : Nat) : Bool := (tfind p (okey idx sub e)).isSome

/-- A value that the pending set changes. -/
def changes (m : Mod) (p : Tbl Val) (idx sub e : Nat) : Bool := look m p idx sub e != look m [] idx sub e

/-- A refusal at an object. -/
def refuseAt (status idx sub e : Nat) (vals : List Nat := []) : Option Refuse :=
  some { status, addr := { idx, sub, isElem := isTable idx, elem := if isTable idx then e else 0 }, vals }

/-- A refusal at an object where a condition holds. -/
def refuseIf (c : Bool) (status idx sub e : Nat) (vals : List Nat := []) : Option Refuse := if c then refuseAt status idx sub e vals else none

/-! ### Ports -/

/-- A gate control list is bound to a port (R45). -/
def gatesBound (m : Mod) (port : Nat) : Bool := (gate m port).force.on || ((gate m port).pend.map (·.on)).getD false

/-- R44 to R46, R48, R59, R204 on the ports. R48 names a pending Width of an index that the layout absorbs, and pending values of 0x3200, 0x6100
and 0x6800; any other pending subindex of 0x3100 of such an index is refused in the same way, and a source line port that the layout absorbs with
0x2001 (DESIGN CHOICE, log 24). A change of mode is judged on the associations as the COMMIT would leave them (R204; DESIGN CHOICE, log 24). -/
def checkPorts (m : Mod) (p : Tbl Val) : Option Refuse :=
  let layout := touched p 0x3100 [1]
  (layout.findSome? fun e => let w := cfg m p 0x3100 1 e
    refuseIf (!(List.contains [1, 2, 4, 8] w) || e % 8 % w != 0) 0x2001 0x3100 1 e) <|>
  ((List.range 64).findSome? fun e =>
    if !layout.isEmpty ∧ absorbedIn m p e ∧ !absorbed m e then
      refuseIf (infB m 0x3100 3 e || !(boundQueues m [] e).isEmpty || gatesBound m e) 0x3003 0x3100 1 e
    else none) <|>
  ((touched p 0x3100 [1, 2]).findSome? fun e =>
    refuseIf (infB m 0x3100 3 e && (changes m p 0x3100 1 e || changes m p 0x3100 2 e)) 0x3003 0x3100 (if changes m p 0x3100 1 e then 1 else 2) e) <|>
  (p.findSome? fun x =>
    let idx := keyIdx x.1
    let e := keyElem x.1
    let port := if idx = 0x3100 then some e else absorbedPort idx (keySub x.1) e
    refuseIf (port.any (absorbedIn m p ·)) 0x3003 idx (keySub x.1) e) <|>
  ((touched p 0x3310 [1]).findSome? fun e => refuseIf (decide (cfg m p 0x3310 1 e < 64) && absorbedIn m p (cfg m p 0x3310 1 e)) 0x2001 0x3310 1 e) <|>
  ((touched p 0x3100 [2, 4]).findSome? fun e => refuseIf (gelixIn m p e && cfg m p 0x3100 4 e == 0) 0x4002 0x3100 4 e) <|>
  ((touched p 0x3100 [2]).findSome? fun e =>
    if changes m p 0x3100 2 e then
      let mode := cfg m p 0x3100 2 e
      refuseIf ((elems m p 0x4000 1).any fun a => cfg m p 0x4000 4 a == e &&
        (if mode = 1 then cfg m p 0x4000 1 a == 1 || cfg m p 0x4000 1 a == 2 else 3 ≤ cfg m p 0x4000 1 a)) 0x3003 0x3100 2 e
    else none)

/-! ### Associations -/

/-- The types a suite allows (R209). -/
def suiteFits (suite type : Nat) : Bool :=
  match suite with
  | 0 => type == 5 || type == 6
  | 1 => true
  | 2 => true
  | 3 => [1, 2, 5, 6].contains type
  | 4 => [1, 2, 5, 6].contains type
  | _ => type == 1 || type == 2

/-- The association's part of a COMMIT (R202, R203, R205, R206, R209, R212, R213, R225, R239, R272, R453, R454, R890). -/
def checkAssoc (m : Mod) (slot : Nat) (p : Tbl Val) (a : Nat) : Option Refuse :=
  let c (sub : Nat) : Nat := cfg m p 0x4000 sub a
  let h (sub : Nat) : Bool := holds p 0x4000 sub a
  let type := c 1
  let port := c 4
  let x := assoc m a
  let qp := qPort m p (c 9)
  -- the queue that the COMMIT names, or has been named before; its default is no name (DESIGN CHOICE, log 24)
  let names := h 9 || ((h 1 || h 3) && (type == 2 || type == 6) && c 9 != 0)
  let no (b : Bool) (st sub : Nat) : Option Refuse := refuseIf b st 0x4000 sub a
  no (h 4 && port != 0xFF && !(decide (port < 64) && isLine port && basinOf port == aBasin a && !absorbedIn m p port)) 0x2001 4 <|>
  no ((h 1 || h 4) && type != 0 && decide (port < 64) &&
    (if portMode m port = 1 then type == 1 || type == 2 else decide (3 ≤ type))) 0x4002 (if h 4 then 4 else 1) <|>
  no ((h 1 || h 4) && (type == 3 || type == 4) && decide (port < 64) &&
    (elems m p 0x4000 1).any fun b => b != a && cfg m p 0x4000 1 b == type && cfg m p 0x4000 4 b == port) 0x3003 (if h 4 then 4 else 1) <|>
  no ((h 1 || h 3) && (type == 3 || type == 4) && c 3 != 0) 0x2001 3 <|>
  no ((h 2 || h 1 && type != 0) && c 2 == 0xFE && (sess m slot).role != 1) 0x1005 2 <|>
  no (h 2 && c 2 == 0xFE && m.sys.retired) 0x4002 2 <|>
  no ((h 1 || h 2) && type != 0 && !suiteFits (c 2) type) 0x4002 2 <|>
  no ((changes m p 0x4000 1 a || changes m p 0x4000 2 a) && (x.s0.full || x.s1.full)) 0x3003 (if changes m p 0x4000 1 a then 1 else 2) <|>
  no ((h 1 || h 5) && (type == 3 || type == 4) && isHa m p a) 0x4002 5 <|>
  no ((h 1 || h 2 || h 7) && type == 2 && isXpn (c 2) && c 7 % 65536 != a) 0x2001 7 <|>
  no ((h 1 || h 2 || h 0x0B) && (c 0x0B == 0 || decide (lastPn type (c 2) < c 0x0B))) 0x2001 0x0B <|>
  no (names && !(decide (c 9 < 32768) && decide (qp < 64) && !isLine qp && !absorbedIn m p qp && basinOf qp == aBasin a)) 0x2001 9 <|>
  no (names && qBerth m p (c 9) != c 3) 0x1006 9

/-- A switch request (R289, R290, R292, R294, R295, R299, R322). -/
def checkSwitch (m : Mod) (p : Tbl Val) (a : Nat) : Option Refuse :=
  let req := cfg m p 0x4040 1 a
  let x := assoc m a
  let type := aType m a
  let now := nowH m (aHarbour a)
  let at_ := cfg m p 0x4040 2 a
  let target := x.slot (1 - x.txPhase)
  let no (b : Bool) (st sub : Nat) : Option Refuse := refuseIf b st 0x4040 sub a
  no (!(List.contains [1, 3, 5] type)) 0x4002 1 <|>
  no (type == 3 && x.sw == 4) 0x3002 1 <|>
  if req = 0 then none
  else
    no (!isGcm (aSuite m a)) 0x4002 1 <|>
    no (!(target.full && !target.spent && decide ((x.slot x.txPhase).order < target.order))) 0x4002 1 <|>
    no (type == 3 && !infB m 0x3100 3 (aPort m a) && cfg m p 0x3100 3 (aPort m a) == 0) 0x3003 1 <|>
    (if req = 2 then no (!synced m (aHarbour a)) 0x4004 1 <|> no (decide (at_ ≤ now) || decide (now + 2592000 * nsPerSec < at_)) 0x2001 2 else none)

/-! ### Classification -/

/-- A clear half (R396). -/
def checkHalf (m : Mod) (p : Tbl Val) (e : Nat) : Option Refuse :=
  let action := cfg m p 0x5000 1 e
  let berth := cfg m p 0x5000 2 e
  let dq := cfg m p 0x5000 5 e
  let da := cfg m p 0x5000 6 e
  let used := defaultUsed m p e
  let no (b : Bool) (st sub : Nat) : Option Refuse := refuseIf b st 0x5000 sub e
  no (bits (cfg m p 0x5000 4 e) 3 2 == 3) 0x2001 4 <|>
  no (used && da == 0xFFFF) 0x2001 6 <|>
  no (used && qBasin dq != e / 65536) 0x2001 5 <|>
  no (used && aBasin da != e / 65536) 0x2001 6 <|>
  no (used && cfg m p 0x4000 1 da != 1 && cfg m p 0x4000 1 da != 5) 0x2001 6 <|>
  no (used && (decide (64 ≤ qPort m p dq) || cfg m p 0x4000 4 da != qPort m p dq)) 0x2001 6 <|>
  no (used && qBerth m p dq != berth) 0x1006 5 <|>
  no (used && cfg m p 0x4000 3 da != berth) 0x1006 6 <|>
  no (action == 2 && cfg m p 0x5100 1 (e / 65536 * 8 + cfg m p 0x5000 3 e) != berth) 0x1006 3

/-- An LPM table's owner and bank maps (R403, R404). -/
def checkTable (m : Mod) (p : Tbl Val) (t : Nat) : Option Refuse :=
  let held := (clsOf m (t / 8)).prefixes.filter fun x => x.table == t % 8
  let moved (x : Prefix) : Bool := bankOfLen m p t x.v6 x.len != bankOfLen m [] t x.v6 x.len
  refuseIf (changes m p 0x5100 1 t && !held.isEmpty) 0x3003 0x5100 1 t <|>
  refuseIf (held.any fun x => !x.v6 && moved x) 0x3003 0x5100 2 t <|>
  refuseIf (held.any fun x => x.v6 && moved x) 0x3003 0x5100 3 t

/-! ### Queues and gates -/

/-- A queue's part of a COMMIT (R457, R458, R463, R657). -/
def checkQueue (m : Mod) (p : Tbl Val) (q : Nat) : Option Refuse :=
  let ch (sub : Nat) : Bool := changes m p 0x6000 sub q
  let no (b : Bool) (st sub : Nat) : Option Refuse := refuseIf b st 0x6000 sub q
  let h := qBasin q / 2
  ([2, 3, 4, 6].findSome? fun s => no (qLive m [] q && ch s) 0x3003 s) <|>
  no (holds p 0x6000 1 q && qEn m p q && qPort m p q == 0xFF) 0x2001 1 <|>
  no (qPark m p q && decide (6 ≤ qClass m p q)) 0x2001 0x0B <|>
  no (qPark m p q && qEn m p q && (holds p 0x6000 1 q || ch 0x0B) &&
    !(List.range 16).any fun r => regionKind m h r == 1 && regionOn m h r && inf m 0x8010 5 (h * 16 + r) == qBasin q) 0x4002 1

/-- A queue's rates (R474). -/
def checkRates (m : Mod) (p : Tbl Val) (q : Nat) : Option Refuse :=
  let port := qPort m p q
  let two := qMode m p q == 1
  let rate := qRate m p q
  let pir := cfg m p 0x6000 9 q
  let no (b : Bool) (sub : Nat) : Option Refuse := refuseIf b 0x2001 0x6000 sub q
  no (two && decide (pir < rate)) 7 <|>
  no (two && decide (cfg m p 0x6000 0x0A q < cfg m p 0x6000 8 q)) 8 <|>
  (if port < 64 then no (decide (paceRate m p port < rate)) 7 <|> no (two && decide (paceRate m p port < pir)) 9 else none)

/-- The ports whose pending gate bank a COMMIT brings. -/
def gatePorts (p : Tbl Val) : List Nat := (touched p 0x6800 (span 1 8) ++ (touched p 0x6810 [1, 2]).map (· / 1024)).eraseDups

/-- A pending bank (R510, R529, R547). -/
def checkBank (m : Mod) (p : Tbl Val) (port : Nat) : Option Refuse :=
  let b := pendingBank m p port
  let no (c : Bool) (st sub : Nat) : Option Refuse := refuseIf c st 0x6800 sub port
  ((touched p 0x6810 [2]).findSome? fun e =>
    refuseIf (e / 1024 == port && decide (cfg m p 0x6800 2 port < cfg m p 0x6810 2 e)) 0x2001 0x6810 2 e) <|>
  if !b.on then none
  else
    (b.entries.zipIdx.findSome? fun x => refuseIf (decide (x.1.2 < 16)) 0x2001 0x6810 2 (port * 1024 + x.2)) <|>
    no (b.entries.foldl (fun s x => s + x.2) 0 != b.cycle) 0x2001 2 <|>
    no ((List.range 8).any fun c => let l := natAt b.limits (2 * c) 2; l != 0xFFFF && (decide (l < 64) || decide (9290 < l))) 0x2001 8 <|>
    no (!synced m (harbourOf port) && !(gateImmediate m p port && decide (b.base < nowH m (harbourOf port)))) 0x4004 1

/-! ### Time -/

/-- Time source, P2P, triggers (R564, R590, R602). -/
def checkTime (m : Mod) (p : Tbl Val) : Option Refuse :=
  let src := cfg m p 0x7010 1 0
  let port := cfg m p 0x7010 2 0
  let right := (port == 0x40 || port == 0x41) && src == 1 || decide (port < 64) && !absorbedIn m p port && (if src = 1 then !isLine port else gelixIn m p port)
  refuseIf (!(touched p 0x7010 [1, 2]).isEmpty && (src == 1 || src == 2) && !right) 0x2001 0x7010 2 0 <|>
  ((touched p 0x7030 [5]).findSome? fun e =>
    refuseIf (cfg m p 0x7030 5 e == 1 && decide (e < 64) && isLine e && cfg m p 0x3100 2 e == 0) 0x4002 0x7030 5 e) <|>
  ((touched p 0x7040 [1, 2, 3, 4, 5, 8]).findSome? fun e =>
    let period := if e = 8 then nsPerSec else cfg m p 0x7040 3 e
    let width := cfg m p 0x7040 4 e
    refuseIf (width == 0 || decide (period ≤ width)) 0x2001 0x7040 4 e <|>
    refuseIf (decide (period < 100)) 0x2001 0x7040 3 e <|>
    refuseIf (cfg m p 0x7040 1 e == 1 && decide (cfg m p 0x7040 2 e < nowH m (pinHarbour e))) 0x2001 0x7040 2 e)

/-! ### Stowage -/

/-- A region under a pending set: kind, base, size (MiB), basin, enabled. -/
def regionIn (m : Mod) (p : Tbl Val) (u sub : Nat) : Nat := cfg m p 0x8010 sub u

/-- The regions whose Enable a COMMIT brings into force as TRUE. -/
def enabling (m : Mod) (p : Tbl Val) (h : Nat) : List Nat :=
  (span (h * 16) 16).filter fun u => regionIn m p u 7 != 0 && !infB m 0x8010 7 u

/-- Stowage of a harbour (R628, R629, R640 to R649). -/
def checkStow (m : Mod) (role : Nat) (p : Tbl Val) (h : Nat) : Option Refuse :=
  let gib := cfg m p 0x8000 2 h
  let us := span (h * 16) 16
  let mine := (touched p 0x8010 (span 1 7)).filter fun u => u / 16 == h
  let kinds (k : Nat) : List Nat := us.filter fun u => regionIn m p u 1 == k
  let no (b : Bool) (st sub u : Nat) (vals : List Nat := []) : Option Refuse := refuseIf b st 0x8010 sub u vals
  let cap := (stow m h).capacity
  refuseIf (holds p 0x8000 1 h && cfg m p 0x8000 1 h == 1 && decide (cap * 1048576 < layoutBytes gib)) 0x3001 0x8000 1 h [largestSpan cap] <|>
  refuseIf (changes m p 0x8000 2 h && infB m 0x8000 1 h) 0x3003 0x8000 2 h <|>
  (mine.findSome? fun u => [1, 2, 3, 4, 5].findSome? fun s => no (infB m 0x8010 7 u && changes m p 0x8010 s u) 0x3003 s u) <|>
  (if mine = [] ∧ !holds p 0x8000 2 h then none
   else
    (us.findSome? fun u => no ((regionIn m p u 1 != 0 || regionIn m p u 4 != 0) && decide (gib * 1024 < regionIn m p u 3 + regionIn m p u 4)) 0x2001 4 u) <|>
    (us.findSome? fun u => no (regionIn m p u 7 != 0 && us.any fun v => v != u && regionIn m p v 7 != 0 &&
        decide (regionIn m p u 3 < regionIn m p v 3 + regionIn m p v 4 ∧ regionIn m p v 3 < regionIn m p u 3 + regionIn m p u 4)) 0x2001 3 u) <|>
    (mine.findSome? fun u =>
      let k := regionIn m p u 1
      no (if k = 1 then (kinds 1).any fun v => v != u && regionIn m p v 5 == regionIn m p u 5
          else (k == 2 || k == 3 || k == 4) && decide (1 < (kinds k).length)) 0x3003 1 u <|>
      no (k == 4 && decide (regionIn m p u 4 < 64)) 0x3003 4 u <|>
      no (if k = 1 then regionIn m p u 5 / 2 != h else regionIn m p u 5 != 0xFF) 0x2001 5 u) <|>
    (mine.findSome? fun u => no (holds p 0x8010 2 u && regionIn m p u 2 == 1 &&
        decide (2 < (us.filter fun v => regionIn m p v 2 == 1).length)) 0x3001 2 u [2]) <|>
    (mine.findSome? fun u => no (regionIn m p u 2 == 1 && decide ((stow m h).metaBits < 64)) 0x4002 2 u) <|>
    (mine.findSome? fun u => no (infB m 0x8010 7 u && regionIn m p u 7 == 0 && inf m 0x8010 1 u == 1 &&
        (elems m p 0x6000 0x0B).any fun q => qPark m p q && qLive m p q && qBasin q == inf m 0x8010 5 u) 0x3003 7 u) <|>
    (mine.findSome? fun u => no (role != 1 && holds p 0x8010 6 u && decide (bits (regionIn m p u 6) 10 2 ≠ 0 ∧ bits (regionIn m p u 6) 10 2 ≠ bits (inf m 0x8010 6 u) 10 2))
        0x1005 6 u) <|>
    no (decide (255 < (stow m h).restarts + (enabling m p h).length)) 0x3001 7 ((enabling m p h).headD 0) [255])

/-! ### Berths -/

/-- Use of a shared resource 1, 2 or 5 by a berth in a basin under a pending set (R691). -/
def useIn (m : Mod) (p : Tbl Val) (b basin r : Nat) : Nat :=
  match r with
  | 1 => ((elems m p 0x6000 1 ++ m.queues.map (·.1)).eraseDups.filter fun q => qBasin q == basin && qBerth m p q == b && qLive m p q).length
  | 2 => ((elems m p 0x4000 1).filter fun a => aBasin a == basin && cfg m p 0x4000 3 a == b && cfg m p 0x4000 1 a != 0).length
  | _ => cryptoUse m p b basin

/-- The berths that queues and associations of a pending set belong to. -/
def usersOf (m : Mod) (p : Tbl Val) : List Nat :=
  ((touched p 0x6000 (span 1 14)).map (qBerth m p ·) ++ (touched p 0x4000 (span 1 11)).map (fun a => cfg m p 0x4000 3 a) ++
   (touched p 0x5000 (span 1 8)).map fun e => cfg m p 0x5000 2 e).eraseDups

/-- Shares (R208, R458, R698): use that a COMMIT raises stays within the share. -/
def checkShares (m : Mod) (p : Tbl Val) : Option Refuse :=
  (usersOf m p).findSome? fun b => [0, 1, 2, 3].findSome? fun basin => [1, 2, 5].findSome? fun r =>
    let use := useIn m p b basin r
    let share := shareOf m p b basin r
    refuseIf (decide (useIn m [] b basin r < use) && decide (share < use)) 0x3001 0xA010 r (b * 4 + basin) [share]

/-- The sum of the shares of berths 1 to 255 in a basin (R692). -/
def shareSum (m : Mod) (p : Tbl Val) (basin r : Nat) : Nat :=
  ((elems m p 0xA010 r).filter fun e => e % 4 == basin && 4 ≤ e).foldl (fun s e => s + cfg m p 0xA010 r e) 0

/-- The owner subindices of berth resources (R677). -/
def ownerSubs : List (Nat × Nat) := [(0x6000, 2), (0x4000, 3), (0x5100, 1), (0x5000, 2)]

/-- The berth owns some resource other than its nodes, or holds a KEK or share (R689), under a pending set. -/
def ownsAny (m : Mod) (p : Tbl Val) (b : Nat) : Bool :=
  (ownerSubs.any fun x => (elems m p x.1 x.2).any fun e => cfg m p x.1 x.2 e == b) ||
  (kek m b).kek != [] || (kek m b).shareA.isSome || (kek m b).shareB.isSome

/-- The berth of a resource that an object belongs to in force, or of a share (R701). -/
def resourceOf (m : Mod) (idx e : Nat) : Option Nat :=
  if [0x6000, 0x4000, 0x4040, 0x5000, 0x5100, 0x6200, 0xA010].contains idx then ownerOf m idx e else none

/-- Berths (R678, R681, R682, R689, R692, R701). -/
def checkBerths (m : Mod) (p : Tbl Val) : Option Refuse :=
  (p.findSome? fun x =>
    let idx := keyIdx x.1
    refuseIf ((resourceOf m idx (keyElem x.1)).any fun b => (berth m b).resetting) 0x3002 idx (keySub x.1) (keyElem x.1)) <|>
  (ownerSubs.findSome? fun x => (touched p x.1 [x.2]).findSome? fun e =>
    let b := cfg m p x.1 x.2 e
    refuseIf (b != 0 && !infB m 0xA000 2 b) 0x4002 x.1 x.2 e) <|>
  ((touched p 0xA000 [1, 2]).findSome? fun b =>
    refuseIf (changes m p 0xA000 1 b && infB m 0xA000 2 b) 0x3003 0xA000 1 b <|>
    refuseIf (cfg m p 0xA000 2 b == 1 && ((b != 0 && cfg m p 0xA000 1 b == 0) || (span 1 255).any fun c => c != b && cfg m p 0xA000 2 c == 1 && cfg m p 0xA000 1 c == cfg m p 0xA000 1 b))
      0x3003 0xA000 1 b <|>
    refuseIf (infB m 0xA000 2 b && cfg m p 0xA000 2 b == 0 && ownsAny m p b) 0x3003 0xA000 2 b) <|>
  ([1, 2, 3, 4, 5, 6].findSome? fun r => (touched p 0xA010 [r]).findSome? fun e =>
    let cap := capacityOf m (e % 4) r
    refuseIf (decide (cap < shareSum m p (e % 4) r) && decide (cfg m [] 0xA010 r e < cfg m p 0xA010 r e)) 0x3001 0xA010 r e [cap, shareSum m [] (e % 4) r])

/-! ### Snapshots and credentials -/

/-- A snapshot request (R826, R828, R832, R833). -/
def checkSnap (m : Mod) (slot : Nat) (p : Tbl Val) : Option Refuse :=
  let scope := cfg m p 0xB000 1 0
  let value := cfg m p 0xB000 2 0
  let x := sess m slot
  let no (b : Bool) (st sub : Nat) : Option Refuse := refuseIf b st 0xB000 sub 0
  if !holds p 0xB000 4 0 ∨ cfg m p 0xB000 4 0 ≠ 1 then none
  else
    no (x.role == 3 && scope != 2) 0x1005 1 <|>
    no (x.role == 3 && value != x.berth) 0x1006 2 <|>
    no (match scope with
      | 1 => decide (64 ≤ value) || absorbedIn m p value
      | 2 => decide (256 ≤ value)
      | 3 => decide (2 ≤ value)
      | _ => decide (value ≠ 0)) 0x2001 2 <|>
    no ((captureTime m (cfg m p 0xB000 3 0)).isNone) 0x2001 3 <|>
    no (decide (2 ≤ (drainAll m).snap.st)) 0x3002 4 <|>
    no ((snapHarbours scope value).contains 1 && !m.time.linkUp) 0x3002 4

/-- The combination rules of one credential (R797): an Officer or Operator takes the password method, only a Tenant carries a BPID,
and no berth has BPID 0xF_FFFF (R680). -/
def checkCred (m : Mod) (p : Tbl Val) (e : Nat) : Option Refuse :=
  let role := cfg m p 0x2100 1 e
  refuseIf ((role == 1 || role == 2) && cfg m p 0x2100 2 e != 0) 0x2001 0x2100 2 e <|>
  refuseIf (if role == 3 then cfg m p 0x2100 3 e == 0xFFFFF else cfg m p 0x2100 3 e != 0) 0x2001 0x2100 3 e

/-- Every credential the COMMIT touches keeps the combination rules (R797), and one in force with role Officer remains (R768). -/
def checkCreds (m : Mod) (p : Tbl Val) : Option Refuse :=
  let officer := (List.range 64).any fun c => cfg m p 0x2100 1 c == 1 && (credSecret m c).isSome
  match touched p 0x2100 [1, 2, 3, 6] with
  | [] => none
  | e :: _ => (touched p 0x2100 [1, 2, 3, 6]).findSome? (checkCred m p) <|> refuseIf (!officer) 0x3003 0x2100 1 e

/-! ### All checks -/

/-- The gates as the COMMIT would leave them (R526, R528). -/
def gatesWith (m : Mod) (p : Tbl Val) (port : Nat) : Gate := if (gatePorts p).contains port then withPending m p port else gate m port

/-- The queues whose rates a COMMIT bears on: those it writes, and those of ports whose width or mode it changes. -/
def ratedQueues (m : Mod) (p : Tbl Val) : List Nat :=
  (touched p 0x6000 (span 1 14) ++ (touched p 0x3100 [1, 2]).flatMap (boundQueues m p)).eraseDups

/-- Every check of a COMMIT in order, the bound proof last (R535, R780). -/
def commitCheck (m : Mod) (slot : Nat) (p : Tbl Val) : Option Refuse :=
  (p.findSome? fun x => refuseIf ((objHarbour (keyIdx x.1) (keyElem x.1)).any fun h => !pilotUp m h) 0x3002 (keyIdx x.1) (keySub x.1) (keyElem x.1)) <|>
  checkBerths m p <|>
  checkPorts m p <|>
  ((touched p 0x4000 (span 1 11)).findSome? (checkAssoc m slot p)) <|>
  ((touched p 0x4040 [1]).findSome? (checkSwitch m p)) <|>
  ((touched p 0x5000 (span 1 7)).findSome? (checkHalf m p)) <|>
  ((touched p 0x5100 [1, 2, 3]).findSome? (checkTable m p)) <|>
  ((touched p 0x6000 (span 1 14)).findSome? (checkQueue m p)) <|>
  ((ratedQueues m p).findSome? (checkRates m p)) <|>
  ((touched p 0x6100 [7]).findSome? fun e =>
    refuseIf (changes m p 0x6100 7 e && (boundQueues m [] e).any (qLive m [] ·)) 0x3003 0x6100 7 e) <|>
  ((gatePorts p).findSome? (checkBank m p)) <|>
  checkTime m p <|>
  ((touched p 0x3400 [3]).findSome? fun e => refuseIf (cfg m p 0x3400 3 e == 1 && !historyFits m p e) 0x3001 0x3400 3 e) <|>
  ([0, 1].findSome? (checkStow m (sess m slot).role p)) <|>
  checkShares m p <|>
  checkSnap m slot p <|>
  checkCreds m p <|>
  boundProof m (withDivert m p (gatesWith m p)) (gatesWith m p)

/-! ### Coming into force -/

/-- The port that an object's element belongs to, for the tables numbered by port (R49; log 50). -/
def portOfKey (k : Nat) : Option Nat :=
  if [0x2030, 0x3100, 0x3200, 0x3300, 0x3310, 0x3400, 0x4030, 0x5040, 0x6100, 0x6800, 0x7030].contains (keyIdx k) then some (keyElem k)
  else if keyIdx k = 0x6810 then some (keyElem k / 1024)
  else none

/-- An index that a narrowed port releases becomes a one-lane port with every subindex at its default (R49): what it held before it was
absorbed is gone, and what its units hold starts anew. -/
def releaseIndex (m : Mod) (p : Nat) : Mod :=
  { m with obj := m.obj.filter fun e => portOfKey e.1 != some p, ports := tdel m.ports p, rx := tdel m.rx p, tx := tdel m.tx p, pm := tdel m.pm p,
           gates := tdel m.gates p, mgmt := { m.mgmt with icept := tdel m.mgmt.icept p } }

/-- The indices that a pending set releases or absorbs (R48, R49); an absorbed index keeps no width of its own. -/
def relayout (m : Mod) (p : Tbl Val) : Mod :=
  (List.range 64).foldl (fun m1 e =>
    match absorbed m e, absorbedIn m p e with
    | true, false => releaseIndex m1 e
    | false, true => setNat m1 0x3100 1 e 1
    | _, _ => m1) m

/-- The values of a pending set in force (R778, R780). -/
def applyValues (m : Mod) (p : Tbl Val) : Mod :=
  p.foldl (fun m e =>
    let idx := keyIdx e.1
    if idx = 0x2100 then
      { m with tether := { m.tether with vault := { m.tether.vault with cfg := putVal m.tether.vault.cfg idx (keySub e.1) (keyElem e.1) e.2 } } }
    else setObj m idx (keySub e.1) (keyElem e.1) e.2) m

/-- Ports that are disabled or enabled, under the configuration before and after (R60, R73, R81, R322). -/
def applyPorts (m0 m : Mod) (p : Tbl Val) : Mod :=
  let ports := touched p 0x3100 [1, 2, 3, 4]
  let lower := ports.filter fun e => portEnabled m0 e && !portEnabled m e
  let raise_ := ports.filter fun e => !portEnabled m0 e && portEnabled m e
  let m1 := lower.foldl (fun m e =>
    let m' := disablePort (endOverdue m e) e (width m0 e)
    match boundAssoc m' 3 e with
    | some a => cancelSwitch m' a 2
    | none => m') m
  raise_.foldl (fun m e => enablePort (endOverdue m e) e) m1

/-- A queue after a COMMIT (R459, R460, R476, R491 to R495). -/
def applyQueue (m0 m : Mod) (q : Nat) : Mod :=
  let x := queue m q
  let burst (tok : Int) (res top : Nat) : Int × Nat := if (top : Int) < tok then (top, 0) else (tok, res)
  if !qEn m [] q ∧ !qLive m0 [] q then m
  else if !qEn m [] q ∧ x.frames = [] ∧ !x.draining then setQueue m q {}
  else if !qEn m0 [] q ∧ !x.draining then startQueue m q
  else
    let m1 := refillQueue m q
    let y := queue m1 q
    let (c, rc) := burst y.tokC y.resC (inf m 0x6000 8 q)
    let (d, rd) := burst y.tokP y.resP (inf m 0x6000 0x0A q)
    let m2 := setQueue m1 q { y with draining := !qEn m [] q, tokC := c, resC := rc, tokP := d, resP := rd }
    retarget m2 q

/-- A berth node after a COMMIT (R476, R486, R495, R497). A node that has not been shaped has no limit on its rate, so a rate lowers it. -/
def applyNode (m0 m : Mod) (k : Nat) : Mod :=
  let x := node m k
  let r := inf m 0x6200 2 k
  let burst : Int := (inf m 0x6200 3 k : Nat)
  if r = 0xFFFFFFFF then (if r = x.rate then (if x.lowering then setNode m k { x with lowering := false } else m) else startNode m k)
  else if x.rate = 0xFFFFFFFF then (if nodeFits m k then startNode m k else setNode m k { x with lowering := true })
  else
    let m1 := refillNode m k
    let y := node m1 k
    let m2 := if burst < y.tokens then setNode m1 k { y with tokens := burst, residue := 0 } else m1
    if inf m0 0x6200 2 k = r ∧ !y.lowering then m2
    else if y.rate ≤ r ∨ nodeFits m2 k then setNode m2 k { node m2 k with rate := r, lowering := false }
    else setNode m2 k { node m2 k with lowering := true }

/-- An association whose type or suite changes (R201, R276): its switch and replay state start anew, and the journal records BYPASS set
or cleared with the credential. -/
def applyAssoc (m0 : Mod) (cred : Nat) (m : Mod) (a : Nat) : Mod :=
  let was := aSuite m0 a == 0xFE
  let is_ := aSuite m a == 0xFE
  let x := assoc m a
  let m1 := if aType m0 a = aType m a then m
    else setAssoc m a { ({} : Assoc) with written := x.written, lastSwitch := x.lastSwitch, switches := x.switches, knrWait := x.knrWait }
  if was = is_ then m1 else raise m1 (Config.bypassCode (b01 is_) % 65536) (srcH (aHarbour a)) (bpidOf m (aBerth m a)) (b2 a ++ b1 (b01 is_) ++ b2 cred)

/-- Berths enabled or disabled: event 0xA005. -/
def applyBerth (m0 m : Mod) (b : Nat) : Mod :=
  if infB m0 0xA000 2 b = infB m 0xA000 2 b then m
  else raise m 0xA005 srcModule (bpidOf m b) (b1 b ++ b4 (bpidOf m b) ++ b1 (b01 (infB m 0xA000 2 b)))

/-- Time, triggers and references (R555, R603, R963, R967). -/
def applyTime (m0 m : Mod) (p : Tbl Val) : Mod :=
  let m1 := (touched p 0x7040 [1, 2, 3, 4, 5, 8]).foldl commitTrigger m
  let m2 := if holds p 0x7010 1 0 then sourceCommitted m1 (inf m1 0x7010 1 0) else m1
  let sel := inf m2 0x7100 1 0
  if !holds p 0x7100 1 0 then m2
  else
    let m3 := if inf m0 0x7100 1 0 = sel then m2 else selectReference m2
    if (sel = 1 ∨ sel = 2) ∧ !m3.sys.refValid.testBit sel then raise m3 0x1005 srcModule 0 (b1 sel) else m3

/-- Everything else that a COMMIT sets going (R83, R158, R177, R176, R373, R648, R696, R829, R867, R870). -/
def applyRest (m0 m : Mod) (p : Tbl Val) : Mod :=
  let m1 := (touched p 0x3000 [3]).foldl loadPreset m
  let m2 := ((touched p 0x3200 [2, 3]).filter fun e => isGelix m e && portEnabled m e && (changes m0 p 0x3200 2 e || changes m0 p 0x3200 3 e)).foldl evaluateTim m1
  let m3 := ((touched p 0x3400 [1]).filter fun e => changes m0 p 0x3400 1 e).foldl pmEnabled m2
  let m4 := (touched p 0x3310 [1, 2]).foldl (fun m c =>
    if (port m c).fwd && (decide (64 ≤ inf m 0x3310 1 c) || inf m0 0x3310 1 c != inf m 0x3310 1 c || (triggers m (inf m 0x3310 1 c) (inf m 0x3310 2 c)).isEmpty) then
      refreshPort (forwardStop m c (inf m0 0x3310 1 c)) c 1
    else m) m3
  let m5 := ((touched p 0x4210 [1]).filter fun b => changes m0 p 0x4210 1 b && (entropyOf m (b / 2)).failA).foldl engageFallback m4
  let m6 := [0, 1].foldl (fun m h => (enabling m0 p h).foldl (fun m u => regionEnabled m h (u % 16)) m) m5
  let m7 := [1, 2, 3, 4, 5, 6].foldl (fun m r => (touched p 0xA010 [r]).foldl (fun m e => setOver (setOver m e r) (e % 4) r) m) m6
  let m8 := if holds p 0x9000 6 0 then ([0, 1, 2, 3].filter (throttled m7 ·)).foldl throttleBasin m7 else m7
  let m9 := if holds p 0x9000 7 0 ∧ !infB m8 0x9000 7 0 then setAlarm { m8 with tether := { m8.tether with loopMissed := 0, loopGood := 0 } } 6 false else m8
  if holds p 0xB000 4 0 then snapRequest (drainAll m9) (inf m9 0xB000 4 0) else m9

/-- Up to the edge of a COMMIT the buckets of the queues and nodes it writes fill under the bursts in force (R477, R495). -/
def refillTouched (m : Mod) (p : Tbl Val) : Mod :=
  (touched p 0x6200 [2, 3]).foldl refillNode ((touched p 0x6000 (span 1 14)).foldl (fun m q => if qLive m [] q then refillQueue m q else m) m)

/-- A pending set comes into force on one edge (R490, R780). -/
def commitApply (m : Mod) (cred : Nat) (p : Tbl Val) : Mod :=
  let m0 := refillTouched m p
  let m1 := applyPorts m0 (applyValues (relayout m0 p) p) p
  let m2 := (touched p 0x4000 [1, 2]).foldl (applyAssoc m0 cred) m1
  let m3 := (gatePorts p).foldl commitBank m2
  let m4 := (touched p 0x6000 (span 1 14)).foldl (applyQueue m0) m3
  let m5 := (touched p 0x6200 [2, 3]).foldl (applyNode m0) m4
  let m6 := (touched p 0x4040 [1]).foldl (fun m a => requestSwitch m a (inf m 0x4040 1 a)) m5
  let m7 := (touched p 0xA000 [2]).foldl (applyBerth m0) m6
  let m8 := closeEnrolment (applyRest m0 (applyTime m0 m7 p) p)
  { m8 with sys := { m8.sys with unsaved := true } }

/-- Part of a COMMIT's effect waits on the module (R782). -/
def commitWaits (m : Mod) (p : Tbl Val) : Bool :=
  ((touched p 0x6000 (span 1 14)).any fun q => (queue m q).lowering || (queue m q).draining) ||
  ((touched p 0x6200 [2, 3]).any fun k => (node m k).lowering) ||
  ((gatePorts p).any fun e => (gate m e).pend.isSome) ||
  ((touched p 0xA010 (span 1 6)).any fun e => overFlags m e != 0 || overFlags m (e % 4) != 0)

/-- COMMIT, with or without DRY_RUN (R780 to R782). A refusal for want of restart numbers raises event 0x8006 (R640). -/
def commitAct (dry : Bool) (s : State) (slot : Nat) : State × Nat × List Octets :=
  let m := s.mod
  let x := sess m slot
  let p := x.pend
  match commitCheck m slot p with
  | some r =>
    let spent := r.status == 0x3001 && r.addr.idx == 0x8010 && r.addr.sub == 7
    let h := r.addr.elem / 16
    (if spent && !dry then s.upd (raise m 0x8006 (srcH h) 0 (b1 h ++ b1 0)) else s, r.status, [detail r.addr r.vals])
  | none =>
    if dry || p.isEmpty then (s, 0, [[]])
    else
      let m1 := commitApply (setSess m slot { x with pend := [] }) x.cred p
      (s.upd m1, if commitWaits m1 p then 1 else 0, [[]])

end Sys2Proof.Machine
end

