-- ==== Sys2Proof/Machine/MgmtPort.lean ====
section
/-! DEFINITION. The management ports M0 and M1 (R722, R723, R795). -/

namespace Sys2Proof.Machine

/-- The 10GBASE-R link of a management port goes up or down (R795). -/
def mgmtLink (m : Mod) (k : Nat) (up : Bool) : Mod := { m with mgmt := { m.mgmt with linkUp := tset false m.mgmt.linkUp k up } }

/-- A management port has an IPv4 address (R795). -/
def hasIpv4 (m : Mod) (k : Nat) : Bool := (look m [] 0x2020 7 k).toOct != zeros 4

/-- Whether a frame is one a management port reacts to (R722): ARP and ICMP echo need an IPv4 address, a Camanent datagram the UDP port in
force and at most 9,168 bytes (R723), a PTP message the ordinary clock on the port (R582). -/
def mgmtTakes (m : Mod) (k : Nat) : MgmtKind → Bool
  | .arp => hasIpv4 m k
  | .echo4 => hasIpv4 m k
  | .neighbourDiscovery => true
  | .echo6 => true
  | .camanent udpPort msg => udpPort == inf m 0x2000 1 0 && decide (msg.length ≤ 9168)
  | .ptp => clockOn m (64 + k)
  | .other => false

/-- MGMT_PORT_FRAME: a frame on M0 or M1 answered, taken, or dropped and counted (R722). A Camanent datagram is counted here and its message
served by the command of its own row; so is a PTP message. -/
def mgmtFrame (m : Mod) (k : Nat) (kind : MgmtKind) : Mod :=
  if !(m.sys.running && pilotUp m k && reachable m (.mgmt (if k = 1 then 1 else 0))) then m
  else if !mgmtTakes m k kind then bump m 0x2020 0x0C k 1
  else match kind with
    | .camanent _ _ => bump m 0x2020 0x0B k 1
    | .ptp => m
    | a => emit m (.mgmtAnswer k a)

end Sys2Proof.Machine
end

