-- ==== Sys2Proof/Machine/Sessions.lean ====
section
/-! DEFINITION. The commands of Camanent sessions, relay, MCH and the management ports (R720 to R770). -/

namespace Sys2Proof.Machine

/-- OPEN (R747 to R751). -/
def execOpen (h : Hdr) (role method cred : Nat) (nonce : Octets) (sid : Nat) (moduleNonce : Octets) (s : State) :
    Host.Outcome State Fault Refusal :=
  run "OPEN" (.open_ h role method cred nonce sid moduleNonce) s fun s => openSession s h role method cred nonce sid moduleNonce

/-- PROVE (R753 to R756). -/
def execProve (h : Hdr) (proof : Option Secret) (s : State) : Host.Outcome State Fault Refusal :=
  run "PROVE" (.prove h proof) s fun s => proveSession s h proof

/-- CLOSE (R763). -/
def execClose (h : Hdr) (s : State) : Host.Outcome State Fault Refusal := run "CLOSE" (.close h) s fun s => closeSession s h

/-- READ (R775, R776). -/
def execRead (h : Hdr) (addrs : List Addr) (s : State) : Host.Outcome State Fault Refusal :=
  run "READ" (.read h addrs) s fun s => serve s h 0x10 (readAct addrs)

/-- WRITE (R775, R777, R778). -/
def execWrite (h : Hdr) (recs : List ValueRec) (s : State) : Host.Outcome State Fault Refusal :=
  run "WRITE" (.write h recs) s fun s => serve s h 0x11 (writeAct recs)

/-- READ_ELEMENTS (R775). -/
def execReadElements (h : Hdr) (first : Addr) (count : Nat) (s : State) : Host.Outcome State Fault Refusal :=
  run "READ_ELEMENTS" (.readElements h first count) s fun s => serve s h 0x12 (readElementsAct first count)

/-- WRITE_ELEMENTS (R775, R814). -/
def execWriteElements (h : Hdr) (first : Addr) (stride : Nat) (vals : List Octets) (s : State) : Host.Outcome State Fault Refusal :=
  run "WRITE_ELEMENTS" (.writeElements h first stride vals) s fun s => serve s h 0x13 (writeElementsAct first stride vals)

/-- COMMIT (R780 to R782). -/
def execCommit (h : Hdr) (s : State) : Host.Outcome State Fault Refusal := run "COMMIT" (.commit h) s fun s => serve s h 0x14 (commitAct false)

/-- COMMIT with DRY_RUN (R780). -/
def execCommitDryRun (h : Hdr) (s : State) : Host.Outcome State Fault Refusal :=
  run "COMMIT_DRY_RUN" (.commitDryRun h) s fun s => serve s h 0x14 (commitAct true)

/-- SUBSCRIBE (R775, R787). -/
def execSubscribe (h : Hdr) (filters : List (Nat × Nat)) (s : State) : Host.Outcome State Fault Refusal :=
  run "SUBSCRIBE" (.subscribe h filters) s fun s => serve s h 0x20 (subscribeAct filters)

/-- RELAY_MESSAGE (R733 to R736). -/
def execRelayMessage (h : Hdr) (msg : Octets) (s : State) : Host.Outcome State Fault Refusal :=
  run "RELAY_MESSAGE" (.relayMessage h msg) s (onMod fun m => relayOut m h msg)

/-- RELAY_RETURN (R737). -/
def execRelayReturn (port : Fin 64) (session : Nat) (msg : Octets) (s : State) : Host.Outcome State Fault Refusal :=
  run "RELAY_RETURN" (.relayReturn port session msg) s (onMod fun m => relayBack m port session msg)

/-- MCH_MESSAGE_RECEIVE (R142, R143, R732). -/
def execMchMessageReceive (port : Fin 64) (msg : Octets) (keyed : Bool) (s : State) : Host.Outcome State Fault Refusal :=
  run "MCH_MESSAGE_RECEIVE" (.mchMessageReceive port msg keyed) s (whileOn (onMod fun m => mchReceive m port msg keyed))

/-- MGMT_PORT_FRAME (R722). -/
def execMgmtPortFrame (k : Fin 2) (src : Nat) (kind : MgmtKind) (s : State) : Host.Outcome State Fault Refusal :=
  run "MGMT_PORT_FRAME" (.mgmtPortFrame k src kind) s (onMod fun m => mgmtFrame m k kind)

/-- MANAGEMENT_PORT_LINK_CHANGE (R795). -/
def execManagementPortLinkChange (k : Fin 2) (up : Bool) (s : State) : Host.Outcome State Fault Refusal :=
  run "MANAGEMENT_PORT_LINK_CHANGE" (.managementPortLinkChange k up) s (onMod fun m => mgmtLink m k up)

/-- SESSION_PROVE_TIMEOUT (R755). -/
def execSessionProveTimeout (slot : Fin 32) (s : State) : Host.Outcome State Fault Refusal :=
  run "SESSION_PROVE_TIMEOUT" (.sessionProveTimeout slot) s (onMod fun m => proveTimeout m slot)

/-- SESSION_IDLE_EXPIRE (R762). -/
def execSessionIdleExpire (slot : Fin 32) (s : State) : Host.Outcome State Fault Refusal :=
  run "SESSION_IDLE_EXPIRE" (.sessionIdleExpire slot) s (onMod fun m => idleExpire m slot)

/-- SESSION_ID_FORGET (R762). -/
def execSessionIdForget (sid : Nat) (s : State) : Host.Outcome State Fault Refusal :=
  run "SESSION_ID_FORGET" (.sessionIdForget sid) s (onMod fun m => forgetId m sid)

/-- CREDENTIAL_LOCK_EXPIRE (R756). -/
def execCredentialLockExpire (cred : Fin 64) (s : State) : Host.Outcome State Fault Refusal :=
  run "CREDENTIAL_LOCK_EXPIRE" (.credentialLockExpire cred) s (onMod fun m => unlockCred m cred)

/-- RELAY_ENTRY_LAPSE (R734). -/
def execRelayEntryLapse (port : Fin 64) (session : Nat) (s : State) : Host.Outcome State Fault Refusal :=
  run "RELAY_ENTRY_LAPSE" (.relayEntryLapse port session) s (onMod fun m => relayLapse m port session)

/-- SESSION_PILOT_TAKEOVER (R739). -/
def execSessionPilotTakeover (s : State) : Host.Outcome State Fault Refusal := run "SESSION_PILOT_TAKEOVER" .sessionPilotTakeover s (onMod takeover)

/-- INTERCEPT_REPLY_SEND (R728, R729). -/
def execInterceptReplySend (port : Fin 64) (s : State) : Host.Outcome State Fault Refusal :=
  run "INTERCEPT_REPLY_SEND" (.interceptReplySend port) s fun s => s.upd (sendReply s.otp.serial s.mod port)

/-- INTERCEPT_REPLY_DISCARD (R730). -/
def execInterceptReplyDiscard (port : Fin 64) (s : State) : Host.Outcome State Fault Refusal :=
  run "INTERCEPT_REPLY_DISCARD" (.interceptReplyDiscard port) s (onMod fun m => discardReply m port)

end Sys2Proof.Machine
end

