-- ==== Sys2Proof/Machine/TamperEvents.lean ====
section
/-! DEFINITION. The commands of the tamper monitors, the cell, the supply, the keel, the reference loop and start-up (R857 to R890, R959 to R994, R1040). -/

namespace Sys2Proof.Machine

/-- Both zeroize pins asserted for 100 µs (R864): source 7, whose response is Zeroize. -/
def zeroizePins (s : State) : State :=
  let rank := responseOf s.mod 7
  sourceEvent s 7 0 0x9008 srcTether 0 rank fun n => b1 rank ++ b4 n

/-- A cell above 2.9 V for 10 s closes an open swap window (R885): one fitted within it, since by R887's table the cell in place when the window
opens leaves it open (DEDUCED, log 54). -/
def stableCell (m : Mod) (millivolts : Nat) : Mod :=
  if m.tether.swapEnd.isSome && m.tether.cellPresent && m.tether.swapSwapped && decide (2900 < millivolts) then closeWindow m millivolts 0 else m

/-- RETIRE_CONFIRMATION_EXPIRE: R888. -/
def execRetireConfirmationExpire (s : State) : Host.Outcome State Fault Refusal :=
  run "RETIRE_CONFIRMATION_EXPIRE" .retireConfirmationExpire s (onMod fun m => expireRetire m)

/-- TAMPER_ALARM: R861, R877. -/
def execTamperAlarm (quantity : Fin 6) (detector : Detector) (s : State) : Host.Outcome State Fault Refusal :=
  run "TAMPER_ALARM" (.tamperAlarm quantity detector) s (fun s => quantityAlarm s quantity detector)

/-- TAMPER_ALARM_CLEAR: R861. -/
def execTamperAlarmClear (quantity : Fin 6) (s : State) : Host.Outcome State Fault Refusal :=
  run "TAMPER_ALARM_CLEAR" (.tamperAlarmClear quantity) s (onMod fun m => quantityClear m quantity)

/-- MONITOR_FAULT: R862. -/
def execMonitorFault (quantity : Fin 6) (detector : Detector) (s : State) : Host.Outcome State Fault Refusal :=
  run "MONITOR_FAULT" (.monitorFault quantity detector) s (fun s => monitorAlarm s quantity (detectorBits detector))

/-- MONITOR_FAULT_CLEAR: R862, R865; 6 is the zeroize pins. -/
def execMonitorFaultClear (quantity : Fin 7) (s : State) : Host.Outcome State Fault Refusal :=
  run "MONITOR_FAULT_CLEAR" (.monitorFaultClear quantity) s (onMod fun m => monitorClear m quantity)

/-- ZEROIZE_PINS: R864. -/
def execZeroizePins (s : State) : Host.Outcome State Fault Refusal := run "ZEROIZE_PINS" .zeroizePins s (fun s => zeroizePins s)

/-- ZEROIZE_PIN_FAULT: R865. -/
def execZeroizePinFault (pinB : Bool) (s : State) : Host.Outcome State Fault Refusal :=
  run "ZEROIZE_PIN_FAULT" (.zeroizePinFault pinB) s (fun s => monitorAlarm s 6 (if pinB then 2 else 1))

/-- QUIESCE_N_ASSERT: R866. -/
def execQuiesceNAssert (s : State) : Host.Outcome State Fault Refusal := run "QUIESCE_N_ASSERT" .quiesceNAssert s (fun s => quiesceAssert s)

/-- QUIESCE_N_RELEASE: R866. -/
def execQuiesceNRelease (s : State) : Host.Outcome State Fault Refusal :=
  run "QUIESCE_N_RELEASE" .quiesceNRelease s (onMod fun m => quiesceRelease m)

/-- HOSTLOOP_PULSE: R867. -/
def execHostloopPulse (returned : Bool) (s : State) : Host.Outcome State Fault Refusal :=
  run "HOSTLOOP_PULSE" (.hostloopPulse returned) s (fun s => loopPulse s returned)

/-- ZEROIZE_RESTART: R876. -/
def execZeroizeRestart (s : State) (trial : StartTrial := {}) : Host.Outcome State Fault Refusal :=
  run "ZEROIZE_RESTART" (.zeroizeRestart trial) s (fun s => zeroRestart s trial)

/-- TAMPER_BIT_BURN: R878 to R883. -/
def execTamperBitBurn (s : State) : Host.Outcome State Fault Refusal := run "TAMPER_BIT_BURN" .tamperBitBurn s (fun s => burnEntry s)

/-- CELL_REMOVE: R884, R885, R887. -/
def execCellRemove (s : State) : Host.Outcome State Fault Refusal := run "CELL_REMOVE" .cellRemove s (fun s => removeCell s)

/-- CELL_INSERT: R885. -/
def execCellInsert (s : State) : Host.Outcome State Fault Refusal := run "CELL_INSERT" .cellInsert s (fun s => insertCell s)

/-- CELL_SWAP_WINDOW_CLOSE: R885. -/
def execCellSwapWindowClose (millivolts : Nat) (s : State) : Host.Outcome State Fault Refusal :=
  run "CELL_SWAP_WINDOW_CLOSE" (.cellSwapWindowClose millivolts) s (onMod fun m => stableCell m millivolts)

/-- CELL_SWAP_WINDOW_EXPIRE: R886. -/
def execCellSwapWindowExpire (s : State) : Host.Outcome State Fault Refusal :=
  run "CELL_SWAP_WINDOW_EXPIRE" .cellSwapWindowExpire s (fun s => expireWindow s)

/-- MAINS_IN_RANGE: R969 to R978, R987, once mains has been in range for 100 ms (R998). -/
def execMainsInRange (failStep : Nat) (units : List Nat) (s : State) (fails : Nat := 3) : Host.Outcome State Fault Refusal :=
  run "MAINS_IN_RANGE" (.mainsInRange failStep units fails) s (fun s => mainsApplied s { failStep, units, fails })

/-- READY: R975, R976. -/
def execReady (s : State) : Host.Outcome State Fault Refusal := run "READY" .ready s (fun s => makeReady s)

/-- MAINS_LOST: R984, a half-cycle whose peak stays below 100 V, or exceeds 400 V (R999). -/
def execMainsLost (s : State) : Host.Outcome State Fault Refusal := run "MAINS_LOST" .mainsLost s (onMod fun m => loseMains m)

/-- MAINS_EARLY_WARNING: R984. -/
def execMainsEarlyWarning (s : State) : Host.Outcome State Fault Refusal :=
  run "MAINS_EARLY_WARNING" .mainsEarlyWarning s (fun s => earlyWarning s)

/-- MAINS_RETURN: R985. -/
def execMainsReturn (s : State) : Host.Outcome State Fault Refusal := run "MAINS_RETURN" .mainsReturn s (onMod fun m => mainsBack m)

/-- BULK_THRESHOLD: R986. -/
def execBulkThreshold (s : State) : Host.Outcome State Fault Refusal := run "BULK_THRESHOLD" .bulkThreshold s (onMod fun m => powerDown m)

/-- KEEL_LOCK_LOST: R962. -/
def execKeelLockLost (s : State) (trial : StartTrial := {}) : Host.Outcome State Fault Refusal :=
  run "KEEL_LOCK_LOST" (.keelLockLost trial) s (fun s => keelLost s trial)

/-- REFERENCE_LOCK: R963, R964. -/
def execReferenceLock (ref : Nat) (s : State) : Host.Outcome State Fault Refusal :=
  run "REFERENCE_LOCK" (.referenceLock ref) s (whileOn (onMod fun m => refLock m ref))

/-- REFERENCE_LOST: R965. -/
def execReferenceLost (s : State) : Host.Outcome State Fault Refusal :=
  run "REFERENCE_LOST" .referenceLost s (whileOn (onMod fun m => refLost m))

/-- REFERENCE_CHANGE: R964. -/
def execReferenceChange (ref : Nat) (s : State) : Host.Outcome State Fault Refusal :=
  run "REFERENCE_CHANGE" (.referenceChange ref) s (whileOn (onMod fun m => refChange m ref))

/-- LOSS_OF_ALL_POWER: R857, R887. -/
def execLossOfAllPower (s : State) : Host.Outcome State Fault Refusal :=
  run "LOSS_OF_ALL_POWER" .lossOfAllPower s (onMod fun m => allPowerLost m)

/-- COMMANDED_RESTART_BEGIN: R983. -/
def execCommandedRestartBegin (s : State) (trial : StartTrial := {}) : Host.Outcome State Fault Refusal :=
  run "COMMANDED_RESTART_BEGIN" (.commandedRestartBegin trial) s (fun s => commandedRestart s trial)

end Sys2Proof.Machine
end

