-- ==== Sys2Proof/Machine/TimeEvents.lean ====
section
/-! DEFINITION. The commands of network time (R552 to R612). -/

namespace Sys2Proof.Machine

/-- TIME_CHANGE_EDGE: R558. -/
def execTimeChangeEdge (s : State) : Host.Outcome State Fault Refusal :=
  run "TIME_CHANGE_EDGE" .timeChangeEdge s (whileOn (onMod fun m => changeEdge m))

/-- SLEW_COMPLETE: R559. -/
def execSlewComplete (s : State) : Host.Outcome State Fault Refusal :=
  run "SLEW_COMPLETE" .slewComplete s (whileOn (onMod fun m => slewComplete m))

/-- PTP_MESSAGE_RECEIVE: R577 to R589; ports 64 and 65 are M0 and M1. -/
def execPtpMessageReceive (port : Fin 66) (domain : Nat) (kind : PtpKind) (s : State) : Host.Outcome State Fault Refusal :=
  run "PTP_MESSAGE_RECEIVE" (.ptpMessageReceive port domain kind) s (whileOn (onMod fun m => ptpReceive m port domain kind))

/-- PTP_MESSAGE_SEND: R581. -/
def execPtpMessageSend (s : State) : Host.Outcome State Fault Refusal :=
  run "PTP_MESSAGE_SEND" .ptpMessageSend s (whileOn (onMod fun m => ptpSend m))

/-- TIME_SOURCE_LOST: R563, R565. -/
def execTimeSourceLost (s : State) : Host.Outcome State Fault Refusal :=
  run "TIME_SOURCE_LOST" .timeSourceLost s (whileOn (onMod fun m => loseSource m))

/-- HOLDOVER_EXPIRE: R565. -/
def execHoldoverExpire (s : State) : Host.Outcome State Fault Refusal :=
  run "HOLDOVER_EXPIRE" .holdoverExpire s (whileOn (onMod fun m => holdoverEnd m))

/-- HOST_LEASE_EXPIRE: R571. -/
def execHostLeaseExpire (s : State) : Host.Outcome State Fault Refusal :=
  run "HOST_LEASE_EXPIRE" .hostLeaseExpire s (whileOn (onMod fun m => leaseExpires m))

/-- LOCKSTEP_CHECK: R573. -/
def execLockstepCheck (s : State) : Host.Outcome State Fault Refusal :=
  run "LOCKSTEP_CHECK" .lockstepCheck s (whileOn (onMod fun m => lockstepCheck m))

/-- LOCKSTEP_COPY: R573. -/
def execLockstepCopy (s : State) : Host.Outcome State Fault Refusal :=
  run "LOCKSTEP_COPY" .lockstepCopy s (whileOn (onMod fun m => lockstepCopy m))

/-- DIE_LINK_DOWN: R574. -/
def execDieLinkDown (s : State) : Host.Outcome State Fault Refusal :=
  run "DIE_LINK_DOWN" .dieLinkDown s (whileOn (onMod fun m => dieLinkDown m))

/-- DIE_LINK_UP: R574. -/
def execDieLinkUp (s : State) : Host.Outcome State Fault Refusal := run "DIE_LINK_UP" .dieLinkUp s (whileOn (onMod fun m => dieLinkUp m))

/-- TT_REPORT_SEND: R591. -/
def execTtReportSend (port : Fin 64) (s : State) : Host.Outcome State Fault Refusal :=
  run "TT_REPORT_SEND" (.ttReportSend port) s (whileOn (onMod fun m => reportSend m port))

/-- TT_REPORT_RECEIVE: R593. -/
def execTtReportReceive (port : Fin 64) (s : State) : Host.Outcome State Fault Refusal :=
  run "TT_REPORT_RECEIVE" (.ttReportReceive port) s (whileOn (onMod fun m => reportReceive m port))

/-- PPS_IN_EDGE: R597. -/
def execPpsInEdge (s : State) : Host.Outcome State Fault Refusal := run "PPS_IN_EDGE" .ppsInEdge s (whileOn (onMod fun m => ppsEdge m))

/-- CAPTURE_EDGE: R606 to R610. -/
def execCaptureEdge (input : Fin 9) (rising : Bool) (s : State) : Host.Outcome State Fault Refusal :=
  run "CAPTURE_EDGE" (.captureEdge input rising) s (whileOn (onMod fun m => captureEdge m input rising))

/-- TRIGGER_EDGE: R600 to R605. -/
def execTriggerEdge (trigger : Fin 9) (s : State) : Host.Outcome State Fault Refusal :=
  run "TRIGGER_EDGE" (.triggerEdge trigger) s (whileOn (onMod fun m => triggerEdge m trigger))

/-- RUNTIME_SAVE: R612. -/
def execRuntimeSave (s : State) : Host.Outcome State Fault Refusal := run "RUNTIME_SAVE" .runtimeSave s (whileOn fun s => saveRuntime s)

end Sys2Proof.Machine
end

