-- ==== Sys2Proof/Machine/Dispatch.lean ====
section
/-! DEFINITION. The dispatcher: one arm per command. -/

namespace Sys2Proof.Machine

def exec (i : Instr) (s : State) : Host.Outcome State Fault Refusal :=
  match i with
  | .open_ h role method cred nonce sid moduleNonce => Sys2Proof.Machine.execOpen h role method cred nonce sid moduleNonce s
  | .prove h proof => Sys2Proof.Machine.execProve h proof s
  | .close h => Sys2Proof.Machine.execClose h s
  | .read h addrs => Sys2Proof.Machine.execRead h addrs s
  | .write h recs => Sys2Proof.Machine.execWrite h recs s
  | .readElements h first count => Sys2Proof.Machine.execReadElements h first count s
  | .writeElements h first stride vals => Sys2Proof.Machine.execWriteElements h first stride vals s
  | .commit h => Sys2Proof.Machine.execCommit h s
  | .commitDryRun h => Sys2Proof.Machine.execCommitDryRun h s
  | .subscribe h filters => Sys2Proof.Machine.execSubscribe h filters s
  | .relayMessage h msg => Sys2Proof.Machine.execRelayMessage h msg s
  | .relayReturn port session msg => Sys2Proof.Machine.execRelayReturn port session msg s
  | .mchMessageReceive port msg allCellsKeyed => Sys2Proof.Machine.execMchMessageReceive port msg allCellsKeyed s
  | .mgmtPortFrame m src kind => Sys2Proof.Machine.execMgmtPortFrame m src kind s
  | .sessionProveTimeout slot => Sys2Proof.Machine.execSessionProveTimeout slot s
  | .sessionIdleExpire slot => Sys2Proof.Machine.execSessionIdleExpire slot s
  | .sessionIdForget sid => Sys2Proof.Machine.execSessionIdForget sid s
  | .credentialLockExpire cred => Sys2Proof.Machine.execCredentialLockExpire cred s
  | .relayEntryLapse port session => Sys2Proof.Machine.execRelayEntryLapse port session s
  | .sessionPilotTakeover => Sys2Proof.Machine.execSessionPilotTakeover s
  | .interceptReplySend port => Sys2Proof.Machine.execInterceptReplySend port s
  | .interceptReplyDiscard port => Sys2Proof.Machine.execInterceptReplyDiscard port s
  | .sessionTerminate h slot v => Sys2Proof.Machine.execSessionTerminate h slot v s
  | .credentialErase h cred v => Sys2Proof.Machine.execCredentialErase h cred v s
  | .keyWrite h slot wrapped => Sys2Proof.Machine.execKeyWrite h slot wrapped s
  | .keySlotErase h slot v => Sys2Proof.Machine.execKeySlotErase h slot v s
  | .kekShareWrite h berth shareB share => Sys2Proof.Machine.execKekShareWrite h berth shareB share s
  | .kekShareExpire berth => Sys2Proof.Machine.execKekShareExpire berth s
  | .kekErase h berth v => Sys2Proof.Machine.execKekErase h berth v s
  | .learnAcknowledge h basin seq => Sys2Proof.Machine.execLearnAcknowledge h basin seq s
  | .lpmInsert h table record => Sys2Proof.Machine.execLpmInsert h table record s
  | .lpmDelete h table record => Sys2Proof.Machine.execLpmDelete h table record s
  | .lpmQuery h table query => Sys2Proof.Machine.execLpmQuery h table query s
  | .testPatternWrite h lane v => Sys2Proof.Machine.execTestPatternWrite h lane v s
  | .timeIncrementWrite h v => Sys2Proof.Machine.execTimeIncrementWrite h v s
  | .timeSlewWrite h x => Sys2Proof.Machine.execTimeSlewWrite h x s
  | .timeStepWrite h x => Sys2Proof.Machine.execTimeStepWrite h x s
  | .timeSetWrite h t => Sys2Proof.Machine.execTimeSetWrite h t s
  | .hostLeaseWrite h v => Sys2Proof.Machine.execHostLeaseWrite h v s
  | .captureRead h input => Sys2Proof.Machine.execCaptureRead h input s
  | .expertGrantWrite h slot minutes => Sys2Proof.Machine.execExpertGrantWrite h slot minutes s
  | .debugPortOpen h v => Sys2Proof.Machine.execDebugPortOpen h v s
  | .windowWrite h harbour wordAddr v => Sys2Proof.Machine.execWindowWrite h harbour wordAddr v s
  | .locatorQuery h record => Sys2Proof.Machine.execLocatorQuery h record s
  | .indirectDataRead h => Sys2Proof.Machine.execIndirectDataRead h s
  | .indirectDataWrite h v => Sys2Proof.Machine.execIndirectDataWrite h v s
  | .snapshotAcknowledge h basin w => Sys2Proof.Machine.execSnapshotAcknowledge h basin w s
  | .alarmClear h pin v => Sys2Proof.Machine.execAlarmClear h pin v s
  | .responseRelease h source v => Sys2Proof.Machine.execResponseRelease h source v s
  | .cellSwapWindowWrite h minutes => Sys2Proof.Machine.execCellSwapWindowWrite h minutes s
  | .retireConfirmation h serial => Sys2Proof.Machine.execRetireConfirmation h serial s
  | .retireConfirmationExpire => Sys2Proof.Machine.execRetireConfirmationExpire s
  | .regionRelease h region v => Sys2Proof.Machine.execRegionRelease h region v s
  | .berthResetKeep h berth => Sys2Proof.Machine.execBerthResetKeep h berth s
  | .berthResetRelease h berth => Sys2Proof.Machine.execBerthResetRelease h berth s
  | .firmwareChunkWrite h n chunk => Sys2Proof.Machine.execFirmwareChunkWrite h n chunk s
  | .firmwareVerify h v => Sys2Proof.Machine.execFirmwareVerify h v s
  | .firmwareInstall h v => Sys2Proof.Machine.execFirmwareInstall h v s
  | .firmwareInstallComplete => Sys2Proof.Machine.execFirmwareInstallComplete s
  | .firmwareActivate h slot => Sys2Proof.Machine.execFirmwareActivate h slot s
  | .pilotsStopForActivation => Sys2Proof.Machine.execPilotsStopForActivation s
  | .firmwareRunning => Sys2Proof.Machine.execFirmwareRunning s
  | .firmwareStartTimeout => Sys2Proof.Machine.execFirmwareStartTimeout s
  | .firmwareConfirm h v => Sys2Proof.Machine.execFirmwareConfirm h v s
  | .serviceIdentityGenerate h v => Sys2Proof.Machine.execServiceIdentityGenerate h v s
  | .certificateInstall h v => Sys2Proof.Machine.execCertificateInstall h v s
  | .serviceIdentityErase h v => Sys2Proof.Machine.execServiceIdentityErase h v s
  | .operatorAnchorWrite h anchor => Sys2Proof.Machine.execOperatorAnchorWrite h anchor s
  | .attestationReportRead h => Sys2Proof.Machine.execAttestationReportRead h s
  | .moduleRestart h v => Sys2Proof.Machine.execModuleRestart h v s
  | .clearFrameReceive port frame => Sys2Proof.Machine.execClearFrameReceive port frame s
  | .holdExpire basin => Sys2Proof.Machine.execHoldExpire basin s
  | .frameModeReceive port frame => Sys2Proof.Machine.execFrameModeReceive port frame s
  | .gelixFrameReceive port frame => Sys2Proof.Machine.execGelixFrameReceive port frame s
  | .fawFound port offset mfas => Sys2Proof.Machine.execFawFound port offset mfas s
  | .expectedFawCheck port bitErrors mfas => Sys2Proof.Machine.execExpectedFawCheck port bitErrors mfas s
  | .gelixFrameSend port => Sys2Proof.Machine.execGelixFrameSend port s
  | .frameRelease port waited => Sys2Proof.Machine.execFrameRelease port waited s
  | .cryptoBankEntry basin => Sys2Proof.Machine.execCryptoBankEntry basin s
  | .frameEgressComplete port predictionError => Sys2Proof.Machine.execFrameEgressComplete port predictionError s
  | .pipelineFault basin tx unit stage secondShare flips keyFlips nextFlips => Sys2Proof.Machine.execPipelineFault basin tx unit stage secondShare flips keyFlips nextFlips s
  | .pipelineDrained basin tx unit => Sys2Proof.Machine.execPipelineDrained basin tx unit s
  | .quarantineTestEnd basin tx unit passed => Sys2Proof.Machine.execQuarantineTestEnd basin tx unit passed s
  | .knownAnswerTest basin tx unit stage secondShare flips keyFlips nextFlips => Sys2Proof.Machine.execKnownAnswerTest basin tx unit stage s secondShare flips keyFlips nextFlips
  | .ghashMismatch basin tx pair flips repeatFlips => Sys2Proof.Machine.execGhashMismatch basin tx pair flips s repeatFlips
  | .keyStoreError basin tx doubleBit => Sys2Proof.Machine.execKeyStoreError basin tx doubleBit s
  | .ballastKeyReseed basin tx => Sys2Proof.Machine.execBallastKeyReseed basin tx s
  | .shuffleReseed basin tx => Sys2Proof.Machine.execShuffleReseed basin tx s
  | .maskReseed basin tx => Sys2Proof.Machine.execMaskReseed basin tx s
  | .entropyTestFailure harbour sourceB proportion samples => Sys2Proof.Machine.execEntropyTestFailure harbour sourceB proportion s samples
  | .losDeclare lane => Sys2Proof.Machine.execLosDeclare lane s
  | .losClear lane => Sys2Proof.Machine.execLosClear lane s
  | .lolDeclare lane => Sys2Proof.Machine.execLolDeclare lane s
  | .lolClear lane => Sys2Proof.Machine.execLolClear lane s
  | .adaptComplete lane => Sys2Proof.Machine.execAdaptComplete lane s
  | .codewordLock lane => Sys2Proof.Machine.execCodewordLock lane s
  | .codewordLockLoss lane => Sys2Proof.Machine.execCodewordLockLoss lane s
  | .laneLock lane mfas => Sys2Proof.Machine.execLaneLock lane mfas s
  | .laneLockLoss lane => Sys2Proof.Machine.execLaneLockLoss lane s
  | .skewLimitExceeded port skew => Sys2Proof.Machine.execSkewLimitExceeded port skew s
  | .portAligned port skew => Sys2Proof.Machine.execPortAligned port skew s
  | .faultSignalReceived port kind => Sys2Proof.Machine.execFaultSignalReceived port kind s
  | .portUpTimeout port => Sys2Proof.Machine.execPortUpTimeout port s
  | .lofDeclare port => Sys2Proof.Machine.execLofDeclare port s
  | .lofClear port => Sys2Proof.Machine.execLofClear port s
  | .lomDeclare port => Sys2Proof.Machine.execLomDeclare port s
  | .lomClear port => Sys2Proof.Machine.execLomClear port s
  | .faultForwardStart port => Sys2Proof.Machine.execFaultForwardStart port s
  | .lineSecondEnd port => Sys2Proof.Machine.execLineSecondEnd port s
  | .switchScheduledTime assoc => Sys2Proof.Machine.execSwitchScheduledTime assoc s
  | .queueDrained queue => Sys2Proof.Machine.execQueueDrained queue s
  | .rateLoweringApplied queue => Sys2Proof.Machine.execRateLoweringApplied queue s
  | .berthNodeLoweringApplied berth port => Sys2Proof.Machine.execBerthNodeLoweringApplied berth port s
  | .gateEntryChange port => Sys2Proof.Machine.execGateEntryChange port s
  | .gateSwap port => Sys2Proof.Machine.execGateSwap port s
  | .timeChangeEdge => Sys2Proof.Machine.execTimeChangeEdge s
  | .slewComplete => Sys2Proof.Machine.execSlewComplete s
  | .ptpMessageReceive port domain kind => Sys2Proof.Machine.execPtpMessageReceive port domain kind s
  | .ptpMessageSend => Sys2Proof.Machine.execPtpMessageSend s
  | .timeSourceLost => Sys2Proof.Machine.execTimeSourceLost s
  | .holdoverExpire => Sys2Proof.Machine.execHoldoverExpire s
  | .hostLeaseExpire => Sys2Proof.Machine.execHostLeaseExpire s
  | .lockstepCheck => Sys2Proof.Machine.execLockstepCheck s
  | .lockstepCopy => Sys2Proof.Machine.execLockstepCopy s
  | .dieLinkDown => Sys2Proof.Machine.execDieLinkDown s
  | .dieLinkUp => Sys2Proof.Machine.execDieLinkUp s
  | .ttReportSend port => Sys2Proof.Machine.execTtReportSend port s
  | .ttReportReceive port => Sys2Proof.Machine.execTtReportReceive port s
  | .ppsInEdge => Sys2Proof.Machine.execPpsInEdge s
  | .captureEdge input rising => Sys2Proof.Machine.execCaptureEdge input rising s
  | .triggerEdge trigger => Sys2Proof.Machine.execTriggerEdge trigger s
  | .runtimeSave => Sys2Proof.Machine.execRuntimeSave s
  | .configSave => Sys2Proof.Machine.execConfigSave s
  | .cxlLinkReady harbour lanes rate capacityMiB metaBits type3 => Sys2Proof.Machine.execCxlLinkReady harbour lanes rate capacityMiB metaBits type3 s
  | .cxlLinkDown harbour => Sys2Proof.Machine.execCxlLinkDown harbour s
  | .cxlLinkReturn harbour => Sys2Proof.Machine.execCxlLinkReturn harbour s
  | .stowageAccess harbour master line kind device => Sys2Proof.Machine.execStowageAccess harbour master line kind device s
  | .berthResetEdge berth => Sys2Proof.Machine.execBerthResetEdge berth s
  | .berthResetComplete berth => Sys2Proof.Machine.execBerthResetComplete berth s
  | .berthReleaseComplete berth => Sys2Proof.Machine.execBerthReleaseComplete berth s
  | .expertGrantExpire slot => Sys2Proof.Machine.execExpertGrantExpire slot s
  | .snapshotCapture harbour => Sys2Proof.Machine.execSnapshotCapture harbour s
  | .snapshotComplete => Sys2Proof.Machine.execSnapshotComplete s
  | .alarmPulseEnd pin => Sys2Proof.Machine.execAlarmPulseEnd pin s
  | .journalSeal => Sys2Proof.Machine.execJournalSeal s
  | .sealSigned => Sys2Proof.Machine.execSealSigned s
  | .tamperAlarm quantity detector => Sys2Proof.Machine.execTamperAlarm quantity detector s
  | .tamperAlarmClear quantity => Sys2Proof.Machine.execTamperAlarmClear quantity s
  | .monitorFault quantity detector => Sys2Proof.Machine.execMonitorFault quantity detector s
  | .monitorFaultClear quantity => Sys2Proof.Machine.execMonitorFaultClear quantity s
  | .zeroizePins => Sys2Proof.Machine.execZeroizePins s
  | .zeroizePinFault pinB => Sys2Proof.Machine.execZeroizePinFault pinB s
  | .quiesceNAssert => Sys2Proof.Machine.execQuiesceNAssert s
  | .quiesceNRelease => Sys2Proof.Machine.execQuiesceNRelease s
  | .hostloopPulse returned => Sys2Proof.Machine.execHostloopPulse returned s
  | .zeroizeRestart trial => Sys2Proof.Machine.execZeroizeRestart s trial
  | .tamperBitBurn => Sys2Proof.Machine.execTamperBitBurn s
  | .cellRemove => Sys2Proof.Machine.execCellRemove s
  | .cellInsert => Sys2Proof.Machine.execCellInsert s
  | .cellSwapWindowClose millivolts => Sys2Proof.Machine.execCellSwapWindowClose millivolts s
  | .cellSwapWindowExpire => Sys2Proof.Machine.execCellSwapWindowExpire s
  | .mainsInRange failStep units fails => Sys2Proof.Machine.execMainsInRange failStep units s fails
  | .ready => Sys2Proof.Machine.execReady s
  | .mainsLost => Sys2Proof.Machine.execMainsLost s
  | .mainsEarlyWarning => Sys2Proof.Machine.execMainsEarlyWarning s
  | .mainsReturn => Sys2Proof.Machine.execMainsReturn s
  | .bulkThreshold => Sys2Proof.Machine.execBulkThreshold s
  | .keelLockLost trial => Sys2Proof.Machine.execKeelLockLost s trial
  | .referenceLock ref => Sys2Proof.Machine.execReferenceLock ref s
  | .referenceLost => Sys2Proof.Machine.execReferenceLost s
  | .referenceChange ref => Sys2Proof.Machine.execReferenceChange ref s
  | .pilotWatchdog harbour => Sys2Proof.Machine.execPilotWatchdog harbour s
  | .pilotRestarted harbour => Sys2Proof.Machine.execPilotRestarted harbour s
  | .candidateDropped port offset => Sys2Proof.Machine.execCandidateDropped port offset s
  | .pcsFecLockLoss port => Sys2Proof.Machine.execPcsFecLockLoss port s
  | .lossOfAllPower => Sys2Proof.Machine.execLossOfAllPower s
  | .managementPortLinkChange m up => Sys2Proof.Machine.execManagementPortLinkChange m up s
  | .commandedRestartBegin trial => Sys2Proof.Machine.execCommandedRestartBegin s trial
  | .ballastShareUpdate harbour => Sys2Proof.Machine.execBallastShareUpdate harbour s

end Sys2Proof.Machine
end

