-- ==== Sys2Proof/Machine/Step.lean ====
section
/-! DEFINITION. One step of the block: the command at the front of the queue, or one D-clock cycle where none waits (log 1). -/

namespace Sys2Proof.Machine

/-- One D-clock cycle with no command: time passes, and events queued for a session are sent (R31, R789). -/
def idle (s : State) : State := s.upd ((List.range 32).foldl notifySlot (advance s.mod 1))

/-- The front command runs on the state with the rest of the queue; with an empty queue a cycle passes. -/
def step (s : State) : Host.Outcome State Fault Refusal :=
  match s.pending with
  | [] => .next (idle s)
  | c :: rest => exec c { s with pending := rest }

/-- The state with the command that a table word spells put at the front of its queue; no row of the table gives bits, so no word spells one. -/
def State.withFetchWord (s : State) (nbits w : Nat) : State :=
  match decodeTableWord nbits w with
  | some c => { s with pending := c :: s.pending }
  | none => s

end Sys2Proof.Machine
end

