-- ==== Sys2Proof/Safety.lean ====
section
/-! DEFINITION. The terms in which claims about the module are stated: when a message of a session is processed, which part of the state
a command may change, and what is kept by every step. -/

namespace Sys2Proof.Machine

/-! ### Messages -/

/-- A message reaches the session pilot of a Ready module with a sound header (checks 1 and 2 of R783). -/
def Reaches (m : Mod) (h : Hdr) : Prop :=
  arrives m h = true ∧ m.sys.running = true ∧ m.sys.state = 1 ∧ pilotUp m m.mgmt.pilot = true ∧
  h.version = 1 ∧ h.reservedZero = true ∧ h.lengthOk = true

/-- A message passes checks 1 to 7 of R783 in a session's slot: its path carries it, the module is Ready and the session pilot runs, its
header is sound, its session is proved and its tag verifies, it repeats none of the last 16 requests, its SEQUENCE lies above the
highest accepted and at most 65,536 above it (R758), and its BPID is the session's (R683). -/
def Accepted (m : Mod) (h : Hdr) (i : Nat) : Prop :=
  Reaches m h ∧ slotOf m h.session = some i ∧ h.tagOk = true ∧
  (sess m i).state = 2 ∧ (∀ r ∈ (sess m i).stored, ¬(r.sequence = h.sequence ∧ r.cipher = h.cipher)) ∧
  (sess m i).hi < h.sequence ∧ h.sequence ≤ (sess m i).hi + 65536 ∧ h.bpid = if (sess m i).role = 3 then (sess m i).bpid else 0

/-- The module once a message is accepted: the session's highest accepted SEQUENCE, its last request, path and address (R758, R762,
R764). -/
def accept (m : Mod) (h : Hdr) (i : Nat) : Mod :=
  setSess m i { sess m i with hi := h.sequence, requestAt := m.sys.elapsed, requestTime := now m, path := h.path, src := h.src }

/-- A WRITE record of an object clears every check of R783 that it decides alone. -/
def Clears (m : Mod) (i idx sub : Nat) (elem : Option Nat) (data : Octets) : Prop :=
  (recordCheck m i (recOf idx sub elem data)).isOk = true

/-- A message with one WRITE record is accepted and its record cleared. -/
def WriteClears (m : Mod) (h : Hdr) (i idx sub : Nat) (elem : Option Nat) (data : Octets) : Prop :=
  Accepted m h i ∧ Clears (accept m h i) i idx sub elem data

/-- A read of one address is accepted and cleared. -/
def ReadClears (s : State) (h : Hdr) (i : Nat) (a : Addr) : Prop :=
  Accepted s.mod h i ∧ (readCheck (s.upd (accept s.mod h i)) i a).isOk = true

/-- The newest stored reply of a slot answers a SEQUENCE, every message of it with a status (R759, R761). -/
def Answered (m : Mod) (i sequence status : Nat) : Prop :=
  match (sess m i).stored with
  | [] => False
  | r :: _ => r.sequence = sequence ∧ r.reply ≠ [] ∧ ∀ x ∈ r.reply, x.status = status ∧ x.reference = sequence % 2 ^ 32

/-- The unprotected reply to a message (R746). -/
def plain (h : Hdr) (op session status : Nat) (body : Octets) : Msg :=
  { path := h.path, dst := h.src, op, session, sequence := 0, status, reference := h.sequence % 2 ^ 32, sealed := false, body }

/-- Between two states of the module one message has been handed to its path: put out, or waiting at its port, for idle time of a clear port
or for the cells of MCH (R143, R728, R764). -/
def Sent (m n : Mod) (x : Msg) : Prop :=
  match x.path with
  | .clear p => (tget {} n.mgmt.icept p.val).replies = (tget {} m.mgmt.icept p.val).replies ++ [(m.sys.elapsed, x)]
  | .mch p => (tget {} n.mgmt.icept p.val).replies = (tget {} m.mgmt.icept p.val).replies ++ [(m.sys.elapsed, x)]
  | .mgmt _ => n.out = m.out ++ [.message x]

/-- No alarm pin filter of a pin selects the events that follow a command's own effect: 0xA004, 0x9025, 0xC007 (R847). -/
def PinQuiet (m : Mod) (pin : Nat) : Prop :=
  ∀ code ∈ [0xA004, 0x9025, 0xC007], (pinFilters (look m [] 0xB100 1 pin).toOct).any (matchesFilter code) = false

/-- How many slots are in use, and how many of those are not yet proved (R747, R748). -/
def slotsUsed (m : Mod) : Nat := ((List.range 32).filter fun i => (sess m i).state != 0).length
def slotsUnproved (m : Mod) : Nat := ((List.range 32).filter fun i => (sess m i).state == 1).length

/-- A counter of a state of the module, raised by a number, is that of another; it stops at the all-ones value of its type (R823). -/
def Counts (m n : Mod) (idx sub elem k : Nat) : Prop :=
  ∃ o, objRow idx sub = some o ∧ inf n idx sub elem = satAdd (8 * o.ty.size) (inf m idx sub elem) k

/-- Objects that a COMMIT's own effects write, or whose default follows other objects: what a COMMIT puts in force of them is not the
pending value alone. -/
def commitWrites : List (Nat × Nat) :=
  [(0x4040, 1), (0xB000, 4), (0x6000, 7), (0x6000, 9), (0x3000, 9), (0x3100, 0x0B), (0x3200, 0x11), (0x3200, 0x12), (0x2000, 8), (0x2040, 1),
   (0x2040, 2), (0x2100, 8), (0x4000, 0x0B), (0x8010, 6), (0x3000, 6), (0x3000, 7), (0x3000, 8), (0x3000, 0x0A), (0x8000, 0x0B)]

/-- What an object without a pending value holds once a set is in force (R48, R49): its default where the set releases the index of its port, width
1 for an index that the set absorbs, and else what it held. -/
def carried (m : Mod) (p : Tbl Val) (idx sub e : Nat) : Val :=
  match portOfKey (okey idx sub e) with
  | some q =>
    if q < 64 ∧ absorbed m q = true ∧ absorbedIn m p q = false then dfltOf idx sub e
    else if q < 64 ∧ absorbed m q = false ∧ absorbedIn m p q = true ∧ idx = 0x3100 ∧ sub = 1 then .nat 1
    else look m [] idx sub e
  | none => look m [] idx sub e

/-- The module as the arbiter of a port finds it after a wait: the buckets of the port's queues and berth nodes brought up to now
(R477, R486). -/
def refilled (m : Mod) (p waited : Nat) : Mod :=
  ((((boundQueues (advance m waited) [] p).map fun q => qBerth (advance m waited) [] q * 64 + p).eraseDups).foldl refillNode
    ((boundQueues (advance m waited) [] p).foldl refillQueue (advance m waited)))

/-- A restart with a cause has run from one state to another (R876, R935, R968, R979): sessions, key slots and KEKs are gone and nothing is due
any more; where a slot's image passes the boot ROM the pilots run at step 7 of start-up. -/
def Restarted (s t : State) (cause : Nat) : Prop :=
  t.mod.sys.cause = cause ∧ t.mod.sys.zeroAt = none ∧ t.mod.sys.restartAt = none ∧ (∀ j, (sess t.mod j).state = 0) ∧
  (∀ a, (assoc t.mod a).s0.full = false ∧ (assoc t.mod a).s1.full = false) ∧ (∀ b, (kek t.mod b).kek = []) ∧ t.mod.tether.vault.canary = .valid ∧
  ((bootSlot s).isSome = true → t.mod.sys.running = true ∧ t.mod.sys.step = 7 ∧ t.mod.sys.state = 0 ∧ t.mod.sys.pilot0 = true ∧ t.mod.sys.pilot1 = true)

/-! ### What a command may change -/

/-- The parts of the state that a claim about what a command leaves alone names. `clock` is the model's cycle count, `runtime` the
tether's runtime, `counters` the two time counters with the record of locked increments, `tts` the records of time transfer, `serials` and
`slots` the numbers last given to frames in the pipelines and to frames that wait, `obj` one value of the object dictionary;
`sys`, `tether`, `mgmt`, `time` are the rest of those groups. -/
inductive Part where
  | otp | flash | clock | sys | runtime | tether | ev | mgmt | icept | counters | time | overs | onceAt | snap | fw | counted | out | drawn | serials | slots | tts | pending
  | session (i : Nat) | lane (i : Nat) | port (i : Nat) | rx (i : Nat) | tx (i : Nat) | pm (i : Nat) | stow (i : Nat) | berth (i : Nat)
  | kek (i : Nat) | assoc (i : Nat) | filter (i : Nat) | bank (i : Nat) | entropy (i : Nat) | cls (i : Nat) | queue (i : Nat) | node (i : Nat)
  | arb (i : Nat) | gate (i : Nat) | source (i : Nat)
  | obj (idx sub elem : Nat)
  deriving DecidableEq, Repr

/-- A part is the same in two states. -/
def Part.same (s t : State) : Part → Prop
  | .otp => t.otp = s.otp
  | .flash => t.flash = s.flash
  | .clock => t.mod.sys.elapsed = s.mod.sys.elapsed
  | .sys => { t.mod.sys with elapsed := 0 } = { s.mod.sys with elapsed := 0 }
  | .runtime => t.mod.tether.runtime = s.mod.tether.runtime ∧ t.mod.tether.runtimeSub = s.mod.tether.runtimeSub
  | .tether => { t.mod.tether with runtime := 0, runtimeSub := 0 } = { s.mod.tether with runtime := 0, runtimeSub := 0 }
  | .ev => t.mod.ev = s.mod.ev
  | .mgmt => { t.mod.mgmt with sessions := [], icept := [] } = { s.mod.mgmt with sessions := [], icept := [] }
  | .icept => t.mod.mgmt.icept = s.mod.mgmt.icept
  | .counters => t.mod.time.c0 = s.mod.time.c0 ∧ t.mod.time.c1 = s.mod.time.c1 ∧ t.mod.time.locked = s.mod.time.locked
  | .time => { t.mod.time with c0 := {}, c1 := {}, locked := [], tts := [] } = { s.mod.time with c0 := {}, c1 := {}, locked := [], tts := [] }
  | .overs => t.mod.overs = s.mod.overs
  | .onceAt => t.mod.onceAt = s.mod.onceAt
  | .snap => t.mod.snap = s.mod.snap
  | .fw => t.mod.fw = s.mod.fw
  | .counted => t.mod.counted = s.mod.counted
  | .out => t.mod.out = s.mod.out
  | .drawn => t.mod.drawn = s.mod.drawn
  | .serials => t.mod.serials = s.mod.serials
  | .slots => t.mod.slots = s.mod.slots
  | .tts => t.mod.time.tts = s.mod.time.tts
  | .pending => t.pending = s.pending
  | .session i => sess t.mod i = sess s.mod i
  | .lane i => Machine.lane t.mod i = Machine.lane s.mod i
  | .port i => Machine.port t.mod i = Machine.port s.mod i
  | .rx i => rxOf t.mod i = rxOf s.mod i
  | .tx i => txOf t.mod i = txOf s.mod i
  | .pm i => pmOf t.mod i = pmOf s.mod i
  | .stow i => Machine.stow t.mod i = Machine.stow s.mod i
  | .berth i => Machine.berth t.mod i = Machine.berth s.mod i
  | .kek i => Machine.kek t.mod i = Machine.kek s.mod i
  | .assoc i => Machine.assoc t.mod i = Machine.assoc s.mod i
  | .filter i => tget {} t.mod.filters i = tget {} s.mod.filters i
  | .bank i => Machine.bank t.mod i = Machine.bank s.mod i
  | .entropy i => entropyOf t.mod i = entropyOf s.mod i
  | .cls i => clsOf t.mod i = clsOf s.mod i
  | .queue i => Machine.queue t.mod i = Machine.queue s.mod i
  | .node i => Machine.node t.mod i = Machine.node s.mod i
  | .arb i => Machine.arb t.mod i = Machine.arb s.mod i
  | .gate i => Machine.gate t.mod i = Machine.gate s.mod i
  | .source i => Machine.source t.mod i = Machine.source s.mod i
  | .obj idx sub e => sub < 256 → look t.mod [] idx sub e = look s.mod [] idx sub e

/-- Whenever a command completes, every part outside the named ones is as it was. -/
def Leaves (c : Instr) (may : Part → Bool) : Prop :=
  ∀ s t, exec c s = .next t → ∀ p, may p = false → p.same s t

/-- What the passage of time changes: the clock, the runtime, the time counters, the banks with their counts of blocks, the Gelix frames that
leave with their counts and the record of time transfer, and through a counter's saturation an event (R31, R32, R89, R552, R611, R823). -/
def timePasses : Part → Bool
  | .clock | .runtime | .counters | .ev | .bank _ | .tx _ | .tts | .out => true
  | .obj idx sub _ => (idx == 0x4200 || idx == 0x3200) && (sub == 7 || sub == 8)
  | _ => false

/-- What follows any command: events and the over flags of the berths (R696). -/
def follows : Part → Bool
  | .ev | .overs => true
  | _ => false

/-- What the answering of a session's message changes: the session, the reply put out or waiting on a clear port, the count 0x2000:08 of
discarded messages, and what follows any command (R742 to R783). -/
def answers : Part → Bool
  | .session _ | .out | .icept => true
  | .obj idx sub _ => idx == 0x2000 && sub == 8
  | p => follows p

/-- An object of a list of index and subindex. -/
def objIn (l : List (Nat × Nat)) : Part → Bool
  | .obj idx sub _ => l.contains (idx, sub)
  | _ => false

/-- An object of a list of indices. -/
def objOf (l : List Nat) : Part → Bool
  | .obj idx _ _ => l.contains idx
  | _ => false

/-- The families of commands: sessions and paths, typed requests, frames, crypto banks, lanes and ports, queues and gates, time, the module's
own parts, and the tether with supply and start-up. -/
inductive Family where
  | session | request | frame | cipher | line | queue | time | module | tamper
  deriving DecidableEq, Repr

/-- The family of a command. -/
def family : Instr → Family
  | .open_ .. | .prove .. | .close .. | .read .. | .write .. | .readElements .. | .writeElements .. | .commit .. | .commitDryRun ..
  | .subscribe .. | .relayMessage .. | .relayReturn .. | .mchMessageReceive .. | .mgmtPortFrame .. | .sessionProveTimeout ..
  | .sessionIdleExpire .. | .sessionIdForget .. | .credentialLockExpire .. | .relayEntryLapse .. | .sessionPilotTakeover ..
  | .interceptReplySend .. | .interceptReplyDiscard .. | .managementPortLinkChange .. => .session
  | .sessionTerminate .. | .credentialErase .. | .keyWrite .. | .keySlotErase .. | .kekShareWrite .. | .kekErase .. | .learnAcknowledge ..
  | .lpmInsert .. | .lpmDelete .. | .lpmQuery .. | .testPatternWrite .. | .timeIncrementWrite .. | .timeSlewWrite .. | .timeStepWrite ..
  | .timeSetWrite .. | .hostLeaseWrite .. | .captureRead .. | .expertGrantWrite .. | .debugPortOpen .. | .windowWrite .. | .locatorQuery ..
  | .indirectDataRead .. | .indirectDataWrite .. | .snapshotAcknowledge .. | .alarmClear .. | .responseRelease .. | .cellSwapWindowWrite ..
  | .retireConfirmation .. | .regionRelease .. | .berthResetKeep .. | .berthResetRelease .. | .firmwareChunkWrite .. | .firmwareVerify ..
  | .firmwareInstall .. | .firmwareActivate .. | .firmwareConfirm .. | .serviceIdentityGenerate .. | .certificateInstall ..
  | .serviceIdentityErase .. | .operatorAnchorWrite .. | .attestationReportRead .. | .moduleRestart .. => .request
  | .clearFrameReceive .. | .holdExpire .. | .frameModeReceive .. | .gelixFrameReceive .. | .fawFound .. | .expectedFawCheck ..
  | .gelixFrameSend .. | .frameRelease .. | .cryptoBankEntry .. | .frameEgressComplete .. | .candidateDropped .. => .frame
  | .pipelineFault .. | .pipelineDrained .. | .quarantineTestEnd .. | .knownAnswerTest .. | .ghashMismatch .. | .keyStoreError ..
  | .ballastKeyReseed .. | .shuffleReseed .. | .maskReseed .. | .entropyTestFailure .. | .ballastShareUpdate .. => .cipher
  | .losDeclare .. | .losClear .. | .lolDeclare .. | .lolClear .. | .adaptComplete .. | .codewordLock .. | .codewordLockLoss .. | .laneLock ..
  | .laneLockLoss .. | .skewLimitExceeded .. | .portAligned .. | .faultSignalReceived .. | .portUpTimeout .. | .lofDeclare .. | .lofClear ..
  | .lomDeclare .. | .lomClear .. | .faultForwardStart .. | .lineSecondEnd .. | .pcsFecLockLoss .. => .line
  | .switchScheduledTime .. | .queueDrained .. | .rateLoweringApplied .. | .berthNodeLoweringApplied .. | .gateEntryChange .. | .gateSwap .. => .queue
  | .timeChangeEdge .. | .slewComplete .. | .ptpMessageReceive .. | .ptpMessageSend .. | .timeSourceLost .. | .holdoverExpire ..
  | .hostLeaseExpire .. | .lockstepCheck .. | .lockstepCopy .. | .dieLinkDown .. | .dieLinkUp .. | .ttReportSend .. | .ttReportReceive ..
  | .ppsInEdge .. | .captureEdge .. | .triggerEdge .. | .runtimeSave .. => .time
  | .kekShareExpire .. | .firmwareInstallComplete .. | .pilotsStopForActivation .. | .firmwareRunning .. | .firmwareStartTimeout ..
  | .configSave .. | .cxlLinkReady .. | .cxlLinkDown .. | .cxlLinkReturn .. | .stowageAccess .. | .berthResetEdge .. | .berthResetComplete ..
  | .berthReleaseComplete .. | .expertGrantExpire .. | .snapshotCapture .. | .snapshotComplete .. | .alarmPulseEnd .. | .journalSeal ..
  | .sealSigned .. | .pilotWatchdog .. | .pilotRestarted .. => .module
  | .retireConfirmationExpire .. | .tamperAlarm .. | .tamperAlarmClear .. | .monitorFault .. | .monitorFaultClear .. | .zeroizePins ..
  | .zeroizePinFault .. | .quiesceNAssert .. | .quiesceNRelease .. | .hostloopPulse .. | .zeroizeRestart .. | .tamperBitBurn .. | .cellRemove ..
  | .cellInsert .. | .cellSwapWindowClose .. | .cellSwapWindowExpire .. | .mainsInRange .. | .ready .. | .mainsLost .. | .mainsEarlyWarning ..
  | .mainsReturn .. | .bulkThreshold .. | .keelLockLost .. | .referenceLock .. | .referenceLost .. | .referenceChange .. | .lossOfAllPower ..
  | .commandedRestartBegin .. => .tamper

/-- What the passage of time changes, with what follows any command. -/
def passes (p : Part) : Bool := timePasses p || follows p

/-- A discard of accepted frames: queues, what is released or on its way out, and the counts 0x6020 (R73, R510). -/
def discards : Part → Bool
  | .queue _ | .arb _ | .tx _ => true
  | .obj idx _ _ => idx == 0x6020
  | _ => false

/-- A port that may go down, or whose defects may change: with it its frames are discarded, 0x3100:0B counts, its second is marked, and a
clear port may begin or stop to send a fault (R70, R73, R153, R175, R182). -/
def portMoves : Part → Bool
  | .port _ | .pm _ | .out => true
  | p => discards p || objIn [(0x3100, 0x0B)] p

/-- A response of the tether may act, up to Zeroize and Retire (R868 to R890): keys, sessions with their grants, seeds, stowage keys, the
vault with its credentials, the tether and its fuse. -/
def responds : Part → Bool
  | .otp | .sys | .tether | .mgmt | .session _ | .assoc _ | .kek _ | .bank _ | .stow _ | .source _ => true
  | .obj idx sub _ => idx == 0x6020 || idx == 0x2100 || (idx == 0x2040 && (sub == 1 || sub == 2)) || (idx == 0x4040 && sub == 1)
  | p => follows p || discards p

/-- The error counters of the lanes brought up to now (R79, R81). -/
def laneCounts : Part → Bool := objIn [(0x3000, 6), (0x3000, 7), (0x3000, 8), (0x3000, 0xA)]

/-- A step of the time counters may be taken: gates, switches, seconds, captures, snapshots and triggers that wait for a time follow it
(R561, R562). -/
def timeSteps : Part → Bool
  | .time | .counters | .out | .snap | .assoc _ | .gate _ | .pm _ | .counted => true
  | p => laneCounts p || objIn [(0x4040, 1), (0x7040, 6), (0x7040, 7), (0xB000, 4)] p

/-- What each command may change. A write of FALSE to an object that acts on TRUE changes nothing but what answers it. -/
def may : Instr → Part → Bool
  | .open_ _ _ _ _ _ _ _ => answers
  | .prove _ _ => fun | .mgmt => true | p => answers p || objIn [(0x2000, 7), (0x2100, 8)] p
  | .close _ => fun | .mgmt => true | p => answers p || objIn [(0x2040, 1), (0x2040, 2)] p
  | .read _ _ => fun
    | .mgmt | .node _ | .queue _ | .snap | .time | .counted | .onceAt => true
    | p => answers p || laneCounts p || objIn [(0xE000, 4), (0xE000, 5), (0xE000, 6), (0x8000, 0x0B)] p
  | .write _ _ => fun | .entropy _ | .rx _ | .gate _ | .serials | .pending => false | _ => true
  | .readElements _ _ _ => fun
    | .mgmt | .node _ | .queue _ | .snap | .time | .counted | .onceAt => true
    | p => answers p || laneCounts p || objIn [(0xE000, 4), (0xE000, 5), (0xE000, 6), (0x8000, 0x0B)] p
  | .writeElements _ _ _ _ => fun | .entropy _ | .rx _ | .gate _ | .serials | .pending => false | _ => true
  | .commit _ => fun
    | .otp | .flash | .clock | .runtime | .drawn | .serials | .slots | .tts | .pending | .berth _ | .kek _ | .filter _ | .bank _ | .entropy _ | .cls _ => false
    | .source i => i == 6
    | _ => true
  | .commitDryRun _ => answers
  | .subscribe _ _ => answers
  | .relayMessage _ _ => fun | .mgmt | .tx _ | .out | .icept => true | p => follows p || objIn [(0x2000, 9)] p
  | .relayReturn _ _ _ => fun | .mgmt | .out | .icept => true | p => follows p
  | .mchMessageReceive _ _ _ => fun | .tts | .rx _ => true | p => follows p || objIn [(0x2000, 0xb), (0x3200, 0x12)] p
  | .mgmtPortFrame _ _ _ => fun | .out => true | p => follows p || objIn [(0x2020, 0xb), (0x2020, 0xc)] p
  | .sessionProveTimeout slot => fun | .session i => i == slot.val | p => passes p
  | .sessionIdleExpire slot => fun | .session i => i == slot.val | .mgmt => true | p => passes p || objIn [(0x2040, 1), (0x2040, 2)] p
  | .sessionIdForget _ => fun | .mgmt => true | p => passes p
  | .credentialLockExpire _ => fun | .mgmt => true | p => passes p
  | .relayEntryLapse _ _ => fun | .mgmt => true | p => passes p
  | .sessionPilotTakeover => fun | .mgmt => true | p => passes p
  | .interceptReplySend _ => fun | .icept | .out | .arb _ | .node _ | .queue _ => true | p => follows p || objIn [(0x2030, 4)] p
  | .interceptReplyDiscard _ => fun | .icept => true | p => passes p || objIn [(0x2030, 5)] p
  | .sessionTerminate _ _ v => fun | .mgmt => v | p => answers p || (v && objIn [(0x2040, 1), (0x2040, 2)] p)
  | .credentialErase _ _ v => fun | .mgmt | .tether => v | p => answers p || (v && (objIn [(0x2040, 1), (0x2040, 2)] p || objOf [0x2100] p))
  | .keyWrite _ slot _ => fun | .assoc a => a == slot / 2 | .kek _ | .filter _ | .bank _ => true | p => answers p || objIn [(0x4210, 9)] p
  | .keySlotErase _ slot v => fun | .assoc a => v && a == slot / 2 | p => answers p || (v && (timePasses p || objIn [(0x4040, 1)] p))
  | .kekShareWrite _ berth _ _ => fun | .kek b => b == berth | p => answers p
  | .kekShareExpire berth => fun | .kek b => b == berth.val | p => passes p
  | .kekErase _ berth v => fun | .kek b => v && b == berth | p => answers p
  | .learnAcknowledge _ basin _ => fun | .cls b => b == basin | p => answers p
  | .lpmInsert _ _ _ => fun
    | .cls _ | .queue _ | .onceAt | .slots => true
    | p => answers p || objIn [(0x4020, 3), (0x4020, 7), (0x5040, 4), (0x5040, 5), (0x5040, 0xa), (0x5040, 0xb), (0x5100, 7), (0x5130, 2), (0x5130, 3)] p ||
        objOf [0x6010] p
  | .lpmDelete _ table _ => fun | .cls b => b == table / 8 | p => answers p
  | .lpmQuery _ _ _ => answers
  | .testPatternWrite _ _ _ => fun | .lane _ | .counted => true | p => answers p || portMoves p || laneCounts p || objIn [(0x3000, 9)] p
  | .timeIncrementWrite _ _ => fun | .time => true | p => answers p
  | .timeSlewWrite _ _ => fun | .time => true | p => answers p
  | .timeStepWrite _ _ => fun | .time => true | p => answers p
  | .timeSetWrite _ _ => fun | .time => true | p => answers p
  | .hostLeaseWrite _ _ => fun | .time | .counters | .pm _ => true | p => answers p
  | .captureRead _ _ => fun | .time => true | p => answers p
  | .expertGrantWrite _ _ _ => fun | .mgmt => true | p => answers p || objIn [(0x2040, 1), (0x2040, 2)] p
  | .debugPortOpen _ _ => fun | .mgmt => true | p => answers p
  | .windowWrite _ _ _ _ => fun | .mgmt => true | p => answers p || objIn [(0xE000, 3), (0xE000, 4), (0xE000, 5), (0xE000, 6)] p
  | .locatorQuery _ _ => fun | .queue _ | .node _ | .snap => true | p => answers p
  | .indirectDataRead _ => fun | .mgmt => true | p => answers p || objIn [(0xE000, 4), (0xE000, 5), (0xE000, 6)] p
  | .indirectDataWrite _ _ => fun | .mgmt => true | p => answers p || objIn [(0xE000, 3), (0xE000, 4), (0xE000, 5), (0xE000, 6)] p
  | .snapshotAcknowledge _ _ _ => fun | .snap | .onceAt => true | p => answers p || objIn [(0x8000, 0x0B)] p
  | .alarmClear _ _ _ => answers
  | .responseRelease _ x v => fun | .source i => v && i == x | .queue _ => v | p => answers p
  | .cellSwapWindowWrite _ _ => fun | .tether => true | p => answers p || objIn [(0x9030, 1)] p
  | .retireConfirmation _ _ => fun | p => answers p || responds p
  | .retireConfirmationExpire => fun | .mgmt => true | p => passes p
  | .regionRelease _ u v => fun | .stow h => v && h == u / 16 | .source _ | .fw | .pm _ | .snap => v | p => answers p
  | .berthResetKeep _ berth => fun | .berth b => b == berth | p => answers p
  | .berthResetRelease _ berth => fun | .berth b => b == berth | p => answers p
  | .firmwareChunkWrite _ _ _ => fun | .fw | .stow _ | .onceAt => true | p => answers p || objIn [(0x8000, 0x0B)] p
  | .firmwareVerify _ v => fun | .fw => v | p => answers p
  | .firmwareInstall _ v => fun | .fw | .flash => v | p => answers p
  | .firmwareInstallComplete => fun | .fw | .flash => true | p => follows p
  | .firmwareActivate _ _ => fun | .fw | .flash | .tether | .mgmt => true | p => answers p || objIn [(0x2040, 1), (0x2040, 2)] p
  | .pilotsStopForActivation => fun | .fw | .sys | .time | .pm _ => true | p => follows p
  | .firmwareRunning => fun | .fw | .sys | .tether | .flash => true | p => follows p
  | .firmwareStartTimeout => fun | .fw | .sys | .tether | .flash => true | p => passes p
  | .firmwareConfirm _ v => fun | .otp => v | p => answers p
  | .serviceIdentityGenerate _ v => fun | .drawn | .fw | .tether => v | p => answers p
  | .certificateInstall _ v => fun | .tether | .flash => v | p => answers p
  | .serviceIdentityErase _ v => fun | .fw | .tether | .flash => v | p => answers p
  | .operatorAnchorWrite _ _ => fun | .flash => true | p => answers p
  | .attestationReportRead _ => fun | .mgmt => true | p => answers p
  | .moduleRestart _ v => fun | .sys | .tether => v | p => answers p
  | .clearFrameReceive _ _ => fun
    | .icept | .mgmt | .cls _ | .onceAt | .queue _ | .slots => true
    | p => follows p || objIn [(0x4020, 3), (0x4020, 7), (0x5000, 9), (0x5040, 1), (0x5040, 2), (0x5040, 3), (0x5040, 4), (0x5040, 5), (0x5040, 6),
        (0x5040, 7), (0x5040, 8), (0x5040, 9), (0x5040, 0xb), (0x5040, 0xc), (0x5200, 5), (0x5200, 6), (0x2030, 1), (0x2030, 2), (0x2030, 6)] p ||
        objOf [0x3100, 0x6010] p
  | .holdExpire basin => fun | .cls b => b == basin.val | p => passes p || objIn [(0x5040, 0xb)] p
  | .frameModeReceive _ _ => fun
    | .assoc _ | .bank _ | .onceAt | .queue _ | .slots => true
    | p => follows p || objIn [(0x3200, 0x16), (0x4030, 2), (0x4030, 3), (0x4030, 4), (0x4200, 7), (0x4210, 8), (0x4210, 9), (0x5000, 0xa)] p ||
        objOf [0x3100, 0x4020, 0x6010] p
  | .gelixFrameReceive _ _ => fun
    | .assoc _ | .bank _ | .onceAt | .rx _ | .tts | .slots => true
    | p => follows p || portMoves p || objIn [(0x3300, 6), (0x4200, 7), (0x4210, 8), (0x4210, 9), (0x2000, 0xb)] p || objOf [0x3200, 0x4020, 0x6010] p
  | .fawFound port _ _ => fun | .rx p => p == port.val | .port p => p == port.val | p => follows p || objIn [(0x3200, 0x14)] p
  | .expectedFawCheck port _ _ => fun | .rx p => p == port.val | .port p => p == port.val | .pm p => p == port.val | p => follows p || objIn [(0x3200, 0x11), (0x3200, 0x12)] p
  | .gelixFrameSend _ => fun
    | .arb _ | .assoc _ | .drawn | .serials | .icept => true
    | p => passes p || objIn [(0x3200, 7), (0x3200, 8), (0x4020, 1), (0x4020, 2), (0x4040, 1), (0x4200, 7)] p || objOf [0x6020] p
  | .frameRelease _ _ => fun | .arb _ | .node _ | .queue _ | .slots => true | p => passes p || objIn [(0x4210, 9)] p || objOf [0x6010, 0x6020] p
  | .cryptoBankEntry _ => fun
    | .arb _ | .assoc _ | .bank _ | .tx _ | .serials => true
    | p => follows p || objIn [(0x4020, 1), (0x4020, 2), (0x4020, 4), (0x4020, 5), (0x4020, 6), (0x4200, 7)] p || objOf [0x6020] p
  | .frameEgressComplete _ _ => fun | .arb _ | .onceAt | .out => true | p => passes p || objIn [(0x6010, 3), (0x7030, 0xa)] p
  | .pipelineFault .. => fun | p => responds p || timePasses p || objIn [(0x4200, 9)] p
  | .pipelineDrained _ _ _ => fun | p => responds p || timePasses p
  | .quarantineTestEnd _ _ _ _ => responds
  | .knownAnswerTest .. => fun | p => responds p || timePasses p || objIn [(0x4200, 9), (0x4210, 9)] p
  | .ghashMismatch _ _ _ _ _ => fun | p => responds p || timePasses p || objIn [(0x4200, 0xa)] p
  | .keyStoreError _ _ _ => fun | p => responds p || objIn [(0x4200, 0xc)] p
  | .ballastKeyReseed _ _ => fun | .drawn => true | p => passes p
  | .shuffleReseed _ _ => fun | .drawn => true | p => passes p
  | .maskReseed _ _ => fun | .bank _ | .drawn => true | p => follows p
  | .entropyTestFailure harbour _ _ _ => fun | .entropy h => h == harbour.val | .drawn => true | p => responds p || objIn [(0x6000, 7), (0x6000, 9)] p || objOf [0x4230] p
  | .losDeclare _ => fun | .lane _ => true | p => follows p || portMoves p
  | .losClear _ => fun | .lane _ => true | p => follows p || portMoves p
  | .lolDeclare _ => fun | .lane _ => true | p => follows p || portMoves p
  | .lolClear _ => fun | .lane _ => true | p => follows p || portMoves p
  | .adaptComplete _ => fun | .lane _ | .port _ | .out => true | p => follows p
  | .codewordLock _ => fun | .lane _ => true | p => follows p
  | .codewordLockLoss _ => fun | .lane _ | .rx _ => true | p => follows p || portMoves p || objIn [(0x3200, 0x11), (0x3200, 0x12)] p
  | .laneLock _ _ => fun | .lane _ => true | p => follows p
  | .laneLockLoss _ => fun | .lane _ | .rx _ => true | p => follows p || portMoves p || objIn [(0x3200, 0x11), (0x3200, 0x12)] p
  | .skewLimitExceeded _ _ => fun | .rx _ => true | p => follows p || portMoves p || objIn [(0x3200, 0x11), (0x3200, 0x12)] p
  | .portAligned _ _ => fun | .rx _ => true | p => follows p || portMoves p || objIn [(0x3200, 0x11), (0x3200, 0x12), (0x3100, 0xa)] p
  | .faultSignalReceived _ _ => fun | p => follows p || portMoves p
  | .portUpTimeout _ => fun | .lane _ | .port _ => true | p => passes p
  | .lofDeclare _ => fun | p => passes p || portMoves p
  | .lomDeclare _ => fun | p => passes p || portMoves p
  | .lomClear _ => fun | p => passes p || portMoves p
  | .faultForwardStart _ => fun | p => passes p || portMoves p
  | .lineSecondEnd _ => fun | .onceAt => true | p => passes p || portMoves p || objIn [(0x8000, 0x0B)] p
  | .lofClear _ => fun | .rx _ => true | p => passes p || portMoves p
  | .switchScheduledTime a => fun | .assoc x => x == a.val | p => passes p || objIn [(0x4040, 1)] p
  | .queueDrained q => fun | .queue x => x == q.val | p => follows p
  | .rateLoweringApplied q => fun | .queue x => x == q.val | p => follows p
  | .berthNodeLoweringApplied b port => fun | .node x => x == b.val * 64 + port.val | p => follows p
  | .gateEntryChange _ => passes
  | .gateSwap port => fun | .gate x => x == port.val | p => passes p
  | .timeChangeEdge => fun | p => passes p || timeSteps p
  | .slewComplete => passes
  | .ptpMessageReceive _ _ _ => fun | p => follows p || timeSteps p || objIn [(0x7020, 0xc), (0x7030, 6)] p
  | .ptpMessageSend => fun | .time | .out => true | p => passes p
  | .timeSourceLost => fun | .time | .pm _ => true | p => passes p
  | .holdoverExpire => fun | .time | .pm _ => true | p => passes p
  | .hostLeaseExpire => fun | .time | .pm _ => true | p => passes p
  | .lockstepCheck => fun | .time | .pm _ => true | p => passes p
  | .lockstepCopy => fun | p => passes p || timeSteps p
  | .dieLinkDown => fun | .time | .pm _ => true | p => follows p
  | .dieLinkUp => fun | .time => true | p => follows p
  | .ttReportSend _ => passes
  | .ttReportReceive _ => fun | .tts => true | p => follows p || timeSteps p || objIn [(0x7030, 6), (0x7030, 7), (0x7030, 8), (0x7030, 9)] p
  | .ppsInEdge => fun | p => follows p || timeSteps p || objIn [(0x7010, 8), (0x7010, 0xa), (0x7050, 4)] p
  | .captureEdge _ _ => fun | .time => true | p => follows p || objIn [(0x7050, 4)] p
  | .triggerEdge _ => fun | .time | .out => true | p => passes p || objIn [(0x7040, 6), (0x7040, 7)] p
  | .runtimeSave => fun | .flash => true | p => passes p
  | .configSave => fun | .flash | .sys => true | p => follows p
  | .cxlLinkReady harbour _ _ _ _ _ => fun | .stow h => h == harbour.val | .drawn => true | p => follows p
  | .cxlLinkDown _ => fun | .fw | .pm _ | .snap => true | p => responds p
  | .cxlLinkReturn harbour => fun | .stow h => h == harbour.val | .fw | .pm _ | .snap => true | p => follows p
  | .stowageAccess _ _ _ _ _ => fun | .fw | .onceAt | .pm _ | .out | .snap => true | p => responds p || objIn [(0x8000, 8), (0x8000, 9), (0x8000, 0xa), (0x8000, 0xb)] p
  | .berthResetEdge berth => fun
    | .berth b => b == berth.val | .kek b => b == berth.val | .assoc _ | .bank _ | .cls _ | .icept | .mgmt | .session _ => true
    | p => passes p || discards p || objIn [(0x4040, 1), (0x2040, 1), (0x2040, 2)] p
  | .berthResetComplete berth => fun | .berth b => b == berth.val | p => follows p
  | .berthReleaseComplete berth => fun
    | .berth b => b == berth.val | .assoc _ | .cls _ | .node _ | .queue _ | .sys => true
    | p => follows p || objOf [0x4000, 0x4040, 0x5000, 0x5100, 0x6000, 0x6200] p
  | .expertGrantExpire _ => fun | .mgmt => true | p => passes p || objIn [(0x2040, 1), (0x2040, 2)] p
  | .snapshotCapture _ => fun | .snap | .counted => true | p => passes p || laneCounts p || objIn [(0xB000, 4)] p
  | .snapshotComplete => fun | .snap | .onceAt => true | p => passes p || objIn [(0x8000, 0x0B)] p
  | .alarmPulseEnd _ => passes
  | .journalSeal => fun | .tether => true | p => passes p
  | .sealSigned => follows
  | .tamperAlarm _ _ => responds
  | .tamperAlarmClear q => fun | .source i => i == q.val | .tether => true | p => follows p
  | .monitorFault _ _ => responds
  | .monitorFaultClear _ => fun | .source i => i == 9 | .tether => true | p => follows p
  | .zeroizePins => responds
  | .zeroizePinFault _ => responds
  | .quiesceNAssert => responds
  | .quiesceNRelease => fun | .source i => i == 8 | .tether | .queue _ => true | p => follows p
  | .hostloopPulse _ => responds
  | .zeroizeRestart _ => fun | .clock | .pending => false | _ => true
  | .tamperBitBurn => fun | .sys | .tether | .otp => true | p => follows p
  | .cellRemove => fun | .runtime => true | p => responds p
  | .cellInsert => responds
  | .cellSwapWindowClose _ => fun | .tether => true | p => follows p
  | .cellSwapWindowExpire => fun | p => responds p || timePasses p
  | .mainsInRange .. => fun | .pending => false | _ => true
  | .ready => responds
  | .mainsLost => fun | .sys => true | p => follows p
  | .mainsEarlyWarning => fun | .sys | .tether | .flash => true | p => passes p
  | .mainsReturn => fun | .sys => true | p => follows p
  | .bulkThreshold => fun | .otp | .flash | .clock | .drawn | .out | .pending => false | _ => true
  | .keelLockLost _ => fun | .clock | .pending => false | _ => true
  | .referenceLock _ => fun | .sys => true | p => follows p
  | .referenceLost => fun | .sys => true | p => follows p
  | .referenceChange _ => fun | .sys => true | p => follows p
  | .pilotWatchdog _ => fun | .sys | .time | .pm _ => true | p => follows p
  | .pilotRestarted _ => fun | .sys | .tether | .mgmt | .session _ => true | p => follows p || objIn [(0x2040, 1), (0x2040, 2)] p
  | .candidateDropped port _ => fun | .rx p => p == port.val | p => follows p || objIn [(0x3200, 0x13)] p
  | .pcsFecLockLoss _ => fun | p => follows p || portMoves p
  | .lossOfAllPower => fun | .tether | .runtime => true | p => follows p || objOf [0x2100] p
  | .managementPortLinkChange _ _ => fun | .mgmt => true | p => follows p
  | .commandedRestartBegin _ => fun | .pending => false | _ => true
  | .ballastShareUpdate _ => fun | p => passes p || objIn [(0x4200, 6)] p

/-! ### What every step keeps -/

/-- The fuse counters stay within their fuses: 4,096 tamper fuses in each mirror (R878, R880), a rollback counter of 8 bits (R949). -/
def FusesFit (o : Otp) : Prop := o.mirror0 ≤ 4096 ∧ o.mirror1 ≤ 4096 ∧ o.rollback ≤ 255

/-- Fuses only burn (R878, R889, R949): the counters rise, revoked keys and a retired module stay so; what was burned in manufacture does
not change. -/
def FusesBurn (a b : Otp) : Prop :=
  a.mirror0 ≤ b.mirror0 ∧ a.mirror1 ≤ b.mirror1 ∧ a.rollback ≤ b.rollback ∧ a.revoked &&& b.revoked = a.revoked ∧
  (a.retired = true → b.retired = true) ∧ { b with mirror0 := 0, mirror1 := 0, rollback := 0, revoked := 0, retired := false } =
    { a with mirror0 := 0, mirror1 := 0, rollback := 0, revoked := 0, retired := false }

end Sys2Proof.Machine
end

