-- ==== Sys2Proof/Certificates/Slice0/Obligations.lean ====
section
/-! DEFINITION. The statements for the provers. Each says what the model does for every state and operands that meet its hypotheses; its docstring
names the rules of spec/ it rests on. -/

open Sys2Proof Sys2Proof.Machine

/-! ### The block as a whole -/

/-- A step runs the command at the front of the queue on the state with the rest of the queue (log 1). -/
def Obligations.StepRunsTheFrontCommand : Prop :=
  ∀ (c : Instr) (s : State), step { s with pending := c :: s.pending } = exec c s

/-- On an empty queue one D-clock cycle passes (R31; the model's choice, log 1): the clock moves on by one and neither fuses nor flash nor a
session's state change. -/
def Obligations.EmptyQueuePassesOneCycle : Prop :=
  ∀ s : State, s.pending = [] →
    ∃ t, step s = .next t ∧ t.mod.sys.elapsed = s.mod.sys.elapsed + 1 ∧ t.otp = s.otp ∧ t.flash = s.flash ∧ t.pending = [] ∧
      (∀ i, (sess t.mod i).state = (sess s.mod i).state) ∧ t.mod.assocs = s.mod.assocs ∧ t.mod.queues = s.mod.queues

/-- Every well-formed command completes, and a command that is not well formed stops as such (log 13): no meaning refuses. No command
touches the queue of those that wait (log 1). -/
def Obligations.WellFormedCommandsCompleteAndLeaveTheQueue : Prop :=
  (∀ (c : Instr) (s : State), (c.wf = true → ∃ t, exec c s = .next t) ∧ (c.wf = false → ∃ name, exec c s = .fault (.malformed name))) ∧
  (∀ (c : Instr) (s t : State), exec c s = .next t → t.pending = s.pending)

/-- From every state whose fuse counters fit their fuses, a step gives one where they do: 4,096 tamper fuses in each mirror (R879, R883), an
8-bit rollback counter (R949). -/
def Obligations.FuseCountersStayWithinTheirFuses : Prop :=
  ∀ s t : State, FusesFit s.otp → step s = .next t → FusesFit t.otp

/-- No step unburns a fuse: the tamper counters, the rollback counter, the revocation bits and the retire fuse only grow, and identity, keys
and enrolment code stay as manufactured (R878 to R883, R889, R890, R949). -/
def Obligations.StepsOnlyBurnFuses : Prop :=
  ∀ s t : State, step s = .next t → FusesBurn s.otp t.otp

/-- After reset both harbours are held in reset without mains, nothing waits, no session is open, no fuse counter has burned, and objects
read their defaults: UDP port 29,170 (R722), idle time 900 s and relay disabled (R793), the increment 1,717,986,918 (R552); what the spec
gives no value for is the model's choice (log 2). -/
def Obligations.ResetStateAsTheSpecGivesIt : Prop :=
  State.reset.pending = [] ∧ State.reset.mod.sys.running = false ∧ State.reset.mod.sys.mains = false ∧ State.reset.mod.sys.pilot0 = false ∧
  State.reset.mod.sys.pilot1 = false ∧ FusesFit State.reset.otp ∧ State.reset.otp.mirror0 = 0 ∧ State.reset.otp.rollback = 0 ∧
  (∀ i, (sess State.reset.mod i).state = 0) ∧ State.reset.mod.ev.journal = [] ∧
  inf State.reset.mod 0x2000 1 0 = 29170 ∧ inf State.reset.mod 0x2000 3 0 = 900 ∧ inf State.reset.mod 0x2000 4 0 = 0 ∧
  State.reset.mod.time.c0.inc = 1717986918 ∧ State.reset.mod.time.c1.inc = 1717986918

/-! ### Sessions -/

/-- OPEN takes a free slot while fewer than 32 slots are used and fewer than 8 of them hold sessions not yet proved; beyond either limit it
is answered with 0x3001 and the limit, and no slot changes (R747, R748). -/
def Obligations.OpenWithinTheLimits : Prop :=
  ∀ (s : State) (h : Hdr) (role method cred : Nat) (nonce : Octets) (sid : Nat) (mn : Octets),
    (Instr.open_ h role method cred nonce sid mn).wf = true → Reaches s.mod h →
    (slotsUsed s.mod = 32 →
      ∃ t, exec (.open_ h role method cred nonce sid mn) s = .next t ∧ Sent s.mod t.mod (plain h 1 0 0x3001 (detail ⟨0, 0, false, 0⟩ [32])) ∧
        ∀ j, sess t.mod j = sess s.mod j) ∧
    (slotsUsed s.mod < 32 → 8 ≤ slotsUnproved s.mod →
      ∃ t, exec (.open_ h role method cred nonce sid mn) s = .next t ∧ Sent s.mod t.mod (plain h 1 0 0x3001 (detail ⟨0, 0, false, 0⟩ [8])) ∧
        ∀ j, sess t.mod j = sess s.mod j) ∧
    (slotsUsed s.mod < 32 → slotsUnproved s.mod < 8 → role ≠ 3 →
      ∃ t i, exec (.open_ h role method cred nonce sid mn) s = .next t ∧ i < 32 ∧ (sess s.mod i).state = 0 ∧ (sess t.mod i).state = 1 ∧
        ∀ j, j ≠ i → sess t.mod j = sess s.mod j)

/-- An OPEN that is not refused puts its role, method, credential, nonces, path and address into the lowest free slot with nothing pending,
and is answered under the new session ID with the module nonce, a salt and the iteration count (R749, R750); for a credential that does not
exist, or whose role or method differs, the answer is as long and the slot is taken all the same (R751). OPEN for a Tenant credential in
force, proved by nothing yet: refused with 0x1006 when the BPID names no enabled berth or one that resets, and else the session carries the
credential's BPID (R683, R685, R757). -/
def Obligations.OpenTakesTheLowestFreeSlot : Prop :=
  (∀ (s : State) (h : Hdr) (role method cred : Nat) (nonce : Octets) (sid : Nat) (mn : Octets) (i : Nat),
    (Instr.open_ h role method cred nonce sid mn).wf = true → Reaches s.mod h → slotsUsed s.mod < 32 → slotsUnproved s.mod < 8 →
    firstBelow 32 (fun i => (sess s.mod i).state == 0) = some i → role ≠ 3 →
    ∃ t salt, salt.length = 16 ∧ exec (.open_ h role method cred nonce sid mn) s = .next t ∧
      (sess t.mod i).state = 1 ∧ (sess t.mod i).id = sid ∧ (sess t.mod i).role = role ∧ (sess t.mod i).method = method ∧ (sess t.mod i).cred = cred ∧
      (sess t.mod i).hostNonce = nonce ∧ (sess t.mod i).moduleNonce = mn ∧ (sess t.mod i).path = h.path ∧ (sess t.mod i).src = h.src ∧
      (sess t.mod i).hi = 0 ∧ (sess t.mod i).pend = [] ∧ (sess t.mod i).openedAt = s.mod.sys.elapsed ∧
      Sent s.mod t.mod (plain h 1 sid 0 (openReply mn salt (if method = 0 then 100000 else 0)))) ∧
  (∀ (s : State) (h : Hdr) (method cred : Nat) (nonce : Octets) (sid : Nat) (mn : Octets) (i : Nat),
    (Instr.open_ h 3 method cred nonce sid mn).wf = true → Reaches s.mod h → slotsUsed s.mod < 32 → slotsUnproved s.mod < 8 →
    firstBelow 32 (fun i => (sess s.mod i).state == 0) = some i → (openSecret s h.path 3 method cred).isSome = true →
    (berthOfBpid s.mod (inf s.mod 0x2100 3 cred) = none →
      ∃ t, exec (.open_ h 3 method cred nonce sid mn) s = .next t ∧ Sent s.mod t.mod (plain h 1 0 0x1006 []) ∧ ∀ j, sess t.mod j = sess s.mod j) ∧
    ((berthOfBpid s.mod (inf s.mod 0x2100 3 cred)).isSome = true →
      ∃ t, exec (.open_ h 3 method cred nonce sid mn) s = .next t ∧ (sess t.mod i).state = 1 ∧ (sess t.mod i).role = 3 ∧
        (sess t.mod i).bpid = inf s.mod 0x2100 3 cred))

/-- A correct proof opens the session: PROVE is answered with 0x0000 and HMAC-SHA-256 over CAMANENT ACCEPT and the transcript, the slot
holds the proved session and the credential's run of failed proofs is over (R754, R756). A wrong proof, or any proof while the credential is
locked, is answered with 0x6001 and releases the session; the fifth wrong proof in a row of a credential that exists locks it for 300 s, and
CREDENTIAL_LOCK_EXPIRE unlocks it then (R755, R756). -/
def Obligations.ProofsOpenOrReleaseTheSession : Prop :=
  (∀ (s : State) (h : Hdr) (secret : Secret) (i : Nat),
    (Instr.prove h (some secret)).wf = true → Reaches s.mod h → slotOf s.mod h.session = some i → (sess s.mod i).state = 1 →
    h.bpid = (if (sess s.mod i).role = 3 then (sess s.mod i).bpid else 0) → (sess s.mod i).secret = some secret →
    tget none s.mod.mgmt.lockedTo (sess s.mod i).cred = none → ((sess s.mod i).cred = 0xFFFF → officerInForce s.mod = false) →
    ∃ t, exec (.prove h (some secret)) s = .next t ∧ (sess t.mod i).state = 2 ∧ (sess t.mod i).id = (sess s.mod i).id ∧
      (sess t.mod i).role = (sess s.mod i).role ∧ (sess t.mod i).cred = (sess s.mod i).cred ∧
      tget 0 t.mod.mgmt.fails (sess s.mod i).cred = 0 ∧
      Sent s.mod t.mod (plain h 2 (sess s.mod i).id 0 (hmac (secretBytes secret) (ascii "CAMANENT ACCEPT" ++ (sess s.mod i).transcript))) ∧
      ∀ j, j ≠ i → sess t.mod j = sess s.mod j) ∧
  ((∀ (s : State) (h : Hdr) (proof : Option Secret) (i : Nat),
    (Instr.prove h proof).wf = true → Reaches s.mod h → slotOf s.mod h.session = some i → (sess s.mod i).state = 1 →
    h.bpid = (if (sess s.mod i).role = 3 then (sess s.mod i).bpid else 0) →
    ((tget none s.mod.mgmt.lockedTo (sess s.mod i).cred).isSome = true ∨ (sess s.mod i).secret = none ∨ proof ≠ (sess s.mod i).secret) →
    ∃ t, exec (.prove h proof) s = .next t ∧ (sess t.mod i).state = 0 ∧ Sent s.mod t.mod (plain h 2 h.session 0x6001 []) ∧
      (tget none s.mod.mgmt.lockedTo (sess s.mod i).cred = none → (sess s.mod i).cred < 64 → inf s.mod 0x2100 1 (sess s.mod i).cred ≠ 0 →
        (tget 0 s.mod.mgmt.fails (sess s.mod i).cred < 4 →
          tget 0 t.mod.mgmt.fails (sess s.mod i).cred = tget 0 s.mod.mgmt.fails (sess s.mod i).cred + 1 ∧
          tget none t.mod.mgmt.lockedTo (sess s.mod i).cred = none) ∧
        (tget 0 s.mod.mgmt.fails (sess s.mod i).cred = 4 →
          tget none t.mod.mgmt.lockedTo (sess s.mod i).cred = some (s.mod.sys.elapsed + 300 * secCycles)))) ∧
  (∀ (s : State) (c : Fin 64) (e : Nat), tget none s.mod.mgmt.lockedTo c.val = some e →
    ∃ t, exec (.credentialLockExpire c) s = .next t ∧ tget none t.mod.mgmt.lockedTo c.val = none ∧ e ≤ t.mod.sys.elapsed))

/-- Sessions end and their slots are free: on CLOSE after its reply, 5 s after an OPEN that is not proved, and on an Officer's write of TRUE
to 0x2010:0B (R755, R763). A credential erased has no role and no secret, so that it is in force no more, and every session opened with it
ends (R763, R797). -/
def Obligations.SessionsEndAndFreeTheirSlots : Prop :=
  ((∀ (s : State) (h : Hdr) (i : Nat), (Instr.close h).wf = true → Accepted s.mod h i →
    ∃ t, exec (.close h) s = .next t ∧ (sess t.mod i).state = 0 ∧ (sess t.mod i).secret = none ∧ (sess t.mod i).pend = []) ∧
  (∀ (s : State) (i : Fin 32), (sess s.mod i.val).state = 1 →
    ∃ t, exec (.sessionProveTimeout i) s = .next t ∧ (sess t.mod i.val).state = 0 ∧ (sess s.mod i.val).openedAt + 5 * secCycles ≤ t.mod.sys.elapsed) ∧
  (∀ (s : State) (h : Hdr) (i j : Nat), (Instr.sessionTerminate h j true).wf = true → WriteClears s.mod h i 0x2010 0x0B (some j) (b1 1) →
    (sess s.mod j).state = 1 ∨ (sess s.mod j).state = 2 →
    ∃ t, exec (.sessionTerminate h j true) s = .next t ∧ (sess t.mod j).state = 0 ∧ (sess t.mod j).secret = none ∧ (sess t.mod j).pend = [])) ∧
  (∀ (s : State) (h : Hdr) (i c : Nat), (Instr.credentialErase h c true).wf = true → WriteClears s.mod h i 0x2100 0x0A (some c) (b1 1) →
    ∃ t, exec (.credentialErase h c true) s = .next t ∧ credSecret t.mod c = none ∧ inf t.mod 0x2100 1 c = 0 ∧ credInForce t.mod c = false ∧
      tget 0 t.mod.mgmt.fails c = 0 ∧ tget none t.mod.mgmt.lockedTo c = none ∧
      (∀ j, j < 32 → (sess s.mod j).cred = c → (sess s.mod j).state ≤ 2 → (sess t.mod j).state = 0) ∧
      ∀ d, d ≠ c → credSecret t.mod d = credSecret s.mod d)

/-- An idle session expires when no request has been accepted in it for 0x2000:03 seconds; its ID is kept for 3,600 s, and any message for
it, a PROVE too, is answered with 0x6004; any other ID that no slot holds is answered with 0x4001 (R762). -/
def Obligations.IdleSessionsExpireAndAreRemembered : Prop :=
  (∀ (s : State) (i : Fin 32), (sess s.mod i.val).state = 2 →
    ∃ t, exec (.sessionIdleExpire i) s = .next t ∧ (sess t.mod i.val).state = 0 ∧ (sess t.mod i.val).secret = none ∧ (sess t.mod i.val).pend = [] ∧
      (sess s.mod i.val).requestAt + inf s.mod 0x2000 3 0 * secCycles ≤ t.mod.sys.elapsed ∧
      t.mod.mgmt.expired = s.mod.mgmt.expired ++ [((sess s.mod i.val).id, t.mod.sys.elapsed)]) ∧
  (∀ (s : State) (sid since : Nat), (Instr.sessionIdForget sid).wf = true → s.mod.mgmt.expired.find? (·.1 == sid) = some (sid, since) →
    ∃ t, exec (.sessionIdForget sid) s = .next t ∧ t.mod.mgmt.expired.find? (·.1 == sid) = none ∧ since + 3600 * secCycles ≤ t.mod.sys.elapsed) ∧
  (∀ (m : Mod) (h : Hdr) (op : Nat), Reaches m h → slotOf m h.session = none →
    admission m h op = .stop (replyPlain m h op h.session (if m.mgmt.expired.any (·.1 == h.session) then 0x6004 else 0x4001) [])) ∧
  (∀ (s : State) (h : Hdr) (proof : Option Secret), (Instr.prove h proof).wf = true → Reaches s.mod h → slotOf s.mod h.session = none →
    ∃ t, exec (.prove h proof) s = .next t ∧
      Sent s.mod t.mod (plain h 2 h.session (if s.mod.mgmt.expired.any (·.1 == h.session) then 0x6004 else 0x4001) []) ∧
      ∀ j, sess t.mod j = sess s.mod j)

/-- A request of a proved session that repeats the SEQUENCE and the whole ciphertext of a stored one is not carried out again: the module
becomes what resending the stored reply makes of it, whatever the request would do; any other whose SEQUENCE is not above the highest
accepted is answered with 0x6003, and one more than 65,536 above it with 0x6002, and neither is carried out (R759, R760); a session not yet
proved is answered with 0x6002 (R783). -/
def Obligations.RequestsOutOfTurnAreNotCarriedOut : Prop :=
  (∀ (s : State) (h : Hdr) (op i : Nat) (act : State → Nat → State × Nat × List Octets),
    Reaches s.mod h → slotOf s.mod h.session = some i → h.tagOk = true → (sess s.mod i).state = 2 →
    (∀ r, (sess s.mod i).stored.find? (fun r => r.sequence == h.sequence && r.cipher == h.cipher) = some r →
      serve s h op act = s.upd (r.reply.foldl send s.mod)) ∧
    ((∀ r ∈ (sess s.mod i).stored, ¬(r.sequence = h.sequence ∧ r.cipher = h.cipher)) →
      (h.sequence ≤ (sess s.mod i).hi ∨ (sess s.mod i).hi + 65536 < h.sequence) →
      ∃ n, serve s h op act = s.upd n ∧ n.obj = s.mod.obj ∧ (sess n i).hi = (sess s.mod i).hi ∧ (sess n i).sent = (sess s.mod i).sent + 1 ∧
        (∀ j, j ≠ i → sess n j = sess s.mod j) ∧
        Sent s.mod n { path := h.path, dst := h.src, op, session := (sess s.mod i).id, sequence := (sess s.mod i).sent + 1,
                       status := if h.sequence ≤ (sess s.mod i).hi then 0x6003 else 0x6002, reference := h.sequence % 2 ^ 32 })) ∧
  (∀ (s : State) (h : Hdr) (i : Nat), (Instr.commit h).wf = true → Reaches s.mod h → slotOf s.mod h.session = some i → h.tagOk = true →
    (sess s.mod i).state = 1 →
    ∃ t, exec (.commit h) s = .next t ∧ Sent s.mod t.mod (plain h 0x14 h.session 0x6002 []) ∧ t.mod.obj = s.mod.obj) ∧
  (∀ (s : State) (h : Hdr) (i : Nat) (recs : List ValueRec) (r : Stored),
    (Instr.write h recs).wf = true → Reaches s.mod h → slotOf s.mod h.session = some i → h.tagOk = true → (sess s.mod i).state = 2 →
    (sess s.mod i).stored.find? (fun r => r.sequence == h.sequence && r.cipher == h.cipher) = some r →
    ∃ t, exec (.write h recs) s = .next t ∧ t.mod.obj = s.mod.obj ∧ t.otp = s.otp ∧ t.flash = s.flash ∧ t.mod.tether = s.mod.tether ∧
      (∀ j, sess t.mod j = sess s.mod j) ∧ t.mod.assocs = s.mod.assocs ∧ t.mod.keks = s.mod.keks ∧
      ((∀ x ∈ r.reply, ∃ k, x.path = .mgmt k) → t.mod.out = s.mod.out ++ r.reply.map .message))

/-- An accepted request raises the session's highest accepted SEQUENCE to its own and is answered with one stored reply that carries its
SEQUENCE, whatever its outcome; READ, READ_ELEMENTS, SUBSCRIBE, WRITE, WRITE_ELEMENTS and a COMMIT that leaves the session open (R758, R759,
R764). -/
def Obligations.AcceptedReadsAreAnsweredAndStored : Prop :=
  (∀ (s : State) (h : Hdr) (i : Nat) (addrs : List Addr), (Instr.read h addrs).wf = true → Accepted s.mod h i → 0 < addrs.length → addrs.length ≤ 64 →
    ∃ t, exec (.read h addrs) s = .next t ∧ (sess t.mod i).hi = h.sequence ∧ Answered t.mod i h.sequence 0) ∧
  (∀ (s : State) (h : Hdr) (i : Nat) (first : Addr) (count : Nat), (Instr.readElements h first count).wf = true → Accepted s.mod h i →
    0 < count → count ≤ 1024 →
    ∃ t, exec (.readElements h first count) s = .next t ∧ (sess t.mod i).hi = h.sequence ∧ Answered t.mod i h.sequence 0) ∧
  (∀ (s : State) (h : Hdr) (i : Nat) (filters : List (Nat × Nat)), (Instr.subscribe h filters).wf = true → Accepted s.mod h i → filters.length ≤ 16 →
    ∃ t, exec (.subscribe h filters) s = .next t ∧ (sess t.mod i).hi = h.sequence ∧ Answered t.mod i h.sequence 0 ∧
      (tget ({} : Sub) t.mod.ev.subs i).filters = filters ∧ (tget ({} : Sub) t.mod.ev.subs i).role = (sess s.mod i).role ∧
      (tget ({} : Sub) t.mod.ev.subs i).bpid = (sess s.mod i).bpid)

/-! ### Writing -/

/-- WRITE of an rwc object enters the session's pending set and changes nothing in force, unless the set holds 4,096 other records: then it
is refused with 0x3001 and that limit; a record that a check of R783 refuses changes nothing (R777, R778, R779). WRITE processes its records
in order up to the first that is refused: those before it have taken effect, those after it are not looked at (R777). WRITE_ELEMENTS has the
effect of a WRITE of its elements, and answers 0x2001 to a stride outside 1 to 4,096 without one (R775). -/
def Obligations.WritesEnterThePendingSet : Prop :=
  (∀ (s : State) (h : Hdr) (i : Nat) (r : ValueRec), (Instr.write h [r]).wf = true → Accepted s.mod h i →
    (∀ o v, recordCheck (accept s.mod h i) i r = .ok (o, v) → o.acc = .rwc →
      ((tfind (sess s.mod i).pend (okey r.addr.idx r.addr.sub r.addr.elem)).isSome = true ∨ (sess s.mod i).pend.length < 4096 →
        ∃ t, exec (.write h [r]) s = .next t ∧
          (sess t.mod i).pend = tins (okey r.addr.idx r.addr.sub r.addr.elem) v (tdel (sess s.mod i).pend (okey r.addr.idx r.addr.sub r.addr.elem)) ∧
          ((sess s.mod i).pend.length ≤ 4096 → (sess t.mod i).pend.length ≤ 4096) ∧ t.mod.obj = s.mod.obj ∧ Answered t.mod i h.sequence 0) ∧
      (tfind (sess s.mod i).pend (okey r.addr.idx r.addr.sub r.addr.elem) = none → 4096 ≤ (sess s.mod i).pend.length →
        ∃ t q x older, exec (.write h [r]) s = .next t ∧ (sess t.mod i).pend = (sess s.mod i).pend ∧ t.mod.obj = s.mod.obj ∧
          (sess t.mod i).stored = q :: older ∧ q.reply = [x] ∧ x.status = 0x3001 ∧ x.body = b2 0 ++ detail r.addr [4096])) ∧
    (∀ e, recordCheck (accept s.mod h i) i r = .error e →
      ∃ t, exec (.write h [r]) s = .next t ∧ (sess t.mod i).pend = (sess s.mod i).pend ∧ t.mod.obj = s.mod.obj ∧ t.mod.tether = s.mod.tether ∧
        t.otp = s.otp ∧ t.flash = s.flash ∧ Answered t.mod i h.sequence e.status)) ∧
  (∀ (s : State) (h : Hdr) (i : Nat) (r x : ValueRec) (rest : List ValueRec) (o : Obj) (v : Val) (e : Refuse),
    (Instr.write h (r :: x :: rest)).wf = true → Accepted s.mod h i → rest.length ≤ 62 →
    recordCheck (accept s.mod h i) i r = .ok (o, v) → o.acc = .rwc → (sess s.mod i).pend.length < 4096 →
    (∀ p, recordCheck (setSess (accept s.mod h i) i { sess (accept s.mod h i) i with pend := p }) i x = .error e) →
    ∃ t, exec (.write h (r :: x :: rest)) s = .next t ∧
      (sess t.mod i).pend = tins (okey r.addr.idx r.addr.sub r.addr.elem) v (tdel (sess s.mod i).pend (okey r.addr.idx r.addr.sub r.addr.elem)) ∧
      t.mod.obj = s.mod.obj ∧ Answered t.mod i h.sequence e.status) ∧
  (∀ (s : State) (h : Hdr) (i : Nat) (first : Addr) (stride : Nat) (vals : List Octets),
    (Instr.writeElements h first stride vals).wf = true → (Instr.write h (elementRecs first stride vals)).wf = true → Accepted s.mod h i →
    (0 < stride → stride ≤ 4096 → 0 < vals.length → vals.length ≤ 64 →
      ∃ t u, exec (.writeElements h first stride vals) s = .next t ∧ exec (.write h (elementRecs first stride vals)) s = .next u ∧
        t.mod.obj = u.mod.obj ∧ (sess t.mod i).pend = (sess u.mod i).pend ∧ t.mod.tether = u.mod.tether ∧ t.mod.assocs = u.mod.assocs ∧
        t.mod.keks = u.mod.keks ∧ t.mod.lanes = u.mod.lanes ∧ t.otp = u.otp ∧ t.flash = u.flash) ∧
    (stride = 0 ∨ 4096 < stride →
      ∃ t, exec (.writeElements h first stride vals) s = .next t ∧ t.mod.obj = s.mod.obj ∧ (sess t.mod i).pend = (sess s.mod i).pend ∧
        Answered t.mod i h.sequence 0x2001))

/-- Every accepted COMMIT completes. Where its check finds nothing, every pending value is in force, every object without one holds what it
held before, but for the objects of a port's index that the set releases or absorbs (R49), and the pending set of a session that goes on is
empty and answered with 0x0000 or 0x0001; where the check refuses, no object changes, the pending set stays, and the answer carries the
refusal (R778, R780, R781). Every accepted COMMIT with DRY_RUN completes, and changes nothing but the session's answer, which is the one the
COMMIT would have (R780). -/
def Obligations.CommitAppliesOrChangesNothing : Prop :=
  (∀ (s : State) (h : Hdr) (i : Nat), (Instr.commit h).wf = true → Accepted s.mod h i →
    ∃ t, exec (.commit h) s = .next t ∧
      (commitCheck (accept s.mod h i) i (sess s.mod i).pend = none →
        (((sess s.mod i).pend.map (·.1)).Nodup → ∀ idx sub e, sub < 256 → e < 2 ^ 32 → idx ≠ 0x6020 → (idx, sub) ∉ commitWrites →
          look t.mod [] idx sub e = (tfind (sess s.mod i).pend (okey idx sub e)).getD (carried s.mod (sess s.mod i).pend idx sub e)) ∧
        ((sess t.mod i).state = 2 → (sess t.mod i).pend = [] ∧ (sess t.mod i).hi = h.sequence ∧
          (Answered t.mod i h.sequence 0 ∨ Answered t.mod i h.sequence 1))) ∧
      (∀ r, commitCheck (accept s.mod h i) i (sess s.mod i).pend = some r →
        t.mod.obj = s.mod.obj ∧ (sess t.mod i).pend = (sess s.mod i).pend ∧ t.mod.tether = s.mod.tether ∧
        t.mod.assocs = s.mod.assocs ∧ t.mod.ports = s.mod.ports ∧ t.mod.queues = s.mod.queues ∧ t.mod.gates = s.mod.gates ∧ Answered t.mod i h.sequence r.status)) ∧
  (∀ (s : State) (h : Hdr) (i : Nat), (Instr.commitDryRun h).wf = true → Accepted s.mod h i →
    ∃ t, exec (.commitDryRun h) s = .next t ∧ t.mod.obj = s.mod.obj ∧ (sess t.mod i).pend = (sess s.mod i).pend ∧ (sess t.mod i).hi = h.sequence ∧
      t.mod.tether = s.mod.tether ∧ t.mod.assocs = s.mod.assocs ∧ t.mod.ports = s.mod.ports ∧ t.mod.queues = s.mod.queues ∧ t.mod.gates = s.mod.gates ∧
      Answered t.mod i h.sequence (((commitCheck (accept s.mod h i) i (sess s.mod i).pend).map (·.status)).getD 0))

/-! ### Relay and management paths -/

/-- A message that names a relay port is put unchanged on the Gelix management channel of that line port, recorded with its return path and
counted; with relay disabled or a port not in line mode it is answered with 0x4002; its return goes to the recorded path, on a clear port
behind its waiting replies, and the entry lapses 900 s after its last use (R733 to R737). -/
def Obligations.RelayForwardsAndReturns : Prop :=
  (∀ (s : State) (h : Hdr) (msg : Octets), (Instr.relayMessage h msg).wf = true → serving s.mod = true → reachable s.mod h.path = true →
    (∀ p, h.path ≠ .mch p) → h.relay ≠ 0xFF →
    (infB s.mod 0x2000 4 0 = true → relayPort s.mod h.relay = true → s.mod.mgmt.relay.length < 64 →
      ∃ t e, exec (.relayMessage h msg) s = .next t ∧ (txOf t.mod h.relay).mchQueue = (txOf s.mod h.relay).mchQueue ++ [msg] ∧
        t.mod.mgmt.relay.getLast? = some e ∧ e.port = h.relay ∧ e.session = h.session ∧ e.path = h.path ∧ e.src = h.src ∧
        e.usedAt = s.mod.sys.elapsed ∧ ∀ j, sess t.mod j = sess s.mod j) ∧
    (infB s.mod 0x2000 4 0 = false ∨ relayPort s.mod h.relay = false →
      ∃ t, exec (.relayMessage h msg) s = .next t ∧ Sent s.mod t.mod (plain h (natAt msg 1 1) h.session 0x4002 []) ∧ t.mod.mgmt.relay = s.mod.mgmt.relay)) ∧
  (∀ (s : State) (p : Fin 64) (sid : Nat) (msg : Octets) (e : Relay), (Instr.relayReturn p sid msg).wf = true → serving s.mod = true →
    s.mod.mgmt.relay.find? (fun x => x.port == p.val && x.session == sid) = some e →
    ∃ t, exec (.relayReturn p sid msg) s = .next t ∧
      (∀ k, e.path = .mgmt k → t.mod.out = s.mod.out ++ [.relayed e.path e.src msg]) ∧
      (∀ c, e.path = .clear c → t.mod.out = s.mod.out ∧ ∃ x : Msg, x.raw = some msg ∧ x.path = e.path ∧ x.dst = e.src ∧
        (tget ({} : Intercept) t.mod.mgmt.icept c.val).replies = (tget ({} : Intercept) s.mod.mgmt.icept c.val).replies ++ [(s.mod.sys.elapsed, x)])) ∧
  (∀ (s : State) (p : Fin 64) (sid : Nat) (e : Relay), (Instr.relayEntryLapse p sid).wf = true →
    s.mod.mgmt.relay.find? (fun x => x.port == p.val && x.session == sid) = some e →
    ∃ t, exec (.relayEntryLapse p sid) s = .next t ∧ t.mod.mgmt.relay.find? (fun x => x.port == p.val && x.session == sid) = none ∧
      e.usedAt + 900 * secCycles ≤ t.mod.sys.elapsed)

/-- The paths of management: a message that a port in SYNC has reassembled and its pilot takes is counted where it is neither Camanent nor a
report, a report waits for its evaluation (R732); a frame that M0 or M1 reacts to is answered, a Camanent datagram counted in 0x2020:0B and
any other frame in 0x2020:0C (R722, R795); a link change shows in 0x2020:0A (R795). When the session pilot is stopped and the other runs,
the other is session pilot 100 ms after the stop, with every session as it was (R739); a waiting reply of a clear port goes out when its
port is idle, and is discarded and counted in 0x2030:05 when it has waited 1 s (R729, R730); a message that waits at a line port leaves in
its cells alone (R143). -/
def Obligations.PathsTakeAnswerAndPassOver : Prop :=
  ((∀ (s : State) (p : Fin 64) (b : Byte) (msg : Octets) (keyed : Bool), (Instr.mchMessageReceive p (b :: msg) keyed).wf = true → s.mod.sys.running = true →
    pilotUp s.mod (harbourOf p.val) = true → framing s.mod p.val = true → (rxOf s.mod p.val).st = 2 → msg.length < 9216 →
    (b = 0xFF → msg.length = 27 → ∃ t, exec (.mchMessageReceive p (b :: msg) keyed) s = .next t ∧
      (tget ({} : Tt) t.mod.time.tts p.val).got = (tget ({} : Tt) s.mod.time.tts p.val).got ++ [(b :: msg, keyed)]) ∧
    (b ≠ 0x01 → b ≠ 0xFF → ∃ t, exec (.mchMessageReceive p (b :: msg) keyed) s = .next t ∧
      inf t.mod 0x2000 0x0B 0 = satAdd 64 (inf s.mod 0x2000 0x0B 0) 1)) ∧
  (∀ (s : State) (k : Fin 2) (src : Nat) (kind : MgmtKind), (Instr.mgmtPortFrame k src kind).wf = true → s.mod.sys.running = true →
    pilotUp s.mod k.val = true → tget false s.mod.mgmt.linkUp k.val = true → infB s.mod 0x2020 1 k.val = true →
    (mgmtTakes s.mod k.val kind = false →
      ∃ t, exec (.mgmtPortFrame k src kind) s = .next t ∧ inf t.mod 0x2020 0x0C k.val = satAdd 64 (inf s.mod 0x2020 0x0C k.val) 1 ∧ t.mod.out = s.mod.out) ∧
    (mgmtTakes s.mod k.val kind = true → (∃ q msg, kind = .camanent q msg) →
      ∃ t, exec (.mgmtPortFrame k src kind) s = .next t ∧ inf t.mod 0x2020 0x0B k.val = satAdd 64 (inf s.mod 0x2020 0x0B k.val) 1) ∧
    (mgmtTakes s.mod k.val kind = true → kind = .arp ∨ kind = .neighbourDiscovery ∨ kind = .echo4 ∨ kind = .echo6 →
      ∃ t, exec (.mgmtPortFrame k src kind) s = .next t ∧ t.mod.out = s.mod.out ++ [.mgmtAnswer k.val kind])) ∧
  (∀ (s : State) (k : Fin 2) (up : Bool),
    ∃ t, exec (.managementPortLinkChange k up) s = .next t ∧ tget false t.mod.mgmt.linkUp k.val = up ∧
      ∀ j, j ≠ k.val → tget false t.mod.mgmt.linkUp j = tget false s.mod.mgmt.linkUp j)) ∧
  ((∀ s : State, s.mod.sys.running = true → s.mod.mgmt.pilot ≤ 1 → pilotUp s.mod s.mod.mgmt.pilot = false → pilotUp s.mod (1 - s.mod.mgmt.pilot) = true →
    ∃ t, exec .sessionPilotTakeover s = .next t ∧ t.mod.mgmt.pilot = 1 - s.mod.mgmt.pilot ∧ (∀ j, sess t.mod j = sess s.mod j) ∧
      s.mod.sys.pilotDownAt + 100 * msCycles ≤ t.mod.sys.elapsed) ∧
  (∀ (s : State) (p : Fin 64) (at_ : Nat) (r : Msg) (rest : List (Nat × Msg)),
    (tget ({} : Intercept) s.mod.mgmt.icept p.val).replies = (at_, r) :: rest →
    (isLine p.val = false → s.mod.sys.running = true → (port s.mod p.val).up = true → pickNext s.mod p.val = none → (arb s.mod p.val).pace ≤ s.mod.sys.elapsed * 800000 →
      s.mod.sys.elapsed ≤ at_ + secCycles → (∀ d, d < 8 → (banksOf (gate s.mod p.val)).any (·.fits d) = false) →
      ∃ t, exec (.interceptReplySend p) s = .next t ∧ t.mod.out = s.mod.out ++ [match r.raw with | some b => .relayed r.path r.dst b | none => .message { r with head := replyHead s.otp.serial s.mod p.val r.dst }] ∧
        (tget ({} : Intercept) t.mod.mgmt.icept p.val).replies = rest) ∧
    (isLine p.val = false → ∃ t, exec (.interceptReplyDiscard p) s = .next t ∧ t.mod.out = (advanceTo s.mod (at_ + secCycles)).out ∧ (tget ({} : Intercept) t.mod.mgmt.icept p.val).replies = rest ∧
      at_ + secCycles ≤ t.mod.sys.elapsed ∧ inf t.mod 0x2030 5 p.val = satAdd 64 (inf s.mod 0x2030 5 p.val) 1) ∧
    (isLine p.val = true → ∃ t u, exec (.interceptReplySend p) s = .next t ∧ t.mod.out = s.mod.out ∧ t.mod.mgmt = s.mod.mgmt ∧
      exec (.interceptReplyDiscard p) s = .next u ∧ u.mod.out = s.mod.out ∧ u.mod.mgmt = s.mod.mgmt)))

/-! ### Expert access -/

/-- An Officer grants a proved Maintainer session expert access for a number of minutes, or revokes the grant with 0; the grant ends by
itself when its time has passed, and with it the session's opening of the debug access ports (R799, R802, R804). An unlocked Maintainer
opens the debug access ports when its grant allows them and closes its own opening; the register window takes a write of a SCRATCH register
and answers an address of no block as a bus error, which is counted and keeps its harbour and address; the locator keeps the query (R804,
R807, R811, R813, R815). The indirect pair: a read that reaches its register, and a write of a SerDes tap within its range, move the
session's indirect address on by 4; a write in the tether range is refused with 0x1003 and moves nothing (R818, R819, R820, R822). -/
def Obligations.ExpertAccessIsGrantedUsedAndEnded : Prop :=
  ((∀ (s : State) (h : Hdr) (i e minutes : Nat), (Instr.expertGrantWrite h e minutes).wf = true → WriteClears s.mod h i 0x2040 1 (some e) (b2 minutes) →
    (minutes = 0 → ∃ t, exec (.expertGrantWrite h e minutes) s = .next t ∧ tget none t.mod.mgmt.grants e = none) ∧
    (minutes ≠ 0 → (sess s.mod e).state = 2 → (sess s.mod e).role = 4 →
      ∃ t n, exec (.expertGrantWrite h e minutes) s = .next t ∧
        tget none t.mod.mgmt.grants e = some (s.mod.sys.elapsed + minutes * 60 * secCycles, n, (sess s.mod i).cred) ∧
        inf t.mod 0x2040 1 e = minutes ∧ unlocked t.mod e = true)) ∧
  (∀ (s : State) (e : Fin 32) (g : Nat × Nat × Nat), s.mod.sys.running = true → tget none s.mod.mgmt.grants e.val = some g →
    ∃ t, exec (.expertGrantExpire e) s = .next t ∧ tget none t.mod.mgmt.grants e.val = none ∧ unlocked t.mod e.val = false ∧
      t.mod.mgmt.debugBy.contains e.val = false ∧ inf t.mod 0x2040 1 e.val = 0 ∧ inf t.mod 0x2040 2 e.val = 0 ∧ g.1 ≤ t.mod.sys.elapsed)) ∧
  ((∀ (s : State) (h : Hdr) (i : Nat), (Instr.debugPortOpen h true).wf = true → WriteClears s.mod h i 0xE000 2 none (b1 1) → infB s.mod 0x2040 2 i = true →
    ∃ t, exec (.debugPortOpen h true) s = .next t ∧ t.mod.mgmt.debugBy.contains i = true) ∧
  (∀ (s : State) (h : Hdr) (i : Nat), (Instr.debugPortOpen h false).wf = true → WriteClears s.mod h i 0xE000 2 none (b1 0) →
    ∃ t, exec (.debugPortOpen h false) s = .next t ∧ t.mod.mgmt.debugBy.contains i = false) ∧
  (∀ (s : State) (h : Hdr) (i : Nat) (k : Fin 2) (w v : Nat), (Instr.windowWrite h k w v).wf = true →
    WriteClears s.mod h i 0xE100 (k.val + 1) (some w) (b4 v) → pilotUp s.mod k.val = true →
    ((blockAt s.mod k.val (w * 4)).isSome = true → w * 4 % 0x100000 = 0xF0004 →
      ∃ t, exec (.windowWrite h k w v) s = .next t ∧ tget 0 t.mod.mgmt.scratch (k.val * 2 ^ 32 + w * 4) = v ∧ Answered t.mod i h.sequence 0) ∧
    (blockAt s.mod k.val (w * 4) = none →
      ∃ t, exec (.windowWrite h k w v) s = .next t ∧ t.mod.mgmt.scratch = s.mod.mgmt.scratch ∧ inf t.mod 0xE000 5 0 = w * 4 ∧
        inf t.mod 0xE000 6 0 = k.val ∧ Answered t.mod i h.sequence 0x5001)) ∧
  (∀ (s : State) (h : Hdr) (i : Nat) (record : Octets) (a : Addr) (ov : Obj × Val), (Instr.locatorQuery h record).wf = true →
    WriteClears s.mod h i 0xE010 1 none record → addrOf record = some a → readObject (s.upd (accept s.mod h i)) i a = .ok ov →
    ∃ t, exec (.locatorQuery h record) s = .next t ∧ (sess t.mod i).locQuery = record ∧ (sess t.mod i).locResult.length = 8 ∧
      Answered t.mod i h.sequence 0)) ∧
  ((∀ (s : State) (h : Hdr) (i v : Nat) (m : Mod), (Instr.indirectDataRead h).wf = true → ReadClears s h i { idx := 0xE200, sub := 2 } →
    indirectRead (accept s.mod h i) i = .ok v m →
    ∃ t, exec (.indirectDataRead h) s = .next t ∧ (sess t.mod i).indirect = ((sess s.mod i).indirect + 4) % 2 ^ 32 ∧ Answered t.mod i h.sequence 0) ∧
  (∀ (s : State) (h : Hdr) (i v e off : Nat), (Instr.indirectDataWrite h v).wf = true → WriteClears s.mod h i 0xE200 2 none (b4 v) →
    (0x1000 ≤ (sess s.mod i).indirect → serdesAt (sess s.mod i).indirect = some (e, off) → pilotUp s.mod (serdesHarbour e) = true →
      off < 0x14 → v ≤ serdesTop off →
      ∃ t, exec (.indirectDataWrite h v) s = .next t ∧ tget none t.mod.mgmt.taps (e * 256 + off) = some v ∧
        (sess t.mod i).indirect = ((sess s.mod i).indirect + 4) % 2 ^ 32 ∧ Answered t.mod i h.sequence 0) ∧
    ((sess s.mod i).indirect < 0x1000 →
      ∃ t, exec (.indirectDataWrite h v) s = .next t ∧ t.mod.mgmt.taps = s.mod.mgmt.taps ∧ (sess t.mod i).indirect = (sess s.mod i).indirect ∧
        Answered t.mod i h.sequence 0x1003)))

/-! ### Keys -/

/-- A wrapped key that opens under the berth's KEK, carries its association and the salt its suite needs and whose fingerprint is new is
loaded into an inactive slot: full, with the key, the salt and the key epoch of its plaintext, and not spent where its first packet number
may be sent (R238, R248 to R253, R262, R268). A key that was written before in the harbour since start-up is refused with 0x3005, one that
does not open with 0x6001, and any key to a retired module with 0x4002; the slots stay as they were (R250, R262, R890). -/
def Obligations.KeyWriteLoadsTheSlot : Prop :=
  (∀ (s : State) (h : Hdr) (i e : Nat) (w plain : Octets), (Instr.keyWrite h e w).wf = true → WriteClears s.mod h i 0x4010 1 (some e) w →
    s.mod.sys.retired = false → (entropyOf s.mod (aHarbour (e / 2))).failB = false → aType s.mod (e / 2) ≠ 0 → isGcm (aSuite s.mod (e / 2)) = true →
    (aType s.mod (e / 2) = 3 → s.mod.tether.vault.bootEpoch ≠ 2 ^ 32 - 1) → (berth s.mod (aBerth s.mod (e / 2))).resetting = false →
    isActive s.mod (e / 2) (e % 2) = false →
    (aType s.mod (e / 2) ≠ 3 → aType s.mod (e / 2) ≠ 4 → ((assoc s.mod (e / 2)).slot (1 - e % 2)).full = true →
      inf s.mod 0x4010 2 (e / 2 * 2) ≠ inf s.mod 0x4010 2 (e / 2 * 2 + 1)) →
    (kek s.mod (aBerth s.mod (e / 2))).kek ≠ [] → aesUnwrap (kek s.mod (aBerth s.mod (e / 2))).kek w = some plain → natAt plain 44 2 = e / 2 →
    (isXpn (aSuite s.mod (e / 2)) = false → sub plain 32 12 = zeros 12) →
    (aSuite s.mod (e / 2) = 1 ∨ aSuite s.mod (e / 2) = 3 → sub plain 16 16 = zeros 16) →
    (∃ p ∈ filterBits (plain.take 44), tget false (tget ({} : KeyFilter) s.mod.filters (aHarbour (e / 2))).bits p = false) →
    ∃ t, exec (.keyWrite h e w) s = .next t ∧ ((assoc t.mod (e / 2)).slot (e % 2)).full = true ∧ ((assoc t.mod (e / 2)).slot (e % 2)).key = plain.take 32 ∧
      ((assoc t.mod (e / 2)).slot (e % 2)).salt = sub plain 32 12 ∧ ((assoc t.mod (e / 2)).slot (e % 2)).kep = natAt plain 46 2 ∧
      (aType s.mod (e / 2) = 3 ∨ inf s.mod 0x4010 4 e ≤ lastPn (aType s.mod (e / 2)) (aSuite s.mod (e / 2)) →
        ((assoc t.mod (e / 2)).slot (e % 2)).spent = false) ∧
      (assoc t.mod (e / 2)).slot (1 - e % 2) = (assoc s.mod (e / 2)).slot (1 - e % 2) ∧
      (∀ p ∈ filterBits (plain.take 44), tget false (tget ({} : KeyFilter) t.mod.filters (aHarbour (e / 2))).bits p = true) ∧
      ∀ a, a ≠ e / 2 → assoc t.mod a = assoc s.mod a) ∧
  (∀ (s : State) (h : Hdr) (i e : Nat) (w : Octets), (Instr.keyWrite h e w).wf = true → WriteClears s.mod h i 0x4010 1 (some e) w →
    (s.mod.sys.retired = true →
      ∃ t, exec (.keyWrite h e w) s = .next t ∧ t.mod.assocs = s.mod.assocs ∧ Answered t.mod i h.sequence 0x4002) ∧
    (s.mod.sys.retired = false → (entropyOf s.mod (aHarbour (e / 2))).failB = false → aType s.mod (e / 2) = 1 → isGcm (aSuite s.mod (e / 2)) = true →
      (berth s.mod (aBerth s.mod (e / 2))).resetting = false → isActive s.mod (e / 2) (e % 2) = false →
      ((assoc s.mod (e / 2)).slot (1 - e % 2)).full = false → (kek s.mod (aBerth s.mod (e / 2))).kek ≠ [] →
      (aesUnwrap (kek s.mod (aBerth s.mod (e / 2))).kek w = none →
        ∃ t, exec (.keyWrite h e w) s = .next t ∧ t.mod.assocs = s.mod.assocs ∧ Answered t.mod i h.sequence 0x6001) ∧
      (∀ plain, aesUnwrap (kek s.mod (aBerth s.mod (e / 2))).kek w = some plain → natAt plain 44 2 = e / 2 → aSuite s.mod (e / 2) = 4 →
        (∀ p ∈ filterBits (plain.take 44), tget false (tget ({} : KeyFilter) s.mod.filters (aHarbour (e / 2))).bits p = true) →
        ∃ t, exec (.keyWrite h e w) s = .next t ∧ t.mod.assocs = s.mod.assocs ∧ Answered t.mod i h.sequence 0x3005)))

/-- KEK shares: the first is held with its credential; the second, from another credential, puts their exclusive or in force and erases
both; one from the same credential is refused with 0x1005; a held share not matched is erased 300 s after it was written; an erase leaves
neither KEK nor share (R254 to R259). A key slot erased is empty, in use or not, and the association's other slot keeps its key (R269,
R300). -/
def Obligations.KekSharesCombineAndExpire : Prop :=
  ((∀ (s : State) (h : Hdr) (i b : Nat) (isB : Bool) (share : Octets), (Instr.kekShareWrite h b isB share).wf = true →
    WriteClears s.mod h i 0x4100 (if isB then 2 else 1) (some b) share → s.mod.sys.retired = false →
    ((if isB then (kek s.mod b).shareA else (kek s.mod b).shareB) = none →
      ∃ t, exec (.kekShareWrite h b isB share) s = .next t ∧ (kek t.mod b).kek = (kek s.mod b).kek ∧
        (if isB then (kek t.mod b).shareB else (kek t.mod b).shareA) = some (share, (sess s.mod i).cred, s.mod.sys.elapsed) ∧
        Answered t.mod i h.sequence 0) ∧
    (∀ other c since, (if isB then (kek s.mod b).shareA else (kek s.mod b).shareB) = some (other, c, since) →
      (c ≠ (sess s.mod i).cred →
        ∃ t, exec (.kekShareWrite h b isB share) s = .next t ∧ (kek t.mod b).kek = xorBytes share other ∧ (kek t.mod b).shareA = none ∧
          (kek t.mod b).shareB = none ∧ Answered t.mod i h.sequence 0) ∧
      (c = (sess s.mod i).cred →
        ∃ t, exec (.kekShareWrite h b isB share) s = .next t ∧ t.mod.keks = s.mod.keks ∧ Answered t.mod i h.sequence 0x1005))) ∧
  (∀ (s : State) (b : Fin 256) (x : Octets) (c since : Nat), s.mod.sys.running = true → (kek s.mod b.val).shareA = some (x, c, since) →
    ∃ t, exec (.kekShareExpire b) s = .next t ∧ (kek t.mod b.val).shareA = none ∧ (kek t.mod b.val).kek = (kek s.mod b.val).kek ∧
      since + 300 * secCycles ≤ t.mod.sys.elapsed) ∧
  (∀ (s : State) (b : Fin 256) (x : Octets) (c since : Nat), s.mod.sys.running = true → (kek s.mod b.val).shareA = none →
    (kek s.mod b.val).shareB = some (x, c, since) →
    ∃ t, exec (.kekShareExpire b) s = .next t ∧ (kek t.mod b.val).shareB = none ∧ (kek t.mod b.val).kek = (kek s.mod b.val).kek ∧
      since + 300 * secCycles ≤ t.mod.sys.elapsed) ∧
  (∀ (s : State) (h : Hdr) (i b : Nat), (Instr.kekErase h b true).wf = true → WriteClears s.mod h i 0x4100 6 (some b) (b1 1) →
    ∃ t, exec (.kekErase h b true) s = .next t ∧ (kek t.mod b).kek = [] ∧ (kek t.mod b).shareA = none ∧ (kek t.mod b).shareB = none ∧
      ∀ c, c ≠ b → kek t.mod c = kek s.mod c)) ∧
  (∀ (s : State) (h : Hdr) (i e : Nat), (Instr.keySlotErase h e true).wf = true → WriteClears s.mod h i 0x4010 6 (some e) (b1 1) →
    ∃ t, exec (.keySlotErase h e true) s = .next t ∧ ((assoc t.mod (e / 2)).slot (e % 2)).full = false ∧
      (assoc t.mod (e / 2)).slot (1 - e % 2) = (assoc s.mod (e / 2)).slot (1 - e % 2) ∧ ∀ a, a ≠ e / 2 → assoc t.mod a = assoc s.mod a)

/-! ### Lanes and ports -/

/-- The detectors of a powered lane declare and clear LOS and LOL, a lost signal takes the lane's clock and equalisation with it, a loss
takes an enabled port back to CDR acquire, and once every lane of an enabled port before Align has adapted the port aligns; other lanes keep
their state (R60, R82, R85, R153, R1036). A lane of an enabled Gelix port reaches codeword lock and then lane lock as logical lane m mod k,
which it keeps while it is locked; a lane that loses codeword lock has lost lane lock with it, and losing lane lock, or on an aligned
Ethernet port of 2 or more lanes the markers of a lane, declares LOAL and takes the enabled port back to Align, or leaves it in the earlier
phase it is in, and a Gelix framer out of SYNC (R118, R120 to R123, R153, R168). -/
def Obligations.LanesDeclareLockAndLose : Prop :=
  (∀ (s : State) (l : Fin 64), s.mod.sys.running = true → lanePowered s.mod l.val = true →
    (∃ t, exec (.losDeclare l) s = .next t ∧ (lane t.mod l.val).los = true ∧
      ((lane s.mod l.val).los = false → (lane t.mod l.val).adapted = false ∧ (lane t.mod l.val).cdr = false) ∧
      (portEnabled s.mod (lanePort s.mod l.val) = true → 0 < (port s.mod (lanePort s.mod l.val)).phase → (port t.mod (lanePort s.mod l.val)).phase = 1) ∧
      ∀ j, j ≠ l.val → lane t.mod j = lane s.mod j) ∧
    (∃ t, exec (.losClear l) s = .next t ∧ (lane t.mod l.val).los = false ∧ ∀ j, j ≠ l.val → lane t.mod j = lane s.mod j) ∧
    (∃ t, exec (.lolDeclare l) s = .next t ∧ (lane t.mod l.val).lol = true ∧
      (portEnabled s.mod (lanePort s.mod l.val) = true → 0 < (port s.mod (lanePort s.mod l.val)).phase → (port t.mod (lanePort s.mod l.val)).phase = 1) ∧
      ∀ j, j ≠ l.val → lane t.mod j = lane s.mod j) ∧
    (∃ t, exec (.lolClear l) s = .next t ∧ (lane t.mod l.val).lol = false ∧ ∀ j, j ≠ l.val → lane t.mod j = lane s.mod j) ∧
    ((lane s.mod l.val).los = false → (lane s.mod l.val).lol = false →
      ∃ t, exec (.adaptComplete l) s = .next t ∧ (lane t.mod l.val).adapted = true ∧ (∀ j, j ≠ l.val → lane t.mod j = lane s.mod j) ∧
        ((∀ j ∈ portLanes s.mod (lanePort s.mod l.val), j ≠ l.val → (lane s.mod j).adapted = true) →
          portEnabled s.mod (lanePort s.mod l.val) = true → (port s.mod (lanePort s.mod l.val)).phase < 3 →
          (port t.mod (lanePort s.mod l.val)).phase = 3))) ∧
  (∀ (s : State) (l : Fin 64), s.mod.sys.running = true →
    (isGelix s.mod (lanePort s.mod l.val) = true → portEnabled s.mod (lanePort s.mod l.val) = true →
      ∃ t, exec (.codewordLock l) s = .next t ∧ (lane t.mod l.val).cwLock = true) ∧
    (∀ mfas, (Instr.laneLock l mfas).wf = true → (lane s.mod l.val).cwLock = true → isGelix s.mod (lanePort s.mod l.val) = true →
      ∃ t, exec (.laneLock l mfas) s = .next t ∧ (lane t.mod l.val).logical =
        some ((lane s.mod l.val).logical.getD (mfas % width s.mod (lanePort s.mod l.val)))) ∧
    ((lane s.mod l.val).cwLock = true →
      ∃ t, exec (.codewordLockLoss l) s = .next t ∧ (lane t.mod l.val).cwLock = false ∧ (lane t.mod l.val).logical = none ∧
        ((lane s.mod l.val).logical.isSome = true → (port t.mod (lanePort s.mod l.val)).loal = true)) ∧
    ((lane s.mod l.val).logical.isSome = true → isGelix s.mod (lanePort s.mod l.val) = true →
      ∃ t, exec (.laneLockLoss l) s = .next t ∧ (lane t.mod l.val).logical = none ∧ (lane t.mod l.val).cwLock = (lane s.mod l.val).cwLock ∧
        (port t.mod (lanePort s.mod l.val)).loal = true ∧ (rxOf t.mod (lanePort s.mod l.val)).st ≠ 2 ∧
        (portEnabled s.mod (lanePort s.mod l.val) = true → 3 ≤ (port s.mod (lanePort s.mod l.val)).phase →
          (port t.mod (lanePort s.mod l.val)).phase = 3) ∧
        (portEnabled s.mod (lanePort s.mod l.val) = true → (port s.mod (lanePort s.mod l.val)).aligned = false →
          (port s.mod (lanePort s.mod l.val)).phase < 3 → (port t.mod (lanePort s.mod l.val)).phase = (port s.mod (lanePort s.mod l.val)).phase)) ∧
    (isGelix s.mod (lanePort s.mod l.val) = false → portEnabled s.mod (lanePort s.mod l.val) = true → 2 ≤ width s.mod (lanePort s.mod l.val) →
      (port s.mod (lanePort s.mod l.val)).aligned = true → 3 ≤ (port s.mod (lanePort s.mod l.val)).phase →
      ∃ t, exec (.laneLockLoss l) s = .next t ∧ (port t.mod (lanePort s.mod l.val)).loal = true ∧ (port t.mod (lanePort s.mod l.val)).phase = 3))

/-- An enabled port in Align whose lanes are ready deskews a skew of at most 176.0 ns (440 units of 0.4 ns): a clear port then shows Up, or
Wait for fault clear while something keeps it down, a frame-mode line port Up, or Align while it receives a fault, and a Gelix port Align
until its framer is in SYNC (log 50); a larger skew, or one that leaves what an aligned port absorbs, declares LOAL and leaves it in Align;
an aligned port keeps its deskew value (R29, R60, R64 to R67). -/
def Obligations.AlignmentDeskewsOrDeclaresLoal : Prop :=
  ∀ (s : State) (p : Fin 64) (skew : Nat), s.mod.sys.running = true → portEnabled s.mod p.val = true →
    (lanesReady s.mod p.val = true → (port s.mod p.val).phase = 3 → (port s.mod p.val).aligned = false → (width s.mod p.val < 2 ∨ skew ≤ 440) →
      ∃ t, exec (.portAligned p skew) s = .next t ∧ (port t.mod p.val).loal = false ∧
        (port t.mod p.val).skew = (if width s.mod p.val = 1 then 0 else skew) ∧ (port t.mod p.val).deskew = (if width s.mod p.val = 1 then 0 else skew + 10) ∧
        (isLine p.val = true → (port t.mod p.val).phase = if isGelix s.mod p.val || (port s.mod p.val).fault != 0 then 3 else 4) ∧
        (isLine p.val = false → (port t.mod p.val).up = canBeUp t.mod p.val ∧ (port t.mod p.val).phase = if canBeUp t.mod p.val then 4 else 5)) ∧
    (lanesReady s.mod p.val = true → (port s.mod p.val).phase = 3 → (port s.mod p.val).aligned = false → 2 ≤ width s.mod p.val → 440 < skew →
      ∃ t, exec (.portAligned p skew) s = .next t ∧ (port t.mod p.val).loal = true ∧ (port t.mod p.val).phase = 3) ∧
    (2 ≤ width s.mod p.val → (port s.mod p.val).aligned = true → 3 ≤ (port s.mod p.val).phase →
      ∃ t, exec (.skewLimitExceeded p skew) s = .next t ∧ (port t.mod p.val).loal = true ∧ (port t.mod p.val).phase = 3) ∧
    ((port s.mod p.val).aligned = true →
      ∃ t, exec (.portAligned p skew) s = .next t ∧ (port t.mod p.val).skew = (port s.mod p.val).skew ∧ (port t.mod p.val).deskew = (port s.mod p.val).deskew)

/-- An enabled Ethernet port keeps the fault it receives and the loss of its PCS or FEC lock, and a clear port is up exactly while nothing
forbids it; a port that has not been up one second after its enable is tried anew from CDR acquire, and one that has been is left as it is;
fault forwarding takes its clear port down at the end of the hold-off of the trigger declared first (R60, R61, R70, R172, R175). LOF is
declared when a Gelix port has been out of frame for 3 ms by its integrator and clears 3 ms after SYNC was entered, with the integrator at
0; LOM is declared after 1 ms of SYNC out of multiframe and clears 1 ms after multiframe was entered (R153 to R155). -/
def Obligations.PortsFollowFaultsFramesAndTimeouts : Prop :=
  (∀ (s : State) (p : Fin 64), s.mod.sys.running = true → portEnabled s.mod p.val = true →
    (∀ kind, (Instr.faultSignalReceived p kind).wf = true → isGelix s.mod p.val = false →
      ∃ t, exec (.faultSignalReceived p kind) s = .next t ∧ (port t.mod p.val).fault = kind ∧
        (isLine p.val = true → (port s.mod p.val).aligned = true → (port t.mod p.val).phase = if kind = 0 then 4 else 3) ∧
        (isLine p.val = false → (port t.mod p.val).up = canBeUp t.mod p.val ∧ (kind ≠ 0 → (port t.mod p.val).up = false))) ∧
    (isGelix s.mod p.val = false →
      ∃ t, exec (.pcsFecLockLoss p) s = .next t ∧ (port t.mod p.val).pcsLost = true ∧ (port t.mod p.val).phase = min (port s.mod p.val).phase 3 ∧
        (isLine p.val = false → (port t.mod p.val).up = false)) ∧
    ((port s.mod p.val).wasUp = true → ∃ t, exec (.portUpTimeout p) s = .next t ∧ port t.mod p.val = port s.mod p.val) ∧
    ((port s.mod p.val).wasUp = false →
      ∃ t, exec (.portUpTimeout p) s = .next t ∧ (port t.mod p.val).timedOut = true ∧ (port t.mod p.val).phase = 1 ∧
        (∀ l ∈ portLanes s.mod p.val, (lane t.mod l).adapted = false ∧ (lane t.mod l).cdr = false) ∧
        (port s.mod p.val).enabledAt + secCycles ≤ t.mod.sys.elapsed ∧ (port t.mod p.val).enabledAt = t.mod.sys.elapsed) ∧
    (∀ src bs, src = inf s.mod 0x3310 1 p.val → bs = triggers s.mod src (inf s.mod 0x3310 2 p.val) → isLine p.val = false → (port s.mod p.val).fwd = false →
      src < 64 → bs ≠ [] →
      ∃ t, exec (.faultForwardStart p) s = .next t ∧ (port t.mod p.val).fwd = true ∧ (port t.mod p.val).up = false ∧
        ∃ b ∈ bs, (∀ c ∈ bs, tget 0 (port s.mod src).since b ≤ tget 0 (port s.mod src).since c) ∧
          tget 0 (port s.mod src).since b - 1 + inf s.mod 0x3310 3 p.val * msCycles ≤ t.mod.sys.elapsed)) ∧
  (∀ (s : State) (p : Fin 64), s.mod.sys.running = true → isGelix s.mod p.val = true →
    (portEnabled s.mod p.val = true → (rxOf s.mod p.val).st ≠ 2 →
      ∃ t, exec (.lofDeclare p) s = .next t ∧ (port t.mod p.val).lof = true ∧
        (rxOf s.mod p.val).oofAt + (3 * msCycles - (rxOf s.mod p.val).oofHeld) ≤ t.mod.sys.elapsed) ∧
    ((rxOf s.mod p.val).st = 2 →
      (∃ t, exec (.lofClear p) s = .next t ∧ (port t.mod p.val).lof = false ∧ (rxOf t.mod p.val).oofHeld = 0 ∧
        (rxOf s.mod p.val).syncAt + 3 * msCycles ≤ t.mod.sys.elapsed) ∧
      ((rxOf s.mod p.val).mfIn = false →
        ∃ t, exec (.lomDeclare p) s = .next t ∧ (port t.mod p.val).lom = true ∧
          (rxOf s.mod p.val).mfInAt + (msCycles - (rxOf s.mod p.val).lomHeld) ≤ t.mod.sys.elapsed) ∧
      ((rxOf s.mod p.val).mfIn = true →
        ∃ t, exec (.lomClear p) s = .next t ∧ (port t.mod p.val).lom = false ∧ (rxOf s.mod p.val).mfInAt + msCycles ≤ t.mod.sys.elapsed)))

/-- The end of a second of a line port: the counts of the second begin again, a second that the port was enabled and monitored for all of
shows its errored frames and REI sum, at most nine seconds wait for their commitment, and an available end turns unavailable with its tenth
severely errored second in a row and not before (R179 to R184). -/
def Obligations.SecondsAreGradedAndHeld : Prop :=
  ∀ (s : State) (p : Fin 64), s.mod.sys.running = true → isLine p.val = true →
    ∃ t, exec (.lineSecondEnd p) s = .next t ∧ (pmOf t.mod p.val).errored = 0 ∧ (pmOf t.mod p.val).rei = 0 ∧ (pmOf t.mod p.val).nokey = false ∧
      (pmOf t.mod p.val).recent.length ≤ 9 ∧
      ((pmOf s.mod p.val).partialSec = false → (pmOf s.mod p.val).pmOff = false → infB s.mod 0x3400 1 p.val = true →
        (pmOf s.mod p.val).partialTo ≤ (if (pmOf s.mod p.val).done = 0 then nowH s.mod (harbourOf p.val) / nsPerSec
          else min (pmOf s.mod p.val).done (nowH s.mod (harbourOf p.val) / nsPerSec)) →
        (pmOf t.mod p.val).lastErrored = (pmOf s.mod p.val).errored ∧ (pmOf t.mod p.val).lastRei = (pmOf s.mod p.val).rei ∧
        ((pmOf s.mod p.val).neUnavail = false → sesThreshold (width s.mod p.val) ≤ (pmOf s.mod p.val).errored →
          (pmOf t.mod p.val).neUnavail = decide ((pmOf s.mod p.val).neRun = 9)))

/-! ### Frames -/

/-- A frame on an up clear port: one that fails a check of R56 is counted there. One whose flow has frames held joins them, where there is
room, also when its element's action has become fixed or drop; else one whose direct-table element rejects it is counted in 0x5040:01, and
one that goes to its element's default result with an association that serves the queue's port joins the back of the queue when it passes
the checks of R469, and else is counted under the check that it fails, with every queue as it was (R56, R420, R428, R469 to R472). -/
def Obligations.ClearFramesAreClassified : Prop :=
  ∀ (s : State) (p : Fin 64) (f : Frame), (Instr.clearFrameReceive p f).wf = true → isLine p.val = false → receiving s.mod p.val = true →
    (∀ sub, portDrop s.mod p.val (f.bytes.length + 4) (tagsOf f.bytes).ethertype f.fcsOk = some sub →
      ∃ t, exec (.clearFrameReceive p f) s = .next t ∧ Counts s.mod t.mod 0x3100 sub p.val 1 ∧ t.mod.queues = s.mod.queues) ∧
    (portDrop s.mod p.val (f.bytes.length + 4) (tagsOf f.bytes).ethertype f.fcsOk = none → (tagsOf f.bytes).ethertype ≠ inf s.mod 0x2000 2 0 →
      (infB s.mod 0x7020 1 0 = false ∨ inf s.mod 0x7010 2 0 ≠ p.val ∨ forClock s.mod f.bytes = false) →
      (p2pOn s.mod p.val = false ∨ isPdelay f.bytes = false) →
      ∀ b e c, b = linkCorrect s.mod p.val f.bytes → e = directElem p.val (tagsOf b) → c = clsOf (dropExpired s.mod (basinOf p.val)) (basinOf p.val) →
      (∀ v6 dst, ipDest b (tagsOf b) = some (v6, dst) → c.held.any (·.flow == (e % 65536, v6, dst)) = true → inf s.mod 0x5000 1 e ≤ 1 →
        holdRoom c (b.length + 4) = true →
        ∃ t x, exec (.clearFrameReceive p f) s = .next t ∧ (clsOf t.mod (basinOf p.val)).held = c.held ++ [x] ∧ x.flow = (e % 65536, v6, dst) ∧ x.d.bytes = b ∧
          Counts s.mod t.mod 0x5040 9 p.val 1 ∧ t.mod.queues = s.mod.queues) ∧
      ((∀ v6 dst, ipDest b (tagsOf b) = some (v6, dst) → c.held.any (·.flow == (e % 65536, v6, dst)) = false) →
        (inf s.mod 0x5000 1 e = 0 →
          ∃ t, exec (.clearFrameReceive p f) s = .next t ∧ Counts s.mod t.mod 0x5040 1 p.val 1 ∧ t.mod.queues = s.mod.queues) ∧
        (∀ q a hits d, inf s.mod 0x5000 1 e = 1 → q = inf s.mod 0x5000 5 e → a = some16 (inf s.mod 0x5000 6 e) → aType s.mod a = 1 ∨ aType s.mod a = 5 →
          aPort s.mod a = qPort s.mod [] q → qPort s.mod [] q < 64 → clearTag s.mod a = false → hits = bump (dropExpired s.mod (basinOf p.val)) 0x5000 9 e 1 →
          d = mkDesc hits b q a p.val (stampFine s.mod p.val f.half) (stampCycle s.mod p.val) 0 →
          (admitCheck hits d false = none →
            ∃ t, exec (.clearFrameReceive p f) s = .next t ∧ (queue t.mod q).frames = (queue s.mod q).frames ++ [d] ∧
              (∀ r, r ≠ q → queue t.mod r = queue s.mod r) ∧ Counts s.mod t.mod 0x6010 1 q 1) ∧
          (∀ sub, admitCheck hits d false = some sub →
            ∃ t, exec (.clearFrameReceive p f) s = .next t ∧ t.mod.queues = s.mod.queues ∧ Counts s.mod t.mod 0x6010 sub q 1))))

/-- A frame with a SecTAG on a frame-mode line port, looked up by its SCI: a malformed tag is counted in 0x4030:03 and no usable
association, or a tag before the SecTAG that it does not expect, in 0x4030:04; a high-assurance frame that finds the masked engine busy is
counted in 0x4210:08; a frame that fails a check of R229 is counted under it; one whose ICV fails is counted in 0x4020:0C with the slots as
they were; one that verifies moves the replay window of its association and is counted with its length (R217, R229 to R234, R272, R372). -/
def Obligations.LineFramesAreVerified : Prop :=
  ∀ (s : State) (p : Fin 64) (f : LineFrame) (x : SecTag) (a : Nat), (Instr.frameModeReceive p f).wf = true → isLine p.val = true →
    isGelix s.mod p.val = false → receiving s.mod p.val = true → portDrop s.mod p.val f.length 0 f.fcsOk = none → f.tag = some x →
    (wellFormedTag x f.body.plain.length = false →
      ∃ t, exec (.frameModeReceive p f) s = .next t ∧ Counts s.mod t.mod 0x4030 3 p.val 1 ∧ t.mod.assocs = s.mod.assocs ∧ t.mod.queues = s.mod.queues) ∧
    (wellFormedTag x f.body.plain.length = true → inf s.mod 0x4030 1 p.val = 1 → x.sc = true → natAt x.sci 6 2 = a → a / 16384 = basinOf p.val →
      (usableRx s.mod p.val a [3, 4] = false →
        ∃ t, exec (.frameModeReceive p f) s = .next t ∧ Counts s.mod t.mod 0x4030 4 p.val 1 ∧ t.mod.assocs = s.mod.assocs ∧ t.mod.queues = s.mod.queues) ∧
      (usableRx s.mod p.val a [3, 4] = true → tagExpected s.mod a f.head = false →
        ∃ t, exec (.frameModeReceive p f) s = .next t ∧ Counts s.mod t.mod 0x4030 4 p.val 1 ∧ t.mod.assocs = s.mod.assocs ∧ t.mod.queues = s.mod.queues) ∧
      (usableRx s.mod p.val a [3, 4] = true → tagExpected s.mod a f.head = true →
        (∀ sub, rxChecks s.mod a x = .error sub →
          ∃ t, exec (.frameModeReceive p f) s = .next t ∧ Counts s.mod t.mod 0x4020 sub a 1 ∧ t.mod.assocs = s.mod.assocs ∧ t.mod.queues = s.mod.queues) ∧
        (∀ y, rxChecks s.mod a x = .ok y → isHa s.mod [] a = true → engineFree s.mod (basinOf p.val * 2 + 1) = false →
          ∃ t, exec (.frameModeReceive p f) s = .next t ∧ Counts s.mod t.mod 0x4210 8 (basinOf p.val) 1 ∧ t.mod.assocs = s.mod.assocs) ∧
        (∀ ph pn key iv, rxChecks s.mod a x = .ok (ph, pn) → isHa s.mod [] a = false → key = suiteKey (aSuite s.mod a) ((assoc s.mod a).slot ph).key →
          iv = gcmIv (aSuite s.mod a) x.sci (inf s.mod 0x4000 7 a) pn ((assoc s.mod a).slot ph).salt →
          (f.body.intact = false ∨ f.body.key ≠ key ∨ f.body.iv ≠ iv →
            ∃ t, exec (.frameModeReceive p f) s = .next t ∧ Counts s.mod t.mod 0x4020 0x0C a 1 ∧ t.mod.assocs = s.mod.assocs ∧ t.mod.queues = s.mod.queues) ∧
          (f.body.intact = true → f.body.key = key → f.body.iv = iv →
            f.body.aad = secAad (f.head.take 12) x (conf s.mod a) f.body.plain →
            ∃ t, exec (.frameModeReceive p f) s = .next t ∧ Counts s.mod t.mod 0x4020 8 a 1 ∧
              Counts s.mod t.mod 0x4020 9 a (f.head.length + f.body.plain.length + 4) ∧ (assoc t.mod a).rxCur = ph ∧
              assoc t.mod a = assoc (rxVerified s.mod a ph pn) a))))

/-- The framer hunts, presyncs and synchronises: a FAW at a candidate's expected place confirms it and the third confirmation enters SYNC, a
FAW elsewhere makes a candidate while fewer than four are held, a candidate that misses is dropped and counted, a FAW with at most 2 bit
errors keeps SYNC and one with more is errored, of which five in a row leave it (R124 to R128, R130). -/
def Obligations.FramerHuntsAndSynchronises : Prop :=
  ∀ (s : State) (p : Fin 64) (off mfas : Nat), s.mod.sys.running = true → framing s.mod p.val = true → mfas < 256 →
    ((rxOf s.mod p.val).st ≠ 2 →
      (∀ c, (rxOf s.mod p.val).cands.find? (fun c => c.1 + c.2 * 16384 == off) = some c →
        (c.2 = 2 → ∃ t, exec (.fawFound p off mfas) s = .next t ∧ (rxOf t.mod p.val).st = 2 ∧ (rxOf t.mod p.val).cands = [] ∧
          (rxOf t.mod p.val).mfIn = false ∧ (rxOf t.mod p.val).fawErr = 0) ∧
        (c.2 ≠ 2 → ∃ t, exec (.fawFound p off mfas) s = .next t ∧ (rxOf t.mod p.val).st = (rxOf s.mod p.val).st ∧
          (c.1, c.2 + 1) ∈ (rxOf t.mod p.val).cands)) ∧
      ((rxOf s.mod p.val).cands.find? (fun c => c.1 + c.2 * 16384 == off) = none →
        ((rxOf s.mod p.val).cands.length < 4 → ∃ t, exec (.fawFound p off mfas) s = .next t ∧ (rxOf t.mod p.val).st = 1 ∧
          (rxOf t.mod p.val).cands = (rxOf s.mod p.val).cands ++ [(off, 1)]) ∧
        (4 ≤ (rxOf s.mod p.val).cands.length → ∃ t, exec (.fawFound p off mfas) s = .next t ∧ (rxOf t.mod p.val).cands = (rxOf s.mod p.val).cands ∧
          Counts s.mod t.mod 0x3200 0x14 p.val 1))) ∧
    (∀ c, (rxOf s.mod p.val).cands.find? (fun c => c.1 + c.2 * 16384 == off) = some c →
      ∃ t, exec (.candidateDropped p off) s = .next t ∧ (rxOf t.mod p.val).cands = (rxOf s.mod p.val).cands.filter (· != c) ∧
        Counts s.mod t.mod 0x3200 0x13 p.val 1 ∧ ((rxOf s.mod p.val).cands.filter (· != c) = [] → (rxOf t.mod p.val).st = 0)) ∧
    (∀ errors, errors ≤ 48 → (rxOf s.mod p.val).st = 2 →
      (errors ≤ 2 → ∃ t, exec (.expectedFawCheck p errors mfas) s = .next t ∧ (rxOf t.mod p.val).st = 2 ∧ (rxOf t.mod p.val).fawErr = 0 ∧
        ((rxOf s.mod p.val).mfIn = false → (rxOf s.mod p.val).mfExpect = some mfas → (rxOf t.mod p.val).mfIn = true)) ∧
      (2 < errors → (rxOf s.mod p.val).fawErr ≠ 4 → ∃ t, exec (.expectedFawCheck p errors mfas) s = .next t ∧ (rxOf t.mod p.val).st = 2 ∧
        (rxOf t.mod p.val).fawErr = (rxOf s.mod p.val).fawErr + 1) ∧
      (2 < errors → (rxOf s.mod p.val).fawErr = 4 → ∃ t, exec (.expectedFawCheck p errors mfas) s = .next t ∧ (rxOf t.mod p.val).st = 0))

/-- A Gelix frame received in SYNC is counted; a NOKEY frame is counted as such, marks the second and changes no key; a keyed frame that
fails an outer check is counted under it, errored for REI and the second, and changes no key; one that passes sets the highest FCNT and the
receive-current slot of its association (R97, R132 to R137, R169). A started Gelix port that is up fixes at its next bank instant one frame
with its MFAS, which moves on by one: its 1,021 blocks wait for the bank, and it leaves when its lead is over. It is NOKEY where no TX
association is bound, or within a multiframe where the key in use is no longer the association's, and keyed, within a multiframe that is
keyed, under the next FCNT of a usable one (R89 to R92, R102, R236, R1038). A fixed Gelix frame whose first bit is due leaves as time
passes: it is put out with its trace byte, counted in 0x3200:07 with its records in 0x3200:08, and no longer held (R89, R109, R139, R1038;
an empty queue passes one cycle, log 1). -/
def Obligations.GelixFramesAreSentAndChecked : Prop :=
  (∀ (s : State) (p : Fin 64) (f : GelixFrame), (Instr.gelixFrameReceive p f).wf = true → s.mod.sys.running = true → framing s.mod p.val = true →
    (rxOf s.mod p.val).st = 2 →
    ∃ t, exec (.gelixFrameReceive p f) s = .next t ∧ Counts s.mod t.mod 0x3200 9 p.val 1 ∧ (rxOf t.mod p.val).parity = some f.payloadParity ∧
      (f.stat.testBit 2 = true → Counts s.mod t.mod 0x3200 0x0E p.val 1 ∧ (pmOf t.mod p.val).nokey = true ∧ t.mod.assocs = s.mod.assocs) ∧
      (f.stat.testBit 2 = false →
        (∀ c, outerCheck s.mod (boundAssoc s.mod 4 p.val) f = some c →
          Counts s.mod t.mod 0x3200 c p.val 1 ∧ t.mod.assocs = s.mod.assocs ∧ (txOf t.mod p.val).rei = min 255 ((txOf s.mod p.val).rei + 1) ∧
          (pmOf t.mod p.val).errored = (pmOf s.mod p.val).errored + 1) ∧
        (∀ a, boundAssoc s.mod 4 p.val = some a → aType s.mod a = 4 → outerCheck s.mod (some a) f = none →
          (assoc t.mod a).rxCur = b01 (f.stat.testBit 6) ∧ ((assoc t.mod a).slot (b01 (f.stat.testBit 6))).hi = some f.fcnt))) ∧
  (∀ (s : State) (p : Fin 64), s.mod.sys.running = true → isGelix s.mod p.val = true → (port s.mod p.val).up = true → (txOf s.mod p.val).started = true →
    ∃ t x, exec (.gelixFrameSend p) s = .next t ∧ x.frame.mfas = (txOf s.mod p.val).mfas ∧ x.leave = t.mod.sys.elapsed + gelixLead s.mod p.val ∧
      (0 < gelixLead s.mod p.val → x ∈ (txOf t.mod p.val).fixed) ∧
      (gelixLead s.mod p.val = 0 → ∃ ok trc, t.mod.out.getLast? = some (.gelix p.val { x.frame with trc, payload := { x.frame.payload with intact := ok } })) ∧
      (txOf t.mod p.val).mfas = ((txOf s.mod p.val).mfas + 1) % 256 ∧ (txOf t.mod p.val).rei = 0 ∧
      (txOf s.mod p.val).due / 800000 ≤ t.mod.sys.elapsed ∧
      (∃ j ∈ (bank t.mod (basinOf p.val * 2)).jobs, j.serial = x.serial ∧ j.count = 1021) ∧
      (boundAssoc s.mod 3 p.val = none → x.frame.stat.testBit 2 = true ∧ (txOf t.mod p.val).noKey = true) ∧
      (∀ a, boundAssoc s.mod 3 p.val = some a → (txOf s.mod p.val).mfas ≠ 0 →
        (keyInUse s.mod (txOf s.mod p.val) a = false → x.frame.stat.testBit 2 = true ∧ (txOf t.mod p.val).noKey = true) ∧
        (txUsable s.mod a = true → (txOf s.mod p.val).noKey = false → keyInUse s.mod (txOf s.mod p.val) a = true →
          x.frame.stat.testBit 2 = false ∧ x.frame.fcnt = ((assoc s.mod a).slot (assoc s.mod a).txPhase).next ∧ (txOf t.mod p.val).noKey = false))) ∧
  (∀ (s : State) (p : Fin 64) (x : Leaving), s.mod.sys.running = true → s.pending = [] → (txOf s.mod p.val).fixed = [x] →
    (∀ e ∈ s.mod.tx, e.1 ≠ p.val → e.2.fixed = []) → x.leave ≤ s.mod.sys.elapsed + 1 →
    ∃ t ok rest, step s = .next t ∧
      t.mod.out = s.mod.out ++ .gelix p.val { x.frame with trc := (traceSent s.mod p.val x.frame.mfas).getD (x.frame.mfas % 64) 0,
                                                           payload := { x.frame.payload with intact := ok } } :: rest ∧
      (txOf t.mod p.val).fixed = [] ∧ Counts s.mod t.mod 0x3200 7 p.val 1 ∧ Counts s.mod t.mod 0x3200 8 p.val x.records)

/-- FRAME_RELEASE takes the head of the queue that the arbiter picks and leaves the rest, after the wait it is given as far as no frame's
bound is exceeded by it (log 9); FRAME_EGRESS_COMPLETE ends the oldest frame on its way out, counts it as delivered and puts a clear port's
frame out with its FCS; HOLD_EXPIRE drops, at the end of its hold, the held frame whose hold ends first (R431, R468, R471, R487). At the
crypto bank the oldest released frame of the basin leaves the released frames: one of an earlier generation of its berth is discarded, one
of an association that has been given up or of a protected frame association without a key is counted in 0x4020:04 and one under a spent key
in 0x4020:05, and any other takes the next PN of its slot in force and goes on with a SecTAG of its low 32 bits (R214, R236, R240, R241,
R704). -/
def Obligations.FramesLeaveQueuesAndAreProtected : Prop :=
  ((∀ (s : State) (p : Fin 64) (waited : Nat) (k : Pick) (d : Desc) (rest : List Desc), s.mod.sys.running = true → (port s.mod p.val).up = true →
    (isLine p.val = false ∨ isGelix s.mod p.val = true) → (arb s.mod p.val).pace ≤ (s.mod.sys.elapsed + waitOf s.mod p.val waited) * 800000 →
    pickNext (refilled s.mod p.val (waitOf s.mod p.val waited)) p.val = some k → (queue s.mod k.queue).frames = d :: rest →
    ∃ t, exec (.frameRelease p waited) s = .next t ∧ (queue t.mod k.queue).frames = rest ∧ t.mod.sys.elapsed = s.mod.sys.elapsed + waitOf s.mod p.val waited ∧
      (d.gen ≠ (berth s.mod d.berth).gen → Counts s.mod t.mod 0x6020 6 d.queue 1 ∧ (arb t.mod p.val).egress = (arb s.mod p.val).egress ∧
        (arb t.mod p.val).released = (arb s.mod p.val).released) ∧
      (d.gen = (berth s.mod d.berth).gen → Counts s.mod t.mod 0x6010 (if k.tier = 2 then 5 else 4) k.queue 1 ∧
        (isLine p.val = true → (arb t.mod p.val).released.length = (arb s.mod p.val).released.length + 1) ∧
        (isLine p.val = false → (arb t.mod p.val).egress.length = (arb s.mod p.val).egress.length + 1))) ∧
  (∀ (s : State) (p : Fin 64) (err : Int) (d : Desc) (rest : List Desc), s.mod.sys.running = true → (arb s.mod p.val).egress = d :: rest →
    ∃ t, exec (.frameEgressComplete p err) s = .next t ∧ (arb t.mod p.val).egress = rest ∧ Counts s.mod t.mod 0x6010 3 d.queue 1 ∧
      d.startAt + carryCycles s.mod p.val d ≤ t.mod.sys.elapsed ∧
      (isLine p.val = false → d.line = none →
        t.mod.out = (advanceTo s.mod (d.startAt + carryCycles s.mod p.val d)).out ++ [.clearFrame p.val (d.bytes ++ fcsOf d.bytes)])) ∧
  (∀ (s : State) (b : Fin 4), s.mod.sys.running = true → (clsOf s.mod b.val).held ≠ [] →
    ∃ t x, exec (.holdExpire b) s = .next t ∧ x ∈ (clsOf s.mod b.val).held ∧ (∀ y ∈ (clsOf s.mod b.val).held, holdEnd s.mod x ≤ holdEnd s.mod y) ∧
      (clsOf t.mod b.val).held = (clsOf s.mod b.val).held.erase x ∧ Counts s.mod t.mod 0x5040 0x0B x.d.ingress 1 ∧ holdEnd s.mod x ≤ t.mod.sys.elapsed)) ∧
  (∀ (s : State) (b : Fin 4) (p : Nat) (d : Desc) (rest : List Desc), s.mod.sys.running = true → nextReleased s.mod b.val = some (p, d, rest) →
    (d.gen ≠ (berth s.mod d.berth).gen →
      ∃ t, exec (.cryptoBankEntry b) s = .next t ∧ (arb t.mod p).released = rest ∧ Counts s.mod t.mod 0x6020 6 d.queue 1 ∧ t.mod.assocs = s.mod.assocs) ∧
    (d.gen = (berth s.mod d.berth).gen → isTx (aType s.mod d.assoc) = false →
      ∃ t, exec (.cryptoBankEntry b) s = .next t ∧ (arb t.mod p).released = rest ∧ Counts s.mod t.mod 0x4020 4 d.assoc 1 ∧ t.mod.assocs = s.mod.assocs) ∧
    (∀ y, d.gen = (berth s.mod d.berth).gen → isTx (aType s.mod d.assoc) = true → aType s.mod d.assoc ≠ 5 → isGcm (aSuite s.mod d.assoc) = true →
      y = (assoc s.mod d.assoc).slot (assoc s.mod d.assoc).txPhase →
      (y.full = false → ∃ t, exec (.cryptoBankEntry b) s = .next t ∧ (arb t.mod p).released = rest ∧ Counts s.mod t.mod 0x4020 4 d.assoc 1 ∧
        (arb t.mod p).egress = (arb s.mod p).egress) ∧
      (y.full = true → y.spent = true → ∃ t, exec (.cryptoBankEntry b) s = .next t ∧ (arb t.mod p).released = rest ∧
        Counts s.mod t.mod 0x4020 5 d.assoc 1 ∧ (arb t.mod p).egress = (arb s.mod p).egress) ∧
      (y.full = true → y.spent = false →
        ∃ t x g, exec (.cryptoBankEntry b) s = .next t ∧ (arb t.mod p).released = rest ∧ (arb t.mod p).egress = (arb s.mod p).egress ++ [x] ∧
          x.line = some g ∧ (∃ tag, g.tag = some tag ∧ tag.pn = y.next % 2 ^ 32) ∧ g.body.plain = d.bytes.drop (if clearTag s.mod d.assoc then 16 else 12) ∧
          g.body.key = suiteKey (aSuite s.mod d.assoc) y.key ∧ ((assoc t.mod d.assoc).slot (assoc s.mod d.assoc).txPhase).next = y.next + 1 ∧
          Counts s.mod t.mod 0x4020 1 d.assoc 1 ∧ Counts s.mod t.mod 0x4020 2 d.assoc d.len)))

/-! ### Crypto banks and entropy -/

/-- A fault that the check at the end of a unit finds takes the unit out of service with its fault counted up to 3; what it still carries of
frames is replayed on the spare and counted, or with no spare ready for it, or when the flagged block is itself a replay, the fault is
beyond repair and counts for source 12. A fault that no check shows leaves the unit in service and marks the frame of a block that came out
wrong (R337, R338, R342 to R344, R346 to R350, R367). A GHASH pair whose two products differ leaves service with its fault counted up to 3;
a step that it carried is repeated on a free pair and counted, and is beyond repair when the repeat differs too or no pair is left (log 53);
ballast products are only discarded (R333, R335, R340, R349, R350). A unit that has left service is empty after its own depth and enters
quarantine, or retires with its third fault; quarantine ends in service, as the spare where the group has none, or in retirement; a unit
whose known answer comes out wrong with no flag retires at once, one that is flagged leaves service, and a right answer changes nothing of
it; a key store error of one bit is counted and one of two bits is beyond repair (R339, R341, R344, R345, R354). -/
def Obligations.FaultyUnitsLeaveAndReturn : Prop :=
  (∀ (s : State) (b : Fin 4) (tx : Bool) (u : CipherUnit) (stage : Fin 16) (second : Bool) (flips kf nf k out : Nat) (e : Exit) (flag : Option (Nat × Bool)) (m : Mod),
    (Instr.pipelineFault b tx u stage second flips kf nf).wf = true → s.mod.sys.running = true → k = bankOf b.val tx → ((bank s.mod k).unit u).st = 0 →
    verdict s.mod k u (upsetOf stage second flips kf nf) = some (e, out, flag) → m = advanceTo s.mod e.at_ →
    (flag = none →
      ∃ t, exec (.pipelineFault b tx u stage second flips kf nf) s = .next t ∧ (bank t.mod k).unit u = (bank s.mod k).unit u ∧ source t.mod 12 = source s.mod 12 ∧
        (e.blk.serial ≠ 0 → out ≠ cleanBlock e.blk.key e.blk.counter e.blk.data → e.blk.serial ∈ (bank t.mod k).spoiled)) ∧
    (flag ≠ none →
      ∃ t, exec (.pipelineFault b tx u stage second flips kf nf) s = .next t ∧ ((bank t.mod k).unit u).st = 1 ∧
        ((bank t.mod k).unit u).faults = min 3 (((bank s.mod k).unit u).faults + 1) ∧ ((bank t.mod k).unit u).leftAt = m.sys.elapsed ∧
        (e.replay = true → (source t.mod 12).events = satAdd 32 (source s.mod 12).events 1) ∧
        (e.replay = false → (bank m k).carries u e m.sys.elapsed = false → source t.mod 12 = source s.mod 12) ∧
        (e.replay = false → (bank m k).carries u e m.sys.elapsed = true →
          (∀ i, (bank m k).spareOf u = some i → (bank m k).spareReady u i m.sys.elapsed = true → source t.mod 12 = source s.mod 12 ∧
            Counts s.mod t.mod 0x4200 9 k (match u with | .maskedLane _ => 1 | _ => ((bank m k).toReplay (unitNum u) m.sys.elapsed).length)) ∧
          ((∀ i, (bank m k).spareOf u = some i → (bank m k).spareReady u i m.sys.elapsed = false) →
            (source t.mod 12).events = satAdd 32 (source s.mod 12).events 1)))) ∧
  (∀ (s : State) (b : Fin 4) (tx : Bool) (n : Fin 18) (flips again k : Nat), (Instr.ghashMismatch b tx n flips again).wf = true → s.mod.sys.running = true →
    k = bankOf b.val tx → ((bank s.mod k).unit (.ghashPair n)).st = 0 →
    (flips % 2 ^ 128 = 0 → ∃ t, exec (.ghashMismatch b tx n flips again) s = .next t ∧ bank t.mod k = bank s.mod k) ∧
    (flips % 2 ^ 128 ≠ 0 →
      ∃ t, exec (.ghashMismatch b tx n flips again) s = .next t ∧ ((bank t.mod k).unit (.ghashPair n)).st = 1 ∧
        ((bank t.mod k).unit (.ghashPair n)).faults = min 3 (((bank s.mod k).unit (.ghashPair n)).faults + 1) ∧
        (pairStep s.mod k n.val = none → source t.mod 12 = source s.mod 12) ∧
        (pairStep s.mod k n.val ≠ none →
          ((∃ j ∈ (bank s.mod k).serving (.ghashPair n), j ≠ n.val) → Counts s.mod t.mod 0x4200 0x0A k 1 ∧
            (source t.mod 12).events = if again % 2 ^ 128 = 0 then (source s.mod 12).events else satAdd 32 (source s.mod 12).events 1) ∧
          ((∀ j ∈ (bank s.mod k).serving (.ghashPair n), j = n.val) → (source t.mod 12).events = satAdd 32 (source s.mod 12).events 1)))) ∧
  ((∀ (s : State) (b : Fin 4) (tx : Bool) (u : CipherUnit), s.mod.sys.running = true → ((bank s.mod (bankOf b.val tx)).unit u).st = 1 →
    ∃ t, exec (.pipelineDrained b tx u) s = .next t ∧
      ((bank s.mod (bankOf b.val tx)).unit u).leftAt + (match u with | .ghashPair _ => 1 | _ => 16) ≤ t.mod.sys.elapsed ∧
      (((bank s.mod (bankOf b.val tx)).unit u).faults < 3 → ((bank t.mod (bankOf b.val tx)).unit u).st = 2) ∧
      (3 ≤ ((bank s.mod (bankOf b.val tx)).unit u).faults →
        ((bank t.mod (bankOf b.val tx)).unit u).st = 3 ∧ ((bank t.mod (bankOf b.val tx)).unit u).cause = 3)) ∧
  (∀ (s : State) (b : Fin 4) (tx : Bool) (u : CipherUnit), s.mod.sys.running = true → ((bank s.mod (bankOf b.val tx)).unit u).st = 2 →
    (∃ t, exec (.quarantineTestEnd b tx u true) s = .next t ∧ ((bank t.mod (bankOf b.val tx)).unit u).st = 0 ∧
      ((bank s.mod (bankOf b.val tx)).spareOf u = none → (∀ n, u ≠ .ghashPair n) → (bank t.mod (bankOf b.val tx)).spareOf u = some (unitNum u))) ∧
    (∃ t, exec (.quarantineTestEnd b tx u false) s = .next t ∧ ((bank t.mod (bankOf b.val tx)).unit u).st = 3 ∧
      ((bank t.mod (bankOf b.val tx)).unit u).cause = 2)) ∧
  (∀ (s : State) (b : Fin 4) (tx : Bool) (u : CipherUnit) (stage : Fin 16) (second : Bool) (flips kf nf k out : Nat) (flag : Option (Nat × Bool)),
    (Instr.knownAnswerTest b tx u stage second flips kf nf).wf = true → s.mod.sys.running = true → k = bankOf b.val tx → ((bank s.mod k).unit u).st = 0 →
    answerOf (answerDue s.mod k u) k u (upsetOf stage second flips kf nf) = (out, flag) →
    ∃ t, exec (.knownAnswerTest b tx u stage second flips kf nf) s = .next t ∧
      (flag ≠ none → ((bank t.mod k).unit u).st = 1) ∧
      (flag = none → out = knownResult → (bank t.mod k).unit u = (bank s.mod k).unit u) ∧
      (flag = none → out ≠ knownResult → ((bank t.mod k).unit u).st = 3 ∧ ((bank t.mod k).unit u).cause = 4)) ∧
  (∀ (s : State) (b : Fin 4) (tx : Bool), s.mod.sys.running = true →
    (∃ t, exec (.keyStoreError b tx false) s = .next t ∧ Counts s.mod t.mod 0x4200 0x0C (bankOf b.val tx) 1) ∧
    (∃ t, exec (.keyStoreError b tx true) s = .next t ∧ (source t.mod 12).events = satAdd 32 (source s.mod 12).events 1)))

/-- A reseed, once its period is over, gives every pipeline of the bank that is not retired a fresh 32-byte ballast key, or a 16-byte
shuffle seed with the wiring drawn from it, while a source feeds it; after 65,536 blocks the mask generator takes a 32-byte seed while
source B has not failed (R357, R359, R360, R365, R366, R374). Samples that fail a health test are counted with its code, and the third
failure within a second declares the source failed, which for source A brings the reserve feed into force; samples that pass change nothing;
the ballast share of every bank of the harbour is what the last whole second gives, at most 10,000 (R362 to R365, R373, R1039). -/
def Obligations.ReseedsAndEntropyTests : Prop :=
  (∀ (s : State) (b : Fin 4) (tx : Bool) (k : Nat), s.mod.sys.running = true → k = bankOf b.val tx →
    (feedOk s.mod (k / 4) = true →
      (∃ t, exec (.ballastKeyReseed b tx) s = .next t ∧ (bank s.mod k).ballastAt + reseedPeriod s.mod k ≤ t.mod.sys.elapsed ∧
        (bank t.mod k).ballastAt = t.mod.sys.elapsed ∧
        ∀ i, i < 14 → (tget ({} : CUnit) (bank s.mod k).pipes i).st ≠ 3 → (tget [] (bank t.mod k).ballast i).length = 32) ∧
      (∃ t, exec (.shuffleReseed b tx) s = .next t ∧ (bank s.mod k).seededAt + reseedPeriod s.mod k ≤ t.mod.sys.elapsed ∧
        (bank t.mod k).seededAt = t.mod.sys.elapsed ∧
        ∀ i, i < 14 → (tget ({} : CUnit) (bank s.mod k).pipes i).st ≠ 3 →
          (tget [] (bank t.mod k).seeds i).length = 16 ∧
          tget 0 (bank t.mod k).wiring i = Config.expand (tget [] (bank t.mod k).seeds i) 1 i % 20922789888000)) ∧
    ((entropyOf s.mod (k / 4)).failB = false → 65536 ≤ (bank s.mod k).maskBlocks →
      ∃ t, exec (.maskReseed b tx) s = .next t ∧ (bank t.mod k).maskSeed.length = 32 ∧ (bank t.mod k).maskBlocks = 0) ∧
    ((bank s.mod k).maskBlocks < 65536 → ∃ t, exec (.maskReseed b tx) s = .next t ∧ bank t.mod k = bank s.mod k)) ∧
  ((∀ (s : State) (h : Fin 2) (isB proportion : Bool) (samples : List Bool), (Instr.entropyTestFailure h isB proportion samples).wf = true → s.mod.sys.running = true →
    (healthFails isB proportion samples = false →
      ∃ t, exec (.entropyTestFailure h isB proportion samples) s = .next t ∧ t.mod.entropy = s.mod.entropy ∧ t.mod.drawn = s.mod.drawn ∧
        inf t.mod 0x4230 (if isB then 4 else 3) h.val = inf s.mod 0x4230 (if isB then 4 else 3) h.val) ∧
    (healthFails isB proportion samples = true → (if isB then (entropyOf s.mod h.val).failB else (entropyOf s.mod h.val).failA) = false →
      ∃ t, exec (.entropyTestFailure h isB proportion samples) s = .next t ∧ Counts s.mod t.mod 0x4230 (if isB then 4 else 3) h.val 1 ∧
        inf t.mod 0x4230 8 h.val = 1 + b01 isB * 2 + b01 proportion ∧
        (if isB then (entropyOf t.mod h.val).failB else (entropyOf t.mod h.val).failA) =
          decide (2 ≤ ((if isB then (entropyOf s.mod h.val).timesB else (entropyOf s.mod h.val).timesA).filter
            fun x => decide (s.mod.sys.elapsed < x + secCycles)).length) ∧
        (isB = false → (entropyOf t.mod h.val).failA = true → (entropyOf t.mod h.val).reserve = true))) ∧
  (∀ (s : State) (h : Fin 2) (i k : Nat), s.mod.sys.running = true → i < 4 → k = h.val * 4 + i →
    ∃ t, exec (.ballastShareUpdate h) s = .next t ∧ s.mod.sys.elapsed ≤ t.mod.sys.elapsed ∧ inf t.mod 0x4200 6 k ≤ 10000 ∧
      inf t.mod 0x4200 6 k = ((bank t.mod k).lastSlots - (bank t.mod k).lastBlocks) * 10000 / (bank t.mod k).lastSlots))

/-! ### Queues, gates, tables -/

/-- A drained queue is disabled in force; a deferred lowering is applied once the backlog fits the new limit, of a queue to the rates
committed for admission and of a berth node to its committed rate (R459, R492, R494, R497). -/
def Obligations.DrainsAndLoweringsComplete : Prop :=
  (∀ (s : State) (q : Fin 32768), s.mod.sys.running = true → (queue s.mod q.val).draining = true → (queue s.mod q.val).frames = [] →
    ∃ t, exec (.queueDrained q) s = .next t ∧ (queue t.mod q.val).draining = false ∧ (queue t.mod q.val).rate = 0 ∧ (queue t.mod q.val).pir = 0 ∧
      ∀ r, r ≠ q.val → queue t.mod r = queue s.mod r) ∧
  (∀ (s : State) (q : Fin 32768), s.mod.sys.running = true → (queue s.mod q.val).lowering = true → backlog s.mod q.val ≤ limitOf s.mod q.val 0 →
    ∃ t, exec (.rateLoweringApplied q) s = .next t ∧ (queue t.mod q.val).lowering = false ∧ (queue t.mod q.val).rate = admRate s.mod q.val ∧
      (queue t.mod q.val).frames = (queue s.mod q.val).frames ∧ ∀ r, r ≠ q.val → queue t.mod r = queue s.mod r) ∧
  (∀ (s : State) (b : Fin 256) (p : Fin 64), s.mod.sys.running = true → (node s.mod (b.val * 64 + p.val)).lowering = true →
    nodeFits s.mod (b.val * 64 + p.val) = true →
    ∃ t, exec (.berthNodeLoweringApplied b p) s = .next t ∧ (node t.mod (b.val * 64 + p.val)).lowering = false ∧
      (node t.mod (b.val * 64 + p.val)).rate = inf s.mod 0x6200 2 (b.val * 64 + p.val) ∧
      ∀ k, k ≠ b.val * 64 + p.val → node t.mod k = node s.mod k)

/-- At its candidate time a pending gate list comes into force unless a queue of the port would hold more than its limit, which defers the
swap to a later candidate and keeps the list in force; while a list is in force its next entry begins when the time left of the one in force
has passed on an unslewed counter; a request scheduled for a time switches a frame association to its other slot, and starts notice, or the
wait for KNR, of a line association (R293, R296, R301, R312, R513, R527, R531). -/
def Obligations.GatesAndSwitchesActAtTheirTime : Prop :=
  (∀ (s : State) (p : Fin 64) (b : GBank), s.mod.sys.running = true → (gate s.mod p.val).pend = some b →
    (overLimit (advanceToNet s.mod (harbourOf p.val) (gate s.mod p.val).swap) p.val = none →
      ∃ t, exec (.gateSwap p) s = .next t ∧ (gate t.mod p.val).force = b ∧ (gate t.mod p.val).pend = none ∧
        (gate t.mod p.val).swaps = satAdd 32 (gate s.mod p.val).swaps 1) ∧
    (overLimit (advanceToNet s.mod (harbourOf p.val) (gate s.mod p.val).swap) p.val ≠ none →
      ∃ t, exec (.gateSwap p) s = .next t ∧ (gate t.mod p.val).force = (gate s.mod p.val).force ∧ (gate t.mod p.val).pend = some b ∧
        (gate t.mod p.val).deferred = true ∧ (gate t.mod p.val).swap = candidate (gate s.mod p.val) b ((gate s.mod p.val).swap + 1))) ∧
  (∀ (s : State) (p : Fin 64) (r : Nat) (c : Ctr), s.mod.sys.running = true → entryRest s.mod p.val = some r →
    c = (if harbourOf p.val = 1 then s.mod.time.c1 else s.mod.time.c0) → c.slew = 0 → 0 < c.inc →
    ∃ t, exec (.gateEntryChange p) s = .next t ∧ tenths s.mod (harbourOf p.val) + r ≤ nowH t.mod (harbourOf p.val) * 10 ∧ gate t.mod p.val = gate s.mod p.val) ∧
  (∀ (s : State) (a : Fin 65536), s.mod.sys.running = true → (assoc s.mod a.val).sw = 1 →
    ∃ t, exec (.switchScheduledTime a) s = .next t ∧
      (aType s.mod a.val ≠ 3 → (assoc t.mod a.val).txPhase = 1 - (assoc s.mod a.val).txPhase ∧ (assoc t.mod a.val).sw = 0) ∧
      (aType s.mod a.val = 3 → (assoc t.mod a.val).txPhase = (assoc s.mod a.val).txPhase ∧
        (assoc t.mod a.val).sw = if txUsable s.mod a.val then 2 else 3))

/-- An acknowledged learn notification leaves the learn queue with those before it, and a sequence that is not pending is refused with
0x2001; a prefix that is accepted is found with its result in its table, one that is refused leaves the classifier as it was; a deleted
prefix is in the table no more, one not there is answered with 0x1002; a query is kept for its session; a test pattern is in force with its
count from 0, and powers up a lane that is not (R81, R414 to R416, R435, R441, R443). -/
def Obligations.LearnAndPrefixWritesTakeEffect : Prop :=
  (∀ (s : State) (h : Hdr) (i b seq : Nat), (Instr.learnAcknowledge h b seq).wf = true → WriteClears s.mod h i 0x5200 4 (some b) (b4 seq) →
    ((clsOf s.mod b).learn.any (·.seq == seq) = true →
      ∃ t, exec (.learnAcknowledge h b seq) s = .next t ∧ (clsOf t.mod b).learn = ((clsOf s.mod b).learn.dropWhile fun x => x.seq != seq).drop 1 ∧
        (clsOf t.mod b).full = false ∧ Answered t.mod i h.sequence 0) ∧
    ((clsOf s.mod b).learn.any (·.seq == seq) = false →
      ∃ t, exec (.learnAcknowledge h b seq) s = .next t ∧ clsOf t.mod b = clsOf s.mod b ∧ Answered t.mod i h.sequence 0x2001)) ∧
  (∀ (s : State) (h : Hdr) (i n : Nat) (rec : Octets), (Instr.lpmInsert h n rec).wf = true → WriteClears s.mod h i 0x5110 1 (some n) rec →
    ∃ t, exec (.lpmInsert h n rec) s = .next t ∧ Answered t.mod i h.sequence (insertPrefix (accept s.mod h i) n rec).2.1 ∧
      ((insertPrefix (accept s.mod h i) n rec).2.1 ≠ 0 → t.mod.cls = s.mod.cls) ∧
      ((insertPrefix (accept s.mod h i) n rec).2.1 = 0 → ∃ p q, prefixOf (n % 8) rec false = some p ∧ q ∈ (clsOf t.mod (n / 8)).prefixes ∧
        samePrefix p q = true ∧ q.drop = p.drop ∧ q.queue = p.queue ∧ q.assoc = p.assoc)) ∧
  (∀ (s : State) (h : Hdr) (i n : Nat) (rec : Octets) (p : Prefix), (Instr.lpmDelete h n rec).wf = true → WriteClears s.mod h i 0x5110 2 (some n) rec →
    prefixOf (n % 8) rec true = some p →
    ((clsOf s.mod (n / 8)).prefixes.any (samePrefix p) = true →
      ∃ t, exec (.lpmDelete h n rec) s = .next t ∧ (clsOf t.mod (n / 8)).prefixes = (clsOf s.mod (n / 8)).prefixes.filter (fun q => !samePrefix p q) ∧
        Answered t.mod i h.sequence 0) ∧
    ((clsOf s.mod (n / 8)).prefixes.any (samePrefix p) = false →
      ∃ t, exec (.lpmDelete h n rec) s = .next t ∧ t.mod.cls = s.mod.cls ∧ Answered t.mod i h.sequence 0x1002)) ∧
  (∀ (s : State) (h : Hdr) (i n : Nat) (query : Octets), (Instr.lpmQuery h n query).wf = true → WriteClears s.mod h i 0x5110 3 (some n) query →
    ∃ t, exec (.lpmQuery h n query) s = .next t ∧ tget (zeros 17) (sess t.mod i).query n = query ∧ Answered t.mod i h.sequence 0 ∧ t.mod.cls = s.mod.cls) ∧
  (∀ (s : State) (h : Hdr) (i l v : Nat), (Instr.testPatternWrite h l v).wf = true → WriteClears s.mod h i 0x3000 9 (some l) (b1 v) →
    ∃ t, exec (.testPatternWrite h l v) s = .next t ∧ inf t.mod 0x3000 9 l = v ∧ inf t.mod 0x3000 0x0A l = 0 ∧
      s.mod.sys.elapsed ≤ tget 0 t.mod.counted l ∧ Answered t.mod i h.sequence 0 ∧
      (lanePowered s.mod l = false → v ≠ 0 → lane t.mod l = { signal := true, ran := true }))

/-! ### Time -/

/-- A write of the increment, a slew, a step or a time within its range is accepted while the host steers the counter and waits for its edge
2,500 edges on behind the changes before it; while another source steers it is refused with 0x4002 and changes nothing (R553, R557 to R561).
At its edge the oldest accepted change takes effect in H0, and in H1 while the die-to-die link is up: an increment is in force, a slew
begins, a step discards the slew and is counted; a slew under way runs out (R558, R559, R561, R572, R574). -/
def Obligations.TimeChangesWaitForTheirEdge : Prop :=
  ((∀ (s : State) (h : Hdr) (i v : Nat), (Instr.timeIncrementWrite h v).wf = true → WriteClears s.mod h i 0x7000 2 none (b4 v) →
    1717815119 ≤ v → v ≤ 1718158717 →
    ∃ t, exec (.timeIncrementWrite h v) s = .next t ∧
      t.mod.time.changes = s.mod.time.changes ++ (if hostSteers s.mod then [(2 * s.mod.sys.elapsed + 2500, .increment v)] else []) ∧
      Answered t.mod i h.sequence (if hostSteers s.mod then 0 else 0x4002)) ∧
  (∀ (s : State) (h : Hdr) (i : Nat) (x : Int), (Instr.timeSlewWrite h x).wf = true → WriteClears s.mod h i 0x7000 3 none (bytesOfInt 4 x) →
    x.natAbs ≤ 1000000 →
    ∃ t, exec (.timeSlewWrite h x) s = .next t ∧
      t.mod.time.changes = s.mod.time.changes ++ (if hostSteers s.mod then [(2 * s.mod.sys.elapsed + 2500, .slew x)] else []) ∧
      Answered t.mod i h.sequence (if hostSteers s.mod then 0 else 0x4002)) ∧
  (∀ (s : State) (h : Hdr) (i : Nat) (x : Int), (Instr.timeStepWrite h x).wf = true → WriteClears s.mod h i 0x7000 4 none (bytesOfInt 8 x) →
    x ≠ 0 → x.natAbs < 2 ^ 62 → 0 ≤ (edgeValue s.mod : Int) + x * 4294967296 → (edgeValue s.mod : Int) + x * 4294967296 < maxTime →
    ∃ t, exec (.timeStepWrite h x) s = .next t ∧
      t.mod.time.changes = s.mod.time.changes ++ (if hostSteers s.mod then [(2 * s.mod.sys.elapsed + 2500, .step x)] else []) ∧
      Answered t.mod i h.sequence (if hostSteers s.mod then 0 else 0x4002)) ∧
  (∀ (s : State) (h : Hdr) (i : Nat) (x : Time80), (Instr.timeSetWrite h x).wf = true →
    WriteClears s.mod h i 0x7000 5 none (bytesOf 6 x.sec ++ bytesOf 4 x.ns) →
    ∃ t, exec (.timeSetWrite h x) s = .next t ∧
      t.mod.time.changes = s.mod.time.changes ++ (if hostSteers s.mod then [(2 * s.mod.sys.elapsed + 2500, .set (x.sec * nsPerSec + x.ns))] else []) ∧
      Answered t.mod i h.sequence (if hostSteers s.mod then 0 else 0x4002))) ∧
  ((∀ (s : State) (e : Nat) (c : TimeChange) (rest : List (Nat × TimeChange)), s.mod.sys.running = true → s.mod.time.changes = (e, c) :: rest →
    ∃ t, exec .timeChangeEdge s = .next t ∧ t.mod.time.changes = rest ∧ e ≤ 2 * t.mod.sys.elapsed ∧
      (∀ v, c = .increment v → t.mod.time.c0.inc = v ∧ (s.mod.time.linkUp = true → t.mod.time.c1.inc = v)) ∧
      (∀ x, c = .slew x → t.mod.time.c0.slew = x * 4294967296 ∧ (s.mod.time.linkUp = true → t.mod.time.c1.slew = x * 4294967296)) ∧
      (∀ x, c = .step x → t.mod.time.c0.slew = 0 ∧ t.mod.time.steps = satAdd 32 s.mod.time.steps 1) ∧
      (∀ v, c = .set v → t.mod.time.c0.val = v * 2 ^ 32 ∧ t.mod.time.c0.slew = 0 ∧ t.mod.time.steps = satAdd 32 s.mod.time.steps 1)) ∧
  (∀ s : State, s.mod.sys.running = true → s.mod.time.c0.slew ≠ 0 → 0 < s.mod.time.c0.inc →
    ∃ t, exec .slewComplete s = .next t ∧ t.mod.time.c0.slew = 0 ∧ s.mod.sys.elapsed ≤ t.mod.sys.elapsed))

/-- Under source 4 a write of the lease starts or renews it and brings the state to locked, and a write of 0, like its expiry, ends it in
holdover; a locked source that is lost leaves holdover, which ends as free-running after the time committed for it (R557, R563, R565, R571).
Each millisecond H1's counter is compared with H0's while the link is up: equal, H1 is in lockstep; else the fault is counted and 10 µs
later H1 takes H0's counter; the link going down ends lockstep and its return alone does not restore it (R573, R574). -/
def Obligations.LeasesHoldoverAndLockstep : Prop :=
  ((∀ (s : State) (h : Hdr) (i v : Nat), (Instr.hostLeaseWrite h v).wf = true → WriteClears s.mod h i 0x7010 5 none (b1 v) →
    (s.mod.time.src = 4 → v ≠ 0 → ∃ t, exec (.hostLeaseWrite h v) s = .next t ∧ t.mod.time.leaseEnd = some (s.mod.sys.elapsed + v * secCycles) ∧
      t.mod.time.state = 1 ∧ Answered t.mod i h.sequence 0) ∧
    (s.mod.time.src = 4 → v = 0 → ∃ t, exec (.hostLeaseWrite h v) s = .next t ∧ t.mod.time.leaseEnd = none ∧ Answered t.mod i h.sequence 0 ∧
      (s.mod.time.leaseEnd.isSome = true → s.mod.time.state = 1 → t.mod.time.state = 2)) ∧
    (s.mod.time.src ≠ 4 → ∃ t, exec (.hostLeaseWrite h v) s = .next t ∧ t.mod.time.leaseEnd = s.mod.time.leaseEnd ∧ Answered t.mod i h.sequence 0x4002)) ∧
  (∀ (s : State) (e : Nat), s.mod.sys.running = true → s.mod.time.leaseEnd = some e →
    ∃ t, exec .hostLeaseExpire s = .next t ∧ t.mod.time.leaseEnd = none ∧ e ≤ t.mod.sys.elapsed ∧ (s.mod.time.state = 1 → t.mod.time.state = 2)) ∧
  (∀ s : State, s.mod.sys.running = true → s.mod.time.state = 1 → s.mod.time.src = 1 ∨ s.mod.time.src = 2 ∨ s.mod.time.src = 3 →
    ∃ t, exec .timeSourceLost s = .next t ∧ t.mod.time.state = 2 ∧ t.mod.time.c0.slew = 0 ∧ t.mod.time.holdAt = t.mod.sys.elapsed ∧
      (s.mod.time.src = 1 → min s.mod.time.measAt s.mod.time.delayAt + 3 * secCycles ≤ t.mod.sys.elapsed) ∧
      (s.mod.time.src = 3 → s.mod.time.measAt + 1500 * msCycles ≤ t.mod.sys.elapsed)) ∧
  (∀ s : State, s.mod.sys.running = true → s.mod.time.state = 2 →
    ∃ t, exec .holdoverExpire s = .next t ∧ t.mod.time.state = 0 ∧ s.mod.time.holdAt + inf s.mod 0x7010 4 0 * secCycles ≤ t.mod.sys.elapsed)) ∧
  ((∀ s : State, s.mod.sys.running = true → s.mod.time.linkUp = true →
    ∃ t, exec .lockstepCheck s = .next t ∧ s.mod.sys.elapsed < t.mod.sys.elapsed ∧ t.mod.sys.elapsed % msCycles = 0 ∧
      (t.mod.time.c1.val = t.mod.time.c0.val → t.mod.time.lock1 = true ∧ t.mod.time.copyAt = none) ∧
      (t.mod.time.c1.val ≠ t.mod.time.c0.val → t.mod.time.lock1 = false ∧ t.mod.time.lockFaults = satAdd 32 s.mod.time.lockFaults 1 ∧
        t.mod.time.copyAt = some (t.mod.sys.elapsed + 10 * usCycles))) ∧
  (∀ (s : State) (e : Nat), s.mod.sys.running = true → s.mod.time.linkUp = true → s.mod.time.copyAt = some e →
    ∃ t, exec .lockstepCopy s = .next t ∧ t.mod.time.c1 = t.mod.time.c0 ∧ t.mod.time.lock1 = true ∧ t.mod.time.copyAt = none ∧ e ≤ t.mod.sys.elapsed) ∧
  (∀ s : State, s.mod.sys.running = true →
    (∃ t, exec .dieLinkDown s = .next t ∧ t.mod.time.linkUp = false ∧ t.mod.time.lock1 = false ∧ t.mod.time.c1 = s.mod.time.c1) ∧
    (∃ t, exec .dieLinkUp s = .next t ∧ t.mod.time.linkUp = true ∧ t.mod.time.lock1 = s.mod.time.lock1)))

/-- The ordinary clock in the running H0 pilot keeps what its messages bring, answers requests as timeTransmitter and on P2P ports, counts
what it does not act on, and sends its periodic message, with an Announce every 2 s (the model's choice, log 55), but none on a clear port
that is down; a time-transfer report goes out on the management channel with its sequence while the pilot of its port's harbour runs, and
one received is used or counted as not usable (R581, R582, R589 to R593). -/
def Obligations.TimeMessagesAreExchanged : Prop :=
  (∀ (s : State) (p : Fin 66) (d : Nat), d < 256 → s.mod.sys.running = true → s.mod.sys.pilot0 = true →
    (p2pOn s.mod p.val = true → ∃ t, exec (.ptpMessageReceive p d .pdelayReq) s = .next t ∧
      t.mod.out = s.mod.out ++ if (port s.mod p.val).up then [.ptp p.val (.pdelayResp 0)] else []) ∧
    (clockOn s.mod p.val = true →
      (∃ t, exec (.ptpMessageReceive p d .notActedOn) s = .next t ∧ Counts s.mod t.mod 0x7020 0x0C 0 1) ∧
      (d = inf s.mod 0x7020 5 0 →
        (∀ utc, ∃ t, exec (.ptpMessageReceive p d (.announce utc)) s = .next t ∧ t.mod.time.utc = utc) ∧
        (inf s.mod 0x7020 2 0 = 1 → inf s.mod 0x7020 4 0 = 0 → ∃ t, exec (.ptpMessageReceive p d .delayReq) s = .next t ∧
          t.mod.out = s.mod.out ++ if 64 ≤ p.val ∨ (port s.mod p.val).up then [.ptp p.val (.delayResp (stampFine s.mod p.val false) 0)] else []) ∧
        (inf s.mod 0x7020 2 0 = 0 → ∀ origin corr rx,
          (∃ t, exec (.ptpMessageReceive p d (.sync true origin corr rx)) s = .next t ∧ t.mod.time.ptpWait = some (rx, corr)) ∧
          (s.mod.time.ptpDelay = none → ∃ t, exec (.ptpMessageReceive p d (.sync false origin corr rx)) s = .next t ∧ t.mod.time.ptpRx = some rx ∧
            t.mod.time.ptpOrigin = (origin : Int) + corr))))) ∧
  (∀ s : State, s.mod.sys.running = true → s.mod.sys.pilot0 = true → infB s.mod 0x7020 1 0 = true → inf s.mod 0x7020 2 0 = 1 → inf s.mod 0x7020 4 0 = 1 →
    ∃ t, exec .ptpMessageSend s = .next t ∧ (t.mod.time.ptpAsked = some t.mod.sys.elapsed ∨ t.mod.time.ptpSent = some t.mod.sys.elapsed)) ∧
  (∀ (s : State) (m : Mod) (down : Bool), s.mod.sys.running = true → s.mod.sys.pilot0 = true → infB s.mod 0x7020 1 0 = true →
    (inf s.mod 0x7020 2 0 = 1 → inf s.mod 0x7020 4 0 ≠ 1) →
    m = (s.mod.time.ptpSent.elim s.mod fun a => advanceTo s.mod (a + logCycles (look s.mod [] 0x7020 (if inf s.mod 0x7020 2 0 = 1 then 7 else 8) 0).toInt)) →
    down = !clockSends s.mod (inf s.mod 0x7010 2 0) →
    ∃ t, exec .ptpMessageSend s = .next t ∧ t.mod.time.ptpSent = some t.mod.sys.elapsed ∧ t.mod.sys.elapsed = m.sys.elapsed ∧
      (down = true → t.mod.out = m.out) ∧
      (down = false → inf s.mod 0x7020 2 0 = 1 → infB s.mod 0x7020 6 0 = false →
        t.mod.out = m.out ++ (if announceDue m then [.ptp (inf s.mod 0x7010 2 0) (.announce s.mod.time.utc)] else []) ++
          [.ptp (inf s.mod 0x7010 2 0) (.sync false (sendFine t.mod (inf s.mod 0x7010 2 0)) 0 0)]) ∧
      (down = false → inf s.mod 0x7020 2 0 ≠ 1 → inf s.mod 0x7020 4 0 ≠ 1 →
        t.mod.out = m.out ++ [.ptp (inf s.mod 0x7010 2 0) .delayReq] ∧ t.mod.time.ptpReq = some (sendFine t.mod (inf s.mod 0x7010 2 0)))) ∧
  (∀ (s : State) (p : Fin 64) (x : Nat × Nat × Nat × Bool), s.mod.sys.running = true → isGelix s.mod p.val = true → infB s.mod 0x3200 5 p.val = true →
    pilotUp s.mod (harbourOf p.val) = true → (tget ({} : Tt) s.mod.time.tts p.val).stamp = some x →
    ∃ t msg, exec (.ttReportSend p) s = .next t ∧ (txOf t.mod p.val).mchQueue = (txOf s.mod p.val).mchQueue ++ [msg] ∧ msg.length = 28 ∧
      (tget ({} : Tt) t.mod.time.tts p.val).seq = ((tget ({} : Tt) s.mod.time.tts p.val).seq + 1) % 2 ^ 32 ∧ s.mod.sys.elapsed < t.mod.sys.elapsed) ∧
  (∀ (s : State) (p : Fin 64) (msg : Octets) (keyed : Bool) (rest : List (Octets × Bool)), s.mod.sys.running = true →
    (tget ({} : Tt) s.mod.time.tts p.val).got = (msg, keyed) :: rest →
    ∃ t, exec (.ttReportReceive p) s = .next t ∧ (tget ({} : Tt) t.mod.time.tts p.val).got = rest ∧
      ((tget ({} : Tt) s.mod.time.tts p.val).sends.find? (fun x => x.1 == natAt msg 4 2 && x.2.1 == natAt msg 6 6) = none ∨ keyed = false →
        Counts s.mod t.mod 0x7030 9 p.val 1 ∧ t.mod.time.c0 = s.mod.time.c0))

/-- A selected edge of a capture input is recorded behind the records that wait, or counted as lost when 64 wait; a capture read takes the
oldest; a PPS edge under source 3 within 1 ms of a whole second moves the expected second on by one, and any other is counted; a trigger's
pulse ends with its edge, and a one-shot or periodic pulse starts with it, counted; the runtime is saved to flash and nothing else there
changes (R597, R600 to R602, R606 to R608, R612). -/
def Obligations.EdgesAreCapturedAndDriven : Prop :=
  (∀ (s : State) (k : Fin 9) (rising : Bool), s.mod.sys.running = true →
    (if k.val = 8 then 1 else inf s.mod 0x7050 1 k.val).testBit (if rising then 0 else 1) = true →
    ((capture s.mod k.val).recs.length < 64 → (∀ x, (capture s.mod k.val).lastAt = some x → 250 ≤ (s.mod.sys.elapsed - x) * 4) →
      ∃ t r, exec (.captureEdge k rising) s = .next t ∧ (capture t.mod k.val).recs = (capture s.mod k.val).recs ++ [r] ∧
        (capture t.mod k.val).lastAt = some s.mod.sys.elapsed) ∧
    ((capture s.mod k.val).recs.length = 64 →
      ∃ t, exec (.captureEdge k rising) s = .next t ∧ (capture t.mod k.val).recs = (capture s.mod k.val).recs ∧ Counts s.mod t.mod 0x7050 4 k.val 1)) ∧
  (∀ (s : State) (h : Hdr) (i k : Nat) (r : Octets) (rest : List Octets), (Instr.captureRead h k).wf = true →
    ReadClears s h i { idx := 0x7050, sub := 3, isElem := true, elem := k } → (capture s.mod k).recs = r :: rest →
    ∃ t, exec (.captureRead h k) s = .next t ∧ (capture t.mod k).recs = rest ∧ Answered t.mod i h.sequence 0) ∧
  (∀ (s : State) (n : Nat) (off : Int), s.mod.sys.running = true → s.mod.time.src = 3 → s.mod.time.ppsSec = some n →
    off = (((s.mod.time.c0.val + nsPerSec * 2 ^ 31) % (nsPerSec * 2 ^ 32) : Nat) : Int) - nsPerSec * 2 ^ 31 →
    (off.natAbs ≤ 1000000 * 2 ^ 32 → ∃ t, exec .ppsInEdge s = .next t ∧ t.mod.time.ppsSec = some (n + 1)) ∧
    (1000000 * 2 ^ 32 < off.natAbs → ∃ t, exec .ppsInEdge s = .next t ∧ t.mod.time.ppsSec = some n ∧ Counts s.mod t.mod 0x7010 0x0A 0 1 ∧
      t.mod.time.c0 = s.mod.time.c0)) ∧
  (∀ (s : State) (k : Fin 9), s.mod.sys.running = true →
    ((trig s.mod k.val).active = true →
      ∃ t, exec (.triggerEdge k) s = .next t ∧ (trig t.mod k.val).active = false ∧
        t.mod.out = (advanceToNet s.mod (pinHarbour k.val) (trig s.mod k.val).stop).out ++ [.trigger k.val (pinLevel s.mod k.val false)]) ∧
    ((trig s.mod k.val).active = false →
      (inf s.mod 0x7040 1 k.val = 1 ∧ (trig s.mod k.val).fired = false ∧ (trig s.mod k.val).since ≤ trigStart s.mod k.val) ∨
        (inf s.mod 0x7040 1 k.val = 2 ∧ (k.val ≠ 8 ∨ infB s.mod 0x7040 8 8 = false ∨ synced s.mod 0 = true)) →
      ∃ t, exec (.triggerEdge k) s = .next t ∧ (trig t.mod k.val).active = true ∧ (trig t.mod k.val).fired = true ∧
        Counts s.mod t.mod 0x7040 6 k.val 1 ∧
        t.mod.out = (advanceToNet s.mod (pinHarbour k.val) (if inf s.mod 0x7040 1 k.val = 1 then trigStart s.mod k.val
          else nextPulse (trigStart s.mod k.val) (trigPeriod s.mod k.val) (trig s.mod k.val).since)).out ++ [.trigger k.val (pinLevel s.mod k.val true)])) ∧
  (∀ s : State, s.mod.sys.running = true → (s.mod.sys.pilot0 = true ∨ s.mod.sys.pilot1 = true) →
    ∃ t, exec .runtimeSave s = .next t ∧ t.flash = { s.flash with runtime := t.mod.tether.runtime } ∧ s.mod.sys.elapsed < t.mod.sys.elapsed)

/-! ### Snapshots, alarm pins, journal -/

/-- A scheduled snapshot is captured on each harbour of its scope at its time, under a new number with the first; once all parts have
drained every word is written and held, or the snapshot is idle with nothing held; an acknowledged word frees those before it, and one that
is not held is refused with 0x2001 (R830, R831, R836 to R838, R843). -/
def Obligations.SnapshotsAreCapturedDrainedAndFreed : Prop :=
  (∀ (s : State) (h : Fin 2), s.mod.sys.running = true → (s.mod.snap.st = 1 ∨ s.mod.snap.st = 2) →
    (snapHarbours s.mod.snap.scope s.mod.snap.value).contains h.val = true → s.mod.snap.captured.contains h.val = false →
    ∃ t, exec (.snapshotCapture h) s = .next t ∧ t.mod.snap.st = 2 ∧ t.mod.snap.captured = s.mod.snap.captured ++ [h.val] ∧
      t.mod.snap.seq = (if s.mod.snap.captured = [] then satAdd 32 s.mod.snap.seq 1 else s.mod.snap.seq) ∧ inf t.mod 0xB000 4 0 = 0 ∧
      (∀ c, c = (if h.val = 1 then s.mod.time.c1 else s.mod.time.c0) → c.slew = 0 → 0 < c.inc → s.mod.snap.time ≤ nowH t.mod h.val)) ∧
  (∀ s : State, s.mod.sys.running = true → s.mod.snap.st = 2 →
    (snapHarbours s.mod.snap.scope s.mod.snap.value).all s.mod.snap.captured.contains = true → twf [] s.mod.snap.words = true →
    (∀ e ∈ s.mod.snap.words, e.1 < 4 ∧ e.2.length ≤ 131072) →
    ∃ t, exec .snapshotComplete s = .next t ∧ (∀ e ∈ s.mod.snap.words, tget 0 t.mod.snap.written e.1 = e.2.length) ∧
      t.mod.snap.st = (if t.mod.snap.words.all fun e => heldWords t.mod.snap e.1 == 0 then 0 else 3)) ∧
  (∀ (s : State) (h : Hdr) (i b w : Nat), (Instr.snapshotAcknowledge h b w).wf = true → WriteClears s.mod h i 0xB020 4 (some b) (b4 w) →
    ∀ x, x = (drainAll (accept s.mod h i)).snap →
    (tget 0 x.oldest b ≤ w → w < tget 0 x.written b →
      ∃ t, exec (.snapshotAcknowledge h b w) s = .next t ∧ tget 0 t.mod.snap.oldest b = w + 1 ∧ tget 0 t.mod.snap.written b = tget 0 x.written b ∧
        Answered t.mod i h.sequence 0) ∧
    (w < tget 0 x.oldest b ∨ tget 0 x.written b ≤ w →
      ∃ t, exec (.snapshotAcknowledge h b w) s = .next t ∧ t.mod.snap.oldest = x.oldest ∧ Answered t.mod i h.sequence 0x2001))

/-- An event of a running pilot enters the journal as its next entry with the chain value over it, is queued for every subscription with a
matching filter that may see it, and asserts every pin whose filter it meets; while the pilots of a Ready module are stopped it is held
(R786, R844, R845, R847, R891, R892, R944). A latched alarm pin is released by a write of TRUE and one in pulse mode at the end of its
pulse; a write of TRUE leaves a pin that is not latched as it was (R847). -/
def Obligations.EventsReachJournalSubscribersAndPins : Prop :=
  (∀ (m : Mod) (code src bpid : Nat) (params : Octets), src < 4 →
    ((src = 0 → m.sys.pilot0 = true) → (src = 1 → m.sys.pilot1 = true) → (m.sys.pilot0 = true ∨ m.sys.pilot1 = true) →
      m.ev.journal.length < 4096 → journalRefusers m = [] → (∀ e ∈ m.ev.subs, e.2.queue.length < 256) →
      (raise m code src bpid params).ev.journal = { num := m.ev.newest + 1, ev := mkRec m code src bpid params } :: m.ev.journal ∧
      (raise m code src bpid params).ev.newest = m.ev.newest + 1 ∧ (raise m code src bpid params).ev.seq = (m.ev.seq + 1) % 2 ^ 32 ∧
      (raise m code src bpid params).ev.chain = sha256 (m.ev.chain ++ b8 (m.ev.newest + 1) ++ (mkRec m code src bpid params).bytes) ∧
      (raise m code src bpid params).ev.subs = (m.ev.subs.map fun e => (e.1, if e.2.filters.any (matchesFilter code) ∧ ¬(e.2.role = 3 ∧ bpid ≠ e.2.bpid)
        then { e.2 with queue := e.2.queue ++ [mkRec m code src bpid params] } else e.2)) ∧
      (∀ p, p < 4 → (pinFilters (look m [] 0xB100 1 p).toOct).any (matchesFilter code) = true →
        (tget ({} : Pin) (raise m code src bpid params).ev.pins p).asserted = true) ∧
      (∀ p, p < 4 → (pinFilters (look m [] 0xB100 1 p).toOct).any (matchesFilter code) = false →
        tget ({} : Pin) (raise m code src bpid params).ev.pins p = tget ({} : Pin) m.ev.pins p)) ∧
    (m.sys.pilot0 = false → m.sys.pilot1 = false → m.sys.running = true → m.sys.state = 1 →
      (raise m code src bpid params).ev.journal = m.ev.journal ∧
      (src = 1 → m.ev.held1.length < 1024 → (raise m code src bpid params).ev.held1 = m.ev.held1 ++ [mkRec m code src bpid params]) ∧
      (src ≠ 1 → m.ev.held0.length < 1024 → (raise m code src bpid params).ev.held0 = m.ev.held0 ++ [mkRec m code src bpid params]))) ∧
  ((∀ (s : State) (h : Hdr) (i pin : Nat), (Instr.alarmClear h pin true).wf = true → WriteClears s.mod h i 0xB100 4 (some pin) (b1 1) → PinQuiet s.mod pin →
    ∃ t, exec (.alarmClear h pin true) s = .next t ∧ Answered t.mod i h.sequence 0 ∧
      (inf s.mod 0xB100 2 pin = 0 → (tget ({} : Pin) t.mod.ev.pins pin).asserted = false) ∧
      (inf s.mod 0xB100 2 pin ≠ 0 → tget ({} : Pin) t.mod.ev.pins pin = tget ({} : Pin) s.mod.ev.pins pin)) ∧
  (∀ (s : State) (pin : Fin 4), (tget ({} : Pin) s.mod.ev.pins pin.val).asserted = true → inf s.mod 0xB100 2 pin.val = 1 → PinQuiet s.mod pin.val →
    ∃ t, exec (.alarmPulseEnd pin) s = .next t ∧ (tget ({} : Pin) t.mod.ev.pins pin.val).asserted = false ∧
      (tget ({} : Pin) s.mod.ev.pins pin.val).until_ ≤ t.mod.sys.elapsed))

/-- The journal writer issues a seal with no signature under way: after 1,024 entries, or once 60 s of runtime have passed since the last
one; it takes the next number, covers the newest entry and the chain, and both heads of the tether follow; H0's pilot signs a pending one
with the service identity; a changed configuration goes to flash and the copy it replaces is kept (R894 to R898, R972). -/
def Obligations.SealsAndConfigurationAreWritten : Prop :=
  (∀ s : State, s.mod.sys.running = true → signing s.mod = false → (s.mod.sys.pilot0 = true ∨ s.mod.sys.pilot1 = true) →
    ∃ t x rest, exec .journalSeal s = .next t ∧ t.mod.ev.seals = x :: rest ∧ x.num = s.mod.ev.sealsIssued + 1 ∧ t.mod.ev.sealsIssued = s.mod.ev.sealsIssued + 1 ∧
      x.unsigned = !(s.mod.tether.vault.svcState == 2) ∧ x.pending = (s.mod.tether.vault.svcState == 2) ∧
      t.mod.tether.headNum = x.entry ∧ t.mod.tether.headChain = x.chain ∧ t.mod.tether.vault.headNum = x.entry ∧ t.mod.tether.vault.headChain = x.chain ∧
      t.mod.ev.sealRuntime = t.mod.tether.runtime ∧
      (s.mod.ev.sinceSeal < 1024 → s.mod.sys.mains = true → s.mod.tether.onCell = false → s.mod.ev.sealRuntime + 60 < 2 ^ 32 →
        s.mod.ev.sealRuntime + 60 ≤ t.mod.tether.runtime)) ∧
  (∀ s : State, s.mod.sys.running = true → s.mod.sys.pilot0 = true → s.mod.tether.vault.svcState = 2 →
    ∃ t, exec .sealSigned s = .next t ∧ signing t.mod = false ∧ t.mod.ev.seals = s.mod.ev.seals.map fun x =>
      if x.pending then { x with pending := false, signature := Config.slhSign s.mod.tether.vault.svcSecret (sealMessage s.otp s.mod x) } else x) ∧
  (∀ s : State, s.mod.sys.running = true → s.mod.sys.unsaved = true → (s.mod.sys.pilot0 = true ∨ s.mod.sys.pilot1 = true) →
    ∃ t, exec .configSave s = .next t ∧ t.flash.stored = some (configCopy s.mod) ∧ t.flash.older = s.flash.stored ∧ t.mod.sys.unsaved = false ∧
      t.mod.obj = s.mod.obj)

/-! ### Tamper sources, cell, supply -/

/-- A quantity that enters alarm is marked, its source is in alarm with one event more, the tether sequence rises and the record enters the
16-entry buffer or the overflow; a response of Zeroize or above erases the vault, on mains ends every session and fixes the restart within
100 ms, and a Retire burns the retire fuse; a quantity that leaves alarm is marked no more; monitor faults raise source 9 and end its alarm
with the last of them (R861, R862, R865, R868, R874 to R878, R881, R889). -/
def Obligations.TamperAlarmsRecordAndRespond : Prop :=
  (∀ (s : State) (q : Fin 6) (det : Detector), s.mod.tether.onCell = false ∨ q.val ≠ 2 → s.mod.tether.qAlarm.testBit q.val = false →
    ∃ t, exec (.tamperAlarm q det) s = .next t ∧ t.mod.tether.qAlarm.testBit q.val = true ∧ (source t.mod q.val).alarm = true ∧
      (source t.mod q.val).events = satAdd 32 (source s.mod q.val).events 1 ∧ t.mod.tether.tseq = (s.mod.tether.tseq + 1) % 2 ^ 32 ∧
      (s.mod.tether.buffer.length < 16 → t.mod.tether.buffer.length = s.mod.tether.buffer.length + 1) ∧
      (16 ≤ s.mod.tether.buffer.length → t.mod.tether.overflow = true ∧ t.mod.tether.lost = satAdd 8 s.mod.tether.lost 1 ∧
        t.mod.tether.buffer = s.mod.tether.buffer) ∧
      (4 ≤ responseOf s.mod q.val → t.mod.tether.vault = erasedVault ∧ t.mod.tether.zeroized = true) ∧
      (4 ≤ responseOf s.mod q.val → s.mod.tether.onCell = false →
        (∀ j, j < 32 → (sess s.mod j).state ≤ 2 → (sess t.mod j).state = 0) ∧
        t.mod.sys.zeroAt = some (s.mod.sys.elapsed + 100 * msCycles, if responseOf s.mod q.val = 4 then 2 else 3) ∧
        (5 ≤ responseOf s.mod q.val → t.otp.retired = true))) ∧
  (∀ (s : State) (q : Fin 6), s.mod.tether.qAlarm.testBit q.val = true →
    ∃ t, exec (.tamperAlarmClear q) s = .next t ∧ t.mod.tether.qAlarm.testBit q.val = false ∧ (source t.mod q.val).alarm = false ∧
      (source t.mod q.val).events = (source s.mod q.val).events ∧ ∀ r, r ≠ q.val → t.mod.tether.qAlarm.testBit r = s.mod.tether.qAlarm.testBit r) ∧
  (∀ (s : State) (q : Fin 6) (det : Detector), s.mod.tether.onCell = false ∨ q.val ≠ 2 → s.mod.tether.qFault.testBit q.val = false →
    ∃ t, exec (.monitorFault q det) s = .next t ∧ t.mod.tether.qFault.testBit q.val = true ∧ (source t.mod 9).alarm = true ∧
      (source t.mod 9).events = satAdd 32 (source s.mod 9).events 1) ∧
  (∀ (s : State) (b : Bool), s.mod.tether.qFault.testBit 6 = false →
    ∃ t, exec (.zeroizePinFault b) s = .next t ∧ t.mod.tether.qFault.testBit 6 = true ∧ (source t.mod 9).alarm = true ∧
      (source t.mod 9).events = satAdd 32 (source s.mod 9).events 1) ∧
  (∀ (s : State) (q : Fin 7),
    ∃ t, exec (.monitorFaultClear q) s = .next t ∧ t.mod.tether.qFault.testBit q.val = false ∧ (source t.mod 9).alarm = (t.mod.tether.qFault != 0) ∧
      ∀ r, r ≠ q.val → t.mod.tether.qFault.testBit r = s.mod.tether.qFault.testBit r)

/-- The zeroize pins raise source 7 whose Zeroize erases the vault; QUIESCE_N asserted on mains puts source 8 in alarm with Quiesce in
force, and its release ends both; the second host loop pulse missed in a row raises source 6, and 100 good ones end its alarm (R864, R866,
R867, R874). -/
def Obligations.PinsAndHostLoopAct : Prop :=
  (∀ s : State, 4 ≤ responseOf s.mod 7 →
    ∃ t, exec .zeroizePins s = .next t ∧ (source t.mod 7).events = satAdd 32 (source s.mod 7).events 1 ∧
      t.mod.tether.tseq = (s.mod.tether.tseq + 1) % 2 ^ 32 ∧ t.mod.tether.vault = erasedVault ∧
      (s.mod.tether.onCell = false → ∀ j, j < 32 → (sess s.mod j).state ≤ 2 → (sess t.mod j).state = 0)) ∧
  (∀ s : State, s.mod.tether.onCell = false → s.mod.sys.running = true → 3 ≤ s.mod.sys.step → s.mod.tether.quiescePin = false →
    ∃ t, exec .quiesceNAssert s = .next t ∧ t.mod.tether.quiescePin = true ∧ (source t.mod 8).alarm = true ∧ 3 ≤ (source t.mod 8).inForce ∧
      (source t.mod 8).events = satAdd 32 (source s.mod 8).events 1) ∧
  (∀ s : State, s.mod.tether.onCell = false →
    ∃ t, exec .quiesceNRelease s = .next t ∧ t.mod.tether.quiescePin = false ∧ (source t.mod 8).alarm = false ∧
      ((source s.mod 8).alarm = true → (source t.mod 8).inForce = 0)) ∧
  (∀ s : State, (if s.mod.tether.onCell then s.mod.tether.loopOn else infB s.mod 0x9000 7 0) = true →
    (∃ t, exec (.hostloopPulse true) s = .next t ∧ t.mod.tether.loopMissed = 0 ∧ t.mod.tether.loopGood = s.mod.tether.loopGood + 1 ∧
      (99 ≤ s.mod.tether.loopGood → (source t.mod 6).alarm = false)) ∧
    (∃ t, exec (.hostloopPulse false) s = .next t ∧ t.mod.tether.loopMissed = s.mod.tether.loopMissed + 1 ∧ t.mod.tether.loopGood = 0 ∧
      (1 ≤ s.mod.tether.loopMissed → (source t.mod 6).alarm = true ∧
        ((source s.mod 6).alarm = false → (source t.mod 6).events = satAdd 32 (source s.mod 6).events 1)) ∧
      (s.mod.tether.loopMissed = 0 → source t.mod 6 = source s.mod 6)))

/-- A restart ends every session, empties every key slot and KEK and records its cause, 4 for a keel out of lock, 5 for a commanded one,
that of the zeroize for its own; where a slot's image passes the boot ROM the pilots run at step 7 and READY makes the module Ready; a
start-up that fails at step 2 or 3 begins again with cause 6; mains in range starts the module, or leaves it failed at step 4, or at another
step that has failed three times, with ALM2 held (R876, R935, R962, R969, R974 to R979, R983). -/
def Obligations.RestartsAndStartUpRun : Prop :=
  (∀ (s : State) (tr : StartTrial), tr.wf = true → tr.failStep = 0 →
    (s.mod.sys.running = true → ∃ t, exec (.keelLockLost tr) s = .next t ∧ Restarted s t 4) ∧
    (s.mod.sys.restartAt.isSome = true → ∃ t, exec (.commandedRestartBegin tr) s = .next t ∧ Restarted s t 5) ∧
    (∀ due cause, s.mod.sys.zeroAt = some (due, cause) → s.mod.sys.state ≠ 2 → ∃ t, exec (.zeroizeRestart tr) s = .next t ∧ Restarted s t cause)) ∧
  (∀ (s : State) (tr : StartTrial), tr.wf = true → s.mod.sys.running = true → (tr.failStep = 2 ∨ tr.failStep = 3) →
    ∃ t, exec (.keelLockLost tr) s = .next t ∧ t.mod.sys.cause = 6 ∧
      (tr.fails < 3 → Restarted s t 6 ∧ ((bootSlot s).isSome = true → t.mod.sys.stopStep = tr.failStep ∧ t.mod.sys.attempt = tr.fails))) ∧
  (∀ (s : State) (tr : StartTrial), tr.wf = true → s.mod.sys.running = false →
    (s.mod.sys.mains = false ∨ (s.mod.sys.mainsLostAt.isSome = true ∧ s.mod.sys.state ≠ 2)) →
    ∃ t, exec (.mainsInRange tr.failStep tr.units tr.fails) s = .next t ∧ t.mod.sys.mains = true ∧ t.mod.tether.onCell = false ∧
      (tr.failStep = 0 → (bootSlot s).isSome = true → t.mod.sys.running = true ∧ t.mod.sys.step = 7 ∧ t.mod.sys.state = 0) ∧
      ((tr.failStep = 4 ∨ tr.fails = 3 ∧ (tr.failStep = 2 ∨ tr.failStep = 3 ∨ (tr.failStep = 5 ∧ (bootSlot s).isSome = true))) →
        t.mod.sys.state = 2 ∧ t.mod.sys.running = false ∧ t.mod.sys.stopStep = tr.failStep ∧ alarmPin t.mod 2 = true)) ∧
  (∀ s : State, s.mod.sys.running = true → s.mod.sys.state = 0 → s.mod.sys.step = 7 →
    ∃ t, exec .ready s = .next t ∧ t.mod.sys.state = 1 ∧ t.mod.sys.step = 8 ∧ t.mod.sys.running = true ∧
      (s.mod.tether.quiescePin = true → (source t.mod 8).alarm = true))

/-- The running pilots burn a bit of both mirrors for an unburned entry, counting it past the last; a removed cell is noticed, loses
everything where nothing else feeds the tether, and raises source 5 outside a swap window; a window opens for its minutes and closes when
the cell is stable, on a write of 0, or when it expires, and then a missing cell raises source 5 (R857, R878 to R887). -/
def Obligations.TamperBitsAndCellAreKept : Prop :=
  (∀ s : State, s.mod.tether.buffer.any (·.unburned) = true → (s.mod.sys.pilot0 = true ∨ s.mod.sys.pilot1 = true) → s.mod.tether.onCell = false →
    ∃ t, exec .tamperBitBurn s = .next t ∧ t.mod.tether.buffer = markBurned s.mod.tether.buffer ∧
      (tamperCount s.otp ≠ 4096 → t.otp = burnBit s.otp) ∧
      (tamperCount s.otp = 4096 → t.otp = s.otp ∧ t.mod.sys.pastSaturation = satAdd 32 s.mod.sys.pastSaturation 1)) ∧
  (∀ s : State, s.mod.tether.cellPresent = true →
    ∃ t, exec .cellRemove s = .next t ∧ t.mod.tether.cellPresent = false ∧ (s.mod.tether.onCell = true → t.mod.tether.vault.canary = .lost) ∧
      (s.mod.tether.onCell = false → s.mod.tether.swapEnd = none → s.mod.tether.qAlarm.testBit 5 = false →
        t.mod.tether.qAlarm.testBit 5 = true ∧ (source t.mod 5).alarm = true) ∧
      (s.mod.tether.onCell = false → s.mod.tether.swapEnd.isSome = true →
        (source t.mod 5).events = satAdd 32 (source s.mod 5).events 1 ∧ (source t.mod 5).alarm = (source s.mod 5).alarm)) ∧
  (∀ s : State, s.mod.tether.cellPresent = false →
    ∃ t, exec .cellInsert s = .next t ∧ t.mod.tether.cellPresent = true ∧ t.mod.tether.swapSwapped = true) ∧
  (∀ (s : State) (h : Hdr) (i minutes : Nat), (Instr.cellSwapWindowWrite h minutes).wf = true → WriteClears s.mod h i 0x9030 1 none (b1 minutes) →
    ∃ t, exec (.cellSwapWindowWrite h minutes) s = .next t ∧ Answered t.mod i h.sequence 0 ∧
      t.mod.tether.swapEnd = (if minutes = 0 then none else some (s.mod.sys.elapsed + minutes * 60 * secCycles))) ∧
  (∀ (s : State) (mv : Nat), (Instr.cellSwapWindowClose mv).wf = true → s.mod.tether.swapEnd.isSome = true → s.mod.tether.cellPresent = true →
    s.mod.tether.swapSwapped = true → 2900 < mv →
    ∃ t, exec (.cellSwapWindowClose mv) s = .next t ∧ t.mod.tether.swapEnd = none ∧ t.mod.tether.vault = s.mod.tether.vault) ∧
  (∀ (s : State) (e : Nat), s.mod.tether.swapEnd = some e →
    ∃ t, exec .cellSwapWindowExpire s = .next t ∧ t.mod.tether.swapEnd = none ∧ e ≤ t.mod.sys.elapsed ∧
      (s.mod.tether.cellPresent = false → (source t.mod 5).alarm = true)) ∧
  (∀ s : State, s.mod.tether.onCell = true →
    ∃ t, exec .lossOfAllPower s = .next t ∧ t.mod.tether.vault.canary = .lost ∧ t.mod.tether.cellPresent = false ∧ t.mod.tether.buffer = [])

/-- A response in force is ended by a write of TRUE unless its source is in alarm, which is refused with 0x3003, or is QUIESCE_N, which is
refused with 0x4002; a first retire confirmation with the module's serial is held for 300 s, one by the same credential is refused with
0x1005, one by another within that time retires the module, and a wrong serial is refused with 0x2001 (R873, R888, R889). -/
def Obligations.ResponsesAndRetireConfirmations : Prop :=
  (∀ (s : State) (h : Hdr) (i x : Nat), (Instr.responseRelease h x true).wf = true → WriteClears s.mod h i 0x9010 6 (some x) (b1 1) →
    ∃ t, exec (.responseRelease h x true) s = .next t ∧
      (x = 8 → source t.mod x = source s.mod x ∧ Answered t.mod i h.sequence 0x4002) ∧
      (x ≠ 8 → (source s.mod x).alarm = true → source t.mod x = source s.mod x ∧ Answered t.mod i h.sequence 0x3003) ∧
      (x ≠ 8 → (source s.mod x).alarm = false → (source t.mod x).inForce = 0 ∧ (source t.mod x).units = [] ∧ Answered t.mod i h.sequence 0)) ∧
  (∀ (s : State) (h : Hdr) (i : Nat) (serial : Octets), (Instr.retireConfirmation h serial).wf = true → WriteClears s.mod h i 0x9040 1 none serial →
    ∃ t, exec (.retireConfirmation h serial) s = .next t ∧
      (serial ≠ s.otp.serial → t.mod.mgmt.retireBy = s.mod.mgmt.retireBy ∧ t.otp = s.otp ∧ Answered t.mod i h.sequence 0x2001) ∧
      (serial = s.otp.serial → s.mod.mgmt.retireBy = none →
        t.mod.mgmt.retireBy = some ((sess s.mod i).cred, s.mod.sys.elapsed) ∧ t.otp = s.otp ∧ Answered t.mod i h.sequence 0) ∧
      (serial = s.otp.serial → ∀ c e, s.mod.mgmt.retireBy = some (c, e) →
        (c = (sess s.mod i).cred → t.mod.mgmt.retireBy = some (c, e) ∧ t.otp = s.otp ∧ Answered t.mod i h.sequence 0x1005) ∧
        (c ≠ (sess s.mod i).cred → e + 300 * secCycles < s.mod.sys.elapsed →
          t.mod.mgmt.retireBy = some ((sess s.mod i).cred, s.mod.sys.elapsed) ∧ t.otp = s.otp) ∧
        (c ≠ (sess s.mod i).cred → s.mod.sys.elapsed ≤ e + 300 * secCycles →
          t.otp.retired = true ∧ t.mod.sys.retired = true ∧ t.mod.tether.vault = erasedVault ∧ (sess t.mod i).state = 0 ∧
          t.mod.sys.zeroAt = some (s.mod.sys.elapsed + 100 * msCycles, 3)))) ∧
  (∀ (s : State) (c e : Nat), s.mod.mgmt.retireBy = some (c, e) →
    ∃ t, exec .retireConfirmationExpire s = .next t ∧ t.mod.mgmt.retireBy = none ∧ e + 300 * secCycles ≤ t.mod.sys.elapsed ∧ t.otp = s.otp)

/-- Mains absent is noted; the early warning writes runtime and configuration to flash behind a seal; mains back counts a ride-through; at
the bulk threshold both harbours are held in reset without sessions or keys, ALM and trigger pins are released and undriven, the tether
passes to the cell with its vault, or without a cell loses it (R857, R984 to R986, R1015, R1016). -/
def Obligations.MainsLossIsRidden : Prop :=
  (∀ s : State, s.mod.sys.mains = true → s.mod.sys.mainsLostAt = none →
    ∃ t, exec .mainsLost s = .next t ∧ t.mod.sys.mainsLostAt = some s.mod.sys.elapsed ∧ t.mod.sys.running = s.mod.sys.running) ∧
  (∀ (s : State) (e : Nat), s.mod.sys.mainsLostAt = some e → s.mod.sys.warned = false → s.mod.sys.running = true →
    ∃ t, exec .mainsEarlyWarning s = .next t ∧ t.mod.sys.warned = true ∧ e + inf s.mod 0x9050 1 0 * msCycles ≤ t.mod.sys.elapsed ∧
      t.flash.runtime = t.mod.tether.runtime ∧ t.flash.stored = some (configCopy t.mod) ∧ t.mod.ev.sealsIssued = s.mod.ev.sealsIssued + 1) ∧
  (∀ s : State, s.mod.sys.mainsLostAt.isSome = true →
    (∃ t, exec .mainsReturn s = .next t ∧ t.mod.sys.mainsLostAt = none ∧ t.mod.sys.warned = false ∧ t.mod.sys.rides = satAdd 32 s.mod.sys.rides 1) ∧
    (∃ t, exec .bulkThreshold s = .next t ∧ t.mod.sys.running = false ∧ t.mod.sys.mains = false ∧ t.mod.sys.cause = 1 ∧ t.mod.tether.onCell = true ∧
      (∀ k, alarmPin t.mod k = false) ∧ (∀ k, trigPin t.mod k = none) ∧ t.mod.sys.cxlClock = false ∧
      (∀ j, (sess t.mod j).state = 0) ∧ t.mod.assocs = [] ∧ t.mod.keks = [] ∧
      (s.mod.tether.cellPresent = true → t.mod.tether.vault = s.mod.tether.vault ∧ t.mod.tether.runtimeAtLoss = s.mod.tether.runtime) ∧
      (s.mod.tether.cellPresent = false → t.mod.tether.vault.canary = .lost)))

/-- Mains that returns before the bulk threshold: the module goes on without any reset, event 0x1011 carries the length of the absence in
ms, the count 0x1100:07 rises by 1, and nothing else changes but the over flags that follow any command: no frame is lost (R985). -/
def Obligations.MainsReturnsWithoutReset : Prop :=
  ∀ (s : State) (e : Nat), s.mod.sys.mainsLostAt = some e →
    ∃ t, exec .mainsReturn s = .next t ∧
      t = s.upd (settleOver (raise { s.mod with sys := { s.mod.sys with mainsLostAt := none, warned := false, rides := satAdd 32 s.mod.sys.rides 1 } }
        0x1011 2 0 (b4 ((s.mod.sys.elapsed - e) / msCycles)))) ∧
      t.mod.queues = s.mod.queues ∧ t.mod.arbs = s.mod.arbs ∧ t.mod.tx = s.mod.tx ∧ t.mod.cls = s.mod.cls ∧ t.mod.obj = s.mod.obj ∧
      valueOf t 0 0x1100 7 0 = some (.nat (satAdd 32 s.mod.sys.rides 1))

/-- A chosen reference that meets its criterion is in force and locked; lost, it is in holdover and counted; under automatic select one of
higher rank is taken and acquired; a pilot whose watchdog expires stops alone, with H0's the locked time passes to holdover, and once it
runs again its held events are journaled and, where it was session pilot, its sessions have ended (R570, R740, R944, R963 to R965, R982). -/
def Obligations.ReferencesAndPilotsAreFollowed : Prop :=
  (∀ (s : State) (r : Nat), (Instr.referenceLock r).wf = true → s.mod.sys.running = true → refChosen s.mod r = true →
    (s.mod.sys.refInForce = 0 ∨ r ≤ s.mod.sys.refInForce ∨ s.mod.sys.refState = 3) →
    ∃ t, exec (.referenceLock r) s = .next t ∧ t.mod.sys.refInForce = r ∧ t.mod.sys.refState = 2) ∧
  (∀ s : State, s.mod.sys.running = true → s.mod.sys.refInForce ≠ 0 → s.mod.sys.refState ≠ 3 →
    ∃ t, exec .referenceLost s = .next t ∧ t.mod.sys.refState = 3 ∧ t.mod.sys.refInForce = s.mod.sys.refInForce ∧
      t.mod.sys.refLosses = satAdd 32 s.mod.sys.refLosses 1) ∧
  (∀ (s : State) (r : Nat), (Instr.referenceChange r).wf = true → s.mod.sys.running = true → inf s.mod 0x7100 1 0 = 3 →
    (s.mod.sys.refInForce = 0 ∨ r < s.mod.sys.refInForce) →
    ∃ t, exec (.referenceChange r) s = .next t ∧ t.mod.sys.refInForce = r ∧ t.mod.sys.refState = 1) ∧
  (∀ (s : State) (h : Fin 2), s.mod.sys.running = true → pilotUp s.mod h.val = true →
    ∃ t, exec (.pilotWatchdog h) s = .next t ∧ pilotUp t.mod h.val = false ∧ pilotUp t.mod (1 - h.val) = pilotUp s.mod (1 - h.val) ∧
      t.mod.sys.pilotDownAt = s.mod.sys.elapsed ∧ (h.val = 0 → s.mod.time.state = 1 → t.mod.time.state = 2)) ∧
  (∀ (s : State) (h : Fin 2), s.mod.sys.running = true → pilotUp s.mod h.val = false → s.mod.fw.activating = none →
    ∃ t, exec (.pilotRestarted h) s = .next t ∧ pilotUp t.mod h.val = true ∧ (if h.val = 1 then t.mod.ev.held1 else t.mod.ev.held0) = [] ∧
      (s.mod.mgmt.pilot = h.val → ∀ j, j < 32 → (sess s.mod j).state ≤ 2 → (sess t.mod j).state = 0))

/-! ### Stowage and berths -/

/-- CXL_LINK_READY: a port whose device trains at 8 lanes or more and 64 GT/s, is Type 3 and of a capacity the engine serves reaches ready
with a 256-bit key from source B, and fails otherwise; CXL_LINK_DOWN: a ready port loses every line of its enabled regions, and the other
port keeps its state; CXL_LINK_RETURN: the port is ready again with the tree restarted, and with no restart number left nothing of it
changes (R620 to R625, R639, R640, R660, R669). -/
def Obligations.StowageLinksTrainFailAndReturn : Prop :=
  (∀ (s : State) (h : Fin 2) (lanes rate cap bits : Nat) (type3 : Bool), s.mod.sys.running = true → (stow s.mod h.val).st < 2 →
    (8 ≤ lanes → 64 ≤ rate → type3 = true → 16384 ≤ cap → cap ≤ 524288 → (entropyOf s.mod h.val).failB = false →
      ∃ t, exec (.cxlLinkReady h lanes rate cap bits type3) s = .next t ∧ (stow t.mod h.val).st = 2 ∧ (stow t.mod h.val).key.length = 32 ∧
        (stow t.mod h.val).capacity = cap ∧ (stow t.mod h.val).metaBits = bits) ∧
    ((lanes < 8 ∨ rate < 64 ∨ type3 = false ∨ cap < 16384 ∨ 524288 < cap ∨ (entropyOf s.mod h.val).failB = true) →
      ∃ t, exec (.cxlLinkReady h lanes rate cap bits type3) s = .next t ∧ (stow t.mod h.val).st = 3 ∧ (stow t.mod h.val).key = (stow s.mod h.val).key)) ∧
  (∀ (s : State) (h : Fin 2), s.mod.sys.running = true → (stow s.mod h.val).st = 2 →
    ∃ t, exec (.cxlLinkDown h) s = .next t ∧ (stow t.mod h.val).st = 4 ∧ stow t.mod (1 - h.val) = stow s.mod (1 - h.val) ∧
      ∀ r, r < 16 → regionOn s.mod h.val r = true → ∀ n, regionBase s.mod h.val r ≤ n → n < regionBase s.mod h.val r + regionSize s.mod h.val r →
        tfind (stow t.mod h.val).lines n = none) ∧
  (∀ (s : State) (h : Fin 2), s.mod.sys.running = true → (stow s.mod h.val).st = 4 →
    ∃ t, exec (.cxlLinkReturn h) s = .next t ∧
      ((stow s.mod h.val).restarts ≠ 255 → (stow t.mod h.val).st = 2 ∧ (stow t.mod h.val).restarts = (stow s.mod h.val).restarts + 1) ∧
      ((stow s.mod h.val).restarts = 255 → stow t.mod h.val = stow s.mod h.val))

/-- REGION_RELEASE: a quiesced region is reopened by its release, in a new restart with its losses released, and with all 255 restarts used
the release is refused with 0x3001; a region with nothing to release answers 0 and keeps its restart number (R639, R640, R668).
STOWAGE_ACCESS: an access to a line of an open region by a master with the right for it is carried out: a write or a partial write gives the
line its bytes, merged into what it held, and no other line; a read answers the line, or an error where it is lost, and changes nothing; an
access to a line of no region, or without its right, answers an error, changes no line and is counted in 0x8000:0B (R637, R652, R653, R664,
R667). -/
def Obligations.RegionsReleaseAndLinesAreAccessed : Prop :=
  (∀ (s : State) (h : Hdr) (i u : Nat), (Instr.regionRelease h u true).wf = true → WriteClears s.mod h i 0x8010 0x0A (some u) (b1 1) →
    ((stow s.mod (u / 16)).quiesced.contains (u % 16) = false → (∀ e ∈ losses (stow s.mod (u / 16)), e.region = u % 16 → e.cause ≠ 2 ∧ e.cause ≠ 5) →
      ∃ t, exec (.regionRelease h u true) s = .next t ∧ stow t.mod (u / 16) = stow s.mod (u / 16) ∧ Answered t.mod i h.sequence 0) ∧
    ((stow s.mod (u / 16)).quiesced.contains (u % 16) = true → (stow s.mod (u / 16)).restarts ≠ 255 →
      ∃ t, exec (.regionRelease h u true) s = .next t ∧ (stow t.mod (u / 16)).quiesced = (stow s.mod (u / 16)).quiesced.filter (· != u % 16) ∧
        (stow t.mod (u / 16)).restarts = (stow s.mod (u / 16)).restarts + 1 ∧
        (∀ e ∈ (stow t.mod (u / 16)).recs, e.region = u % 16 → e.released = true) ∧ Answered t.mod i h.sequence 0) ∧
    ((stow s.mod (u / 16)).quiesced.contains (u % 16) = true → (stow s.mod (u / 16)).restarts = 255 →
      ∃ t, exec (.regionRelease h u true) s = .next t ∧ stow t.mod (u / 16) = stow s.mod (u / 16) ∧ Answered t.mod i h.sequence 0x3001)) ∧
  (∀ (s : State) (h : Fin 2) (master : Fin 6) (n : Nat), s.mod.sys.running = true → (stow s.mod h.val).st = 2 → (stow s.mod h.val).key ≠ [] →
    (master.val = 5 → s.mod.mgmt.debugBy ≠ []) →
    (∀ kind, kind.wf = true → regionOf s.mod h.val n = none →
      ∃ t, exec (.stowageAccess h master n kind .ok) s = .next t ∧ stow t.mod h.val = stow s.mod h.val ∧ Counts s.mod t.mod 0x8000 0x0B h.val 1 ∧
        t.mod.out = s.mod.out ++ [.stowageAnswer h.val master.val none]) ∧
    (∀ r, regionOf s.mod h.val n = some r → (stow s.mod h.val).quiesced.contains r = false →
      (∀ kind, kind.wf = true → (guarded s.mod h.val r master.val = true ∨ rightsOf s.mod h.val r master.val = 0) →
        ∃ t, exec (.stowageAccess h master n kind .ok) s = .next t ∧ stow t.mod h.val = stow s.mod h.val ∧ Counts s.mod t.mod 0x8000 0x0B h.val 1 ∧
          t.mod.out = s.mod.out ++ [.stowageAnswer h.val master.val none]) ∧
      (guarded s.mod h.val r master.val = false → rightsOf s.mod h.val r master.val = 3 →
        (∀ data, AccessKind.wf (.write data) = true → (∀ e ∈ lossesAt s.mod h.val n, e.cause ≠ 2 ∧ e.cause ≠ 5) →
          ∃ t, exec (.stowageAccess h master n (.write data) .ok) s = .next t ∧ tfind (stow t.mod h.val).lines n = some data ∧
            ∀ k, k ≠ n → tfind (stow t.mod h.val).lines k = tfind (stow s.mod h.val).lines k) ∧
        (∀ off data, AccessKind.wf (.partialWrite off data) = true → lostAt s.mod h.val n = none →
          ∃ t, exec (.stowageAccess h master n (.partialWrite off data) .ok) s = .next t ∧
            tfind (stow t.mod h.val).lines n = some ((fit 64 ((tfind (stow s.mod h.val).lines n).getD [])).take off ++ data ++
              (fit 64 ((tfind (stow s.mod h.val).lines n).getD [])).drop (off + data.length)) ∧
            ∀ k, k ≠ n → tfind (stow t.mod h.val).lines k = tfind (stow s.mod h.val).lines k)) ∧
      (guarded s.mod h.val r master.val = false → 1 ≤ rightsOf s.mod h.val r master.val →
        ∃ t, exec (.stowageAccess h master n .read .ok) s = .next t ∧ t.mod.stow = s.mod.stow ∧ t.mod.obj = s.mod.obj ∧
          t.mod.out = s.mod.out ++ [.stowageAnswer h.val master.val
            (if lostAt s.mod h.val n = none then some (fit 64 ((tfind (stow s.mod h.val).lines n).getD [])) else none)])))

/-- A berth reset is refused with 0x2001 for berth 0 and with 0x3002 while one runs or is due, and else gets its edge within 1 ms; at the
edge the berth's generation rises, its key slots and KEK are erased, its held frames are dropped and its tenant's sessions end; once nothing
of the old generation is held the reset completes, with a release returning every queue and association of the berth to berth 0 (R700 to
R706, R711). -/
def Obligations.BerthResetsRunToCompletion : Prop :=
  (∀ (s : State) (h : Hdr) (i b mode : Nat) (c : Instr), (c = .berthResetKeep h b ∧ mode = 1 ∨ c = .berthResetRelease h b ∧ mode = 2) → c.wf = true →
    WriteClears s.mod h i 0xA000 6 (some b) (b1 mode) →
    ∃ t, exec c s = .next t ∧
      (b = 0 → berth t.mod b = berth s.mod b ∧ Answered t.mod i h.sequence 0x2001) ∧
      (b ≠ 0 → ((berth s.mod b).resetting = true ∨ (berth s.mod b).due.isSome = true) →
        berth t.mod b = berth s.mod b ∧ Answered t.mod i h.sequence 0x3002) ∧
      (b ≠ 0 → (berth s.mod b).resetting = false → (berth s.mod b).due = none →
        (∃ e0, (berth t.mod b).due = some (mode, e0, (sess s.mod i).cred) ∧ s.mod.sys.elapsed ≤ e0 ∧ e0 ≤ s.mod.sys.elapsed + msCycles) ∧
        (berth t.mod b).gen = (berth s.mod b).gen ∧ Answered t.mod i h.sequence 0)) ∧
  (∀ (s : State) (b : Fin 256) (mode e0 cred : Nat), s.mod.sys.running = true → (berth s.mod b.val).due = some (mode, e0, cred) →
    ∃ t, exec (.berthResetEdge b) s = .next t ∧ (berth t.mod b.val).gen = ((berth s.mod b.val).gen + 1) % 256 ∧ (berth t.mod b.val).due = none ∧
      (berth t.mod b.val).resetting = true ∧ (berth t.mod b.val).releasing = (mode == 2) ∧ e0 ≤ t.mod.sys.elapsed ∧
      (berth t.mod b.val).resets = satAdd 32 (berth s.mod b.val).resets 1 ∧ (kek t.mod b.val).kek = [] ∧
      (∀ a, aBerth s.mod a = b.val → (assoc t.mod a).s0.full = false ∧ (assoc t.mod a).s1.full = false) ∧
      (∀ k, k < 4 → ∀ x ∈ (clsOf t.mod k).held, x.d.berth ≠ b.val) ∧
      (∀ j, j < 32 → (sess s.mod j).state ≤ 2 → (sess s.mod j).role = 3 → (sess s.mod j).bpid = bpidOf s.mod b.val → (sess t.mod j).state = 0) ∧
      ∀ k, k ≠ b.val → berth t.mod k = berth s.mod k) ∧
  (∀ (s : State) (b : Fin 256), s.mod.sys.running = true → (berth s.mod b.val).resetting = true → oldItems s.mod b.val = false →
    ((berth s.mod b.val).releasing = false →
      ∃ t, exec (.berthResetComplete b) s = .next t ∧ (berth t.mod b.val).resetting = false ∧ (berth t.mod b.val).completed = now s.mod ∧
        (berth t.mod b.val).gen = (berth s.mod b.val).gen ∧ t.mod.obj = s.mod.obj) ∧
    ((berth s.mod b.val).releasing = true →
      ∃ t, exec (.berthReleaseComplete b) s = .next t ∧ (berth t.mod b.val).resetting = false ∧ (berth t.mod b.val).releasing = false ∧
        t.mod.sys.unsaved = true ∧ (b.val ≠ 0 →
          (∀ q, q < 32768 → inf s.mod 0x6000 2 q = b.val → inf t.mod 0x6000 2 q = 0 ∧ queue t.mod q = {}) ∧
          (∀ a, a < 65536 → inf s.mod 0x4000 3 a = b.val → inf t.mod 0x4000 3 a = 0))))

/-! ### Firmware and identity -/

/-- A chunk is kept while a staging region is there and nothing installs; verification leaves the first cause that fails and answers its
status; an install of a verified image erases the slot that is not running, and its end marks that slot valid exactly when signature,
payload and co-signature check again from flash (R936 to R940). -/
def Obligations.FirmwareIsStagedVerifiedAndInstalled : Prop :=
  (∀ (s : State) (h : Hdr) (i n : Nat) (chunk : Octets), (Instr.firmwareChunkWrite h n chunk).wf = true → WriteClears s.mod h i 0xF020 1 (some n) chunk →
    ∃ t, exec (.firmwareChunkWrite h n chunk) s = .next t ∧
      (stagingRegion s.mod = none → t.mod.fw = s.mod.fw ∧ Answered t.mod i h.sequence 0x4002) ∧
      ((stagingRegion s.mod).isSome = true → s.mod.fw.installing = true → t.mod.fw = s.mod.fw ∧ Answered t.mod i h.sequence 0x3002) ∧
      (∀ g r lo, stagingRegion s.mod = some g → regionOfKind s.mod g 4 = some r → lo = regionBase s.mod g r + 128 * n → s.mod.fw.installing = false →
        ((stow s.mod g).st ≠ 2 ∨ denied s.mod g r 0 3 = true ∨ (∃ e ∈ losses (stow s.mod g), (e.cause = 2 ∨ e.cause = 5) ∧
            regionBase s.mod g e.region + e.first < lo + 128 ∧ lo < regionBase s.mod g e.region + e.first + e.count) →
          t.mod.fw = s.mod.fw ∧ Answered t.mod i h.sequence 0x4002) ∧
        ((stow s.mod g).st = 2 → denied s.mod g r 0 3 = false → (∀ e ∈ losses (stow s.mod g), e.cause = 2 ∨ e.cause = 5 →
            lo + 128 ≤ regionBase s.mod g e.region + e.first ∨ regionBase s.mod g e.region + e.first + e.count ≤ lo) →
          tget [] t.mod.fw.chunks n = chunk ∧ (∀ k, k ≠ n → tget [] t.mod.fw.chunks k = tget [] s.mod.fw.chunks k) ∧ t.mod.fw.staging = 1 ∧
          Answered t.mod i h.sequence 0))) ∧
  (∀ (s : State) (h : Hdr) (i c : Nat), (Instr.firmwareVerify h true).wf = true → WriteClears s.mod h i 0xF010 2 none (b1 1) →
    c = imageCause s (stagedImage s.mod.fw) s.mod.fw.length →
    ∃ t, exec (.firmwareVerify h true) s = .next t ∧ t.mod.fw.cause = c ∧ t.mod.fw.staging = (if c = 0 then 2 else 3) ∧ t.flash = s.flash ∧
      Answered t.mod i h.sequence (causeStatus c)) ∧
  (∀ (s : State) (h : Hdr) (i : Nat), (Instr.firmwareInstall h true).wf = true → WriteClears s.mod h i 0xF010 5 none (b1 1) →
    ∃ t, exec (.firmwareInstall h true) s = .next t ∧
      (s.mod.fw.staging ≠ 2 → t.flash = s.flash ∧ t.mod.fw = s.mod.fw ∧ Answered t.mod i h.sequence 0x4002) ∧
      (s.mod.fw.staging = 2 → t.flash = setSlot s.flash (1 - s.mod.fw.running) { state := 1 } ∧ t.mod.fw.staging = 4 ∧ t.mod.fw.installing = true ∧
        Answered t.mod i h.sequence 0)) ∧
  (∀ (s : State) (img : Octets), s.mod.sys.running = true → s.mod.fw.installing = true → img = stagedImage s.mod.fw →
    ∃ t x, exec .firmwareInstallComplete s = .next t ∧ t.flash = setSlot s.flash (1 - s.mod.fw.running) x ∧ t.mod.fw.installing = false ∧
      x.header = img.take 256 ∧ (x.state = 2 ∨ x.state = 3) ∧
      (x.state = 2 ↔ s.mod.fw.installInvalid = false ∧
        Config.slhVerify (s.otp.vendorKeys.getD (hdrKey (img.take 256)) []) (img.take 256) (sub img (256 + hdrPayload (img.take 256)) 7856) = true ∧
        sha256 (sub img 256 (hdrPayload (img.take 256))) = sub (img.take 256) 20 32 ∧
        (hdrCoSigned (img.take 256) = true → s.flash.anchor ≠ zeros 32 →
          Config.slhVerify s.flash.anchor (img.take 256) (sub img (256 + hdrPayload (img.take 256) + 7856) 7856) = true)))

/-- Activation of a valid slot records the boot slot, issues a seal and ends every session, and is refused with 0x3003 for a slot that is
not valid and with 0x3002 during an install or a berth reset; then the pilots stop, and run on the slot that boots; after 4 s the other slot
is booted and the one that failed is invalid; confirmation burns the rollback counter and the revocations of the image running (R935, R942,
R943, R947, R949). -/
def Obligations.ActivationRunsOrFallsBack : Prop :=
  (∀ (s : State) (h : Hdr) (i x : Nat), (Instr.firmwareActivate h x).wf = true → WriteClears s.mod h i 0xF010 6 none (b1 x) →
    ∃ t, exec (.firmwareActivate h x) s = .next t ∧
      (slotState s x ≠ 2 → t.flash = s.flash ∧ t.mod.fw = s.mod.fw ∧ Answered t.mod i h.sequence 0x3003) ∧
      (slotState s x = 2 → (s.mod.fw.installing || anyResetting s.mod) = true → t.flash = s.flash ∧ t.mod.fw = s.mod.fw ∧
        Answered t.mod i h.sequence 0x3002) ∧
      (slotState s x = 2 → (s.mod.fw.installing || anyResetting s.mod) = false →
        t.flash.boot = x ∧ t.mod.fw.activating = some (x, 1) ∧ t.mod.ev.sealsIssued = s.mod.ev.sealsIssued + 1 ∧
        ∀ j, j < 32 → (sess s.mod j).state ≤ 2 → (sess t.mod j).state = 0)) ∧
  (∀ (s : State) (x : Nat), s.mod.sys.running = true → s.mod.fw.activating = some (x, 1) → (signing s.mod = false ∨ s.mod.sys.pilot0 = false) →
    ∃ t, exec .pilotsStopForActivation s = .next t ∧ t.mod.sys.pilot0 = false ∧ t.mod.sys.pilot1 = false ∧ t.mod.fw.activating = some (x, 2) ∧
      t.mod.fw.stoppedAt = s.mod.sys.elapsed ∧ t.mod.sys.running = true) ∧
  (∀ (s : State) (x y : Nat), s.mod.sys.running = true → s.mod.fw.activating = some (x, 2) → bootSlot s = some y →
    ∃ t, exec .firmwareRunning s = .next t ∧ t.mod.sys.pilot0 = true ∧ t.mod.sys.pilot1 = true ∧ t.mod.fw.activating = none ∧ t.mod.fw.running = y ∧
      t.mod.fw.version = hdrVersion (slotOfFlash s.flash y).header ∧ t.mod.ev.held0 = [] ∧ t.mod.ev.held1 = [] ∧ (x ≠ y → t.flash.boot = y)) ∧
  (∀ (s : State) (x : Nat), s.mod.sys.running = true → s.mod.fw.activating = some (x, 2) →
    ∃ t, exec .firmwareStartTimeout s = .next t ∧ t.mod.sys.pilot0 = true ∧ t.mod.sys.pilot1 = true ∧ t.mod.fw.activating = none ∧
      t.mod.fw.running = 1 - x ∧ t.flash.boot = 1 - x ∧ (slotOfFlash t.flash x).state = 3 ∧ s.mod.fw.stoppedAt + 4 * secCycles ≤ t.mod.sys.elapsed) ∧
  (∀ (s : State) (h : Hdr) (i : Nat) (hd : Octets), (Instr.firmwareConfirm h true).wf = true → WriteClears s.mod h i 0xF010 7 none (b1 1) →
    hd = (slotOfFlash s.flash s.mod.fw.running).header →
    ∃ t, exec (.firmwareConfirm h true) s = .next t ∧ t.otp.rollback = max s.otp.rollback (min 255 (hdrSecurity hd)) ∧
      (∀ k, t.otp.revoked.testBit k = (s.otp.revoked.testBit k || (decide (k < 4) && (hdrRevoke hd).testBit k && k != hdrKey hd))) ∧
      t.otp.retired = s.otp.retired ∧ Answered t.mod i h.sequence 0)

/-- A service key pair is generated once, from 48 bytes of source B, and put in force by a certificate for this module and key that the
anchor verifies; erased, it is gone with its certificate; the anchor is written, but not cleared while co-signatures are required; a read of
0xF100:02 makes and signs a new report; a commanded restart is due within 100 ms behind a seal (R916, R919 to R931, R983). -/
def Obligations.IdentitiesReportsAndRestartsAreMade : Prop :=
  (∀ (s : State) (h : Hdr) (i : Nat), (Instr.serviceIdentityGenerate h true).wf = true → WriteClears s.mod h i 0xF200 1 none (b1 1) →
    ∃ t, exec (.serviceIdentityGenerate h true) s = .next t ∧
      (s.mod.tether.vault.svcState ≠ 0 → t.mod.tether.vault = s.mod.tether.vault ∧ Answered t.mod i h.sequence 0x3003) ∧
      (s.mod.tether.vault.svcState = 0 → s.otp.retired = false → (entropyOf s.mod s.mod.mgmt.pilot).failB = false → s.mod.sys.birthOk = true →
        t.mod.tether.vault.svcState = 1 ∧ t.mod.tether.vault.svcSecret.length = 48 ∧
        t.mod.tether.vault.svcPublic = Config.slhPublic t.mod.tether.vault.svcSecret ∧
        t.mod.fw.requestSig = Config.slhSign (birthSecret s.otp) t.mod.fw.request ∧ Answered t.mod i h.sequence 0)) ∧
  (∀ (s : State) (h : Hdr) (i : Nat), (Instr.certificateInstall h true).wf = true → WriteClears s.mod h i 0xF200 0x0A none (b1 1) →
    ∃ t, exec (.certificateInstall h true) s = .next t ∧
      (s.mod.tether.vault.svcState ≠ 1 ∨ s.flash.anchor = zeros 32 → t.mod.tether.vault = s.mod.tether.vault ∧ Answered t.mod i h.sequence 0x4002) ∧
      (s.mod.tether.vault.svcState = 1 → s.flash.anchor ≠ zeros 32 → sub s.mod.fw.certBody 4 12 = s.otp.serial →
        sub s.mod.fw.certBody 16 32 = s.mod.tether.vault.svcPublic →
        (Config.slhVerify s.flash.anchor s.mod.fw.certBody s.mod.fw.certSig = false → t.mod.tether.vault = s.mod.tether.vault ∧
          Answered t.mod i h.sequence 0x6001) ∧
        (Config.slhVerify s.flash.anchor s.mod.fw.certBody s.mod.fw.certSig = true → t.mod.tether.vault.svcState = 2 ∧
          t.mod.tether.vault.svcCert = s.mod.fw.certBody ∧ t.flash.certSignature = s.mod.fw.certSig ∧ Answered t.mod i h.sequence 0))) ∧
  (∀ (s : State) (h : Hdr) (i : Nat), (Instr.serviceIdentityErase h true).wf = true → WriteClears s.mod h i 0xF200 0x0B none (b1 1) →
    ∃ t, exec (.serviceIdentityErase h true) s = .next t ∧ t.mod.tether.vault.svcState = 0 ∧ t.mod.tether.vault.svcSecret = [] ∧
      t.mod.tether.vault.svcCert = [] ∧ t.flash.certSignature = [] ∧ t.flash.anchor = s.flash.anchor ∧ Answered t.mod i h.sequence 0) ∧
  (∀ (s : State) (h : Hdr) (i : Nat) (anchor : Octets), (Instr.operatorAnchorWrite h anchor).wf = true → WriteClears s.mod h i 0xF300 1 none anchor →
    ∃ t, exec (.operatorAnchorWrite h anchor) s = .next t ∧
      (anchor = zeros 32 → s.flash.coRequired = true → t.flash = s.flash ∧ Answered t.mod i h.sequence 0x3003) ∧
      (anchor ≠ zeros 32 ∨ s.flash.coRequired = false → t.flash = { s.flash with anchor := anchor } ∧ Answered t.mod i h.sequence 0)) ∧
  (∀ (s : State) (h : Hdr) (i : Nat), (Instr.attestationReportRead h).wf = true → ReadClears s h i ⟨0xF100, 2, false, 0⟩ →
    ∃ t, exec (.attestationReportRead h) s = .next t ∧ Answered t.mod i h.sequence 0 ∧
      (s.mod.sys.birthOk = true → s.mod.sys.pilot1 = true → ∀ u, u = s.upd (accept s.mod h i) →
        t.mod.mgmt.reports = s.mod.mgmt.reports + 1 ∧ (sess t.mod i).report = reportBytes u i (configDigest u.mod) ∧
        (sess t.mod i).reportSig = Config.slhSign (birthSecret s.otp) (reportBytes u i (configDigest u.mod))) ∧
      (s.mod.sys.birthOk = false ∨ s.mod.sys.pilot1 = false →
        t.mod.mgmt.reports = s.mod.mgmt.reports ∧ (sess t.mod i).report = (sess s.mod i).report)) ∧
  (∀ (s : State) (h : Hdr) (i : Nat), (Instr.moduleRestart h true).wf = true → WriteClears s.mod h i 0x9050 3 none (b1 1) →
    ∃ t, exec (.moduleRestart h true) s = .next t ∧
      ((s.mod.fw.installing || anyResetting s.mod) = true → t.mod.sys.restartAt = s.mod.sys.restartAt ∧ Answered t.mod i h.sequence 0x3002) ∧
      ((s.mod.fw.installing || anyResetting s.mod) = false → t.mod.sys.restartAt = some (s.mod.sys.elapsed + 100 * msCycles) ∧
        t.mod.ev.sealsIssued = s.mod.ev.sealsIssued + 1 ∧ Answered t.mod i h.sequence 0))

/-! ### What commands leave alone -/

/-- Whatever a command of sessions, relay or the management paths does, every part of the state outside what `may` names for it is as it
was, for every state and operands. -/
def Obligations.SessionCommandsLeaveTheRest : Prop :=
 ∀ c : Instr, family c = .session → Leaves c (may c)

/-- Whatever a typed write or read of one object does, every part of the state outside what `may` names for it is as it was, for every state
and operands; a write of FALSE to an object that acts on TRUE changes nothing but what answers it. -/
def Obligations.RequestsLeaveTheRest : Prop :=
 ∀ c : Instr, family c = .request → Leaves c (may c)

/-- Whatever a frame, or an event of the crypto banks or the entropy sources, does, every part of the state outside what `may` names for it
is as it was, for every state and operands. -/
def Obligations.FramesAndCryptoEventsLeaveTheRest : Prop :=
 ∀ c : Instr, family c = .frame ∨ family c = .cipher → Leaves c (may c)

/-- Whatever an event of lanes, ports, queues, gates or time does, every part of the state outside what `may` names for it is as it was, for
every state and operands. -/
def Obligations.LineQueueAndTimeEventsLeaveTheRest : Prop :=
  ∀ c : Instr, family c = .line ∨ family c = .queue ∨ family c = .time → Leaves c (may c)

/-- Whatever an event of stowage, berths, snapshots, firmware, the tether, the supply or a pilot does, every part of the state outside what
`may` names for it is as it was, for every state and operands. -/
def Obligations.ModuleAndTamperEventsLeaveTheRest : Prop :=
 ∀ c : Instr, family c = .module ∨ family c = .tamper → Leaves c (may c)
end

