-- ==== Sys2Proof/Laws/Tables.lean ====
section
/-! SUPPORT. The sparse tables: reading after writing, and that every write keeps the canonical form. -/

namespace Sys2Proof.Machine

variable {α : Type}

/-! ### Reading after writing -/

@[simp] theorem tget_nil (d : α) (k : Nat) : tget d [] k = d := rfl

@[simp] theorem tget_tdel_same (d : α) (t : Tbl α) (k : Nat) : tget d (tdel t k) k = d := by
  induction t with
  | nil => rfl
  | cons e r ih =>
    by_cases h : e.1 = k
    · simpa [tdel, h] using ih
    · simpa [tdel, h, tget] using ih

theorem tget_tdel_ne (d : α) (t : Tbl α) {k j : Nat} (hj : j ≠ k) : tget d (tdel t k) j = tget d t j := by
  induction t with
  | nil => rfl
  | cons e r ih =>
    by_cases h : e.1 = k
    · have : ¬ e.1 = j := by omega
      simp only [tdel, List.filter_cons, h, bne_self_eq_false, Bool.false_eq_true, if_false, tget, ← ih]
      simp [show ¬ k = j by omega]
    · have hr : tdel (e :: r) k = e :: tdel r k := by simp [tdel, h]
      rw [hr]
      simp only [tget, ih]

@[simp] theorem tget_tins_same (d : α) (t : Tbl α) (k : Nat) (v : α) (h : ∀ e ∈ t, e.1 ≠ k) : tget d (tins k v t) k = v := by
  induction t with
  | nil => simp [tins, tget]
  | cons e r ih =>
    have he : e.1 ≠ k := h e (by simp)
    simp only [tins]
    split
    · simp [tget]
    · simp only [tget, he, if_false]
      exact ih fun x hx => h x (by simp [hx])

theorem tget_tins_ne (d : α) (t : Tbl α) {k j : Nat} (v : α) (hj : j ≠ k) : tget d (tins k v t) j = tget d t j := by
  induction t with
  | nil => simp [tins, tget, Ne.symm hj]
  | cons e r ih =>
    simp only [tins]
    split
    · simp [tget, Ne.symm hj]
    · simp only [tget, ih]

theorem tdel_key_ne (t : Tbl α) (k : Nat) : ∀ e ∈ tdel t k, e.1 ≠ k := by
  intro e he
  simpa [tdel] using (List.mem_filter.mp he).2

@[simp] theorem tget_tset_same [DecidableEq α] (d : α) (t : Tbl α) (k : Nat) (v : α) : tget d (tset d t k v) k = v := by
  unfold tset
  split
  · rw [tget_tdel_same]; exact Eq.symm ‹_›
  · exact tget_tins_same d _ k v (tdel_key_ne t k)

theorem tget_tset_ne [DecidableEq α] (d : α) (t : Tbl α) {k j : Nat} (v : α) (hj : j ≠ k) : tget d (tset d t k v) j = tget d t j := by
  unfold tset
  split
  · exact tget_tdel_ne d t hj
  · rw [tget_tins_ne d _ v hj, tget_tdel_ne d t hj]

theorem tget_tset [DecidableEq α] (d : α) (t : Tbl α) (k j : Nat) (v : α) :
    tget d (tset d t k v) j = if j = k then v else tget d t j := by
  split
  · subst j; exact tget_tset_same d t k v
  · exact tget_tset_ne d t v ‹_›

/-- A table with every entry changed reads as the change of what it read, in a canonical table. -/
theorem tget_tmap [DecidableEq α] (d : α) (f : α → α) (hf : f d = d) (t : Tbl α) (ht : t.Pairwise fun a b => a.1 < b.1) (k : Nat) :
    tget d (tmap d f t) k = f (tget d t k) := by
  induction t with
  | nil => simp [tmap, hf]
  | cons e r ih =>
    obtain ⟨h1, h2⟩ := List.pairwise_cons.mp ht
    have hr := ih h2
    have miss : e.1 = k → tget d r k = d := by
      intro hk
      have : ∀ x ∈ r, x.1 ≠ k := fun x hx => by have := h1 x hx; omega
      clear ih hr ht h1 h2
      induction r with
      | nil => rfl
      | cons y z iz =>
        simp only [tget, this y (by simp), if_false]
        exact iz fun x hx => this x (by simp [hx])
    by_cases hv : f e.2 = d
    · have : tmap d f (e :: r) = tmap d f r := by simp [tmap, hv]
      rw [this, hr]
      by_cases hk : e.1 = k
      · simp only [tget, hk, if_true, miss hk, hf, hv]
      · simp only [tget, hk, if_false]
    · have : tmap d f (e :: r) = (e.1, f e.2) :: tmap d f r := by simp [tmap, hv]
      rw [this]
      by_cases hk : e.1 = k
      · simp only [tget, hk, if_true]
      · simp only [tget, hk, if_false, hr]

/-! ### The canonical form -/

/-- The canonical form as a rising list without defaults. -/
theorem twf_iff [DecidableEq α] (d : α) (t : Tbl α) :
    twf d t = true ↔ t.Pairwise (fun a b => a.1 < b.1) ∧ ∀ e ∈ t, e.2 ≠ d := by
  induction t with
  | nil => simp [twf]
  | cons e r ih =>
    cases r with
    | nil => simp [twf]
    | cons y z =>
      have hs : twf d (e :: y :: z) = (e.2 != d && decide (e.1 < y.1) && twf d (y :: z)) := rfl
      rw [hs, Bool.and_eq_true, Bool.and_eq_true, ih, List.pairwise_cons (a := e)]
      constructor
      · rintro ⟨⟨h1, h2⟩, h3, h4⟩
        have h2 : e.1 < y.1 := by simpa using h2
        refine ⟨⟨fun x hx => ?_, h3⟩, fun x hx => ?_⟩
        · rcases List.mem_cons.mp hx with rfl | hx
          · exact h2
          · exact Nat.lt_trans h2 ((List.pairwise_cons.mp h3).1 x hx)
        · rcases List.mem_cons.mp hx with rfl | hx
          · simpa using h1
          · exact h4 x hx
      · rintro ⟨⟨h1, h2⟩, h3⟩
        exact ⟨⟨by simpa using h3 e (by simp), by simpa using h1 y (by simp)⟩, h2, fun x hx => h3 x (by simp [hx])⟩

theorem tins_pairwise (k : Nat) (v : α) (t : Tbl α) (ht : t.Pairwise fun a b => a.1 < b.1) (hk : ∀ e ∈ t, e.1 ≠ k) :
    (tins k v t).Pairwise fun a b => a.1 < b.1 := by
  induction t with
  | nil => simp [tins]
  | cons e r ih =>
    obtain ⟨h1, h2⟩ := List.pairwise_cons.mp ht
    have he := hk e (by simp)
    simp only [tins]
    split
    · refine List.pairwise_cons.mpr ⟨fun x hx => ?_, ht⟩
      rcases List.mem_cons.mp hx with rfl | hx
      · assumption
      · exact Nat.lt_trans ‹_› (h1 x hx)
    · refine List.pairwise_cons.mpr ⟨fun x hx => ?_, ih h2 fun y hy => hk y (by simp [hy])⟩
      have mem : ∀ (l : Tbl α), x ∈ tins k v l → x = (k, v) ∨ x ∈ l := by
        intro l
        induction l with
        | nil => simp [tins]
        | cons a b ib =>
          simp only [tins]
          split
          · simp
          · intro h
            rcases List.mem_cons.mp h with rfl | h
            · simp
            · rcases ib h with h | h <;> simp [h]
      rcases mem r hx with rfl | hx
      · show e.1 < k
        omega
      · exact h1 x hx

theorem mem_tins (k : Nat) (v : α) (t : Tbl α) (x : Nat × α) (hx : x ∈ tins k v t) : x = (k, v) ∨ x ∈ t := by
  induction t with
  | nil => simpa [tins] using hx
  | cons a b ib =>
    simp only [tins] at hx
    split at hx
    · simpa using hx
    · rcases List.mem_cons.mp hx with rfl | h
      · simp
      · rcases ib h with h | h <;> simp [h]

/-- Every write keeps the canonical form. -/
theorem twf_tset [DecidableEq α] (d : α) (t : Tbl α) (k : Nat) (v : α) (ht : twf d t = true) : twf d (tset d t k v) = true := by
  rw [twf_iff] at ht ⊢
  obtain ⟨h1, h2⟩ := ht
  have hd : (tdel t k).Pairwise fun a b => a.1 < b.1 := h1.filter _
  have hn : ∀ e ∈ tdel t k, e.2 ≠ d := fun e he => h2 e (List.mem_filter.mp he).1
  unfold tset
  split
  · exact ⟨hd, hn⟩
  · refine ⟨tins_pairwise k v _ hd (tdel_key_ne t k), fun e he => ?_⟩
    rcases mem_tins k v _ e he with rfl | he
    · assumption
    · exact hn e he

theorem twf_tmap [DecidableEq α] (d : α) (f : α → α) (t : Tbl α) (ht : twf d t = true) : twf d (tmap d f t) = true := by
  rw [twf_iff] at ht ⊢
  constructor
  · have h : (t.map fun e => (e.1, f e.2)).Pairwise fun a b => a.1 < b.1 := List.pairwise_map.mpr (ht.1.imp fun h => h)
    exact h.filter _
  · intro e he
    simpa using (List.mem_filter.mp he).2

end Sys2Proof.Machine
end

