-- ==== Sys2Proof/Laws/Accessors.lean ====
section
/-! SUPPORT. What each accessor reads after each update: the value written, or what it read before. -/

namespace Sys2Proof.Machine

/-! ### The value written, and the other elements -/

@[simp] theorem port_setPort_same (m : Mod) (k : Nat) (x : Port) : port (setPort m k x) k = x := tget_tset_same ..
theorem port_setPort_ne (m : Mod) {k j : Nat} (x : Port) (h : j ≠ k) : port (setPort m k x) j = port m j := tget_tset_ne _ _ _ h
@[simp] theorem lane_setLane_same (m : Mod) (k : Nat) (x : Lane) : lane (setLane m k x) k = x := tget_tset_same ..
theorem lane_setLane_ne (m : Mod) {k j : Nat} (x : Lane) (h : j ≠ k) : lane (setLane m k x) j = lane m j := tget_tset_ne _ _ _ h
@[simp] theorem rxOf_setRx_same (m : Mod) (k : Nat) (x : GelRx) : rxOf (setRx m k x) k = x := tget_tset_same ..
theorem rxOf_setRx_ne (m : Mod) {k j : Nat} (x : GelRx) (h : j ≠ k) : rxOf (setRx m k x) j = rxOf m j := tget_tset_ne _ _ _ h
@[simp] theorem txOf_setTx_same (m : Mod) (k : Nat) (x : GelTx) : txOf (setTx m k x) k = x := tget_tset_same ..
theorem txOf_setTx_ne (m : Mod) {k j : Nat} (x : GelTx) (h : j ≠ k) : txOf (setTx m k x) j = txOf m j := tget_tset_ne _ _ _ h
@[simp] theorem pmOf_setPm_same (m : Mod) (k : Nat) (x : Pm) : pmOf (setPm m k x) k = x := tget_tset_same ..
theorem pmOf_setPm_ne (m : Mod) {k j : Nat} (x : Pm) (h : j ≠ k) : pmOf (setPm m k x) j = pmOf m j := tget_tset_ne _ _ _ h
@[simp] theorem sess_setSess_same (m : Mod) (k : Nat) (x : Sess) : sess (setSess m k x) k = x := tget_tset_same ..
theorem sess_setSess_ne (m : Mod) {k j : Nat} (x : Sess) (h : j ≠ k) : sess (setSess m k x) j = sess m j := tget_tset_ne _ _ _ h
@[simp] theorem berth_setBerth_same (m : Mod) (k : Nat) (x : Berth) : berth (setBerth m k x) k = x := tget_tset_same ..
theorem berth_setBerth_ne (m : Mod) {k j : Nat} (x : Berth) (h : j ≠ k) : berth (setBerth m k x) j = berth m j := tget_tset_ne _ _ _ h
@[simp] theorem stow_setStow_same (m : Mod) (k : Nat) (x : Stow) : stow (setStow m k x) k = x := tget_tset_same ..
theorem stow_setStow_ne (m : Mod) {k j : Nat} (x : Stow) (h : j ≠ k) : stow (setStow m k x) j = stow m j := tget_tset_ne _ _ _ h
@[simp] theorem source_setSource_same (m : Mod) (k : Nat) (x : Source) : source (setSource m k x) k = x := tget_tset_same ..
theorem source_setSource_ne (m : Mod) {k j : Nat} (x : Source) (h : j ≠ k) : source (setSource m k x) j = source m j := tget_tset_ne _ _ _ h
@[simp] theorem kek_setKek_same (m : Mod) (k : Nat) (x : Kek) : kek (setKek m k x) k = x := tget_tset_same ..
theorem kek_setKek_ne (m : Mod) {k j : Nat} (x : Kek) (h : j ≠ k) : kek (setKek m k x) j = kek m j := tget_tset_ne _ _ _ h
@[simp] theorem assoc_setAssoc_same (m : Mod) (k : Nat) (x : Assoc) : assoc (setAssoc m k x) k = x := tget_tset_same ..
theorem assoc_setAssoc_ne (m : Mod) {k j : Nat} (x : Assoc) (h : j ≠ k) : assoc (setAssoc m k x) j = assoc m j := tget_tset_ne _ _ _ h
@[simp] theorem bank_setBank_same (m : Mod) (k : Nat) (x : Bank) : bank (setBank m k x) k = x := tget_tset_same ..
theorem bank_setBank_ne (m : Mod) {k j : Nat} (x : Bank) (h : j ≠ k) : bank (setBank m k x) j = bank m j := tget_tset_ne _ _ _ h
@[simp] theorem entropyOf_setEntropy_same (m : Mod) (k : Nat) (x : Entropy) : entropyOf (setEntropy m k x) k = x := tget_tset_same ..
theorem entropyOf_setEntropy_ne (m : Mod) {k j : Nat} (x : Entropy) (h : j ≠ k) : entropyOf (setEntropy m k x) j = entropyOf m j := tget_tset_ne _ _ _ h
@[simp] theorem clsOf_setCls_same (m : Mod) (k : Nat) (x : Cls) : clsOf (setCls m k x) k = x := tget_tset_same ..
theorem clsOf_setCls_ne (m : Mod) {k j : Nat} (x : Cls) (h : j ≠ k) : clsOf (setCls m k x) j = clsOf m j := tget_tset_ne _ _ _ h
@[simp] theorem queue_setQueue_same (m : Mod) (k : Nat) (x : Queue) : queue (setQueue m k x) k = x := tget_tset_same ..
theorem queue_setQueue_ne (m : Mod) {k j : Nat} (x : Queue) (h : j ≠ k) : queue (setQueue m k x) j = queue m j := tget_tset_ne _ _ _ h
@[simp] theorem node_setNode_same (m : Mod) (k : Nat) (x : Node) : node (setNode m k x) k = x := tget_tset_same ..
theorem node_setNode_ne (m : Mod) {k j : Nat} (x : Node) (h : j ≠ k) : node (setNode m k x) j = node m j := tget_tset_ne _ _ _ h
@[simp] theorem arb_setArb_same (m : Mod) (k : Nat) (x : Arb) : arb (setArb m k x) k = x := tget_tset_same ..
theorem arb_setArb_ne (m : Mod) {k j : Nat} (x : Arb) (h : j ≠ k) : arb (setArb m k x) j = arb m j := tget_tset_ne _ _ _ h
@[simp] theorem gate_setGate_same (m : Mod) (k : Nat) (x : Gate) : gate (setGate m k x) k = x := tget_tset_same ..
theorem gate_setGate_ne (m : Mod) {k j : Nat} (x : Gate) (h : j ≠ k) : gate (setGate m k x) j = gate m j := tget_tset_ne _ _ _ h

/-! ### The other accessors -/

@[simp] theorem port_setLane (m : Mod) (k j : Nat) (x : Lane) : port (setLane m k x) j = port m j := rfl
@[simp] theorem port_setRx (m : Mod) (k j : Nat) (x : GelRx) : port (setRx m k x) j = port m j := rfl
@[simp] theorem port_setTx (m : Mod) (k j : Nat) (x : GelTx) : port (setTx m k x) j = port m j := rfl
@[simp] theorem port_setPm (m : Mod) (k j : Nat) (x : Pm) : port (setPm m k x) j = port m j := rfl
@[simp] theorem port_setSess (m : Mod) (k j : Nat) (x : Sess) : port (setSess m k x) j = port m j := rfl
@[simp] theorem port_setBerth (m : Mod) (k j : Nat) (x : Berth) : port (setBerth m k x) j = port m j := rfl
@[simp] theorem port_setStow (m : Mod) (k j : Nat) (x : Stow) : port (setStow m k x) j = port m j := rfl
@[simp] theorem port_setSource (m : Mod) (k j : Nat) (x : Source) : port (setSource m k x) j = port m j := rfl
@[simp] theorem port_setKek (m : Mod) (k j : Nat) (x : Kek) : port (setKek m k x) j = port m j := rfl
@[simp] theorem port_setAssoc (m : Mod) (k j : Nat) (x : Assoc) : port (setAssoc m k x) j = port m j := rfl
@[simp] theorem port_setBank (m : Mod) (k j : Nat) (x : Bank) : port (setBank m k x) j = port m j := rfl
@[simp] theorem port_setEntropy (m : Mod) (k j : Nat) (x : Entropy) : port (setEntropy m k x) j = port m j := rfl
@[simp] theorem port_setCls (m : Mod) (k j : Nat) (x : Cls) : port (setCls m k x) j = port m j := rfl
@[simp] theorem port_setQueue (m : Mod) (k j : Nat) (x : Queue) : port (setQueue m k x) j = port m j := rfl
@[simp] theorem port_setNode (m : Mod) (k j : Nat) (x : Node) : port (setNode m k x) j = port m j := rfl
@[simp] theorem port_setArb (m : Mod) (k j : Nat) (x : Arb) : port (setArb m k x) j = port m j := rfl
@[simp] theorem port_setGate (m : Mod) (k j : Nat) (x : Gate) : port (setGate m k x) j = port m j := rfl
@[simp] theorem port_setObj (m : Mod) (idx sub elem j : Nat) (v : Val) : port (setObj m idx sub elem v) j = port m j := rfl
@[simp] theorem port_setNat (m : Mod) (idx sub elem n j : Nat) : port (setNat m idx sub elem n) j = port m j := rfl
@[simp] theorem port_emit (m : Mod) (o : Out) (j : Nat) : port (emit m o) j = port m j := rfl
@[simp] theorem port_draw (m : Mod) (src n j : Nat) : port (draw m src n).2 j = port m j := rfl
@[simp] theorem port_raise (m : Mod) (code src bpid : Nat) (params : Octets) (j : Nat) : port (raise m code src bpid params) j = port m j := rfl
@[simp] theorem lane_setPort (m : Mod) (k j : Nat) (x : Port) : lane (setPort m k x) j = lane m j := rfl
@[simp] theorem lane_setRx (m : Mod) (k j : Nat) (x : GelRx) : lane (setRx m k x) j = lane m j := rfl
@[simp] theorem lane_setTx (m : Mod) (k j : Nat) (x : GelTx) : lane (setTx m k x) j = lane m j := rfl
@[simp] theorem lane_setPm (m : Mod) (k j : Nat) (x : Pm) : lane (setPm m k x) j = lane m j := rfl
@[simp] theorem lane_setSess (m : Mod) (k j : Nat) (x : Sess) : lane (setSess m k x) j = lane m j := rfl
@[simp] theorem lane_setBerth (m : Mod) (k j : Nat) (x : Berth) : lane (setBerth m k x) j = lane m j := rfl
@[simp] theorem lane_setStow (m : Mod) (k j : Nat) (x : Stow) : lane (setStow m k x) j = lane m j := rfl
@[simp] theorem lane_setSource (m : Mod) (k j : Nat) (x : Source) : lane (setSource m k x) j = lane m j := rfl
@[simp] theorem lane_setKek (m : Mod) (k j : Nat) (x : Kek) : lane (setKek m k x) j = lane m j := rfl
@[simp] theorem lane_setAssoc (m : Mod) (k j : Nat) (x : Assoc) : lane (setAssoc m k x) j = lane m j := rfl
@[simp] theorem lane_setBank (m : Mod) (k j : Nat) (x : Bank) : lane (setBank m k x) j = lane m j := rfl
@[simp] theorem lane_setEntropy (m : Mod) (k j : Nat) (x : Entropy) : lane (setEntropy m k x) j = lane m j := rfl
@[simp] theorem lane_setCls (m : Mod) (k j : Nat) (x : Cls) : lane (setCls m k x) j = lane m j := rfl
@[simp] theorem lane_setQueue (m : Mod) (k j : Nat) (x : Queue) : lane (setQueue m k x) j = lane m j := rfl
@[simp] theorem lane_setNode (m : Mod) (k j : Nat) (x : Node) : lane (setNode m k x) j = lane m j := rfl
@[simp] theorem lane_setArb (m : Mod) (k j : Nat) (x : Arb) : lane (setArb m k x) j = lane m j := rfl
@[simp] theorem lane_setGate (m : Mod) (k j : Nat) (x : Gate) : lane (setGate m k x) j = lane m j := rfl
@[simp] theorem lane_setObj (m : Mod) (idx sub elem j : Nat) (v : Val) : lane (setObj m idx sub elem v) j = lane m j := rfl
@[simp] theorem lane_setNat (m : Mod) (idx sub elem n j : Nat) : lane (setNat m idx sub elem n) j = lane m j := rfl
@[simp] theorem lane_emit (m : Mod) (o : Out) (j : Nat) : lane (emit m o) j = lane m j := rfl
@[simp] theorem lane_draw (m : Mod) (src n j : Nat) : lane (draw m src n).2 j = lane m j := rfl
@[simp] theorem lane_raise (m : Mod) (code src bpid : Nat) (params : Octets) (j : Nat) : lane (raise m code src bpid params) j = lane m j := rfl
@[simp] theorem rxOf_setPort (m : Mod) (k j : Nat) (x : Port) : rxOf (setPort m k x) j = rxOf m j := rfl
@[simp] theorem rxOf_setLane (m : Mod) (k j : Nat) (x : Lane) : rxOf (setLane m k x) j = rxOf m j := rfl
@[simp] theorem rxOf_setTx (m : Mod) (k j : Nat) (x : GelTx) : rxOf (setTx m k x) j = rxOf m j := rfl
@[simp] theorem rxOf_setPm (m : Mod) (k j : Nat) (x : Pm) : rxOf (setPm m k x) j = rxOf m j := rfl
@[simp] theorem rxOf_setSess (m : Mod) (k j : Nat) (x : Sess) : rxOf (setSess m k x) j = rxOf m j := rfl
@[simp] theorem rxOf_setBerth (m : Mod) (k j : Nat) (x : Berth) : rxOf (setBerth m k x) j = rxOf m j := rfl
@[simp] theorem rxOf_setStow (m : Mod) (k j : Nat) (x : Stow) : rxOf (setStow m k x) j = rxOf m j := rfl
@[simp] theorem rxOf_setSource (m : Mod) (k j : Nat) (x : Source) : rxOf (setSource m k x) j = rxOf m j := rfl
@[simp] theorem rxOf_setKek (m : Mod) (k j : Nat) (x : Kek) : rxOf (setKek m k x) j = rxOf m j := rfl
@[simp] theorem rxOf_setAssoc (m : Mod) (k j : Nat) (x : Assoc) : rxOf (setAssoc m k x) j = rxOf m j := rfl
@[simp] theorem rxOf_setBank (m : Mod) (k j : Nat) (x : Bank) : rxOf (setBank m k x) j = rxOf m j := rfl
@[simp] theorem rxOf_setEntropy (m : Mod) (k j : Nat) (x : Entropy) : rxOf (setEntropy m k x) j = rxOf m j := rfl
@[simp] theorem rxOf_setCls (m : Mod) (k j : Nat) (x : Cls) : rxOf (setCls m k x) j = rxOf m j := rfl
@[simp] theorem rxOf_setQueue (m : Mod) (k j : Nat) (x : Queue) : rxOf (setQueue m k x) j = rxOf m j := rfl
@[simp] theorem rxOf_setNode (m : Mod) (k j : Nat) (x : Node) : rxOf (setNode m k x) j = rxOf m j := rfl
@[simp] theorem rxOf_setArb (m : Mod) (k j : Nat) (x : Arb) : rxOf (setArb m k x) j = rxOf m j := rfl
@[simp] theorem rxOf_setGate (m : Mod) (k j : Nat) (x : Gate) : rxOf (setGate m k x) j = rxOf m j := rfl
@[simp] theorem rxOf_setObj (m : Mod) (idx sub elem j : Nat) (v : Val) : rxOf (setObj m idx sub elem v) j = rxOf m j := rfl
@[simp] theorem rxOf_setNat (m : Mod) (idx sub elem n j : Nat) : rxOf (setNat m idx sub elem n) j = rxOf m j := rfl
@[simp] theorem rxOf_emit (m : Mod) (o : Out) (j : Nat) : rxOf (emit m o) j = rxOf m j := rfl
@[simp] theorem rxOf_draw (m : Mod) (src n j : Nat) : rxOf (draw m src n).2 j = rxOf m j := rfl
@[simp] theorem rxOf_raise (m : Mod) (code src bpid : Nat) (params : Octets) (j : Nat) : rxOf (raise m code src bpid params) j = rxOf m j := rfl
@[simp] theorem txOf_setPort (m : Mod) (k j : Nat) (x : Port) : txOf (setPort m k x) j = txOf m j := rfl
@[simp] theorem txOf_setLane (m : Mod) (k j : Nat) (x : Lane) : txOf (setLane m k x) j = txOf m j := rfl
@[simp] theorem txOf_setRx (m : Mod) (k j : Nat) (x : GelRx) : txOf (setRx m k x) j = txOf m j := rfl
@[simp] theorem txOf_setPm (m : Mod) (k j : Nat) (x : Pm) : txOf (setPm m k x) j = txOf m j := rfl
@[simp] theorem txOf_setSess (m : Mod) (k j : Nat) (x : Sess) : txOf (setSess m k x) j = txOf m j := rfl
@[simp] theorem txOf_setBerth (m : Mod) (k j : Nat) (x : Berth) : txOf (setBerth m k x) j = txOf m j := rfl
@[simp] theorem txOf_setStow (m : Mod) (k j : Nat) (x : Stow) : txOf (setStow m k x) j = txOf m j := rfl
@[simp] theorem txOf_setSource (m : Mod) (k j : Nat) (x : Source) : txOf (setSource m k x) j = txOf m j := rfl
@[simp] theorem txOf_setKek (m : Mod) (k j : Nat) (x : Kek) : txOf (setKek m k x) j = txOf m j := rfl
@[simp] theorem txOf_setAssoc (m : Mod) (k j : Nat) (x : Assoc) : txOf (setAssoc m k x) j = txOf m j := rfl
@[simp] theorem txOf_setBank (m : Mod) (k j : Nat) (x : Bank) : txOf (setBank m k x) j = txOf m j := rfl
@[simp] theorem txOf_setEntropy (m : Mod) (k j : Nat) (x : Entropy) : txOf (setEntropy m k x) j = txOf m j := rfl
@[simp] theorem txOf_setCls (m : Mod) (k j : Nat) (x : Cls) : txOf (setCls m k x) j = txOf m j := rfl
@[simp] theorem txOf_setQueue (m : Mod) (k j : Nat) (x : Queue) : txOf (setQueue m k x) j = txOf m j := rfl
@[simp] theorem txOf_setNode (m : Mod) (k j : Nat) (x : Node) : txOf (setNode m k x) j = txOf m j := rfl
@[simp] theorem txOf_setArb (m : Mod) (k j : Nat) (x : Arb) : txOf (setArb m k x) j = txOf m j := rfl
@[simp] theorem txOf_setGate (m : Mod) (k j : Nat) (x : Gate) : txOf (setGate m k x) j = txOf m j := rfl
@[simp] theorem txOf_setObj (m : Mod) (idx sub elem j : Nat) (v : Val) : txOf (setObj m idx sub elem v) j = txOf m j := rfl
@[simp] theorem txOf_setNat (m : Mod) (idx sub elem n j : Nat) : txOf (setNat m idx sub elem n) j = txOf m j := rfl
@[simp] theorem txOf_emit (m : Mod) (o : Out) (j : Nat) : txOf (emit m o) j = txOf m j := rfl
@[simp] theorem txOf_draw (m : Mod) (src n j : Nat) : txOf (draw m src n).2 j = txOf m j := rfl
@[simp] theorem txOf_raise (m : Mod) (code src bpid : Nat) (params : Octets) (j : Nat) : txOf (raise m code src bpid params) j = txOf m j := rfl
@[simp] theorem pmOf_setPort (m : Mod) (k j : Nat) (x : Port) : pmOf (setPort m k x) j = pmOf m j := rfl
@[simp] theorem pmOf_setLane (m : Mod) (k j : Nat) (x : Lane) : pmOf (setLane m k x) j = pmOf m j := rfl
@[simp] theorem pmOf_setRx (m : Mod) (k j : Nat) (x : GelRx) : pmOf (setRx m k x) j = pmOf m j := rfl
@[simp] theorem pmOf_setTx (m : Mod) (k j : Nat) (x : GelTx) : pmOf (setTx m k x) j = pmOf m j := rfl
@[simp] theorem pmOf_setSess (m : Mod) (k j : Nat) (x : Sess) : pmOf (setSess m k x) j = pmOf m j := rfl
@[simp] theorem pmOf_setBerth (m : Mod) (k j : Nat) (x : Berth) : pmOf (setBerth m k x) j = pmOf m j := rfl
@[simp] theorem pmOf_setStow (m : Mod) (k j : Nat) (x : Stow) : pmOf (setStow m k x) j = pmOf m j := rfl
@[simp] theorem pmOf_setSource (m : Mod) (k j : Nat) (x : Source) : pmOf (setSource m k x) j = pmOf m j := rfl
@[simp] theorem pmOf_setKek (m : Mod) (k j : Nat) (x : Kek) : pmOf (setKek m k x) j = pmOf m j := rfl
@[simp] theorem pmOf_setAssoc (m : Mod) (k j : Nat) (x : Assoc) : pmOf (setAssoc m k x) j = pmOf m j := rfl
@[simp] theorem pmOf_setBank (m : Mod) (k j : Nat) (x : Bank) : pmOf (setBank m k x) j = pmOf m j := rfl
@[simp] theorem pmOf_setEntropy (m : Mod) (k j : Nat) (x : Entropy) : pmOf (setEntropy m k x) j = pmOf m j := rfl
@[simp] theorem pmOf_setCls (m : Mod) (k j : Nat) (x : Cls) : pmOf (setCls m k x) j = pmOf m j := rfl
@[simp] theorem pmOf_setQueue (m : Mod) (k j : Nat) (x : Queue) : pmOf (setQueue m k x) j = pmOf m j := rfl
@[simp] theorem pmOf_setNode (m : Mod) (k j : Nat) (x : Node) : pmOf (setNode m k x) j = pmOf m j := rfl
@[simp] theorem pmOf_setArb (m : Mod) (k j : Nat) (x : Arb) : pmOf (setArb m k x) j = pmOf m j := rfl
@[simp] theorem pmOf_setGate (m : Mod) (k j : Nat) (x : Gate) : pmOf (setGate m k x) j = pmOf m j := rfl
@[simp] theorem pmOf_setObj (m : Mod) (idx sub elem j : Nat) (v : Val) : pmOf (setObj m idx sub elem v) j = pmOf m j := rfl
@[simp] theorem pmOf_setNat (m : Mod) (idx sub elem n j : Nat) : pmOf (setNat m idx sub elem n) j = pmOf m j := rfl
@[simp] theorem pmOf_emit (m : Mod) (o : Out) (j : Nat) : pmOf (emit m o) j = pmOf m j := rfl
@[simp] theorem pmOf_draw (m : Mod) (src n j : Nat) : pmOf (draw m src n).2 j = pmOf m j := rfl
@[simp] theorem pmOf_raise (m : Mod) (code src bpid : Nat) (params : Octets) (j : Nat) : pmOf (raise m code src bpid params) j = pmOf m j := rfl
@[simp] theorem sess_setPort (m : Mod) (k j : Nat) (x : Port) : sess (setPort m k x) j = sess m j := rfl
@[simp] theorem sess_setLane (m : Mod) (k j : Nat) (x : Lane) : sess (setLane m k x) j = sess m j := rfl
@[simp] theorem sess_setRx (m : Mod) (k j : Nat) (x : GelRx) : sess (setRx m k x) j = sess m j := rfl
@[simp] theorem sess_setTx (m : Mod) (k j : Nat) (x : GelTx) : sess (setTx m k x) j = sess m j := rfl
@[simp] theorem sess_setPm (m : Mod) (k j : Nat) (x : Pm) : sess (setPm m k x) j = sess m j := rfl
@[simp] theorem sess_setBerth (m : Mod) (k j : Nat) (x : Berth) : sess (setBerth m k x) j = sess m j := rfl
@[simp] theorem sess_setStow (m : Mod) (k j : Nat) (x : Stow) : sess (setStow m k x) j = sess m j := rfl
@[simp] theorem sess_setSource (m : Mod) (k j : Nat) (x : Source) : sess (setSource m k x) j = sess m j := rfl
@[simp] theorem sess_setKek (m : Mod) (k j : Nat) (x : Kek) : sess (setKek m k x) j = sess m j := rfl
@[simp] theorem sess_setAssoc (m : Mod) (k j : Nat) (x : Assoc) : sess (setAssoc m k x) j = sess m j := rfl
@[simp] theorem sess_setBank (m : Mod) (k j : Nat) (x : Bank) : sess (setBank m k x) j = sess m j := rfl
@[simp] theorem sess_setEntropy (m : Mod) (k j : Nat) (x : Entropy) : sess (setEntropy m k x) j = sess m j := rfl
@[simp] theorem sess_setCls (m : Mod) (k j : Nat) (x : Cls) : sess (setCls m k x) j = sess m j := rfl
@[simp] theorem sess_setQueue (m : Mod) (k j : Nat) (x : Queue) : sess (setQueue m k x) j = sess m j := rfl
@[simp] theorem sess_setNode (m : Mod) (k j : Nat) (x : Node) : sess (setNode m k x) j = sess m j := rfl
@[simp] theorem sess_setArb (m : Mod) (k j : Nat) (x : Arb) : sess (setArb m k x) j = sess m j := rfl
@[simp] theorem sess_setGate (m : Mod) (k j : Nat) (x : Gate) : sess (setGate m k x) j = sess m j := rfl
@[simp] theorem sess_setObj (m : Mod) (idx sub elem j : Nat) (v : Val) : sess (setObj m idx sub elem v) j = sess m j := rfl
@[simp] theorem sess_setNat (m : Mod) (idx sub elem n j : Nat) : sess (setNat m idx sub elem n) j = sess m j := rfl
@[simp] theorem sess_emit (m : Mod) (o : Out) (j : Nat) : sess (emit m o) j = sess m j := rfl
@[simp] theorem sess_draw (m : Mod) (src n j : Nat) : sess (draw m src n).2 j = sess m j := rfl
@[simp] theorem sess_raise (m : Mod) (code src bpid : Nat) (params : Octets) (j : Nat) : sess (raise m code src bpid params) j = sess m j := rfl
@[simp] theorem berth_setPort (m : Mod) (k j : Nat) (x : Port) : berth (setPort m k x) j = berth m j := rfl
@[simp] theorem berth_setLane (m : Mod) (k j : Nat) (x : Lane) : berth (setLane m k x) j = berth m j := rfl
@[simp] theorem berth_setRx (m : Mod) (k j : Nat) (x : GelRx) : berth (setRx m k x) j = berth m j := rfl
@[simp] theorem berth_setTx (m : Mod) (k j : Nat) (x : GelTx) : berth (setTx m k x) j = berth m j := rfl
@[simp] theorem berth_setPm (m : Mod) (k j : Nat) (x : Pm) : berth (setPm m k x) j = berth m j := rfl
@[simp] theorem berth_setSess (m : Mod) (k j : Nat) (x : Sess) : berth (setSess m k x) j = berth m j := rfl
@[simp] theorem berth_setStow (m : Mod) (k j : Nat) (x : Stow) : berth (setStow m k x) j = berth m j := rfl
@[simp] theorem berth_setSource (m : Mod) (k j : Nat) (x : Source) : berth (setSource m k x) j = berth m j := rfl
@[simp] theorem berth_setKek (m : Mod) (k j : Nat) (x : Kek) : berth (setKek m k x) j = berth m j := rfl
@[simp] theorem berth_setAssoc (m : Mod) (k j : Nat) (x : Assoc) : berth (setAssoc m k x) j = berth m j := rfl
@[simp] theorem berth_setBank (m : Mod) (k j : Nat) (x : Bank) : berth (setBank m k x) j = berth m j := rfl
@[simp] theorem berth_setEntropy (m : Mod) (k j : Nat) (x : Entropy) : berth (setEntropy m k x) j = berth m j := rfl
@[simp] theorem berth_setCls (m : Mod) (k j : Nat) (x : Cls) : berth (setCls m k x) j = berth m j := rfl
@[simp] theorem berth_setQueue (m : Mod) (k j : Nat) (x : Queue) : berth (setQueue m k x) j = berth m j := rfl
@[simp] theorem berth_setNode (m : Mod) (k j : Nat) (x : Node) : berth (setNode m k x) j = berth m j := rfl
@[simp] theorem berth_setArb (m : Mod) (k j : Nat) (x : Arb) : berth (setArb m k x) j = berth m j := rfl
@[simp] theorem berth_setGate (m : Mod) (k j : Nat) (x : Gate) : berth (setGate m k x) j = berth m j := rfl
@[simp] theorem berth_setObj (m : Mod) (idx sub elem j : Nat) (v : Val) : berth (setObj m idx sub elem v) j = berth m j := rfl
@[simp] theorem berth_setNat (m : Mod) (idx sub elem n j : Nat) : berth (setNat m idx sub elem n) j = berth m j := rfl
@[simp] theorem berth_emit (m : Mod) (o : Out) (j : Nat) : berth (emit m o) j = berth m j := rfl
@[simp] theorem berth_draw (m : Mod) (src n j : Nat) : berth (draw m src n).2 j = berth m j := rfl
@[simp] theorem berth_raise (m : Mod) (code src bpid : Nat) (params : Octets) (j : Nat) : berth (raise m code src bpid params) j = berth m j := rfl
@[simp] theorem stow_setPort (m : Mod) (k j : Nat) (x : Port) : stow (setPort m k x) j = stow m j := rfl
@[simp] theorem stow_setLane (m : Mod) (k j : Nat) (x : Lane) : stow (setLane m k x) j = stow m j := rfl
@[simp] theorem stow_setRx (m : Mod) (k j : Nat) (x : GelRx) : stow (setRx m k x) j = stow m j := rfl
@[simp] theorem stow_setTx (m : Mod) (k j : Nat) (x : GelTx) : stow (setTx m k x) j = stow m j := rfl
@[simp] theorem stow_setPm (m : Mod) (k j : Nat) (x : Pm) : stow (setPm m k x) j = stow m j := rfl
@[simp] theorem stow_setSess (m : Mod) (k j : Nat) (x : Sess) : stow (setSess m k x) j = stow m j := rfl
@[simp] theorem stow_setBerth (m : Mod) (k j : Nat) (x : Berth) : stow (setBerth m k x) j = stow m j := rfl
@[simp] theorem stow_setSource (m : Mod) (k j : Nat) (x : Source) : stow (setSource m k x) j = stow m j := rfl
@[simp] theorem stow_setKek (m : Mod) (k j : Nat) (x : Kek) : stow (setKek m k x) j = stow m j := rfl
@[simp] theorem stow_setAssoc (m : Mod) (k j : Nat) (x : Assoc) : stow (setAssoc m k x) j = stow m j := rfl
@[simp] theorem stow_setBank (m : Mod) (k j : Nat) (x : Bank) : stow (setBank m k x) j = stow m j := rfl
@[simp] theorem stow_setEntropy (m : Mod) (k j : Nat) (x : Entropy) : stow (setEntropy m k x) j = stow m j := rfl
@[simp] theorem stow_setCls (m : Mod) (k j : Nat) (x : Cls) : stow (setCls m k x) j = stow m j := rfl
@[simp] theorem stow_setQueue (m : Mod) (k j : Nat) (x : Queue) : stow (setQueue m k x) j = stow m j := rfl
@[simp] theorem stow_setNode (m : Mod) (k j : Nat) (x : Node) : stow (setNode m k x) j = stow m j := rfl
@[simp] theorem stow_setArb (m : Mod) (k j : Nat) (x : Arb) : stow (setArb m k x) j = stow m j := rfl
@[simp] theorem stow_setGate (m : Mod) (k j : Nat) (x : Gate) : stow (setGate m k x) j = stow m j := rfl
@[simp] theorem stow_setObj (m : Mod) (idx sub elem j : Nat) (v : Val) : stow (setObj m idx sub elem v) j = stow m j := rfl
@[simp] theorem stow_setNat (m : Mod) (idx sub elem n j : Nat) : stow (setNat m idx sub elem n) j = stow m j := rfl
@[simp] theorem stow_emit (m : Mod) (o : Out) (j : Nat) : stow (emit m o) j = stow m j := rfl
@[simp] theorem stow_draw (m : Mod) (src n j : Nat) : stow (draw m src n).2 j = stow m j := rfl
@[simp] theorem stow_raise (m : Mod) (code src bpid : Nat) (params : Octets) (j : Nat) : stow (raise m code src bpid params) j = stow m j := rfl
@[simp] theorem source_setPort (m : Mod) (k j : Nat) (x : Port) : source (setPort m k x) j = source m j := rfl
@[simp] theorem source_setLane (m : Mod) (k j : Nat) (x : Lane) : source (setLane m k x) j = source m j := rfl
@[simp] theorem source_setRx (m : Mod) (k j : Nat) (x : GelRx) : source (setRx m k x) j = source m j := rfl
@[simp] theorem source_setTx (m : Mod) (k j : Nat) (x : GelTx) : source (setTx m k x) j = source m j := rfl
@[simp] theorem source_setPm (m : Mod) (k j : Nat) (x : Pm) : source (setPm m k x) j = source m j := rfl
@[simp] theorem source_setSess (m : Mod) (k j : Nat) (x : Sess) : source (setSess m k x) j = source m j := rfl
@[simp] theorem source_setBerth (m : Mod) (k j : Nat) (x : Berth) : source (setBerth m k x) j = source m j := rfl
@[simp] theorem source_setStow (m : Mod) (k j : Nat) (x : Stow) : source (setStow m k x) j = source m j := rfl
@[simp] theorem source_setKek (m : Mod) (k j : Nat) (x : Kek) : source (setKek m k x) j = source m j := rfl
@[simp] theorem source_setAssoc (m : Mod) (k j : Nat) (x : Assoc) : source (setAssoc m k x) j = source m j := rfl
@[simp] theorem source_setBank (m : Mod) (k j : Nat) (x : Bank) : source (setBank m k x) j = source m j := rfl
@[simp] theorem source_setEntropy (m : Mod) (k j : Nat) (x : Entropy) : source (setEntropy m k x) j = source m j := rfl
@[simp] theorem source_setCls (m : Mod) (k j : Nat) (x : Cls) : source (setCls m k x) j = source m j := rfl
@[simp] theorem source_setQueue (m : Mod) (k j : Nat) (x : Queue) : source (setQueue m k x) j = source m j := rfl
@[simp] theorem source_setNode (m : Mod) (k j : Nat) (x : Node) : source (setNode m k x) j = source m j := rfl
@[simp] theorem source_setArb (m : Mod) (k j : Nat) (x : Arb) : source (setArb m k x) j = source m j := rfl
@[simp] theorem source_setGate (m : Mod) (k j : Nat) (x : Gate) : source (setGate m k x) j = source m j := rfl
@[simp] theorem source_setObj (m : Mod) (idx sub elem j : Nat) (v : Val) : source (setObj m idx sub elem v) j = source m j := rfl
@[simp] theorem source_setNat (m : Mod) (idx sub elem n j : Nat) : source (setNat m idx sub elem n) j = source m j := rfl
@[simp] theorem source_emit (m : Mod) (o : Out) (j : Nat) : source (emit m o) j = source m j := rfl
@[simp] theorem source_draw (m : Mod) (src n j : Nat) : source (draw m src n).2 j = source m j := rfl
@[simp] theorem source_raise (m : Mod) (code src bpid : Nat) (params : Octets) (j : Nat) : source (raise m code src bpid params) j = source m j := rfl
@[simp] theorem kek_setPort (m : Mod) (k j : Nat) (x : Port) : kek (setPort m k x) j = kek m j := rfl
@[simp] theorem kek_setLane (m : Mod) (k j : Nat) (x : Lane) : kek (setLane m k x) j = kek m j := rfl
@[simp] theorem kek_setRx (m : Mod) (k j : Nat) (x : GelRx) : kek (setRx m k x) j = kek m j := rfl
@[simp] theorem kek_setTx (m : Mod) (k j : Nat) (x : GelTx) : kek (setTx m k x) j = kek m j := rfl
@[simp] theorem kek_setPm (m : Mod) (k j : Nat) (x : Pm) : kek (setPm m k x) j = kek m j := rfl
@[simp] theorem kek_setSess (m : Mod) (k j : Nat) (x : Sess) : kek (setSess m k x) j = kek m j := rfl
@[simp] theorem kek_setBerth (m : Mod) (k j : Nat) (x : Berth) : kek (setBerth m k x) j = kek m j := rfl
@[simp] theorem kek_setStow (m : Mod) (k j : Nat) (x : Stow) : kek (setStow m k x) j = kek m j := rfl
@[simp] theorem kek_setSource (m : Mod) (k j : Nat) (x : Source) : kek (setSource m k x) j = kek m j := rfl
@[simp] theorem kek_setAssoc (m : Mod) (k j : Nat) (x : Assoc) : kek (setAssoc m k x) j = kek m j := rfl
@[simp] theorem kek_setBank (m : Mod) (k j : Nat) (x : Bank) : kek (setBank m k x) j = kek m j := rfl
@[simp] theorem kek_setEntropy (m : Mod) (k j : Nat) (x : Entropy) : kek (setEntropy m k x) j = kek m j := rfl
@[simp] theorem kek_setCls (m : Mod) (k j : Nat) (x : Cls) : kek (setCls m k x) j = kek m j := rfl
@[simp] theorem kek_setQueue (m : Mod) (k j : Nat) (x : Queue) : kek (setQueue m k x) j = kek m j := rfl
@[simp] theorem kek_setNode (m : Mod) (k j : Nat) (x : Node) : kek (setNode m k x) j = kek m j := rfl
@[simp] theorem kek_setArb (m : Mod) (k j : Nat) (x : Arb) : kek (setArb m k x) j = kek m j := rfl
@[simp] theorem kek_setGate (m : Mod) (k j : Nat) (x : Gate) : kek (setGate m k x) j = kek m j := rfl
@[simp] theorem kek_setObj (m : Mod) (idx sub elem j : Nat) (v : Val) : kek (setObj m idx sub elem v) j = kek m j := rfl
@[simp] theorem kek_setNat (m : Mod) (idx sub elem n j : Nat) : kek (setNat m idx sub elem n) j = kek m j := rfl
@[simp] theorem kek_emit (m : Mod) (o : Out) (j : Nat) : kek (emit m o) j = kek m j := rfl
@[simp] theorem kek_draw (m : Mod) (src n j : Nat) : kek (draw m src n).2 j = kek m j := rfl
@[simp] theorem kek_raise (m : Mod) (code src bpid : Nat) (params : Octets) (j : Nat) : kek (raise m code src bpid params) j = kek m j := rfl
@[simp] theorem assoc_setPort (m : Mod) (k j : Nat) (x : Port) : assoc (setPort m k x) j = assoc m j := rfl
@[simp] theorem assoc_setLane (m : Mod) (k j : Nat) (x : Lane) : assoc (setLane m k x) j = assoc m j := rfl
@[simp] theorem assoc_setRx (m : Mod) (k j : Nat) (x : GelRx) : assoc (setRx m k x) j = assoc m j := rfl
@[simp] theorem assoc_setTx (m : Mod) (k j : Nat) (x : GelTx) : assoc (setTx m k x) j = assoc m j := rfl
@[simp] theorem assoc_setPm (m : Mod) (k j : Nat) (x : Pm) : assoc (setPm m k x) j = assoc m j := rfl
@[simp] theorem assoc_setSess (m : Mod) (k j : Nat) (x : Sess) : assoc (setSess m k x) j = assoc m j := rfl
@[simp] theorem assoc_setBerth (m : Mod) (k j : Nat) (x : Berth) : assoc (setBerth m k x) j = assoc m j := rfl
@[simp] theorem assoc_setStow (m : Mod) (k j : Nat) (x : Stow) : assoc (setStow m k x) j = assoc m j := rfl
@[simp] theorem assoc_setSource (m : Mod) (k j : Nat) (x : Source) : assoc (setSource m k x) j = assoc m j := rfl
@[simp] theorem assoc_setKek (m : Mod) (k j : Nat) (x : Kek) : assoc (setKek m k x) j = assoc m j := rfl
@[simp] theorem assoc_setBank (m : Mod) (k j : Nat) (x : Bank) : assoc (setBank m k x) j = assoc m j := rfl
@[simp] theorem assoc_setEntropy (m : Mod) (k j : Nat) (x : Entropy) : assoc (setEntropy m k x) j = assoc m j := rfl
@[simp] theorem assoc_setCls (m : Mod) (k j : Nat) (x : Cls) : assoc (setCls m k x) j = assoc m j := rfl
@[simp] theorem assoc_setQueue (m : Mod) (k j : Nat) (x : Queue) : assoc (setQueue m k x) j = assoc m j := rfl
@[simp] theorem assoc_setNode (m : Mod) (k j : Nat) (x : Node) : assoc (setNode m k x) j = assoc m j := rfl
@[simp] theorem assoc_setArb (m : Mod) (k j : Nat) (x : Arb) : assoc (setArb m k x) j = assoc m j := rfl
@[simp] theorem assoc_setGate (m : Mod) (k j : Nat) (x : Gate) : assoc (setGate m k x) j = assoc m j := rfl
@[simp] theorem assoc_setObj (m : Mod) (idx sub elem j : Nat) (v : Val) : assoc (setObj m idx sub elem v) j = assoc m j := rfl
@[simp] theorem assoc_setNat (m : Mod) (idx sub elem n j : Nat) : assoc (setNat m idx sub elem n) j = assoc m j := rfl
@[simp] theorem assoc_emit (m : Mod) (o : Out) (j : Nat) : assoc (emit m o) j = assoc m j := rfl
@[simp] theorem assoc_draw (m : Mod) (src n j : Nat) : assoc (draw m src n).2 j = assoc m j := rfl
@[simp] theorem assoc_raise (m : Mod) (code src bpid : Nat) (params : Octets) (j : Nat) : assoc (raise m code src bpid params) j = assoc m j := rfl
@[simp] theorem bank_setPort (m : Mod) (k j : Nat) (x : Port) : bank (setPort m k x) j = bank m j := rfl
@[simp] theorem bank_setLane (m : Mod) (k j : Nat) (x : Lane) : bank (setLane m k x) j = bank m j := rfl
@[simp] theorem bank_setRx (m : Mod) (k j : Nat) (x : GelRx) : bank (setRx m k x) j = bank m j := rfl
@[simp] theorem bank_setTx (m : Mod) (k j : Nat) (x : GelTx) : bank (setTx m k x) j = bank m j := rfl
@[simp] theorem bank_setPm (m : Mod) (k j : Nat) (x : Pm) : bank (setPm m k x) j = bank m j := rfl
@[simp] theorem bank_setSess (m : Mod) (k j : Nat) (x : Sess) : bank (setSess m k x) j = bank m j := rfl
@[simp] theorem bank_setBerth (m : Mod) (k j : Nat) (x : Berth) : bank (setBerth m k x) j = bank m j := rfl
@[simp] theorem bank_setStow (m : Mod) (k j : Nat) (x : Stow) : bank (setStow m k x) j = bank m j := rfl
@[simp] theorem bank_setSource (m : Mod) (k j : Nat) (x : Source) : bank (setSource m k x) j = bank m j := rfl
@[simp] theorem bank_setKek (m : Mod) (k j : Nat) (x : Kek) : bank (setKek m k x) j = bank m j := rfl
@[simp] theorem bank_setAssoc (m : Mod) (k j : Nat) (x : Assoc) : bank (setAssoc m k x) j = bank m j := rfl
@[simp] theorem bank_setEntropy (m : Mod) (k j : Nat) (x : Entropy) : bank (setEntropy m k x) j = bank m j := rfl
@[simp] theorem bank_setCls (m : Mod) (k j : Nat) (x : Cls) : bank (setCls m k x) j = bank m j := rfl
@[simp] theorem bank_setQueue (m : Mod) (k j : Nat) (x : Queue) : bank (setQueue m k x) j = bank m j := rfl
@[simp] theorem bank_setNode (m : Mod) (k j : Nat) (x : Node) : bank (setNode m k x) j = bank m j := rfl
@[simp] theorem bank_setArb (m : Mod) (k j : Nat) (x : Arb) : bank (setArb m k x) j = bank m j := rfl
@[simp] theorem bank_setGate (m : Mod) (k j : Nat) (x : Gate) : bank (setGate m k x) j = bank m j := rfl
@[simp] theorem bank_setObj (m : Mod) (idx sub elem j : Nat) (v : Val) : bank (setObj m idx sub elem v) j = bank m j := rfl
@[simp] theorem bank_setNat (m : Mod) (idx sub elem n j : Nat) : bank (setNat m idx sub elem n) j = bank m j := rfl
@[simp] theorem bank_emit (m : Mod) (o : Out) (j : Nat) : bank (emit m o) j = bank m j := rfl
@[simp] theorem bank_draw (m : Mod) (src n j : Nat) : bank (draw m src n).2 j = bank m j := rfl
@[simp] theorem bank_raise (m : Mod) (code src bpid : Nat) (params : Octets) (j : Nat) : bank (raise m code src bpid params) j = bank m j := rfl
@[simp] theorem entropyOf_setPort (m : Mod) (k j : Nat) (x : Port) : entropyOf (setPort m k x) j = entropyOf m j := rfl
@[simp] theorem entropyOf_setLane (m : Mod) (k j : Nat) (x : Lane) : entropyOf (setLane m k x) j = entropyOf m j := rfl
@[simp] theorem entropyOf_setRx (m : Mod) (k j : Nat) (x : GelRx) : entropyOf (setRx m k x) j = entropyOf m j := rfl
@[simp] theorem entropyOf_setTx (m : Mod) (k j : Nat) (x : GelTx) : entropyOf (setTx m k x) j = entropyOf m j := rfl
@[simp] theorem entropyOf_setPm (m : Mod) (k j : Nat) (x : Pm) : entropyOf (setPm m k x) j = entropyOf m j := rfl
@[simp] theorem entropyOf_setSess (m : Mod) (k j : Nat) (x : Sess) : entropyOf (setSess m k x) j = entropyOf m j := rfl
@[simp] theorem entropyOf_setBerth (m : Mod) (k j : Nat) (x : Berth) : entropyOf (setBerth m k x) j = entropyOf m j := rfl
@[simp] theorem entropyOf_setStow (m : Mod) (k j : Nat) (x : Stow) : entropyOf (setStow m k x) j = entropyOf m j := rfl
@[simp] theorem entropyOf_setSource (m : Mod) (k j : Nat) (x : Source) : entropyOf (setSource m k x) j = entropyOf m j := rfl
@[simp] theorem entropyOf_setKek (m : Mod) (k j : Nat) (x : Kek) : entropyOf (setKek m k x) j = entropyOf m j := rfl
@[simp] theorem entropyOf_setAssoc (m : Mod) (k j : Nat) (x : Assoc) : entropyOf (setAssoc m k x) j = entropyOf m j := rfl
@[simp] theorem entropyOf_setBank (m : Mod) (k j : Nat) (x : Bank) : entropyOf (setBank m k x) j = entropyOf m j := rfl
@[simp] theorem entropyOf_setCls (m : Mod) (k j : Nat) (x : Cls) : entropyOf (setCls m k x) j = entropyOf m j := rfl
@[simp] theorem entropyOf_setQueue (m : Mod) (k j : Nat) (x : Queue) : entropyOf (setQueue m k x) j = entropyOf m j := rfl
@[simp] theorem entropyOf_setNode (m : Mod) (k j : Nat) (x : Node) : entropyOf (setNode m k x) j = entropyOf m j := rfl
@[simp] theorem entropyOf_setArb (m : Mod) (k j : Nat) (x : Arb) : entropyOf (setArb m k x) j = entropyOf m j := rfl
@[simp] theorem entropyOf_setGate (m : Mod) (k j : Nat) (x : Gate) : entropyOf (setGate m k x) j = entropyOf m j := rfl
@[simp] theorem entropyOf_setObj (m : Mod) (idx sub elem j : Nat) (v : Val) : entropyOf (setObj m idx sub elem v) j = entropyOf m j := rfl
@[simp] theorem entropyOf_setNat (m : Mod) (idx sub elem n j : Nat) : entropyOf (setNat m idx sub elem n) j = entropyOf m j := rfl
@[simp] theorem entropyOf_emit (m : Mod) (o : Out) (j : Nat) : entropyOf (emit m o) j = entropyOf m j := rfl
@[simp] theorem entropyOf_draw (m : Mod) (src n j : Nat) : entropyOf (draw m src n).2 j = entropyOf m j := rfl
@[simp] theorem entropyOf_raise (m : Mod) (code src bpid : Nat) (params : Octets) (j : Nat) : entropyOf (raise m code src bpid params) j = entropyOf m j := rfl
@[simp] theorem clsOf_setPort (m : Mod) (k j : Nat) (x : Port) : clsOf (setPort m k x) j = clsOf m j := rfl
@[simp] theorem clsOf_setLane (m : Mod) (k j : Nat) (x : Lane) : clsOf (setLane m k x) j = clsOf m j := rfl
@[simp] theorem clsOf_setRx (m : Mod) (k j : Nat) (x : GelRx) : clsOf (setRx m k x) j = clsOf m j := rfl
@[simp] theorem clsOf_setTx (m : Mod) (k j : Nat) (x : GelTx) : clsOf (setTx m k x) j = clsOf m j := rfl
@[simp] theorem clsOf_setPm (m : Mod) (k j : Nat) (x : Pm) : clsOf (setPm m k x) j = clsOf m j := rfl
@[simp] theorem clsOf_setSess (m : Mod) (k j : Nat) (x : Sess) : clsOf (setSess m k x) j = clsOf m j := rfl
@[simp] theorem clsOf_setBerth (m : Mod) (k j : Nat) (x : Berth) : clsOf (setBerth m k x) j = clsOf m j := rfl
@[simp] theorem clsOf_setStow (m : Mod) (k j : Nat) (x : Stow) : clsOf (setStow m k x) j = clsOf m j := rfl
@[simp] theorem clsOf_setSource (m : Mod) (k j : Nat) (x : Source) : clsOf (setSource m k x) j = clsOf m j := rfl
@[simp] theorem clsOf_setKek (m : Mod) (k j : Nat) (x : Kek) : clsOf (setKek m k x) j = clsOf m j := rfl
@[simp] theorem clsOf_setAssoc (m : Mod) (k j : Nat) (x : Assoc) : clsOf (setAssoc m k x) j = clsOf m j := rfl
@[simp] theorem clsOf_setBank (m : Mod) (k j : Nat) (x : Bank) : clsOf (setBank m k x) j = clsOf m j := rfl
@[simp] theorem clsOf_setEntropy (m : Mod) (k j : Nat) (x : Entropy) : clsOf (setEntropy m k x) j = clsOf m j := rfl
@[simp] theorem clsOf_setQueue (m : Mod) (k j : Nat) (x : Queue) : clsOf (setQueue m k x) j = clsOf m j := rfl
@[simp] theorem clsOf_setNode (m : Mod) (k j : Nat) (x : Node) : clsOf (setNode m k x) j = clsOf m j := rfl
@[simp] theorem clsOf_setArb (m : Mod) (k j : Nat) (x : Arb) : clsOf (setArb m k x) j = clsOf m j := rfl
@[simp] theorem clsOf_setGate (m : Mod) (k j : Nat) (x : Gate) : clsOf (setGate m k x) j = clsOf m j := rfl
@[simp] theorem clsOf_setObj (m : Mod) (idx sub elem j : Nat) (v : Val) : clsOf (setObj m idx sub elem v) j = clsOf m j := rfl
@[simp] theorem clsOf_setNat (m : Mod) (idx sub elem n j : Nat) : clsOf (setNat m idx sub elem n) j = clsOf m j := rfl
@[simp] theorem clsOf_emit (m : Mod) (o : Out) (j : Nat) : clsOf (emit m o) j = clsOf m j := rfl
@[simp] theorem clsOf_draw (m : Mod) (src n j : Nat) : clsOf (draw m src n).2 j = clsOf m j := rfl
@[simp] theorem clsOf_raise (m : Mod) (code src bpid : Nat) (params : Octets) (j : Nat) : clsOf (raise m code src bpid params) j = clsOf m j := rfl
@[simp] theorem queue_setPort (m : Mod) (k j : Nat) (x : Port) : queue (setPort m k x) j = queue m j := rfl
@[simp] theorem queue_setLane (m : Mod) (k j : Nat) (x : Lane) : queue (setLane m k x) j = queue m j := rfl
@[simp] theorem queue_setRx (m : Mod) (k j : Nat) (x : GelRx) : queue (setRx m k x) j = queue m j := rfl
@[simp] theorem queue_setTx (m : Mod) (k j : Nat) (x : GelTx) : queue (setTx m k x) j = queue m j := rfl
@[simp] theorem queue_setPm (m : Mod) (k j : Nat) (x : Pm) : queue (setPm m k x) j = queue m j := rfl
@[simp] theorem queue_setSess (m : Mod) (k j : Nat) (x : Sess) : queue (setSess m k x) j = queue m j := rfl
@[simp] theorem queue_setBerth (m : Mod) (k j : Nat) (x : Berth) : queue (setBerth m k x) j = queue m j := rfl
@[simp] theorem queue_setStow (m : Mod) (k j : Nat) (x : Stow) : queue (setStow m k x) j = queue m j := rfl
@[simp] theorem queue_setSource (m : Mod) (k j : Nat) (x : Source) : queue (setSource m k x) j = queue m j := rfl
@[simp] theorem queue_setKek (m : Mod) (k j : Nat) (x : Kek) : queue (setKek m k x) j = queue m j := rfl
@[simp] theorem queue_setAssoc (m : Mod) (k j : Nat) (x : Assoc) : queue (setAssoc m k x) j = queue m j := rfl
@[simp] theorem queue_setBank (m : Mod) (k j : Nat) (x : Bank) : queue (setBank m k x) j = queue m j := rfl
@[simp] theorem queue_setEntropy (m : Mod) (k j : Nat) (x : Entropy) : queue (setEntropy m k x) j = queue m j := rfl
@[simp] theorem queue_setCls (m : Mod) (k j : Nat) (x : Cls) : queue (setCls m k x) j = queue m j := rfl
@[simp] theorem queue_setNode (m : Mod) (k j : Nat) (x : Node) : queue (setNode m k x) j = queue m j := rfl
@[simp] theorem queue_setArb (m : Mod) (k j : Nat) (x : Arb) : queue (setArb m k x) j = queue m j := rfl
@[simp] theorem queue_setGate (m : Mod) (k j : Nat) (x : Gate) : queue (setGate m k x) j = queue m j := rfl
@[simp] theorem queue_setObj (m : Mod) (idx sub elem j : Nat) (v : Val) : queue (setObj m idx sub elem v) j = queue m j := rfl
@[simp] theorem queue_setNat (m : Mod) (idx sub elem n j : Nat) : queue (setNat m idx sub elem n) j = queue m j := rfl
@[simp] theorem queue_emit (m : Mod) (o : Out) (j : Nat) : queue (emit m o) j = queue m j := rfl
@[simp] theorem queue_draw (m : Mod) (src n j : Nat) : queue (draw m src n).2 j = queue m j := rfl
@[simp] theorem queue_raise (m : Mod) (code src bpid : Nat) (params : Octets) (j : Nat) : queue (raise m code src bpid params) j = queue m j := rfl
@[simp] theorem node_setPort (m : Mod) (k j : Nat) (x : Port) : node (setPort m k x) j = node m j := rfl
@[simp] theorem node_setLane (m : Mod) (k j : Nat) (x : Lane) : node (setLane m k x) j = node m j := rfl
@[simp] theorem node_setRx (m : Mod) (k j : Nat) (x : GelRx) : node (setRx m k x) j = node m j := rfl
@[simp] theorem node_setTx (m : Mod) (k j : Nat) (x : GelTx) : node (setTx m k x) j = node m j := rfl
@[simp] theorem node_setPm (m : Mod) (k j : Nat) (x : Pm) : node (setPm m k x) j = node m j := rfl
@[simp] theorem node_setSess (m : Mod) (k j : Nat) (x : Sess) : node (setSess m k x) j = node m j := rfl
@[simp] theorem node_setBerth (m : Mod) (k j : Nat) (x : Berth) : node (setBerth m k x) j = node m j := rfl
@[simp] theorem node_setStow (m : Mod) (k j : Nat) (x : Stow) : node (setStow m k x) j = node m j := rfl
@[simp] theorem node_setSource (m : Mod) (k j : Nat) (x : Source) : node (setSource m k x) j = node m j := rfl
@[simp] theorem node_setKek (m : Mod) (k j : Nat) (x : Kek) : node (setKek m k x) j = node m j := rfl
@[simp] theorem node_setAssoc (m : Mod) (k j : Nat) (x : Assoc) : node (setAssoc m k x) j = node m j := rfl
@[simp] theorem node_setBank (m : Mod) (k j : Nat) (x : Bank) : node (setBank m k x) j = node m j := rfl
@[simp] theorem node_setEntropy (m : Mod) (k j : Nat) (x : Entropy) : node (setEntropy m k x) j = node m j := rfl
@[simp] theorem node_setCls (m : Mod) (k j : Nat) (x : Cls) : node (setCls m k x) j = node m j := rfl
@[simp] theorem node_setQueue (m : Mod) (k j : Nat) (x : Queue) : node (setQueue m k x) j = node m j := rfl
@[simp] theorem node_setArb (m : Mod) (k j : Nat) (x : Arb) : node (setArb m k x) j = node m j := rfl
@[simp] theorem node_setGate (m : Mod) (k j : Nat) (x : Gate) : node (setGate m k x) j = node m j := rfl
@[simp] theorem node_setObj (m : Mod) (idx sub elem j : Nat) (v : Val) : node (setObj m idx sub elem v) j = node m j := rfl
@[simp] theorem node_setNat (m : Mod) (idx sub elem n j : Nat) : node (setNat m idx sub elem n) j = node m j := rfl
@[simp] theorem node_emit (m : Mod) (o : Out) (j : Nat) : node (emit m o) j = node m j := rfl
@[simp] theorem node_draw (m : Mod) (src n j : Nat) : node (draw m src n).2 j = node m j := rfl
@[simp] theorem node_raise (m : Mod) (code src bpid : Nat) (params : Octets) (j : Nat) : node (raise m code src bpid params) j = node m j := rfl
@[simp] theorem arb_setPort (m : Mod) (k j : Nat) (x : Port) : arb (setPort m k x) j = arb m j := rfl
@[simp] theorem arb_setLane (m : Mod) (k j : Nat) (x : Lane) : arb (setLane m k x) j = arb m j := rfl
@[simp] theorem arb_setRx (m : Mod) (k j : Nat) (x : GelRx) : arb (setRx m k x) j = arb m j := rfl
@[simp] theorem arb_setTx (m : Mod) (k j : Nat) (x : GelTx) : arb (setTx m k x) j = arb m j := rfl
@[simp] theorem arb_setPm (m : Mod) (k j : Nat) (x : Pm) : arb (setPm m k x) j = arb m j := rfl
@[simp] theorem arb_setSess (m : Mod) (k j : Nat) (x : Sess) : arb (setSess m k x) j = arb m j := rfl
@[simp] theorem arb_setBerth (m : Mod) (k j : Nat) (x : Berth) : arb (setBerth m k x) j = arb m j := rfl
@[simp] theorem arb_setStow (m : Mod) (k j : Nat) (x : Stow) : arb (setStow m k x) j = arb m j := rfl
@[simp] theorem arb_setSource (m : Mod) (k j : Nat) (x : Source) : arb (setSource m k x) j = arb m j := rfl
@[simp] theorem arb_setKek (m : Mod) (k j : Nat) (x : Kek) : arb (setKek m k x) j = arb m j := rfl
@[simp] theorem arb_setAssoc (m : Mod) (k j : Nat) (x : Assoc) : arb (setAssoc m k x) j = arb m j := rfl
@[simp] theorem arb_setBank (m : Mod) (k j : Nat) (x : Bank) : arb (setBank m k x) j = arb m j := rfl
@[simp] theorem arb_setEntropy (m : Mod) (k j : Nat) (x : Entropy) : arb (setEntropy m k x) j = arb m j := rfl
@[simp] theorem arb_setCls (m : Mod) (k j : Nat) (x : Cls) : arb (setCls m k x) j = arb m j := rfl
@[simp] theorem arb_setQueue (m : Mod) (k j : Nat) (x : Queue) : arb (setQueue m k x) j = arb m j := rfl
@[simp] theorem arb_setNode (m : Mod) (k j : Nat) (x : Node) : arb (setNode m k x) j = arb m j := rfl
@[simp] theorem arb_setGate (m : Mod) (k j : Nat) (x : Gate) : arb (setGate m k x) j = arb m j := rfl
@[simp] theorem arb_setObj (m : Mod) (idx sub elem j : Nat) (v : Val) : arb (setObj m idx sub elem v) j = arb m j := rfl
@[simp] theorem arb_setNat (m : Mod) (idx sub elem n j : Nat) : arb (setNat m idx sub elem n) j = arb m j := rfl
@[simp] theorem arb_emit (m : Mod) (o : Out) (j : Nat) : arb (emit m o) j = arb m j := rfl
@[simp] theorem arb_draw (m : Mod) (src n j : Nat) : arb (draw m src n).2 j = arb m j := rfl
@[simp] theorem arb_raise (m : Mod) (code src bpid : Nat) (params : Octets) (j : Nat) : arb (raise m code src bpid params) j = arb m j := rfl
@[simp] theorem gate_setPort (m : Mod) (k j : Nat) (x : Port) : gate (setPort m k x) j = gate m j := rfl
@[simp] theorem gate_setLane (m : Mod) (k j : Nat) (x : Lane) : gate (setLane m k x) j = gate m j := rfl
@[simp] theorem gate_setRx (m : Mod) (k j : Nat) (x : GelRx) : gate (setRx m k x) j = gate m j := rfl
@[simp] theorem gate_setTx (m : Mod) (k j : Nat) (x : GelTx) : gate (setTx m k x) j = gate m j := rfl
@[simp] theorem gate_setPm (m : Mod) (k j : Nat) (x : Pm) : gate (setPm m k x) j = gate m j := rfl
@[simp] theorem gate_setSess (m : Mod) (k j : Nat) (x : Sess) : gate (setSess m k x) j = gate m j := rfl
@[simp] theorem gate_setBerth (m : Mod) (k j : Nat) (x : Berth) : gate (setBerth m k x) j = gate m j := rfl
@[simp] theorem gate_setStow (m : Mod) (k j : Nat) (x : Stow) : gate (setStow m k x) j = gate m j := rfl
@[simp] theorem gate_setSource (m : Mod) (k j : Nat) (x : Source) : gate (setSource m k x) j = gate m j := rfl
@[simp] theorem gate_setKek (m : Mod) (k j : Nat) (x : Kek) : gate (setKek m k x) j = gate m j := rfl
@[simp] theorem gate_setAssoc (m : Mod) (k j : Nat) (x : Assoc) : gate (setAssoc m k x) j = gate m j := rfl
@[simp] theorem gate_setBank (m : Mod) (k j : Nat) (x : Bank) : gate (setBank m k x) j = gate m j := rfl
@[simp] theorem gate_setEntropy (m : Mod) (k j : Nat) (x : Entropy) : gate (setEntropy m k x) j = gate m j := rfl
@[simp] theorem gate_setCls (m : Mod) (k j : Nat) (x : Cls) : gate (setCls m k x) j = gate m j := rfl
@[simp] theorem gate_setQueue (m : Mod) (k j : Nat) (x : Queue) : gate (setQueue m k x) j = gate m j := rfl
@[simp] theorem gate_setNode (m : Mod) (k j : Nat) (x : Node) : gate (setNode m k x) j = gate m j := rfl
@[simp] theorem gate_setArb (m : Mod) (k j : Nat) (x : Arb) : gate (setArb m k x) j = gate m j := rfl
@[simp] theorem gate_setObj (m : Mod) (idx sub elem j : Nat) (v : Val) : gate (setObj m idx sub elem v) j = gate m j := rfl
@[simp] theorem gate_setNat (m : Mod) (idx sub elem n j : Nat) : gate (setNat m idx sub elem n) j = gate m j := rfl
@[simp] theorem gate_emit (m : Mod) (o : Out) (j : Nat) : gate (emit m o) j = gate m j := rfl
@[simp] theorem gate_draw (m : Mod) (src n j : Nat) : gate (draw m src n).2 j = gate m j := rfl
@[simp] theorem gate_raise (m : Mod) (code src bpid : Nat) (params : Octets) (j : Nat) : gate (raise m code src bpid params) j = gate m j := rfl

/-! ### Objects -/

@[simp] theorem look_setPort (m : Mod) (k : Nat) (x : Port) : look (setPort m k x) = look m := rfl
@[simp] theorem inf_setPort (m : Mod) (k : Nat) (x : Port) : inf (setPort m k x) = inf m := rfl
@[simp] theorem infB_setPort (m : Mod) (k : Nat) (x : Port) : infB (setPort m k x) = infB m := rfl
@[simp] theorem look_setLane (m : Mod) (k : Nat) (x : Lane) : look (setLane m k x) = look m := rfl
@[simp] theorem inf_setLane (m : Mod) (k : Nat) (x : Lane) : inf (setLane m k x) = inf m := rfl
@[simp] theorem infB_setLane (m : Mod) (k : Nat) (x : Lane) : infB (setLane m k x) = infB m := rfl
@[simp] theorem look_setRx (m : Mod) (k : Nat) (x : GelRx) : look (setRx m k x) = look m := rfl
@[simp] theorem inf_setRx (m : Mod) (k : Nat) (x : GelRx) : inf (setRx m k x) = inf m := rfl
@[simp] theorem infB_setRx (m : Mod) (k : Nat) (x : GelRx) : infB (setRx m k x) = infB m := rfl
@[simp] theorem look_setTx (m : Mod) (k : Nat) (x : GelTx) : look (setTx m k x) = look m := rfl
@[simp] theorem inf_setTx (m : Mod) (k : Nat) (x : GelTx) : inf (setTx m k x) = inf m := rfl
@[simp] theorem infB_setTx (m : Mod) (k : Nat) (x : GelTx) : infB (setTx m k x) = infB m := rfl
@[simp] theorem look_setPm (m : Mod) (k : Nat) (x : Pm) : look (setPm m k x) = look m := rfl
@[simp] theorem inf_setPm (m : Mod) (k : Nat) (x : Pm) : inf (setPm m k x) = inf m := rfl
@[simp] theorem infB_setPm (m : Mod) (k : Nat) (x : Pm) : infB (setPm m k x) = infB m := rfl
@[simp] theorem look_setSess (m : Mod) (k : Nat) (x : Sess) : look (setSess m k x) = look m := rfl
@[simp] theorem inf_setSess (m : Mod) (k : Nat) (x : Sess) : inf (setSess m k x) = inf m := rfl
@[simp] theorem infB_setSess (m : Mod) (k : Nat) (x : Sess) : infB (setSess m k x) = infB m := rfl
@[simp] theorem look_setBerth (m : Mod) (k : Nat) (x : Berth) : look (setBerth m k x) = look m := rfl
@[simp] theorem inf_setBerth (m : Mod) (k : Nat) (x : Berth) : inf (setBerth m k x) = inf m := rfl
@[simp] theorem infB_setBerth (m : Mod) (k : Nat) (x : Berth) : infB (setBerth m k x) = infB m := rfl
@[simp] theorem look_setStow (m : Mod) (k : Nat) (x : Stow) : look (setStow m k x) = look m := rfl
@[simp] theorem inf_setStow (m : Mod) (k : Nat) (x : Stow) : inf (setStow m k x) = inf m := rfl
@[simp] theorem infB_setStow (m : Mod) (k : Nat) (x : Stow) : infB (setStow m k x) = infB m := rfl
@[simp] theorem look_setSource (m : Mod) (k : Nat) (x : Source) : look (setSource m k x) = look m := rfl
@[simp] theorem inf_setSource (m : Mod) (k : Nat) (x : Source) : inf (setSource m k x) = inf m := rfl
@[simp] theorem infB_setSource (m : Mod) (k : Nat) (x : Source) : infB (setSource m k x) = infB m := rfl
@[simp] theorem look_setKek (m : Mod) (k : Nat) (x : Kek) : look (setKek m k x) = look m := rfl
@[simp] theorem inf_setKek (m : Mod) (k : Nat) (x : Kek) : inf (setKek m k x) = inf m := rfl
@[simp] theorem infB_setKek (m : Mod) (k : Nat) (x : Kek) : infB (setKek m k x) = infB m := rfl
@[simp] theorem look_setAssoc (m : Mod) (k : Nat) (x : Assoc) : look (setAssoc m k x) = look m := rfl
@[simp] theorem inf_setAssoc (m : Mod) (k : Nat) (x : Assoc) : inf (setAssoc m k x) = inf m := rfl
@[simp] theorem infB_setAssoc (m : Mod) (k : Nat) (x : Assoc) : infB (setAssoc m k x) = infB m := rfl
@[simp] theorem look_setBank (m : Mod) (k : Nat) (x : Bank) : look (setBank m k x) = look m := rfl
@[simp] theorem inf_setBank (m : Mod) (k : Nat) (x : Bank) : inf (setBank m k x) = inf m := rfl
@[simp] theorem infB_setBank (m : Mod) (k : Nat) (x : Bank) : infB (setBank m k x) = infB m := rfl
@[simp] theorem look_setEntropy (m : Mod) (k : Nat) (x : Entropy) : look (setEntropy m k x) = look m := rfl
@[simp] theorem inf_setEntropy (m : Mod) (k : Nat) (x : Entropy) : inf (setEntropy m k x) = inf m := rfl
@[simp] theorem infB_setEntropy (m : Mod) (k : Nat) (x : Entropy) : infB (setEntropy m k x) = infB m := rfl
@[simp] theorem look_setCls (m : Mod) (k : Nat) (x : Cls) : look (setCls m k x) = look m := rfl
@[simp] theorem inf_setCls (m : Mod) (k : Nat) (x : Cls) : inf (setCls m k x) = inf m := rfl
@[simp] theorem infB_setCls (m : Mod) (k : Nat) (x : Cls) : infB (setCls m k x) = infB m := rfl
@[simp] theorem look_setQueue (m : Mod) (k : Nat) (x : Queue) : look (setQueue m k x) = look m := rfl
@[simp] theorem inf_setQueue (m : Mod) (k : Nat) (x : Queue) : inf (setQueue m k x) = inf m := rfl
@[simp] theorem infB_setQueue (m : Mod) (k : Nat) (x : Queue) : infB (setQueue m k x) = infB m := rfl
@[simp] theorem look_setNode (m : Mod) (k : Nat) (x : Node) : look (setNode m k x) = look m := rfl
@[simp] theorem inf_setNode (m : Mod) (k : Nat) (x : Node) : inf (setNode m k x) = inf m := rfl
@[simp] theorem infB_setNode (m : Mod) (k : Nat) (x : Node) : infB (setNode m k x) = infB m := rfl
@[simp] theorem look_setArb (m : Mod) (k : Nat) (x : Arb) : look (setArb m k x) = look m := rfl
@[simp] theorem inf_setArb (m : Mod) (k : Nat) (x : Arb) : inf (setArb m k x) = inf m := rfl
@[simp] theorem infB_setArb (m : Mod) (k : Nat) (x : Arb) : infB (setArb m k x) = infB m := rfl
@[simp] theorem look_setGate (m : Mod) (k : Nat) (x : Gate) : look (setGate m k x) = look m := rfl
@[simp] theorem inf_setGate (m : Mod) (k : Nat) (x : Gate) : inf (setGate m k x) = inf m := rfl
@[simp] theorem infB_setGate (m : Mod) (k : Nat) (x : Gate) : infB (setGate m k x) = infB m := rfl
@[simp] theorem look_emit (m : Mod) (o : Out) : look (emit m o) = look m := rfl
@[simp] theorem look_draw (m : Mod) (src n : Nat) : look (draw m src n).2 = look m := rfl
@[simp] theorem look_raise (m : Mod) (code src bpid : Nat) (params : Octets) : look (raise m code src bpid params) = look m := rfl
@[simp] theorem inf_emit (m : Mod) (o : Out) : inf (emit m o) = inf m := rfl
@[simp] theorem inf_draw (m : Mod) (src n : Nat) : inf (draw m src n).2 = inf m := rfl
@[simp] theorem inf_raise (m : Mod) (code src bpid : Nat) (params : Octets) : inf (raise m code src bpid params) = inf m := rfl
@[simp] theorem infB_emit (m : Mod) (o : Out) : infB (emit m o) = infB m := rfl
@[simp] theorem infB_draw (m : Mod) (src n : Nat) : infB (draw m src n).2 = infB m := rfl
@[simp] theorem infB_raise (m : Mod) (code src bpid : Nat) (params : Octets) : infB (raise m code src bpid params) = infB m := rfl

end Sys2Proof.Machine
end

