-- ==== Sys2Proof/Laws/State.lean ====
section
/-! SUPPORT. What each update of the state does to each field: the field it writes and those it leaves. Every lemma holds by definition. -/

namespace Sys2Proof.Machine

/-! ### The state with another module -/

@[simp] theorem State.upd_mod (s : State) (m : Mod) : (s.upd m).mod = m := rfl
@[simp] theorem State.upd_otp (s : State) (m : Mod) : (s.upd m).otp = s.otp := rfl
@[simp] theorem State.upd_flash (s : State) (m : Mod) : (s.upd m).flash = s.flash := rfl
@[simp] theorem State.upd_pending (s : State) (m : Mod) : (s.upd m).pending = s.pending := rfl
@[simp] theorem State.upd_upd (s : State) (m n : Mod) : (s.upd m).upd n = s.upd n := rfl
@[simp] theorem State.upd_self (s : State) : s.upd s.mod = s := rfl

/-! ### setPort -/

@[simp] theorem setPort_sys (m : Mod) (k : Nat) (x : Port) : (setPort m k x).sys = m.sys := rfl
@[simp] theorem setPort_tether (m : Mod) (k : Nat) (x : Port) : (setPort m k x).tether = m.tether := rfl
@[simp] theorem setPort_ev (m : Mod) (k : Nat) (x : Port) : (setPort m k x).ev = m.ev := rfl
@[simp] theorem setPort_mgmt (m : Mod) (k : Nat) (x : Port) : (setPort m k x).mgmt = m.mgmt := rfl
@[simp] theorem setPort_time (m : Mod) (k : Nat) (x : Port) : (setPort m k x).time = m.time := rfl
@[simp] theorem setPort_lanes (m : Mod) (k : Nat) (x : Port) : (setPort m k x).lanes = m.lanes := rfl
@[simp] theorem setPort_ports (m : Mod) (k : Nat) (x : Port) : (setPort m k x).ports = tset {} m.ports k x := rfl
@[simp] theorem setPort_rx (m : Mod) (k : Nat) (x : Port) : (setPort m k x).rx = m.rx := rfl
@[simp] theorem setPort_tx (m : Mod) (k : Nat) (x : Port) : (setPort m k x).tx = m.tx := rfl
@[simp] theorem setPort_pm (m : Mod) (k : Nat) (x : Port) : (setPort m k x).pm = m.pm := rfl
@[simp] theorem setPort_stow (m : Mod) (k : Nat) (x : Port) : (setPort m k x).stow = m.stow := rfl
@[simp] theorem setPort_berths (m : Mod) (k : Nat) (x : Port) : (setPort m k x).berths = m.berths := rfl
@[simp] theorem setPort_keks (m : Mod) (k : Nat) (x : Port) : (setPort m k x).keks = m.keks := rfl
@[simp] theorem setPort_assocs (m : Mod) (k : Nat) (x : Port) : (setPort m k x).assocs = m.assocs := rfl
@[simp] theorem setPort_filters (m : Mod) (k : Nat) (x : Port) : (setPort m k x).filters = m.filters := rfl
@[simp] theorem setPort_banks (m : Mod) (k : Nat) (x : Port) : (setPort m k x).banks = m.banks := rfl
@[simp] theorem setPort_entropy (m : Mod) (k : Nat) (x : Port) : (setPort m k x).entropy = m.entropy := rfl
@[simp] theorem setPort_cls (m : Mod) (k : Nat) (x : Port) : (setPort m k x).cls = m.cls := rfl
@[simp] theorem setPort_queues (m : Mod) (k : Nat) (x : Port) : (setPort m k x).queues = m.queues := rfl
@[simp] theorem setPort_nodes (m : Mod) (k : Nat) (x : Port) : (setPort m k x).nodes = m.nodes := rfl
@[simp] theorem setPort_arbs (m : Mod) (k : Nat) (x : Port) : (setPort m k x).arbs = m.arbs := rfl
@[simp] theorem setPort_gates (m : Mod) (k : Nat) (x : Port) : (setPort m k x).gates = m.gates := rfl
@[simp] theorem setPort_over (m : Mod) (k : Nat) (x : Port) : (setPort m k x).overs = m.overs := rfl
@[simp] theorem setPort_onceAt (m : Mod) (k : Nat) (x : Port) : (setPort m k x).onceAt = m.onceAt := rfl
@[simp] theorem setPort_sources (m : Mod) (k : Nat) (x : Port) : (setPort m k x).sources = m.sources := rfl
@[simp] theorem setPort_snap (m : Mod) (k : Nat) (x : Port) : (setPort m k x).snap = m.snap := rfl
@[simp] theorem setPort_fw (m : Mod) (k : Nat) (x : Port) : (setPort m k x).fw = m.fw := rfl
@[simp] theorem setPort_counted (m : Mod) (k : Nat) (x : Port) : (setPort m k x).counted = m.counted := rfl
@[simp] theorem setPort_obj (m : Mod) (k : Nat) (x : Port) : (setPort m k x).obj = m.obj := rfl
@[simp] theorem setPort_out (m : Mod) (k : Nat) (x : Port) : (setPort m k x).out = m.out := rfl
@[simp] theorem setPort_drawn (m : Mod) (k : Nat) (x : Port) : (setPort m k x).drawn = m.drawn := rfl
@[simp] theorem setPort_serials (m : Mod) (k : Nat) (x : Port) : (setPort m k x).serials = m.serials := rfl
@[simp] theorem setPort_slots (m : Mod) (k : Nat) (x : Port) : (setPort m k x).slots = m.slots := rfl

/-! ### setLane -/

@[simp] theorem setLane_sys (m : Mod) (k : Nat) (x : Lane) : (setLane m k x).sys = m.sys := rfl
@[simp] theorem setLane_tether (m : Mod) (k : Nat) (x : Lane) : (setLane m k x).tether = m.tether := rfl
@[simp] theorem setLane_ev (m : Mod) (k : Nat) (x : Lane) : (setLane m k x).ev = m.ev := rfl
@[simp] theorem setLane_mgmt (m : Mod) (k : Nat) (x : Lane) : (setLane m k x).mgmt = m.mgmt := rfl
@[simp] theorem setLane_time (m : Mod) (k : Nat) (x : Lane) : (setLane m k x).time = m.time := rfl
@[simp] theorem setLane_lanes (m : Mod) (k : Nat) (x : Lane) : (setLane m k x).lanes = tset {} m.lanes k x := rfl
@[simp] theorem setLane_ports (m : Mod) (k : Nat) (x : Lane) : (setLane m k x).ports = m.ports := rfl
@[simp] theorem setLane_rx (m : Mod) (k : Nat) (x : Lane) : (setLane m k x).rx = m.rx := rfl
@[simp] theorem setLane_tx (m : Mod) (k : Nat) (x : Lane) : (setLane m k x).tx = m.tx := rfl
@[simp] theorem setLane_pm (m : Mod) (k : Nat) (x : Lane) : (setLane m k x).pm = m.pm := rfl
@[simp] theorem setLane_stow (m : Mod) (k : Nat) (x : Lane) : (setLane m k x).stow = m.stow := rfl
@[simp] theorem setLane_berths (m : Mod) (k : Nat) (x : Lane) : (setLane m k x).berths = m.berths := rfl
@[simp] theorem setLane_keks (m : Mod) (k : Nat) (x : Lane) : (setLane m k x).keks = m.keks := rfl
@[simp] theorem setLane_assocs (m : Mod) (k : Nat) (x : Lane) : (setLane m k x).assocs = m.assocs := rfl
@[simp] theorem setLane_filters (m : Mod) (k : Nat) (x : Lane) : (setLane m k x).filters = m.filters := rfl
@[simp] theorem setLane_banks (m : Mod) (k : Nat) (x : Lane) : (setLane m k x).banks = m.banks := rfl
@[simp] theorem setLane_entropy (m : Mod) (k : Nat) (x : Lane) : (setLane m k x).entropy = m.entropy := rfl
@[simp] theorem setLane_cls (m : Mod) (k : Nat) (x : Lane) : (setLane m k x).cls = m.cls := rfl
@[simp] theorem setLane_queues (m : Mod) (k : Nat) (x : Lane) : (setLane m k x).queues = m.queues := rfl
@[simp] theorem setLane_nodes (m : Mod) (k : Nat) (x : Lane) : (setLane m k x).nodes = m.nodes := rfl
@[simp] theorem setLane_arbs (m : Mod) (k : Nat) (x : Lane) : (setLane m k x).arbs = m.arbs := rfl
@[simp] theorem setLane_gates (m : Mod) (k : Nat) (x : Lane) : (setLane m k x).gates = m.gates := rfl
@[simp] theorem setLane_over (m : Mod) (k : Nat) (x : Lane) : (setLane m k x).overs = m.overs := rfl
@[simp] theorem setLane_onceAt (m : Mod) (k : Nat) (x : Lane) : (setLane m k x).onceAt = m.onceAt := rfl
@[simp] theorem setLane_sources (m : Mod) (k : Nat) (x : Lane) : (setLane m k x).sources = m.sources := rfl
@[simp] theorem setLane_snap (m : Mod) (k : Nat) (x : Lane) : (setLane m k x).snap = m.snap := rfl
@[simp] theorem setLane_fw (m : Mod) (k : Nat) (x : Lane) : (setLane m k x).fw = m.fw := rfl
@[simp] theorem setLane_counted (m : Mod) (k : Nat) (x : Lane) : (setLane m k x).counted = m.counted := rfl
@[simp] theorem setLane_obj (m : Mod) (k : Nat) (x : Lane) : (setLane m k x).obj = m.obj := rfl
@[simp] theorem setLane_out (m : Mod) (k : Nat) (x : Lane) : (setLane m k x).out = m.out := rfl
@[simp] theorem setLane_drawn (m : Mod) (k : Nat) (x : Lane) : (setLane m k x).drawn = m.drawn := rfl
@[simp] theorem setLane_serials (m : Mod) (k : Nat) (x : Lane) : (setLane m k x).serials = m.serials := rfl
@[simp] theorem setLane_slots (m : Mod) (k : Nat) (x : Lane) : (setLane m k x).slots = m.slots := rfl

/-! ### setRx -/

@[simp] theorem setRx_sys (m : Mod) (k : Nat) (x : GelRx) : (setRx m k x).sys = m.sys := rfl
@[simp] theorem setRx_tether (m : Mod) (k : Nat) (x : GelRx) : (setRx m k x).tether = m.tether := rfl
@[simp] theorem setRx_ev (m : Mod) (k : Nat) (x : GelRx) : (setRx m k x).ev = m.ev := rfl
@[simp] theorem setRx_mgmt (m : Mod) (k : Nat) (x : GelRx) : (setRx m k x).mgmt = m.mgmt := rfl
@[simp] theorem setRx_time (m : Mod) (k : Nat) (x : GelRx) : (setRx m k x).time = m.time := rfl
@[simp] theorem setRx_lanes (m : Mod) (k : Nat) (x : GelRx) : (setRx m k x).lanes = m.lanes := rfl
@[simp] theorem setRx_ports (m : Mod) (k : Nat) (x : GelRx) : (setRx m k x).ports = m.ports := rfl
@[simp] theorem setRx_rx (m : Mod) (k : Nat) (x : GelRx) : (setRx m k x).rx = tset {} m.rx k x := rfl
@[simp] theorem setRx_tx (m : Mod) (k : Nat) (x : GelRx) : (setRx m k x).tx = m.tx := rfl
@[simp] theorem setRx_pm (m : Mod) (k : Nat) (x : GelRx) : (setRx m k x).pm = m.pm := rfl
@[simp] theorem setRx_stow (m : Mod) (k : Nat) (x : GelRx) : (setRx m k x).stow = m.stow := rfl
@[simp] theorem setRx_berths (m : Mod) (k : Nat) (x : GelRx) : (setRx m k x).berths = m.berths := rfl
@[simp] theorem setRx_keks (m : Mod) (k : Nat) (x : GelRx) : (setRx m k x).keks = m.keks := rfl
@[simp] theorem setRx_assocs (m : Mod) (k : Nat) (x : GelRx) : (setRx m k x).assocs = m.assocs := rfl
@[simp] theorem setRx_filters (m : Mod) (k : Nat) (x : GelRx) : (setRx m k x).filters = m.filters := rfl
@[simp] theorem setRx_banks (m : Mod) (k : Nat) (x : GelRx) : (setRx m k x).banks = m.banks := rfl
@[simp] theorem setRx_entropy (m : Mod) (k : Nat) (x : GelRx) : (setRx m k x).entropy = m.entropy := rfl
@[simp] theorem setRx_cls (m : Mod) (k : Nat) (x : GelRx) : (setRx m k x).cls = m.cls := rfl
@[simp] theorem setRx_queues (m : Mod) (k : Nat) (x : GelRx) : (setRx m k x).queues = m.queues := rfl
@[simp] theorem setRx_nodes (m : Mod) (k : Nat) (x : GelRx) : (setRx m k x).nodes = m.nodes := rfl
@[simp] theorem setRx_arbs (m : Mod) (k : Nat) (x : GelRx) : (setRx m k x).arbs = m.arbs := rfl
@[simp] theorem setRx_gates (m : Mod) (k : Nat) (x : GelRx) : (setRx m k x).gates = m.gates := rfl
@[simp] theorem setRx_over (m : Mod) (k : Nat) (x : GelRx) : (setRx m k x).overs = m.overs := rfl
@[simp] theorem setRx_onceAt (m : Mod) (k : Nat) (x : GelRx) : (setRx m k x).onceAt = m.onceAt := rfl
@[simp] theorem setRx_sources (m : Mod) (k : Nat) (x : GelRx) : (setRx m k x).sources = m.sources := rfl
@[simp] theorem setRx_snap (m : Mod) (k : Nat) (x : GelRx) : (setRx m k x).snap = m.snap := rfl
@[simp] theorem setRx_fw (m : Mod) (k : Nat) (x : GelRx) : (setRx m k x).fw = m.fw := rfl
@[simp] theorem setRx_counted (m : Mod) (k : Nat) (x : GelRx) : (setRx m k x).counted = m.counted := rfl
@[simp] theorem setRx_obj (m : Mod) (k : Nat) (x : GelRx) : (setRx m k x).obj = m.obj := rfl
@[simp] theorem setRx_out (m : Mod) (k : Nat) (x : GelRx) : (setRx m k x).out = m.out := rfl
@[simp] theorem setRx_drawn (m : Mod) (k : Nat) (x : GelRx) : (setRx m k x).drawn = m.drawn := rfl
@[simp] theorem setRx_serials (m : Mod) (k : Nat) (x : GelRx) : (setRx m k x).serials = m.serials := rfl
@[simp] theorem setRx_slots (m : Mod) (k : Nat) (x : GelRx) : (setRx m k x).slots = m.slots := rfl

/-! ### setTx -/

@[simp] theorem setTx_sys (m : Mod) (k : Nat) (x : GelTx) : (setTx m k x).sys = m.sys := rfl
@[simp] theorem setTx_tether (m : Mod) (k : Nat) (x : GelTx) : (setTx m k x).tether = m.tether := rfl
@[simp] theorem setTx_ev (m : Mod) (k : Nat) (x : GelTx) : (setTx m k x).ev = m.ev := rfl
@[simp] theorem setTx_mgmt (m : Mod) (k : Nat) (x : GelTx) : (setTx m k x).mgmt = m.mgmt := rfl
@[simp] theorem setTx_time (m : Mod) (k : Nat) (x : GelTx) : (setTx m k x).time = m.time := rfl
@[simp] theorem setTx_lanes (m : Mod) (k : Nat) (x : GelTx) : (setTx m k x).lanes = m.lanes := rfl
@[simp] theorem setTx_ports (m : Mod) (k : Nat) (x : GelTx) : (setTx m k x).ports = m.ports := rfl
@[simp] theorem setTx_rx (m : Mod) (k : Nat) (x : GelTx) : (setTx m k x).rx = m.rx := rfl
@[simp] theorem setTx_tx (m : Mod) (k : Nat) (x : GelTx) : (setTx m k x).tx = tset {} m.tx k x := rfl
@[simp] theorem setTx_pm (m : Mod) (k : Nat) (x : GelTx) : (setTx m k x).pm = m.pm := rfl
@[simp] theorem setTx_stow (m : Mod) (k : Nat) (x : GelTx) : (setTx m k x).stow = m.stow := rfl
@[simp] theorem setTx_berths (m : Mod) (k : Nat) (x : GelTx) : (setTx m k x).berths = m.berths := rfl
@[simp] theorem setTx_keks (m : Mod) (k : Nat) (x : GelTx) : (setTx m k x).keks = m.keks := rfl
@[simp] theorem setTx_assocs (m : Mod) (k : Nat) (x : GelTx) : (setTx m k x).assocs = m.assocs := rfl
@[simp] theorem setTx_filters (m : Mod) (k : Nat) (x : GelTx) : (setTx m k x).filters = m.filters := rfl
@[simp] theorem setTx_banks (m : Mod) (k : Nat) (x : GelTx) : (setTx m k x).banks = m.banks := rfl
@[simp] theorem setTx_entropy (m : Mod) (k : Nat) (x : GelTx) : (setTx m k x).entropy = m.entropy := rfl
@[simp] theorem setTx_cls (m : Mod) (k : Nat) (x : GelTx) : (setTx m k x).cls = m.cls := rfl
@[simp] theorem setTx_queues (m : Mod) (k : Nat) (x : GelTx) : (setTx m k x).queues = m.queues := rfl
@[simp] theorem setTx_nodes (m : Mod) (k : Nat) (x : GelTx) : (setTx m k x).nodes = m.nodes := rfl
@[simp] theorem setTx_arbs (m : Mod) (k : Nat) (x : GelTx) : (setTx m k x).arbs = m.arbs := rfl
@[simp] theorem setTx_gates (m : Mod) (k : Nat) (x : GelTx) : (setTx m k x).gates = m.gates := rfl
@[simp] theorem setTx_over (m : Mod) (k : Nat) (x : GelTx) : (setTx m k x).overs = m.overs := rfl
@[simp] theorem setTx_onceAt (m : Mod) (k : Nat) (x : GelTx) : (setTx m k x).onceAt = m.onceAt := rfl
@[simp] theorem setTx_sources (m : Mod) (k : Nat) (x : GelTx) : (setTx m k x).sources = m.sources := rfl
@[simp] theorem setTx_snap (m : Mod) (k : Nat) (x : GelTx) : (setTx m k x).snap = m.snap := rfl
@[simp] theorem setTx_fw (m : Mod) (k : Nat) (x : GelTx) : (setTx m k x).fw = m.fw := rfl
@[simp] theorem setTx_counted (m : Mod) (k : Nat) (x : GelTx) : (setTx m k x).counted = m.counted := rfl
@[simp] theorem setTx_obj (m : Mod) (k : Nat) (x : GelTx) : (setTx m k x).obj = m.obj := rfl
@[simp] theorem setTx_out (m : Mod) (k : Nat) (x : GelTx) : (setTx m k x).out = m.out := rfl
@[simp] theorem setTx_drawn (m : Mod) (k : Nat) (x : GelTx) : (setTx m k x).drawn = m.drawn := rfl
@[simp] theorem setTx_serials (m : Mod) (k : Nat) (x : GelTx) : (setTx m k x).serials = m.serials := rfl
@[simp] theorem setTx_slots (m : Mod) (k : Nat) (x : GelTx) : (setTx m k x).slots = m.slots := rfl

/-! ### setPm -/

@[simp] theorem setPm_sys (m : Mod) (k : Nat) (x : Pm) : (setPm m k x).sys = m.sys := rfl
@[simp] theorem setPm_tether (m : Mod) (k : Nat) (x : Pm) : (setPm m k x).tether = m.tether := rfl
@[simp] theorem setPm_ev (m : Mod) (k : Nat) (x : Pm) : (setPm m k x).ev = m.ev := rfl
@[simp] theorem setPm_mgmt (m : Mod) (k : Nat) (x : Pm) : (setPm m k x).mgmt = m.mgmt := rfl
@[simp] theorem setPm_time (m : Mod) (k : Nat) (x : Pm) : (setPm m k x).time = m.time := rfl
@[simp] theorem setPm_lanes (m : Mod) (k : Nat) (x : Pm) : (setPm m k x).lanes = m.lanes := rfl
@[simp] theorem setPm_ports (m : Mod) (k : Nat) (x : Pm) : (setPm m k x).ports = m.ports := rfl
@[simp] theorem setPm_rx (m : Mod) (k : Nat) (x : Pm) : (setPm m k x).rx = m.rx := rfl
@[simp] theorem setPm_tx (m : Mod) (k : Nat) (x : Pm) : (setPm m k x).tx = m.tx := rfl
@[simp] theorem setPm_pm (m : Mod) (k : Nat) (x : Pm) : (setPm m k x).pm = tset {} m.pm k x := rfl
@[simp] theorem setPm_stow (m : Mod) (k : Nat) (x : Pm) : (setPm m k x).stow = m.stow := rfl
@[simp] theorem setPm_berths (m : Mod) (k : Nat) (x : Pm) : (setPm m k x).berths = m.berths := rfl
@[simp] theorem setPm_keks (m : Mod) (k : Nat) (x : Pm) : (setPm m k x).keks = m.keks := rfl
@[simp] theorem setPm_assocs (m : Mod) (k : Nat) (x : Pm) : (setPm m k x).assocs = m.assocs := rfl
@[simp] theorem setPm_filters (m : Mod) (k : Nat) (x : Pm) : (setPm m k x).filters = m.filters := rfl
@[simp] theorem setPm_banks (m : Mod) (k : Nat) (x : Pm) : (setPm m k x).banks = m.banks := rfl
@[simp] theorem setPm_entropy (m : Mod) (k : Nat) (x : Pm) : (setPm m k x).entropy = m.entropy := rfl
@[simp] theorem setPm_cls (m : Mod) (k : Nat) (x : Pm) : (setPm m k x).cls = m.cls := rfl
@[simp] theorem setPm_queues (m : Mod) (k : Nat) (x : Pm) : (setPm m k x).queues = m.queues := rfl
@[simp] theorem setPm_nodes (m : Mod) (k : Nat) (x : Pm) : (setPm m k x).nodes = m.nodes := rfl
@[simp] theorem setPm_arbs (m : Mod) (k : Nat) (x : Pm) : (setPm m k x).arbs = m.arbs := rfl
@[simp] theorem setPm_gates (m : Mod) (k : Nat) (x : Pm) : (setPm m k x).gates = m.gates := rfl
@[simp] theorem setPm_over (m : Mod) (k : Nat) (x : Pm) : (setPm m k x).overs = m.overs := rfl
@[simp] theorem setPm_onceAt (m : Mod) (k : Nat) (x : Pm) : (setPm m k x).onceAt = m.onceAt := rfl
@[simp] theorem setPm_sources (m : Mod) (k : Nat) (x : Pm) : (setPm m k x).sources = m.sources := rfl
@[simp] theorem setPm_snap (m : Mod) (k : Nat) (x : Pm) : (setPm m k x).snap = m.snap := rfl
@[simp] theorem setPm_fw (m : Mod) (k : Nat) (x : Pm) : (setPm m k x).fw = m.fw := rfl
@[simp] theorem setPm_counted (m : Mod) (k : Nat) (x : Pm) : (setPm m k x).counted = m.counted := rfl
@[simp] theorem setPm_obj (m : Mod) (k : Nat) (x : Pm) : (setPm m k x).obj = m.obj := rfl
@[simp] theorem setPm_out (m : Mod) (k : Nat) (x : Pm) : (setPm m k x).out = m.out := rfl
@[simp] theorem setPm_drawn (m : Mod) (k : Nat) (x : Pm) : (setPm m k x).drawn = m.drawn := rfl
@[simp] theorem setPm_serials (m : Mod) (k : Nat) (x : Pm) : (setPm m k x).serials = m.serials := rfl
@[simp] theorem setPm_slots (m : Mod) (k : Nat) (x : Pm) : (setPm m k x).slots = m.slots := rfl

/-! ### setBerth -/

@[simp] theorem setBerth_sys (m : Mod) (k : Nat) (x : Berth) : (setBerth m k x).sys = m.sys := rfl
@[simp] theorem setBerth_tether (m : Mod) (k : Nat) (x : Berth) : (setBerth m k x).tether = m.tether := rfl
@[simp] theorem setBerth_ev (m : Mod) (k : Nat) (x : Berth) : (setBerth m k x).ev = m.ev := rfl
@[simp] theorem setBerth_mgmt (m : Mod) (k : Nat) (x : Berth) : (setBerth m k x).mgmt = m.mgmt := rfl
@[simp] theorem setBerth_time (m : Mod) (k : Nat) (x : Berth) : (setBerth m k x).time = m.time := rfl
@[simp] theorem setBerth_lanes (m : Mod) (k : Nat) (x : Berth) : (setBerth m k x).lanes = m.lanes := rfl
@[simp] theorem setBerth_ports (m : Mod) (k : Nat) (x : Berth) : (setBerth m k x).ports = m.ports := rfl
@[simp] theorem setBerth_rx (m : Mod) (k : Nat) (x : Berth) : (setBerth m k x).rx = m.rx := rfl
@[simp] theorem setBerth_tx (m : Mod) (k : Nat) (x : Berth) : (setBerth m k x).tx = m.tx := rfl
@[simp] theorem setBerth_pm (m : Mod) (k : Nat) (x : Berth) : (setBerth m k x).pm = m.pm := rfl
@[simp] theorem setBerth_stow (m : Mod) (k : Nat) (x : Berth) : (setBerth m k x).stow = m.stow := rfl
@[simp] theorem setBerth_berths (m : Mod) (k : Nat) (x : Berth) : (setBerth m k x).berths = tset {} m.berths k x := rfl
@[simp] theorem setBerth_keks (m : Mod) (k : Nat) (x : Berth) : (setBerth m k x).keks = m.keks := rfl
@[simp] theorem setBerth_assocs (m : Mod) (k : Nat) (x : Berth) : (setBerth m k x).assocs = m.assocs := rfl
@[simp] theorem setBerth_filters (m : Mod) (k : Nat) (x : Berth) : (setBerth m k x).filters = m.filters := rfl
@[simp] theorem setBerth_banks (m : Mod) (k : Nat) (x : Berth) : (setBerth m k x).banks = m.banks := rfl
@[simp] theorem setBerth_entropy (m : Mod) (k : Nat) (x : Berth) : (setBerth m k x).entropy = m.entropy := rfl
@[simp] theorem setBerth_cls (m : Mod) (k : Nat) (x : Berth) : (setBerth m k x).cls = m.cls := rfl
@[simp] theorem setBerth_queues (m : Mod) (k : Nat) (x : Berth) : (setBerth m k x).queues = m.queues := rfl
@[simp] theorem setBerth_nodes (m : Mod) (k : Nat) (x : Berth) : (setBerth m k x).nodes = m.nodes := rfl
@[simp] theorem setBerth_arbs (m : Mod) (k : Nat) (x : Berth) : (setBerth m k x).arbs = m.arbs := rfl
@[simp] theorem setBerth_gates (m : Mod) (k : Nat) (x : Berth) : (setBerth m k x).gates = m.gates := rfl
@[simp] theorem setBerth_over (m : Mod) (k : Nat) (x : Berth) : (setBerth m k x).overs = m.overs := rfl
@[simp] theorem setBerth_onceAt (m : Mod) (k : Nat) (x : Berth) : (setBerth m k x).onceAt = m.onceAt := rfl
@[simp] theorem setBerth_sources (m : Mod) (k : Nat) (x : Berth) : (setBerth m k x).sources = m.sources := rfl
@[simp] theorem setBerth_snap (m : Mod) (k : Nat) (x : Berth) : (setBerth m k x).snap = m.snap := rfl
@[simp] theorem setBerth_fw (m : Mod) (k : Nat) (x : Berth) : (setBerth m k x).fw = m.fw := rfl
@[simp] theorem setBerth_counted (m : Mod) (k : Nat) (x : Berth) : (setBerth m k x).counted = m.counted := rfl
@[simp] theorem setBerth_obj (m : Mod) (k : Nat) (x : Berth) : (setBerth m k x).obj = m.obj := rfl
@[simp] theorem setBerth_out (m : Mod) (k : Nat) (x : Berth) : (setBerth m k x).out = m.out := rfl
@[simp] theorem setBerth_drawn (m : Mod) (k : Nat) (x : Berth) : (setBerth m k x).drawn = m.drawn := rfl
@[simp] theorem setBerth_serials (m : Mod) (k : Nat) (x : Berth) : (setBerth m k x).serials = m.serials := rfl
@[simp] theorem setBerth_slots (m : Mod) (k : Nat) (x : Berth) : (setBerth m k x).slots = m.slots := rfl

/-! ### setStow -/

@[simp] theorem setStow_sys (m : Mod) (k : Nat) (x : Stow) : (setStow m k x).sys = m.sys := rfl
@[simp] theorem setStow_tether (m : Mod) (k : Nat) (x : Stow) : (setStow m k x).tether = m.tether := rfl
@[simp] theorem setStow_ev (m : Mod) (k : Nat) (x : Stow) : (setStow m k x).ev = m.ev := rfl
@[simp] theorem setStow_mgmt (m : Mod) (k : Nat) (x : Stow) : (setStow m k x).mgmt = m.mgmt := rfl
@[simp] theorem setStow_time (m : Mod) (k : Nat) (x : Stow) : (setStow m k x).time = m.time := rfl
@[simp] theorem setStow_lanes (m : Mod) (k : Nat) (x : Stow) : (setStow m k x).lanes = m.lanes := rfl
@[simp] theorem setStow_ports (m : Mod) (k : Nat) (x : Stow) : (setStow m k x).ports = m.ports := rfl
@[simp] theorem setStow_rx (m : Mod) (k : Nat) (x : Stow) : (setStow m k x).rx = m.rx := rfl
@[simp] theorem setStow_tx (m : Mod) (k : Nat) (x : Stow) : (setStow m k x).tx = m.tx := rfl
@[simp] theorem setStow_pm (m : Mod) (k : Nat) (x : Stow) : (setStow m k x).pm = m.pm := rfl
@[simp] theorem setStow_stow (m : Mod) (k : Nat) (x : Stow) : (setStow m k x).stow = tset {} m.stow k x := rfl
@[simp] theorem setStow_berths (m : Mod) (k : Nat) (x : Stow) : (setStow m k x).berths = m.berths := rfl
@[simp] theorem setStow_keks (m : Mod) (k : Nat) (x : Stow) : (setStow m k x).keks = m.keks := rfl
@[simp] theorem setStow_assocs (m : Mod) (k : Nat) (x : Stow) : (setStow m k x).assocs = m.assocs := rfl
@[simp] theorem setStow_filters (m : Mod) (k : Nat) (x : Stow) : (setStow m k x).filters = m.filters := rfl
@[simp] theorem setStow_banks (m : Mod) (k : Nat) (x : Stow) : (setStow m k x).banks = m.banks := rfl
@[simp] theorem setStow_entropy (m : Mod) (k : Nat) (x : Stow) : (setStow m k x).entropy = m.entropy := rfl
@[simp] theorem setStow_cls (m : Mod) (k : Nat) (x : Stow) : (setStow m k x).cls = m.cls := rfl
@[simp] theorem setStow_queues (m : Mod) (k : Nat) (x : Stow) : (setStow m k x).queues = m.queues := rfl
@[simp] theorem setStow_nodes (m : Mod) (k : Nat) (x : Stow) : (setStow m k x).nodes = m.nodes := rfl
@[simp] theorem setStow_arbs (m : Mod) (k : Nat) (x : Stow) : (setStow m k x).arbs = m.arbs := rfl
@[simp] theorem setStow_gates (m : Mod) (k : Nat) (x : Stow) : (setStow m k x).gates = m.gates := rfl
@[simp] theorem setStow_over (m : Mod) (k : Nat) (x : Stow) : (setStow m k x).overs = m.overs := rfl
@[simp] theorem setStow_onceAt (m : Mod) (k : Nat) (x : Stow) : (setStow m k x).onceAt = m.onceAt := rfl
@[simp] theorem setStow_sources (m : Mod) (k : Nat) (x : Stow) : (setStow m k x).sources = m.sources := rfl
@[simp] theorem setStow_snap (m : Mod) (k : Nat) (x : Stow) : (setStow m k x).snap = m.snap := rfl
@[simp] theorem setStow_fw (m : Mod) (k : Nat) (x : Stow) : (setStow m k x).fw = m.fw := rfl
@[simp] theorem setStow_counted (m : Mod) (k : Nat) (x : Stow) : (setStow m k x).counted = m.counted := rfl
@[simp] theorem setStow_obj (m : Mod) (k : Nat) (x : Stow) : (setStow m k x).obj = m.obj := rfl
@[simp] theorem setStow_out (m : Mod) (k : Nat) (x : Stow) : (setStow m k x).out = m.out := rfl
@[simp] theorem setStow_drawn (m : Mod) (k : Nat) (x : Stow) : (setStow m k x).drawn = m.drawn := rfl
@[simp] theorem setStow_serials (m : Mod) (k : Nat) (x : Stow) : (setStow m k x).serials = m.serials := rfl
@[simp] theorem setStow_slots (m : Mod) (k : Nat) (x : Stow) : (setStow m k x).slots = m.slots := rfl

/-! ### setSource -/

@[simp] theorem setSource_sys (m : Mod) (k : Nat) (x : Source) : (setSource m k x).sys = m.sys := rfl
@[simp] theorem setSource_tether (m : Mod) (k : Nat) (x : Source) : (setSource m k x).tether = m.tether := rfl
@[simp] theorem setSource_ev (m : Mod) (k : Nat) (x : Source) : (setSource m k x).ev = m.ev := rfl
@[simp] theorem setSource_mgmt (m : Mod) (k : Nat) (x : Source) : (setSource m k x).mgmt = m.mgmt := rfl
@[simp] theorem setSource_time (m : Mod) (k : Nat) (x : Source) : (setSource m k x).time = m.time := rfl
@[simp] theorem setSource_lanes (m : Mod) (k : Nat) (x : Source) : (setSource m k x).lanes = m.lanes := rfl
@[simp] theorem setSource_ports (m : Mod) (k : Nat) (x : Source) : (setSource m k x).ports = m.ports := rfl
@[simp] theorem setSource_rx (m : Mod) (k : Nat) (x : Source) : (setSource m k x).rx = m.rx := rfl
@[simp] theorem setSource_tx (m : Mod) (k : Nat) (x : Source) : (setSource m k x).tx = m.tx := rfl
@[simp] theorem setSource_pm (m : Mod) (k : Nat) (x : Source) : (setSource m k x).pm = m.pm := rfl
@[simp] theorem setSource_stow (m : Mod) (k : Nat) (x : Source) : (setSource m k x).stow = m.stow := rfl
@[simp] theorem setSource_berths (m : Mod) (k : Nat) (x : Source) : (setSource m k x).berths = m.berths := rfl
@[simp] theorem setSource_keks (m : Mod) (k : Nat) (x : Source) : (setSource m k x).keks = m.keks := rfl
@[simp] theorem setSource_assocs (m : Mod) (k : Nat) (x : Source) : (setSource m k x).assocs = m.assocs := rfl
@[simp] theorem setSource_filters (m : Mod) (k : Nat) (x : Source) : (setSource m k x).filters = m.filters := rfl
@[simp] theorem setSource_banks (m : Mod) (k : Nat) (x : Source) : (setSource m k x).banks = m.banks := rfl
@[simp] theorem setSource_entropy (m : Mod) (k : Nat) (x : Source) : (setSource m k x).entropy = m.entropy := rfl
@[simp] theorem setSource_cls (m : Mod) (k : Nat) (x : Source) : (setSource m k x).cls = m.cls := rfl
@[simp] theorem setSource_queues (m : Mod) (k : Nat) (x : Source) : (setSource m k x).queues = m.queues := rfl
@[simp] theorem setSource_nodes (m : Mod) (k : Nat) (x : Source) : (setSource m k x).nodes = m.nodes := rfl
@[simp] theorem setSource_arbs (m : Mod) (k : Nat) (x : Source) : (setSource m k x).arbs = m.arbs := rfl
@[simp] theorem setSource_gates (m : Mod) (k : Nat) (x : Source) : (setSource m k x).gates = m.gates := rfl
@[simp] theorem setSource_over (m : Mod) (k : Nat) (x : Source) : (setSource m k x).overs = m.overs := rfl
@[simp] theorem setSource_onceAt (m : Mod) (k : Nat) (x : Source) : (setSource m k x).onceAt = m.onceAt := rfl
@[simp] theorem setSource_sources (m : Mod) (k : Nat) (x : Source) : (setSource m k x).sources = tset {} m.sources k x := rfl
@[simp] theorem setSource_snap (m : Mod) (k : Nat) (x : Source) : (setSource m k x).snap = m.snap := rfl
@[simp] theorem setSource_fw (m : Mod) (k : Nat) (x : Source) : (setSource m k x).fw = m.fw := rfl
@[simp] theorem setSource_counted (m : Mod) (k : Nat) (x : Source) : (setSource m k x).counted = m.counted := rfl
@[simp] theorem setSource_obj (m : Mod) (k : Nat) (x : Source) : (setSource m k x).obj = m.obj := rfl
@[simp] theorem setSource_out (m : Mod) (k : Nat) (x : Source) : (setSource m k x).out = m.out := rfl
@[simp] theorem setSource_drawn (m : Mod) (k : Nat) (x : Source) : (setSource m k x).drawn = m.drawn := rfl
@[simp] theorem setSource_serials (m : Mod) (k : Nat) (x : Source) : (setSource m k x).serials = m.serials := rfl
@[simp] theorem setSource_slots (m : Mod) (k : Nat) (x : Source) : (setSource m k x).slots = m.slots := rfl

/-! ### setKek -/

@[simp] theorem setKek_sys (m : Mod) (k : Nat) (x : Kek) : (setKek m k x).sys = m.sys := rfl
@[simp] theorem setKek_tether (m : Mod) (k : Nat) (x : Kek) : (setKek m k x).tether = m.tether := rfl
@[simp] theorem setKek_ev (m : Mod) (k : Nat) (x : Kek) : (setKek m k x).ev = m.ev := rfl
@[simp] theorem setKek_mgmt (m : Mod) (k : Nat) (x : Kek) : (setKek m k x).mgmt = m.mgmt := rfl
@[simp] theorem setKek_time (m : Mod) (k : Nat) (x : Kek) : (setKek m k x).time = m.time := rfl
@[simp] theorem setKek_lanes (m : Mod) (k : Nat) (x : Kek) : (setKek m k x).lanes = m.lanes := rfl
@[simp] theorem setKek_ports (m : Mod) (k : Nat) (x : Kek) : (setKek m k x).ports = m.ports := rfl
@[simp] theorem setKek_rx (m : Mod) (k : Nat) (x : Kek) : (setKek m k x).rx = m.rx := rfl
@[simp] theorem setKek_tx (m : Mod) (k : Nat) (x : Kek) : (setKek m k x).tx = m.tx := rfl
@[simp] theorem setKek_pm (m : Mod) (k : Nat) (x : Kek) : (setKek m k x).pm = m.pm := rfl
@[simp] theorem setKek_stow (m : Mod) (k : Nat) (x : Kek) : (setKek m k x).stow = m.stow := rfl
@[simp] theorem setKek_berths (m : Mod) (k : Nat) (x : Kek) : (setKek m k x).berths = m.berths := rfl
@[simp] theorem setKek_keks (m : Mod) (k : Nat) (x : Kek) : (setKek m k x).keks = tset {} m.keks k x := rfl
@[simp] theorem setKek_assocs (m : Mod) (k : Nat) (x : Kek) : (setKek m k x).assocs = m.assocs := rfl
@[simp] theorem setKek_filters (m : Mod) (k : Nat) (x : Kek) : (setKek m k x).filters = m.filters := rfl
@[simp] theorem setKek_banks (m : Mod) (k : Nat) (x : Kek) : (setKek m k x).banks = m.banks := rfl
@[simp] theorem setKek_entropy (m : Mod) (k : Nat) (x : Kek) : (setKek m k x).entropy = m.entropy := rfl
@[simp] theorem setKek_cls (m : Mod) (k : Nat) (x : Kek) : (setKek m k x).cls = m.cls := rfl
@[simp] theorem setKek_queues (m : Mod) (k : Nat) (x : Kek) : (setKek m k x).queues = m.queues := rfl
@[simp] theorem setKek_nodes (m : Mod) (k : Nat) (x : Kek) : (setKek m k x).nodes = m.nodes := rfl
@[simp] theorem setKek_arbs (m : Mod) (k : Nat) (x : Kek) : (setKek m k x).arbs = m.arbs := rfl
@[simp] theorem setKek_gates (m : Mod) (k : Nat) (x : Kek) : (setKek m k x).gates = m.gates := rfl
@[simp] theorem setKek_over (m : Mod) (k : Nat) (x : Kek) : (setKek m k x).overs = m.overs := rfl
@[simp] theorem setKek_onceAt (m : Mod) (k : Nat) (x : Kek) : (setKek m k x).onceAt = m.onceAt := rfl
@[simp] theorem setKek_sources (m : Mod) (k : Nat) (x : Kek) : (setKek m k x).sources = m.sources := rfl
@[simp] theorem setKek_snap (m : Mod) (k : Nat) (x : Kek) : (setKek m k x).snap = m.snap := rfl
@[simp] theorem setKek_fw (m : Mod) (k : Nat) (x : Kek) : (setKek m k x).fw = m.fw := rfl
@[simp] theorem setKek_counted (m : Mod) (k : Nat) (x : Kek) : (setKek m k x).counted = m.counted := rfl
@[simp] theorem setKek_obj (m : Mod) (k : Nat) (x : Kek) : (setKek m k x).obj = m.obj := rfl
@[simp] theorem setKek_out (m : Mod) (k : Nat) (x : Kek) : (setKek m k x).out = m.out := rfl
@[simp] theorem setKek_drawn (m : Mod) (k : Nat) (x : Kek) : (setKek m k x).drawn = m.drawn := rfl
@[simp] theorem setKek_serials (m : Mod) (k : Nat) (x : Kek) : (setKek m k x).serials = m.serials := rfl
@[simp] theorem setKek_slots (m : Mod) (k : Nat) (x : Kek) : (setKek m k x).slots = m.slots := rfl

/-! ### setAssoc -/

@[simp] theorem setAssoc_sys (m : Mod) (k : Nat) (x : Assoc) : (setAssoc m k x).sys = m.sys := rfl
@[simp] theorem setAssoc_tether (m : Mod) (k : Nat) (x : Assoc) : (setAssoc m k x).tether = m.tether := rfl
@[simp] theorem setAssoc_ev (m : Mod) (k : Nat) (x : Assoc) : (setAssoc m k x).ev = m.ev := rfl
@[simp] theorem setAssoc_mgmt (m : Mod) (k : Nat) (x : Assoc) : (setAssoc m k x).mgmt = m.mgmt := rfl
@[simp] theorem setAssoc_time (m : Mod) (k : Nat) (x : Assoc) : (setAssoc m k x).time = m.time := rfl
@[simp] theorem setAssoc_lanes (m : Mod) (k : Nat) (x : Assoc) : (setAssoc m k x).lanes = m.lanes := rfl
@[simp] theorem setAssoc_ports (m : Mod) (k : Nat) (x : Assoc) : (setAssoc m k x).ports = m.ports := rfl
@[simp] theorem setAssoc_rx (m : Mod) (k : Nat) (x : Assoc) : (setAssoc m k x).rx = m.rx := rfl
@[simp] theorem setAssoc_tx (m : Mod) (k : Nat) (x : Assoc) : (setAssoc m k x).tx = m.tx := rfl
@[simp] theorem setAssoc_pm (m : Mod) (k : Nat) (x : Assoc) : (setAssoc m k x).pm = m.pm := rfl
@[simp] theorem setAssoc_stow (m : Mod) (k : Nat) (x : Assoc) : (setAssoc m k x).stow = m.stow := rfl
@[simp] theorem setAssoc_berths (m : Mod) (k : Nat) (x : Assoc) : (setAssoc m k x).berths = m.berths := rfl
@[simp] theorem setAssoc_keks (m : Mod) (k : Nat) (x : Assoc) : (setAssoc m k x).keks = m.keks := rfl
@[simp] theorem setAssoc_assocs (m : Mod) (k : Nat) (x : Assoc) : (setAssoc m k x).assocs = tset {} m.assocs k x := rfl
@[simp] theorem setAssoc_filters (m : Mod) (k : Nat) (x : Assoc) : (setAssoc m k x).filters = m.filters := rfl
@[simp] theorem setAssoc_banks (m : Mod) (k : Nat) (x : Assoc) : (setAssoc m k x).banks = m.banks := rfl
@[simp] theorem setAssoc_entropy (m : Mod) (k : Nat) (x : Assoc) : (setAssoc m k x).entropy = m.entropy := rfl
@[simp] theorem setAssoc_cls (m : Mod) (k : Nat) (x : Assoc) : (setAssoc m k x).cls = m.cls := rfl
@[simp] theorem setAssoc_queues (m : Mod) (k : Nat) (x : Assoc) : (setAssoc m k x).queues = m.queues := rfl
@[simp] theorem setAssoc_nodes (m : Mod) (k : Nat) (x : Assoc) : (setAssoc m k x).nodes = m.nodes := rfl
@[simp] theorem setAssoc_arbs (m : Mod) (k : Nat) (x : Assoc) : (setAssoc m k x).arbs = m.arbs := rfl
@[simp] theorem setAssoc_gates (m : Mod) (k : Nat) (x : Assoc) : (setAssoc m k x).gates = m.gates := rfl
@[simp] theorem setAssoc_over (m : Mod) (k : Nat) (x : Assoc) : (setAssoc m k x).overs = m.overs := rfl
@[simp] theorem setAssoc_onceAt (m : Mod) (k : Nat) (x : Assoc) : (setAssoc m k x).onceAt = m.onceAt := rfl
@[simp] theorem setAssoc_sources (m : Mod) (k : Nat) (x : Assoc) : (setAssoc m k x).sources = m.sources := rfl
@[simp] theorem setAssoc_snap (m : Mod) (k : Nat) (x : Assoc) : (setAssoc m k x).snap = m.snap := rfl
@[simp] theorem setAssoc_fw (m : Mod) (k : Nat) (x : Assoc) : (setAssoc m k x).fw = m.fw := rfl
@[simp] theorem setAssoc_counted (m : Mod) (k : Nat) (x : Assoc) : (setAssoc m k x).counted = m.counted := rfl
@[simp] theorem setAssoc_obj (m : Mod) (k : Nat) (x : Assoc) : (setAssoc m k x).obj = m.obj := rfl
@[simp] theorem setAssoc_out (m : Mod) (k : Nat) (x : Assoc) : (setAssoc m k x).out = m.out := rfl
@[simp] theorem setAssoc_drawn (m : Mod) (k : Nat) (x : Assoc) : (setAssoc m k x).drawn = m.drawn := rfl
@[simp] theorem setAssoc_serials (m : Mod) (k : Nat) (x : Assoc) : (setAssoc m k x).serials = m.serials := rfl
@[simp] theorem setAssoc_slots (m : Mod) (k : Nat) (x : Assoc) : (setAssoc m k x).slots = m.slots := rfl

/-! ### setBank -/

@[simp] theorem setBank_sys (m : Mod) (k : Nat) (x : Bank) : (setBank m k x).sys = m.sys := rfl
@[simp] theorem setBank_tether (m : Mod) (k : Nat) (x : Bank) : (setBank m k x).tether = m.tether := rfl
@[simp] theorem setBank_ev (m : Mod) (k : Nat) (x : Bank) : (setBank m k x).ev = m.ev := rfl
@[simp] theorem setBank_mgmt (m : Mod) (k : Nat) (x : Bank) : (setBank m k x).mgmt = m.mgmt := rfl
@[simp] theorem setBank_time (m : Mod) (k : Nat) (x : Bank) : (setBank m k x).time = m.time := rfl
@[simp] theorem setBank_lanes (m : Mod) (k : Nat) (x : Bank) : (setBank m k x).lanes = m.lanes := rfl
@[simp] theorem setBank_ports (m : Mod) (k : Nat) (x : Bank) : (setBank m k x).ports = m.ports := rfl
@[simp] theorem setBank_rx (m : Mod) (k : Nat) (x : Bank) : (setBank m k x).rx = m.rx := rfl
@[simp] theorem setBank_tx (m : Mod) (k : Nat) (x : Bank) : (setBank m k x).tx = m.tx := rfl
@[simp] theorem setBank_pm (m : Mod) (k : Nat) (x : Bank) : (setBank m k x).pm = m.pm := rfl
@[simp] theorem setBank_stow (m : Mod) (k : Nat) (x : Bank) : (setBank m k x).stow = m.stow := rfl
@[simp] theorem setBank_berths (m : Mod) (k : Nat) (x : Bank) : (setBank m k x).berths = m.berths := rfl
@[simp] theorem setBank_keks (m : Mod) (k : Nat) (x : Bank) : (setBank m k x).keks = m.keks := rfl
@[simp] theorem setBank_assocs (m : Mod) (k : Nat) (x : Bank) : (setBank m k x).assocs = m.assocs := rfl
@[simp] theorem setBank_filters (m : Mod) (k : Nat) (x : Bank) : (setBank m k x).filters = m.filters := rfl
@[simp] theorem setBank_banks (m : Mod) (k : Nat) (x : Bank) : (setBank m k x).banks = tset {} m.banks k x := rfl
@[simp] theorem setBank_entropy (m : Mod) (k : Nat) (x : Bank) : (setBank m k x).entropy = m.entropy := rfl
@[simp] theorem setBank_cls (m : Mod) (k : Nat) (x : Bank) : (setBank m k x).cls = m.cls := rfl
@[simp] theorem setBank_queues (m : Mod) (k : Nat) (x : Bank) : (setBank m k x).queues = m.queues := rfl
@[simp] theorem setBank_nodes (m : Mod) (k : Nat) (x : Bank) : (setBank m k x).nodes = m.nodes := rfl
@[simp] theorem setBank_arbs (m : Mod) (k : Nat) (x : Bank) : (setBank m k x).arbs = m.arbs := rfl
@[simp] theorem setBank_gates (m : Mod) (k : Nat) (x : Bank) : (setBank m k x).gates = m.gates := rfl
@[simp] theorem setBank_over (m : Mod) (k : Nat) (x : Bank) : (setBank m k x).overs = m.overs := rfl
@[simp] theorem setBank_onceAt (m : Mod) (k : Nat) (x : Bank) : (setBank m k x).onceAt = m.onceAt := rfl
@[simp] theorem setBank_sources (m : Mod) (k : Nat) (x : Bank) : (setBank m k x).sources = m.sources := rfl
@[simp] theorem setBank_snap (m : Mod) (k : Nat) (x : Bank) : (setBank m k x).snap = m.snap := rfl
@[simp] theorem setBank_fw (m : Mod) (k : Nat) (x : Bank) : (setBank m k x).fw = m.fw := rfl
@[simp] theorem setBank_counted (m : Mod) (k : Nat) (x : Bank) : (setBank m k x).counted = m.counted := rfl
@[simp] theorem setBank_obj (m : Mod) (k : Nat) (x : Bank) : (setBank m k x).obj = m.obj := rfl
@[simp] theorem setBank_out (m : Mod) (k : Nat) (x : Bank) : (setBank m k x).out = m.out := rfl
@[simp] theorem setBank_drawn (m : Mod) (k : Nat) (x : Bank) : (setBank m k x).drawn = m.drawn := rfl
@[simp] theorem setBank_serials (m : Mod) (k : Nat) (x : Bank) : (setBank m k x).serials = m.serials := rfl
@[simp] theorem setBank_slots (m : Mod) (k : Nat) (x : Bank) : (setBank m k x).slots = m.slots := rfl

/-! ### setEntropy -/

@[simp] theorem setEntropy_sys (m : Mod) (k : Nat) (x : Entropy) : (setEntropy m k x).sys = m.sys := rfl
@[simp] theorem setEntropy_tether (m : Mod) (k : Nat) (x : Entropy) : (setEntropy m k x).tether = m.tether := rfl
@[simp] theorem setEntropy_ev (m : Mod) (k : Nat) (x : Entropy) : (setEntropy m k x).ev = m.ev := rfl
@[simp] theorem setEntropy_mgmt (m : Mod) (k : Nat) (x : Entropy) : (setEntropy m k x).mgmt = m.mgmt := rfl
@[simp] theorem setEntropy_time (m : Mod) (k : Nat) (x : Entropy) : (setEntropy m k x).time = m.time := rfl
@[simp] theorem setEntropy_lanes (m : Mod) (k : Nat) (x : Entropy) : (setEntropy m k x).lanes = m.lanes := rfl
@[simp] theorem setEntropy_ports (m : Mod) (k : Nat) (x : Entropy) : (setEntropy m k x).ports = m.ports := rfl
@[simp] theorem setEntropy_rx (m : Mod) (k : Nat) (x : Entropy) : (setEntropy m k x).rx = m.rx := rfl
@[simp] theorem setEntropy_tx (m : Mod) (k : Nat) (x : Entropy) : (setEntropy m k x).tx = m.tx := rfl
@[simp] theorem setEntropy_pm (m : Mod) (k : Nat) (x : Entropy) : (setEntropy m k x).pm = m.pm := rfl
@[simp] theorem setEntropy_stow (m : Mod) (k : Nat) (x : Entropy) : (setEntropy m k x).stow = m.stow := rfl
@[simp] theorem setEntropy_berths (m : Mod) (k : Nat) (x : Entropy) : (setEntropy m k x).berths = m.berths := rfl
@[simp] theorem setEntropy_keks (m : Mod) (k : Nat) (x : Entropy) : (setEntropy m k x).keks = m.keks := rfl
@[simp] theorem setEntropy_assocs (m : Mod) (k : Nat) (x : Entropy) : (setEntropy m k x).assocs = m.assocs := rfl
@[simp] theorem setEntropy_filters (m : Mod) (k : Nat) (x : Entropy) : (setEntropy m k x).filters = m.filters := rfl
@[simp] theorem setEntropy_banks (m : Mod) (k : Nat) (x : Entropy) : (setEntropy m k x).banks = m.banks := rfl
@[simp] theorem setEntropy_entropy (m : Mod) (k : Nat) (x : Entropy) : (setEntropy m k x).entropy = tset {} m.entropy k x := rfl
@[simp] theorem setEntropy_cls (m : Mod) (k : Nat) (x : Entropy) : (setEntropy m k x).cls = m.cls := rfl
@[simp] theorem setEntropy_queues (m : Mod) (k : Nat) (x : Entropy) : (setEntropy m k x).queues = m.queues := rfl
@[simp] theorem setEntropy_nodes (m : Mod) (k : Nat) (x : Entropy) : (setEntropy m k x).nodes = m.nodes := rfl
@[simp] theorem setEntropy_arbs (m : Mod) (k : Nat) (x : Entropy) : (setEntropy m k x).arbs = m.arbs := rfl
@[simp] theorem setEntropy_gates (m : Mod) (k : Nat) (x : Entropy) : (setEntropy m k x).gates = m.gates := rfl
@[simp] theorem setEntropy_over (m : Mod) (k : Nat) (x : Entropy) : (setEntropy m k x).overs = m.overs := rfl
@[simp] theorem setEntropy_onceAt (m : Mod) (k : Nat) (x : Entropy) : (setEntropy m k x).onceAt = m.onceAt := rfl
@[simp] theorem setEntropy_sources (m : Mod) (k : Nat) (x : Entropy) : (setEntropy m k x).sources = m.sources := rfl
@[simp] theorem setEntropy_snap (m : Mod) (k : Nat) (x : Entropy) : (setEntropy m k x).snap = m.snap := rfl
@[simp] theorem setEntropy_fw (m : Mod) (k : Nat) (x : Entropy) : (setEntropy m k x).fw = m.fw := rfl
@[simp] theorem setEntropy_counted (m : Mod) (k : Nat) (x : Entropy) : (setEntropy m k x).counted = m.counted := rfl
@[simp] theorem setEntropy_obj (m : Mod) (k : Nat) (x : Entropy) : (setEntropy m k x).obj = m.obj := rfl
@[simp] theorem setEntropy_out (m : Mod) (k : Nat) (x : Entropy) : (setEntropy m k x).out = m.out := rfl
@[simp] theorem setEntropy_drawn (m : Mod) (k : Nat) (x : Entropy) : (setEntropy m k x).drawn = m.drawn := rfl
@[simp] theorem setEntropy_serials (m : Mod) (k : Nat) (x : Entropy) : (setEntropy m k x).serials = m.serials := rfl
@[simp] theorem setEntropy_slots (m : Mod) (k : Nat) (x : Entropy) : (setEntropy m k x).slots = m.slots := rfl

/-! ### setCls -/

@[simp] theorem setCls_sys (m : Mod) (k : Nat) (x : Cls) : (setCls m k x).sys = m.sys := rfl
@[simp] theorem setCls_tether (m : Mod) (k : Nat) (x : Cls) : (setCls m k x).tether = m.tether := rfl
@[simp] theorem setCls_ev (m : Mod) (k : Nat) (x : Cls) : (setCls m k x).ev = m.ev := rfl
@[simp] theorem setCls_mgmt (m : Mod) (k : Nat) (x : Cls) : (setCls m k x).mgmt = m.mgmt := rfl
@[simp] theorem setCls_time (m : Mod) (k : Nat) (x : Cls) : (setCls m k x).time = m.time := rfl
@[simp] theorem setCls_lanes (m : Mod) (k : Nat) (x : Cls) : (setCls m k x).lanes = m.lanes := rfl
@[simp] theorem setCls_ports (m : Mod) (k : Nat) (x : Cls) : (setCls m k x).ports = m.ports := rfl
@[simp] theorem setCls_rx (m : Mod) (k : Nat) (x : Cls) : (setCls m k x).rx = m.rx := rfl
@[simp] theorem setCls_tx (m : Mod) (k : Nat) (x : Cls) : (setCls m k x).tx = m.tx := rfl
@[simp] theorem setCls_pm (m : Mod) (k : Nat) (x : Cls) : (setCls m k x).pm = m.pm := rfl
@[simp] theorem setCls_stow (m : Mod) (k : Nat) (x : Cls) : (setCls m k x).stow = m.stow := rfl
@[simp] theorem setCls_berths (m : Mod) (k : Nat) (x : Cls) : (setCls m k x).berths = m.berths := rfl
@[simp] theorem setCls_keks (m : Mod) (k : Nat) (x : Cls) : (setCls m k x).keks = m.keks := rfl
@[simp] theorem setCls_assocs (m : Mod) (k : Nat) (x : Cls) : (setCls m k x).assocs = m.assocs := rfl
@[simp] theorem setCls_filters (m : Mod) (k : Nat) (x : Cls) : (setCls m k x).filters = m.filters := rfl
@[simp] theorem setCls_banks (m : Mod) (k : Nat) (x : Cls) : (setCls m k x).banks = m.banks := rfl
@[simp] theorem setCls_entropy (m : Mod) (k : Nat) (x : Cls) : (setCls m k x).entropy = m.entropy := rfl
@[simp] theorem setCls_cls (m : Mod) (k : Nat) (x : Cls) : (setCls m k x).cls = tset {} m.cls k x := rfl
@[simp] theorem setCls_queues (m : Mod) (k : Nat) (x : Cls) : (setCls m k x).queues = m.queues := rfl
@[simp] theorem setCls_nodes (m : Mod) (k : Nat) (x : Cls) : (setCls m k x).nodes = m.nodes := rfl
@[simp] theorem setCls_arbs (m : Mod) (k : Nat) (x : Cls) : (setCls m k x).arbs = m.arbs := rfl
@[simp] theorem setCls_gates (m : Mod) (k : Nat) (x : Cls) : (setCls m k x).gates = m.gates := rfl
@[simp] theorem setCls_over (m : Mod) (k : Nat) (x : Cls) : (setCls m k x).overs = m.overs := rfl
@[simp] theorem setCls_onceAt (m : Mod) (k : Nat) (x : Cls) : (setCls m k x).onceAt = m.onceAt := rfl
@[simp] theorem setCls_sources (m : Mod) (k : Nat) (x : Cls) : (setCls m k x).sources = m.sources := rfl
@[simp] theorem setCls_snap (m : Mod) (k : Nat) (x : Cls) : (setCls m k x).snap = m.snap := rfl
@[simp] theorem setCls_fw (m : Mod) (k : Nat) (x : Cls) : (setCls m k x).fw = m.fw := rfl
@[simp] theorem setCls_counted (m : Mod) (k : Nat) (x : Cls) : (setCls m k x).counted = m.counted := rfl
@[simp] theorem setCls_obj (m : Mod) (k : Nat) (x : Cls) : (setCls m k x).obj = m.obj := rfl
@[simp] theorem setCls_out (m : Mod) (k : Nat) (x : Cls) : (setCls m k x).out = m.out := rfl
@[simp] theorem setCls_drawn (m : Mod) (k : Nat) (x : Cls) : (setCls m k x).drawn = m.drawn := rfl
@[simp] theorem setCls_serials (m : Mod) (k : Nat) (x : Cls) : (setCls m k x).serials = m.serials := rfl
@[simp] theorem setCls_slots (m : Mod) (k : Nat) (x : Cls) : (setCls m k x).slots = m.slots := rfl

/-! ### setQueue -/

@[simp] theorem setQueue_sys (m : Mod) (k : Nat) (x : Queue) : (setQueue m k x).sys = m.sys := rfl
@[simp] theorem setQueue_tether (m : Mod) (k : Nat) (x : Queue) : (setQueue m k x).tether = m.tether := rfl
@[simp] theorem setQueue_ev (m : Mod) (k : Nat) (x : Queue) : (setQueue m k x).ev = m.ev := rfl
@[simp] theorem setQueue_mgmt (m : Mod) (k : Nat) (x : Queue) : (setQueue m k x).mgmt = m.mgmt := rfl
@[simp] theorem setQueue_time (m : Mod) (k : Nat) (x : Queue) : (setQueue m k x).time = m.time := rfl
@[simp] theorem setQueue_lanes (m : Mod) (k : Nat) (x : Queue) : (setQueue m k x).lanes = m.lanes := rfl
@[simp] theorem setQueue_ports (m : Mod) (k : Nat) (x : Queue) : (setQueue m k x).ports = m.ports := rfl
@[simp] theorem setQueue_rx (m : Mod) (k : Nat) (x : Queue) : (setQueue m k x).rx = m.rx := rfl
@[simp] theorem setQueue_tx (m : Mod) (k : Nat) (x : Queue) : (setQueue m k x).tx = m.tx := rfl
@[simp] theorem setQueue_pm (m : Mod) (k : Nat) (x : Queue) : (setQueue m k x).pm = m.pm := rfl
@[simp] theorem setQueue_stow (m : Mod) (k : Nat) (x : Queue) : (setQueue m k x).stow = m.stow := rfl
@[simp] theorem setQueue_berths (m : Mod) (k : Nat) (x : Queue) : (setQueue m k x).berths = m.berths := rfl
@[simp] theorem setQueue_keks (m : Mod) (k : Nat) (x : Queue) : (setQueue m k x).keks = m.keks := rfl
@[simp] theorem setQueue_assocs (m : Mod) (k : Nat) (x : Queue) : (setQueue m k x).assocs = m.assocs := rfl
@[simp] theorem setQueue_filters (m : Mod) (k : Nat) (x : Queue) : (setQueue m k x).filters = m.filters := rfl
@[simp] theorem setQueue_banks (m : Mod) (k : Nat) (x : Queue) : (setQueue m k x).banks = m.banks := rfl
@[simp] theorem setQueue_entropy (m : Mod) (k : Nat) (x : Queue) : (setQueue m k x).entropy = m.entropy := rfl
@[simp] theorem setQueue_cls (m : Mod) (k : Nat) (x : Queue) : (setQueue m k x).cls = m.cls := rfl
@[simp] theorem setQueue_queues (m : Mod) (k : Nat) (x : Queue) : (setQueue m k x).queues = tset {} m.queues k x := rfl
@[simp] theorem setQueue_nodes (m : Mod) (k : Nat) (x : Queue) : (setQueue m k x).nodes = m.nodes := rfl
@[simp] theorem setQueue_arbs (m : Mod) (k : Nat) (x : Queue) : (setQueue m k x).arbs = m.arbs := rfl
@[simp] theorem setQueue_gates (m : Mod) (k : Nat) (x : Queue) : (setQueue m k x).gates = m.gates := rfl
@[simp] theorem setQueue_over (m : Mod) (k : Nat) (x : Queue) : (setQueue m k x).overs = m.overs := rfl
@[simp] theorem setQueue_onceAt (m : Mod) (k : Nat) (x : Queue) : (setQueue m k x).onceAt = m.onceAt := rfl
@[simp] theorem setQueue_sources (m : Mod) (k : Nat) (x : Queue) : (setQueue m k x).sources = m.sources := rfl
@[simp] theorem setQueue_snap (m : Mod) (k : Nat) (x : Queue) : (setQueue m k x).snap = m.snap := rfl
@[simp] theorem setQueue_fw (m : Mod) (k : Nat) (x : Queue) : (setQueue m k x).fw = m.fw := rfl
@[simp] theorem setQueue_counted (m : Mod) (k : Nat) (x : Queue) : (setQueue m k x).counted = m.counted := rfl
@[simp] theorem setQueue_obj (m : Mod) (k : Nat) (x : Queue) : (setQueue m k x).obj = m.obj := rfl
@[simp] theorem setQueue_out (m : Mod) (k : Nat) (x : Queue) : (setQueue m k x).out = m.out := rfl
@[simp] theorem setQueue_drawn (m : Mod) (k : Nat) (x : Queue) : (setQueue m k x).drawn = m.drawn := rfl
@[simp] theorem setQueue_serials (m : Mod) (k : Nat) (x : Queue) : (setQueue m k x).serials = m.serials := rfl
@[simp] theorem setQueue_slots (m : Mod) (k : Nat) (x : Queue) : (setQueue m k x).slots = m.slots := rfl

/-! ### setNode -/

@[simp] theorem setNode_sys (m : Mod) (k : Nat) (x : Node) : (setNode m k x).sys = m.sys := rfl
@[simp] theorem setNode_tether (m : Mod) (k : Nat) (x : Node) : (setNode m k x).tether = m.tether := rfl
@[simp] theorem setNode_ev (m : Mod) (k : Nat) (x : Node) : (setNode m k x).ev = m.ev := rfl
@[simp] theorem setNode_mgmt (m : Mod) (k : Nat) (x : Node) : (setNode m k x).mgmt = m.mgmt := rfl
@[simp] theorem setNode_time (m : Mod) (k : Nat) (x : Node) : (setNode m k x).time = m.time := rfl
@[simp] theorem setNode_lanes (m : Mod) (k : Nat) (x : Node) : (setNode m k x).lanes = m.lanes := rfl
@[simp] theorem setNode_ports (m : Mod) (k : Nat) (x : Node) : (setNode m k x).ports = m.ports := rfl
@[simp] theorem setNode_rx (m : Mod) (k : Nat) (x : Node) : (setNode m k x).rx = m.rx := rfl
@[simp] theorem setNode_tx (m : Mod) (k : Nat) (x : Node) : (setNode m k x).tx = m.tx := rfl
@[simp] theorem setNode_pm (m : Mod) (k : Nat) (x : Node) : (setNode m k x).pm = m.pm := rfl
@[simp] theorem setNode_stow (m : Mod) (k : Nat) (x : Node) : (setNode m k x).stow = m.stow := rfl
@[simp] theorem setNode_berths (m : Mod) (k : Nat) (x : Node) : (setNode m k x).berths = m.berths := rfl
@[simp] theorem setNode_keks (m : Mod) (k : Nat) (x : Node) : (setNode m k x).keks = m.keks := rfl
@[simp] theorem setNode_assocs (m : Mod) (k : Nat) (x : Node) : (setNode m k x).assocs = m.assocs := rfl
@[simp] theorem setNode_filters (m : Mod) (k : Nat) (x : Node) : (setNode m k x).filters = m.filters := rfl
@[simp] theorem setNode_banks (m : Mod) (k : Nat) (x : Node) : (setNode m k x).banks = m.banks := rfl
@[simp] theorem setNode_entropy (m : Mod) (k : Nat) (x : Node) : (setNode m k x).entropy = m.entropy := rfl
@[simp] theorem setNode_cls (m : Mod) (k : Nat) (x : Node) : (setNode m k x).cls = m.cls := rfl
@[simp] theorem setNode_queues (m : Mod) (k : Nat) (x : Node) : (setNode m k x).queues = m.queues := rfl
@[simp] theorem setNode_nodes (m : Mod) (k : Nat) (x : Node) : (setNode m k x).nodes = tset {} m.nodes k x := rfl
@[simp] theorem setNode_arbs (m : Mod) (k : Nat) (x : Node) : (setNode m k x).arbs = m.arbs := rfl
@[simp] theorem setNode_gates (m : Mod) (k : Nat) (x : Node) : (setNode m k x).gates = m.gates := rfl
@[simp] theorem setNode_over (m : Mod) (k : Nat) (x : Node) : (setNode m k x).overs = m.overs := rfl
@[simp] theorem setNode_onceAt (m : Mod) (k : Nat) (x : Node) : (setNode m k x).onceAt = m.onceAt := rfl
@[simp] theorem setNode_sources (m : Mod) (k : Nat) (x : Node) : (setNode m k x).sources = m.sources := rfl
@[simp] theorem setNode_snap (m : Mod) (k : Nat) (x : Node) : (setNode m k x).snap = m.snap := rfl
@[simp] theorem setNode_fw (m : Mod) (k : Nat) (x : Node) : (setNode m k x).fw = m.fw := rfl
@[simp] theorem setNode_counted (m : Mod) (k : Nat) (x : Node) : (setNode m k x).counted = m.counted := rfl
@[simp] theorem setNode_obj (m : Mod) (k : Nat) (x : Node) : (setNode m k x).obj = m.obj := rfl
@[simp] theorem setNode_out (m : Mod) (k : Nat) (x : Node) : (setNode m k x).out = m.out := rfl
@[simp] theorem setNode_drawn (m : Mod) (k : Nat) (x : Node) : (setNode m k x).drawn = m.drawn := rfl
@[simp] theorem setNode_serials (m : Mod) (k : Nat) (x : Node) : (setNode m k x).serials = m.serials := rfl
@[simp] theorem setNode_slots (m : Mod) (k : Nat) (x : Node) : (setNode m k x).slots = m.slots := rfl

/-! ### setArb -/

@[simp] theorem setArb_sys (m : Mod) (k : Nat) (x : Arb) : (setArb m k x).sys = m.sys := rfl
@[simp] theorem setArb_tether (m : Mod) (k : Nat) (x : Arb) : (setArb m k x).tether = m.tether := rfl
@[simp] theorem setArb_ev (m : Mod) (k : Nat) (x : Arb) : (setArb m k x).ev = m.ev := rfl
@[simp] theorem setArb_mgmt (m : Mod) (k : Nat) (x : Arb) : (setArb m k x).mgmt = m.mgmt := rfl
@[simp] theorem setArb_time (m : Mod) (k : Nat) (x : Arb) : (setArb m k x).time = m.time := rfl
@[simp] theorem setArb_lanes (m : Mod) (k : Nat) (x : Arb) : (setArb m k x).lanes = m.lanes := rfl
@[simp] theorem setArb_ports (m : Mod) (k : Nat) (x : Arb) : (setArb m k x).ports = m.ports := rfl
@[simp] theorem setArb_rx (m : Mod) (k : Nat) (x : Arb) : (setArb m k x).rx = m.rx := rfl
@[simp] theorem setArb_tx (m : Mod) (k : Nat) (x : Arb) : (setArb m k x).tx = m.tx := rfl
@[simp] theorem setArb_pm (m : Mod) (k : Nat) (x : Arb) : (setArb m k x).pm = m.pm := rfl
@[simp] theorem setArb_stow (m : Mod) (k : Nat) (x : Arb) : (setArb m k x).stow = m.stow := rfl
@[simp] theorem setArb_berths (m : Mod) (k : Nat) (x : Arb) : (setArb m k x).berths = m.berths := rfl
@[simp] theorem setArb_keks (m : Mod) (k : Nat) (x : Arb) : (setArb m k x).keks = m.keks := rfl
@[simp] theorem setArb_assocs (m : Mod) (k : Nat) (x : Arb) : (setArb m k x).assocs = m.assocs := rfl
@[simp] theorem setArb_filters (m : Mod) (k : Nat) (x : Arb) : (setArb m k x).filters = m.filters := rfl
@[simp] theorem setArb_banks (m : Mod) (k : Nat) (x : Arb) : (setArb m k x).banks = m.banks := rfl
@[simp] theorem setArb_entropy (m : Mod) (k : Nat) (x : Arb) : (setArb m k x).entropy = m.entropy := rfl
@[simp] theorem setArb_cls (m : Mod) (k : Nat) (x : Arb) : (setArb m k x).cls = m.cls := rfl
@[simp] theorem setArb_queues (m : Mod) (k : Nat) (x : Arb) : (setArb m k x).queues = m.queues := rfl
@[simp] theorem setArb_nodes (m : Mod) (k : Nat) (x : Arb) : (setArb m k x).nodes = m.nodes := rfl
@[simp] theorem setArb_arbs (m : Mod) (k : Nat) (x : Arb) : (setArb m k x).arbs = tset {} m.arbs k x := rfl
@[simp] theorem setArb_gates (m : Mod) (k : Nat) (x : Arb) : (setArb m k x).gates = m.gates := rfl
@[simp] theorem setArb_over (m : Mod) (k : Nat) (x : Arb) : (setArb m k x).overs = m.overs := rfl
@[simp] theorem setArb_onceAt (m : Mod) (k : Nat) (x : Arb) : (setArb m k x).onceAt = m.onceAt := rfl
@[simp] theorem setArb_sources (m : Mod) (k : Nat) (x : Arb) : (setArb m k x).sources = m.sources := rfl
@[simp] theorem setArb_snap (m : Mod) (k : Nat) (x : Arb) : (setArb m k x).snap = m.snap := rfl
@[simp] theorem setArb_fw (m : Mod) (k : Nat) (x : Arb) : (setArb m k x).fw = m.fw := rfl
@[simp] theorem setArb_counted (m : Mod) (k : Nat) (x : Arb) : (setArb m k x).counted = m.counted := rfl
@[simp] theorem setArb_obj (m : Mod) (k : Nat) (x : Arb) : (setArb m k x).obj = m.obj := rfl
@[simp] theorem setArb_out (m : Mod) (k : Nat) (x : Arb) : (setArb m k x).out = m.out := rfl
@[simp] theorem setArb_drawn (m : Mod) (k : Nat) (x : Arb) : (setArb m k x).drawn = m.drawn := rfl
@[simp] theorem setArb_serials (m : Mod) (k : Nat) (x : Arb) : (setArb m k x).serials = m.serials := rfl
@[simp] theorem setArb_slots (m : Mod) (k : Nat) (x : Arb) : (setArb m k x).slots = m.slots := rfl

/-! ### setGate -/

@[simp] theorem setGate_sys (m : Mod) (k : Nat) (x : Gate) : (setGate m k x).sys = m.sys := rfl
@[simp] theorem setGate_tether (m : Mod) (k : Nat) (x : Gate) : (setGate m k x).tether = m.tether := rfl
@[simp] theorem setGate_ev (m : Mod) (k : Nat) (x : Gate) : (setGate m k x).ev = m.ev := rfl
@[simp] theorem setGate_mgmt (m : Mod) (k : Nat) (x : Gate) : (setGate m k x).mgmt = m.mgmt := rfl
@[simp] theorem setGate_time (m : Mod) (k : Nat) (x : Gate) : (setGate m k x).time = m.time := rfl
@[simp] theorem setGate_lanes (m : Mod) (k : Nat) (x : Gate) : (setGate m k x).lanes = m.lanes := rfl
@[simp] theorem setGate_ports (m : Mod) (k : Nat) (x : Gate) : (setGate m k x).ports = m.ports := rfl
@[simp] theorem setGate_rx (m : Mod) (k : Nat) (x : Gate) : (setGate m k x).rx = m.rx := rfl
@[simp] theorem setGate_tx (m : Mod) (k : Nat) (x : Gate) : (setGate m k x).tx = m.tx := rfl
@[simp] theorem setGate_pm (m : Mod) (k : Nat) (x : Gate) : (setGate m k x).pm = m.pm := rfl
@[simp] theorem setGate_stow (m : Mod) (k : Nat) (x : Gate) : (setGate m k x).stow = m.stow := rfl
@[simp] theorem setGate_berths (m : Mod) (k : Nat) (x : Gate) : (setGate m k x).berths = m.berths := rfl
@[simp] theorem setGate_keks (m : Mod) (k : Nat) (x : Gate) : (setGate m k x).keks = m.keks := rfl
@[simp] theorem setGate_assocs (m : Mod) (k : Nat) (x : Gate) : (setGate m k x).assocs = m.assocs := rfl
@[simp] theorem setGate_filters (m : Mod) (k : Nat) (x : Gate) : (setGate m k x).filters = m.filters := rfl
@[simp] theorem setGate_banks (m : Mod) (k : Nat) (x : Gate) : (setGate m k x).banks = m.banks := rfl
@[simp] theorem setGate_entropy (m : Mod) (k : Nat) (x : Gate) : (setGate m k x).entropy = m.entropy := rfl
@[simp] theorem setGate_cls (m : Mod) (k : Nat) (x : Gate) : (setGate m k x).cls = m.cls := rfl
@[simp] theorem setGate_queues (m : Mod) (k : Nat) (x : Gate) : (setGate m k x).queues = m.queues := rfl
@[simp] theorem setGate_nodes (m : Mod) (k : Nat) (x : Gate) : (setGate m k x).nodes = m.nodes := rfl
@[simp] theorem setGate_arbs (m : Mod) (k : Nat) (x : Gate) : (setGate m k x).arbs = m.arbs := rfl
@[simp] theorem setGate_gates (m : Mod) (k : Nat) (x : Gate) : (setGate m k x).gates = tset {} m.gates k x := rfl
@[simp] theorem setGate_over (m : Mod) (k : Nat) (x : Gate) : (setGate m k x).overs = m.overs := rfl
@[simp] theorem setGate_onceAt (m : Mod) (k : Nat) (x : Gate) : (setGate m k x).onceAt = m.onceAt := rfl
@[simp] theorem setGate_sources (m : Mod) (k : Nat) (x : Gate) : (setGate m k x).sources = m.sources := rfl
@[simp] theorem setGate_snap (m : Mod) (k : Nat) (x : Gate) : (setGate m k x).snap = m.snap := rfl
@[simp] theorem setGate_fw (m : Mod) (k : Nat) (x : Gate) : (setGate m k x).fw = m.fw := rfl
@[simp] theorem setGate_counted (m : Mod) (k : Nat) (x : Gate) : (setGate m k x).counted = m.counted := rfl
@[simp] theorem setGate_obj (m : Mod) (k : Nat) (x : Gate) : (setGate m k x).obj = m.obj := rfl
@[simp] theorem setGate_out (m : Mod) (k : Nat) (x : Gate) : (setGate m k x).out = m.out := rfl
@[simp] theorem setGate_drawn (m : Mod) (k : Nat) (x : Gate) : (setGate m k x).drawn = m.drawn := rfl
@[simp] theorem setGate_serials (m : Mod) (k : Nat) (x : Gate) : (setGate m k x).serials = m.serials := rfl
@[simp] theorem setGate_slots (m : Mod) (k : Nat) (x : Gate) : (setGate m k x).slots = m.slots := rfl

/-! ### setSess -/

@[simp] theorem setSess_sys (m : Mod) (k : Nat) (x : Sess) : (setSess m k x).sys = m.sys := rfl
@[simp] theorem setSess_tether (m : Mod) (k : Nat) (x : Sess) : (setSess m k x).tether = m.tether := rfl
@[simp] theorem setSess_ev (m : Mod) (k : Nat) (x : Sess) : (setSess m k x).ev = m.ev := rfl
@[simp] theorem setSess_time (m : Mod) (k : Nat) (x : Sess) : (setSess m k x).time = m.time := rfl
@[simp] theorem setSess_lanes (m : Mod) (k : Nat) (x : Sess) : (setSess m k x).lanes = m.lanes := rfl
@[simp] theorem setSess_ports (m : Mod) (k : Nat) (x : Sess) : (setSess m k x).ports = m.ports := rfl
@[simp] theorem setSess_rx (m : Mod) (k : Nat) (x : Sess) : (setSess m k x).rx = m.rx := rfl
@[simp] theorem setSess_tx (m : Mod) (k : Nat) (x : Sess) : (setSess m k x).tx = m.tx := rfl
@[simp] theorem setSess_pm (m : Mod) (k : Nat) (x : Sess) : (setSess m k x).pm = m.pm := rfl
@[simp] theorem setSess_stow (m : Mod) (k : Nat) (x : Sess) : (setSess m k x).stow = m.stow := rfl
@[simp] theorem setSess_berths (m : Mod) (k : Nat) (x : Sess) : (setSess m k x).berths = m.berths := rfl
@[simp] theorem setSess_keks (m : Mod) (k : Nat) (x : Sess) : (setSess m k x).keks = m.keks := rfl
@[simp] theorem setSess_assocs (m : Mod) (k : Nat) (x : Sess) : (setSess m k x).assocs = m.assocs := rfl
@[simp] theorem setSess_filters (m : Mod) (k : Nat) (x : Sess) : (setSess m k x).filters = m.filters := rfl
@[simp] theorem setSess_banks (m : Mod) (k : Nat) (x : Sess) : (setSess m k x).banks = m.banks := rfl
@[simp] theorem setSess_entropy (m : Mod) (k : Nat) (x : Sess) : (setSess m k x).entropy = m.entropy := rfl
@[simp] theorem setSess_cls (m : Mod) (k : Nat) (x : Sess) : (setSess m k x).cls = m.cls := rfl
@[simp] theorem setSess_queues (m : Mod) (k : Nat) (x : Sess) : (setSess m k x).queues = m.queues := rfl
@[simp] theorem setSess_nodes (m : Mod) (k : Nat) (x : Sess) : (setSess m k x).nodes = m.nodes := rfl
@[simp] theorem setSess_arbs (m : Mod) (k : Nat) (x : Sess) : (setSess m k x).arbs = m.arbs := rfl
@[simp] theorem setSess_gates (m : Mod) (k : Nat) (x : Sess) : (setSess m k x).gates = m.gates := rfl
@[simp] theorem setSess_over (m : Mod) (k : Nat) (x : Sess) : (setSess m k x).overs = m.overs := rfl
@[simp] theorem setSess_onceAt (m : Mod) (k : Nat) (x : Sess) : (setSess m k x).onceAt = m.onceAt := rfl
@[simp] theorem setSess_sources (m : Mod) (k : Nat) (x : Sess) : (setSess m k x).sources = m.sources := rfl
@[simp] theorem setSess_snap (m : Mod) (k : Nat) (x : Sess) : (setSess m k x).snap = m.snap := rfl
@[simp] theorem setSess_fw (m : Mod) (k : Nat) (x : Sess) : (setSess m k x).fw = m.fw := rfl
@[simp] theorem setSess_counted (m : Mod) (k : Nat) (x : Sess) : (setSess m k x).counted = m.counted := rfl
@[simp] theorem setSess_obj (m : Mod) (k : Nat) (x : Sess) : (setSess m k x).obj = m.obj := rfl
@[simp] theorem setSess_out (m : Mod) (k : Nat) (x : Sess) : (setSess m k x).out = m.out := rfl
@[simp] theorem setSess_drawn (m : Mod) (k : Nat) (x : Sess) : (setSess m k x).drawn = m.drawn := rfl
@[simp] theorem setSess_serials (m : Mod) (k : Nat) (x : Sess) : (setSess m k x).serials = m.serials := rfl
@[simp] theorem setSess_slots (m : Mod) (k : Nat) (x : Sess) : (setSess m k x).slots = m.slots := rfl
@[simp] theorem setSess_mgmt_sessions (m : Mod) (k : Nat) (x : Sess) : (setSess m k x).mgmt.sessions = tset {} m.mgmt.sessions k x := rfl
@[simp] theorem setSess_mgmt_expired (m : Mod) (k : Nat) (x : Sess) : (setSess m k x).mgmt.expired = m.mgmt.expired := rfl
@[simp] theorem setSess_mgmt_pilot (m : Mod) (k : Nat) (x : Sess) : (setSess m k x).mgmt.pilot = m.mgmt.pilot := rfl
@[simp] theorem setSess_mgmt_relay (m : Mod) (k : Nat) (x : Sess) : (setSess m k x).mgmt.relay = m.mgmt.relay := rfl
@[simp] theorem setSess_mgmt_icept (m : Mod) (k : Nat) (x : Sess) : (setSess m k x).mgmt.icept = m.mgmt.icept := rfl
@[simp] theorem setSess_mgmt_linkUp (m : Mod) (k : Nat) (x : Sess) : (setSess m k x).mgmt.linkUp = m.mgmt.linkUp := rfl
@[simp] theorem setSess_mgmt_fails (m : Mod) (k : Nat) (x : Sess) : (setSess m k x).mgmt.fails = m.mgmt.fails := rfl
@[simp] theorem setSess_mgmt_lockedTo (m : Mod) (k : Nat) (x : Sess) : (setSess m k x).mgmt.lockedTo = m.mgmt.lockedTo := rfl
@[simp] theorem setSess_mgmt_lastUse (m : Mod) (k : Nat) (x : Sess) : (setSess m k x).mgmt.lastUse = m.mgmt.lastUse := rfl
@[simp] theorem setSess_mgmt_pathFree (m : Mod) (k : Nat) (x : Sess) : (setSess m k x).mgmt.pathFree = m.mgmt.pathFree := rfl
@[simp] theorem setSess_mgmt_pathNext (m : Mod) (k : Nat) (x : Sess) : (setSess m k x).mgmt.pathNext = m.mgmt.pathNext := rfl
@[simp] theorem setSess_mgmt_grants (m : Mod) (k : Nat) (x : Sess) : (setSess m k x).mgmt.grants = m.mgmt.grants := rfl
@[simp] theorem setSess_mgmt_debugBy (m : Mod) (k : Nat) (x : Sess) : (setSess m k x).mgmt.debugBy = m.mgmt.debugBy := rfl
@[simp] theorem setSess_mgmt_retireBy (m : Mod) (k : Nat) (x : Sess) : (setSess m k x).mgmt.retireBy = m.mgmt.retireBy := rfl
@[simp] theorem setSess_mgmt_scratch (m : Mod) (k : Nat) (x : Sess) : (setSess m k x).mgmt.scratch = m.mgmt.scratch := rfl
@[simp] theorem setSess_mgmt_taps (m : Mod) (k : Nat) (x : Sess) : (setSess m k x).mgmt.taps = m.mgmt.taps := rfl
@[simp] theorem setSess_mgmt_reports (m : Mod) (k : Nat) (x : Sess) : (setSess m k x).mgmt.reports = m.mgmt.reports := rfl

/-! ### setObj and setNat -/

@[simp] theorem setObj_sys (m : Mod) (idx sub elem : Nat) (v : Val) : (setObj m idx sub elem v).sys = m.sys := rfl
@[simp] theorem setObj_tether (m : Mod) (idx sub elem : Nat) (v : Val) : (setObj m idx sub elem v).tether = m.tether := rfl
@[simp] theorem setObj_ev (m : Mod) (idx sub elem : Nat) (v : Val) : (setObj m idx sub elem v).ev = m.ev := rfl
@[simp] theorem setObj_mgmt (m : Mod) (idx sub elem : Nat) (v : Val) : (setObj m idx sub elem v).mgmt = m.mgmt := rfl
@[simp] theorem setObj_time (m : Mod) (idx sub elem : Nat) (v : Val) : (setObj m idx sub elem v).time = m.time := rfl
@[simp] theorem setObj_lanes (m : Mod) (idx sub elem : Nat) (v : Val) : (setObj m idx sub elem v).lanes = m.lanes := rfl
@[simp] theorem setObj_ports (m : Mod) (idx sub elem : Nat) (v : Val) : (setObj m idx sub elem v).ports = m.ports := rfl
@[simp] theorem setObj_rx (m : Mod) (idx sub elem : Nat) (v : Val) : (setObj m idx sub elem v).rx = m.rx := rfl
@[simp] theorem setObj_tx (m : Mod) (idx sub elem : Nat) (v : Val) : (setObj m idx sub elem v).tx = m.tx := rfl
@[simp] theorem setObj_pm (m : Mod) (idx sub elem : Nat) (v : Val) : (setObj m idx sub elem v).pm = m.pm := rfl
@[simp] theorem setObj_stow (m : Mod) (idx sub elem : Nat) (v : Val) : (setObj m idx sub elem v).stow = m.stow := rfl
@[simp] theorem setObj_berths (m : Mod) (idx sub elem : Nat) (v : Val) : (setObj m idx sub elem v).berths = m.berths := rfl
@[simp] theorem setObj_keks (m : Mod) (idx sub elem : Nat) (v : Val) : (setObj m idx sub elem v).keks = m.keks := rfl
@[simp] theorem setObj_assocs (m : Mod) (idx sub elem : Nat) (v : Val) : (setObj m idx sub elem v).assocs = m.assocs := rfl
@[simp] theorem setObj_filters (m : Mod) (idx sub elem : Nat) (v : Val) : (setObj m idx sub elem v).filters = m.filters := rfl
@[simp] theorem setObj_banks (m : Mod) (idx sub elem : Nat) (v : Val) : (setObj m idx sub elem v).banks = m.banks := rfl
@[simp] theorem setObj_entropy (m : Mod) (idx sub elem : Nat) (v : Val) : (setObj m idx sub elem v).entropy = m.entropy := rfl
@[simp] theorem setObj_cls (m : Mod) (idx sub elem : Nat) (v : Val) : (setObj m idx sub elem v).cls = m.cls := rfl
@[simp] theorem setObj_queues (m : Mod) (idx sub elem : Nat) (v : Val) : (setObj m idx sub elem v).queues = m.queues := rfl
@[simp] theorem setObj_nodes (m : Mod) (idx sub elem : Nat) (v : Val) : (setObj m idx sub elem v).nodes = m.nodes := rfl
@[simp] theorem setObj_arbs (m : Mod) (idx sub elem : Nat) (v : Val) : (setObj m idx sub elem v).arbs = m.arbs := rfl
@[simp] theorem setObj_gates (m : Mod) (idx sub elem : Nat) (v : Val) : (setObj m idx sub elem v).gates = m.gates := rfl
@[simp] theorem setObj_over (m : Mod) (idx sub elem : Nat) (v : Val) : (setObj m idx sub elem v).overs = m.overs := rfl
@[simp] theorem setObj_onceAt (m : Mod) (idx sub elem : Nat) (v : Val) : (setObj m idx sub elem v).onceAt = m.onceAt := rfl
@[simp] theorem setObj_sources (m : Mod) (idx sub elem : Nat) (v : Val) : (setObj m idx sub elem v).sources = m.sources := rfl
@[simp] theorem setObj_snap (m : Mod) (idx sub elem : Nat) (v : Val) : (setObj m idx sub elem v).snap = m.snap := rfl
@[simp] theorem setObj_fw (m : Mod) (idx sub elem : Nat) (v : Val) : (setObj m idx sub elem v).fw = m.fw := rfl
@[simp] theorem setObj_counted (m : Mod) (idx sub elem : Nat) (v : Val) : (setObj m idx sub elem v).counted = m.counted := rfl
@[simp] theorem setObj_obj (m : Mod) (idx sub elem : Nat) (v : Val) : (setObj m idx sub elem v).obj = putVal m.obj idx sub elem v := rfl
@[simp] theorem setObj_out (m : Mod) (idx sub elem : Nat) (v : Val) : (setObj m idx sub elem v).out = m.out := rfl
@[simp] theorem setObj_drawn (m : Mod) (idx sub elem : Nat) (v : Val) : (setObj m idx sub elem v).drawn = m.drawn := rfl
@[simp] theorem setObj_serials (m : Mod) (idx sub elem : Nat) (v : Val) : (setObj m idx sub elem v).serials = m.serials := rfl
@[simp] theorem setObj_slots (m : Mod) (idx sub elem : Nat) (v : Val) : (setObj m idx sub elem v).slots = m.slots := rfl
theorem setNat_eq (m : Mod) (idx sub elem n : Nat) : setNat m idx sub elem n = setObj m idx sub elem (.nat n) := rfl
@[simp] theorem setNat_sys (m : Mod) (idx sub elem n : Nat) : (setNat m idx sub elem n).sys = m.sys := rfl
@[simp] theorem setNat_tether (m : Mod) (idx sub elem n : Nat) : (setNat m idx sub elem n).tether = m.tether := rfl
@[simp] theorem setNat_ev (m : Mod) (idx sub elem n : Nat) : (setNat m idx sub elem n).ev = m.ev := rfl
@[simp] theorem setNat_mgmt (m : Mod) (idx sub elem n : Nat) : (setNat m idx sub elem n).mgmt = m.mgmt := rfl
@[simp] theorem setNat_time (m : Mod) (idx sub elem n : Nat) : (setNat m idx sub elem n).time = m.time := rfl
@[simp] theorem setNat_lanes (m : Mod) (idx sub elem n : Nat) : (setNat m idx sub elem n).lanes = m.lanes := rfl
@[simp] theorem setNat_ports (m : Mod) (idx sub elem n : Nat) : (setNat m idx sub elem n).ports = m.ports := rfl
@[simp] theorem setNat_rx (m : Mod) (idx sub elem n : Nat) : (setNat m idx sub elem n).rx = m.rx := rfl
@[simp] theorem setNat_tx (m : Mod) (idx sub elem n : Nat) : (setNat m idx sub elem n).tx = m.tx := rfl
@[simp] theorem setNat_pm (m : Mod) (idx sub elem n : Nat) : (setNat m idx sub elem n).pm = m.pm := rfl
@[simp] theorem setNat_stow (m : Mod) (idx sub elem n : Nat) : (setNat m idx sub elem n).stow = m.stow := rfl
@[simp] theorem setNat_berths (m : Mod) (idx sub elem n : Nat) : (setNat m idx sub elem n).berths = m.berths := rfl
@[simp] theorem setNat_keks (m : Mod) (idx sub elem n : Nat) : (setNat m idx sub elem n).keks = m.keks := rfl
@[simp] theorem setNat_assocs (m : Mod) (idx sub elem n : Nat) : (setNat m idx sub elem n).assocs = m.assocs := rfl
@[simp] theorem setNat_filters (m : Mod) (idx sub elem n : Nat) : (setNat m idx sub elem n).filters = m.filters := rfl
@[simp] theorem setNat_banks (m : Mod) (idx sub elem n : Nat) : (setNat m idx sub elem n).banks = m.banks := rfl
@[simp] theorem setNat_entropy (m : Mod) (idx sub elem n : Nat) : (setNat m idx sub elem n).entropy = m.entropy := rfl
@[simp] theorem setNat_cls (m : Mod) (idx sub elem n : Nat) : (setNat m idx sub elem n).cls = m.cls := rfl
@[simp] theorem setNat_queues (m : Mod) (idx sub elem n : Nat) : (setNat m idx sub elem n).queues = m.queues := rfl
@[simp] theorem setNat_nodes (m : Mod) (idx sub elem n : Nat) : (setNat m idx sub elem n).nodes = m.nodes := rfl
@[simp] theorem setNat_arbs (m : Mod) (idx sub elem n : Nat) : (setNat m idx sub elem n).arbs = m.arbs := rfl
@[simp] theorem setNat_gates (m : Mod) (idx sub elem n : Nat) : (setNat m idx sub elem n).gates = m.gates := rfl
@[simp] theorem setNat_over (m : Mod) (idx sub elem n : Nat) : (setNat m idx sub elem n).overs = m.overs := rfl
@[simp] theorem setNat_onceAt (m : Mod) (idx sub elem n : Nat) : (setNat m idx sub elem n).onceAt = m.onceAt := rfl
@[simp] theorem setNat_sources (m : Mod) (idx sub elem n : Nat) : (setNat m idx sub elem n).sources = m.sources := rfl
@[simp] theorem setNat_snap (m : Mod) (idx sub elem n : Nat) : (setNat m idx sub elem n).snap = m.snap := rfl
@[simp] theorem setNat_fw (m : Mod) (idx sub elem n : Nat) : (setNat m idx sub elem n).fw = m.fw := rfl
@[simp] theorem setNat_counted (m : Mod) (idx sub elem n : Nat) : (setNat m idx sub elem n).counted = m.counted := rfl
@[simp] theorem setNat_obj (m : Mod) (idx sub elem n : Nat) : (setNat m idx sub elem n).obj = putVal m.obj idx sub elem (.nat n) := rfl
@[simp] theorem setNat_out (m : Mod) (idx sub elem n : Nat) : (setNat m idx sub elem n).out = m.out := rfl
@[simp] theorem setNat_drawn (m : Mod) (idx sub elem n : Nat) : (setNat m idx sub elem n).drawn = m.drawn := rfl
@[simp] theorem setNat_serials (m : Mod) (idx sub elem n : Nat) : (setNat m idx sub elem n).serials = m.serials := rfl
@[simp] theorem setNat_slots (m : Mod) (idx sub elem n : Nat) : (setNat m idx sub elem n).slots = m.slots := rfl

/-! ### emit and draw -/

@[simp] theorem emit_sys (m : Mod) (o : Out) : (emit m o).sys = m.sys := rfl
@[simp] theorem emit_tether (m : Mod) (o : Out) : (emit m o).tether = m.tether := rfl
@[simp] theorem emit_ev (m : Mod) (o : Out) : (emit m o).ev = m.ev := rfl
@[simp] theorem emit_mgmt (m : Mod) (o : Out) : (emit m o).mgmt = m.mgmt := rfl
@[simp] theorem emit_time (m : Mod) (o : Out) : (emit m o).time = m.time := rfl
@[simp] theorem emit_lanes (m : Mod) (o : Out) : (emit m o).lanes = m.lanes := rfl
@[simp] theorem emit_ports (m : Mod) (o : Out) : (emit m o).ports = m.ports := rfl
@[simp] theorem emit_rx (m : Mod) (o : Out) : (emit m o).rx = m.rx := rfl
@[simp] theorem emit_tx (m : Mod) (o : Out) : (emit m o).tx = m.tx := rfl
@[simp] theorem emit_pm (m : Mod) (o : Out) : (emit m o).pm = m.pm := rfl
@[simp] theorem emit_stow (m : Mod) (o : Out) : (emit m o).stow = m.stow := rfl
@[simp] theorem emit_berths (m : Mod) (o : Out) : (emit m o).berths = m.berths := rfl
@[simp] theorem emit_keks (m : Mod) (o : Out) : (emit m o).keks = m.keks := rfl
@[simp] theorem emit_assocs (m : Mod) (o : Out) : (emit m o).assocs = m.assocs := rfl
@[simp] theorem emit_filters (m : Mod) (o : Out) : (emit m o).filters = m.filters := rfl
@[simp] theorem emit_banks (m : Mod) (o : Out) : (emit m o).banks = m.banks := rfl
@[simp] theorem emit_entropy (m : Mod) (o : Out) : (emit m o).entropy = m.entropy := rfl
@[simp] theorem emit_cls (m : Mod) (o : Out) : (emit m o).cls = m.cls := rfl
@[simp] theorem emit_queues (m : Mod) (o : Out) : (emit m o).queues = m.queues := rfl
@[simp] theorem emit_nodes (m : Mod) (o : Out) : (emit m o).nodes = m.nodes := rfl
@[simp] theorem emit_arbs (m : Mod) (o : Out) : (emit m o).arbs = m.arbs := rfl
@[simp] theorem emit_gates (m : Mod) (o : Out) : (emit m o).gates = m.gates := rfl
@[simp] theorem emit_over (m : Mod) (o : Out) : (emit m o).overs = m.overs := rfl
@[simp] theorem emit_onceAt (m : Mod) (o : Out) : (emit m o).onceAt = m.onceAt := rfl
@[simp] theorem emit_sources (m : Mod) (o : Out) : (emit m o).sources = m.sources := rfl
@[simp] theorem emit_snap (m : Mod) (o : Out) : (emit m o).snap = m.snap := rfl
@[simp] theorem emit_fw (m : Mod) (o : Out) : (emit m o).fw = m.fw := rfl
@[simp] theorem emit_counted (m : Mod) (o : Out) : (emit m o).counted = m.counted := rfl
@[simp] theorem emit_obj (m : Mod) (o : Out) : (emit m o).obj = m.obj := rfl
@[simp] theorem emit_out (m : Mod) (o : Out) : (emit m o).out = m.out ++ [o] := rfl
@[simp] theorem emit_drawn (m : Mod) (o : Out) : (emit m o).drawn = m.drawn := rfl
@[simp] theorem emit_serials (m : Mod) (o : Out) : (emit m o).serials = m.serials := rfl
@[simp] theorem emit_slots (m : Mod) (o : Out) : (emit m o).slots = m.slots := rfl
@[simp] theorem draw_sys (m : Mod) (src n : Nat) : (draw m src n).2.sys = m.sys := rfl
@[simp] theorem draw_tether (m : Mod) (src n : Nat) : (draw m src n).2.tether = m.tether := rfl
@[simp] theorem draw_ev (m : Mod) (src n : Nat) : (draw m src n).2.ev = m.ev := rfl
@[simp] theorem draw_mgmt (m : Mod) (src n : Nat) : (draw m src n).2.mgmt = m.mgmt := rfl
@[simp] theorem draw_time (m : Mod) (src n : Nat) : (draw m src n).2.time = m.time := rfl
@[simp] theorem draw_lanes (m : Mod) (src n : Nat) : (draw m src n).2.lanes = m.lanes := rfl
@[simp] theorem draw_ports (m : Mod) (src n : Nat) : (draw m src n).2.ports = m.ports := rfl
@[simp] theorem draw_rx (m : Mod) (src n : Nat) : (draw m src n).2.rx = m.rx := rfl
@[simp] theorem draw_tx (m : Mod) (src n : Nat) : (draw m src n).2.tx = m.tx := rfl
@[simp] theorem draw_pm (m : Mod) (src n : Nat) : (draw m src n).2.pm = m.pm := rfl
@[simp] theorem draw_stow (m : Mod) (src n : Nat) : (draw m src n).2.stow = m.stow := rfl
@[simp] theorem draw_berths (m : Mod) (src n : Nat) : (draw m src n).2.berths = m.berths := rfl
@[simp] theorem draw_keks (m : Mod) (src n : Nat) : (draw m src n).2.keks = m.keks := rfl
@[simp] theorem draw_assocs (m : Mod) (src n : Nat) : (draw m src n).2.assocs = m.assocs := rfl
@[simp] theorem draw_filters (m : Mod) (src n : Nat) : (draw m src n).2.filters = m.filters := rfl
@[simp] theorem draw_banks (m : Mod) (src n : Nat) : (draw m src n).2.banks = m.banks := rfl
@[simp] theorem draw_entropy (m : Mod) (src n : Nat) : (draw m src n).2.entropy = m.entropy := rfl
@[simp] theorem draw_cls (m : Mod) (src n : Nat) : (draw m src n).2.cls = m.cls := rfl
@[simp] theorem draw_queues (m : Mod) (src n : Nat) : (draw m src n).2.queues = m.queues := rfl
@[simp] theorem draw_nodes (m : Mod) (src n : Nat) : (draw m src n).2.nodes = m.nodes := rfl
@[simp] theorem draw_arbs (m : Mod) (src n : Nat) : (draw m src n).2.arbs = m.arbs := rfl
@[simp] theorem draw_gates (m : Mod) (src n : Nat) : (draw m src n).2.gates = m.gates := rfl
@[simp] theorem draw_over (m : Mod) (src n : Nat) : (draw m src n).2.overs = m.overs := rfl
@[simp] theorem draw_onceAt (m : Mod) (src n : Nat) : (draw m src n).2.onceAt = m.onceAt := rfl
@[simp] theorem draw_sources (m : Mod) (src n : Nat) : (draw m src n).2.sources = m.sources := rfl
@[simp] theorem draw_snap (m : Mod) (src n : Nat) : (draw m src n).2.snap = m.snap := rfl
@[simp] theorem draw_fw (m : Mod) (src n : Nat) : (draw m src n).2.fw = m.fw := rfl
@[simp] theorem draw_counted (m : Mod) (src n : Nat) : (draw m src n).2.counted = m.counted := rfl
@[simp] theorem draw_obj (m : Mod) (src n : Nat) : (draw m src n).2.obj = m.obj := rfl
@[simp] theorem draw_out (m : Mod) (src n : Nat) : (draw m src n).2.out = m.out := rfl
@[simp] theorem draw_drawn (m : Mod) (src n : Nat) :
    (draw m src n).2.drawn = tset {} m.drawn src ((tget ({} : Feed) m.drawn src).after n) := rfl
@[simp] theorem draw_serials (m : Mod) (src n : Nat) : (draw m src n).2.serials = m.serials := rfl
@[simp] theorem draw_slots (m : Mod) (src n : Nat) : (draw m src n).2.slots = m.slots := rfl
@[simp] theorem discardInput_sys (m : Mod) (src : Nat) : (discardInput m src).sys = m.sys := rfl
@[simp] theorem discardInput_tether (m : Mod) (src : Nat) : (discardInput m src).tether = m.tether := rfl
@[simp] theorem discardInput_ev (m : Mod) (src : Nat) : (discardInput m src).ev = m.ev := rfl
@[simp] theorem discardInput_mgmt (m : Mod) (src : Nat) : (discardInput m src).mgmt = m.mgmt := rfl
@[simp] theorem discardInput_time (m : Mod) (src : Nat) : (discardInput m src).time = m.time := rfl
@[simp] theorem discardInput_lanes (m : Mod) (src : Nat) : (discardInput m src).lanes = m.lanes := rfl
@[simp] theorem discardInput_ports (m : Mod) (src : Nat) : (discardInput m src).ports = m.ports := rfl
@[simp] theorem discardInput_rx (m : Mod) (src : Nat) : (discardInput m src).rx = m.rx := rfl
@[simp] theorem discardInput_tx (m : Mod) (src : Nat) : (discardInput m src).tx = m.tx := rfl
@[simp] theorem discardInput_pm (m : Mod) (src : Nat) : (discardInput m src).pm = m.pm := rfl
@[simp] theorem discardInput_stow (m : Mod) (src : Nat) : (discardInput m src).stow = m.stow := rfl
@[simp] theorem discardInput_berths (m : Mod) (src : Nat) : (discardInput m src).berths = m.berths := rfl
@[simp] theorem discardInput_keks (m : Mod) (src : Nat) : (discardInput m src).keks = m.keks := rfl
@[simp] theorem discardInput_assocs (m : Mod) (src : Nat) : (discardInput m src).assocs = m.assocs := rfl
@[simp] theorem discardInput_filters (m : Mod) (src : Nat) : (discardInput m src).filters = m.filters := rfl
@[simp] theorem discardInput_banks (m : Mod) (src : Nat) : (discardInput m src).banks = m.banks := rfl
@[simp] theorem discardInput_entropy (m : Mod) (src : Nat) : (discardInput m src).entropy = m.entropy := rfl
@[simp] theorem discardInput_cls (m : Mod) (src : Nat) : (discardInput m src).cls = m.cls := rfl
@[simp] theorem discardInput_queues (m : Mod) (src : Nat) : (discardInput m src).queues = m.queues := rfl
@[simp] theorem discardInput_nodes (m : Mod) (src : Nat) : (discardInput m src).nodes = m.nodes := rfl
@[simp] theorem discardInput_arbs (m : Mod) (src : Nat) : (discardInput m src).arbs = m.arbs := rfl
@[simp] theorem discardInput_gates (m : Mod) (src : Nat) : (discardInput m src).gates = m.gates := rfl
@[simp] theorem discardInput_over (m : Mod) (src : Nat) : (discardInput m src).overs = m.overs := rfl
@[simp] theorem discardInput_onceAt (m : Mod) (src : Nat) : (discardInput m src).onceAt = m.onceAt := rfl
@[simp] theorem discardInput_sources (m : Mod) (src : Nat) : (discardInput m src).sources = m.sources := rfl
@[simp] theorem discardInput_snap (m : Mod) (src : Nat) : (discardInput m src).snap = m.snap := rfl
@[simp] theorem discardInput_fw (m : Mod) (src : Nat) : (discardInput m src).fw = m.fw := rfl
@[simp] theorem discardInput_counted (m : Mod) (src : Nat) : (discardInput m src).counted = m.counted := rfl
@[simp] theorem discardInput_obj (m : Mod) (src : Nat) : (discardInput m src).obj = m.obj := rfl
@[simp] theorem discardInput_out (m : Mod) (src : Nat) : (discardInput m src).out = m.out := rfl
@[simp] theorem discardInput_serials (m : Mod) (src : Nat) : (discardInput m src).serials = m.serials := rfl
@[simp] theorem discardInput_slots (m : Mod) (src : Nat) : (discardInput m src).slots = m.slots := rfl

/-! ### raise -/

@[simp] theorem raise_sys (m : Mod) (code src bpid : Nat) (params : Octets) : (raise m code src bpid params).sys = m.sys := rfl
@[simp] theorem raise_tether (m : Mod) (code src bpid : Nat) (params : Octets) : (raise m code src bpid params).tether = m.tether := rfl
@[simp] theorem raise_mgmt (m : Mod) (code src bpid : Nat) (params : Octets) : (raise m code src bpid params).mgmt = m.mgmt := rfl
@[simp] theorem raise_time (m : Mod) (code src bpid : Nat) (params : Octets) : (raise m code src bpid params).time = m.time := rfl
@[simp] theorem raise_lanes (m : Mod) (code src bpid : Nat) (params : Octets) : (raise m code src bpid params).lanes = m.lanes := rfl
@[simp] theorem raise_ports (m : Mod) (code src bpid : Nat) (params : Octets) : (raise m code src bpid params).ports = m.ports := rfl
@[simp] theorem raise_rx (m : Mod) (code src bpid : Nat) (params : Octets) : (raise m code src bpid params).rx = m.rx := rfl
@[simp] theorem raise_tx (m : Mod) (code src bpid : Nat) (params : Octets) : (raise m code src bpid params).tx = m.tx := rfl
@[simp] theorem raise_pm (m : Mod) (code src bpid : Nat) (params : Octets) : (raise m code src bpid params).pm = m.pm := rfl
@[simp] theorem raise_stow (m : Mod) (code src bpid : Nat) (params : Octets) : (raise m code src bpid params).stow = m.stow := rfl
@[simp] theorem raise_berths (m : Mod) (code src bpid : Nat) (params : Octets) : (raise m code src bpid params).berths = m.berths := rfl
@[simp] theorem raise_keks (m : Mod) (code src bpid : Nat) (params : Octets) : (raise m code src bpid params).keks = m.keks := rfl
@[simp] theorem raise_assocs (m : Mod) (code src bpid : Nat) (params : Octets) : (raise m code src bpid params).assocs = m.assocs := rfl
@[simp] theorem raise_filters (m : Mod) (code src bpid : Nat) (params : Octets) : (raise m code src bpid params).filters = m.filters := rfl
@[simp] theorem raise_banks (m : Mod) (code src bpid : Nat) (params : Octets) : (raise m code src bpid params).banks = m.banks := rfl
@[simp] theorem raise_entropy (m : Mod) (code src bpid : Nat) (params : Octets) : (raise m code src bpid params).entropy = m.entropy := rfl
@[simp] theorem raise_cls (m : Mod) (code src bpid : Nat) (params : Octets) : (raise m code src bpid params).cls = m.cls := rfl
@[simp] theorem raise_queues (m : Mod) (code src bpid : Nat) (params : Octets) : (raise m code src bpid params).queues = m.queues := rfl
@[simp] theorem raise_nodes (m : Mod) (code src bpid : Nat) (params : Octets) : (raise m code src bpid params).nodes = m.nodes := rfl
@[simp] theorem raise_arbs (m : Mod) (code src bpid : Nat) (params : Octets) : (raise m code src bpid params).arbs = m.arbs := rfl
@[simp] theorem raise_gates (m : Mod) (code src bpid : Nat) (params : Octets) : (raise m code src bpid params).gates = m.gates := rfl
@[simp] theorem raise_over (m : Mod) (code src bpid : Nat) (params : Octets) : (raise m code src bpid params).overs = m.overs := rfl
@[simp] theorem raise_onceAt (m : Mod) (code src bpid : Nat) (params : Octets) : (raise m code src bpid params).onceAt = m.onceAt := rfl
@[simp] theorem raise_sources (m : Mod) (code src bpid : Nat) (params : Octets) : (raise m code src bpid params).sources = m.sources := rfl
@[simp] theorem raise_snap (m : Mod) (code src bpid : Nat) (params : Octets) : (raise m code src bpid params).snap = m.snap := rfl
@[simp] theorem raise_fw (m : Mod) (code src bpid : Nat) (params : Octets) : (raise m code src bpid params).fw = m.fw := rfl
@[simp] theorem raise_counted (m : Mod) (code src bpid : Nat) (params : Octets) : (raise m code src bpid params).counted = m.counted := rfl
@[simp] theorem raise_obj (m : Mod) (code src bpid : Nat) (params : Octets) : (raise m code src bpid params).obj = m.obj := rfl
@[simp] theorem raise_out (m : Mod) (code src bpid : Nat) (params : Octets) : (raise m code src bpid params).out = m.out := rfl
@[simp] theorem raise_drawn (m : Mod) (code src bpid : Nat) (params : Octets) : (raise m code src bpid params).drawn = m.drawn := rfl
@[simp] theorem raise_serials (m : Mod) (code src bpid : Nat) (params : Octets) : (raise m code src bpid params).serials = m.serials := rfl
@[simp] theorem raise_slots (m : Mod) (code src bpid : Nat) (params : Octets) : (raise m code src bpid params).slots = m.slots := rfl
theorem raise_ev (m : Mod) (code src bpid : Nat) (params : Octets) :
    (raise m code src bpid params).ev = record m { m.ev with seq := (m.ev.seq + 1) % 2 ^ 32 } (mkRec m code src bpid params) := rfl

end Sys2Proof.Machine
end

