-- ==== Sys2Proof/Laws/Dictionary.lean ====
section
/-! SUPPORT. Objects: the keys of the dictionary, and what an object reads as after a write. -/

namespace Sys2Proof.Machine

/-- Keys tell objects and elements apart. -/
theorem okey_inj {i s e i' s' e' : Nat} (hs : s < 256) (hs' : s' < 256) (h : okey i s e = okey i' s' e') :
    i = i' ∧ s = s' ∧ e % 2 ^ 32 = e' % 2 ^ 32 := by
  unfold okey at h
  omega

/-! ### Tables searched -/

@[simp] theorem tfind_nil {α : Type} (k : Nat) : tfind ([] : Tbl α) k = none := rfl

theorem tfind_tdel_same {α : Type} (t : Tbl α) (k : Nat) : tfind (tdel t k) k = none := by
  induction t with
  | nil => rfl
  | cons e r ih =>
    by_cases h : e.1 = k
    · simpa [tdel, h] using ih
    · simpa [tdel, h, tfind] using ih

theorem tfind_tdel_ne {α : Type} (t : Tbl α) {k j : Nat} (hj : j ≠ k) : tfind (tdel t k) j = tfind t j := by
  induction t with
  | nil => rfl
  | cons e r ih =>
    by_cases h : e.1 = k
    · have hr : tdel (e :: r) k = tdel r k := by simp [tdel, h]
      rw [hr, ih]
      simp [tfind, h, Ne.symm hj]
    · have hr : tdel (e :: r) k = e :: tdel r k := by simp [tdel, h]
      rw [hr]
      simp only [tfind, ih]

theorem tfind_tins_same {α : Type} (t : Tbl α) (k : Nat) (v : α) (h : ∀ e ∈ t, e.1 ≠ k) : tfind (tins k v t) k = some v := by
  induction t with
  | nil => simp [tins, tfind]
  | cons e r ih =>
    have he : e.1 ≠ k := h e (by simp)
    simp only [tins]
    split
    · simp [tfind]
    · simp only [tfind, he, if_false]
      exact ih fun x hx => h x (by simp [hx])

theorem tfind_tins_ne {α : Type} (t : Tbl α) {k j : Nat} (v : α) (hj : j ≠ k) : tfind (tins k v t) j = tfind t j := by
  induction t with
  | nil => simp [tins, tfind, Ne.symm hj]
  | cons e r ih =>
    simp only [tins]
    split
    · simp [tfind, Ne.symm hj]
    · simp only [tfind, ih]

/-! ### Writing an object -/

/-- An object put in a table is found, or left out because it has its default. -/
theorem tfind_putVal_same (t : Tbl Val) (idx sub elem : Nat) (v : Val) :
    tfind (putVal t idx sub elem v) (okey idx sub elem) = if v = dfltOf idx sub elem then none else some v := by
  unfold putVal
  split
  · exact tfind_tdel_same _ _
  · exact tfind_tins_same _ _ _ (tdel_key_ne _ _)

theorem tfind_putVal_ne (t : Tbl Val) {idx sub elem k : Nat} (v : Val) (h : k ≠ okey idx sub elem) :
    tfind (putVal t idx sub elem v) k = tfind t k := by
  unfold putVal
  split
  · exact tfind_tdel_ne _ h
  · rw [tfind_tins_ne _ _ h, tfind_tdel_ne _ h]

/-- An object written as a number reads as that number. -/
@[simp] theorem inf_setNat_same (m : Mod) (idx sub elem n : Nat) (h : ¬(idx = 0x2100 ∧ sub ≠ 8)) :
    inf (setNat m idx sub elem n) idx sub elem = n := by
  have key := tfind_putVal_same m.obj idx sub elem (.nat n)
  unfold inf look
  simp only [tfind_nil, store, h, if_false, setNat_obj, key]
  by_cases hd : Val.nat n = dfltOf idx sub elem
  · simp only [hd, if_true]
    have hr : ¬(idx = 0x4000 ∧ sub = 0x0B) := by
      rintro ⟨rfl, rfl⟩
      simp [dfltOf] at hd
    have hs : ¬(idx = 0x8010 ∧ sub = 0x06) := by
      rintro ⟨rfl, rfl⟩
      simp [dfltOf] at hd
    simp only [hr, hs, if_false, ← hd, Val.toNat]
  · simp only [hd, if_false, Val.toNat]

/-- Writing one object leaves the value of another, but for the type and suite of an association (its rekey threshold) and the kind and
basin of a region (its rights), whose defaults follow them. -/
theorem look_setObj_ne (m : Mod) {idx sub elem i s e : Nat} (v : Val) (h : okey i s e ≠ okey idx sub elem)
    (hd : (idx, sub) ∉ [(0x4000, 1), (0x4000, 2), (0x8010, 1), (0x8010, 5)]) (hs : sub < 256) :
    look (setObj m idx sub elem v) [] i s e = look m [] i s e := by
  have st : ∀ j t f, okey j t f ≠ okey idx sub elem →
      tfind (store (setObj m idx sub elem v) j t) (okey j t f) = tfind (store m j t) (okey j t f) := by
    intro j t f hk
    unfold store
    split
    · rfl
    · exact tfind_putVal_ne _ _ hk
  have ne : ∀ j t, (j, t) ∈ [(0x4000, 1), (0x4000, 2), (0x8010, 1), (0x8010, 5)] → okey j t e ≠ okey idx sub elem := by
    intro j t hm hk
    have ht : t < 256 := by
      simp only [List.mem_cons, Prod.mk.injEq, List.not_mem_nil, or_false] at hm
      omega
    obtain ⟨rfl, rfl, -⟩ := okey_inj ht hs hk
    exact hd hm
  unfold look
  simp only [tfind_nil, st i s e h, st 0x4000 1 e (ne _ _ (by simp)), st 0x4000 2 e (ne _ _ (by simp)), st 0x8010 1 e (ne _ _ (by simp)),
    st 0x8010 5 e (ne _ _ (by simp))]

theorem inf_setNat_ne (m : Mod) {idx sub elem n i s e : Nat} (h : okey i s e ≠ okey idx sub elem)
    (hd : (idx, sub) ∉ [(0x4000, 1), (0x4000, 2), (0x8010, 1), (0x8010, 5)]) (hs : sub < 256) :
    inf (setNat m idx sub elem n) i s e = inf m i s e :=
  congrArg Val.toNat (look_setObj_ne m (.nat n) h hd hs)

/-! ### Counting -/

/-- A count writes its counter and, where the counter is then full, raises an event (R823). -/
theorem bump_form (m : Mod) (idx sub elem n : Nat) :
    ∃ v ev, bump m idx sub elem n = { setNat m idx sub elem v with ev := ev } ∧
      ∀ o, objRow idx sub = some o → v = satAdd (8 * o.ty.size) (inf m idx sub elem) n := by
  unfold bump
  cases ho : objRow idx sub with
  | none =>
    dsimp only
    split
    · exact ⟨_, _, rfl, by simp⟩
    · exact ⟨_, _, rfl, by simp⟩
  | some o =>
    dsimp only
    split
    · exact ⟨_, _, rfl, by simp⟩
    · exact ⟨_, _, rfl, by simp⟩

/-- The counter of a count: the old value plus the number, up to the all-ones value of its type. -/
theorem bump_obj (m : Mod) (idx sub elem n : Nat) (o : Obj) (ho : objRow idx sub = some o) :
    (bump m idx sub elem n).obj = putVal m.obj idx sub elem (.nat (satAdd (8 * o.ty.size) (inf m idx sub elem) n)) := by
  obtain ⟨v, ev, h, hv⟩ := bump_form m idx sub elem n
  rw [h, ← hv o ho]
  rfl

@[simp] theorem bump_sys (m : Mod) (idx sub elem n : Nat) : (bump m idx sub elem n).sys = m.sys := by
  obtain ⟨v, ev, h, -⟩ := bump_form m idx sub elem n; rw [h]; rfl
@[simp] theorem bump_tether (m : Mod) (idx sub elem n : Nat) : (bump m idx sub elem n).tether = m.tether := by
  obtain ⟨v, ev, h, -⟩ := bump_form m idx sub elem n; rw [h]; rfl
@[simp] theorem bump_mgmt (m : Mod) (idx sub elem n : Nat) : (bump m idx sub elem n).mgmt = m.mgmt := by
  obtain ⟨v, ev, h, -⟩ := bump_form m idx sub elem n; rw [h]; rfl
@[simp] theorem bump_time (m : Mod) (idx sub elem n : Nat) : (bump m idx sub elem n).time = m.time := by
  obtain ⟨v, ev, h, -⟩ := bump_form m idx sub elem n; rw [h]; rfl
@[simp] theorem bump_lanes (m : Mod) (idx sub elem n : Nat) : (bump m idx sub elem n).lanes = m.lanes := by
  obtain ⟨v, ev, h, -⟩ := bump_form m idx sub elem n; rw [h]; rfl
@[simp] theorem bump_ports (m : Mod) (idx sub elem n : Nat) : (bump m idx sub elem n).ports = m.ports := by
  obtain ⟨v, ev, h, -⟩ := bump_form m idx sub elem n; rw [h]; rfl
@[simp] theorem bump_rx (m : Mod) (idx sub elem n : Nat) : (bump m idx sub elem n).rx = m.rx := by
  obtain ⟨v, ev, h, -⟩ := bump_form m idx sub elem n; rw [h]; rfl
@[simp] theorem bump_tx (m : Mod) (idx sub elem n : Nat) : (bump m idx sub elem n).tx = m.tx := by
  obtain ⟨v, ev, h, -⟩ := bump_form m idx sub elem n; rw [h]; rfl
@[simp] theorem bump_pm (m : Mod) (idx sub elem n : Nat) : (bump m idx sub elem n).pm = m.pm := by
  obtain ⟨v, ev, h, -⟩ := bump_form m idx sub elem n; rw [h]; rfl
@[simp] theorem bump_stow (m : Mod) (idx sub elem n : Nat) : (bump m idx sub elem n).stow = m.stow := by
  obtain ⟨v, ev, h, -⟩ := bump_form m idx sub elem n; rw [h]; rfl
@[simp] theorem bump_berths (m : Mod) (idx sub elem n : Nat) : (bump m idx sub elem n).berths = m.berths := by
  obtain ⟨v, ev, h, -⟩ := bump_form m idx sub elem n; rw [h]; rfl
@[simp] theorem bump_keks (m : Mod) (idx sub elem n : Nat) : (bump m idx sub elem n).keks = m.keks := by
  obtain ⟨v, ev, h, -⟩ := bump_form m idx sub elem n; rw [h]; rfl
@[simp] theorem bump_assocs (m : Mod) (idx sub elem n : Nat) : (bump m idx sub elem n).assocs = m.assocs := by
  obtain ⟨v, ev, h, -⟩ := bump_form m idx sub elem n; rw [h]; rfl
@[simp] theorem bump_filters (m : Mod) (idx sub elem n : Nat) : (bump m idx sub elem n).filters = m.filters := by
  obtain ⟨v, ev, h, -⟩ := bump_form m idx sub elem n; rw [h]; rfl
@[simp] theorem bump_banks (m : Mod) (idx sub elem n : Nat) : (bump m idx sub elem n).banks = m.banks := by
  obtain ⟨v, ev, h, -⟩ := bump_form m idx sub elem n; rw [h]; rfl
@[simp] theorem bump_entropy (m : Mod) (idx sub elem n : Nat) : (bump m idx sub elem n).entropy = m.entropy := by
  obtain ⟨v, ev, h, -⟩ := bump_form m idx sub elem n; rw [h]; rfl
@[simp] theorem bump_cls (m : Mod) (idx sub elem n : Nat) : (bump m idx sub elem n).cls = m.cls := by
  obtain ⟨v, ev, h, -⟩ := bump_form m idx sub elem n; rw [h]; rfl
@[simp] theorem bump_queues (m : Mod) (idx sub elem n : Nat) : (bump m idx sub elem n).queues = m.queues := by
  obtain ⟨v, ev, h, -⟩ := bump_form m idx sub elem n; rw [h]; rfl
@[simp] theorem bump_nodes (m : Mod) (idx sub elem n : Nat) : (bump m idx sub elem n).nodes = m.nodes := by
  obtain ⟨v, ev, h, -⟩ := bump_form m idx sub elem n; rw [h]; rfl
@[simp] theorem bump_arbs (m : Mod) (idx sub elem n : Nat) : (bump m idx sub elem n).arbs = m.arbs := by
  obtain ⟨v, ev, h, -⟩ := bump_form m idx sub elem n; rw [h]; rfl
@[simp] theorem bump_gates (m : Mod) (idx sub elem n : Nat) : (bump m idx sub elem n).gates = m.gates := by
  obtain ⟨v, ev, h, -⟩ := bump_form m idx sub elem n; rw [h]; rfl
@[simp] theorem bump_over (m : Mod) (idx sub elem n : Nat) : (bump m idx sub elem n).overs = m.overs := by
  obtain ⟨v, ev, h, -⟩ := bump_form m idx sub elem n; rw [h]; rfl
@[simp] theorem bump_onceAt (m : Mod) (idx sub elem n : Nat) : (bump m idx sub elem n).onceAt = m.onceAt := by
  obtain ⟨v, ev, h, -⟩ := bump_form m idx sub elem n; rw [h]; rfl
@[simp] theorem bump_sources (m : Mod) (idx sub elem n : Nat) : (bump m idx sub elem n).sources = m.sources := by
  obtain ⟨v, ev, h, -⟩ := bump_form m idx sub elem n; rw [h]; rfl
@[simp] theorem bump_snap (m : Mod) (idx sub elem n : Nat) : (bump m idx sub elem n).snap = m.snap := by
  obtain ⟨v, ev, h, -⟩ := bump_form m idx sub elem n; rw [h]; rfl
@[simp] theorem bump_fw (m : Mod) (idx sub elem n : Nat) : (bump m idx sub elem n).fw = m.fw := by
  obtain ⟨v, ev, h, -⟩ := bump_form m idx sub elem n; rw [h]; rfl
@[simp] theorem bump_counted (m : Mod) (idx sub elem n : Nat) : (bump m idx sub elem n).counted = m.counted := by
  obtain ⟨v, ev, h, -⟩ := bump_form m idx sub elem n; rw [h]; rfl
@[simp] theorem bump_out (m : Mod) (idx sub elem n : Nat) : (bump m idx sub elem n).out = m.out := by
  obtain ⟨v, ev, h, -⟩ := bump_form m idx sub elem n; rw [h]; rfl
@[simp] theorem bump_serials (m : Mod) (idx sub elem n : Nat) : (bump m idx sub elem n).serials = m.serials := by
  obtain ⟨v, ev, h, -⟩ := bump_form m idx sub elem n; rw [h]; rfl
@[simp] theorem bump_slots (m : Mod) (idx sub elem n : Nat) : (bump m idx sub elem n).slots = m.slots := by
  obtain ⟨v, ev, h, -⟩ := bump_form m idx sub elem n; rw [h]; rfl
@[simp] theorem bump_drawn (m : Mod) (idx sub elem n : Nat) : (bump m idx sub elem n).drawn = m.drawn := by
  obtain ⟨v, ev, h, -⟩ := bump_form m idx sub elem n; rw [h]; rfl

/-- What objects read as after a count. -/
theorem look_bump (m : Mod) (idx sub elem n : Nat) (o : Obj) (ho : objRow idx sub = some o) :
    look (bump m idx sub elem n) = look (setNat m idx sub elem (satAdd (8 * o.ty.size) (inf m idx sub elem) n)) := by
  obtain ⟨v, ev, h, hv⟩ := bump_form m idx sub elem n
  rw [h, ← hv o ho]
  rfl

/-- A counter counts. -/
theorem inf_bump_same (m : Mod) (idx sub elem n : Nat) (o : Obj) (ho : objRow idx sub = some o) (h : ¬(idx = 0x2100 ∧ sub ≠ 8)) :
    inf (bump m idx sub elem n) idx sub elem = satAdd (8 * o.ty.size) (inf m idx sub elem) n := by
  unfold inf
  rw [look_bump m idx sub elem n o ho]
  exact inf_setNat_same m idx sub elem _ h

/-- A count leaves the other objects. -/
theorem look_bump_ne (m : Mod) {idx sub elem n i s e : Nat} (o : Obj) (ho : objRow idx sub = some o) (h : okey i s e ≠ okey idx sub elem)
    (hd : (idx, sub) ∉ [(0x4000, 1), (0x4000, 2), (0x8010, 1), (0x8010, 5)]) (hs : sub < 256) :
    look (bump m idx sub elem n) [] i s e = look m [] i s e := by
  rw [look_bump m idx sub elem n o ho]
  exact look_setObj_ne m _ h hd hs

/-! ### Events at most once a second -/

/-- An event raised at most once a second changes the journal side and when it was last raised. -/
theorem raiseOnce_eq (m : Mod) (code unit src bpid : Nat) (params : Octets) :
    raiseOnce m code unit src bpid params =
      { m with ev := (raiseOnce m code unit src bpid params).ev, onceAt := (raiseOnce m code unit src bpid params).onceAt } := by
  unfold raiseOnce
  dsimp only
  split
  · split <;> rfl
  · rfl

end Sys2Proof.Machine
end

