-- ==== Sys2Proof/Laws/PerInstr.lean ====
section
/-! SUPPORT. Per-command facts about the syntax: the message header a command carries, and that a well-formed command's header fits
its fields. -/

namespace Sys2Proof

/-- The header of the Camanent message that carries a command, for the commands that a message carries (R742). -/
def Laws.headerOf : Instr → Option Hdr
  | .open_ h _ _ _ _ _ _ => some h
  | .prove h _ => some h
  | .close h => some h
  | .read h _ => some h
  | .write h _ => some h
  | .readElements h _ _ => some h
  | .writeElements h _ _ _ => some h
  | .commit h => some h
  | .commitDryRun h => some h
  | .subscribe h _ => some h
  | .relayMessage h _ => some h
  | .relayReturn _ _ _ => none
  | .mchMessageReceive _ _ _ => none
  | .mgmtPortFrame _ _ _ => none
  | .sessionProveTimeout _ => none
  | .sessionIdleExpire _ => none
  | .sessionIdForget _ => none
  | .credentialLockExpire _ => none
  | .relayEntryLapse _ _ => none
  | .sessionPilotTakeover => none
  | .interceptReplySend _ => none
  | .interceptReplyDiscard _ => none
  | .sessionTerminate h _ _ => some h
  | .credentialErase h _ _ => some h
  | .keyWrite h _ _ => some h
  | .keySlotErase h _ _ => some h
  | .kekShareWrite h _ _ _ => some h
  | .kekShareExpire _ => none
  | .kekErase h _ _ => some h
  | .learnAcknowledge h _ _ => some h
  | .lpmInsert h _ _ => some h
  | .lpmDelete h _ _ => some h
  | .lpmQuery h _ _ => some h
  | .testPatternWrite h _ _ => some h
  | .timeIncrementWrite h _ => some h
  | .timeSlewWrite h _ => some h
  | .timeStepWrite h _ => some h
  | .timeSetWrite h _ => some h
  | .hostLeaseWrite h _ => some h
  | .captureRead h _ => some h
  | .expertGrantWrite h _ _ => some h
  | .debugPortOpen h _ => some h
  | .windowWrite h _ _ _ => some h
  | .locatorQuery h _ => some h
  | .indirectDataRead h => some h
  | .indirectDataWrite h _ => some h
  | .snapshotAcknowledge h _ _ => some h
  | .alarmClear h _ _ => some h
  | .responseRelease h _ _ => some h
  | .cellSwapWindowWrite h _ => some h
  | .retireConfirmation h _ => some h
  | .retireConfirmationExpire => none
  | .regionRelease h _ _ => some h
  | .berthResetKeep h _ => some h
  | .berthResetRelease h _ => some h
  | .firmwareChunkWrite h _ _ => some h
  | .firmwareVerify h _ => some h
  | .firmwareInstall h _ => some h
  | .firmwareInstallComplete => none
  | .firmwareActivate h _ => some h
  | .pilotsStopForActivation => none
  | .firmwareRunning => none
  | .firmwareStartTimeout => none
  | .firmwareConfirm h _ => some h
  | .serviceIdentityGenerate h _ => some h
  | .certificateInstall h _ => some h
  | .serviceIdentityErase h _ => some h
  | .operatorAnchorWrite h _ => some h
  | .attestationReportRead h => some h
  | .moduleRestart h _ => some h
  | .clearFrameReceive _ _ => none
  | .holdExpire _ => none
  | .frameModeReceive _ _ => none
  | .gelixFrameReceive _ _ => none
  | .fawFound _ _ _ => none
  | .expectedFawCheck _ _ _ => none
  | .gelixFrameSend _ => none
  | .frameRelease _ _ => none
  | .cryptoBankEntry _ => none
  | .frameEgressComplete _ _ => none
  | .pipelineFault .. => none
  | .pipelineDrained _ _ _ => none
  | .quarantineTestEnd _ _ _ _ => none
  | .knownAnswerTest .. => none
  | .ghashMismatch _ _ _ _ _ => none
  | .keyStoreError _ _ _ => none
  | .ballastKeyReseed _ _ => none
  | .shuffleReseed _ _ => none
  | .maskReseed _ _ => none
  | .entropyTestFailure _ _ _ _ => none
  | .losDeclare _ => none
  | .losClear _ => none
  | .lolDeclare _ => none
  | .lolClear _ => none
  | .adaptComplete _ => none
  | .codewordLock _ => none
  | .codewordLockLoss _ => none
  | .laneLock _ _ => none
  | .laneLockLoss _ => none
  | .skewLimitExceeded _ _ => none
  | .portAligned _ _ => none
  | .faultSignalReceived _ _ => none
  | .portUpTimeout _ => none
  | .lofDeclare _ => none
  | .lofClear _ => none
  | .lomDeclare _ => none
  | .lomClear _ => none
  | .faultForwardStart _ => none
  | .lineSecondEnd _ => none
  | .switchScheduledTime _ => none
  | .queueDrained _ => none
  | .rateLoweringApplied _ => none
  | .berthNodeLoweringApplied _ _ => none
  | .gateEntryChange _ => none
  | .gateSwap _ => none
  | .timeChangeEdge => none
  | .slewComplete => none
  | .ptpMessageReceive _ _ _ => none
  | .ptpMessageSend => none
  | .timeSourceLost => none
  | .holdoverExpire => none
  | .hostLeaseExpire => none
  | .lockstepCheck => none
  | .lockstepCopy => none
  | .dieLinkDown => none
  | .dieLinkUp => none
  | .ttReportSend _ => none
  | .ttReportReceive _ => none
  | .ppsInEdge => none
  | .captureEdge _ _ => none
  | .triggerEdge _ => none
  | .runtimeSave => none
  | .configSave => none
  | .cxlLinkReady _ _ _ _ _ _ => none
  | .cxlLinkDown _ => none
  | .cxlLinkReturn _ => none
  | .stowageAccess _ _ _ _ _ => none
  | .berthResetEdge _ => none
  | .berthResetComplete _ => none
  | .berthReleaseComplete _ => none
  | .expertGrantExpire _ => none
  | .snapshotCapture _ => none
  | .snapshotComplete => none
  | .alarmPulseEnd _ => none
  | .journalSeal => none
  | .sealSigned => none
  | .tamperAlarm _ _ => none
  | .tamperAlarmClear _ => none
  | .monitorFault _ _ => none
  | .monitorFaultClear _ => none
  | .zeroizePins => none
  | .zeroizePinFault _ => none
  | .quiesceNAssert => none
  | .quiesceNRelease => none
  | .hostloopPulse _ => none
  | .zeroizeRestart _ => none
  | .tamperBitBurn => none
  | .cellRemove => none
  | .cellInsert => none
  | .cellSwapWindowClose _ => none
  | .cellSwapWindowExpire => none
  | .mainsInRange .. => none
  | .ready => none
  | .mainsLost => none
  | .mainsEarlyWarning => none
  | .mainsReturn => none
  | .bulkThreshold => none
  | .keelLockLost _ => none
  | .referenceLock _ => none
  | .referenceLost => none
  | .referenceChange _ => none
  | .pilotWatchdog _ => none
  | .pilotRestarted _ => none
  | .candidateDropped _ _ => none
  | .pcsFecLockLoss _ => none
  | .lossOfAllPower => none
  | .managementPortLinkChange _ _ => none
  | .commandedRestartBegin _ => none
  | .ballastShareUpdate _ => none

/-- A well-formed command's message header has every field within its width (R742). -/
def Laws.HeaderFits.Statement (i : Instr) : Prop := ∀ h, Laws.headerOf i = some h → i.wf = true → h.wf = true

end Sys2Proof

namespace Sys2Proof.Laws.HeaderFits

set_option Elab.async false

theorem open_ (h : Hdr) (role method cred : Nat) (nonce : Octets) (sid : Nat) (moduleNonce : Octets) : Statement (.open_ h role method cred nonce sid moduleNonce) := by
  intro k e w
  cases e
  simp_all [Instr.wf]
theorem prove (h : Hdr) (proof : Option Secret) : Statement (.prove h proof) := by
  intro k e w
  cases e
  simp_all [Instr.wf]
theorem close (h : Hdr) : Statement (.close h) := by
  intro k e w
  cases e
  simp_all [Instr.wf]
theorem read (h : Hdr) (addrs : List Addr) : Statement (.read h addrs) := by
  intro k e w
  cases e
  simp_all [Instr.wf]
theorem write (h : Hdr) (recs : List ValueRec) : Statement (.write h recs) := by
  intro k e w
  cases e
  simp_all [Instr.wf]
theorem readElements (h : Hdr) (first : Addr) (count : Nat) : Statement (.readElements h first count) := by
  intro k e w
  cases e
  simp_all [Instr.wf]
theorem writeElements (h : Hdr) (first : Addr) (stride : Nat) (vals : List Octets) : Statement (.writeElements h first stride vals) := by
  intro k e w
  cases e
  simp_all [Instr.wf]
theorem commit (h : Hdr) : Statement (.commit h) := by
  intro k e w
  cases e
  simp_all [Instr.wf]
theorem commitDryRun (h : Hdr) : Statement (.commitDryRun h) := by
  intro k e w
  cases e
  simp_all [Instr.wf]
theorem subscribe (h : Hdr) (filters : List (Nat × Nat)) : Statement (.subscribe h filters) := by
  intro k e w
  cases e
  simp_all [Instr.wf]
theorem relayMessage (h : Hdr) (msg : Octets) : Statement (.relayMessage h msg) := by
  intro k e w
  cases e
  simp_all [Instr.wf]
theorem relayReturn (port : Fin 64) (session : Nat) (msg : Octets) : Statement (.relayReturn port session msg) := by
  intro k e _
  cases e
theorem mchMessageReceive (port : Fin 64) (msg : Octets) (allCellsKeyed : Bool) : Statement (.mchMessageReceive port msg allCellsKeyed) := by
  intro k e _
  cases e
theorem mgmtPortFrame (m : Fin 2) (src : Nat) (kind : MgmtKind) : Statement (.mgmtPortFrame m src kind) := by
  intro k e _
  cases e
theorem sessionProveTimeout (slot : Fin 32) : Statement (.sessionProveTimeout slot) := by
  intro k e _
  cases e
theorem sessionIdleExpire (slot : Fin 32) : Statement (.sessionIdleExpire slot) := by
  intro k e _
  cases e
theorem sessionIdForget (sid : Nat) : Statement (.sessionIdForget sid) := by
  intro k e _
  cases e
theorem credentialLockExpire (cred : Fin 64) : Statement (.credentialLockExpire cred) := by
  intro k e _
  cases e
theorem relayEntryLapse (port : Fin 64) (session : Nat) : Statement (.relayEntryLapse port session) := by
  intro k e _
  cases e
theorem sessionPilotTakeover : Statement .sessionPilotTakeover := by
  intro k e _
  cases e
theorem interceptReplySend (port : Fin 64) : Statement (.interceptReplySend port) := by
  intro k e _
  cases e
theorem interceptReplyDiscard (port : Fin 64) : Statement (.interceptReplyDiscard port) := by
  intro k e _
  cases e
theorem sessionTerminate (h : Hdr) (slot : Nat) (v : Bool) : Statement (.sessionTerminate h slot v) := by
  intro k e w
  cases e
  simp_all [Instr.wf]
theorem credentialErase (h : Hdr) (cred : Nat) (v : Bool) : Statement (.credentialErase h cred v) := by
  intro k e w
  cases e
  simp_all [Instr.wf]
theorem keyWrite (h : Hdr) (slot : Nat) (wrapped : Octets) : Statement (.keyWrite h slot wrapped) := by
  intro k e w
  cases e
  simp_all [Instr.wf]
theorem keySlotErase (h : Hdr) (slot : Nat) (v : Bool) : Statement (.keySlotErase h slot v) := by
  intro k e w
  cases e
  simp_all [Instr.wf]
theorem kekShareWrite (h : Hdr) (berth : Nat) (shareB : Bool) (share : Octets) : Statement (.kekShareWrite h berth shareB share) := by
  intro k e w
  cases e
  simp_all [Instr.wf]
theorem kekShareExpire (berth : Fin 256) : Statement (.kekShareExpire berth) := by
  intro k e _
  cases e
theorem kekErase (h : Hdr) (berth : Nat) (v : Bool) : Statement (.kekErase h berth v) := by
  intro k e w
  cases e
  simp_all [Instr.wf]
theorem learnAcknowledge (h : Hdr) (basin : Nat) (seq : Nat) : Statement (.learnAcknowledge h basin seq) := by
  intro k e w
  cases e
  simp_all [Instr.wf]
theorem lpmInsert (h : Hdr) (table : Nat) (record : Octets) : Statement (.lpmInsert h table record) := by
  intro k e w
  cases e
  simp_all [Instr.wf]
theorem lpmDelete (h : Hdr) (table : Nat) (record : Octets) : Statement (.lpmDelete h table record) := by
  intro k e w
  cases e
  simp_all [Instr.wf]
theorem lpmQuery (h : Hdr) (table : Nat) (query : Octets) : Statement (.lpmQuery h table query) := by
  intro k e w
  cases e
  simp_all [Instr.wf]
theorem testPatternWrite (h : Hdr) (lane : Nat) (v : Nat) : Statement (.testPatternWrite h lane v) := by
  intro k e w
  cases e
  simp_all [Instr.wf]
theorem timeIncrementWrite (h : Hdr) (v : Nat) : Statement (.timeIncrementWrite h v) := by
  intro k e w
  cases e
  simp_all [Instr.wf]
theorem timeSlewWrite (h : Hdr) (x : Int) : Statement (.timeSlewWrite h x) := by
  intro k e w
  cases e
  simp_all [Instr.wf]
theorem timeStepWrite (h : Hdr) (x : Int) : Statement (.timeStepWrite h x) := by
  intro k e w
  cases e
  simp_all [Instr.wf]
theorem timeSetWrite (h : Hdr) (t : Time80) : Statement (.timeSetWrite h t) := by
  intro k e w
  cases e
  simp_all [Instr.wf]
theorem hostLeaseWrite (h : Hdr) (v : Nat) : Statement (.hostLeaseWrite h v) := by
  intro k e w
  cases e
  simp_all [Instr.wf]
theorem captureRead (h : Hdr) (input : Nat) : Statement (.captureRead h input) := by
  intro k e w
  cases e
  simp_all [Instr.wf]
theorem expertGrantWrite (h : Hdr) (slot : Nat) (minutes : Nat) : Statement (.expertGrantWrite h slot minutes) := by
  intro k e w
  cases e
  simp_all [Instr.wf]
theorem debugPortOpen (h : Hdr) (v : Bool) : Statement (.debugPortOpen h v) := by
  intro k e w
  cases e
  simp_all [Instr.wf]
theorem windowWrite (h : Hdr) (harbour : Fin 2) (wordAddr : Nat) (v : Nat) : Statement (.windowWrite h harbour wordAddr v) := by
  intro k e w
  cases e
  simp_all [Instr.wf]
theorem locatorQuery (h : Hdr) (record : Octets) : Statement (.locatorQuery h record) := by
  intro k e w
  cases e
  simp_all [Instr.wf]
theorem indirectDataRead (h : Hdr) : Statement (.indirectDataRead h) := by
  intro k e w
  cases e
  simp_all [Instr.wf]
theorem indirectDataWrite (h : Hdr) (v : Nat) : Statement (.indirectDataWrite h v) := by
  intro k e w
  cases e
  simp_all [Instr.wf]
theorem snapshotAcknowledge (h : Hdr) (basin : Nat) (w : Nat) : Statement (.snapshotAcknowledge h basin w) := by
  intro k e hw
  cases e
  simp_all [Instr.wf]
theorem alarmClear (h : Hdr) (pin : Nat) (v : Bool) : Statement (.alarmClear h pin v) := by
  intro k e w
  cases e
  simp_all [Instr.wf]
theorem responseRelease (h : Hdr) (source : Nat) (v : Bool) : Statement (.responseRelease h source v) := by
  intro k e w
  cases e
  simp_all [Instr.wf]
theorem cellSwapWindowWrite (h : Hdr) (minutes : Nat) : Statement (.cellSwapWindowWrite h minutes) := by
  intro k e w
  cases e
  simp_all [Instr.wf]
theorem retireConfirmation (h : Hdr) (serial : Octets) : Statement (.retireConfirmation h serial) := by
  intro k e w
  cases e
  simp_all [Instr.wf]
theorem retireConfirmationExpire : Statement .retireConfirmationExpire := by
  intro k e _
  cases e
theorem regionRelease (h : Hdr) (region : Nat) (v : Bool) : Statement (.regionRelease h region v) := by
  intro k e w
  cases e
  simp_all [Instr.wf]
theorem berthResetKeep (h : Hdr) (berth : Nat) : Statement (.berthResetKeep h berth) := by
  intro k e w
  cases e
  simp_all [Instr.wf]
theorem berthResetRelease (h : Hdr) (berth : Nat) : Statement (.berthResetRelease h berth) := by
  intro k e w
  cases e
  simp_all [Instr.wf]
theorem firmwareChunkWrite (h : Hdr) (n : Nat) (chunk : Octets) : Statement (.firmwareChunkWrite h n chunk) := by
  intro k e w
  cases e
  simp_all [Instr.wf]
theorem firmwareVerify (h : Hdr) (v : Bool) : Statement (.firmwareVerify h v) := by
  intro k e w
  cases e
  simp_all [Instr.wf]
theorem firmwareInstall (h : Hdr) (v : Bool) : Statement (.firmwareInstall h v) := by
  intro k e w
  cases e
  simp_all [Instr.wf]
theorem firmwareInstallComplete : Statement .firmwareInstallComplete := by
  intro k e _
  cases e
theorem firmwareActivate (h : Hdr) (slot : Nat) : Statement (.firmwareActivate h slot) := by
  intro k e w
  cases e
  simp_all [Instr.wf]
theorem pilotsStopForActivation : Statement .pilotsStopForActivation := by
  intro k e _
  cases e
theorem firmwareRunning : Statement .firmwareRunning := by
  intro k e _
  cases e
theorem firmwareStartTimeout : Statement .firmwareStartTimeout := by
  intro k e _
  cases e
theorem firmwareConfirm (h : Hdr) (v : Bool) : Statement (.firmwareConfirm h v) := by
  intro k e w
  cases e
  simp_all [Instr.wf]
theorem serviceIdentityGenerate (h : Hdr) (v : Bool) : Statement (.serviceIdentityGenerate h v) := by
  intro k e w
  cases e
  simp_all [Instr.wf]
theorem certificateInstall (h : Hdr) (v : Bool) : Statement (.certificateInstall h v) := by
  intro k e w
  cases e
  simp_all [Instr.wf]
theorem serviceIdentityErase (h : Hdr) (v : Bool) : Statement (.serviceIdentityErase h v) := by
  intro k e w
  cases e
  simp_all [Instr.wf]
theorem operatorAnchorWrite (h : Hdr) (anchor : Octets) : Statement (.operatorAnchorWrite h anchor) := by
  intro k e w
  cases e
  simp_all [Instr.wf]
theorem attestationReportRead (h : Hdr) : Statement (.attestationReportRead h) := by
  intro k e w
  cases e
  simp_all [Instr.wf]
theorem moduleRestart (h : Hdr) (v : Bool) : Statement (.moduleRestart h v) := by
  intro k e w
  cases e
  simp_all [Instr.wf]
theorem clearFrameReceive (port : Fin 64) (frame : Frame) : Statement (.clearFrameReceive port frame) := by
  intro k e _
  cases e
theorem holdExpire (basin : Fin 4) : Statement (.holdExpire basin) := by
  intro k e _
  cases e
theorem frameModeReceive (port : Fin 64) (frame : LineFrame) : Statement (.frameModeReceive port frame) := by
  intro k e _
  cases e
theorem gelixFrameReceive (port : Fin 64) (frame : GelixFrame) : Statement (.gelixFrameReceive port frame) := by
  intro k e _
  cases e
theorem fawFound (port : Fin 64) (offset mfas : Nat) : Statement (.fawFound port offset mfas) := by
  intro k e _
  cases e
theorem expectedFawCheck (port : Fin 64) (bitErrors : Nat) (mfas : Nat) : Statement (.expectedFawCheck port bitErrors mfas) := by
  intro k e _
  cases e
theorem gelixFrameSend (port : Fin 64) : Statement (.gelixFrameSend port) := by
  intro k e _
  cases e
theorem frameRelease (port : Fin 64) (waited : Nat) : Statement (.frameRelease port waited) := by
  intro k e _
  cases e
theorem cryptoBankEntry (basin : Fin 4) : Statement (.cryptoBankEntry basin) := by
  intro k e _
  cases e
theorem frameEgressComplete (port : Fin 64) (predictionError : Int) : Statement (.frameEgressComplete port predictionError) := by
  intro k e _
  cases e
theorem pipelineFault (basin : Fin 4) (tx : Bool) (unit : CipherUnit) (stage : Fin 16) (secondShare : Bool) (flips keyFlips nextFlips : Nat) : Statement (.pipelineFault basin tx unit stage secondShare flips keyFlips nextFlips) := by
  intro k e _
  cases e
theorem pipelineDrained (basin : Fin 4) (tx : Bool) (unit : CipherUnit) : Statement (.pipelineDrained basin tx unit) := by
  intro k e _
  cases e
theorem quarantineTestEnd (basin : Fin 4) (tx : Bool) (unit : CipherUnit) (passed : Bool) : Statement (.quarantineTestEnd basin tx unit passed) := by
  intro k e _
  cases e
theorem knownAnswerTest (basin : Fin 4) (tx : Bool) (unit : CipherUnit) (stage : Fin 16) (secondShare : Bool) (flips keyFlips nextFlips : Nat) : Statement (.knownAnswerTest basin tx unit stage secondShare flips keyFlips nextFlips) := by
  intro k e _
  cases e
theorem ghashMismatch (basin : Fin 4) (tx : Bool) (pair : Fin 18) (flips repeatFlips : Nat) : Statement (.ghashMismatch basin tx pair flips repeatFlips) := by
  intro k e _
  cases e
theorem keyStoreError (basin : Fin 4) (tx : Bool) (doubleBit : Bool) : Statement (.keyStoreError basin tx doubleBit) := by
  intro k e _
  cases e
theorem ballastKeyReseed (basin : Fin 4) (tx : Bool) : Statement (.ballastKeyReseed basin tx) := by
  intro k e _
  cases e
theorem shuffleReseed (basin : Fin 4) (tx : Bool) : Statement (.shuffleReseed basin tx) := by
  intro k e _
  cases e
theorem maskReseed (basin : Fin 4) (tx : Bool) : Statement (.maskReseed basin tx) := by
  intro k e _
  cases e
theorem entropyTestFailure (harbour : Fin 2) (sourceB : Bool) (proportion : Bool) (samples : List Bool) : Statement (.entropyTestFailure harbour sourceB proportion samples) := by
  intro k e _
  cases e
theorem losDeclare (lane : Fin 64) : Statement (.losDeclare lane) := by
  intro k e _
  cases e
theorem losClear (lane : Fin 64) : Statement (.losClear lane) := by
  intro k e _
  cases e
theorem lolDeclare (lane : Fin 64) : Statement (.lolDeclare lane) := by
  intro k e _
  cases e
theorem lolClear (lane : Fin 64) : Statement (.lolClear lane) := by
  intro k e _
  cases e
theorem adaptComplete (lane : Fin 64) : Statement (.adaptComplete lane) := by
  intro k e _
  cases e
theorem codewordLock (lane : Fin 64) : Statement (.codewordLock lane) := by
  intro k e _
  cases e
theorem codewordLockLoss (lane : Fin 64) : Statement (.codewordLockLoss lane) := by
  intro k e _
  cases e
theorem laneLock (lane : Fin 64) (mfas : Nat) : Statement (.laneLock lane mfas) := by
  intro k e _
  cases e
theorem laneLockLoss (lane : Fin 64) : Statement (.laneLockLoss lane) := by
  intro k e _
  cases e
theorem skewLimitExceeded (port : Fin 64) (skew : Nat) : Statement (.skewLimitExceeded port skew) := by
  intro k e _
  cases e
theorem portAligned (port : Fin 64) (skew : Nat) : Statement (.portAligned port skew) := by
  intro k e _
  cases e
theorem faultSignalReceived (port : Fin 64) (kind : Nat) : Statement (.faultSignalReceived port kind) := by
  intro k e _
  cases e
theorem portUpTimeout (port : Fin 64) : Statement (.portUpTimeout port) := by
  intro k e _
  cases e
theorem lofDeclare (port : Fin 64) : Statement (.lofDeclare port) := by
  intro k e _
  cases e
theorem lofClear (port : Fin 64) : Statement (.lofClear port) := by
  intro k e _
  cases e
theorem lomDeclare (port : Fin 64) : Statement (.lomDeclare port) := by
  intro k e _
  cases e
theorem lomClear (port : Fin 64) : Statement (.lomClear port) := by
  intro k e _
  cases e
theorem faultForwardStart (port : Fin 64) : Statement (.faultForwardStart port) := by
  intro k e _
  cases e
theorem lineSecondEnd (port : Fin 64) : Statement (.lineSecondEnd port) := by
  intro k e _
  cases e
theorem switchScheduledTime (assoc : Fin 65536) : Statement (.switchScheduledTime assoc) := by
  intro k e _
  cases e
theorem queueDrained (queue : Fin 32768) : Statement (.queueDrained queue) := by
  intro k e _
  cases e
theorem rateLoweringApplied (queue : Fin 32768) : Statement (.rateLoweringApplied queue) := by
  intro k e _
  cases e
theorem berthNodeLoweringApplied (berth : Fin 256) (port : Fin 64) : Statement (.berthNodeLoweringApplied berth port) := by
  intro k e _
  cases e
theorem gateEntryChange (port : Fin 64) : Statement (.gateEntryChange port) := by
  intro k e _
  cases e
theorem gateSwap (port : Fin 64) : Statement (.gateSwap port) := by
  intro k e _
  cases e
theorem timeChangeEdge : Statement .timeChangeEdge := by
  intro k e _
  cases e
theorem slewComplete : Statement .slewComplete := by
  intro k e _
  cases e
theorem ptpMessageReceive (port : Fin 66) (domain : Nat) (kind : PtpKind) : Statement (.ptpMessageReceive port domain kind) := by
  intro k e _
  cases e
theorem ptpMessageSend : Statement .ptpMessageSend := by
  intro k e _
  cases e
theorem timeSourceLost : Statement .timeSourceLost := by
  intro k e _
  cases e
theorem holdoverExpire : Statement .holdoverExpire := by
  intro k e _
  cases e
theorem hostLeaseExpire : Statement .hostLeaseExpire := by
  intro k e _
  cases e
theorem lockstepCheck : Statement .lockstepCheck := by
  intro k e _
  cases e
theorem lockstepCopy : Statement .lockstepCopy := by
  intro k e _
  cases e
theorem dieLinkDown : Statement .dieLinkDown := by
  intro k e _
  cases e
theorem dieLinkUp : Statement .dieLinkUp := by
  intro k e _
  cases e
theorem ttReportSend (port : Fin 64) : Statement (.ttReportSend port) := by
  intro k e _
  cases e
theorem ttReportReceive (port : Fin 64) : Statement (.ttReportReceive port) := by
  intro k e _
  cases e
theorem ppsInEdge : Statement .ppsInEdge := by
  intro k e _
  cases e
theorem captureEdge (input : Fin 9) (rising : Bool) : Statement (.captureEdge input rising) := by
  intro k e _
  cases e
theorem triggerEdge (trigger : Fin 9) : Statement (.triggerEdge trigger) := by
  intro k e _
  cases e
theorem runtimeSave : Statement .runtimeSave := by
  intro k e _
  cases e
theorem configSave : Statement .configSave := by
  intro k e _
  cases e
theorem cxlLinkReady (harbour : Fin 2) (lanes rate capacityMiB metaBits : Nat) (type3 : Bool) : Statement (.cxlLinkReady harbour lanes rate capacityMiB metaBits type3) := by
  intro k e _
  cases e
theorem cxlLinkDown (harbour : Fin 2) : Statement (.cxlLinkDown harbour) := by
  intro k e _
  cases e
theorem cxlLinkReturn (harbour : Fin 2) : Statement (.cxlLinkReturn harbour) := by
  intro k e _
  cases e
theorem stowageAccess (harbour : Fin 2) (master : Fin 6) (line : Nat) (kind : AccessKind) (device : DeviceResult) : Statement (.stowageAccess harbour master line kind device) := by
  intro k e _
  cases e
theorem berthResetEdge (berth : Fin 256) : Statement (.berthResetEdge berth) := by
  intro k e _
  cases e
theorem berthResetComplete (berth : Fin 256) : Statement (.berthResetComplete berth) := by
  intro k e _
  cases e
theorem berthReleaseComplete (berth : Fin 256) : Statement (.berthReleaseComplete berth) := by
  intro k e _
  cases e
theorem expertGrantExpire (slot : Fin 32) : Statement (.expertGrantExpire slot) := by
  intro k e _
  cases e
theorem snapshotCapture (harbour : Fin 2) : Statement (.snapshotCapture harbour) := by
  intro k e _
  cases e
theorem snapshotComplete : Statement .snapshotComplete := by
  intro k e _
  cases e
theorem alarmPulseEnd (pin : Fin 4) : Statement (.alarmPulseEnd pin) := by
  intro k e _
  cases e
theorem journalSeal : Statement .journalSeal := by
  intro k e _
  cases e
theorem sealSigned : Statement .sealSigned := by
  intro k e _
  cases e
theorem tamperAlarm (quantity : Fin 6) (detector : Detector) : Statement (.tamperAlarm quantity detector) := by
  intro k e _
  cases e
theorem tamperAlarmClear (quantity : Fin 6) : Statement (.tamperAlarmClear quantity) := by
  intro k e _
  cases e
theorem monitorFault (quantity : Fin 6) (detector : Detector) : Statement (.monitorFault quantity detector) := by
  intro k e _
  cases e
theorem monitorFaultClear (quantity : Fin 7) : Statement (.monitorFaultClear quantity) := by
  intro k e _
  cases e
theorem zeroizePins : Statement .zeroizePins := by
  intro k e _
  cases e
theorem zeroizePinFault (pinB : Bool) : Statement (.zeroizePinFault pinB) := by
  intro k e _
  cases e
theorem quiesceNAssert : Statement .quiesceNAssert := by
  intro k e _
  cases e
theorem quiesceNRelease : Statement .quiesceNRelease := by
  intro k e _
  cases e
theorem hostloopPulse (returned : Bool) : Statement (.hostloopPulse returned) := by
  intro k e _
  cases e
theorem zeroizeRestart (trial : StartTrial) : Statement (.zeroizeRestart trial) := by
  intro k e _
  cases e
theorem tamperBitBurn : Statement .tamperBitBurn := by
  intro k e _
  cases e
theorem cellRemove : Statement .cellRemove := by
  intro k e _
  cases e
theorem cellInsert : Statement .cellInsert := by
  intro k e _
  cases e
theorem cellSwapWindowClose (millivolts : Nat) : Statement (.cellSwapWindowClose millivolts) := by
  intro k e _
  cases e
theorem cellSwapWindowExpire : Statement .cellSwapWindowExpire := by
  intro k e _
  cases e
theorem mainsInRange (failStep : Nat) (units : List Nat) (fails : Nat) : Statement (.mainsInRange failStep units fails) := by
  intro k e _
  cases e
theorem ready : Statement .ready := by
  intro k e _
  cases e
theorem mainsLost : Statement .mainsLost := by
  intro k e _
  cases e
theorem mainsEarlyWarning : Statement .mainsEarlyWarning := by
  intro k e _
  cases e
theorem mainsReturn : Statement .mainsReturn := by
  intro k e _
  cases e
theorem bulkThreshold : Statement .bulkThreshold := by
  intro k e _
  cases e
theorem keelLockLost (trial : StartTrial) : Statement (.keelLockLost trial) := by
  intro k e _
  cases e
theorem referenceLock (ref : Nat) : Statement (.referenceLock ref) := by
  intro k e _
  cases e
theorem referenceLost : Statement .referenceLost := by
  intro k e _
  cases e
theorem referenceChange (ref : Nat) : Statement (.referenceChange ref) := by
  intro k e _
  cases e
theorem pilotWatchdog (harbour : Fin 2) : Statement (.pilotWatchdog harbour) := by
  intro k e _
  cases e
theorem pilotRestarted (harbour : Fin 2) : Statement (.pilotRestarted harbour) := by
  intro k e _
  cases e
theorem candidateDropped (port : Fin 64) (offset : Nat) : Statement (.candidateDropped port offset) := by
  intro k e _
  cases e
theorem pcsFecLockLoss (port : Fin 64) : Statement (.pcsFecLockLoss port) := by
  intro k e _
  cases e
theorem lossOfAllPower : Statement .lossOfAllPower := by
  intro k e _
  cases e
theorem managementPortLinkChange (m : Fin 2) (up : Bool) : Statement (.managementPortLinkChange m up) := by
  intro k e _
  cases e
theorem commandedRestartBegin (trial : StartTrial) : Statement (.commandedRestartBegin trial) := by
  intro k e _
  cases e
theorem ballastShareUpdate (harbour : Fin 2) : Statement (.ballastShareUpdate harbour) := by
  intro k e _
  cases e

end Sys2Proof.Laws.HeaderFits
end

