-- ==== Sys2Proof/Laws/Pipeline.lean ====
section
/-! SUPPORT. A block's result and its checks do not depend on how its bytes were placed on the S-box instances (R358, R359). -/

namespace Sys2Proof.Machine

/-- A wiring choice is a permutation of what it is given. -/
theorem permOf_perm (n c : Nat) (left : List Nat) (h : left.length = n) : (permOf n c left).Perm left := by
  induction n generalizing c left with
  | zero => simp [List.length_eq_zero_iff.mp h, permOf]
  | succ n ih =>
    have hk : c % (n + 1) < left.length := by rw [h]; exact Nat.mod_lt _ (Nat.succ_pos n)
    rw [permOf, List.getD_eq_getElem _ _ hk]
    exact ((ih _ _ (by rw [List.length_eraseIdx_of_lt hk]; omega)).cons _).trans (List.getElem_cons_eraseIdx_perm hk)

theorem permOf_length (c : Nat) : (permOf 16 c (List.range 16)).length = 16 := by
  simpa using (permOf_perm 16 c (List.range 16) (by simp)).length_eq

/-- Two bytes of a stage are never on the same instance, and every instance number is below 16. -/
theorem Shuffle.place_inj (s : Shuffle) (r : Nat) {i j : Nat} (hi : i < 16) (hj : j < 16) (h : s.place r i = s.place r j) : i = j := by
  have hp := permOf_perm 16 s.wiring (List.range 16) (by simp)
  have hn : (permOf 16 s.wiring (List.range 16)).Nodup := hp.nodup_iff.mpr List.nodup_range
  have hl := permOf_length s.wiring
  have h16 : ∀ x, x % 16 < (permOf 16 s.wiring (List.range 16)).length := fun x => by rw [hl]; exact Nat.mod_lt _ (by decide)
  simp only [Shuffle.place, List.getD_eq_getElem _ _ (h16 _)] at h
  have := (hn.getElem_inj_iff).mp h
  omega

theorem Shuffle.place_lt (s : Shuffle) (r i : Nat) : s.place r i < 16 := by
  have hp := permOf_perm 16 s.wiring (List.range 16) (by simp)
  have h : (i + s.stateShift r) % 16 < (permOf 16 s.wiring (List.range 16)).length := by
    rw [permOf_length]; exact Nat.mod_lt _ (by decide)
  rw [Shuffle.place, List.getD_eq_getElem _ _ h]
  exact List.mem_range.mp (hp.mem_iff.mp (List.getElem_mem h))

/-- The instance of byte i holds byte i. -/
theorem Shuffle.held_place (s : Shuffle) (r : Nat) {i : Nat} (hi : i < 16) : s.held r (s.place r i) = i := by
  unfold Shuffle.held
  cases h : (List.range 16).find? (fun j => s.place r j == s.place r i) with
  | none => simpa using List.find?_eq_none.mp h i (List.mem_range.mpr hi)
  | some j =>
    have hj := List.mem_range.mp (List.mem_of_find?_eq_some h)
    exact s.place_inj r hj hi (by simpa using List.find?_some h)

theorem Shuffle.held_lt (s : Shuffle) (r j : Nat) : s.held r j < 16 := by
  unfold Shuffle.held
  cases h : (List.range 16).find? (fun i => s.place r i == j) with
  | none => decide
  | some i => exact List.mem_range.mp (List.mem_of_find?_eq_some h)

/-- What holds of the byte on some instance holds of some byte. -/
theorem Shuffle.any_held (s : Shuffle) (r : Nat) (f : Nat → Bool) : ((List.range 16).any fun j => f (s.held r j)) = (List.range 16).any f := by
  rw [Bool.eq_iff_iff, List.any_eq_true, List.any_eq_true]
  constructor
  · rintro ⟨j, -, h⟩
    exact ⟨s.held r j, List.mem_range.mpr (s.held_lt r j), h⟩
  · rintro ⟨i, hi, h⟩
    have hi := List.mem_range.mp hi
    exact ⟨s.place r i, List.mem_range.mpr (s.place_lt r i), by rwa [s.held_place r hi]⟩

/-- SubBytes gives every byte its own result, wherever it was placed. -/
theorem Shuffle.sub_eq (s : Shuffle) (r x : Nat) : s.sub r x = subBytes x := by
  unfold Shuffle.sub subBytes blockOf
  refine List.foldl_ext _ _ _ fun a i hi => ?_
  have hi : i < 16 := List.mem_range.mp hi
  have hl : s.place r i < ((s.onInstances r x).map sbox).length := by simpa [Shuffle.onInstances] using s.place_lt r i
  have he : ((s.onInstances r x).map sbox).getD (s.place r i) 0 = sbox (byteAt x i) := by
    rw [List.getD_eq_getElem _ _ hl]; simp [Shuffle.onInstances, s.held_place r hi]
  exact congrArg (a * 256 + ·) he

/-- The instances' check of their input bytes does not depend on the wiring (R336, R358). -/
theorem inputCheck_eq (s t : Shuffle) (long : Bool) (r : Nat) (l : List Share) : inputCheck s long r l = inputCheck t long r l := by
  unfold inputCheck
  simp only [Shuffle.any_held _ r fun i => oddByte (byteAt (blockState l) i) != parAt (l.foldl (fun a s => a ^^^ s.px) 0) i]

/-- Every instance of the key schedule holds the same table. -/
theorem Shuffle.keySub_eq (s : Shuffle) (r j b : Nat) : s.keySub r j b = sbox b := by
  have : (j + s.keyShift r) % 4 < 4 := Nat.mod_lt _ (by decide)
  unfold Shuffle.keySub
  interval_cases h : (j + s.keyShift r) % 4 <;> rfl

/-- What leaves a pipeline, and its fault flag, are the same under every wiring and draw. -/
theorem runBlock_eq (s t : Shuffle) (key : Octets) (counter data : Nat) (u : Option Upset) :
    runBlock s key counter data u = runBlock t key counter data u := by
  have h : ∀ long masks, stage s long data masks u = stage t long data masks u := by
    intro long masks; funext f r
    simp only [stage, inputCheck_eq s t, stageShares, subShares, keyShares, Shuffle.sub_eq, show s.keySub r = t.keySub r from funext₂ fun j b => by simp [Shuffle.keySub_eq]]
  simp only [runBlock, h]

/-- What leaves a pipeline, as an unshuffled one would compute it. -/
theorem verdict_pipeline (m : Mod) (k : Nat) (n : Fin 14) (x : Upset) (blk : Blk) (f : Option Flight)
    (h : (bank m k).blockAt n.val (m.sys.elapsed - 15) = (blk, f)) :
    verdict m k (.pipeline n) x = some ({ blk, frame := f.isSome, replay := f.any (·.replay), at_ := m.sys.elapsed },
      runBlock {} blk.key blk.counter blk.data (some x)) := by
  simp only [verdict, h]; rw [runBlock_eq _ {}]

end Sys2Proof.Machine
end

