-- ==== Sys2Proof/Laws/Run.lean ====
section
/-! SUPPORT. What every meaning does beside its own effect, and what the passage of time changes. -/

namespace Sys2Proof.Machine

/-! ### The over flags -/

/-- A flag that clears changes the flags and raises an event (R696). -/
theorem clearOver_form (m : Mod) (e r : Nat) : ∃ overs ev, clearOver m e r = { m with overs := overs, ev := ev } := by
  unfold clearOver
  split
  · exact ⟨_, _, rfl⟩
  · exact ⟨m.overs, m.ev, rfl⟩

/-- A fold whose steps change the flags and the events changes no more. -/
theorem fold_over_form {α : Type} (g : Mod → α → Mod) (hg : ∀ m x, ∃ overs ev, g m x = { m with overs := overs, ev := ev }) (l : List α) (m : Mod) :
    ∃ overs ev, l.foldl g m = { m with overs := overs, ev := ev } := by
  induction l generalizing m with
  | nil => exact ⟨m.overs, m.ev, rfl⟩
  | cons x r ih =>
    obtain ⟨a, b, h⟩ := hg m x
    obtain ⟨c, d, k⟩ := ih (g m x)
    exact ⟨c, d, by rw [List.foldl_cons, k, h]⟩

/-- What follows a command changes the over flags and raises events (R696). -/
theorem settleOver_form (m : Mod) : ∃ overs ev, settleOver m = { m with overs := overs, ev := ev } :=
  fold_over_form _ (fun m e => fold_over_form _ (fun m r => clearOver_form m e r) _ m) _ m

/-- With no flag set nothing follows. -/
theorem settleOver_nil (m : Mod) (h : m.overs = []) : settleOver m = m := by
  unfold settleOver
  rw [h]
  rfl

@[simp] theorem settleOver_sys (m : Mod) : (settleOver m).sys = m.sys := by obtain ⟨o, e, h⟩ := settleOver_form m; rw [h]
@[simp] theorem settleOver_tether (m : Mod) : (settleOver m).tether = m.tether := by obtain ⟨o, e, h⟩ := settleOver_form m; rw [h]
@[simp] theorem settleOver_mgmt (m : Mod) : (settleOver m).mgmt = m.mgmt := by obtain ⟨o, e, h⟩ := settleOver_form m; rw [h]
@[simp] theorem settleOver_time (m : Mod) : (settleOver m).time = m.time := by obtain ⟨o, e, h⟩ := settleOver_form m; rw [h]
@[simp] theorem settleOver_lanes (m : Mod) : (settleOver m).lanes = m.lanes := by obtain ⟨o, e, h⟩ := settleOver_form m; rw [h]
@[simp] theorem settleOver_ports (m : Mod) : (settleOver m).ports = m.ports := by obtain ⟨o, e, h⟩ := settleOver_form m; rw [h]
@[simp] theorem settleOver_rx (m : Mod) : (settleOver m).rx = m.rx := by obtain ⟨o, e, h⟩ := settleOver_form m; rw [h]
@[simp] theorem settleOver_tx (m : Mod) : (settleOver m).tx = m.tx := by obtain ⟨o, e, h⟩ := settleOver_form m; rw [h]
@[simp] theorem settleOver_pm (m : Mod) : (settleOver m).pm = m.pm := by obtain ⟨o, e, h⟩ := settleOver_form m; rw [h]
@[simp] theorem settleOver_stow (m : Mod) : (settleOver m).stow = m.stow := by obtain ⟨o, e, h⟩ := settleOver_form m; rw [h]
@[simp] theorem settleOver_berths (m : Mod) : (settleOver m).berths = m.berths := by obtain ⟨o, e, h⟩ := settleOver_form m; rw [h]
@[simp] theorem settleOver_keks (m : Mod) : (settleOver m).keks = m.keks := by obtain ⟨o, e, h⟩ := settleOver_form m; rw [h]
@[simp] theorem settleOver_assocs (m : Mod) : (settleOver m).assocs = m.assocs := by obtain ⟨o, e, h⟩ := settleOver_form m; rw [h]
@[simp] theorem settleOver_filters (m : Mod) : (settleOver m).filters = m.filters := by obtain ⟨o, e, h⟩ := settleOver_form m; rw [h]
@[simp] theorem settleOver_banks (m : Mod) : (settleOver m).banks = m.banks := by obtain ⟨o, e, h⟩ := settleOver_form m; rw [h]
@[simp] theorem settleOver_entropy (m : Mod) : (settleOver m).entropy = m.entropy := by obtain ⟨o, e, h⟩ := settleOver_form m; rw [h]
@[simp] theorem settleOver_cls (m : Mod) : (settleOver m).cls = m.cls := by obtain ⟨o, e, h⟩ := settleOver_form m; rw [h]
@[simp] theorem settleOver_queues (m : Mod) : (settleOver m).queues = m.queues := by obtain ⟨o, e, h⟩ := settleOver_form m; rw [h]
@[simp] theorem settleOver_nodes (m : Mod) : (settleOver m).nodes = m.nodes := by obtain ⟨o, e, h⟩ := settleOver_form m; rw [h]
@[simp] theorem settleOver_arbs (m : Mod) : (settleOver m).arbs = m.arbs := by obtain ⟨o, e, h⟩ := settleOver_form m; rw [h]
@[simp] theorem settleOver_gates (m : Mod) : (settleOver m).gates = m.gates := by obtain ⟨o, e, h⟩ := settleOver_form m; rw [h]
@[simp] theorem settleOver_onceAt (m : Mod) : (settleOver m).onceAt = m.onceAt := by obtain ⟨o, e, h⟩ := settleOver_form m; rw [h]
@[simp] theorem settleOver_sources (m : Mod) : (settleOver m).sources = m.sources := by obtain ⟨o, e, h⟩ := settleOver_form m; rw [h]
@[simp] theorem settleOver_snap (m : Mod) : (settleOver m).snap = m.snap := by obtain ⟨o, e, h⟩ := settleOver_form m; rw [h]
@[simp] theorem settleOver_fw (m : Mod) : (settleOver m).fw = m.fw := by obtain ⟨o, e, h⟩ := settleOver_form m; rw [h]
@[simp] theorem settleOver_counted (m : Mod) : (settleOver m).counted = m.counted := by obtain ⟨o, e, h⟩ := settleOver_form m; rw [h]
@[simp] theorem settleOver_obj (m : Mod) : (settleOver m).obj = m.obj := by obtain ⟨o, e, h⟩ := settleOver_form m; rw [h]
@[simp] theorem settleOver_out (m : Mod) : (settleOver m).out = m.out := by obtain ⟨o, e, h⟩ := settleOver_form m; rw [h]
@[simp] theorem settleOver_drawn (m : Mod) : (settleOver m).drawn = m.drawn := by obtain ⟨o, e, h⟩ := settleOver_form m; rw [h]
@[simp] theorem settleOver_serials (m : Mod) : (settleOver m).serials = m.serials := by obtain ⟨o, e, h⟩ := settleOver_form m; rw [h]
@[simp] theorem settleOver_slots (m : Mod) : (settleOver m).slots = m.slots := by obtain ⟨o, e, h⟩ := settleOver_form m; rw [h]
@[simp] theorem look_settleOver (m : Mod) : look (settleOver m) = look m := by obtain ⟨o, e, h⟩ := settleOver_form m; rw [h]; rfl
@[simp] theorem sess_settleOver (m : Mod) : sess (settleOver m) = sess m := by obtain ⟨o, e, h⟩ := settleOver_form m; rw [h]; rfl
@[simp] theorem finish_otp (s : State) : (finish s).otp = s.otp := rfl
@[simp] theorem finish_flash (s : State) : (finish s).flash = s.flash := rfl
@[simp] theorem finish_pending (s : State) : (finish s).pending = s.pending := rfl
@[simp] theorem finish_mod (s : State) : (finish s).mod = settleOver s.mod := rfl

/-! ### The frame of a meaning -/

/-- A well-formed command answers its effect and what follows it. -/
theorem run_wf (name : String) (i : Instr) (s : State) (f : State → State) (h : i.wf = true) : run name i s f = .next (finish (f s)) := by
  simp [run, h]

/-- A command that is not well formed stops. -/
theorem run_ill (name : String) (i : Instr) (s : State) (f : State → State) (h : i.wf = false) : run name i s f = .fault (.malformed name) := by
  simp [run, h]

/-- What a next state of a meaning is. -/
theorem run_next {name : String} {i : Instr} {s t : State} {f : State → State} (h : run name i s f = .next t) :
    i.wf = true ∧ t = finish (f s) := by
  unfold run at h
  split at h
  · exact ⟨‹_›, (Host.Outcome.next.inj h).symm⟩
  · cases h

/-! ### Time -/

/-- A bank over some cycles changes itself, its counts of frame and ballast blocks and, with a count full, events (R32, R332). -/
theorem runBank_form (m : Mod) (k n : Nat) : ∃ banks obj ev, runBank m k n = { m with banks := banks, obj := obj, ev := ev } := by
  unfold runBank
  generalize (bank m k).dispatchRun n _ = d
  dsimp only
  generalize hb : setBank m k _ = m1
  obtain ⟨v, ev, h, -⟩ := bump_form m1 0x4200 7 k d.2
  rw [h]
  generalize hc : ({ setNat m1 0x4200 7 k v with ev := ev } : Mod) = m2
  obtain ⟨v', ev', h', -⟩ := bump_form m2 0x4200 8 k (n * d.1.active - d.2)
  subst hc hb
  exact ⟨_, _, _, h'⟩

theorem runBanks_form (l : List Nat) (n : Nat) (m : Mod) :
    ∃ banks obj ev, l.foldl (fun m k => runBank m k n) m = { m with banks := banks, obj := obj, ev := ev } := by
  induction l generalizing m with
  | nil => exact ⟨m.banks, m.obj, m.ev, rfl⟩
  | cons k r ih =>
    obtain ⟨a, b, c, h⟩ := runBank_form m k n
    obtain ⟨d, e, f, g⟩ := ih (runBank m k n)
    exact ⟨d, e, f, by rw [List.foldl_cons, g, h]⟩

theorem putOut_form (m : Mod) (p : Nat) (x : Leaving) : ∃ tx out, putOut m p x = { m with tx := tx, out := out } := ⟨_, _, rfl⟩

theorem keepSend_form (m : Mod) (p : Nat) (x : Leaving) : ∃ tts, keepSend m p x = { m with time := { m.time with tts := tts } } := by
  unfold keepSend
  split
  · exact ⟨m.time.tts, rfl⟩
  · exact ⟨_, rfl⟩

/-- A Gelix frame that leaves is put out and counted with its records, and time transfer may keep it (R89, R591). -/
theorem leaveFrame_form (p : Nat) (m : Mod) (x : Leaving) :
    ∃ tts tx obj ev out, leaveFrame p m x = { m with time := { m.time with tts := tts }, tx := tx, obj := obj, ev := ev, out := out } := by
  obtain ⟨tx, out, ho⟩ := putOut_form m p x
  obtain ⟨v, ev, h, -⟩ := bump_form (putOut m p x) 0x3200 7 p 1
  obtain ⟨v', ev', h', -⟩ := bump_form (bump (putOut m p x) 0x3200 7 p 1) 0x3200 8 p x.records
  obtain ⟨tts, hk⟩ := keepSend_form (bump (bump (putOut m p x) 0x3200 7 p 1) 0x3200 8 p x.records) p x
  unfold leaveFrame
  rw [hk, h', h, ho]
  exact ⟨tts, tx, _, ev', out, rfl⟩

/-- The frames that leave change what is on its way out at their ports, what is put out, the counts and the record of time transfer. -/
theorem leaveGelix_form (m : Mod) :
    ∃ tts tx obj ev out, leaveGelix m = { m with time := { m.time with tts := tts }, tx := tx, obj := obj, ev := ev, out := out } := by
  have frames : ∀ (p : Nat) (l : List Leaving) (m : Mod), ∃ tts tx obj ev out,
      l.foldl (leaveFrame p) m = { m with time := { m.time with tts := tts }, tx := tx, obj := obj, ev := ev, out := out } := by
    intro p l
    induction l with
    | nil => exact fun m => ⟨m.time.tts, m.tx, m.obj, m.ev, m.out, rfl⟩
    | cons x r ih =>
      intro m
      obtain ⟨a, a', b, c, o, h⟩ := leaveFrame_form p m x
      obtain ⟨d, d', e, f, g, k⟩ := ih (leaveFrame p m x)
      exact ⟨d, d', e, f, g, by rw [List.foldl_cons, k, h]⟩
  have ports : ∀ (m : Mod) (p : Nat), ∃ tts tx obj ev out,
      leavePort m p = { m with time := { m.time with tts := tts }, tx := tx, obj := obj, ev := ev, out := out } := by
    intro m p
    unfold leavePort
    dsimp only
    split
    · exact ⟨m.time.tts, m.tx, m.obj, m.ev, m.out, rfl⟩
    · obtain ⟨a, a', b, c, d, h⟩ := frames p (List.filter (fun x => decide (x.leave ≤ m.sys.elapsed)) (txOf m p).fixed) (setTx m p _)
      exact ⟨a, a', b, c, d, h⟩
  have all : ∀ (l : List Nat) (m : Mod), ∃ tts tx obj ev out,
      l.foldl leavePort m = { m with time := { m.time with tts := tts }, tx := tx, obj := obj, ev := ev, out := out } := by
    intro l
    induction l with
    | nil => exact fun m => ⟨m.time.tts, m.tx, m.obj, m.ev, m.out, rfl⟩
    | cons p r ih =>
      intro m
      obtain ⟨a, b, c, d, e, h⟩ := ports m p
      obtain ⟨f, g, i, j, o, k⟩ := ih (leavePort m p)
      exact ⟨f, g, i, j, o, by rw [List.foldl_cons, k, h]⟩
  exact all _ m

/-- Time passing changes the clock, the runtime, the time counters, the banks, the Gelix frames that leave, objects and events, and nothing
else (R31, R89, R552, R611). -/
theorem advance_form (m : Mod) (n : Nat) :
    ∃ c0 c1 locked tts runtime runtimeSub banks tx obj ev out, advance m n =
      { m with
        sys := { m.sys with elapsed := m.sys.elapsed + n },
        time := { m.time with c0 := c0, c1 := c1, locked := locked, tts := tts },
        tether := { m.tether with runtime := runtime, runtimeSub := runtimeSub },
        banks := banks, tx := tx, obj := obj, ev := ev, out := out } := by
  have clocks : ∃ c0 c1 locked runtime runtimeSub, runClocks m n =
      { m with
        sys := { m.sys with elapsed := m.sys.elapsed + n },
        time := { m.time with c0 := c0, c1 := c1, locked := locked },
        tether := { m.tether with runtime := runtime, runtimeSub := runtimeSub } } := by
    refine ⟨_, _, _, (runClocks m n).tether.runtime, (runClocks m n).tether.runtimeSub,
      show runClocks m n = { m with
        sys := { m.sys with elapsed := m.sys.elapsed + n },
        time := { m.time with c0 := (runClocks m n).time.c0, c1 := (runClocks m n).time.c1, locked := (runClocks m n).time.locked },
        tether := { m.tether with runtime := (runClocks m n).tether.runtime, runtimeSub := (runClocks m n).tether.runtimeSub } } from ?_⟩
    unfold runClocks
    dsimp only
    split <;> split <;> rfl
  obtain ⟨c0, c1, lk, rt, rs, hc⟩ := clocks
  unfold advance
  dsimp only
  split
  · obtain ⟨b, o, e, h⟩ := runBanks_form (List.range 8) n (runClocks m n)
    obtain ⟨tt, tx, o', e', out, h'⟩ := leaveGelix_form ((List.range 8).foldl (fun m k => runBank m k n) (runClocks m n))
    exact ⟨c0, c1, lk, tt, rt, rs, b, tx, o', e', out, by rw [h', h, hc]⟩
  · exact ⟨c0, c1, lk, m.time.tts, rt, rs, m.banks, m.tx, m.obj, m.ev, m.out, hc⟩

@[simp] theorem advance_elapsed (m : Mod) (n : Nat) : (advance m n).sys.elapsed = m.sys.elapsed + n := by
  obtain ⟨_, _, _, _, _, _, _, _, _, _, _, h⟩ := advance_form m n; rw [h]

/-- Time runs to a cycle, never back. -/
theorem advanceTo_elapsed (m : Mod) (t : Nat) : (advanceTo m t).sys.elapsed = max m.sys.elapsed t := by
  unfold advanceTo
  rw [advance_elapsed]
  omega

@[simp] theorem advance_mgmt (m : Mod) (n : Nat) : (advance m n).mgmt = m.mgmt := by
  obtain ⟨_, _, _, _, _, _, _, _, _, _, _, h⟩ := advance_form m n; rw [h]
@[simp] theorem advance_lanes (m : Mod) (n : Nat) : (advance m n).lanes = m.lanes := by
  obtain ⟨_, _, _, _, _, _, _, _, _, _, _, h⟩ := advance_form m n; rw [h]
@[simp] theorem advance_ports (m : Mod) (n : Nat) : (advance m n).ports = m.ports := by
  obtain ⟨_, _, _, _, _, _, _, _, _, _, _, h⟩ := advance_form m n; rw [h]
@[simp] theorem advance_rx (m : Mod) (n : Nat) : (advance m n).rx = m.rx := by
  obtain ⟨_, _, _, _, _, _, _, _, _, _, _, h⟩ := advance_form m n; rw [h]
@[simp] theorem advance_pm (m : Mod) (n : Nat) : (advance m n).pm = m.pm := by
  obtain ⟨_, _, _, _, _, _, _, _, _, _, _, h⟩ := advance_form m n; rw [h]
@[simp] theorem advance_stow (m : Mod) (n : Nat) : (advance m n).stow = m.stow := by
  obtain ⟨_, _, _, _, _, _, _, _, _, _, _, h⟩ := advance_form m n; rw [h]
@[simp] theorem advance_berths (m : Mod) (n : Nat) : (advance m n).berths = m.berths := by
  obtain ⟨_, _, _, _, _, _, _, _, _, _, _, h⟩ := advance_form m n; rw [h]
@[simp] theorem advance_keks (m : Mod) (n : Nat) : (advance m n).keks = m.keks := by
  obtain ⟨_, _, _, _, _, _, _, _, _, _, _, h⟩ := advance_form m n; rw [h]
@[simp] theorem advance_assocs (m : Mod) (n : Nat) : (advance m n).assocs = m.assocs := by
  obtain ⟨_, _, _, _, _, _, _, _, _, _, _, h⟩ := advance_form m n; rw [h]
@[simp] theorem advance_filters (m : Mod) (n : Nat) : (advance m n).filters = m.filters := by
  obtain ⟨_, _, _, _, _, _, _, _, _, _, _, h⟩ := advance_form m n; rw [h]
@[simp] theorem advance_entropy (m : Mod) (n : Nat) : (advance m n).entropy = m.entropy := by
  obtain ⟨_, _, _, _, _, _, _, _, _, _, _, h⟩ := advance_form m n; rw [h]
@[simp] theorem advance_cls (m : Mod) (n : Nat) : (advance m n).cls = m.cls := by
  obtain ⟨_, _, _, _, _, _, _, _, _, _, _, h⟩ := advance_form m n; rw [h]
@[simp] theorem advance_queues (m : Mod) (n : Nat) : (advance m n).queues = m.queues := by
  obtain ⟨_, _, _, _, _, _, _, _, _, _, _, h⟩ := advance_form m n; rw [h]
@[simp] theorem advance_nodes (m : Mod) (n : Nat) : (advance m n).nodes = m.nodes := by
  obtain ⟨_, _, _, _, _, _, _, _, _, _, _, h⟩ := advance_form m n; rw [h]
@[simp] theorem advance_arbs (m : Mod) (n : Nat) : (advance m n).arbs = m.arbs := by
  obtain ⟨_, _, _, _, _, _, _, _, _, _, _, h⟩ := advance_form m n; rw [h]
@[simp] theorem advance_gates (m : Mod) (n : Nat) : (advance m n).gates = m.gates := by
  obtain ⟨_, _, _, _, _, _, _, _, _, _, _, h⟩ := advance_form m n; rw [h]
@[simp] theorem advance_over (m : Mod) (n : Nat) : (advance m n).overs = m.overs := by
  obtain ⟨_, _, _, _, _, _, _, _, _, _, _, h⟩ := advance_form m n; rw [h]
@[simp] theorem advance_onceAt (m : Mod) (n : Nat) : (advance m n).onceAt = m.onceAt := by
  obtain ⟨_, _, _, _, _, _, _, _, _, _, _, h⟩ := advance_form m n; rw [h]
@[simp] theorem advance_sources (m : Mod) (n : Nat) : (advance m n).sources = m.sources := by
  obtain ⟨_, _, _, _, _, _, _, _, _, _, _, h⟩ := advance_form m n; rw [h]
@[simp] theorem advance_snap (m : Mod) (n : Nat) : (advance m n).snap = m.snap := by
  obtain ⟨_, _, _, _, _, _, _, _, _, _, _, h⟩ := advance_form m n; rw [h]
@[simp] theorem advance_fw (m : Mod) (n : Nat) : (advance m n).fw = m.fw := by
  obtain ⟨_, _, _, _, _, _, _, _, _, _, _, h⟩ := advance_form m n; rw [h]
@[simp] theorem advance_counted (m : Mod) (n : Nat) : (advance m n).counted = m.counted := by
  obtain ⟨_, _, _, _, _, _, _, _, _, _, _, h⟩ := advance_form m n; rw [h]
@[simp] theorem advance_serials (m : Mod) (n : Nat) : (advance m n).serials = m.serials := by
  obtain ⟨_, _, _, _, _, _, _, _, _, _, _, h⟩ := advance_form m n; rw [h]
@[simp] theorem advance_slots (m : Mod) (n : Nat) : (advance m n).slots = m.slots := by
  obtain ⟨_, _, _, _, _, _, _, _, _, _, _, h⟩ := advance_form m n; rw [h]
@[simp] theorem advance_drawn (m : Mod) (n : Nat) : (advance m n).drawn = m.drawn := by
  obtain ⟨_, _, _, _, _, _, _, _, _, _, _, h⟩ := advance_form m n; rw [h]
@[simp] theorem advance_sys_state (m : Mod) (n : Nat) : (advance m n).sys.state = m.sys.state := by
  obtain ⟨_, _, _, _, _, _, _, _, _, _, _, h⟩ := advance_form m n; rw [h]
@[simp] theorem advance_sys_step (m : Mod) (n : Nat) : (advance m n).sys.step = m.sys.step := by
  obtain ⟨_, _, _, _, _, _, _, _, _, _, _, h⟩ := advance_form m n; rw [h]
@[simp] theorem advance_sys_running (m : Mod) (n : Nat) : (advance m n).sys.running = m.sys.running := by
  obtain ⟨_, _, _, _, _, _, _, _, _, _, _, h⟩ := advance_form m n; rw [h]
@[simp] theorem advance_sys_mains (m : Mod) (n : Nat) : (advance m n).sys.mains = m.sys.mains := by
  obtain ⟨_, _, _, _, _, _, _, _, _, _, _, h⟩ := advance_form m n; rw [h]
@[simp] theorem advance_sys_pilot0 (m : Mod) (n : Nat) : (advance m n).sys.pilot0 = m.sys.pilot0 := by
  obtain ⟨_, _, _, _, _, _, _, _, _, _, _, h⟩ := advance_form m n; rw [h]
@[simp] theorem advance_sys_pilot1 (m : Mod) (n : Nat) : (advance m n).sys.pilot1 = m.sys.pilot1 := by
  obtain ⟨_, _, _, _, _, _, _, _, _, _, _, h⟩ := advance_form m n; rw [h]
@[simp] theorem advance_sys_cause (m : Mod) (n : Nat) : (advance m n).sys.cause = m.sys.cause := by
  obtain ⟨_, _, _, _, _, _, _, _, _, _, _, h⟩ := advance_form m n; rw [h]
@[simp] theorem advance_sys_restartAt (m : Mod) (n : Nat) : (advance m n).sys.restartAt = m.sys.restartAt := by
  obtain ⟨_, _, _, _, _, _, _, _, _, _, _, h⟩ := advance_form m n; rw [h]
@[simp] theorem advance_sys_zeroAt (m : Mod) (n : Nat) : (advance m n).sys.zeroAt = m.sys.zeroAt := by
  obtain ⟨_, _, _, _, _, _, _, _, _, _, _, h⟩ := advance_form m n; rw [h]
@[simp] theorem advance_sys_retired (m : Mod) (n : Nat) : (advance m n).sys.retired = m.sys.retired := by
  obtain ⟨_, _, _, _, _, _, _, _, _, _, _, h⟩ := advance_form m n; rw [h]
@[simp] theorem advance_sys_mainsLostAt (m : Mod) (n : Nat) : (advance m n).sys.mainsLostAt = m.sys.mainsLostAt := by
  obtain ⟨_, _, _, _, _, _, _, _, _, _, _, h⟩ := advance_form m n; rw [h]
@[simp] theorem advance_tether_vault (m : Mod) (n : Nat) : (advance m n).tether.vault = m.tether.vault := by
  obtain ⟨_, _, _, _, _, _, _, _, _, _, _, h⟩ := advance_form m n; rw [h]
@[simp] theorem advance_tether_onCell (m : Mod) (n : Nat) : (advance m n).tether.onCell = m.tether.onCell := by
  obtain ⟨_, _, _, _, _, _, _, _, _, _, _, h⟩ := advance_form m n; rw [h]
@[simp] theorem advance_tether_cellPresent (m : Mod) (n : Nat) : (advance m n).tether.cellPresent = m.tether.cellPresent := by
  obtain ⟨_, _, _, _, _, _, _, _, _, _, _, h⟩ := advance_form m n; rw [h]
@[simp] theorem advance_tether_buffer (m : Mod) (n : Nat) : (advance m n).tether.buffer = m.tether.buffer := by
  obtain ⟨_, _, _, _, _, _, _, _, _, _, _, h⟩ := advance_form m n; rw [h]
@[simp] theorem advance_tether_qAlarm (m : Mod) (n : Nat) : (advance m n).tether.qAlarm = m.tether.qAlarm := by
  obtain ⟨_, _, _, _, _, _, _, _, _, _, _, h⟩ := advance_form m n; rw [h]
@[simp] theorem advance_tether_qFault (m : Mod) (n : Nat) : (advance m n).tether.qFault = m.tether.qFault := by
  obtain ⟨_, _, _, _, _, _, _, _, _, _, _, h⟩ := advance_form m n; rw [h]
@[simp] theorem advance_tether_swapEnd (m : Mod) (n : Nat) : (advance m n).tether.swapEnd = m.tether.swapEnd := by
  obtain ⟨_, _, _, _, _, _, _, _, _, _, _, h⟩ := advance_form m n; rw [h]
@[simp] theorem advance_time_state (m : Mod) (n : Nat) : (advance m n).time.state = m.time.state := by
  obtain ⟨_, _, _, _, _, _, _, _, _, _, _, h⟩ := advance_form m n; rw [h]
@[simp] theorem advance_time_src (m : Mod) (n : Nat) : (advance m n).time.src = m.time.src := by
  obtain ⟨_, _, _, _, _, _, _, _, _, _, _, h⟩ := advance_form m n; rw [h]
@[simp] theorem advance_time_changes (m : Mod) (n : Nat) : (advance m n).time.changes = m.time.changes := by
  obtain ⟨_, _, _, _, _, _, _, _, _, _, _, h⟩ := advance_form m n; rw [h]
@[simp] theorem advance_time_leaseEnd (m : Mod) (n : Nat) : (advance m n).time.leaseEnd = m.time.leaseEnd := by
  obtain ⟨_, _, _, _, _, _, _, _, _, _, _, h⟩ := advance_form m n; rw [h]
@[simp] theorem advance_time_measAt (m : Mod) (n : Nat) : (advance m n).time.measAt = m.time.measAt := by
  obtain ⟨_, _, _, _, _, _, _, _, _, _, _, h⟩ := advance_form m n; rw [h]
@[simp] theorem advance_time_holdAt (m : Mod) (n : Nat) : (advance m n).time.holdAt = m.time.holdAt := by
  obtain ⟨_, _, _, _, _, _, _, _, _, _, _, h⟩ := advance_form m n; rw [h]
@[simp] theorem advance_time_lock1 (m : Mod) (n : Nat) : (advance m n).time.lock1 = m.time.lock1 := by
  obtain ⟨_, _, _, _, _, _, _, _, _, _, _, h⟩ := advance_form m n; rw [h]
@[simp] theorem advance_time_linkUp (m : Mod) (n : Nat) : (advance m n).time.linkUp = m.time.linkUp := by
  obtain ⟨_, _, _, _, _, _, _, _, _, _, _, h⟩ := advance_form m n; rw [h]
@[simp] theorem advance_time_copyAt (m : Mod) (n : Nat) : (advance m n).time.copyAt = m.time.copyAt := by
  obtain ⟨_, _, _, _, _, _, _, _, _, _, _, h⟩ := advance_form m n; rw [h]
@[simp] theorem sess_advance (m : Mod) (n : Nat) : sess (advance m n) = sess m := by
  obtain ⟨_, _, _, _, _, _, _, _, _, _, _, h⟩ := advance_form m n; rw [h]; rfl

/-- A bank over some cycles leaves every object but its counts of blocks. -/
theorem look_runBank_ne (m : Mod) (k n : Nat) {i s e : Nat} (hs : s < 256) (hi : ¬(i = 0x4200 ∧ (s = 7 ∨ s = 8))) :
    look (runBank m k n) [] i s e = look m [] i s e := by
  have hk : ∀ x, x < 256 → (x = 7 ∨ x = 8) → okey i s e ≠ okey 0x4200 x k := fun x hx h7 h =>
    hi ⟨(okey_inj hs hx h).1, by rw [(okey_inj hs hx h).2.1]; exact h7⟩
  obtain ⟨o, ho⟩ : ∃ o, objRow 0x4200 8 = some o := ⟨_, rfl⟩
  obtain ⟨o', ho'⟩ : ∃ o, objRow 0x4200 7 = some o := ⟨_, rfl⟩
  unfold runBank
  dsimp only
  rw [look_bump_ne _ o ho (hk 8 (by decide) (.inr rfl)) (by decide) (by decide),
    look_bump_ne _ o' ho' (hk 7 (by decide) (.inl rfl)) (by decide) (by decide), look_setBank]

/-- A Gelix frame that leaves changes no object but its counts. -/
theorem look_leaveFrame_ne (p : Nat) (m : Mod) (x : Leaving) {i s e : Nat} (hs : s < 256) (hi : ¬(i = 0x3200 ∧ (s = 7 ∨ s = 8))) :
    look (leaveFrame p m x) [] i s e = look m [] i s e := by
  have hk : ∀ y, y < 256 → (y = 7 ∨ y = 8) → okey i s e ≠ okey 0x3200 y p := fun y hy h7 h =>
    hi ⟨(okey_inj hs hy h).1, by rw [(okey_inj hs hy h).2.1]; exact h7⟩
  obtain ⟨o, ho⟩ : ∃ o, objRow 0x3200 8 = some o := ⟨_, rfl⟩
  obtain ⟨o', ho'⟩ : ∃ o, objRow 0x3200 7 = some o := ⟨_, rfl⟩
  have keep : ∀ m : Mod, look (keepSend m p x) [] i s e = look m [] i s e := by
    intro m; obtain ⟨tts, h⟩ := keepSend_form m p x; rw [h]; rfl
  unfold leaveFrame
  rw [keep, look_bump_ne _ o ho (hk 8 (by decide) (.inr rfl)) (by decide) (by decide),
    look_bump_ne _ o' ho' (hk 7 (by decide) (.inl rfl)) (by decide) (by decide)]
  rfl

/-- The Gelix frames that leave change no object but their counts. -/
theorem look_leaveGelix_ne (m : Mod) {i s e : Nat} (hs : s < 256) (hi : ¬(i = 0x3200 ∧ (s = 7 ∨ s = 8))) :
    look (leaveGelix m) [] i s e = look m [] i s e := by
  have frames : ∀ (p : Nat) (l : List Leaving) (m : Mod), look (l.foldl (leaveFrame p) m) [] i s e = look m [] i s e := by
    intro p l
    induction l with
    | nil => intro m; rfl
    | cons x r ih => intro m; rw [List.foldl_cons, ih, look_leaveFrame_ne p m x hs hi]
  have all : ∀ (l : List Nat) (m : Mod), look (l.foldl leavePort m) [] i s e = look m [] i s e := by
    intro l
    induction l with
    | nil => intro m; rfl
    | cons p r ih =>
      intro m
      rw [List.foldl_cons, ih]
      unfold leavePort
      dsimp only
      split
      · rfl
      · rw [frames]; rfl
  exact all _ m

/-- Time passing leaves every object but the counts of blocks 0x4200:07 and :08 and those of sent Gelix frames 0x3200:07 and :08. -/
theorem look_advance_ne (m : Mod) (n : Nat) {i s e : Nat} (hs : s < 256) (hi : ¬((i = 0x4200 ∨ i = 0x3200) ∧ (s = 7 ∨ s = 8))) :
    look (advance m n) [] i s e = look m [] i s e := by
  have banks : ∀ (l : List Nat) (m : Mod), look (l.foldl (fun m k => runBank m k n) m) [] i s e = look m [] i s e := by
    intro l
    induction l with
    | nil => intro m; rfl
    | cons k r ih => intro m; rw [List.foldl_cons, ih, look_runBank_ne m k n hs fun h => hi ⟨.inl h.1, h.2⟩]
  have clocks : look (runClocks m n) [] i s e = look m [] i s e := by
    have hv : (runClocks m n).tether.vault = m.tether.vault := by
      unfold runClocks
      dsimp only
      split <;> rfl
    have ho : (runClocks m n).obj = m.obj := rfl
    unfold look store
    simp only [hv, ho]
  unfold advance
  dsimp only
  split
  · rw [look_leaveGelix_ne _ hs fun h => hi ⟨.inr h.1, h.2⟩, banks, clocks]
  · exact clocks

end Sys2Proof.Machine
end

