-- ==== Sys2Proof/Laws/Session.lean ====
section
/-! SUPPORT. Messages: what sending and answering leave alone, and what serving an accepted message comes to. -/

namespace Sys2Proof.Machine

/-- What every step of a fold keeps, the fold keeps. -/
theorem foldl_keeps {α β γ : Type} (f : β → γ) (g : β → α → β) (h : ∀ b a, f (g b a) = f b) (l : List α) (b : β) : f (l.foldl g b) = f b := by
  induction l generalizing b with
  | nil => rfl
  | cons a r ih => rw [List.foldl_cons, ih, h]

/-! ### Sending -/

/-- Sending puts a message out, or has it wait at its port: nothing else changes. -/
theorem send_form (m : Mod) (x : Msg) : ∃ icept out, send m x = { m with mgmt := { m.mgmt with icept := icept }, out := out } := by
  unfold send
  split
  · exact ⟨_, _, rfl⟩
  · exact ⟨_, _, rfl⟩
  · exact ⟨m.mgmt.icept, _, rfl⟩

theorem sends_form (l : List Msg) (m : Mod) : ∃ icept out, l.foldl send m = { m with mgmt := { m.mgmt with icept := icept }, out := out } := by
  induction l generalizing m with
  | nil => exact ⟨m.mgmt.icept, m.out, rfl⟩
  | cons x r ih =>
    obtain ⟨i, o, h⟩ := send_form m x
    obtain ⟨j, p, k⟩ := ih (send m x)
    exact ⟨j, p, by rw [List.foldl_cons, k, h]⟩

/-- A message sent has been handed to its path. -/
theorem sent_send (m : Mod) (x : Msg) : Sent m (send m x) x := by
  unfold Sent send
  cases x.path with
  | clear p => simp [sendLater]
  | mgmt k => rfl
  | mch p => simp [sendLater]

@[simp] theorem send_sys (m : Mod) (x : Msg) : (send m x).sys = m.sys := by obtain ⟨i, o, h⟩ := send_form m x; rw [h]
@[simp] theorem send_tether (m : Mod) (x : Msg) : (send m x).tether = m.tether := by obtain ⟨i, o, h⟩ := send_form m x; rw [h]
@[simp] theorem send_ev (m : Mod) (x : Msg) : (send m x).ev = m.ev := by obtain ⟨i, o, h⟩ := send_form m x; rw [h]
@[simp] theorem send_time (m : Mod) (x : Msg) : (send m x).time = m.time := by obtain ⟨i, o, h⟩ := send_form m x; rw [h]
@[simp] theorem send_lanes (m : Mod) (x : Msg) : (send m x).lanes = m.lanes := by obtain ⟨i, o, h⟩ := send_form m x; rw [h]
@[simp] theorem send_ports (m : Mod) (x : Msg) : (send m x).ports = m.ports := by obtain ⟨i, o, h⟩ := send_form m x; rw [h]
@[simp] theorem send_rx (m : Mod) (x : Msg) : (send m x).rx = m.rx := by obtain ⟨i, o, h⟩ := send_form m x; rw [h]
@[simp] theorem send_tx (m : Mod) (x : Msg) : (send m x).tx = m.tx := by obtain ⟨i, o, h⟩ := send_form m x; rw [h]
@[simp] theorem send_pm (m : Mod) (x : Msg) : (send m x).pm = m.pm := by obtain ⟨i, o, h⟩ := send_form m x; rw [h]
@[simp] theorem send_stow (m : Mod) (x : Msg) : (send m x).stow = m.stow := by obtain ⟨i, o, h⟩ := send_form m x; rw [h]
@[simp] theorem send_berths (m : Mod) (x : Msg) : (send m x).berths = m.berths := by obtain ⟨i, o, h⟩ := send_form m x; rw [h]
@[simp] theorem send_keks (m : Mod) (x : Msg) : (send m x).keks = m.keks := by obtain ⟨i, o, h⟩ := send_form m x; rw [h]
@[simp] theorem send_assocs (m : Mod) (x : Msg) : (send m x).assocs = m.assocs := by obtain ⟨i, o, h⟩ := send_form m x; rw [h]
@[simp] theorem send_filters (m : Mod) (x : Msg) : (send m x).filters = m.filters := by obtain ⟨i, o, h⟩ := send_form m x; rw [h]
@[simp] theorem send_banks (m : Mod) (x : Msg) : (send m x).banks = m.banks := by obtain ⟨i, o, h⟩ := send_form m x; rw [h]
@[simp] theorem send_entropy (m : Mod) (x : Msg) : (send m x).entropy = m.entropy := by obtain ⟨i, o, h⟩ := send_form m x; rw [h]
@[simp] theorem send_cls (m : Mod) (x : Msg) : (send m x).cls = m.cls := by obtain ⟨i, o, h⟩ := send_form m x; rw [h]
@[simp] theorem send_queues (m : Mod) (x : Msg) : (send m x).queues = m.queues := by obtain ⟨i, o, h⟩ := send_form m x; rw [h]
@[simp] theorem send_nodes (m : Mod) (x : Msg) : (send m x).nodes = m.nodes := by obtain ⟨i, o, h⟩ := send_form m x; rw [h]
@[simp] theorem send_arbs (m : Mod) (x : Msg) : (send m x).arbs = m.arbs := by obtain ⟨i, o, h⟩ := send_form m x; rw [h]
@[simp] theorem send_gates (m : Mod) (x : Msg) : (send m x).gates = m.gates := by obtain ⟨i, o, h⟩ := send_form m x; rw [h]
@[simp] theorem send_over (m : Mod) (x : Msg) : (send m x).overs = m.overs := by obtain ⟨i, o, h⟩ := send_form m x; rw [h]
@[simp] theorem send_onceAt (m : Mod) (x : Msg) : (send m x).onceAt = m.onceAt := by obtain ⟨i, o, h⟩ := send_form m x; rw [h]
@[simp] theorem send_sources (m : Mod) (x : Msg) : (send m x).sources = m.sources := by obtain ⟨i, o, h⟩ := send_form m x; rw [h]
@[simp] theorem send_snap (m : Mod) (x : Msg) : (send m x).snap = m.snap := by obtain ⟨i, o, h⟩ := send_form m x; rw [h]
@[simp] theorem send_fw (m : Mod) (x : Msg) : (send m x).fw = m.fw := by obtain ⟨i, o, h⟩ := send_form m x; rw [h]
@[simp] theorem send_counted (m : Mod) (x : Msg) : (send m x).counted = m.counted := by obtain ⟨i, o, h⟩ := send_form m x; rw [h]
@[simp] theorem send_obj (m : Mod) (x : Msg) : (send m x).obj = m.obj := by obtain ⟨i, o, h⟩ := send_form m x; rw [h]
@[simp] theorem send_drawn (m : Mod) (x : Msg) : (send m x).drawn = m.drawn := by obtain ⟨i, o, h⟩ := send_form m x; rw [h]
@[simp] theorem send_mgmt_sessions (m : Mod) (x : Msg) : (send m x).mgmt.sessions = m.mgmt.sessions := by obtain ⟨i, o, h⟩ := send_form m x; rw [h]
@[simp] theorem send_mgmt_expired (m : Mod) (x : Msg) : (send m x).mgmt.expired = m.mgmt.expired := by obtain ⟨i, o, h⟩ := send_form m x; rw [h]
@[simp] theorem send_mgmt_pilot (m : Mod) (x : Msg) : (send m x).mgmt.pilot = m.mgmt.pilot := by obtain ⟨i, o, h⟩ := send_form m x; rw [h]
@[simp] theorem send_mgmt_relay (m : Mod) (x : Msg) : (send m x).mgmt.relay = m.mgmt.relay := by obtain ⟨i, o, h⟩ := send_form m x; rw [h]
@[simp] theorem send_mgmt_linkUp (m : Mod) (x : Msg) : (send m x).mgmt.linkUp = m.mgmt.linkUp := by obtain ⟨i, o, h⟩ := send_form m x; rw [h]
@[simp] theorem send_mgmt_fails (m : Mod) (x : Msg) : (send m x).mgmt.fails = m.mgmt.fails := by obtain ⟨i, o, h⟩ := send_form m x; rw [h]
@[simp] theorem send_mgmt_lockedTo (m : Mod) (x : Msg) : (send m x).mgmt.lockedTo = m.mgmt.lockedTo := by obtain ⟨i, o, h⟩ := send_form m x; rw [h]
@[simp] theorem send_mgmt_lastUse (m : Mod) (x : Msg) : (send m x).mgmt.lastUse = m.mgmt.lastUse := by obtain ⟨i, o, h⟩ := send_form m x; rw [h]
@[simp] theorem send_mgmt_pathFree (m : Mod) (x : Msg) : (send m x).mgmt.pathFree = m.mgmt.pathFree := by obtain ⟨i, o, h⟩ := send_form m x; rw [h]
@[simp] theorem send_mgmt_pathNext (m : Mod) (x : Msg) : (send m x).mgmt.pathNext = m.mgmt.pathNext := by obtain ⟨i, o, h⟩ := send_form m x; rw [h]
@[simp] theorem send_mgmt_grants (m : Mod) (x : Msg) : (send m x).mgmt.grants = m.mgmt.grants := by obtain ⟨i, o, h⟩ := send_form m x; rw [h]
@[simp] theorem send_mgmt_debugBy (m : Mod) (x : Msg) : (send m x).mgmt.debugBy = m.mgmt.debugBy := by obtain ⟨i, o, h⟩ := send_form m x; rw [h]
@[simp] theorem send_mgmt_retireBy (m : Mod) (x : Msg) : (send m x).mgmt.retireBy = m.mgmt.retireBy := by obtain ⟨i, o, h⟩ := send_form m x; rw [h]
@[simp] theorem send_mgmt_scratch (m : Mod) (x : Msg) : (send m x).mgmt.scratch = m.mgmt.scratch := by obtain ⟨i, o, h⟩ := send_form m x; rw [h]
@[simp] theorem send_mgmt_taps (m : Mod) (x : Msg) : (send m x).mgmt.taps = m.mgmt.taps := by obtain ⟨i, o, h⟩ := send_form m x; rw [h]
@[simp] theorem send_mgmt_reports (m : Mod) (x : Msg) : (send m x).mgmt.reports = m.mgmt.reports := by obtain ⟨i, o, h⟩ := send_form m x; rw [h]
@[simp] theorem sess_send (m : Mod) (x : Msg) : sess (send m x) = sess m := by obtain ⟨i, o, h⟩ := send_form m x; rw [h]; rfl
@[simp] theorem look_send (m : Mod) (x : Msg) : look (send m x) = look m := by obtain ⟨i, o, h⟩ := send_form m x; rw [h]; rfl

@[simp] theorem sends_sys (l : List Msg) (m : Mod) : (l.foldl send m).sys = m.sys := by obtain ⟨i, o, h⟩ := sends_form l m; rw [h]
@[simp] theorem sends_tether (l : List Msg) (m : Mod) : (l.foldl send m).tether = m.tether := by obtain ⟨i, o, h⟩ := sends_form l m; rw [h]
@[simp] theorem sends_ev (l : List Msg) (m : Mod) : (l.foldl send m).ev = m.ev := by obtain ⟨i, o, h⟩ := sends_form l m; rw [h]
@[simp] theorem sends_time (l : List Msg) (m : Mod) : (l.foldl send m).time = m.time := by obtain ⟨i, o, h⟩ := sends_form l m; rw [h]
@[simp] theorem sends_lanes (l : List Msg) (m : Mod) : (l.foldl send m).lanes = m.lanes := by obtain ⟨i, o, h⟩ := sends_form l m; rw [h]
@[simp] theorem sends_ports (l : List Msg) (m : Mod) : (l.foldl send m).ports = m.ports := by obtain ⟨i, o, h⟩ := sends_form l m; rw [h]
@[simp] theorem sends_rx (l : List Msg) (m : Mod) : (l.foldl send m).rx = m.rx := by obtain ⟨i, o, h⟩ := sends_form l m; rw [h]
@[simp] theorem sends_tx (l : List Msg) (m : Mod) : (l.foldl send m).tx = m.tx := by obtain ⟨i, o, h⟩ := sends_form l m; rw [h]
@[simp] theorem sends_pm (l : List Msg) (m : Mod) : (l.foldl send m).pm = m.pm := by obtain ⟨i, o, h⟩ := sends_form l m; rw [h]
@[simp] theorem sends_stow (l : List Msg) (m : Mod) : (l.foldl send m).stow = m.stow := by obtain ⟨i, o, h⟩ := sends_form l m; rw [h]
@[simp] theorem sends_berths (l : List Msg) (m : Mod) : (l.foldl send m).berths = m.berths := by obtain ⟨i, o, h⟩ := sends_form l m; rw [h]
@[simp] theorem sends_keks (l : List Msg) (m : Mod) : (l.foldl send m).keks = m.keks := by obtain ⟨i, o, h⟩ := sends_form l m; rw [h]
@[simp] theorem sends_assocs (l : List Msg) (m : Mod) : (l.foldl send m).assocs = m.assocs := by obtain ⟨i, o, h⟩ := sends_form l m; rw [h]
@[simp] theorem sends_filters (l : List Msg) (m : Mod) : (l.foldl send m).filters = m.filters := by obtain ⟨i, o, h⟩ := sends_form l m; rw [h]
@[simp] theorem sends_banks (l : List Msg) (m : Mod) : (l.foldl send m).banks = m.banks := by obtain ⟨i, o, h⟩ := sends_form l m; rw [h]
@[simp] theorem sends_entropy (l : List Msg) (m : Mod) : (l.foldl send m).entropy = m.entropy := by obtain ⟨i, o, h⟩ := sends_form l m; rw [h]
@[simp] theorem sends_cls (l : List Msg) (m : Mod) : (l.foldl send m).cls = m.cls := by obtain ⟨i, o, h⟩ := sends_form l m; rw [h]
@[simp] theorem sends_queues (l : List Msg) (m : Mod) : (l.foldl send m).queues = m.queues := by obtain ⟨i, o, h⟩ := sends_form l m; rw [h]
@[simp] theorem sends_nodes (l : List Msg) (m : Mod) : (l.foldl send m).nodes = m.nodes := by obtain ⟨i, o, h⟩ := sends_form l m; rw [h]
@[simp] theorem sends_arbs (l : List Msg) (m : Mod) : (l.foldl send m).arbs = m.arbs := by obtain ⟨i, o, h⟩ := sends_form l m; rw [h]
@[simp] theorem sends_gates (l : List Msg) (m : Mod) : (l.foldl send m).gates = m.gates := by obtain ⟨i, o, h⟩ := sends_form l m; rw [h]
@[simp] theorem sends_over (l : List Msg) (m : Mod) : (l.foldl send m).overs = m.overs := by obtain ⟨i, o, h⟩ := sends_form l m; rw [h]
@[simp] theorem sends_onceAt (l : List Msg) (m : Mod) : (l.foldl send m).onceAt = m.onceAt := by obtain ⟨i, o, h⟩ := sends_form l m; rw [h]
@[simp] theorem sends_sources (l : List Msg) (m : Mod) : (l.foldl send m).sources = m.sources := by obtain ⟨i, o, h⟩ := sends_form l m; rw [h]
@[simp] theorem sends_snap (l : List Msg) (m : Mod) : (l.foldl send m).snap = m.snap := by obtain ⟨i, o, h⟩ := sends_form l m; rw [h]
@[simp] theorem sends_fw (l : List Msg) (m : Mod) : (l.foldl send m).fw = m.fw := by obtain ⟨i, o, h⟩ := sends_form l m; rw [h]
@[simp] theorem sends_counted (l : List Msg) (m : Mod) : (l.foldl send m).counted = m.counted := by obtain ⟨i, o, h⟩ := sends_form l m; rw [h]
@[simp] theorem sends_obj (l : List Msg) (m : Mod) : (l.foldl send m).obj = m.obj := by obtain ⟨i, o, h⟩ := sends_form l m; rw [h]
@[simp] theorem sends_drawn (l : List Msg) (m : Mod) : (l.foldl send m).drawn = m.drawn := by obtain ⟨i, o, h⟩ := sends_form l m; rw [h]
@[simp] theorem sends_mgmt_sessions (l : List Msg) (m : Mod) : (l.foldl send m).mgmt.sessions = m.mgmt.sessions := by obtain ⟨i, o, h⟩ := sends_form l m; rw [h]
@[simp] theorem sends_mgmt_expired (l : List Msg) (m : Mod) : (l.foldl send m).mgmt.expired = m.mgmt.expired := by obtain ⟨i, o, h⟩ := sends_form l m; rw [h]
@[simp] theorem sends_mgmt_pilot (l : List Msg) (m : Mod) : (l.foldl send m).mgmt.pilot = m.mgmt.pilot := by obtain ⟨i, o, h⟩ := sends_form l m; rw [h]
@[simp] theorem sends_mgmt_relay (l : List Msg) (m : Mod) : (l.foldl send m).mgmt.relay = m.mgmt.relay := by obtain ⟨i, o, h⟩ := sends_form l m; rw [h]
@[simp] theorem sends_mgmt_linkUp (l : List Msg) (m : Mod) : (l.foldl send m).mgmt.linkUp = m.mgmt.linkUp := by obtain ⟨i, o, h⟩ := sends_form l m; rw [h]
@[simp] theorem sends_mgmt_fails (l : List Msg) (m : Mod) : (l.foldl send m).mgmt.fails = m.mgmt.fails := by obtain ⟨i, o, h⟩ := sends_form l m; rw [h]
@[simp] theorem sends_mgmt_lockedTo (l : List Msg) (m : Mod) : (l.foldl send m).mgmt.lockedTo = m.mgmt.lockedTo := by obtain ⟨i, o, h⟩ := sends_form l m; rw [h]
@[simp] theorem sends_mgmt_lastUse (l : List Msg) (m : Mod) : (l.foldl send m).mgmt.lastUse = m.mgmt.lastUse := by obtain ⟨i, o, h⟩ := sends_form l m; rw [h]
@[simp] theorem sends_mgmt_pathFree (l : List Msg) (m : Mod) : (l.foldl send m).mgmt.pathFree = m.mgmt.pathFree := by obtain ⟨i, o, h⟩ := sends_form l m; rw [h]
@[simp] theorem sends_mgmt_pathNext (l : List Msg) (m : Mod) : (l.foldl send m).mgmt.pathNext = m.mgmt.pathNext := by obtain ⟨i, o, h⟩ := sends_form l m; rw [h]
@[simp] theorem sends_mgmt_grants (l : List Msg) (m : Mod) : (l.foldl send m).mgmt.grants = m.mgmt.grants := by obtain ⟨i, o, h⟩ := sends_form l m; rw [h]
@[simp] theorem sends_mgmt_debugBy (l : List Msg) (m : Mod) : (l.foldl send m).mgmt.debugBy = m.mgmt.debugBy := by obtain ⟨i, o, h⟩ := sends_form l m; rw [h]
@[simp] theorem sends_mgmt_retireBy (l : List Msg) (m : Mod) : (l.foldl send m).mgmt.retireBy = m.mgmt.retireBy := by obtain ⟨i, o, h⟩ := sends_form l m; rw [h]
@[simp] theorem sends_mgmt_scratch (l : List Msg) (m : Mod) : (l.foldl send m).mgmt.scratch = m.mgmt.scratch := by obtain ⟨i, o, h⟩ := sends_form l m; rw [h]
@[simp] theorem sends_mgmt_taps (l : List Msg) (m : Mod) : (l.foldl send m).mgmt.taps = m.mgmt.taps := by obtain ⟨i, o, h⟩ := sends_form l m; rw [h]
@[simp] theorem sends_mgmt_reports (l : List Msg) (m : Mod) : (l.foldl send m).mgmt.reports = m.mgmt.reports := by obtain ⟨i, o, h⟩ := sends_form l m; rw [h]
@[simp] theorem sess_sends (l : List Msg) (m : Mod) : sess (l.foldl send m) = sess m := by obtain ⟨i, o, h⟩ := sends_form l m; rw [h]; rfl
@[simp] theorem look_sends (l : List Msg) (m : Mod) : look (l.foldl send m) = look m := by obtain ⟨i, o, h⟩ := sends_form l m; rw [h]; rfl

/-! ### Replies -/

/-- A protected reply: its messages go out, and the session counts and keeps them (R759). -/
theorem replySealed_form (m : Mod) (slot id sent : Nat) (h : Hdr) (op status : Nat) (bodies : List Octets) :
    ∃ sessions icept out, replySealed m slot id sent h op status bodies =
      { m with mgmt := { m.mgmt with sessions := sessions, icept := icept }, out := out } := by
  obtain ⟨i, o, k⟩ := sends_form (replyMsgs h op status sent id bodies) m
  unfold replySealed
  dsimp only
  rw [k]
  split
  · exact ⟨_, _, _, rfl⟩
  · exact ⟨m.mgmt.sessions, _, _, rfl⟩

@[simp] theorem replySealed_sys (m : Mod) (slot id sent : Nat) (h : Hdr) (op status : Nat) (bodies : List Octets) : (replySealed m slot id sent h op status bodies).sys = m.sys := by
  obtain ⟨x, i, o, k⟩ := replySealed_form m slot id sent h op status bodies; rw [k]
@[simp] theorem replySealed_tether (m : Mod) (slot id sent : Nat) (h : Hdr) (op status : Nat) (bodies : List Octets) : (replySealed m slot id sent h op status bodies).tether = m.tether := by
  obtain ⟨x, i, o, k⟩ := replySealed_form m slot id sent h op status bodies; rw [k]
@[simp] theorem replySealed_ev (m : Mod) (slot id sent : Nat) (h : Hdr) (op status : Nat) (bodies : List Octets) : (replySealed m slot id sent h op status bodies).ev = m.ev := by
  obtain ⟨x, i, o, k⟩ := replySealed_form m slot id sent h op status bodies; rw [k]
@[simp] theorem replySealed_time (m : Mod) (slot id sent : Nat) (h : Hdr) (op status : Nat) (bodies : List Octets) : (replySealed m slot id sent h op status bodies).time = m.time := by
  obtain ⟨x, i, o, k⟩ := replySealed_form m slot id sent h op status bodies; rw [k]
@[simp] theorem replySealed_lanes (m : Mod) (slot id sent : Nat) (h : Hdr) (op status : Nat) (bodies : List Octets) : (replySealed m slot id sent h op status bodies).lanes = m.lanes := by
  obtain ⟨x, i, o, k⟩ := replySealed_form m slot id sent h op status bodies; rw [k]
@[simp] theorem replySealed_ports (m : Mod) (slot id sent : Nat) (h : Hdr) (op status : Nat) (bodies : List Octets) : (replySealed m slot id sent h op status bodies).ports = m.ports := by
  obtain ⟨x, i, o, k⟩ := replySealed_form m slot id sent h op status bodies; rw [k]
@[simp] theorem replySealed_rx (m : Mod) (slot id sent : Nat) (h : Hdr) (op status : Nat) (bodies : List Octets) : (replySealed m slot id sent h op status bodies).rx = m.rx := by
  obtain ⟨x, i, o, k⟩ := replySealed_form m slot id sent h op status bodies; rw [k]
@[simp] theorem replySealed_tx (m : Mod) (slot id sent : Nat) (h : Hdr) (op status : Nat) (bodies : List Octets) : (replySealed m slot id sent h op status bodies).tx = m.tx := by
  obtain ⟨x, i, o, k⟩ := replySealed_form m slot id sent h op status bodies; rw [k]
@[simp] theorem replySealed_pm (m : Mod) (slot id sent : Nat) (h : Hdr) (op status : Nat) (bodies : List Octets) : (replySealed m slot id sent h op status bodies).pm = m.pm := by
  obtain ⟨x, i, o, k⟩ := replySealed_form m slot id sent h op status bodies; rw [k]
@[simp] theorem replySealed_stow (m : Mod) (slot id sent : Nat) (h : Hdr) (op status : Nat) (bodies : List Octets) : (replySealed m slot id sent h op status bodies).stow = m.stow := by
  obtain ⟨x, i, o, k⟩ := replySealed_form m slot id sent h op status bodies; rw [k]
@[simp] theorem replySealed_berths (m : Mod) (slot id sent : Nat) (h : Hdr) (op status : Nat) (bodies : List Octets) : (replySealed m slot id sent h op status bodies).berths = m.berths := by
  obtain ⟨x, i, o, k⟩ := replySealed_form m slot id sent h op status bodies; rw [k]
@[simp] theorem replySealed_keks (m : Mod) (slot id sent : Nat) (h : Hdr) (op status : Nat) (bodies : List Octets) : (replySealed m slot id sent h op status bodies).keks = m.keks := by
  obtain ⟨x, i, o, k⟩ := replySealed_form m slot id sent h op status bodies; rw [k]
@[simp] theorem replySealed_assocs (m : Mod) (slot id sent : Nat) (h : Hdr) (op status : Nat) (bodies : List Octets) : (replySealed m slot id sent h op status bodies).assocs = m.assocs := by
  obtain ⟨x, i, o, k⟩ := replySealed_form m slot id sent h op status bodies; rw [k]
@[simp] theorem replySealed_filters (m : Mod) (slot id sent : Nat) (h : Hdr) (op status : Nat) (bodies : List Octets) : (replySealed m slot id sent h op status bodies).filters = m.filters := by
  obtain ⟨x, i, o, k⟩ := replySealed_form m slot id sent h op status bodies; rw [k]
@[simp] theorem replySealed_banks (m : Mod) (slot id sent : Nat) (h : Hdr) (op status : Nat) (bodies : List Octets) : (replySealed m slot id sent h op status bodies).banks = m.banks := by
  obtain ⟨x, i, o, k⟩ := replySealed_form m slot id sent h op status bodies; rw [k]
@[simp] theorem replySealed_entropy (m : Mod) (slot id sent : Nat) (h : Hdr) (op status : Nat) (bodies : List Octets) : (replySealed m slot id sent h op status bodies).entropy = m.entropy := by
  obtain ⟨x, i, o, k⟩ := replySealed_form m slot id sent h op status bodies; rw [k]
@[simp] theorem replySealed_cls (m : Mod) (slot id sent : Nat) (h : Hdr) (op status : Nat) (bodies : List Octets) : (replySealed m slot id sent h op status bodies).cls = m.cls := by
  obtain ⟨x, i, o, k⟩ := replySealed_form m slot id sent h op status bodies; rw [k]
@[simp] theorem replySealed_queues (m : Mod) (slot id sent : Nat) (h : Hdr) (op status : Nat) (bodies : List Octets) : (replySealed m slot id sent h op status bodies).queues = m.queues := by
  obtain ⟨x, i, o, k⟩ := replySealed_form m slot id sent h op status bodies; rw [k]
@[simp] theorem replySealed_nodes (m : Mod) (slot id sent : Nat) (h : Hdr) (op status : Nat) (bodies : List Octets) : (replySealed m slot id sent h op status bodies).nodes = m.nodes := by
  obtain ⟨x, i, o, k⟩ := replySealed_form m slot id sent h op status bodies; rw [k]
@[simp] theorem replySealed_arbs (m : Mod) (slot id sent : Nat) (h : Hdr) (op status : Nat) (bodies : List Octets) : (replySealed m slot id sent h op status bodies).arbs = m.arbs := by
  obtain ⟨x, i, o, k⟩ := replySealed_form m slot id sent h op status bodies; rw [k]
@[simp] theorem replySealed_gates (m : Mod) (slot id sent : Nat) (h : Hdr) (op status : Nat) (bodies : List Octets) : (replySealed m slot id sent h op status bodies).gates = m.gates := by
  obtain ⟨x, i, o, k⟩ := replySealed_form m slot id sent h op status bodies; rw [k]
@[simp] theorem replySealed_over (m : Mod) (slot id sent : Nat) (h : Hdr) (op status : Nat) (bodies : List Octets) : (replySealed m slot id sent h op status bodies).overs = m.overs := by
  obtain ⟨x, i, o, k⟩ := replySealed_form m slot id sent h op status bodies; rw [k]
@[simp] theorem replySealed_onceAt (m : Mod) (slot id sent : Nat) (h : Hdr) (op status : Nat) (bodies : List Octets) : (replySealed m slot id sent h op status bodies).onceAt = m.onceAt := by
  obtain ⟨x, i, o, k⟩ := replySealed_form m slot id sent h op status bodies; rw [k]
@[simp] theorem replySealed_sources (m : Mod) (slot id sent : Nat) (h : Hdr) (op status : Nat) (bodies : List Octets) : (replySealed m slot id sent h op status bodies).sources = m.sources := by
  obtain ⟨x, i, o, k⟩ := replySealed_form m slot id sent h op status bodies; rw [k]
@[simp] theorem replySealed_snap (m : Mod) (slot id sent : Nat) (h : Hdr) (op status : Nat) (bodies : List Octets) : (replySealed m slot id sent h op status bodies).snap = m.snap := by
  obtain ⟨x, i, o, k⟩ := replySealed_form m slot id sent h op status bodies; rw [k]
@[simp] theorem replySealed_fw (m : Mod) (slot id sent : Nat) (h : Hdr) (op status : Nat) (bodies : List Octets) : (replySealed m slot id sent h op status bodies).fw = m.fw := by
  obtain ⟨x, i, o, k⟩ := replySealed_form m slot id sent h op status bodies; rw [k]
@[simp] theorem replySealed_counted (m : Mod) (slot id sent : Nat) (h : Hdr) (op status : Nat) (bodies : List Octets) : (replySealed m slot id sent h op status bodies).counted = m.counted := by
  obtain ⟨x, i, o, k⟩ := replySealed_form m slot id sent h op status bodies; rw [k]
@[simp] theorem replySealed_obj (m : Mod) (slot id sent : Nat) (h : Hdr) (op status : Nat) (bodies : List Octets) : (replySealed m slot id sent h op status bodies).obj = m.obj := by
  obtain ⟨x, i, o, k⟩ := replySealed_form m slot id sent h op status bodies; rw [k]
@[simp] theorem replySealed_drawn (m : Mod) (slot id sent : Nat) (h : Hdr) (op status : Nat) (bodies : List Octets) : (replySealed m slot id sent h op status bodies).drawn = m.drawn := by
  obtain ⟨x, i, o, k⟩ := replySealed_form m slot id sent h op status bodies; rw [k]
@[simp] theorem replySealed_mgmt_expired (m : Mod) (slot id sent : Nat) (h : Hdr) (op status : Nat) (bodies : List Octets) :
    (replySealed m slot id sent h op status bodies).mgmt.expired = m.mgmt.expired := by
  obtain ⟨x, i, o, k⟩ := replySealed_form m slot id sent h op status bodies; rw [k]
@[simp] theorem replySealed_mgmt_pilot (m : Mod) (slot id sent : Nat) (h : Hdr) (op status : Nat) (bodies : List Octets) :
    (replySealed m slot id sent h op status bodies).mgmt.pilot = m.mgmt.pilot := by
  obtain ⟨x, i, o, k⟩ := replySealed_form m slot id sent h op status bodies; rw [k]
@[simp] theorem replySealed_mgmt_relay (m : Mod) (slot id sent : Nat) (h : Hdr) (op status : Nat) (bodies : List Octets) :
    (replySealed m slot id sent h op status bodies).mgmt.relay = m.mgmt.relay := by
  obtain ⟨x, i, o, k⟩ := replySealed_form m slot id sent h op status bodies; rw [k]
@[simp] theorem replySealed_mgmt_linkUp (m : Mod) (slot id sent : Nat) (h : Hdr) (op status : Nat) (bodies : List Octets) :
    (replySealed m slot id sent h op status bodies).mgmt.linkUp = m.mgmt.linkUp := by
  obtain ⟨x, i, o, k⟩ := replySealed_form m slot id sent h op status bodies; rw [k]
@[simp] theorem replySealed_mgmt_fails (m : Mod) (slot id sent : Nat) (h : Hdr) (op status : Nat) (bodies : List Octets) :
    (replySealed m slot id sent h op status bodies).mgmt.fails = m.mgmt.fails := by
  obtain ⟨x, i, o, k⟩ := replySealed_form m slot id sent h op status bodies; rw [k]
@[simp] theorem replySealed_mgmt_lockedTo (m : Mod) (slot id sent : Nat) (h : Hdr) (op status : Nat) (bodies : List Octets) :
    (replySealed m slot id sent h op status bodies).mgmt.lockedTo = m.mgmt.lockedTo := by
  obtain ⟨x, i, o, k⟩ := replySealed_form m slot id sent h op status bodies; rw [k]
@[simp] theorem replySealed_mgmt_lastUse (m : Mod) (slot id sent : Nat) (h : Hdr) (op status : Nat) (bodies : List Octets) :
    (replySealed m slot id sent h op status bodies).mgmt.lastUse = m.mgmt.lastUse := by
  obtain ⟨x, i, o, k⟩ := replySealed_form m slot id sent h op status bodies; rw [k]
@[simp] theorem replySealed_mgmt_pathFree (m : Mod) (slot id sent : Nat) (h : Hdr) (op status : Nat) (bodies : List Octets) :
    (replySealed m slot id sent h op status bodies).mgmt.pathFree = m.mgmt.pathFree := by
  obtain ⟨x, i, o, k⟩ := replySealed_form m slot id sent h op status bodies; rw [k]
@[simp] theorem replySealed_mgmt_pathNext (m : Mod) (slot id sent : Nat) (h : Hdr) (op status : Nat) (bodies : List Octets) :
    (replySealed m slot id sent h op status bodies).mgmt.pathNext = m.mgmt.pathNext := by
  obtain ⟨x, i, o, k⟩ := replySealed_form m slot id sent h op status bodies; rw [k]
@[simp] theorem replySealed_mgmt_grants (m : Mod) (slot id sent : Nat) (h : Hdr) (op status : Nat) (bodies : List Octets) :
    (replySealed m slot id sent h op status bodies).mgmt.grants = m.mgmt.grants := by
  obtain ⟨x, i, o, k⟩ := replySealed_form m slot id sent h op status bodies; rw [k]
@[simp] theorem replySealed_mgmt_debugBy (m : Mod) (slot id sent : Nat) (h : Hdr) (op status : Nat) (bodies : List Octets) :
    (replySealed m slot id sent h op status bodies).mgmt.debugBy = m.mgmt.debugBy := by
  obtain ⟨x, i, o, k⟩ := replySealed_form m slot id sent h op status bodies; rw [k]
@[simp] theorem replySealed_mgmt_retireBy (m : Mod) (slot id sent : Nat) (h : Hdr) (op status : Nat) (bodies : List Octets) :
    (replySealed m slot id sent h op status bodies).mgmt.retireBy = m.mgmt.retireBy := by
  obtain ⟨x, i, o, k⟩ := replySealed_form m slot id sent h op status bodies; rw [k]
@[simp] theorem replySealed_mgmt_scratch (m : Mod) (slot id sent : Nat) (h : Hdr) (op status : Nat) (bodies : List Octets) :
    (replySealed m slot id sent h op status bodies).mgmt.scratch = m.mgmt.scratch := by
  obtain ⟨x, i, o, k⟩ := replySealed_form m slot id sent h op status bodies; rw [k]
@[simp] theorem replySealed_mgmt_taps (m : Mod) (slot id sent : Nat) (h : Hdr) (op status : Nat) (bodies : List Octets) :
    (replySealed m slot id sent h op status bodies).mgmt.taps = m.mgmt.taps := by
  obtain ⟨x, i, o, k⟩ := replySealed_form m slot id sent h op status bodies; rw [k]
@[simp] theorem replySealed_mgmt_reports (m : Mod) (slot id sent : Nat) (h : Hdr) (op status : Nat) (bodies : List Octets) :
    (replySealed m slot id sent h op status bodies).mgmt.reports = m.mgmt.reports := by
  obtain ⟨x, i, o, k⟩ := replySealed_form m slot id sent h op status bodies; rw [k]
@[simp] theorem look_replySealed (m : Mod) (slot id sent : Nat) (h : Hdr) (op status : Nat) (bodies : List Octets) : look (replySealed m slot id sent h op status bodies) = look m := by
  obtain ⟨x, i, o, k⟩ := replySealed_form m slot id sent h op status bodies; rw [k]; rfl

/-- The other sessions do not notice a reply. -/
theorem sess_replySealed_ne (m : Mod) (slot id sent : Nat) (h : Hdr) (op status : Nat) (bodies : List Octets) {j : Nat} (hj : j ≠ slot) :
    sess (replySealed m slot id sent h op status bodies) j = sess m j := by
  unfold replySealed
  dsimp only
  split
  · rw [sess_setSess_ne _ _ hj, sess_sends]
  · rw [sess_sends]

/-- The session that is answered: its number of messages and its stored replies change. -/
theorem sess_replySealed_same (m : Mod) (slot id sent : Nat) (h : Hdr) (op status : Nat) (bodies : List Octets)
    (hs : (sess m slot).state = 2) (hi : (sess m slot).id = id) :
    sess (replySealed m slot id sent h op status bodies) slot =
      { sess m slot with
        sent := sent + (replyMsgs h op status sent id bodies).length
        stored := ({ sequence := h.sequence, cipher := h.cipher, reply := replyMsgs h op status sent id bodies } :: (sess m slot).stored).take 16 } := by
  unfold replySealed
  dsimp only
  rw [if_pos (by rw [sess_sends]; exact ⟨hs, hi⟩), sess_setSess_same, sess_sends]

/-- A session that has ended is not answered in its slot. -/
theorem sess_replySealed_ended (m : Mod) (slot id sent : Nat) (h : Hdr) (op status : Nat) (bodies : List Octets)
    (hs : (sess m slot).state ≠ 2) : sess (replySealed m slot id sent h op status bodies) slot = sess m slot := by
  unfold replySealed
  dsimp only
  rw [if_neg (by rw [sess_sends]; exact fun x => hs x.1), sess_sends]

/-- Every message of a reply carries its status and the SEQUENCE it answers. -/
theorem replyMsgs_all (h : Hdr) (op status sent id : Nat) (bodies : List Octets) :
    ∀ x ∈ replyMsgs h op status sent id bodies, x.status = status ∧ x.reference = h.sequence % 2 ^ 32 ∧ x.path = h.path ∧ x.dst = h.src := by
  induction bodies generalizing sent with
  | nil => simp [replyMsgs]
  | cons b r ih =>
    cases r with
    | nil => simp [replyMsgs]
    | cons c d =>
      intro x hx
      simp only [replyMsgs, List.mem_cons] at hx
      rcases hx with rfl | hx
      · simp
      · exact ih (sent + 1) x (by simpa [replyMsgs] using hx)

theorem replyMsgs_ne_nil (h : Hdr) (op status sent id : Nat) {bodies : List Octets} (hb : bodies ≠ []) :
    replyMsgs h op status sent id bodies ≠ [] := by
  cases bodies with
  | nil => exact absurd rfl hb
  | cons b r => cases r <;> simp [replyMsgs]

/-- A reply to a session that goes on answers its request. -/
theorem answered_replySealed (m : Mod) (slot id sent : Nat) (h : Hdr) (op status : Nat) {bodies : List Octets} (hb : bodies ≠ [])
    (hs : (sess m slot).state = 2) (hi : (sess m slot).id = id) :
    Answered (replySealed m slot id sent h op status bodies) slot h.sequence status := by
  unfold Answered
  rw [sess_replySealed_same m slot id sent h op status bodies hs hi]
  simp only [List.take_succ_cons]
  exact ⟨trivial, replyMsgs_ne_nil h op status sent id hb, fun x hx => ⟨(replyMsgs_all h op status sent id bodies x hx).1,
    (replyMsgs_all h op status sent id bodies x hx).2.1⟩⟩

/-! ### Admission -/

/-- The module once a message is accepted, in the slot and in the others. -/
@[simp] theorem sess_accept_same (m : Mod) (h : Hdr) (i : Nat) :
    sess (accept m h i) i = { sess m i with hi := h.sequence, requestAt := m.sys.elapsed, requestTime := now m, path := h.path, src := h.src } :=
  sess_setSess_same ..

theorem sess_accept_ne (m : Mod) (h : Hdr) {i j : Nat} (hj : j ≠ i) : sess (accept m h i) j = sess m j := sess_setSess_ne m _ hj

/-- An accepted message passes checks 1 to 7 of R783. -/
theorem admission_accepted (m : Mod) (h : Hdr) (op i : Nat) (ha : Accepted m h i) : admission m h op = .go (accept m h i) i := by
  obtain ⟨⟨harr, hrun, hst, hp, hv, hr, hl⟩, hslot, htag, h2, hsto, hlo, hhi, hb⟩ := ha
  have hf : (sess m i).stored.find? (fun r => r.sequence == h.sequence && r.cipher == h.cipher) = none := by
    rw [List.find?_eq_none]
    intro r hr'
    have := hsto r hr'
    simpa [Bool.and_eq_true, beq_iff_eq] using this
  unfold admission
  simp only [harr, hst, hrun, hv, hr, hl, hslot, htag, h2, hf, serving, hp, Nat.not_le.mpr hlo, Nat.not_lt.mpr hhi, Bool.not_true, Bool.false_eq_true,
    if_false, Bool.and_true, beq_self_eq_true, bne_self_eq_false, Bool.or_false, hb, accept]

/-- An accepted message is carried out and answered in its slot. -/
theorem serve_accepted (s : State) (h : Hdr) (op i : Nat) (act : State → Nat → State × Nat × List Octets) (ha : Accepted s.mod h i) :
    serve s h op act = (act (s.upd (accept s.mod h i)) i).1.upd
      (replySealed (act (s.upd (accept s.mod h i)) i).1.mod i (sess s.mod i).id (sess s.mod i).sent h op (act (s.upd (accept s.mod h i)) i).2.1
        (act (s.upd (accept s.mod h i)) i).2.2) := by
  unfold serve
  rw [admission_accepted s.mod h op i ha]
  simp only [sess_accept_same]

end Sys2Proof.Machine
end

