-- ==== Sys2Proof/Tests/Slice0.lean ====
section
/-! SUPPORT. Tests: ill-formed commands are refused, and for every statement a state and operands that meet its hypotheses, with what the
command does there. -/

namespace Sys2Proof.Tests

set_option Elab.async false

open Sys2Proof.Machine

/-- What holds of the next state of a command. -/
def after (c : Instr) (s : State) (p : State → Bool) : Bool :=
  match exec c s with
  | .next t => p t
  | _ => false

/-- A request of the session 7 on M0. -/
def hd : Hdr := { path := .mgmt 0, src := 9, session := 7, sequence := 5 }

/-- A Ready module on mains with both pilots running and both management links up. -/
def up : Mod :=
  { sys := { state := 1, step := 8, running := true, mains := true, pilot0 := true, pilot1 := true, birthOk := true, elapsed := 1000 }
    tether := { onCell := false }
    mgmt := { linkUp := [(0, true), (1, true)] } }

def on : State := { mod := up }

/-- The same with a proved session of a role in slot 0. -/
def as (role : Nat) : Mod := setSess up 0 { state := 2, id := 7, role }

/-- The newest stored reply's status. -/
def replied (t : State) : Option Nat := ((sess t.mod 0).stored.head?.bind fun r => r.reply.head?).map (·.status)

/-! ### The block as a whole -/

/-- WellFormedCommandsCompleteAndLeaveTheQueue, FuseCountersStayWithinTheirFuses, StepsOnlyBurnFuses, EmptyQueuePassesOneCycle. -/
theorem wit_block :
    State.reset.pending = [] ∧ Instr.wf .slewComplete = true ∧ Instr.wf (.fawFound 8 0 256) = false ∧ FusesFit on.otp ∧
      after (.fawFound 8 0 255) on (fun t => t.pending == on.pending) = true := by
  unfold FusesFit; decide +kernel

/-! ### Sessions -/

/-- OpenWithinTheLimits at 32 slots used, 8 unproved and 7 unproved; OpenTakesTheLowestFreeSlot in slot 7. -/
def crowd (n state : Nat) : State :=
  { mod := (List.range n).foldl (fun m i => setSess m i { state, id := i + 1, role := 1 }) up }

theorem wit_OpenWithinTheLimits :
    (Instr.open_ hd 1 0 3 (zeros 32) 99 (zeros 32)).wf = true ∧ Reaches (crowd 32 2).mod hd ∧ slotsUsed (crowd 32 2).mod = 32 ∧
      Reaches (crowd 8 1).mod hd ∧ slotsUsed (crowd 8 1).mod < 32 ∧ 8 ≤ slotsUnproved (crowd 8 1).mod ∧
      Reaches (crowd 7 1).mod hd ∧ slotsUsed (crowd 7 1).mod < 32 ∧ slotsUnproved (crowd 7 1).mod < 8 ∧
      firstBelow 32 (fun i => (sess (crowd 7 1).mod i).state == 0) = some 7 ∧
      after (.open_ hd 1 0 3 (zeros 32) 99 (zeros 32)) (crowd 7 1) (fun t => (sess t.mod 7).id == 99) = true ∧
      after (.open_ hd 1 0 3 (zeros 32) 99 (zeros 32)) (crowd 8 1) (fun t => (sess t.mod 8).state == 0 && t.mod.out.length == 1) = true := by
  unfold Reaches; decide +kernel

/-- A Tenant credential 3 with BPID 2 and a secret, and whether berth 4 is enabled with that BPID. -/
def tenantOn (enabled : Bool) : State :=
  { mod := { up with
      tether := { up.tether with vault := { cfg := (putVal (putVal (putVal (putVal [] 0x2100 1 3 (.nat 3)) 0x2100 2 3 (.nat 1)) 0x2100 3 3 (.nat 2)) 0x2100 4 3 (.nat 15)),
                                            secrets := tset none [] 3 (some (.key (zeros 32))) } }
      obj := putVal (putVal [] 0xA000 1 4 (.nat 2)) 0xA000 2 4 (.nat (b01 enabled)) } }

theorem wit_OpenTakesTheLowestFreeSlot :
    (Instr.open_ hd 3 1 3 (zeros 32) 99 (zeros 32)).wf = true ∧ Reaches (tenantOn true).mod hd ∧ slotsUsed (tenantOn true).mod < 32 ∧
      slotsUnproved (tenantOn true).mod < 8 ∧ firstBelow 32 (fun i => (sess (tenantOn true).mod i).state == 0) = some 0 ∧
      (openSecret (tenantOn true) hd.path 3 1 3).isSome = true ∧ (openSecret (tenantOn false) hd.path 3 1 3).isSome = true ∧
      berthOfBpid (tenantOn false).mod (inf (tenantOn false).mod 0x2100 3 3) = none ∧ Reaches (tenantOn false).mod hd ∧
      (berthOfBpid (tenantOn true).mod (inf (tenantOn true).mod 0x2100 3 3)).isSome = true ∧
      after (.open_ hd 3 1 3 (zeros 32) 99 (zeros 32)) (tenantOn true) (fun t => (sess t.mod 0).bpid == 2) = true ∧
      after (.open_ hd 3 1 3 (zeros 32) 99 (zeros 32)) (tenantOn false) (fun t => (sess t.mod 0).state == 0) = true := by
  unfold Reaches; decide +kernel

/-- A session not yet proved with credential 3, which has failed a number of times. -/
def unproved (fails : Nat) : State :=
  let m := setSess (tenantOn true).mod 0 { state := 1, id := 7, role := 3, bpid := 2, cred := 3, secret := some (.key (zeros 32)) }
  { mod := { m with mgmt := { m.mgmt with fails := tset 0 [] 3 fails } } }

def hd2 : Hdr := { hd with bpid := 2 }

theorem wit_ProofsOpenOrReleaseTheSession :
    (Instr.prove hd2 (some (.key (zeros 32)))).wf = true ∧ Reaches (unproved 4).mod hd2 ∧ slotOf (unproved 4).mod 7 = some 0 ∧
      (sess (unproved 4).mod 0).state = 1 ∧ hd2.bpid = (sess (unproved 4).mod 0).bpid ∧ (sess (unproved 4).mod 0).role = 3 ∧
      tget none (unproved 4).mod.mgmt.lockedTo 3 = none ∧ inf (unproved 4).mod 0x2100 1 3 ≠ 0 ∧
      tget 0 (unproved 4).mod.mgmt.fails 3 = 4 ∧ tget 0 (unproved 3).mod.mgmt.fails 3 < 4 ∧ Reaches (unproved 3).mod hd2 ∧
      after (.prove hd2 (some (.key (zeros 32)))) (unproved 4) (fun t => (sess t.mod 0).state == 2 && tget 0 t.mod.mgmt.fails 3 == 0) = true ∧
      after (.prove hd2 none) (unproved 3) (fun t => tget none t.mod.mgmt.lockedTo 3 == none && tget 0 t.mod.mgmt.fails 3 == 4) = true ∧
      after (.prove hd2 none) (unproved 4) (fun t => tget none t.mod.mgmt.lockedTo 3 == some (1000 + 300 * secCycles)) = true := by
  unfold Reaches; decide +kernel

theorem wit_SessionsEndAndFreeTheirSlots :
    Accepted (as 1) hd 0 ∧ WriteClears (setSess (as 1) 3 { state := 1, id := 4 }) hd 0 0x2010 0x0B (some 3) (b1 1) ∧
      WriteClears (as 1) hd 0 0x2100 0x0A (some 63) (b1 1) ∧
      after (.close hd) { mod := as 1 } (fun t => (sess t.mod 0).state == 0) = true ∧
      after (.sessionTerminate hd 3 true) { mod := setSess (as 1) 3 { state := 1, id := 4 } } (fun t => (sess t.mod 3).state == 0) = true ∧
      after (.credentialErase hd 3 true) { mod := setSess (setSess (tenantOn true).mod 0 { state := 2, id := 7, role := 1 }) 5 { state := 2, id := 8, cred := 3 } }
        (fun t => (sess t.mod 5).state == 0 && credSecret t.mod 3 == none) = true ∧
      after (.sessionProveTimeout 3) { mod := setSess (as 1) 3 { state := 1, id := 4, openedAt := 900 } }
        (fun t => t.mod.sys.elapsed == 900 + 5 * secCycles) = true := by
  unfold WriteClears Accepted Reaches Clears; decide +kernel

theorem wit_IdleSessionsExpireAndAreRemembered :
    (sess (as 1) 0).state = 2 ∧ Reaches (as 1) { hd with session := 8 } ∧ slotOf (as 1) 8 = none ∧
      after (.sessionIdleExpire 0) { mod := as 1 } (fun t => t.mod.mgmt.expired == [(7, 900 * secCycles)]) = true ∧
      after (.sessionIdForget 7) { mod := { up with mgmt := { up.mgmt with expired := [(7, 100)] } } }
        (fun t => t.mod.mgmt.expired == [] && t.mod.sys.elapsed == 100 + 3600 * secCycles) = true := by
  unfold Reaches; decide +kernel

/-- A session that has accepted SEQUENCE 5 and holds its reply. -/
def answered5 : Mod :=
  setSess up 0 { state := 2, id := 7, role := 1, hi := 5,
                 stored := [{ sequence := 5, cipher := [], reply := [{ path := .mgmt 0, dst := 9, op := 0x11, session := 7, sequence := 1, status := 0, reference := 5 }] }] }

theorem wit_RequestsOutOfTurnAreNotCarriedOut :
    Reaches answered5 hd ∧ slotOf answered5 7 = some 0 ∧
      (((sess answered5 0).stored.find? fun r => r.sequence == hd.sequence && r.cipher == hd.cipher).isSome = true) ∧
      (∀ r ∈ (sess answered5 0).stored, ¬(r.sequence = 5 ∧ r.cipher = [1])) ∧ 5 ≤ (sess answered5 0).hi ∧
      (∀ r ∈ (sess answered5 0).stored, ¬(r.sequence = 65542 ∧ r.cipher = [])) ∧ (sess answered5 0).hi + 65536 < 65542 ∧
      after (.write hd [⟨{ idx := 0x2000, sub := 3 }, 7, b4 60⟩]) { mod := answered5 } (fun t => t.mod.out.length == 1 && (sess t.mod 0).pend == []) = true ∧
      after (.commit { hd with cipher := [1] }) { mod := answered5 } (fun t => t.mod.out.length == 1 && (sess t.mod 0).hi == 5) = true ∧
      after (.commit { hd with sequence := 65541 }) { mod := answered5 } (fun t => (sess t.mod 0).hi == 65541) = true := by
  unfold Reaches; decide +kernel

theorem wit_AcceptedReadsAreAnsweredAndStored :
    Accepted (as 1) hd 0 ∧
      after (.read hd [{ idx := 0x2000, sub := 1 }]) { mod := as 1 } (fun t => replied t == some 0 && (sess t.mod 0).hi == 5) = true ∧
      after (.readElements hd { idx := 0x2010, sub := 1, isElem := true } 1) { mod := as 1 } (fun t => replied t == some 0) = true ∧
      after (.subscribe hd (List.replicate 16 (0x9000, 0xF000))) { mod := as 1 } (fun t => (tget ({} : Sub) t.mod.ev.subs 0).filters.length == 16) = true ∧
      after (.read hd []) { mod := as 1 } (fun t => replied t == some 0x2001) = true := by
  unfold Accepted Reaches; decide +kernel

/-! ### Writing -/

/-- A session with n pending records of object 0x2010's neighbours, none at 0x2000:03. -/
def full (n : Nat) : Mod :=
  setSess up 0 { state := 2, id := 7, role := 1, pend := (List.range n).map fun k => (okey 0x2100 3 k, .nat 1) }

/-- One record of 0x2000:03, within its range and above it. -/
def idle (v : Nat) : ValueRec := recOf 0x2000 3 none (b4 v)

/-- The record of slot 0 passes its checks and its object is rwc. -/
def checked (m : Mod) (r : ValueRec) : Bool :=
  match recordCheck m 0 r with
  | .ok (o, _) => o.acc == .rwc
  | .error _ => false

theorem wit_WritesEnterThePendingSet :
    (Instr.write hd [idle 86400]).wf = true ∧ Accepted (full 3) hd 0 ∧
      checked (accept (full 3) hd 0) (idle 86400) = true ∧ (sess (full 3) 0).pend.length < 4096 ∧
      (recordCheck (accept (full 3) hd 0) 0 (idle 86401)).isOk = false ∧
      after (.write hd [idle 86400]) { mod := full 3 } (fun t => (sess t.mod 0).pend.length == 4 && replied t == some 0) = true ∧
      after (.write hd [idle 86401]) { mod := full 3 } (fun t => (sess t.mod 0).pend.length == 3 && replied t == some 0x2001) = true ∧
      after (.write hd [idle 60, idle 59, idle 61]) { mod := full 0 } (fun t => (sess t.mod 0).pend == [(okey 0x2000 3 0, .nat 60)]) = true := by
  unfold Accepted Reaches; decide +kernel

theorem wit_WritesEnterThePendingSet_full :
    tfind (sess (full 4096) 0).pend (okey 0x2000 3 0) = none ∧ 4096 ≤ (sess (full 4096) 0).pend.length ∧ Accepted (full 4096) hd 0 ∧
      checked (accept (full 4096) hd 0) (idle 60) = true ∧
      after (.write hd [idle 60]) { mod := full 4096 } (fun t => replied t == some 0x3001) = true := by
  unfold Accepted Reaches; decide +kernel

theorem wit_WritesEnterThePendingSet_elements :
    (Instr.writeElements hd { idx := 0x2100, sub := 3, isElem := true } 4096 [b4 1]).wf = true ∧
      (Instr.write hd (elementRecs { idx := 0x2100, sub := 3, isElem := true } 4096 [b4 1])).wf = true ∧ Accepted (as 1) hd 0 ∧
      after (.writeElements hd { idx := 0x2100, sub := 3, isElem := true } 4096 [b4 1]) { mod := as 1 } (fun t => (sess t.mod 0).pend.length == 1) = true ∧
      after (.writeElements hd { idx := 0x2100, sub := 3, isElem := true } 4097 [b4 1]) { mod := as 1 }
        (fun t => (sess t.mod 0).pend.length == 0 && replied t == some 0x2001) = true := by
  unfold Accepted Reaches; decide +kernel

/-- A session with one pending value of the idle time. -/
def pends (idx sub v : Nat) : Mod := setSess up 0 { state := 2, id := 7, role := 1, pend := [(okey idx sub 0, .nat v)] }

theorem wit_CommitAppliesOrChangesNothing :
    Accepted (pends 0x2000 3 60) hd 0 ∧ ((sess (pends 0x2000 3 60) 0).pend.map (·.1)).Nodup ∧
      commitCheck (accept (pends 0x2000 3 60) hd 0) 0 (sess (pends 0x2000 3 60) 0).pend = none ∧
      Accepted (pends 0x2100 1 9) hd 0 ∧ (commitCheck (accept (pends 0x2100 2 5) hd 0) 0 (sess (pends 0x2100 2 5) 0).pend).isSome = true ∧
      after (.commit hd) { mod := pends 0x2000 3 60 } (fun t => inf t.mod 0x2000 3 0 == 60 && (sess t.mod 0).pend == []) = true ∧
      after (.commitDryRun hd) { mod := pends 0x2000 3 60 } (fun t => inf t.mod 0x2000 3 0 == 900 && replied t == some 0) = true := by
  unfold Accepted Reaches; decide +kernel

/-! ### Relay and management paths -/

/-- Relay enabled, line port 8 in line mode and enabled, one entry recorded. -/
def relaying : State :=
  { mod := { up with obj := putVal (putVal (putVal [] 0x2000 4 0 (.nat 1)) 0x3100 2 8 (.nat 1)) 0x3100 3 8 (.nat 1),
                     mgmt := { up.mgmt with relay := [{ port := 8, session := 70, path := .mgmt 1, src := 3, usedAt := 500 }] } } }

theorem wit_RelayForwardsAndReturns :
    (Instr.relayMessage { hd with relay := 8 } (zeros 32)).wf = true ∧ serving relaying.mod = true ∧ reachable relaying.mod hd.path = true ∧
      infB relaying.mod 0x2000 4 0 = true ∧ relayPort relaying.mod 8 = true ∧ relayPort relaying.mod 9 = false ∧
      relaying.mod.mgmt.relay.length < 64 ∧ (relaying.mod.mgmt.relay.find? (fun x => x.port == 8 && x.session == 70)).isSome = true ∧
      after (.relayMessage { hd with relay := 8 } (zeros 32)) relaying (fun t => (txOf t.mod 8).mchQueue == [zeros 32] && t.mod.mgmt.relay.length == 2) = true ∧
      after (.relayMessage { hd with relay := 9 } (zeros 32)) relaying (fun t => t.mod.out.length == 1 && t.mod.mgmt.relay.length == 1) = true ∧
      after (.relayReturn 8 70 (zeros 32)) relaying (fun t => t.mod.out == [.relayed (.mgmt 1) 3 (zeros 32)]) = true ∧
      after (.relayReturn 8 70 (zeros 32))
        { mod := { relaying.mod with mgmt := { relaying.mod.mgmt with relay := [{ port := 8, session := 70, path := .clear 0, src := 3, usedAt := 500 }] } } }
        (fun t => t.mod.out == [] && (interceptOf t.mod 0).replies.length == 1) = true ∧
      after (.relayEntryLapse 8 70) relaying (fun t => t.mod.mgmt.relay == [] && t.mod.sys.elapsed == 500 + 900 * secCycles) = true := by
  decide +kernel

/-- A clear port 0 up with a waiting reply. -/
def waitingReply : Mod :=
  { up with ports := [(0, { phase := 4, up := true })]
            mgmt := { up.mgmt with icept := tset {} [] 0 { replies := [(900, plain { hd with path := .clear 0 } 1 0 0x3001 [])] } } }

/-- A line port 8 with a waiting reply. -/
def lineReply : Mod :=
  { up with mgmt := { up.mgmt with icept := tset {} [] 8 { replies := [(900, plain { hd with path := .clear 0 } 1 0 0x3001 [])] } } }

theorem wit_PathsTakeAnswerAndPassOver :
    pilotUp up 0 = true ∧ infB up 0x2020 1 0 = true ∧ mgmtTakes up 0 .other = false ∧
      mgmtTakes up 0 .neighbourDiscovery = true ∧ mgmtTakes up 0 (.camanent 29170 []) = true ∧
      after (.mgmtPortFrame 0 9 .other) on (fun t => inf t.mod 0x2020 0x0C 0 == 1) = true ∧
      after (.mgmtPortFrame 0 9 .neighbourDiscovery) on (fun t => t.mod.out == [.mgmtAnswer 0 .neighbourDiscovery]) = true ∧
      after (.mgmtPortFrame 0 9 (.camanent 29170 [])) on (fun t => inf t.mod 0x2020 0x0B 0 == 1) = true ∧
      after (.managementPortLinkChange 1 false) on (fun t => !tget false t.mod.mgmt.linkUp 1 && tget false t.mod.mgmt.linkUp 0) = true := by
  decide +kernel

theorem wit_PathsTakeAnswerAndPassOver_late :
    (port waitingReply 0).up = true ∧ pickNext waitingReply 0 = none ∧ (arb waitingReply 0).pace ≤ 1000 * 800000 ∧
      (∀ d < 8, (banksOf (gate waitingReply 0)).any (·.fits d) = false) ∧
      pilotUp { up with sys := { up.sys with pilot0 := false } } 0 = false ∧ pilotUp { up with sys := { up.sys with pilot0 := false } } 1 = true ∧
      after .sessionPilotTakeover { mod := { up with sys := { up.sys with pilot0 := false, pilotDownAt := 990 } } }
        (fun t => t.mod.mgmt.pilot == 1 && t.mod.sys.elapsed == 990 + 100 * msCycles) = true ∧
      after (.interceptReplySend 0) { mod := waitingReply } (fun t => t.mod.out.length == 1) = true ∧
      after (.interceptReplyDiscard 0) { mod := waitingReply } (fun t => t.mod.out == [] && inf t.mod 0x2030 5 0 == 1) = true ∧
      (tget ({} : Intercept) lineReply.mgmt.icept 8).replies.length = 1 ∧ after (.interceptReplySend 8) { mod := lineReply } (fun t => t.mod.out == []) = true := by
  decide +kernel

/-! ### Expert access -/

/-- A Maintainer with an expert grant until a later time that opens the debug access ports, and an Officer's session with a Maintainer
in slot 3. -/
def expert : Mod :=
  let m := as 4
  { m with mgmt := { m.mgmt with grants := tset none [] 0 (some (2000, 0, 3)) }, obj := putVal (putVal [] 0x2040 1 0 (.nat 5)) 0x2040 2 0 (.nat 1) }

def granter : Mod := setSess (as 1) 3 { state := 2, id := 70, role := 4 }

theorem wit_ExpertAccessIsGrantedUsedAndEnded :
    WriteClears granter hd 0 0x2040 1 (some 3) (b2 1) ∧ WriteClears granter hd 0 0x2040 1 (some 3) (b2 0) ∧ (sess granter 3).role = 4 ∧
      (tget none expert.mgmt.grants 0).isSome = true ∧ WriteClears expert hd 0 0xE000 2 none (b1 1) ∧ infB expert 0x2040 2 0 = true ∧
      after (.expertGrantWrite hd 3 1) { mod := granter } (fun t => unlocked t.mod 3 && inf t.mod 0x2040 1 3 == 1) = true ∧
      after (.expertGrantWrite hd 3 0) { mod := granter } (fun t => !unlocked t.mod 3 && replied t == some 0) = true ∧
      after (.expertGrantExpire 0) { mod := expert } (fun t => !unlocked t.mod 0 && t.mod.sys.elapsed == 2000) = true ∧
      after (.debugPortOpen hd true) { mod := expert } (fun t => t.mod.mgmt.debugBy == [0]) = true ∧
      after (.debugPortOpen hd false) { mod := { expert with mgmt := { expert.mgmt with debugBy := [0] } } } (fun t => t.mod.mgmt.debugBy == []) = true := by
  unfold WriteClears Accepted Reaches Clears; decide +kernel

theorem wit_ExpertAccessIsGrantedUsedAndEnded_window :
    WriteClears expert hd 0 0xE100 1 (some 0x803C001) (b4 5) ∧ WriteClears expert hd 0 0xE100 1 (some 0x1FFFFFFF) (b4 5) ∧ pilotUp expert 0 = true ∧
      blockAt expert 0 (0x1FFFFFFF * 4) = none ∧ (blockAt expert 0 (0x803C001 * 4)).isSome = true ∧ 0x803C001 * 4 % 0x100000 = 0xF0004 ∧
      WriteClears expert hd 0 0xE010 1 none (b2 0x2000 ++ b1 1 ++ b1 0 ++ b4 0) ∧ (addrOf (b2 0x2000 ++ b1 1 ++ b1 0 ++ b4 0)).isSome = true ∧
      after (.windowWrite hd 0 0x803C001 5) { mod := expert } (fun t => tget 0 t.mod.mgmt.scratch 0x200F0004 == 5) = true ∧
      after (.windowWrite hd 0 0x1FFFFFFF 5) { mod := expert } (fun t => inf t.mod 0xE000 5 0 == 0x1FFFFFFF * 4 && replied t == some 0x5001) = true := by
  unfold WriteClears Accepted Reaches Clears; decide +kernel

/-- The same with an indirect address. -/
def expertAt (a : Nat) : Mod := setSess expert 0 { sess expert 0 with indirect := a }

theorem wit_ExpertAccessIsGrantedUsedAndEnded_indirect :
    WriteClears (expertAt 0x1003000C) hd 0 0xE200 2 none (b4 63) ∧ serdesAt 0x1003000C = some (3, 0x0C) ∧ pilotUp expert (serdesHarbour 3) = true ∧
      63 ≤ serdesTop 0x0C ∧ WriteClears (expertAt 0xFFC) hd 0 0xE200 2 none (b4 5) ∧ ReadClears { mod := expertAt 0x1003000C } hd 0 { idx := 0xE200, sub := 2 } ∧
      (match indirectRead (accept (expertAt 0x1003000C) hd 0) 0 with | .ok .. => true | _ => false) = true ∧
      after (.indirectDataWrite hd 63) { mod := expertAt 0x1003000C } (fun t => tget none t.mod.mgmt.taps (3 * 256 + 12) == some 63 && (sess t.mod 0).indirect == 0x10030010) = true ∧
      after (.indirectDataWrite hd 5) { mod := expertAt 0xFFC } (fun t => replied t == some 0x1003 && (sess t.mod 0).indirect == 0xFFC) = true ∧
      after (.indirectDataRead hd) { mod := expertAt 0x1003000C } (fun t => (sess t.mod 0).indirect == 0x10030010) = true ∧
      after (.locatorQuery hd (b2 0x2000 ++ b1 1 ++ b1 0 ++ b4 0)) { mod := expertAt 0 } (fun t => (sess t.mod 0).locResult.length == 8) = true := by
  unfold WriteClears ReadClears Accepted Reaches Clears; repeat' apply And.intro
  all_goals decide +kernel

/-! ### Keys -/

/-- Objects set to numbers: index, subindex, element, value. -/
def withObj (m : Mod) (l : List (Nat × Nat × Nat × Nat)) : Mod := l.foldl (fun m x => setNat m x.1 x.2.1 x.2.2.1 x.2.2.2) m

/-- Association 5 of type 1 with suite 4 on line port 8, and a KEK of berth 0. -/
def keyed : Mod :=
  setKek (withObj (as 1) [(0x4000, 1, 5, 1), (0x4000, 2, 5, 4), (0x4000, 4, 5, 8)]) 0 { kek := List.replicate 32 1 }

/-- The plaintext of a key for association 5, and the key wrapped under that KEK as OpenSSL's AES key wrap gives it. -/
def plain5 : Octets := List.replicate 32 3 ++ List.replicate 12 4 ++ b2 5 ++ b2 1
def wrap5 : Octets :=
  bytesOf 56 0x0332acc831e338a7faabebb2966a756146e2deae026b2a99ea60da640d8ea57c5cebc7b9561b38b869585f384f1c606378043fcb26a0da9a

/-- The same module once that key has been written. -/
def usedUp : Mod := addFingerprint keyed 0 (filterBits (plain5.take 44))

theorem wit_KeyWriteLoadsTheSlot :
    (Instr.keyWrite hd 11 wrap5).wf = true ∧ WriteClears keyed hd 0 0x4010 1 (some 11) wrap5 ∧ keyed.sys.retired = false ∧
      (entropyOf keyed (aHarbour 5)).failB = false ∧ aType keyed 5 = 1 ∧ isGcm (aSuite keyed 5) = true ∧ (berth keyed (aBerth keyed 5)).resetting = false ∧
      isActive keyed 5 1 = false ∧ ((assoc keyed 5).slot 0).full = false ∧ (kek keyed (aBerth keyed 5)).kek ≠ [] ∧
      aesUnwrap (kek keyed (aBerth keyed 5)).kek wrap5 = some plain5 ∧ natAt plain5 44 2 = 5 ∧ isXpn (aSuite keyed 5) = true ∧
      (∃ p ∈ filterBits (plain5.take 44), tget false (tget ({} : KeyFilter) keyed.filters (aHarbour 5)).bits p = false) ∧
      after (.keyWrite hd 11 wrap5) { mod := keyed } (fun t => ((assoc t.mod 5).slot 1).kep == 1 && replied t == some 0) = true := by
  unfold WriteClears Accepted Reaches Clears; decide +kernel

theorem wit_KeyWriteLoadsTheSlot_used :
    (∀ p ∈ filterBits (plain5.take 44), tget false (tget ({} : KeyFilter) usedUp.filters (aHarbour 5)).bits p = true) ∧
      WriteClears usedUp hd 0 0x4010 1 (some 11) wrap5 ∧ aesUnwrap (kek usedUp (aBerth usedUp 5)).kek wrap5 = some plain5 := by
  unfold WriteClears Accepted Reaches Clears; decide +kernel

theorem wit_KeyWriteLoadsTheSlot_refused :
    aesUnwrap (kek keyed (aBerth keyed 5)).kek (zeros 56) = none ∧ WriteClears keyed hd 0 0x4010 1 (some 11) (zeros 56) ∧
      after (.keyWrite hd 11 wrap5) { mod := usedUp } (fun t => replied t == some 0x3005) = true ∧
      after (.keyWrite hd 11 (zeros 56)) { mod := keyed } (fun t => replied t == some 0x6001) = true ∧
      after (.keyWrite hd 11 wrap5) { mod := { keyed with sys := { keyed.sys with retired := true } } } (fun t => replied t == some 0x4002) = true := by
  unfold WriteClears Accepted Reaches Clears; decide +kernel

/-- Share A of berth 3 held, from a credential. -/
def sharing (cred : Nat) : Mod := setKek (as 1) 3 { shareA := some (List.replicate 32 5, cred, 900) }

theorem wit_KekSharesCombineAndExpire :
    WriteClears (as 1) hd 0 0x4100 1 (some 3) (zeros 32) ∧ WriteClears (sharing 4) hd 0 0x4100 2 (some 3) (List.replicate 32 6) ∧
      WriteClears (sharing 4) hd 0 0x4100 6 (some 3) (b1 1) ∧ WriteClears (as 1) hd 0 0x4010 6 (some 11) (b1 1) ∧
      after (.kekShareWrite hd 3 true (List.replicate 32 6)) { mod := sharing 4 } (fun t => (kek t.mod 3).kek == List.replicate 32 3) = true ∧
      after (.kekShareWrite hd 3 true (List.replicate 32 6)) { mod := sharing 0 } (fun t => (kek t.mod 3).kek == [] && replied t == some 0x1005) = true ∧
      after (.kekShareExpire 3) { mod := sharing 4 } (fun t => (kek t.mod 3).shareA == none && t.mod.sys.elapsed == 900 + 300 * secCycles) = true ∧
      after (.kekErase hd 0 true) { mod := keyed } (fun t => (kek t.mod 0).kek == []) = true ∧
      after (.keySlotErase hd 11 true) { mod := setAssoc (as 1) 5 { s0 := { full := true }, s1 := { full := true } } }
        (fun t => !((assoc t.mod 5).slot 1).full && ((assoc t.mod 5).slot 0).full) = true := by
  unfold WriteClears Accepted Reaches Clears; repeat' apply And.intro
  all_goals decide +kernel

/-! ### Lanes and ports -/

/-- Line port 8 enabled in line mode with one lane, element 32, in a phase. -/
def gelix (phase : Nat) : Mod :=
  setPort (withObj up [(0x3100, 2, 8, 1), (0x3100, 3, 8, 1)]) 8 { phase, up := phase == 4, aligned := decide (4 ≤ phase) }

/-- Clear port 0 enabled with two lanes, in a phase. -/
def clear0 (phase : Nat) : Mod :=
  setPort (withObj up [(0x3100, 1, 0, 2), (0x3100, 3, 0, 1)]) 0 { phase, up := phase == 4, aligned := decide (4 ≤ phase) }

theorem wit_LanesDeclareLockAndLose :
    lanePowered (gelix 4) 32 = true ∧ lanePort (gelix 4) 32 = 8 ∧ portEnabled (gelix 4) 8 = true ∧ isGelix (gelix 4) 8 = true ∧ portLanes (gelix 4) 8 = [32] ∧
      after (.losDeclare 32) { mod := gelix 4 } (fun t => (lane t.mod 32).los && (port t.mod 8).phase == 1) = true ∧
      after (.losClear 32) { mod := setLane (gelix 1) 32 { los := true } } (fun t => !(lane t.mod 32).los) = true ∧
      after (.lolDeclare 32) { mod := gelix 4 } (fun t => (lane t.mod 32).lol && (port t.mod 8).phase == 1) = true ∧
      after (.lolClear 32) { mod := setLane (gelix 1) 32 { lol := true } } (fun t => !(lane t.mod 32).lol) = true ∧
      after (.adaptComplete 32) { mod := gelix 2 } (fun t => (lane t.mod 32).adapted && (port t.mod 8).phase == 3) = true ∧
      after (.codewordLock 32) { mod := gelix 3 } (fun t => (lane t.mod 32).cwLock) = true ∧
      after (.laneLock 32 255) { mod := setLane (gelix 3) 32 { cwLock := true } } (fun t => (lane t.mod 32).logical == some 0) = true ∧
      after (.laneLock 32 255) { mod := setLane (gelix 3) 32 { cwLock := true, logical := some 5 } } (fun t => (lane t.mod 32).logical == some 5) = true ∧
      isGelix (clear0 4) (lanePort (clear0 4) 1) = false ∧ width (clear0 4) (lanePort (clear0 4) 1) = 2 ∧
      after (.laneLockLoss 1) { mod := clear0 4 } (fun t => (port t.mod 0).loal && (port t.mod 0).phase == 3) = true ∧
      after (.codewordLockLoss 32) { mod := setLane (gelix 4) 32 { cwLock := true, logical := some 0 } } (fun t => (port t.mod 8).loal) = true ∧
      after (.laneLockLoss 32) { mod := setLane (gelix 4) 32 { cwLock := true, logical := some 0 } }
        (fun t => (lane t.mod 32).logical == none && (port t.mod 8).phase == 3) = true ∧
      after (.laneLockLoss 32) { mod := setLane (gelix 1) 32 { cwLock := true, logical := some 0 } } (fun t => (port t.mod 8).phase == 1) = true := by
  decide +kernel

/-- The same clear port with both lanes adapted. -/
def ready0 (phase : Nat) : Mod := setLane (setLane (clear0 phase) 0 { adapted := true }) 1 { adapted := true }

theorem wit_AlignmentDeskewsOrDeclaresLoal :
    portEnabled (ready0 3) 0 = true ∧ lanesReady (ready0 3) 0 = true ∧ width (ready0 3) 0 = 2 ∧
      after (.portAligned 0 440) { mod := ready0 3 } (fun t => (port t.mod 0).deskew == 450 && (port t.mod 0).up && canBeUp t.mod 0) = true ∧
      after (.portAligned 0 441) { mod := ready0 3 } (fun t => (port t.mod 0).loal && (port t.mod 0).phase == 3) = true ∧
      (port (ready0 4) 0).aligned = true ∧
      after (.portAligned 0 30) { mod := setPort (ready0 4) 0 { port (ready0 4) 0 with deskew := 77 } } (fun t => (port t.mod 0).deskew == 77) = true ∧
      after (.portAligned 0 30) { mod := setPort (ready0 3) 0 { port (ready0 3) 0 with fault := 1 } } (fun t => (port t.mod 0).phase == 5 && !(port t.mod 0).up) = true ∧
      after (.skewLimitExceeded 0 20) { mod := ready0 4 } (fun t => (port t.mod 0).loal && (port t.mod 0).skew == 20) = true := by
  decide +kernel

/-- Clear port 0 forwarding the faults of line port 8, which is in LOF since 900. -/
def forwarding : Mod :=
  setPort (withObj (clear0 4) [(0x3100, 2, 8, 1), (0x3100, 3, 8, 1), (0x3310, 1, 0, 8), (0x3310, 2, 0, 6)]) 8 { phase := 4, lof := true, since := [(5, 901)] }

theorem wit_PortsFollowFaultsFramesAndTimeouts :
    portEnabled (clear0 4) 0 = true ∧ isGelix (clear0 4) 0 = false ∧ (port (clear0 1) 0).wasUp = false ∧ triggers forwarding 8 6 = [5] ∧
      inf forwarding 0x3310 1 0 = 8 ∧ inf forwarding 0x3310 2 0 = 6 ∧
      after (.faultSignalReceived 0 1) { mod := clear0 4 } (fun t => (port t.mod 0).fault == 1 && !(port t.mod 0).up) = true ∧
      after (.faultSignalReceived 8 1) { mod := setNat (gelix 4) 0x3100 2 8 0 } (fun t => (port t.mod 8).phase == 3 && (port t.mod 8).up) = true ∧
      after (.faultSignalReceived 8 0) { mod := setPort (setNat (gelix 4) 0x3100 2 8 0) 8 { (port (gelix 4) 8) with fault := 1, phase := 3 } }
        (fun t => (port t.mod 8).phase == 4) = true ∧
      after (.portUpTimeout 0) { mod := setPort (clear0 3) 0 { phase := 3, wasUp := true } } (fun t => (port t.mod 0).phase == 3) = true ∧
      after (.pcsFecLockLoss 0) { mod := clear0 4 } (fun t => (port t.mod 0).pcsLost && (port t.mod 0).phase == 3) = true ∧
      after (.portUpTimeout 0) { mod := clear0 2 } (fun t => (port t.mod 0).timedOut && t.mod.sys.elapsed == secCycles) = true ∧
      after (.faultForwardStart 0) { mod := forwarding } (fun t => (port t.mod 0).fwd && !(port t.mod 0).up) = true ∧
      after (.lofDeclare 8) { mod := gelix 4 } (fun t => (port t.mod 8).lof && t.mod.sys.elapsed == 3 * msCycles) = true ∧
      after (.lofClear 8) { mod := setRx (gelix 4) 8 { st := 2, syncAt := 900, mfIn := false } } (fun t => t.mod.sys.elapsed == 900 + 3 * msCycles) = true ∧
      after (.lomDeclare 8) { mod := setRx (gelix 4) 8 { st := 2, mfInAt := 900, lomHeld := msCycles } } (fun t => (port t.mod 8).lom) = true ∧
      after (.lomClear 8) { mod := setRx (gelix 4) 8 { st := 2, mfIn := true, mfInAt := 900 } } (fun t => !(port t.mod 8).lom) = true := by
  decide +kernel

/-- A line port whose second has as many errored frames as make it severely errored, after nine such seconds. -/
def badSecond (run : Nat) : Mod :=
  setPm (gelix 4) 8 { partialSec := false, errored := sesThreshold 1, neRun := run, recent := List.replicate run { ses := true, es := true } }

theorem wit_SecondsAreGradedAndHeld :
    isLine 8 = true ∧ (pmOf (withObj (badSecond 9) [(0x3400, 1, 8, 1)]) 8).partialSec = false ∧ infB (withObj (badSecond 9) [(0x3400, 1, 8, 1)]) 0x3400 1 8 = true ∧
      sesThreshold (width (badSecond 9) 8) ≤ (pmOf (badSecond 9) 8).errored ∧
      after (.lineSecondEnd 8) { mod := withObj (badSecond 9) [(0x3400, 1, 8, 1)] } (fun t => (pmOf t.mod 8).neUnavail && (pmOf t.mod 8).errored == 0) = true ∧
      after (.lineSecondEnd 8) { mod := withObj (badSecond 8) [(0x3400, 1, 8, 1)] } (fun t => !(pmOf t.mod 8).neUnavail && (pmOf t.mod 8).recent.length == 9) = true := by
  decide +kernel

/-! ### Frames -/

/-- An untagged frame of 60 bytes that is neither IPv4 nor IPv6. -/
def frame60 : Frame := { bytes := zeros 12 ++ b2 0x9999 ++ zeros 46 }

/-- Clear port 0 up, its untagged direct-table element leading to queue 3 and association 5 on frame-mode line port 8, and the queue enabled or not. -/
def classifying (action enable : Nat) : Mod :=
  setPort (setPort (withObj up [(0x3100, 3, 0, 1), (0x3100, 3, 8, 1), (0x5000, 1, 4096, action), (0x5000, 5, 4096, 3), (0x5000, 6, 4096, 5),
    (0x4000, 1, 5, 1), (0x4000, 2, 5, 0xFE), (0x4000, 4, 5, 8), (0x6000, 1, 3, enable), (0x6000, 3, 3, 8), (0x6000, 7, 3, 10000000),
    (0x6000, 0xD, 3, 10000000)]) 0 { phase := 4, up := true }) 8 { phase := 4, up := true }

/-- The descriptor that frame60 gets there, once its hit is counted. -/
def desc60 (m : Mod) : Desc := mkDesc (bump m 0x5000 9 4096 1) (linkCorrect m 0 frame60.bytes) 3 5 0 (stampFine m 0 false) 1000 0

theorem wit_ClearFramesAreClassified :
    (Instr.clearFrameReceive 0 frame60).wf = true ∧ receiving (classifying 1 1) 0 = true ∧ directElem 0 (tagsOf (linkCorrect (classifying 1 1) 0 frame60.bytes)) = 4096 ∧
      portDrop (classifying 1 1) 0 64 (tagsOf frame60.bytes).ethertype true = none ∧ portDrop (classifying 1 1) 0 64 0x9999 false = some 0x0D ∧
      (tagsOf frame60.bytes).ethertype ≠ inf (classifying 1 1) 0x2000 2 0 ∧ infB (classifying 1 1) 0x7020 1 0 = false ∧ infB (classifying 1 1) 0x7030 5 0 = false ∧
      inf (classifying 0 1) 0x5000 1 4096 = 0 ∧ inf (classifying 1 1) 0x5000 1 4096 = 1 ∧ aType (classifying 1 1) 5 = 1 ∧
      aPort (classifying 1 1) 5 = qPort (classifying 1 1) [] 3 ∧ clearTag (classifying 1 1) 5 = false ∧
      admitCheck (bump (classifying 1 1) 0x5000 9 4096 1) (desc60 (classifying 1 1)) false = none ∧
      admitCheck (bump (classifying 1 0) 0x5000 9 4096 1) (desc60 (classifying 1 0)) false = some 0x0C ∧
      after (.clearFrameReceive 0 frame60) { mod := classifying 1 1 } (fun t => (queue t.mod 3).frames.length == 1) = true ∧
      after (.clearFrameReceive 0 frame60) { mod := classifying 1 0 } (fun t => inf t.mod 0x6010 0x0C 3 == 1) = true ∧
      after (.clearFrameReceive 0 frame60) { mod := classifying 0 1 } (fun t => inf t.mod 0x5040 1 0 == 1) = true ∧
      after (.clearFrameReceive 0 { frame60 with fcsOk := false }) { mod := classifying 1 1 } (fun t => inf t.mod 0x3100 0x0D 0 == 1) = true := by
  decide +kernel

/-- An IPv4 frame to address 9, whose flow has a frame held. -/
def frame4 : Frame := { bytes := zeros 12 ++ b2 0x0800 ++ b1 0x45 ++ zeros 15 ++ b4 9 ++ zeros 26 }
def holding : Mod :=
  setCls (classifying 0 1) 0 { held := [{ d := { bytes := zeros 60, queue := 0, len := 64, ingress := 0, stamp := 0, at_ := 1001, berth := 0 }, flow := (4096, false, 9), table := 0, elem := 4096 }] }

theorem wit_ClearFramesAreClassified_held :
    receiving holding 0 = true ∧ portDrop holding 0 64 (tagsOf frame4.bytes).ethertype true = none ∧ p2pOn holding 0 = false ∧
      ipDest frame4.bytes (tagsOf frame4.bytes) = some (false, 9) ∧ (clsOf (dropExpired holding 0) 0).held.any (·.flow == (4096, false, 9)) = true ∧
      holdRoom (clsOf (dropExpired holding 0) 0) 64 = true ∧ qPort (classifying 1 1) [] 3 < 64 ∧
      after (.clearFrameReceive 0 frame4) { mod := holding } (fun t => (clsOf t.mod 0).held.length == 2 && inf t.mod 0x5040 9 0 == 1) = true := by
  decide +kernel

/-- Frame-mode line port 8 up with lookup by SCI, and RX association 5 with suite 4 and a key in slot 0. -/
def securing : Mod :=
  setAssoc (setPort (withObj up [(0x3100, 3, 8, 1), (0x4030, 1, 8, 1), (0x4000, 1, 5, 2), (0x4000, 2, 5, 4), (0x4000, 4, 5, 8), (0x4000, 0x0A, 5, 63)] |>
    fun m => setObj m 0x4000 6 5 (.oct (zeros 6 ++ b2 5))) 8 { phase := 4, up := true }) 5 { s0 := { full := true, key := zeros 32, salt := zeros 12 } }

/-- The same after a frame with PN 1 has verified. -/
def replayed : Mod := setAssoc securing 5 { assoc securing 5 with high := 1, bitmap := 1, lowest := 1 }

/-- A SecTAG of association 5. -/
def tag5 (pn : Nat) : SecTag := { pn, sci := zeros 6 ++ b2 5 }

/-- A frame of 100 bytes under that key with a packet number. -/
def lineFrame (pn : Nat) (intact : Bool) : LineFrame :=
  { head := zeros 12, tag := some (tag5 pn), length := 132,
    body := { key := zeros 32, iv := gcmIv 4 (zeros 6 ++ b2 5) 0 pn (zeros 12), plain := zeros 84, intact,
              aad := secAad (zeros 12) (tag5 pn) 0 (zeros 84) } }

/-- The same with CLEAR_TAG, or with HA and the receive engine of the basin taken until some cycle. -/
def tagged : Mod := setNat securing 0x4000 5 5 0x40
def assured (busy : Nat) : Mod := setBank (setNat securing 0x4000 5 5 0x80) 1 { busy }

theorem wit_LineFramesAreVerified :
    (Instr.frameModeReceive 8 (lineFrame 1 true)).wf = true ∧ isGelix securing 8 = false ∧ receiving securing 8 = true ∧ portDrop securing 8 132 0 true = none ∧
      wellFormedTag (tag5 1) 84 = true ∧ wellFormedTag { tag5 1 with v := true } 84 = false ∧ inf securing 0x4030 1 8 = 1 ∧ natAt (tag5 1).sci 6 2 = 5 ∧
      usableRx securing 8 5 [3, 4] = true ∧ tagExpected securing 5 (zeros 12) = true ∧
      tagExpected tagged 5 (zeros 12) = false ∧ isHa (assured 0) [] 5 = true ∧
      engineFree (assured 0) 1 = true ∧ engineFree (assured 5000) 1 = false ∧
      after (.frameModeReceive 8 (lineFrame 1 true)) { mod := tagged } (fun t => inf t.mod 0x4030 4 8 == 1) = true ∧
      after (.frameModeReceive 8 (lineFrame 1 true)) { mod := assured 0 } (fun t => inf t.mod 0x4020 8 5 == 1 && decide (1000 < (bank t.mod 1).busy)) = true ∧
      after (.frameModeReceive 8 (lineFrame 1 true)) { mod := assured 5000 } (fun t => inf t.mod 0x4210 8 0 == 1) = true ∧ isHa securing [] 5 = false ∧
      (match rxChecks securing 5 (tag5 1) with | .ok x => x == (0, 1) | .error _ => false) = true ∧
      (match rxChecks replayed 5 (tag5 1) with | .ok _ => false | .error sub => sub == 0x0B) = true ∧
      (lineFrame 1 true).body.aad = secAad ((lineFrame 1 true).head.take 12) (tag5 1) (conf securing 5) (zeros 84) ∧
      after (.frameModeReceive 8 (lineFrame 1 true)) { mod := securing } (fun t => inf t.mod 0x4020 8 5 == 1 && inf t.mod 0x4020 9 5 == 100 && (assoc t.mod 5).high == 1) = true ∧
      after (.frameModeReceive 8 (lineFrame 1 false)) { mod := securing } (fun t => inf t.mod 0x4020 0x0C 5 == 1) = true ∧
      after (.frameModeReceive 8 (lineFrame 1 true)) { mod := replayed } (fun t => inf t.mod 0x4020 0x0B 5 == 1) = true ∧
      after (.frameModeReceive 8 { lineFrame 1 true with tag := some { tag5 1 with v := true } }) { mod := securing } (fun t => inf t.mod 0x4030 3 8 == 1) = true := by
  decide +kernel

/-- The framer of line port 8 in a state with candidates. -/
def framer (st : Nat) (cands : List (Nat × Nat)) (err : Nat) : State := { mod := setRx (gelix 4) 8 { st, cands, fawErr := err, mfExpect := some 77 } }

theorem wit_FramerHuntsAndSynchronises :
    framing (gelix 4) 8 = true ∧
      after (.fawFound 8 (40 + 2 * 16384) 0) (framer 1 [(40, 2)] 0) (fun t => (rxOf t.mod 8).st == 2) = true ∧
      after (.fawFound 8 (40 + 16384) 0) (framer 1 [(40, 1)] 0) (fun t => (rxOf t.mod 8).cands == [(40, 2)]) = true ∧
      after (.fawFound 8 5 0) (framer 1 [(1, 1), (2, 1), (3, 1)] 0) (fun t => (rxOf t.mod 8).cands.length == 4) = true ∧
      after (.fawFound 8 5 0) (framer 1 [(1, 1), (2, 1), (3, 1), (4, 1)] 0) (fun t => (rxOf t.mod 8).cands.length == 4 && inf t.mod 0x3200 0x14 8 == 1) = true ∧
      after (.candidateDropped 8 (40 + 16384)) (framer 1 [(40, 1)] 0) (fun t => (rxOf t.mod 8).st == 0 && inf t.mod 0x3200 0x13 8 == 1) = true ∧
      after (.expectedFawCheck 8 2 77) (framer 2 [] 4) (fun t => (rxOf t.mod 8).fawErr == 0 && (rxOf t.mod 8).mfIn) = true ∧
      after (.expectedFawCheck 8 3 77) (framer 2 [] 3) (fun t => (rxOf t.mod 8).fawErr == 4) = true ∧
      after (.expectedFawCheck 8 3 77) (framer 2 [] 4) (fun t => (rxOf t.mod 8).st == 0) = true := by
  decide +kernel

/-- A received Gelix frame. -/
def gelixFrame (stat fcnt : Nat) : GelixFrame :=
  { mfas := 3, trc := 0, stat, rei := 0, bip := 0, kep := 1, fcnt, ttx := zeros 10, mch := zeros 16, rsv := zeros 3, payloadParity := 9,
    payload := { key := zeros 32, iv := gelixIv 8 2 fcnt, plain := zeros 16320,
                 aad := zeros 8 ++ b1 stat ++ b1 0 ++ zeros 1 ++ b2 1 ++ bytesOf 6 fcnt ++ zeros 29 } }

/-- Line port 8 in SYNC with RX association 6 (type 4) that has passed FCNT 10, and TX association 7 (type 3) with a key that is in use. -/
def linked : Mod :=
  setTx (setAssoc (setAssoc (setRx (withObj (gelix 4) [(0x4000, 1, 6, 4), (0x4000, 2, 6, 4), (0x4000, 4, 6, 8), (0x4000, 1, 7, 3), (0x4000, 2, 7, 4),
    (0x4000, 4, 7, 8)]) 8 { st := 2, mfIn := true }) 6 { s0 := { full := true, key := zeros 32, kep := 1, hi := some 10, peerPort := 8, peerEpoch := 2 } }) 7
    { s0 := { full := true, key := zeros 32, next := 44, order := 3 } }) 8 { started := true, noKey := false, mfas := 255, inUse := some (7, 0, 3) }

theorem wit_PathsTakeAnswerAndPassOver_mch :
    (Instr.mchMessageReceive 8 (0xFF :: zeros 27) true).wf = true ∧ linked.sys.running = true ∧ pilotUp linked (harbourOf 8) = true ∧ framing linked 8 = true ∧
      (rxOf linked 8).st = 2 ∧
      after (.mchMessageReceive 8 (0xFF :: zeros 27) true) { mod := linked } (fun t => (tget ({} : Tt) t.mod.time.tts 8).got == [(0xFF :: zeros 27, true)]) = true ∧
      after (.mchMessageReceive 8 [2] true) { mod := linked } (fun t => inf t.mod 0x2000 0x0B 0 == 1) = true := by
  decide +kernel

/-- The same after another key has been written to the slot in force. -/
def rekeyed : Mod := setTx linked 8 { txOf linked 8 with inUse := some (7, 0, 2) }

/-- Line port 8 about to send, with a frame whose first bit leaves on the next cycle. -/
def leaving8 : Leaving := { leave := 1001, frame := gelixFrame 4 0, serial := 9, records := 2 }
def departing : Mod := setTx (gelix 4) 8 { started := true, fixed := [leaving8] }

set_option maxRecDepth 1000000 in
theorem wit_GelixFramesAreSentAndChecked :
    (Instr.gelixFrameReceive 8 (gelixFrame 0 11)).wf = true ∧ framing linked 8 = true ∧ boundAssoc linked 4 8 = some 6 ∧ boundAssoc linked 3 8 = some 7 ∧
      outerCheck linked (some 6) (gelixFrame 0 11) = none ∧ outerCheck linked (some 6) (gelixFrame 0 10) = some 0x0C ∧ boundAssoc (gelix 4) 3 8 = none ∧
      txUsable linked 7 = true ∧ keyInUse linked (txOf linked 8) 7 = true ∧ keyInUse rekeyed (txOf rekeyed 8) 7 = false ∧ txUsable rekeyed 7 = true ∧
      (txOf departing 8).fixed = [leaving8] ∧ (∀ e ∈ departing.tx, e.1 ≠ 8 → e.2.fixed = []) ∧ leaving8.leave ≤ departing.sys.elapsed + 1 ∧
      after (.gelixFrameReceive 8 (gelixFrame 0 11)) { mod := linked } (fun t => ((assoc t.mod 6).slot 0).hi == some 11 && inf t.mod 0x3200 9 8 == 1) = true ∧
      after (.gelixFrameReceive 8 (gelixFrame 0 10)) { mod := linked } (fun t => inf t.mod 0x3200 0x0C 8 == 1 && (txOf t.mod 8).rei == 1) = true ∧
      after (.gelixFrameReceive 8 (gelixFrame 4 11)) { mod := linked } (fun t => inf t.mod 0x3200 0x0E 8 == 1 && (pmOf t.mod 8).nokey) = true := by
  decide +kernel

theorem wit_GelixFramesAreSentAndChecked_sent :
    linked.sys.running = true ∧ isGelix linked 8 = true ∧ (port linked 8).up = true ∧ (txOf linked 8).started = true ∧ (txOf linked 8).noKey = false ∧
      (txOf linked 8).mfas ≠ 0 ∧ isGelix (gelix 4) 8 = true ∧ (txOf (setTx (gelix 4) 8 { started := true }) 8).started = true := by
  decide +kernel

theorem wit_GelixFramesAreSentAndChecked_left :
    (match step { mod := departing } with
      | .next t => inf t.mod 0x3200 7 8 == 1 && inf t.mod 0x3200 8 8 == 2 && t.mod.out.length == 1
      | _ => false) = true := by
  decide +kernel

/-- A queued frame of queue 3. -/
def queued : Desc := { bytes := zeros 60, queue := 3, assoc := 5, len := 64, debit := 84, cells := 1, ingress := 0, stamp := 0, at_ := 900 }

/-- Queue 3 of Gelix port 8 holding that frame, with frames released and on their way out. -/
def sending (gen : Nat) : Mod :=
  setAssoc (setArb (setQueue (setPort (withObj (gelix 4) [(0x6000, 1, 3, 1), (0x6000, 3, 3, 8), (0x6000, 7, 3, 10000000), (0x4000, 1, 5, 1), (0x4000, 2, 5, 4),
    (0x4000, 4, 5, 8)]) 8 { phase := 4, up := true }) 3 { frames := [{ queued with gen }], rate := 10000000, tokC := 100000 }) 8
    { released := [{ queued with gen }], egress := [queued] }) 5 { s0 := { full := true, key := zeros 32, next := 7 } }

theorem wit_FramesLeaveQueuesAndAreProtected :
    (port (sending 0) 8).up = true ∧ (arb (sending 0) 8).pace ≤ 1000 * 800000 ∧ ((pickNext (refilled (sending 0) 8 0) 8).map fun k => (k.queue, k.tier)) = some (3, 1) ∧
      ((nextReleased (sending 0) 0).map fun x => x.1) = some 8 ∧ (berth (sending 0) 0).gen = 0 ∧ aType (sending 0) 5 ≠ 5 ∧ isGcm (aSuite (sending 0) 5) = true ∧
      after (.frameRelease 8 0) { mod := sending 0 } (fun t => (queue t.mod 3).frames == [] && (arb t.mod 8).released.length == 2) = true ∧
      after (.frameRelease 8 0) { mod := sending 1 } (fun t => (queue t.mod 3).frames == [] && inf t.mod 0x6020 6 3 == 1) = true ∧
      after (.frameEgressComplete 8 0) { mod := sending 0 } (fun t => (arb t.mod 8).egress == [] && inf t.mod 0x6010 3 3 == 1) = true ∧
      after (.cryptoBankEntry 0) { mod := sending 0 } (fun t => (arb t.mod 8).egress.length == 2 && ((assoc t.mod 5).slot 0).next == 8) = true ∧
      after (.cryptoBankEntry 0) { mod := sending 1 } (fun t => (arb t.mod 8).released == [] && inf t.mod 0x6020 6 3 == 1) = true ∧
      after (.cryptoBankEntry 0) { mod := setAssoc (sending 0) 5 {} } (fun t => inf t.mod 0x4020 4 5 == 1) = true ∧
      after (.cryptoBankEntry 0) { mod := setAssoc (sending 0) 5 { s0 := { full := true, spent := true } } } (fun t => inf t.mod 0x4020 5 5 == 1) = true ∧
      after (.holdExpire 0) { mod := setCls up 0 { held := [{ d := queued, flow := (0, false, 1), table := 0, elem := 4096 }] } }
        (fun t => (clsOf t.mod 0).held == [] && t.mod.sys.elapsed == 900 + 2000 * usCycles) = true := by
  decide +kernel

/-! ### Crypto banks and entropy -/

/-- Bank 0 with a pipeline in a state, a number of faults, and a spare. -/
def banked (st faults : Nat) (spare : Option Nat) : Mod :=
  setBank up 0 { pipes := tset {} [] 2 { st, faults, leftAt := 900 }, pairs := tset {} [] 3 { st, faults, leftAt := 900 }, spare }

/-- The same with frame blocks in pipeline 2, the first of which leaves it now. -/
def carrying (spare : Option Nat) : Mod :=
  setBank up 0 { bank (banked 0 2 spare) 0 with flight := [⟨2, 985, { key := zeros 16, serial := 7 }, false⟩, ⟨2, 990, { key := zeros 16, serial := 7 }, false⟩] }

/-- The same with a block in masked lane 2 whose round has begun. -/
def laneWork : Mod :=
  setBank up 0 { bank (banked 0 0 none) 0 with engine := [{ start := 992, lanes := [0, 1, 2], job := { key := zeros 16, count := 5, serial := 7 } }], busy := 1023 }

/-- The bank of basin 0 on the side that is bank 0. -/
def tx0 : Bool := bankOf 0 true == 0

/-- An odd number of bits flipped behind stage 0. -/
def odd0 : Upset := upsetOf 0 false 1 0 0

theorem wit_FaultyUnitsLeaveAndReturn :
    bankOf 0 tx0 = 0 ∧ (Instr.pipelineFault 0 tx0 (.pipeline 2) 0 false 1 0 0).wf = true ∧ ((bank (carrying (some 13)) 0).unit (.pipeline 2)).st = 0 ∧
      (bank (carrying (some 13)) 0).spareOf (.pipeline 2) = some 13 ∧ (bank (carrying (some 13)) 0).spareReady (.pipeline 2) 13 1000 = true ∧
      (bank (carrying none) 0).spareOf (.pipeline 2) = none ∧ ((bank (carrying none) 0).toReplay 2 1000).length = 2 ∧
      (match verdict (carrying none) 0 (.pipeline 2) odd0 with | some (e, _, some (st, k)) => e.frame && !e.replay && st == 0 && !k | _ => false) = true ∧
      ((laneExit laneWork (bank laneWork 0) 2).map fun e => (e.1.at_, e.2)) = some (1007, 2) ∧
      after (.pipelineFault 0 tx0 (.pipeline 2) 0 false 1 0 0) { mod := carrying (some 13) } (fun t =>
        ((bank t.mod 0).unit (.pipeline 2)).faults == 3 && inf t.mod 0x4200 9 0 == 2 && (source t.mod 12).events == 0) = true ∧
      after (.pipelineFault 0 tx0 (.pipeline 2) 0 false 1 0 0) { mod := carrying none } (fun t => (source t.mod 12).events == 1) = true ∧
      after (.pipelineFault 0 tx0 (.pipeline 2) 0 false 0 1 0) { mod := banked 0 0 none } (fun t =>
        ((bank t.mod 0).unit (.pipeline 2)).st == 1 && (source t.mod 12).events == 0) = true := by
  decide +kernel

/-- An even number of bits flipped behind stage 5 is not seen: the block of a frame comes out wrong with no flag. -/
theorem wit_FaultyUnitsLeaveAndReturn_silent :
    ∃ e out, verdict (carrying none) 0 (.pipeline 2) (upsetOf 5 false 3 0 0) = some (e, out, none) ∧ e.blk.serial ≠ 0 ∧
      out ≠ cleanBlock e.blk.key e.blk.counter e.blk.data := by
  have hb : (bank (carrying none) 0).blockAt 2 985 = ({ key := zeros 16, serial := 7 }, some ⟨2, 985, { key := zeros 16, serial := 7 }, false⟩) := by
    decide +kernel
  have hr : (runBlock {} (zeros 16) 0 0 (some (upsetOf 5 false 3 0 0))).2 = none ∧
      (runBlock {} (zeros 16) 0 0 (some (upsetOf 5 false 3 0 0))).1 ≠ cleanBlock (zeros 16) 0 0 := by decide +kernel
  have hv := verdict_pipeline (carrying none) 0 2 (upsetOf 5 false 3 0 0) _ _ hb
  generalize runBlock {} (zeros 16) 0 0 (some (upsetOf 5 false 3 0 0)) = q at hr hv
  obtain ⟨out, flag⟩ := q
  obtain ⟨rfl, ho⟩ := hr
  exact ⟨_, out, hv, by simp, ho⟩

/-- A message with additional data whose first step the first pair carries now; the engine in its first round for it, with its second pair the only
one in service. -/
def hashed : Job := { key := zeros 16, aad := some (zeros 16), count := 5, serial := 7 }
def stepping (faults : Nat) : Mod :=
  setBank up 0 { bank (carrying none) 0 with pairs := tset {} [] 0 { faults }, hashing := [hashed], steps := [{ cycle := 1000, message := hashed.message, input := 0 }] }
def alone (faults : Nat) : Mod :=
  setBank laneWork 0 { bank laneWork 0 with pairs := tset {} (tset {} [] 16 { st := 3 }) 17 { faults }, engine := [{ start := 1000, lanes := [0, 1, 2], job := hashed }] }

theorem wit_FaultyUnitsLeaveAndReturn_pairs :
    (Instr.ghashMismatch 0 tx0 3 1 0).wf = true ∧ (∃ j ∈ (bank (carrying none) 0).serving (.ghashPair 3), j ≠ 3) ∧
      (pairStep (stepping 0) 0 0).isSome = true ∧ (pairStep (stepping 0) 0 3).isSome = false ∧ (pairsFor (List.range 16) 20).length = 15 ∧
      (∀ j ∈ (bank (alone 0) 0).serving (.ghashPair 17), j = 17) ∧ (pairStep (alone 0) 0 17).isSome = true ∧
      after (.ghashMismatch 0 tx0 0 0 0) { mod := stepping 0 } (fun t => ((bank t.mod 0).unit (.ghashPair 0)).st == 0) = true ∧
      after (.ghashMismatch 0 tx0 0 1 0) { mod := stepping 0 } (fun t => inf t.mod 0x4200 0x0A 0 == 1 && (source t.mod 12).events == 0) = true ∧
      after (.ghashMismatch 0 tx0 0 1 1) { mod := stepping 0 } (fun t => inf t.mod 0x4200 0x0A 0 == 1 && (source t.mod 12).events == 1) = true ∧
      after (.ghashMismatch 0 tx0 17 1 0) { mod := alone 0 } (fun t => (source t.mod 12).events == 1) = true := by
  decide +kernel

theorem wit_FaultyUnitsLeaveAndReturn_states :
    after (.pipelineDrained 0 tx0 (.pipeline 2)) { mod := banked 1 2 none } (fun t => ((bank t.mod 0).unit (.pipeline 2)).st == 2) = true ∧
      after (.pipelineDrained 0 tx0 (.pipeline 2)) { mod := banked 1 3 none } (fun t => ((bank t.mod 0).unit (.pipeline 2)).st == 3) = true ∧
      after (.quarantineTestEnd 0 tx0 (.pipeline 2) true) { mod := banked 2 1 none } (fun t => (bank t.mod 0).spareOf (.pipeline 2) == some 2) = true ∧
      after (.quarantineTestEnd 0 tx0 (.ghashPair 3) false) { mod := banked 2 1 none } (fun t => ((bank t.mod 0).unit (.ghashPair 3)).cause == 2) = true ∧
      after (.knownAnswerTest 0 tx0 (.pipeline 2) 0 false 1 0 0) { mod := banked 0 0 none } (fun t => ((bank t.mod 0).unit (.pipeline 2)).st == 1) = true ∧
      after (.keyStoreError 0 tx0 false) on (fun t => inf t.mod 0x4200 0x0C 0 == 1) = true ∧
      after (.keyStoreError 0 tx0 true) on (fun t => (source t.mod 12).events == 1) = true := by
  decide +kernel

/-- Harbour 0 with failures of its source A at some times. -/
def failing (times : List Nat) : State := { mod := setEntropy up 0 { timesA := times } }

/-- Bank 0 with so many blocks computed under its mask seed. -/
def masking (n : Nat) : State := { mod := setBank up 0 { maskBlocks := n } }

/-- Samples of one oscillator or cell that are all equal. -/
def stuck (n : Nat) : List Bool := List.replicate n true

theorem wit_ReseedsAndEntropyTests :
    feedOk up 0 = true ∧ (entropyOf up 0).failB = false ∧ (tget ({} : CUnit) (bank (banked 3 3 none) 0).pipes 2).st = 3 ∧
      (Instr.entropyTestFailure 0 false true (stuck 1024)).wf = true ∧ healthFails false true (stuck 1024) = true ∧ healthFails true true (stuck 512) = true ∧
      healthFails false false (stuck 40) = true ∧ healthFails false false (stuck 39) = false ∧ healthFails true false (stuck 24) = true ∧
      healthFails true false (stuck 23) = false ∧ healthFails false true (stuck 640 ++ List.replicate 384 false) = true ∧
      healthFails false true (stuck 639 ++ List.replicate 385 false) = false ∧
      after (.maskReseed 0 tx0) (masking 65535) (fun t => (bank t.mod 0).maskBlocks == 65535) = true ∧
      after (.entropyTestFailure 0 false true (stuck 1024)) (failing [900]) (fun t => !(entropyOf t.mod 0).failA && inf t.mod 0x4230 8 0 == 2) = true ∧
      after (.entropyTestFailure 0 false false (stuck 39)) (failing [900]) (fun t => inf t.mod 0x4230 3 0 == 0) = true ∧
      after (.ballastShareUpdate 0) on (fun t => decide (secCycles ≤ t.mod.sys.elapsed + 1000)) = true := by
  decide +kernel

theorem wit_ReseedsAndEntropyTests_seeds :
    after (.ballastKeyReseed 0 tx0) { mod := banked 3 3 none } (fun t => (tget [] (bank t.mod 0).ballast 1).length == 32 && (tget [] (bank t.mod 0).ballast 2).length == 0) = true ∧
      after (.maskReseed 0 tx0) (masking 65536) (fun t => (bank t.mod 0).maskSeed.length == 32) = true ∧
      after (.entropyTestFailure 0 false false (stuck 40)) (failing [900, 950]) (fun t => (entropyOf t.mod 0).failA && (entropyOf t.mod 0).reserve) = true := by
  decide +kernel

/-! ### Queues, gates, tables -/

/-- Queue 3 enabled on clear port 0, draining or lowering. -/
def lowered (draining lowering : Bool) : Mod :=
  setNode (setQueue (withObj up [(0x6000, 1, 3, 1), (0x6000, 3, 3, 0), (0x6000, 7, 3, 10000000), (0x6200, 2, 0, 20000000)]) 3 { draining, lowering, rate := 90000000 })
    0 { lowering, rate := 90000000 }

theorem wit_DrainsAndLoweringsComplete :
    (queue (lowered true false) 3).frames = [] ∧ backlog (lowered false true) 3 ≤ limitOf (lowered false true) 3 0 ∧ nodeFits (lowered false true) 0 = true ∧
      after (.queueDrained 3) { mod := lowered true false } (fun t => !(queue t.mod 3).draining && (queue t.mod 3).rate == 0) = true ∧
      after (.rateLoweringApplied 3) { mod := lowered false true } (fun t => !(queue t.mod 3).lowering && (queue t.mod 3).rate == 10000000) = true ∧
      after (.berthNodeLoweringApplied 0 0) { mod := lowered false true } (fun t => !(node t.mod 0).lowering && (node t.mod 0).rate == 20000000) = true := by
  decide +kernel

/-- Port 0 with a pending gate list of two entries, and queue 3 on it with a frame whose backlog has a limit or none. -/
def gated (enable : Nat) : Mod :=
  setGate (setQueue (withObj up [(0x6000, 1, 3, enable), (0x6000, 3, 3, 0), (0x6000, 7, 3, 10000000), (0x6000, 0xD, 3, 10000000)]) 3 { frames := [queued] }) 0
    { pend := some { on := true, cycle := 100000, base := 0, entries := [(0xFF, 60000), (1, 40000)] }, swap := 100000 }

/-- Port 0 with that list in force. -/
def gating : Mod := setGate up 0 { force := { on := true, cycle := 100000, base := 0, entries := [(0xFF, 60000), (1, 40000)] } }

/-- Association 5 of a type with a request that waits for its time. -/
def scheduled (type : Nat) : Mod := setAssoc (withObj up [(0x4000, 1, 5, type), (0x4000, 2, 5, 4), (0x4000, 4, 5, 8)]) 5 { s0 := { full := true }, sw := 1 }

theorem wit_GatesAndSwitchesActAtTheirTime :
    overLimit (advanceToNet (gated 1) 0 100000) 0 = none ∧ (overLimit (advanceToNet (gated 0) 0 100000) 0).isSome = true ∧ (entryRest gating 0).isSome = true ∧
      gating.time.c0.slew = 0 ∧ 0 < gating.time.c0.inc ∧ aType (scheduled 3) 5 = 3 ∧ txUsable (scheduled 3) 5 = true ∧
      after (.gateSwap 0) { mod := gated 1 } (fun t => (gate t.mod 0).force.on && (gate t.mod 0).pend == none) = true ∧
      after (.gateSwap 0) { mod := gated 0 } (fun t => !(gate t.mod 0).force.on && (gate t.mod 0).deferred) = true ∧
      after (.gateEntryChange 0) { mod := gating } (fun t => decide (1000 < t.mod.sys.elapsed)) = true ∧
      after (.switchScheduledTime 5) { mod := scheduled 1 } (fun t => (assoc t.mod 5).txPhase == 1 && (assoc t.mod 5).sw == 0) = true ∧
      after (.switchScheduledTime 5) { mod := scheduled 3 } (fun t => (assoc t.mod 5).txPhase == 0 && (assoc t.mod 5).sw == 2) = true := by
  decide +kernel

/-- A basin with two pending notifications and one prefix. -/
def learned : Mod :=
  setCls (as 1) 0 { learn := [{ seq := 4, bytes := [], flow := (0, false, 1) }, { seq := 5, bytes := [], flow := (0, false, 2) }],
                    prefixes := [{ table := 3, v6 := false, len := 32, addr := 1, drop := true, queue := 0, assoc := 0, bucket := 0, way := 0 }] }

/-- The record of an IPv4 prefix that leads to queue 3 and association 5. -/
def prefixRec (addr : Nat) : Octets := b1 0 ++ b1 32 ++ b4 addr ++ zeros 12 ++ b2 3 ++ b2 5 ++ b2 0

/-- Queue 3 and association 5 on line port 8. -/
def tabled : Mod := withObj (as 1) [(0x4000, 1, 5, 1), (0x4000, 4, 5, 8), (0x6000, 3, 3, 8)]

theorem wit_LearnAndPrefixWritesTakeEffect :
    WriteClears learned hd 0 0x5200 4 (some 0) (b4 4) ∧ (clsOf learned 0).learn.any (·.seq == 5) = true ∧ (clsOf learned 0).learn.any (·.seq == 6) = false ∧
      WriteClears tabled hd 0 0x5110 1 (some 3) (prefixRec 1) ∧ (insertPrefix (accept tabled hd 0) 3 (prefixRec 1)).2.1 = 0 ∧
      WriteClears learned hd 0 0x5110 2 (some 3) (prefixRec 1) ∧ ((prefixOf 3 (prefixRec 1) true).map fun p => (clsOf learned 0).prefixes.any (samePrefix p)) = some true ∧
      ((prefixOf 3 (prefixRec 2) true).map fun p => (clsOf learned 0).prefixes.any (samePrefix p)) = some false ∧
      after (.learnAcknowledge hd 0 4) { mod := learned } (fun t => (clsOf t.mod 0).learn.length == 1) = true ∧
      after (.learnAcknowledge hd 0 6) { mod := learned } (fun t => (clsOf t.mod 0).learn.length == 2 && replied t == some 0x2001) = true ∧
      after (.lpmInsert hd 3 (prefixRec 1)) { mod := tabled } (fun t => (clsOf t.mod 0).prefixes.length == 1 && replied t == some 0) = true ∧
      after (.lpmInsert hd 3 (b1 1 ++ zeros 23)) { mod := tabled } (fun t => (clsOf t.mod 0).prefixes.length == 0 && replied t == some 0x2001) = true ∧
      after (.lpmDelete hd 3 (prefixRec 1)) { mod := learned } (fun t => (clsOf t.mod 0).prefixes == []) = true ∧
      after (.lpmDelete hd 3 (prefixRec 2)) { mod := learned } (fun t => replied t == some 0x1002) = true := by
  unfold WriteClears Accepted Reaches Clears; repeat' apply And.intro
  all_goals decide +kernel

theorem wit_LearnAndPrefixWritesTakeEffect_query :
    WriteClears (as 1) hd 0 0x5110 3 (some 3) (zeros 17) ∧ WriteClears (as 1) hd 0 0x3000 9 (some 3) (b1 2) ∧
      after (.lpmQuery hd 3 (b1 0 ++ b4 1 ++ zeros 12)) { mod := learned } (fun t => tget (zeros 17) (sess t.mod 0).query 3 == b1 0 ++ b4 1 ++ zeros 12) = true ∧
      after (.testPatternWrite hd 3 2) { mod := as 1 } (fun t => inf t.mod 0x3000 9 3 == 2 && tget 0 t.mod.counted 3 == 1000 && inf t.mod 0x3000 0x0A 3 == 0) = true := by
  unfold WriteClears Accepted Reaches Clears; decide +kernel

/-! ### Time -/

/-- A module under a time source, with changes that wait. -/
def timed (src : Nat) (changes : List (Nat × TimeChange)) : Mod := { as 1 with time := { src, changes } }

theorem wit_TimeChangesWaitForTheirEdge :
    WriteClears (timed 4 []) hd 0 0x7000 2 none (b4 1717815119) ∧ WriteClears (timed 1 []) hd 0 0x7000 2 none (b4 1718158717) ∧
      WriteClears (timed 0 []) hd 0 0x7000 3 none (bytesOfInt 4 (-1000000)) ∧ WriteClears (timed 0 []) hd 0 0x7000 4 none (bytesOfInt 8 5) ∧
      (edgeValue (timed 0 []) : Int) + 5 * 4294967296 < maxTime ∧ WriteClears (timed 0 []) hd 0 0x7000 5 none (bytesOf 6 2 ++ bytesOf 4 999999999) ∧
      after (.timeIncrementWrite hd 1717815119) { mod := timed 4 [] } (fun t => t.mod.time.changes == [(4500, .increment 1717815119)]) = true ∧
      after (.timeIncrementWrite hd 1718158717) { mod := timed 1 [] } (fun t => t.mod.time.changes == [] && replied t == some 0x4002) = true ∧
      after (.timeSlewWrite hd (-1000000)) { mod := timed 0 [] } (fun t => t.mod.time.changes == [(4500, .slew (-1000000))]) = true ∧
      after (.timeStepWrite hd 5) { mod := timed 0 [] } (fun t => t.mod.time.changes == [(4500, .step 5)]) = true ∧
      after (.timeSetWrite hd ⟨2, 999999999⟩) { mod := timed 0 [] } (fun t => t.mod.time.changes == [(4500, .set 2999999999)]) = true := by
  unfold WriteClears Accepted Reaches Clears; repeat' apply And.intro
  all_goals decide +kernel

theorem wit_TimeChangesWaitForTheirEdge_edges :
    (timed 0 [(4500, .slew 5)]).sys.running = true ∧ (timed 0 []).time.linkUp = true ∧
      after .timeChangeEdge { mod := timed 0 [(4500, .increment 1718158717)] } (fun t => t.mod.time.c0.inc == 1718158717 && t.mod.time.c1.inc == 1718158717 &&
        t.mod.sys.elapsed == 2250) = true ∧
      after .timeChangeEdge { mod := timed 0 [(4500, .slew (-5)), (4501, .slew 1)] } (fun t => t.mod.time.c0.slew == -5 * 4294967296 && t.mod.time.changes.length == 1) = true ∧
      after .timeChangeEdge { mod := timed 0 [(4500, .step 5)] } (fun t => t.mod.time.steps == 1) = true ∧
      after .timeChangeEdge { mod := timed 0 [(4500, .set 99)] } (fun t => t.mod.time.c0.val == 99 * 2 ^ 32) = true ∧
      after .slewComplete { mod := { up with time := { c0 := { slew := 4294967296 } } } } (fun t => t.mod.time.c0.slew == 0 && decide (1000 < t.mod.sys.elapsed)) = true := by
  decide +kernel

/-- Source 4 with a lease to 3000, locked. -/
def leased : Mod := { as 1 with time := { src := 4, state := 1, leaseEnd := some 3000 } }

theorem wit_LeasesHoldoverAndLockstep :
    WriteClears leased hd 0 0x7010 5 none (b1 60) ∧ WriteClears (timed 1 []) hd 0 0x7010 5 none (b1 0) ∧
      after (.hostLeaseWrite hd 60) { mod := timed 4 [] } (fun t => t.mod.time.leaseEnd == some (1000 + 60 * secCycles) && t.mod.time.state == 1) = true ∧
      after (.hostLeaseWrite hd 0) { mod := leased } (fun t => t.mod.time.leaseEnd == none && t.mod.time.state == 2) = true ∧
      after (.hostLeaseWrite hd 5) { mod := timed 1 [] } (fun t => replied t == some 0x4002) = true ∧
      after .hostLeaseExpire { mod := leased } (fun t => t.mod.time.leaseEnd == none && t.mod.sys.elapsed == 3000) = true ∧
      after .timeSourceLost { mod := { up with time := { src := 1, state := 1, measAt := 950, delayAt := 900 } } } (fun t => t.mod.time.state == 2 && t.mod.sys.elapsed == 900 + 3 * secCycles) = true ∧
      after .timeSourceLost { mod := { up with time := { src := 3, state := 1, measAt := 900 } } } (fun t => t.mod.sys.elapsed == 900 + 1500 * msCycles) = true ∧
      after .holdoverExpire { mod := { up with time := { state := 2, holdAt := 900 } } } (fun t => t.mod.time.state == 0) = true := by
  unfold WriteClears Accepted Reaches Clears; decide +kernel

/-- Counters that differ, and a copy that is due. -/
def apart : State := { mod := { up with time := { c0 := { val := 5 }, copyAt := some 2000, lock1 := false } } }

theorem wit_LeasesHoldoverAndLockstep_counters :
    apart.mod.time.linkUp = true ∧ apart.mod.time.copyAt = some 2000 ∧
      after .lockstepCheck apart (fun t => !t.mod.time.lock1 && t.mod.time.lockFaults == 1 && t.mod.sys.elapsed == msCycles) = true ∧
      after .lockstepCheck on (fun t => t.mod.time.lock1) = true ∧
      after .lockstepCopy apart (fun t => t.mod.time.lock1 && t.mod.time.c1 == t.mod.time.c0) = true ∧
      after .dieLinkDown on (fun t => !t.mod.time.lock1 && !t.mod.time.linkUp) = true ∧
      after .dieLinkUp { mod := { up with time := { linkUp := false, lock1 := false } } } (fun t => t.mod.time.linkUp && !t.mod.time.lock1) = true := by
  decide +kernel

/-- The ordinary clock on port 1 as timeTransmitter (1) or timeReceiver (0), P2P on port 0. -/
def clocked (role : Nat) : Mod := withObj up [(0x7020, 1, 0, 1), (0x7010, 2, 0, 1), (0x7020, 2, 0, role), (0x7030, 5, 0, 1)]

/-- Line port 8 with time transfer enabled, a stamp to report and a report that came without keys. -/
def transfers : Mod :=
  { withObj (gelix 4) [(0x3200, 5, 8, 1)] with time := { tts := tset {} [] 8 { stamp := some (1, 2, 30, true), got := [([0xFF] ++ zeros 27, false)] } } }

theorem wit_TimeMessagesAreExchanged :
    clockOn (clocked 1) 1 = true ∧ inf (clocked 1) 0x7020 5 0 = 0 ∧ p2pOn (clocked 1) 0 = true ∧ inf (clocked 1) 0x7020 2 0 = 1 ∧
      infB (clocked 1) 0x7020 6 0 = false ∧ inf (clocked 1) 0x7020 4 0 = 0 ∧ inf (withObj (clocked 1) [(0x7020, 4, 0, 1)]) 0x7020 4 0 = 1 ∧ inf (clocked 0) 0x7020 2 0 = 0 ∧ inf (clocked 0) 0x7020 4 0 ≠ 1 ∧ (clocked 0).time.ptpDelay = none ∧
      after (.ptpMessageReceive 0 0 .pdelayReq) { mod := setPort (clocked 1) 0 { up := true } } (fun t => t.mod.out == [.ptp 0 (.pdelayResp 0)]) = true ∧
      after (.ptpMessageReceive 0 0 .pdelayReq) { mod := clocked 1 } (fun t => t.mod.out == []) = true ∧
      after (.ptpMessageReceive 1 0 .notActedOn) { mod := clocked 1 } (fun t => inf t.mod 0x7020 0x0C 0 == 1) = true ∧
      after (.ptpMessageReceive 1 0 (.announce 37)) { mod := clocked 1 } (fun t => t.mod.time.utc == 37) = true ∧
      after (.ptpMessageReceive 1 0 .delayReq) { mod := setPort (clocked 1) 1 { up := true } } (fun t => t.mod.out.length == 1) = true ∧
      after .ptpMessageSend { mod := withObj (clocked 1) [(0x7020, 4, 0, 1)] } (fun t => t.mod.time.ptpSent == some 1000) = true ∧
      after (.ptpMessageReceive 1 0 (.sync true 5 6 7)) { mod := clocked 0 } (fun t => t.mod.time.ptpWait == some (7, 6)) = true ∧
      after (.ptpMessageReceive 1 0 (.sync false 5 6 7)) { mod := clocked 0 } (fun t => t.mod.time.ptpRx == some 7 && t.mod.time.ptpOrigin == 11) = true ∧
      after .ptpMessageSend { mod := setPort (clocked 1) 1 { up := true } } (fun t => t.mod.out.length == 2 && t.mod.time.ptpSent == some t.mod.sys.elapsed) = true ∧
      after .ptpMessageSend { mod := setPort (clocked 0) 1 { up := true } } (fun t => t.mod.out == [.ptp 1 .delayReq]) = true ∧
      after .ptpMessageSend { mod := clocked 0 } (fun t => t.mod.out == [] && t.mod.time.ptpSent == some t.mod.sys.elapsed) = true := by
  decide +kernel

theorem wit_TimeMessagesAreExchanged_reports :
    isGelix transfers 8 = true ∧ infB transfers 0x3200 5 8 = true ∧ (tget ({} : Tt) transfers.time.tts 8).stamp.isSome = true ∧ pilotUp transfers (harbourOf 8) = true ∧
      after (.ttReportSend 8) { mod := transfers } (fun t => (txOf t.mod 8).mchQueue.map (·.length) == [28] && (tget ({} : Tt) t.mod.time.tts 8).seq == 1) = true ∧
      after (.ttReportReceive 8) { mod := transfers } (fun t => inf t.mod 0x7030 9 8 == 1 && (tget ({} : Tt) t.mod.time.tts 8).got == []) = true := by
  decide +kernel

/-- Capture input 2 that selects both edges, with a number of records. -/
def captured (n : Nat) (last : Option Nat) : Mod :=
  { withObj (as 1) [(0x7050, 1, 2, 3)] with time := { caps := tset {} [] 2 { recs := List.replicate n (zeros 24), lastAt := last } } }

/-- Trigger 4 of a mode, driven or not. -/
def triggering (mode : Nat) (active : Bool) : Mod :=
  { withObj up [(0x7040, 1, 4, mode)] with time := { trigs := tset {} [] 4 { active, stop := 5 } } }

theorem wit_EdgesAreCapturedAndDriven :
    (inf (captured 63 (some 938)) 0x7050 1 2).testBit 0 = true ∧ (capture (captured 63 (some 938)) 2).recs.length < 64 ∧ 250 ≤ (1000 - 800) * 4 ∧
      ReadClears { mod := captured 2 none } hd 0 { idx := 0x7050, sub := 3, isElem := true, elem := 2 } ∧
      inf (triggering 1 false) 0x7040 1 4 = 1 ∧ (trig (triggering 1 false) 4).fired = false ∧ (trig (triggering 1 true) 4).active = true ∧
      after (.captureEdge 2 true) { mod := captured 63 (some 800) } (fun t => (capture t.mod 2).recs.length == 64) = true ∧
      after (.captureEdge 2 false) { mod := captured 64 none } (fun t => (capture t.mod 2).recs.length == 64 && inf t.mod 0x7050 4 2 == 1) = true ∧
      after (.captureRead hd 2) { mod := captured 2 none } (fun t => (capture t.mod 2).recs.length == 1 && replied t == some 0) = true ∧
      after .ppsInEdge { mod := { up with time := { src := 3, ppsSec := some 8 } } } (fun t => t.mod.time.ppsSec == some 9) = true ∧
      after .ppsInEdge { mod := { up with time := { src := 3, ppsSec := some 8, c0 := { val := 1000001 * 2 ^ 32 } } } }
        (fun t => t.mod.time.ppsSec == some 8 && inf t.mod 0x7010 0x0A 0 == 1) = true ∧ (trig (triggering 1 false) 4).since ≤ trigStart (triggering 1 false) 4 ∧
      after (.triggerEdge 4) { mod := triggering 1 false } (fun t => (trig t.mod 4).active && t.mod.out.length == 1) = true ∧
      after (.triggerEdge 4) { mod := triggering 1 true } (fun t => !(trig t.mod 4).active && t.mod.out.length == 1) = true ∧
      after .runtimeSave on (fun t => t.flash.runtime == t.mod.tether.runtime && t.mod.sys.elapsed != 1000) = true := by
  unfold ReadClears Accepted Reaches; repeat' apply And.intro
  all_goals decide +kernel

/-! ### Snapshots, alarm pins, journal -/

/-- A snapshot of everything, scheduled, or captured on both harbours with words of basin 0. -/
def scheduledSnap : Mod := { up with snap := { st := 1, scope := 0, time := 5 } }
def capturedSnap : Mod := { as 1 with snap := { st := 2, scope := 0, captured := [0, 1], words := [(0, [7, 8, 9])] } }

theorem wit_SnapshotsAreCapturedDrainedAndFreed :
    (snapHarbours 0 0).contains 0 = true ∧ (snapHarbours 0 0).contains 1 = true ∧ (snapHarbours 0 0).all capturedSnap.snap.captured.contains = true ∧
      twf [] capturedSnap.snap.words = true ∧ (∀ e ∈ capturedSnap.snap.words, e.1 < 4 ∧ e.2.length ≤ 131072) ∧
      after (.snapshotCapture 0) { mod := scheduledSnap } (fun t => t.mod.snap.captured == [0] && t.mod.snap.seq == 1 && t.mod.snap.st == 2) = true ∧
      after .snapshotComplete { mod := capturedSnap } (fun t => tget 0 t.mod.snap.written 0 == 3 && t.mod.snap.st == 3) = true := by
  decide +kernel

/-- Words 0 to 2 of basin 0 written, word 0 freed. -/
def heldSnap : Mod := { as 1 with snap := { st := 3, captured := [0, 1], words := [(0, [7, 8, 9])], written := [(0, 3)], oldest := [(0, 1)] } }

theorem wit_SnapshotsAreCapturedDrainedAndFreed_words :
    WriteClears heldSnap hd 0 0xB020 4 (some 0) (b4 1) ∧ tget 0 (drainAll (accept heldSnap hd 0)).snap.oldest 0 = 1 ∧
      tget 0 (drainAll (accept heldSnap hd 0)).snap.written 0 = 3 ∧ WriteClears heldSnap hd 0 0xB020 4 (some 0) (b4 3) ∧
      after (.snapshotAcknowledge hd 0 1) { mod := heldSnap } (fun t => tget 0 t.mod.snap.oldest 0 == 2 && replied t == some 0) = true ∧
      after (.snapshotAcknowledge hd 0 0) { mod := heldSnap } (fun t => tget 0 t.mod.snap.oldest 0 == 1 && replied t == some 0x2001) = true ∧
      after (.snapshotAcknowledge hd 0 3) { mod := heldSnap } (fun t => replied t == some 0x2001) = true := by
  unfold WriteClears Accepted Reaches Clears; decide +kernel

/-- Pin 1 asserted, latched (0) or in pulse mode (1), selecting event 0x9001 only. -/
def pinned (mode : Nat) : Mod :=
  { setObj (withObj (as 1) [(0xB100, 2, 1, mode)]) 0xB100 1 1 (.oct (b2 0x9001 ++ b2 0xFFFF ++ zeros 28)) with ev := { pins := tset {} [] 1 { asserted := true, until_ := 5000 } } }

/-- Both pilots stopped while the module is Ready. -/
def silent : Mod := { up with sys := { up.sys with pilot0 := false, pilot1 := false } }

theorem wit_EventsReachJournalSubscribersAndPins :
    (0 < 4 ∧ up.sys.pilot0 = true ∧ up.ev.journal.length < 4096 ∧ journalRefusers up = [] ∧ (∀ e ∈ up.ev.subs, e.2.queue.length < 256)) ∧ silent.ev.held1.length < 1024 ∧
      (raise up 0x9001 0 0 []).ev.newest = 1 ∧ (raise up 0x9001 0 0 []).ev.seq = 2 ∧ (raise silent 0x9001 1 0 []).ev.held1.length = 1 ∧
      (raise silent 0x9001 1 0 []).ev.journal = [] ∧ (tget ({} : Pin) (raise (pinned 0) 0x9001 0 0 []).ev.pins 1).asserted = true ∧
      WriteClears (pinned 0) hd 0 0xB100 4 (some 1) (b1 1) ∧ PinQuiet (pinned 0) 1 ∧ PinQuiet (pinned 1) 1 ∧
      after (.alarmClear hd 1 true) { mod := pinned 0 } (fun t => !(tget ({} : Pin) t.mod.ev.pins 1).asserted && replied t == some 0) = true ∧
      after (.alarmClear hd 1 true) { mod := pinned 1 } (fun t => (tget ({} : Pin) t.mod.ev.pins 1).asserted) = true ∧
      after (.alarmPulseEnd 1) { mod := pinned 1 } (fun t => !(tget ({} : Pin) t.mod.ev.pins 1).asserted && t.mod.sys.elapsed == 5000) = true := by
  unfold PinQuiet WriteClears Accepted Reaches Clears; repeat' apply And.intro
  all_goals decide +kernel

/-- A service identity in force, with a seal that waits for its signature. -/
def sealing : State :=
  { mod := { up with sys := { up.sys with unsaved := true },
                     ev := { seals := [{ num := 1, entry := 4, chain := zeros 32, pending := true }], sealsIssued := 1 },
                     tether := { up.tether with vault := { svcState := 2 } } } }

theorem wit_SealsAndConfigurationAreWritten :
    signing up = false ∧ up.ev.sinceSeal < 1024 ∧ up.sys.mains = true ∧ up.tether.onCell = false ∧ up.ev.sealRuntime + 60 < 2 ^ 32 ∧ signing sealing.mod = true ∧
      after .journalSeal on (fun t => t.mod.ev.sealsIssued == 1 && t.mod.tether.runtime == 60 && t.mod.tether.headNum == 1) = true ∧
      after .sealSigned sealing (fun t => !signing t.mod && t.mod.ev.seals.length == 1) = true ∧
      after .configSave sealing (fun t => t.flash.stored.isSome && !t.mod.sys.unsaved) = true := by
  decide +kernel

/-! ### Tamper sources, cell, supply -/

/-- Source 0 with a response of some rank in force by configuration, a session open. -/
def guarded0 (rank : Nat) : State := { mod := withObj (as 1) [(0x9010, 1, 0, rank)] }

/-- The tamper buffer full. -/
def fullBuffer : State :=
  { mod := { up with tether := { up.tether with buffer := List.replicate 16 { ev := mkRec up 0x9001 3 0 [], tseq := 1 } } } }

theorem wit_TamperAlarmsRecordAndRespond :
    on.mod.tether.qAlarm.testBit 0 = false ∧ responseOf (guarded0 4).mod 0 = 4 ∧ responseOf (guarded0 5).mod 0 = 5 ∧ 16 ≤ fullBuffer.mod.tether.buffer.length ∧
      after (.tamperAlarm 0 .both) (guarded0 4) (fun t => (source t.mod 0).alarm && t.mod.tether.vault == erasedVault && (sess t.mod 0).state == 0 &&
        t.mod.sys.zeroAt == some (1000 + 100 * msCycles, 2)) = true ∧
      after (.tamperAlarm 0 .both) (guarded0 5) (fun t => t.otp.retired && t.mod.sys.zeroAt == some (1000 + 100 * msCycles, 3)) = true ∧
      after (.tamperAlarm 0 .one) fullBuffer (fun t => t.mod.tether.overflow && t.mod.tether.lost == 1) = true ∧
      after (.tamperAlarmClear 0) { mod := { up with tether := { up.tether with qAlarm := 3 } } } (fun t => t.mod.tether.qAlarm == 2) = true ∧
      after (.monitorFault 5 .two) on (fun t => t.mod.tether.qFault == 32 && (source t.mod 9).alarm) = true ∧
      after (.zeroizePinFault true) on (fun t => t.mod.tether.qFault == 64 && (source t.mod 9).events == 1) = true ∧
      after (.monitorFaultClear 6) { mod := { up with tether := { up.tether with qFault := 64 } } } (fun t => !(source t.mod 9).alarm) = true := by
  decide +kernel

/-- The host loop on, with pulses missed and good. -/
def looped (missed good : Nat) : State :=
  { mod := { withObj up [(0x9000, 7, 0, 1)] with tether := { up.tether with loopMissed := missed, loopGood := good } } }

theorem wit_PinsAndHostLoopAct :
    4 ≤ responseOf (as 1) 7 ∧ infB (looped 0 0).mod 0x9000 7 0 = true ∧ on.mod.tether.quiescePin = false ∧
      after .zeroizePins { mod := as 1 } (fun t => (source t.mod 7).events == 1 && (sess t.mod 0).state == 0) = true ∧
      after .quiesceNAssert on (fun t => (source t.mod 8).alarm && (source t.mod 8).inForce == 3) = true ∧
      after .quiesceNRelease { mod := setSource up 8 { alarm := true, inForce := 3 } } (fun t => !(source t.mod 8).alarm && (source t.mod 8).inForce == 0) = true ∧
      after (.hostloopPulse true) (looped 1 99) (fun t => t.mod.tether.loopGood == 100) = true ∧
      after (.hostloopPulse false) (looped 1 0) (fun t => (source t.mod 6).alarm) = true ∧
      after (.hostloopPulse false) (looped 0 50) (fun t => t.mod.tether.loopMissed == 1 && !(source t.mod 6).alarm) = true := by
  decide +kernel

/-- A system group changed, and a tether. -/
def withSys (f : Sys → Sys) : State := { mod := { up with sys := f up.sys } }
def withTether (f : Tether → Tether) : State := { mod := { as 1 with tether := f up.tether } }

theorem wit_RestartsAndStartUpRun :
    (bootSlot on).isSome = true ∧ (Instr.mainsInRange 5 []).wf = true ∧ (Instr.keelLockLost { failStep := 2, fails := 2 }).wf = true ∧ State.reset.mod.sys.running = false ∧ State.reset.mod.sys.mains = false ∧
      (bootSlot State.reset).isSome = true ∧
      after (.keelLockLost {}) { mod := as 1 } (fun t => t.mod.sys.cause == 4 && t.mod.sys.step == 7 && (sess t.mod 0).state == 0) = true ∧
      after (.commandedRestartBegin {}) (withSys fun x => { x with restartAt := some 1000 }) (fun t => t.mod.sys.cause == 5 && t.mod.sys.restartAt == none) = true ∧
      after (.zeroizeRestart {}) (withSys fun x => { x with zeroAt := some (1000, 2) }) (fun t => t.mod.sys.cause == 2 && t.mod.sys.zeroAt == none) = true ∧
      after (.mainsInRange 0 []) State.reset (fun t => t.mod.sys.running && t.mod.sys.step == 7) = true ∧
      after .ready (withSys fun x => { x with state := 0, step := 7 }) (fun t => t.mod.sys.state == 1 && t.mod.sys.step == 8) = true := by
  decide +kernel

theorem wit_RestartsAndStartUpRun_failing :
    after (.keelLockLost { failStep := 2, fails := 2 }) { mod := as 1 } (fun t => t.mod.sys.cause == 6 && t.mod.sys.step == 7 && t.mod.sys.attempt == 2) = true ∧
      after (.keelLockLost { failStep := 3 }) { mod := as 1 } (fun t => t.mod.sys.state == 2 && t.mod.sys.stopStep == 3) = true ∧
      after (.mainsInRange 5 []) State.reset (fun t => t.mod.sys.state == 2 && t.mod.sys.stopStep == 5) = true ∧
      after (.mainsInRange 4 [] 1) State.reset (fun t => t.mod.sys.state == 2 && t.mod.sys.stopStep == 4) = true := by
  decide +kernel

/-- Fuses burned so far, with an entry not yet burned. -/
def burned (n : Nat) : State :=
  { otp := { mirror0 := n, mirror1 := n }, mod := { up with tether := { up.tether with buffer := [{ ev := mkRec up 0x9001 3 0 [], tseq := 1 }] } } }

theorem wit_TamperBitsAndCellAreKept :
    (burned 4096).mod.tether.buffer.any (·.unburned) = true ∧ tamperCount (burned 4095).otp ≠ 4096 ∧ up.tether.cellPresent = true ∧
      WriteClears (as 1) hd 0 0x9030 1 none (b1 10) ∧
      after .tamperBitBurn (burned 4095) (fun t => t.otp.mirror0 == 4096) = true ∧
      after .tamperBitBurn (burned 4096) (fun t => t.otp.mirror0 == 4096 && t.mod.sys.pastSaturation == 1) = true ∧
      after .cellRemove on (fun t => !t.mod.tether.cellPresent && (source t.mod 5).alarm) = true ∧
      after .cellRemove (withTether fun x => { x with swapEnd := some 5000 }) (fun t => !(source t.mod 5).alarm && (source t.mod 5).events == 1) = true ∧
      after .cellRemove State.reset (fun t => t.mod.tether.vault.canary == .lost) = true ∧
      after .cellInsert (withTether fun x => { x with cellPresent := false }) (fun t => t.mod.tether.cellPresent && t.mod.tether.swapSwapped) = true ∧
      after (.cellSwapWindowWrite hd 10) { mod := as 1 } (fun t => t.mod.tether.swapEnd == some (1000 + 600 * secCycles)) = true ∧
      after (.cellSwapWindowWrite hd 0) (withTether fun x => { x with swapEnd := some 5000 }) (fun t => t.mod.tether.swapEnd == none && replied t == some 0) = true ∧
      after (.cellSwapWindowClose 2901) (withTether fun x => { x with swapEnd := some 5000, swapSwapped := true }) (fun t => t.mod.tether.swapEnd == none) = true ∧
      after .cellSwapWindowExpire (withTether fun x => { x with swapEnd := some 5000, cellPresent := false }) (fun t => (source t.mod 5).alarm && t.mod.sys.elapsed == 5000) = true ∧
      after .lossOfAllPower State.reset (fun t => t.mod.tether.vault.canary == .lost && !t.mod.tether.cellPresent) = true := by
  unfold WriteClears Accepted Reaches Clears; repeat' apply And.intro
  all_goals decide +kernel

/-- Source 3 with Throttle in force, in alarm or not; a retire confirmation held since 900. -/
def throttled3 (alarm : Bool) : Mod := setSource (as 1) 3 { alarm, inForce := 2 }
def retiring (cred : Nat) : State := { mod := { as 1 with mgmt := { (as 1).mgmt with retireBy := some (cred, 900) } } }

/-- The same, once its 300 s are over. -/
def retiringLate : State := { mod := { (retiring 4).mod with sys := { up.sys with elapsed := 901 + 300 * secCycles } } }

theorem wit_ResponsesAndRetireConfirmations :
    WriteClears (throttled3 false) hd 0 0x9010 6 (some 3) (b1 1) ∧ WriteClears (retiring 4).mod hd 0 0x9040 1 none (zeros 12) ∧ 900 + 300 * secCycles < retiringLate.mod.sys.elapsed ∧
      WriteClears retiringLate.mod hd 0 0x9040 1 none (zeros 12) ∧
      after (.responseRelease hd 3 true) { mod := throttled3 false } (fun t => (source t.mod 3).inForce == 0 && replied t == some 0) = true ∧
      after (.responseRelease hd 3 true) { mod := throttled3 true } (fun t => (source t.mod 3).inForce == 2 && replied t == some 0x3003) = true ∧
      after (.responseRelease hd 8 true) { mod := as 1 } (fun t => replied t == some 0x4002) = true ∧
      after (.retireConfirmation hd (List.replicate 12 1)) { mod := as 1 } (fun t => t.mod.mgmt.retireBy == none && replied t == some 0x2001) = true ∧
      after (.retireConfirmation hd (zeros 12)) { mod := as 1 } (fun t => t.mod.mgmt.retireBy == some (0, 1000) && replied t == some 0) = true ∧
      after (.retireConfirmation hd (zeros 12)) (retiring 0) (fun t => !t.otp.retired && replied t == some 0x1005) = true ∧
      after (.retireConfirmation hd (zeros 12)) (retiring 4) (fun t => t.otp.retired && (sess t.mod 0).state == 0) = true ∧
      after (.retireConfirmation hd (zeros 12)) retiringLate (fun t => !t.otp.retired && t.mod.mgmt.retireBy == some (0, 901 + 300 * secCycles)) = true ∧
      after .retireConfirmationExpire (retiring 4) (fun t => t.mod.mgmt.retireBy == none && t.mod.sys.elapsed == 900 + 300 * secCycles) = true := by
  unfold WriteClears Accepted Reaches Clears; repeat' apply And.intro
  all_goals decide +kernel

/-- Mains absent since 900. -/
def absent : State := withSys fun x => { x with mainsLostAt := some 900 }

theorem wit_MainsLossIsRidden :
    on.mod.sys.mains = true ∧ on.mod.sys.mainsLostAt = none ∧ absent.mod.sys.mainsLostAt = some 900 ∧ absent.mod.sys.warned = false ∧
      after .mainsLost on (fun t => t.mod.sys.mainsLostAt == some 1000) = true ∧
      after .mainsEarlyWarning absent (fun t => t.mod.sys.warned && t.flash.stored.isSome && t.mod.ev.sealsIssued == 1) = true ∧
      after .mainsReturn absent (fun t => t.mod.sys.mainsLostAt == none && t.mod.sys.rides == 1) = true ∧
      after .bulkThreshold absent (fun t => !t.mod.sys.running && t.mod.tether.onCell && t.mod.tether.vault.canary == .valid) = true ∧
      after .bulkThreshold { mod := { absent.mod with tether := { absent.mod.tether with cellPresent := false } } } (fun t => t.mod.tether.vault.canary == .lost) = true := by
  decide +kernel

theorem wit_ReferencesAndPilotsAreFollowed :
    refChosen (withObj up [(0x7100, 1, 0, 3)]) 2 = true ∧ inf (withObj up [(0x7100, 1, 0, 3)]) 0x7100 1 0 = 3 ∧ up.fw.activating = none ∧
      after (.referenceLock 2) { mod := withObj up [(0x7100, 1, 0, 3)] } (fun t => t.mod.sys.refInForce == 2 && t.mod.sys.refState == 2) = true ∧
      after .referenceLost (withSys fun x => { x with refInForce := 2, refState := 2 }) (fun t => t.mod.sys.refState == 3 && t.mod.sys.refLosses == 1) = true ∧
      after (.referenceChange 1) { mod := withObj (withSys fun x => { x with refInForce := 2 }).mod [(0x7100, 1, 0, 3)] } (fun t => t.mod.sys.refInForce == 1 && t.mod.sys.refState == 1) = true ∧
      after (.pilotWatchdog 0) { mod := { up with time := { state := 1 } } } (fun t => !pilotUp t.mod 0 && pilotUp t.mod 1 && t.mod.time.state == 2) = true ∧
      after (.pilotRestarted 0) { mod := { as 1 with sys := { up.sys with pilot0 := false } } } (fun t => pilotUp t.mod 0 && (sess t.mod 0).state == 0) = true := by
  decide +kernel

/-! ### Stowage and berths -/

/-- Harbour 0's port in a state with region 0 of a kind and rights, quiesced or not, and so many restarts used. -/
def stowed (st kind rights restarts : Nat) (quiesced : List Nat) : Mod :=
  setStow (withObj (as 1) [(0x8010, 1, 0, kind), (0x8010, 4, 0, 1), (0x8010, 7, 0, 1), (0x8010, 6, 0, rights)]) 0
    { st, restarts, quiesced, lines := [(5, List.replicate 64 7)], key := zeros 32 }

theorem wit_StowageLinksTrainFailAndReturn :
    (stow up 0).st < 2 ∧ regionOn (stowed 2 1 3 0 []) 0 0 = true ∧ WriteClears (stowed 2 1 3 0 [0]) hd 0 0x8010 0x0A (some 0) (b1 1) ∧
      WriteClears (stowed 2 1 3 255 [0]) hd 0 0x8010 0x0A (some 0) (b1 1) ∧
      after (.cxlLinkReady 0 8 64 524288 2 true) on (fun t => (stow t.mod 0).st == 2 && (stow t.mod 0).key.length == 32) = true ∧
      after (.cxlLinkReady 0 8 64 524289 2 true) on (fun t => (stow t.mod 0).st == 3) = true ∧
      WriteClears (stowed 2 1 3 0 []) hd 0 0x8010 0x0A (some 0) (b1 1) ∧ losses (stow (stowed 2 1 3 0 []) 0) = [] ∧
      after (.regionRelease hd 0 true) { mod := stowed 2 1 3 0 [] } (fun t => stow t.mod 0 == stow (stowed 2 1 3 0 []) 0 && replied t == some 0) = true ∧
      after (.cxlLinkDown 0) { mod := stowed 2 3 3 0 [] } (fun t => (stow t.mod 0).st == 4 && (stow t.mod 0).lines == []) = true ∧
      after (.cxlLinkReturn 0) { mod := stowed 4 3 3 254 [] } (fun t => (stow t.mod 0).st == 2 && (stow t.mod 0).restarts == 255) = true ∧
      after (.cxlLinkReturn 0) { mod := stowed 4 3 3 255 [] } (fun t => (stow t.mod 0).st == 4 && (stow t.mod 0).lines.length == 1) = true ∧
      after (.regionRelease hd 0 true) { mod := stowed 2 1 3 0 [0] } (fun t => (stow t.mod 0).quiesced == [] && (stow t.mod 0).restarts == 1) = true ∧
      after (.regionRelease hd 0 true) { mod := stowed 2 1 3 255 [0] } (fun t => (stow t.mod 0).quiesced == [0] && replied t == some 0x3001) = true := by
  unfold WriteClears Accepted Reaches Clears; repeat' apply And.intro
  all_goals decide +kernel

theorem wit_RegionsReleaseAndLinesAreAccessed :
    regionOf (stowed 2 1 3 0 []) 0 16383 = some 0 ∧ regionOf (stowed 2 1 3 0 []) 0 16384 = none ∧ guarded (stowed 2 1 3 0 []) 0 0 0 = false ∧
      rightsOf (stowed 2 1 3 0 []) 0 0 0 = 3 ∧ rightsOf (stowed 2 1 3 0 []) 0 0 1 = 0 ∧ lostAt (stowed 2 1 3 0 []) 0 5 = none ∧ lossesAt (stowed 2 1 3 0 []) 0 6 = [] ∧
      after (.stowageAccess 0 0 16384 .read .ok) { mod := stowed 2 1 3 0 [] } (fun t => inf t.mod 0x8000 0x0B 0 == 1) = true ∧
      after (.stowageAccess 0 1 5 .read .ok) { mod := stowed 2 1 3 0 [] } (fun t => inf t.mod 0x8000 0x0B 0 == 1) = true ∧
      after (.stowageAccess 0 0 6 (.write (List.replicate 64 1)) .ok) { mod := stowed 2 1 3 0 [] } (fun t => (stow t.mod 0).lines.length == 2) = true ∧
      after (.stowageAccess 0 0 5 (.partialWrite 63 [9]) .ok) { mod := stowed 2 1 3 0 [] } (fun t => tfind (stow t.mod 0).lines 5 == some (List.replicate 63 7 ++ [9])) = true ∧
      after (.stowageAccess 0 0 5 .read .ok) { mod := stowed 2 1 1 0 [] } (fun t => t.mod.out == [.stowageAnswer 0 0 (some (List.replicate 64 7))] && inf t.mod 0x8000 0x0B 0 == 0) = true := by
  decide +kernel

/-- Berth 4 with a reset due, or one that runs and releases or keeps. -/
def dueReset (mode : Nat) : Mod := setKek (setBerth (as 1) 4 { due := some (mode, 2000, 0), gen := 255 }) 4 { kek := zeros 32 }
def resetting (releasing : Bool) : Mod := setBerth (withObj (as 1) [(0x6000, 2, 3, 4), (0x4000, 3, 5, 4)]) 4 { resetting := true, releasing, gen := 1 }

theorem wit_BerthResetsRunToCompletion :
    WriteClears (as 1) hd 0 0xA000 6 (some 4) (b1 1) ∧ WriteClears (as 1) hd 0 0xA000 6 (some 0) (b1 2) ∧ oldItems (resetting true) 4 = false ∧
      oldItems (resetting false) 4 = false ∧ inf (resetting true) 0x6000 2 3 = 4 ∧
      after (.berthResetKeep hd 4) { mod := as 1 } (fun t => (berth t.mod 4).due.isSome && replied t == some 0) = true ∧
      after (.berthResetRelease hd 0) { mod := as 1 } (fun t => (berth t.mod 0).due == none && replied t == some 0x2001) = true ∧
      after (.berthResetKeep hd 4) { mod := dueReset 2 } (fun t => replied t == some 0x3002) = true ∧
      after (.berthResetEdge 4) { mod := dueReset 2 } (fun t => (berth t.mod 4).gen == 0 && (berth t.mod 4).releasing && (kek t.mod 4).kek == []) = true ∧
      after (.berthResetComplete 4) { mod := resetting false } (fun t => !(berth t.mod 4).resetting && inf t.mod 0x6000 2 3 == 4) = true ∧
      after (.berthReleaseComplete 4) { mod := resetting true } (fun t => !(berth t.mod 4).resetting && inf t.mod 0x6000 2 3 == 0 && inf t.mod 0x4000 3 5 == 0) = true := by
  unfold WriteClears Accepted Reaches Clears; repeat' apply And.intro
  all_goals decide +kernel

/-! ### Firmware and identity -/

/-- Firmware state, with or without a staging region in harbour 0. -/
def staging (region : Bool) (fw : Fw) : State := { mod := { (if region then stowed 2 4 3 0 [] else as 1) with fw } }

theorem wit_FirmwareIsStagedVerifiedAndInstalled :
    stagingRegion (staging true {}).mod = some 0 ∧ stagingRegion (staging false {}).mod = none ∧ WriteClears (staging true {}).mod hd 0 0xF020 1 (some 4097) (zeros 8192) ∧
      WriteClears (staging true {}).mod hd 0 0xF010 2 none (b1 1) ∧ WriteClears (staging true {}).mod hd 0 0xF010 5 none (b1 1) ∧
      imageCause (staging true {}) (stagedImage {}) 0 = 1 ∧ regionOfKind (staging true {}).mod 0 4 = some 0 ∧ (stow (staging true {}).mod 0).st = 2 ∧
      denied (staging true {}).mod 0 0 0 3 = false ∧ losses (stow (staging true {}).mod 0) = [] ∧ denied (stowed 2 4 1 0 []) 0 0 0 3 = true ∧
      after (.firmwareChunkWrite hd 0 (zeros 8192)) { mod := stowed 2 4 1 0 [] } (fun t => t.mod.fw.staging == 0 && replied t == some 0x4002) = true ∧
      after (.firmwareChunkWrite hd 4097 (zeros 8192)) (staging true {}) (fun t => t.mod.fw.staging == 1 && (tget [] t.mod.fw.chunks 4097).length == 8192) = true ∧
      after (.firmwareChunkWrite hd 0 (zeros 8192)) (staging false {}) (fun t => replied t == some 0x4002) = true ∧
      after (.firmwareChunkWrite hd 0 (zeros 8192)) (staging true { installing := true }) (fun t => replied t == some 0x3002) = true ∧
      after (.firmwareVerify hd true) (staging true {}) (fun t => t.mod.fw.staging == 3 && t.mod.fw.cause == 1 && replied t == some 0x2001) = true ∧
      after (.firmwareInstall hd true) (staging true { staging := 2 }) (fun t => t.mod.fw.installing && t.flash.slotB.state == 1) = true ∧
      after (.firmwareInstall hd true) (staging true { staging := 3 }) (fun t => replied t == some 0x4002) = true ∧
      after .firmwareInstallComplete (staging true { installing := true, installInvalid := true }) (fun t => t.flash.slotB.state == 3 && !t.mod.fw.installing) = true := by
  unfold WriteClears Accepted Reaches Clears; repeat' apply And.intro
  all_goals decide +kernel

theorem wit_ActivationRunsOrFallsBack :
    slotState on 0 = 2 ∧ slotState on 1 ≠ 2 ∧ WriteClears (as 1) hd 0 0xF010 6 none (b1 1) ∧ WriteClears (as 1) hd 0 0xF010 7 none (b1 1) ∧
      signing (staging false { activating := some (0, 1) }).mod = false ∧ bootSlot (staging false { activating := some (0, 2) }) = some 0 ∧
      after (.firmwareActivate hd 0) { mod := as 1 } (fun t => t.mod.fw.activating == some (0, 1) && (sess t.mod 0).state == 0) = true ∧
      after (.firmwareActivate hd 1) { mod := as 1 } (fun t => replied t == some 0x3003) = true ∧
      after (.firmwareActivate hd 0) (staging false { installing := true }) (fun t => replied t == some 0x3002) = true ∧
      after .pilotsStopForActivation (staging false { activating := some (0, 1) }) (fun t => !t.mod.sys.pilot0 && t.mod.fw.activating == some (0, 2)) = true ∧
      after .firmwareRunning (staging false { activating := some (0, 2) }) (fun t => t.mod.sys.pilot0 && t.mod.fw.activating == none) = true ∧
      after .firmwareStartTimeout (staging false { activating := some (0, 2), stoppedAt := 900 }) (fun t => t.mod.fw.running == 1 && t.flash.slotA.state == 3) = true ∧
      after (.firmwareConfirm hd true) { mod := as 1, flash := { slotA := { header := zeros 15 ++ [9] ++ zeros 37 ++ [6] } } }
        (fun t => t.otp.rollback == 9 && t.otp.revoked == 6) = true := by
  unfold WriteClears Accepted Reaches Clears; repeat' apply And.intro
  all_goals decide +kernel

/-- A service identity in some state, and an operator anchor. -/
def serving0 (svc : Nat) (anchor : Octets) : State :=
  { mod := { as 1 with tether := { up.tether with vault := { svcState := svc } } }, flash := { anchor, coRequired := anchor != zeros 32 } }

theorem wit_IdentitiesReportsAndRestartsAreMade :
    WriteClears (as 1) hd 0 0xF200 1 none (b1 1) ∧ WriteClears (as 1) hd 0 0xF200 0x0A none (b1 1) ∧ WriteClears (as 1) hd 0 0xF200 0x0B none (b1 1) ∧
      WriteClears (as 1) hd 0 0xF300 1 none (zeros 32) ∧ WriteClears (as 1) hd 0 0x9050 3 none (b1 1) ∧ ReadClears { mod := as 1 } hd 0 { idx := 0xF100, sub := 2 } ∧
      sub ({} : Fw).certBody 4 12 = on.otp.serial ∧
      after (.serviceIdentityGenerate hd true) { mod := as 1 } (fun t => t.mod.tether.vault.svcState == 1 && replied t == some 0) = true ∧
      after (.serviceIdentityGenerate hd true) (serving0 1 []) (fun t => replied t == some 0x3003) = true ∧
      after (.certificateInstall hd true) (serving0 2 (zeros 32)) (fun t => replied t == some 0x4002) = true ∧
      after (.serviceIdentityErase hd true) (serving0 2 []) (fun t => t.mod.tether.vault.svcState == 0 && replied t == some 0) = true ∧
      after (.operatorAnchorWrite hd (List.replicate 32 1)) (serving0 0 (zeros 32)) (fun t => t.flash.anchor == List.replicate 32 1) = true ∧
      after (.operatorAnchorWrite hd (zeros 32)) (serving0 0 (List.replicate 32 1)) (fun t => t.flash.anchor == List.replicate 32 1 && replied t == some 0x3003) = true ∧
      after (.attestationReportRead hd) { mod := as 1 } (fun t => t.mod.mgmt.reports == 1 && replied t == some 0) = true ∧
      after (.moduleRestart hd true) { mod := as 1 } (fun t => t.mod.sys.restartAt == some (1000 + 100 * msCycles)) = true ∧
      after (.moduleRestart hd true) (staging false { installing := true }) (fun t => t.mod.sys.restartAt == none && replied t == some 0x3002) = true := by
  unfold WriteClears ReadClears Accepted Reaches Clears; repeat' apply And.intro
  all_goals decide +kernel

/-! ### What commands leave alone -/

/-- For every statement of this section a command of each family that completes and a part it leaves alone. -/
theorem wit_CommandsLeaveTheRest :
    (family (.close hd) = .session ∧ may (.close hd) .otp = false ∧ after (.close hd) { mod := as 1 } (fun t => t.otp == State.reset.otp) = true) ∧
      (family (.kekErase hd 3 true) = .request ∧ may (.kekErase hd 3 true) (.kek 4) = false ∧
        after (.kekErase hd 3 true) { mod := dueReset 1 } (fun t => kek t.mod 4 == kek (dueReset 1) 4) = true) ∧
      (family (.holdExpire 0) = .frame ∧ family .dieLinkUp = .time ∧ may .dieLinkUp .clock = false ∧ may (.losDeclare 3) .clock = false ∧ family (.losDeclare 3) = .line) ∧
      (family (.maskReseed 0 true) = .cipher ∧ may (.maskReseed 0 true) .mgmt = false ∧ after (.maskReseed 0 true) on (fun t => t.mod.mgmt == up.mgmt) = true) ∧
      (family .configSave = .module ∧ family .mainsLost = .tamper ∧ may .mainsLost .tether = false ∧ family (.queueDrained 3) = .queue) := by
  decide +kernel

/-! ### Well-formedness -/

/-- A command stops as malformed. -/
def malformed (c : Instr) : Bool :=
  match exec c on with
  | .fault (.malformed _) => true
  | _ => false

/-- One ill-formed command for each check on a message or its operands. -/
def illRequests : List Instr :=
  [.close { hd with src := 2 ^ 48 }, .close { hd with version := 256 }, .close { hd with session := 2 ^ 32 }, .close { hd with sequence := 2 ^ 64 },
   .close { hd with bpid := 2 ^ 20 }, .close { hd with relay := 256 }, .open_ hd 256 0 0 (zeros 32) 1 (zeros 32), .open_ hd 1 256 0 (zeros 32) 1 (zeros 32),
   .open_ hd 1 0 65536 (zeros 32) 1 (zeros 32), .open_ hd 1 0 0 (zeros 31) 1 (zeros 32), .open_ hd 1 0 0 (zeros 32) 0 (zeros 32),
   .open_ hd 1 0 0 (zeros 32) (2 ^ 32) (zeros 32), .open_ hd 1 0 0 (zeros 32) 1 (zeros 33), .read hd [{ idx := 65536, sub := 0 }], .read hd [{ idx := 0, sub := 256 }],
   .read hd [{ idx := 0, sub := 0, elem := 2 ^ 32 }], .write hd [⟨{ idx := 0, sub := 0 }, 256, []⟩], .readElements hd { idx := 0, sub := 0 } (2 ^ 32),
   .writeElements hd { idx := 0, sub := 0 } 65536 [], .subscribe hd [(65536, 0)], .relayMessage hd (zeros 31), .sessionTerminate hd (2 ^ 32) true,
   .keyWrite hd (2 ^ 32) [], .kekShareWrite hd (2 ^ 32) false [], .lpmInsert hd (2 ^ 32) [], .lpmQuery hd (2 ^ 32) [], .relayMessage hd (zeros 9217),
   .timeSlewWrite hd (2 ^ 31), .timeStepWrite hd (-(2 ^ 63) - 1), .timeSetWrite hd ⟨2 ^ 48, 0⟩, .timeSetWrite hd ⟨0, 2 ^ 32⟩, .windowWrite hd 0 (2 ^ 29) 0,
   .firmwareChunkWrite hd (2 ^ 32) []]

/-- One for each check on an event of the lines and the module. -/
def illEvents : List Instr :=
  [.relayReturn 8 (2 ^ 32) (zeros 32), .relayReturn 8 7 (zeros 31), .mgmtPortFrame 0 (2 ^ 48) .arp,
   .frameModeReceive 8 { lineFrame 1 true with tag := some { tag5 1 with an := 4 } }, .frameModeReceive 8 { lineFrame 1 true with tag := some { tag5 1 with sl := 64 } },
   .frameModeReceive 8 { lineFrame 1 true with tag := some { tag5 1 with pn := 2 ^ 32 } }, .frameModeReceive 8 { lineFrame 1 true with tag := some { tag5 1 with sci := [] } },
   .gelixFrameReceive 8 (gelixFrame 256 1), .gelixFrameReceive 8 (gelixFrame 0 (2 ^ 48)), .gelixFrameReceive 8 { gelixFrame 0 1 with rsv := [] },
   .fawFound 8 0 256, .expectedFawCheck 8 49 0, .laneLock 32 256, .faultSignalReceived 0 3, .pipelineFault 0 true (.pipeline 0) 0 true (2 ^ 128) 0 0, .pipelineFault 0 true (.pipeline 0) 0 true 0 (2 ^ 128) 0,
   .pipelineFault 0 true (.pipeline 0) 0 true 0 0 (2 ^ 128),
   .pipelineFault 0 true (.ghashPair 0) 0 true 1 0 0, .knownAnswerTest 0 true (.ghashPair 0) 0 true 1, .ghashMismatch 0 true 3 (2 ^ 128) 0,
   .ptpMessageReceive 0 256 .delayReq, .stowageAccess 0 0 0 (.write (zeros 63)) .ok, .stowageAccess 0 0 0 (.partialWrite 63 (zeros 2)) .ok,
   .stowageAccess 0 0 0 (.partialWrite 0 []) .ok, .cellSwapWindowClose 65536, .mainsInRange 1 [],
   .mainsInRange 6 [], .keelLockLost { fails := 4 }, .zeroizeRestart { failStep := 5, fails := 0 }, .referenceLock 3, .referenceChange 0]

/-- A value of more bytes than the 16-bit length of its record can say is carried by no command (R774). -/
theorem test_long_values_are_ill_formed (b : Octets) (hb : 65536 ≤ b.length) :
    (Instr.keyWrite hd 0 b).wf = false ∧ (Instr.firmwareChunkWrite hd 0 b).wf = false ∧ (Instr.retireConfirmation hd b).wf = false := by
  have h : fitsU 16 b.length = false := by simp [fitsU]; omega
  simp [Instr.wf, h]

theorem test_ill_formed_commands_are_refused :
    illRequests.all (fun c => !c.wf && malformed c) = true ∧ illEvents.all (fun c => !c.wf && malformed c) = true := by
  decide +kernel

/-- FIPS 180-4's one-block example. -/
theorem test_sha256_abc :
    natOf (sha256 (ascii "abc")) = 0xba7816bf8f01cfea414140de5dae2223b00361a396177a9cb410ff61f20015ad := by
  decide +kernel

end Sys2Proof.Tests
end

