-- ==== Sys2Proof/Proofs/IdleCycle.lean ====
section
/-! PROOFS. A cycle with no command (R31, log 1): what sending the queued events of the sessions (R789) leaves as it was. -/

namespace Sys2Proof.Machine

/-! ### Sending the queued events of a slot -/

/-- A slot is left as it was, or its queued events are sent: beside what `send` changes, the event state and the session's count of messages
sent change (R764, R789). -/
theorem notifySlot_form (m : Mod) (slot : Nat) :
    notifySlot m slot = m ∨
      ∃ (msgs : List Msg) (ev : Ev) (sent : Nat),
        notifySlot m slot = setSess { msgs.foldl send m with ev := ev } slot { sess m slot with sent := sent } := by
  unfold notifySlot
  dsimp only
  split
  · exact .inl rfl
  · exact .inr ⟨_, _, _, rfl⟩

@[simp] theorem notifySlot_sys (m : Mod) (slot : Nat) : (notifySlot m slot).sys = m.sys := by
  obtain h | ⟨msgs, ev, sent, h⟩ := notifySlot_form m slot
  · rw [h]
  · rw [h, setSess_sys, sends_sys]

@[simp] theorem notifySlot_assocs (m : Mod) (slot : Nat) : (notifySlot m slot).assocs = m.assocs := by
  obtain h | ⟨msgs, ev, sent, h⟩ := notifySlot_form m slot
  · rw [h]
  · rw [h, setSess_assocs, sends_assocs]

@[simp] theorem notifySlot_queues (m : Mod) (slot : Nat) : (notifySlot m slot).queues = m.queues := by
  obtain h | ⟨msgs, ev, sent, h⟩ := notifySlot_form m slot
  · rw [h]
  · rw [h, setSess_queues, sends_queues]

/-- The slot's own session changes in its count of messages sent only, the others not at all. -/
@[simp] theorem notifySlot_sess_state (m : Mod) (slot i : Nat) : (sess (notifySlot m slot) i).state = (sess m i).state := by
  obtain h | ⟨msgs, ev, sent, h⟩ := notifySlot_form m slot
  · rw [h]
  · have others : sess { msgs.foldl send m with ev := ev } i = sess m i := congrFun (sess_sends msgs m) i
    by_cases hi : i = slot
    · rw [h, hi, sess_setSess_same]
    · rw [h, sess_setSess_ne _ _ hi, others]

/-! ### The cycle -/

theorem step_of_pending_nil (s : State) (h : s.pending = []) : step s = .next (idle s) := by
  simp only [step, h]

theorem idle_eq (s : State) : idle s = s.upd ((List.range 32).foldl notifySlot (advance s.mod 1)) := rfl

/-- What no notification changes is, after the cycle, what `advance` makes of it. -/
theorem idle_keeps {γ : Type} (f : Mod → γ) (h : ∀ m slot, f (notifySlot m slot) = f m) (s : State) :
    f (idle s).mod = f (advance s.mod 1) := by
  rw [idle_eq, State.upd_mod, foldl_keeps f notifySlot h]

@[simp] theorem idle_elapsed (s : State) : (idle s).mod.sys.elapsed = s.mod.sys.elapsed + 1 := by
  rw [idle_keeps Mod.sys notifySlot_sys, advance_elapsed]

@[simp] theorem idle_assocs (s : State) : (idle s).mod.assocs = s.mod.assocs := by
  rw [idle_keeps Mod.assocs notifySlot_assocs, advance_assocs]

@[simp] theorem idle_queues (s : State) : (idle s).mod.queues = s.mod.queues := by
  rw [idle_keeps Mod.queues notifySlot_queues, advance_queues]

@[simp] theorem idle_sess_state (s : State) (i : Nat) : (sess (idle s).mod i).state = (sess s.mod i).state := by
  rw [idle_keeps (fun m => (sess m i).state) (fun m slot => notifySlot_sess_state m slot i), sess_advance]

@[simp] theorem idle_otp (s : State) : (idle s).otp = s.otp := by rw [idle_eq, State.upd_otp]
@[simp] theorem idle_flash (s : State) : (idle s).flash = s.flash := by rw [idle_eq, State.upd_flash]
@[simp] theorem idle_pending (s : State) : (idle s).pending = s.pending := by rw [idle_eq, State.upd_pending]

/-- Settles O2: on an empty queue the step is `idle`, which advances the clock by one cycle, then only sends queued events, and updates the
module alone. -/
theorem emptyQueuePassesOneCycle : Obligations.EmptyQueuePassesOneCycle := by
  intro s hs
  exact ⟨idle s, step_of_pending_nil s hs, idle_elapsed s, idle_otp s, idle_flash s, (idle_pending s).trans hs, idle_sess_state s,
    idle_assocs s, idle_queues s⟩

end Sys2Proof.Machine
end

