-- ==== Sys2Proof/Proofs/PortMoves.lean ====
section
/-! PROOFS. What the operations on ports (R60 to R87, R152 to R176) leave as it was: a port that comes up or goes down, its defects and what
follows them touch no lane, no receiver, no setting and no session; frames are discarded and counted, and only the port itself and the
clear ports that follow it change. -/

namespace Sys2Proof.Machine

/-! ### Counting, by index and subindex -/

theorem okey_ne {i s idx sub : Nat} (e elem : Nat) (hs : s < 256) (hsub : sub < 256) (h : ¬(i = idx ∧ s = sub)) :
    okey i s e ≠ okey idx sub elem := fun hk => h ⟨(okey_inj hs hsub hk).1, (okey_inj hs hsub hk).2.1⟩

/-- A count leaves every object of another index or subindex, whether or not the dictionary knows the counter. -/
theorem look_bump_other (m : Mod) {idx sub i s : Nat} (elem n e : Nat) (hs : s < 256) (hsub : sub < 256) (h : ¬(i = idx ∧ s = sub))
    (hd : (idx, sub) ∉ [(0x4000, 1), (0x4000, 2), (0x8010, 1), (0x8010, 5)]) :
    look (bump m idx sub elem n) [] i s e = look m [] i s e := by
  obtain ⟨v, ev, hb, -⟩ := bump_form m idx sub elem n
  rw [hb]
  exact look_setObj_ne m (.nat v) (okey_ne e elem hs hsub h) hd hsub

/-! ### Discards -/

theorem refillQueue_form (m : Mod) (q : Nat) : ∃ x, refillQueue m q = setQueue m q x := ⟨_, rfl⟩

theorem switchRates_form (m : Mod) (q : Nat) : ∃ queues, switchRates m q = { m with queues := queues } := by
  obtain ⟨x, h⟩ := refillQueue_form m q
  unfold switchRates
  dsimp only
  rw [h]
  exact ⟨_, rfl⟩

theorem applyLowering_form (m : Mod) (q : Nat) : ∃ queues ev, applyLowering m q = { m with queues := queues, ev := ev } := by
  unfold applyLowering
  dsimp only
  split
  · obtain ⟨queues, h⟩ := switchRates_form m q
    rw [h]
    exact ⟨_, _, rfl⟩
  · exact ⟨m.queues, m.ev, rfl⟩

/-- What a discard leaves of a queue settles with the queue and events alone (R459, R499). -/
theorem drained_form (m : Mod) (q : Nat) : ∃ queues ev, drained m q = { m with queues := queues, ev := ev } := by
  obtain ⟨queues, ev, h⟩ := applyLowering_form m q
  unfold drained
  rw [h]
  dsimp only
  split
  · exact ⟨_, _, rfl⟩
  · exact ⟨queues, ev, rfl⟩

theorem settles_form (l : List Nat) (m : Mod) : ∃ queues ev, l.foldl settle m = { m with queues := queues, ev := ev } := by
  induction l generalizing m with
  | nil => exact ⟨m.queues, m.ev, rfl⟩
  | cons q r ih =>
    obtain ⟨a, b, h⟩ := drained_form m q
    obtain ⟨c, d, k⟩ := ih (settle m q)
    exact ⟨c, d, by rw [List.foldl_cons, k, settle, h]⟩

/-- Discarded frames are counted in 0x6020 (R23). -/
theorem countDiscards_form (m : Mod) (sub : Nat) (ds : List Desc) : ∃ obj ev, countDiscards m sub ds = { m with obj := obj, ev := ev } := by
  unfold countDiscards
  induction ds generalizing m with
  | nil => exact ⟨m.obj, m.ev, rfl⟩
  | cons d r ih =>
    obtain ⟨v, ev, h, -⟩ := bump_form m 0x6020 sub d.queue 1
    obtain ⟨obj, ev', k⟩ := ih (bump m 0x6020 sub d.queue 1)
    exact ⟨obj, ev', by rw [List.foldl_cons, k, h]; rfl⟩

theorem look_countDiscards (m : Mod) (ds : List Desc) {sub i s : Nat} (e : Nat) (hs : s < 256) (hsub : sub < 256) (hi : i ≠ 0x6020) :
    look (countDiscards m sub ds) [] i s e = look m [] i s e :=
  foldl_keeps (look · [] i s e) (fun m (d : Desc) => bump m 0x6020 sub d.queue 1)
    (fun m d => look_bump_other m d.queue 1 e hs hsub (fun h => hi h.1) (by simp)) ds m

theorem discardFrames_form (m : Mod) (f : Desc → Bool) (cut : Bool) (sub : Nat) :
    ∃ tx queues arbs obj ev, (discardFrames m f cut sub).1 = { m with tx := tx, queues := queues, arbs := arbs, obj := obj, ev := ev } := by
  unfold discardFrames
  dsimp only
  generalize hm : ({ m with queues := _, arbs := _, tx := _ } : Mod) = m1
  obtain ⟨obj, ev, h⟩ := countDiscards_form m1 sub _
  obtain ⟨queues, ev', k⟩ := settles_form _ (countDiscards m1 sub _)
  rw [k, h]
  subst hm
  exact ⟨_, _, _, _, _, rfl⟩

/-- A discard changes no object but the counts of 0x6020. -/
theorem look_discardFrames (m : Mod) (f : Desc → Bool) (cut : Bool) {sub i s : Nat} (e : Nat) (hs : s < 256) (hsub : sub < 256)
    (hi : i ≠ 0x6020) : look (discardFrames m f cut sub).1 [] i s e = look m [] i s e := by
  unfold discardFrames
  dsimp only
  generalize hm : ({ m with queues := _, arbs := _, tx := _ } : Mod) = m1
  obtain ⟨queues, ev, k⟩ := settles_form _ (countDiscards m1 sub _)
  rw [k, ← show look m1 [] i s e = look m [] i s e from by subst hm; rfl, ← look_countDiscards m1 _ e hs hsub hi]
  rfl

/-! ### The settings of ports -/

/-- Two states agree on the settings of the ports, 0x3100:00 to :09. -/
def SameLayout (m n : Mod) : Prop := ∀ s e, s < 0x0A → inf n 0x3100 s e = inf m 0x3100 s e

namespace SameLayout

variable {m n : Mod}

theorem absorbed (h : SameLayout m n) (p : Nat) : absorbed n p = absorbed m p := by
  have hw : ∀ e, cfg n [] 0x3100 1 e = cfg m [] 0x3100 1 e := fun e => h 1 e (by decide)
  unfold Machine.absorbed absorbedIn
  simp only [hw]

theorem width (h : SameLayout m n) (p : Nat) : width n p = width m p := by
  have ha : absorbedIn n [] p = absorbedIn m [] p := h.absorbed p
  have hw : cfg n [] 0x3100 1 p = cfg m [] 0x3100 1 p := h 1 p (by decide)
  unfold Machine.width widthIn
  rw [ha, hw]

theorem portEnabled (h : SameLayout m n) (p : Nat) : portEnabled n p = portEnabled m p := by
  unfold Machine.portEnabled infB; rw [h.absorbed, h 3 p (by decide)]

theorem isGelix (h : SameLayout m n) (p : Nat) : isGelix n p = isGelix m p := by
  unfold Machine.isGelix portMode; rw [h.absorbed, h 2 p (by decide)]

theorem portLanes (h : SameLayout m n) (p : Nat) : portLanes n p = portLanes m p := by unfold Machine.portLanes; rw [h.width]

end SameLayout

/-! ### The frame of an operation on ports -/

/-- Objects that the operations on ports count: discarded frames (R23), downs of a port (R73), records and messages lost with the frame
(R116, R144). -/
def portCounter (idx sub : Nat) : Prop := idx = 0x6020 ∨ (idx = 0x3100 ∧ sub = 0x0B) ∨ (idx = 0x3200 ∧ (sub = 0x11 ∨ sub = 0x12))

/-- What an operation on ports leaves as it was. -/
structure PortMove (m n : Mod) : Prop where
  sys : n.sys = m.sys
  lane : ∀ l, lane n l = lane m l
  mgmt : n.mgmt = m.mgmt
  tether : n.tether = m.tether
  counted : n.counted = m.counted
  look : ∀ i s e, s < 256 → ¬portCounter i s → look n [] i s e = look m [] i s e

namespace PortMove

variable {m n k : Mod}

theorem refl (m : Mod) : PortMove m m := ⟨rfl, fun _ => rfl, rfl, rfl, rfl, fun _ _ _ _ _ => rfl⟩

theorem trans (h : PortMove m n) (h' : PortMove n k) : PortMove m k :=
  ⟨h'.sys.trans h.sys, fun l => (h'.lane l).trans (h.lane l), h'.mgmt.trans h.mgmt, h'.tether.trans h.tether, h'.counted.trans h.counted,
    fun i s e hs hi => (h'.look i s e hs hi).trans (h.look i s e hs hi)⟩

theorem foldl {α : Type} (g : Mod → α → Mod) (hg : ∀ m a, PortMove m (g m a)) (l : List α) (m : Mod) : PortMove m (l.foldl g m) := by
  induction l generalizing m with
  | nil => exact refl m
  | cons a r ih => exact (hg m a).trans (ih (g m a))

/-- An update of parts that no object and no lane lies in. -/
theorem of_eq (hsys : n.sys = m.sys) (hlanes : n.lanes = m.lanes) (hmgmt : n.mgmt = m.mgmt) (htether : n.tether = m.tether)
    (hcounted : n.counted = m.counted) (hobj : n.obj = m.obj) : PortMove m n :=
  ⟨hsys, fun l => by unfold Machine.lane; rw [hlanes], hmgmt, htether, hcounted, fun i s e _ _ => by unfold Machine.look store; rw [hobj, htether]⟩

theorem setPort (m : Mod) (p : Nat) (x : Port) : PortMove m (setPort m p x) := of_eq rfl rfl rfl rfl rfl rfl
theorem setRx (m : Mod) (p : Nat) (x : GelRx) : PortMove m (setRx m p x) := of_eq rfl rfl rfl rfl rfl rfl
theorem setPm (m : Mod) (p : Nat) (x : Pm) : PortMove m (setPm m p x) := of_eq rfl rfl rfl rfl rfl rfl
theorem emit (m : Mod) (o : Out) : PortMove m (emit m o) := of_eq rfl rfl rfl rfl rfl rfl
theorem raise (m : Mod) (code src bpid : Nat) (ps : Octets) : PortMove m (raise m code src bpid ps) := of_eq rfl rfl rfl rfl rfl rfl

theorem bump (m : Mod) {idx sub : Nat} (elem n : Nat) (h : portCounter idx sub) (hsub : sub < 256) : PortMove m (bump m idx sub elem n) := by
  refine ⟨bump_sys .., fun l => by unfold Machine.lane; rw [bump_lanes], bump_mgmt .., bump_tether .., bump_counted .., fun i s e hs hi => ?_⟩
  refine look_bump_other m elem n e hs hsub (fun he => hi (by rw [he.1, he.2]; exact h)) ?_
  unfold portCounter at h
  simp only [List.mem_cons, Prod.mk.injEq, List.not_mem_nil, or_false]
  omega

theorem discardPort (m : Mod) (p : Nat) : PortMove m (discardPort m p).1 := by
  have look : ∀ i s e, s < 256 → ¬portCounter i s → Machine.look (Machine.discardPort m p).1 [] i s e = Machine.look m [] i s e :=
    fun i s e hs hi => look_discardFrames m _ true e hs (by decide) (fun h => hi (.inl h))
  obtain ⟨_, _, _, _, _, h⟩ := discardFrames_form m (fun d => qPort m [] d.queue == p) true 3
  exact ⟨by rw [Machine.discardPort, h], fun l => by rw [Machine.discardPort, h]; rfl, by rw [Machine.discardPort, h], by rw [Machine.discardPort, h],
    by rw [Machine.discardPort, h], look⟩

/-! What stays readable of the configuration. -/

theorem inf (h : PortMove m n) {i s : Nat} (e : Nat) (hs : s < 256) (hi : ¬portCounter i s) : inf n i s e = inf m i s e :=
  congrArg Val.toNat (h.look i s e hs hi)

theorem layout (h : PortMove m n) : SameLayout m n := fun s e hs => h.inf e (by omega) (by unfold portCounter; omega)

theorem width (h : PortMove m n) (p : Nat) : width n p = width m p := h.layout.width p
theorem absorbed (h : PortMove m n) (p : Nat) : absorbed n p = absorbed m p := h.layout.absorbed p
theorem portEnabled (h : PortMove m n) (p : Nat) : portEnabled n p = portEnabled m p := h.layout.portEnabled p
theorem isGelix (h : PortMove m n) (p : Nat) : isGelix n p = isGelix m p := h.layout.isGelix p
theorem portLanes (h : PortMove m n) (p : Nat) : portLanes n p = portLanes m p := h.layout.portLanes p

end PortMove

/-! ### A port refreshed -/

/-- A port without what a refresh sets: whether it is up, its phase, the fault it sends, and since when its defects are declared. What is left
decides whether it can be up. -/
def Port.conds (x : Port) : Port := { x with up := false, phase := 0, wasUp := false, sends := 0, since := [] }

/-- A move that keeps the receivers and the conditions of a port. -/
structure Refreshed (p : Nat) (m n : Mod) : Prop extends PortMove m n where
  rx : n.rx = m.rx
  conds : (port n p).conds = (port m p).conds

namespace Refreshed

variable {p : Nat} {m n k : Mod}

theorem refl (p : Nat) (m : Mod) : Refreshed p m m := ⟨.refl m, rfl, rfl⟩

theorem trans (h : Refreshed p m n) (h' : Refreshed p n k) : Refreshed p m k :=
  ⟨h.toPortMove.trans h'.toPortMove, h'.rx.trans h.rx, h'.conds.trans h.conds⟩

theorem setPort {x : Port} (h : x.conds = (port m p).conds) : Refreshed p m (setPort m p x) :=
  ⟨.setPort m p x, rfl, by rw [port_setPort_same, h]⟩

theorem setPm (p : Nat) (m : Mod) (q : Nat) (x : Pm) : Refreshed p m (setPm m q x) := ⟨.setPm m q x, rfl, rfl⟩
theorem emit (p : Nat) (m : Mod) (o : Out) : Refreshed p m (emit m o) := ⟨.emit m o, rfl, rfl⟩
theorem raise (p : Nat) (m : Mod) (code src bpid : Nat) (ps : Octets) : Refreshed p m (raise m code src bpid ps) :=
  ⟨.raise m code src bpid ps, rfl, rfl⟩

theorem rxOf (h : Refreshed p m n) (q : Nat) : rxOf n q = rxOf m q := by unfold Machine.rxOf; rw [h.rx]

/-- What a refresh cannot set reads the same after it. -/
theorem field {γ : Type} (f : Port → γ) (hf : ∀ x : Port, f x.conds = f x) (h : Refreshed p m n) : f (port n p) = f (port m p) := by
  rw [← hf, h.conds, hf]

theorem loal (h : Refreshed p m n) : (port n p).loal = (port m p).loal := h.field Port.loal fun _ => rfl
theorem lof (h : Refreshed p m n) : (port n p).lof = (port m p).lof := h.field Port.lof fun _ => rfl
theorem lom (h : Refreshed p m n) : (port n p).lom = (port m p).lom := h.field Port.lom fun _ => rfl
theorem fault (h : Refreshed p m n) : (port n p).fault = (port m p).fault := h.field Port.fault fun _ => rfl
theorem fwd (h : Refreshed p m n) : (port n p).fwd = (port m p).fwd := h.field Port.fwd fun _ => rfl
theorem pcsLost (h : Refreshed p m n) : (port n p).pcsLost = (port m p).pcsLost := h.field Port.pcsLost fun _ => rfl
theorem aligned (h : Refreshed p m n) : (port n p).aligned = (port m p).aligned := h.field Port.aligned fun _ => rfl
theorem skew (h : Refreshed p m n) : (port n p).skew = (port m p).skew := h.field Port.skew fun _ => rfl
theorem deskew (h : Refreshed p m n) : (port n p).deskew = (port m p).deskew := h.field Port.deskew fun _ => rfl

/-- The raw defects of a port rest on its lanes, its width and its conditions. -/
theorem rawDefects (h : Refreshed p m n) : rawDefects n p = rawDefects m p := by
  have htim : (port n p).tim = (port m p).tim := h.field Port.tim fun _ => rfl
  have hauth : (port n p).auth = (port m p).auth := h.field Port.auth fun _ => rfl
  have hdeg : (port n p).deg = (port m p).deg := h.field Port.deg fun _ => rfl
  have hrdi : (port n p).feRdi = (port m p).feRdi := h.field Port.feRdi fun _ => rfl
  have hbits : ∀ f, laneBits n p f = laneBits m p f := fun f => by unfold laneBits; simp only [h.width, h.lane]
  unfold Machine.rawDefects
  simp only [hbits, hrdi, hdeg, hauth, htim, h.lom, h.lof, h.loal]

theorem canBeUp (h : Refreshed p m n) : canBeUp n p = canBeUp m p := by
  unfold Machine.canBeUp
  simp only [h.portEnabled, h.rawDefects, h.pcsLost, h.fault, h.fwd, h.aligned]

end Refreshed

/-! ### Down, up, phase, signal -/

@[simp] theorem discardPort_ports (m : Mod) (p : Nat) : (discardPort m p).1.ports = m.ports := by
  obtain ⟨_, _, _, _, _, h⟩ := discardFrames_form m (fun d => qPort m [] d.queue == p) true 3
  rw [discardPort, h]
@[simp] theorem discardPort_rx (m : Mod) (p : Nat) : (discardPort m p).1.rx = m.rx := by
  obtain ⟨_, _, _, _, _, h⟩ := discardFrames_form m (fun d => qPort m [] d.queue == p) true 3
  rw [discardPort, h]

theorem portDown_of_down {m : Mod} {p : Nat} (h : (port m p).up = false) (cause : Nat) : portDown m p cause = m := by
  simp [portDown, h]

/-- A port that goes down: the state with the port down, its count, its frames discarded, and two events (R73, R76). -/
theorem portDown_of_up {m : Mod} {p : Nat} (h : (port m p).up = true) (cause : Nat) :
    portDown m p cause =
      raise (raise (discardPort (bump (setPort m p { port m p with up := false }) 0x3100 0x0B p 1) p).1 0x2011 (srcH (harbourOf p)) 0 (b1 p ++ b1 cause))
        0x2012 (srcH (harbourOf p)) 0 (b1 p ++ b8 (discardPort (bump (setPort m p { port m p with up := false }) 0x3100 0x0B p 1) p).2) := by
  unfold portDown
  simp only [h, Bool.not_true, Bool.false_eq_true, if_false]

theorem port_setPort_discarded (m : Mod) (p j : Nat) (x : Port) :
    port (discardPort (bump (setPort m p x) 0x3100 0x0B p 1) p).1 j = port (setPort m p x) j := by
  unfold port
  rw [discardPort_ports, bump_ports]

@[simp] theorem port_portDown_same (m : Mod) (p cause : Nat) : port (portDown m p cause) p = { port m p with up := false } := by
  cases h : (port m p).up with
  | false => rw [portDown_of_down h, ← h]
  | true => rw [portDown_of_up h, port_raise, port_raise, port_setPort_discarded, port_setPort_same]

theorem port_portDown_ne (m : Mod) {p j : Nat} (hj : j ≠ p) (cause : Nat) : port (portDown m p cause) j = port m j := by
  cases h : (port m p).up with
  | false => rw [portDown_of_down h]
  | true => rw [portDown_of_up h, port_raise, port_raise, port_setPort_discarded, port_setPort_ne _ _ hj]

theorem portDown_refreshed (m : Mod) (p cause : Nat) : Refreshed p m (portDown m p cause) := by
  cases h : (port m p).up with
  | false => rw [portDown_of_down h]; exact .refl p m
  | true =>
    have conds := congrArg Port.conds (port_portDown_same m p cause)
    rw [portDown_of_up h] at conds ⊢
    exact ⟨((PortMove.setPort m p _).trans (.bump _ p 1 (by simp [portCounter]) (by decide))).trans
      ((PortMove.discardPort _ p).trans ((PortMove.raise ..).trans (.raise ..))),
      by simp, conds⟩

/-- A port that can be up comes up, or is up already (R60, R72). -/
theorem portUp_form {m : Mod} {p : Nat} (h : canBeUp m p = true) :
    portUp m p = m ∧ (port m p).up = true ∨
      portUp m p = raise (setPort m p { port m p with up := true }) 0x2010 (srcH (harbourOf p)) 0 (b1 p ++ b4 (port m p).deskew) := by
  unfold portUp
  simp only [h, Bool.not_true, Bool.or_false]
  split
  · exact .inl ⟨rfl, ‹_›⟩
  · exact .inr rfl

theorem port_portUp_same {m : Mod} {p : Nat} (h : canBeUp m p = true) : port (portUp m p) p = { port m p with up := true } := by
  obtain ⟨hu, hup⟩ | hu := portUp_form h
  · rw [hu, ← hup]
  · rw [hu, port_raise, port_setPort_same]

theorem portUp_cases (m : Mod) (p : Nat) :
    portUp m p = m ∨ portUp m p = raise (setPort m p { port m p with up := true }) 0x2010 (srcH (harbourOf p)) 0 (b1 p ++ b4 (port m p).deskew) := by
  unfold portUp
  dsimp only
  split
  · exact .inl rfl
  · exact .inr rfl

theorem port_portUp_ne (m : Mod) {p j : Nat} (hj : j ≠ p) : port (portUp m p) j = port m j := by
  obtain h | h := portUp_cases m p
  · rw [h]
  · rw [h, port_raise, port_setPort_ne _ _ hj]

theorem portUp_refreshed (m : Mod) (p : Nat) : Refreshed p m (portUp m p) := by
  obtain h | h := portUp_cases m p
  · rw [h]; exact .refl p m
  · rw [h]; exact (Refreshed.setPort (x := { port m p with up := true }) rfl).trans (.raise ..)

theorem refreshPhase_of_aligned {m : Mod} {p : Nat} (h : (port m p).aligned = true) :
    refreshPhase m p = setPort m p { port m p with phase := alignedPhase m p, wasUp := (port m p).wasUp || alignedPhase m p == 4 } := by
  simp [refreshPhase, h]

theorem refreshPhase_of_not_aligned {m : Mod} {p : Nat} (h : (port m p).aligned = false) : refreshPhase m p = m := by
  simp [refreshPhase, h]

theorem refreshPhase_refreshed (m : Mod) (p : Nat) : Refreshed p m (refreshPhase m p) := by
  cases h : (port m p).aligned with
  | false => rw [refreshPhase_of_not_aligned h]; exact .refl p m
  | true => rw [refreshPhase_of_aligned h]; exact .setPort rfl

theorem port_refreshPhase_ne (m : Mod) {p j : Nat} (hj : j ≠ p) : port (refreshPhase m p) j = port m j := by
  cases h : (port m p).aligned with
  | false => rw [refreshPhase_of_not_aligned h]
  | true => rw [refreshPhase_of_aligned h, port_setPort_ne _ _ hj]

@[simp] theorem up_refreshPhase (m : Mod) (p : Nat) : (port (refreshPhase m p) p).up = (port m p).up := by
  cases h : (port m p).aligned with
  | false => rw [refreshPhase_of_not_aligned h]
  | true => rw [refreshPhase_of_aligned h, port_setPort_same]

@[simp] theorem phase_refreshPhase (m : Mod) (p : Nat) :
    (port (refreshPhase m p) p).phase = if (port m p).aligned then alignedPhase m p else (port m p).phase := by
  cases h : (port m p).aligned with
  | false => rw [refreshPhase_of_not_aligned h]; rfl
  | true => rw [refreshPhase_of_aligned h, port_setPort_same]; rfl

theorem signalFault_cases (m : Mod) (p : Nat) :
    signalFault m p = m ∨ signalFault m p = emit (setPort m p { port m p with sends := faultSent m p }) (.faultSignal p (faultSent m p)) := by
  unfold signalFault
  split
  · exact .inl rfl
  · exact .inr rfl

theorem signalFault_refreshed (m : Mod) (p : Nat) : Refreshed p m (signalFault m p) := by
  obtain h | h := signalFault_cases m p
  · rw [h]; exact .refl p m
  · rw [h]; exact (Refreshed.setPort (x := { port m p with sends := faultSent m p }) rfl).trans (.emit ..)

theorem port_signalFault_ne (m : Mod) {p j : Nat} (hj : j ≠ p) : port (signalFault m p) j = port m j := by
  obtain h | h := signalFault_cases m p
  · rw [h]
  · rw [h, port_emit, port_setPort_ne _ _ hj]

/-- The fault signal changes nothing of its port but what it sends. -/
theorem port_signalFault_same (m : Mod) (p : Nat) : ∃ sends, port (signalFault m p) p = { port m p with sends := sends } := by
  obtain h | h := signalFault_cases m p
  · exact ⟨(port m p).sends, by rw [h]⟩
  · exact ⟨faultSent m p, by rw [h, port_emit, port_setPort_same]⟩

@[simp] theorem up_signalFault (m : Mod) (p : Nat) : (port (signalFault m p) p).up = (port m p).up := by
  obtain ⟨_, h⟩ := port_signalFault_same m p; rw [h]
@[simp] theorem phase_signalFault (m : Mod) (p : Nat) : (port (signalFault m p) p).phase = (port m p).phase := by
  obtain ⟨_, h⟩ := port_signalFault_same m p; rw [h]

/-! ### A port refreshed -/

theorem refreshPort_of_line {p : Nat} (hp : isLine p = true) (m : Mod) (cause : Nat) : refreshPort m p cause = refreshPhase m p := by
  simp [refreshPort, hp]

/-- A clear port up or down as its conditions say (R60, R70, R73). -/
def turned (m : Mod) (p cause : Nat) : Mod := if canBeUp m p then portUp m p else portDown m p cause

theorem refreshPort_of_clear {p : Nat} (hp : isLine p = false) (m : Mod) (cause : Nat) :
    refreshPort m p cause = signalFault (refreshPhase (turned m p cause) p) p := by
  simp [refreshPort, turned, hp]

theorem turned_refreshed (m : Mod) (p cause : Nat) : Refreshed p m (turned m p cause) := by
  unfold turned
  split
  · exact portUp_refreshed m p
  · exact portDown_refreshed m p cause

theorem port_turned_same (m : Mod) (p cause : Nat) : port (turned m p cause) p = { port m p with up := canBeUp m p } := by
  unfold turned
  cases h : canBeUp m p with
  | true => exact port_portUp_same h
  | false => exact port_portDown_same m p cause

theorem refreshPort_refreshed (m : Mod) (p cause : Nat) : Refreshed p m (refreshPort m p cause) := by
  cases hp : isLine p with
  | true => rw [refreshPort_of_line hp]; exact refreshPhase_refreshed m p
  | false =>
    rw [refreshPort_of_clear hp]
    exact ((turned_refreshed m p cause).trans (refreshPhase_refreshed ..)).trans (signalFault_refreshed ..)

theorem port_refreshPort_ne (m : Mod) {p j : Nat} (hj : j ≠ p) (cause : Nat) : port (refreshPort m p cause) j = port m j := by
  unfold refreshPort
  split
  · exact port_refreshPhase_ne m hj
  · rw [port_signalFault_ne _ hj, port_refreshPhase_ne _ hj]
    split
    · exact port_portUp_ne m hj
    · exact port_portDown_ne m hj cause

/-- A clear port is up exactly while nothing forbids it (R70). -/
theorem up_refreshPort {p : Nat} (hp : isLine p = false) (m : Mod) (cause : Nat) : (port (refreshPort m p cause) p).up = canBeUp m p := by
  rw [refreshPort_of_clear hp, up_signalFault, up_refreshPhase, port_turned_same]

theorem alignedPhase_of_clear {p : Nat} (hp : isLine p = false) (m : Mod) : alignedPhase m p = if (port m p).up then 4 else 5 := by
  simp [alignedPhase, isGelix, hp]

/-- An aligned clear port shows Up, or Wait for fault clear while it is down (R60, R85). -/
theorem phase_refreshPort {p : Nat} (hp : isLine p = false) (m : Mod) (cause : Nat) :
    (port (refreshPort m p cause) p).phase = if (port m p).aligned then (if canBeUp m p then 4 else 5) else (port m p).phase := by
  rw [refreshPort_of_clear hp, phase_signalFault, phase_refreshPhase, alignedPhase_of_clear hp, port_turned_same]

end Sys2Proof.Machine
end

