-- ==== Sys2Proof/Proofs/PortDefects.lean ====
section
/-! PROOFS. What follows a defect of a port (R152 to R176), the phases a loss takes a port back to (R60, R85), and LOAL (R66, R122, R168). -/

namespace Sys2Proof.Machine

/-! ### Fault forwarding -/

theorem forwardStop_cases (m : Mod) (c src : Nat) :
    forwardStop m c src = m ∨
      forwardStop m c src = raise (setPort m c { port m c with fwd := false }) 0x2014 (srcH (harbourOf c)) 0 (b1 c ++ b1 src ++ b1 0) := by
  unfold forwardStop
  split
  · exact .inr rfl
  · exact .inl rfl

theorem forwardStop_move (m : Mod) (c src : Nat) : PortMove m (forwardStop m c src) := by
  obtain h | h := forwardStop_cases m c src
  · rw [h]; exact .refl m
  · rw [h]; exact (PortMove.setPort m c { port m c with fwd := false }).trans (.raise ..)

theorem forwardStop_rx (m : Mod) (c src : Nat) : (forwardStop m c src).rx = m.rx := by
  obtain h | h := forwardStop_cases m c src <;> rw [h]
  rw [raise_rx, setPort_rx]

theorem port_forwardStop_ne (m : Mod) {c j : Nat} (hj : j ≠ c) (src : Nat) : port (forwardStop m c src) j = port m j := by
  obtain h | h := forwardStop_cases m c src
  · rw [h]
  · rw [h, port_raise, port_setPort_ne _ _ hj]

/-- One clear port where fault forwarding of a line port may stop (R176). -/
def refreshForwardAt (line : Nat) (m : Mod) (c : Nat) : Mod :=
  if !isLine c && (port m c).fwd && inf m 0x3310 1 c == line && (triggers m line (inf m 0x3310 2 c)).isEmpty then refreshPort (forwardStop m c line) c 1
  else m

theorem refreshForward_eq (m : Mod) (line : Nat) : refreshForward m line = (List.range 64).foldl (refreshForwardAt line) m := rfl

theorem refreshForwardAt_cases (line : Nat) (m : Mod) (c : Nat) :
    refreshForwardAt line m c = m ∨ (isLine c = false ∧ refreshForwardAt line m c = refreshPort (forwardStop m c line) c 1) := by
  unfold refreshForwardAt
  split
  · rename_i h
    simp only [Bool.and_eq_true, Bool.not_eq_true'] at h
    exact .inr ⟨h.1.1.1, rfl⟩
  · exact .inl rfl

theorem refreshForward_move (m : Mod) (line : Nat) : PortMove m (refreshForward m line) := by
  rw [refreshForward_eq]
  refine .foldl _ (fun m c => ?_) _ m
  obtain h | ⟨-, h⟩ := refreshForwardAt_cases line m c
  · rw [h]; exact .refl m
  · rw [h]; exact (forwardStop_move m c line).trans (refreshPort_refreshed _ c 1).toPortMove

@[simp] theorem refreshForward_rx (m : Mod) (line : Nat) : (refreshForward m line).rx = m.rx := by
  rw [refreshForward_eq]
  refine foldl_keeps Mod.rx _ (fun m c => ?_) _ m
  obtain h | ⟨-, h⟩ := refreshForwardAt_cases line m c
  · rw [h]
  · rw [h, (refreshPort_refreshed _ c 1).rx, forwardStop_rx]

/-- Fault forwarding changes clear ports alone (R172). -/
theorem port_refreshForward (m : Mod) (line : Nat) {j : Nat} (hj : isLine j = true) : port (refreshForward m line) j = port m j := by
  rw [refreshForward_eq]
  refine foldl_keeps (port · j) _ (fun m c => ?_) _ m
  obtain h | ⟨hc, h⟩ := refreshForwardAt_cases line m c
  · rw [h]
  · have hne : j ≠ c := fun he => by rw [he, hc] at hj; cases hj
    rw [h, port_refreshPort_ne _ hne, port_forwardStop_ne _ hne]

/-! ### What follows a defect -/

theorem stampDefects_form (m : Mod) (p : Nat) : ∃ since, stampDefects m p = setPort m p { port m p with since := since } := ⟨_, rfl⟩

theorem stampDefects_refreshed (m : Mod) (p : Nat) : Refreshed p m (stampDefects m p) := by
  obtain ⟨since, h⟩ := stampDefects_form m p
  rw [h]
  exact .setPort rfl

theorem noteDefects_refreshed (m : Mod) (p : Nat) : Refreshed p m (noteDefects m p) := .setPm ..

theorem afterDefect_of_line {p : Nat} (hp : isLine p = true) (m : Mod) (cause : Nat) :
    afterDefect m p cause = refreshForward (noteDefects (stampDefects m p) p) p := by
  simp [afterDefect, hp]

theorem afterDefect_of_clear {p : Nat} (hp : isLine p = false) (m : Mod) (cause : Nat) :
    afterDefect m p cause = refreshPort (stampDefects m p) p cause := by
  simp [afterDefect, hp]

/-- What follows a defect of a line port changes nothing of that port but when its defects were declared. -/
theorem port_afterDefect_of_line {p : Nat} (hp : isLine p = true) (m : Mod) (cause : Nat) :
    ∃ since, port (afterDefect m p cause) p = { port m p with since := since } := by
  obtain ⟨since, h⟩ := stampDefects_form m p
  refine ⟨since, ?_⟩
  rw [afterDefect_of_line hp, port_refreshForward _ _ hp]
  unfold noteDefects
  rw [port_setPm, h, port_setPort_same]

theorem afterDefect_refreshed (m : Mod) (p cause : Nat) : Refreshed p m (afterDefect m p cause) := by
  cases hp : isLine p with
  | true =>
    obtain ⟨since, h⟩ := port_afterDefect_of_line hp m cause
    have conds : (port (afterDefect m p cause) p).conds = (port m p).conds := by rw [h]; rfl
    rw [afterDefect_of_line hp] at conds ⊢
    have first := (stampDefects_refreshed m p).trans (noteDefects_refreshed _ p)
    exact ⟨first.toPortMove.trans (refreshForward_move ..), by rw [refreshForward_rx, first.rx], conds⟩
  | false =>
    rw [afterDefect_of_clear hp]
    exact (stampDefects_refreshed m p).trans (refreshPort_refreshed ..)

theorem up_afterDefect {p : Nat} (hp : isLine p = false) (m : Mod) (cause : Nat) : (port (afterDefect m p cause) p).up = canBeUp m p := by
  rw [afterDefect_of_clear hp, up_refreshPort hp, (stampDefects_refreshed m p).canBeUp]

theorem phase_stampDefects (m : Mod) (p : Nat) : (port (stampDefects m p) p).phase = (port m p).phase := by
  obtain ⟨since, h⟩ := stampDefects_form m p
  rw [h, port_setPort_same]

theorem phase_afterDefect {p : Nat} (hp : isLine p = false) (m : Mod) (cause : Nat) :
    (port (afterDefect m p cause) p).phase = if (port m p).aligned then (if canBeUp m p then 4 else 5) else (port m p).phase := by
  rw [afterDefect_of_clear hp, phase_refreshPort hp, (stampDefects_refreshed m p).canBeUp, (stampDefects_refreshed m p).aligned, phase_stampDefects]

/-- A defect leaves the phase of a port, but for an aligned clear port, which shows Up or Wait for fault clear. -/
theorem phase_afterDefect_cases (m : Mod) (p cause : Nat) :
    (port (afterDefect m p cause) p).phase = (port m p).phase ∨ ((port m p).aligned = true ∧ 4 ≤ (port (afterDefect m p cause) p).phase) := by
  cases hp : isLine p with
  | true =>
    obtain ⟨_, h⟩ := port_afterDefect_of_line hp m cause
    exact .inl (by rw [h])
  | false =>
    rw [phase_afterDefect hp]
    cases (port m p).aligned with
    | false => exact .inl rfl
    | true => exact .inr ⟨rfl, by rw [if_pos rfl]; split <;> omega⟩

/-! ### Defects of a port -/

theorem Port.withDefect_defect (x : Port) (b : Nat) : x.withDefect b (x.defect b) = x := by
  unfold Port.withDefect
  split <;> rfl

theorem setDefect_cases (m : Mod) (p b : Nat) (on : Bool) :
    (port m p).withDefect b on = port m p ∧ setDefect m p b on = m ∨
      ∃ ps, setDefect m p b on = afterDefect (raise (setPort m p ((port m p).withDefect b on)) (defectCode b) (srcH (harbourOf p)) 0 ps) p 1 := by
  unfold setDefect
  dsimp only
  split
  · rename_i h
    exact .inl ⟨by rw [← h, Port.withDefect_defect], rfl⟩
  · exact .inr ⟨_, rfl⟩

theorem setDefect_move (m : Mod) (p b : Nat) (on : Bool) : PortMove m (setDefect m p b on) := by
  obtain ⟨-, h⟩ | ⟨ps, h⟩ := setDefect_cases m p b on
  · rw [h]; exact .refl m
  · rw [h]
    exact ((PortMove.setPort m p ((port m p).withDefect b on)).trans (.raise ..)).trans (afterDefect_refreshed ..).toPortMove

@[simp] theorem setDefect_rx (m : Mod) (p b : Nat) (on : Bool) : (setDefect m p b on).rx = m.rx := by
  obtain ⟨-, h⟩ | ⟨ps, h⟩ := setDefect_cases m p b on
  · rw [h]
  · rw [h, (afterDefect_refreshed ..).rx, raise_rx, setPort_rx]

/-- The conditions of a port with a defect set are its own with that defect. -/
theorem conds_setDefect (m : Mod) (p b : Nat) (on : Bool) :
    (port (setDefect m p b on) p).conds = ((port m p).withDefect b on).conds := by
  obtain ⟨hd, h⟩ | ⟨ps, h⟩ := setDefect_cases m p b on
  · rw [h, hd]
  · rw [h, (afterDefect_refreshed ..).conds, port_raise, port_setPort_same]

theorem Port.withDefect_phase (x : Port) (b : Nat) (on : Bool) : (x.withDefect b on).phase = x.phase := by
  unfold Port.withDefect; split <;> rfl
theorem Port.withDefect_aligned (x : Port) (b : Nat) (on : Bool) : (x.withDefect b on).aligned = x.aligned := by
  unfold Port.withDefect; split <;> rfl

theorem setDefect_field {γ : Type} (f : Port → γ) (hf : ∀ x : Port, f x.conds = f x) (m : Mod) (p b : Nat) (on : Bool) :
    f (port (setDefect m p b on) p) = f ((port m p).withDefect b on) := by
  rw [← hf, conds_setDefect, hf]

theorem phase_setDefect_cases (m : Mod) (p b : Nat) (on : Bool) :
    (port (setDefect m p b on) p).phase = (port m p).phase ∨ ((port m p).aligned = true ∧ 4 ≤ (port (setDefect m p b on) p).phase) := by
  obtain ⟨-, h⟩ | ⟨ps, h⟩ := setDefect_cases m p b on
  · exact .inl (by rw [h])
  · rw [h]
    refine (phase_afterDefect_cases _ p 1).imp (fun e => ?_) (fun e => ⟨?_, e.2⟩)
    · rw [e, port_raise, port_setPort_same, Port.withDefect_phase]
    · rw [← e.1, port_raise, port_setPort_same, Port.withDefect_aligned]

/-! ### Phases -/

theorem setPhase_of_enabled {m : Mod} {p : Nat} (h : portEnabled m p = true) (ph : Nat) :
    setPhase m p ph = signalFault (setPort m p { port m p with phase := ph, aligned := false }) p := by
  simp [setPhase, h]

theorem setPhase_of_disabled {m : Mod} {p : Nat} (h : portEnabled m p = false) (ph : Nat) : setPhase m p ph = m := by
  simp [setPhase, h]

theorem setPhase_move (m : Mod) (p ph : Nat) : PortMove m (setPhase m p ph) := by
  cases h : portEnabled m p with
  | false => rw [setPhase_of_disabled h]; exact .refl m
  | true => rw [setPhase_of_enabled h]; exact (PortMove.setPort ..).trans (signalFault_refreshed ..).toPortMove

@[simp] theorem setPhase_rx (m : Mod) (p ph : Nat) : (setPhase m p ph).rx = m.rx := by
  cases h : portEnabled m p with
  | false => rw [setPhase_of_disabled h]
  | true => rw [setPhase_of_enabled h, (signalFault_refreshed ..).rx, setPort_rx]

theorem phase_setPhase {m : Mod} {p : Nat} (h : portEnabled m p = true) (ph : Nat) : (port (setPhase m p ph) p).phase = ph := by
  rw [setPhase_of_enabled h, phase_signalFault, port_setPort_same]

theorem loal_setPhase (m : Mod) (p ph : Nat) : (port (setPhase m p ph) p).loal = (port m p).loal := by
  cases h : portEnabled m p with
  | false => rw [setPhase_of_disabled h]
  | true => rw [setPhase_of_enabled h, (signalFault_refreshed ..).loal, port_setPort_same]

theorem phase_fallBack {m : Mod} {p : Nat} (h : portEnabled m p = true) (ph : Nat) :
    (port (fallBack m p ph) p).phase = min (port m p).phase ph := phase_setPhase h _

theorem fallBack_move (m : Mod) (p ph : Nat) : PortMove m (fallBack m p ph) := setPhase_move ..

/-! ### LOAL -/

/-- A move that keeps every port and has the framer of one in HUNT. -/
structure Hunting (p : Nat) (m n : Mod) : Prop extends PortMove m n where
  ports : n.ports = m.ports
  hunt : (rxOf n p).st = 0

namespace Hunting

variable {p : Nat} {m n k : Mod}

theorem raise (h : Hunting p m n) (code src bpid : Nat) (ps : Octets) : Hunting p m (raise n code src bpid ps) :=
  ⟨h.toPortMove.trans (.raise ..), h.ports, h.hunt⟩

theorem bump (h : Hunting p m n) {sub : Nat} (hsub : sub = 0x11 ∨ sub = 0x12) (e k : Nat) : Hunting p m (bump n 0x3200 sub e k) :=
  ⟨h.toPortMove.trans (.bump n e k (.inr (.inr ⟨rfl, hsub⟩)) (by omega)), by rw [bump_ports, h.ports], by unfold rxOf; rw [bump_rx]; exact h.hunt⟩

theorem ite {c : Prop} [Decidable c] (h : Hunting p m n) (next : Hunting p m n → Hunting p m k) : Hunting p m (if c then k else n) := by
  split
  · exact next h
  · exact h

end Hunting

/-- The framer starts in HUNT (R123, R124): what was under way is counted and lost, and the port follows. -/
theorem toHunt_form (m : Mod) (p : Nat) : ∃ n, toHunt m p = refreshPhase n p ∧ Hunting p m n := by
  have base : ∀ (y : GelRx) (x : Pm), y.st = 0 → Hunting p m (setPm (setRx m p y) p x) := fun y x hy =>
    ⟨(PortMove.setRx m p y).trans (.setPm ..), rfl, by rw [rxOf_setPm, rxOf_setRx_same, hy]⟩
  unfold toHunt
  refine ⟨_, rfl, ?_⟩
  exact .ite (.ite (.ite (.ite (base _ _ rfl) (·.bump (.inl rfl) ..)) fun h => (h.bump (.inr rfl) ..).raise ..) (·.raise ..)) (·.raise ..)

theorem toHunt_move (m : Mod) (p : Nat) : PortMove m (toHunt m p) := by
  obtain ⟨n, h, hn⟩ := toHunt_form m p
  rw [h]
  exact hn.toPortMove.trans (refreshPhase_refreshed n p).toPortMove

theorem toHunt_st (m : Mod) (p : Nat) : (rxOf (toHunt m p) p).st = 0 := by
  obtain ⟨n, h, hn⟩ := toHunt_form m p
  rw [h, (refreshPhase_refreshed n p).rxOf, hn.hunt]

theorem conds_toHunt (m : Mod) (p : Nat) : (port (toHunt m p) p).conds = (port m p).conds := by
  obtain ⟨n, h, hn⟩ := toHunt_form m p
  rw [h, (refreshPhase_refreshed n p).conds, port, hn.ports, ← port]

theorem alignedPhase_of_hunt {m : Mod} {p : Nat} (hg : isGelix m p = true) (hst : (rxOf m p).st = 0) : alignedPhase m p = 3 := by
  simp [alignedPhase, hg, hst]

/-- An aligned Gelix port whose framer hunts shows Align (R60; log 50). -/
theorem phase_toHunt {m : Mod} {p : Nat} (hg : isGelix m p = true) :
    (port (toHunt m p) p).phase = if (port m p).aligned then 3 else (port m p).phase := by
  obtain ⟨n, h, hn⟩ := toHunt_form m p
  rw [h, phase_refreshPhase, alignedPhase_of_hunt (by rw [hn.isGelix, hg]) hn.hunt, port, hn.ports, ← port]

/-- What `declareLoal` is before the port falls back: the defect, and a Gelix framer in HUNT. -/
def loalDeclared (m : Mod) (p : Nat) : Mod := if isGelix (setDefect m p 4 true) p then toHunt (setDefect m p 4 true) p else setDefect m p 4 true

theorem declareLoal_eq (m : Mod) (p : Nat) : declareLoal m p = fallBack (loalDeclared m p) p 3 := rfl

theorem loalDeclared_move (m : Mod) (p : Nat) : PortMove m (loalDeclared m p) := by
  unfold loalDeclared
  split
  · exact (setDefect_move m p 4 true).trans (toHunt_move ..)
  · exact setDefect_move m p 4 true

theorem declareLoal_move (m : Mod) (p : Nat) : PortMove m (declareLoal m p) := (loalDeclared_move m p).trans (fallBack_move ..)

theorem conds_loalDeclared (m : Mod) (p : Nat) : (port (loalDeclared m p) p).conds = ((port m p).withDefect 4 true).conds := by
  unfold loalDeclared
  split
  · rw [conds_toHunt, conds_setDefect]
  · exact conds_setDefect m p 4 true

theorem loal_declareLoal (m : Mod) (p : Nat) : (port (declareLoal m p) p).loal = true := by
  rw [declareLoal_eq, fallBack, loal_setPhase]
  exact congrArg Port.loal (conds_loalDeclared m p)

/-- A Gelix port that declares LOAL is out of SYNC (R168). -/
theorem st_declareLoal {m : Mod} {p : Nat} (hg : isGelix m p = true) : (rxOf (declareLoal m p) p).st = 0 := by
  have hg' : isGelix (setDefect m p 4 true) p = true := by rw [(setDefect_move ..).isGelix, hg]
  rw [declareLoal_eq, fallBack, rxOf, setPhase_rx, ← rxOf, loalDeclared, if_pos hg', toHunt_st]

/-- LOAL leaves the phase of a port that is not aligned, and an aligned one at Align or later. -/
theorem phase_loalDeclared (m : Mod) (p : Nat) :
    (port (loalDeclared m p) p).phase = (port m p).phase ∨ ((port m p).aligned = true ∧ 3 ≤ (port (loalDeclared m p) p).phase) := by
  have hal : (port (setDefect m p 4 true) p).aligned = (port m p).aligned := setDefect_field Port.aligned (fun _ => rfl) m p 4 true
  have hd := phase_setDefect_cases m p 4 true
  unfold loalDeclared
  split
  · rename_i hg
    rw [phase_toHunt hg, hal]
    cases h : (port m p).aligned with
    | true => exact .inr ⟨rfl, Nat.le_refl 3⟩
    | false => exact .inl (hd.resolve_right fun x => by rw [h] at x; cases x.1)
  · exact hd.imp_right fun x => ⟨x.1, by omega⟩

/-- LOAL takes an enabled port at Align or later back to Align (R66, R122). -/
theorem phase_declareLoal {m : Mod} {p : Nat} (he : portEnabled m p = true) (h3 : 3 ≤ (port m p).phase) :
    (port (declareLoal m p) p).phase = 3 := by
  rw [declareLoal_eq, phase_fallBack (by rw [(loalDeclared_move m p).portEnabled, he])]
  obtain h | h := phase_loalDeclared m p <;> omega

/-- LOAL leaves an enabled port in an earlier phase as it is (log 50). -/
theorem phase_declareLoal_early {m : Mod} {p : Nat} (he : portEnabled m p = true) (ha : (port m p).aligned = false)
    (h3 : (port m p).phase < 3) : (port (declareLoal m p) p).phase = (port m p).phase := by
  rw [declareLoal_eq, phase_fallBack (by rw [(loalDeclared_move m p).portEnabled, he]),
    (phase_loalDeclared m p).resolve_right fun x => by rw [ha] at x; cases x.1]
  omega

end Sys2Proof.Machine
end

