-- ==== Sys2Proof/Proofs/Lanes.lean ====
section
/-! PROOFS. The lane detectors, codeword lock and lane lock (R82, R118 to R123, R153, R1036). -/

namespace Sys2Proof.Machine

/-! ### A line command on a running module -/

/-- A well-formed command of a line carries out its effect while the harbours are out of reset (R969). -/
theorem run_whileOn {c : Instr} {s : State} (name : String) (f : Mod → Mod) (hw : c.wf = true) (hr : s.mod.sys.running = true) :
    run name c s (whileOn (onMod f)) = .next (finish (s.upd (f s.mod))) := by
  rw [run_wf name c s _ hw, whileOn, if_pos hr, onMod]

/-- What follows a command keeps every lane, port, receiver and setting. -/
theorem settleOver_move (m : Mod) : PortMove m (settleOver m) :=
  .of_eq (settleOver_sys m) (settleOver_lanes m) (settleOver_mgmt m) (settleOver_tether m) (settleOver_counted m) (settleOver_obj m)

@[simp] theorem lane_settleOver (m : Mod) (l : Nat) : lane (settleOver m) l = lane m l := (settleOver_move m).lane l
@[simp] theorem port_settleOver (m : Mod) (p : Nat) : port (settleOver m) p = port m p := by unfold port; rw [settleOver_ports]
@[simp] theorem rxOf_settleOver (m : Mod) (p : Nat) : rxOf (settleOver m) p = rxOf m p := by unfold rxOf; rw [settleOver_rx]

@[simp] theorem portEnabled_setLane (m : Mod) (l p : Nat) (x : Lane) : portEnabled (setLane m l x) p = portEnabled m p := rfl
@[simp] theorem lanePort_setLane (m : Mod) (l k : Nat) (x : Lane) : lanePort (setLane m l x) k = lanePort m k := rfl
@[simp] theorem portLanes_setLane (m : Mod) (l p : Nat) (x : Lane) : portLanes (setLane m l x) p = portLanes m p := rfl

/-- Setting a lane to what it is changes no reading. -/
theorem setLane_same_move (m : Mod) (l : Nat) : PortMove (setLane m l (lane m l)) m := by
  refine ⟨rfl, fun j => ?_, rfl, rfl, rfl, fun _ _ _ _ _ => rfl⟩
  by_cases hj : j = l
  · rw [hj, lane_setLane_same]
  · rw [lane_setLane_ne _ _ hj]

/-! ### The detectors -/

/-- A lane as LOS of it is declared or cleared: it loses its clock and its equalisation with the signal. -/
def Lane.withLos (x : Lane) (on : Bool) : Lane :=
  if x.los = on then x else { x with los := on, signal := !on, cdr := x.cdr && !on, adapted := x.adapted && !on }

/-- A lane as LOL of it is declared or cleared. -/
def Lane.withLol (x : Lane) (on : Bool) : Lane := if x.lol = on then x else { x with lol := on, cdr := !on, adapted := x.adapted && !on }

@[simp] theorem Lane.withLos_los (x : Lane) (on : Bool) : (x.withLos on).los = on := by unfold withLos; split <;> simp_all
@[simp] theorem Lane.withLol_lol (x : Lane) (on : Bool) : (x.withLol on).lol = on := by unfold withLol; split <;> simp_all

theorem setLos_cases (m : Mod) (l : Nat) (on : Bool) :
    (lane m l).withLos on = lane m l ∧ setLos m l on = m ∨
      ∃ ps, setLos m l on = afterDefect (raise (setLane m l ((lane m l).withLos on)) 0x2001 (srcH (laneHarbour l)) 0 ps) (lanePort m l) 1 := by
  unfold setLos Lane.withLos
  dsimp only
  split
  · exact .inl ⟨rfl, rfl⟩
  · exact .inr ⟨_, rfl⟩

theorem setLol_cases (m : Mod) (l : Nat) (on : Bool) :
    (lane m l).withLol on = lane m l ∧ setLol m l on = m ∨
      ∃ ps, setLol m l on = afterDefect (raise (setLane m l ((lane m l).withLol on)) 0x2002 (srcH (laneHarbour l)) 0 ps) (lanePort m l) 1 := by
  unfold setLol Lane.withLol
  dsimp only
  split
  · exact .inl ⟨rfl, rfl⟩
  · exact .inr ⟨_, rfl⟩

theorem setLos_move (m : Mod) (l : Nat) (on : Bool) : PortMove (setLane m l ((lane m l).withLos on)) (setLos m l on) := by
  obtain ⟨hx, h⟩ | ⟨ps, h⟩ := setLos_cases m l on
  · rw [h, hx]; exact setLane_same_move m l
  · rw [h]; exact (PortMove.raise ..).trans (afterDefect_refreshed ..).toPortMove

theorem setLol_move (m : Mod) (l : Nat) (on : Bool) : PortMove (setLane m l ((lane m l).withLol on)) (setLol m l on) := by
  obtain ⟨hx, h⟩ | ⟨ps, h⟩ := setLol_cases m l on
  · rw [h, hx]; exact setLane_same_move m l
  · rw [h]; exact (PortMove.raise ..).trans (afterDefect_refreshed ..).toPortMove

/-- A detector leaves a port that has left phase 0 out of it. -/
theorem phase_setLos_pos (m : Mod) (l : Nat) (on : Bool) (h : 0 < (port m (lanePort m l)).phase) :
    0 < (port (setLos m l on) (lanePort m l)).phase := by
  obtain ⟨-, hs⟩ | ⟨ps, hs⟩ := setLos_cases m l on
  · rw [hs]; exact h
  · rw [hs]
    obtain e | e := phase_afterDefect_cases (raise (setLane m l ((lane m l).withLos on)) 0x2001 (srcH (laneHarbour l)) 0 ps) (lanePort m l) 1
    · rw [e]; exact h
    · omega

theorem phase_setLol_pos (m : Mod) (l : Nat) (on : Bool) (h : 0 < (port m (lanePort m l)).phase) :
    0 < (port (setLol m l on) (lanePort m l)).phase := by
  obtain ⟨-, hs⟩ | ⟨ps, hs⟩ := setLol_cases m l on
  · rw [hs]; exact h
  · rw [hs]
    obtain e | e := phase_afterDefect_cases (raise (setLane m l ((lane m l).withLol on)) 0x2002 (srcH (laneHarbour l)) 0 ps) (lanePort m l) 1
    · rw [e]; exact h
    · omega

/-- What a move after one lane was set reads of the lanes. -/
theorem PortMove.lane_setLane {m n : Mod} {l : Nat} {x : Lane} (h : PortMove (setLane m l x) n) :
    Machine.lane n l = x ∧ ∀ j, j ≠ l → Machine.lane n j = Machine.lane m j :=
  ⟨by rw [h.lane, lane_setLane_same], fun j hj => by rw [h.lane, lane_setLane_ne _ _ hj]⟩

variable {m : Mod} {l : Nat}

theorem laneLos_declare (hp : lanePowered m l = true) : laneLos m l true = fallBack (setLos m l true) (lanePort m l) 1 := by
  simp [laneLos, hp]

theorem laneLos_clear (hp : lanePowered m l = true) : laneLos m l false = setLos m l false := by
  simp [laneLos, hp]

theorem laneLol_declare (hp : lanePowered m l = true) : laneLol m l true = fallBack (setLol m l true) (lanePort m l) 1 := by
  simp [laneLol, hp]

/-- A loss that a lane detector declares takes an enabled port back to CDR acquire (R85). -/
theorem phase_back_to_acquire {n : Mod} {x : Lane} (hm : PortMove (setLane m l x) n) {p : Nat} (he : portEnabled m p = true)
    (hn : 0 < (port n p).phase) : (port (fallBack n p 1) p).phase = 1 := by
  rw [phase_fallBack (by rw [hm.portEnabled, portEnabled_setLane, he])]
  omega

/-- LOL cleared: the clock of the lane is recovered, and nothing but the phase of the port follows. -/
theorem laneLol_clear (hp : lanePowered m l = true) : ∃ x : Lane, x.lol = false ∧ PortMove (setLane m l x) (laneLol m l false) := by
  have base := setLol_move m l false
  have hl := base.lane_setLane.1
  refine ⟨{ (lane m l).withLol false with cdr := true }, Lane.withLol_lol .., ?_⟩
  have mid : PortMove (setLane m l { (lane m l).withLol false with cdr := true })
      (setLane (setLol m l false) l { lane (setLol m l false) l with cdr := true }) := by
    rw [hl]
    refine ⟨base.sys, fun j => ?_, base.mgmt, base.tether, base.counted, base.look⟩
    by_cases hj : j = l
    · rw [hj, lane_setLane_same, lane_setLane_same]
    · rw [lane_setLane_ne _ _ hj, lane_setLane_ne _ _ hj, base.lane_setLane.2 j hj]
  unfold laneLol
  simp only [hp, if_true, Bool.false_eq_true, if_false]
  split
  · exact mid.trans (setPhase_move ..)
  · exact mid

/-- A lane that has adapted: once every lane of the port has, the port aligns. -/
theorem laneAdapted_eq (hp : lanePowered m l = true) (hlos : (lane m l).los = false) (hlol : (lane m l).lol = false) :
    laneAdapted m l =
      if (port m (lanePort m l)).phase < 3 ∧
          (portLanes m (lanePort m l)).all (fun i => (lane (setLane m l { lane m l with signal := true, cdr := true, adapted := true }) i).adapted) then
        setPhase (setLane m l { lane m l with signal := true, cdr := true, adapted := true }) (lanePort m l) 3
      else setLane m l { lane m l with signal := true, cdr := true, adapted := true } := by
  simp [laneAdapted, hp, hlos, hlol]

theorem laneAdapted_move (hp : lanePowered m l = true) (hlos : (lane m l).los = false) (hlol : (lane m l).lol = false) :
    PortMove (setLane m l { lane m l with signal := true, cdr := true, adapted := true }) (laneAdapted m l) := by
  rw [laneAdapted_eq hp hlos hlol]
  split
  · exact setPhase_move ..
  · exact .refl _

theorem phase_laneAdapted (hp : lanePowered m l = true) (hlos : (lane m l).los = false) (hlol : (lane m l).lol = false)
    (hall : ∀ j ∈ portLanes m (lanePort m l), j ≠ l → (lane m j).adapted = true) (he : portEnabled m (lanePort m l) = true)
    (h3 : (port m (lanePort m l)).phase < 3) : (port (laneAdapted m l) (lanePort m l)).phase = 3 := by
  have ready : (portLanes m (lanePort m l)).all
      (fun i => (lane (setLane m l { lane m l with signal := true, cdr := true, adapted := true }) i).adapted) = true := by
    rw [List.all_eq_true]
    intro j hj
    by_cases hjl : j = l
    · rw [hjl, lane_setLane_same]
    · rw [lane_setLane_ne _ _ hjl, hall j hj hjl]
  rw [laneAdapted_eq hp hlos hlol, if_pos ⟨h3, ready⟩, phase_setPhase (by rw [portEnabled_setLane, he])]

/-! ### Codeword lock and lane lock -/

theorem loseCodeword_of_logical (hcw : (lane m l).cwLock = true) (hl : (lane m l).logical.isSome = true) :
    loseCodeword m l = declareLoal (setLane m l { lane m l with cwLock := false, logical := none }) (lanePort m l) := by
  simp [loseCodeword, hcw, hl]

theorem loseCodeword_of_no_logical (hcw : (lane m l).cwLock = true) (hl : (lane m l).logical.isSome = false) :
    loseCodeword m l = setLane m l { lane m l with cwLock := false, logical := none } := by
  simp [loseCodeword, hcw, Option.not_isSome_iff_eq_none.mp (by rw [hl]; decide)]

theorem loseCodeword_move (hcw : (lane m l).cwLock = true) :
    PortMove (setLane m l { lane m l with cwLock := false, logical := none }) (loseCodeword m l) := by
  cases hl : (lane m l).logical.isSome with
  | true => rw [loseCodeword_of_logical hcw hl]; exact declareLoal_move ..
  | false => rw [loseCodeword_of_no_logical hcw hl]; exact .refl _

theorem loseLaneLock_of_gelix (hg : isGelix m (lanePort m l) = true) (hl : (lane m l).logical.isSome = true) :
    loseLaneLock m l = declareLoal (setLane m l { lane m l with logical := none }) (lanePort m l) := by
  obtain ⟨v, hv⟩ := Option.isSome_iff_exists.mp hl
  simp [loseLaneLock, hg, hv]

theorem loseLaneLock_of_ethernet (hg : isGelix m (lanePort m l) = false) (he : portEnabled m (lanePort m l) = true)
    (hw : 2 ≤ width m (lanePort m l)) (ha : (port m (lanePort m l)).aligned = true) : loseLaneLock m l = declareLoal m (lanePort m l) := by
  simp [loseLaneLock, hg, he, hw, ha]

/-- A lane that reaches lane lock is logical lane m mod k, and stays so while it is locked (R118, R121). -/
theorem logical_laneLocked {mfas : Nat} (hm : mfas < 256) (hcw : (lane m l).cwLock = true) (hg : isGelix m (lanePort m l) = true) :
    (lane (laneLocked m l mfas) l).logical = some ((lane m l).logical.getD (mfas % width m (lanePort m l))) := by
  cases hl : (lane m l).logical with
  | none => simp [laneLocked, hcw, hg, hl, Nat.mod_eq_of_lt hm]
  | some v => simp [laneLocked, hl]

/-! ### The commands of lanes -/

theorem exec_losDeclare {s : State} {l : Fin 64} (hr : s.mod.sys.running = true) :
    exec (.losDeclare l) s = .next (finish (s.upd (laneLos s.mod l true))) :=
  run_whileOn (c := .losDeclare l) "LOS_DECLARE" (fun m => laneLos m l true) rfl hr
theorem exec_losClear {s : State} {l : Fin 64} (hr : s.mod.sys.running = true) :
    exec (.losClear l) s = .next (finish (s.upd (laneLos s.mod l false))) :=
  run_whileOn (c := .losClear l) "LOS_CLEAR" (fun m => laneLos m l false) rfl hr
theorem exec_lolDeclare {s : State} {l : Fin 64} (hr : s.mod.sys.running = true) :
    exec (.lolDeclare l) s = .next (finish (s.upd (laneLol s.mod l true))) :=
  run_whileOn (c := .lolDeclare l) "LOL_DECLARE" (fun m => laneLol m l true) rfl hr
theorem exec_lolClear {s : State} {l : Fin 64} (hr : s.mod.sys.running = true) :
    exec (.lolClear l) s = .next (finish (s.upd (laneLol s.mod l false))) :=
  run_whileOn (c := .lolClear l) "LOL_CLEAR" (fun m => laneLol m l false) rfl hr
theorem exec_adaptComplete {s : State} {l : Fin 64} (hr : s.mod.sys.running = true) :
    exec (.adaptComplete l) s = .next (finish (s.upd (laneAdapted s.mod l))) :=
  run_whileOn (c := .adaptComplete l) "ADAPT_COMPLETE" (fun m => laneAdapted m l) rfl hr
theorem exec_codewordLock {s : State} {l : Fin 64} (hr : s.mod.sys.running = true) :
    exec (.codewordLock l) s = .next (finish (s.upd (codewordLocked s.mod l))) :=
  run_whileOn (c := .codewordLock l) "CODEWORD_LOCK" (fun m => codewordLocked m l) rfl hr
theorem exec_laneLock {s : State} {l : Fin 64} {mfas : Nat} (hw : (Instr.laneLock l mfas).wf = true) (hr : s.mod.sys.running = true) :
    exec (.laneLock l mfas) s = .next (finish (s.upd (laneLocked s.mod l mfas))) :=
  run_whileOn (c := .laneLock l mfas) "LANE_LOCK" (fun m => laneLocked m l mfas) hw hr
theorem exec_codewordLockLoss {s : State} {l : Fin 64} (hr : s.mod.sys.running = true) :
    exec (.codewordLockLoss l) s = .next (finish (s.upd (loseCodeword s.mod l))) :=
  run_whileOn (c := .codewordLockLoss l) "CODEWORD_LOCK_LOSS" (fun m => loseCodeword m l) rfl hr
theorem exec_laneLockLoss {s : State} {l : Fin 64} (hr : s.mod.sys.running = true) :
    exec (.laneLockLoss l) s = .next (finish (s.upd (loseLaneLock s.mod l))) :=
  run_whileOn (c := .laneLockLoss l) "LANE_LOCK_LOSS" (fun m => loseLaneLock m l) rfl hr

/-- Settles O21: each detector writes its lane and the port follows through `fallBack`, and every loss of lane lock is `declareLoal` on the
state with the lane written. -/
theorem lanesDeclareLockAndLose : Obligations.LanesDeclareLockAndLose := by
  refine ⟨fun s l hr hp => ⟨?_, ?_, ?_, ?_, fun hlos hlol => ?_⟩, fun s l hr => ⟨fun hg he => ?_, fun mfas hw hcw hg => ?_,
    fun hcw => ?_, fun hl hg => ?_,
    fun hg he hw ha h3 => ?_⟩⟩
  · have hm := (setLos_move s.mod l.val true).trans (fallBack_move _ (lanePort s.mod l.val) 1)
    refine ⟨_, exec_losDeclare hr, ?_⟩
    simp only [finish_mod, State.upd_mod, lane_settleOver, port_settleOver, laneLos_declare hp, hm.lane_setLane.1]
    refine ⟨Lane.withLos_los .., fun h => ?_, fun he h0 => ?_, fun j hj => hm.lane_setLane.2 j hj⟩
    · simp [Lane.withLos, h]
    · exact phase_back_to_acquire (setLos_move s.mod l.val true) he (phase_setLos_pos s.mod l.val true h0)
  · have hm := setLos_move s.mod l.val false
    refine ⟨_, exec_losClear hr, ?_⟩
    simp only [finish_mod, State.upd_mod, lane_settleOver, laneLos_clear hp, hm.lane_setLane.1]
    exact ⟨Lane.withLos_los .., fun j hj => hm.lane_setLane.2 j hj⟩
  · have hm := (setLol_move s.mod l.val true).trans (fallBack_move _ (lanePort s.mod l.val) 1)
    refine ⟨_, exec_lolDeclare hr, ?_⟩
    simp only [finish_mod, State.upd_mod, lane_settleOver, port_settleOver, laneLol_declare hp, hm.lane_setLane.1]
    exact ⟨Lane.withLol_lol .., fun he h0 => phase_back_to_acquire (setLol_move s.mod l.val true) he (phase_setLol_pos s.mod l.val true h0),
      fun j hj => hm.lane_setLane.2 j hj⟩
  · obtain ⟨x, hx, hm⟩ := laneLol_clear hp
    refine ⟨_, exec_lolClear hr, ?_⟩
    simp only [finish_mod, State.upd_mod, lane_settleOver, hm.lane_setLane.1]
    exact ⟨hx, fun j hj => hm.lane_setLane.2 j hj⟩
  · have hm := laneAdapted_move hp hlos hlol
    refine ⟨_, exec_adaptComplete hr, ?_⟩
    simp only [finish_mod, State.upd_mod, lane_settleOver, port_settleOver, hm.lane_setLane.1]
    exact ⟨trivial, fun j hj => hm.lane_setLane.2 j hj, phase_laneAdapted hp hlos hlol⟩
  · refine ⟨_, exec_codewordLock hr, ?_⟩
    simp [codewordLocked, hg, he]
  · refine ⟨_, exec_laneLock hw hr, ?_⟩
    simp only [finish_mod, State.upd_mod, lane_settleOver]
    exact logical_laneLocked (by simpa [Instr.wf, fitsU] using hw) hcw hg
  · have hm := loseCodeword_move hcw
    refine ⟨_, exec_codewordLockLoss hr, ?_⟩
    simp only [finish_mod, State.upd_mod, lane_settleOver, port_settleOver, hm.lane_setLane.1]
    refine ⟨trivial, trivial, fun hl => ?_⟩
    rw [loseCodeword_of_logical hcw hl, loal_declareLoal]
  · have hm := declareLoal_move (setLane s.mod l.val { lane s.mod l.val with logical := none }) (lanePort s.mod l.val)
    refine ⟨_, exec_laneLockLoss hr, ?_⟩
    simp only [finish_mod, State.upd_mod, lane_settleOver, port_settleOver, rxOf_settleOver, loseLaneLock_of_gelix hg hl, hm.lane_setLane.1,
      loal_declareLoal]
    exact ⟨trivial, trivial, trivial, fun h2 => absurd (h2.symm.trans (st_declareLoal hg)) (by decide), fun he h3 => phase_declareLoal he h3,
      fun he ha h3 => phase_declareLoal_early he ha h3⟩
  · refine ⟨_, exec_laneLockLoss hr, ?_⟩
    simp only [finish_mod, State.upd_mod, port_settleOver, loseLaneLock_of_ethernet hg he hw ha]
    exact ⟨loal_declareLoal .., phase_declareLoal he h3⟩

end Sys2Proof.Machine
end

