-- ==== Sys2Proof/Proofs/Ports.lean ====
section
/-! PROOFS. Ports that align, follow faults, time out and forward faults, and the defects LOF and LOM (R60 to R70, R153 to R155, R172, R175). -/

namespace Sys2Proof.Machine

/-! ### Moves and layout -/

theorem settleOver_refreshed (p : Nat) (m : Mod) : Refreshed p m (settleOver m) :=
  ⟨settleOver_move m, settleOver_rx m, by rw [port_settleOver]⟩

theorem advance_layout (m : Mod) (n : Nat) : SameLayout m (advance m n) := fun s e hs =>
  congrArg Val.toNat (look_advance_ne m n (by omega) (by omega))

/-- A count of the alignments of a port changes no setting (0x3100:0A). -/
theorem bump_aligned_layout (m : Mod) (p n : Nat) : SameLayout m (bump m 0x3100 0x0A p n) := fun s e hs =>
  congrArg Val.toNat (look_bump_other m p n e (by omega) (by decide) (by omega) (by simp))

theorem SameLayout.trans {m n k : Mod} (h : SameLayout m n) (h' : SameLayout n k) : SameLayout m k := fun s e hs => (h' s e hs).trans (h s e hs)

/-! ### What forbids a clear port to be up -/

theorem canBeUp_of_fault {m : Mod} {p : Nat} (hp : isLine p = false) (h : (port m p).fault ≠ 0) : canBeUp m p = false := by
  simp [canBeUp, hp, h]
theorem canBeUp_of_pcsLost {m : Mod} {p : Nat} (hp : isLine p = false) (h : (port m p).pcsLost = true) : canBeUp m p = false := by
  simp [canBeUp, hp, h]
theorem canBeUp_of_fwd {m : Mod} {p : Nat} (hp : isLine p = false) (h : (port m p).fwd = true) : canBeUp m p = false := by
  simp [canBeUp, hp, h]

theorem alignedPhase_of_frameMode {m : Mod} {p : Nat} (hp : isLine p = true) (hg : isGelix m p = false) :
    alignedPhase m p = if (port m p).fault = 0 then 4 else 3 := by
  simp [alignedPhase, hp, hg]

/-! ### Alignment -/

/-- A port with its lanes deskewed (R29, R64, R67). -/
def deskewedPort (m : Mod) (p skew : Nat) : Port :=
  { port m p with skew := if width m p = 1 then 0 else skew, deskew := if width m p = 1 then 0 else skew + 10, pcsLost := false, aligned := true }

/-- What `align` is before the port is refreshed: the port deskewed and counted, LOAL cleared, and a Gelix framer in HUNT. -/
def deskewed (m : Mod) (p skew : Nat) : Mod :=
  let m1 := setDefect (bump (setPort m p (deskewedPort m p skew)) 0x3100 0x0A p 1) p 4 false
  if isGelix m1 p then toHunt m1 p else m1

variable {m : Mod} {p skew : Nat}

theorem align_of_small (he : portEnabled m p = true) (ha : (port m p).aligned = false) (h3 : (port m p).phase = 3) (hl : lanesReady m p = true)
    (hs : width m p < 2 ∨ skew ≤ 440) : align m p skew = afterDefect (refreshPort (deskewed m p skew) p 1) p 1 := by
  have hns : ¬(2 ≤ width m p ∧ 440 < skew) := by omega
  unfold align
  rw [if_neg (by simp [he, ha, h3, hl]), if_neg hns]
  rfl

theorem align_of_large (he : portEnabled m p = true) (ha : (port m p).aligned = false) (h3 : (port m p).phase = 3) (hl : lanesReady m p = true)
    (hw : 2 ≤ width m p) (hs : 440 < skew) : align m p skew = declareLoal (setPort m p { port m p with skew := shownSkew skew }) p := by
  simp [align, he, ha, h3, hl, hw, hs]

theorem align_of_aligned (ha : (port m p).aligned = true) : align m p skew = m := by simp [align, ha]

theorem skewExceeded_of_aligned (he : portEnabled m p = true) (hw : 2 ≤ width m p) (ha : (port m p).aligned = true) :
    skewExceeded m p skew = declareLoal (setPort m p { port m p with skew := shownSkew skew }) p := by
  simp [skewExceeded, he, hw, ha]

theorem isGelix_deskewed (m : Mod) (p skew : Nat) : isGelix (deskewed m p skew) p = isGelix m p := by
  have hd : isGelix (setDefect (bump (setPort m p (deskewedPort m p skew)) 0x3100 0x0A p 1) p 4 false) p = isGelix m p := by
    rw [(setDefect_move ..).isGelix, SameLayout.isGelix (bump_aligned_layout _ p 1), (PortMove.setPort ..).isGelix]
  unfold deskewed
  dsimp only
  split
  · rw [(toHunt_move ..).isGelix, hd]
  · exact hd

theorem st_deskewed (hg : isGelix m p = true) : (rxOf (deskewed m p skew) p).st = 0 := by
  have h := isGelix_deskewed m p skew
  unfold deskewed at h ⊢
  dsimp only at h ⊢
  split
  · exact toHunt_st ..
  · rename_i hn
    rw [if_neg hn, hg] at h
    exact absurd h hn

theorem conds_deskewed (m : Mod) (p skew : Nat) :
    (port (deskewed m p skew) p).conds = { deskewedPort m p skew with loal := false }.conds := by
  have hd := conds_setDefect (bump (setPort m p (deskewedPort m p skew)) 0x3100 0x0A p 1) p 4 false
  rw [show port (bump (setPort m p (deskewedPort m p skew)) 0x3100 0x0A p 1) p = deskewedPort m p skew from by
    unfold port; rw [bump_ports, ← port, port_setPort_same]] at hd
  unfold deskewed
  dsimp only
  split
  · rw [conds_toHunt, hd]; rfl
  · rw [hd]; rfl

theorem field_deskewed {γ : Type} (f : Port → γ) (hf : ∀ x : Port, f x.conds = f x) (m : Mod) (p skew : Nat) :
    f (port (deskewed m p skew) p) = f { deskewedPort m p skew with loal := false } := by
  rw [← hf, conds_deskewed, hf]

/-- What an alignment leaves in the conditions of the port, once it has been refreshed. -/
theorem align_refreshed (m : Mod) (p skew : Nat) : Refreshed p (deskewed m p skew) (afterDefect (refreshPort (deskewed m p skew) p 1) p 1) :=
  (refreshPort_refreshed ..).trans (afterDefect_refreshed ..)

/-- An aligned line port is Up, but for a Gelix port, whose framer hunts, and one that receives a fault (R60; log 50). -/
theorem phase_align_of_line (hp : isLine p = true) :
    (port (afterDefect (refreshPort (deskewed m p skew) p 1) p 1) p).phase = if isGelix m p || (port m p).fault != 0 then 3 else 4 := by
  obtain ⟨since, h⟩ := port_afterDefect_of_line hp (refreshPort (deskewed m p skew) p 1) 1
  have hf : (port (deskewed m p skew) p).fault = (port m p).fault := field_deskewed Port.fault (fun _ => rfl) m p skew
  rw [h]
  change (port (refreshPort (deskewed m p skew) p 1) p).phase = _
  rw [refreshPort_of_line hp, phase_refreshPhase,
    if_pos (show (port (deskewed m p skew) p).aligned = true from field_deskewed Port.aligned (fun _ => rfl) m p skew)]
  cases hg : isGelix m p with
  | true => rw [alignedPhase_of_hunt (by rw [isGelix_deskewed, hg]) (st_deskewed hg)]; rfl
  | false =>
    rw [alignedPhase_of_frameMode hp (by rw [isGelix_deskewed, hg]), hf]
    by_cases h0 : (port m p).fault = 0 <;> simp [h0]

theorem exec_portAligned {s : State} {p : Fin 64} (skew : Nat) (hr : s.mod.sys.running = true) :
    exec (.portAligned p skew) s = .next (finish (s.upd (align s.mod p skew))) :=
  run_whileOn (c := .portAligned p skew) "PORT_ALIGNED" (fun m => align m p skew) rfl hr
theorem exec_skewLimitExceeded {s : State} {p : Fin 64} (skew : Nat) (hr : s.mod.sys.running = true) :
    exec (.skewLimitExceeded p skew) s = .next (finish (s.upd (skewExceeded s.mod p skew))) :=
  run_whileOn (c := .skewLimitExceeded p skew) "SKEW_LIMIT_EXCEEDED" (fun m => skewExceeded m p skew) rfl hr

/-- LOAL of an enabled port at Align or later, whatever its skew was set to. -/
theorem loal_of_skew (he : portEnabled m p = true) (h3 : 3 ≤ (port m p).phase) (skew : Nat) :
    (port (declareLoal (setPort m p { port m p with skew := shownSkew skew }) p) p).loal = true ∧
      (port (declareLoal (setPort m p { port m p with skew := shownSkew skew }) p) p).phase = 3 :=
  ⟨loal_declareLoal .., phase_declareLoal (by rw [(PortMove.setPort ..).portEnabled, he]) (by rw [port_setPort_same]; exact h3)⟩

/-- Settles O22: a small skew deskews the port, which is then refreshed; a large one, or one that leaves what the port absorbs, is LOAL. -/
theorem alignmentDeskewsOrDeclaresLoal : Obligations.AlignmentDeskewsOrDeclaresLoal := by
  intro s p skew hr he
  refine ⟨fun hl h3 ha hs => ?_, fun hl h3 ha hw hs => ?_, fun hw ha h3 => ?_, fun ha => ?_⟩
  · have hm := (align_refreshed s.mod p skew).trans (settleOver_refreshed p _)
    have hf {γ : Type} (f : Port → γ) (h : ∀ x : Port, f x.conds = f x) := (hm.field f h).trans (field_deskewed f h s.mod p skew)
    refine ⟨_, exec_portAligned skew hr, ?_⟩
    rw [finish_mod, State.upd_mod, align_of_small he ha h3 hl hs]
    refine ⟨hf Port.loal fun _ => rfl, hf Port.skew fun _ => rfl, hf Port.deskew fun _ => rfl, fun hp => ?_, fun hp => ?_⟩
    · rw [port_settleOver, phase_align_of_line hp]
    · have hc := ((afterDefect_refreshed (refreshPort (deskewed s.mod p skew) p 1) p 1).trans (settleOver_refreshed p _)).canBeUp
      have hal : (port (refreshPort (deskewed s.mod p skew) p 1) p).aligned = true :=
        (refreshPort_refreshed ..).aligned.trans (field_deskewed Port.aligned (fun _ => rfl) s.mod p skew)
      rw [hc, port_settleOver, up_afterDefect hp, phase_afterDefect hp, if_pos hal]
      exact ⟨rfl, rfl⟩
  · refine ⟨_, exec_portAligned skew hr, ?_⟩
    rw [finish_mod, State.upd_mod, align_of_large he ha h3 hl hw hs, port_settleOver]
    exact loal_of_skew he (by omega) skew
  · refine ⟨_, exec_skewLimitExceeded skew hr, ?_⟩
    rw [finish_mod, State.upd_mod, skewExceeded_of_aligned he hw ha, port_settleOver]
    exact loal_of_skew he h3 skew
  · refine ⟨_, exec_portAligned skew hr, ?_⟩
    rw [finish_mod, State.upd_mod, align_of_aligned ha, port_settleOver]
    exact ⟨rfl, rfl⟩

/-! ### Faults received, lock lost -/

theorem faultReceived_of_enabled (he : portEnabled m p = true) (hg : isGelix m p = false) (kind : Nat) :
    faultReceived m p kind = refreshPort (setPort m p { port m p with fault := kind }) p 3 := by
  simp [faultReceived, he, hg]

theorem pcsLoss_of_enabled (he : portEnabled m p = true) (hg : isGelix m p = false) :
    pcsLoss m p = afterDefect (setPort m p { port m p with pcsLost := true, aligned := false, phase := min (port m p).phase 3 }) p 2 := by
  simp [pcsLoss, he, hg]

/-! ### Time-out -/

/-- The lanes of a port begin to train anew (R61). -/
def retrain (m : Mod) (ls : List Nat) : Mod := ls.foldl (fun m l => setLane m l { lane m l with cdr := false, adapted := false }) m

theorem retrain_lanes_form (m : Mod) (ls : List Nat) : ∃ lanes, retrain m ls = { m with lanes := lanes } := by
  unfold retrain
  induction ls generalizing m with
  | nil => exact ⟨m.lanes, rfl⟩
  | cons l r ih =>
    obtain ⟨lanes, h⟩ := ih (setLane m l { lane m l with cdr := false, adapted := false })
    exact ⟨lanes, by rw [List.foldl_cons, h]; rfl⟩

/-- A lane that trains anew, or has none of its clock and equalisation, has none after the others begin anew. -/
theorem retrain_keeps (ls : List Nat) (m : Mod) (j : Nat) (h : (lane m j).adapted = false ∧ (lane m j).cdr = false) :
    (lane (retrain m ls) j).adapted = false ∧ (lane (retrain m ls) j).cdr = false := by
  unfold retrain
  induction ls generalizing m with
  | nil => exact h
  | cons l r ih =>
    refine ih _ ?_
    by_cases hj : j = l
    · rw [hj, lane_setLane_same]; exact ⟨rfl, rfl⟩
    · rw [lane_setLane_ne _ _ hj]; exact h

theorem retrain_lane (ls : List Nat) (m : Mod) {j : Nat} (hj : j ∈ ls) :
    (lane (retrain m ls) j).adapted = false ∧ (lane (retrain m ls) j).cdr = false := by
  induction ls generalizing m with
  | nil => cases hj
  | cons l r ih =>
    obtain rfl | hj := List.mem_cons.mp hj
    · exact retrain_keeps r _ j (by rw [lane_setLane_same]; exact ⟨rfl, rfl⟩)
    · exact ih _ hj

/-- The state in which an enabled port times out: its second is over, and event 0x2013 raised once. -/
def timedOutAt (m : Mod) (p : Nat) : Mod :=
  if (port m p).timedOut then advanceTo m ((port m p).enabledAt + secCycles)
  else raise (advanceTo m ((port m p).enabledAt + secCycles)) 0x2013 (srcH (harbourOf p)) 0 (b1 p ++ b1 (port m p).phase)

theorem timedOutAt_elapsed (m : Mod) (p : Nat) :
    (timedOutAt m p).sys.elapsed = (advanceTo m ((port m p).enabledAt + secCycles)).sys.elapsed := by
  unfold timedOutAt
  split <;> rfl

theorem timedOutAt_layout (m : Mod) (p : Nat) : SameLayout m (timedOutAt m p) := by
  unfold timedOutAt
  split
  · exact advance_layout _ _
  · exact SameLayout.trans (advance_layout _ _) (PortMove.raise ..).layout

theorem upTimeout_of_wasUp (h : (port m p).wasUp = true) : upTimeout m p = m := by simp [upTimeout, h]

theorem upTimeout_of_not_wasUp (he : portEnabled m p = true) (h : (port m p).wasUp = false) :
    upTimeout m p = signalFault (setPort (retrain (timedOutAt m p) (portLanes (timedOutAt m p) p)) p
      { port (retrain (timedOutAt m p) (portLanes (timedOutAt m p) p)) p with
        timedOut := true, phase := 1, aligned := false, enabledAt := (advanceTo m ((port m p).enabledAt + secCycles)).sys.elapsed }) p := by
  simp only [upTimeout, he, h, Bool.not_true, Bool.or_false, Bool.false_eq_true, if_false]
  rfl

/-! ### Fault forwarding -/

/-- The trigger whose hold-off ends first is one of them, declared no later than any (R172). -/
theorem firstHeld_spec (m : Mod) (src : Nat) (bs : List Nat) (h : bs ≠ []) :
    ∃ b, firstHeld m src bs = some b ∧ b ∈ bs ∧ ∀ c ∈ bs, tget 0 (port m src).since b ≤ tget 0 (port m src).since c := by
  induction bs with
  | nil => exact absurd rfl h
  | cons b r ih =>
    rw [firstHeld]
    by_cases hr : r = []
    · subst hr
      exact ⟨b, rfl, by simp, by simp⟩
    · obtain ⟨c, hc, hmem, hmin⟩ := ih hr
      rw [hc]
      dsimp only
      split
      · rename_i hlt
        exact ⟨c, rfl, by simp [hmem], fun d hd => by
          obtain rfl | hd := List.mem_cons.mp hd
          · omega
          · exact hmin d hd⟩
      · rename_i hge
        exact ⟨b, rfl, by simp, fun d hd => by
          obtain rfl | hd := List.mem_cons.mp hd
          · exact Nat.le_refl _
          · have := hmin d hd; omega⟩

theorem forwardStart_of_held (hp : isLine p = false) (hs : inf m 0x3310 1 p < 64) (hf : (port m p).fwd = false) (he : portEnabled m p = true)
    {b : Nat} (hb : firstHeld m (inf m 0x3310 1 p) (triggers m (inf m 0x3310 1 p) (inf m 0x3310 2 p)) = some b) :
    ∃ m1 ps, m1 = advanceTo m (tget 0 (port m (inf m 0x3310 1 p)).since b - 1 + inf m 0x3310 3 p * msCycles) ∧
      forwardStart m p = refreshPort (raise (setPort m1 p { port m1 p with fwd := true }) 0x2014 (srcH (harbourOf p)) 0 ps) p 1 := by
  refine ⟨_, b1 p ++ b1 (inf m 0x3310 1 p) ++ b1 (b - 1), rfl, ?_⟩
  simp only [forwardStart, hp, hf, he, hb, Nat.not_le.mpr hs, decide_false, Bool.not_true, Bool.or_false, Bool.false_eq_true, if_false]

/-! ### LOF and LOM -/

theorem lofDeclared_eq (hg : isGelix m p = true) (he : portEnabled m p = true) (hst : (rxOf m p).st ≠ 2) :
    lofDeclared m p = setDefect (advanceTo m ((rxOf m p).oofAt + (3 * msCycles - (rxOf m p).oofHeld))) p 5 true := by
  simp [lofDeclared, hg, he, hst]

theorem lofCleared_eq (hg : isGelix m p = true) (hst : (rxOf m p).st = 2) :
    lofCleared m p = setDefect (setRx (advanceTo m ((rxOf m p).syncAt + 3 * msCycles)) p { rxOf m p with oofHeld := 0 }) p 5 false := by
  simp [lofCleared, hg, hst]

theorem lomDeclared_eq (hg : isGelix m p = true) (hst : (rxOf m p).st = 2) (hmf : (rxOf m p).mfIn = false) :
    lomDeclared m p = setDefect (advanceTo m ((rxOf m p).mfInAt + (msCycles - (rxOf m p).lomHeld))) p 6 true := by
  simp [lomDeclared, hg, hst, hmf]

theorem lomCleared_eq (hg : isGelix m p = true) (hst : (rxOf m p).st = 2) (hmf : (rxOf m p).mfIn = true) :
    lomCleared m p = setDefect (advanceTo m ((rxOf m p).mfInAt + msCycles)) p 6 false := by
  simp [lomCleared, hg, hst, hmf]

/-- A defect set once time has run to a cycle: it is that cycle or later. -/
theorem elapsed_setDefect_advanceTo (m : Mod) (t p b : Nat) (on : Bool) : t ≤ (settleOver (setDefect (advanceTo m t) p b on)).sys.elapsed := by
  rw [settleOver_sys, (setDefect_move ..).sys, advanceTo_elapsed]
  exact Nat.le_max_right ..

/-! ### The commands -/

theorem exec_faultSignalReceived {s : State} {p : Fin 64} {kind : Nat} (hw : (Instr.faultSignalReceived p kind).wf = true)
    (hr : s.mod.sys.running = true) : exec (.faultSignalReceived p kind) s = .next (finish (s.upd (faultReceived s.mod p kind))) :=
  run_whileOn "FAULT_SIGNAL_RECEIVED" (fun m => faultReceived m p kind) hw hr
theorem exec_pcsFecLockLoss {s : State} {p : Fin 64} (hr : s.mod.sys.running = true) :
    exec (.pcsFecLockLoss p) s = .next (finish (s.upd (pcsLoss s.mod p))) :=
  run_whileOn (c := .pcsFecLockLoss p) "PCS_FEC_LOCK_LOSS" (fun m => pcsLoss m p) rfl hr
theorem exec_portUpTimeout {s : State} {p : Fin 64} (hr : s.mod.sys.running = true) :
    exec (.portUpTimeout p) s = .next (finish (s.upd (upTimeout s.mod p))) :=
  run_whileOn (c := .portUpTimeout p) "PORT_UP_TIMEOUT" (fun m => upTimeout m p) rfl hr
theorem exec_faultForwardStart {s : State} {p : Fin 64} (hr : s.mod.sys.running = true) :
    exec (.faultForwardStart p) s = .next (finish (s.upd (forwardStart s.mod p))) :=
  run_whileOn (c := .faultForwardStart p) "FAULT_FORWARD_START" (fun m => forwardStart m p) rfl hr
theorem exec_lofDeclare {s : State} {p : Fin 64} (hr : s.mod.sys.running = true) :
    exec (.lofDeclare p) s = .next (finish (s.upd (lofDeclared s.mod p))) :=
  run_whileOn (c := .lofDeclare p) "LOF_DECLARE" (fun m => lofDeclared m p) rfl hr
theorem exec_lofClear {s : State} {p : Fin 64} (hr : s.mod.sys.running = true) :
    exec (.lofClear p) s = .next (finish (s.upd (lofCleared s.mod p))) :=
  run_whileOn (c := .lofClear p) "LOF_CLEAR" (fun m => lofCleared m p) rfl hr
theorem exec_lomDeclare {s : State} {p : Fin 64} (hr : s.mod.sys.running = true) :
    exec (.lomDeclare p) s = .next (finish (s.upd (lomDeclared s.mod p))) :=
  run_whileOn (c := .lomDeclare p) "LOM_DECLARE" (fun m => lomDeclared m p) rfl hr
theorem exec_lomClear {s : State} {p : Fin 64} (hr : s.mod.sys.running = true) :
    exec (.lomClear p) s = .next (finish (s.upd (lomCleared s.mod p))) :=
  run_whileOn (c := .lomClear p) "LOM_CLEAR" (fun m => lomCleared m p) rfl hr

/-! ### What the port shows after each -/

/-- A line port refreshed shows the phase of an aligned port; a clear one is up exactly while nothing forbids it. -/
theorem faultReceived_spec (he : portEnabled m p = true) (hg : isGelix m p = false) (kind : Nat) :
    (port (faultReceived m p kind) p).fault = kind ∧
      (isLine p = true → (port m p).aligned = true → (port (faultReceived m p kind) p).phase = if kind = 0 then 4 else 3) ∧
      (isLine p = false → (port (faultReceived m p kind) p).up = canBeUp (faultReceived m p kind) p ∧
        (kind ≠ 0 → (port (faultReceived m p kind) p).up = false)) := by
  rw [faultReceived_of_enabled he hg]
  have hm := refreshPort_refreshed (setPort m p { port m p with fault := kind }) p 3
  have hf : (port (refreshPort (setPort m p { port m p with fault := kind }) p 3) p).fault = kind := by rw [hm.fault, port_setPort_same]
  refine ⟨hf, fun hp ha => ?_, fun hp => ?_⟩
  · rw [refreshPort_of_line hp, phase_refreshPhase, port_setPort_same, if_pos ha, alignedPhase_of_frameMode hp, port_setPort_same]
    exact ((PortMove.setPort ..).isGelix p).trans hg
  · rw [up_refreshPort hp, ← hm.canBeUp]
    exact ⟨rfl, fun hk => canBeUp_of_fault hp (by rw [hf]; exact hk)⟩

theorem pcsLoss_spec (he : portEnabled m p = true) (hg : isGelix m p = false) :
    (port (pcsLoss m p) p).pcsLost = true ∧ (port (pcsLoss m p) p).phase = min (port m p).phase 3 ∧
      (isLine p = false → (port (pcsLoss m p) p).up = false) := by
  rw [pcsLoss_of_enabled he hg]
  have hx := port_setPort_same m p { port m p with pcsLost := true, aligned := false, phase := min (port m p).phase 3 }
  refine ⟨?_, ?_, fun hp => ?_⟩
  · rw [(afterDefect_refreshed ..).pcsLost, hx]
  · obtain h | ⟨ha, -⟩ := phase_afterDefect_cases
        (setPort m p { port m p with pcsLost := true, aligned := false, phase := min (port m p).phase 3 }) p 2
    · rw [h, hx]
    · rw [hx] at ha; cases ha
  · rw [up_afterDefect hp]
    exact canBeUp_of_pcsLost hp (by rw [hx])

/-- The port at whose time-out the lanes begin anew: it has timed out, and hunts for its clock from the end of its second. -/
theorem upTimeout_spec (he : portEnabled m p = true) (h : (port m p).wasUp = false) :
    (port (upTimeout m p) p).timedOut = true ∧ (port (upTimeout m p) p).phase = 1 ∧
      (∀ l ∈ portLanes m p, (lane (upTimeout m p) l).adapted = false ∧ (lane (upTimeout m p) l).cdr = false) ∧
      (port m p).enabledAt + secCycles ≤ (upTimeout m p).sys.elapsed ∧ (port (upTimeout m p) p).enabledAt = (upTimeout m p).sys.elapsed := by
  rw [upTimeout_of_not_wasUp he h, (timedOutAt_layout m p).portLanes]
  generalize hn : retrain (timedOutAt m p) (portLanes m p) = n
  have hlane : ∀ l ∈ portLanes m p, (lane n l).adapted = false ∧ (lane n l).cdr = false := fun l hl => hn ▸ retrain_lane _ _ hl
  have hel : n.sys.elapsed = (advanceTo m ((port m p).enabledAt + secCycles)).sys.elapsed := by
    obtain ⟨lanes, hlanes⟩ := retrain_lanes_form (timedOutAt m p) (portLanes m p)
    rw [← hn, hlanes]
    exact timedOutAt_elapsed m p
  generalize hx : ({ port n p with timedOut := true, phase := 1, aligned := false,
                                   enabledAt := (advanceTo m ((port m p).enabledAt + secCycles)).sys.elapsed } : Port) = x
  have hmove := (signalFault_refreshed (setPort n p x) p).toPortMove
  obtain ⟨sends, hs⟩ := port_signalFault_same (setPort n p x) p
  have hsys : (signalFault (setPort n p x) p).sys.elapsed = (advanceTo m ((port m p).enabledAt + secCycles)).sys.elapsed := by
    rw [hmove.sys]; exact hel
  rw [hs, port_setPort_same, hsys]
  refine ⟨by rw [← hx], by rw [← hx], fun l hl => ?_, ?_, by rw [← hx]⟩
  · rw [hmove.lane]
    exact hlane l hl
  · rw [advanceTo_elapsed]
    exact Nat.le_max_right ..

theorem forwardStart_spec (hp : isLine p = false) (hs : inf m 0x3310 1 p < 64) (hf : (port m p).fwd = false) (he : portEnabled m p = true)
    (hbs : triggers m (inf m 0x3310 1 p) (inf m 0x3310 2 p) ≠ []) :
    (port (forwardStart m p) p).fwd = true ∧ (port (forwardStart m p) p).up = false ∧
      ∃ b ∈ triggers m (inf m 0x3310 1 p) (inf m 0x3310 2 p),
        (∀ c ∈ triggers m (inf m 0x3310 1 p) (inf m 0x3310 2 p),
          tget 0 (port m (inf m 0x3310 1 p)).since b ≤ tget 0 (port m (inf m 0x3310 1 p)).since c) ∧
        tget 0 (port m (inf m 0x3310 1 p)).since b - 1 + inf m 0x3310 3 p * msCycles ≤ (forwardStart m p).sys.elapsed := by
  obtain ⟨b, hb, hmem, hmin⟩ := firstHeld_spec m (inf m 0x3310 1 p) _ hbs
  obtain ⟨m1, ps, hm1, h⟩ := forwardStart_of_held hp hs hf he hb
  rw [h]
  generalize hn : raise (setPort m1 p { port m1 p with fwd := true }) 0x2014 (srcH (harbourOf p)) 0 ps = n
  have hfwd : (port n p).fwd = true := by rw [← hn, port_raise, port_setPort_same]
  have hsys : n.sys = m1.sys := by rw [← hn]; rfl
  have hm := refreshPort_refreshed n p 1
  refine ⟨by rw [hm.fwd, hfwd], by rw [up_refreshPort hp]; exact canBeUp_of_fwd hp hfwd, b, hmem, hmin, ?_⟩
  rw [hm.sys, hsys, hm1, advanceTo_elapsed]
  exact Nat.le_max_right ..

/-- The integrator of a receiver of SYNC is at 0 after LOF has cleared. -/
theorem oofHeld_lofCleared (hg : isGelix m p = true) (hst : (rxOf m p).st = 2) : (rxOf (lofCleared m p) p).oofHeld = 0 := by
  rw [lofCleared_eq hg hst]
  unfold rxOf
  rw [setDefect_rx, ← rxOf, rxOf_setRx_same]

/-- Settles O23: each command is its effect on the running module, and what the effect leaves is said above. -/
theorem portsFollowFaultsFramesAndTimeouts : Obligations.PortsFollowFaultsFramesAndTimeouts := by
  refine ⟨fun s p hr he => ⟨fun kind hw hg => ?_, fun hg => ?_, fun hw => ?_, fun hw => ?_, ?_⟩,
    fun s p hr hg => ⟨fun he hst => ?_, fun hst => ⟨?_, fun hmf => ?_, fun hmf => ?_⟩⟩⟩
  · refine ⟨_, exec_faultSignalReceived hw hr, ?_⟩
    rw [finish_mod, State.upd_mod, port_settleOver, (settleOver_refreshed p _).canBeUp]
    exact faultReceived_spec he hg kind
  · refine ⟨_, exec_pcsFecLockLoss hr, ?_⟩
    rw [finish_mod, State.upd_mod, port_settleOver]
    exact pcsLoss_spec he hg
  · refine ⟨_, exec_portUpTimeout hr, ?_⟩
    rw [finish_mod, State.upd_mod, port_settleOver, upTimeout_of_wasUp hw]
  · refine ⟨_, exec_portUpTimeout hr, ?_⟩
    simp only [finish_mod, State.upd_mod, port_settleOver, lane_settleOver, settleOver_sys]
    exact upTimeout_spec he hw
  · rintro _ _ rfl rfl hp hf hs hbs
    refine ⟨_, exec_faultForwardStart hr, ?_⟩
    rw [finish_mod, State.upd_mod, port_settleOver, settleOver_sys]
    exact forwardStart_spec hp hs hf he hbs
  · refine ⟨_, exec_lofDeclare hr, ?_⟩
    rw [finish_mod, State.upd_mod, port_settleOver, lofDeclared_eq hg he hst]
    exact ⟨setDefect_field Port.lof (fun _ => rfl) .., elapsed_setDefect_advanceTo ..⟩
  · refine ⟨_, exec_lofClear hr, ?_⟩
    rw [finish_mod, State.upd_mod, port_settleOver, rxOf_settleOver, settleOver_sys]
    refine ⟨?_, oofHeld_lofCleared hg hst, ?_⟩
    · rw [lofCleared_eq hg hst]
      exact setDefect_field Port.lof (fun _ => rfl) ..
    · rw [lofCleared_eq hg hst, (setDefect_move ..).sys, (PortMove.setRx ..).sys, advanceTo_elapsed]
      exact Nat.le_max_right ..
  · refine ⟨_, exec_lomDeclare hr, ?_⟩
    rw [finish_mod, State.upd_mod, port_settleOver, lomDeclared_eq hg hst hmf]
    exact ⟨setDefect_field Port.lom (fun _ => rfl) .., elapsed_setDefect_advanceTo ..⟩
  · refine ⟨_, exec_lomClear hr, ?_⟩
    rw [finish_mod, State.upd_mod, port_settleOver, lomCleared_eq hg hst hmf]
    exact ⟨setDefect_field Port.lom (fun _ => rfl) .., elapsed_setDefect_advanceTo ..⟩

end Sys2Proof.Machine
end

