-- ==== Sys2Proof/Proofs/ClearFrames.lean ====
section
/-! PROOFS. A frame on a clear port: the checks of R56, the frames held of its flow, its element's action, and the admission to a queue
(R420, R428, R469 to R472). -/

namespace Sys2Proof.Machine

/-! ### Counters -/

/-- A count, where the counter was before it what it was in an earlier state. -/
theorem Counts.of_bump {m n : Mod} {idx sub : Nat} (elem : Nat) (hrow : (objRow idx sub).isSome = true) (h : ¬(idx = 0x2100 ∧ sub ≠ 8))
    (hn : inf n idx sub elem = inf m idx sub elem) : Counts m (bump n idx sub elem 1) idx sub elem 1 := by
  obtain ⟨o, ho⟩ := Option.isSome_iff_exists.mp hrow
  exact ⟨o, ho, by rw [inf_bump_same n idx sub elem 1 o ho h, hn]⟩

/-- What leaves the counter as it is leaves the count. -/
theorem Counts.of_inf {m n k : Mod} {idx sub elem : Nat} (hc : Counts m n idx sub elem 1) (h : inf k idx sub elem = inf n idx sub elem) :
    Counts m k idx sub elem 1 := by
  obtain ⟨o, ho, hv⟩ := hc
  exact ⟨o, ho, h.trans hv⟩

theorem inf_bump_other (m : Mod) {idx sub i s : Nat} (elem n e : Nat) (hs : s < 256) (hsub : sub < 256) (h : ¬(i = idx ∧ s = sub))
    (hd : (idx, sub) ∉ [(0x4000, 1), (0x4000, 2), (0x8010, 1), (0x8010, 5)]) : inf (bump m idx sub elem n) i s e = inf m i s e :=
  congrArg Val.toNat (look_bump_other m elem n e hs hsub h hd)

@[simp] theorem inf_settleOver (m : Mod) : inf (settleOver m) = inf m := by unfold inf; rw [look_settleOver]

theorem inf_raiseOnce (m : Mod) (code unit src bpid : Nat) (ps : Octets) : inf (raiseOnce m code unit src bpid ps) = inf m := by
  rw [raiseOnce_eq]; rfl

/-! ### Held frames that have expired -/

/-- The counts of frames dropped from the learn-hold buffer (R431). -/
theorem dropped_form (l : List Held) (m : Mod) :
    ∃ obj ev, l.foldl (fun m x => bump m 0x5040 0x0B x.d.ingress 1) m = { m with obj := obj, ev := ev } := by
  induction l generalizing m with
  | nil => exact ⟨m.obj, m.ev, rfl⟩
  | cons x r ih =>
    obtain ⟨v, ev, h, -⟩ := bump_form m 0x5040 0x0B x.d.ingress 1
    obtain ⟨obj, ev', h'⟩ := ih (bump m 0x5040 0x0B x.d.ingress 1)
    exact ⟨obj, ev', by rw [List.foldl_cons, h', h]; rfl⟩

theorem inf_dropped (l : List Held) (m : Mod) {i s : Nat} (e : Nat) (hs : s < 256) (h : ¬(i = 0x5040 ∧ s = 0x0B)) :
    inf (l.foldl (fun m x => bump m 0x5040 0x0B x.d.ingress 1) m) i s e = inf m i s e := by
  induction l generalizing m with
  | nil => rfl
  | cons x r ih => rw [List.foldl_cons, ih, inf_bump_other m _ _ e hs (by decide) h (by decide)]

theorem dropExpired_queues (m : Mod) (b : Nat) : (dropExpired m b).queues = m.queues := by
  unfold dropExpired
  dsimp only
  split
  · obtain ⟨obj, ev, h⟩ := dropped_form ((clsOf m b).held.filter fun x => decide (holdEnd m x ≤ m.sys.elapsed))
      (setCls m b { clsOf m b with held := (clsOf m b).held.filter fun x => !decide (holdEnd m x ≤ m.sys.elapsed) })
    rw [h]; rfl
  · rfl

theorem inf_dropExpired (m : Mod) (b : Nat) {i s : Nat} (e : Nat) (hs : s < 256) (h : ¬(i = 0x5040 ∧ s = 0x0B)) :
    inf (dropExpired m b) i s e = inf m i s e := by
  unfold dropExpired
  dsimp only
  split
  · rw [inf_dropped _ _ e hs h]; rfl
  · rfl

/-! ### The frame at its element -/

/-- The state a frame of a port meets at its element: the frames held too long are gone, and the element has counted it (R420). -/
def metElement (m : Mod) (p e : Nat) : Mod := bump (dropExpired m (basinOf p)) 0x5000 9 e 1

variable {m : Mod} {p e : Nat}

theorem metElement_queues : (metElement m p e).queues = m.queues := by unfold metElement; rw [bump_queues, dropExpired_queues]
theorem clsOf_metElement (b : Nat) : clsOf (metElement m p e) b = clsOf (dropExpired m (basinOf p)) b := by
  unfold metElement clsOf; rw [bump_cls]

theorem inf_metElement {i s : Nat} (j : Nat) (hs : s < 256) (h : ¬(i = 0x5040 ∧ s = 0x0B)) (h' : ¬(i = 0x5000 ∧ s = 9)) :
    inf (metElement m p e) i s j = inf m i s j := by
  unfold metElement
  rw [inf_bump_other _ _ _ j hs (by decide) h' (by decide), inf_dropExpired m _ j hs h]

/-! ### Admission -/

theorem admitCheck_mem {d : Desc} {ha : Bool} {sub : Nat} (h : admitCheck m d ha = some sub) : sub ∈ [0x0C, 0x0B, 0x0A, 7, 6, 8, 9] := by
  unfold admitCheck at h
  dsimp only at h
  repeat' split at h
  all_goals simp only [Option.some.injEq, reduceCtorEq] at h
  all_goals exact h ▸ by decide

theorem offer_admitted {d : Desc} (h : admitCheck m d false = none) :
    (queue (offer m d false) d.queue).frames = (queue m d.queue).frames ++ [d] ∧
      (∀ r, r ≠ d.queue → queue (offer m d false) r = queue m r) ∧ Counts m (offer m d false) 0x6010 1 d.queue 1 := by
  have hq (n : Mod) (r : Nat) (k : Nat) : queue (bump (bump n 0x6010 1 d.queue 1) 0x6010 2 d.queue k) r = queue n r := by
    unfold queue; rw [bump_queues, bump_queues]
  unfold offer
  rw [h]
  dsimp only
  refine ⟨?_, fun r hr => ?_, ?_⟩
  · rw [hq, queue_setQueue_same]; rfl
  · rw [hq, queue_setQueue_ne _ _ hr]; rfl
  · generalize hn : setQueue (takeSlot m (slotIn (basinOf d.ingress) (d.assoc != 65536)) d.slot) d.queue
      { queue (takeSlot m (slotIn (basinOf d.ingress) (d.assoc != 65536)) d.slot) d.queue with
        frames := (queue (takeSlot m (slotIn (basinOf d.ingress) (d.assoc != 65536)) d.slot) d.queue).frames ++ [d] } = n
    have hinf : inf n = inf m := by rw [← hn]; rfl
    exact (Counts.of_bump (n := n) _ rfl (by decide) (by rw [hinf])).of_inf
      (inf_bump_other _ _ _ _ (by decide) (by decide) (by decide) (by decide))

/-- The count of a frame not accepted, and what is counted and raised beside it. -/
theorem offer_refused {d : Desc} {sub : Nat} (h : admitCheck m d false = some sub) :
    (offer m d false).queues = m.queues ∧ Counts m (offer m d false) 0x6010 sub d.queue 1 := by
  have hmem := admitCheck_mem h
  have hc : Counts m (bump m 0x6010 sub d.queue 1) 0x6010 sub d.queue 1 :=
    Counts.of_bump _ (by fin_cases hmem <;> rfl) (by omega) rfl
  have hsub : sub < 256 := by fin_cases hmem <;> decide
  unfold offer
  rw [h]
  dsimp only
  generalize hn : bump m 0x6010 sub d.queue 1 = n at hc ⊢
  have hnq : n.queues = m.queues := by rw [← hn, bump_queues]
  have hk {k : Mod} (hk : k = n ∨ k = bump n 0x4020 3 d.assoc 1) : k.queues = m.queues ∧ Counts m k 0x6010 sub d.queue 1 := by
    obtain rfl | rfl := hk
    · exact ⟨hnq, hc⟩
    · exact ⟨by rw [bump_queues, hnq], hc.of_inf (inf_bump_other _ _ _ _ hsub (by decide) (by omega) (by decide))⟩
  generalize hk' : (if sub = 0x0C ∧ d.assoc ≠ 65536 ∧ (!canSend m d.assoc) = true ∧ (!closedQueue m d.queue) = true
    then bump n 0x4020 3 d.assoc 1 else n) = k
  obtain ⟨hkq, hkc⟩ := hk (k := k) (by rw [← hk']; split <;> simp)
  split
  · exact ⟨by rw [raiseOnce_eq]; exact hkq, hkc.of_inf (by rw [inf_raiseOnce])⟩
  · exact ⟨hkq, hkc⟩

/-! ### The lookup -/

variable {b : Octets} {stamp at_ : Nat}

/-- A frame of a port as the learn-hold buffer keeps it (R426 to R428). -/
def toHold (m : Mod) (p e : Nat) (b : Octets) (stamp at_ : Nat) (v6 : Bool) (dst : Nat) : Held :=
  { d := { bytes := b, queue := 0, len := b.length + 4, ingress := p, stamp, at_, berth := inf m 0x5000 2 e }
    flow := (e % 65536, v6, dst), table := inf m 0x5000 3 e, elem := e }

/-- A frame whose flow has frames held joins them, also where the action of its element is fixed or drop (R428). -/
theorem classify_held {v6 : Bool} {dst : Nat} (he : e = directElem p (tagsOf b)) (hd : ipDest b (tagsOf b) = some (v6, dst))
    (hw : (clsOf (metElement m p e) (basinOf p)).held.any (·.flow == (e % 65536, v6, dst)) = true) (ha : inf (metElement m p e) 0x5000 1 e ≤ 1) :
    classify m p b stamp at_ = holdFrame (metElement m p e) p (toHold (metElement m p e) p e b stamp at_ v6 dst) := by
  subst he
  unfold classify
  dsimp only
  rw [hd]
  exact (if_pos ha).trans (if_pos hw)

/-- A frame that joins its flow in the learn-hold buffer, where there is room. -/
theorem holdFrame_room {x : Held} (hw : (clsOf m (basinOf p)).held.any (·.flow == x.flow) = true) (hr : holdRoom (clsOf m (basinOf p)) x.d.len = true) :
    holdFrame m p x = bump (setCls m (basinOf p) { clsOf m (basinOf p) with held := (clsOf m (basinOf p)).held ++ [x] }) 0x5040 9 p 1 := by
  simp only [holdFrame, hw, hr, Bool.or_true, Bool.not_true, Bool.false_eq_true, if_false]

/-- No frame of a frame's flow is held. -/
def NoneHeld (m : Mod) (p e : Nat) (b : Octets) : Prop :=
  ∀ v6 dst, ipDest b (tagsOf b) = some (v6, dst) → (clsOf m (basinOf p)).held.any (·.flow == (e % 65536, v6, dst)) = false

/-- An element that rejects, with no frame of the flow held. -/
theorem classify_reject (he : e = directElem p (tagsOf b)) (hn : NoneHeld (metElement m p e) p e b) (ha : inf (metElement m p e) 0x5000 1 e = 0) :
    classify m p b stamp at_ = bump (metElement m p e) 0x5040 1 p 1 := by
  subst he
  unfold classify
  dsimp only
  cases hd : ipDest b (tagsOf b) with
  | none =>
    dsimp only
    exact if_pos ha
  | some d =>
    dsimp only
    refine (if_pos (by rw [← metElement, ha]; decide)).trans ((if_neg ?_).trans (if_neg ?_))
    · rw [← metElement, hn d.1 d.2 hd]; decide
    · rw [← metElement, ha]; decide

/-- An element with the action fixed, with no frame of the flow held: the frame goes to the element's default result. -/
theorem classify_fixed (he : e = directElem p (tagsOf b)) (hn : NoneHeld (metElement m p e) p e b) (ha : inf (metElement m p e) 0x5000 1 e = 1) :
    classify m p b stamp at_ =
      forward (metElement m p e) p b stamp at_ 0 (inf (metElement m p e) 0x5000 5 e) (some16 (inf (metElement m p e) 0x5000 6 e)) := by
  subst he
  unfold classify
  dsimp only
  cases hd : ipDest b (tagsOf b) with
  | none =>
    dsimp only
    refine (if_neg ?_).trans (if_pos ?_)
    · rw [← metElement, ha]; decide
    · rw [← metElement, ha]; rfl
  | some d =>
    dsimp only
    refine (if_pos (by rw [← metElement, ha])).trans ((if_neg ?_).trans (if_pos ?_))
    · rw [← metElement, hn d.1 d.2 hd]; decide
    · rw [← metElement, ha]

/-- A result whose association serves the queue's port and keeps no tag in clear: the frame is offered to the queue. -/
theorem forward_offer {heldFor q a : Nat} (ht : aType m a = 1 ∨ aType m a = 5) (hp : aPort m a = qPort m [] q) (h64 : qPort m [] q < 64)
    (hc : clearTag m a = false) : forward m p b stamp at_ heldFor q a = offer m (mkDesc m b q a p stamp at_ heldFor) false := by
  unfold forward
  rw [if_neg (by rintro (h | h | h); exacts [h ht, h hp, by omega]), if_neg (by rw [hc]; simp)]

/-! ### The command -/

theorem exec_clearFrameReceive {s : State} {p : Fin 64} {f : Frame} (hw : (Instr.clearFrameReceive p f).wf = true)
    (hr : receiving s.mod p = true) : exec (.clearFrameReceive p f) s = .next (finish (s.upd (clearReceive s.mod p f))) := by
  refine run_whileOn "CLEAR_FRAME_RECEIVE" (fun m => clearReceive m p f) hw ?_
  unfold receiving at hr
  simp only [Bool.and_eq_true] at hr
  exact hr.1.1.1

theorem portDrop_mem {len et : Nat} {ok : Bool} {sub : Nat} (h : portDrop m p len et ok = some sub) : sub ∈ [0x0D, 0x0E, 0x0F] := by
  unfold portDrop at h
  repeat' split at h
  all_goals simp only [Option.some.injEq, reduceCtorEq] at h
  all_goals exact h ▸ by decide

theorem clearReceive_dropped {f : Frame} {sub : Nat} (hp : isLine p = false) (hr : receiving m p = true)
    (h : portDrop m p (f.bytes.length + 4) (tagsOf f.bytes).ethertype f.fcsOk = some sub) : clearReceive m p f = bump m 0x3100 sub p 1 := by
  simp [clearReceive, hp, hr, h]

/-- A frame that no check of R56 drops and no intercept takes is classified. -/
theorem clearReceive_classified {f : Frame} (hp : isLine p = false) (hr : receiving m p = true)
    (h : portDrop m p (f.bytes.length + 4) (tagsOf f.bytes).ethertype f.fcsOk = none) (het : (tagsOf f.bytes).ethertype ≠ inf m 0x2000 2 0)
    (hclock : infB m 0x7020 1 0 = false ∨ inf m 0x7010 2 0 ≠ p ∨ forClock m f.bytes = false) (hp2p : p2pOn m p = false ∨ isPdelay f.bytes = false) :
    clearReceive m p f = classify m p (linkCorrect m p f.bytes) (stampFine m p f.half) (stampCycle m p) := by
  have hc : (infB m 0x7020 1 0 && inf m 0x7010 2 0 == p && forClock m f.bytes || (p2pOn m p && isPdelay f.bytes)) = false := by
    rw [Bool.or_eq_false_iff]
    constructor
    · obtain h | h | h := hclock <;> simp [h]
    · obtain h | h := hp2p <;> simp [h]
  simp [clearReceive, hp, hr, h, het, hc]

/-- Settles O25: the checks of R56, then the frames held of the flow, then the element's action and the admission to its queue. -/
theorem clearFramesAreClassified : Obligations.ClearFramesAreClassified := by
  intro s p f hw hp hr
  refine ⟨fun sub hsub => ?_, fun hdrop het hclock hp2p b e c hb he hc => ?_⟩
  · refine ⟨_, exec_clearFrameReceive hw hr, ?_⟩
    rw [finish_mod, State.upd_mod, clearReceive_dropped hp hr hsub]
    refine ⟨(Counts.of_bump _ ?_ (by omega) rfl).of_inf (by rw [inf_settleOver]), by rw [settleOver_queues, bump_queues]⟩
    have hmem := portDrop_mem hsub
    fin_cases hmem <;> rfl
  · have hrun : exec (.clearFrameReceive p f) s =
        .next (finish (s.upd (classify s.mod p b (stampFine s.mod p f.half) (stampCycle s.mod p)))) := by
      rw [exec_clearFrameReceive hw hr, clearReceive_classified hp hr hdrop het hclock hp2p, hb]
    have hact : inf (metElement s.mod p e) 0x5000 1 e = inf s.mod 0x5000 1 e := inf_metElement e (by decide) (by decide) (by decide)
    have hcls : clsOf (metElement s.mod p e) (basinOf p) = c := by rw [clsOf_metElement, hc]
    refine ⟨fun v6 dst hd hwait ha hroom => ?_, fun hn => ?_⟩
    · refine ⟨_, toHold (metElement s.mod p e) p e b (stampFine s.mod p f.half) (stampCycle s.mod p) v6 dst, hrun, ?_⟩
      rw [finish_mod, State.upd_mod, classify_held he hd (by rw [hcls]; exact hwait) (by rw [hact]; exact ha),
        holdFrame_room (by rw [hcls]; exact hwait) (by rw [hcls]; exact hroom), hcls]
      refine ⟨?_, rfl, rfl, (Counts.of_bump _ rfl (by decide) ?_).of_inf (by rw [inf_settleOver]), ?_⟩
      · unfold clsOf
        rw [settleOver_cls, bump_cls, ← clsOf, clsOf_setCls_same]
      · rw [inf_setCls, inf_metElement _ (by decide) (by decide) (by decide)]
      · rw [settleOver_queues, bump_queues, setCls_queues, metElement_queues]
    · have hnone : NoneHeld (metElement s.mod p e) p e b := fun v6 dst hd => by rw [hcls]; exact hn v6 dst hd
      refine ⟨fun ha => ?_, fun q a hits d ha hq hassoc ht hport h64 hclear hhits hdesc => ?_⟩
      · refine ⟨_, hrun, ?_⟩
        rw [finish_mod, State.upd_mod, classify_reject he hnone (by rw [hact, ha])]
        exact ⟨(Counts.of_bump _ rfl (by decide) (inf_metElement _ (by decide) (by decide) (by decide))).of_inf (by rw [inf_settleOver]),
          by rw [settleOver_queues, bump_queues, metElement_queues]⟩
      · have same {i t : Nat} (j : Nat) (ht : t < 256) (h : ¬(i = 0x5040 ∧ t = 0x0B)) (h' : ¬(i = 0x5000 ∧ t = 9)) :
            inf hits i t j = inf s.mod i t j := by
          rw [hhits]; exact inf_metElement j ht h h'
        have hfwd : classify s.mod p b (stampFine s.mod p f.half) (stampCycle s.mod p) = offer hits d false := by
          have hty : aType hits a = aType s.mod a := same a (by decide) (by decide) (by decide)
          have hpo : aPort hits a = aPort s.mod a := same a (by decide) (by decide) (by decide)
          have hqp : qPort hits [] q = qPort s.mod [] q := same q (by decide) (by decide) (by decide)
          have hct : clearTag hits a = clearTag s.mod a := congrArg (Nat.testBit · 6) (same a (by decide) (by decide) (by decide))
          rw [classify_fixed he hnone (by rw [hact, ha]), metElement, ← hhits, same e (by decide) (by decide) (by decide),
            same e (by decide) (by decide) (by decide), ← hq, ← hassoc,
            forward_offer (by rw [hty]; exact ht) (by rw [hpo, hqp]; exact hport) (by rw [hqp]; exact h64) (by rw [hct]; exact hclear), ← hdesc]
        have hqueue : d.queue = q := by rw [hdesc]; rfl
        have hqueues : hits.queues = s.mod.queues := by rw [hhits]; exact metElement_queues
        refine ⟨fun hadm => ?_, fun sub hadm => ?_⟩
        · obtain ⟨hin, hother, hcount⟩ := offer_admitted hadm
          rw [hqueue] at hin hother hcount
          refine ⟨_, hrun, ?_⟩
          rw [finish_mod, State.upd_mod, hfwd]
          have hset (r : Nat) : queue (settleOver (offer hits d false)) r = queue (offer hits d false) r := by unfold queue; rw [settleOver_queues]
          have hold (r : Nat) : queue hits r = queue s.mod r := by unfold queue; rw [hqueues]
          refine ⟨by rw [hset, hin, hold], fun r hr => by rw [hset, hother r hr, hold], ?_⟩
          obtain ⟨o, ho, hv⟩ := hcount
          exact ⟨o, ho, by rw [inf_settleOver, hv, same q (by decide) (by decide) (by decide)]⟩
        · obtain ⟨hkeep, hcount⟩ := offer_refused hadm
          rw [hqueue] at hcount
          refine ⟨_, hrun, ?_⟩
          rw [finish_mod, State.upd_mod, hfwd]
          refine ⟨by rw [settleOver_queues, hkeep, hqueues], ?_⟩
          obtain ⟨o, ho, hv⟩ := hcount
          have hmem := admitCheck_mem hadm
          exact ⟨o, ho, by rw [inf_settleOver, hv, same q (by fin_cases hmem <;> decide) (by omega) (by omega)]⟩

end Sys2Proof.Machine
end

