-- ==== Sys2Proof/Proofs/TableWrites.lean ====
section
/-! PROOFS. A WRITE of one record that takes effect at once (R777, R778): learn acknowledgements, prefixes, queries and test patterns
(R81, R414 to R416, R435, R441, R443). -/

namespace Sys2Proof.Machine

/-! ### Numbers as bytes -/

theorem foldl_bytesOf (n v a : Nat) : (bytesOf n v).foldl (fun a b => a * 256 + b.toNat) a = a * 256 ^ n + v % 256 ^ n := by
  induction n generalizing a with
  | zero => simp [bytesOf, Nat.mod_one]
  | succ n ih =>
    have hb : (Byte.ofNat (v / 256 ^ n)).toNat = v / 256 ^ n % 256 := by simp [Byte.ofNat]
    rw [bytesOf, List.foldl_cons, ih, hb, Nat.pow_succ 256 n, Nat.mod_mul]
    ring

theorem natOf_bytesOf {n v : Nat} (h : v < 256 ^ n) : natOf (bytesOf n v) = v := by
  unfold natOf
  rw [foldl_bytesOf, Nat.mod_eq_of_lt h, Nat.zero_mul, Nat.zero_add]

/-! ### One record, in effect at once -/

/-- A record that passes its check has an object of the dictionary and value bytes that its type decodes. -/
theorem recordCheck_ok {m : Mod} {slot : Nat} {r : ValueRec} {o : Obj} {v : Val} (h : recordCheck m slot r = .ok (o, v)) :
    objRow r.addr.idx r.addr.sub = some o ∧ decodeVal o.ty r.data = some v := by
  unfold recordCheck at h
  dsimp only at h
  repeat' split at h
  all_goals cases h
  exact ⟨‹_›, ‹_›⟩

theorem expertEvent_none (before m : Mod) (slot : Nat) {l : List ValueRec} (h : ∀ r ∈ l, isExpert r = false) : expertEvent before slot l m = m := by
  unfold expertEvent
  rw [List.find?_eq_none.mpr fun r hr => by rw [h r hr]; decide]

/-- A record that passes its check, of an object that is not kept pending and reaches no register, has its effect. -/
theorem writeOne_effect {s : State} {slot : Nat} {r : ValueRec} {o : Obj} {v : Val} (hchk : recordCheck s.mod slot r = .ok (o, v)) (hacc : o.acc ≠ .rwc)
    (hx : isExpert r = false) :
    ∃ bodies ≠ [], writeOne r s slot =
      ((effect s slot r.addr.idx r.addr.sub r.addr.elem v).s, (effect s slot r.addr.idx r.addr.sub r.addr.elem v).status, bodies) := by
  unfold writeOne writeRecord
  rw [hchk]
  dsimp only
  rw [if_neg hacc]
  generalize effect s slot r.addr.idx r.addr.sub r.addr.elem v = f
  dsimp only
  rw [expertEvent_none _ _ _ (by split <;> simp [hx]), State.upd_self]
  by_cases hs : f.status = 0
  · rw [if_pos hs]
    exact ⟨_, List.cons_ne_nil _ _, by rw [hs]; rfl⟩
  · rw [if_neg hs]
    exact ⟨_, List.cons_ne_nil _ _, rfl⟩

/-- What an accepted WRITE of one record leaves, beside the reply in its slot: the state after the record's effect. -/
structure Wrote (n : Mod) (i sequence status : Nat) (t : Mod) : Prop where
  answered : Answered t i sequence status
  query : (sess t i).query = (sess n i).query
  sys : t.sys = n.sys
  cls : t.cls = n.cls
  lanes : t.lanes = n.lanes
  counted : t.counted = n.counted
  inf : inf t = inf n

theorem Wrote.clsOf {n t : Mod} {i q st : Nat} (h : Wrote n i q st t) (b : Nat) : clsOf t b = clsOf n b := by unfold Machine.clsOf; rw [h.cls]
theorem Wrote.lane {n t : Mod} {i q st : Nat} (h : Wrote n i q st t) (l : Nat) : lane t l = lane n l := by unfold Machine.lane; rw [h.lanes]

theorem wrote_replySealed {n : Mod} {i id sent op st : Nat} {h : Hdr} {bodies : List Octets} (hb : bodies ≠ []) (hs : (sess n i).state = 2)
    (hid : (sess n i).id = id) : Wrote n i h.sequence st (settleOver (replySealed n i id sent h op st bodies)) where
  answered := by
    have ha := answered_replySealed n i id sent h op st hb hs hid
    unfold Answered at ha ⊢
    rw [sess_settleOver]
    exact ha
  query := by rw [sess_settleOver, sess_replySealed_same n i id sent h op st bodies hs hid]
  sys := by rw [settleOver_sys, replySealed_sys]
  cls := by rw [settleOver_cls, replySealed_cls]
  lanes := by rw [settleOver_lanes, replySealed_lanes]
  counted := by rw [settleOver_counted, replySealed_counted]
  inf := by unfold inf; rw [look_settleOver, look_replySealed]

/-- An accepted WRITE of one record of an object that is not kept pending, whose effect keeps the session: its effect, answered in its slot. -/
theorem writeRow_wrote {s : State} {h : Hdr} {i idx sub e : Nat} {data : Octets} {v : Val} {f : Eff} (o : Obj)
    (hw : WriteClears s.mod h i idx sub (some e) data) (hrow : objRow idx sub = some o) (hacc : o.acc ≠ .rwc) (hdec : decodeVal o.ty data = some v)
    (hx : isExpert (recOf idx sub (some e) data) = false) (hf : effect (s.upd (accept s.mod h i)) i idx sub e v = f)
    (hstate : (sess f.s.mod i).state = (sess (accept s.mod h i) i).state) (hid : (sess f.s.mod i).id = (sess (accept s.mod h i) i).id) :
    Wrote f.s.mod i h.sequence f.status (finish (writeRow s h idx sub (some e) data)).mod := by
  obtain ⟨hacc', hclr⟩ := hw
  have hchk : recordCheck (accept s.mod h i) i (recOf idx sub (some e) data) = .ok (o, v) := by
    cases hc : recordCheck (accept s.mod h i) i (recOf idx sub (some e) data) with
    | error x => rw [Clears, hc] at hclr; cases hclr
    | ok y =>
      obtain ⟨hrow', hdec'⟩ := recordCheck_ok (o := y.1) (v := y.2) hc
      have ho : y.1 = o := Option.some.inj (hrow'.symm.trans hrow)
      rw [ho] at hdec'
      rw [show y = (o, v) from Prod.ext ho (Option.some.inj (hdec'.symm.trans hdec))]
  obtain ⟨bodies, hb, hone⟩ := writeOne_effect (s := s.upd (accept s.mod h i)) hchk hacc hx
  rw [show effect (s.upd (accept s.mod h i)) i (recOf idx sub (some e) data).addr.idx (recOf idx sub (some e) data).addr.sub
    (recOf idx sub (some e) data).addr.elem v = f from hf] at hone
  rw [finish_mod, writeRow, serve_accepted _ _ _ i _ hacc', hone, State.upd_mod]
  obtain ⟨-, -, -, h2, -⟩ := hacc'
  exact wrote_replySealed hb (by rw [hstate, sess_accept_same]; exact h2) (by rw [hid, sess_accept_same])

/-! ### Learn acknowledgements -/

variable {m : Mod}

theorem acknowledgeLearn_pending {b seq : Nat} (h : (clsOf m b).learn.any (·.seq == seq) = true) :
    (acknowledgeLearn m b seq).2 = 0 ∧ sess (acknowledgeLearn m b seq).1 = sess m ∧
      (clsOf (acknowledgeLearn m b seq).1 b).learn = ((clsOf m b).learn.dropWhile fun x => x.seq != seq).drop 1 ∧
      (clsOf (acknowledgeLearn m b seq).1 b).full = false := by
  unfold acknowledgeLearn
  dsimp only
  rw [if_pos h]
  dsimp only
  split
  · rw [clsOf_raise, clsOf_setCls_same]
    exact ⟨rfl, rfl, rfl, rfl⟩
  · rw [clsOf_setCls_same]
    exact ⟨rfl, rfl, rfl, rfl⟩

theorem acknowledgeLearn_unknown {b seq : Nat} (h : (clsOf m b).learn.any (·.seq == seq) = false) : acknowledgeLearn m b seq = (m, 0x2001) := by
  unfold acknowledgeLearn
  dsimp only
  rw [if_neg (by rw [h]; decide)]

/-! ### Prefixes -/

/-- What the classifier's own bookkeeping leaves as it was: the sessions, and every basin's prefixes. -/
structure KeepsPrefixes (m n : Mod) : Prop where
  mgmt : n.mgmt = m.mgmt
  prefixes : ∀ b, (clsOf n b).prefixes = (clsOf m b).prefixes

namespace KeepsPrefixes

variable {m n k : Mod}

theorem refl (m : Mod) : KeepsPrefixes m m := ⟨rfl, fun _ => rfl⟩
theorem trans (h : KeepsPrefixes m n) (h' : KeepsPrefixes n k) : KeepsPrefixes m k :=
  ⟨h'.mgmt.trans h.mgmt, fun b => (h'.prefixes b).trans (h.prefixes b)⟩

theorem of_eq (hm : n.mgmt = m.mgmt) (hc : n.cls = m.cls) : KeepsPrefixes m n := ⟨hm, fun b => by unfold clsOf; rw [hc]⟩

theorem foldl {α : Type} (g : Mod → α → Mod) (hg : ∀ m a, KeepsPrefixes m (g m a)) (l : List α) (m : Mod) : KeepsPrefixes m (l.foldl g m) := by
  induction l generalizing m with
  | nil => exact refl m
  | cons a r ih => exact (hg m a).trans (ih (g m a))

theorem setCls {b : Nat} {x : Cls} (h : x.prefixes = (clsOf m b).prefixes) : KeepsPrefixes m (setCls m b x) := by
  refine ⟨rfl, fun j => ?_⟩
  by_cases hj : j = b
  · rw [hj, clsOf_setCls_same, h]
  · rw [clsOf_setCls_ne _ _ hj]

theorem raise (m : Mod) (code src bpid : Nat) (ps : Octets) : KeepsPrefixes m (raise m code src bpid ps) := .of_eq rfl rfl
theorem bump (m : Mod) (idx sub elem n : Nat) : KeepsPrefixes m (bump m idx sub elem n) := .of_eq (bump_mgmt ..) (bump_cls ..)
theorem raiseOnce (m : Mod) (code unit src bpid : Nat) (ps : Octets) : KeepsPrefixes m (raiseOnce m code unit src bpid ps) :=
  .of_eq (by rw [raiseOnce_eq]) (by rw [raiseOnce_eq])

theorem offer (m : Mod) (d : Desc) (ha : Bool) : KeepsPrefixes m (offer m d ha) := by
  unfold Machine.offer
  cases admitCheck m d ha with
  | none =>
    dsimp only
    refine .trans (.trans ?_ (.bump ..)) (.bump ..)
    exact .of_eq rfl rfl
  | some sub =>
    dsimp only
    have first : KeepsPrefixes m (if sub = 0x0C ∧ d.assoc ≠ 65536 ∧ (!canSend m d.assoc) = true ∧ (!closedQueue m d.queue) = true
        then Machine.bump (Machine.bump m 0x6010 sub d.queue 1) 0x4020 3 d.assoc 1 else Machine.bump m 0x6010 sub d.queue 1) := by
      split
      · exact (bump ..).trans (.bump ..)
      · exact .bump ..
    split
    · exact first.trans (.raiseOnce ..)
    · exact first

theorem forward (m : Mod) (port : Nat) (bytes : Octets) (stamp at_ heldFor q a : Nat) : KeepsPrefixes m (forward m port bytes stamp at_ heldFor q a) := by
  unfold Machine.forward
  split
  · exact .bump ..
  · split
    · exact .bump ..
    · exact .offer ..

theorem onMatch (m : Mod) (port : Nat) (bytes : Octets) (stamp at_ heldFor : Nat) (p : Prefix) :
    KeepsPrefixes m (onMatch m port bytes stamp at_ heldFor p) := by
  unfold Machine.onMatch
  split
  · exact .bump ..
  · exact .forward ..

theorem dropExpired (m : Mod) (b : Nat) : KeepsPrefixes m (dropExpired m b) := by
  unfold Machine.dropExpired
  dsimp only
  split
  · refine .trans ?_ (.foldl _ (fun _ _ => .bump ..) _ _)
    exact .setCls rfl
  · exact .refl m

theorem releaseHeld (m : Mod) (b : Nat) (p : Prefix) : KeepsPrefixes m (releaseHeld m b p) := by
  unfold Machine.releaseHeld
  dsimp only
  refine .trans (.trans (.dropExpired m b) ?_) (.foldl _ (fun n x => ?_) _ _)
  · exact .setCls rfl
  · split
    · exact .refl n
    · exact .trans (.bump ..) (.onMatch ..)

theorem watchBank (m : Mod) (b k : Nat) : KeepsPrefixes m (watchBank m b k) := by
  unfold Machine.watchBank
  dsimp only
  split
  · refine .trans ?_ (.raise ..)
    exact .setCls rfl
  · split
    · exact .setCls rfl
    · exact .refl m

end KeepsPrefixes

/-- An Insert is refused and leaves the classifier as it was, or its entry is in its table with its result (R414, R415). -/
theorem insertPrefix_cases (m : Mod) (n : Nat) (rec : Octets) :
    (insertPrefix m n rec).1.mgmt = m.mgmt ∧
      (((insertPrefix m n rec).2.1 ≠ 0 ∧ (insertPrefix m n rec).1.cls = m.cls) ∨
        ((insertPrefix m n rec).2.1 = 0 ∧ ∃ p q, prefixOf (n % 8) rec false = some p ∧ q ∈ (clsOf (insertPrefix m n rec).1 (n / 8)).prefixes ∧
          samePrefix p q = true ∧ q.drop = p.drop ∧ q.queue = p.queue ∧ q.assoc = p.assoc)) := by
  unfold insertPrefix
  cases hp : prefixOf (n % 8) rec false with
  | none => exact ⟨rfl, .inl ⟨Nat.succ_ne_zero _, rfl⟩⟩
  | some p =>
    dsimp only
    split
    · exact ⟨rfl, .inl ⟨Nat.succ_ne_zero _, rfl⟩⟩
    split
    · exact ⟨rfl, .inl ⟨Nat.succ_ne_zero _, rfl⟩⟩
    split
    · rename_i hany
      obtain ⟨q, hq, hsame⟩ := List.any_eq_true.mp hany
      have keep := KeepsPrefixes.releaseHeld (setCls m (n / 8) { clsOf m (n / 8) with
        prefixes := (clsOf m (n / 8)).prefixes.map fun q => if samePrefix p q then { q with drop := p.drop, queue := p.queue, assoc := p.assoc } else q })
        (n / 8) p
      refine ⟨keep.mgmt, .inr ⟨rfl, p, { q with drop := p.drop, queue := p.queue, assoc := p.assoc }, rfl, ?_, hsame, rfl, rfl, rfl⟩⟩
      rw [keep.prefixes, clsOf_setCls_same]
      exact List.mem_map.mpr ⟨q, hq, if_pos hsame⟩
    split
    · exact ⟨rfl, .inl ⟨Nat.succ_ne_zero _, rfl⟩⟩
    split
    · exact ⟨rfl, .inl ⟨Nat.succ_ne_zero _, rfl⟩⟩
    split
    · exact ⟨bump_mgmt .., .inl ⟨Nat.succ_ne_zero _, bump_cls ..⟩⟩
    split
    · exact ⟨bump_mgmt .., .inl ⟨Nat.succ_ne_zero _, bump_cls ..⟩⟩
    · rename_i ps b w moves _
      have keep := ((KeepsPrefixes.bump (setCls m (n / 8) { clsOf m (n / 8) with
        prefixes := ((clsOf m (n / 8)).prefixes.map fun q => (ps.find? (samePrefix q)).getD q) ++ [{ p with bucket := b, way := w }] })
        0x5130 3 (n / 8 * 8 + bankOfPrefix m (n / 8) p) moves).trans (.watchBank _ (n / 8) (bankOfPrefix m (n / 8) p))).trans
          (.releaseHeld _ (n / 8) p)
      refine ⟨keep.mgmt, .inr ⟨rfl, p, { p with bucket := b, way := w }, rfl, ?_, by simp [samePrefix], rfl, rfl, rfl⟩⟩
      rw [keep.prefixes, clsOf_setCls_same]
      exact List.mem_append_right _ (List.mem_singleton.mpr rfl)

theorem deletePrefix_found {n : Nat} {rec : Octets} {p : Prefix} (hp : prefixOf (n % 8) rec true = some p)
    (h : (clsOf m (n / 8)).prefixes.any (samePrefix p) = true) :
    (deletePrefix m n rec).2 = 0 ∧ (deletePrefix m n rec).1.mgmt = m.mgmt ∧
      (clsOf (deletePrefix m n rec).1 (n / 8)).prefixes = (clsOf m (n / 8)).prefixes.filter fun q => !samePrefix p q := by
  unfold deletePrefix
  rw [hp]
  dsimp only
  rw [if_pos h]
  have keep := KeepsPrefixes.watchBank (setCls m (n / 8) { clsOf m (n / 8) with prefixes := (clsOf m (n / 8)).prefixes.filter fun q => !samePrefix p q })
    (n / 8) (bankOfPrefix m (n / 8) p)
  exact ⟨rfl, keep.mgmt, by rw [keep.prefixes, clsOf_setCls_same]⟩

theorem deletePrefix_unknown {n : Nat} {rec : Octets} {p : Prefix} (hp : prefixOf (n % 8) rec true = some p)
    (h : (clsOf m (n / 8)).prefixes.any (samePrefix p) = false) : deletePrefix m n rec = (m, 0x1002) := by
  unfold deletePrefix
  rw [hp]
  dsimp only
  rw [if_neg (by rw [h]; decide)]

/-! ### Test patterns -/

theorem countLane_of_counted {l : Nat} (h : m.sys.elapsed ≤ tget 0 m.counted l) (on pattern : Bool) : countLane m l on pattern = m := by
  unfold countLane
  rw [if_pos h]

/-- A lane's counters brought up to now: the time has come no further, and they are counted up to it. -/
theorem countLane_spec (m : Mod) (l : Nat) (on pattern : Bool) :
    (countLane m l on pattern).sys = m.sys ∧ (countLane m l on pattern).mgmt = m.mgmt ∧ m.sys.elapsed ≤ tget 0 (countLane m l on pattern).counted l := by
  unfold countLane
  split
  · exact ⟨rfl, rfl, ‹_›⟩
  · dsimp only
    cases on <;> cases pattern <;> simp [tget_tset_same]

/-- A test pattern in force with its count from 0. -/
def patterned (m : Mod) (l v : Nat) : Mod := setNat (setNat (countNow m l) 0x3000 9 l v) 0x3000 0x0A l 0

theorem patterned_spec (m : Mod) (l v : Nat) :
    inf (patterned m l v) 0x3000 9 l = v ∧ inf (patterned m l v) 0x3000 0x0A l = 0 ∧ (patterned m l v).sys = m.sys ∧ (patterned m l v).mgmt = m.mgmt ∧
      m.sys.elapsed ≤ tget 0 (patterned m l v).counted l := by
  obtain ⟨hsys, hmgmt, hc⟩ := countLane_spec m l (lanePowered m l) (inf m 0x3000 9 l != 0)
  unfold patterned
  refine ⟨?_, inf_setNat_same _ _ _ _ _ (by decide), hsys, hmgmt, hc⟩
  rw [inf_setNat_ne _ (okey_ne _ _ (by decide) (by decide) (by decide)) (by decide) (by decide), inf_setNat_same _ _ _ _ _ (by decide)]

/-- A lane powered down whose counters are up to now: the sessions, the counters and what is in force stay. -/
theorem lanePowerDown_spec {l : Nat} (h : m.sys.elapsed ≤ tget 0 m.counted l) (pattern : Bool) :
    (lanePowerDown m l pattern).mgmt = m.mgmt ∧ (lanePowerDown m l pattern).counted = m.counted ∧
      ∀ i t e, t < 256 → ¬portCounter i t → inf (lanePowerDown m l pattern) i t e = inf m i t e := by
  unfold lanePowerDown
  rw [countLane_of_counted h]
  have los := setLos_move m l false
  have lol := setLol_move (setLos m l false) l false
  exact ⟨lol.mgmt.trans los.mgmt, lol.counted.trans los.counted, fun i t e ht hi => (lol.inf e ht hi).trans (los.inf e ht hi)⟩

/-- A write of the test pattern puts it in force; the lane powers up where it was not and is now, and down where it was and no longer is. -/
theorem writePattern_cases (m : Mod) (l v : Nat) :
    (lanePowered m l = false ∧ lanePowered (patterned m l v) l = true ∧ writePattern m l v = lanePowerUp (patterned m l v) l) ∨
    (lanePowered m l = true ∧ writePattern m l v = lanePowerDown (patterned m l v) l false) ∨
    (lanePowered m l = lanePowered (patterned m l v) l ∧ writePattern m l v = patterned m l v) := by
  have form : writePattern m l v = match lanePowered m l, lanePowered (patterned m l v) l with
      | false, true => lanePowerUp (patterned m l v) l
      | true, false => lanePowerDown (patterned m l v) l false
      | _, _ => patterned m l v := rfl
  rw [form]
  cases lanePowered m l <;> cases lanePowered (patterned m l v) l <;> simp

theorem writePattern_spec (m : Mod) (l v : Nat) :
    inf (writePattern m l v) 0x3000 9 l = v ∧ inf (writePattern m l v) 0x3000 0x0A l = 0 ∧ (writePattern m l v).mgmt = m.mgmt ∧
      m.sys.elapsed ≤ tget 0 (writePattern m l v).counted l ∧
      (lanePowered m l = false → v ≠ 0 → lane (writePattern m l v) l = { signal := true, ran := true }) := by
  obtain ⟨hv, h0, hsys, hmgmt, hcounted⟩ := patterned_spec m l v
  have hon : v ≠ 0 → lanePowered (patterned m l v) l = true := fun hne => by simp [lanePowered, hv, hne]
  obtain ⟨-, -, h⟩ | ⟨hp, h⟩ | ⟨hp, h⟩ := writePattern_cases m l v
  · rw [h]
    refine ⟨hv, h0, hmgmt, ?_, fun _ _ => lane_setLane_same ..⟩
    change m.sys.elapsed ≤ tget 0 (tset 0 (patterned m l v).counted l (patterned m l v).sys.elapsed) l
    rw [tget_tset_same, hsys]
  · obtain ⟨dmgmt, dcounted, dinf⟩ := lanePowerDown_spec (m := patterned m l v) (l := l) (by rw [hsys]; exact hcounted) false
    rw [h, dmgmt, dcounted, dinf _ _ _ (by decide) (by unfold portCounter; omega), dinf _ _ _ (by decide) (by unfold portCounter; omega)]
    exact ⟨hv, h0, hmgmt, hcounted, fun hn => absurd (hp.symm.trans hn) (by decide)⟩
  · rw [h]
    exact ⟨hv, h0, hmgmt, hcounted, fun hn hne => absurd ((hn.symm.trans hp).trans (hon hne)) (by decide)⟩

/-! ### The commands -/

theorem exec_learnAcknowledge {s : State} {h : Hdr} {b seq : Nat} (hw : (Instr.learnAcknowledge h b seq).wf = true) :
    exec (.learnAcknowledge h b seq) s = .next (finish (writeRow s h 0x5200 4 (some b) (b4 seq))) :=
  run_wf "LEARN_ACKNOWLEDGE" _ s (fun s => writeRow s h 0x5200 4 (some b) (b4 seq)) hw
theorem exec_lpmInsert {s : State} {h : Hdr} {n : Nat} {rec : Octets} (hw : (Instr.lpmInsert h n rec).wf = true) :
    exec (.lpmInsert h n rec) s = .next (finish (writeRow s h 0x5110 1 (some n) rec)) :=
  run_wf "LPM_INSERT" _ s (fun s => writeRow s h 0x5110 1 (some n) rec) hw
theorem exec_lpmDelete {s : State} {h : Hdr} {n : Nat} {rec : Octets} (hw : (Instr.lpmDelete h n rec).wf = true) :
    exec (.lpmDelete h n rec) s = .next (finish (writeRow s h 0x5110 2 (some n) rec)) :=
  run_wf "LPM_DELETE" _ s (fun s => writeRow s h 0x5110 2 (some n) rec) hw
theorem exec_lpmQuery {s : State} {h : Hdr} {n : Nat} {query : Octets} (hw : (Instr.lpmQuery h n query).wf = true) :
    exec (.lpmQuery h n query) s = .next (finish (writeRow s h 0x5110 3 (some n) query)) :=
  run_wf "LPM_QUERY" _ s (fun s => writeRow s h 0x5110 3 (some n) query) hw
theorem exec_testPatternWrite {s : State} {h : Hdr} {l v : Nat} (hw : (Instr.testPatternWrite h l v).wf = true) :
    exec (.testPatternWrite h l v) s = .next (finish (writeRow s h 0x3000 9 (some l) (b1 v))) :=
  run_wf "TEST_PATTERN_WRITE" _ s (fun s => writeRow s h 0x3000 9 (some l) (b1 v)) hw

theorem seq_lt_of_wf {h : Hdr} {b seq : Nat} (hw : (Instr.learnAcknowledge h b seq).wf = true) : seq < 256 ^ 4 := by
  simp only [Instr.wf, fitsU, Bool.and_eq_true, decide_eq_true_eq] at hw
  omega
theorem pattern_lt_of_wf {h : Hdr} {l v : Nat} (hw : (Instr.testPatternWrite h l v).wf = true) : v < 256 ^ 1 := by
  simp only [Instr.wf, fitsU, Bool.and_eq_true, decide_eq_true_eq] at hw
  omega

variable {s : State} {h : Hdr} {i : Nat}

theorem learnAcknowledge_wrote {b seq : Nat} (hw : (Instr.learnAcknowledge h b seq).wf = true) (hc : WriteClears s.mod h i 0x5200 4 (some b) (b4 seq))
    (hsess : sess (acknowledgeLearn (accept s.mod h i) b seq).1 = sess (accept s.mod h i)) :
    Wrote (acknowledgeLearn (accept s.mod h i) b seq).1 i h.sequence (acknowledgeLearn (accept s.mod h i) b seq).2
      (finish (writeRow s h 0x5200 4 (some b) (b4 seq))).mod :=
  writeRow_wrote (v := .nat seq) (f := effN (s.upd (accept s.mod h i)) (acknowledgeLearn (accept s.mod h i) b seq)) _ hc rfl (by decide)
    (congrArg (some ∘ Val.nat) (natOf_bytesOf (seq_lt_of_wf hw))) rfl rfl (by rw [← hsess]; rfl) (by rw [← hsess]; rfl)

theorem lpmInsert_wrote {n : Nat} {rec : Octets} (hc : WriteClears s.mod h i 0x5110 1 (some n) rec) :
    Wrote (insertPrefix (accept s.mod h i) n rec).1 i h.sequence (insertPrefix (accept s.mod h i) n rec).2.1
      (finish (writeRow s h 0x5110 1 (some n) rec)).mod := by
  have hm := (insertPrefix_cases (accept s.mod h i) n rec).1
  refine writeRow_wrote (v := .oct rec) (f := effV (s.upd (accept s.mod h i)) (insertPrefix (accept s.mod h i) n rec)) _ hc rfl (by decide) rfl rfl rfl ?_ ?_
  · unfold sess; rw [State.upd_mod, hm]
  · unfold sess; rw [State.upd_mod, hm]

theorem lpmDelete_wrote {n : Nat} {rec : Octets} (hc : WriteClears s.mod h i 0x5110 2 (some n) rec)
    (hm : (deletePrefix (accept s.mod h i) n rec).1.mgmt = (accept s.mod h i).mgmt) :
    Wrote (deletePrefix (accept s.mod h i) n rec).1 i h.sequence (deletePrefix (accept s.mod h i) n rec).2
      (finish (writeRow s h 0x5110 2 (some n) rec)).mod := by
  refine writeRow_wrote (v := .oct rec) (f := effN (s.upd (accept s.mod h i)) (deletePrefix (accept s.mod h i) n rec)) _ hc rfl (by decide) rfl rfl rfl ?_ ?_
  · unfold sess; rw [State.upd_mod, hm]
  · unfold sess; rw [State.upd_mod, hm]

/-- The module with a query kept for a session (R441). -/
def queried (m : Mod) (i n : Nat) (query : Octets) : Mod := setSess m i { sess m i with query := tset (zeros 17) (sess m i).query n query }

theorem lpmQuery_wrote {n : Nat} {query : Octets} (hc : WriteClears s.mod h i 0x5110 3 (some n) query) :
    Wrote (queried (accept s.mod h i) i n query) i h.sequence 0 (finish (writeRow s h 0x5110 3 (some n) query)).mod := by
  refine writeRow_wrote (v := .oct query) (f := effM (s.upd (accept s.mod h i)) (queried (accept s.mod h i) i n query)) _ hc rfl (by decide) rfl rfl rfl ?_ ?_
  · rw [State.upd_mod, queried, sess_setSess_same]
  · rw [State.upd_mod, queried, sess_setSess_same]

theorem testPatternWrite_wrote {l v : Nat} (hw : (Instr.testPatternWrite h l v).wf = true) (hc : WriteClears s.mod h i 0x3000 9 (some l) (b1 v)) :
    Wrote (writePattern (accept s.mod h i) l v) i h.sequence 0 (finish (writeRow s h 0x3000 9 (some l) (b1 v))).mod := by
  obtain ⟨-, -, hm, -⟩ := writePattern_spec (accept s.mod h i) l v
  refine writeRow_wrote (v := .nat v) (f := effM (s.upd (accept s.mod h i)) (writePattern (accept s.mod h i) l v)) _ hc rfl (by decide)
    (congrArg (some ∘ Val.nat) (natOf_bytesOf (pattern_lt_of_wf hw))) rfl rfl ?_ ?_
  · unfold sess; rw [State.upd_mod, hm]
  · unfold sess; rw [State.upd_mod, hm]

/-- Settles O34: each accepted write has its effect and is answered with the effect's status. -/
theorem learnAndPrefixWritesTakeEffect : Obligations.LearnAndPrefixWritesTakeEffect := by
  refine ⟨fun s h i b seq hw hc => ⟨fun hp => ?_, fun hn => ?_⟩, fun s h i n rec hw hc => ?_,
    fun s h i n rec p hw hc hp => ⟨fun hin => ?_, fun hn => ?_⟩,
    fun s h i n query hw hc => ?_, fun s h i l v hw hc => ?_⟩
  · obtain ⟨hst, hsess, hlearn, hfull⟩ := acknowledgeLearn_pending (m := accept s.mod h i) hp
    have w := learnAcknowledge_wrote hw hc hsess
    refine ⟨_, exec_learnAcknowledge hw, ?_⟩
    rw [w.clsOf, hlearn, hfull]
    exact ⟨rfl, rfl, hst ▸ w.answered⟩
  · have hu := acknowledgeLearn_unknown (m := accept s.mod h i) (b := b) (seq := seq) hn
    have w := learnAcknowledge_wrote hw hc (by rw [hu])
    rw [hu] at w
    exact ⟨_, exec_learnAcknowledge hw, w.clsOf b, w.answered⟩
  · have w := lpmInsert_wrote (n := n) (rec := rec) hc
    refine ⟨_, exec_lpmInsert hw, w.answered, ?_⟩
    obtain ⟨-, ⟨hst, hcls⟩ | ⟨hst, p, q, hp, hq, hres⟩⟩ := insertPrefix_cases (accept s.mod h i) n rec
    · exact ⟨fun _ => w.cls.trans hcls, fun h0 => absurd h0 hst⟩
    · exact ⟨fun h0 => absurd hst h0, fun _ => ⟨p, q, hp, by rw [w.clsOf]; exact hq, hres⟩⟩
  · obtain ⟨hst, hm, hpre⟩ := deletePrefix_found (m := accept s.mod h i) hp hin
    have w := lpmDelete_wrote hc hm
    exact ⟨_, exec_lpmDelete hw, by rw [w.clsOf, hpre]; rfl, hst ▸ w.answered⟩
  · have hu := deletePrefix_unknown (m := accept s.mod h i) hp hn
    have w := lpmDelete_wrote hc (by rw [hu])
    rw [hu] at w
    exact ⟨_, exec_lpmDelete hw, w.cls, w.answered⟩
  · have w := lpmQuery_wrote (n := n) (query := query) hc
    refine ⟨_, exec_lpmQuery hw, ?_, w.answered, w.cls⟩
    rw [w.query, queried, sess_setSess_same, tget_tset_same]
  · have w := testPatternWrite_wrote hw hc
    obtain ⟨hv, h0, -, hcounted, hlane⟩ := writePattern_spec (accept s.mod h i) l v
    exact ⟨_, exec_testPatternWrite hw, by rw [w.inf, hv], by rw [w.inf, h0], by rw [w.counted]; exact hcounted, w.answered,
      fun hp hne => by rw [w.lane]; exact hlane hp hne⟩

end Sys2Proof.Machine
end

