-- ==== Sys2Proof/Proofs/CommitKeeps.lean ====
section
/-! PROOFS. What the effects of a COMMIT on ports, associations, gates, queues, time, stowage and snapshots (R60 to R87, R289, R459 to R497,
R510, R555, R640, R829) leave as it was: every object but those of `commitWrites` and the discards 0x6020, and every session that has not ended. -/

namespace Sys2Proof.Machine

/-- An object that no effect of a COMMIT writes beside its value. -/
def Settled (idx sub : Nat) : Prop := idx ≠ 0x6020 ∧ (idx, sub) ∉ commitWrites

/-- What an effect of a COMMIT leaves as it was. -/
structure CommitKeeps (m n : Mod) : Prop where
  sess : ∀ i, sess n i = sess m i ∨ (sess n i).state ≠ 2
  look : ∀ i s e, s < 256 → Settled i s → look n [] i s e = look m [] i s e

namespace CommitKeeps

variable {m n k : Mod}

theorem refl (m : Mod) : CommitKeeps m m := ⟨fun _ => .inl rfl, fun _ _ _ _ _ => rfl⟩

theorem trans (h : CommitKeeps m n) (h' : CommitKeeps n k) : CommitKeeps m k := by
  refine ⟨fun i => ?_, fun i s e hs hi => (h'.look i s e hs hi).trans (h.look i s e hs hi)⟩
  obtain he' | he' := h'.sess i
  · rw [he']
    exact h.sess i
  · exact .inr he'

theorem foldl {α : Type} (g : Mod → α → Mod) (hg : ∀ m a, CommitKeeps m (g m a)) (l : List α) (m : Mod) : CommitKeeps m (l.foldl g m) := by
  induction l generalizing m with
  | nil => exact refl m
  | cons a r ih => exact (hg m a).trans (ih (g m a))

/-- An update of parts that no object and no session lies in. -/
theorem of_eq (hs : n.mgmt.sessions = m.mgmt.sessions) (hv : n.tether.vault.cfg = m.tether.vault.cfg) (ho : n.obj = m.obj) : CommitKeeps m n :=
  ⟨fun i => .inl (by unfold Machine.sess; rw [hs]), fun i s e _ _ => by unfold Machine.look store; rw [hv, ho]⟩

theorem of_move (h : PortMove m n) : CommitKeeps m n := by
  refine ⟨fun i => .inl (by unfold Machine.sess; rw [h.mgmt]), fun i s e hs hi => h.look i s e hs ?_⟩
  obtain ⟨h6, hw⟩ := hi
  unfold portCounter
  rintro (rfl | ⟨rfl, rfl⟩ | ⟨rfl, rfl | rfl⟩)
  · exact h6 rfl
  all_goals exact hw (by decide)

theorem setNat (m : Mod) {idx sub : Nat} (elem v : Nat) (h : (idx, sub) ∈ commitWrites) : CommitKeeps m (setNat m idx sub elem v) := by
  have hsub : sub < 256 := by
    have all : ∀ x ∈ commitWrites, x.2 < 256 := by decide
    exact all _ h
  have hd : (idx, sub) ∉ [(0x4000, 1), (0x4000, 2), (0x8010, 1), (0x8010, 5)] := by
    have all : ∀ x ∈ commitWrites, x ∉ [(0x4000, 1), (0x4000, 2), (0x8010, 1), (0x8010, 5)] := by decide
    exact all _ h
  exact ⟨fun _ => .inl rfl, fun i s e hs hi =>
    look_setObj_ne m (.nat v) (okey_ne e elem hs hsub fun he => hi.2 (by rw [he.1, he.2]; exact h)) hd hsub⟩

theorem bump (m : Mod) {idx sub : Nat} (elem n : Nat) (h : (idx, sub) ∈ commitWrites) : CommitKeeps m (bump m idx sub elem n) := by
  obtain ⟨v, ev, hb, -⟩ := bump_form m idx sub elem n
  rw [hb]
  exact (CommitKeeps.setNat m elem v h).trans (.of_eq rfl rfl rfl)

/-! ### State operations -/

theorem raise (m : Mod) (code src bpid : Nat) (ps : Octets) : CommitKeeps m (raise m code src bpid ps) := .of_eq rfl rfl rfl
theorem emit (m : Mod) (o : Out) : CommitKeeps m (emit m o) := .of_eq rfl rfl rfl
theorem setPort (m : Mod) (p : Nat) (x : Port) : CommitKeeps m (setPort m p x) := .of_eq rfl rfl rfl
theorem setLane (m : Mod) (l : Nat) (x : Lane) : CommitKeeps m (setLane m l x) := .of_eq rfl rfl rfl
theorem setRx (m : Mod) (p : Nat) (x : GelRx) : CommitKeeps m (setRx m p x) := .of_eq rfl rfl rfl
theorem setTx (m : Mod) (p : Nat) (x : GelTx) : CommitKeeps m (setTx m p x) := .of_eq rfl rfl rfl
theorem setPm (m : Mod) (p : Nat) (x : Pm) : CommitKeeps m (setPm m p x) := .of_eq rfl rfl rfl
theorem setAssoc (m : Mod) (a : Nat) (x : Assoc) : CommitKeeps m (setAssoc m a x) := .of_eq rfl rfl rfl
theorem setQueue (m : Mod) (q : Nat) (x : Queue) : CommitKeeps m (setQueue m q x) := .of_eq rfl rfl rfl
theorem setNode (m : Mod) (q : Nat) (x : Node) : CommitKeeps m (setNode m q x) := .of_eq rfl rfl rfl
theorem setGate (m : Mod) (p : Nat) (x : Gate) : CommitKeeps m (setGate m p x) := .of_eq rfl rfl rfl
theorem setStow (m : Mod) (h : Nat) (x : Stow) : CommitKeeps m (setStow m h x) := .of_eq rfl rfl rfl

/-- One of two outcomes. -/
theorem ite {c : Prop} [Decidable c] (h : CommitKeeps m n) (h' : CommitKeeps m k) : CommitKeeps m (if c then n else k) := by
  split
  · exact h
  · exact h'

theorem raiseOnce (m : Mod) (code unit src bpid : Nat) (ps : Octets) : CommitKeeps m (raiseOnce m code unit src bpid ps) := by
  rw [raiseOnce_eq]
  exact .of_eq rfl rfl rfl

/-! ### Ports and lanes -/

theorem countLane (m : Mod) (l : Nat) (on pattern : Bool) : CommitKeeps m (countLane m l on pattern) := by
  have start : CommitKeeps m { m with counted := tset 0 m.counted l m.sys.elapsed } := .of_eq rfl rfl rfl
  have add (n : Mod) (sub : Nat) (h : (0x3000, sub) ∈ commitWrites) :
      CommitKeeps n (Machine.bump n 0x3000 sub l (Config.laneErrors sub l n.sys.elapsed)) := .bump _ _ _ h
  have errors := CommitKeeps.trans (.trans (start.trans (add _ 6 (by decide))) (add _ 7 (by decide))) (add _ 8 (by decide))
  unfold Machine.countLane
  exact .ite (.refl m) (.ite (.trans (.ite errors start) (add _ 0x0A (by decide))) (.ite errors start))

theorem setLos (m : Mod) (l : Nat) (on : Bool) : CommitKeeps m (setLos m l on) := (CommitKeeps.setLane ..).trans (.of_move (setLos_move m l on))
theorem setLol (m : Mod) (l : Nat) (on : Bool) : CommitKeeps m (setLol m l on) := (CommitKeeps.setLane ..).trans (.of_move (setLol_move m l on))

theorem lanePowerUp (m : Mod) (l : Nat) : CommitKeeps m (lanePowerUp m l) := .of_eq rfl rfl rfl
theorem lanePowerDown (m : Mod) (l : Nat) (pattern : Bool) : CommitKeeps m (lanePowerDown m l pattern) :=
  (((CommitKeeps.countLane ..).trans (.setLos ..)).trans (.setLol ..)).trans (.setLane ..)

theorem laneEnable (m : Mod) (l : Nat) : CommitKeeps m (laneEnable m l) := by
  unfold Machine.laneEnable
  exact .ite (.lanePowerUp ..) (((CommitKeeps.countLane ..).trans (.setNat _ _ _ (by decide))).trans (.setLane ..))

theorem setDefect (m : Mod) (p b : Nat) (on : Bool) : CommitKeeps m (setDefect m p b on) := .of_move (setDefect_move ..)
theorem refreshPort (m : Mod) (p cause : Nat) : CommitKeeps m (refreshPort m p cause) := .of_move (refreshPort_refreshed ..).toPortMove
theorem forwardStop (m : Mod) (c src : Nat) : CommitKeeps m (forwardStop m c src) := .of_move (forwardStop_move ..)

theorem disablePort (m : Mod) (p w : Nat) : CommitKeeps m (disablePort m p w) := by
  have down : CommitKeeps m (signalFault (Machine.forwardStop (portDown m p 0) p (inf m 0x3310 1 p)) p) :=
    .of_move (((portDown_refreshed ..).toPortMove.trans (forwardStop_move ..)).trans (signalFault_refreshed ..).toPortMove)
  unfold Machine.disablePort
  refine .trans ?_ (.of_move (refreshForward_move ..))
  refine .trans ?_ (.setTx ..)
  refine .trans ?_ (.setRx ..)
  refine .trans ?_ (.setPort ..)
  refine .trans ?_ (.setPm ..)
  have lanes := (down.trans (.foldl _ (fun m b => .setDefect m p b false) [4, 5, 6, 7, 8, 9, 10] _)).trans
    (.foldl (fun m i => Machine.lanePowerDown m (laneAt p (p % 8 + i)) false) (fun m i => .lanePowerDown ..) (List.range w) _)
  exact .ite (lanes.trans (.of_move (toHunt_move ..))) lanes

theorem enablePort (m : Mod) (p : Nat) : CommitKeeps m (enablePort m p) := by
  unfold Machine.enablePort
  refine .trans ?_ (.of_move (afterDefect_refreshed ..).toPortMove)
  have reset : CommitKeeps m ((portLanes m p).foldl Machine.laneEnable m) := .foldl _ CommitKeeps.laneEnable _ _
  refine .ite (.trans ?_ (.of_move (portUp_refreshed ..).toPortMove)) ?_
  all_goals exact (((reset.trans (.setPort ..)).trans (.setRx ..)).trans (.setTx ..)).trans (.setPm ..)

/-! ### Seconds of a line port -/

theorem degSecond (m : Mod) (p start : Nat) : CommitKeeps m (degSecond m p start) := by
  unfold Machine.degSecond
  have graded (n : Mod) (x : Pm) (c : Prop) [Decidable c] (on : Bool) :
      CommitKeeps n (if c then Machine.setDefect (Machine.setPm n p x) p 9 on else Machine.setPm n p x) :=
    .ite (.trans (.setPm ..) (.setDefect ..)) (.setPm ..)
  exact .ite (.refl m) (.ite (graded ..) (graded ..))

theorem availEvent (m : Mod) (p : Nat) (far : Bool) (a : Avail) : CommitKeeps m (availEvent m p far a) := .ite (.raise ..) (.refl m)

theorem refuseAccess (m : Mod) (h master : Nat) (r : Option Nat) (n : Nat) : CommitKeeps m (refuseAccess m h master r n) := by
  unfold Machine.refuseAccess
  exact .ite (.bump _ _ _ (by decide)) ((CommitKeeps.bump _ _ _ (by decide)).trans (.raiseOnce ..))

theorem toBin15 (m : Mod) (p : Nat) (s : Second) : CommitKeeps m (toBin15 m p s) := by
  unfold Machine.toBin15
  exact .ite (.refl m) (.ite (.trans (.setPm ..) (.trans (.setPm ..) (.raise ..))) (.setPm ..))

theorem toBin24 (m : Mod) (p : Nat) (s : Second) : CommitKeeps m (toBin24 m p s) := by
  unfold Machine.toBin24
  exact .ite (.refl m) (.ite (.trans (.setPm ..) (.trans (.setPm ..) (.raise ..))) (.setPm ..))

theorem commitSecond (m : Mod) (p : Nat) (s : Second) : CommitKeeps m (commitSecond m p s) := by
  have bins := (CommitKeeps.toBin15 m p s).trans (.toBin24 _ p s)
  unfold Machine.commitSecond
  exact .ite (bins.trans (.refuseAccess ..)) (.ite (bins.trans (.setPm ..)) bins)

theorem endSecond (m : Mod) (p start : Nat) : CommitKeeps m (endSecond m p start) := by
  unfold Machine.endSecond
  dsimp only
  split
  · exact .trans (.trans (.trans (.trans (.degSecond ..) (.setPm ..)) (.availEvent ..)) (.availEvent ..)) (.commitSecond ..)
  · exact .trans (.trans (.trans (.degSecond ..) (.setPm ..)) (.availEvent ..)) (.availEvent ..)

theorem endOverdue (m : Mod) (p : Nat) : CommitKeeps m (endOverdue m p) := by
  unfold Machine.endOverdue
  exact .ite (.refl m) (.foldl _ (fun _ _ => .endSecond ..) _ _)

/-! ### Associations -/

theorem cancelSwitch (m : Mod) (a cause : Nat) : CommitKeeps m (cancelSwitch m a cause) := by
  unfold Machine.cancelSwitch
  exact .ite (.refl m) (.trans (.trans (.setAssoc ..) (.setNat _ _ _ (by decide))) (.raise ..))

theorem flip (m : Mod) (a : Nat) : CommitKeeps m (flip m a) := by
  unfold Machine.flip
  exact .trans (.trans (.setAssoc ..) (.setNat _ _ _ (by decide))) (.raise ..)

theorem requestSwitch (m : Mod) (a req : Nat) : CommitKeeps m (requestSwitch m a req) := by
  have inForce (n : Mod) : CommitKeeps n (switchInForce n a) := by
    unfold switchInForce
    exact .ite (.setAssoc ..) (.flip ..)
  unfold Machine.requestSwitch
  exact .ite (.cancelSwitch ..) (.ite (.trans (.setAssoc ..) (inForce _)) (.setAssoc ..))

theorem applyAssoc (m0 : Mod) (cred : Nat) (m : Mod) (a : Nat) : CommitKeeps m (applyAssoc m0 cred m a) := by
  unfold Machine.applyAssoc
  exact .ite (.ite (.refl m) (.setAssoc ..)) (.trans (.ite (.refl m) (.setAssoc ..)) (.raise ..))

/-! ### Gates, queues, nodes, berths -/

theorem commitBank (m : Mod) (port : Nat) : CommitKeeps m (commitBank m port) := by
  have swap (n : Mod) : CommitKeeps n (doSwap n port) := by
    unfold doSwap
    dsimp only
    split
    · exact .refl n
    · exact .trans (.setGate ..) (.raise ..)
  unfold Machine.commitBank
  exact .ite (.trans (.trans (.setGate ..) (.setGate ..)) (swap _)) (.setGate ..)

theorem refillQueue (m : Mod) (q : Nat) : CommitKeeps m (refillQueue m q) := by
  obtain ⟨x, h⟩ := refillQueue_form m q
  rw [h]
  exact .setQueue ..

theorem switchRates (m : Mod) (q : Nat) : CommitKeeps m (switchRates m q) := by
  obtain ⟨queues, h⟩ := switchRates_form m q
  rw [h]
  exact .of_eq rfl rfl rfl

theorem retarget (m : Mod) (q : Nat) : CommitKeeps m (retarget m q) := by
  unfold Machine.retarget
  exact .ite (.switchRates ..) (.ite (.switchRates ..) (.trans (.setQueue ..) (.raise ..)))

theorem applyQueue (m0 m : Mod) (q : Nat) : CommitKeeps m (applyQueue m0 m q) := by
  unfold Machine.applyQueue
  exact .ite (.refl m) (.ite (.setQueue ..) (.ite (.setQueue ..) (.trans (.trans (.refillQueue ..) (.setQueue ..)) (.retarget ..))))

theorem refillNode (m : Mod) (k : Nat) : CommitKeeps m (refillNode m k) := by
  unfold Machine.refillNode
  exact .ite (.ite (.refl m) (.setNode ..)) (.ite (.setNode ..) (.setNode ..))

theorem applyNode (m0 m : Mod) (k : Nat) : CommitKeeps m (applyNode m0 m k) := by
  have burst (n : Mod) (c : Prop) [Decidable c] (x : Node) : CommitKeeps n (if c then Machine.setNode n k x else n) := .ite (.setNode ..) (.refl n)
  have filled (c : Prop) [Decidable c] (x : Node) :
      CommitKeeps m (if c then Machine.setNode (Machine.refillNode m k) k x else Machine.refillNode m k) := .trans (.refillNode ..) (burst _ c x)
  unfold Machine.applyNode
  exact .ite (.ite (.ite (.setNode ..) (.refl m)) (.setNode ..)) (.ite (.ite (.setNode ..) (.setNode ..))
    (.ite (filled ..) (.ite (.trans (filled ..) (.setNode ..)) (.trans (filled ..) (.setNode ..)))))

theorem applyBerth (m0 m : Mod) (b : Nat) : CommitKeeps m (applyBerth m0 m b) := by
  unfold Machine.applyBerth
  exact .ite (.refl m) (.raise ..)

/-! ### Ports of a COMMIT -/

theorem applyPorts (m0 m : Mod) (p : Tbl Val) : CommitKeeps m (applyPorts m0 m p) := by
  unfold Machine.applyPorts
  refine .trans (.foldl _ (fun n e => ?_) _ _) (.foldl _ (fun n e => .trans (.endOverdue ..) (.enablePort ..)) _ _)
  dsimp only
  split
  · exact .trans (.trans (.endOverdue ..) (.disablePort ..)) (.cancelSwitch ..)
  · exact .trans (.endOverdue ..) (.disablePort ..)

/-! ### Time -/

theorem noteUnsynced (m : Mod) : CommitKeeps m (noteUnsynced m) := by
  unfold Machine.noteUnsynced
  exact .foldl _ (fun n _ => .ite (.refl n) (.setPm ..)) _ _

theorem setSync (m : Mod) (st : Nat) : CommitKeeps m (setSync m st) := by
  have now : CommitKeeps m { m with time := { m.time with state := st, good := 0, bad := 0 } } := .of_eq rfl rfl rfl
  unfold Machine.setSync
  exact .ite (.refl m) (.trans (.trans (.trans now (.raise ..)) (.raise ..)) (.noteUnsynced ..))

theorem enterHoldover (m : Mod) : CommitKeeps m (enterHoldover m) := by
  unfold Machine.enterHoldover
  refine .ite (.refl m) (.trans ?_ (.setSync ..))
  exact .of_eq rfl rfl rfl

theorem sourceCommitted (m : Mod) (src : Nat) : CommitKeeps m (sourceCommitted m src) := by
  have time (t : TimeSt) : CommitKeeps m { m with time := t } := .of_eq rfl rfl rfl
  unfold Machine.sourceCommitted
  exact .ite (.ite (.trans (time _) (.setSync ..)) (.refl m))
    (.ite (.trans (.trans (time _) (.enterHoldover ..)) (.setSync ..))
      (.ite (.trans (.trans (time _) (.enterHoldover ..)) (.setSync ..)) (.trans (time _) (.enterHoldover ..))))

theorem commitTrigger (m : Mod) (i : Nat) : CommitKeeps m (commitTrigger m i) := by
  have trig (x : Trig) : CommitKeeps m (setTrig m i x) := .of_eq rfl rfl rfl
  unfold Machine.commitTrigger
  exact .ite (trig _) (.trans (trig _) (.emit ..))

theorem selectReference (m : Mod) : CommitKeeps m (selectReference m) := by
  have sys (x : Sys) : CommitKeeps m { m with sys := x } := .of_eq rfl rfl rfl
  unfold Machine.selectReference
  exact .ite (sys _) (.trans (sys _) (.raise ..))

theorem applyTime (m0 m : Mod) (p : Tbl Val) : CommitKeeps m (applyTime m0 m p) := by
  have triggers : CommitKeeps m ((touched p 0x7040 [1, 2, 3, 4, 5, 8]).foldl Machine.commitTrigger m) := .foldl _ CommitKeeps.commitTrigger _ _
  unfold Machine.applyTime
  generalize (touched p 0x7040 [1, 2, 3, 4, 5, 8]).foldl Machine.commitTrigger m = n at triggers ⊢
  refine triggers.trans ?_
  have source : CommitKeeps n (if holds p 0x7010 1 0 then Machine.sourceCommitted n (inf n 0x7010 1 0) else n) := .ite (.sourceCommitted ..) (.refl n)
  dsimp only
  generalize (if holds p 0x7010 1 0 then Machine.sourceCommitted n (inf n 0x7010 1 0) else n) = k at source ⊢
  refine source.trans (.ite (.refl k) (.ite (.trans ?_ (.raise ..)) ?_))
  all_goals exact .ite (.refl k) (.selectReference k)

/-! ### Fallback, stowage, berth limits, snapshots -/

theorem engageFallback (m : Mod) (b : Nat) : CommitKeeps m (engageFallback m b) := by
  have divert : CommitKeeps m (divertBasin m b) := by
    unfold divertBasin
    exact .foldl _ (fun _ _ => .trans (.trans (.setNat _ _ _ (by decide)) (.setNat _ _ _ (by decide))) (.retarget ..)) _ _
  unfold Machine.engageFallback
  exact .trans (.ite divert (.refl m)) (.raise ..)

theorem endLosses (m : Mod) (h a b : Nat) (f : LostRec → Bool) : CommitKeeps m (endLosses m h a b f) := by
  unfold Machine.endLosses
  exact .foldl _ (fun _ _ => .ite (.setStow ..) (.setStow ..)) _ _

theorem clearContents (m : Mod) (h a b : Nat) : CommitKeeps m (clearContents m h a b) := by
  have history : CommitKeeps m (loseHistory m h a (b - a)) := by
    unfold loseHistory
    exact .foldl _ (fun _ _ => .setPm ..) _ _
  have archive (n : Mod) : CommitKeeps n (clearArchive n h a b) := by
    unfold clearArchive
    dsimp only
    split
    · exact .refl n
    · exact .of_eq rfl rfl rfl
  have staged (n : Mod) : CommitKeeps n (invalidateStaged n h) := by
    have fw (x : Fw) : CommitKeeps n { n with fw := x } := .of_eq rfl rfl rfl
    unfold invalidateStaged
    exact .ite (.trans (fw _) (.raise ..)) (.refl n)
  unfold Machine.clearContents
  exact .ite (.trans (.trans history (archive _)) (staged _)) (.trans history (archive _))

theorem restartSpans (m : Mod) (h op : Nat) (ranges : List (Nat × Nat)) : CommitKeeps m (restartSpans m h op ranges).1 := by
  unfold Machine.restartSpans
  dsimp only
  split
  · exact .raise ..
  · exact .trans (.setStow ..) (.foldl _ (fun _ _ => .trans (.endLosses ..) (.clearContents ..)) _ _)

theorem regionEnabled (m : Mod) (h r : Nat) : CommitKeeps m (regionEnabled m h r) := by
  have spans := CommitKeeps.restartSpans m h 0 [regionGroups m h r]
  unfold Machine.regionEnabled
  exact .ite (.trans spans (.setStow ..)) spans

theorem setOver (m : Mod) (e r : Nat) : CommitKeeps m (setOver m e r) := by
  have flags (t : Tbl Nat) : CommitKeeps m { m with overs := t } := .of_eq rfl rfl rfl
  unfold Machine.setOver
  exact .ite (.trans (flags _) (.raise ..)) (.refl m)

theorem throttleBasin (m : Mod) (b : Nat) : CommitKeeps m (throttleBasin m b) := by
  unfold Machine.throttleBasin
  exact .foldl _ CommitKeeps.retarget _ _

theorem drainAll (m : Mod) : CommitKeeps m (drainAll m) := by
  have snap (n : Mod) (x : Snap) : CommitKeeps n { n with snap := x } := .of_eq rfl rfl rfl
  have basin (n : Mod) (b : Nat) : CommitKeeps n (drainBasin n b) := by
    unfold drainBasin
    exact .ite (.refl n) (.ite (.trans (.trans (snap ..) (.refuseAccess ..)) (.raise ..)) (.trans (snap ..) (.refuseAccess ..)))
  have settled (n : Mod) : CommitKeeps n (settleSnap n) := by
    unfold settleSnap
    exact .ite (snap ..) (.refl n)
  unfold Machine.drainAll
  exact .trans (.foldl _ basin _ _) (settled _)

theorem snapRequest (m : Mod) (req : Nat) : CommitKeeps m (snapRequest m req) := by
  have snap (n : Mod) (x : Snap) : CommitKeeps n { n with snap := x } := .of_eq rfl rfl rfl
  have withdrawn : CommitKeeps m (Machine.setNat m 0xB000 4 0 0) := .setNat _ _ _ (by decide)
  unfold Machine.snapRequest
  refine .ite ?_ (.ite (.trans (.trans withdrawn (snap ..)) (.raise ..)) withdrawn)
  split
  · exact snap ..
  · exact .refl m

theorem loadPreset (m : Mod) (l : Nat) : CommitKeeps m (loadPreset m l) := .of_eq rfl rfl rfl

theorem applyRest (m0 m : Mod) (p : Tbl Val) : CommitKeeps m (applyRest m0 m p) := by
  have forward (n : Mod) (c : Nat) (b : Prop) [Decidable b] (src : Nat) :
      CommitKeeps n (if b then Machine.refreshPort (Machine.forwardStop n c src) c 1 else n) := .ite (.trans (.forwardStop ..) (.refreshPort ..)) (.refl n)
  have calm (n : Mod) (b : Prop) [Decidable b] :
      CommitKeeps n (if b then setAlarm { n with tether := { n.tether with loopMissed := 0, loopGood := 0 } } 6 false else n) :=
    .ite (.of_eq rfl rfl rfl) (.refl n)
  unfold Machine.applyRest
  dsimp only
  refine .trans ?_ (.ite (.trans (.drainAll _) (.snapRequest ..)) (.refl _))
  refine .trans ?_ (calm ..)
  refine .trans ?_ (.ite (.foldl _ CommitKeeps.throttleBasin _ _) (.refl _))
  refine .trans ?_ (.foldl _ (fun n r => .foldl _ (fun n e => .trans (.setOver ..) (.setOver ..)) _ _) _ _)
  refine .trans ?_ (.foldl _ (fun n h => .foldl _ (fun n u => .regionEnabled ..) _ _) _ _)
  refine .trans ?_ (.foldl _ CommitKeeps.engageFallback _ _)
  refine .trans ?_ (.foldl _ (fun n c => forward ..) _ _)
  refine .trans ?_ (.foldl _ (fun n e => .setPm ..) _ _)
  refine .trans ?_ (.foldl _ (fun n e => .setDefect ..) _ _)
  exact .foldl _ CommitKeeps.loadPreset _ _

/-! ### Sessions that end -/

theorem freeSlot (m : Mod) (slot : Nat) : CommitKeeps m (freeSlot m slot) := by
  refine ⟨fun i => ?_, fun _ _ _ _ _ => rfl⟩
  change Machine.sess (setSess m slot {}) i = Machine.sess m i ∨ (Machine.sess (setSess m slot {}) i).state ≠ 2
  by_cases hi : i = slot
  · rw [hi, sess_setSess_same]
    exact .inr (by decide)
  · exact .inl (sess_setSess_ne _ _ hi)

theorem closeDebug (m : Mod) (slot id : Nat) : CommitKeeps m (closeDebug m slot id) := by
  have held (l : List Nat) : CommitKeeps m { m with mgmt := { m.mgmt with debugBy := l } } := .of_eq rfl rfl rfl
  unfold Machine.closeDebug
  exact .ite (.ite (.trans (.trans (held _) (.raise ..)) (.raise ..)) (held _)) (.refl m)

theorem endGrant (m : Mod) (slot : Nat) : CommitKeeps m (endGrant m slot) := by
  have grants : CommitKeeps m { m with mgmt := { m.mgmt with grants := tset none m.mgmt.grants slot none } } := .of_eq rfl rfl rfl
  unfold Machine.endGrant
  dsimp only
  split
  · exact .refl m
  · exact .trans (.trans (.trans (grants.trans (.closeDebug ..)) (.setNat _ _ _ (by decide))) (.setNat _ _ _ (by decide))) (.raise ..)

theorem endSession (m : Mod) (slot cause : Nat) : CommitKeeps m (endSession m slot cause) := by
  unfold Machine.endSession
  exact .ite (.trans (.trans (.endGrant ..) (.freeSlot ..)) (.raise ..)) (.ite (.freeSlot ..) (.refl m))

theorem closeEnrolment (m : Mod) : CommitKeeps m (closeEnrolment m) := by
  unfold Machine.closeEnrolment endSessions
  exact .ite (.foldl _ (fun n _ => .ite (.endSession ..) (.refl n)) _ _) (.refl m)

end CommitKeeps

/-! ### The whole of a COMMIT -/

theorem refillNode_form (m : Mod) (k : Nat) : ∃ nodes, refillNode m k = { m with nodes := nodes } := by
  unfold refillNode
  dsimp only
  split
  · split
    · exact ⟨m.nodes, rfl⟩
    · exact ⟨_, rfl⟩
  · split
    · exact ⟨_, rfl⟩
    · exact ⟨_, rfl⟩

/-- The refills up to the edge of a COMMIT touch queues and nodes (R477, R495). -/
theorem refillTouched_form (m : Mod) (p : Tbl Val) : ∃ queues nodes, refillTouched m p = { m with queues := queues, nodes := nodes } := by
  have queuesFold (l : List Nat) : ∀ n : Mod, ∃ queues,
      l.foldl (fun m q => if qLive m [] q then refillQueue m q else m) n = { n with queues := queues } := by
    induction l with
    | nil => exact fun n => ⟨n.queues, rfl⟩
    | cons q r ih =>
      intro n
      rw [List.foldl_cons]
      split
      · obtain ⟨x, hx⟩ := refillQueue_form n q
        obtain ⟨queues, h⟩ := ih (refillQueue n q)
        exact ⟨queues, by rw [h, hx]; rfl⟩
      · exact ih n
  have nodesFold (l : List Nat) : ∀ n : Mod, ∃ nodes, l.foldl refillNode n = { n with nodes := nodes } := by
    induction l with
    | nil => exact fun n => ⟨n.nodes, rfl⟩
    | cons k r ih =>
      intro n
      obtain ⟨nodes, h⟩ := refillNode_form n k
      obtain ⟨nodes', h'⟩ := ih (refillNode n k)
      exact ⟨nodes', by rw [List.foldl_cons, h', h]⟩
  obtain ⟨queues, hq⟩ := queuesFold (touched p 0x6000 (span 1 14)) m
  obtain ⟨nodes, hn⟩ := nodesFold (touched p 0x6200 [2, 3]) { m with queues := queues }
  exact ⟨queues, nodes, by rw [refillTouched, hq, hn]⟩

/-- What a COMMIT sets going keeps what its values put in force. -/
theorem commitApply_keeps (m : Mod) (cred : Nat) (p : Tbl Val) :
    CommitKeeps (applyValues (relayout (refillTouched m p) p) p) (commitApply m cred p) := by
  have saved (n : Mod) (x : Sys) : CommitKeeps n { n with sys := x } := .of_eq rfl rfl rfl
  unfold commitApply
  dsimp only
  refine .trans ?_ (saved _ _)
  refine .trans ?_ (.closeEnrolment _)
  refine .trans ?_ (.applyRest ..)
  refine .trans ?_ (.applyTime ..)
  refine .trans ?_ (.foldl _ (fun _ _ => .applyBerth ..) _ _)
  refine .trans ?_ (.foldl _ (fun _ _ => .requestSwitch ..) _ _)
  refine .trans ?_ (.foldl _ (fun _ _ => .applyNode ..) _ _)
  refine .trans ?_ (.foldl _ (fun _ _ => .applyQueue ..) _ _)
  refine .trans ?_ (.foldl _ (fun _ _ => .commitBank ..) _ _)
  refine .trans ?_ (.foldl _ (fun _ _ => .applyAssoc ..) _ _)
  exact .applyPorts ..

end Sys2Proof.Machine
end

