-- ==== Sys2Proof/Proofs/Commit.lean ====
section
/-! PROOFS. COMMIT (R778, R780, R781): the values of a pending set come into force over the indices it releases and absorbs (R48, R49), and
what they set going keeps them. -/

namespace Sys2Proof.Machine

/-! ### Keys -/

theorem okey_key (k : Nat) : okey (keyIdx k) (keySub k) (keyElem k) = k := by
  unfold okey keyIdx keySub keyElem
  omega

theorem keyIdx_okey (i e : Nat) {s : Nat} (hs : s < 256) : keyIdx (okey i s e) = i := by
  unfold okey keyIdx
  omega

theorem keySub_okey (i e : Nat) {s : Nat} (hs : s < 256) : keySub (okey i s e) = s := by
  unfold okey keySub
  omega

theorem keyElem_okey (i s : Nat) {e : Nat} (he : e < 2 ^ 32) : keyElem (okey i s e) = e := by
  unfold okey keyElem
  omega

/-! ### Objects whose default follows no other -/

theorem Settled.not_counter {i s : Nat} (h : Settled i s) : ¬(i = 0x2100 ∧ s = 8) := by
  rintro ⟨rfl, rfl⟩
  exact h.2 (by decide)

/-- A settled object holds its entry or its default. -/
theorem look_settled (m : Mod) {i s : Nat} (e : Nat) (h : Settled i s) :
    look m [] i s e = (tfind (store m i s) (okey i s e)).getD (dfltOf i s e) := by
  have h1 : ¬(i = 0x4000 ∧ s = 0x0B) := by rintro ⟨rfl, rfl⟩; exact h.2 (by decide)
  have h2 : ¬(i = 0x8010 ∧ s = 0x06) := by rintro ⟨rfl, rfl⟩; exact h.2 (by decide)
  unfold look
  simp only [tfind_nil, h1, h2, if_false]
  cases tfind (store m i s) (okey i s e) <;> rfl

theorem look_congr {m n : Mod} (ho : n.obj = m.obj) (ht : n.tether = m.tether) : look n = look m := by
  funext p i s e
  unfold look store
  rw [ho, ht]

theorem absorbedIn_congr {m n : Mod} (h : look n = look m) (p : Tbl Val) (q : Nat) : absorbedIn n p q = absorbedIn m p q := by
  unfold absorbedIn cfg
  rw [h]

/-! ### Indices released and absorbed -/

theorem tfind_filter_key {α : Type} (f : Nat → Bool) (t : Tbl α) (k : Nat) :
    tfind (t.filter fun e => f e.1) k = if f k then tfind t k else none := by
  induction t with
  | nil => simp
  | cons x r ih =>
    obtain ⟨j, v⟩ := x
    rw [List.filter_cons]
    by_cases hj : j = k
    · subst hj
      cases hf : f j with
      | true => simp [tfind]
      | false =>
        rw [hf] at ih
        simpa using ih
    · cases hf : f j with
      | true => simp [tfind, hj, ih]
      | false => simp [tfind, hj, ih]

/-- No object of the vault belongs to a port. -/
theorem portOfKey_vault {s e : Nat} (hs : s < 256) : portOfKey (okey 0x2100 s e) = none := by
  unfold portOfKey
  rw [keyIdx_okey _ _ hs]
  exact (if_neg (by decide)).trans (if_neg (by decide))

/-- What an object of the unit of a port holds once the indices below n are released and absorbed (R48, R49). -/
def carriedAt (m : Mod) (p : Tbl Val) (n i s e : Nat) (q : Nat) : Val :=
  if q < n ∧ absorbed m q = true ∧ absorbedIn m p q = false then dfltOf i s e
  else if q < n ∧ absorbed m q = false ∧ absorbedIn m p q = true ∧ i = 0x3100 ∧ s = 1 then .nat 1
  else look m [] i s e

/-- `carried` is unfolded here as a function, not at its arguments: the kernel need not evaluate the key that it tells the port by. -/
theorem carried_eq (m : Mod) (p : Tbl Val) (i s e : Nat) :
    carried m p i s e = (portOfKey (okey i s e)).elim (look m [] i s e) (carriedAt m p 64 i s e) := by
  obtain ⟨f, hf⟩ : ∃ f, f = @carried := ⟨_, rfl⟩
  rw [← hf]
  delta carried at hf
  rw [hf]
  beta_reduce
  generalize portOfKey (okey i s e) = k
  cases k <;> rfl

theorem carriedAt_congr {m n : Mod} (h : look n = look m) (p : Tbl Val) (k i s e : Nat) : carriedAt n p k i s e = carriedAt m p k i s e := by
  funext q
  unfold carriedAt absorbed
  rw [absorbedIn_congr h, absorbedIn_congr h, h]

theorem carried_congr {m n : Mod} (h : look n = look m) (p : Tbl Val) (i s e : Nat) : carried n p i s e = carried m p i s e := by
  rw [carried_eq, carried_eq, carriedAt_congr h, h]

theorem look_releaseIndex (m : Mod) (q : Nat) {i s : Nat} (e : Nat) (hs : s < 256) (h : Settled i s) :
    look (releaseIndex m q) [] i s e = if portOfKey (okey i s e) = some q then dfltOf i s e else look m [] i s e := by
  rw [look_settled _ e h, look_settled _ e h]
  by_cases hv : i = 0x2100
  · subst hv
    rw [portOfKey_vault hs, if_neg (by simp)]
    have hstore (n : Mod) : store n 0x2100 s = n.tether.vault.cfg := if_pos ⟨rfl, fun h8 => h.not_counter ⟨rfl, h8⟩⟩
    rw [hstore, hstore]
    rfl
  · have hstore (n : Mod) : store n i s = n.obj := if_neg fun x => hv x.1
    rw [hstore, hstore, releaseIndex, tfind_filter_key (fun k => portOfKey k != some q)]
    by_cases hp : portOfKey (okey i s e) = some q
    · simp [hp]
    · simp [hp]

/-- The step of `relayout` at an index. -/
def relayoutAt (m : Mod) (p : Tbl Val) (m1 : Mod) (q : Nat) : Mod :=
  match absorbed m q, absorbedIn m p q with
  | true, false => releaseIndex m1 q
  | false, true => setNat m1 0x3100 1 q 1
  | _, _ => m1

theorem portOfKey_width {q : Nat} (hq : q < 2 ^ 32) : portOfKey (okey 0x3100 1 q) = some q := by
  unfold portOfKey
  rw [keyIdx_okey _ _ (by decide), keyElem_okey _ _ hq]
  exact if_pos (by decide)

theorem settled_width : Settled 0x3100 1 := ⟨by decide, by decide⟩

theorem look_setWidth (m : Mod) {q : Nat} (hq : q < 64) {i s e : Nat} (hs : s < 256) (he : e < 2 ^ 32) :
    look (setNat m 0x3100 1 q 1) [] i s e = if portOfKey (okey i s e) = some q ∧ i = 0x3100 ∧ s = 1 then .nat 1 else look m [] i s e := by
  by_cases hw : i = 0x3100 ∧ s = 1 ∧ e = q
  · obtain ⟨rfl, rfl, rfl⟩ := hw
    rw [if_pos ⟨portOfKey_width he, rfl, rfl⟩, look_settled _ _ settled_width, store, if_neg (by decide), setNat_obj, tfind_putVal_same]
    split
    · rename_i hd; exact hd.symm
    · rfl
  · have hk : okey i s e ≠ okey 0x3100 1 q := fun hk => hw (by
      obtain ⟨hi, hs', he'⟩ := okey_inj hs (by decide) hk
      exact ⟨hi, hs', by omega⟩)
    have hn : ¬(portOfKey (okey i s e) = some q ∧ i = 0x3100 ∧ s = 1) := by
      rintro ⟨hp, rfl, rfl⟩
      exact hw ⟨rfl, rfl, Option.some.inj ((portOfKey_width he).symm.trans hp)⟩
    rw [if_neg hn]
    exact look_setObj_ne m (.nat 1) hk (by decide) (by decide)

/-- The step of `relayout` at an index, for an object of the index's unit and for the others. -/
theorem look_relayoutAt (m : Mod) (p : Tbl Val) (m1 : Mod) {q : Nat} (hq : q < 64) {i s e : Nat} (hs : s < 256) (he : e < 2 ^ 32) (h : Settled i s) :
    look (relayoutAt m p m1 q) [] i s e =
      if portOfKey (okey i s e) = some q ∧ absorbed m q = true ∧ absorbedIn m p q = false then dfltOf i s e
      else if portOfKey (okey i s e) = some q ∧ absorbed m q = false ∧ absorbedIn m p q = true ∧ i = 0x3100 ∧ s = 1 then .nat 1
      else look m1 [] i s e := by
  unfold relayoutAt
  have hrel := look_releaseIndex m1 q e hs h
  have hset := look_setWidth m1 hq hs he (i := i)
  generalize portOfKey (okey i s e) = k at hrel hset ⊢
  cases absorbed m q <;> cases absorbedIn m p q
  · simp
  · simp [hset]
  · simp [hrel]
  · simp

theorem look_relayoutTo (m : Mod) (p : Tbl Val) {n : Nat} (hn : n ≤ 64) {i s e : Nat} (hs : s < 256) (he : e < 2 ^ 32) (h : Settled i s) :
    look ((List.range n).foldl (relayoutAt m p) m) [] i s e = (portOfKey (okey i s e)).elim (look m [] i s e) (carriedAt m p n i s e) := by
  induction n with
  | zero => cases portOfKey (okey i s e) <;> simp [carriedAt]
  | succ n ih =>
    rw [List.range_succ, List.foldl_append, List.foldl_cons, List.foldl_nil, look_relayoutAt m p _ (by omega) hs he h, ih (by omega)]
    cases portOfKey (okey i s e) with
    | none => simp
    | some q =>
      by_cases hq : q = n
      · subst hq
        simp [carriedAt]
      · have hlt : q < n + 1 ↔ q < n := by omega
        simp [carriedAt, hq, hlt]

theorem look_relayout (m : Mod) (p : Tbl Val) {i s e : Nat} (hs : s < 256) (he : e < 2 ^ 32) (h : Settled i s) :
    look (relayout m p) [] i s e = carried m p i s e :=
  (look_relayoutTo m p (Nat.le_refl 64) hs he h).trans (carried_eq ..).symm

/-! ### Values in force -/

theorem tfind_none_of_not_mem {α : Type} {t : Tbl α} {k : Nat} (h : k ∉ t.map (·.1)) : tfind t k = none := by
  induction t with
  | nil => rfl
  | cons x r ih =>
    rw [List.map_cons, List.mem_cons, not_or] at h
    obtain ⟨j, v⟩ := x
    exact (if_neg fun hj => h.1 hj.symm).trans (ih h.2)

/-- One value of a pending set in force. -/
def applyValue (m : Mod) (x : Nat × Val) : Mod :=
  if keyIdx x.1 = 0x2100 then
    { m with tether := { m.tether with vault := { m.tether.vault with cfg := putVal m.tether.vault.cfg (keyIdx x.1) (keySub x.1) (keyElem x.1) x.2 } } }
  else setObj m (keyIdx x.1) (keySub x.1) (keyElem x.1) x.2

theorem tfind_putVal_getD (t : Tbl Val) (k : Nat) (v : Val) {i s e : Nat} (hs : s < 256) (he : e < 2 ^ 32) :
    (tfind (putVal t (keyIdx k) (keySub k) (keyElem k) v) (okey i s e)).getD (dfltOf i s e) =
      if k = okey i s e then v else (tfind t (okey i s e)).getD (dfltOf i s e) := by
  split
  · rename_i hk
    subst hk
    rw [keyIdx_okey _ _ hs, keyElem_okey _ _ he, keySub_okey _ _ hs, tfind_putVal_same]
    split
    · rename_i hv; exact hv.symm
    · rfl
  · rename_i hk
    rw [tfind_putVal_ne _ _ (by rw [okey_key]; exact fun x => hk x.symm)]

theorem look_applyValue (m : Mod) (x : Nat × Val) {i s e : Nat} (hs : s < 256) (he : e < 2 ^ 32) (h : Settled i s) :
    look (applyValue m x) [] i s e = if x.1 = okey i s e then x.2 else look m [] i s e := by
  rw [look_settled _ e h, look_settled _ e h]
  unfold applyValue
  by_cases hv : i = 0x2100
  · have hstore (n : Mod) : store n i s = n.tether.vault.cfg := if_pos ⟨hv, fun h8 => h.not_counter ⟨hv, h8⟩⟩
    rw [hstore, hstore]
    by_cases hx : keyIdx x.1 = 0x2100
    · rw [if_pos hx]
      exact tfind_putVal_getD _ x.1 x.2 hs he
    · have hk : x.1 ≠ okey i s e := fun hk => hx (by rw [hk, keyIdx_okey _ _ hs, hv])
      rw [if_neg hx, if_neg hk]
      rfl
  · have hstore (n : Mod) : store n i s = n.obj := if_neg fun y => hv y.1
    rw [hstore, hstore]
    by_cases hx : keyIdx x.1 = 0x2100
    · have hk : x.1 ≠ okey i s e := fun hk => hv (by rw [← hx, hk, keyIdx_okey _ _ hs])
      rw [if_pos hx, if_neg hk]
    · rw [if_neg hx]
      exact tfind_putVal_getD _ x.1 x.2 hs he

theorem look_applyValues (p : Tbl Val) (hp : (p.map (·.1)).Nodup) (m : Mod) {i s e : Nat} (hs : s < 256) (he : e < 2 ^ 32) (h : Settled i s) :
    look (applyValues m p) [] i s e = (tfind p (okey i s e)).getD (look m [] i s e) := by
  change look (p.foldl applyValue m) [] i s e = _
  induction p generalizing m with
  | nil => rfl
  | cons x r ih =>
    obtain ⟨j, v⟩ := x
    rw [List.map_cons, List.nodup_cons] at hp
    rw [List.foldl_cons, ih hp.2, look_applyValue m (j, v) hs he h]
    by_cases hj : j = okey i s e
    · have hnone : tfind r (okey i s e) = none := tfind_none_of_not_mem (hj ▸ hp.1)
      simp [tfind, hj, hnone]
    · simp [tfind, hj]

/-! ### Sessions -/

theorem sess_relayout (m : Mod) (p : Tbl Val) : sess (relayout m p) = sess m := by
  change sess ((List.range 64).foldl (relayoutAt m p) m) = _
  have step (n : Mod) (q : Nat) : sess (relayoutAt m p n q) = sess n := by
    unfold relayoutAt
    split <;> rfl
  have fold (l : List Nat) : ∀ n : Mod, sess (l.foldl (relayoutAt m p) n) = sess n := by
    induction l with
    | nil => exact fun _ => rfl
    | cons q r ih => exact fun n => (ih _).trans (step n q)
  exact fold _ m

theorem sess_applyValues (p : Tbl Val) (m : Mod) : sess (applyValues m p) = sess m := by
  change sess (p.foldl applyValue m) = _
  have step (n : Mod) (x : Nat × Val) : sess (applyValue n x) = sess n := by
    unfold applyValue
    split <;> rfl
  induction p generalizing m with
  | nil => rfl
  | cons x r ih => exact (ih _).trans (step m x)

/-! ### COMMIT -/

/-- What a COMMIT whose check finds nothing leaves, of a session and of the objects: the pending set in force over what it carries. -/
structure Committed (m : Mod) (slot : Nat) (n : Mod) : Prop where
  sess : sess n slot = { sess m slot with pend := [] } ∨ (sess n slot).state ≠ 2
  look : ((Machine.sess m slot).pend.map (·.1)).Nodup → ∀ i s e, s < 256 → e < 2 ^ 32 → Settled i s →
    look n [] i s e = (tfind (Machine.sess m slot).pend (okey i s e)).getD (carried m (Machine.sess m slot).pend i s e)

theorem carried_nil (m : Mod) {i s e : Nat} : carried m [] i s e = look m [] i s e := by
  rw [carried_eq]
  cases portOfKey (okey i s e) with
  | none => rfl
  | some q =>
    have h1 : ¬(q < 64 ∧ absorbed m q = true ∧ absorbedIn m [] q = false) := fun ⟨_, h, h'⟩ => absurd (h.symm.trans h') (by decide)
    have h2 : ¬(q < 64 ∧ absorbed m q = false ∧ absorbedIn m [] q = true ∧ i = 0x3100 ∧ s = 1) :=
      fun ⟨_, h, h', _⟩ => absurd (h.symm.trans h') (by decide)
    exact (if_neg h1).trans (if_neg h2)

/-- An empty pending set changes nothing. -/
theorem committed_empty {m : Mod} {slot : Nat} (h : (sess m slot).pend = []) : Committed m slot m := by
  refine ⟨.inl ?_, fun _ i s e _ _ _ => ?_⟩
  · rw [← h]
  · rw [h, carried_nil]
    rfl

theorem committed_apply (m : Mod) (slot cred : Nat) :
    Committed m slot (commitApply (setSess m slot { sess m slot with pend := [] }) cred (sess m slot).pend) := by
  generalize hp : (sess m slot).pend = p
  obtain ⟨queues, nodes, hform⟩ := refillTouched_form (setSess m slot { sess m slot with pend := [] }) p
  have keep := commitApply_keeps (setSess m slot { sess m slot with pend := [] }) cred p
  have hlook : look (refillTouched (setSess m slot { sess m slot with pend := [] }) p) = look m := by
    rw [hform]
    exact look_congr rfl rfl
  have hsess : sess (refillTouched (setSess m slot { sess m slot with pend := [] }) p) slot = { sess m slot with pend := [] } := by
    rw [hform]
    exact sess_setSess_same ..
  refine ⟨?_, fun hn i s e hs he h => ?_⟩
  · have hi := keep.sess slot
    rw [sess_applyValues, sess_relayout, hsess] at hi
    exact hi
  · rw [hp] at hn ⊢
    rw [keep.look i s e hs h, look_applyValues p hn _ hs he h, look_relayout _ _ hs he h, carried_congr hlook]

theorem commitAct_refused {s : State} {slot : Nat} {r : Refuse} (dry : Bool) (h : commitCheck s.mod slot (sess s.mod slot).pend = some r) :
    ∃ ev, ∃ bodies ≠ [], commitAct dry s slot = (s.upd { s.mod with ev := ev }, r.status, bodies) := by
  unfold commitAct
  dsimp only
  rw [h]
  dsimp only
  split
  · exact ⟨_, _, List.cons_ne_nil _ _, rfl⟩
  · exact ⟨s.mod.ev, _, List.cons_ne_nil _ _, rfl⟩

theorem commitAct_applied {s : State} {slot : Nat} (h : commitCheck s.mod slot (sess s.mod slot).pend = none) :
    ∃ n st, ∃ bodies ≠ [], commitAct false s slot = (s.upd n, st, bodies) ∧ (st = 0 ∨ st = 1) ∧ Committed s.mod slot n := by
  unfold commitAct
  dsimp only
  rw [h]
  dsimp only
  by_cases hp : (sess s.mod slot).pend = []
  · exact ⟨s.mod, 0, _, List.cons_ne_nil _ _, if_pos (by rw [hp]; rfl), .inl rfl, committed_empty hp⟩
  · refine ⟨_, _, _, List.cons_ne_nil _ _, if_neg (by simp [hp]), ?_, committed_apply ..⟩
    split
    · exact .inr rfl
    · exact .inl rfl

theorem commitAct_dry {s : State} {slot : Nat} :
    ∃ bodies ≠ [], commitAct true s slot = (s, ((commitCheck s.mod slot (sess s.mod slot).pend).map (·.status)).getD 0, bodies) := by
  unfold commitAct
  dsimp only
  cases commitCheck s.mod slot (sess s.mod slot).pend with
  | none => exact ⟨_, List.cons_ne_nil _ _, rfl⟩
  | some r => exact ⟨_, List.cons_ne_nil _ _, Prod.ext (if_neg (by simp)) rfl⟩

/-! ### The commands -/

theorem exec_commit {s : State} {h : Hdr} {i : Nat} (hw : (Instr.commit h).wf = true) (ha : Accepted s.mod h i) {n : Mod} {st : Nat} {bodies : List Octets}
    (hact : commitAct false (s.upd (accept s.mod h i)) i = ((s.upd (accept s.mod h i)).upd n, st, bodies)) :
    exec (.commit h) s = .next (finish (s.upd (replySealed n i (sess s.mod i).id (sess s.mod i).sent h 0x14 st bodies))) := by
  refine (run_wf "COMMIT" _ s (fun s => serve s h 0x14 (commitAct false)) hw).trans ?_
  rw [serve_accepted _ _ _ i _ ha, hact]
  rfl

theorem exec_commitDryRun {s : State} {h : Hdr} {i : Nat} (hw : (Instr.commitDryRun h).wf = true) (ha : Accepted s.mod h i) {st : Nat} {bodies : List Octets}
    (hact : commitAct true (s.upd (accept s.mod h i)) i = (s.upd (accept s.mod h i), st, bodies)) :
    exec (.commitDryRun h) s =
      .next (finish (s.upd (replySealed (accept s.mod h i) i (sess s.mod i).id (sess s.mod i).sent h 0x14 st bodies))) := by
  refine (run_wf "COMMIT_DRY_RUN" _ s (fun s => serve s h 0x14 (commitAct true)) hw).trans ?_
  rw [serve_accepted _ _ _ i _ ha, hact]
  rfl

/-- A message answered in its slot that has changed no object, no pending set and no unit. -/
structure OnlyAnswered (m : Mod) (h : Hdr) (i st : Nat) (t : Mod) : Prop where
  obj : t.obj = m.obj
  pend : (sess t i).pend = (sess m i).pend
  hi : (sess t i).hi = h.sequence
  tether : t.tether = m.tether
  assocs : t.assocs = m.assocs
  ports : t.ports = m.ports
  queues : t.queues = m.queues
  gates : t.gates = m.gates
  answered : Answered t i h.sequence st

theorem onlyAnswered {m : Mod} {h : Hdr} {i : Nat} (ha : Accepted m h i) (ev : Ev) {op st : Nat} {bodies : List Octets} (hb : bodies ≠ []) :
    OnlyAnswered m h i st (settleOver (replySealed { accept m h i with ev := ev } i (sess m i).id (sess m i).sent h op st bodies)) := by
  obtain ⟨-, -, -, h2, -⟩ := ha
  have hsess : sess { accept m h i with ev := ev } i = sess (accept m h i) i := rfl
  have hstate : (sess { accept m h i with ev := ev } i).state = 2 := by rw [hsess, sess_accept_same]; exact h2
  have hid : (sess { accept m h i with ev := ev } i).id = (sess m i).id := by rw [hsess, sess_accept_same]
  have hreply := sess_replySealed_same { accept m h i with ev := ev } i (sess m i).id (sess m i).sent h op st bodies hstate hid
  exact {
    obj := by rw [settleOver_obj, replySealed_obj]; rfl
    pend := by rw [sess_settleOver, hreply, hsess, sess_accept_same]
    hi := by rw [sess_settleOver, hreply, hsess, sess_accept_same]
    tether := by rw [settleOver_tether, replySealed_tether]; rfl
    assocs := by rw [settleOver_assocs, replySealed_assocs]; rfl
    ports := by rw [settleOver_ports, replySealed_ports]; rfl
    queues := by rw [settleOver_queues, replySealed_queues]; rfl
    gates := by rw [settleOver_gates, replySealed_gates]; rfl
    answered := (wrote_replySealed hb hstate hid).answered }

/-- Settles O15: the check decides; what a COMMIT sets going keeps the values that it puts in force, and a refusal or a dry run touches none. -/
theorem commitAppliesOrChangesNothing : Obligations.CommitAppliesOrChangesNothing := by
  refine ⟨fun s h i hw ha => ?_, fun s h i hw ha => ?_⟩
  · obtain ⟨-, -, -, h2, -⟩ := id ha
    have hpend : (sess (accept s.mod h i) i).pend = (sess s.mod i).pend := by rw [sess_accept_same]
    have hlook : look (accept s.mod h i) = look s.mod := look_congr rfl rfl
    cases hc : commitCheck (accept s.mod h i) i (sess s.mod i).pend with
    | none =>
      obtain ⟨n, st, bodies, hb, hact, hst, hcom⟩ := commitAct_applied (s := s.upd (accept s.mod h i)) (slot := i) (by rw [State.upd_mod, hpend]; exact hc)
      refine ⟨_, exec_commit hw ha hact, fun _ => ⟨fun hn idx sub e hsub he h6 hwr => ?_, fun hs => ?_⟩, fun r hr => by cases hr⟩
      · rw [finish_mod, State.upd_mod, look_settleOver, look_replySealed, hcom.look (by rw [State.upd_mod, hpend]; exact hn) idx sub e hsub he ⟨h6, hwr⟩,
          State.upd_mod, hpend, carried_congr hlook]
      · rw [finish_mod, State.upd_mod, sess_settleOver] at hs ⊢
        obtain hsess | hended := hcom.sess
        · rw [State.upd_mod, sess_accept_same] at hsess
          have hstate : (sess n i).state = 2 := by rw [hsess]; exact h2
          have hid : (sess n i).id = (sess s.mod i).id := by rw [hsess]
          have w := wrote_replySealed (op := 0x14) (st := st) (h := h) (sent := (sess s.mod i).sent) hb hstate hid
          rw [sess_replySealed_same _ _ _ _ _ _ _ _ hstate hid, hsess]
          exact ⟨rfl, rfl, hst.imp (fun e : st = 0 => e ▸ w.answered) (fun e : st = 1 => e ▸ w.answered)⟩
        · rw [sess_replySealed_ended _ _ _ _ _ _ _ _ hended] at hs
          exact absurd hs hended
    | some r =>
      obtain ⟨ev, bodies, hb, hact⟩ := commitAct_refused (s := s.upd (accept s.mod h i)) (slot := i) false (by rw [State.upd_mod, hpend]; exact hc)
      refine ⟨_, exec_commit hw ha hact, fun hn => (by cases hn), fun r' hr => ?_⟩
      obtain rfl := Option.some.inj hr
      have w := onlyAnswered (op := 0x14) (st := r.status) ha ev hb
      exact ⟨w.obj, w.pend, w.tether, w.assocs, w.ports, w.queues, w.gates, w.answered⟩
  · obtain ⟨bodies, hb, hact⟩ := commitAct_dry (s := s.upd (accept s.mod h i)) (slot := i)
    have hpend : (sess (accept s.mod h i) i).pend = (sess s.mod i).pend := by rw [sess_accept_same]
    have w := onlyAnswered (op := 0x14) (st := ((commitCheck (accept s.mod h i) i (sess s.mod i).pend).map (·.status)).getD 0) ha (accept s.mod h i).ev hb
    rw [State.upd_mod, hpend] at hact
    exact ⟨_, exec_commitDryRun hw ha hact, w.obj, w.pend, w.hi, w.tether, w.assocs, w.ports, w.queues, w.gates, w.answered⟩

end Sys2Proof.Machine
end

