-- ==== Sys2Proof/Proofs/Framer.lean ====
section
/-! PROOFS. The Gelix framer (R124 to R130): candidates found, confirmed and dropped, SYNC entered, kept and left, and multiframe alignment. -/

namespace Sys2Proof.Machine

variable {m : Mod} {p off mfas errors : Nat} {c : Nat × Nat}

/-! ### The commands -/

theorem exec_fawFound {s : State} {q : Fin 64} (hm : mfas < 256) (hr : s.mod.sys.running = true) :
    exec (.fawFound q off mfas) s = .next (finish (s.upd (fawFound s.mod q off mfas))) :=
  run_whileOn (c := .fawFound q off mfas) "FAW_FOUND" (fun m => fawFound m q off mfas) (decide_eq_true hm) hr

theorem exec_candidateDropped {s : State} {q : Fin 64} (hr : s.mod.sys.running = true) :
    exec (.candidateDropped q off) s = .next (finish (s.upd (dropCandidate s.mod q off))) :=
  run_whileOn (c := .candidateDropped q off) "CANDIDATE_DROPPED" (fun m => dropCandidate m q off) rfl hr

theorem exec_expectedFawCheck {s : State} {q : Fin 64} (he : errors ≤ 48) (hm : mfas < 256) (hr : s.mod.sys.running = true) :
    exec (.expectedFawCheck q errors mfas) s = .next (finish (s.upd (checkFaw s.mod q errors mfas))) :=
  run_whileOn (c := .expectedFawCheck q errors mfas) "EXPECTED_FAW_CHECK" (fun m => checkFaw m q errors mfas) (decide_eq_true ⟨he, hm⟩) hr

/-! ### Entering SYNC -/

@[simp] theorem rxOf_bump (m : Mod) (idx sub elem n p : Nat) : rxOf (bump m idx sub elem n) p = rxOf m p := by unfold rxOf; rw [bump_rx]

/-- A framer that enters SYNC holds no candidate and no errored FAW, and is out of multiframe (R124, R130). -/
theorem enterSync_rx (m : Mod) (p mfas : Nat) :
    (rxOf (enterSync m p mfas) p).st = 2 ∧ (rxOf (enterSync m p mfas) p).cands = [] ∧ (rxOf (enterSync m p mfas) p).mfIn = false ∧
      (rxOf (enterSync m p mfas) p).fawErr = 0 := by
  unfold enterSync
  rw [rxOf_raise, (refreshPhase_refreshed ..).rxOf, rxOf_setRx_same]
  exact ⟨rfl, rfl, rfl, rfl⟩

/-! ### A FAW outside SYNC -/

/-- The candidate that expects a FAW at an offset of the stream (R124). -/
abbrev expecting (m : Mod) (p off : Nat) : Option (Nat × Nat) := (rxOf m p).cands.find? fun c => c.1 + c.2 * 16384 == off

/-- A FAW where a candidate that was confirmed twice expects it is the third confirmation (R124). -/
theorem fawFound_third (hf : framing m p = true) (hst : (rxOf m p).st ≠ 2) (hc : expecting m p off = some c) (h2 : c.2 = 2) :
    fawFound m p off mfas = enterSync m p mfas := by
  simp [fawFound, hf, hst, hc, h2]

/-- A FAW where another candidate expects it confirms that candidate (R124, R125). -/
theorem fawFound_confirms (hf : framing m p = true) (hst : (rxOf m p).st ≠ 2) (hc : expecting m p off = some c) (h2 : c.2 ≠ 2) :
    fawFound m p off mfas = setRx m p { rxOf m p with cands := (rxOf m p).cands.map fun d => if d = c then (d.1, d.2 + 1) else d } := by
  simp [fawFound, hf, hst, hc, h2]

/-- A FAW that no candidate expects makes one while there is room (R125). -/
theorem fawFound_new (hf : framing m p = true) (hst : (rxOf m p).st ≠ 2) (hc : expecting m p off = none) (hl : (rxOf m p).cands.length < 4) :
    fawFound m p off mfas = setRx m p { rxOf m p with st := 1, cands := (rxOf m p).cands ++ [(off, 1)] } := by
  simp [fawFound, hf, hst, hc, hl]

/-- The framer once it has refused a candidate: the overflow is noted and counted (R127). -/
def overflowing (m : Mod) (p : Nat) : Mod := bump (setRx m p { rxOf m p with overflowed := true }) 0x3200 0x14 p 1

/-- A FAW that no candidate expects is only counted while four are held; the first of them raises an event (R127). -/
theorem fawFound_full (hf : framing m p = true) (hst : (rxOf m p).st ≠ 2) (hc : expecting m p off = none) (hl : 4 ≤ (rxOf m p).cands.length) :
    fawFound m p off mfas = overflowing m p ∨ fawFound m p off mfas = raise (overflowing m p) 0x3003 (srcH (harbourOf p)) 0 (b1 p) := by
  simp only [fawFound, hf, hst, hc, Nat.not_lt.mpr hl, Bool.not_true, beq_iff_eq, Bool.false_or, if_false]
  split
  · exact .inl rfl
  · exact .inr rfl

theorem fawFound_full_spec (hf : framing m p = true) (hst : (rxOf m p).st ≠ 2) (hc : expecting m p off = none) (hl : 4 ≤ (rxOf m p).cands.length) :
    (rxOf (fawFound m p off mfas) p).cands = (rxOf m p).cands ∧ Counts m (fawFound m p off mfas) 0x3200 0x14 p 1 := by
  have hcands : (rxOf (overflowing m p) p).cands = (rxOf m p).cands := by rw [overflowing, rxOf_bump, rxOf_setRx_same]
  have hcount : Counts m (overflowing m p) 0x3200 0x14 p 1 := Counts.of_bump p rfl (by decide) rfl
  obtain h | h := fawFound_full (mfas := mfas) hf hst hc hl <;> rw [h]
  · exact ⟨hcands, hcount⟩
  · exact ⟨hcands, hcount.of_inf rfl⟩

/-! ### A candidate that misses -/

/-- A candidate that misses is dropped and counted; with the last one the framer hunts (R124, R126). -/
theorem dropCandidate_spec (hf : framing m p = true) (hc : expecting m p off = some c) :
    (rxOf (dropCandidate m p off) p).cands = (rxOf m p).cands.filter (· != c) ∧ Counts m (dropCandidate m p off) 0x3200 0x13 p 1 ∧
      ((rxOf m p).cands.filter (· != c) = [] → (rxOf (dropCandidate m p off) p).st = 0) := by
  simp only [dropCandidate, hf, hc, Bool.not_true, Bool.false_eq_true, if_false, rxOf_bump, rxOf_setRx_same]
  refine ⟨?_, Counts.of_bump p rfl (by decide) rfl, fun h => by rw [h]; rfl⟩
  split
  · exact (List.isEmpty_iff.mp ‹_›).symm
  · rfl

/-! ### A FAW expected in SYNC -/

/-- Multiframe alignment moves nothing of the receiver but its own fields (R130). -/
theorem multiframe_rx (m : Mod) (p mfas : Nat) :
    ∃ mfIn mfExpect mfBad mfInAt lomHeld, rxOf (multiframe m p mfas) p =
      { rxOf m p with mfIn := mfIn, mfExpect := mfExpect, mfBad := mfBad, mfInAt := mfInAt, lomHeld := lomHeld } := by
  unfold multiframe
  dsimp only
  repeat' split
  all_goals
    simp only [rxOf_raise, rxOf_setRx_same]
    exact ⟨_, _, _, _, _, rfl⟩

/-- Out of multiframe, the expected MFAS brings the receiver in (R130). -/
theorem multiframe_enters (hin : (rxOf m p).mfIn = false) (he : (rxOf m p).mfExpect = some mfas) : (rxOf (multiframe m p mfas) p).mfIn = true := by
  simp [multiframe, hin, he]

/-- A FAW that is not the fifth errored one in a row: the run of errored ones is kept, and the MFAS is taken (R128, R130). -/
theorem checkFaw_keeps {n : Nat} (hf : framing m p = true) (hst : (rxOf m p).st = 2) (hn : n = if errors ≤ 2 then 0 else (rxOf m p).fawErr + 1)
    (h5 : n ≠ 5) : checkFaw m p errors mfas = multiframe (setRx m p { rxOf m p with fawErr := n }) p mfas := by
  subst hn
  simp only [checkFaw, hf, hst, Bool.not_true, bne_self_eq_false, Bool.or_self, Bool.false_eq_true, if_false]
  exact if_neg h5

theorem checkFaw_keeps_rx {n : Nat} (hf : framing m p = true) (hst : (rxOf m p).st = 2)
    (hn : n = if errors ≤ 2 then 0 else (rxOf m p).fawErr + 1) (h5 : n ≠ 5) :
    (rxOf (checkFaw m p errors mfas) p).st = 2 ∧ (rxOf (checkFaw m p errors mfas) p).fawErr = n := by
  obtain ⟨_, _, _, _, _, h⟩ := multiframe_rx (setRx m p { rxOf m p with fawErr := n }) p mfas
  rw [checkFaw_keeps hf hst hn h5, h, rxOf_setRx_same]
  exact ⟨hst, rfl⟩

/-- The fifth errored FAW in a row leaves SYNC (R128). -/
theorem checkFaw_fifth (hf : framing m p = true) (hst : (rxOf m p).st = 2) (he : 2 < errors) (h4 : (rxOf m p).fawErr = 4) :
    checkFaw m p errors mfas = toHunt (setRx m p { rxOf m p with mfExpect := some mfas }) p := by
  simp [checkFaw, hf, hst, Nat.not_le.mpr he, h4]

/-! ### The framer -/

/-- Settles O27: each command is its effect on the running module, and each effect on the receiver is said above. -/
theorem framerHuntsAndSynchronises : Obligations.FramerHuntsAndSynchronises := by
  intro s p off mfas hr hf hm
  have kept (n : Mod) : rxOf (finish (s.upd n)).mod p = rxOf n p := rxOf_settleOver n p
  have counted {n : Mod} {sub : Nat} (h : Counts s.mod n 0x3200 sub p 1) : Counts s.mod (finish (s.upd n)).mod 0x3200 sub p 1 :=
    h.of_inf (by rw [finish_mod, State.upd_mod, inf_settleOver])
  refine ⟨fun hst => ⟨fun c hc => ⟨fun h2 => ?_, fun h2 => ?_⟩, fun hc => ⟨fun hl => ?_, fun hl => ?_⟩⟩, fun c hc => ?_,
    fun errors he hst => ⟨fun h => ?_, fun h h4 => ?_, fun h h4 => ?_⟩⟩
  · refine ⟨_, exec_fawFound hm hr, ?_⟩
    rw [kept, fawFound_third hf hst hc h2]
    exact enterSync_rx ..
  · refine ⟨_, exec_fawFound hm hr, ?_⟩
    rw [kept, fawFound_confirms hf hst hc h2, rxOf_setRx_same]
    exact ⟨rfl, List.mem_map.mpr ⟨c, List.mem_of_find?_eq_some hc, if_pos rfl⟩⟩
  · refine ⟨_, exec_fawFound hm hr, ?_⟩
    rw [kept, fawFound_new hf hst hc hl, rxOf_setRx_same]
    exact ⟨rfl, rfl⟩
  · refine ⟨_, exec_fawFound hm hr, ?_⟩
    obtain ⟨hcands, hcount⟩ := fawFound_full_spec (mfas := mfas) hf hst hc hl
    exact ⟨by rw [kept, hcands], counted hcount⟩
  · refine ⟨_, exec_candidateDropped hr, ?_⟩
    obtain ⟨hcands, hcount, hlast⟩ := dropCandidate_spec hf hc
    rw [kept]
    exact ⟨hcands, counted hcount, hlast⟩
  · refine ⟨_, exec_expectedFawCheck he hm hr, ?_⟩
    obtain ⟨h2, h0⟩ := checkFaw_keeps_rx (mfas := mfas) (n := 0) hf hst (if_pos h).symm (by decide)
    rw [kept]
    refine ⟨h2, h0, fun hin hexp => ?_⟩
    rw [checkFaw_keeps (n := 0) hf hst (if_pos h).symm (by decide)]
    exact multiframe_enters (by rw [rxOf_setRx_same]; exact hin) (by rw [rxOf_setRx_same]; exact hexp)
  · refine ⟨_, exec_expectedFawCheck he hm hr, ?_⟩
    rw [kept]
    exact checkFaw_keeps_rx hf hst (if_neg (Nat.not_le.mpr h)).symm (by omega)
  · refine ⟨_, exec_expectedFawCheck he hm hr, ?_⟩
    rw [kept, checkFaw_fifth hf hst h h4]
    exact toHunt_st ..

end Sys2Proof.Machine
end

