-- ==== Sys2Proof/Proofs/GelixFrames.lean ====
section
/-! PROOFS. A Gelix frame received in SYNC (R97, R116, R132, R153) in a state whose table of senders lists a port twice. -/

namespace Sys2Proof.Machine

theorem exec_gelixFrameReceive {s : State} {p : Fin 64} {f : GelixFrame} (hw : (Instr.gelixFrameReceive p f).wf = true)
    (hr : s.mod.sys.running = true) : exec (.gelixFrameReceive p f) s = .next (finish (s.upd (gelixReceive s.mod p f))) :=
  run_whileOn "GELIX_FRAME_RECEIVE" (fun m => gelixReceive m p f) hw hr

/-- A frame of queue 0. -/
def strayFrame : Desc := { bytes := [], queue := 0, len := 64, ingress := 0, stamp := 0, at_ := 0 }

/-- Gelix port 8 in SYNC, its last seven keyed frames failed, and clear port 0 up with queue 0 bound to it, forwarding the faults of port 8. The table
of senders is not canonical (`twf` of it is false): it lists port 8 twice. The first entry, which is the one read, is idle but for a record of queue 0;
the second has 100 errored frames to report. -/
def listedTwice : State :=
  let m : Mod :=
    { sys := { running := true }
      ports := [(0, { up := true, fwd := true }), (8, { aligned := true })]
      rx := [(8, { st := 2, hist := List.replicate 7 false })]
      tx := [(8, { waiting := [(strayFrame, [])] }), (8, { rei := 100 })] }
  { mod := setNat (setNat (setNat (setNat m 0x3100 2 8 1) 0x3100 3 8 1) 0x3310 1 0 8) 0x6000 3 0 0 }

/-- A keyed Gelix frame. -/
def keyedFrame : GelixFrame :=
  { mfas := 0, trc := 0, stat := 0, rei := 0, bip := 0, kep := 0, fcnt := 0, ttx := zeros 10, mch := zeros 16, rsv := zeros 3,
    payload := { key := [], iv := [], aad := [], plain := zeros 16320 }, payloadParity := 0 }

/-- The frame meets what the statement asks for: it is received in SYNC and fails for want of a key, and no errored frame is to be reported. -/
theorem listedTwice_receives :
    (Instr.gelixFrameReceive 8 keyedFrame).wf = true ∧ listedTwice.mod.sys.running = true ∧ framing listedTwice.mod (8 : Fin 64) = true ∧
      (rxOf listedTwice.mod (8 : Fin 64)).st = 2 ∧ keyedFrame.stat.testBit 2 = false ∧
      outerCheck listedTwice.mod (boundAssoc listedTwice.mod 4 (8 : Fin 64)) keyedFrame = some 0x0B ∧ (txOf listedTwice.mod (8 : Fin 64)).rei = 0 := by
  decide +kernel

/-- The eighth failure declares AUTH, the forwarding of port 8's faults stops, and port 0 goes down. The discard of its frames leaves the first
entry of port 8 at its default, so that `tmap` drops it, and the errored frame is counted on the second. -/
theorem listedTwice_rei :
    (txOf (finish (listedTwice.upd (gelixReceive listedTwice.mod (8 : Fin 64) keyedFrame))).mod (8 : Fin 64)).rei = 101 := by
  decide +kernel

/-- Refutes O28: the statement speaks of every state, and where the table of senders lists a port twice, an errored frame can be counted for REI on an
entry that was not the one read before. A premise that the table is canonical, `twf {} s.mod.tx = true`, would leave such states out. -/
theorem not_gelixFramesAreSentAndChecked : ¬ Obligations.GelixFramesAreSentAndChecked := by
  rintro ⟨hreceived, -, -⟩
  obtain ⟨hw, hr, hf, hst, hkeyed, hfail, hrei⟩ := listedTwice_receives
  obtain ⟨t, ht, -, -, -, hchecked⟩ := hreceived listedTwice 8 keyedFrame hw hr hf hst
  obtain ⟨-, -, hone, -⟩ := (hchecked hkeyed).1 0x0B hfail
  obtain rfl := Host.Outcome.next.inj (ht.symm.trans (exec_gelixFrameReceive hw hr))
  rw [listedTwice_rei, hrei] at hone
  exact absurd hone (by decide)

end Sys2Proof.Machine
end

