-- ==== Sys2Proof/Proofs/LineSeconds.lean ====
section
/-! PROOFS. The end of a second of a line port (R160, R177 to R185): what its own operations leave of the port's performance monitoring, and what
the second that follows begins with. -/

namespace Sys2Proof.Machine

/-! ### Operations on ports keep every port's PM, but for the defects seen -/

@[simp] theorem discardPort_pm (m : Mod) (p : Nat) : (discardPort m p).1.pm = m.pm := by
  obtain ⟨_, _, _, _, _, h⟩ := discardFrames_form m (fun d => qPort m [] d.queue == p) true 3
  rw [discardPort, h]

theorem portDown_pm (m : Mod) (p cause : Nat) : (portDown m p cause).pm = m.pm := by
  cases h : (port m p).up with
  | false => rw [portDown_of_down h]
  | true => rw [portDown_of_up h, raise_pm, raise_pm, discardPort_pm, bump_pm, setPort_pm]

theorem portUp_pm (m : Mod) (p : Nat) : (portUp m p).pm = m.pm := by
  obtain h | h := portUp_cases m p <;> rw [h]
  rw [raise_pm, setPort_pm]

theorem refreshPhase_pm (m : Mod) (p : Nat) : (refreshPhase m p).pm = m.pm := by
  cases h : (port m p).aligned with
  | false => rw [refreshPhase_of_not_aligned h]
  | true => rw [refreshPhase_of_aligned h, setPort_pm]

theorem signalFault_pm (m : Mod) (p : Nat) : (signalFault m p).pm = m.pm := by
  obtain h | h := signalFault_cases m p <;> rw [h]
  rw [emit_pm, setPort_pm]

theorem turned_pm (m : Mod) (p cause : Nat) : (turned m p cause).pm = m.pm := by
  unfold turned
  split
  · exact portUp_pm m p
  · exact portDown_pm m p cause

theorem forwardStop_pm (m : Mod) (c src : Nat) : (forwardStop m c src).pm = m.pm := by
  obtain h | h := forwardStop_cases m c src <;> rw [h]
  rw [raise_pm, setPort_pm]

@[simp] theorem refreshForward_pm (m : Mod) (line : Nat) : (refreshForward m line).pm = m.pm := by
  rw [refreshForward_eq]
  refine foldl_keeps Mod.pm _ (fun m c => ?_) _ m
  obtain h | ⟨hc, h⟩ := refreshForwardAt_cases line m c
  · rw [h]
  · rw [h, refreshPort_of_clear hc, signalFault_pm, refreshPhase_pm, turned_pm, forwardStop_pm]

@[simp] theorem pmOf_refreshForward (m : Mod) (line p : Nat) : pmOf (refreshForward m line) p = pmOf m p := by
  unfold pmOf; rw [refreshForward_pm]
@[simp] theorem pmOf_bump (m : Mod) (idx sub elem n p : Nat) : pmOf (bump m idx sub elem n) p = pmOf m p := by unfold pmOf; rw [bump_pm]
@[simp] theorem pmOf_raiseOnce (m : Mod) (code unit src bpid : Nat) (ps : Octets) (p : Nat) :
    pmOf (raiseOnce m code unit src bpid ps) p = pmOf m p := by
  rw [raiseOnce_eq]; rfl
@[simp] theorem pmOf_advance (m : Mod) (n p : Nat) : pmOf (advance m n) p = pmOf m p := by unfold pmOf; rw [advance_pm]
@[simp] theorem pmOf_settleOver (m : Mod) (p : Nat) : pmOf (settleOver m) p = pmOf m p := by unfold pmOf; rw [settleOver_pm]
@[simp] theorem pmOf_refuseAccess (m : Mod) (h master : Nat) (r : Option Nat) (n p : Nat) : pmOf (refuseAccess m h master r n) p = pmOf m p := by
  unfold refuseAccess
  dsimp only
  split <;> simp

/-- A defect of a line port is noted in the second under way, which changes no more of the port's PM (R160, R179). -/
theorem pmOf_setDefect {p : Nat} (hp : isLine p = true) (m : Mod) (b : Nat) (on : Bool) :
    ∃ seen seenRdi, pmOf (setDefect m p b on) p = { pmOf m p with seen := seen, seenRdi := seenRdi } := by
  obtain ⟨-, h⟩ | ⟨ps, h⟩ := setDefect_cases m p b on
  · exact ⟨(pmOf m p).seen, (pmOf m p).seenRdi, by rw [h]⟩
  · rw [h, afterDefect_of_line hp, pmOf_refreshForward]
    exact ⟨_, _, pmOf_setPm_same ..⟩

/-! ### DEG -/

/-- A port's PM with the runs of bad and good seconds of DEG. -/
def setDegRuns (m : Mod) (p bad good : Nat) : Mod := setPm m p { pmOf m p with degBad := bad, degGood := good }

/-- DEG after a second: nothing, or the runs of bad and good seconds go on, with the defect where one is long enough (R160). -/
theorem degSecond_cases (m : Mod) (p start : Nat) :
    degSecond m p start = m ∨ ∃ bad good, degSecond m p start = setDegRuns m p bad good ∨
      ∃ on, degSecond m p start = setDefect (setDegRuns m p bad good) p 9 on := by
  unfold degSecond
  dsimp only
  split
  · exact .inl rfl
  · refine .inr ?_
    split
    · refine ⟨(pmOf m p).degBad + 1, 0, ?_⟩
      split
      · exact .inr ⟨true, rfl⟩
      · exact .inl rfl
    · refine ⟨0, (pmOf m p).degGood + 1, ?_⟩
      split
      · exact .inr ⟨false, rfl⟩
      · exact .inl rfl

theorem degSecond_move (m : Mod) (p start : Nat) : PortMove m (degSecond m p start) := by
  obtain h | ⟨bad, good, h | ⟨on, h⟩⟩ := degSecond_cases m p start <;> rw [h]
  · exact .refl m
  · exact .setPm ..
  · exact (PortMove.setPm ..).trans (setDefect_move ..)

/-- What DEG changes of a line port's PM. -/
theorem pmOf_degSecond {p : Nat} (hp : isLine p = true) (m : Mod) (start : Nat) :
    ∃ seen seenRdi bad good, pmOf (degSecond m p start) p = { pmOf m p with seen := seen, seenRdi := seenRdi, degBad := bad, degGood := good } := by
  obtain h | ⟨bad, good, h | ⟨on, h⟩⟩ := degSecond_cases m p start
  · exact ⟨_, _, _, _, by rw [h]⟩
  · exact ⟨_, _, bad, good, by rw [h, setDegRuns, pmOf_setPm_same]⟩
  · obtain ⟨seen, rdi, hd⟩ := pmOf_setDefect hp (setDegRuns m p bad good) 9 on
    exact ⟨seen, rdi, bad, good, by rw [h, hd, setDegRuns, pmOf_setPm_same]⟩

/-! ### Grading -/

/-- A second that the port was enabled and monitored for all of is graded (R177, R178). -/
theorem graded_gradeSecond {m : Mod} {p start : Nat} (hpart : (pmOf m p).partialSec = false) (hoff : (pmOf m p).pmOff = false)
    (hon : infB m 0x3400 1 p = true) (hto : (pmOf m p).partialTo ≤ start / nsPerSec) : (gradeSecond m p start).graded = true := by
  simp [gradeSecond, partialSecond, hpart, hoff, hon, Nat.not_lt.mpr hto]

/-- A second with as many errored frames as the threshold is severely errored (R161, R179). -/
theorem ses_gradeSecond {m : Mod} {p : Nat} (start : Nat) (h : sesThreshold (width m p) ≤ (pmOf m p).errored) : (gradeSecond m p start).ses = true := by
  simp [gradeSecond, h]

/-- A severely errored second takes an available end to unavailable when it is the tenth in a row (R182). -/
theorem availStep_ses (run first time : Nat) : (availStep false run first time true).unavail = decide (run = 9) := by
  by_cases h : run = 9 <;> simp [availStep, h]

/-! ### The second committed -/

/-- A port's PM without its bins and histories, which a commit advances. -/
def Pm.unbinned (x : Pm) : Pm := { x with cur15 := {}, hist15 := [], cur24 := {}, prev24 := {}, hist1 := [] }

theorem unbinned_toBin15 (m : Mod) (p : Nat) (s : Second) : (pmOf (toBin15 m p s) p).unbinned = (pmOf m p).unbinned := by
  unfold toBin15
  dsimp only
  split
  · rfl
  · split
    · simp [close15, Pm.unbinned]
    · simp [Pm.unbinned]

theorem unbinned_toBin24 (m : Mod) (p : Nat) (s : Second) : (pmOf (toBin24 m p s) p).unbinned = (pmOf m p).unbinned := by
  unfold toBin24
  dsimp only
  split
  · rfl
  · split
    · simp [close24, Pm.unbinned]
    · simp [Pm.unbinned]

/-- A commit changes nothing of the port's PM but its bins and histories (R184, R186). -/
theorem unbinned_commitSecond (m : Mod) (p : Nat) (s : Second) : (pmOf (commitSecond m p s) p).unbinned = (pmOf m p).unbinned := by
  have bins : (pmOf (toBin24 (toBin15 m p s) p s) p).unbinned = (pmOf m p).unbinned := (unbinned_toBin24 ..).trans (unbinned_toBin15 ..)
  unfold commitSecond
  dsimp only
  split
  · rw [refuseHistory, pmOf_refuseAccess, bins]
  · split
    · rw [pmOf_setPm_same, ← bins]
      rfl
    · exact bins

@[simp] theorem pmOf_availEvent (m : Mod) (p q : Nat) (far : Bool) (a : Avail) : pmOf (availEvent m p far a) q = pmOf m q := by
  unfold availEvent
  split <;> rfl

/-! ### The second that ends -/

/-- What a port's PM y shows once a second graded s has ended, where it was x before (R179 to R184). -/
structure SecondEnded (x : Pm) (s : Second) (y : Pm) : Prop where
  errored : y.errored = 0
  rei : y.rei = 0
  nokey : y.nokey = false
  recent : y.recent.length ≤ 9
  lastErrored : s.graded = true → y.lastErrored = s.errored
  lastRei : s.graded = true → y.lastRei = s.rei
  neUnavail : s.graded = true → y.neUnavail = (availStep x.neUnavail x.neRun x.neFirst s.time s.ses).unavail

/-- None of it lies in the bins. -/
theorem SecondEnded.of_unbinned {x y z : Pm} {s : Second} (h : SecondEnded x s y) (hz : z.unbinned = y.unbinned) : SecondEnded x s z where
  errored := (congrArg Pm.errored hz).trans h.errored
  rei := (congrArg Pm.rei hz).trans h.rei
  nokey := (congrArg Pm.nokey hz).trans h.nokey
  recent := (congrArg (·.recent.length) hz).trans_le h.recent
  lastErrored := fun hg => (congrArg Pm.lastErrored hz).trans (h.lastErrored hg)
  lastRei := fun hg => (congrArg Pm.lastRei hz).trans (h.lastRei hg)
  neUnavail := fun hg => (congrArg Pm.neUnavail hz).trans (h.neUnavail hg)

/-- The end of a second, by its grading after DEG (R160, R179 to R184). -/
theorem endSecond_ended (m : Mod) (p start : Nat) :
    SecondEnded (pmOf (degSecond m p start) p) (gradeSecond (degSecond m p start) p start) (pmOf (endSecond m p start) p) := by
  unfold endSecond
  extract_lets m0 x s ne fe all runs a1 a2 raw y m1
  have hy : SecondEnded x s y :=
    { errored := rfl, rei := rfl, nokey := rfl, recent := List.length_take_le 9 a2
      lastErrored := fun hg => if_pos hg, lastRei := fun hg => if_pos hg, neUnavail := fun hg => congrArg Avail.unavail (if_pos hg) }
  have hm1 : pmOf m1 p = y := by simp only [m1, pmOf_availEvent, pmOf_setPm_same]
  split
  · exact hy.of_unbinned (by rw [unbinned_commitSecond, hm1])
  · exact hm1 ▸ hy

/-! ### The command -/

/-- The number of the second that ends: the oldest that has not been ended, or the one under way (R31, R184). -/
def endingSecond (m : Mod) (p : Nat) : Nat :=
  if (pmOf m p).done = 0 then nowH m (harbourOf p) / nsPerSec else min (pmOf m p).done (nowH m (harbourOf p) / nsPerSec)

/-- The module when time has run to the end of that second. -/
def atSecondEnd (m : Mod) (p : Nat) : Mod := advanceToNet m (harbourOf p) ((endingSecond m p + 1) * nsPerSec)

/-- The module that the second is graded in: DEG has followed it. -/
def atGrading (m : Mod) (p : Nat) : Mod := degSecond (atSecondEnd m p) p (endingSecond m p * nsPerSec)

/-- The grading of the second that ends. -/
def endedGrade (m : Mod) (p : Nat) : Second := gradeSecond (atGrading m p) p (endingSecond m p * nsPerSec)

theorem lineSecond_of_line {p : Nat} (hp : isLine p = true) (m : Mod) :
    lineSecond m p = endSecond (atSecondEnd m p) p (endingSecond m p * nsPerSec) := by
  simp [lineSecond, hp, atSecondEnd, endingSecond]

theorem lineSecond_ended {p : Nat} (hp : isLine p = true) (m : Mod) :
    SecondEnded (pmOf (atGrading m p) p) (endedGrade m p) (pmOf (lineSecond m p) p) := by
  rw [lineSecond_of_line hp]
  exact endSecond_ended ..

/-- Neither the time that passes nor DEG changes what the second is graded by, but for the defects seen. -/
theorem pmOf_atGrading {p : Nat} (hp : isLine p = true) (m : Mod) :
    ∃ seen seenRdi bad good, pmOf (atGrading m p) p = { pmOf m p with seen := seen, seenRdi := seenRdi, degBad := bad, degGood := good } := by
  have h := pmOf_degSecond hp (atSecondEnd m p) (endingSecond m p * nsPerSec)
  rwa [atSecondEnd, advanceToNet, pmOf_advance] at h

theorem width_atGrading (m : Mod) (p : Nat) : width (atGrading m p) p = width m p :=
  ((degSecond_move ..).width p).trans (SameLayout.width (advance_layout m _) p)

theorem pmEnabled_atGrading (m : Mod) (p : Nat) : infB (atGrading m p) 0x3400 1 p = infB m 0x3400 1 p := by
  have deg : inf (atGrading m p) 0x3400 1 p = inf (atSecondEnd m p) 0x3400 1 p := (degSecond_move ..).inf p (by decide) (by simp [portCounter])
  have time : inf (atSecondEnd m p) 0x3400 1 p = inf m 0x3400 1 p := congrArg Val.toNat (look_advance_ne m _ (by decide) (by decide))
  rw [infB, deg, time, infB]

theorem exec_lineSecondEnd {s : State} {p : Fin 64} (hr : s.mod.sys.running = true) :
    exec (.lineSecondEnd p) s = .next (finish (s.upd (lineSecond s.mod p))) :=
  run_whileOn (c := .lineSecondEnd p) "LINE_SECOND_END" (fun m => lineSecond m p) rfl hr

/-- Settles O24: what the port shows follows from the grading of the second, and that from what the second has counted. -/
theorem secondsAreGradedAndHeld : Obligations.SecondsAreGradedAndHeld := by
  intro s p hr hp
  refine ⟨_, exec_lineSecondEnd hr, ?_⟩
  rw [finish_mod, State.upd_mod, pmOf_settleOver]
  have ended := lineSecond_ended hp s.mod
  refine ⟨ended.errored, ended.rei, ended.nokey, ended.recent, fun hpart hoff hon hto => ?_⟩
  obtain ⟨_, _, _, _, hpm⟩ := pmOf_atGrading hp s.mod
  have graded : (endedGrade s.mod p).graded = true := by
    refine graded_gradeSecond (by rw [hpm, hpart]) (by rw [hpm, hoff]) (by rw [pmEnabled_atGrading, hon]) ?_
    rw [hpm, Nat.mul_div_cancel _ (by decide : 0 < nsPerSec)]
    exact hto
  have counts : (endedGrade s.mod p).errored = (pmOf s.mod p).errored ∧ (endedGrade s.mod p).rei = (pmOf s.mod p).rei := by
    simp only [endedGrade, gradeSecond, hpm, and_self]
  refine ⟨(ended.lastErrored graded).trans counts.1, (ended.lastRei graded).trans counts.2, fun havail hses => ?_⟩
  have severe : (endedGrade s.mod p).ses = true := ses_gradeSecond _ (by rw [width_atGrading, hpm]; exact hses)
  rw [ended.neUnavail graded, severe, hpm, havail, availStep_ses]

end Sys2Proof.Machine
end

