-- ==== Sys2Proof/Proofs/KeyWrites.lean ====
section
/-! PROOFS. Keys: wrapped keys written to slots (R247 to R253, R262, R268, R890), KEK shares (R254 to R259) and slots erased (R269, R300). -/

namespace Sys2Proof.Machine

/-! ### A WRITE that keeps the sessions -/

/-- An accepted WRITE of one record of an object that is not kept pending: its effect, and the reply that carries its status. -/
theorem writeRow_replied {s : State} {h : Hdr} {i idx sub e : Nat} {data : Octets} {v : Val} {f : Eff} (o : Obj)
    (hw : WriteClears s.mod h i idx sub (some e) data) (hrow : objRow idx sub = some o) (hacc : o.acc ≠ .rwc) (hdec : decodeVal o.ty data = some v)
    (hx : isExpert (recOf idx sub (some e) data) = false) (hf : effect (s.upd (accept s.mod h i)) i idx sub e v = f) :
    ∃ bodies, (finish (writeRow s h idx sub (some e) data)).mod =
      settleOver (replySealed f.s.mod i (sess s.mod i).id (sess s.mod i).sent h 0x11 f.status bodies) := by
  obtain ⟨hacc', hclr⟩ := hw
  obtain ⟨⟨o', v'⟩, hchk⟩ : ∃ y, recordCheck (accept s.mod h i) i (recOf idx sub (some e) data) = .ok y := by
    cases hc : recordCheck (accept s.mod h i) i (recOf idx sub (some e) data) with
    | error x => rw [Clears, hc] at hclr; cases hclr
    | ok y => exact ⟨y, rfl⟩
  obtain ⟨hrow', hdec'⟩ := recordCheck_ok hchk
  obtain rfl : o' = o := Option.some.inj (hrow'.symm.trans hrow)
  obtain rfl : v' = v := Option.some.inj (hdec'.symm.trans hdec)
  obtain ⟨bodies, -, hone⟩ := writeOne_effect (s := s.upd (accept s.mod h i)) hchk hacc hx
  rw [show effect (s.upd (accept s.mod h i)) i (recOf idx sub (some e) data).addr.idx (recOf idx sub (some e) data).addr.sub
    (recOf idx sub (some e) data).addr.elem v' = f from hf] at hone
  exact ⟨bodies, by rw [finish_mod, writeRow, serve_accepted _ _ _ i _ hacc', hone, State.upd_mod]⟩

/-- What an accepted WRITE of one record leaves of keys: those its effect leaves, answered with its status. -/
structure WroteKeys (n : Mod) (i sequence status : Nat) (t : Mod) : Prop where
  answered : Answered t i sequence status
  assocs : t.assocs = n.assocs
  keks : t.keks = n.keks
  filters : t.filters = n.filters

theorem WroteKeys.assoc {n t : Mod} {i q st : Nat} (h : WroteKeys n i q st t) (a : Nat) : assoc t a = assoc n a := by unfold Machine.assoc; rw [h.assocs]
theorem WroteKeys.kek {n t : Mod} {i q st : Nat} (h : WroteKeys n i q st t) (b : Nat) : kek t b = kek n b := by unfold Machine.kek; rw [h.keks]

theorem writeRow_keys {s : State} {h : Hdr} {i idx sub e : Nat} {data : Octets} {v : Val} {f : Eff} (o : Obj)
    (hw : WriteClears s.mod h i idx sub (some e) data) (hrow : objRow idx sub = some o) (hacc : o.acc ≠ .rwc) (hdec : decodeVal o.ty data = some v)
    (hx : isExpert (recOf idx sub (some e) data) = false) (hf : effect (s.upd (accept s.mod h i)) i idx sub e v = f)
    (hm : f.s.mod.mgmt = (accept s.mod h i).mgmt) :
    WroteKeys f.s.mod i h.sequence f.status (finish (writeRow s h idx sub (some e) data)).mod := by
  have hsess : sess f.s.mod i = sess (accept s.mod h i) i := by unfold sess; rw [hm]
  have w := writeRow_wrote o hw hrow hacc hdec hx hf (by rw [hsess]) (by rw [hsess])
  obtain ⟨bodies, heq⟩ := writeRow_replied o hw hrow hacc hdec hx hf
  exact ⟨w.answered, by rw [heq, settleOver_assocs, replySealed_assocs], by rw [heq, settleOver_keks, replySealed_keks],
    by rw [heq, settleOver_filters, replySealed_filters]⟩

/-! ### Slots -/

@[simp] theorem Assoc.slot_setSlot_same (x : Assoc) (ph : Nat) (y : Slot) : (x.setSlot ph y).slot ph = y := by
  unfold Assoc.slot Assoc.setSlot
  split <;> rfl

theorem Assoc.slot_setSlot_other (x : Assoc) {ph : Nat} (y : Slot) (h : ph < 2) : (x.setSlot ph y).slot (1 - ph) = x.slot (1 - ph) := by
  unfold Assoc.slot Assoc.setSlot
  obtain rfl | rfl : ph = 0 ∨ ph = 1 := by omega
  · rfl
  · rfl

/-! ### The unwrap -/

theorem unwrapSteps_length (ks : List Nat) (t : Nat) (s : Nat × List Nat) (h : s.2 ≠ []) : (unwrapSteps ks t s).2.length = s.2.length := by
  induction t generalizing s with
  | zero => rfl
  | succ t ih =>
    have hpos : 0 < s.2.length := List.length_pos_of_ne_nil h
    have step : (unwrapStep ks (t + 1) s).2.length = s.2.length := by simp [unwrapStep, unsnoc]; omega
    rw [unwrapSteps, ih _ (List.ne_nil_of_length_pos (by omega)), step]

theorem words64_length (n : Nat) (b : Octets) : (words64 n b).length = n := by
  induction n generalizing b with
  | zero => rfl
  | succ n ih => rw [words64, List.length_cons, ih]

theorem bytesOf_length (n v : Nat) : (bytesOf n v).length = n := by
  induction n with
  | zero => rfl
  | succ n ih => rw [bytesOf, List.length_cons, ih]

/-- What a wrapped key opens to is a plaintext of 48 bytes (R249). -/
theorem aesUnwrap_length {k w plain : Octets} (h : aesUnwrap k w = some plain) : plain.length = 48 := by
  unfold aesUnwrap at h
  split at h
  · cases h
  · have hl := unwrapSteps_length (keySchedule k) 36 (natOf (w.take 8), words64 6 (w.drop 8)) (List.cons_ne_nil _ _)
    dsimp only at h
    split at h
    · rw [← Option.some.inj h, List.length_flatMap, List.map_congr_left (fun x _ => bytesOf_length 8 x), List.map_const', hl, words64_length]
      rfl
    · cases h

/-! ### The masked engine -/

/-- The blocks that a masked engine takes change its bank, its count of blocks and events (R366, R383). -/
theorem engineTakes_form (m : Mod) (k start : Nat) (lanes : List Nat) (j : Job) :
    ∃ banks obj ev, engineTakes m k start lanes j = { m with banks := banks, obj := obj, ev := ev } := by
  unfold engineTakes
  dsimp only
  generalize hb : setBank m k _ = n
  obtain ⟨v, ev, h, -⟩ := bump_form n 0x4210 9 (k / 2) j.count
  rw [h, ← hb]
  exact ⟨_, _, _, rfl⟩

/-! ### A wrapped key -/

variable {m : Mod} {a ph : Nat}

/-- The slot can take a key: the checks made before it is unwrapped (R248, R267, R281, R701). -/
structure TakesKey (m : Mod) (a ph : Nat) : Prop where
  type : aType m a ≠ 0
  suite : isGcm (aSuite m a) = true
  kek : (kek m (aBerth m a)).kek ≠ []
  epoch : aType m a = 3 → m.tether.vault.bootEpoch ≠ 2 ^ 32 - 1
  ready : (berth m (aBerth m a)).resetting = false
  inactive : isActive m a ph = false
  numbers : aType m a ≠ 3 → aType m a ≠ 4 → ((assoc m a).slot (1 - ph)).full = true → inf m 0x4010 2 (a * 2) ≠ inf m 0x4010 2 (a * 2 + 1)

theorem writeKey_retired (failB : Bool) (un : Octets → Option Octets) : writeKey m true failB a ph un = (m, 0x4002) := rfl

/-- A key that does not open is counted as a failure of the berth's KEK (R250). -/
theorem writeKey_unopened {un : Octets → Option Octets} (h : TakesKey m a ph) (hu : un (kek m (aBerth m a)).kek = none) :
    ∃ x ev, writeKey m false false a ph un = ({ setKek m (aBerth m a) x with ev := ev }, 0x6001) := by
  obtain ⟨ht, hs, hk, he, hr, hi, hn⟩ := h
  unfold writeKey
  dsimp only
  rw [if_neg (by simp [ht, hs, hk]), if_neg (by simpa using he), if_neg (by simp [hr]), if_neg (by simp [hi]),
    if_neg (fun x => hn x.1 x.2.1 x.2.2.1 x.2.2.2), hu]
  exact ⟨_, _, rfl⟩

/-- A plaintext that the association takes: its own index, and no salt or key bytes that its suite has no use for (R249, R251 to R253). -/
structure Suits (m : Mod) (a : Nat) (plain : Octets) : Prop where
  length : plain.length = 48
  index : natAt plain 44 2 = a
  salt : isXpn (aSuite m a) = false → sub plain 32 12 = zeros 12
  short : aSuite m a = 1 ∨ aSuite m a = 3 → sub plain 16 16 = zeros 16

/-- A key of which every filter position is set has been written before (R262). -/
theorem writeKey_known {un : Octets → Option Octets} {plain : Octets} (h : TakesKey m a ph) (hp : Suits m a plain)
    (hu : un (kek m (aBerth m a)).kek = some plain)
    (hf : ∀ p ∈ filterBits (plain.take 44), tget false (tget ({} : KeyFilter) m.filters (aHarbour a)).bits p = true) :
    ∃ ev, writeKey m false false a ph un = ({ m with ev := ev }, 0x3005) := by
  obtain ⟨ht, hs, hk, he, hr, hi, hn⟩ := h
  obtain ⟨hlen, hidx, hsalt, hshort⟩ := hp
  unfold writeKey
  dsimp only
  rw [if_neg (by simp [ht, hs, hk]), if_neg (by simpa using he), if_neg (by simp [hr]), if_neg (by simp [hi]),
    if_neg (fun x => hn x.1 x.2.1 x.2.2.1 x.2.2.2), hu]
  dsimp only
  rw [if_neg (by simp [hlen, hidx]), if_neg (by simpa using ⟨hsalt, hshort⟩), if_pos (by simpa using hf)]
  exact ⟨_, rfl⟩

/-- The module with a key in a slot (R248, R268). -/
def withKey (m : Mod) (a ph : Nat) (plain : Octets) : Mod :=
  setAssoc m a { (assoc m a).setSlot ph (loadedSlot m a ph (aType m a) plain ((assoc m a).written + 1)) with written := (assoc m a).written + 1 }

/-- A key with a new fingerprint is loaded, and its fingerprint taken up (R262, R268). -/
theorem writeKey_new {un : Octets → Option Octets} {plain : Octets} (h : TakesKey m a ph) (hp : Suits m a plain)
    (hu : un (kek m (aBerth m a)).kek = some plain)
    (hf : ∃ p ∈ filterBits (plain.take 44), tget false (tget ({} : KeyFilter) m.filters (aHarbour a)).bits p = false) :
    ∃ ev, writeKey m false false a ph un = (addFingerprint { withKey m a ph plain with ev := ev } (aHarbour a) (filterBits (plain.take 44)), 0) := by
  obtain ⟨ht, hs, hk, he, hr, hi, hn⟩ := h
  obtain ⟨hlen, hidx, hsalt, hshort⟩ := hp
  unfold writeKey
  dsimp only
  rw [if_neg (by simp [ht, hs, hk]), if_neg (by simpa using he), if_neg (by simp [hr]), if_neg (by simp [hi]),
    if_neg (fun x => hn x.1 x.2.1 x.2.2.1 x.2.2.2), hu]
  dsimp only
  rw [if_neg (by simp [hlen, hidx]), if_neg (by simpa using ⟨hsalt, hshort⟩), if_neg (by simpa using hf)]
  exact ⟨_, rfl⟩

/-! ### Fingerprints -/

/-- A table of filter bits with some positions set. -/
def setBits (t : Tbl Bool) (ps : List Nat) : Tbl Bool := ps.foldl (fun t p => tset false t p true) t

theorem addFingerprint_form (m : Mod) (h : Nat) (ps : List Nat) : ∃ keys told ev, addFingerprint m h ps =
    { m with filters := tset {} m.filters h { bits := setBits (tget ({} : KeyFilter) m.filters h).bits ps, keys := keys, told := told }, ev := ev } := by
  unfold addFingerprint
  dsimp only
  generalize (if 2 ^ 24 < _ then 2 else if 2 ^ 23 < _ then 1 else 0 : Nat) = told
  split
  · exact ⟨_, _, _, rfl⟩
  · exact ⟨_, _, m.ev, rfl⟩

theorem tget_setBits (ps : List Nat) (t : Tbl Bool) (p : Nat) (h : p ∈ ps ∨ tget false t p = true) : tget false (setBits t ps) p = true := by
  induction ps generalizing t with
  | nil => exact h.resolve_left List.not_mem_nil
  | cons q r ih =>
    refine ih _ ?_
    rw [tget_tset]
    split
    · exact .inr rfl
    · exact h.imp_left fun hm => (List.mem_cons.mp hm).resolve_left ‹_›

/-- Every position of a fingerprint taken up is set in the harbour's filter (R262). -/
theorem addFingerprint_bits (m : Mod) (h : Nat) {ps : List Nat} {p : Nat} (hp : p ∈ ps) :
    tget false (tget ({} : KeyFilter) (addFingerprint m h ps).filters h).bits p = true := by
  obtain ⟨keys, told, ev, hf⟩ := addFingerprint_form m h ps
  rw [hf, tget_tset_same]
  exact tget_setBits ps _ p (.inl hp)

theorem addFingerprint_assocs (m : Mod) (h : Nat) (ps : List Nat) : (addFingerprint m h ps).assocs = m.assocs := by
  obtain ⟨keys, told, ev, hf⟩ := addFingerprint_form m h ps; rw [hf]
theorem addFingerprint_mgmt (m : Mod) (h : Nat) (ps : List Nat) : (addFingerprint m h ps).mgmt = m.mgmt := by
  obtain ⟨keys, told, ev, hf⟩ := addFingerprint_form m h ps; rw [hf]

/-! ### The command -/

/-- The unwrap's blocks go through the masked engine; the keys and the status are those of the key written (R369). -/
theorem keyEffect_form (m : Mod) (e : Nat) (w : Octets) :
    ∃ banks obj ev, keyEffect m e w =
      ({ (writeKey m m.sys.retired (entropyOf m (aHarbour (e / 2))).failB (e / 2) (e % 2) fun k => aesUnwrap k w).1 with banks := banks, obj := obj, ev := ev },
        (writeKey m m.sys.retired (entropyOf m (aHarbour (e / 2))).failB (e / 2) (e % 2) fun k => aesUnwrap k w).2) := by
  unfold keyEffect
  dsimp only
  generalize writeKey m m.sys.retired (entropyOf m (aHarbour (e / 2))).failB (e / 2) (e % 2) (fun k => aesUnwrap k w) = r
  split
  · obtain ⟨banks, obj, ev, h⟩ := engineTakes_form r.1 (aBasin (e / 2) * 2) (max (bank r.1 (aBasin (e / 2) * 2)).busy m.sys.elapsed + 1)
      ((bank r.1 (aBasin (e / 2) * 2)).laneList.take 1) { key := (kek m (aBerth m (e / 2))).kek, runs := true, count := 36 }
    exact ⟨banks, obj, ev, by rw [h]⟩
  · exact ⟨r.1.banks, r.1.obj, r.1.ev, rfl⟩

theorem exec_keyWrite {s : State} {h : Hdr} {e : Nat} {w : Octets} (hw : (Instr.keyWrite h e w).wf = true) :
    exec (.keyWrite h e w) s = .next (finish (writeRow s h 0x4010 1 (some e) w)) :=
  run_wf "KEY_WRITE" _ s (fun s => writeRow s h 0x4010 1 (some e) w) hw

variable {s : State} {h : Hdr} {i e : Nat} {w : Octets}

/-- An accepted wrapped key: the keys it leaves, answered with its status. -/
theorem keyWrite_keys {n : Mod} {st : Nat} {retired failB : Bool} (hc : WriteClears s.mod h i 0x4010 1 (some e) w)
    (hret : s.mod.sys.retired = retired) (hfail : (entropyOf s.mod (aHarbour (e / 2))).failB = failB)
    (hr : writeKey (accept s.mod h i) retired failB (e / 2) (e % 2) (fun k => aesUnwrap k w) = (n, st))
    (hm : n.mgmt = (accept s.mod h i).mgmt) : WroteKeys n i h.sequence st (finish (writeRow s h 0x4010 1 (some e) w)).mod := by
  obtain ⟨banks, obj, ev, hk⟩ := keyEffect_form (accept s.mod h i) e w
  rw [show (accept s.mod h i).sys.retired = s.mod.sys.retired from rfl, show entropyOf (accept s.mod h i) = entropyOf s.mod from rfl, hret, hfail, hr] at hk
  obtain ⟨ha, h1, h2, h3⟩ := writeRow_keys (v := .oct w) (f := effN (s.upd (accept s.mod h i)) (keyEffect (accept s.mod h i) e w)) _ hc rfl (by decide) rfl rfl rfl
    (by rw [hk]; exact hm)
  rw [hk] at ha h1 h2 h3
  exact ⟨ha, h1, h2, h3⟩

/-- Settles O19: the checks pass or refuse the key, and only a key that is taken changes a slot. -/
theorem keyWriteLoadsTheSlot : Obligations.KeyWriteLoadsTheSlot := by
  refine ⟨fun s h i e w plain hw hc hret hfail htype hsuite hepoch hreset hinactive hnum hkek hun hidx hsalt hshort hnew => ?_,
    fun s h i e w hw hc => ⟨fun hret => ?_, fun hret hfail htype hsuite hreset hinactive hother hkek => ⟨fun hun => ?_, fun plain hun hidx hs4 hknown => ?_⟩⟩⟩
  · have htakes : TakesKey (accept s.mod h i) (e / 2) (e % 2) := ⟨htype, hsuite, hkek, hepoch, hreset, hinactive, hnum⟩
    have hsuits : Suits (accept s.mod h i) (e / 2) plain := ⟨aesUnwrap_length hun, hidx, hsalt, hshort⟩
    obtain ⟨ev, hr⟩ := writeKey_new (un := fun k => aesUnwrap k w) htakes hsuits hun hnew
    have wrote := keyWrite_keys hc hret hfail hr (addFingerprint_mgmt ..)
    have hassoc (a : Nat) : assoc (finish (writeRow s h 0x4010 1 (some e) w)).mod a = assoc (withKey (accept s.mod h i) (e / 2) (e % 2) plain) a := by
      rw [wrote.assoc]; unfold assoc; rw [addFingerprint_assocs]
    have hslot : (assoc (finish (writeRow s h 0x4010 1 (some e) w)).mod (e / 2)).slot (e % 2) =
        loadedSlot (accept s.mod h i) (e / 2) (e % 2) (aType (accept s.mod h i) (e / 2)) plain ((assoc (accept s.mod h i) (e / 2)).written + 1) := by
      rw [hassoc, withKey, assoc_setAssoc_same]
      exact Assoc.slot_setSlot_same ..
    refine ⟨_, exec_keyWrite hw, ?_⟩
    rw [hslot]
    refine ⟨rfl, rfl, rfl, rfl, fun hpn => ?_, ?_, fun p hp => ?_, fun a ha => ?_⟩
    · show (aType s.mod (e / 2) != 3 && decide (lastPn (aType s.mod (e / 2)) (aSuite s.mod (e / 2)) < inf s.mod 0x4010 4 (e / 2 * 2 + e % 2))) = false
      rw [Nat.div_add_mod']
      obtain h3 | hle := hpn
      · simp [h3]
      · simp [hle]
    · rw [hassoc, withKey, assoc_setAssoc_same]
      exact Assoc.slot_setSlot_other _ _ (Nat.mod_lt _ (by decide))
    · rw [wrote.filters]
      exact addFingerprint_bits _ _ hp
    · rw [hassoc, withKey, assoc_setAssoc_ne _ _ ha]
      rfl
  · have wrote := keyWrite_keys hc hret rfl (writeKey_retired ..) rfl
    exact ⟨_, exec_keyWrite hw, wrote.assocs, wrote.answered⟩
  all_goals
    have htakes : TakesKey (accept s.mod h i) (e / 2) (e % 2) := {
      type := fun h0 => absurd (htype.symm.trans h0) (by decide)
      suite := hsuite
      kek := hkek
      epoch := fun h3 => absurd (htype.symm.trans h3) (by decide)
      ready := hreset
      inactive := hinactive
      numbers := fun _ _ hfull => absurd (hother.symm.trans hfull) (by decide) }
  · obtain ⟨x, ev, hr⟩ := writeKey_unopened (un := fun k => aesUnwrap k w) htakes hun
    have wrote := keyWrite_keys hc hret hfail hr rfl
    exact ⟨_, exec_keyWrite hw, wrote.assocs, wrote.answered⟩
  · have h4 : aSuite (accept s.mod h i) (e / 2) = 4 := hs4
    have hsuits : Suits (accept s.mod h i) (e / 2) plain := {
      length := aesUnwrap_length hun
      index := hidx
      salt := fun hx => by rw [h4] at hx; cases hx
      short := by rw [h4]; omega }
    obtain ⟨ev, hr⟩ := writeKey_known (un := fun k => aesUnwrap k w) htakes hsuits hun hknown
    have wrote := keyWrite_keys hc hret hfail hr rfl
    exact ⟨_, exec_keyWrite hw, wrote.assocs, wrote.answered⟩

end Sys2Proof.Machine
end

