-- ==== Sys2Proof/Proofs/KekShares.lean ====
section
/-! PROOFS. KEK shares held, combined, expired and erased (R254 to R259), and key slots erased (R269, R300, R324). -/

namespace Sys2Proof.Machine

variable {m n k : Mod} {a b : Nat}

/-! ### Shares -/

variable {isB : Bool} {share other : Octets} {cred c since : Nat}

/-- The first share is held, with its credential and time (R254, R255). -/
theorem writeShare_first (share : Octets) (cred : Nat) (h : (if isB then (kek m b).shareA else (kek m b).shareB) = none) :
    ∃ x, writeShare m b isB share cred = (setKek m b x, 0) ∧ x.kek = (kek m b).kek ∧
      (if isB then x.shareB else x.shareA) = some (share, cred, m.sys.elapsed) := by
  unfold writeShare
  dsimp only
  rw [h]
  refine ⟨_, rfl, ?_⟩
  cases isB <;> exact ⟨rfl, rfl⟩

/-- The second share, of another credential, puts the KEK in force (R256). -/
theorem writeShare_second (share : Octets) (h : (if isB then (kek m b).shareA else (kek m b).shareB) = some (other, c, since)) (hc : c ≠ cred) :
    ∃ ev, writeShare m b isB share cred =
      ({ setKek m b { kek m b with kek := xorBytes share other, shareA := none, shareB := none } with ev := ev }, 0) := by
  unfold writeShare
  dsimp only
  rw [h]
  exact ⟨_, if_neg hc⟩

/-- A second share of the same credential is refused (R256). -/
theorem writeShare_same (share : Octets) (h : (if isB then (kek m b).shareA else (kek m b).shareB) = some (other, cred, since)) :
    writeShare m b isB share cred = (m, 0x1005) := by
  unfold writeShare
  dsimp only
  rw [h]
  exact if_pos rfl

theorem expireShare_a {x : Octets} {c since : Nat} (h : (kek m b).shareA = some (x, c, since)) :
    ∃ ev, expireShare m b = { setKek (advanceTo m (since + 300 * secCycles)) b { kek m b with shareA := none } with ev := ev } := by
  unfold expireShare
  dsimp only
  rw [h]
  exact ⟨_, rfl⟩

theorem expireShare_b {x : Octets} {c since : Nat} (ha : (kek m b).shareA = none) (h : (kek m b).shareB = some (x, c, since)) :
    ∃ ev, expireShare m b = { setKek (advanceTo m (since + 300 * secCycles)) b { kek m b with shareB := none } with ev := ev } := by
  unfold expireShare
  dsimp only
  rw [ha, h]
  exact ⟨_, rfl⟩

/-! ### What keeps the keys of an association -/

/-- What operations on the switch of an association leave: the sessions, its slots and every other association. -/
structure KeepsSlots (a : Nat) (m n : Mod) : Prop where
  mgmt : n.mgmt = m.mgmt
  s0 : (assoc n a).s0 = (assoc m a).s0
  s1 : (assoc n a).s1 = (assoc m a).s1
  others : ∀ c, c ≠ a → assoc n c = assoc m c

namespace KeepsSlots

theorem refl (a : Nat) (m : Mod) : KeepsSlots a m m := ⟨rfl, rfl, rfl, fun _ _ => rfl⟩
theorem trans (h : KeepsSlots a m n) (h' : KeepsSlots a n k) : KeepsSlots a m k :=
  ⟨h'.mgmt.trans h.mgmt, h'.s0.trans h.s0, h'.s1.trans h.s1, fun c hc => (h'.others c hc).trans (h.others c hc)⟩

theorem slot (h : KeepsSlots a m n) (ph : Nat) : (assoc n a).slot ph = (assoc m a).slot ph := by unfold Assoc.slot; rw [h.s0, h.s1]

theorem of_eq (hm : n.mgmt = m.mgmt) (ha : n.assocs = m.assocs) : KeepsSlots a m n :=
  have h (c : Nat) : assoc n c = assoc m c := by unfold assoc; rw [ha]
  ⟨hm, by rw [h], by rw [h], fun c _ => h c⟩

theorem ite {c : Prop} [Decidable c] (h : KeepsSlots a m n) (h' : KeepsSlots a m k) : KeepsSlots a m (if c then n else k) := by
  split
  · exact h
  · exact h'

theorem setAssoc {x : Assoc} (h0 : x.s0 = (assoc m a).s0) (h1 : x.s1 = (assoc m a).s1) : KeepsSlots a m (setAssoc m a x) :=
  ⟨rfl, by rw [assoc_setAssoc_same, h0], by rw [assoc_setAssoc_same, h1], fun _ hc => assoc_setAssoc_ne _ _ hc⟩

theorem raise (m : Mod) (code src bpid : Nat) (ps : Octets) : KeepsSlots a m (raise m code src bpid ps) := .of_eq rfl rfl
theorem setNat (m : Mod) (idx sub e v : Nat) : KeepsSlots a m (setNat m idx sub e v) := .of_eq rfl rfl

theorem cancelSwitch (m : Mod) (a cause : Nat) : KeepsSlots a m (cancelSwitch m a cause) := by
  unfold Machine.cancelSwitch
  refine .ite (.refl a m) (.trans (.trans (.setAssoc ?_ ?_) (.setNat ..)) (.raise ..))
  all_goals rfl

theorem flip (m : Mod) (a : Nat) : KeepsSlots a m (flip m a) := by
  unfold Machine.flip
  refine .trans (.trans (.setAssoc ?_ ?_) (.setNat ..)) (.raise ..)
  all_goals rfl

theorem switchInForce (m : Mod) (a : Nat) : KeepsSlots a m (switchInForce m a) := by
  unfold Machine.switchInForce
  refine .ite (.setAssoc ?_ ?_) (.flip ..)
  all_goals split <;> rfl

theorem dropNotice (m : Mod) (a : Nat) : KeepsSlots a m (dropNotice m a) := by
  unfold Machine.dropNotice
  exact .ite (.setAssoc rfl rfl) (.refl a m)

/-- What stands before an erase on its edge touches no key (R324, R325). -/
theorem beforeErase (m : Mod) (a ph : Nat) : KeepsSlots a m (beforeErase m a ph) := by
  unfold Machine.beforeErase scheduledSwitch
  exact .ite (.ite (.switchInForce ..) (.refl a m)) (.ite (.flip ..) (.ite (.of_eq (advance_mgmt ..) (advance_assocs ..)) (.refl a m)))

end KeepsSlots

/-- A slot erased is empty; the other slot and the other associations keep theirs (R269, R300). -/
structure SlotErased (a ph : Nat) (m n : Mod) : Prop where
  mgmt : n.mgmt = m.mgmt
  empty : ((assoc n a).slot ph).full = false
  other : (assoc n a).slot (1 - ph) = (assoc m a).slot (1 - ph)
  others : ∀ c, c ≠ a → assoc n c = assoc m c

theorem SlotErased.after {ph : Nat} (h : SlotErased a ph m n) (h' : KeepsSlots a n k) : SlotErased a ph m k :=
  ⟨h'.mgmt.trans h.mgmt, by rw [h'.slot]; exact h.empty, (h'.slot _).trans h.other, fun c hc => (h'.others c hc).trans (h.others c hc)⟩

theorem SlotErased.setSlot {ph : Nat} (m : Mod) (a : Nat) (hph : ph < 2) : SlotErased a ph m (setAssoc m a ((assoc m a).setSlot ph {})) :=
  ⟨rfl, by rw [assoc_setAssoc_same, Assoc.slot_setSlot_same], by rw [assoc_setAssoc_same, Assoc.slot_setSlot_other _ _ hph],
    fun _ hc => assoc_setAssoc_ne _ _ hc⟩

theorem SlotErased.before {ph : Nat} (h : KeepsSlots a m n) (h' : SlotErased a ph n k) : SlotErased a ph m k :=
  ⟨h'.mgmt.trans h.mgmt, h'.empty, h'.other.trans (h.slot _), fun c hc => (h'.others c hc).trans (h.others c hc)⟩

theorem eraseSlot_erased (m : Mod) (a : Nat) {ph : Nat} (hph : ph < 2) : SlotErased a ph m (eraseSlot m a ph) := by
  refine .before (.beforeErase m a ph) ?_
  unfold eraseSlot
  generalize beforeErase m a ph = n
  dsimp only
  split
  · next h => exact ⟨rfl, by simpa using h, rfl, fun _ _ => rfl⟩
  · exact ((SlotErased.setSlot n a hph).after (.raise ..)).after (.ite (.cancelSwitch ..) (.dropNotice ..))

/-! ### The commands -/

theorem exec_kekShareWrite {s : State} {h : Hdr} {isB : Bool} {share : Octets} (hw : (Instr.kekShareWrite h b isB share).wf = true) :
    exec (.kekShareWrite h b isB share) s = .next (finish (writeRow s h 0x4100 (if isB then 2 else 1) (some b) share)) :=
  run_wf "KEK_SHARE_WRITE" _ s (fun s => writeRow s h 0x4100 (if isB then 2 else 1) (some b) share) hw
theorem exec_kekErase {s : State} {h : Hdr} (hw : (Instr.kekErase h b true).wf = true) :
    exec (.kekErase h b true) s = .next (finish (writeRow s h 0x4100 6 (some b) (b1 1))) :=
  run_wf "KEK_ERASE" _ s (fun s => writeRow s h 0x4100 6 (some b) (b1 1)) hw
theorem exec_keySlotErase {s : State} {h : Hdr} {e : Nat} (hw : (Instr.keySlotErase h e true).wf = true) :
    exec (.keySlotErase h e true) s = .next (finish (writeRow s h 0x4010 6 (some e) (b1 1))) :=
  run_wf "KEY_SLOT_ERASE" _ s (fun s => writeRow s h 0x4010 6 (some e) (b1 1)) hw
theorem exec_kekShareExpire {s : State} {b : Fin 256} (hr : s.mod.sys.running = true) :
    exec (.kekShareExpire b) s = .next (finish (s.upd (expireShare s.mod b))) :=
  run_whileOn (c := .kekShareExpire b) "KEK_SHARE_EXPIRE" (fun m => expireShare m b) rfl hr

@[simp] theorem kek_settleOver (m : Mod) (b : Nat) : kek (settleOver m) b = kek m b := by unfold kek; rw [settleOver_keks]

variable {s : State} {h : Hdr} {i : Nat}

theorem kekShareWrite_keys {isB : Bool} {share : Octets} {st : Nat} (hc : WriteClears s.mod h i 0x4100 (if isB then 2 else 1) (some b) share)
    (hret : s.mod.sys.retired = false) (hr : writeShare (accept s.mod h i) b isB share (sess s.mod i).cred = (n, st))
    (hm : n.mgmt = (accept s.mod h i).mgmt) :
    WroteKeys n i h.sequence st (finish (writeRow s h 0x4100 (if isB then 2 else 1) (some b) share)).mod := by
  have hcred : (sess (accept s.mod h i) i).cred = (sess s.mod i).cred := by rw [sess_accept_same]
  rw [← hcred] at hr
  have heff : (if (accept s.mod h i).sys.retired then { s := s.upd (accept s.mod h i), status := 0x4002 }
      else effN (s.upd (accept s.mod h i)) (n, st)) = effN (s.upd (accept s.mod h i)) (n, st) :=
    if_neg (by rw [show (accept s.mod h i).sys.retired = _ from hret]; decide)
  rw [← hr] at heff
  cases isB with
  | false =>
    have w := writeRow_keys (v := .oct share) _ hc rfl (by decide) rfl rfl heff (by rw [hr]; exact hm)
    rwa [hr] at w
  | true =>
    have w := writeRow_keys (v := .oct share) _ hc rfl (by decide) rfl rfl heff (by rw [hr]; exact hm)
    rwa [hr] at w

theorem kekErase_keys (hc : WriteClears s.mod h i 0x4100 6 (some b) (b1 1)) :
    WroteKeys (eraseKek (accept s.mod h i) b) i h.sequence 0 (finish (writeRow s h 0x4100 6 (some b) (b1 1))).mod :=
  writeRow_keys (v := .nat 1) (f := effM (s.upd (accept s.mod h i)) (eraseKek (accept s.mod h i) b)) _ hc rfl (by decide) rfl rfl rfl rfl

theorem keySlotErase_keys {e : Nat} (hc : WriteClears s.mod h i 0x4010 6 (some e) (b1 1)) :
    WroteKeys (eraseSlot (accept s.mod h i) (e / 2) (e % 2)) i h.sequence 0 (finish (writeRow s h 0x4010 6 (some e) (b1 1))).mod :=
  writeRow_keys (v := .nat 1) (f := effM (s.upd (accept s.mod h i)) (eraseSlot (accept s.mod h i) (e / 2) (e % 2))) _ hc rfl (by decide) rfl rfl rfl
    (eraseSlot_erased _ _ (Nat.mod_lt _ (by decide))).mgmt

/-- Settles O20: each command has its effect on the berth's KEK or the slot, and on no other. -/
theorem kekSharesCombineAndExpire : Obligations.KekSharesCombineAndExpire := by
  refine ⟨⟨fun s h i b isB share hw hc hret => ⟨fun hnone => ?_, fun other c since hother => ⟨fun hne => ?_, fun heq => ?_⟩⟩,
    fun s b x c since hrun ha => ?_, fun s b x c since hrun ha hb => ?_, fun s h i b hw hc => ?_⟩, fun s h i e hw hc => ?_⟩
  · obtain ⟨x, hr, hkek, hheld⟩ := writeShare_first (m := accept s.mod h i) share (sess s.mod i).cred hnone
    have w := kekShareWrite_keys hc hret hr rfl
    refine ⟨_, exec_kekShareWrite hw, ?_⟩
    rw [w.kek, kek_setKek_same]
    exact ⟨hkek, hheld, w.answered⟩
  · obtain ⟨ev, hr⟩ := writeShare_second (m := accept s.mod h i) share hother hne
    have w := kekShareWrite_keys hc hret hr rfl
    have hk := (w.kek b).trans (kek_setKek_same ..)
    refine ⟨_, exec_kekShareWrite hw, ?_⟩
    rw [hk]
    exact ⟨rfl, rfl, rfl, w.answered⟩
  · rw [heq] at hother
    have w := kekShareWrite_keys hc hret (writeShare_same (m := accept s.mod h i) share hother) rfl
    exact ⟨_, exec_kekShareWrite hw, w.keks, w.answered⟩
  · obtain ⟨ev, hx⟩ := expireShare_a ha
    refine ⟨_, exec_kekShareExpire hrun, ?_⟩
    rw [finish_mod, State.upd_mod, kek_settleOver, settleOver_sys, hx]
    have hk := kek_setKek_same (advanceTo s.mod (since + 300 * secCycles)) b.val { kek s.mod b with shareA := none }
    refine ⟨congrArg Kek.shareA hk, (congrArg Kek.kek hk :), ?_⟩
    exact (le_max_right _ _).trans_eq (advanceTo_elapsed ..).symm
  · obtain ⟨ev, hx⟩ := expireShare_b ha hb
    refine ⟨_, exec_kekShareExpire hrun, ?_⟩
    rw [finish_mod, State.upd_mod, kek_settleOver, settleOver_sys, hx]
    have hk := kek_setKek_same (advanceTo s.mod (since + 300 * secCycles)) b.val { kek s.mod b with shareB := none }
    refine ⟨congrArg Kek.shareB hk, (congrArg Kek.kek hk :), ?_⟩
    exact (le_max_right _ _).trans_eq (advanceTo_elapsed ..).symm
  · have w := kekErase_keys hc
    have hk := (w.kek b).trans (kek_setKek_same ..)
    refine ⟨_, exec_kekErase hw, ?_⟩
    rw [hk]
    exact ⟨rfl, rfl, rfl, fun c hne => (w.kek c).trans (kek_setKek_ne _ _ hne)⟩
  · have w := keySlotErase_keys hc
    have erased := eraseSlot_erased (accept s.mod h i) (e / 2) (Nat.mod_lt e (by decide : 0 < 2))
    refine ⟨_, exec_keySlotErase hw, ?_⟩
    rw [w.assoc]
    exact ⟨erased.empty, erased.other, fun a ha => (w.assoc a).trans (erased.others a ha)⟩

end Sys2Proof.Machine
end

