-- ==== Sys2Proof/Proofs/LineFrames.lean ====
section
/-! PROOFS. A frame with a SecTAG on a frame-mode line port: its lookup, the checks of R229, the replay window and its delivery (R217, R222 to R234,
R272, R372). -/

namespace Sys2Proof.Machine

/-! ### Counts of more than one -/

/-- A counter raised by a number, where it was before what it was in an earlier state. -/
theorem Counts.of_bump_by {m n : Mod} {idx sub : Nat} (elem k : Nat) (hrow : (objRow idx sub).isSome = true) (h : ¬(idx = 0x2100 ∧ sub ≠ 8))
    (hn : inf n idx sub elem = inf m idx sub elem) : Counts m (bump n idx sub elem k) idx sub elem k := by
  obtain ⟨o, ho⟩ := Option.isSome_iff_exists.mp hrow
  exact ⟨o, ho, by rw [inf_bump_same n idx sub elem k o ho h, hn]⟩

theorem Counts.of_inf_by {m n l : Mod} {idx sub elem k : Nat} (hc : Counts m n idx sub elem k) (h : inf l idx sub elem = inf n idx sub elem) :
    Counts m l idx sub elem k := by
  obtain ⟨o, ho, hv⟩ := hc
  exact ⟨o, ho, h.trans hv⟩

/-! ### What an offered frame leaves -/

variable {m : Mod} {p a : Nat}

/-- A frame offered to a queue touches no association and, beside the counts of the queue and that of frames refused for a key, no object. -/
theorem offer_assocs (m : Mod) (d : Desc) (ha : Bool) : (offer m d ha).assocs = m.assocs := by
  unfold offer
  cases admitCheck m d ha with
  | none =>
    dsimp only
    rw [bump_assocs, bump_assocs]
    rfl
  | some sub =>
    dsimp only
    have counted : (if sub = 0x0C ∧ d.assoc ≠ 65536 ∧ (!canSend m d.assoc) = true ∧ (!closedQueue m d.queue) = true
        then bump (bump m 0x6010 sub d.queue 1) 0x4020 3 d.assoc 1 else bump m 0x6010 sub d.queue 1).assocs = m.assocs := by
      split
      · rw [bump_assocs, bump_assocs]
      · rw [bump_assocs]
    split
    · rw [raiseOnce_eq]; exact counted
    · exact counted

theorem inf_offer (m : Mod) (d : Desc) (ha : Bool) {i s : Nat} (e : Nat) (hs : s < 256) (hi : i ≠ 0x6010) (h : ¬(i = 0x4020 ∧ s = 3)) :
    inf (offer m d ha) i s e = inf m i s e := by
  have queueCount (n : Mod) {t k : Nat} (ht : t < 256) : inf (bump n 0x6010 t d.queue k) i s e = inf n i s e :=
    inf_bump_other n _ _ e hs ht (fun x => hi x.1) (by simp)
  unfold offer
  cases hc : admitCheck m d ha with
  | none =>
    dsimp only
    rw [queueCount _ (by decide), queueCount _ (by decide)]
    rfl
  | some sub =>
    dsimp only
    have hmem := admitCheck_mem hc
    have hsub : sub < 256 := by fin_cases hmem <;> decide
    have counted : inf (if sub = 0x0C ∧ d.assoc ≠ 65536 ∧ (!canSend m d.assoc) = true ∧ (!closedQueue m d.queue) = true
        then bump (bump m 0x6010 sub d.queue 1) 0x4020 3 d.assoc 1 else bump m 0x6010 sub d.queue 1) i s e = inf m i s e := by
      split
      · rw [inf_bump_other _ _ _ e hs (by decide) h (by decide), queueCount _ hsub]
      · rw [queueCount _ hsub]
    split
    · rw [inf_raiseOnce]; exact counted
    · exact counted

/-! ### A frame that has passed its checks -/

theorem received_assocs (m : Mod) (p a : Nat) (bytes : Octets) (stamp at_ : Nat) : (received m p a bytes stamp at_).assocs = m.assocs := by
  unfold received
  dsimp only
  split
  · rw [bump_assocs, bump_assocs]
  · rw [offer_assocs, bump_assocs, bump_assocs]

theorem assoc_received (m : Mod) (p a : Nat) (bytes : Octets) (stamp at_ e : Nat) : assoc (received m p a bytes stamp at_) e = assoc m e := by
  unfold assoc
  rw [received_assocs]

@[simp] theorem assoc_settleOver (m : Mod) (a : Nat) : assoc (settleOver m) a = assoc m a := by unfold assoc; rw [settleOver_assocs]

/-- A frame received is counted, with its length (R272). -/
theorem received_counts (m : Mod) (p a : Nat) (bytes : Octets) (stamp at_ : Nat) :
    Counts m (received m p a bytes stamp at_) 0x4020 8 a 1 ∧ Counts m (received m p a bytes stamp at_) 0x4020 9 a (bytes.length + 4) := by
  have frames : Counts m (bump (bump m 0x4020 8 a 1) 0x4020 9 a (bytes.length + 4)) 0x4020 8 a 1 :=
    (Counts.of_bump (n := m) a rfl (by decide) rfl).of_inf (inf_bump_other _ _ _ _ (by decide) (by decide) (by decide) (by decide))
  have octets : Counts m (bump (bump m 0x4020 8 a 1) 0x4020 9 a (bytes.length + 4)) 0x4020 9 a (bytes.length + 4) :=
    .of_bump_by _ _ rfl (by decide) (inf_bump_other _ _ _ _ (by decide) (by decide) (by decide) (by decide))
  unfold received
  dsimp only
  split
  · exact ⟨frames, octets⟩
  · exact ⟨frames.of_inf (inf_offer _ _ _ _ (by decide) (by decide) (by decide)),
      octets.of_inf_by (inf_offer _ _ _ _ (by decide) (by decide) (by decide))⟩

/-! ### Verification -/

theorem rxChecks_mem {x : SecTag} {sub : Nat} (h : rxChecks m a x = .error sub) : sub ∈ [0x0E, 0x0D, 0x0F, 0x0A, 0x0B] := by
  unfold rxChecks at h
  dsimp only at h
  repeat' split at h
  all_goals simp only [Except.error.injEq, reduceCtorEq] at h
  all_goals exact h ▸ by decide

theorem rxCur_accept (x : Assoc) (pn window : Nat) : (x.accept pn window).rxCur = x.rxCur := by
  unfold Assoc.accept
  dsimp only
  repeat' split
  all_goals rfl

/-- The slot under which a frame verifies becomes receive-current (R231, R232). -/
theorem rxCur_rxVerified (m : Mod) (a ph pn : Nat) : (assoc (rxVerified m a ph pn) a).rxCur = ph := by
  unfold rxVerified
  dsimp only
  rw [assoc_setAssoc_same, rxCur_accept]
  split
  · rfl
  · next h => exact (not_not.mp fun hne => h (.inl hne)).symm

variable {x : SecTag} {head aad cipher : Octets} {len stamp at_ ph pn : Nat} {opened : Octets → Octets → Option Octets}

theorem verifyFrame_refused {sub : Nat} (h : rxChecks m a x = .error sub) :
    verifyFrame m p a x head len stamp at_ false aad cipher opened = bump m 0x4020 sub a 1 := by
  unfold verifyFrame
  rw [h]

/-- A high-assurance frame that finds the masked engine busy is not accepted (R372). -/
theorem verifyFrame_busy {y : Nat × Nat} (h : rxChecks m a x = .ok y) (hha : isHa m [] a = true) (hfree : engineFree m (basinOf p * 2 + 1) = false) :
    verifyFrame m p a x head len stamp at_ false aad cipher opened = bump m 0x4210 8 (basinOf p) 1 := by
  unfold verifyFrame
  rw [h]
  dsimp only
  rw [hha, hfree]
  rfl

/-- The IV under which a frame with an SCI must verify (R220). -/
def rxIv (m : Mod) (a ph pn : Nat) (x : SecTag) : Octets := gcmIv (aSuite m a) x.sci (inf m 0x4000 7 a) pn ((assoc m a).slot ph).salt

/-- The key under which it must verify (R249). -/
def rxKey (m : Mod) (a ph : Nat) : Octets := suiteKey (aSuite m a) ((assoc m a).slot ph).key

/-- The blocks of a frame that is not high-assurance join those that wait for a pipeline; what it opens to then decides. -/
theorem verifyFrame_piped (h : rxChecks m a x = .ok (ph, pn)) (hha : isHa m [] a = false) (hsc : x.sc = true) :
    ∃ j, verifyFrame m p a x head len stamp at_ false aad cipher opened =
      match opened (rxKey m a ph) (rxIv m a ph pn x) with
      | none => bump (frameBlocks m (basinOf p * 2 + 1) j) 0x4020 0x0C a 1
      | some data => received (rxVerified (frameBlocks m (basinOf p * 2 + 1) j) a ph pn) p a (head ++ data) stamp at_ := by
  unfold verifyFrame
  rw [h]
  dsimp only
  rw [hha, hsc]
  exact ⟨_, rfl⟩

/-! ### The lookup -/

variable {f : LineFrame}

/-- A frame with a SecTAG on a frame-mode line port has passed the checks of R56. -/
structure LineFrameIn (m : Mod) (p : Nat) (f : LineFrame) (x : SecTag) : Prop where
  line : isLine p = true
  frameMode : isGelix m p = false
  receiving : receiving m p = true
  sound : portDrop m p f.length 0 f.fcsOk = none
  tag : f.tag = some x

/-- What a frame opens to under a key and an IV: its plaintext, where its ICV verifies. -/
def openedBy (m : Mod) (a : Nat) (x : SecTag) (f : LineFrame) (key iv : Octets) : Option Octets :=
  if f.body.intact ∧ f.body.key = key ∧ f.body.iv = iv ∧ f.body.aad = secAad (f.head.take 12) x (conf m a) f.body.plain then some f.body.plain else none

theorem frameReceive_malformed (h : LineFrameIn m p f x) (hw : wellFormedTag x f.body.plain.length = false) :
    frameReceive m p f = bump m 0x4030 3 p 1 := by
  obtain ⟨hl, hg, hr, hd, ht⟩ := h
  simp [frameReceive, hl, hg, hr, hd, ht, hw]

/-- The association that an SCI names, of the port's own basin (R224). -/
structure Named (m : Mod) (p a : Nat) (f : LineFrame) (x : SecTag) : Prop where
  wellFormed : wellFormedTag x f.body.plain.length = true
  byIndex : inf m 0x4030 1 p = 1
  sc : x.sc = true
  index : natAt x.sci 6 2 = a
  basin : a / 16384 = basinOf p

theorem frameReceive_unknown (h : LineFrameIn m p f x) (hn : Named m p a f x)
    (hu : usableRx m p a [3, 4] = false ∨ tagExpected m a f.head = false) : frameReceive m p f = bump m 0x4030 4 p 1 := by
  obtain ⟨hl, hg, hr, hd, ht⟩ := h
  obtain ⟨hw, hi, hsc, hidx, hb⟩ := hn
  obtain hne | hne := hu
  · simp [frameReceive, hl, hg, hr, hd, ht, hw, hi, hsc, hidx, hb, hne]
  · simp [frameReceive, hl, hg, hr, hd, ht, hw, hi, hsc, hidx, hb, hne]

/-- The sealed part of a frame: its secure data as ciphertext. -/
def lineCipher (f : LineFrame) : Octets := (gcmSeal f.body.key f.body.iv f.body.aad f.body.plain).take f.body.plain.length

theorem frameReceive_named (h : LineFrameIn m p f x) (hn : Named m p a f x) (hu : usableRx m p a [3, 4] = true) (he : tagExpected m a f.head = true) :
    frameReceive m p f = verifyFrame m p a x f.head f.body.plain.length (stampFine m p f.half) (stampCycle m p) false f.body.aad (lineCipher f)
      (openedBy m a x f) := by
  obtain ⟨hl, hg, hr, hd, ht⟩ := h
  obtain ⟨hw, hi, hsc, hidx, hb⟩ := hn
  have hopened : openedBy m a x f = fun key iv =>
    if f.body.intact ∧ f.body.key = key ∧ f.body.iv = iv ∧ f.body.aad = secAad (f.head.take 12) x (conf m a) f.body.plain then some f.body.plain
    else none := rfl
  simp [frameReceive, hl, hg, hr, hd, ht, hw, hi, hsc, hidx, hb, hu, he, lineCipher, hopened]

/-- A frame whose ICV fails is counted (R229 check 8). -/
theorem frameReceive_icv (h : LineFrameIn m p f x) (hn : Named m p a f x) (hu : usableRx m p a [3, 4] = true) (he : tagExpected m a f.head = true)
    (hc : rxChecks m a x = .ok (ph, pn)) (hha : isHa m [] a = false)
    (hbad : f.body.intact = false ∨ f.body.key ≠ rxKey m a ph ∨ f.body.iv ≠ rxIv m a ph pn x) :
    ∃ j, frameReceive m p f = bump (frameBlocks m (basinOf p * 2 + 1) j) 0x4020 0x0C a 1 := by
  have hnone : openedBy m a x f (rxKey m a ph) (rxIv m a ph pn x) = none := by
    refine if_neg ?_
    rintro ⟨hint, hkey, hiv, -⟩
    obtain hb | hb | hb := hbad
    · exact absurd (hb.symm.trans hint) (by decide)
    · exact hb hkey
    · exact hb hiv
  obtain ⟨j, hv⟩ := verifyFrame_piped (p := p) (head := f.head) (len := f.body.plain.length) (stamp := stampFine m p f.half) (at_ := stampCycle m p)
    (aad := f.body.aad) (cipher := lineCipher f) (opened := openedBy m a x f) hc hha hn.sc
  exact ⟨j, by rw [frameReceive_named h hn hu he, hv, hnone]⟩

/-- A frame that verifies moves the replay window of its association and is received (R231 to R234). -/
theorem frameReceive_verified (h : LineFrameIn m p f x) (hn : Named m p a f x) (hu : usableRx m p a [3, 4] = true) (he : tagExpected m a f.head = true)
    (hc : rxChecks m a x = .ok (ph, pn)) (hha : isHa m [] a = false) (hint : f.body.intact = true) (hkey : f.body.key = rxKey m a ph)
    (hiv : f.body.iv = rxIv m a ph pn x) (haad : f.body.aad = secAad (f.head.take 12) x (conf m a) f.body.plain) :
    ∃ j, frameReceive m p f =
      received (rxVerified (frameBlocks m (basinOf p * 2 + 1) j) a ph pn) p a (f.head ++ f.body.plain) (stampFine m p f.half) (stampCycle m p) := by
  have hsome : openedBy m a x f (rxKey m a ph) (rxIv m a ph pn x) = some f.body.plain := if_pos ⟨hint, hkey, hiv, haad⟩
  obtain ⟨j, hv⟩ := verifyFrame_piped (p := p) (head := f.head) (len := f.body.plain.length) (stamp := stampFine m p f.half) (at_ := stampCycle m p)
    (aad := f.body.aad) (cipher := lineCipher f) (opened := openedBy m a x f) hc hha hn.sc
  exact ⟨j, by rw [frameReceive_named h hn hu he, hv, hsome]⟩

/-! ### The command -/

theorem exec_frameModeReceive {s : State} {p : Fin 64} (hw : (Instr.frameModeReceive p f).wf = true) (hr : receiving s.mod p = true) :
    exec (.frameModeReceive p f) s = .next (finish (s.upd (frameReceive s.mod p f))) := by
  refine run_whileOn "FRAME_MODE_RECEIVE" (fun m => frameReceive m p f) hw ?_
  unfold receiving at hr
  simp only [Bool.and_eq_true] at hr
  obtain ⟨⟨⟨hrun, -⟩, -⟩, -⟩ := hr
  exact hrun

/-- A frame that is only counted, whatever waits for the crypto bank beside it: the count, with keys and queues as they were. -/
theorem frameCounted {s : State} {p : Fin 64} {n : Mod} {idx sub e : Nat} (hw : (Instr.frameModeReceive p f).wf = true) (hr : receiving s.mod p = true)
    (hf : frameReceive s.mod p f = bump n idx sub e 1) (hrow : (objRow idx sub).isSome = true) (hv : ¬(idx = 0x2100 ∧ sub ≠ 8))
    (hinf : inf n = inf s.mod) (ha : n.assocs = s.mod.assocs) (hq : n.queues = s.mod.queues) :
    ∃ t, exec (.frameModeReceive p f) s = .next t ∧ Counts s.mod t.mod idx sub e 1 ∧ t.mod.assocs = s.mod.assocs ∧ t.mod.queues = s.mod.queues := by
  refine ⟨_, exec_frameModeReceive hw hr, ?_⟩
  rw [finish_mod, State.upd_mod, hf]
  exact ⟨(Counts.of_bump e hrow hv (by rw [hinf])).of_inf (by rw [inf_settleOver]), by rw [settleOver_assocs, bump_assocs, ha],
    by rw [settleOver_queues, bump_queues, hq]⟩

/-- Settles O26: the tag, the association it names, then the checks of R229, each of which counts the frame under itself or lets it pass. -/
theorem lineFramesAreVerified : Obligations.LineFramesAreVerified := by
  intro s p f x a hw hl hg hr hd ht
  have h : LineFrameIn s.mod p f x := ⟨hl, hg, hr, hd, ht⟩
  refine ⟨fun hbad => frameCounted hw hr (frameReceive_malformed h hbad) rfl (by decide) rfl rfl rfl, fun hwf hi hsc hidx hb => ?_⟩
  have hn : Named s.mod p a f x := ⟨hwf, hi, hsc, hidx, hb⟩
  refine ⟨fun hu => frameCounted hw hr (frameReceive_unknown h hn (.inl hu)) rfl (by decide) rfl rfl rfl,
    fun _ he => frameCounted hw hr (frameReceive_unknown h hn (.inr he)) rfl (by decide) rfl rfl rfl,
    fun hu he => ⟨fun sub hc => ?_, fun y hc hha hfree => ?_, fun ph pn key iv hc hha hkey hiv => ⟨fun hbad => ?_, fun hint hk hi haad => ?_⟩⟩⟩
  · have hmem := rxChecks_mem hc
    refine frameCounted hw hr ((frameReceive_named h hn hu he).trans (verifyFrame_refused hc)) ?_ (by omega) rfl rfl rfl
    fin_cases hmem <;> rfl
  · obtain ⟨t, hrun, hcount, hassoc, -⟩ :=
      frameCounted hw hr ((frameReceive_named h hn hu he).trans (verifyFrame_busy hc hha hfree)) rfl (by decide) rfl rfl rfl
    exact ⟨t, hrun, hcount, hassoc⟩
  · rw [hkey, hiv] at hbad
    obtain ⟨j, hf⟩ := frameReceive_icv h hn hu he hc hha hbad
    exact frameCounted hw hr hf rfl (by decide) rfl rfl rfl
  · obtain ⟨j, hf⟩ := frameReceive_verified h hn hu he hc hha hint (hk.trans hkey) (hi.trans hiv) haad
    refine ⟨_, exec_frameModeReceive hw hr, ?_⟩
    rw [finish_mod, State.upd_mod, hf]
    rw [assoc_settleOver, assoc_received]
    obtain ⟨hframes, hoctets⟩ := received_counts (rxVerified (frameBlocks s.mod (basinOf p * 2 + 1) j) a ph pn) p a (f.head ++ f.body.plain)
      (stampFine s.mod p f.half) (stampCycle s.mod p)
    rw [List.length_append] at hoctets
    exact ⟨hframes.of_inf (by rw [inf_settleOver]), hoctets.of_inf_by (by rw [inf_settleOver]), rxCur_rxVerified .., rfl⟩

end Sys2Proof.Machine
end

