-- ==== Sys2Proof/Proofs/QueueFrames.lean ====
section
/-! PROOFS. Frames that leave: the queue the arbiter picks (R468, R483, R487), the end of a frame's way out (R471), the end of a hold (R431), and the
crypto bank (R214, R236, R240, R241, R704). -/

namespace Sys2Proof.Machine

variable {m n k : Mod} {p : Nat}

/-! ### What the arbiter leaves -/

/-- What refilling the buckets and picking a frame leave: every queue's frames, every port's frames on their way, the clock and all objects. -/
structure ArbiterMove (m n : Mod) : Prop where
  frames : ∀ q, (queue n q).frames = (queue m q).frames
  released : ∀ p, (arb n p).released = (arb m p).released
  egress : ∀ p, (arb n p).egress = (arb m p).egress
  sys : n.sys = m.sys
  look : look n = look m

namespace ArbiterMove

theorem refl (m : Mod) : ArbiterMove m m := ⟨fun _ => rfl, fun _ => rfl, fun _ => rfl, rfl, rfl⟩
theorem trans (h : ArbiterMove m n) (h' : ArbiterMove n k) : ArbiterMove m k :=
  ⟨fun q => (h'.frames q).trans (h.frames q), fun p => (h'.released p).trans (h.released p), fun p => (h'.egress p).trans (h.egress p),
    h'.sys.trans h.sys, h'.look.trans h.look⟩

theorem foldl {α : Type} (g : Mod → α → Mod) (hg : ∀ m a, ArbiterMove m (g m a)) (l : List α) (m : Mod) : ArbiterMove m (l.foldl g m) := by
  induction l generalizing m with
  | nil => exact refl m
  | cons a r ih => exact (hg m a).trans (ih (g m a))

theorem setQueue {q : Nat} {x : Queue} (h : x.frames = (queue m q).frames) : ArbiterMove m (setQueue m q x) := by
  refine ⟨fun r => ?_, fun _ => rfl, fun _ => rfl, rfl, rfl⟩
  by_cases hr : r = q
  · rw [hr, queue_setQueue_same, h]
  · rw [queue_setQueue_ne _ _ hr]

theorem setNode (m : Mod) (q : Nat) (x : Node) : ArbiterMove m (setNode m q x) := ⟨fun _ => rfl, fun _ => rfl, fun _ => rfl, rfl, rfl⟩

theorem setArb {x : Arb} (hr : x.released = (arb m p).released) (he : x.egress = (arb m p).egress) : ArbiterMove m (setArb m p x) := by
  refine ⟨fun _ => rfl, fun r => ?_, fun r => ?_, rfl, rfl⟩
  all_goals
    by_cases h : r = p
    · rw [h, arb_setArb_same]; assumption
    · rw [arb_setArb_ne _ _ h]

theorem refillQueue (m : Mod) (q : Nat) : ArbiterMove m (refillQueue m q) := by
  unfold Machine.refillQueue
  exact .setQueue rfl

theorem refillNode (m : Mod) (q : Nat) : ArbiterMove m (refillNode m q) := by
  unfold Machine.refillNode
  dsimp only
  repeat' split
  · exact .refl m
  all_goals exact .setNode ..

theorem pickIn {c tier : Nat} {x : Pick} (h : pickIn m p c tier = some x) : ArbiterMove m x.m := by
  unfold Machine.pickIn at h
  dsimp only at h
  split at h
  · cases h
  split at h
  · cases h
  obtain rfl := Option.some.inj h
  refine .trans (.trans (.foldl _ (fun _ _ => .setNode ..) _ _) (.foldl _ (fun _ _ => ?_) _ _)) (.setArb ?_ ?_)
  · exact .setQueue rfl
  all_goals rfl

theorem pickLow {tier : Nat} {x : Pick} (h : pickLow m p tier = some x) : ArbiterMove m x.m := by
  unfold Machine.pickLow at h
  dsimp only at h
  split at h
  · cases h
  · refine .trans (.setArb ?_ ?_) (.pickIn h)
    all_goals rfl

theorem pickNext {x : Pick} (h : pickNext m p = some x) : ArbiterMove m x.m := by
  unfold Machine.pickNext at h
  simp only [Option.orElse_eq_orElse, Option.orElse_eq_or, Option.or_eq_some_iff] at h
  obtain h | ⟨-, h | ⟨-, h | ⟨-, h | ⟨-, h | ⟨-, h⟩⟩⟩⟩⟩ := h
  exacts [.pickIn h, .pickIn h, .pickIn h, .pickIn h, .pickLow h, .pickLow h]

theorem refilled (m : Mod) (p waited : Nat) : ArbiterMove (advance m waited) (refilled m p waited) := by
  unfold Machine.refilled
  exact .trans (.foldl _ .refillQueue _ _) (.foldl _ .refillNode _ _)

end ArbiterMove

/-! ### A frame released -/

/-- The masked engine takes blocks and a slot is taken: queues and ports keep their frames, and only the count of blocks moves (R366, R383). -/
theorem inf_engineTakes (m : Mod) (k start : Nat) (lanes : List Nat) (j : Job) {i s : Nat} (e : Nat) (hs : s < 256) (hi : i ≠ 0x4210) :
    inf (engineTakes m k start lanes j) i s e = inf m i s e := by
  unfold engineTakes
  dsimp only
  rw [inf_bump_other _ _ _ e hs (by decide) (fun h => hi h.1) (by decide)]
  rfl

/-- What the release of a picked frame leaves before it is counted: the rest of its queue, the clock and the counters; a frame of an earlier
generation of its berth is gone (R704), another goes on to the bank or the lanes. -/
structure Released (m : Mod) (p elapsed : Nat) (q : Nat) (rest : List Desc) (old : Prop) (n : Mod) : Prop where
  frames : (queue n q).frames = rest
  elapsed : n.sys.elapsed = elapsed
  counters : ∀ i s e, s < 256 → i = 0x6010 ∨ i = 0x6020 → inf n i s e = inf m i s e
  stale : old → (arb n p).egress = (arb m p).egress ∧ (arb n p).released = (arb m p).released
  toBank : ¬old → isLine p = true → (arb n p).released.length = (arb m p).released.length + 1
  toLanes : ¬old → isLine p = false → (arb n p).egress.length = (arb m p).egress.length + 1

/-- Blocks that the masked engine takes and a slot taken change none of it. -/
theorem Released.beside {elapsed q : Nat} {rest : List Desc} {old : Prop} (h : Released m p elapsed q rest old n) (hq : k.queues = n.queues)
    (ha : k.arbs = n.arbs) (hsys : k.sys = n.sys) (hi : ∀ i s e, s < 256 → i ≠ 0x4210 → inf k i s e = inf n i s e) : Released m p elapsed q rest old k := by
  have harb : arb k p = arb n p := by unfold arb; rw [ha]
  obtain ⟨hf, he, hc, hs, hb, hl⟩ := h
  refine ⟨by unfold queue at hf ⊢; rw [hq, hf], by rw [hsys, he], fun i s e hs' h6 => (hi i s e hs' (by omega)).trans (hc i s e hs' h6), ?_, ?_, ?_⟩
  all_goals rwa [harb]

theorem Released.afterEngine {elapsed q : Nat} {rest : List Desc} {old c : Prop} [Decidable c] (h : Released m p elapsed q rest old n) (a s t : Nat)
    (j : Job) : Released m p elapsed q rest old (takeSlot (if c then takeEngine n a j else n) s t) := by
  split
  · obtain ⟨banks, obj, ev, hf⟩ := engineTakes_form n a (n.sys.elapsed + 1) (bank n a).laneList j
    refine h.beside ?_ ?_ ?_ fun i s e hs hi => ?_
    · rw [takeEngine, hf]; rfl
    · rw [takeEngine, hf]; rfl
    · rw [takeEngine, hf]; rfl
    · exact inf_engineTakes n a (n.sys.elapsed + 1) (bank n a).laneList j e hs hi
  · exact h.beside rfl rfl rfl fun _ _ _ _ _ => rfl

/-- The queue, its node and the port's arbiter once a frame has been taken from the queue. -/
theorem Released.of_updates {elapsed q node : Nat} {rest : List Desc} {old : Prop} {y : Queue} {x : Node} {b : Arb} (hy : y.frames = rest)
    (he : n.sys.elapsed = elapsed) (hc : ∀ i s e, s < 256 → i = 0x6010 ∨ i = 0x6020 → inf n i s e = inf m i s e)
    (hs : old → b.egress = (arb m p).egress ∧ b.released = (arb m p).released)
    (hb : ¬old → isLine p = true → b.released.length = (arb m p).released.length + 1)
    (hl : ¬old → isLine p = false → b.egress.length = (arb m p).egress.length + 1) :
    Released m p elapsed q rest old (setArb (setNode (setQueue n q y) node x) p b) := by
  have hq : queue (setArb (setNode (setQueue n q y) node x) p b) q = y := queue_setQueue_same n q y
  have harb : arb (setArb (setNode (setQueue n q y) node x) p b) p = b := arb_setArb_same ..
  refine ⟨by rw [hq, hy], he, hc, ?_, ?_, ?_⟩
  all_goals rwa [harb]

theorem berth_advance (m : Mod) (n b : Nat) : berth (advance m n) b = berth m b := by unfold berth; rw [advance_berths]
theorem arb_advance (m : Mod) (n p : Nat) : arb (advance m n) p = arb m p := by unfold arb; rw [advance_arbs]
theorem queue_advance (m : Mod) (n q : Nat) : queue (advance m n) q = queue m q := by unfold queue; rw [advance_queues]

/-- The arbiter of a port serves: it is up, its turn has come, and quiescing holds back no frame-mode line port. -/
structure Serves (m : Mod) (p waited : Nat) : Prop where
  running : m.sys.running = true
  up : (port m p).up = true
  mode : isLine p = false ∨ isGelix m p = true
  turn : (arb m p).pace ≤ (m.sys.elapsed + waitOf m p waited) * 800000

theorem releaseFrame_picked {waited : Nat} {x : Pick} {d : Desc} {rest : List Desc} (hserve : Serves m p waited)
    (hk : pickNext (refilled m p (waitOf m p waited)) p = some x) (hq : (queue m x.queue).frames = d :: rest) :
    ∃ n, releaseFrame m p waited = (if d.gen ≠ (berth m d.berth).gen then countDiscards n 6 [d]
        else bump n 0x6010 (if x.tier = 2 then 5 else 4) x.queue 1) ∧
      Released m p (m.sys.elapsed + waitOf m p waited) x.queue rest (d.gen ≠ (berth m d.berth).gen) n := by
  obtain ⟨hrun, hup, hmode, hturn⟩ := hserve
  have move : ArbiterMove (advance m (waitOf m p waited)) x.m := (ArbiterMove.refilled ..).trans (.pickNext hk)
  have hfr : (queue x.m x.queue).frames = d :: rest := by rw [move.frames, queue_advance, hq]
  have hgelix : isGelix (advance m (waitOf m p waited)) p = isGelix m p := (advance_layout m _).isGelix p
  have hheld : (isLine p && !isGelix m p && quiesced (advance m (waitOf m p waited)) (basinOf p)) = false := by
    obtain h | h := hmode <;> simp [h]
  have hup' : (tget ({} : Port) m.ports p).up = true := hup
  unfold releaseFrame
  unfold refilled at hk
  dsimp only
  rw [if_neg (by simp [hrun, hup', hgelix, hheld, arb_advance, hturn]), hk]
  dsimp only
  rw [hfr]
  dsimp only
  rw [berth_advance]
  refine ⟨_, rfl, ?_⟩
  refine Released.afterEngine ?_ ..
  have hrel := (move.released p).trans (congrArg Arb.released (arb_advance m (waitOf m p waited) p))
  have hegr := (move.egress p).trans (congrArg Arb.egress (arb_advance m (waitOf m p waited) p))
  have hinf {i s : Nat} (e : Nat) (hs : s < 256) (hi : i = 0x6010 ∨ i = 0x6020) : inf x.m i s e = inf m i s e := by
    unfold inf
    rw [move.look, look_advance_ne m _ hs (by omega)]
  refine .of_updates rfl ?_ (fun i s e => hinf e) (fun hold => ?_) (fun hold hline => ?_) (fun hold hline => ?_)
  · rw [move.sys, advance_elapsed]
  · exact ⟨(if_pos (.inl hold)).trans hegr, (if_pos (.inl hold)).trans hrel⟩
  · dsimp only
    rw [if_neg (by simp [hold, hline]), List.length_append, List.length_singleton]
    exact congrArg (·.length + 1) hrel
  · dsimp only
    rw [if_neg (by simp [hold, hline]), List.length_append, List.length_singleton]
    exact congrArg (·.length + 1) hegr

/-! ### A frame that has left -/

/-- The end of the oldest frame's way out: it is counted as delivered (R471), and a clear port puts it out with its FCS. -/
structure Egressed (m : Mod) (p at_ : Nat) (d : Desc) (rest : List Desc) (n : Mod) : Prop where
  egress : (arb n p).egress = rest
  counted : Counts m n 0x6010 3 d.queue 1
  time : at_ ≤ n.sys.elapsed
  out : isLine p = false → d.line = none → n.out = (advanceTo m at_).out ++ [.clearFrame p (d.bytes ++ fcsOf d.bytes)]

theorem Egressed.congr {at_ : Nat} {d : Desc} {rest : List Desc} (h : Egressed m p at_ d rest n) (ha : k.arbs = n.arbs) (hsys : k.sys = n.sys)
    (hout : k.out = n.out) (hi : inf k 0x6010 3 d.queue = inf n 0x6010 3 d.queue) : Egressed m p at_ d rest k :=
  ⟨by have := h.egress; unfold arb at this ⊢; rw [ha, this], h.counted.of_inf hi, by rw [hsys]; exact h.time,
    fun hl hd => hout.trans (h.out hl hd)⟩

/-- The comparison of a corrected PTP frame's stamp counts and reports beside it (R588). -/
theorem Egressed.compared {at_ : Nat} {d : Desc} {rest : List Desc} {c : Prop} [Decidable c] (h : Egressed m p at_ d rest n)
    (code unit src bpid : Nat) (ps : Octets) :
    Egressed m p at_ d rest (if c then raiseOnce (bump n 0x7030 0x0A p 1) code unit src bpid ps else n) := by
  split
  · refine h.congr ?_ ?_ ?_ ?_
    · rw [raiseOnce_eq]; exact bump_arbs ..
    · rw [raiseOnce_eq]; exact bump_sys ..
    · rw [raiseOnce_eq]; exact bump_out ..
    · rw [inf_raiseOnce, inf_bump_other _ _ _ _ (by decide) (by decide) (by decide) (by decide)]
  · exact h

theorem egressComplete_egressed {err : Int} {d : Desc} {rest : List Desc} (h : (arb m p).egress = d :: rest) :
    Egressed m p (d.startAt + carryCycles m p d) d rest (egressComplete m p err) := by
  unfold egressComplete
  rw [h]
  dsimp only
  generalize hat : d.startAt + carryCycles m p d = at_
  generalize hm1 : bump (setArb (advanceTo m at_) p { arb (advanceTo m at_) p with egress := rest }) 0x6010 3 d.queue 1 = m1
  have harb : (arb m1 p).egress = rest := by
    unfold arb
    rw [← hm1, bump_arbs, ← arb, arb_setArb_same]
  have hcount : Counts m m1 0x6010 3 d.queue 1 := by
    rw [← hm1]
    refine .of_bump _ rfl (by decide) ?_
    rw [inf_setArb, advanceTo]
    exact congrArg Val.toNat (look_advance_ne m _ (by decide) (by decide))
  have htime : at_ ≤ m1.sys.elapsed := by
    rw [← hm1, bump_sys, setArb_sys, advanceTo_elapsed]
    exact le_max_right _ _
  have hout : m1.out = (advanceTo m at_).out := by rw [← hm1, bump_out]; rfl
  refine Egressed.compared ?_ ..
  cases hd : d.line with
  | some f => exact ⟨harb, hcount, htime, fun _ hnone => by rw [hd] at hnone; cases hnone⟩
  | none =>
    dsimp only
    split
    · next hl => exact ⟨harb, hcount, htime, fun hline => by rw [hl] at hline; cases hline⟩
    · exact ⟨harb, hcount, htime, fun _ _ => by rw [← hout]; rfl⟩

/-! ### A hold that ends -/

/-- Of two held frames the one whose hold ends first, the earlier one where both end together. -/
def sooner (m : Mod) (a : Option Held) (x : Held) : Option Held :=
  match a with
  | some y => if holdEnd m x < holdEnd m y then some x else a
  | none => some x

theorem foldl_sooner (m : Mod) (l : List Held) (y : Held) :
    ∃ x, l.foldl (sooner m) (some y) = some x ∧ x ∈ y :: l ∧ ∀ z ∈ y :: l, holdEnd m x ≤ holdEnd m z := by
  induction l generalizing y with
  | nil => exact ⟨y, rfl, List.mem_singleton_self y, fun z hz => by rw [List.mem_singleton.mp hz]⟩
  | cons z r ih =>
    by_cases hlt : holdEnd m z < holdEnd m y
    · obtain ⟨x, hx, hmem, hmin⟩ := ih z
      refine ⟨x, by rw [List.foldl_cons, sooner, if_pos hlt, hx], List.mem_cons_of_mem _ hmem, fun w hw => ?_⟩
      obtain rfl | hw := List.mem_cons.mp hw
      · exact (hmin z List.mem_cons_self).trans hlt.le
      · exact hmin w hw
    · obtain ⟨x, hx, hmem, hmin⟩ := ih y
      refine ⟨x, by rw [List.foldl_cons, sooner, if_neg hlt, hx], ?_, fun w hw => ?_⟩
      · obtain rfl | hm := List.mem_cons.mp hmem
        · exact List.mem_cons_self
        · exact List.mem_cons_of_mem _ (List.mem_cons_of_mem _ hm)
      · obtain rfl | hw := List.mem_cons.mp hw
        · exact hmin w List.mem_cons_self
        · obtain rfl | hw := List.mem_cons.mp hw
          · exact (hmin y List.mem_cons_self).trans (not_lt.mp hlt)
          · exact hmin w (List.mem_cons_of_mem _ hw)

/-- The module at the end of a frame's hold, with the frame dropped (R431). -/
def holdOver (m : Mod) (b : Nat) (x : Held) : Mod :=
  bump (setCls (advanceTo m (holdEnd m x)) b { clsOf m b with held := (clsOf m b).held.erase x }) 0x5040 0x0B x.d.ingress 1

theorem expireHold_eq (m : Mod) (b : Nat) : expireHold m b = ((clsOf m b).held.foldl (sooner m) none).elim m (holdOver m b) := by
  unfold expireHold
  dsimp only
  generalize h : (clsOf m b).held.foldl (sooner m) none = first
  split
  · next hnone => rw [show first = none from h.symm.trans hnone]; rfl
  · next hsome => rw [show first = some _ from h.symm.trans hsome]; rfl

theorem expireHold_soonest {b : Nat} (h : (clsOf m b).held ≠ []) :
    ∃ x ∈ (clsOf m b).held, (∀ y ∈ (clsOf m b).held, holdEnd m x ≤ holdEnd m y) ∧ expireHold m b = holdOver m b x := by
  obtain ⟨y, l, hl⟩ := List.exists_cons_of_ne_nil h
  obtain ⟨x, hx, hmem, hmin⟩ := foldl_sooner m l y
  have hfold : (clsOf m b).held.foldl (sooner m) none = some x := by rw [hl]; exact hx
  rw [← hl] at hmem hmin
  exact ⟨x, hmem, hmin, by rw [expireHold_eq, hfold]; rfl⟩

theorem holdOver_counts (m : Mod) (b : Nat) (x : Held) : Counts m (holdOver m b x) 0x5040 0x0B x.d.ingress 1 := by
  refine .of_bump _ rfl (by decide) ?_
  rw [inf_setCls, advanceTo]
  exact congrArg Val.toNat (look_advance_ne m _ (by decide) (by decide))

theorem clsOf_holdOver (m : Mod) (b : Nat) (x : Held) : (clsOf (holdOver m b x) b).held = (clsOf m b).held.erase x := by
  unfold holdOver clsOf
  rw [bump_cls, ← clsOf, ← clsOf, clsOf_setCls_same]

theorem holdOver_elapsed (m : Mod) (b : Nat) (x : Held) : holdEnd m x ≤ (holdOver m b x).sys.elapsed := by
  unfold holdOver
  rw [bump_sys, setCls_sys, advanceTo_elapsed]
  exact le_max_right _ _

/-! ### A PN assigned -/

/-- Two states differ in associations and events alone. -/
def KeysOnly (m n : Mod) : Prop := ∃ assocs ev, n = { m with assocs := assocs, ev := ev }

namespace KeysOnly

theorem refl (m : Mod) : KeysOnly m m := ⟨m.assocs, m.ev, rfl⟩
theorem trans (h : KeysOnly m n) (h' : KeysOnly n k) : KeysOnly m k := by
  obtain ⟨_, _, rfl⟩ := h
  obtain ⟨assocs, ev, rfl⟩ := h'
  exact ⟨assocs, ev, rfl⟩

theorem ite {c : Prop} [Decidable c] (h : KeysOnly m n) (h' : KeysOnly m k) : KeysOnly m (if c then n else k) := by
  split
  · exact h
  · exact h'

theorem setAssoc (m : Mod) (a : Nat) (x : Assoc) : KeysOnly m (setAssoc m a x) := ⟨_, m.ev, rfl⟩
theorem raise (m : Mod) (code src bpid : Nat) (ps : Octets) : KeysOnly m (raise m code src bpid ps) := ⟨m.assocs, _, rfl⟩

theorem dropNotice (m : Mod) (a : Nat) : KeysOnly m (dropNotice m a) := by
  unfold Machine.dropNotice
  exact .ite (.setAssoc ..) (.refl m)

/-- A PN assigned changes its association, and tells of the threshold and the last one (R236, R239, R240). -/
theorem assignPn (m : Mod) (a : Nat) : KeysOnly m (assignPn m a).2 := by
  unfold Machine.assignPn
  exact .trans (.setAssoc ..) (.trans (.ite (.raise ..) (.refl _)) (.ite (.trans (.raise ..) (.dropNotice ..)) (.refl _)))

end KeysOnly

theorem next_assignPn (m : Mod) (a : Nat) :
    ((assoc (assignPn m a).2 a).slot (assoc m a).txPhase).next = ((assoc m a).slot (assoc m a).txPhase).next + 1 := by
  unfold assignPn
  dsimp only
  generalize hx : (assoc m a).setSlot (assoc m a).txPhase _ = x
  have hslot : (x.slot (assoc m a).txPhase).next = ((assoc m a).slot (assoc m a).txPhase).next + 1 := by
    rw [← hx, Assoc.slot_setSlot_same]
  refine (congrArg Slot.next (KeepsSlots.slot (m := setAssoc m a x) ?_ _)).trans ?_
  · exact .trans (.ite (.raise ..) (.refl ..)) (.ite (.trans (.raise ..) (.dropNotice ..)) (.refl ..))
  · rw [assoc_setAssoc_same, hslot]

/-! ### The crypto bank -/

variable {b : Nat} {d : Desc} {rest : List Desc}

/-- The module once the oldest released frame of a port has entered the bank (R236). -/
def entered (m : Mod) (p : Nat) (rest : List Desc) : Mod := setArb m p { arb m p with released := rest }

/-- A frame of an earlier generation of its berth is discarded (R704). -/
theorem bankEntry_stale (h : nextReleased m b = some (p, d, rest)) (hgen : d.gen ≠ (berth m d.berth).gen) :
    bankEntry m b = bump (entered m p rest) 0x6020 6 d.queue 1 := by
  unfold bankEntry
  rw [h]
  exact if_pos hgen

/-- A frame of an association that is not one to transmit is discarded (R270). -/
theorem bankEntry_noTx (h : nextReleased m b = some (p, d, rest)) (hgen : d.gen = (berth m d.berth).gen) (ht : isTx (aType m d.assoc) = false) :
    bankEntry m b = bump (bump (entered m p rest) 0x4020 4 d.assoc 1) 0x6020 1 d.queue 1 := by
  unfold bankEntry
  rw [h]
  exact (if_neg (not_not.mpr hgen)).trans (if_pos (show (!isTx (aType m d.assoc)) = true by rw [ht]; rfl))

/-- A frame of this generation whose association protects frames (R204, R209). -/
structure Protects (m : Mod) (b p : Nat) (d : Desc) (rest : List Desc) : Prop where
  next : nextReleased m b = some (p, d, rest)
  gen : d.gen = (berth m d.berth).gen
  tx : isTx (aType m d.assoc) = true
  gcm : isGcm (aSuite m d.assoc) = true

theorem Protects.current (h : Protects m b p d rest) : ¬d.gen ≠ (berth m d.berth).gen := not_not.mpr h.gen
theorem Protects.sends (h : Protects m b p d rest) : ¬(!isTx (aType m d.assoc)) = true := by rw [h.tx]; decide
theorem Protects.ciphers (h : Protects m b p d rest) : ¬(!isGcm (aSuite m d.assoc)) = true := by rw [h.gcm]; decide

/-- A frame under an empty slot is discarded (R241, R270). -/
theorem bankEntry_noKey (h : Protects m b p d rest) (hf : ((assoc m d.assoc).slot (assoc m d.assoc).txPhase).full = false) :
    bankEntry m b = bump (bump (entered m p rest) 0x4020 4 d.assoc 1) 0x6020 1 d.queue 1 := by
  have hempty : (!((assoc m d.assoc).slot (assoc m d.assoc).txPhase).full) = true := by rw [hf]; rfl
  unfold bankEntry
  rw [h.next]
  exact (if_neg h.current).trans ((if_neg h.sends).trans ((if_neg h.ciphers).trans (if_pos hempty)))

/-- A frame under a spent key is discarded (R240). -/
theorem bankEntry_spent (h : Protects m b p d rest) (hf : ((assoc m d.assoc).slot (assoc m d.assoc).txPhase).full = true)
    (hs : ((assoc m d.assoc).slot (assoc m d.assoc).txPhase).spent = true) :
    bankEntry m b = bump (bump (entered m p rest) 0x4020 5 d.assoc 1) 0x6020 2 d.queue 1 := by
  have hfull : ¬(!((assoc m d.assoc).slot (assoc m d.assoc).txPhase).full) = true := by rw [hf]; decide
  unfold bankEntry
  rw [h.next]
  exact (if_neg h.current).trans ((if_neg h.sends).trans ((if_neg h.ciphers).trans ((if_neg hfull).trans (if_pos hs))))

/-- The blocks of a frame at the transmit bank change the bank alone. -/
theorem txBlocks_form (m : Mod) (k : Nat) (d : Desc) (j : Job) : ∃ banks, txBlocks m k d j = { m with banks := banks } := by
  unfold txBlocks
  split
  · exact ⟨_, rfl⟩
  · exact ⟨_, rfl⟩

/-- The module once a frame has its PN and is counted with its length (R236, R272). -/
def numbered (m : Mod) (d : Desc) : Mod := bump (bump (assignPn m d.assoc).2 0x4020 1 d.assoc 1) 0x4020 2 d.assoc d.len

/-- Where the secure data of a frame begin: behind its addresses, and behind one tag that a frame association leaves in clear (R216). -/
def headOf (m : Mod) (d : Desc) : Nat := if !(aType m d.assoc == 5) && clearTag m d.assoc then 16 else 12

/-- The SecTAG, the IV and the additional data of a frame under the next PN of the slot in force (R214, R218, R220). -/
def txTag (m : Mod) (d : Desc) : SecTag :=
  mkTag m d.assoc (d.bytes.drop (headOf m d)).length ((assoc m d.assoc).slot (assoc m d.assoc).txPhase).next
def txIv (m : Mod) (d : Desc) : Octets :=
  gcmIv (aSuite m d.assoc) (txTag m d).sci (inf m 0x4000 7 d.assoc) ((assoc m d.assoc).slot (assoc m d.assoc).txPhase).next
    ((assoc m d.assoc).slot (assoc m d.assoc).txPhase).salt
def txAad (m : Mod) (d : Desc) : Octets := secAad (d.bytes.take 12) (txTag m d) (conf m d.assoc) (d.bytes.drop (headOf m d))
def txKey (m : Mod) (d : Desc) : Octets := suiteKey (aSuite m d.assoc) ((assoc m d.assoc).slot (assoc m d.assoc).txPhase).key

/-- The frame as it goes on towards the lanes. -/
def sealedFrame (m : Mod) (d : Desc) : LineFrame :=
  { head := d.bytes.take (headOf m d), tag := some (txTag m d), length := d.len + 32,
    body := { key := txKey m d, iv := txIv m d, aad := txAad m d, plain := d.bytes.drop (headOf m d) } }

/-- A frame that takes a PN is counted with its length, its blocks go to the bank, and it goes on with a SecTAG (R214, R236, R272, R328). -/
theorem bankEntry_sealed (h : Protects m b p d rest) (h5 : aType m d.assoc ≠ 5) (hf : ((assoc m d.assoc).slot (assoc m d.assoc).txPhase).full = true)
    (hs : ((assoc m d.assoc).slot (assoc m d.assoc).txPhase).spent = false) :
    ∃ banks serials, bankEntry m b = toLanes { numbered (entered m p rest) d with banks := banks, serials := serials } p
      { d with serial := serials, line := some (sealedFrame m d) } := by
  have hfull : ¬(!((assoc m d.assoc).slot (assoc m d.assoc).txPhase).full) = true := by rw [hf]; decide
  have hfresh : ¬((assoc m d.assoc).slot (assoc m d.assoc).txPhase).spent = true := by rw [hs]; decide
  have hinner : ¬(aType m d.assoc == 5) = true := by simpa using h5
  generalize hser : (numbered (entered m p rest) d).serials + 1 = serial
  obtain ⟨banks, hblocks⟩ := txBlocks_form { numbered (entered m p rest) d with serials := serial } (b * 2) d
    { key := txKey m d, j0 := firstCounter (txIv m d),
      data := (d.bytes.drop (headOf m d)).drop (clearBytes (conf m d.assoc) (d.bytes.drop (headOf m d)).length),
      aad := some (txAad m d), count := blocksOf d.len, serial }
  refine ⟨banks, serial, ?_⟩
  rw [show ({ numbered (entered m p rest) d with banks := banks, serials := serial } : Mod) = _ from hblocks.symm, ← hser]
  unfold bankEntry
  rw [h.next]
  exact (if_neg h.current).trans ((if_neg h.sends).trans ((if_neg h.ciphers).trans ((if_neg hfull).trans ((if_neg hfresh).trans (if_neg hinner)))))

theorem arb_toLanes (m : Mod) (p : Nat) (d : Desc) : arb (toLanes m p d) p = { arb m p with egress := (arb m p).egress ++ [d] } := arb_setArb_same ..

theorem arb_numbered (m : Mod) (d : Desc) (p : Nat) : arb (numbered m d) p = arb m p := by
  obtain ⟨assocs, ev, hk⟩ := KeysOnly.assignPn m d.assoc
  unfold numbered arb
  rw [bump_arbs, bump_arbs, hk]

theorem assoc_numbered (m : Mod) (d : Desc) (a : Nat) : assoc (numbered m d) a = assoc (assignPn m d.assoc).2 a := by
  unfold numbered assoc
  rw [bump_assocs, bump_assocs]

/-- A frame with a PN is counted, with its length (R272). -/
theorem numbered_counts (m : Mod) (d : Desc) : Counts m (numbered m d) 0x4020 1 d.assoc 1 ∧ Counts m (numbered m d) 0x4020 2 d.assoc d.len := by
  obtain ⟨assocs, ev, hk⟩ := KeysOnly.assignPn m d.assoc
  have hinf : inf (assignPn m d.assoc).2 = inf m := by rw [hk]; rfl
  refine ⟨(Counts.of_bump d.assoc rfl (by decide) (by rw [hinf])).of_inf (inf_bump_other _ _ _ _ (by decide) (by decide) (by decide) (by decide)),
    .of_bump_by _ _ rfl (by decide) ?_⟩
  rw [inf_bump_other _ _ _ _ (by decide) (by decide) (by decide) (by decide), hinf]

/-! ### The commands -/

@[simp] theorem queue_settleOver (m : Mod) (q : Nat) : queue (settleOver m) q = queue m q := by unfold queue; rw [settleOver_queues]
@[simp] theorem arb_settleOver (m : Mod) (p : Nat) : arb (settleOver m) p = arb m p := by unfold arb; rw [settleOver_arbs]
@[simp] theorem clsOf_settleOver (m : Mod) (b : Nat) : clsOf (settleOver m) b = clsOf m b := by unfold clsOf; rw [settleOver_cls]

variable {s : State}

theorem exec_frameRelease {p : Fin 64} {waited : Nat} (hr : s.mod.sys.running = true) :
    exec (.frameRelease p waited) s = .next (finish (s.upd (releaseFrame s.mod p waited))) :=
  run_whileOn (c := .frameRelease p waited) "FRAME_RELEASE" (fun m => releaseFrame m p waited) rfl hr

theorem exec_frameEgressComplete {p : Fin 64} {err : Int} (hr : s.mod.sys.running = true) :
    exec (.frameEgressComplete p err) s = .next (finish (s.upd (egressComplete s.mod p err))) :=
  run_whileOn (c := .frameEgressComplete p err) "FRAME_EGRESS_COMPLETE" (fun m => egressComplete m p err) rfl hr

theorem exec_holdExpire {b : Fin 4} (hr : s.mod.sys.running = true) :
    exec (.holdExpire b) s = .next (finish (s.upd (expireHold s.mod b))) :=
  run_whileOn (c := .holdExpire b) "HOLD_EXPIRE" (fun m => expireHold m b) rfl hr

theorem exec_cryptoBankEntry {b : Fin 4} (hr : s.mod.sys.running = true) :
    exec (.cryptoBankEntry b) s = .next (finish (s.upd (bankEntry s.mod b))) :=
  run_whileOn (c := .cryptoBankEntry b) "CRYPTO_BANK_ENTRY" (fun m => bankEntry m b) rfl hr

/-- The frame leaves the queue, whether it is discarded as one of an earlier generation or counted as released (R468, R704). -/
theorem frameRelease_exec {p : Fin 64} {waited : Nat} {x : Pick} (hserve : Serves s.mod p waited)
    (hk : pickNext (refilled s.mod p (waitOf s.mod p waited)) p = some x) (hq : (queue s.mod x.queue).frames = d :: rest) :
    ∃ t, exec (.frameRelease p waited) s = .next t ∧ (queue t.mod x.queue).frames = rest ∧
      t.mod.sys.elapsed = s.mod.sys.elapsed + waitOf s.mod p waited ∧
      (d.gen ≠ (berth s.mod d.berth).gen → Counts s.mod t.mod 0x6020 6 d.queue 1 ∧ (arb t.mod p).egress = (arb s.mod p).egress ∧
        (arb t.mod p).released = (arb s.mod p).released) ∧
      (d.gen = (berth s.mod d.berth).gen → Counts s.mod t.mod 0x6010 (if x.tier = 2 then 5 else 4) x.queue 1 ∧
        (isLine p = true → (arb t.mod p).released.length = (arb s.mod p).released.length + 1) ∧
        (isLine p = false → (arb t.mod p).egress.length = (arb s.mod p).egress.length + 1)) := by
  obtain ⟨n, hn, hleft⟩ := releaseFrame_picked hserve hk hq
  obtain ⟨hframes, helapsed, hcounters, hstale, hbank, hlanes⟩ := hleft
  have hqueue (i j e : Nat) : queue (bump n i j e 1) x.queue = queue n x.queue := by unfold queue; rw [bump_queues]
  have harb (i j e : Nat) : arb (bump n i j e 1) p = arb n p := by unfold arb; rw [bump_arbs]
  refine ⟨_, exec_frameRelease hserve.running, ?_⟩
  rw [finish_mod, State.upd_mod, hn, queue_settleOver, arb_settleOver, settleOver_sys]
  by_cases hgen : d.gen = (berth s.mod d.berth).gen
  · rw [if_neg (not_not.mpr hgen), hqueue, harb, bump_sys]
    refine ⟨hframes, helapsed, fun h => absurd hgen h, fun _ => ⟨?_, hbank (not_not.mpr hgen), hlanes (not_not.mpr hgen)⟩⟩
    refine Counts.of_inf (.of_bump x.queue ?_ (by omega) (hcounters _ _ _ ?_ (.inl rfl))) (by rw [inf_settleOver])
    all_goals split <;> decide
  · rw [if_pos hgen, show countDiscards n 6 [d] = bump n 0x6020 6 d.queue 1 from rfl, hqueue, harb, bump_sys]
    refine ⟨hframes, helapsed, fun _ => ⟨?_, hstale hgen⟩, fun h => absurd h hgen⟩
    exact (Counts.of_bump d.queue rfl (by decide) (hcounters _ _ _ (by decide) (.inr rfl))).of_inf (by rw [inf_settleOver])

theorem frameEgressComplete_exec {p : Fin 64} (err : Int) (hr : s.mod.sys.running = true) (h : (arb s.mod p).egress = d :: rest) :
    ∃ t, exec (.frameEgressComplete p err) s = .next t ∧ Egressed s.mod p (d.startAt + carryCycles s.mod p d) d rest t.mod :=
  ⟨_, exec_frameEgressComplete hr, (egressComplete_egressed h).congr (settleOver_arbs _) (settleOver_sys _) (settleOver_out _)
    (by rw [finish_mod, inf_settleOver]; rfl)⟩

/-- The oldest released frame discarded at the bank under a counter: the bank's own, or the queue's. -/
theorem discardedAtBank {b : Fin 4} {n : Mod} {idx sub e : Nat} (hr : s.mod.sys.running = true) (hn : bankEntry s.mod b = n)
    (harbs : n.arbs = (entered s.mod p rest).arbs) (hassocs : n.assocs = s.mod.assocs) (hc : Counts s.mod n idx sub e 1) :
    ∃ t, exec (.cryptoBankEntry b) s = .next t ∧ (arb t.mod p).released = rest ∧ Counts s.mod t.mod idx sub e 1 ∧
      t.mod.assocs = s.mod.assocs ∧ (arb t.mod p).egress = (arb s.mod p).egress := by
  have harb : arb n p = { arb s.mod p with released := rest } := by
    unfold arb
    rw [harbs]
    exact arb_setArb_same ..
  refine ⟨_, exec_cryptoBankEntry hr, ?_⟩
  rw [finish_mod, State.upd_mod, hn, arb_settleOver, settleOver_assocs, harb]
  exact ⟨rfl, hc.of_inf (by rw [inf_settleOver]), hassocs, rfl⟩

/-- A discard for the key or the association is counted under the association, and under the cause at the queue. -/
theorem discardedForKey {b : Fin 4} {sub cause : Nat} (hr : s.mod.sys.running = true) (hsub : sub = 4 ∨ sub = 5) (hcause : cause < 256)
    (hn : bankEntry s.mod b = bump (bump (entered s.mod p rest) 0x4020 sub d.assoc 1) 0x6020 cause d.queue 1) :
    ∃ t, exec (.cryptoBankEntry b) s = .next t ∧ (arb t.mod p).released = rest ∧ Counts s.mod t.mod 0x4020 sub d.assoc 1 ∧
      t.mod.assocs = s.mod.assocs ∧ (arb t.mod p).egress = (arb s.mod p).egress := by
  refine discardedAtBank hr hn (by rw [bump_arbs, bump_arbs]) (by rw [bump_assocs, bump_assocs]; rfl) ?_
  have counted : Counts s.mod (bump (entered s.mod p rest) 0x4020 sub d.assoc 1) 0x4020 sub d.assoc 1 :=
    .of_bump _ (by obtain rfl | rfl := hsub <;> rfl) (by omega) rfl
  exact counted.of_inf (inf_bump_other _ _ _ _ (by obtain rfl | rfl := hsub <;> decide) hcause (by simp) (by simp))

/-- A frame that goes on takes the next PN of its slot in force and a SecTAG of its low 32 bits (R214, R236). -/
theorem protectedAtBank {b : Fin 4} (hr : s.mod.sys.running = true) (h : Protects s.mod b p d rest) (h5 : aType s.mod d.assoc ≠ 5)
    (hf : ((assoc s.mod d.assoc).slot (assoc s.mod d.assoc).txPhase).full = true)
    (hs : ((assoc s.mod d.assoc).slot (assoc s.mod d.assoc).txPhase).spent = false) :
    ∃ t x, exec (.cryptoBankEntry b) s = .next t ∧ (arb t.mod p).released = rest ∧ (arb t.mod p).egress = (arb s.mod p).egress ++ [x] ∧
      x.line = some (sealedFrame s.mod d) ∧
      ((assoc t.mod d.assoc).slot (assoc s.mod d.assoc).txPhase).next = ((assoc s.mod d.assoc).slot (assoc s.mod d.assoc).txPhase).next + 1 ∧
      Counts s.mod t.mod 0x4020 1 d.assoc 1 ∧ Counts s.mod t.mod 0x4020 2 d.assoc d.len := by
  obtain ⟨banks, serials, hn⟩ := bankEntry_sealed h h5 hf hs
  generalize hx : ({ d with serial := serials, line := some (sealedFrame s.mod d) } : Desc) = x at hn
  have harb : arb (bankEntry s.mod b) p = { arb s.mod p with released := rest, egress := (arb s.mod p).egress ++ [x] } := by
    have hnum : arb (numbered (entered s.mod p rest) d) p = { arb s.mod p with released := rest } := (arb_numbered ..).trans (arb_setArb_same ..)
    rw [hn, arb_toLanes, show arb { numbered (entered s.mod p rest) d with banks := banks, serials := serials } p = _ from hnum]
  have hassoc : assoc (bankEntry s.mod b) d.assoc = assoc (assignPn (entered s.mod p rest) d.assoc).2 d.assoc := by
    rw [hn]
    exact assoc_numbered ..
  obtain ⟨hframes, hoctets⟩ := numbered_counts (entered s.mod p rest) d
  refine ⟨_, x, exec_cryptoBankEntry hr, ?_⟩
  rw [finish_mod, State.upd_mod, arb_settleOver, assoc_settleOver, harb, hassoc]
  refine ⟨rfl, rfl, by rw [← hx], next_assignPn (entered s.mod p rest) d.assoc, ?_, ?_⟩
  · exact hframes.of_inf (by rw [inf_settleOver, hn]; rfl)
  · exact hoctets.of_inf_by (by rw [inf_settleOver, hn]; rfl)

theorem headOf_frame (h5 : aType m d.assoc ≠ 5) : headOf m d = if clearTag m d.assoc then 16 else 12 := by
  have hinner : (aType m d.assoc == 5) = false := by simpa using h5
  unfold headOf
  rw [hinner]
  rfl

/-- Settles O29: each command takes its frame from where it waits; at the bank what becomes of the frame follows its generation, its
association and the slot in force, in that order. -/
theorem framesLeaveQueuesAndAreProtected : Obligations.FramesLeaveQueuesAndAreProtected := by
  refine ⟨⟨fun s p waited x d rest hr hup hmode hturn hk hq => frameRelease_exec ⟨hr, hup, hmode, hturn⟩ hk hq,
    fun s p err d rest hr he => ?_, fun s b hr hh => ?_⟩, fun s b p d rest hr hnext => ⟨fun hgen => ?_, fun hgen ht => ?_, ?_⟩⟩
  · obtain ⟨t, hrun, he, hcount, htime, hout⟩ := frameEgressComplete_exec err hr he
    exact ⟨t, hrun, he, hcount, htime, hout⟩
  · obtain ⟨x, hmem, hmin, hx⟩ := expireHold_soonest hh
    refine ⟨_, x, exec_holdExpire hr, hmem, hmin, ?_⟩
    rw [finish_mod, State.upd_mod, hx, clsOf_settleOver, settleOver_sys]
    exact ⟨clsOf_holdOver .., (holdOver_counts ..).of_inf (by rw [inf_settleOver]), holdOver_elapsed ..⟩
  · have counted : Counts s.mod (bump (entered s.mod p rest) 0x6020 6 d.queue 1) 0x6020 6 d.queue 1 := .of_bump _ rfl (by decide) rfl
    obtain ⟨t, hrun, hrel, hcount, hassoc, -⟩ := discardedAtBank hr (bankEntry_stale hnext hgen) (bump_arbs ..) (bump_assocs ..) counted
    exact ⟨t, hrun, hrel, hcount, hassoc⟩
  · obtain ⟨t, hrun, hrel, hcount, hassoc, -⟩ := discardedForKey hr (.inl rfl) (by decide) (bankEntry_noTx hnext hgen ht)
    exact ⟨t, hrun, hrel, hcount, hassoc⟩
  · rintro y hgen ht h5 hg rfl
    have h : Protects s.mod b p d rest := ⟨hnext, hgen, ht, hg⟩
    refine ⟨fun hf => ?_, fun hf hs => ?_, fun hf hs => ?_⟩
    · obtain ⟨t, hrun, hrel, hcount, -, hegr⟩ := discardedForKey hr (.inl rfl) (by decide) (bankEntry_noKey h hf)
      exact ⟨t, hrun, hrel, hcount, hegr⟩
    · obtain ⟨t, hrun, hrel, hcount, -, hegr⟩ := discardedForKey hr (.inr rfl) (by decide) (bankEntry_spent h hf hs)
      exact ⟨t, hrun, hrel, hcount, hegr⟩
    · obtain ⟨t, x, hrun, hrel, hegr, hline, hpn, hframes, hoctets⟩ := protectedAtBank hr h h5 hf hs
      exact ⟨t, x, sealedFrame s.mod d, hrun, hrel, hegr, hline, ⟨txTag s.mod d, rfl, rfl⟩,
        congrArg (d.bytes.drop ·) (headOf_frame h5), rfl, hpn, hframes, hoctets⟩

end Sys2Proof.Machine
end

