-- ==== Sys2Proof/Proofs/ScheduledTimes.lean ====
section
/-! PROOFS. What happens at a network time (R552): gate lists swapped or deferred (R527, R531), gate entries (R513), and key switches scheduled for a
time (R293, R296, R301, R312). -/

namespace Sys2Proof.Machine

/-! ### A counter without a slew -/

theorem le_ceilDiv_mul (a : Nat) {b : Nat} (hb : 0 < b) : a ≤ ceilDiv a b * b := by
  have h : a ≤ b * (a ⌈/⌉ b) := le_smul_ceilDiv hb
  rwa [Nat.ceilDiv_eq_add_pred_div, Nat.mul_comm] at h

theorem Ctr.run_unslewed {c : Ctr} (hs : c.slew = 0) (edges : Nat) : (c.run edges).val = c.val + edges * c.inc := by
  simp [Ctr.run, hs]

/-- As many edges as a counter without a slew needs for a value, or more, bring it there. -/
theorem Ctr.le_run_of_edgesTo_le {c : Ctr} {target edges : Nat} (hs : c.slew = 0) (hi : 0 < c.inc) (h : c.edgesTo target ≤ edges) :
    target ≤ (c.run edges).val := by
  rw [Ctr.run_unslewed hs]
  by_cases hpast : target ≤ c.val
  · omega
  have needed : ceilDiv (target - c.val) c.inc ≤ c.edgesTo target := by
    unfold Ctr.edgesTo
    simp only [if_neg (show ¬(target ≤ c.val ∨ c.inc = 0) by omega), if_pos hs]
    split <;> omega
  have counted : target - c.val ≤ edges * c.inc := calc
    target - c.val ≤ ceilDiv (target - c.val) c.inc * c.inc := le_ceilDiv_mul _ hi
    _ ≤ edges * c.inc := Nat.mul_le_mul_right _ (needed.trans h)
  omega

/-! ### A harbour's counter while time passes -/

variable {m : Mod}

theorem nowH_eq_counterOf (m : Mod) (h : Nat) : nowH m h = (counterOf m h).val / 2 ^ 32 := by
  unfold nowH counterOf
  split <;> rfl

/-- The passing of time runs both time counters by two T-clock edges a cycle (R552). -/
theorem counterOf_advance (hr : m.sys.running = true) (n h : Nat) : counterOf (advance m n) h = (counterOf m h).run (2 * n) := by
  obtain ⟨banks, obj, ev, hb⟩ := runBanks_form (List.range 8) n (runClocks m n)
  obtain ⟨tts, tx, obj', ev', out, hl⟩ := leaveGelix_form ((List.range 8).foldl (fun m k => runBank m k n) (runClocks m n))
  have clocks : counterOf (advance m n) h = counterOf (runClocks m n) h := by
    unfold advance
    rw [if_pos hr, hl, hb]
    rfl
  rw [clocks]
  unfold counterOf runClocks
  simp only [hr, if_true]
  split <;> rfl

/-- Time that runs to a network time reaches it, where the counter has no slew. -/
theorem le_nowH_advanceToNet {h : Nat} (t : Nat) (hr : m.sys.running = true) (hs : (counterOf m h).slew = 0) (hi : 0 < (counterOf m h).inc) :
    t ≤ nowH (advanceToNet m h t) h := by
  have edges : (counterOf m h).edgesTo (t * 2 ^ 32) ≤ 2 * ceilDiv ((counterOf m h).edgesTo (t * 2 ^ 32)) 2 := by
    rw [Nat.mul_comm 2]
    exact le_ceilDiv_mul _ (by decide)
  rw [nowH_eq_counterOf, Nat.le_div_iff_mul_le (by decide)]
  calc t * 2 ^ 32 ≤ ((counterOf m h).run (2 * ceilDiv ((counterOf m h).edgesTo (t * 2 ^ 32)) 2)).val := Ctr.le_run_of_edgesTo_le hs hi edges
    _ = (counterOf (advanceToNet m h t) h).val := congrArg Ctr.val (counterOf_advance hr _ h).symm

@[simp] theorem gate_advanceToNet (m : Mod) (h t p : Nat) : gate (advanceToNet m h t) p = gate m p := by
  unfold gate advanceToNet
  rw [advance_gates]

@[simp] theorem assoc_advanceToNet (m : Mod) (h t a : Nat) : assoc (advanceToNet m h t) a = assoc m a := by
  unfold assoc advanceToNet
  rw [advance_assocs]

@[simp] theorem aType_advanceToNet (m : Mod) (h t a : Nat) : aType (advanceToNet m h t) a = aType m a :=
  congrArg Val.toNat (look_advance_ne m _ (by decide) (by decide))

@[simp] theorem gate_settleOver (m : Mod) (p : Nat) : gate (settleOver m) p = gate m p := by unfold gate; rw [settleOver_gates]

@[simp] theorem nowH_settleOver (m : Mod) (h : Nat) : nowH (settleOver m) h = nowH m h := by unfold nowH; rw [settleOver_time]

/-! ### Gates -/

/-- A bank that comes into force is no longer pending, and the swap is counted (R527). -/
theorem gate_doSwap {p : Nat} {b : GBank} (hb : (gate m p).pend = some b) :
    (gate (doSwap m p) p).force = b ∧ (gate (doSwap m p) p).pend = none ∧ (gate (doSwap m p) p).swaps = satAdd 32 (gate m p).swaps 1 := by
  unfold doSwap
  simp only [hb, gate_raise, gate_setGate_same, and_self]

theorem gateSwap_fits {p : Nat} {b : GBank} (hb : (gate m p).pend = some b)
    (hfit : overLimit (advanceToNet m (harbourOf p) (gate m p).swap) p = none) :
    gateSwap m p = doSwap (advanceToNet m (harbourOf p) (gate m p).swap) p := by
  unfold gateSwap
  simp only [hb, hfit]

/-- A queue over its limit leaves both banks where they are and moves the swap to a later candidate (R531). -/
theorem gate_gateSwap_deferred {p : Nat} {b : GBank} (hb : (gate m p).pend = some b)
    (hover : overLimit (advanceToNet m (harbourOf p) (gate m p).swap) p ≠ none) :
    gate (gateSwap m p) p = { gate m p with swap := candidate (gate m p) b ((gate m p).swap + 1), deferred := true } := by
  obtain ⟨q, hq⟩ := Option.ne_none_iff_exists'.mp hover
  unfold gateSwap
  simp only [hb, hq]
  split
  · exact gate_setGate_same ..
  · rw [gate_raise, gate_setGate_same]

/-- The next entry begins once the time left of the one in force has passed (R513). -/
theorem nextEntry_passes {p r : Nat} (hr : m.sys.running = true) (hrest : entryRest m p = some r) (hs : (counterOf m (harbourOf p)).slew = 0)
    (hi : 0 < (counterOf m (harbourOf p)).inc) :
    tenths m (harbourOf p) + r ≤ nowH (nextEntry m p) (harbourOf p) * 10 ∧ gate (nextEntry m p) p = gate m p := by
  unfold nextEntry
  rw [hrest]
  exact ⟨(le_ceilDiv_mul _ (by decide)).trans (Nat.mul_le_mul_right 10 (le_nowH_advanceToNet _ hr hs hi)), gate_advanceToNet ..⟩

/-! ### Switches -/

/-- A request of a frame or inner association that comes into force moves its transmit phase (R293, R301). -/
theorem assoc_switchInForce_frame {a : Nat} (ht : aType m a ≠ 3) :
    (assoc (switchInForce m a) a).txPhase = 1 - (assoc m a).txPhase ∧ (assoc (switchInForce m a) a).sw = 0 := by
  unfold switchInForce
  rw [if_neg ht]
  unfold flip
  simp only [assoc_raise, assoc_setNat, assoc_setAssoc_same, and_self]

/-- A request of a line association that comes into force starts notice while its slot in force is usable, else the wait for KNR (R312). -/
theorem assoc_switchInForce_line {a : Nat} (ht : aType m a = 3) :
    (assoc (switchInForce m a) a).txPhase = (assoc m a).txPhase ∧ (assoc (switchInForce m a) a).sw = if txUsable m a then 2 else 3 := by
  unfold switchInForce
  rw [if_pos ht]
  simp only [assoc_setAssoc_same]
  split <;> exact ⟨rfl, rfl⟩

theorem switchTime_waiting {a : Nat} (hr : m.sys.running = true) (hsw : (assoc m a).sw = 1) :
    switchTime m a = switchInForce (advanceToNet m (aHarbour a) (inf m 0x4040 2 a)) a := by
  unfold switchTime scheduledSwitch
  rw [if_pos ⟨hr, hsw⟩, assoc_advanceToNet, if_pos hsw]

@[simp] theorem txUsable_advanceToNet (m : Mod) (h t a : Nat) : txUsable (advanceToNet m h t) a = txUsable m a := by
  unfold txUsable
  rw [assoc_advanceToNet]

/-! ### The commands -/

variable {s : State}

theorem exec_gateSwap {p : Fin 64} (hr : s.mod.sys.running = true) : exec (.gateSwap p) s = .next (finish (s.upd (gateSwap s.mod p))) :=
  run_whileOn (c := .gateSwap p) "GATE_SWAP" (fun m => gateSwap m p) rfl hr

theorem exec_gateEntryChange {p : Fin 64} (hr : s.mod.sys.running = true) :
    exec (.gateEntryChange p) s = .next (finish (s.upd (nextEntry s.mod p))) :=
  run_whileOn (c := .gateEntryChange p) "GATE_ENTRY_CHANGE" (fun m => nextEntry m p) rfl hr

theorem exec_switchScheduledTime {a : Fin 65536} (hr : s.mod.sys.running = true) :
    exec (.switchScheduledTime a) s = .next (finish (s.upd (switchTime s.mod a))) :=
  run_whileOn (c := .switchScheduledTime a) "SWITCH_SCHEDULED_TIME" (fun m => switchTime m a) rfl hr

/-- Settles O33: each command runs time to its instant, which leaves gates and associations alone; there the bank swaps or the swap is deferred, the
entry in force has passed, and the request comes into force. -/
theorem gatesAndSwitchesActAtTheirTime : Obligations.GatesAndSwitchesActAtTheirTime := by
  refine ⟨fun s p b hr hb => ⟨fun hfit => ?_, fun hover => ?_⟩, fun s p r c hr hrest hc hs hi => ?_, fun s a hr hsw => ?_⟩
  · refine ⟨_, exec_gateSwap hr, ?_⟩
    rw [finish_mod, State.upd_mod, gate_settleOver, gateSwap_fits hb hfit]
    simpa only [gate_advanceToNet] using gate_doSwap (m := advanceToNet s.mod (harbourOf p) (gate s.mod p).swap) (by rwa [gate_advanceToNet])
  · refine ⟨_, exec_gateSwap hr, ?_⟩
    rw [finish_mod, State.upd_mod, gate_settleOver, gate_gateSwap_deferred hb hover]
    exact ⟨rfl, hb, rfl, rfl⟩
  · obtain rfl : c = counterOf s.mod (harbourOf p) := hc
    refine ⟨_, exec_gateEntryChange hr, ?_⟩
    rw [finish_mod, State.upd_mod, gate_settleOver, nowH_settleOver]
    exact nextEntry_passes hr hrest hs hi
  · refine ⟨_, exec_switchScheduledTime hr, fun ht => ?_, fun ht => ?_⟩
    all_goals rw [finish_mod, State.upd_mod, assoc_settleOver, switchTime_waiting hr hsw]
    · simpa only [assoc_advanceToNet] using
        assoc_switchInForce_frame (m := advanceToNet s.mod (aHarbour a) (inf s.mod 0x4040 2 a)) (by rwa [aType_advanceToNet])
    · simpa only [assoc_advanceToNet, txUsable_advanceToNet] using
        assoc_switchInForce_line (m := advanceToNet s.mod (aHarbour a) (inf s.mod 0x4040 2 a)) (by rwa [aType_advanceToNet])

end Sys2Proof.Machine
end

