-- ==== Sys2Proof/Proofs/EngineFrames.lean ====
section
/-! PROOFS. What leaves the cipher engines as they were: the passage of time leaves the states of their units, and the responses of the tether
(R868 to R875, R889) leave units, entropy sources and the counters 0x4200 and 0x4230. -/

namespace Sys2Proof.Machine

/-! ### An entry that stands alone in its table -/

section tables

variable {α : Type} {t : Tbl α} {k : Nat}

/-- At most one entry of a table has the key, as after any write under it. -/
def Sole (t : Tbl α) (k : Nat) : Prop := t.countP (·.1 == k) ≤ 1

theorem tget_of_no_entry (d : α) (h : ∀ e ∈ t, e.1 ≠ k) : tget d t k = d := by
  induction t with
  | nil => rfl
  | cons e r ih => rw [tget, if_neg (h e (by simp)), ih fun x hx => h x (by simp [hx])]

theorem countP_tins (k : Nat) (v : α) (t : Tbl α) : (tins k v t).countP (·.1 == k) = t.countP (·.1 == k) + 1 := by
  induction t with
  | nil => simp [tins]
  | cons e r ih =>
    obtain ⟨j, w⟩ := e
    rw [tins]
    split
    · rw [List.countP_cons_of_pos (by simp)]
    · rw [List.countP_cons, ih, List.countP_cons]
      omega

variable [DecidableEq α]

theorem sole_tset (d : α) (t : Tbl α) (k : Nat) (v : α) : Sole (tset d t k v) k := by
  have hdel : (tdel t k).countP (·.1 == k) = 0 := List.countP_eq_zero.mpr fun e he => by simpa using tdel_key_ne t k e he
  unfold Sole tset
  split
  · omega
  · rw [countP_tins, hdel]

theorem sole_tmap (d : α) (f : α → α) (h : Sole t k) : Sole (tmap d f t) k := by
  have hle : (tmap d f t).countP (·.1 == k) ≤ (t.map fun e => (e.1, f e.2)).countP (·.1 == k) := (List.filter_sublist).countP_le
  rw [List.countP_map] at hle
  exact hle.trans h

/-- Where one entry at most has the key, a table with every entry changed reads as the change of what it read. -/
theorem tget_tmap_of_sole (d : α) {f : α → α} (hf : f d = d) (h : Sole t k) : tget d (tmap d f t) k = f (tget d t k) := by
  have skip (e : Nat × α) (r : Tbl α) (he : e.1 ≠ k) : tget d (tmap d f (e :: r)) k = tget d (tmap d f r) k := by
    by_cases hv : f e.2 = d <;> simp [tmap, tget, hv, he]
  induction t with
  | nil => exact hf.symm
  | cons e r ih =>
    by_cases he : e.1 = k
    · have hr : r.countP (·.1 == k) = 0 := by
        unfold Sole at h
        rw [List.countP_cons_of_pos (by simpa using he)] at h
        omega
      have none : ∀ x ∈ tmap d f r, x.1 ≠ k := by
        intro x hx
        obtain ⟨y, hy, rfl⟩ := List.mem_map.mp (List.mem_filter.mp hx).1
        simpa using List.countP_eq_zero.mp hr y hy
      by_cases hv : f e.2 = d
      · rw [tget, if_pos he, hv, show tmap d f (e :: r) = tmap d f r by simp [tmap, hv], tget_of_no_entry d none]
      · rw [tget, if_pos he, show tmap d f (e :: r) = (e.1, f e.2) :: tmap d f r by simp [tmap, hv], tget, if_pos he]
    · rw [skip e r he, tget, if_neg he]
      refine ih ?_
      unfold Sole at h
      rwa [List.countP_cons_of_neg (by simpa using he)] at h

end tables

/-! ### The units of a bank -/

/-- The states of a bank's units. -/
def Bank.groups (b : Bank) : Tbl CUnit × Tbl CUnit × Tbl CUnit := (b.pipes, b.lanes, b.pairs)

theorem unit_of_groups {b c : Bank} (h : c.groups = b.groups) (u : CipherUnit) : c.unit u = b.unit u := by
  simp only [Bank.groups, Prod.mk.injEq] at h
  obtain ⟨hp, hl, hg⟩ := h
  cases u with
  | pipeline n => exact congrArg (tget {} · n.val) hp
  | maskedLane n => exact congrArg (tget {} · n.val) hl
  | ghashPair n => exact congrArg (tget {} · n.val) hg

@[simp] theorem Bank.unit_setUnit_same (b : Bank) (u : CipherUnit) (x : CUnit) : (b.setUnit u x).unit u = x := by
  cases u with
  | pipeline n => exact tget_tset_same ..
  | maskedLane n => exact tget_tset_same ..
  | ghashPair n => exact tget_tset_same ..

@[simp] theorem Bank.setUnit_flight (b : Bank) (u : CipherUnit) (x : CUnit) : (b.setUnit u x).flight = b.flight := by cases u <;> rfl
@[simp] theorem Bank.setSpare_groups (b : Bank) (u : CipherUnit) (i : Option Nat) : (b.setSpare u i).groups = b.groups := by cases u <;> rfl
@[simp] theorem Bank.setSpare_flight (b : Bank) (u : CipherUnit) (i : Option Nat) : (b.setSpare u i).flight = b.flight := by cases u <;> rfl
@[simp] theorem Bank.setFrom_groups (b : Bank) (u : CipherUnit) (t : Nat) : (b.setFrom u t).groups = b.groups := by cases u <;> rfl
@[simp] theorem Bank.setFrom_flight (b : Bank) (u : CipherUnit) (t : Nat) : (b.setFrom u t).flight = b.flight := by cases u <;> rfl

@[simp] theorem bank_bump (m : Mod) (idx sub elem n k : Nat) : bank (bump m idx sub elem n) k = bank m k := by unfold bank; rw [bump_banks]
@[simp] theorem bank_settleOver (m : Mod) (k : Nat) : bank (settleOver m) k = bank m k := by unfold bank; rw [settleOver_banks]
@[simp] theorem source_settleOver (m : Mod) (i : Nat) : source (settleOver m) i = source m i := by unfold source; rw [settleOver_sources]
@[simp] theorem entropyOf_settleOver (m : Mod) (h : Nat) : entropyOf (settleOver m) h = entropyOf m h := by
  unfold entropyOf; rw [settleOver_entropy]

/-! ### Units as time passes -/

theorem Bank.dispatch_groups (b : Bank) (c : Nat) : (b.dispatch c).1.groups = b.groups := by
  have steps (b : Bank) (j : Job) (i leaves : Nat) : (b.addSteps j i leaves).groups = b.groups := by
    unfold Bank.addSteps
    exact foldl_keeps Bank.groups
      (fun b n => { b with steps := b.steps ++ [{ cycle := b.stepCycle j.message leaves, message := j.message, input := n }] }) (fun _ _ => rfl) _ _
  unfold Bank.dispatch
  dsimp only
  refine (foldl_keeps Bank.groups (fun (b : Bank) (x : Job × Nat) => b.addSteps x.1 x.2 (c + 15)) (fun b x => steps b x.1 x.2 (c + 15)) _ _).trans ?_
  rfl

theorem Bank.dispatchRun_groups (n c : Nat) (b : Bank) : (b.dispatchRun n c).1.groups = b.groups := by
  induction n generalizing c b with
  | zero => rfl
  | succ n ih =>
    rw [Bank.dispatchRun]
    split
    · rfl
    · exact (ih (c + 1) (b.dispatch c).1).trans (b.dispatch_groups c)

theorem Bank.account_groups (b : Bank) (second n late active used : Nat) : (b.account second n late active used).groups = b.groups := by
  unfold Bank.account
  split <;> rfl

theorem runBank_groups (m : Mod) (k n j : Nat) : (bank (runBank m k n) j).groups = (bank m j).groups := by
  unfold runBank
  dsimp only
  rw [bank_bump, bank_bump]
  by_cases hj : j = k
  · rw [hj, bank_setBank_same]
    exact (Bank.account_groups ..).trans (Bank.dispatchRun_groups ..)
  · rw [bank_setBank_ne _ _ hj]

/-- Time passing changes the state of no unit. -/
theorem advance_groups (m : Mod) (n k : Nat) : (bank (advance m n) k).groups = (bank m k).groups := by
  unfold advance
  dsimp only
  split
  · obtain ⟨_, _, _, _, _, h⟩ := leaveGelix_form ((List.range 8).foldl (fun m k => runBank m k n) (runClocks m n))
    rw [h]
    exact foldl_keeps (fun m => (bank m k).groups) (fun m j => runBank m j n) (fun m j => runBank_groups m j n k) _ _
  · rfl

@[simp] theorem unit_advance (m : Mod) (n k : Nat) (u : CipherUnit) : (bank (advance m n) k).unit u = (bank m k).unit u :=
  unit_of_groups (advance_groups m n k) u
@[simp] theorem unit_advanceTo (m : Mod) (t k : Nat) (u : CipherUnit) : (bank (advanceTo m t) k).unit u = (bank m k).unit u := unit_advance ..
@[simp] theorem advanceTo_sources (m : Mod) (t : Nat) : (advanceTo m t).sources = m.sources := advance_sources ..
@[simp] theorem entropyOf_advanceTo (m : Mod) (t h : Nat) : entropyOf (advanceTo m t) h = entropyOf m h := by
  unfold entropyOf advanceTo; rw [advance_entropy]

/-! ### The counters of the engines -/

/-- The objects that count for banks and entropy sources. -/
def engineObject (idx : Nat) : Prop := idx = 0x4200 ∨ idx = 0x4230

/-- Such an object reads what the store of objects holds. -/
theorem inf_of_found {m n : Mod} {i s e : Nat} (hi : engineObject i) (h : tfind n.obj (okey i s e) = tfind m.obj (okey i s e)) :
    inf n i s e = inf m i s e := by
  obtain rfl | rfl := hi <;> simp [inf, look, store, tfind_nil, h]

theorem inf_of_obj {m n : Mod} {i : Nat} (s e : Nat) (hi : engineObject i) (h : n.obj = m.obj) : inf n i s e = inf m i s e :=
  inf_of_found hi (by rw [h])

theorem settled_of_engineObject {i : Nat} (s : Nat) (hi : engineObject i) : Settled i s := by
  obtain rfl | rfl := hi <;> simp [Settled, commitWrites]

/-! ### Operations apart from the engines -/

/-- The entropy sources and the counters of the engines are as they were. -/
structure EntropyKeeps (m n : Mod) : Prop where
  entropy : n.entropy = m.entropy
  inf : ∀ i s e, s < 256 → engineObject i → inf n i s e = inf m i s e

/-- What touches no bank, no entropy source, no source of the tether and not the clock. -/
structure EnginesApart (m n : Mod) : Prop extends EntropyKeeps m n where
  banks : n.banks = m.banks
  sources : n.sources = m.sources
  elapsed : n.sys.elapsed = m.sys.elapsed

namespace EntropyKeeps

variable {m n k : Mod}

theorem refl (m : Mod) : EntropyKeeps m m := ⟨rfl, fun _ _ _ _ _ => rfl⟩

theorem trans (h : EntropyKeeps m n) (h' : EntropyKeeps n k) : EntropyKeeps m k :=
  ⟨h'.entropy.trans h.entropy, fun i s e hs hi => (h'.inf i s e hs hi).trans (h.inf i s e hs hi)⟩

theorem of_eq (he : n.entropy = m.entropy) (ho : n.obj = m.obj) : EntropyKeeps m n := ⟨he, fun _ s e _ hi => inf_of_obj s e hi ho⟩

theorem setBank (m : Mod) (k : Nat) (b : Bank) : EntropyKeeps m (setBank m k b) := .of_eq rfl rfl

theorem foldl {α : Type} (g : Mod → α → Mod) (hg : ∀ m a, EntropyKeeps m (g m a)) (l : List α) (m : Mod) : EntropyKeeps m (l.foldl g m) := by
  induction l generalizing m with
  | nil => exact refl m
  | cons a r ih => exact (hg m a).trans (ih (g m a))

end EntropyKeeps

namespace EnginesApart

variable {m n k : Mod}

theorem refl (m : Mod) : EnginesApart m m := ⟨.refl m, rfl, rfl, rfl⟩

theorem trans (h : EnginesApart m n) (h' : EnginesApart n k) : EnginesApart m k :=
  ⟨h.toEntropyKeeps.trans h'.toEntropyKeeps, h'.banks.trans h.banks, h'.sources.trans h.sources, h'.elapsed.trans h.elapsed⟩

theorem foldl {α : Type} (g : Mod → α → Mod) (hg : ∀ m a, EnginesApart m (g m a)) (l : List α) (m : Mod) : EnginesApart m (l.foldl g m) := by
  induction l generalizing m with
  | nil => exact refl m
  | cons a r ih => exact (hg m a).trans (ih (g m a))

theorem ite {c : Prop} [Decidable c] (h : EnginesApart m n) (h' : EnginesApart m k) : EnginesApart m (if c then n else k) := by
  split
  · exact h
  · exact h'

theorem of_eq (hb : n.banks = m.banks) (he : n.entropy = m.entropy) (hs : n.sources = m.sources) (ht : n.sys.elapsed = m.sys.elapsed)
    (ho : n.obj = m.obj) : EnginesApart m n :=
  ⟨.of_eq he ho, hb, hs, ht⟩

/-- Every effect of a COMMIT keeps the objects of the engines. -/
theorem of_commit (h : CommitKeeps m n) (hb : n.banks = m.banks) (he : n.entropy = m.entropy) (hs : n.sources = m.sources)
    (ht : n.sys.elapsed = m.sys.elapsed) : EnginesApart m n :=
  ⟨⟨he, fun i s e hlt hi => congrArg Val.toNat (h.look i s e hlt (settled_of_engineObject s hi))⟩, hb, hs, ht⟩

theorem raise (m : Mod) (code src bpid : Nat) (ps : Octets) : EnginesApart m (raise m code src bpid ps) := .of_eq rfl rfl rfl rfl rfl
theorem setStow (m : Mod) (h : Nat) (x : Stow) : EnginesApart m (setStow m h x) := .of_eq rfl rfl rfl rfl rfl

theorem countDiscards (m : Mod) {sub : Nat} (ds : List Desc) (hsub : sub < 256) : EnginesApart m (countDiscards m sub ds) := by
  have look (i s e : Nat) (hs : s < 256) (hi : engineObject i) : Machine.inf (Machine.countDiscards m sub ds) i s e = Machine.inf m i s e :=
    congrArg Val.toNat (look_countDiscards m ds e hs hsub (by rintro rfl; simp [engineObject] at hi))
  obtain ⟨obj, ev, h⟩ := countDiscards_form m sub ds
  exact ⟨⟨by rw [h], look⟩, by rw [h], by rw [h], by rw [h]⟩

theorem discardFrames (m : Mod) (f : Desc → Bool) (cut : Bool) {sub : Nat} (hsub : sub < 256) : EnginesApart m (discardFrames m f cut sub).1 := by
  have look (i s e : Nat) (hs : s < 256) (hi : engineObject i) : Machine.inf (Machine.discardFrames m f cut sub).1 i s e = Machine.inf m i s e :=
    congrArg Val.toNat (look_discardFrames m f cut e hs hsub (by rintro rfl; simp [engineObject] at hi))
  obtain ⟨_, _, _, _, _, h⟩ := discardFrames_form m f cut sub
  exact ⟨⟨by rw [h], look⟩, by rw [h], by rw [h], by rw [h]⟩

theorem discardBasin (m : Mod) (b : Nat) {sub : Nat} (hsub : sub < 256) : EnginesApart m (discardBasin m b sub) := .discardFrames _ _ _ hsub

/-! ### Rates and regions -/

theorem retarget (m : Mod) (q : Nat) : EnginesApart m (retarget m q) := by
  have rates : EnginesApart m (switchRates m q) := by
    obtain ⟨queues, h⟩ := switchRates_form m q
    rw [h]
    exact .of_eq rfl rfl rfl rfl rfl
  unfold Machine.retarget
  exact .ite rates (.ite rates (.of_eq rfl rfl rfl rfl rfl))

theorem rethrottle (was m : Mod) : EnginesApart m (rethrottle was m) :=
  .foldl _ (fun n _ => .ite (.refl n) (.foldl _ EnginesApart.retarget _ _)) _ _

theorem quiesceRegion (m : Mod) (h r : Nat) : EnginesApart m (quiesceRegion m h r) :=
  .ite (.refl m) (.trans (.trans (.setStow ..) (.discardFrames _ _ _ (by decide))) (.raise ..))

theorem engageFallback (m : Mod) (b : Nat) : EnginesApart m (engageFallback m b) := by
  have rates (n : Mod) (sub elem v : Nat) (h : (0x6000, sub) ∈ commitWrites) : EnginesApart n (setNat n 0x6000 sub elem v) :=
    .of_commit (.setNat _ _ _ h) rfl rfl rfl rfl
  have divert : EnginesApart m (divertBasin m b) :=
    .foldl _ (fun n _ => .trans (.trans (rates _ _ _ _ (by decide)) (rates _ _ _ _ (by decide))) (.retarget ..)) _ _
  exact .trans (.ite divert (.refl m)) (.raise ..)

/-! ### Keys and sessions -/

theorem eraseAllKeys (m : Mod) : EnginesApart m (eraseAllKeys m) := by
  refine ⟨⟨rfl, fun i s e hs hi => inf_of_found hi ?_⟩, rfl, rfl, rfl⟩
  refine (tfind_filter_key (fun j => j / 2 ^ 32 != 0x404001) m.obj (okey i s e)).trans (if_pos (bne_iff_ne.mpr ?_))
  unfold okey
  obtain rfl | rfl := hi <;> omega

theorem endSession (m : Mod) (slot cause : Nat) : EnginesApart m (endSession m slot cause) := by
  have debug (n : Mod) (id : Nat) : EnginesApart n (closeDebug n slot id) :=
    .ite (.ite (.of_eq rfl rfl rfl rfl rfl) (.of_eq rfl rfl rfl rfl rfl)) (.refl n)
  have grant : EnginesApart m (endGrant m slot) := by
    have shown (n : Mod) (sub : Nat) (h : (0x2040, sub) ∈ commitWrites) : EnginesApart n (setNat n 0x2040 sub slot 0) :=
      .of_commit (.setNat _ _ _ h) rfl rfl rfl rfl
    have grants (t : Tbl (Option (Nat × Nat × Nat))) : EnginesApart m { m with mgmt := { m.mgmt with grants := t } } := .of_eq rfl rfl rfl rfl rfl
    unfold endGrant
    split
    · exact .refl m
    · exact .trans (.trans (.trans (.trans (grants _) (debug ..)) (shown _ _ (by decide))) (shown _ _ (by decide))) (.raise ..)
  have free (n : Mod) : EnginesApart n (freeSlot n slot) := .of_eq rfl rfl rfl rfl rfl
  exact .ite (.trans (.trans grant (free _)) (.raise ..)) (.ite (free m) (.refl m))

theorem endSessions (m : Mod) (cause : Nat) (p : Sess → Bool) : EnginesApart m (endSessions m cause p) :=
  .foldl _ (fun n _ => .ite (.endSession ..) (.refl n)) _ _

end EnginesApart

/-! ### Responses -/

/-- What a response leaves as it was of a bank's units, the entropy sources, their counters and the clock. -/
structure EngineKeeps (k : Nat) (m n : Mod) : Prop extends EntropyKeeps m n where
  units : Sole m.banks k → Sole n.banks k ∧ ∀ u, (bank n k).unit u = (bank m k).unit u
  elapsed : n.sys.elapsed = m.sys.elapsed

/-- The same, with the events that the sources have counted. -/
structure ResponseKeeps (k : Nat) (m n : Mod) : Prop extends EngineKeeps k m n where
  events : ∀ i, (source n i).events = (source m i).events

section responses

variable {k : Nat} {m n l : Mod}

theorem EngineKeeps.trans (h : EngineKeeps k m n) (h' : EngineKeeps k n l) : EngineKeeps k m l := by
  refine ⟨h.toEntropyKeeps.trans h'.toEntropyKeeps, fun hs => ?_, h'.elapsed.trans h.elapsed⟩
  obtain ⟨hn, hu⟩ := h.units hs
  obtain ⟨hl, hu'⟩ := h'.units hn
  exact ⟨hl, fun u => (hu' u).trans (hu u)⟩

theorem EnginesApart.keeps (h : EnginesApart m n) : EngineKeeps k m n :=
  ⟨h.toEntropyKeeps, fun hs => ⟨by rwa [h.banks], fun u => by unfold bank; rw [h.banks]⟩, h.elapsed⟩

theorem EnginesApart.response (h : EnginesApart m n) : ResponseKeeps k m n := ⟨h.keeps, fun i => by unfold source; rw [h.sources]⟩

theorem EngineKeeps.setSource (m : Mod) (i : Nat) (x : Source) : EngineKeeps k m (setSource m i x) :=
  ⟨.of_eq rfl rfl, fun h => ⟨h, fun _ => rfl⟩, rfl⟩

namespace ResponseKeeps

theorem trans (h : ResponseKeeps k m n) (h' : ResponseKeeps k n l) : ResponseKeeps k m l :=
  ⟨h.toEngineKeeps.trans h'.toEngineKeeps, fun i => (h'.events i).trans (h.events i)⟩

/-- A response put in force counts no event. -/
theorem setSource {x : Source} {i : Nat} (h : x.events = (source m i).events) : ResponseKeeps k m (setSource m i x) := by
  refine ⟨.setSource .., fun j => ?_⟩
  by_cases hj : j = i
  · rw [hj, source_setSource_same, h]
  · rw [source_setSource_ne _ _ hj]

/-- A bank as a zeroize leaves it (R874). -/
def erasedBank (x : Bank) : Bank := { x with ballast := [], seeds := [], maskSeed := [] }

/-- A zeroize erases the seeds and ballast keys of the banks, not the states of their units. -/
theorem zeroize (m : Mod) (cause : Nat) : ResponseKeeps k m (zeroize m cause) := by
  have discards : EnginesApart m ([0, 1, 2, 3].foldl (fun m b => discardBasin m b 5) m) := .foldl _ (fun _ _ => .discardBasin _ _ (by decide)) _ _
  have sessions : EnginesApart m (endSessions (eraseAllKeys ([0, 1, 2, 3].foldl (fun m b => discardBasin m b 5) m)) 6 fun _ => true) :=
    (discards.trans (.eraseAllKeys _)).trans (.endSessions ..)
  unfold Machine.zeroize
  dsimp only
  generalize endSessions (eraseAllKeys ([0, 1, 2, 3].foldl (fun m b => discardBasin m b 5) m)) 6 (fun _ => true) = z at sessions ⊢
  have erased (y : Mod) : ResponseKeeps k y
      { eraseVault y with
        banks := tmap {} erasedBank (eraseVault y).banks
        tx := tmap {} (fun x => { x with throw := [] }) (eraseVault y).tx
        stow := tmap {} (fun x => { x with key := [], lines := [], minors := [], counters := [] }) (eraseVault y).stow
        sys := { (eraseVault y).sys with birthOk := false, zeroAt := some ((eraseVault y).sys.elapsed + 100 * msCycles, cause) } } := by
    refine ⟨⟨.of_eq rfl rfl, fun h => ⟨sole_tmap ({} : Bank) erasedBank h, fun u => unit_of_groups ?_ u⟩, rfl⟩, fun _ => rfl⟩
    exact (congrArg Bank.groups (tget_tmap_of_sole ({} : Bank) (f := erasedBank) rfl h)).trans rfl
  have noted : EnginesApart z (if z.tether.vault.svcState ≠ 0 then raise z 0xF013 srcModule 0 (b1 (cause - 1)) else z) := .ite (.raise ..) (.refl z)
  exact (sessions.trans noted).response.trans (erased _)

theorem retire (s : State) (cause : Nat) : ResponseKeeps k s.mod (retire s cause).mod := by
  have flagged (n : Mod) : EnginesApart n { n with sys := { n.sys with retired := true } } := .of_eq rfl rfl rfl rfl rfl
  exact (ResponseKeeps.zeroize s.mod 3).trans (EnginesApart.response ((flagged _).trans (.raise ..)))

/-- A source's response, of any rank (R870 to R875). -/
theorem respond (s : State) (i unit rank : Nat) : ResponseKeeps k s.mod (respond s i unit rank).mod := by
  unfold Machine.respond
  dsimp only
  generalize hm : Machine.setSource s.mod i _ = m
  have inForce : ResponseKeeps k s.mod m := hm ▸ .setSource rfl
  split
  · exact (EnginesApart.refl _).response
  · exact inForce
  · exact inForce.trans (EnginesApart.rethrottle ..).response
  · exact inForce.trans (EnginesApart.response
      (.ite (.quiesceRegion ..) (.trans (.foldl _ (fun _ _ => .discardBasin _ _ (by decide)) _ _) (.rethrottle ..))))
  · exact inForce.trans (.zeroize m 2)
  · exact inForce.trans (.retire (s.upd m) 0)

theorem respondOnCell (m : Mod) (i rank : Nat) : ResponseKeeps k m (respondOnCell m i rank) := by
  have tether (t : Tether) : EnginesApart m { m with tether := t } := .of_eq rfl rfl rfl rfl rfl
  exact EnginesApart.response (.ite (.refl m) (.ite (tether _) (tether _)))

end ResponseKeeps

/-- An event of a source counts for it, and what follows leaves the engines as they were. -/
theorem sourceEvent_keeps (s : State) (i unit code src bpid rank : Nat) (params : Nat → Octets) :
    EngineKeeps k s.mod (sourceEvent s i unit code src bpid rank params).mod ∧
      (source (sourceEvent s i unit code src bpid rank params).mod i).events = satAdd 32 (source s.mod i).events 1 := by
  have counted (t : Tether) (last : Nat) : EngineKeeps k s.mod (setSource { s.mod with tether := t } i
      { source s.mod i with events := satAdd 32 (source s.mod i).events 1, last := last }) :=
    ⟨.of_eq rfl rfl, fun h => ⟨h, fun _ => rfl⟩, rfl⟩
  have after {m n : Mod} (hm : EngineKeeps k s.mod m ∧ (source m i).events = satAdd 32 (source s.mod i).events 1) (h : ResponseKeeps k m n) :
      EngineKeeps k s.mod n ∧ (source n i).events = satAdd 32 (source s.mod i).events 1 :=
    ⟨hm.1.trans h.toEngineKeeps, (h.events i).trans hm.2⟩
  unfold sourceEvent
  dsimp only
  generalize (if (sourceRow i).2.1 = true then { s.mod.tether with tseq := (s.mod.tether.tseq + 1) % 2 ^ 32 } else s.mod.tether) = t
  generalize hm : setSource _ i _ = m2
  have hm2 : EngineKeeps k s.mod m2 ∧ (source m2 i).events = satAdd 32 (source s.mod i).events 1 :=
    hm ▸ ⟨counted .., by rw [source_setSource_same]; rfl⟩
  split
  · exact after hm2 (.respondOnCell ..)
  · exact after hm2 ((EnginesApart.raise ..).response.trans (.respond (s.upd _) i unit rank))

end responses

end Sys2Proof.Machine
end

