-- ==== Sys2Proof/Proofs/CipherUnits.lean ====
section
/-! PROOFS. The units of the crypto banks: how they leave service, what their blocks come to, and how they return or retire (R333 to R354, R367). -/

namespace Sys2Proof.Machine

variable {m n l : Mod} {s : State} {k : Nat} {u : CipherUnit}

/-! ### A bank rewritten with its units as they were -/

/-- The units of a bank are as they were, and so are the entropy sources, the sources of the tether and the clock. -/
structure UnitsKept (k : Nat) (m n : Mod) : Prop extends EntropyKeeps m n where
  groups : (bank n k).groups = (bank m k).groups
  sole : Sole m.banks k → Sole n.banks k
  sources : n.sources = m.sources
  elapsed : n.sys.elapsed = m.sys.elapsed

namespace UnitsKept

theorem refl (m : Mod) : UnitsKept k m m := ⟨.refl m, rfl, id, rfl, rfl⟩

theorem trans (h : UnitsKept k m n) (h' : UnitsKept k n l) : UnitsKept k m l :=
  ⟨h.toEntropyKeeps.trans h'.toEntropyKeeps, h'.groups.trans h.groups, fun hs => h'.sole (h.sole hs), h'.sources.trans h.sources,
    h'.elapsed.trans h.elapsed⟩

theorem of_apart (h : EnginesApart m n) : UnitsKept k m n :=
  ⟨h.toEntropyKeeps, by unfold bank; rw [h.banks], fun hs => by rwa [h.banks], h.sources, h.elapsed⟩

theorem setBank {b : Bank} (h : b.groups = (bank m k).groups) : UnitsKept k m (setBank m k b) :=
  ⟨.of_eq rfl rfl, by rw [bank_setBank_same, h], fun _ => sole_tset .., rfl, rfl⟩

theorem unit (h : UnitsKept k m n) (u : CipherUnit) : (bank n k).unit u = (bank m k).unit u := unit_of_groups h.groups u

theorem keeps (h : UnitsKept k m n) : EngineKeeps k m n := ⟨h.toEntropyKeeps, fun hs => ⟨h.sole hs, h.unit⟩, h.elapsed⟩

theorem source (h : UnitsKept k m n) (i : Nat) : source n i = source m i := by unfold Machine.source; rw [h.sources]

end UnitsKept

theorem unitEvent_apart (m : Mod) (k : Nat) (u : CipherUnit) (st cause : Nat) : EnginesApart m (unitEvent m k u st cause) := by
  cases u with
  | pipeline _ => exact .raise ..
  | maskedLane _ => exact .raise ..
  | ghashPair _ => exact .ite (.raise ..) (.refl m)

theorem promote_units (m : Mod) (k : Nat) (u : CipherUnit) : UnitsKept k m (promote m k u) := by
  unfold promote
  dsimp only
  split
  · exact .refl m
  · split
    · exact .refl m
    · split
      · exact .setBank (Bank.setSpare_groups ..)
      · exact (UnitsKept.setBank (by rw [Bank.setFrom_groups, Bank.setSpare_groups])).trans (.of_apart (unitEvent_apart ..))

theorem promote_flight (m : Mod) (k : Nat) (u : CipherUnit) : (bank (promote m k u) k).flight = (bank m k).flight := by
  have event (n : Mod) (v : CipherUnit) (st cause : Nat) : bank (unitEvent n k v st cause) k = bank n k := by
    unfold bank; rw [(unitEvent_apart n k v st cause).banks]
  unfold promote
  dsimp only
  split
  · rfl
  · split
    · rfl
    · split
      · rw [bank_setBank_same, Bank.setSpare_flight]
      · rw [event, bank_setBank_same, Bank.setFrom_flight, Bank.setSpare_flight]

/-- Frames discarded with a block beyond repair (R351) change no unit. -/
theorem failFrame_units (m : Mod) (k serial : Nat) : UnitsKept k m (failFrame m k serial) := by
  unfold failFrame
  dsimp only
  split
  · exact .refl m
  · generalize hm : ({ m with arbs := _, tx := _ } : Mod) = m1
    have removed : EnginesApart m m1 := hm ▸ .of_eq rfl rfl rfl rfl rfl
    have marked : UnitsKept k m1 (setBank m1 k { bank m1 k with spoiled := (bank m1 k).spoiled ++ [serial] }) := .setBank rfl
    exact ((UnitsKept.of_apart removed).trans marked).trans (.of_apart (.countDiscards _ _ (by decide)))

theorem spoil_units (m : Mod) (k serial diff : Nat) : UnitsKept k m (spoil m k serial diff) :=
  (UnitsKept.setBank (b := { bank m k with spoiled := (bank m k).spoiled ++ [serial] }) rfl).trans (.of_apart (.of_eq rfl rfl rfl rfl rfl))

theorem spoil_spoiled (m : Mod) (k serial diff : Nat) : serial ∈ (bank (spoil m k serial diff) k).spoiled := by
  change serial ∈ (bank (setBank m k _) k).spoiled
  rw [bank_setBank_same]
  exact List.mem_append_right _ (List.mem_singleton_self serial)

theorem startReplays_groups (b : Bank) (u : CipherUnit) (e : Exit) (spare t : Nat) : (startReplays b u e spare t).1.groups = b.groups := by
  cases u <;> rfl

/-- A fault beyond repair counts for source 12 (R350, R351). -/
theorem beyondRepair_keeps (s : State) (k cause : Nat) :
    EngineKeeps k s.mod (beyondRepair s k cause).mod ∧ (source (beyondRepair s k cause).mod 12).events = satAdd 32 (source s.mod 12).events 1 :=
  sourceEvent_keeps ..

/-- The frame of a block beyond repair is discarded, and the fault counts. -/
theorem lostBeyondRepair (s : State) (m : Mod) (k serial cause : Nat) :
    EngineKeeps k m (beyondRepair (s.upd (failFrame m k serial)) k cause).mod ∧
      (source (beyondRepair (s.upd (failFrame m k serial)) k cause).mod 12).events = satAdd 32 (source m 12).events 1 := by
  obtain ⟨hkeeps, hevents⟩ := beyondRepair_keeps (s.upd (failFrame m k serial)) k cause
  have lost := failFrame_units m k serial
  exact ⟨lost.keeps.trans hkeeps, by rw [hevents, State.upd_mod, lost.source]⟩

theorem inf_advance_engine (m : Mod) (d : Nat) {i c : Nat} (e : Nat) (hc : c < 256) (h : c ≠ 7 ∧ c ≠ 8) :
    inf (advance m d) i c e = inf m i c e :=
  congrArg Val.toNat (look_advance_ne m d hc fun x => by omega)

/-! ### A unit that leaves service -/

/-- A unit has left service with its fault counted (R342, R345). -/
structure LeftService (k : Nat) (u : CipherUnit) (m n : Mod) : Prop where
  st : ((bank n k).unit u).st = 1
  faults : ((bank n k).unit u).faults = min 3 (((bank m k).unit u).faults + 1)
  leftAt : ((bank n k).unit u).leftAt = m.sys.elapsed

theorem LeftService.congr (h : LeftService k u m n) (hu : (bank l k).unit u = (bank n k).unit u) : LeftService k u m l :=
  ⟨by rw [hu, h.st], by rw [hu, h.faults], by rw [hu, h.leftAt]⟩

/-- What follows a fault keeps the unit out of service. -/
theorem LeftService.after (h : LeftService k u m n) (hs : Sole n.banks k) (h' : EngineKeeps k n l) : LeftService k u m l :=
  h.congr ((h'.units hs).2 u)

theorem takeOut_left (m : Mod) (k : Nat) (u : CipherUnit) : LeftService k u m (takeOut m k u) := by
  have unit : (bank (takeOut m k u) k).unit u =
      { (bank m k).unit u with st := 1, faults := min 3 (((bank m k).unit u).faults + 1), leftAt := m.sys.elapsed } := by
    unfold takeOut
    rw [(promote_units ..).unit, bank_setBank_same, Bank.unit_setUnit_same]
  exact ⟨by rw [unit], by rw [unit], by rw [unit]⟩

theorem takeOut_sole (m : Mod) (k : Nat) (u : CipherUnit) : Sole (takeOut m k u).banks k := (promote_units ..).sole (sole_tset ..)

theorem takeOut_sources (m : Mod) (k : Nat) (u : CipherUnit) : (takeOut m k u).sources = m.sources := (promote_units ..).sources

theorem takeOut_entropy (m : Mod) (k : Nat) (u : CipherUnit) : EntropyKeeps m (takeOut m k u) :=
  EntropyKeeps.trans (n := setBank m k _) (.of_eq rfl rfl) (promote_units _ k u).toEntropyKeeps

theorem takeOut_flight (m : Mod) (k : Nat) (u : CipherUnit) : (bank (takeOut m k u) k).flight = (bank m k).flight := by
  unfold takeOut
  rw [promote_flight, bank_setBank_same, Bank.setUnit_flight]

/-! ### A flagged block -/

/-- The fault noted in the unit's record (R367, R385). -/
def faultRecorded (m : Mod) (k : Nat) (u : CipherUnit) (e : Exit) (stage : Nat) (inKey : Bool) : Mod :=
  setBank m k ((bank m k).setUnit u
    { (bank m k).unit u with last := stage * 256 + b01 inKey * 4 + b01 (!e.frame) * 2 + 1, lastTime := nowH m (k / 4) })

/-- The fault noted and reported (R342, R345). -/
def faultNoted (m : Mod) (k : Nat) (u : CipherUnit) (e : Exit) (stage : Nat) (inKey : Bool) : Mod :=
  match u with
  | .pipeline n => raise (faultRecorded m k u e stage inKey) 0x4030 (srcH (k / 4)) 0
      (b1 (k / 2) ++ b1 (k % 2) ++ b1 n.val ++ b1 stage ++ b1 (b01 inKey) ++ b1 (b01 (!e.frame)))
  | _ => unitEvent (faultRecorded m k u e stage inKey) k u 2 0

/-- The flagged unit stopped. -/
def stopped (m : Mod) (k : Nat) (u : CipherUnit) (e : Exit) (stage : Nat) (inKey : Bool) : Mod := takeOut (faultNoted m k u e stage inKey) k u

section flagged

variable {e : Exit} {stage : Nat} {inKey : Bool}

theorem faultNoted_apart (m : Mod) (k : Nat) (u : CipherUnit) (e : Exit) (stage : Nat) (inKey : Bool) :
    EnginesApart (faultRecorded m k u e stage inKey) (faultNoted m k u e stage inKey) := by
  cases u with
  | pipeline _ => exact .raise ..
  | maskedLane i => exact unitEvent_apart (faultRecorded m k (.maskedLane i) e stage inKey) k (.maskedLane i) 2 0
  | ghashPair i => exact unitEvent_apart (faultRecorded m k (.ghashPair i) e stage inKey) k (.ghashPair i) 2 0

theorem bank_faultNoted (m : Mod) (k : Nat) (u : CipherUnit) (e : Exit) (stage : Nat) (inKey : Bool) :
    bank (faultNoted m k u e stage inKey) k = (bank m k).setUnit u
      { (bank m k).unit u with last := stage * 256 + b01 inKey * 4 + b01 (!e.frame) * 2 + 1, lastTime := nowH m (k / 4) } := by
  unfold bank
  rw [(faultNoted_apart ..).banks]
  exact bank_setBank_same ..

theorem stopped_left (m : Mod) (k : Nat) (u : CipherUnit) (e : Exit) (stage : Nat) (inKey : Bool) :
    LeftService k u m (stopped m k u e stage inKey) := by
  have left := takeOut_left (faultNoted m k u e stage inKey) k u
  exact ⟨left.st, left.faults.trans (by rw [bank_faultNoted, Bank.unit_setUnit_same]), left.leftAt.trans (faultNoted_apart ..).elapsed⟩

theorem stopped_sources (m : Mod) (k : Nat) (u : CipherUnit) (e : Exit) (stage : Nat) (inKey : Bool) :
    (stopped m k u e stage inKey).sources = m.sources := (takeOut_sources ..).trans (faultNoted_apart ..).sources

theorem stopped_source (m : Mod) (k : Nat) (u : CipherUnit) (e : Exit) (stage : Nat) (inKey : Bool) (i : Nat) :
    source (stopped m k u e stage inKey) i = source m i := by unfold source; rw [stopped_sources]

theorem stopped_entropy (m : Mod) (k : Nat) (u : CipherUnit) (e : Exit) (stage : Nat) (inKey : Bool) :
    EntropyKeeps m (stopped m k u e stage inKey) :=
  EntropyKeeps.trans (n := faultRecorded m k u e stage inKey) (.of_eq rfl rfl)
    ((faultNoted_apart m k u e stage inKey).toEntropyKeeps.trans (takeOut_entropy _ k u))

theorem stopped_flight (m : Mod) (k : Nat) (u : CipherUnit) (e : Exit) (stage : Nat) (inKey : Bool) :
    (bank (stopped m k u e stage inKey) k).flight = (bank m k).flight := by
  rw [stopped, takeOut_flight, bank_faultNoted, Bank.setUnit_flight]

/-- A flagged replay cannot be replayed again (R349, R350). -/
theorem flagged_of_replay (hr : e.replay = true) :
    flagged s k u e stage inKey = beyondRepair (s.upd (failFrame (stopped s.mod k u e stage inKey) k e.blk.serial)) k 0 := by
  unfold flagged
  dsimp only
  rw [if_pos hr]
  cases u <;> rfl

/-- A unit that carries nothing of frames stops without more (R346). -/
theorem flagged_of_empty (hr : e.replay = false) (hc : (bank s.mod k).carries u e s.mod.sys.elapsed = false) :
    flagged s k u e stage inKey = s.upd (stopped s.mod k u e stage inKey) := by
  unfold flagged
  dsimp only
  rw [if_neg (by simp [hr]), if_pos (by simp [hc])]
  cases u <;> rfl

/-- What it carries is replayed on the spare (R342, R347). -/
theorem flagged_of_spare {i : Nat} (hr : e.replay = false) (hc : (bank s.mod k).carries u e s.mod.sys.elapsed = true)
    (hi : (bank s.mod k).spareOf u = some i) (hready : (bank s.mod k).spareReady u i s.mod.sys.elapsed = true) :
    flagged s k u e stage inKey = s.upd (bump (setBank (stopped s.mod k u e stage inKey) k
      (startReplays (bank (stopped s.mod k u e stage inKey) k) u e i s.mod.sys.elapsed).1) 0x4200 9 k
      (startReplays (bank (stopped s.mod k u e stage inKey) k) u e i s.mod.sys.elapsed).2) := by
  unfold flagged
  dsimp only
  rw [if_neg (by simp [hr]), if_neg (by simp [hc]), hi]
  dsimp only
  rw [if_neg (by simp [hready])]
  cases u <;> rfl

/-- With no spare ready for it, it is beyond repair (R350). -/
theorem flagged_of_no_spare (hr : e.replay = false) (hc : (bank s.mod k).carries u e s.mod.sys.elapsed = true)
    (hi : ∀ i, (bank s.mod k).spareOf u = some i → (bank s.mod k).spareReady u i s.mod.sys.elapsed = false) :
    flagged s k u e stage inKey = beyondRepair (s.upd (failFrame (stopped s.mod k u e stage inKey) k e.blk.serial)) k 1 := by
  unfold flagged
  dsimp only
  rw [if_neg (by simp [hr]), if_neg (by simp [hc])]
  cases hspare : (bank s.mod k).spareOf u with
  | none => cases u <;> rfl
  | some i =>
    dsimp only
    rw [if_pos (by simp [hi i hspare])]
    cases u <;> rfl

/-- The spare of the unit can take its replays, or it cannot. -/
theorem spare_cases (b : Bank) (u : CipherUnit) (t : Nat) :
    (∃ i, b.spareOf u = some i ∧ b.spareReady u i t = true) ∨ ∀ i, b.spareOf u = some i → b.spareReady u i t = false := by
  by_cases h : ∃ i, b.spareOf u = some i ∧ b.spareReady u i t = true
  · exact .inl h
  · exact .inr fun i hi => by
      rw [← Bool.not_eq_true]
      exact fun hready => h ⟨i, hi, hready⟩

theorem flagged_left (s : State) (k : Nat) (u : CipherUnit) (e : Exit) (stage : Nat) (inKey : Bool) :
    LeftService k u s.mod (flagged s k u e stage inKey).mod := by
  have left := stopped_left s.mod k u e stage inKey
  have sole : Sole (stopped s.mod k u e stage inKey).banks k := takeOut_sole ..
  by_cases hr : e.replay = true
  · rw [flagged_of_replay hr]
    exact left.after sole (lostBeyondRepair ..).1
  rw [Bool.not_eq_true] at hr
  by_cases hc : (bank s.mod k).carries u e s.mod.sys.elapsed = true
  · obtain ⟨i, hi, hready⟩ | hnone := spare_cases (bank s.mod k) u s.mod.sys.elapsed
    · rw [flagged_of_spare hr hc hi hready]
      refine left.congr ?_
      rw [State.upd_mod, bank_bump, bank_setBank_same, unit_of_groups (startReplays_groups ..)]
    · rw [flagged_of_no_spare hr hc hnone]
      exact left.after sole (lostBeyondRepair ..).1
  · rw [flagged_of_empty hr (by simpa using hc)]
    exact left

/-- A block beyond repair counts for source 12. -/
theorem lost_events (s : State) (k : Nat) (u : CipherUnit) (e : Exit) (stage : Nat) (inKey : Bool) (cause : Nat) :
    (source (beyondRepair (s.upd (failFrame (stopped s.mod k u e stage inKey) k e.blk.serial)) k cause).mod 12).events =
      satAdd 32 (source s.mod 12).events 1 := by
  rw [(lostBeyondRepair ..).2, stopped_source]

/-- How many blocks are replayed: of a masked lane its one block, of a pipeline those of frames (R342, R367). -/
def replayCount (b : Bank) (t : Nat) : CipherUnit → Nat
  | .maskedLane _ => 1
  | u => (b.toReplay (unitNum u) t).length

theorem startReplays_count (b : Bank) (u : CipherUnit) (e : Exit) (spare t : Nat) : (startReplays b u e spare t).2 = replayCount b t u := by
  cases u <;> rfl

theorem replayCount_stopped (m : Mod) (k : Nat) (u : CipherUnit) (e : Exit) (stage : Nat) (inKey : Bool) (t : Nat) :
    replayCount (bank (stopped m k u e stage inKey) k) t u = replayCount (bank m k) t u := by
  cases u <;> simp only [replayCount, Bank.toReplay, stopped_flight]

end flagged

/-! ### A fault that strikes a unit -/

theorem pipelineFault_of_verdict {x : Upset} {e : Exit} {out : Nat} {flag : Option (Nat × Bool)} (hr : s.mod.sys.running = true)
    (hst : ((bank s.mod k).unit u).st = 0) (hv : verdict s.mod k u x = some (e, out, flag)) : pipelineFault s k u x = judged s k u e out flag := by
  simp [pipelineFault, hr, hst, hv]

/-- A block with no flag leaves its unit in service and counts for no source. -/
theorem judged_unflagged_units (s : State) (k : Nat) (u : CipherUnit) (e : Exit) (out : Nat) :
    UnitsKept k (advanceTo s.mod e.at_) (judged s k u e out none).mod := by
  unfold judged
  dsimp only
  split
  · exact .refl _
  · exact spoil_units ..

theorem judged_unflagged_spoils {e : Exit} {out : Nat} (hserial : e.blk.serial ≠ 0) (hout : out ≠ cleanBlock e.blk.key e.blk.counter e.blk.data) :
    e.blk.serial ∈ (bank (judged s k u e out none).mod k).spoiled := by
  unfold judged
  dsimp only
  rw [if_neg (by simpa [hserial, Nat.xor_eq_zero_iff] using hout)]
  exact spoil_spoiled ..

/-! ### Retirement -/

/-- A unit that retires is retired with its cause (R345, R379), whatever its bank then covers. -/
theorem retireUnit_keeps (s : State) (k : Nat) (u : CipherUnit) (cause : Nat) :
    EngineKeeps k (setBank s.mod k ((bank s.mod k).setUnit u { (bank s.mod k).unit u with st := 3, cause })) (retireUnit s k u cause).mod := by
  have spareless (n : Mod) (v : CipherUnit) : UnitsKept k n (unitEvent (setBank n k { bank n k with spare := none }) k v 0 0) :=
    UnitsKept.trans (n := setBank n k _) (.setBank (b := { bank n k with spare := none }) rfl) (.of_apart (unitEvent_apart _ k v 0 0))
  unfold retireUnit
  dsimp only
  generalize setBank s.mod k _ = r
  have retired : UnitsKept k r (promote (unitEvent r k u 3 cause) k u) :=
    (UnitsKept.of_apart (unitEvent_apart r k u 3 cause)).trans (promote_units _ k u)
  generalize promote (unitEvent r k u 3 cause) k u = p at retired ⊢
  split
  · split
    · exact retired.keeps.trans (beyondRepair_keeps (s.upd p) k 4).1
    · split
      · refine (retired.trans (UnitsKept.trans ?_ (.of_apart (.raise ..)))).keeps
        split
        · exact spareless p _
        · exact .refl p
      · exact retired.keeps
  · exact retired.keeps

theorem retireUnit_unit (s : State) (k : Nat) (u : CipherUnit) (cause : Nat) :
    (bank (retireUnit s k u cause).mod k).unit u = { (bank s.mod k).unit u with st := 3, cause } := by
  rw [((retireUnit_keeps s k u cause).units (sole_tset ..)).2, bank_setBank_same, Bank.unit_setUnit_same]

/-! ### Quarantine -/

/-- The cycles that a unit takes to empty: its own depth (R344). -/
def unitDepth : CipherUnit → Nat
  | .ghashPair _ => 1
  | _ => 16

theorem bank_unitEvent (m : Mod) (k : Nat) (u : CipherUnit) (st cause j : Nat) : bank (unitEvent m k u st cause) j = bank m j := by
  unfold bank; rw [(unitEvent_apart ..).banks]

theorem unitDrained_retires (hst : ((bank s.mod k).unit u).st = 1) (hf : 3 ≤ ((bank s.mod k).unit u).faults) :
    unitDrained s k u = retireUnit (s.upd (advanceTo s.mod (((bank s.mod k).unit u).leftAt + unitDepth u))) k u 3 := by
  unfold unitDrained
  dsimp only
  rw [if_neg (by simp [hst]), if_pos hf]
  cases u <;> rfl

theorem unitDrained_tests (hst : ((bank s.mod k).unit u).st = 1) (hf : ((bank s.mod k).unit u).faults < 3) :
    ((bank (unitDrained s k u).mod k).unit u).st = 2 := by
  unfold unitDrained
  dsimp only
  rw [if_neg (by simp [hst]), if_neg (by omega), State.upd_mod, bank_unitEvent, bank_setBank_same, Bank.unit_setUnit_same]

/-- The unit is empty no sooner than after its depth. -/
theorem unitDrained_elapsed (hst : ((bank s.mod k).unit u).st = 1) :
    ((bank s.mod k).unit u).leftAt + unitDepth u ≤ (unitDrained s k u).mod.sys.elapsed := by
  have late : ((bank s.mod k).unit u).leftAt + unitDepth u ≤ (advanceTo s.mod (((bank s.mod k).unit u).leftAt + unitDepth u)).sys.elapsed := by
    rw [advanceTo_elapsed]; omega
  by_cases hf : 3 ≤ ((bank s.mod k).unit u).faults
  · rw [unitDrained_retires hst hf, (retireUnit_keeps ..).elapsed]
    exact late
  · unfold unitDrained
    dsimp only
    rw [if_neg (by simp [hst]), if_neg hf, State.upd_mod, (unitEvent_apart ..).elapsed]
    cases u <;> exact late

theorem quarantineEnd_failed (hst : ((bank s.mod k).unit u).st = 2) : quarantineEnd s k u false = retireUnit s k u 2 := by
  simp [quarantineEnd, hst]

/-- The bank with a unit back in service, as the spare where its group has none (R344, R354). -/
def restored (b : Bank) (u : CipherUnit) : Bank :=
  if (b.spareOf u).isNone then (b.setUnit u { b.unit u with st := 0 }).setSpare u (some (unitNum u)) else b.setUnit u { b.unit u with st := 0 }

theorem quarantineEnd_passed (hst : ((bank s.mod k).unit u).st = 2) : bank (quarantineEnd s k u true).mod k = restored (bank s.mod k) u := by
  unfold quarantineEnd
  dsimp only
  rw [if_neg (by simp [hst]), if_neg (by simp), State.upd_mod, bank_unitEvent, bank_setBank_same]
  rfl

theorem restored_st (b : Bank) (u : CipherUnit) : ((restored b u).unit u).st = 0 := by
  unfold restored
  split
  · rw [unit_of_groups (Bank.setSpare_groups ..), Bank.unit_setUnit_same]
  · rw [Bank.unit_setUnit_same]

theorem restored_spare {b : Bank} (h : b.spareOf u = none) (hu : ∀ n, u ≠ .ghashPair n) : (restored b u).spareOf u = some (unitNum u) := by
  unfold restored
  rw [if_pos (by simp [h])]
  cases u with
  | pipeline _ => rfl
  | maskedLane _ => rfl
  | ghashPair i => exact absurd rfl (hu i)

/-! ### Known answers -/

theorem answerDue_unit (m : Mod) (k : Nat) (u v : CipherUnit) : (bank (answerDue m k u) k).unit v = (bank m k).unit v := by
  unfold answerDue
  split
  · exact unit_advance ..
  · rfl

theorem takeAnswer_unit (m : Mod) (k : Nat) (u v : CipherUnit) : (bank (takeAnswer m k u) k).unit v = (bank m k).unit v := by
  have answered (t : Tbl Nat) : (bank (setBank m k { bank m k with answered := t }) k).groups = (bank m k).groups := by rw [bank_setBank_same]; rfl
  refine unit_of_groups ?_ v
  cases u with
  | pipeline _ => exact answered _
  | maskedLane _ =>
    change (bank (engineTakes (setBank m k { bank m k with answered := _ }) k _ _ _) k).groups = _
    unfold engineTakes
    dsimp only
    rw [bank_bump, bank_setBank_same]
    exact answered _
  | ghashPair _ => exact answered _

theorem knownAnswer_flagged {x : Upset} {out stage : Nat} {inKey : Bool} (hr : s.mod.sys.running = true) (hst : ((bank s.mod k).unit u).st = 0)
    (ha : answerOf (answerDue s.mod k u) k u x = (out, some (stage, inKey))) : ((bank (knownAnswer s k u x).mod k).unit u).st = 1 := by
  simp only [knownAnswer, hr, hst, ha, Bool.not_true, bne_self_eq_false, Bool.or_self, Bool.false_eq_true, if_false]
  exact (flagged_left ..).st

theorem knownAnswer_right {x : Upset} (hr : s.mod.sys.running = true) (hst : ((bank s.mod k).unit u).st = 0)
    (ha : answerOf (answerDue s.mod k u) k u x = (knownResult, none)) : (bank (knownAnswer s k u x).mod k).unit u = (bank s.mod k).unit u := by
  simp only [knownAnswer, hr, hst, ha, Bool.not_true, bne_self_eq_false, Bool.or_self, Bool.false_eq_true, if_false, if_true]
  rw [State.upd_mod, takeAnswer_unit, answerDue_unit]

/-- A wrong answer with no flag retires the unit at once (R339). -/
theorem knownAnswer_wrong {x : Upset} {out : Nat} (hr : s.mod.sys.running = true) (hst : ((bank s.mod k).unit u).st = 0)
    (ha : answerOf (answerDue s.mod k u) k u x = (out, none)) (hout : out ≠ knownResult) :
    ((bank (knownAnswer s k u x).mod k).unit u).st = 3 ∧ ((bank (knownAnswer s k u x).mod k).unit u).cause = 4 := by
  simp only [knownAnswer, hr, hst, ha, hout, Bool.not_true, bne_self_eq_false, Bool.or_self, Bool.false_eq_true, if_false]
  rw [retireUnit_unit]
  exact ⟨rfl, rfl⟩

/-! ### GHASH pairs -/

/-- Two products agree exactly when the fault flips no bit of one (R333). -/
theorem pairHolds_iff (m : Mod) (k n flips : Nat) : pairHolds m k n flips = true ↔ flips % 2 ^ 128 = 0 := by
  unfold pairHolds
  generalize (pairStep m k n).getD (ballastOperands m k n) = p
  obtain ⟨a, b⟩ := p
  change ((ghashMul a b == ghashMul a b ^^^ flips % 2 ^ 128) = true) ↔ _
  rw [beq_iff_eq, ← Nat.xor_eq_zero_iff, ← Nat.xor_assoc, Nat.xor_self, Nat.zero_xor]

section pairs

variable {i : Fin 18}

theorem pairLeaves_left (m : Mod) (k : Nat) (i : Fin 18) : LeftService k (.ghashPair i) m (pairLeaves m k i) :=
  (takeOut_left m k (.ghashPair i)).congr rfl
theorem pairLeaves_sole (m : Mod) (k : Nat) (i : Fin 18) : Sole (pairLeaves m k i).banks k := takeOut_sole ..
theorem pairLeaves_source (m : Mod) (k : Nat) (i : Fin 18) (j : Nat) : source (pairLeaves m k i) j = source m j :=
  congrArg (tget ({} : Source) · j) (takeOut_sources m k (.ghashPair i))
theorem pairLeaves_entropy (m : Mod) (k : Nat) (i : Fin 18) : EntropyKeeps m (pairLeaves m k i) :=
  (takeOut_entropy m k (.ghashPair i)).trans (EnginesApart.raise ..).toEntropyKeeps

theorem bank_pairLeaves (m : Mod) (k : Nat) (i : Fin 18) :
    ∃ x, x.st = 1 ∧ bank (pairLeaves m k i) k = { bank m k with pairs := tset {} (bank m k).pairs i.val x } :=
  ⟨_, rfl, bank_setBank_same ..⟩

/-- A pair that leaves service leaves the others as they were. -/
theorem pairLeaves_unit_ne (m : Mod) (k : Nat) {i j : Fin 18} (h : i ≠ j) :
    (bank (pairLeaves m k j) k).unit (.ghashPair i) = (bank m k).unit (.ghashPair i) := by
  obtain ⟨x, -, hb⟩ := bank_pairLeaves m k j
  rw [hb]
  exact tget_tset_ne _ _ _ (Fin.val_ne_of_ne h)

theorem mem_serving_pairs (b : Bank) (i : Fin 18) (j : Nat) :
    j ∈ b.serving (.ghashPair i) ↔ j ∈ (if i.val < 16 then List.range 16 else [16, 17]) ∧ (tget ({} : CUnit) b.pairs j).st = 0 := by
  rw [Bank.serving, List.mem_filter, beq_iff_eq]

theorem lt_of_mem_serving {b : Bank} {j : Nat} (h : j ∈ b.serving (.ghashPair i)) : j < 18 := by
  have hj := ((mem_serving_pairs b i j).mp h).1
  split at hj <;> simp at hj <;> omega

theorem mem_serving_pairLeaves (m : Mod) (k : Nat) (i : Fin 18) (j : Nat) :
    j ∈ (bank (pairLeaves m k i) k).serving (.ghashPair i) ↔ j ∈ (bank m k).serving (.ghashPair i) ∧ j ≠ i.val := by
  obtain ⟨x, hx, hb⟩ := bank_pairLeaves m k i
  rw [mem_serving_pairs, mem_serving_pairs, hb]
  dsimp only
  by_cases hj : j = i.val
  · rw [hj, tget_tset_same, hx]
    simp
  · rw [tget_tset_ne _ _ _ hj]
    simp [hj]

theorem freePair_eq_none (m : Mod) (k : Nat) (i : Fin 18) (h : ∀ j ∈ (bank m k).serving (.ghashPair i), j = i.val) :
    freePair ((bank (pairLeaves m k i) k).serving (.ghashPair i)) = none := by
  refine List.getLast?_eq_none_iff.mpr (List.eq_nil_iff_forall_not_mem.mpr fun j hj => ?_)
  obtain ⟨hmem, hne⟩ := (mem_serving_pairLeaves m k i j).mp hj
  exact hne (h j hmem)

theorem freePair_eq_some (m : Mod) (k : Nat) (i : Fin 18) (h : ∃ j ∈ (bank m k).serving (.ghashPair i), j ≠ i.val) :
    ∃ j, freePair ((bank (pairLeaves m k i) k).serving (.ghashPair i)) = some j ∧ i ≠ Fin.ofNat 18 j := by
  obtain ⟨j, hmem, hne⟩ := h
  have mem := mem_serving_pairLeaves m k i
  generalize (bank (pairLeaves m k i) k).serving (.ghashPair i) = l at mem ⊢
  have nonempty : l ≠ [] := List.ne_nil_of_mem ((mem j).mpr ⟨hmem, hne⟩)
  refine ⟨l.getLast nonempty, List.getLast?_eq_getLast_of_ne_nil nonempty, fun he => ?_⟩
  obtain ⟨hlast, hl⟩ := (mem _).mp (List.getLast_mem nonempty)
  have hval := congrArg Fin.val he
  rw [Fin.val_ofNat, Nat.mod_eq_of_lt (lt_of_mem_serving hlast)] at hval
  exact hl hval.symm

variable {flips again : Nat}

/-- A pair that holds, with no bit flipped, changes nothing. -/
theorem ghashMismatch_holds (hf : flips % 2 ^ 128 = 0) : ghashMismatch s k i flips again = s := by
  simp [ghashMismatch, (pairHolds_iff ..).mpr hf]

/-- Ballast products are only discarded (R335). -/
theorem ghashMismatch_ballast (hr : s.mod.sys.running = true) (hst : ((bank s.mod k).unit (.ghashPair i)).st = 0) (hf : flips % 2 ^ 128 ≠ 0)
    (hstep : pairStep s.mod k i.val = none) : ghashMismatch s k i flips again = s.upd (pairLeaves s.mod k i) := by
  have hold : pairHolds s.mod k i.val flips = false := by rwa [← Bool.not_eq_true, pairHolds_iff]
  simp [ghashMismatch, hr, hst, hold, hstep]

/-- A step that no pair is left for is beyond repair (log 53). -/
theorem ghashMismatch_lost {p : Nat × Nat} (hr : s.mod.sys.running = true) (hst : ((bank s.mod k).unit (.ghashPair i)).st = 0)
    (hf : flips % 2 ^ 128 ≠ 0) (hstep : pairStep s.mod k i.val = some p)
    (hfree : freePair ((bank (pairLeaves s.mod k i) k).serving (.ghashPair i)) = none) :
    ghashMismatch s k i flips again = beyondRepair (s.upd (failFrame (pairLeaves s.mod k i) k (stepSerial s.mod k i.val))) k 2 := by
  have hold : pairHolds s.mod k i.val flips = false := by rwa [← Bool.not_eq_true, pairHolds_iff]
  simp [ghashMismatch, hr, hst, hold, hstep, hfree]

/-- The module after a step has been repeated on the free pair (R340, R349). -/
def repeated (m : Mod) (k : Nat) (i : Fin 18) : Mod := bump (advance (pairLeaves m k i) 1) 0x4200 0x0A k 1

theorem ghashMismatch_repeated {p : Nat × Nat} {j : Nat} (hr : s.mod.sys.running = true) (hst : ((bank s.mod k).unit (.ghashPair i)).st = 0)
    (hf : flips % 2 ^ 128 ≠ 0) (hstep : pairStep s.mod k i.val = some p)
    (hfree : freePair ((bank (pairLeaves s.mod k i) k).serving (.ghashPair i)) = some j) :
    ghashMismatch s k i flips again = if again % 2 ^ 128 = 0 then s.upd (repeated s.mod k i)
      else beyondRepair (s.upd (failFrame (pairLeaves (repeated s.mod k i) k (Fin.ofNat 18 j)) k (stepSerial s.mod k i.val))) k 2 := by
  have hold : pairHolds s.mod k i.val flips = false := by rwa [← Bool.not_eq_true, pairHolds_iff]
  simp [ghashMismatch, repeated, hr, hst, hold, hstep, hfree]

theorem repeated_left (m : Mod) (k : Nat) (i : Fin 18) : LeftService k (.ghashPair i) m (repeated m k i) :=
  (pairLeaves_left m k i).congr (by rw [repeated, bank_bump, unit_advance])

theorem repeated_counts (m : Mod) (k : Nat) (i : Fin 18) : Counts m (repeated m k i) 0x4200 0x0A k 1 :=
  .of_bump _ rfl (by decide) ((inf_advance_engine _ 1 k (by decide) (by decide)).trans ((pairLeaves_entropy m k i).inf _ _ _ (by decide) (.inl rfl)))

theorem repeated_source (m : Mod) (k : Nat) (i : Fin 18) (j : Nat) : source (repeated m k i) j = source m j := by
  unfold source repeated
  rw [bump_sources, advance_sources]
  exact pairLeaves_source m k i j

end pairs

/-! ### The commands -/

/-- A well-formed command carries out its effect while the harbours are out of reset (R969). -/
theorem run_whileOn_state {c : Instr} {s : State} (name : String) (f : State → State) (hw : c.wf = true) (hr : s.mod.sys.running = true) :
    run name c s (whileOn f) = .next (finish (f s)) := by
  rw [run_wf name c s _ hw, whileOn, if_pos hr]

section commands

variable {b : Fin 4} {tx : Bool} {stage : Fin 16} {second : Bool} {flips kf nf : Nat}

theorem exec_pipelineFault (hw : (Instr.pipelineFault b tx u stage second flips kf nf).wf = true) (hr : s.mod.sys.running = true) :
    exec (.pipelineFault b tx u stage second flips kf nf) s =
      .next (finish (pipelineFault s (bankOf b tx) u (upsetOf stage second flips kf nf))) :=
  run_whileOn_state (c := .pipelineFault b tx u stage second flips kf nf) "PIPELINE_FAULT" (fun s => pipelineFault s _ u _) hw hr

theorem exec_ghashMismatch {i : Fin 18} {again : Nat} (hw : (Instr.ghashMismatch b tx i flips again).wf = true) (hr : s.mod.sys.running = true) :
    exec (.ghashMismatch b tx i flips again) s = .next (finish (ghashMismatch s (bankOf b tx) i flips again)) :=
  run_whileOn_state (c := .ghashMismatch b tx i flips again) "GHASH_MISMATCH" (fun s => ghashMismatch s _ i flips again) hw hr

theorem exec_pipelineDrained (hr : s.mod.sys.running = true) :
    exec (.pipelineDrained b tx u) s = .next (finish (unitDrained s (bankOf b tx) u)) :=
  run_whileOn_state (c := .pipelineDrained b tx u) "PIPELINE_DRAINED" (fun s => unitDrained s _ u) rfl hr

theorem exec_quarantineTestEnd {passed : Bool} (hr : s.mod.sys.running = true) :
    exec (.quarantineTestEnd b tx u passed) s = .next (finish (quarantineEnd s (bankOf b tx) u passed)) :=
  run_whileOn_state (c := .quarantineTestEnd b tx u passed) "QUARANTINE_TEST_END" (fun s => quarantineEnd s _ u passed) rfl hr

theorem exec_knownAnswerTest (hw : (Instr.knownAnswerTest b tx u stage second flips kf nf).wf = true) (hr : s.mod.sys.running = true) :
    exec (.knownAnswerTest b tx u stage second flips kf nf) s =
      .next (finish (knownAnswer s (bankOf b tx) u (upsetOf stage second flips kf nf))) :=
  run_whileOn_state (c := .knownAnswerTest b tx u stage second flips kf nf) "KNOWN_ANSWER_TEST" (fun s => knownAnswer s _ u _) hw hr

theorem exec_keyStoreError {double : Bool} (hr : s.mod.sys.running = true) :
    exec (.keyStoreError b tx double) s = .next (finish (keyStoreError s (bankOf b tx) double)) :=
  run_whileOn_state (c := .keyStoreError b tx double) "KEY_STORE_ERROR" (fun s => keyStoreError s _ double) rfl hr

end commands

end Sys2Proof.Machine
end

