-- ==== Sys2Proof/Proofs/FaultyUnits.lean ====
section
/-! PROOFS. Faulty units leave service, are replayed on the spare, and return or retire (R333 to R354, R367): the outcome of each command. -/

namespace Sys2Proof.Machine

variable {s : State} {k : Nat} {u : CipherUnit}

/-! ### A flagged block: its source and its replays -/

section flagged

variable {e : Exit} {stage : Nat} {inKey : Bool}

theorem source_flagged_of_empty (hr : e.replay = false) (hc : (bank s.mod k).carries u e s.mod.sys.elapsed = false) (i : Nat) :
    source (flagged s k u e stage inKey).mod i = source s.mod i := by
  rw [flagged_of_empty hr hc]
  exact stopped_source ..

theorem events_flagged_of_replay (hr : e.replay = true) :
    (source (flagged s k u e stage inKey).mod 12).events = satAdd 32 (source s.mod 12).events 1 := by
  rw [flagged_of_replay hr]
  exact lost_events ..

theorem events_flagged_of_no_spare (hr : e.replay = false) (hc : (bank s.mod k).carries u e s.mod.sys.elapsed = true)
    (hi : ∀ i, (bank s.mod k).spareOf u = some i → (bank s.mod k).spareReady u i s.mod.sys.elapsed = false) :
    (source (flagged s k u e stage inKey).mod 12).events = satAdd 32 (source s.mod 12).events 1 := by
  rw [flagged_of_no_spare hr hc hi]
  exact lost_events ..

section spare

variable {i : Nat} (hr : e.replay = false) (hc : (bank s.mod k).carries u e s.mod.sys.elapsed = true)
  (hi : (bank s.mod k).spareOf u = some i) (hready : (bank s.mod k).spareReady u i s.mod.sys.elapsed = true)

include hr hc hi hready

theorem source_flagged_of_spare (j : Nat) : source (flagged s k u e stage inKey).mod j = source s.mod j := by
  rw [flagged_of_spare hr hc hi hready]
  unfold source
  rw [State.upd_mod, bump_sources]
  exact congrArg (tget {} · j) (stopped_sources ..)

/-- Each replayed block is counted in 0x4200:09. -/
theorem counts_flagged_of_spare {m : Mod} (hm : inf s.mod 0x4200 9 k = inf m 0x4200 9 k) :
    Counts m (flagged s k u e stage inKey).mod 0x4200 9 k (replayCount (bank s.mod k) s.mod.sys.elapsed u) := by
  have before : inf (stopped s.mod k u e stage inKey) 0x4200 9 k = inf m 0x4200 9 k :=
    ((stopped_entropy ..).inf _ _ _ (by decide) (.inl rfl)).trans hm
  rw [flagged_of_spare hr hc hi hready, startReplays_count, replayCount_stopped, State.upd_mod]
  exact .of_bump_by _ _ rfl (by decide) (by rw [inf_setBank, before])

end spare

end flagged

/-! ### A struck block -/

theorem source_advanceTo (m : Mod) (t j : Nat) : source (advanceTo m t) j = source m j := by unfold source; rw [advanceTo_sources]

/-- A block with no flag leaves its unit in service (R338). -/
theorem judged_unflagged (s : State) (k : Nat) (u : CipherUnit) (e : Exit) (out : Nat) :
    (bank (judged s k u e out none).mod k).unit u = (bank s.mod k).unit u ∧ source (judged s k u e out none).mod 12 = source s.mod 12 := by
  have kept := judged_unflagged_units s k u e out
  exact ⟨(kept.unit u).trans (unit_advanceTo ..), (kept.source 12).trans (source_advanceTo ..)⟩

section struck

variable {e : Exit} {out stage : Nat} {inKey : Bool}

theorem judged_flagged (s : State) (k : Nat) (u : CipherUnit) (e : Exit) (out stage : Nat) (inKey : Bool) :
    judged s k u e out (some (stage, inKey)) = flagged (s.upd (advanceTo s.mod e.at_)) k u e stage inKey := rfl

/-- A flagged block takes its unit out of service as it leaves (R342, R345). -/
theorem judged_flagged_left (s : State) (k : Nat) (u : CipherUnit) (e : Exit) (out stage : Nat) (inKey : Bool) :
    LeftService k u (advanceTo s.mod e.at_) (judged s k u e out (some (stage, inKey))).mod := by
  rw [judged_flagged]
  exact flagged_left (s.upd (advanceTo s.mod e.at_)) k u e stage inKey

theorem judged_flagged_replay (hr : e.replay = true) :
    (source (judged s k u e out (some (stage, inKey))).mod 12).events = satAdd 32 (source s.mod 12).events 1 := by
  rw [judged_flagged, events_flagged_of_replay hr, State.upd_mod, source_advanceTo]

theorem judged_flagged_empty (hr : e.replay = false) (hc : (bank (advanceTo s.mod e.at_) k).carries u e (advanceTo s.mod e.at_).sys.elapsed = false) :
    source (judged s k u e out (some (stage, inKey))).mod 12 = source s.mod 12 := by
  have same := source_advanceTo s.mod e.at_ 12
  rw [judged_flagged]
  generalize advanceTo s.mod e.at_ = m at hc same ⊢
  exact (source_flagged_of_empty (s := s.upd m) hr hc 12).trans same

variable (hr : e.replay = false) (hc : (bank (advanceTo s.mod e.at_) k).carries u e (advanceTo s.mod e.at_).sys.elapsed = true)

include hr hc

theorem judged_flagged_spare {i : Nat} (hi : (bank (advanceTo s.mod e.at_) k).spareOf u = some i)
    (hready : (bank (advanceTo s.mod e.at_) k).spareReady u i (advanceTo s.mod e.at_).sys.elapsed = true) :
    source (judged s k u e out (some (stage, inKey))).mod 12 = source s.mod 12 ∧
      Counts s.mod (judged s k u e out (some (stage, inKey))).mod 0x4200 9 k
        (replayCount (bank (advanceTo s.mod e.at_) k) (advanceTo s.mod e.at_).sys.elapsed u) := by
  have before : inf (advanceTo s.mod e.at_) 0x4200 9 k = inf s.mod 0x4200 9 k := inf_advance_engine _ _ _ (by decide) (by decide)
  have same := source_advanceTo s.mod e.at_ 12
  rw [judged_flagged]
  generalize advanceTo s.mod e.at_ = m at hc hi hready before same ⊢
  exact ⟨(source_flagged_of_spare (s := s.upd m) hr hc hi hready 12).trans same, counts_flagged_of_spare (s := s.upd m) hr hc hi hready before⟩

theorem judged_flagged_no_spare
    (hi : ∀ i, (bank (advanceTo s.mod e.at_) k).spareOf u = some i →
      (bank (advanceTo s.mod e.at_) k).spareReady u i (advanceTo s.mod e.at_).sys.elapsed = false) :
    (source (judged s k u e out (some (stage, inKey))).mod 12).events = satAdd 32 (source s.mod 12).events 1 := by
  have same := source_advanceTo s.mod e.at_ 12
  rw [judged_flagged]
  generalize advanceTo s.mod e.at_ = m at hc hi same ⊢
  exact (events_flagged_of_no_spare (s := s.upd m) hr hc hi).trans (by rw [State.upd_mod, same])

end struck

/-! ### A pair that mismatches -/

section mismatch

variable {i : Fin 18} {flips again : Nat} (hr : s.mod.sys.running = true) (hst : ((bank s.mod k).unit (.ghashPair i)).st = 0)
  (hf : flips % 2 ^ 128 ≠ 0)

include hr hst hf

/-- With no pair left its step is beyond repair (log 53). -/
theorem ghashMismatch_alone (hstep : pairStep s.mod k i ≠ none) (h : ∀ j ∈ (bank s.mod k).serving (.ghashPair i), j = i.val) :
    LeftService k (.ghashPair i) s.mod (ghashMismatch s k i flips again).mod ∧
      (source (ghashMismatch s k i flips again).mod 12).events = satAdd 32 (source s.mod 12).events 1 := by
  obtain ⟨p, hp⟩ := Option.ne_none_iff_exists'.mp hstep
  rw [ghashMismatch_lost hr hst hf hp (freePair_eq_none s.mod k i h)]
  obtain ⟨keeps, events⟩ := lostBeyondRepair s (pairLeaves s.mod k i) k (stepSerial s.mod k i) 2
  exact ⟨(pairLeaves_left s.mod k i).after (pairLeaves_sole ..) keeps, events.trans (by rw [pairLeaves_source])⟩

/-- With a pair free its step is repeated there, and beyond repair when the repeat differs too (R340, R350). -/
theorem ghashMismatch_free (hstep : pairStep s.mod k i ≠ none) (h : ∃ j ∈ (bank s.mod k).serving (.ghashPair i), j ≠ i.val) :
    LeftService k (.ghashPair i) s.mod (ghashMismatch s k i flips again).mod ∧
      Counts s.mod (ghashMismatch s k i flips again).mod 0x4200 0x0A k 1 ∧
      (source (ghashMismatch s k i flips again).mod 12).events =
        if again % 2 ^ 128 = 0 then (source s.mod 12).events else satAdd 32 (source s.mod 12).events 1 := by
  obtain ⟨p, hp⟩ := Option.ne_none_iff_exists'.mp hstep
  obtain ⟨j, hj, hne⟩ := freePair_eq_some s.mod k i h
  have left := repeated_left s.mod k i
  have counted := repeated_counts s.mod k i
  have before := repeated_source s.mod k i 12
  rw [ghashMismatch_repeated hr hst hf hp hj]
  generalize repeated s.mod k i = m at left counted before ⊢
  by_cases hagain : again % 2 ^ 128 = 0
  · rw [if_pos hagain, if_pos hagain]
    exact ⟨left, counted, by rw [State.upd_mod, before]⟩
  · rw [if_neg hagain, if_neg hagain]
    obtain ⟨keeps, events⟩ := lostBeyondRepair s (pairLeaves m k (Fin.ofNat 18 j)) k (stepSerial s.mod k i) 2
    refine ⟨(left.congr (pairLeaves_unit_ne m k hne)).after (pairLeaves_sole ..) keeps, counted.of_inf ?_, ?_⟩
    · exact ((pairLeaves_entropy m k _).trans keeps.toEntropyKeeps).inf _ _ _ (by decide) (.inl rfl)
    · rw [events, pairLeaves_source, before]

end mismatch

theorem keyStoreError_single (hr : s.mod.sys.running = true) : Counts s.mod (keyStoreError s k false).mod 0x4200 0x0C k 1 := by
  simp only [keyStoreError, hr, Bool.not_true, Bool.false_eq_true, if_false]
  exact .of_bump _ rfl (by decide) rfl

theorem keyStoreError_double (hr : s.mod.sys.running = true) :
    (source (keyStoreError s k true).mod 12).events = satAdd 32 (source s.mod 12).events 1 := by
  simp only [keyStoreError, hr, Bool.not_true, Bool.false_eq_true, if_false, if_true]
  exact (beyondRepair_keeps ..).2

/-! ### The outcome of the commands -/

/-- Settles O30: a struck block is judged as it leaves, and the unit stays or leaves service with what it carries; a pair's step is repeated where a
pair is free; units drain, are tested and return or retire. -/
theorem faultyUnitsLeaveAndReturn : Obligations.FaultyUnitsLeaveAndReturn := by
  refine ⟨fun s b tx u stage second flips kf nf k out e flag m hw hr hk hst hv hm => ?_, fun s b tx i flips again k hw hr hk hst => ?_,
    fun s b tx u hr hst => ?_, fun s b tx u hr hst => ?_, fun s b tx u stage second flips kf nf k out flag hw hr hk hst ha => ?_,
    fun s b tx hr => ?_⟩
  · subst hk hm
    have run := exec_pipelineFault hw hr
    rw [pipelineFault_of_verdict hr hst hv] at run
    refine ⟨fun hflag => ⟨_, run, ?_⟩, fun hflag => ⟨_, run, ?_⟩⟩
    all_goals simp only [finish_mod, bank_settleOver, source_settleOver]
    · subst hflag
      obtain ⟨unit, source⟩ := judged_unflagged s (bankOf b tx) u e out
      exact ⟨unit, source, judged_unflagged_spoils⟩
    · obtain ⟨⟨atStage, inKey⟩, rfl⟩ := Option.ne_none_iff_exists'.mp hflag
      have left := judged_flagged_left s (bankOf b tx) u e out atStage inKey
      refine ⟨left.st, left.faults.trans (by rw [unit_advanceTo]), left.leftAt, judged_flagged_replay, judged_flagged_empty,
        fun hrep hc => ⟨fun j hj hready => ?_, judged_flagged_no_spare hrep hc⟩⟩
      obtain ⟨source, counts⟩ := judged_flagged_spare (out := out) (stage := atStage) (inKey := inKey) hrep hc hj hready
      refine ⟨source, ?_⟩
      cases u <;> exact counts.of_inf_by (by rw [inf_settleOver])
  · subst hk
    have run := exec_ghashMismatch (again := again) hw hr
    refine ⟨fun hf => ⟨_, run, ?_⟩, fun hf => ⟨_, run, ?_⟩⟩
    all_goals simp only [finish_mod, bank_settleOver, source_settleOver]
    · rw [ghashMismatch_holds hf]
    · by_cases hstep : pairStep s.mod (bankOf b tx) i = none
      · rw [ghashMismatch_ballast hr hst hf hstep]
        have left := pairLeaves_left s.mod (bankOf b tx) i
        exact ⟨left.st, left.faults, fun _ => pairLeaves_source .., fun h => absurd hstep h⟩
      by_cases hfree : ∃ j ∈ (bank s.mod (bankOf b tx)).serving (.ghashPair i), j ≠ i.val
      · obtain ⟨left, counts, events⟩ := ghashMismatch_free (again := again) hr hst hf hstep hfree
        exact ⟨left.st, left.faults, fun h => absurd h hstep, fun _ => ⟨fun _ => ⟨counts.of_inf (by rw [inf_settleOver]), events⟩,
          fun hall => absurd hfree fun ⟨j, hj, hne⟩ => hne (hall j hj)⟩⟩
      · have hall : ∀ j ∈ (bank s.mod (bankOf b tx)).serving (.ghashPair i), j = i.val := by simpa using hfree
        obtain ⟨left, events⟩ := ghashMismatch_alone (again := again) hr hst hf hstep hall
        exact ⟨left.st, left.faults, fun h => absurd h hstep, fun _ => ⟨fun h => absurd h hfree, fun _ => events⟩⟩
  · refine ⟨_, exec_pipelineDrained hr, ?_⟩
    simp only [finish_mod, bank_settleOver, settleOver_sys]
    refine ⟨?_, unitDrained_tests hst, fun hf => ?_⟩
    · have late := unitDrained_elapsed hst
      cases u <;> exact late
    · rw [unitDrained_retires hst hf, retireUnit_unit]
      exact ⟨rfl, rfl⟩
  · refine ⟨⟨_, exec_quarantineTestEnd hr, ?_⟩, ⟨_, exec_quarantineTestEnd hr, ?_⟩⟩
    all_goals rw [finish_mod, bank_settleOver]
    · rw [quarantineEnd_passed hst]
      exact ⟨restored_st .., restored_spare⟩
    · rw [quarantineEnd_failed hst, retireUnit_unit]
      exact ⟨rfl, rfl⟩
  · subst hk
    refine ⟨_, exec_knownAnswerTest hw hr, ?_⟩
    rw [finish_mod, bank_settleOver]
    refine ⟨fun hflag => ?_, fun hflag hout => ?_, fun hflag hout => ?_⟩
    · obtain ⟨⟨atStage, inKey⟩, rfl⟩ := Option.ne_none_iff_exists'.mp hflag
      exact knownAnswer_flagged hr hst ha
    · subst hflag hout
      exact knownAnswer_right hr hst ha
    · subst hflag
      exact knownAnswer_wrong hr hst ha hout
  · refine ⟨⟨_, exec_keyStoreError hr, ?_⟩, ⟨_, exec_keyStoreError hr, ?_⟩⟩
    · exact (keyStoreError_single hr).of_inf (by rw [finish_mod, inf_settleOver])
    · rw [finish_mod, source_settleOver, keyStoreError_double hr]

end Sys2Proof.Machine
end

