-- ==== Sys2Proof/Proofs/Reseeds.lean ====
section
/-! PROOFS. The reseeds of the banks (R357 to R366, R374), the health tests of the entropy sources (R362 to R365, R373) and the ballast share
(R1039). -/

namespace Sys2Proof.Machine

variable {m n : Mod} {s : State} {k : Nat}

/-! ### Drawing for each pipeline -/

theorem draw_length (m : Mod) (src n : Nat) : (draw m src n).1.length = n := by simp [draw]

/-- The draw for one pipeline of a bank; a retired one takes none. -/
def pipeDraw (k n : Nat) (f : Bank → Nat → Octets → Bank) (m : Mod) (i : Nat) : Mod :=
  if (tget ({} : CUnit) (bank m k).pipes i).st = 3 then m
  else setBank (draw m (feedOf m (k / 4)) n).2 k (f (bank m k) i (draw m (feedOf m (k / 4)) n).1)

theorem eachPipe_eq (m : Mod) (k n : Nat) (f : Bank → Nat → Octets → Bank) : eachPipe m k n f = (List.range 14).foldl (pipeDraw k n f) m := rfl

theorem pipeDraw_keeps {γ : Type} (g : Mod → γ) (hd : ∀ m drawn, g { m with drawn := drawn } = g m) (hb : ∀ m b, g (setBank m k b) = g m)
    (d : Nat) (f : Bank → Nat → Octets → Bank) (m : Mod) (i : Nat) : g (pipeDraw k d f m i) = g m := by
  unfold pipeDraw
  split
  · rfl
  · rw [hb]
    exact hd m _

/-- What no draw and no bank touches, the draws of a bank leave. -/
theorem eachPipe_keeps {γ : Type} (g : Mod → γ) (hd : ∀ m drawn, g { m with drawn := drawn } = g m) (hb : ∀ m b, g (setBank m k b) = g m)
    (m : Mod) (d : Nat) (f : Bank → Nat → Octets → Bank) : g (eachPipe m k d f) = g m :=
  foldl_keeps g (pipeDraw k d f) (pipeDraw_keeps g hd hb d f) _ m

theorem eachPipe_sys (m : Mod) (k d : Nat) (f : Bank → Nat → Octets → Bank) : (eachPipe m k d f).sys = m.sys :=
  eachPipe_keeps (·.sys) (fun _ _ => rfl) (fun _ _ => rfl) ..

theorem eachPipe_entropy (m : Mod) (k d : Nat) (f : Bank → Nat → Octets → Bank) : EntropyKeeps m (eachPipe m k d f) :=
  .of_eq (eachPipe_keeps (·.entropy) (fun _ _ => rfl) (fun _ _ => rfl) ..) (eachPipe_keeps (·.obj) (fun _ _ => rfl) (fun _ _ => rfl) ..)

section draws

variable {d : Nat} {f : Bank → Nat → Octets → Bank} {P : Bank → Nat → Prop}

/-- What a draw of the right length makes hold of its pipeline, and leaves of the others, holds of each pipeline once it has been drawn for. -/
theorem foldl_pipeDraw (hpipes : ∀ b i bs, (f b i bs).pipes = b.pipes) (made : ∀ b i bs, bs.length = d → P (f b i bs) i)
    (kept : ∀ b i j bs, j ≠ i → P b j → P (f b i bs) j) (l : List Nat) (m : Mod) (i : Nat)
    (h : P (bank m k) i ∨ i ∈ l ∧ (tget ({} : CUnit) (bank m k).pipes i).st ≠ 3) : P (bank (l.foldl (pipeDraw k d f) m) k) i := by
  induction l generalizing m with
  | nil => exact h.resolve_right fun x => absurd x.1 List.not_mem_nil
  | cons j r ih =>
    refine ih (pipeDraw k d f m j) ?_
    unfold pipeDraw
    split
    · refine h.imp_right fun ⟨hmem, hst⟩ => ⟨(List.mem_cons.mp hmem).resolve_left ?_, hst⟩
      rintro rfl
      exact hst ‹_›
    · rw [bank_setBank_same, hpipes]
      by_cases hj : i = j
      · exact .inl (hj ▸ made _ _ _ (draw_length ..))
      · exact h.imp (kept _ _ _ _ hj) fun ⟨hmem, hst⟩ => ⟨(List.mem_cons.mp hmem).resolve_left hj, hst⟩

theorem eachPipe_holds (hpipes : ∀ b i bs, (f b i bs).pipes = b.pipes) (made : ∀ b i bs, bs.length = d → P (f b i bs) i)
    (kept : ∀ b i j bs, j ≠ i → P b j → P (f b i bs) j) {i : Nat} (hi : i < 14) (hst : (tget ({} : CUnit) (bank m k).pipes i).st ≠ 3) :
    P (bank (eachPipe m k d f) k) i := by
  rw [eachPipe_eq]
  exact foldl_pipeDraw hpipes made kept _ m i (.inr ⟨List.mem_range.mpr hi, hst⟩)

end draws

/-! ### Ballast keys -/

/-- A bank with a pipeline's ballast key. -/
def withBallastKey (b : Bank) (i : Nat) (bs : Octets) : Bank := { b with ballast := tset [] b.ballast i bs }

theorem eachPipe_ballast {i : Nat} (hi : i < 14) (hst : (tget ({} : CUnit) (bank m k).pipes i).st ≠ 3) :
    (tget [] (bank (eachPipe m k 32 withBallastKey) k).ballast i).length = 32 := by
  refine eachPipe_holds (f := withBallastKey) (P := fun b i => (tget [] b.ballast i).length = 32) (fun _ _ _ => rfl) (fun b i bs h => ?_)
    (fun b i j bs hj h => ?_) hi hst
  · rw [withBallastKey, tget_tset_same, h]
  · rwa [withBallastKey, tget_tset_ne _ _ _ hj]

theorem drawBallast_of_ok (hok : feedOk m (k / 4) = true) :
    drawBallast m k = setBank (eachPipe m k 32 withBallastKey) k { bank (eachPipe m k 32 withBallastKey) k with
      ballastAt := m.sys.elapsed, ballastOld := (bank m k).ballast, ballastOldAt := (bank m k).ballastAt } := if_pos hok

theorem drawBallast_at (hok : feedOk m (k / 4) = true) : (bank (drawBallast m k) k).ballastAt = m.sys.elapsed := by
  rw [drawBallast_of_ok hok, bank_setBank_same]

theorem drawBallast_length (hok : feedOk m (k / 4) = true) {i : Nat} (hi : i < 14) (hst : (tget ({} : CUnit) (bank m k).pipes i).st ≠ 3) :
    (tget [] (bank (drawBallast m k) k).ballast i).length = 32 := by
  rw [drawBallast_of_ok hok, bank_setBank_same]
  dsimp only
  exact eachPipe_ballast hi hst

theorem drawBallast_sys (hok : feedOk m (k / 4) = true) : (drawBallast m k).sys = m.sys := by
  rw [drawBallast_of_ok hok, setBank_sys, eachPipe_sys]

theorem drawBallast_entropy (m : Mod) (k : Nat) : EntropyKeeps m (drawBallast m k) := by
  by_cases hok : feedOk m (k / 4) = true
  · rw [drawBallast_of_ok hok]
    exact (eachPipe_entropy m k 32 withBallastKey).trans (.setBank ..)
  · rw [drawBallast, if_neg hok]
    exact .refl m

/-! ### Shuffle seeds -/

/-- The wiring that a seed of a pipeline gives (R360). -/
def wiringOf (seed : Octets) (i : Nat) : Nat := Config.expand seed 1 i % 20922789888000

/-- A pipeline runs on a whole seed and the wiring drawn from it. -/
def Seeded (b : Bank) (i : Nat) : Prop := (tget [] b.seeds i).length = 16 ∧ tget 0 b.wiring i = wiringOf (tget [] b.seeds i) i

/-- A bank with a pipeline's seed and the wiring that it gives. -/
def withSeed (b : Bank) (i : Nat) (bs : Octets) : Bank := { b with seeds := tset [] b.seeds i bs, wiring := tset 0 b.wiring i (wiringOf bs i) }

theorem eachPipe_seeded {i : Nat} (hi : i < 14) (hst : (tget ({} : CUnit) (bank m k).pipes i).st ≠ 3) :
    Seeded (bank (eachPipe m k 16 withSeed) k) i := by
  refine eachPipe_holds (f := withSeed) (P := Seeded) (fun _ _ _ => rfl) (fun b i bs h => ?_) (fun b i j bs hj h => ?_) hi hst
  · unfold Seeded withSeed
    rw [tget_tset_same, tget_tset_same]
    exact ⟨h, rfl⟩
  · unfold Seeded withSeed
    rwa [tget_tset_ne _ _ _ hj, tget_tset_ne _ _ _ hj]

theorem drawShuffle_of_ok (hok : feedOk m (k / 4) = true) :
    drawShuffle m k = setBank (eachPipe m k 16 withSeed) k { bank (eachPipe m k 16 withSeed) k with
      seededAt := m.sys.elapsed, seedsOld := (bank m k).seeds, seededOldAt := (bank m k).seededAt } := if_pos hok

theorem drawShuffle_at (hok : feedOk m (k / 4) = true) : (bank (drawShuffle m k) k).seededAt = m.sys.elapsed := by
  rw [drawShuffle_of_ok hok, bank_setBank_same]

theorem drawShuffle_seeded (hok : feedOk m (k / 4) = true) {i : Nat} (hi : i < 14) (hst : (tget ({} : CUnit) (bank m k).pipes i).st ≠ 3) :
    Seeded (bank (drawShuffle m k) k) i := by
  rw [drawShuffle_of_ok hok, bank_setBank_same]
  have seeded := eachPipe_seeded hi hst
  generalize eachPipe m k 16 withSeed = n at seeded ⊢
  exact seeded

theorem drawShuffle_sys (hok : feedOk m (k / 4) = true) : (drawShuffle m k).sys = m.sys := by
  rw [drawShuffle_of_ok hok, setBank_sys, eachPipe_sys]

theorem drawShuffle_entropy (m : Mod) (k : Nat) : EntropyKeeps m (drawShuffle m k) := by
  by_cases hok : feedOk m (k / 4) = true
  · rw [drawShuffle_of_ok hok]
    exact (eachPipe_entropy m k 16 withSeed).trans (.setBank ..)
  · rw [drawShuffle, if_neg hok]
    exact .refl m

/-! ### The reseeds as time runs to them -/

theorem feedOk_advanceTo (m : Mod) (t h : Nat) : feedOk (advanceTo m t) h = feedOk m h := by unfold feedOk; rw [entropyOf_advanceTo]

theorem pipes_advanceTo (m : Mod) (t k : Nat) : (bank (advanceTo m t) k).pipes = (bank m k).pipes :=
  congrArg Prod.fst (advance_groups m (t - m.sys.elapsed) k)

theorem le_advanceTo_elapsed (m : Mod) (t : Nat) : t ≤ (advanceTo m t).sys.elapsed := by rw [advanceTo_elapsed]; omega

theorem ballastReseed_of_running (hr : m.sys.running = true) :
    ballastReseed m k = drawBallast (advanceTo m ((bank m k).ballastAt + reseedPeriod m k)) k := if_pos hr

theorem shuffleReseed_of_running (hr : m.sys.running = true) :
    shuffleReseed m k = drawShuffle (advanceTo m ((bank m k).seededAt + reseedPeriod m k)) k := if_pos hr

theorem maskReseed_of_due (hr : m.sys.running = true) (hb : (entropyOf m (k / 4)).failB = false) (hn : 65536 ≤ (bank m k).maskBlocks) :
    (bank (maskReseed m k) k).maskSeed.length = 32 ∧ (bank (maskReseed m k) k).maskBlocks = 0 := by
  rw [maskReseed, if_pos (by simp [hr, hn]), drawMasks, if_neg (by simp [hb]), bank_setBank_same]
  exact ⟨draw_length .., rfl⟩

theorem maskReseed_of_early (hn : (bank m k).maskBlocks < 65536) : maskReseed m k = m := by
  rw [maskReseed, if_neg]
  simpa using fun _ => hn

/-! ### A source declared failed -/

theorem beyondRepairs_keep (l : List Nat) (f : Nat → Nat) (cause : Nat) (s : State) :
    EntropyKeeps s.mod (l.foldl (fun s i => beyondRepair s (f i) cause) s).mod := by
  induction l generalizing s with
  | nil => exact .refl _
  | cons i r ih => exact (beyondRepair_keeps s (f i) cause).1.toEntropyKeeps.trans (ih _)

theorem throwKeys_keeps (m : Mod) (h : Nat) : EntropyKeeps m (throwKeys m h) := by
  unfold throwKeys
  split
  · refine .foldl _ (fun n p => ?_) _ _
    split
    · exact .of_eq rfl rfl
    · exact .refl n
  · exact .refl m

/-- The state of a harbour's sources with one declared failed; the reserve feed comes into force for source A (R364, R373). -/
def declared (e : Entropy) (isB : Bool) : Entropy := if isB then { e with failB := true } else { e with failA := true, reserve := true }

/-- What follows on a declared failure of source A: fresh keys and seeds from the reserve feed, and the fall-back policy (R373, R374). -/
theorem reserveFeed_keeps (m : Mod) (h : Nat) :
    EntropyKeeps m (engageFallback (engageFallback
      (throwKeys ((List.range 4).foldl (fun m i => drawShuffle (drawBallast m (h * 4 + i)) (h * 4 + i)) m) h) (h * 2)) (h * 2 + 1)) := by
  have drawn : EntropyKeeps m ((List.range 4).foldl (fun m i => drawShuffle (drawBallast m (h * 4 + i)) (h * 4 + i)) m) :=
    .foldl _ (fun n i => (drawBallast_entropy n (h * 4 + i)).trans (drawShuffle_entropy ..)) _ m
  generalize (List.range 4).foldl (fun m i => drawShuffle (drawBallast m (h * 4 + i)) (h * 4 + i)) m = n at drawn ⊢
  have diverted (m : Mod) (b : Nat) : EntropyKeeps m (engageFallback m b) := (EnginesApart.engageFallback m b).toEntropyKeeps
  exact ((drawn.trans (throwKeys_keeps n h)).trans (diverted ..)).trans (diverted ..)

/-- Of the sources only the one declared changes; what follows leaves them and their counters. -/
theorem declareFailed_keeps {h : Nat} {isB : Bool} (hnot : (if isB then (entropyOf s.mod h).failB else (entropyOf s.mod h).failA) = false) :
    EntropyKeeps (setEntropy s.mod h (declared (entropyOf s.mod h) isB)) (declareFailed s h isB).mod := by
  have first : ¬(if isB = true then (entropyOf s.mod h).failB else (entropyOf s.mod h).failA) = true := by rw [hnot]; decide
  unfold declareFailed declared
  dsimp only
  rw [if_neg first]
  generalize setEntropy s.mod h _ = m
  have told : EntropyKeeps m (sourceEvent (s.upd (setAlarm m 11 true)) 11 h 0x4036 (srcH h) 0 (responseOf m 11) fun _ =>
      b1 h ++ b1 (b01 isB)).mod :=
    EntropyKeeps.trans (n := setAlarm m 11 true) (.of_eq rfl rfl) (sourceEvent_keeps (k := 0) (s.upd (setAlarm m 11 true)) ..).1.toEntropyKeeps
  generalize sourceEvent (s.upd (setAlarm m 11 true)) 11 h 0x4036 (srcH h) 0 (responseOf m 11) _ = s1 at told ⊢
  have fed : EntropyKeeps m (if isB = true then s1 else s1.upd (engageFallback (engageFallback
      (throwKeys ((List.range 4).foldl (fun m i => drawShuffle (drawBallast m (h * 4 + i)) (h * 4 + i)) s1.mod) h) (h * 2)) (h * 2 + 1))).mod := by
    split
    · exact told
    · exact told.trans (reserveFeed_keeps s1.mod h)
  generalize (if isB = true then s1 else _) = s2 at fed ⊢
  split
  · exact fed.trans (beyondRepairs_keep _ (h * 4 + ·) 5 s2)
  · exact fed

/-! ### Health tests -/

/-- The failures of a source within the last second, this one included (R364). -/
def recentFailures (e : Entropy) (isB : Bool) (now : Nat) : List Nat :=
  ((if isB then e.timesB else e.timesA).filter fun t => decide (now < t + secCycles)) ++ [now]

/-- The sources of a harbour with this failure noted. -/
def failureTimed (e : Entropy) (isB : Bool) (now : Nat) : Entropy :=
  if isB then { e with timesB := recentFailures e isB now } else { e with timesA := recentFailures e isB now }

/-- The module with a failed test counted and reported with its code (R363). -/
def testFailed (m : Mod) (h : Nat) (isB proportion : Bool) : Mod :=
  let m1 := discardInput (setEntropy m h (failureTimed (entropyOf m h) isB m.sys.elapsed)) (h * 2 + b01 isB)
  raise (setNat (bump m1 0x4230 (if isB then 4 else 3) h 1) 0x4230 8 h (1 + b01 isB * 2 + b01 proportion)) 0x4035 (srcH h) 0
    (b1 h ++ b1 (b01 isB) ++ b1 (1 + b01 isB * 2 + b01 proportion))

section health

variable {h : Nat} {isB proportion : Bool} {samples : List Bool}

/-- Samples that pass change nothing. -/
theorem entropyTestFailure_passed (hp : healthFails isB proportion samples = false) : entropyTestFailure s h isB proportion samples = s := by
  simp [entropyTestFailure, hp]

theorem entropyTestFailure_failed (hr : s.mod.sys.running = true) (hf : healthFails isB proportion samples = true) :
    entropyTestFailure s h isB proportion samples =
      if 3 ≤ (recentFailures (entropyOf s.mod h) isB s.mod.sys.elapsed).length then declareFailed (s.upd (testFailed s.mod h isB proportion)) h isB
      else s.upd (testFailed s.mod h isB proportion) := by
  unfold entropyTestFailure
  dsimp only
  rw [if_neg (by simp [hr, hf])]
  rfl

theorem testFailed_entropy (m : Mod) (h : Nat) (isB proportion : Bool) :
    entropyOf (testFailed m h isB proportion) h = failureTimed (entropyOf m h) isB m.sys.elapsed := by
  have entropy : (testFailed m h isB proportion).entropy = (setEntropy m h (failureTimed (entropyOf m h) isB m.sys.elapsed)).entropy := by
    unfold testFailed
    dsimp only
    rw [raise_entropy, setNat_entropy, bump_entropy]
    rfl
  unfold entropyOf
  rw [entropy]
  exact entropyOf_setEntropy_same ..

theorem testFailed_code (m : Mod) (h : Nat) (isB proportion : Bool) :
    inf (testFailed m h isB proportion) 0x4230 8 h = 1 + b01 isB * 2 + b01 proportion := by
  unfold testFailed
  dsimp only
  rw [inf_raise, inf_setNat_same _ _ _ _ _ (by decide)]

theorem testFailed_counts (m : Mod) (h : Nat) (isB proportion : Bool) :
    Counts m (testFailed m h isB proportion) 0x4230 (if isB then 4 else 3) h 1 := by
  unfold testFailed
  dsimp only
  generalize hn : discardInput (setEntropy m h _) _ = n
  have same (sub : Nat) : inf n 0x4230 sub h = inf m 0x4230 sub h := inf_of_obj sub h (.inr rfl) (by rw [← hn]; rfl)
  have other (l : Mod) (sub v : Nat) (hs : sub < 256) (hne : sub ≠ 8) : inf (setNat l 0x4230 8 h v) 0x4230 sub h = inf l 0x4230 sub h :=
    inf_setNat_ne l (okey_ne h h hs (by decide) fun x => hne x.2) (by decide) (by decide)
  cases isB with
  | false => exact (Counts.of_bump _ rfl (by decide) (same 3)).of_inf (by rw [inf_raise]; exact other _ 3 _ (by decide) (by decide))
  | true => exact (Counts.of_bump _ rfl (by decide) (same 4)).of_inf (by rw [inf_raise]; exact other _ 4 _ (by decide) (by decide))

end health

/-! ### The ballast share -/

/-- The ballast share of a bank over its last whole second (R1039). -/
def ballastShareOf (b : Bank) : Nat := if b.lastSlots = 0 then 0 else (b.lastSlots - b.lastBlocks) * 10000 / b.lastSlots

theorem ballastShareOf_eq (b : Bank) : ballastShareOf b = (b.lastSlots - b.lastBlocks) * 10000 / b.lastSlots := by
  unfold ballastShareOf
  split
  · rw [‹b.lastSlots = 0›, Nat.div_zero]
  · rfl

theorem ballastShareOf_le (b : Bank) : ballastShareOf b ≤ 10000 := by
  rw [ballastShareOf_eq]
  exact Nat.div_le_of_le_mul (Nat.mul_le_mul_right _ (Nat.sub_le ..))

/-- The share of one bank of a harbour written. -/
def showShare (h : Nat) (m : Mod) (i : Nat) : Mod := setNat m 0x4200 6 (h * 4 + i) (ballastShareOf (bank m (h * 4 + i)))

theorem ballastShare_of_running {h : Nat} (hr : m.sys.running = true) :
    ballastShare m h = (List.range 4).foldl (showShare h) (advanceToNet m h ((nowH m h / nsPerSec + 1) * nsPerSec)) := by
  unfold ballastShare
  rw [if_neg (by simp [hr])]
  rfl

theorem bank_showShare (h : Nat) (m : Mod) (i k : Nat) : bank (showShare h m i) k = bank m k := rfl

theorem bank_foldl_showShare (h : Nat) (l : List Nat) (m : Mod) (k : Nat) : bank (l.foldl (showShare h) m) k = bank m k :=
  foldl_keeps (bank · k) (showShare h) (fun m i => bank_showShare h m i k) l m

theorem inf_showShare (h : Fin 2) {i j : Nat} (hi : i < 4) (hj : j < 4) (m : Mod) :
    inf (showShare h m j) 0x4200 6 (h * 4 + i) =
      if i = j then ballastShareOf (bank m (h * 4 + i)) else inf m 0x4200 6 (h * 4 + i) := by
  unfold showShare
  split
  · subst j
    exact inf_setNat_same _ _ _ _ _ (by decide)
  · exact inf_setNat_ne m (by unfold okey; omega) (by decide) (by decide)

/-- Each bank of the harbour shows its own share. -/
theorem inf_foldl_showShare (h : Fin 2) {i : Nat} (hi : i < 4) (l : List Nat) (hl : ∀ j ∈ l, j < 4) (m : Mod) :
    inf (l.foldl (showShare h) m) 0x4200 6 (h * 4 + i) =
      if i ∈ l then ballastShareOf (bank m (h * 4 + i)) else inf m 0x4200 6 (h * 4 + i) := by
  induction l generalizing m with
  | nil => rfl
  | cons j r ih =>
    rw [List.foldl_cons, ih fun x hx => hl x (by simp [hx]), bank_showShare, inf_showShare h hi (hl j (by simp))]
    by_cases hr : i ∈ r <;> by_cases hj : i = j <;> simp [hr, hj]

/-! ### The commands -/

section commands

variable {b : Fin 4} {tx : Bool} {h : Fin 2}

theorem exec_ballastKeyReseed (hr : s.mod.sys.running = true) :
    exec (.ballastKeyReseed b tx) s = .next (finish (s.upd (ballastReseed s.mod (bankOf b tx)))) :=
  run_whileOn (c := .ballastKeyReseed b tx) "BALLAST_KEY_RESEED" (fun m => ballastReseed m _) rfl hr

theorem exec_shuffleReseed (hr : s.mod.sys.running = true) :
    exec (.shuffleReseed b tx) s = .next (finish (s.upd (shuffleReseed s.mod (bankOf b tx)))) :=
  run_whileOn (c := .shuffleReseed b tx) "SHUFFLE_RESEED" (fun m => shuffleReseed m _) rfl hr

theorem exec_maskReseed (hr : s.mod.sys.running = true) :
    exec (.maskReseed b tx) s = .next (finish (s.upd (maskReseed s.mod (bankOf b tx)))) :=
  run_whileOn (c := .maskReseed b tx) "MASK_RESEED" (fun m => maskReseed m _) rfl hr

theorem exec_entropyTestFailure {isB proportion : Bool} {samples : List Bool}
    (hw : (Instr.entropyTestFailure h isB proportion samples).wf = true) (hr : s.mod.sys.running = true) :
    exec (.entropyTestFailure h isB proportion samples) s = .next (finish (entropyTestFailure s h isB proportion samples)) :=
  run_whileOn_state (c := .entropyTestFailure h isB proportion samples) "ENTROPY_TEST_FAILURE"
    (fun s => entropyTestFailure s h isB proportion samples) hw hr

theorem exec_ballastShareUpdate (hr : s.mod.sys.running = true) :
    exec (.ballastShareUpdate h) s = .next (finish (s.upd (ballastShare s.mod h))) :=
  run_whileOn (c := .ballastShareUpdate h) "BALLAST_SHARE_UPDATE" (fun m => ballastShare m h) rfl hr

end commands

/-! ### What each command comes to -/

theorem ballastReseed_outcome (hr : m.sys.running = true) (hok : feedOk m (k / 4) = true) :
    (bank m k).ballastAt + reseedPeriod m k ≤ (ballastReseed m k).sys.elapsed ∧
      (bank (ballastReseed m k) k).ballastAt = (ballastReseed m k).sys.elapsed ∧
      ∀ i, i < 14 → (tget ({} : CUnit) (bank m k).pipes i).st ≠ 3 → (tget [] (bank (ballastReseed m k) k).ballast i).length = 32 := by
  rw [ballastReseed_of_running hr]
  have ok := hok
  rw [← feedOk_advanceTo m ((bank m k).ballastAt + reseedPeriod m k)] at ok
  rw [drawBallast_sys ok, drawBallast_at ok]
  exact ⟨le_advanceTo_elapsed .., rfl, fun i hi hst => drawBallast_length ok hi (by rwa [pipes_advanceTo])⟩

theorem shuffleReseed_outcome (hr : m.sys.running = true) (hok : feedOk m (k / 4) = true) :
    (bank m k).seededAt + reseedPeriod m k ≤ (shuffleReseed m k).sys.elapsed ∧
      (bank (shuffleReseed m k) k).seededAt = (shuffleReseed m k).sys.elapsed ∧
      ∀ i, i < 14 → (tget ({} : CUnit) (bank m k).pipes i).st ≠ 3 → Seeded (bank (shuffleReseed m k) k) i := by
  rw [shuffleReseed_of_running hr]
  have ok := hok
  rw [← feedOk_advanceTo m ((bank m k).seededAt + reseedPeriod m k)] at ok
  rw [drawShuffle_sys ok, drawShuffle_at ok]
  exact ⟨le_advanceTo_elapsed .., rfl, fun i hi hst => drawShuffle_seeded ok hi (by rwa [pipes_advanceTo])⟩

/-- Whether a source has been declared failed. -/
def Entropy.failed (e : Entropy) (isB : Bool) : Bool := if isB then e.failB else e.failA

theorem failed_failureTimed (e : Entropy) (isB : Bool) (now : Nat) : (failureTimed e isB now).failed isB = e.failed isB := by cases isB <;> rfl

theorem failed_declared (e : Entropy) (isB : Bool) : (declared e isB).failed isB = true := by cases isB <;> rfl

theorem entropyOf_of_keeps (keeps : EntropyKeeps m n) (h : Nat) : entropyOf n h = entropyOf m h := by unfold entropyOf; rw [keeps.entropy]

section health

variable {h : Nat} {isB proportion : Bool} {samples : List Bool} (hr : s.mod.sys.running = true) (hf : healthFails isB proportion samples = true)
  (hnot : (entropyOf s.mod h).failed isB = false)

include hr hf hnot

/-- A failed test leaves the sources with its time noted, and with the third within a second the source declared failed (R364). -/
theorem entropyTestFailure_entropy :
    entropyOf (entropyTestFailure s h isB proportion samples).mod h =
      if 3 ≤ (recentFailures (entropyOf s.mod h) isB s.mod.sys.elapsed).length
      then declared (failureTimed (entropyOf s.mod h) isB s.mod.sys.elapsed) isB else failureTimed (entropyOf s.mod h) isB s.mod.sys.elapsed := by
  rw [entropyTestFailure_failed hr hf]
  have noted := testFailed_entropy s.mod h isB proportion
  generalize testFailed s.mod h isB proportion = m at noted ⊢
  split
  · have keeps := declareFailed_keeps (s := s.upd m) (h := h) (isB := isB) (by
      rw [State.upd_mod, noted]
      exact (failed_failureTimed ..).trans hnot)
    rw [entropyOf_of_keeps keeps, entropyOf_setEntropy_same, State.upd_mod, noted]
  · exact noted

/-- The test is counted, with its code, whatever follows. -/
theorem entropyTestFailure_inf {sub : Nat} (hs : sub < 256) :
    inf (entropyTestFailure s h isB proportion samples).mod 0x4230 sub h = inf (testFailed s.mod h isB proportion) 0x4230 sub h := by
  rw [entropyTestFailure_failed hr hf]
  have noted := testFailed_entropy s.mod h isB proportion
  generalize testFailed s.mod h isB proportion = m at noted ⊢
  split
  · have keeps := declareFailed_keeps (s := s.upd m) (h := h) (isB := isB) (by
      rw [State.upd_mod, noted]
      exact (failed_failureTimed ..).trans hnot)
    exact keeps.inf _ _ _ hs (.inr rfl)
  · rfl

end health

/-- The third failure within a second is the one that finds two before it. -/
theorem three_le_recentFailures (e : Entropy) (isB : Bool) (now : Nat) :
    3 ≤ (recentFailures e isB now).length ↔ 2 ≤ ((if isB then e.timesB else e.timesA).filter fun x => decide (now < x + secCycles)).length := by
  rw [recentFailures, List.length_append, List.length_singleton]
  omega

/-- A source is failed after the test exactly when this was its third failure within the second, and source A then has its reserve feed. -/
theorem failed_after_test {e x : Entropy} {isB : Bool} {now : Nat} (hnot : e.failed isB = false)
    (hx : x = if 3 ≤ (recentFailures e isB now).length then declared (failureTimed e isB now) isB else failureTimed e isB now) :
    x.failed isB = decide (2 ≤ ((if isB then e.timesB else e.timesA).filter fun t => decide (now < t + secCycles)).length) ∧
      (isB = false → x.failA = true → x.reserve = true) := by
  by_cases third : 3 ≤ (recentFailures e isB now).length
  · rw [if_pos third] at hx
    rw [hx, failed_declared, decide_eq_true ((three_le_recentFailures ..).mp third)]
    exact ⟨rfl, by rintro rfl _; rfl⟩
  · rw [if_neg third] at hx
    rw [hx, failed_failureTimed, hnot, decide_eq_false fun two => third ((three_le_recentFailures ..).mpr two)]
    refine ⟨rfl, ?_⟩
    rintro rfl hfail
    exact absurd (hfail.symm.trans hnot) (by decide)

/-- Settles O31: a reseed draws for each pipeline that is not retired; a failed test is counted, and the third within a second declares its source
failed; each bank's share is that of its last whole second. -/
theorem reseedsAndEntropyTests : Obligations.ReseedsAndEntropyTests := by
  refine ⟨fun s b tx k hr hk => ?_, fun s h isB proportion samples hw hr => ⟨fun hp => ?_, fun hf hnot => ?_⟩, fun s h i k hr hi hk => ?_⟩
  · subst hk
    refine ⟨fun hok => ⟨⟨_, exec_ballastKeyReseed hr, ?_⟩, ⟨_, exec_shuffleReseed hr, ?_⟩⟩,
      fun hb hn => ⟨_, exec_maskReseed hr, ?_⟩, fun hn => ⟨_, exec_maskReseed hr, ?_⟩⟩
    all_goals simp only [finish_mod, State.upd_mod, bank_settleOver, settleOver_sys]
    · exact ballastReseed_outcome hr hok
    · exact shuffleReseed_outcome hr hok
    · exact maskReseed_of_due hr hb hn
    · rw [maskReseed_of_early hn]
  · refine ⟨_, exec_entropyTestFailure hw hr, ?_⟩
    rw [entropyTestFailure_passed hp, finish_mod, settleOver_entropy, settleOver_drawn, inf_settleOver]
    exact ⟨rfl, rfl, rfl⟩
  · refine ⟨_, exec_entropyTestFailure hw hr, ?_⟩
    have entropy := entropyTestFailure_entropy (proportion := proportion) hr hf hnot
    have shown {sub : Nat} (hs : sub < 256) := entropyTestFailure_inf (proportion := proportion) hr hf hnot hs
    simp only [finish_mod, inf_settleOver, entropyOf_settleOver]
    refine ⟨(testFailed_counts s.mod h isB proportion).of_inf ?_, (shown (by decide)).trans (testFailed_code ..), ?_⟩
    · rw [inf_settleOver]
      exact shown (by cases isB <;> decide)
    · exact failed_after_test hnot entropy
  · subst hk
    refine ⟨_, exec_ballastShareUpdate hr, ?_⟩
    simp only [finish_mod, State.upd_mod, inf_settleOver, bank_settleOver, settleOver_sys, ballastShare_of_running hr]
    rw [bank_foldl_showShare, inf_foldl_showShare h hi _ (fun j hj => List.mem_range.mp hj), if_pos (List.mem_range.mpr hi)]
    refine ⟨?_, ballastShareOf_le _, ballastShareOf_eq _⟩
    rw [foldl_keeps (·.sys) (showShare h) (fun _ _ => rfl), advanceToNet, advance_elapsed]
    omega

end Sys2Proof.Machine
end

