-- ==== Sys2Proof/Proofs/RateLowerings.lean ====
section
/-! PROOFS. Queues that have drained (R459), and rate lowerings that come into force once the backlog fits: of a queue (R492, R494) and of a berth
node (R497). -/

namespace Sys2Proof.Machine

variable {m : Mod} {q k : Nat}

/-! ### The rates of a queue -/

theorem queue_refillQueue_ne (m : Mod) {q r : Nat} (h : r ≠ q) : queue (refillQueue m q) r = queue m r := queue_setQueue_ne _ _ h

/-- The rates committed for admission come into force on the refilled queue (R491, R494). -/
theorem queue_switchRates_same (m : Mod) (q : Nat) : queue (switchRates m q) q =
    { queue (refillQueue m q) q with rate := admRate m q, pir := if qMode m [] q = 1 then admPir m q else 0, lowering := false } :=
  queue_setQueue_same ..

theorem queue_switchRates_ne (m : Mod) {q r : Nat} (h : r ≠ q) : queue (switchRates m q) r = queue m r :=
  (queue_setQueue_ne _ _ h).trans (queue_refillQueue_ne m h)

theorem frames_switchRates (m : Mod) (q : Nat) : (queue (switchRates m q) q).frames = (queue m q).frames := by
  rw [queue_switchRates_same]
  exact (ArbiterMove.refillQueue m q).frames q

theorem draining_switchRates (m : Mod) (q : Nat) : (queue (switchRates m q) q).draining = (queue m q).draining := by
  rw [queue_switchRates_same]
  unfold refillQueue
  rw [queue_setQueue_same]

/-! ### A queue's lowering -/

/-- A lowering that the backlog fits switches the rates (R492). -/
theorem queue_applyLowering_fits (hl : (queue m q).lowering = true) (hb : backlog m q ≤ limitOf m q 0) (r : Nat) :
    queue (applyLowering m q) r = queue (switchRates m q) r := by
  unfold applyLowering
  rw [if_pos ⟨hl, hb⟩]
  exact queue_raise ..

/-- A command that tries a lowering switches the rates of the queue or leaves every queue as it was. -/
theorem queue_applyLowering (m : Mod) (q : Nat) :
    (∀ r, queue (applyLowering m q) r = queue (switchRates m q) r) ∨ ∀ r, queue (applyLowering m q) r = queue m r := by
  by_cases h : (queue m q).lowering = true ∧ backlog m q ≤ limitOf m q 0
  · exact .inl (queue_applyLowering_fits h.1 h.2)
  · right
    unfold applyLowering
    rw [if_neg h]
    exact fun _ => rfl

theorem queue_applyLowering_ne (m : Mod) {q r : Nat} (h : r ≠ q) : queue (applyLowering m q) r = queue m r := by
  obtain hs | hs := queue_applyLowering m q
  · rw [hs, queue_switchRates_ne m h]
  · exact hs r

theorem frames_applyLowering (m : Mod) (q : Nat) : (queue (applyLowering m q) q).frames = (queue m q).frames := by
  obtain hs | hs := queue_applyLowering m q
  · rw [hs, frames_switchRates]
  · rw [hs]

theorem draining_applyLowering (m : Mod) (q : Nat) : (queue (applyLowering m q) q).draining = (queue m q).draining := by
  obtain hs | hs := queue_applyLowering m q
  · rw [hs, draining_switchRates]
  · rw [hs]

/-! ### A drained queue -/

/-- An empty queue that drains is disabled in force, whatever the lowering before it did (R459, R499). -/
theorem queue_drained (hd : (queue m q).draining = true) (hf : (queue m q).frames = []) (r : Nat) :
    queue (drained m q) r =
      queue (setQueue (applyLowering m q) q { queue (applyLowering m q) q with draining := false, rate := 0, pir := 0 }) r := by
  unfold drained
  dsimp only
  rw [if_pos ⟨(draining_applyLowering m q).trans hd, (frames_applyLowering m q).trans hf⟩]
  exact queue_raise ..

/-! ### A berth node's lowering -/

theorem node_refillNode_ne (m : Mod) {k j : Nat} (h : j ≠ k) : node (refillNode m k) j = node m j := by
  unfold refillNode
  dsimp only
  repeat' split
  · rfl
  all_goals exact node_setNode_ne _ _ h

/-- A node's committed rate comes into force, with a new bucket for a node that becomes shaped (R476, R486, R497). -/
def withCommittedRate (m : Mod) (k : Nat) : Mod :=
  if (node m k).rate = 0xFFFFFFFF then startNode m k else setNode m k { node m k with rate := inf m 0x6200 2 k, lowering := false }

theorem node_withCommittedRate_same (m : Mod) (k : Nat) :
    (node (withCommittedRate m k) k).lowering = false ∧ (node (withCommittedRate m k) k).rate = inf m 0x6200 2 k := by
  unfold withCommittedRate startNode
  split
  all_goals
    rw [node_setNode_same]
    exact ⟨rfl, rfl⟩

theorem node_withCommittedRate_ne (m : Mod) {k j : Nat} (h : j ≠ k) : node (withCommittedRate m k) j = node m j := by
  unfold withCommittedRate startNode
  split
  all_goals exact node_setNode_ne _ _ h

theorem inf_refillNode (m : Mod) (k i s e : Nat) : inf (refillNode m k) i s e = inf m i s e := by
  unfold inf
  rw [(ArbiterMove.refillNode m k).look]

/-- A lowering that the queues of the node fit brings the refilled node to its committed rate (R497). -/
theorem node_applyNodeLowering (hl : (node m k).lowering = true) (hfit : nodeFits m k = true) (j : Nat) :
    node (applyNodeLowering m k) j = node (withCommittedRate (refillNode m k) k) j := by
  unfold applyNodeLowering withCommittedRate
  rw [if_pos ⟨hl, hfit⟩, inf_refillNode]
  exact node_raise ..

/-! ### The commands -/

@[simp] theorem node_settleOver (m : Mod) (k : Nat) : node (settleOver m) k = node m k := by unfold node; rw [settleOver_nodes]

variable {s : State}

theorem exec_queueDrained {q : Fin 32768} (hr : s.mod.sys.running = true) :
    exec (.queueDrained q) s = .next (finish (s.upd (drained s.mod q))) :=
  run_whileOn (c := .queueDrained q) "QUEUE_DRAINED" (fun m => drained m q) rfl hr

theorem exec_rateLoweringApplied {q : Fin 32768} (hr : s.mod.sys.running = true) :
    exec (.rateLoweringApplied q) s = .next (finish (s.upd (applyLowering s.mod q))) :=
  run_whileOn (c := .rateLoweringApplied q) "RATE_LOWERING_APPLIED" (fun m => applyLowering m q) rfl hr

theorem exec_berthNodeLoweringApplied {b : Fin 256} {p : Fin 64} (hr : s.mod.sys.running = true) :
    exec (.berthNodeLoweringApplied b p) s = .next (finish (s.upd (applyNodeLowering s.mod (b.val * 64 + p.val)))) :=
  run_whileOn (c := .berthNodeLoweringApplied b p) "BERTH_NODE_LOWERING_APPLIED" (fun m => applyNodeLowering m (b.val * 64 + p.val)) rfl hr

/-- Settles O32: a lowering tried first leaves a drained queue empty and draining, so it is disabled; a lowering that fits takes the rates committed
for admission, or the node's committed rate, and each command keeps every other queue or node. -/
theorem drainsAndLoweringsComplete : Obligations.DrainsAndLoweringsComplete := by
  refine ⟨fun s q hr hd hf => ⟨_, exec_queueDrained hr, ?_⟩, fun s q hr hl hb => ⟨_, exec_rateLoweringApplied hr, ?_⟩,
    fun s b p hr hl hfit => ⟨_, exec_berthNodeLoweringApplied hr, ?_⟩⟩
  · simp only [finish_mod, State.upd_mod, queue_settleOver, queue_drained hd hf, queue_setQueue_same, true_and]
    intro r h
    rw [queue_setQueue_ne _ _ h, queue_applyLowering_ne _ h]
  · simp only [finish_mod, State.upd_mod, queue_settleOver, queue_applyLowering_fits hl hb, frames_switchRates, true_and]
    rw [queue_switchRates_same]
    exact ⟨rfl, rfl, fun r h => queue_switchRates_ne _ h⟩
  · simp only [finish_mod, State.upd_mod, node_settleOver, node_applyNodeLowering hl hfit]
    obtain ⟨hlowered, hrate⟩ := node_withCommittedRate_same (refillNode s.mod (b.val * 64 + p.val)) (b.val * 64 + p.val)
    refine ⟨hlowered, by rw [hrate, inf_refillNode], fun j h => ?_⟩
    rw [node_withCommittedRate_ne _ h, node_refillNode_ne _ h]

end Sys2Proof.Machine
end

