-- ==== Sys2Proof/Proofs/TimeWrites.lean ====
section
/-! PROOFS. The writes that the host steers the network time by: increment, slew, step and time (R553, R557 to R561). -/

namespace Sys2Proof.Machine

/-! ### Signed numbers and times as bytes -/

theorem length_bytesOf (n v : Nat) : (bytesOf n v).length = n := by
  induction n with
  | zero => rfl
  | succ n ih => rw [bytesOf, List.length_cons, ih]

/-- A signed number that fits its bytes is what they hold. -/
theorem intOf_bytesOfInt {n : Nat} {x : Int} (hn : 0 < n) (hx : fitsI (8 * n) x = true) : intOf (bytesOfInt n x) = x := by
  obtain ⟨lo, hi⟩ := of_decide_eq_true hx
  have halves : 2 ^ (8 * n) = 2 * 2 ^ (8 * n - 1) := by rw [← Nat.pow_succ']; congr 1; omega
  have bytes : 256 ^ n = 2 * 2 ^ (8 * n - 1) := by rw [← halves, Nat.pow_mul]
  have wrapped : x % (256 ^ n : Nat) = if x < 0 then x + (256 ^ n : Nat) else x := by
    split
    · rw [Int.emod_eq_add_self_emod]
      exact Int.emod_eq_of_lt (by omega) (by omega)
    · exact Int.emod_eq_of_lt (by omega) (by omega)
  have value : natOf (bytesOfInt n x) = (x % (256 ^ n : Nat)).toNat := natOf_bytesOf (by rw [wrapped]; split <;> omega)
  unfold intOf
  rw [value, wrapped, show (bytesOfInt n x).length = n from length_bytesOf n _, halves, bytes]
  split <;> split <;> omega

theorem natAt_time {sec ns : Nat} (hs : sec < 2 ^ 48) (hn : ns < 2 ^ 32) :
    natAt (bytesOf 6 sec ++ bytesOf 4 ns) 0 6 = sec ∧ natAt (bytesOf 6 sec ++ bytesOf 4 ns) 6 4 = ns := by
  have h6 : (bytesOf 6 sec).length = 6 := length_bytesOf 6 sec
  have h4 : (bytesOf 4 ns).length = 4 := length_bytesOf 4 ns
  have head : sub (bytesOf 6 sec ++ bytesOf 4 ns) 0 6 = bytesOf 6 sec := by unfold sub; rw [List.drop_zero, List.take_left' h6]
  have tail : sub (bytesOf 6 sec ++ bytesOf 4 ns) 6 4 = bytesOf 4 ns := by unfold sub; rw [List.drop_left' h6, List.take_of_length_le h4.le]
  unfold natAt
  rw [head, tail]
  exact ⟨natOf_bytesOf hs, natOf_bytesOf hn⟩

/-! ### A record of any object, in effect at once -/

/-- What a cleared record's check answers: its object's row, and the value that its bytes decode to. -/
theorem recordCheck_of_clears {m : Mod} {i idx sub : Nat} {elem : Option Nat} {data : Octets} {o : Obj} (h : Clears m i idx sub elem data)
    (hrow : objRow idx sub = some o) : ∃ v, decodeVal o.ty data = some v ∧ recordCheck m i (recOf idx sub elem data) = .ok (o, v) := by
  cases hc : recordCheck m i (recOf idx sub elem data) with
  | error x => rw [Clears, hc] at h; cases h
  | ok y =>
    obtain ⟨hrow', hdec⟩ := recordCheck_ok (o := y.1) (v := y.2) hc
    have ho : y.1 = o := Option.some.inj (hrow'.symm.trans hrow)
    exact ⟨y.2, ho ▸ hdec, by rw [← ho]⟩

variable {s : State} {h : Hdr} {i : Nat}

/-- An accepted WRITE of one record of an object that is not kept pending, whose effect keeps the sessions: the time is the effect's, and the message is
answered with its status. -/
theorem writeRow_time {idx sub : Nat} {elem : Option Nat} {data : Octets} {v : Val} {f : Eff} (o : Obj)
    (hw : WriteClears s.mod h i idx sub elem data) (hrow : objRow idx sub = some o) (hacc : o.acc ≠ .rwc) (hdec : decodeVal o.ty data = some v)
    (hx : isExpert (recOf idx sub elem data) = false) (hf : effect (s.upd (accept s.mod h i)) i idx sub (elem.getD 0) v = f)
    (hm : f.s.mod.mgmt = (accept s.mod h i).mgmt) :
    (finish (writeRow s h idx sub elem data)).mod.time = f.s.mod.time ∧
      Answered (finish (writeRow s h idx sub elem data)).mod i h.sequence f.status := by
  obtain ⟨haccept, hclr⟩ := hw
  obtain ⟨v', hdec', hchk⟩ := recordCheck_of_clears hclr hrow
  obtain rfl : v' = v := Option.some.inj (hdec'.symm.trans hdec)
  obtain ⟨bodies, hb, hone⟩ := writeOne_effect (s := s.upd (accept s.mod h i)) hchk hacc hx
  rw [show effect (s.upd (accept s.mod h i)) i (recOf idx sub elem data).addr.idx (recOf idx sub elem data).addr.sub
    (recOf idx sub elem data).addr.elem v' = f from hf] at hone
  have hsess : sess f.s.mod i = sess (accept s.mod h i) i := by unfold sess; rw [hm]
  rw [finish_mod, writeRow, serve_accepted _ _ _ i _ haccept, hone, State.upd_mod, settleOver_time, replySealed_time]
  obtain ⟨-, -, -, h2, -⟩ := haccept
  exact ⟨rfl, (wrote_replySealed hb (by rw [hsess, sess_accept_same]; exact h2) (by rw [hsess, sess_accept_same])).answered⟩

/-! ### Changes that the host steers the time by -/

/-- A change in its range: accepted while the host steers the counter, refused while another source does (R557). -/
def steered (m : Mod) (c : TimeChange) : Mod × Nat × Nat :=
  if hostSteers m then ((acceptChange m c).1, 0, (acceptChange m c).2) else (m, 0x4002, 0)

variable {m : Mod}

theorem writeIncrement_inRange {v : Nat} (lo : 1717815119 ≤ v) (hi : v ≤ 1718158717) : writeIncrement m v = steered m (.increment v) := by
  unfold writeIncrement steered
  rw [if_neg (by omega)]
  cases hostSteers m <;> rfl

theorem writeSlew_inRange {x : Int} (hx : x.natAbs ≤ 1000000) : writeSlew m x = steered m (.slew x) := by
  unfold writeSlew steered
  rw [if_neg (by omega)]
  cases hostSteers m <;> rfl

theorem writeStep_inRange {x : Int} (h0 : x ≠ 0) (hx : x.natAbs < 2 ^ 62) (lo : 0 ≤ (edgeValue m : Int) + x * 4294967296)
    (hi : (edgeValue m : Int) + x * 4294967296 < maxTime) : writeStep m x = steered m (.step x) := by
  unfold writeStep steered
  simp only [if_neg (show ¬(x = 0 ∨ 2 ^ 62 ≤ x.natAbs) by omega),
    if_neg (show ¬((edgeValue m : Int) + x * 4294967296 < 0 ∨ (maxTime : Int) ≤ (edgeValue m : Int) + x * 4294967296) by omega)]
  cases hostSteers m <;> rfl

theorem writeTime_inRange {t : Time80} (hn : t.ns < nsPerSec) (hs : t.sec < 2 ^ 48) : writeTime m t = steered m (.set (t.sec * nsPerSec + t.ns)) := by
  unfold writeTime steered
  rw [if_neg (by omega)]
  cases hostSteers m <;> rfl

theorem steered_mgmt (m : Mod) (c : TimeChange) : (steered m c).1.mgmt = m.mgmt := by
  unfold steered
  split <;> rfl

theorem steered_changes (m : Mod) (c : TimeChange) :
    (steered m c).1.time.changes = m.time.changes ++ if hostSteers m then [(2 * m.sys.elapsed + 2500, c)] else [] := by
  unfold steered
  split
  · rfl
  · exact (List.append_nil _).symm

theorem steered_status (m : Mod) (c : TimeChange) : (steered m c).2.1 = if hostSteers m then 0 else 0x4002 := by
  unfold steered
  split <;> rfl

/-- An accepted write of a change in its range: the change waits for its edge, or is refused (R557, R558). -/
theorem steered_written {sub : Nat} {data : Octets} {v : Val} {c : TimeChange} (o : Obj) (hw : WriteClears s.mod h i 0x7000 sub none data)
    (hrow : objRow 0x7000 sub = some o) (hacc : o.acc ≠ .rwc) (hdec : decodeVal o.ty data = some v)
    (hf : effect (s.upd (accept s.mod h i)) i 0x7000 sub 0 v = effT (s.upd (accept s.mod h i)) (steered (accept s.mod h i) c)) :
    (finish (writeRow s h 0x7000 sub none data)).mod.time.changes =
        s.mod.time.changes ++ (if hostSteers s.mod then [(2 * s.mod.sys.elapsed + 2500, c)] else []) ∧
      Answered (finish (writeRow s h 0x7000 sub none data)).mod i h.sequence (if hostSteers s.mod then 0 else 0x4002) := by
  obtain ⟨ht, ha⟩ := writeRow_time o hw hrow hacc hdec rfl hf (steered_mgmt ..)
  rw [ht]
  exact ⟨steered_changes .., (steered_status (accept s.mod h i) c) ▸ ha⟩

theorem exec_timeIncrementWrite {v : Nat} (hw : (Instr.timeIncrementWrite h v).wf = true) :
    exec (.timeIncrementWrite h v) s = .next (finish (writeRow s h 0x7000 2 none (b4 v))) :=
  run_wf "TIME_INCREMENT_WRITE" _ s (fun s => writeRow s h 0x7000 2 none (b4 v)) hw
theorem exec_timeSlewWrite {x : Int} (hw : (Instr.timeSlewWrite h x).wf = true) :
    exec (.timeSlewWrite h x) s = .next (finish (writeRow s h 0x7000 3 none (bytesOfInt 4 x))) :=
  run_wf "TIME_SLEW_WRITE" _ s (fun s => writeRow s h 0x7000 3 none (bytesOfInt 4 x)) hw
theorem exec_timeStepWrite {x : Int} (hw : (Instr.timeStepWrite h x).wf = true) :
    exec (.timeStepWrite h x) s = .next (finish (writeRow s h 0x7000 4 none (bytesOfInt 8 x))) :=
  run_wf "TIME_STEP_WRITE" _ s (fun s => writeRow s h 0x7000 4 none (bytesOfInt 8 x)) hw
theorem exec_timeSetWrite {t : Time80} (hw : (Instr.timeSetWrite h t).wf = true) :
    exec (.timeSetWrite h t) s = .next (finish (writeRow s h 0x7000 5 none (bytesOf 6 t.sec ++ bytesOf 4 t.ns))) :=
  run_wf "TIME_SET_WRITE" _ s (fun s => writeRow s h 0x7000 5 none (bytesOf 6 t.sec ++ bytesOf 4 t.ns)) hw

/-- The time that a cleared write of the time counter sets (R10). -/
theorem setTime_decoded {t : Time80} {o : Obj} (hwf : t.wf = true) (hc : Clears m i 0x7000 5 none (bytesOf 6 t.sec ++ bytesOf 4 t.ns))
    (hrow : objRow 0x7000 5 = some o) (hty : o.ty = .time) :
    t.ns < nsPerSec ∧ decodeVal o.ty (bytesOf 6 t.sec ++ bytesOf 4 t.ns) = some (.nat (t.sec * nsPerSec + t.ns)) := by
  obtain ⟨hs, hn⟩ := of_decide_eq_true hwf
  obtain ⟨v, hdec, -⟩ := recordCheck_of_clears hc hrow
  obtain ⟨sec, ns⟩ := natAt_time hs hn
  rw [hty] at hdec ⊢
  unfold decodeVal at hdec ⊢
  simp only [sec, ns] at hdec ⊢
  split at hdec
  · exact ⟨‹_›, if_pos ‹_›⟩
  · cases hdec

end Sys2Proof.Machine
end

