-- ==== Sys2Proof/Proofs/CounterSteps.lean ====
section
/-! PROOFS. What a step of a harbour's counter acts on, and what it leaves alone (R562, R604, R607). -/

namespace Sys2Proof.Machine

/-! ### What a step of a counter leaves alone -/

/-- The parts that no work due to a step touches: the module's own state, and of the time all but captures and triggers. -/
def besidePins (m : Mod) : Sys × TimeSt := (m.sys, { m.time with caps := [], trigs := [] })

variable {m n : Mod}

theorem besidePins_of_eq (hs : n.sys = m.sys) (ht : n.time = m.time) : besidePins n = besidePins m := by unfold besidePins; rw [hs, ht]

@[simp] theorem besidePins_bump (m : Mod) (idx sub elem k : Nat) : besidePins (bump m idx sub elem k) = besidePins m :=
  besidePins_of_eq (bump_sys ..) (bump_time ..)

theorem besidePins_gateStep (m : Mod) (p before after : Nat) : besidePins (gateStep m p before after) = besidePins m := by
  unfold gateStep
  dsimp only
  split <;> rfl

theorem besidePins_toBin15 (m : Mod) (p : Nat) (s : Second) : besidePins (toBin15 m p s) = besidePins m := by
  unfold toBin15
  split
  · rfl
  · dsimp only
    split <;> rfl

theorem besidePins_toBin24 (m : Mod) (p : Nat) (s : Second) : besidePins (toBin24 m p s) = besidePins m := by
  unfold toBin24
  split
  · rfl
  · dsimp only
    split <;> rfl

theorem besidePins_setPm (m : Mod) (p : Nat) (x : Pm) : besidePins (setPm m p x) = besidePins m := rfl
theorem besidePins_close15 (m : Mod) (p next : Nat) : besidePins (close15 m p next) = besidePins m := rfl
theorem besidePins_close24 (m : Mod) (p next : Nat) : besidePins (close24 m p next) = besidePins m := rfl

theorem besidePins_flush15 (m : Mod) (p : Nat) : besidePins (flush15 m p) = besidePins m := by
  unfold flush15
  rw [besidePins_setPm, foldl_keeps besidePins _ fun m s => besidePins_toBin15 m p s]

theorem besidePins_flush24 (m : Mod) (p : Nat) : besidePins (flush24 m p) = besidePins m := by
  unfold flush24
  rw [besidePins_setPm, foldl_keeps besidePins _ fun m s => besidePins_toBin24 m p s]

theorem besidePins_pmStep (m : Mod) (p before after : Nat) : besidePins (pmStep m p before after) = besidePins m := by
  unfold pmStep
  simp only [apply_ite besidePins, besidePins_close15, besidePins_close24, besidePins_setPm, besidePins_flush15, besidePins_flush24, ite_self]

theorem besidePins_scheduledSwitch (m : Mod) (a : Nat) : besidePins (scheduledSwitch m a) = besidePins m := by
  unfold scheduledSwitch switchInForce
  split
  · split <;> rfl
  · rfl

theorem besidePins_emit (m : Mod) (o : Out) : besidePins (emit m o) = besidePins m := rfl
theorem besidePins_setObj (m : Mod) (idx sub elem : Nat) (v : Val) : besidePins (setObj m idx sub elem v) = besidePins m := rfl
theorem besidePins_setTrig (m : Mod) (i : Nat) (x : Trig) : besidePins (setTrig m i x) = besidePins m := rfl

theorem besidePins_firePulse (m : Mod) (i at_ edge : Nat) : besidePins (firePulse m i at_ edge) = besidePins m := by
  unfold firePulse
  rw [besidePins_emit, besidePins_setObj, besidePins_bump, besidePins_setTrig]

theorem besidePins_countNow (m : Mod) (l : Nat) : besidePins (countNow m l) = besidePins m := by
  unfold countNow countLane
  split
  · rfl
  · dsimp only
    cases lanePowered m l <;> cases inf m 0x3000 9 l != 0 <;> simp <;> rfl

theorem besidePins_captureNow (m : Mod) (h : Nat) (stepped : Bool) : besidePins (captureNow m h stepped) = besidePins m :=
  foldl_keeps besidePins countNow besidePins_countNow _ m

theorem besidePins_snapStep (m : Mod) (h before : Nat) : besidePins (snapStep m h before) = besidePins m := by
  unfold snapStep
  dsimp only
  split
  · exact besidePins_captureNow ..
  · rfl

/-- What a step of a harbour's counter acts on is gates, PM bins, captures, triggers, key switches and the snapshot (R562). -/
theorem besidePins_stepEffects (m : Mod) (h before : Nat) : besidePins (stepEffects m h before) = besidePins m := by
  unfold stepEffects
  dsimp only
  rw [foldl_keeps besidePins]
  · rw [foldl_keeps besidePins]
    · rw [foldl_keeps besidePins _ fun m p => besidePins_pmStep m p before (nowH _ h), foldl_keeps besidePins _ fun m p => besidePins_gateStep m p before _]
    · exact fun _ _ => rfl
  · intro n x
    split
    · exact besidePins_scheduledSwitch ..
    · exact besidePins_firePulse n _ _ (counterOf n h).val
    · exact besidePins_snapStep ..

/-- A counter moved by a step, its slew discarded (R561). -/
def Ctr.moved (c : Ctr) (x : Int) : Ctr := { c with val := ((c.val : Int) + x).toNat, slew := 0, resid := 0 }

/-- The counters of the harbours that take a step, moved and counted. -/
def stepTaken (m : Mod) (x : Int) : Mod :=
  { m with time := { m.time with
      c0 := m.time.c0.moved x, c1 := if m.time.linkUp then m.time.c1.moved x else m.time.c1, lastStep := nowH m 0, steps := satAdd 32 m.time.steps 1 } }

theorem besidePins_stepBy (m : Mod) (x : Int) (cause : Nat) : besidePins (stepBy m x cause) = besidePins (stepTaken m x) := by
  unfold stepBy stepTaken
  dsimp only
  split
  · rw [besidePins_stepEffects, besidePins_stepEffects]
    rfl
  · rw [besidePins_stepEffects]
    rfl

end Sys2Proof.Machine
end

