-- ==== Sys2Proof/Proofs/TimeChanges.lean ====
section
/-! PROOFS. Accepted changes of the network time at their edges in both harbours, and a slew that runs out (R558, R559, R561, R572, R574). -/

namespace Sys2Proof.Machine

variable {m : Mod} {s : State}

/-! ### The time while it passes -/

/-- Time passing runs the counters and keeps records of increments and of frames sent; the rest of the time stays. -/
theorem advance_time (m : Mod) (n : Nat) :
    ∃ c0 c1 locked tts, (advance m n).time = { m.time with c0 := c0, c1 := c1, locked := locked, tts := tts } := by
  obtain ⟨c0, c1, locked, tts, _, _, _, _, _, _, _, h⟩ := advance_form m n
  exact ⟨c0, c1, locked, tts, by rw [h]⟩

theorem advanceTo_time (m : Mod) (t : Nat) :
    ∃ c0 c1 locked tts, (advanceTo m t).time = { m.time with c0 := c0, c1 := c1, locked := locked, tts := tts } := advance_time ..

/-! ### Changes at their edge -/

/-- The module on the edge of its oldest accepted change, which no longer waits (R558). -/
def atEdge (m : Mod) (e : Nat) (rest : List (Nat × TimeChange)) : Mod :=
  { advanceTo m (ceilDiv e 2) with time := { (advanceTo m (ceilDiv e 2)).time with changes := rest } }

theorem le_atEdge_elapsed (m : Mod) (e : Nat) (rest : List (Nat × TimeChange)) : e ≤ 2 * (atEdge m e rest).sys.elapsed := by
  have reached : ceilDiv e 2 ≤ (atEdge m e rest).sys.elapsed := le_advanceTo_elapsed m (ceilDiv e 2)
  have edges := le_ceilDiv_mul e (b := 2) (by decide)
  omega

/-- The link and the count of steps are as before on the edge. -/
theorem atEdge_time (m : Mod) (e : Nat) (rest : List (Nat × TimeChange)) :
    (atEdge m e rest).time.linkUp = m.time.linkUp ∧ (atEdge m e rest).time.steps = m.time.steps := by
  obtain ⟨_, _, _, _, h⟩ := advanceTo_time m (ceilDiv e 2)
  unfold atEdge
  rw [h]
  exact ⟨rfl, rfl⟩

theorem changeEdge_cons {e : Nat} {c : TimeChange} {rest : List (Nat × TimeChange)} (h : m.time.changes = (e, c) :: rest) :
    changeEdge m = applyChange (atEdge m e rest) c := by
  unfold changeEdge
  rw [h]
  rfl

theorem applyChange_increment (m : Mod) (v : Nat) :
    (applyChange m (.increment v)).time.c0.inc = v ∧ (m.time.linkUp = true → (applyChange m (.increment v)).time.c1.inc = v) := by
  refine ⟨rfl, fun hl => ?_⟩
  simp [applyChange, hl, Ctr.change]

theorem applyChange_slew (m : Mod) (x : Int) :
    (applyChange m (.slew x)).time.c0.slew = x * 4294967296 ∧
      (m.time.linkUp = true → (applyChange m (.slew x)).time.c1.slew = x * 4294967296) := by
  refine ⟨rfl, fun hl => ?_⟩
  simp [applyChange, hl, Ctr.change]

theorem stepBy_time (m : Mod) (x : Int) (cause : Nat) :
    (stepBy m x cause).time.c0 = m.time.c0.moved x ∧ (stepBy m x cause).time.steps = satAdd 32 m.time.steps 1 ∧
      (stepBy m x cause).time.changes = m.time.changes ∧ (stepBy m x cause).sys = m.sys := by
  have h := besidePins_stepBy m x cause
  exact ⟨congrArg (·.2.c0) h, congrArg (·.2.steps) h, congrArg (·.2.changes) h, congrArg (·.1) h⟩

/-- A change on its edge neither takes time nor touches the changes behind it. -/
theorem applyChange_keeps (m : Mod) (c : TimeChange) : (applyChange m c).time.changes = m.time.changes ∧ (applyChange m c).sys = m.sys := by
  cases c with
  | increment v => exact ⟨rfl, rfl⟩
  | slew x => exact ⟨rfl, rfl⟩
  | step x => exact (stepBy_time ..).2.2
  | set v => exact (stepBy_time ..).2.2

/-! ### A slew that runs out -/

/-- A counter whose slew is no more than one part in 10,000 of what its edges add has no slew left (R559). -/
theorem Ctr.run_slewed_out {c : Ctr} {edges : Nat} (h : c.slew.natAbs * 10000 ≤ edges * c.inc + c.resid) : (c.run edges).slew = 0 := by
  unfold Ctr.run
  split
  · assumption
  · have whole : c.slew.natAbs ≤ (edges * c.inc + c.resid) / 10000 := (Nat.le_div_iff_mul_le (by decide)).mpr h
    simp only [min_eq_right whole]
    split <;> omega

theorem slewComplete_slew (hr : m.sys.running = true) (hs : m.time.c0.slew ≠ 0) (hi : 0 < m.time.c0.inc) :
    (slewComplete m).time.c0.slew = 0 ∧ m.sys.elapsed ≤ (slewComplete m).sys.elapsed := by
  have edges := le_ceilDiv_mul (m.time.c0.slew.natAbs * 10000 - m.time.c0.resid) hi
  have cycles := le_ceilDiv_mul (ceilDiv (m.time.c0.slew.natAbs * 10000 - m.time.c0.resid) m.time.c0.inc) (b := 2) (by decide)
  unfold slewComplete
  dsimp only
  rw [if_neg (by simp [hs, hr]; omega)]
  generalize ceilDiv (ceilDiv (m.time.c0.slew.natAbs * 10000 - m.time.c0.resid) m.time.c0.inc) 2 = n at cycles
  refine ⟨?_, by rw [advance_elapsed]; omega⟩
  have ran : (advance m n).time.c0 = m.time.c0.run (2 * n) := counterOf_advance hr n 0
  rw [ran]
  refine Ctr.run_slewed_out ?_
  have enough := Nat.mul_le_mul_right m.time.c0.inc cycles
  rw [Nat.mul_comm n 2] at enough
  omega

/-! ### The commands -/

theorem exec_timeChangeEdge (hr : s.mod.sys.running = true) : exec .timeChangeEdge s = .next (finish (s.upd (changeEdge s.mod))) :=
  run_whileOn (c := .timeChangeEdge) "TIME_CHANGE_EDGE" changeEdge rfl hr
theorem exec_slewComplete (hr : s.mod.sys.running = true) : exec .slewComplete s = .next (finish (s.upd (slewComplete s.mod))) :=
  run_whileOn (c := .slewComplete) "SLEW_COMPLETE" slewComplete rfl hr

/-- Settles O35: a write in its range is accepted or refused by who steers the counter, and waits behind the others; on its edge it changes the counters
or steps them, and what a step acts on leaves the counters alone. -/
theorem timeChangesWaitForTheirEdge : Obligations.TimeChangesWaitForTheirEdge := by
  refine ⟨⟨fun s h i v hw hc lo hi => ⟨_, exec_timeIncrementWrite hw, ?_⟩, fun s h i x hw hc hx => ⟨_, exec_timeSlewWrite hw, ?_⟩,
    fun s h i x hw hc h0 hx lo hi => ⟨_, exec_timeStepWrite hw, ?_⟩, fun s h i t hw hc => ⟨_, exec_timeSetWrite hw, ?_⟩⟩,
    fun s e c rest hr hch => ⟨_, exec_timeChangeEdge hr, ?_⟩, fun s hr hs hi => ⟨_, exec_slewComplete hr, ?_⟩⟩
  · obtain ⟨-, hv⟩ := Bool.and_eq_true_iff.mp hw
    exact steered_written (v := .nat v) _ hc rfl (by decide) (congrArg (some ∘ Val.nat) (natOf_bytesOf (of_decide_eq_true hv))) (congrArg (effT _) (writeIncrement_inRange lo hi))
  · obtain ⟨-, hv⟩ := Bool.and_eq_true_iff.mp hw
    exact steered_written (v := .int x) _ hc rfl (by decide) (congrArg (some ∘ Val.int) (intOf_bytesOfInt (by decide) hv)) (congrArg (effT _) (writeSlew_inRange hx))
  · obtain ⟨-, hv⟩ := Bool.and_eq_true_iff.mp hw
    exact steered_written (v := .int x) _ hc rfl (by decide) (congrArg (some ∘ Val.int) (intOf_bytesOfInt (by decide) hv)) (congrArg (effT _) (writeStep_inRange h0 hx lo hi))
  · obtain ⟨-, ht⟩ := Bool.and_eq_true_iff.mp hw
    obtain ⟨hs, -⟩ := of_decide_eq_true ht
    obtain ⟨hn, hdec⟩ := setTime_decoded ht hc.2 rfl rfl
    refine steered_written _ hc rfl (by decide) hdec (congrArg (effT _) ?_)
    have sec : (t.sec * nsPerSec + t.ns) / nsPerSec = t.sec := by unfold nsPerSec at hn ⊢; omega
    have ns : (t.sec * nsPerSec + t.ns) % nsPerSec = t.ns := by unfold nsPerSec at hn ⊢; omega
    rw [← writeTime_inRange hn hs]
    exact congrArg₂ (fun a b => writeTime _ ⟨a, b⟩) sec ns
  · obtain ⟨link, steps⟩ := atEdge_time s.mod e rest
    obtain ⟨waits, now⟩ := applyChange_keeps (atEdge s.mod e rest) c
    rw [finish_mod, State.upd_mod, settleOver_time, settleOver_sys, changeEdge_cons hch, waits, now, ← link, ← steps]
    refine ⟨rfl, le_atEdge_elapsed .., ?_, ?_, ?_, ?_⟩
    · rintro v rfl
      exact applyChange_increment ..
    · rintro x rfl
      exact applyChange_slew ..
    · rintro x rfl
      obtain ⟨c0, n, -⟩ := stepBy_time (atEdge s.mod e rest) (x * 4294967296) 0
      exact ⟨congrArg Ctr.slew c0, n⟩
    · rintro v rfl
      obtain ⟨c0, n, -⟩ := stepBy_time (atEdge s.mod e rest) ((v * 2 ^ 32 : Nat) - ((atEdge s.mod e rest).time.c0.val : Int)) 0
      refine ⟨(congrArg Ctr.val c0).trans ?_, congrArg Ctr.slew c0, n⟩
      show (((atEdge s.mod e rest).time.c0.val : Int) + ((v * 2 ^ 32 : Nat) - _)).toNat = v * 2 ^ 32
      omega
  · rw [finish_mod, State.upd_mod, settleOver_time, settleOver_sys]
    exact slewComplete_slew hr hs hi

end Sys2Proof.Machine
end

