-- ==== Sys2Proof/Proofs/Synchronisation.lean ====
section
/-! PROOFS. Synchronisation: the host lease, loss of a source and holdover (R557, R563, R565, R571), and the lockstep of the harbours (R573, R574). -/

namespace Sys2Proof.Machine

variable {m : Mod} {s : State} {h : Hdr} {i : Nat}

/-! ### The state of synchronisation -/

/-- Noting that a harbour is not synchronised changes PM bins alone (R189). -/
theorem noteUnsynced_form (m : Mod) : ∃ pm, noteUnsynced m = { m with pm := pm } := by
  unfold noteUnsynced
  generalize m.pm.map (·.1) = l
  induction l generalizing m with
  | nil => exact ⟨m.pm, rfl⟩
  | cons p r ih =>
    rw [List.foldl_cons]
    split
    · exact ih m
    · obtain ⟨pm, hpm⟩ := ih (setPm m p { pmOf m p with untraceable := true })
      exact ⟨pm, hpm⟩

@[simp] theorem noteUnsynced_time (m : Mod) : (noteUnsynced m).time = m.time := by obtain ⟨_, h⟩ := noteUnsynced_form m; rw [h]
@[simp] theorem noteUnsynced_sys (m : Mod) : (noteUnsynced m).sys = m.sys := by obtain ⟨_, h⟩ := noteUnsynced_form m; rw [h]
@[simp] theorem noteUnsynced_mgmt (m : Mod) : (noteUnsynced m).mgmt = m.mgmt := by obtain ⟨_, h⟩ := noteUnsynced_form m; rw [h]

/-- A change of state: the state, the servo's runs, PM bins and events (R565). -/
theorem setSync_form (m : Mod) (st : Nat) :
    ∃ good bad pm ev, setSync m st = { m with time := { m.time with state := st, good := good, bad := bad }, pm := pm, ev := ev } := by
  unfold setSync
  split
  · rename_i hst
    exact ⟨m.time.good, m.time.bad, m.pm, m.ev, by rw [← hst]⟩
  · dsimp only
    generalize hr : raise (raise _ _ _ _ _) _ _ _ _ = n
    obtain ⟨pm, h⟩ := noteUnsynced_form n
    rw [h, ← hr]
    exact ⟨0, 0, pm, _, rfl⟩

@[simp] theorem setSync_state (m : Mod) (st : Nat) : (setSync m st).time.state = st := by obtain ⟨_, _, _, _, h⟩ := setSync_form m st; rw [h]
@[simp] theorem setSync_sys (m : Mod) (st : Nat) : (setSync m st).sys = m.sys := by obtain ⟨_, _, _, _, h⟩ := setSync_form m st; rw [h]
@[simp] theorem setSync_mgmt (m : Mod) (st : Nat) : (setSync m st).mgmt = m.mgmt := by obtain ⟨_, _, _, _, h⟩ := setSync_form m st; rw [h]
@[simp] theorem setSync_leaseEnd (m : Mod) (st : Nat) : (setSync m st).time.leaseEnd = m.time.leaseEnd := by
  obtain ⟨_, _, _, _, h⟩ := setSync_form m st; rw [h]
@[simp] theorem setSync_ppsSec (m : Mod) (st : Nat) : (setSync m st).time.ppsSec = m.time.ppsSec := by
  obtain ⟨_, _, _, _, h⟩ := setSync_form m st; rw [h]

/-- Locked passes to holdover without a slew (R565, R566). -/
theorem enterHoldover_locked (hst : m.time.state = 1) :
    (enterHoldover m).time.state = 2 ∧ (enterHoldover m).time.c0.slew = 0 ∧ (enterHoldover m).time.holdAt = m.sys.elapsed := by
  unfold enterHoldover
  rw [if_neg (not_not.mpr hst)]
  dsimp only
  generalize hn : ({ m with time := _ } : Mod) = n
  obtain ⟨_, _, _, _, h⟩ := setSync_form n 2
  rw [h, ← hn]
  exact ⟨rfl, rfl, rfl⟩

theorem enterHoldover_keeps (m : Mod) :
    (enterHoldover m).sys = m.sys ∧ (enterHoldover m).mgmt = m.mgmt ∧ (enterHoldover m).time.leaseEnd = m.time.leaseEnd := by
  unfold enterHoldover
  split
  · exact ⟨rfl, rfl, rfl⟩
  · exact ⟨setSync_sys .., setSync_mgmt .., setSync_leaseEnd ..⟩

/-- A source lost while locked: holdover from now on, without a slew (R563, R565). -/
theorem sourceLost_locked (hst : m.time.state = 1) (cause : Nat) :
    (sourceLost m cause).time.state = 2 ∧ (sourceLost m cause).time.c0.slew = 0 ∧
      (sourceLost m cause).time.holdAt = (sourceLost m cause).sys.elapsed ∧ (sourceLost m cause).sys = m.sys := by
  obtain ⟨h2, hslew, hat⟩ := enterHoldover_locked (m := raise m 0x7005 srcModule 0 (b1 m.time.src ++ b1 cause)) hst
  obtain ⟨hsys, -⟩ := enterHoldover_keeps (raise m 0x7005 srcModule 0 (b1 m.time.src ++ b1 cause))
  exact ⟨h2, hslew, hat.trans (congrArg Sys.elapsed hsys).symm, hsys⟩

/-! ### The host lease -/

theorem endLease_spec (m : Mod) (cause : Nat) :
    (endLease m cause).time.leaseEnd = none ∧ (endLease m cause).sys = m.sys ∧ (endLease m cause).mgmt = m.mgmt ∧
      (m.time.state = 1 → (endLease m cause).time.state = 2) := by
  unfold endLease sourceLost
  generalize hn : raise (raise _ _ _ _ _) _ _ _ _ = n
  have none : n.time.leaseEnd = none ∧ n.time.state = m.time.state ∧ n.sys = m.sys ∧ n.mgmt = m.mgmt := by rw [← hn]; exact ⟨rfl, rfl, rfl, rfl⟩
  obtain ⟨hend, hstate, hs, hm⟩ := none
  obtain ⟨hsys, hmgmt, hlease⟩ := enterHoldover_keeps n
  exact ⟨hlease.trans hend, hsys.trans hs, hmgmt.trans hm, fun hst => (enterHoldover_locked (hstate.trans hst)).1⟩

theorem writeLease_started (hsrc : m.time.src = 4) {v : Nat} (hv : v ≠ 0) :
    (writeLease m v).1.time.leaseEnd = some (m.sys.elapsed + v * secCycles) ∧ (writeLease m v).1.time.state = 1 ∧ (writeLease m v).2 = 0 := by
  unfold writeLease
  rw [if_neg (not_not.mpr hsrc), if_neg hv]
  exact ⟨setSync_leaseEnd .., setSync_state .., rfl⟩

theorem writeLease_ended (hsrc : m.time.src = 4) :
    (writeLease m 0).1.time.leaseEnd = none ∧ (writeLease m 0).2 = 0 ∧
      (m.time.leaseEnd.isSome = true → m.time.state = 1 → (writeLease m 0).1.time.state = 2) := by
  obtain ⟨hnone, -, -, hhold⟩ := endLease_spec m 1
  unfold writeLease
  rw [if_neg (not_not.mpr hsrc), if_pos rfl]
  split
  · exact ⟨hnone, rfl, fun _ => hhold⟩
  · exact ⟨Option.not_isSome_iff_eq_none.mp ‹_›, rfl, fun h => absurd h ‹_›⟩

theorem writeLease_refused (hsrc : m.time.src ≠ 4) (v : Nat) : writeLease m v = (m, 0x4002) := if_pos hsrc

theorem writeLease_mgmt (m : Mod) (v : Nat) : (writeLease m v).1.mgmt = m.mgmt := by
  obtain ⟨-, -, hmgmt, -⟩ := endLease_spec m 1
  unfold writeLease
  split
  · rfl
  · split
    · split
      · exact hmgmt
      · rfl
    · exact setSync_mgmt ..

theorem exec_hostLeaseWrite {v : Nat} (hw : (Instr.hostLeaseWrite h v).wf = true) :
    exec (.hostLeaseWrite h v) s = .next (finish (writeRow s h 0x7010 5 none (b1 v))) :=
  run_wf "HOST_LEASE_WRITE" _ s (fun s => writeRow s h 0x7010 5 none (b1 v)) hw

theorem hostLeaseWrite_written {v : Nat} (hw : (Instr.hostLeaseWrite h v).wf = true) (hc : WriteClears s.mod h i 0x7010 5 none (b1 v)) :
    (finish (writeRow s h 0x7010 5 none (b1 v))).mod.time = (writeLease (accept s.mod h i) v).1.time ∧
      Answered (finish (writeRow s h 0x7010 5 none (b1 v))).mod i h.sequence (writeLease (accept s.mod h i) v).2 := by
  obtain ⟨-, hv⟩ := Bool.and_eq_true_iff.mp hw
  exact writeRow_time (v := .nat v) (f := effN (s.upd (accept s.mod h i)) (writeLease (accept s.mod h i) v)) _ hc rfl (by decide)
    (congrArg (some ∘ Val.nat) (natOf_bytesOf (of_decide_eq_true hv))) rfl rfl (writeLease_mgmt ..)

theorem leaseExpires_spec {e : Nat} (hl : m.time.leaseEnd = some e) :
    (leaseExpires m).time.leaseEnd = none ∧ e ≤ (leaseExpires m).sys.elapsed ∧ (m.time.state = 1 → (leaseExpires m).time.state = 2) := by
  obtain ⟨hnone, hsys, -, hhold⟩ := endLease_spec (advanceTo m e) 0
  unfold leaseExpires
  rw [hl]
  exact ⟨hnone, by rw [hsys]; exact le_advanceTo_elapsed m e, fun hst => hhold ((advance_time_state ..).trans hst)⟩

/-! ### Sources lost, and holdover -/

/-- What is left where a locked source is lost. -/
structure HeldOver (n : Mod) : Prop where
  state : n.time.state = 2
  slew : n.time.c0.slew = 0
  since : n.time.holdAt = n.sys.elapsed

theorem HeldOver.of_sourceLost (hst : m.time.state = 1) (cause : Nat) : HeldOver (sourceLost m cause) := by
  obtain ⟨h2, hslew, hat, -⟩ := sourceLost_locked hst cause
  exact ⟨h2, hslew, hat⟩

theorem le_sourceLost_elapsed {t : Nat} (hst : m.time.state = 1) (h : t ≤ m.sys.elapsed) (cause : Nat) : t ≤ (sourceLost m cause).sys.elapsed := by
  obtain ⟨-, -, -, hsys⟩ := sourceLost_locked hst cause
  rwa [hsys]

/-- The module at the limit of source 1, whose last delay is out of date (R563). -/
def ptpOverdue (m : Mod) : Mod :=
  { advanceTo m (min m.time.measAt m.time.delayAt + 3 * secCycles) with
    time := { (advanceTo m (min m.time.measAt m.time.delayAt + 3 * secCycles)).time with ptpDelay := none } }

theorem loseSource_ptp (hst : m.time.state = 1) (hsrc : m.time.src = 1) : loseSource m = sourceLost (ptpOverdue m) 0 := by
  simp only [loseSource, hst, hsrc, ptpOverdue, ne_eq, not_true_eq_false, if_false]

theorem loseSource_transfer (hst : m.time.state = 1) (hsrc : m.time.src = 2) :
    loseSource m = if (rxOf m (inf m 0x7010 2 0)).st ≠ 2 then sourceLost m 1 else sourceLost (advanceTo m (m.time.measAt + secCycles)) 0 := by
  simp only [loseSource, hst, hsrc, ne_eq, not_true_eq_false, if_false]

theorem loseSource_pps (hst : m.time.state = 1) (hsrc : m.time.src = 3) :
    loseSource m = sourceLost (advanceTo m (m.time.measAt + 1500 * msCycles)) 2 := by
  simp only [loseSource, hst, hsrc, ne_eq, not_true_eq_false, if_false]

theorem loseSource_locked (hst : m.time.state = 1) (hsrc : m.time.src = 1 ∨ m.time.src = 2 ∨ m.time.src = 3) :
    HeldOver (loseSource m) ∧
      (m.time.src = 1 → min m.time.measAt m.time.delayAt + 3 * secCycles ≤ (loseSource m).sys.elapsed) ∧
      (m.time.src = 3 → m.time.measAt + 1500 * msCycles ≤ (loseSource m).sys.elapsed) := by
  have locked (t : Nat) : (advanceTo m t).time.state = 1 := (advance_time_state ..).trans hst
  obtain h1 | h2 | h3 := hsrc
  · have overdue : (ptpOverdue m).time.state = 1 := locked _
    rw [loseSource_ptp hst h1, h1]
    exact ⟨.of_sourceLost overdue 0, fun _ => le_sourceLost_elapsed overdue (le_advanceTo_elapsed m _) 0, nofun⟩
  · rw [loseSource_transfer hst h2, h2]
    refine ⟨?_, nofun, nofun⟩
    split
    · exact .of_sourceLost hst 1
    · exact .of_sourceLost (locked _) 0
  · rw [loseSource_pps hst h3, h3]
    exact ⟨.of_sourceLost (locked _) 2, nofun, fun _ => le_sourceLost_elapsed (locked _) (le_advanceTo_elapsed m _) 2⟩

theorem holdoverEnd_held (hst : m.time.state = 2) :
    (holdoverEnd m).time.state = 0 ∧ m.time.holdAt + inf m 0x7010 4 0 * secCycles ≤ (holdoverEnd m).sys.elapsed := by
  unfold holdoverEnd
  rw [if_neg (not_not.mpr hst)]
  exact ⟨setSync_state .., by rw [setSync_sys]; exact le_advanceTo_elapsed m _⟩

/-! ### Two harbours -/

/-- The module at its next whole millisecond (R573). -/
def nextMs (m : Mod) : Mod := advanceTo m ((m.sys.elapsed / msCycles + 1) * msCycles)

theorem nextMs_elapsed (m : Mod) : m.sys.elapsed < (nextMs m).sys.elapsed ∧ (nextMs m).sys.elapsed % msCycles = 0 := by
  have later : m.sys.elapsed < (m.sys.elapsed / msCycles + 1) * msCycles := by unfold msCycles; omega
  unfold nextMs
  rw [advanceTo_elapsed, max_eq_right later.le]
  exact ⟨later, Nat.mul_mod_left ..⟩

/-- The check at the millisecond: equal counters are in lockstep, others raise the fault and wait for the copy (R573). -/
theorem lockstepCheck_linked (hr : m.sys.running = true) (hl : m.time.linkUp = true) :
    (lockstepCheck m).sys = (nextMs m).sys ∧ (lockstepCheck m).time.c0 = (nextMs m).time.c0 ∧ (lockstepCheck m).time.c1 = (nextMs m).time.c1 ∧
      ((nextMs m).time.c1.val = (nextMs m).time.c0.val → (lockstepCheck m).time.lock1 = true ∧ (lockstepCheck m).time.copyAt = none) ∧
      ((nextMs m).time.c1.val ≠ (nextMs m).time.c0.val → (lockstepCheck m).time.lock1 = false ∧
        (lockstepCheck m).time.lockFaults = satAdd 32 m.time.lockFaults 1 ∧
        (lockstepCheck m).time.copyAt = some ((nextMs m).sys.elapsed + 10 * usCycles)) := by
  obtain ⟨_, _, _, _, ht⟩ := advanceTo_time m ((m.sys.elapsed / msCycles + 1) * msCycles)
  have link : (nextMs m).time.linkUp = true := by rw [nextMs, ht]; exact hl
  have faults : (nextMs m).time.lockFaults = m.time.lockFaults := by rw [nextMs, ht]
  unfold lockstepCheck
  rw [if_neg (by rw [hr]; decide), ← nextMs]
  dsimp only
  rw [if_neg (by rw [link]; decide)]
  split
  · exact ⟨rfl, rfl, rfl, fun _ => ⟨rfl, rfl⟩, fun h => absurd ‹_› h⟩
  · simp only [raise_sys, raise_time, noteUnsynced_sys, noteUnsynced_time, faults]
    exact ⟨trivial, trivial, trivial, fun h => absurd h ‹_›, fun _ => ⟨trivial, trivial, trivial⟩⟩

theorem lockstepCopy_linked {e : Nat} (hl : m.time.linkUp = true) (hc : m.time.copyAt = some e) :
    (lockstepCopy m).time.c1 = (lockstepCopy m).time.c0 ∧ (lockstepCopy m).time.lock1 = true ∧ (lockstepCopy m).time.copyAt = none ∧
      e ≤ (lockstepCopy m).sys.elapsed := by
  unfold lockstepCopy
  rw [hc]
  dsimp only
  rw [if_neg (by rw [advanceTo, advance_time_linkUp, hl]; decide)]
  generalize hn : raise _ _ _ _ _ = n
  have h := besidePins_stepEffects n 1 (nowH (advanceTo m e) 1)
  have hsys : (stepEffects n 1 (nowH (advanceTo m e) 1)).sys = n.sys := congrArg (·.1) h
  have hc1 : (stepEffects n 1 (nowH (advanceTo m e) 1)).time.c1 = n.time.c1 := congrArg (·.2.c1) h
  have hc0 : (stepEffects n 1 (nowH (advanceTo m e) 1)).time.c0 = n.time.c0 := congrArg (·.2.c0) h
  have hlock : (stepEffects n 1 (nowH (advanceTo m e) 1)).time.lock1 = n.time.lock1 := congrArg (·.2.lock1) h
  have hcopy : (stepEffects n 1 (nowH (advanceTo m e) 1)).time.copyAt = n.time.copyAt := congrArg (·.2.copyAt) h
  rw [hsys, hc1, hc0, hlock, hcopy, ← hn]
  exact ⟨rfl, rfl, rfl, le_advanceTo_elapsed m e⟩

/-! ### The commands -/

theorem exec_hostLeaseExpire (hr : s.mod.sys.running = true) : exec .hostLeaseExpire s = .next (finish (s.upd (leaseExpires s.mod))) :=
  run_whileOn (c := .hostLeaseExpire) "HOST_LEASE_EXPIRE" leaseExpires rfl hr
theorem exec_timeSourceLost (hr : s.mod.sys.running = true) : exec .timeSourceLost s = .next (finish (s.upd (loseSource s.mod))) :=
  run_whileOn (c := .timeSourceLost) "TIME_SOURCE_LOST" loseSource rfl hr
theorem exec_holdoverExpire (hr : s.mod.sys.running = true) : exec .holdoverExpire s = .next (finish (s.upd (holdoverEnd s.mod))) :=
  run_whileOn (c := .holdoverExpire) "HOLDOVER_EXPIRE" holdoverEnd rfl hr
theorem exec_lockstepCheck (hr : s.mod.sys.running = true) : exec .lockstepCheck s = .next (finish (s.upd (lockstepCheck s.mod))) :=
  run_whileOn (c := .lockstepCheck) "LOCKSTEP_CHECK" lockstepCheck rfl hr
theorem exec_lockstepCopy (hr : s.mod.sys.running = true) : exec .lockstepCopy s = .next (finish (s.upd (lockstepCopy s.mod))) :=
  run_whileOn (c := .lockstepCopy) "LOCKSTEP_COPY" lockstepCopy rfl hr
theorem exec_dieLinkDown (hr : s.mod.sys.running = true) : exec .dieLinkDown s = .next (finish (s.upd (dieLinkDown s.mod))) :=
  run_whileOn (c := .dieLinkDown) "DIE_LINK_DOWN" dieLinkDown rfl hr
theorem exec_dieLinkUp (hr : s.mod.sys.running = true) : exec .dieLinkUp s = .next (finish (s.upd (dieLinkUp s.mod))) :=
  run_whileOn (c := .dieLinkUp) "DIE_LINK_UP" dieLinkUp rfl hr

/-- Settles O36: a lease or a source that ends leaves holdover, which ends after its time; the harbours are compared on whole milliseconds, and what the
copy's step acts on leaves the counters alone. -/
theorem leasesHoldoverAndLockstep : Obligations.LeasesHoldoverAndLockstep := by
  refine ⟨⟨fun s h i v hw hc => ?_, fun s e hr hl => ⟨_, exec_hostLeaseExpire hr, ?_⟩, fun s hr hst hsrc => ⟨_, exec_timeSourceLost hr, ?_⟩,
    fun s hr hst => ⟨_, exec_holdoverExpire hr, ?_⟩⟩, fun s hr hl => ⟨_, exec_lockstepCheck hr, ?_⟩,
    fun s e hr hl hc => ⟨_, exec_lockstepCopy hr, ?_⟩, fun s hr => ⟨⟨_, exec_dieLinkDown hr, ?_⟩, _, exec_dieLinkUp hr, ?_⟩⟩
  · obtain ⟨ht, ha⟩ := hostLeaseWrite_written hw hc
    refine ⟨fun hsrc hv => ⟨_, exec_hostLeaseWrite hw, ?_⟩, fun hsrc hv => ⟨_, exec_hostLeaseWrite hw, ?_⟩,
      fun hsrc => ⟨_, exec_hostLeaseWrite hw, ?_⟩⟩
    · obtain ⟨hlease, hstate, hst⟩ := writeLease_started (m := accept s.mod h i) hsrc hv
      rw [hst] at ha
      rw [ht]
      exact ⟨hlease, hstate, ha⟩
    · subst hv
      obtain ⟨hlease, hst, hstate⟩ := writeLease_ended (m := accept s.mod h i) hsrc
      rw [hst] at ha
      rw [ht]
      exact ⟨hlease, ha, hstate⟩
    · rw [writeLease_refused (m := accept s.mod h i) hsrc] at ht ha
      exact ⟨congrArg TimeSt.leaseEnd ht, ha⟩
  all_goals rw [finish_mod, State.upd_mod, settleOver_time]
  · rw [settleOver_sys]
    exact leaseExpires_spec hl
  · obtain ⟨⟨h2, hslew, hat⟩, hptp, hpps⟩ := loseSource_locked hst hsrc
    rw [settleOver_sys]
    exact ⟨h2, hslew, hat, hptp, hpps⟩
  · rw [settleOver_sys]
    exact holdoverEnd_held hst
  · obtain ⟨hsys, hc0, hc1, hequal, hdiffer⟩ := lockstepCheck_linked hr hl
    obtain ⟨hlater, hwhole⟩ := nextMs_elapsed s.mod
    rw [settleOver_sys, hsys, hc0, hc1]
    exact ⟨hlater, hwhole, hequal, hdiffer⟩
  · rw [settleOver_sys]
    exact lockstepCopy_linked hl hc
  · unfold dieLinkDown
    rw [noteUnsynced_time]
    exact ⟨rfl, rfl, rfl⟩
  · exact ⟨rfl, rfl⟩

end Sys2Proof.Machine
end

