-- ==== Sys2Proof/Proofs/CapturesAndTriggers.lean ====
section
/-! PROOFS. Captures (R606 to R610), the PPS input (R597), triggers (R600 to R605), and the saved runtime (R612). -/

namespace Sys2Proof.Machine

variable {m : Mod} {s : State} {h : Hdr} {i : Nat}

/-! ### Captures -/

@[simp] theorem capture_setCapture_same (m : Mod) (i : Nat) (x : Capture) : capture (setCapture m i x) i = x := tget_tset_same ..

/-- Whether an edge is one that a capture input selects (R606). -/
def selects (m : Mod) (i : Nat) (rising : Bool) : Prop := (if i = 8 then 1 else inf m 0x7050 1 i).testBit (if rising then 0 else 1) = true

/-- Whether 250 ns have not passed since an input's last record (R609). -/
def tooNear (m : Mod) (i : Nat) : Bool := match (capture m i).lastAt with
  | some t => decide ((m.sys.elapsed - t) * 4 < 250)
  | none => false

theorem tooNear_eq_false (h : ∀ x, (capture m i).lastAt = some x → 250 ≤ (m.sys.elapsed - x) * 4) : tooNear m i = false := by
  unfold tooNear
  split
  · rename_i t ht
    exact decide_eq_false (by have := h t ht; omega)
  · rfl

/-- The record of an edge of an input now (R607). -/
def edgeRecord (m : Mod) (i : Nat) (rising : Bool) : Octets :=
  record12 m (pinHarbour i) (counterOf m (pinHarbour i)).val rising (capture m i).stepped

/-- An input with one record more, of an edge now (R607). -/
def recorded (m : Mod) (i : Nat) (rising : Bool) : Capture :=
  { recs := (capture m i).recs ++ [edgeRecord m i rising], lastAt := some m.sys.elapsed, stepped := false }

/-- The module after event 0x7006 of an input (R609). -/
def tellCapture (m : Mod) (i : Nat) : Mod :=
  raise m 0x7006 (srcH (pinHarbour i)) 0 (b1 i ++ b4 (capture m i).recs.length ++ b4 (inf m 0x7050 4 i))

theorem captureEdge_selected {rising : Bool} (hr : m.sys.running = true) (hsel : selects m i rising) :
    captureEdge m i rising =
      if (capture m i).recs.length = 64 ∨ tooNear m i = true then tellCapture (bump m 0x7050 4 i 1) i
      else if (capture m i).recs = [] then tellCapture (setCapture m i (recorded m i rising)) i else setCapture m i (recorded m i rising) := by
  unfold captureEdge
  dsimp only
  rw [if_neg (by rw [hr, show Nat.testBit _ _ = true from hsel]; decide)]
  rfl

theorem captureEdge_recorded {rising : Bool} (hr : m.sys.running = true) (hsel : selects m i rising) (hlen : (capture m i).recs.length < 64)
    (hnear : tooNear m i = false) : capture (captureEdge m i rising) i = recorded m i rising := by
  rw [captureEdge_selected hr hsel, if_neg (by rw [hnear]; simp; omega)]
  split
  · exact capture_setCapture_same ..
  · exact capture_setCapture_same ..

theorem captureEdge_lost {rising : Bool} (hr : m.sys.running = true) (hsel : selects m i rising) (hlen : (capture m i).recs.length = 64) :
    captureEdge m i rising = tellCapture (bump m 0x7050 4 i 1) i := by
  rw [captureEdge_selected hr hsel, if_pos (.inl hlen)]

/-- An edge leaves the module's own state, the counters and every object but the count of lost edges. -/
theorem captureEdge_keeps (m : Mod) (i : Nat) (rising : Bool) :
    besidePins (captureEdge m i rising) = besidePins m ∧
      ∀ x t e, t < 256 → ¬(x = 0x7050 ∧ t = 4) → inf (captureEdge m i rising) x t e = inf m x t e := by
  by_cases hsel : m.sys.running = true ∧ selects m i rising
  · rw [captureEdge_selected hsel.1 hsel.2]
    split
    · exact ⟨besidePins_bump m 0x7050 4 i 1, fun x t e ht hx => inf_bump_other m i 1 e ht (by decide) hx (by decide)⟩
    · split <;> exact ⟨rfl, fun _ _ _ _ _ => rfl⟩
  · have idle : captureEdge m i rising = m := by
      unfold captureEdge
      refine if_pos ?_
      rw [Bool.or_eq_true, Bool.not_eq_true', Bool.not_eq_true', ← Bool.not_eq_true, ← Bool.not_eq_true]
      exact not_and_or.mp hsel
    rw [idle]
    exact ⟨rfl, fun _ _ _ _ _ => rfl⟩

/-! ### Reading a capture -/

theorem splitBody_ne_nil (first : Octets) (l : List Octets) : splitBody first l ≠ [] := by
  induction l generalizing first with
  | nil => exact List.cons_ne_nil _ _
  | cons e es ih =>
    unfold splitBody
    split
    · exact ih _
    · exact List.cons_ne_nil _ _

/-- A cleared read of an input with a record takes the oldest (R608). -/
theorem readAct_capture {slot k : Nat} {r : Octets} {rest : List Octets}
    (hc : (readCheck s slot { idx := 0x7050, sub := 3, isElem := true, elem := k }).isOk = true) (hrecs : (capture s.mod k).recs = r :: rest) :
    ∃ bodies ≠ [], readAct [{ idx := 0x7050, sub := 3, isElem := true, elem := k }] s slot =
      (s.upd (setCapture s.mod k { capture s.mod k with recs := rest }), 0, bodies) := by
  cases hk : readCheck s slot { idx := 0x7050, sub := 3, isElem := true, elem := k } with
  | error st => rw [hk] at hc; cases hc
  | ok o =>
    have taken : takeCapture s.mod k = some (r, setCapture s.mod k { capture s.mod k with recs := rest }) := by
      unfold takeCapture
      rw [hrecs]
    have entry : readEntry s slot { idx := 0x7050, sub := 3, isElem := true, elem := k } =
        (s.upd (setCapture s.mod k { capture s.mod k with recs := rest }),
          b2 0 ++ valueRecord { idx := 0x7050, sub := 3, isElem := true, elem := k } o.ty (.oct r)) := by
      unfold readEntry readValue
      simp only [hk, taken]
    refine ⟨splitBody [] [b2 0 ++ valueRecord { idx := 0x7050, sub := 3, isElem := true, elem := k } o.ty (.oct r)], splitBody_ne_nil [] [_], ?_⟩
    unfold readAct
    rw [if_neg (by simp), readAll, entry]
    rfl

theorem exec_captureRead {k : Nat} (hw : (Instr.captureRead h k).wf = true) :
    exec (.captureRead h k) s = .next (finish (serve s h 0x10 (readAct [{ idx := 0x7050, sub := 3, isElem := true, elem := k }]))) :=
  run_wf "CAPTURE_READ" _ s (fun s => serve s h 0x10 (readAct [{ idx := 0x7050, sub := 3, isElem := true, elem := k }])) hw

theorem captureRead_taken {k : Nat} {r : Octets} {rest : List Octets}
    (hc : ReadClears s h i { idx := 0x7050, sub := 3, isElem := true, elem := k }) (hrecs : (capture s.mod k).recs = r :: rest) :
    (capture (finish (serve s h 0x10 (readAct [{ idx := 0x7050, sub := 3, isElem := true, elem := k }]))).mod k).recs = rest ∧
      Answered (finish (serve s h 0x10 (readAct [{ idx := 0x7050, sub := 3, isElem := true, elem := k }]))).mod i h.sequence 0 := by
  obtain ⟨haccept, hcheck⟩ := hc
  obtain ⟨bodies, hb, hread⟩ := readAct_capture hcheck hrecs
  rw [finish_mod, serve_accepted _ _ _ i _ haccept, hread]
  obtain ⟨-, -, -, h2, -⟩ := haccept
  have same : sess (setCapture (accept s.mod h i) k { capture s.mod k with recs := rest }) i = sess (accept s.mod h i) i := rfl
  have w : Wrote _ i h.sequence 0 _ := wrote_replySealed (n := setCapture (accept s.mod h i) k { capture s.mod k with recs := rest }) (op := 0x10)
    (st := 0) (id := (sess s.mod i).id) (sent := (sess s.mod i).sent) hb (by rw [same, sess_accept_same]; exact h2) (by rw [same, sess_accept_same])
  refine ⟨?_, w.answered⟩
  unfold capture
  rw [settleOver_time, State.upd_mod, replySealed_time]
  exact congrArg Capture.recs (capture_setCapture_same (accept s.mod h i) k _)

/-! ### The PPS input -/

/-- The module after a measurement that a servo takes: its offset, its time, and the runs within the threshold and beyond four of it (R564). -/
def measured (m : Mod) (off : Int) : Mod :=
  { m with time := { m.time with
      offset := clampInt (-2147483648) 2147483647 off, measAt := m.sys.elapsed,
      good := if decide (off.natAbs ≤ inf m 0x7010 3 0 * 10) then m.time.good + 1 else 0,
      bad := if decide (4 * (inf m 0x7010 3 0 * 10) < off.natAbs) then m.time.bad + 1 else 0 } }

/-- The measurement's effect on the state of synchronisation (R565). -/
def syncJudged (m : Mod) (state : Nat) (within : Bool) : Mod := match state with
  | 3 => if 16 ≤ m.time.good then setSync m 1 else m
  | 1 => if 4 ≤ m.time.bad then setSync m 3 else m
  | 2 => setSync m (if within then 1 else 3)
  | _ => m

theorem syncJudged_ppsSec (m : Mod) (st : Nat) (within : Bool) : (syncJudged m st within).time.ppsSec = m.time.ppsSec := by
  unfold syncJudged
  split
  · split
    · exact setSync_ppsSec ..
    · rfl
  · split
    · exact setSync_ppsSec ..
    · rfl
  · exact setSync_ppsSec ..
  · rfl

theorem stepBy_ppsSec (m : Mod) (x : Int) (cause : Nat) : (stepBy m x cause).time.ppsSec = m.time.ppsSec :=
  congrArg (·.2.ppsSec) (besidePins_stepBy m x cause)

theorem servo_ppsSec (m : Mod) (off : Int) : (servo m off).time.ppsSec = m.time.ppsSec := by
  have steps : (syncJudged (measured m off) m.time.state (decide (off.natAbs ≤ inf m 0x7010 3 0 * 10))).time.ppsSec = m.time.ppsSec := syncJudged_ppsSec ..
  unfold servo
  split
  · rfl
  · extract_lets t thr within far m1 m2
    have hm2 : m2.time.ppsSec = m.time.ppsSec := steps
    clear_value m2
    split
    · exact (stepBy_ppsSec ..).trans hm2
    · exact hm2

/-- The module at an edge of PPS_IN: captured, and measured now (R597, R606). -/
def ppsSeen (m : Mod) : Mod := { captureEdge m 8 true with time := { (captureEdge m 8 true).time with measAt := (captureEdge m 8 true).sys.elapsed } }

/-- A counter's offset from the nearest whole second, in 2^-32 ns. -/
def fromWhole (v : Nat) : Int := ((v + nsPerSec * 2 ^ 31) % (nsPerSec * 2 ^ 32) : Nat) - nsPerSec * 2 ^ 31

theorem fromWhole_eq (v : Nat) : (v : Int) - ((v + nsPerSec * 2 ^ 32 / 2) / (nsPerSec * 2 ^ 32) * (nsPerSec * 2 ^ 32) : Nat) = fromWhole v := by
  unfold fromWhole nsPerSec
  omega

theorem ppsSeen_keeps (m : Mod) : (ppsSeen m).time.src = m.time.src ∧ (ppsSeen m).time.ppsSec = m.time.ppsSec ∧ (ppsSeen m).time.c0 = m.time.c0 ∧
    ∀ e, inf (ppsSeen m) 0x7010 0x0A e = inf m 0x7010 0x0A e := by
  obtain ⟨hpins, hinf⟩ := captureEdge_keeps m 8 true
  exact ⟨congrArg (·.2.src) hpins, congrArg (·.2.ppsSec) hpins, congrArg (·.2.c0) hpins, fun e => hinf 0x7010 0x0A e (by decide) (by decide)⟩

/-- While a second is expected, an edge within 1 ms of a whole second goes to the servo, and any other is counted (R597). -/
theorem ppsEdge_expected {n : Nat} (hr : m.sys.running = true) (hsrc : m.time.src = 3) (hn : m.time.ppsSec = some n) :
    ppsEdge m = if 1000000 * 4294967296 < (fromWhole m.time.c0.val).natAbs then bump (ppsSeen m) 0x7010 0x0A 0 1
      else servo { ppsSeen m with time := { (ppsSeen m).time with ppsSec := some (n + 1) } }
        (((m.time.c0.val : Int) - ((n + 1) * (nsPerSec * 2 ^ 32) : Nat)) * 10 / 4294967296) := by
  obtain ⟨hs, hp, hc, -⟩ := ppsSeen_keeps m
  unfold ppsEdge
  rw [if_neg (by rw [hr]; decide)]
  extract_lets m' t₀ seen t v second near whole
  have hs' : m'.time.src = 3 := hs.trans hsrc
  have hv : v = m.time.c0.val := congrArg Ctr.val hc
  have hw : whole = fromWhole m.time.c0.val := by rw [← hv]; exact fromWhole_eq v
  rw [if_neg (not_not.mpr hs'), show t.ppsSec = some n from hp.trans hn]
  dsimp only
  rw [hw, hv]
  rfl

theorem ppsEdge_on_time {n : Nat} (hr : m.sys.running = true) (hsrc : m.time.src = 3) (hn : m.time.ppsSec = some n)
    (hoff : (fromWhole m.time.c0.val).natAbs ≤ 1000000 * 2 ^ 32) : (ppsEdge m).time.ppsSec = some (n + 1) := by
  rw [ppsEdge_expected hr hsrc hn, if_neg (by omega)]
  exact servo_ppsSec ..

theorem ppsEdge_astray {n : Nat} (hr : m.sys.running = true) (hsrc : m.time.src = 3) (hn : m.time.ppsSec = some n)
    (hoff : 1000000 * 2 ^ 32 < (fromWhole m.time.c0.val).natAbs) : ppsEdge m = bump (ppsSeen m) 0x7010 0x0A 0 1 := by
  rw [ppsEdge_expected hr hsrc hn, if_pos (by omega)]

/-! ### Triggers -/

@[simp] theorem trig_setTrig_same (m : Mod) (i : Nat) (x : Trig) : trig (setTrig m i x) i = x := tget_tset_same ..

/-- What a pulse that starts leaves: the trigger in its pulse, a count, and the pin at its active level. -/
structure PulseStarted (m n : Mod) (i : Nat) : Prop where
  active : (trig n i).active = true
  fired : (trig n i).fired = true
  counted : Counts m n 0x7040 6 i 1
  out : n.out = m.out ++ [.trigger i (pinLevel m i true)]

theorem firePulse_started (m : Mod) (i at_ edge : Nat) : PulseStarted m (firePulse m i at_ edge) i := by
  unfold firePulse
  dsimp only
  generalize hx : ({ trig m i with active := true, stop := _, since := _, fired := true, stepped := false, low := _ } : Trig) = x
  have trigger (v : Val) (o : Out) : trig (emit (setObj (bump (setTrig m i x) 0x7040 6 i 1) 0x7040 7 i v) o) i = x := by
    show tget {} (bump (setTrig m i x) 0x7040 6 i 1).time.trigs i = x
    rw [bump_time]
    exact trig_setTrig_same m i x
  have count (n : Mod) (v : Val) (o : Out) : inf (emit (setObj n 0x7040 7 i v) o) 0x7040 6 i = inf n 0x7040 6 i :=
    congrArg Val.toNat (look_setObj_ne n v (okey_ne (i := 0x7040) (s := 6) (idx := 0x7040) (sub := 7) i i (by decide) (by decide) (by decide))
      (by decide) (by decide))
  refine ⟨?_, ?_, ?_, ?_⟩
  · rw [trigger, ← hx]
  · rw [trigger, ← hx]
  · exact (Counts.of_bump (n := setTrig m i x) i (by decide) (by decide) rfl).of_inf (count ..)
  · show (bump (setTrig m i x) 0x7040 6 i 1).out ++ _ = _
    rw [bump_out]
    rfl

/-- The network time at which a trigger's next pulse starts (R602). -/
def pulseTime (m : Mod) (i : Nat) : Nat :=
  if inf m 0x7040 1 i = 1 then trigStart m i else nextPulse (trigStart m i) (trigPeriod m i) (trig m i).since

theorem inf_advanceToNet (m : Mod) (h t : Nat) {c : Nat} (e : Nat) (hc : c < 256) : inf (advanceToNet m h t) 0x7040 c e = inf m 0x7040 c e :=
  congrArg Val.toNat (look_advance_ne m _ hc (by omega))

theorem synced_advanceToNet (m : Mod) (h t k : Nat) : synced (advanceToNet m h t) k = synced m k := by
  obtain ⟨_, _, _, _, ht⟩ := advance_time m (ceilDiv ((if h = 1 then m.time.c1 else m.time.c0).edgesTo (t * 2 ^ 32)) 2)
  unfold advanceToNet synced
  dsimp only
  rw [ht]

theorem trig_advanceToNet (m : Mod) (h t i : Nat) : trig (advanceToNet m h t) i = trig m i := by
  obtain ⟨_, _, _, _, ht⟩ := advance_time m (ceilDiv ((if h = 1 then m.time.c1 else m.time.c0).edgesTo (t * 2 ^ 32)) 2)
  unfold advanceToNet trig
  dsimp only
  rw [ht]

theorem pinLevel_advanceToNet (m : Mod) (h t i : Nat) (active : Bool) : pinLevel (advanceToNet m h t) i active = pinLevel m i active := by
  unfold pinLevel pinLow infB
  rw [trig_advanceToNet, inf_advanceToNet m h t i (by decide)]

/-- A pulse in progress ends on its edge (R601). -/
theorem triggerEdge_ends (hr : m.sys.running = true) (ha : (trig m i).active = true) :
    triggerEdge m i = emit (setTrig (advanceToNet m (pinHarbour i) (trig m i).stop) i { trig m i with active := false }) (.trigger i (pinLevel m i false)) := by
  unfold triggerEdge
  dsimp only
  rw [if_neg (by rw [hr]; decide), if_pos ha]

/-- A one-shot that has not fired and a periodic pulse that need not wait for traceable time start with their edge (R602, R605). -/
theorem triggerEdge_starts (hr : m.sys.running = true) (ha : (trig m i).active = false)
    (hmode : (inf m 0x7040 1 i = 1 ∧ (trig m i).fired = false ∧ (trig m i).since ≤ trigStart m i) ∨
      (inf m 0x7040 1 i = 2 ∧ (i ≠ 8 ∨ infB m 0x7040 8 8 = false ∨ synced m 0 = true))) :
    triggerEdge m i =
      firePulse (advanceToNet m (pinHarbour i) (pulseTime m i)) i (pulseTime m i) (edgeAt m (pinHarbour i) (pulseTime m i)) := by
  unfold triggerEdge pulseTime
  dsimp only
  rw [if_neg (by rw [hr]; decide), if_neg (by rw [ha]; decide)]
  obtain ⟨h1, hf, hs⟩ | ⟨h2, hgo⟩ := hmode
  · simp only [h1]
    rw [if_neg (by rw [hf]; simp; omega)]
    rfl
  · simp only [h2]
    rw [synced_advanceToNet, if_neg]
    · rfl
    · rintro ⟨h8, hg, hsync⟩
      obtain h | h | h := hgo
      · exact h h8
      · rw [h] at hg; cases hg
      · rw [h] at hsync; cases hsync

theorem triggerEdge_started (hr : m.sys.running = true) (ha : (trig m i).active = false)
    (hmode : (inf m 0x7040 1 i = 1 ∧ (trig m i).fired = false ∧ (trig m i).since ≤ trigStart m i) ∨
      (inf m 0x7040 1 i = 2 ∧ (i ≠ 8 ∨ infB m 0x7040 8 8 = false ∨ synced m 0 = true))) :
    (trig (triggerEdge m i) i).active = true ∧ (trig (triggerEdge m i) i).fired = true ∧ Counts m (triggerEdge m i) 0x7040 6 i 1 ∧
      (triggerEdge m i).out = (advanceToNet m (pinHarbour i) (pulseTime m i)).out ++ [.trigger i (pinLevel m i true)] := by
  rw [triggerEdge_starts hr ha hmode]
  obtain ⟨hactive, hfired, ⟨o, ho, hcount⟩, hout⟩ := firePulse_started (advanceToNet m (pinHarbour i) (pulseTime m i)) i (pulseTime m i)
    (edgeAt m (pinHarbour i) (pulseTime m i))
  rw [pinLevel_advanceToNet] at hout
  have count : inf (advanceToNet m (pinHarbour i) (pulseTime m i)) 0x7040 6 i = inf m 0x7040 6 i :=
    inf_advanceToNet m _ _ i (by decide)
  exact ⟨hactive, hfired, ⟨o, ho, by rw [hcount, count]⟩, hout⟩

/-! ### The saved runtime -/

/-- The module at its next full hour of runtime (R612). -/
def nextHour (m : Mod) : Mod := advance m ((3600 - m.tether.runtime % 3600) * secCycles)

theorem nextHour_elapsed (m : Mod) : m.sys.elapsed < (nextHour m).sys.elapsed := by
  have within : m.tether.runtime % 3600 < 3600 := Nat.mod_lt _ (by decide)
  have later : 0 < (3600 - m.tether.runtime % 3600) * secCycles := Nat.mul_pos (by omega) (by decide)
  unfold nextHour
  rw [advance_elapsed]
  omega

theorem saveRuntime_saves (hr : s.mod.sys.running = true) (hp : s.mod.sys.pilot0 = true ∨ s.mod.sys.pilot1 = true) :
    saveRuntime s = { s with flash := { s.flash with runtime := (nextHour s.mod).tether.runtime }, mod := nextHour s.mod } := by
  unfold saveRuntime
  refine if_neg ?_
  rw [hr]
  obtain h | h := hp
  · rw [h]; simp
  · rw [h]; simp

/-! ### The commands -/

theorem exec_captureEdge (k : Fin 9) (rising : Bool) (hr : s.mod.sys.running = true) :
    exec (.captureEdge k rising) s = .next (finish (s.upd (captureEdge s.mod k rising))) :=
  run_whileOn (c := .captureEdge k rising) "CAPTURE_EDGE" (captureEdge · k rising) rfl hr
theorem exec_ppsInEdge (hr : s.mod.sys.running = true) : exec .ppsInEdge s = .next (finish (s.upd (ppsEdge s.mod))) :=
  run_whileOn (c := .ppsInEdge) "PPS_IN_EDGE" ppsEdge rfl hr
theorem exec_triggerEdge (k : Fin 9) (hr : s.mod.sys.running = true) :
    exec (.triggerEdge k) s = .next (finish (s.upd (triggerEdge s.mod k))) :=
  run_whileOn (c := .triggerEdge k) "TRIGGER_EDGE" (triggerEdge · k) rfl hr
theorem exec_runtimeSave (hr : s.mod.sys.running = true) : exec .runtimeSave s = .next (finish (saveRuntime s)) :=
  run_whileOn_state (c := .runtimeSave) "RUNTIME_SAVE" saveRuntime rfl hr

theorem capture_settleOver (m : Mod) (i : Nat) : capture (settleOver m) i = capture m i := by unfold capture; rw [settleOver_time]
theorem trig_settleOver (m : Mod) (i : Nat) : trig (settleOver m) i = trig m i := by unfold trig; rw [settleOver_time]

/-- Settles O38: captures and triggers are tables of their own, so an edge acts on its own entry; the PPS input's servo leaves the expected second. -/
theorem edgesAreCapturedAndDriven : Obligations.EdgesAreCapturedAndDriven := by
  refine ⟨fun s k rising hr hsel => ⟨fun hlen hnear => ⟨_, edgeRecord s.mod k rising, exec_captureEdge k rising hr, ?_⟩,
      fun hlen => ⟨_, exec_captureEdge k rising hr, ?_⟩⟩,
    fun s h i k r rest hw hc hrecs => ⟨_, exec_captureRead hw, captureRead_taken hc hrecs⟩,
    fun s n off hr hsrc hn hoff => ⟨fun hnear => ⟨_, exec_ppsInEdge hr, ?_⟩, fun hfar => ⟨_, exec_ppsInEdge hr, ?_⟩⟩,
    fun s k hr => ⟨fun ha => ⟨_, exec_triggerEdge k hr, ?_⟩, fun ha hmode => ⟨_, exec_triggerEdge k hr, ?_⟩⟩,
    fun s hr hp => ⟨_, exec_runtimeSave hr, ?_⟩⟩
  · rw [finish_mod, State.upd_mod, capture_settleOver, captureEdge_recorded hr hsel hlen (tooNear_eq_false hnear)]
    exact ⟨rfl, rfl⟩
  · rw [finish_mod, State.upd_mod, capture_settleOver, captureEdge_lost hr hsel hlen]
    exact ⟨congrArg (fun t : TimeSt => (tget {} t.caps k.val : Capture).recs) (bump_time s.mod 0x7050 4 k 1),
      (Counts.of_bump (n := s.mod) k (by decide) (by decide) rfl).of_inf (by rw [inf_settleOver]; rfl)⟩
  · rw [show off = fromWhole s.mod.time.c0.val from hoff] at hnear
    rw [finish_mod, State.upd_mod, settleOver_time]
    exact ppsEdge_on_time hr hsrc hn hnear
  · rw [show off = fromWhole s.mod.time.c0.val from hoff] at hfar
    obtain ⟨-, hsec, hctr, hcount⟩ := ppsSeen_keeps s.mod
    rw [finish_mod, State.upd_mod, settleOver_time, ppsEdge_astray hr hsrc hn hfar, bump_time]
    exact ⟨hsec.trans hn, (Counts.of_bump 0 (by decide) (by decide) (hcount 0)).of_inf (by rw [inf_settleOver]), hctr⟩
  · rw [finish_mod, State.upd_mod, trig_settleOver, settleOver_out, triggerEdge_ends hr ha]
    exact ⟨congrArg Trig.active (trig_setTrig_same ..), rfl⟩
  · obtain ⟨hactive, hfired, hcount, hout⟩ := triggerEdge_started hr ha hmode
    rw [finish_mod, State.upd_mod, trig_settleOver, settleOver_out]
    exact ⟨hactive, hfired, hcount.of_inf (by rw [inf_settleOver]), hout⟩
  · rw [finish_flash, finish_mod, saveRuntime_saves hr hp, settleOver_tether, settleOver_sys]
    exact ⟨rfl, nextHour_elapsed s.mod⟩

end Sys2Proof.Machine
end

