-- ==== Sys2Proof/Proofs/ReferencesAndPilots.lean ====
section
/-! PROOFS. The frequency reference (R963 to R965), the pilots' watchdog and restart (R570, R740, R944, R982), and the state after reset (log 2). -/

namespace Sys2Proof.Machine

variable {m n : Mod} {s : State}

/-! ### The frequency reference -/

theorem refLock_chosen {r : Nat} (hc : refChosen m r = true) (hrank : m.sys.refInForce = 0 ∨ r ≤ m.sys.refInForce ∨ m.sys.refState = 3) :
    (refLock m r).sys.refInForce = r ∧ (refLock m r).sys.refState = 2 := by
  unfold refLock
  rw [if_pos ⟨hc, hrank⟩]
  dsimp only
  split
  · exact ⟨rfl, rfl⟩
  · exact ⟨rfl, rfl⟩

theorem refLost_held (hf : m.sys.refInForce ≠ 0) (hs : m.sys.refState ≠ 3) :
    (refLost m).sys.refState = 3 ∧ (refLost m).sys.refInForce = m.sys.refInForce ∧ (refLost m).sys.refLosses = satAdd 32 m.sys.refLosses 1 := by
  unfold refLost
  rw [if_pos ⟨hf, hs⟩]
  exact ⟨rfl, rfl, rfl⟩

theorem refChange_taken {r : Nat} (hauto : inf m 0x7100 1 0 = 3) (hr : r = 1 ∨ r = 2) (hrank : m.sys.refInForce = 0 ∨ r < m.sys.refInForce) :
    (refChange m r).sys.refInForce = r ∧ (refChange m r).sys.refState = 1 := by
  unfold refChange
  rw [if_pos ⟨hauto, hr, hrank⟩]
  exact ⟨rfl, rfl⟩

/-! ### A pilot stops -/

theorem pilotUp_setPilot_same (m : Mod) (h : Fin 2) (on : Bool) : pilotUp (setPilot m h on) h = on := by
  obtain rfl | rfl := (Fin.exists_fin_two (p := (h = ·))).mp ⟨h, rfl⟩
  · rfl
  · rfl

theorem pilotUp_setPilot_other (m : Mod) (h : Fin 2) (on : Bool) : pilotUp (setPilot m h on) (1 - h.val) = pilotUp m (1 - h.val) := by
  obtain rfl | rfl := (Fin.exists_fin_two (p := (h = ·))).mp ⟨h, rfl⟩
  · rfl
  · rfl

theorem pilotUp_of_sys (hs : n.sys = m.sys) (h : Nat) : pilotUp n h = pilotUp m h := by unfold pilotUp; rw [hs]

/-- The module with a pilot stopped by its watchdog (R982). -/
def pilotDown (m : Mod) (h : Nat) : Mod :=
  { setPilot m h false with sys := { (setPilot m h false).sys with pilotDownAt := m.sys.elapsed } }

theorem watchdog_stops {h : Nat} (hr : m.sys.running = true) (hup : pilotUp m h = true) : watchdog m h = pilotDown m h := if_pos ⟨hr, hup⟩

theorem holdIfStopped_sys (m : Mod) : (holdIfStopped m).sys = m.sys := by
  unfold holdIfStopped holdAsIs
  split
  · rfl
  · split
    · rfl
    · exact setSync_sys ..

theorem holdIfStopped_locked (hp : m.sys.pilot0 = false) (hst : m.time.state = 1) : (holdIfStopped m).time.state = 2 := by
  unfold holdIfStopped holdAsIs
  rw [if_neg (by rw [hp]; decide), if_neg (not_not.mpr hst)]
  exact setSync_state ..

theorem pilotStops_stopped (h : Fin 2) (hr : m.sys.running = true) (hup : pilotUp m h = true) :
    pilotUp (pilotStops m h) h = false ∧ pilotUp (pilotStops m h) (1 - h.val) = pilotUp m (1 - h.val) ∧
      (pilotStops m h).sys.pilotDownAt = m.sys.elapsed ∧ (h.val = 0 → m.time.state = 1 → (pilotStops m h).time.state = 2) := by
  have hsys : (pilotStops m h).sys = (pilotDown m h).sys := by rw [pilotStops, watchdog_stops hr hup]; exact holdIfStopped_sys _
  refine ⟨(pilotUp_of_sys hsys h).trans (pilotUp_setPilot_same m h false), (pilotUp_of_sys hsys _).trans (pilotUp_setPilot_other m h false),
    congrArg Sys.pilotDownAt hsys, fun h0 hst => ?_⟩
  rw [pilotStops, watchdog_stops hr hup, h0]
  exact holdIfStopped_locked rfl hst

/-! ### Events of a harbour whose pilot runs -/

/-- The events held for the two harbours while their pilots are stopped (R944). -/
def heldEvents (e : Ev) : List EvRec × List EvRec := (e.held0, e.held1)

theorem heldEvents_take (m : Mod) (n : Nat) (e : Ev) (r : EvRec) : heldEvents (take m n e r) = heldEvents e := by
  induction n generalizing e r with
  | zero => rfl
  | succ n ih =>
    unfold take
    dsimp only
    rw [foldl_keeps heldEvents]
    · rw [foldl_keeps heldEvents]
      · split
        · exact (ih ..).trans rfl
        · rfl
      · exact fun _ _ => (ih ..).trans rfl
    · intro x hr
      split
      · exact (ih ..).trans rfl
      · rfl

/-- A record of a harbour whose pilot runs, or of the module while either runs, is taken and not held. -/
theorem record_taken {h : Nat} (hup : pilotUp m h = true) (e : Ev) (r : EvRec) (hsrc : r.flags / 16 % 4 = h ∧ h < 2 ∨ r.flags / 16 % 4 = 2) :
    record m e r = take m 4 e r := by
  have up : pilotUp m h = true → m.sys.pilot0 = true ∨ m.sys.pilot1 = true := by
    unfold pilotUp
    split
    · exact .inr
    · exact .inl
  unfold record
  refine if_pos ?_
  obtain ⟨hs, hlt⟩ | hs := hsrc
  · rw [hs]
    have own : (if h = 1 then 1 else 0) = h := by split <;> omega
    rw [own, hup]
    rfl
  · rw [hs]
    obtain hp | hp := up hup
    · simp [hp]
    · simp [hp]

theorem mkRec_src (m : Mod) {src : Nat} (hs : src < 4) (code bpid : Nat) (params : Octets) : (mkRec m code src bpid params).flags / 16 % 4 = src := by
  have bit7 (b : Bool) : bitAt b 7 = 128 * b.toNat := by cases b <;> rfl
  have bit6 (b : Bool) : bitAt b 6 = 64 * b.toNat := by cases b <;> rfl
  unfold mkRec
  dsimp only
  rw [bit7, bit6]
  omega

/-- A harbour's pilot runs and no event of the harbour is held. -/
structure Journaling (m : Mod) (h : Nat) : Prop where
  up : pilotUp m h = true
  held : (if h = 1 then m.ev.held1 else m.ev.held0) = []

namespace Journaling

variable {h : Nat}

theorem of_eq (hm : Journaling m h) (hs : n.sys = m.sys) (he : heldEvents n.ev = heldEvents m.ev) : Journaling n h := by
  obtain ⟨h0, h1⟩ := Prod.mk.inj he
  exact ⟨(pilotUp_of_sys hs h).trans hm.up, by rw [h0, h1]; exact hm.held⟩

theorem withMgmt (hm : Journaling m h) (x : Mgmt) : Journaling { m with mgmt := x } h := hm.of_eq rfl rfl
theorem withOvers (hm : Journaling m h) (x : Tbl Nat) : Journaling { m with overs := x } h := hm.of_eq rfl rfl
theorem setNat (hm : Journaling m h) (idx sub elem v : Nat) : Journaling (Machine.setNat m idx sub elem v) h := hm.of_eq rfl rfl
theorem freeSlot (hm : Journaling m h) (slot : Nat) : Journaling (Machine.freeSlot m slot) h := hm.of_eq rfl rfl

theorem raise (hm : Journaling m h) {src : Nat} (hsrc : src = h ∧ h < 2 ∨ src = 2) (code bpid : Nat) (params : Octets) :
    Journaling (Machine.raise m code src bpid params) h := by
  have src4 : src < 4 := by omega
  have taken := record_taken hm.up { m.ev with seq := (m.ev.seq + 1) % 2 ^ 32 } (mkRec m code src bpid params) (by rw [mkRec_src m src4]; exact hsrc)
  refine hm.of_eq rfl ?_
  unfold Machine.raise
  dsimp only
  rw [taken, heldEvents_take]
  rfl

theorem foldl {α : Type} {g : Mod → α → Mod} (hg : ∀ m a, Journaling m h → Journaling (g m a) h) (l : List α) (hm : Journaling m h) :
    Journaling (l.foldl g m) h := List.foldlRecOn l g hm fun n hn a _ => hg n a hn

theorem closeDebug (hm : Journaling m h) (slot id : Nat) : Journaling (Machine.closeDebug m slot id) h := by
  unfold Machine.closeDebug
  split
  · have undone := hm.withMgmt { m.mgmt with debugBy := m.mgmt.debugBy.filter (· != slot) }
    dsimp only
    split
    · exact (undone.raise (.inr rfl) ..).raise (.inr rfl) ..
    · exact undone
  · exact hm

theorem endGrant (hm : Journaling m h) (slot : Nat) : Journaling (Machine.endGrant m slot) h := by
  unfold Machine.endGrant
  split
  · exact hm
  · have closed := (hm.withMgmt { m.mgmt with grants := tset none m.mgmt.grants slot none }).closeDebug slot (sess m slot).id
    exact ((closed.setNat ..).setNat ..).raise (.inr rfl) ..

theorem endSession (hm : Journaling m h) (slot cause : Nat) : Journaling (Machine.endSession m slot cause) h := by
  unfold Machine.endSession
  dsimp only
  split
  · exact ((hm.endGrant slot).freeSlot slot).raise (.inr rfl) ..
  · split
    · exact hm.freeSlot slot
    · exact hm

theorem endSessions (hm : Journaling m h) (cause : Nat) (p : Sess → Bool) : Journaling (Machine.endSessions m cause p) h := by
  refine foldl (fun n i hn => ?_) _ hm
  split
  · exact hn.endSession i cause
  · exact hn

theorem clearOver (hm : Journaling m h) (e r : Nat) : Journaling (Machine.clearOver m e r) h := by
  unfold Machine.clearOver
  split
  · exact (hm.withOvers _).raise (.inr rfl) ..
  · exact hm

theorem settleOver (hm : Journaling m h) : Journaling (Machine.settleOver m) h :=
  foldl (fun _ e hn => foldl (fun _ r hk => hk.clearOver e r) _ hn) _ hm

end Journaling

/-! ### A pilot runs again -/

theorem takeAll_keeps (m : Mod) (rs : List EvRec) :
    (takeAll m rs).sys = m.sys ∧ (takeAll m rs).mgmt = m.mgmt ∧ heldEvents (takeAll m rs).ev = heldEvents m.ev := by
  unfold takeAll
  exact ⟨foldl_keeps Mod.sys _ (fun _ _ => by rfl) rs m, foldl_keeps Mod.mgmt _ (fun _ _ => by rfl) rs m,
    foldl_keeps (fun m => heldEvents m.ev) _ (fun _ _ => by exact heldEvents_take ..) rs m⟩

/-- The module whose pilot runs again, with the harbour's held events journaled (R944). -/
def resumed (m : Mod) (h : Nat) : Mod := resumeJournal (setPilot m h true) (h == 0) (h == 1)

theorem resumed_mgmt (m : Mod) (h : Nat) : (resumed m h).mgmt = m.mgmt := (takeAll_keeps ..).2.1

theorem journaling_resumed (m : Mod) (h : Fin 2) : Journaling (resumed m h) h := by
  unfold resumed resumeJournal
  generalize hrs : (_ ++ _ : List EvRec) = rs
  generalize hm1 : ({ setPilot m h true with ev := _ } : Mod) = m1
  obtain ⟨hsys, -, hheld⟩ := takeAll_keeps m1 rs
  have before : Journaling m1 h := by
    rw [← hm1]
    refine ⟨pilotUp_setPilot_same m h true, ?_⟩
    obtain rfl | rfl := (Fin.exists_fin_two (p := (h = ·))).mp ⟨h, rfl⟩
    · rfl
    · rfl
  exact before.of_eq hsys hheld

theorem sess_freeSlot_ne (m : Mod) {slot j : Nat} (h : j ≠ slot) : sess (freeSlot m slot) j = sess m j := sess_setSess_ne m {} h

theorem sess_endGrant (m : Mod) (slot j : Nat) : sess (endGrant m slot) j = sess m j := by
  have closed (n : Mod) (id : Nat) : sess (closeDebug n slot id) j = sess n j := by
    unfold closeDebug
    split
    · dsimp only
      split <;> rfl
    · rfl
  unfold endGrant
  split
  · rfl
  · exact (closed ..).trans rfl

/-- A session that ends leaves the others. -/
theorem sess_endSession_ne (m : Mod) {slot j : Nat} (cause : Nat) (h : j ≠ slot) : sess (endSession m slot cause) j = sess m j := by
  unfold endSession
  dsimp only
  split
  · rw [sess_raise, sess_freeSlot_ne _ h, sess_endGrant]
  · split
    · exact sess_freeSlot_ne _ h
    · rfl

theorem sess_endSession_same (m : Mod) {slot : Nat} (cause : Nat) (h : (sess m slot).state ≤ 2) : (sess (endSession m slot cause) slot).state = 0 := by
  have freed (n : Mod) : (sess (freeSlot n slot) slot).state = 0 := congrArg Sess.state (sess_setSess_same n slot {})
  unfold endSession
  dsimp only
  split
  · exact freed _
  · split
    · exact freed _
    · omega

theorem endSessions_ended (m : Mod) (cause : Nat) {j : Nat} (hj : j < 32) (hst : (sess m j).state ≤ 2) :
    (sess (endSessions m cause fun _ => true) j).state = 0 := by
  have along (l : List Nat) : ∀ m : Mod, (sess m j).state ≤ 2 → j ∈ l ∨ (sess m j).state = 0 →
      (sess (l.foldl (fun m i => if (sess m i).state != 0 && true then endSession m i cause else m) m) j).state = 0 := by
    induction l with
    | nil => exact fun m _ h => h.resolve_left List.not_mem_nil
    | cons i l ih =>
      intro m hst h
      rw [List.foldl_cons]
      by_cases hi : j = i
      · subst hi
        have ended : (sess (if (sess m j).state != 0 && true then endSession m j cause else m) j).state = 0 := by
          split
          · exact sess_endSession_same m cause hst
          · rename_i hz
            simpa using hz
        exact ih _ (by omega) (.inr ended)
      · have same : sess (if (sess m i).state != 0 && true then endSession m i cause else m) j = sess m j := by
          split
          · exact sess_endSession_ne m cause hi
          · rfl
        refine ih _ (by rw [same]; exact hst) ?_
        rw [same]
        exact h.imp_left fun hm => (List.mem_cons.mp hm).resolve_left hi
  exact along _ m hst (.inl (List.mem_range.mpr hj))

theorem pilotBack_running {h : Nat} (hr : m.sys.running = true) (hdown : pilotUp m h = false) (ha : m.fw.activating = none) :
    pilotBack m h = if m.mgmt.pilot = h then endSessions (raise (resumed m h) 0x1006 (srcH h) 0 (b1 h)) 5 fun _ => true
      else raise (resumed m h) 0x1006 (srcH h) 0 (b1 h) := by
  unfold pilotBack
  rw [if_pos ⟨hr, by rw [hdown]; rfl, by rw [ha]; rfl⟩]
  rfl

theorem pilotBack_back (h : Fin 2) (hr : m.sys.running = true) (hdown : pilotUp m h = false) (ha : m.fw.activating = none) :
    Journaling (pilotBack m h) h ∧
      (m.mgmt.pilot = h.val → ∀ j, j < 32 → (sess m j).state ≤ 2 → (sess (pilotBack m h) j).state = 0) := by
  have told : Journaling (raise (resumed m h) 0x1006 (srcH h) 0 (b1 h)) h := (journaling_resumed m h).raise (.inl ⟨rfl, h.isLt⟩) ..
  rw [pilotBack_running hr hdown ha]
  refine ⟨?_, fun hp j hj hst => ?_⟩
  · split
    · exact told.endSessions 5 _
    · exact told
  · rw [if_pos hp]
    refine endSessions_ended _ 5 hj ?_
    rw [sess_raise, sess, resumed_mgmt]
    exact hst

/-! ### The commands -/

theorem exec_referenceLock {r : Nat} (hw : (Instr.referenceLock r).wf = true) (hr : s.mod.sys.running = true) :
    exec (.referenceLock r) s = .next (finish (s.upd (refLock s.mod r))) := run_whileOn (c := .referenceLock r) "REFERENCE_LOCK" (refLock · r) hw hr
theorem exec_referenceLost (hr : s.mod.sys.running = true) : exec .referenceLost s = .next (finish (s.upd (refLost s.mod))) :=
  run_whileOn (c := .referenceLost) "REFERENCE_LOST" refLost rfl hr
theorem exec_referenceChange {r : Nat} (hw : (Instr.referenceChange r).wf = true) (hr : s.mod.sys.running = true) :
    exec (.referenceChange r) s = .next (finish (s.upd (refChange s.mod r))) :=
  run_whileOn (c := .referenceChange r) "REFERENCE_CHANGE" (refChange · r) hw hr
theorem exec_pilotWatchdog (h : Fin 2) (hr : s.mod.sys.running = true) :
    exec (.pilotWatchdog h) s = .next (finish (s.upd (pilotStops s.mod h))) :=
  run_whileOn (c := .pilotWatchdog h) "PILOT_WATCHDOG" (pilotStops · h) rfl hr
theorem exec_pilotRestarted (h : Fin 2) (hr : s.mod.sys.running = true) :
    exec (.pilotRestarted h) s = .next (finish (s.upd (pilotBack s.mod h))) :=
  run_whileOn (c := .pilotRestarted h) "PILOT_RESTARTED" (pilotBack · h) rfl hr

/-- Settles O49: what a restarted pilot's commands raise is an event of its own harbour or of the module, so none of it is held again. -/
theorem referencesAndPilotsAreFollowed : Obligations.ReferencesAndPilotsAreFollowed := by
  refine ⟨fun s r hw hr hc hrank => ⟨_, exec_referenceLock hw hr, ?_⟩, fun s hr hf hst => ⟨_, exec_referenceLost hr, ?_⟩,
    fun s r hw hr hauto hrank => ⟨_, exec_referenceChange hw hr, ?_⟩, fun s h hr hup => ⟨_, exec_pilotWatchdog h hr, ?_⟩,
    fun s h hr hdown ha => ⟨_, exec_pilotRestarted h hr, ?_⟩⟩
  all_goals rw [finish_mod, State.upd_mod]
  · rw [settleOver_sys]
    exact refLock_chosen hc hrank
  · rw [settleOver_sys]
    exact refLost_held hf hst
  · rw [settleOver_sys]
    exact refChange_taken hauto (of_decide_eq_true hw) hrank
  · rw [pilotUp_of_sys (settleOver_sys _), pilotUp_of_sys (settleOver_sys _), settleOver_sys, settleOver_time]
    exact pilotStops_stopped h hr hup
  · obtain ⟨hback, hsess⟩ := pilotBack_back h hr hdown ha
    rw [sess_settleOver]
    exact ⟨hback.settleOver.up, hback.settleOver.held, hsess⟩

/-! ### The state after reset -/

theorem fusesFit_reset : FusesFit State.reset.otp := ⟨by decide, by decide, by decide⟩

/-- Settles O6: each value is the default of its field or of its object. -/
theorem resetStateAsTheSpecGivesIt : Obligations.ResetStateAsTheSpecGivesIt := by
  have defaults : inf State.reset.mod 0x2000 1 0 = 29170 ∧ inf State.reset.mod 0x2000 3 0 = 900 ∧ inf State.reset.mod 0x2000 4 0 = 0 := by decide
  have closed : ∀ i, (sess State.reset.mod i).state = 0 := fun _ => congrArg Sess.state (tget_nil ..)
  exact ⟨rfl, rfl, rfl, rfl, rfl, fusesFit_reset, rfl, rfl, closed, rfl, defaults.1, defaults.2.1, defaults.2.2, rfl, rfl⟩

end Sys2Proof.Machine
end

