-- ==== Sys2Proof/Proofs/TimeMessages.lean ====
section
/-! PROOFS. The ordinary clock's periodic message (R589, R590), where a Gelix frame is overdue. -/

namespace Sys2Proof.Machine

theorem exec_ptpMessageSend {s : State} (hr : s.mod.sys.running = true) : exec .ptpMessageSend s = .next (finish (s.upd (ptpSend s.mod))) :=
  run_whileOn (c := .ptpMessageSend) "PTP_MESSAGE_SEND" ptpSend rfl hr

/-- The ordinary clock is enabled and has sent nothing yet, its port sends nothing, and a fixed Gelix frame of port 8 was due to leave at once. -/
def frameOverdue : State :=
  let m : Mod := { sys := { running := true, pilot0 := true }, tx := [(8, { fixed := [{ leave := 0, frame := keyedFrame }] })] }
  { mod := setNat m 0x7020 1 0 1 }

/-- The state meets what the statement asks for. -/
theorem frameOverdue_sends :
    frameOverdue.mod.sys.running = true ∧ frameOverdue.mod.sys.pilot0 = true ∧ infB frameOverdue.mod 0x7020 1 0 = true ∧
      (inf frameOverdue.mod 0x7020 2 0 = 1 → inf frameOverdue.mod 0x7020 4 0 ≠ 1) ∧ frameOverdue.mod.time.ptpSent = none ∧
      clockSends frameOverdue.mod (inf frameOverdue.mod 0x7010 2 0) = false := by
  decide +kernel

/-- The time in which the message falls due is no time at all, yet it puts the frame out. -/
theorem frameOverdue_out :
    frameOverdue.mod.out.length = 0 ∧ (finish (frameOverdue.upd (ptpSend frameOverdue.mod))).mod.out.length = 1 := by
  decide +kernel

/-- Refutes O37: the statement speaks of every state and, before the clock's first message, compares the outputs with those of the state itself; where a
Gelix frame is overdue, time that runs on by nothing puts it out. A premise that no frame is overdue would leave such states out. -/
theorem not_timeMessagesAreExchanged : ¬ Obligations.TimeMessagesAreExchanged := by
  rintro ⟨-, -, hsend, -, -⟩
  obtain ⟨hr, hp, hon, hrole, hnone, hport⟩ := frameOverdue_sends
  obtain ⟨hbefore, hafter⟩ := frameOverdue_out
  obtain ⟨t, ht, -, -, hdown, -⟩ := hsend frameOverdue frameOverdue.mod true hr hp hon hrole (by rw [hnone]; rfl) (by rw [hport]; rfl)
  obtain rfl := Host.Outcome.next.inj (ht.symm.trans (exec_ptpMessageSend hr))
  rw [hdown rfl, hbefore] at hafter
  exact absurd hafter (by decide)

end Sys2Proof.Machine
end

