-- ==== Sys2Proof/Proofs/StowageLinks.lean ====
section
/-! PROOFS. The stowage ports: training, losses of lines, restarts of spans, and a link that goes down and returns (R620 to R625, R639, R640,
R660 to R670). -/

namespace Sys2Proof.Machine

variable {m n k : Mod} {h : Nat}

theorem stow_of_eq (hs : n.stow = m.stow) (j : Nat) : stow n j = stow m j := by unfold stow; rw [hs]

@[simp] theorem stow_settleOver (m : Mod) (j : Nat) : stow (settleOver m) j = stow m j := stow_of_eq (settleOver_stow m) j

/-! ### What an engine holds beside its losses -/

/-- A stowage engine without its losses. -/
def Stow.lossless (x : Stow) : Stow := { x with recs := [], overflow := false, unrecorded := [] }

/-- Port state, restart number and quiesced regions. -/
def Stow.standing (x : Stow) : Nat × Nat × List Nat := (x.st, x.restarts, x.quiesced)

theorem Stow.lines_of_lossless {x y : Stow} (h : y.lossless = x.lossless) : y.lines = x.lines :=
  (congrArg Stow.lines h : y.lossless.lines = x.lossless.lines)
theorem Stow.standing_of_lossless {x y : Stow} (h : y.lossless = x.lossless) : y.standing = x.standing :=
  (congrArg Stow.standing h : y.lossless.standing = x.lossless.standing)

theorem lossless_keepRecord (x : Stow) (e : LostRec) : (keepRecord x e).lossless = x.lossless := by
  unfold keepRecord
  dsimp only
  split
  · rfl
  · split <;> rfl

theorem standing_writeChanged (d n : Nat) (x : Stow) (level : Nat) (set : List (Nat × Nat)) (raised : List Nat) :
    (writeChanged d n x level set raised).standing = x.standing := by
  induction n generalizing x level raised with
  | zero => rfl
  | succ n ih =>
    rw [writeChanged]
    split
    · rfl
    · exact (ih ..).trans (foldl_keeps Stow.standing (fun y j => putCounter y (level + 1) j (counterAt y d 9 (level + 1) j + 1)) (fun _ _ => rfl) _ _)

theorem standing_clearSpans (x : Stow) (d r : Nat) (ranges : List (Nat × Nat)) : (clearSpans x d r ranges).standing = x.standing := by
  have cleared := foldl_keeps Stow.standing (fun y (e : Nat × Nat) => clearGroups y e.1 e.2) (fun _ _ => rfl) ranges x
  have put (l : List (Nat × Nat)) (y : Stow) := foldl_keeps Stow.standing (fun y (g : Nat × Nat) => putCounter y g.1 g.2 (r * 2 ^ 48)) (fun _ _ => rfl) l y
  exact (standing_writeChanged ..).trans ((put ..).trans cleared)

/-! ### What the module keeps in regions -/

theorem foldl_setPm_form (f : Mod → Nat → Pm) (l : List Nat) (m : Mod) : ∃ pm, l.foldl (fun m p => setPm m p (f m p)) m = { m with pm := pm } := by
  induction l generalizing m with
  | nil => exact ⟨m.pm, rfl⟩
  | cons p r ih =>
    obtain ⟨pm, heq⟩ := ih (setPm m p (f m p))
    exact ⟨pm, heq⟩

theorem loseHistory_form (m : Mod) (h lo count : Nat) : ∃ pm, loseHistory m h lo count = { m with pm := pm } := foldl_setPm_form _ _ m

theorem clearArchive_form (m : Mod) (h a b : Nat) : ∃ snap, clearArchive m h a b = { m with snap := snap } := by
  unfold clearArchive
  split
  · exact ⟨m.snap, rfl⟩
  · exact ⟨_, rfl⟩

theorem invalidateStaged_form (m : Mod) (h : Nat) : ∃ fw ev, invalidateStaged m h = { m with fw := fw, ev := ev } := by
  unfold invalidateStaged
  split
  · exact ⟨_, _, rfl⟩
  · exact ⟨m.fw, m.ev, rfl⟩

theorem clearContents_form (m : Mod) (h a b : Nat) :
    ∃ pm snap fw ev, clearContents m h a b = { m with pm := pm, snap := snap, fw := fw, ev := ev } := by
  obtain ⟨pm, hpm⟩ := loseHistory_form m h a (b - a)
  obtain ⟨snap, hsnap⟩ := clearArchive_form (loseHistory m h a (b - a)) h a b
  obtain ⟨fw, ev, hfw⟩ := invalidateStaged_form (clearArchive (loseHistory m h a (b - a)) h a b) h
  rw [hpm] at hsnap hfw
  unfold clearContents
  dsimp only
  rw [hpm]
  split
  · exact ⟨pm, snap, fw, ev, by rw [hfw, hsnap]⟩
  · exact ⟨pm, snap, m.fw, m.ev, hsnap⟩

/-! ### Losses that end -/

/-- Of a harbour's stowage only the losses change, and no session. -/
structure LossesOnly (h : Nat) (m n : Mod) : Prop where
  stow : (stow n h).lossless = (stow m h).lossless
  mgmt : n.mgmt = m.mgmt

namespace LossesOnly

theorem refl (h : Nat) (m : Mod) : LossesOnly h m m := ⟨rfl, rfl⟩

theorem trans (a : LossesOnly h m n) (b : LossesOnly h n k) : LossesOnly h m k := ⟨b.stow.trans a.stow, b.mgmt.trans a.mgmt⟩

theorem foldl {α : Type} (g : Mod → α → Mod) (hg : ∀ m a, LossesOnly h m (g m a)) (l : List α) (m : Mod) : LossesOnly h m (l.foldl g m) := by
  induction l generalizing m with
  | nil => exact refl h m
  | cons a r ih => exact (hg m a).trans (ih (g m a))

theorem setStow {x : Stow} (hx : x.lossless = (Machine.stow m h).lossless) : LossesOnly h m (setStow m h x) :=
  ⟨by rw [stow_setStow_same, hx], rfl⟩

theorem endLosses (m : Mod) (h a b : Nat) (f : LostRec → Bool) : LossesOnly h m (endLosses m h a b f) := by
  refine .foldl _ (fun n e => ?_) _ _
  dsimp only
  split
  · exact .setStow (foldl_keeps Stow.lossless keepRecord lossless_keepRecord _ _)
  · exact .setStow rfl

theorem clearContents (m : Mod) (h a b : Nat) : LossesOnly h m (clearContents m h a b) := by
  obtain ⟨_, _, _, _, heq⟩ := clearContents_form m h a b
  rw [heq]
  exact ⟨rfl, rfl⟩

/-- What follows a restart of spans: their losses end, and what the module kept there is gone. -/
theorem spans (f : LostRec → Bool) (ranges : List (Nat × Nat)) (m : Mod) :
    LossesOnly h m (ranges.foldl (fun m e => Machine.clearContents (Machine.endLosses m h (32 * e.1) (32 * e.2) f) h (32 * e.1) (32 * e.2)) m) :=
  .foldl _ (fun _ _ => .trans (.endLosses ..) (.clearContents ..)) _ _

end LossesOnly

/-! ### Restarts -/

/-- With no restart number left nothing of the stowage changes (R640). -/
theorem restartSpans_exhausted (op : Nat) (ranges : List (Nat × Nat)) (hr : (stow m h).restarts = 255) :
    restartSpans m h op ranges = (raise m 0x8006 (srcH h) 0 (b1 h ++ b1 op), false) := by
  unfold restartSpans
  exact if_pos hr

/-- A restart takes the next restart number; the port's state and the quiesced regions stay (R639). -/
theorem restartSpans_restarted (op : Nat) (ranges : List (Nat × Nat)) (hr : (stow m h).restarts ≠ 255) :
    ∃ n, restartSpans m h op ranges = (n, true) ∧
      (stow n h).standing = ((stow m h).st, (stow m h).restarts + 1, (stow m h).quiesced) ∧ n.mgmt = m.mgmt := by
  unfold restartSpans
  dsimp only
  rw [if_neg hr]
  refine ⟨_, rfl, (Stow.standing_of_lossless (LossesOnly.spans ..).stow).trans ?_, (LossesOnly.spans ..).mgmt⟩
  rw [stow_setStow_same, standing_clearSpans]
  rfl

/-! ### A link trained, and returned -/

theorem stow_portState (m : Mod) (h st cause : Nat) : stow (portState m h st cause) h = { stow m h with st := st } := by
  unfold portState
  rw [stow_raise, stow_setStow_same]

theorem stow_portState_ne (m : Mod) {h j : Nat} (st cause : Nat) (hj : j ≠ h) : stow (portState m h st cause) j = stow m j := by
  unfold portState
  rw [stow_raise, stow_setStow_ne _ _ hj]

section training

variable {lanes rate cap bits : Nat} {type3 : Bool}

theorem linkReady_trained (hr : m.sys.running = true) (hst : (stow m h).st < 2) (hl : 8 ≤ lanes) (hrate : 64 ≤ rate) (lo : 16384 ≤ cap)
    (hi : cap ≤ 524288) (hB : (entropyOf m h).failB = false) :
    (stow (linkReady m h lanes rate cap bits true) h).st = 2 ∧ (stow (linkReady m h lanes rate cap bits true) h).key.length = 32 ∧
      (stow (linkReady m h lanes rate cap bits true) h).capacity = cap ∧ (stow (linkReady m h lanes rate cap bits true) h).metaBits = bits := by
  unfold linkReady
  dsimp only
  rw [if_neg (by simp [hr]; omega), if_neg (by omega), if_neg (by decide), if_neg (by omega), if_neg (by simp [hB]), stow_portState, stow_setStow_same,
    stow_draw, stow_setStow_same]
  exact ⟨rfl, by simp [draw], rfl, rfl⟩

theorem linkReady_failed (hr : m.sys.running = true) (hst : (stow m h).st < 2)
    (hbad : lanes < 8 ∨ rate < 64 ∨ type3 = false ∨ cap < 16384 ∨ 524288 < cap ∨ (entropyOf m h).failB = true) :
    (stow (linkReady m h lanes rate cap bits type3) h).st = 3 ∧ (stow (linkReady m h lanes rate cap bits type3) h).key = (stow m h).key := by
  unfold linkReady
  dsimp only
  rw [if_neg (by simp [hr]; omega)]
  split
  · rw [stow_portState]; exact ⟨rfl, rfl⟩
  · split
    · rw [stow_portState]; exact ⟨rfl, rfl⟩
    · split
      · rw [stow_portState, stow_setStow_same]; exact ⟨rfl, rfl⟩
      · have hB : (entropyOf m h).failB = true := by grind
        rw [if_pos hB, stow_portState, stow_setStow_same]
        exact ⟨rfl, rfl⟩

end training

theorem linkReturn_returned (hst : (stow m h).st = 4) (hr : (stow m h).restarts ≠ 255) :
    (stow (linkReturn m h) h).st = 2 ∧ (stow (linkReturn m h) h).restarts = (stow m h).restarts + 1 := by
  obtain ⟨n, heq, hstand, -⟩ := restartSpans_restarted 2 [(0, levelLines (inf m 0x8000 2 h) 1)] hr
  have hrestarts : (stow n h).restarts = (stow m h).restarts + 1 := congrArg (·.2.1) hstand
  unfold linkReturn
  rw [if_neg (by simp [hst]), heq]
  dsimp only
  rw [if_pos rfl, stow_setStow_same, stow_portState]
  exact ⟨rfl, hrestarts⟩

theorem linkReturn_exhausted (hst : (stow m h).st = 4) (hr : (stow m h).restarts = 255) : stow (linkReturn m h) h = stow m h := by
  unfold linkReturn
  rw [if_neg (by simp [hst]), restartSpans_exhausted _ _ hr]
  rfl

/-! ### Lines that are lost -/

/-- A source has counted an event (R868). -/
def eventCounted (m : Mod) (i : Nat) : Mod := setSource m i { source m i with events := satAdd 32 (source m i).events 1, last := now m }

/-- The event of a source that is not tamper-class leaves the tether's buffer and sequence. -/
theorem sourceEvent_untethered {s : State} {i unit code src bpid rank : Nat} {params : Nat → Octets} (hi : (sourceRow i).2.1 = false) :
    sourceEvent s i unit code src bpid rank params =
      if s.mod.tether.onCell then s.upd (respondOnCell (eventCounted s.mod i) i rank)
      else respond (s.upd (raise (eventCounted s.mod i) code src bpid (params s.mod.tether.tseq))) i unit rank := by
  unfold sourceEvent
  simp only [hi, Bool.false_eq_true, if_false]
  rfl

/-- What a loss of lines of a harbour leaves: its port's state, lines that hold nothing, the other harbour's stowage, and the regions. -/
structure LossKeeps (h : Nat) (m n : Mod) : Prop where
  st : (stow n h).st = (stow m h).st
  lines : ∀ j, tfind (stow m h).lines j = none → tfind (stow n h).lines j = none
  other : ∀ j, j ≠ h → stow n j = stow m j
  region : ∀ sub e, sub < 256 → inf n 0x8010 sub e = inf m 0x8010 sub e

namespace LossKeeps

theorem of_stow (hs : n.stow = m.stow) (hr : ∀ sub e, sub < 256 → inf n 0x8010 sub e = inf m 0x8010 sub e) : LossKeeps h m n :=
  ⟨by rw [stow_of_eq hs], fun j hj => by rw [stow_of_eq hs]; exact hj, fun j _ => stow_of_eq hs j, hr⟩

theorem refl (h : Nat) (m : Mod) : LossKeeps h m m := .of_stow rfl fun _ _ _ => rfl

theorem trans (a : LossKeeps h m n) (b : LossKeeps h n k) : LossKeeps h m k :=
  ⟨b.st.trans a.st, fun j hj => b.lines j (a.lines j hj), fun j hj => (b.other j hj).trans (a.other j hj),
    fun sub e hs => (b.region sub e hs).trans (a.region sub e hs)⟩

theorem ite {c : Prop} [Decidable c] (a : LossKeeps h m n) (b : LossKeeps h m k) : LossKeeps h m (if c then n else k) := by
  split
  · exact a
  · exact b

theorem raise (m : Mod) (h code src bpid : Nat) (ps : Octets) : LossKeeps h m (raise m code src bpid ps) := .of_stow rfl fun _ _ _ => rfl

theorem setStow {x : Stow} (hst : x.st = (stow m h).st) (hl : ∀ j, tfind (stow m h).lines j = none → tfind x.lines j = none) :
    LossKeeps h m (setStow m h x) :=
  ⟨by rw [stow_setStow_same, hst], fun j hj => by rw [stow_setStow_same]; exact hl j hj, fun _ hj => stow_setStow_ne _ _ hj, fun _ _ _ => rfl⟩

theorem base (a : LossKeeps h m n) (j r : Nat) : regionBase n j r = regionBase m j r := by unfold regionBase; rw [a.region 3 _ (by decide)]

/-- A region that is quiesced loses its parked frames, and no line (R665). -/
theorem quiesceRegion (m : Mod) (h r : Nat) : LossKeeps h m (quiesceRegion m h r) := by
  have frames (n : Mod) (b : Nat) : LossKeeps h n (discardParked n b).1 := by
    have inf (sub e : Nat) (hs : sub < 256) : Machine.inf (discardParked n b).1 0x8010 sub e = Machine.inf n 0x8010 sub e :=
      congrArg Val.toNat (look_discardFrames n (parked n b) false e hs (by decide) (by decide))
    obtain ⟨_, _, _, _, _, heq⟩ := discardFrames_form n (parked n b) false 4
    exact .of_stow (by rw [discardParked, heq]) inf
  have quiesced : LossKeeps h m (Machine.setStow m h { stow m h with quiesced := (stow m h).quiesced ++ [r] }) := .setStow rfl fun _ hj => hj
  exact .ite (.refl h m) (.trans (quiesced.trans (frames ..)) (.raise ..))

/-- The event of source 13 quiesces the region, on the cell nothing (R665, R877). -/
theorem parkLoss (s : State) {h r : Nat} (hr : r < 16) (params : Nat → Octets) :
    LossKeeps h s.mod (sourceEvent s 13 (h * 16 + r) 0x8002 (srcH h) 0 3 params).mod := by
  have held (n : Mod) (x : Source) : LossKeeps h n (setSource n 13 x) := .of_stow rfl fun _ _ _ => rfl
  have onCell (n : Mod) : LossKeeps h n (respondOnCell n 13 3) := .of_stow rfl fun _ _ _ => rfl
  have quiesce (n : Mod) : LossKeeps h n (Machine.quiesceRegion n ((h * 16 + r) / 16) ((h * 16 + r) % 16)) := by
    rw [show (h * 16 + r) / 16 = h by omega]
    exact .quiesceRegion ..
  rw [sourceEvent_untethered (i := 13) rfl]
  split
  · exact (held ..).trans (onCell _)
  · exact (held ..).trans ((LossKeeps.raise ..).trans ((held ..).trans (quiesce _)))

theorem afterLoss (s : State) {h : Nat} {x : LossPart} (cause : Nat) (hx : x.1 < 16) : LossKeeps h s.mod (afterLoss s h x cause).mod := by
  unfold Machine.afterLoss
  dsimp only
  split
  · split
    · exact .parkLoss s hx _
    · exact .refl ..
  · obtain ⟨_, heq⟩ := loseHistory_form s.mod h (regionBase s.mod h x.1 + x.2.1) x.2.2
    rw [State.upd_mod, heq]
    exact .of_stow rfl fun _ _ _ => rfl
  · obtain ⟨_, _, heq⟩ := invalidateStaged_form s.mod h
    rw [State.upd_mod, heq]
    exact .of_stow rfl fun _ _ _ => rfl
  · exact .refl ..

end LossKeeps

/-- Lines dropped hold nothing, whatever record is kept of them. -/
theorem tfind_lines_keepRecord (x : Stow) (lo n : Nat) (e : LostRec) (j : Nat) :
    tfind (keepRecord { x with lines := x.lines.filter fun e => !decide (lo ≤ e.1 ∧ e.1 < lo + n) } e).lines j =
      if lo ≤ j ∧ j < lo + n then none else tfind x.lines j := by
  rw [Stow.lines_of_lossless (lossless_keepRecord ..)]
  refine (tfind_filter_key (fun j => !decide (lo ≤ j ∧ j < lo + n)) x.lines j).trans ?_
  by_cases hj : lo ≤ j ∧ j < lo + n <;> simp [hj]

/-- Lines of a part of a region lost: they hold nothing any more. -/
theorem losePart_lost (s : State) {h : Nat} {x : LossPart} (cause : Nat) (evented : Bool) (hx : x.1 < 16) :
    LossKeeps h s.mod (losePart h cause evented s x).mod ∧
      ∀ j, regionBase s.mod h x.1 + x.2.1 ≤ j → j < regionBase s.mod h x.1 + x.2.1 + x.2.2 →
        tfind (stow (losePart h cause evented s x).mod h).lines j = none := by
  unfold losePart
  dsimp only
  generalize hm1 : setStow s.mod h (keepRecord _ _) = m1
  generalize hs2 : s.upd _ = s2
  have held (j : Nat) : tfind (stow m1 h).lines j =
      if regionBase s.mod h x.1 + x.2.1 ≤ j ∧ j < regionBase s.mod h x.1 + x.2.1 + x.2.2 then none else tfind (stow s.mod h).lines j := by
    rw [← hm1, stow_setStow_same, tfind_lines_keepRecord]
  have recorded : LossKeeps h s.mod m1 := by
    rw [← hm1]
    exact .setStow (congrArg Prod.fst (Stow.standing_of_lossless (lossless_keepRecord ..))) fun j hj => by
      rw [tfind_lines_keepRecord, hj, ite_self]
  have raised : LossKeeps h m1 s2.mod := by
    rw [← hs2]
    exact .ite (.raise ..) (.refl ..)
  have after : LossKeeps h m1 (afterLoss s2 h x cause).mod := raised.trans (.afterLoss s2 cause hx)
  exact ⟨recorded.trans after, fun j lo hi => after.lines j (by rw [held, if_pos ⟨lo, hi⟩])⟩

theorem loseParts_lost (cause : Nat) (evented : Bool) (parts : List LossPart) (s : State) (hp : ∀ x ∈ parts, x.1 < 16) :
    LossKeeps h s.mod (parts.foldl (losePart h cause evented) s).mod ∧
      ∀ x ∈ parts, ∀ j, regionBase s.mod h x.1 + x.2.1 ≤ j → j < regionBase s.mod h x.1 + x.2.1 + x.2.2 →
        tfind (stow (parts.foldl (losePart h cause evented) s).mod h).lines j = none := by
  induction parts generalizing s with
  | nil => exact ⟨.refl .., by simp⟩
  | cons x r ih =>
    obtain ⟨keeps, gone⟩ := losePart_lost s cause evented (hp x (by simp))
    obtain ⟨keeps', gone'⟩ := ih (losePart h cause evented s x) fun y hy => hp y (by simp [hy])
    refine ⟨keeps.trans keeps', fun y hy j lo hi => ?_⟩
    obtain rfl | hy := List.mem_cons.mp hy
    · exact keeps'.lines j (gone j lo hi)
    · exact gone' y hy j (by rw [keeps.base]; exact lo) (by rw [keeps.base]; exact hi)

/-- A port whose link is down releases no park range (R666). -/
theorem releaseFree_down (parts : List LossPart) (hst : (stow m h).st ≠ 2) : releaseFree m h parts = m := by
  unfold releaseFree
  exact if_pos (.inr hst)

/-- The enabled regions of a harbour, each as a whole. -/
def enabledParts (m : Mod) (h : Nat) : List LossPart := ((List.range 16).filter (regionOn m h)).map fun r => (r, 0, regionSize m h r)

theorem mem_enabledParts {r : Nat} (hr : r < 16) (hon : regionOn m h r = true) : (r, 0, regionSize m h r) ∈ enabledParts m h :=
  List.mem_map.mpr ⟨r, List.mem_filter.mpr ⟨List.mem_range.mpr hr, hon⟩, rfl⟩

theorem enabledParts_lt : ∀ x ∈ enabledParts m h, x.1 < 16 := by
  intro x hx
  obtain ⟨r, hr, rfl⟩ := List.mem_map.mp hx
  exact List.mem_range.mp (List.mem_filter.mp hr).1

/-- A ready port's link fails: its state, and the lines of its enabled regions (R660). -/
theorem linkDown_down {s : State} (hst : (stow s.mod h).st = 2) :
    (stow (linkDown s h).mod h).st = 4 ∧ (∀ j, j ≠ h → stow (linkDown s h).mod j = stow s.mod j) ∧
      ∀ r, r < 16 → regionOn s.mod h r = true → ∀ j, regionBase s.mod h r ≤ j → j < regionBase s.mod h r + regionSize s.mod h r →
        tfind (stow (linkDown s h).mod h).lines j = none := by
  generalize hs1 : s.upd (portState s.mod h 4 0) = s1
  have same (e sub : Nat) : inf s1.mod 0x8010 sub e = inf s.mod 0x8010 sub e := by rw [← hs1]; rfl
  have hdown : linkDown s h = loseLines s1 h (enabledParts s1.mod h) 5 true := by
    unfold linkDown
    rw [if_neg (by simp [hst]), ← hs1]
    rfl
  obtain ⟨keeps, gone⟩ := loseParts_lost 5 true (enabledParts s1.mod h) s1 enabledParts_lt
  have st1 : (stow s1.mod h).st = 4 := by rw [← hs1, State.upd_mod, stow_portState]
  have down := keeps.st.trans st1
  have heq : (linkDown s h).mod = ((enabledParts s1.mod h).foldl (losePart h 5 true) s1).mod := by
    rw [hdown]
    exact releaseFree_down _ (by rw [down]; decide)
  have base (r : Nat) : regionBase s1.mod h r = regionBase s.mod h r := by unfold regionBase; rw [same]
  have size (r : Nat) : regionSize s1.mod h r = regionSize s.mod h r := by unfold regionSize; rw [same]
  have on (r : Nat) : regionOn s1.mod h r = regionOn s.mod h r := by unfold regionOn infB; rw [same]
  rw [heq]
  refine ⟨down, fun j hj => (keeps.other j hj).trans (by rw [← hs1]; exact stow_portState_ne _ _ _ hj), fun r hr hon j lo hi => ?_⟩
  have hpart := mem_enabledParts hr ((on r).trans hon)
  exact gone _ hpart j (by rw [base, Nat.add_zero]; exact lo) (by rw [base, size, Nat.add_zero]; exact hi)

/-! ### The commands -/

section commands

variable {s : State} {g : Fin 2}

theorem exec_cxlLinkReady (lanes rate cap bits : Nat) (type3 : Bool) (hr : s.mod.sys.running = true) :
    exec (.cxlLinkReady g lanes rate cap bits type3) s = .next (finish (s.upd (linkReady s.mod g lanes rate cap bits type3))) :=
  run_whileOn (c := .cxlLinkReady g lanes rate cap bits type3) "CXL_LINK_READY" (fun m => linkReady m g lanes rate cap bits type3) rfl hr

theorem exec_cxlLinkDown (hr : s.mod.sys.running = true) : exec (.cxlLinkDown g) s = .next (finish (linkDown s g)) :=
  run_whileOn_state (c := .cxlLinkDown g) "CXL_LINK_DOWN" (fun s => linkDown s g) rfl hr

theorem exec_cxlLinkReturn (hr : s.mod.sys.running = true) : exec (.cxlLinkReturn g) s = .next (finish (s.upd (linkReturn s.mod g))) :=
  run_whileOn (c := .cxlLinkReturn g) "CXL_LINK_RETURN" (fun m => linkReturn m g) rfl hr

end commands

/-- Settles O50: a link trains in the branches of its checks, a failed link loses region by region, and a return is one restart. -/
theorem stowageLinksTrainFailAndReturn : Obligations.StowageLinksTrainFailAndReturn := by
  refine ⟨fun s h lanes rate cap bits type3 hr hst => ⟨fun hl hrate h3 lo hi hB => ?_, fun hbad => ?_⟩, fun s h hr hst => ?_, fun s h hr hst => ?_⟩
  · subst h3
    refine ⟨_, exec_cxlLinkReady lanes rate cap bits true hr, ?_⟩
    rw [finish_mod, State.upd_mod, stow_settleOver]
    exact linkReady_trained hr hst hl hrate lo hi hB
  · refine ⟨_, exec_cxlLinkReady lanes rate cap bits type3 hr, ?_⟩
    rw [finish_mod, State.upd_mod, stow_settleOver]
    exact linkReady_failed hr hst hbad
  · obtain ⟨down, other, gone⟩ := linkDown_down hst
    refine ⟨_, exec_cxlLinkDown hr, ?_⟩
    rw [finish_mod, stow_settleOver, stow_settleOver]
    exact ⟨down, other _ (by omega), gone⟩
  · refine ⟨_, exec_cxlLinkReturn hr, ?_⟩
    rw [finish_mod, State.upd_mod, stow_settleOver]
    exact ⟨linkReturn_returned hst, linkReturn_exhausted hst⟩

end Sys2Proof.Machine
end

