-- ==== Sys2Proof/Proofs/StowageAccess.lean ====
section
/-! PROOFS. Accesses to the lines of stowage (R637, R652, R653, R664, R667), and the release of a region (R639, R640, R668). -/

namespace Sys2Proof.Machine

variable {m : Mod} {s : State} {h master n r : Nat}

/-! ### Lines of bytes -/

theorem length_fit (n : Nat) (b : Octets) : (fit n b).length = n := by simp [fit, zeros]; omega

theorem fit_of_length {n : Nat} {b : Octets} (hb : b.length = n) : fit n b = b := by subst hb; simp [fit, zeros]

/-- Bytes that lie within a line replace those of the line. -/
theorem mergedInto_eq {line data : Octets} {off : Nat} (hl : line.length = 64) (hd : off + data.length ≤ 64) :
    mergedInto line off data = line.take off ++ data ++ line.drop (off + data.length) := by
  have hdata : data.take (64 - off) = data := List.take_of_length_le (by omega)
  unfold mergedInto
  rw [hdata]
  exact fit_of_length (by simp [hl]; omega)

/-! ### Lines written -/

theorem lines_setCounter (d k : Nat) (x : Stow) (level i v : Nat) : (setCounter d k x level i v).lines = x.lines := by
  induction k generalizing x level i v with
  | zero => rfl
  | succ k ih =>
    rw [setCounter]
    split
    · rfl
    · exact ih ..

/-- A line written holds its bytes; the counters that change with it hold none (R634). -/
theorem lines_writeLine (x : Stow) (d n : Nat) (data : Octets) (lost : Nat → Bool) :
    (writeLine x d n data lost).lines = tins n (fit 64 data) (tdel x.lines n) := by
  unfold writeLine
  dsimp only
  split <;> rw [lines_setCounter]

/-- The lines of an engine after a write of one. -/
def LineWritten (x y : Stow) (n : Nat) (data : Octets) : Prop :=
  tfind y.lines n = some data ∧ ∀ k, k ≠ n → tfind y.lines k = tfind x.lines k

theorem carriedOut_written {data : Octets} (hd : data.length = 64) :
    LineWritten (stow s.mod h) (stow (carriedOut s h n false data).1.mod h) n data := by
  have held : stow (carriedOut s h n false data).1.mod h =
      writeLine (stow s.mod h) (depthOf s.mod h) n data fun n => (lostAt s.mod h n).isSome := stow_setStow_same ..
  unfold LineWritten
  rw [held, lines_writeLine, fit_of_length hd]
  exact ⟨tfind_tins_same _ _ _ (tdel_key_ne _ _), fun k hk => by rw [tfind_tins_ne _ _ hk, tfind_tdel_ne _ hk]⟩

/-! ### Accesses that the engine lets through -/

/-- A write of a line in no loss of cause 2 or 5 goes on, and ends its other losses (R664). -/
theorem fullWrite_line (hl : ∀ e ∈ lossesAt m h n, e.cause ≠ 2 ∧ e.cause ≠ 5) :
    fullWrite m h n 1 = some (endLosses m h n (n + 1) fun _ => true) := by
  unfold fullWrite
  refine if_neg fun hany => ?_
  obtain ⟨e, he, hbad⟩ := List.any_eq_true.mp hany
  simp only [Bool.and_eq_true, Bool.or_eq_true, beq_iff_eq, decide_eq_true_eq] at hbad
  obtain ⟨hcause, lo, hi⟩ := hbad
  have hmem : e ∈ lossesAt m h n := List.mem_filter.mpr ⟨he, by simpa using ⟨by omega, hi⟩⟩
  obtain ⟨h2, h5⟩ := hl e hmem
  exact hcause.elim h2 h5

theorem serveAccess_write {data : Octets} (hd : data.length = 64) (hl : ∀ e ∈ lossesAt s.mod h n, e.cause ≠ 2 ∧ e.cause ≠ 5) :
    LineWritten (stow s.mod h) (stow (serveAccess s h r n (.write data) .ok).1.mod h) n data := by
  have heq : serveAccess s h r n (.write data) .ok = carriedOut (s.upd (endLosses s.mod h n (n + 1) fun _ => true)) h n false data := by
    unfold serveAccess counterLoss
    dsimp only
    rw [fullWrite_line hl]
  have ended : (stow (endLosses s.mod h n (n + 1) fun _ => true) h).lines = (stow s.mod h).lines :=
    Stow.lines_of_lossless (LossesOnly.endLosses ..).stow
  obtain ⟨written, others⟩ := carriedOut_written (s := s.upd (endLosses s.mod h n (n + 1) fun _ => true)) (h := h) (n := n) hd
  rw [heq]
  exact ⟨written, fun k hk => by rw [others k hk, State.upd_mod, ended]⟩

/-- A partial write of a line that is not lost is merged into what the line held (R624). -/
theorem serveAccess_partialWrite {off : Nat} {data : Octets} (hd : off + data.length ≤ 64) (hl : lostAt s.mod h n = none) :
    LineWritten (stow s.mod h) (stow (serveAccess s h r n (.partialWrite off data) .ok).1.mod h) n
      ((fit 64 ((tfind (stow s.mod h).lines n).getD [])).take off ++ data ++
        (fit 64 ((tfind (stow s.mod h).lines n).getD [])).drop (off + data.length)) := by
  generalize hheld : fit 64 ((tfind (stow s.mod h).lines n).getD []) = held
  have hlen : held.length = 64 := hheld ▸ length_fit ..
  have heq : serveAccess s h r n (.partialWrite off data) .ok = carriedOut s h n false (mergedInto held off data) := by
    unfold serveAccess counterLoss mergeLine
    dsimp only
    rw [hl, hheld]
    split <;> rfl
  rw [heq, ← mergedInto_eq hlen hd]
  exact carriedOut_written (length_fit ..)

/-- A read changes nothing and answers the line, or an error where it is lost (R637, R664). -/
theorem serveAccess_read : serveAccess s h r n .read .ok =
    (s, if lostAt s.mod h n = none then some (fit 64 ((tfind (stow s.mod h).lines n).getD [])) else none) := by
  unfold serveAccess counterLoss readLine
  dsimp only
  cases lostAt s.mod h n with
  | some e => rfl
  | none =>
    rw [if_neg (by decide), if_pos rfl]
    split <;> rfl

/-! ### The engine's check -/

/-- An access that the engine refuses is counted and changes no line (R652). -/
theorem refuseAccess_refused (m : Mod) (h master : Nat) (r : Option Nat) :
    (refuseAccess m h master r 1).stow = m.stow ∧ (refuseAccess m h master r 1).out = m.out ∧
      Counts m (refuseAccess m h master r 1) 0x8000 0x0B h 1 := by
  have counted : Counts m (bump m 0x8000 0x0B h 1) 0x8000 0x0B h 1 := .of_bump h rfl (by decide) rfl
  unfold refuseAccess
  dsimp only
  split
  · exact ⟨bump_stow .., bump_out .., counted⟩
  · refine ⟨?_, ?_, counted.of_inf (by rw [inf_raiseOnce])⟩
    · rw [raiseOnce_eq]; exact bump_stow ..
    · rw [raiseOnce_eq]; exact bump_out ..

/-- The right that an access needs: to read, or to read and write (R674). -/
def needOf (kind : AccessKind) : Nat := if kind = .read then 1 else 3

theorem accessed_refused {kind : AccessKind} {dev : DeviceResult} (h0 : allowed s.mod h master n (needOf kind) = none) :
    accessed s h master n kind dev = (s.upd (refuseAccess s.mod h master (regionOf s.mod h n) 1), none) := by
  unfold accessed
  dsimp only
  rw [show (if kind = .read then 1 else 3) = needOf kind from rfl, h0]

theorem accessed_served {kind : AccessKind} {dev : DeviceResult} (h0 : allowed s.mod h master n (needOf kind) = some r) :
    accessed s h master n kind dev = serveAccess s h r n kind dev := by
  unfold accessed
  dsimp only
  rw [show (if kind = .read then 1 else 3) = needOf kind from rfl, h0]

theorem allowed_of_noRegion {need : Nat} (hr : regionOf m h n = none) : allowed m h master n need = none := by
  unfold allowed
  rw [hr]
  rfl

theorem allowed_of_denied {need : Nat} (hr : regionOf m h n = some r) (hneed : 0 < need)
    (hd : guarded m h r master = true ∨ rightsOf m h r master = 0) : allowed m h master n need = none := by
  have hdenied : denied m h r master need = true := by
    unfold denied
    obtain hg | hrights := hd
    · simp [hg]
    · simp [hrights, hneed]
  unfold allowed
  rw [hr, Option.filter_some, hdenied]
  rfl

theorem allowed_of_rights {need : Nat} (hr : regionOf m h n = some r) (hq : (stow m h).quiesced.contains r = false)
    (hg : guarded m h r master = false) (hrights : need ≤ rightsOf m h r master) : allowed m h master n need = some r := by
  have hdenied : denied m h r master need = false := by
    unfold denied
    rw [hq, hg, decide_eq_false (Nat.not_lt.mpr hrights)]
    rfl
  unfold allowed
  rw [hr, Option.filter_some, hdenied]
  rfl

/-! ### The command -/

/-- An access's outcome with its answer put out. -/
def answeredTo (h master : Nat) (x : State × Option Octets) : State := x.1.upd (emit x.1.mod (.stowageAnswer h master x.2))

@[simp] theorem stow_answeredTo (h master : Nat) (x : State × Option Octets) (j : Nat) : stow (answeredTo h master x).mod j = stow x.1.mod j := rfl
@[simp] theorem answeredTo_out (h master : Nat) (x : State × Option Octets) :
    (answeredTo h master x).mod.out = x.1.mod.out ++ [.stowageAnswer h master x.2] := rfl

/-- What lets an access reach a port's engine: the port is ready, its key is there, and the debug access port is open to master 5. -/
structure PortServes (m : Mod) (h master : Nat) : Prop where
  running : m.sys.running = true
  ready : (stow m h).st = 2
  key : (stow m h).key ≠ []
  debug : master = 5 → m.mgmt.debugBy ≠ []

theorem exec_stowageAccess {g : Fin 2} {a : Fin 6} {kind : AccessKind} (hw : kind.wf = true) (hs : PortServes s.mod g a) :
    exec (.stowageAccess g a n kind .ok) s = .next (finish (answeredTo g a (accessed s g a n kind .ok))) := by
  have hopen : ¬(!s.mod.sys.running || (a.val == 5 && s.mod.mgmt.debugBy.isEmpty)) = true := by simpa [hs.running] using hs.debug
  have heq : stowageAccess s g a n kind .ok = answeredTo g a (accessed s g a n kind .ok) := by
    unfold stowageAccess
    rw [if_neg hopen]
    dsimp only
    rw [if_pos ⟨hs.ready, hs.key⟩]
    rfl
  rw [← heq]
  exact run_whileOn_state (c := .stowageAccess g a n kind .ok) "STOWAGE_ACCESS" (fun s => stowageAccess s g a n kind .ok)
    (by simp [Instr.wf, hw, DeviceResult.wf]) hs.running

/-- A refused access, whatever it asks for: an error for an answer, no line changed, and the count 0x8000:0B. -/
theorem stowageAccess_refused {g : Fin 2} {a : Fin 6} {kind : AccessKind} (hw : kind.wf = true) (hs : PortServes s.mod g a)
    (h0 : allowed s.mod g a n (needOf kind) = none) :
    ∃ t, exec (.stowageAccess g a n kind .ok) s = .next t ∧ stow t.mod g = stow s.mod g ∧ Counts s.mod t.mod 0x8000 0x0B g 1 ∧
      t.mod.out = s.mod.out ++ [.stowageAnswer g a none] := by
  obtain ⟨hstow, hout, hcount⟩ := refuseAccess_refused s.mod g a (regionOf s.mod g n)
  refine ⟨_, exec_stowageAccess hw hs, ?_⟩
  rw [accessed_refused h0, finish_mod, stow_settleOver, stow_answeredTo, settleOver_out, answeredTo_out]
  refine ⟨stow_of_eq hstow g, hcount.of_inf (by rw [inf_settleOver]; rfl), congrArg (· ++ _) hout⟩

/-- An access that passes the engine's check leaves the lines as its service does. -/
theorem stowageAccess_written {g : Fin 2} {a : Fin 6} {kind : AccessKind} {data : Octets} (hw : kind.wf = true) (hs : PortServes s.mod g a)
    (h0 : allowed s.mod g a n (needOf kind) = some r)
    (hl : LineWritten (stow s.mod g) (stow (serveAccess s g r n kind .ok).1.mod g) n data) :
    ∃ t, exec (.stowageAccess g a n kind .ok) s = .next t ∧ LineWritten (stow s.mod g) (stow t.mod g) n data := by
  refine ⟨_, exec_stowageAccess hw hs, ?_⟩
  rw [finish_mod, stow_settleOver, stow_answeredTo, accessed_served h0]
  exact hl

theorem stowageAccess_read {g : Fin 2} {a : Fin 6} (hs : PortServes s.mod g a) (h0 : allowed s.mod g a n 1 = some r) :
    ∃ t, exec (.stowageAccess g a n .read .ok) s = .next t ∧ t.mod.stow = s.mod.stow ∧ t.mod.obj = s.mod.obj ∧
      t.mod.out = s.mod.out ++ [.stowageAnswer g a
        (if lostAt s.mod g n = none then some (fit 64 ((tfind (stow s.mod g).lines n).getD [])) else none)] := by
  refine ⟨_, exec_stowageAccess rfl hs, ?_⟩
  rw [finish_mod, settleOver_stow, settleOver_obj, settleOver_out, accessed_served (kind := .read) h0, serveAccess_read]
  exact ⟨rfl, rfl, rfl⟩

/-! ### A region released -/

variable {u : Nat}

theorem reopen_stow (m : Mod) (h r : Nat) :
    stow (reopen m h r) h = { stow m h with quiesced := (stow m h).quiesced.filter (· != r) } ∧ (reopen m h r).mgmt = m.mgmt :=
  ⟨stow_setStow_same .., rfl⟩

/-- Where no loss of cause 2 or 5 is left the release of an open region has nothing to do. -/
theorem releaseRegion_idle (hq : (stow m (u / 16)).quiesced.contains (u % 16) = false)
    (hl : ∀ e ∈ losses (stow m (u / 16)), e.region = u % 16 → e.cause ≠ 2 ∧ e.cause ≠ 5) :
    stow (releaseRegion m u).1 (u / 16) = stow m (u / 16) ∧ (releaseRegion m u).1.mgmt = m.mgmt ∧ (releaseRegion m u).2.1 = 0 := by
  let pick (e : LostRec) : Bool := !e.released && e.region == u % 16 && (e.cause == 2 || e.cause == 5)
  have unpicked : ∀ e ∈ (stow m (u / 16)).recs ++ (stow m (u / 16)).unrecorded, pick e = false := by
    intro e he
    refine Bool.eq_false_iff.mpr fun hp => ?_
    simp only [pick, Bool.and_eq_true, Bool.or_eq_true, beq_iff_eq] at hp
    obtain ⟨⟨hrel, hregion⟩, hcause⟩ := hp
    obtain ⟨h2, h5⟩ := hl e (List.mem_filter.mpr ⟨he, hrel⟩) hregion
    exact hcause.elim h2 h5
  have idle : (losses (stow m (u / 16))).filter pick = [] :=
    List.filter_eq_nil_iff.mpr fun e he => by simp [unpicked e (List.mem_filter.mp he).1]
  have recs : (stow m (u / 16)).recs.map (fun e => if pick e then { e with released := true } else e) = (stow m (u / 16)).recs :=
    (List.map_congr_left fun e he => by rw [unpicked e (List.mem_append_left _ he)]; rfl).trans (List.map_id _)
  have unrecorded : (stow m (u / 16)).unrecorded.filter (fun e => !pick e) = (stow m (u / 16)).unrecorded :=
    List.filter_eq_self.mpr fun e he => by rw [unpicked e (List.mem_append_right _ he)]; rfl
  have same : releaseRecs (stow m (u / 16)) pick = stow m (u / 16) := by
    unfold releaseRecs
    rw [recs, unrecorded]
  unfold releaseRegion
  dsimp only
  rw [if_neg (by rw [hq]; decide), if_pos idle, if_pos rfl]
  exact ⟨by rw [stow_raise, stow_setStow_same]; exact same, rfl, rfl⟩

/-- A quiesced region reopens in a new restart, its losses released (R668). -/
theorem releaseRegion_reopened (hq : (stow m (u / 16)).quiesced.contains (u % 16) = true) (hr : (stow m (u / 16)).restarts ≠ 255) :
    (stow (releaseRegion m u).1 (u / 16)).quiesced = (stow m (u / 16)).quiesced.filter (· != u % 16) ∧
      (stow (releaseRegion m u).1 (u / 16)).restarts = (stow m (u / 16)).restarts + 1 ∧
      (∀ e ∈ (stow (releaseRegion m u).1 (u / 16)).recs, e.region = u % 16 → e.released = true) ∧
      (releaseRegion m u).1.mgmt = m.mgmt ∧ (releaseRegion m u).2.1 = 0 := by
  obtain ⟨k, heq, hstand, hmgmt⟩ := restartSpans_restarted 1 [regionGroups m (u / 16) (u % 16)] hr
  simp only [Stow.standing, Prod.mk.injEq] at hstand
  obtain ⟨-, hrestarts, hquiesced⟩ := hstand
  obtain ⟨hstow, hkeep⟩ := reopen_stow (setStow k (u / 16) (releaseRecs (stow k (u / 16)) fun e => e.region == u % 16)) (u / 16) (u % 16)
  unfold releaseRegion
  dsimp only
  rw [if_pos hq, heq]
  dsimp only
  rw [if_pos rfl]
  dsimp only
  rw [stow_raise, hstow, stow_setStow_same]
  refine ⟨congrArg (List.filter _) hquiesced, hrestarts, fun e he hregion => ?_, hkeep.trans hmgmt, rfl⟩
  obtain ⟨e', -, rfl⟩ := List.mem_map.mp he
  by_cases hmine : e'.region = u % 16
  · simp [hmine]
  · simp [hmine] at hregion

theorem releaseRegion_exhausted (hq : (stow m (u / 16)).quiesced.contains (u % 16) = true) (hr : (stow m (u / 16)).restarts = 255) :
    stow (releaseRegion m u).1 (u / 16) = stow m (u / 16) ∧ (releaseRegion m u).1.mgmt = m.mgmt ∧ (releaseRegion m u).2.1 = 0x3001 := by
  unfold releaseRegion
  dsimp only
  rw [if_pos hq, restartSpans_exhausted _ _ hr]
  exact ⟨rfl, rfl, rfl⟩

/-! ### The request -/

variable {q : Hdr} {i : Nat}

theorem exec_regionRelease (hw : (Instr.regionRelease q u true).wf = true) :
    exec (.regionRelease q u true) s = .next (finish (writeRow s q 0x8010 0x0A (some u) (b1 1))) :=
  run_wf "REGION_RELEASE" _ s (fun s => writeRow s q 0x8010 0x0A (some u) (b1 1)) hw

/-- An accepted release leaves the stowage as the release of the region does, and is answered with its status. -/
theorem regionRelease_written (hc : WriteClears s.mod q i 0x8010 0x0A (some u) (b1 1))
    (hm : (releaseRegion (accept s.mod q i) u).1.mgmt = (accept s.mod q i).mgmt) :
    (finish (writeRow s q 0x8010 0x0A (some u) (b1 1))).mod.stow = (releaseRegion (accept s.mod q i) u).1.stow ∧
      Answered (finish (writeRow s q 0x8010 0x0A (some u) (b1 1))).mod i q.sequence (releaseRegion (accept s.mod q i) u).2.1 := by
  have heff : effect (s.upd (accept s.mod q i)) i 0x8010 0x0A u (.nat 1) =
      effV (s.upd (accept s.mod q i)) (releaseRegion (accept s.mod q i) u) := rfl
  obtain ⟨-, answered⟩ := writeRow_time (v := .nat 1) _ hc rfl (by decide) rfl rfl heff hm
  obtain ⟨bodies, heq⟩ := writeRow_replied (v := .nat 1) _ hc rfl (by decide) rfl rfl heff
  exact ⟨by rw [heq, settleOver_stow, replySealed_stow]; rfl, answered⟩

/-- Settles O51: a release by what is left to release, an access by the engine's check and then by its kind. -/
theorem regionsReleaseAndLinesAreAccessed : Obligations.RegionsReleaseAndLinesAreAccessed := by
  refine ⟨fun s q i u hw hc => ?_, fun s g a n hr hst hkey hdebug => ?_⟩
  · have left (j : Nat) (hm : (releaseRegion (accept s.mod q i) u).1.mgmt = (accept s.mod q i).mgmt) :
        stow (finish (writeRow s q 0x8010 0x0A (some u) (b1 1))).mod j = stow (releaseRegion (accept s.mod q i) u).1 j :=
      stow_of_eq (regionRelease_written hc hm).1 j
    refine ⟨fun hq hl => ?_, fun hq hrest => ?_, fun hq hrest => ?_⟩
    · obtain ⟨hstow, hm, hstatus⟩ := releaseRegion_idle (m := accept s.mod q i) hq hl
      exact ⟨_, exec_regionRelease hw, (left _ hm).trans hstow, hstatus ▸ (regionRelease_written hc hm).2⟩
    · obtain ⟨hquiesced, hrestarts, hrecs, hm, hstatus⟩ := releaseRegion_reopened (m := accept s.mod q i) hq hrest
      refine ⟨_, exec_regionRelease hw, ?_⟩
      rw [left _ hm]
      exact ⟨hquiesced, hrestarts, hrecs, hstatus ▸ (regionRelease_written hc hm).2⟩
    · obtain ⟨hstow, hm, hstatus⟩ := releaseRegion_exhausted (m := accept s.mod q i) hq hrest
      exact ⟨_, exec_regionRelease hw, (left _ hm).trans hstow, hstatus ▸ (regionRelease_written hc hm).2⟩
  · have serves : PortServes s.mod g a := ⟨hr, hst, hkey, hdebug⟩
    refine ⟨fun kind hw hnone => stowageAccess_refused hw serves (allowed_of_noRegion hnone), fun r hregion hq => ⟨fun kind hw hdenied => ?_,
      fun hg hrights => ⟨fun data hw hl => ?_, fun off data hw hl => ?_⟩, fun hg hrights => ?_⟩⟩
    · refine stowageAccess_refused hw serves (allowed_of_denied hregion ?_ hdenied)
      unfold needOf
      split <;> decide
    · exact stowageAccess_written hw serves (allowed_of_rights hregion hq hg hrights.ge) (serveAccess_write (beq_iff_eq.mp hw) hl)
    · exact stowageAccess_written hw serves (allowed_of_rights hregion hq hg hrights.ge) (serveAccess_partialWrite (of_decide_eq_true hw).2 hl)
    · exact stowageAccess_read serves (allowed_of_rights hregion hq hg hrights)

end Sys2Proof.Machine
end

