-- ==== Sys2Proof/Proofs/BerthResets.lean ====
section
/-! PROOFS. The reset of a berth (R699 to R712): its request, its edge E0, and its completion with or without the return of the berth's resources. -/

namespace Sys2Proof.Machine

variable {m n k : Mod} {s : State} {h : Hdr} {i b : Nat}

@[simp] theorem berth_settleOver (m : Mod) (b : Nat) : berth (settleOver m) b = berth m b := by unfold berth; rw [settleOver_berths]

/-! ### The request -/

theorem requestReset_mgmt (m : Mod) (b mode cred : Nat) : (requestReset m b mode cred).1.mgmt = m.mgmt := by
  unfold requestReset
  dsimp only
  split
  · rfl
  · split <;> rfl

/-- Berth 0 is not reset (R700). -/
theorem requestReset_zero (m : Mod) (mode cred : Nat) : requestReset m 0 mode cred = (m, 0x2001, 0) := by
  unfold requestReset
  exact if_pos rfl

/-- A berth has one reset at a time, which runs or is due (R701). -/
theorem requestReset_busy (mode cred : Nat) (hb : b ≠ 0) (hr : (berth m b).resetting = true ∨ (berth m b).due.isSome = true) :
    requestReset m b mode cred = (m, 0x3002, 0) := by
  unfold requestReset
  dsimp only
  rw [if_neg hb, if_pos (by simpa using hr)]

/-- A reset accepted is due within 1 ms (R702). -/
theorem requestReset_due (mode cred : Nat) (hb : b ≠ 0) (hr : (berth m b).resetting = false) (hd : (berth m b).due = none) :
    ∃ d ≤ msCycles, ∃ at_, requestReset m b mode cred =
      (setBerth m b { berth m b with due := some (mode, m.sys.elapsed + d, cred) }, 0, at_) := by
  unfold requestReset
  dsimp only
  rw [if_neg hb, if_neg (by simp [hr, hd])]
  exact ⟨_, Nat.lt_succ_iff.mp (Nat.mod_lt _ (Nat.succ_pos _)), _, rfl⟩

/-- The commands of a request: a WRITE of the mode to 0xA000:06 (R699). -/
theorem exec_berthReset {mode : Nat} {c : Instr} (hc : c = .berthResetKeep h b ∧ mode = 1 ∨ c = .berthResetRelease h b ∧ mode = 2)
    (hw : c.wf = true) :
    exec c s = .next (finish (writeRow s h 0xA000 6 (some b) (b1 mode))) := by
  obtain ⟨rfl, rfl⟩ | ⟨rfl, rfl⟩ := hc
  · exact run_wf "BERTH_RESET_KEEP" _ s (fun s => writeRow s h 0xA000 6 (some b) (b1 1)) hw
  · exact run_wf "BERTH_RESET_RELEASE" _ s (fun s => writeRow s h 0xA000 6 (some b) (b1 2)) hw

/-- An accepted request leaves the berths as `requestReset` does, and is answered with its status. -/
theorem berthReset_written {mode : Nat} (hmode : mode < 256) (hc : WriteClears s.mod h i 0xA000 6 (some b) (b1 mode)) :
    (finish (writeRow s h 0xA000 6 (some b) (b1 mode))).mod.berths = (requestReset (accept s.mod h i) b mode (sess s.mod i).cred).1.berths ∧
      Answered (finish (writeRow s h 0xA000 6 (some b) (b1 mode))).mod i h.sequence
        (requestReset (accept s.mod h i) b mode (sess s.mod i).cred).2.1 := by
  have hcred : (sess (accept s.mod h i) i).cred = (sess s.mod i).cred := by rw [sess_accept_same]
  have heff : effect (s.upd (accept s.mod h i)) i 0xA000 6 b (.nat mode) =
      effT (s.upd (accept s.mod h i)) (requestReset (accept s.mod h i) b mode (sess s.mod i).cred) := by rw [← hcred]; rfl
  have hdec : some (Val.nat (natOf (b1 mode))) = some (.nat mode) := congrArg (some ∘ Val.nat) (natOf_bytesOf (n := 1) hmode)
  obtain ⟨-, answered⟩ := writeRow_time _ hc rfl (by decide) hdec rfl heff (requestReset_mgmt ..)
  obtain ⟨bodies, heq⟩ := writeRow_replied _ hc rfl (by decide) hdec rfl heff
  exact ⟨by rw [heq, settleOver_berths, replySealed_berths]; rfl, answered⟩

/-! ### Folds -/

/-- A fold that comes to an element leaves what that element's step brings about from what every step keeps, and what no step undoes. -/
theorem foldl_of_mem_of_kept {α β : Type} {P I : β → Prop} {g : β → α → β} {a : α} (hI : ∀ x c, I x → I (g x c))
    (does : ∀ x, I x → P (g x a)) (keeps : ∀ x c, P x → P (g x c)) {l : List α} (ha : a ∈ l) {x : β} (hx : I x) : P (l.foldl g x) := by
  obtain ⟨before, rest, rfl⟩ := List.append_of_mem ha
  rw [List.foldl_append, List.foldl_cons]
  have here : I (before.foldl g x) := List.foldlRecOn before g hx fun y hy c _ => hI y c hy
  exact List.foldlRecOn rest g (does _ here) fun y hy c _ => keeps y c hy

/-- A fold that comes to an element leaves what that element's step brings about and no step undoes. -/
theorem foldl_of_mem {α β : Type} {P : β → Prop} {g : β → α → β} {a : α} (does : ∀ x, P (g x a)) (keeps : ∀ x c, P x → P (g x c))
    {l : List α} (ha : a ∈ l) {x : β} : P (l.foldl g x) :=
  foldl_of_mem_of_kept (I := fun _ => True) (fun _ _ _ => trivial) (fun x _ => does x) keeps ha trivial

/-! ### The tenant's sessions -/

theorem endGrant_form (m : Mod) (slot : Nat) : ∃ mgmt obj ev, endGrant m slot = { m with mgmt := mgmt, obj := obj, ev := ev } := by
  have closed (n : Mod) (id : Nat) : ∃ mgmt ev, closeDebug n slot id = { n with mgmt := mgmt, ev := ev } := by
    unfold closeDebug
    dsimp only
    split
    · split <;> exact ⟨_, _, rfl⟩
    · exact ⟨n.mgmt, n.ev, rfl⟩
  unfold endGrant
  split
  · exact ⟨m.mgmt, m.obj, m.ev, rfl⟩
  · dsimp only
    obtain ⟨mgmt, ev, hc⟩ := closed { m with mgmt := { m.mgmt with grants := tset none m.mgmt.grants slot none } } (sess m slot).id
    rw [hc]
    exact ⟨_, _, _, rfl⟩

theorem endSession_form (m : Mod) (slot cause : Nat) : ∃ mgmt obj ev, endSession m slot cause = { m with mgmt := mgmt, obj := obj, ev := ev } := by
  unfold endSession
  dsimp only
  split
  · obtain ⟨mgmt, obj, ev, hg⟩ := endGrant_form m slot
    rw [hg]
    exact ⟨_, _, _, rfl⟩
  · split
    · exact ⟨_, _, _, rfl⟩
    · exact ⟨m.mgmt, m.obj, m.ev, rfl⟩

/-- Sessions that end change the management, objects and events. -/
theorem endSessions_form (m : Mod) (cause : Nat) (p : Sess → Bool) :
    ∃ mgmt obj ev, endSessions m cause p = { m with mgmt := mgmt, obj := obj, ev := ev } := by
  refine List.foldlRecOn (motive := fun n : Mod => ∃ mgmt obj ev, n = { m with mgmt := mgmt, obj := obj, ev := ev }) (List.range 32) _
    ⟨m.mgmt, m.obj, m.ev, rfl⟩ fun n hn slot _ => ?_
  obtain ⟨mgmt, obj, ev, rfl⟩ := hn
  split
  · obtain ⟨mgmt', obj', ev', hs⟩ := endSession_form { m with mgmt := mgmt, obj := obj, ev := ev } slot cause
    rw [hs]
    exact ⟨mgmt', obj', ev', rfl⟩
  · exact ⟨mgmt, obj, ev, rfl⟩

/-- A session that a test picks ends with those the test picks. -/
theorem endSessions_picked (m : Mod) (cause : Nat) {p : Sess → Bool} {j : Nat} (hj : j < 32) (hst : (sess m j).state ≤ 2) (hp : p (sess m j) = true) :
    (sess (endSessions m cause p) j).state = 0 := by
  have other (n : Mod) {c : Nat} (hc : j ≠ c) : sess (if (sess n c).state != 0 && p (sess n c) then endSession n c cause else n) j = sess n j := by
    split
    · exact sess_endSession_ne n cause hc
    · rfl
  have own (n : Mod) (hn : sess n j = sess m j ∨ (sess n j).state = 0) :
      (sess (if (sess n j).state != 0 && p (sess n j) then endSession n j cause else n) j).state = 0 := by
    obtain hn | hn := hn
    · by_cases hz : (sess m j).state = 0
      · simp [hn, hz]
      · rw [if_pos (by simp [hn, hz, hp])]
        exact sess_endSession_same n cause (hn ▸ hst)
    · simp [hn]
  refine foldl_of_mem_of_kept (P := fun n => (sess n j).state = 0) (I := fun n => sess n j = sess m j ∨ (sess n j).state = 0) (fun n c hn => ?_) own
    (fun n c hn => ?_) (List.mem_range.mpr hj) (.inl rfl)
  · obtain rfl | hc := eq_or_ne j c
    · exact .inr (own n hn)
    · rw [other n hc]
      exact hn
  · obtain rfl | hc := eq_or_ne j c
    · exact own n (.inr hn)
    · rw [other n hc]
      exact hn

/-- A session of the tenant of a berth and a BPID. -/
def ofTenant (b bpid : Nat) (x : Sess) : Bool := x.role == 3 && (x.berth == b || x.bpid == bpid)

/-- The tenant's sessions end, and of their replies those that wait are dropped. -/
theorem endTenant_eq (m : Mod) (b bpid : Nat) : ∃ icept, endTenant m b bpid =
    { endSessions m 3 (ofTenant b bpid) with mgmt := { (endSessions m 3 (ofTenant b bpid)).mgmt with icept := icept } } := by
  unfold endTenant
  dsimp only
  rw [show (fun x : Sess => x.role == 3 && (x.berth == b || x.bpid == bpid)) = ofTenant b bpid from rfl]
  generalize endSessions m 3 (ofTenant b bpid) = n
  exact ⟨_, rfl⟩

theorem endTenant_form (m : Mod) (b bpid : Nat) : ∃ mgmt obj ev, endTenant m b bpid = { m with mgmt := mgmt, obj := obj, ev := ev } := by
  obtain ⟨icept, h⟩ := endTenant_eq m b bpid
  obtain ⟨mgmt, obj, ev, hs⟩ := endSessions_form m 3 (ofTenant b bpid)
  rw [h, hs]
  exact ⟨_, _, _, rfl⟩

/-- The sessions of the tenant that a BPID names end (R706). -/
theorem endTenant_ended (m : Mod) (b : Nat) {bpid j : Nat} (hj : j < 32) (hst : (sess m j).state ≤ 2) (hrole : (sess m j).role = 3)
    (hbpid : (sess m j).bpid = bpid) : (sess (endTenant m b bpid) j).state = 0 := by
  have ended := endSessions_picked m 3 (p := ofTenant b bpid) hj hst (by simp [ofTenant, hrole, hbpid])
  obtain ⟨icept, h⟩ := endTenant_eq m b bpid
  rw [h]
  generalize endSessions m 3 (ofTenant b bpid) = n at ended ⊢
  exact ended

theorem CommitKeeps.endTenant (m : Mod) (b bpid : Nat) : CommitKeeps m (endTenant m b bpid) := by
  have ended : CommitKeeps m (endSessions m 3 (ofTenant b bpid)) := .foldl _ (fun n _ => .ite (.endSession ..) (.refl n)) _ _
  obtain ⟨icept, h⟩ := endTenant_eq m b bpid
  rw [h]
  generalize endSessions m 3 (ofTenant b bpid) = n at ended ⊢
  exact ended.trans (.of_eq rfl rfl rfl)

theorem settled_assocBerth : Settled 0x4000 3 := ⟨by decide, by decide⟩

/-! ### Keys -/

/-- Both slots of an association are empty. -/
def SlotsEmpty (m : Mod) (a : Nat) : Prop := (assoc m a).s0.full = false ∧ (assoc m a).s1.full = false

/-- The erasure of an association's slots and requests at E0. -/
def eraseBoth (m : Mod) (a : Nat) : Mod :=
  setNat (setAssoc m a { assoc m a with s0 := {}, s1 := {}, sw := 0, notice := 0, ksp := false }) 0x4040 1 a 0

theorem eraseBerthKeys_eq (m : Mod) (b : Nat) :
    (eraseBerthKeys m b).1 = ((m.assocs.map (·.1)).filter fun a => aBerth m a == b).foldl eraseBoth (eraseKek m b) := rfl

theorem eraseBerthKeys_form (m : Mod) (b : Nat) :
    ∃ assocs obj, (eraseBerthKeys m b).1 = { eraseKek m b with assocs := assocs, obj := obj } := by
  rw [eraseBerthKeys_eq]
  refine List.foldlRecOn (motive := fun n : Mod => ∃ assocs obj, n = { eraseKek m b with assocs := assocs, obj := obj }) _ _
    ⟨(eraseKek m b).assocs, (eraseKek m b).obj, rfl⟩ fun n hn a _ => ?_
  obtain ⟨assocs, obj, rfl⟩ := hn
  exact ⟨_, _, rfl⟩

theorem slotsEmpty_eraseBoth_same (m : Mod) (a : Nat) : SlotsEmpty (eraseBoth m a) a := by
  unfold SlotsEmpty eraseBoth
  rw [assoc_setNat, assoc_setAssoc_same]
  exact ⟨rfl, rfl⟩

theorem SlotsEmpty.eraseBoth {a : Nat} (hm : SlotsEmpty m a) (c : Nat) : SlotsEmpty (eraseBoth m c) a := by
  obtain rfl | hc := eq_or_ne a c
  · exact slotsEmpty_eraseBoth_same m a
  · unfold SlotsEmpty Machine.eraseBoth
    rw [assoc_setNat, assoc_setAssoc_ne _ _ hc]
    exact hm

/-- Both slots of every association of a berth are erased; one that no table lists never held a key (R706). -/
theorem eraseBerthKeys_slots {a : Nat} (ha : aBerth m a = b) : SlotsEmpty (eraseBerthKeys m b).1 a := by
  rw [eraseBerthKeys_eq]
  by_cases hmem : a ∈ m.assocs.map (·.1)
  · exact foldl_of_mem (P := (SlotsEmpty · a)) (slotsEmpty_eraseBoth_same · a) (fun n c hn => hn.eraseBoth c)
      (List.mem_filter.mpr ⟨hmem, by simpa using ha⟩)
  · have unlisted : assoc (eraseKek m b) a = {} := tget_of_no_entry _ fun e he hk => hmem (List.mem_map.mpr ⟨e, he, hk⟩)
    refine List.foldlRecOn (motive := (SlotsEmpty · a)) _ _ ?_ fun n hn c _ => hn.eraseBoth c
    unfold SlotsEmpty
    rw [unlisted]
    exact ⟨rfl, rfl⟩

/-! ### Held frames -/

/-- The held frames of a berth dropped in a basin, with the count so far. -/
def dropBasin (m : Mod) (b : Nat) (acc : Mod × Nat) (basin : Nat) : Mod × Nat :=
  let c := clsOf acc.1 basin
  let mark (l : Learn) : Learn := if inf m 0x5000 2 (basin * 65536 + l.flow.1) = b ∧ l.flow.1 < 65536 then { l with flow := (65536, l.flow.2) } else l
  (setCls acc.1 basin { c with held := c.held.filter fun x => x.d.berth != b, learn := c.learn.map mark },
    acc.2 + (c.held.filter fun x => x.d.berth == b).length)

theorem dropHeld_eq (m : Mod) (b : Nat) : dropHeld m b = [0, 1, 2, 3].foldl (dropBasin m b) (m, 0) := rfl

theorem dropHeld_form (m : Mod) (b : Nat) : ∃ cls, (dropHeld m b).1 = { m with cls := cls } := by
  rw [dropHeld_eq]
  refine List.foldlRecOn (motive := fun x : Mod × Nat => ∃ cls, x.1 = { m with cls := cls }) _ _ ⟨m.cls, rfl⟩ fun x hx basin _ => ?_
  obtain ⟨cls, hx⟩ := hx
  unfold dropBasin
  dsimp only
  rw [hx]
  exact ⟨_, rfl⟩

/-- No held frame of a basin is a berth's. -/
def HoldsNone (b k : Nat) (m : Mod) : Prop := ∀ x ∈ (clsOf m k).held, x.d.berth ≠ b

theorem holdsNone_dropBasin_same (m : Mod) (b k : Nat) (x : Mod × Nat) : HoldsNone b k (dropBasin m b x k).1 := by
  intro y hy
  unfold dropBasin at hy
  dsimp only at hy
  rw [clsOf_setCls_same] at hy
  obtain ⟨-, hne⟩ := List.mem_filter.mp hy
  simpa using hne

theorem HoldsNone.dropBasin {b k : Nat} {x : Mod × Nat} (hx : HoldsNone b k x.1) (m : Mod) (basin : Nat) : HoldsNone b k (dropBasin m b x basin).1 := by
  obtain rfl | hk := eq_or_ne k basin
  · exact holdsNone_dropBasin_same m b k x
  · unfold HoldsNone Machine.dropBasin
    dsimp only
    rw [clsOf_setCls_ne _ _ hk]
    exact hx

/-- The held frames of a berth are dropped in every basin (R706). -/
theorem dropHeld_none (m : Mod) (b : Nat) {k : Nat} (hk : k < 4) : HoldsNone b k (dropHeld m b).1 := by
  rw [dropHeld_eq]
  exact foldl_of_mem (P := fun x : Mod × Nat => HoldsNone b k x.1) (holdsNone_dropBasin_same m b k) (fun _ basin hx => hx.dropBasin m basin)
    (show k ∈ [0, 1, 2, 3] by simp; omega)

/-! ### The edge -/

/-- A berth's keys erased and its held frames dropped. -/
def clearData (m : Mod) (b : Nat) : Mod := (dropHeld (eraseBerthKeys m b).1 b).1

theorem clearData_form (m : Mod) (b : Nat) : ∃ assocs cls obj, clearData m b = { eraseKek m b with assocs := assocs, cls := cls, obj := obj } := by
  obtain ⟨assocs, obj, hk⟩ := eraseBerthKeys_form m b
  obtain ⟨cls, hh⟩ := dropHeld_form (eraseBerthKeys m b).1 b
  rw [clearData, hh, hk]
  exact ⟨_, _, _, rfl⟩

theorem clearData_kek (m : Mod) (b : Nat) : (kek (clearData m b) b).kek = [] := by
  obtain ⟨assocs, cls, obj, h⟩ := clearData_form m b
  rw [h]
  exact congrArg Kek.kek (kek_setKek_same m b { kek m b with kek := [], shareA := none, shareB := none })

theorem clearData_slots {a : Nat} (ha : aBerth m a = b) : SlotsEmpty (clearData m b) a := by
  obtain ⟨cls, hh⟩ := dropHeld_form (eraseBerthKeys m b).1 b
  rw [clearData, hh]
  exact eraseBerthKeys_slots ha

/-- What E0 clears: the sessions of the berth's tenant, its keys, and the frames held for it (R706). -/
def clearBerth (m : Mod) (b bpid : Nat) : Mod := clearData (endTenant m b bpid) b

theorem clearBerth_form (m : Mod) (b bpid : Nat) : ∃ mgmt keks assocs cls obj ev, clearBerth m b bpid =
    { m with mgmt := mgmt, keks := keks, assocs := assocs, cls := cls, obj := obj, ev := ev } := by
  obtain ⟨mgmt, obj, ev, ht⟩ := endTenant_form m b bpid
  obtain ⟨assocs, cls, obj', hc⟩ := clearData_form (endTenant m b bpid) b
  rw [clearBerth, hc, ht]
  exact ⟨_, _, _, _, _, _, rfl⟩

@[simp] theorem clearBerth_sys (m : Mod) (b bpid : Nat) : (clearBerth m b bpid).sys = m.sys := by
  obtain ⟨_, _, _, _, _, _, h⟩ := clearBerth_form m b bpid; rw [h]
@[simp] theorem berth_clearBerth (m : Mod) (b bpid j : Nat) : berth (clearBerth m b bpid) j = berth m j := by
  obtain ⟨_, _, _, _, _, _, h⟩ := clearBerth_form m b bpid; rw [h]; rfl

theorem clearBerth_kek (m : Mod) (b bpid : Nat) : (kek (clearBerth m b bpid) b).kek = [] := clearData_kek ..

theorem clearBerth_held (m : Mod) (b bpid : Nat) {j : Nat} (hj : j < 4) : HoldsNone b j (clearBerth m b bpid) := dropHeld_none _ b hj

theorem clearBerth_slots {a : Nat} (bpid : Nat) (ha : aBerth m a = b) : SlotsEmpty (clearBerth m b bpid) a :=
  clearData_slots ((congrArg Val.toNat ((CommitKeeps.endTenant m b bpid).look 0x4000 3 a (by decide) settled_assocBerth)).trans ha)

theorem sess_clearData (m : Mod) (b : Nat) : sess (clearData m b) = sess m := by
  obtain ⟨assocs, cls, obj, h⟩ := clearData_form m b
  rw [h]
  rfl

theorem clearBerth_ended (m : Mod) (b : Nat) {bpid j : Nat} (hj : j < 32) (hst : (sess m j).state ≤ 2) (hrole : (sess m j).role = 3)
    (hbpid : (sess m j).bpid = bpid) : (sess (clearBerth m b bpid) j).state = 0 := by
  rw [clearBerth, sess_clearData]
  exact endTenant_ended m b hj hst hrole hbpid

/-- Between two states the record of one berth is written, and beside it frames move, objects and events change. -/
structure BerthTakes (b : Nat) (x : Berth) (m n : Mod) : Prop where
  sys : n.sys = m.sys
  mgmt : n.mgmt = m.mgmt
  assocs : n.assocs = m.assocs
  keks : n.keks = m.keks
  cls : n.cls = m.cls
  own : berth n b = x
  others : ∀ k, k ≠ b → berth n k = berth m k

namespace BerthTakes

variable {x : Berth}

theorem sess (h : BerthTakes b x m n) (j : Nat) : Machine.sess n j = Machine.sess m j := by unfold Machine.sess; rw [h.mgmt]
theorem assoc (h : BerthTakes b x m n) (a : Nat) : Machine.assoc n a = Machine.assoc m a := by unfold Machine.assoc; rw [h.assocs]
theorem kek (h : BerthTakes b x m n) (j : Nat) : Machine.kek n j = Machine.kek m j := by unfold Machine.kek; rw [h.keks]
theorem clsOf (h : BerthTakes b x m n) (j : Nat) : Machine.clsOf n j = Machine.clsOf m j := by unfold Machine.clsOf; rw [h.cls]

end BerthTakes

/-- What a berth's record shows from E0 on (R703, R706). -/
structure Resets (old : Berth) (mode : Nat) (x : Berth) : Prop where
  gen : x.gen = (old.gen + 1) % 256
  due : x.due = none
  resetting : x.resetting = true
  releasing : x.releasing = (mode == 2)
  resets : x.resets = satAdd 32 old.resets 1

theorem berth_advanceTo (m : Mod) (t b : Nat) : berth (advanceTo m t) b = berth m b := by unfold berth advanceTo; rw [advance_berths]

theorem inf_advanceTo_ne (m : Mod) (t : Nat) {c s : Nat} (e : Nat) (hs : s < 256) (hi : ¬((c = 0x4200 ∨ c = 0x3200) ∧ (s = 7 ∨ s = 8))) :
    inf (advanceTo m t) c s e = inf m c s e := congrArg Val.toNat (look_advance_ne _ _ hs hi)

theorem bpidOf_advanceTo (m : Mod) (t b : Nat) : bpidOf (advanceTo m t) b = bpidOf m b := by
  unfold bpidOf
  rw [inf_advanceTo_ne _ _ _ (by decide) (by decide)]

/-- What stands behind the clearing at E0: the record is written, and the frames of the old generation are discarded and counted (R705, R706). -/
theorem berthTakes_discard (m : Mod) (b : Nat) (x : Berth) (f : Desc → Bool) (d : Nat) :
    BerthTakes b { x with discarded := d } m (setBerth (discardFrames (setBerth m b x) f false 6).1 b
      { berth (discardFrames (setBerth m b x) f false 6).1 b with discarded := d }) := by
  obtain ⟨tx, queues, arbs, obj, ev, h⟩ := discardFrames_form (setBerth m b x) f false 6
  rw [h]
  generalize hn : ({ setBerth m b x with tx := tx, queues := queues, arbs := arbs, obj := obj, ev := ev } : Mod) = n
  have own : berth n b = x := by subst hn; exact berth_setBerth_same m b x
  have others (k : Nat) (hk : k ≠ b) : berth n k = berth m k := by subst hn; exact berth_setBerth_ne m x hk
  rw [own]
  exact ⟨by subst hn; rfl, by subst hn; rfl, by subst hn; rfl, by subst hn; rfl, by subst hn; rfl, berth_setBerth_same ..,
    fun k hk => (berth_setBerth_ne n _ hk).trans (others k hk)⟩

theorem aBerth_advanceTo (m : Mod) (t a : Nat) : aBerth (advanceTo m t) a = aBerth m a := inf_advanceTo_ne m t a (by decide) (by decide)
theorem sess_advanceTo (m : Mod) (t : Nat) : sess (advanceTo m t) = sess m := sess_advance ..

/-- At E0 time has run to the edge, the berth is cleared, and its record shows the reset. -/
theorem resetEdge_due {mode e0 cred : Nat} (hd : (berth m b).due = some (mode, e0, cred)) :
    ∃ ev x, Resets (berth m b) mode x ∧ BerthTakes b x (clearBerth { advanceTo m e0 with ev := ev } b (bpidOf m b)) (resetEdge m b) := by
  unfold resetEdge
  rw [hd]
  dsimp only
  rw [bpidOf_advanceTo, berth_advanceTo]
  generalize hn : Machine.raise (raise (advanceTo m e0) _ _ _ _) _ _ _ _ = told
  have htold : { advanceTo m e0 with ev := told.ev } = told := by subst hn; rfl
  refine ⟨told.ev, _, ?_, by rw [htold]; exact berthTakes_discard (clearBerth told b (bpidOf m b)) ..⟩
  exact ⟨rfl, rfl, rfl, rfl, rfl⟩

/-! ### Completion -/

theorem finishReset_berth (m : Mod) (b : Nat) :
    berth (finishReset m b) b = { berth m b with resetting := false, releasing := false, completed := now m } := by
  unfold finishReset
  dsimp only
  rw [berth_raise, berth_setBerth_same]

@[simp] theorem finishReset_obj (m : Mod) (b : Nat) : (finishReset m b).obj = m.obj := rfl
@[simp] theorem finishReset_sys (m : Mod) (b : Nat) : (finishReset m b).sys = m.sys := rfl
@[simp] theorem inf_finishReset (m : Mod) (b c e i : Nat) : inf (finishReset m b) i c e = inf m i c e := rfl
@[simp] theorem queue_finishReset (m : Mod) (b q : Nat) : queue (finishReset m b) q = queue m q := rfl

theorem resetComplete_done (hr : (berth m b).resetting = true) (hold : oldItems m b = false) (hl : (berth m b).releasing = false) :
    resetComplete m b = finishReset m b := by
  unfold resetComplete
  dsimp only
  rw [if_pos (by simp [hr, hl, hold])]

theorem releaseComplete_done (hr : (berth m b).resetting = true) (hold : oldItems m b = false) (hl : (berth m b).releasing = true) :
    releaseComplete m b = finishReset (releaseAll m b) b := by
  unfold releaseComplete
  dsimp only
  rw [if_pos (by simp [hr, hl, hold])]

/-! ### The return of a berth's resources -/

/-- Values that have gone stay gone, and queues that are empty stay empty. -/
structure Returns (m n : Mod) : Prop where
  gone : ∀ j, tfind m.obj j = none → tfind n.obj j = none
  empty : ∀ q, queue m q = {} → queue n q = {}

namespace Returns

theorem refl (m : Mod) : Returns m m := ⟨fun _ h => h, fun _ h => h⟩
theorem trans (h : Returns m n) (h' : Returns n k) : Returns m k := ⟨fun j hj => h'.gone j (h.gone j hj), fun q hq => h'.empty q (h.empty q hq)⟩
theorem of_eq (ho : n.obj = m.obj) (hq : n.queues = m.queues) : Returns m n :=
  ⟨fun j hj => by rw [ho]; exact hj, fun q h => by unfold queue at h ⊢; rw [hq]; exact h⟩

theorem foldl {α : Type} (g : Mod → α → Mod) (hg : ∀ m c, Returns m (g m c)) (l : List α) (m : Mod) : Returns m (l.foldl g m) :=
  List.foldlRecOn (motive := Returns m) l g (refl m) fun n hn c _ => hn.trans (hg n c)

end Returns

theorem tfind_tdel_none {α : Type} {t : Tbl α} {j : Nat} (h : tfind t j = none) (c : Nat) : tfind (tdel t c) j = none := by
  obtain rfl | hc := eq_or_ne j c
  · exact tfind_tdel_same t j
  · exact (tfind_tdel_ne t hc).trans h

theorem Returns.defaultElem (m : Mod) (idx : Nat) (subs : List Nat) (e : Nat) : Returns m (defaultElem m idx subs e) :=
  ⟨fun j hj => List.foldlRecOn (motive := fun t : Tbl Val => tfind t j = none) subs _ hj fun _ ht _ _ => tfind_tdel_none ht _, fun _ hq => hq⟩

/-- The subindices put to their defaults have no value of their own. -/
theorem defaultElem_gone (m : Mod) (idx : Nat) {subs : List Nat} {c : Nat} (hc : c ∈ subs) (e : Nat) :
    tfind (defaultElem m idx subs e).obj (okey idx c e) = none :=
  foldl_of_mem (g := fun t c => tdel t (okey idx c e)) (P := fun t : Tbl Val => tfind t (okey idx c e) = none) (fun t => tfind_tdel_same t _)
    (fun _ _ ht => tfind_tdel_none ht _) hc

/-- A queue returned. -/
def returnQueue (m : Mod) (q : Nat) : Mod := setQueue (defaultElem m 0x6000 (span 1 14) q) q {}

/-- An association returned; what it has recorded of its switches stays. -/
def returnAssoc (m : Mod) (a : Nat) : Mod :=
  let x := assoc m a
  defaultElem (defaultElem (setAssoc m a { ({} : Assoc) with switches := x.switches, knrWait := x.knrWait, lastSwitch := x.lastSwitch })
    0x4000 (span 1 11) a) 0x4040 [1, 2, 3] a

theorem Returns.emptied (m : Mod) (q : Nat) : Returns m (setQueue m q {}) := by
  refine ⟨fun _ h => h, fun c hc => ?_⟩
  obtain rfl | hne := eq_or_ne c q
  · exact queue_setQueue_same ..
  · exact (queue_setQueue_ne _ _ hne).trans hc

theorem Returns.returnQueue (m : Mod) (q : Nat) : Returns m (returnQueue m q) := (Returns.defaultElem m 0x6000 (span 1 14) q).trans (.emptied ..)

theorem Returns.returnAssoc (m : Mod) (a : Nat) : Returns m (returnAssoc m a) := by
  unfold Machine.returnAssoc
  exact .trans (.trans (.of_eq (n := setAssoc m a _) rfl rfl) (.defaultElem ..)) (.defaultElem ..)

theorem Returns.watchBanks (m : Mod) (basin : Nat) : Returns m (watchBanks m basin) := by
  refine .foldl _ (fun n c => ?_) _ m
  unfold watchBank
  dsimp only
  split
  · exact .of_eq rfl rfl
  · split
    · exact .of_eq rfl rfl
    · exact .refl n

/-- An LPM table returned, without its entries. -/
def returnTable (m : Mod) (t : Nat) : Mod :=
  let c := clsOf m (t / 8)
  defaultElem (watchBanks (setCls m (t / 8) { c with prefixes := c.prefixes.filter fun p => p.table != t % 8 }) (t / 8)) 0x5100 [1, 2, 3] t

theorem Returns.returnTable (m : Mod) (t : Nat) : Returns m (returnTable m t) := by
  unfold Machine.returnTable
  exact .trans (.trans (.of_eq (n := setCls m (t / 8) _) rfl rfl) (.watchBanks ..)) (.defaultElem ..)

/-- A berth node returned. -/
def returnNode (m : Mod) (j : Nat) : Mod := setNode (defaultElem m 0x6200 [1, 2, 3] j) j {}

theorem Returns.returnNode (m : Mod) (j : Nat) : Returns m (returnNode m j) := (Returns.defaultElem m 0x6200 [1, 2, 3] j).trans (.of_eq rfl rfl)

/-- The queues and associations of a berth returned. -/
def returnFirst (m : Mod) (b : Nat) : Mod := (ownedBy m 0x4000 3 b).foldl returnAssoc ((ownedBy m 0x6000 2 b).foldl returnQueue m)

theorem releaseAll_eq (m : Mod) (b : Nat) : ∃ (sys : Sys) (tables elements nodes : List Nat), releaseAll m b =
    { nodes.foldl returnNode (elements.foldl (fun m e => Machine.defaultElem m 0x5000 (span 1 7) e) (tables.foldl returnTable (returnFirst m b))) with
      sys := sys } := by
  unfold releaseAll
  exact ⟨_, _, _, _, rfl⟩

/-- Queues and associations come first; the tables, elements and nodes returned behind them bring nothing back. -/
theorem releaseAll_returns (m : Mod) (b : Nat) : Returns (returnFirst m b) (releaseAll m b) := by
  obtain ⟨sys, tables, elements, nodes, h⟩ := releaseAll_eq m b
  rw [h]
  have tablesBack := Returns.foldl _ Returns.returnTable tables (returnFirst m b)
  have elementsBack := tablesBack.trans (Returns.foldl _ (fun n e => Returns.defaultElem n 0x5000 (span 1 7) e) elements _)
  have nodesBack := elementsBack.trans (Returns.foldl _ Returns.returnNode nodes _)
  exact nodesBack.trans (.of_eq rfl rfl)

theorem releaseAll_unsaved (m : Mod) (b : Nat) : (releaseAll m b).sys.unsaved = true := rfl

/-- An object held by the module reads its default where it has no value of its own. -/
theorem inf_of_gone {idx c e : Nat} (hs : Settled idx c) (hv : idx ≠ 0x2100) (h : tfind m.obj (okey idx c e) = none) :
    inf m idx c e = (dfltOf idx c e).toNat := by
  unfold inf
  rw [look_settled m e hs, store, if_neg fun x => hv x.1, h, Option.getD_none]

/-- The elements whose owner is not the default are listed. -/
theorem mem_ownedBy {idx c e : Nat} (hs : Settled idx c) (hv : idx ≠ 0x2100) (he : e < 2 ^ 32) (hb : inf m idx c e = b)
    (hd : b ≠ (dfltOf idx c e).toNat) : e ∈ ownedBy m idx c b := by
  have listed : okey idx c e ∈ m.obj.map (·.1) := by
    by_contra hn
    exact hd (hb.symm.trans (inf_of_gone hs hv (tfind_none_of_not_mem hn)))
  obtain ⟨x, hx, hkey⟩ := List.mem_map.mp listed
  have hk : x.1 / 2 ^ 32 = idx * 256 + c ∧ x.1 % 2 ^ 32 = e := by
    rw [hkey]
    unfold okey
    omega
  have mem : e ∈ elems m [] idx c := by
    unfold elems store
    rw [if_neg fun x => hv x.1]
    exact List.mem_append_left _ (List.mem_map.mpr ⟨x, List.mem_filter.mpr ⟨hx, decide_eq_true hk.1⟩, hk.2⟩)
  exact List.mem_filter.mpr ⟨mem, by simpa using hb⟩

theorem settled_queueBerth : Settled 0x6000 2 := ⟨by decide, by decide⟩

theorem returnQueue_returned (m : Mod) (q : Nat) : tfind (returnQueue m q).obj (okey 0x6000 2 q) = none ∧ queue (returnQueue m q) q = {} := by
  have gone := defaultElem_gone m 0x6000 (show 2 ∈ span 1 14 by decide) q
  unfold returnQueue
  generalize defaultElem m 0x6000 (span 1 14) q = n at gone ⊢
  exact ⟨gone, queue_setQueue_same ..⟩

theorem returnAssoc_returned (m : Mod) (a : Nat) : tfind (returnAssoc m a).obj (okey 0x4000 3 a) = none := by
  unfold returnAssoc
  exact (Returns.defaultElem ..).gone _ (defaultElem_gone _ 0x4000 (show 3 ∈ span 1 11 by decide) a)

/-- A queue of the berth is returned to berth 0 and is as after reset (R711). -/
theorem releaseAll_queue {q : Nat} (hb : b ≠ 0) (hq : q < 2 ^ 32) (hown : inf m 0x6000 2 q = b) :
    inf (releaseAll m b) 0x6000 2 q = 0 ∧ queue (releaseAll m b) q = {} := by
  have mem : q ∈ ownedBy m 0x6000 2 b := mem_ownedBy settled_queueBerth (by decide) hq hown hb
  obtain ⟨gone, empty⟩ := foldl_of_mem (P := fun n : Mod => tfind n.obj (okey 0x6000 2 q) = none ∧ queue n q = {}) (returnQueue_returned · q)
    (fun n c hn => ⟨(Returns.returnQueue n c).gone _ hn.1, (Returns.returnQueue n c).empty q hn.2⟩) mem (x := m)
  have rest := (Returns.foldl returnAssoc Returns.returnAssoc (ownedBy m 0x4000 3 b) _).trans (releaseAll_returns m b)
  exact ⟨inf_of_gone settled_queueBerth (by decide) (rest.gone _ gone), rest.empty q empty⟩

/-- An association of the berth is returned to berth 0 (R711). -/
theorem releaseAll_assoc {a : Nat} (hb : b ≠ 0) (ha : a < 2 ^ 32) (hown : inf m 0x4000 3 a = b) : inf (releaseAll m b) 0x4000 3 a = 0 := by
  have mem : a ∈ ownedBy m 0x4000 3 b := mem_ownedBy settled_assocBerth (by decide) ha hown hb
  have gone : tfind (returnFirst m b).obj (okey 0x4000 3 a) = none :=
    foldl_of_mem (P := fun n : Mod => tfind n.obj (okey 0x4000 3 a) = none) (returnAssoc_returned · a)
      (fun n c hn => (Returns.returnAssoc n c).gone _ hn) mem
  exact inf_of_gone settled_assocBerth (by decide) ((releaseAll_returns m b).gone _ gone)

/-! ### The commands -/

theorem exec_berthResetEdge {b : Fin 256} (hr : s.mod.sys.running = true) :
    exec (.berthResetEdge b) s = .next (finish (s.upd (resetEdge s.mod b))) :=
  run_whileOn (c := .berthResetEdge b) "BERTH_RESET_EDGE" (fun m => resetEdge m b) rfl hr
theorem exec_berthResetComplete {b : Fin 256} (hr : s.mod.sys.running = true) :
    exec (.berthResetComplete b) s = .next (finish (s.upd (resetComplete s.mod b))) :=
  run_whileOn (c := .berthResetComplete b) "BERTH_RESET_COMPLETE" (fun m => resetComplete m b) rfl hr
theorem exec_berthReleaseComplete {b : Fin 256} (hr : s.mod.sys.running = true) :
    exec (.berthReleaseComplete b) s = .next (finish (s.upd (releaseComplete s.mod b))) :=
  run_whileOn (c := .berthReleaseComplete b) "BERTH_RELEASE_COMPLETE" (fun m => releaseComplete m b) rfl hr

/-- Settles O52: a request by what the berth's record shows; the edge by what it clears and writes; a completion by what the release returns. -/
theorem berthResetsRunToCompletion : Obligations.BerthResetsRunToCompletion := by
  refine ⟨fun s h i b mode c hcmd hw hc => ?_, fun s b mode e0 cred hr hd => ?_, fun s b hr hres hold => ⟨fun hl => ?_, fun hl => ?_⟩⟩
  · obtain ⟨berths, answered⟩ := berthReset_written (by omega) hc
    refine ⟨_, exec_berthReset hcmd hw, ?_⟩
    rw [show berth (finish (writeRow s h 0xA000 6 (some b) (b1 mode))).mod b =
      berth (requestReset (accept s.mod h i) b mode (sess s.mod i).cred).1 b by unfold berth; rw [berths]]
    refine ⟨fun hb => ?_, fun hb hbusy => ?_, fun hb hfree hdue => ?_⟩
    · subst hb
      rw [requestReset_zero] at answered ⊢
      exact ⟨rfl, answered⟩
    · rw [requestReset_busy (m := accept s.mod h i) mode _ hb hbusy] at answered ⊢
      exact ⟨rfl, answered⟩
    · obtain ⟨d, hle, at_, heq⟩ := requestReset_due (m := accept s.mod h i) mode (sess s.mod i).cred hb hfree hdue
      rw [heq] at answered ⊢
      rw [berth_setBerth_same]
      exact ⟨⟨_, rfl, Nat.le_add_right .., Nat.add_le_add_left hle _⟩, rfl, answered⟩
  · obtain ⟨ev, x, shows, takes⟩ := resetEdge_due hd
    refine ⟨_, exec_berthResetEdge hr, ?_⟩
    rw [finish_mod, State.upd_mod, berth_settleOver, settleOver_sys, sess_settleOver, kek_settleOver, takes.own, takes.sys, takes.kek, clearBerth_sys]
    refine ⟨shows.gen, shows.due, shows.resetting, shows.releasing, le_advanceTo_elapsed .., shows.resets, clearBerth_kek .., fun a ha => ?_,
      fun k hk => ?_, fun j hj hst hrole hbpid => ?_, fun k hk => ?_⟩
    · rw [assoc_settleOver, takes.assoc]
      exact clearBerth_slots _ ((aBerth_advanceTo ..).trans ha)
    · rw [clsOf_settleOver, takes.clsOf]
      exact clearBerth_held _ _ _ hk
    · rw [takes.sess]
      rw [← sess_advanceTo s.mod e0] at hst hrole hbpid
      exact clearBerth_ended _ _ hj hst hrole hbpid
    · rw [berth_settleOver, takes.others k hk, berth_clearBerth]
      exact berth_advanceTo ..
  · refine ⟨_, exec_berthResetComplete hr, ?_⟩
    rw [finish_mod, State.upd_mod, berth_settleOver, resetComplete_done hres hold hl, finishReset_berth]
    exact ⟨rfl, rfl, rfl, (settleOver_obj _).trans (finishReset_obj ..)⟩
  · refine ⟨_, exec_berthReleaseComplete hr, ?_⟩
    rw [finish_mod, State.upd_mod, berth_settleOver, settleOver_sys, releaseComplete_done hres hold hl, finishReset_berth, finishReset_sys]
    refine ⟨rfl, rfl, releaseAll_unsaved .., fun hb => ⟨fun q hq hown => ?_, fun a ha hown => ?_⟩⟩
    · rw [inf_settleOver, inf_finishReset, queue_settleOver, queue_finishReset]
      exact releaseAll_queue hb (by omega) hown
    · rw [inf_settleOver, inf_finishReset]
      exact releaseAll_assoc hb (by omega) hown

end Sys2Proof.Machine
end

