-- ==== Sys2Proof/Proofs/SessionOpening.lean ====
section
/-! PROOFS. OPEN (R747 to R751, R757): the session put into the lowest free slot, and the berth that a Tenant's credential names (R683, R685). -/

namespace Sys2Proof.Machine

variable {s : State} {h : Hdr} {role method cred sid i : Nat} {nonce mn : Octets}

/-! ### What an OPEN puts in its slot -/

/-- The salt that an OPEN is answered with: the secret's, or a decoy where there is none (R750, R751). -/
def openSalt (m : Mod) (method cred : Nat) : Option Secret → Octets
  | some x => secretSalt x
  | none => if method = 0 then fit 16 (Config.decoySalt m.tether.vault.bootEpoch cred) else zeros 16

/-- The BPID that an OPEN's session carries: a Tenant credential's (R757). -/
def openBpid (s : State) (h : Hdr) (role method cred : Nat) : Nat :=
  if (openSecret s h.path role method cred).isSome ∧ role = 3 then inf s.mod 0x2100 3 cred else 0

/-- The reply body of an OPEN that is not refused. -/
def openBody (s : State) (h : Hdr) (role method cred : Nat) (mn : Octets) : Octets :=
  openReply mn (openSalt s.mod method cred (openSecret s h.path role method cred)) (if method = 0 then 100000 else 0)

/-- The session that an OPEN puts into a free slot (R749). -/
def openedSess (s : State) (h : Hdr) (role method cred : Nat) (nonce : Octets) (sid : Nat) (mn : Octets) : Sess :=
  { state := 1, id := sid, role, method, cred, bpid := openBpid s h role method cred
    berth := if role = 3 then (berthOfBpid s.mod (openBpid s h role method cred)).getD 256 else 256
    path := h.path, src := h.src, openedTime := now s.mod, openedAt := s.mod.sys.elapsed, requestTime := now s.mod, requestAt := s.mod.sys.elapsed
    secret := openSecret s h.path role method cred
    transcript := sha256 (b1 role ++ b1 method ++ b2 cred ++ nonce ++ zeros 4 ++ openBody s h role method cred mn), hostNonce := nonce, moduleNonce := mn }

theorem length_secretSalt (x : Secret) : (secretSalt x).length = 16 := by
  cases x with
  | password text salt => exact length_fit ..
  | key k => exact List.length_replicate ..

/-- The salt of an OPEN's answer is as long for every credential (R751). -/
theorem length_openSalt (m : Mod) (method cred : Nat) (secret : Option Secret) : (openSalt m method cred secret).length = 16 := by
  cases secret with
  | some x => exact length_secretSalt x
  | none =>
    rw [openSalt]
    split
    · exact length_fit ..
    · exact List.length_replicate ..

/-! ### An OPEN that finds a free slot -/

/-- A slot that holds a session not yet proved is in use, so the limit on those counts them among all slots (R748). -/
theorem slotsUnproved_eq (m : Mod) :
    (((List.range 32).filter fun i => (sess m i).state != 0).filter fun i => (sess m i).state == 1).length = slotsUnproved m := by
  rw [List.filter_filter]
  refine congrArg List.length (List.filter_congr fun i _ => ?_)
  cases hst : (sess m i).state == 1 with
  | false => rfl
  | true => simp [beq_iff_eq.mp hst]

/-- An OPEN that reaches the session pilot within the limits is refused for want of a berth, or takes the lowest free slot (R747, R748, R757). -/
theorem openSession_withinLimits (hr : Reaches s.mod h) (hu : slotsUsed s.mod < 32) (hp : slotsUnproved s.mod < 8)
    (hi : firstBelow 32 (fun i => (sess s.mod i).state == 0) = some i) :
    openSession s h role method cred nonce sid mn =
      if (openSecret s h.path role method cred).isSome ∧ role = 3 ∧ (berthOfBpid s.mod (openBpid s h role method cred)).isNone then
        s.upd (replyPlain s.mod h 1 0 0x1006 [])
      else s.upd (replyPlain (setSess s.mod i (openedSess s h role method cred nonce sid mn)) h 1 sid 0 (openBody s h role method cred mn)) := by
  obtain ⟨harr, hrun, hst, hpilot, hv, hres, hl⟩ := hr
  have hfree : ¬32 ≤ ((List.range 32).filter fun i => (sess s.mod i).state != 0).length := Nat.not_le.mpr hu
  have hopen : ¬8 ≤ (((List.range 32).filter fun i => (sess s.mod i).state != 0).filter fun i => (sess s.mod i).state == 1).length := by
    rw [slotsUnproved_eq]; exact Nat.not_le.mpr hp
  unfold openSession
  simp only [harr, hst, hrun, hv, hres, hl, serving, hpilot, hfree, hopen, hi, Bool.not_true, Bool.false_eq_true, if_false, Bool.and_true,
    beq_self_eq_true, bne_self_eq_false, Bool.or_false]
  rfl

/-- An OPEN whose credential is no Tenant's, or whose berth is there, is answered under its session ID (R749, R750). -/
theorem openSession_taken (hr : Reaches s.mod h) (hu : slotsUsed s.mod < 32) (hp : slotsUnproved s.mod < 8)
    (hi : firstBelow 32 (fun i => (sess s.mod i).state == 0) = some i)
    (hberth : role = 3 → (openSecret s h.path role method cred).isSome = true → (berthOfBpid s.mod (openBpid s h role method cred)).isSome = true) :
    openSession s h role method cred nonce sid mn =
      s.upd (replyPlain (setSess s.mod i (openedSess s h role method cred nonce sid mn)) h 1 sid 0 (openBody s h role method cred mn)) := by
  rw [openSession_withinLimits hr hu hp hi, if_neg]
  rintro ⟨hsecret, hrole, hnone⟩
  rw [Option.isNone_iff_eq_none.mp hnone] at hberth
  cases hberth hrole hsecret

theorem openBpid_tenant (h3 : (openSecret s h.path 3 method cred).isSome = true) :
    openBpid s h 3 method cred = inf s.mod 0x2100 3 cred := if_pos ⟨h3, rfl⟩

/-- An OPEN for a Tenant whose BPID names no berth is refused (R685, R757). -/
theorem openSession_noBerth (hr : Reaches s.mod h) (hu : slotsUsed s.mod < 32) (hp : slotsUnproved s.mod < 8)
    (hi : firstBelow 32 (fun i => (sess s.mod i).state == 0) = some i) (h3 : (openSecret s h.path 3 method cred).isSome = true)
    (hnone : berthOfBpid s.mod (inf s.mod 0x2100 3 cred) = none) :
    openSession s h 3 method cred nonce sid mn = s.upd (replyPlain s.mod h 1 0 0x1006 []) := by
  rw [openSession_withinLimits hr hu hp hi, if_pos]
  rw [openBpid_tenant h3, hnone]
  exact ⟨h3, rfl, rfl⟩

/-! ### The command -/

theorem exec_open (hw : (Instr.open_ h role method cred nonce sid mn).wf = true) :
    exec (.open_ h role method cred nonce sid mn) s = .next (finish (openSession s h role method cred nonce sid mn)) :=
  run_wf "OPEN" _ s (fun s => openSession s h role method cred nonce sid mn) hw

/-- What follows a command hands no message to a path. -/
theorem sent_settleOver {m n : Mod} {x : Msg} (hx : Sent m n x) : Sent m (settleOver n) x := by
  unfold Sent at hx ⊢
  rw [settleOver_mgmt, settleOver_out]
  exact hx

/-- An unprotected reply, sent from a state that differs in a session. -/
theorem sent_replyPlain (m : Mod) (i : Nat) (x : Sess) (h : Hdr) (op session status : Nat) (body : Octets) :
    Sent m (replyPlain (setSess m i x) h op session status body) (plain h op session status body) :=
  sent_send (setSess m i x) (plain h op session status body)

theorem sess_replyPlain (m : Mod) (h : Hdr) (op session status : Nat) (body : Octets) : sess (replyPlain m h op session status body) = sess m :=
  sess_send ..

/-- Once the reply is sent, the slot of an OPEN holds its session. -/
theorem sess_opened (s : State) (m : Mod) (h : Hdr) (i : Nat) (x : Sess) (op session status : Nat) (body : Octets) :
    sess (finish (s.upd (replyPlain (setSess m i x) h op session status body))).mod i = x := by
  rw [finish_mod, State.upd_mod, sess_settleOver, sess_replyPlain, sess_setSess_same]

/-- Settles O8: within the limits an OPEN takes the lowest free slot, but for a Tenant's without a berth, which is refused. -/
theorem openTakesTheLowestFreeSlot : Obligations.OpenTakesTheLowestFreeSlot := by
  refine ⟨fun s h role method cred nonce sid mn i hw hr hu hp hi hrole => ?_, fun s h method cred nonce sid mn i hw hr hu hp hi h3 =>
    ⟨fun hnone => ?_, fun hsome => ?_⟩⟩
  · refine ⟨_, openSalt s.mod method cred (openSecret s h.path role method cred), length_openSalt .., exec_open hw, ?_⟩
    rw [openSession_taken hr hu hp hi fun h3 => absurd h3 hrole, sess_opened]
    exact ⟨rfl, rfl, rfl, rfl, rfl, rfl, rfl, rfl, rfl, rfl, rfl, rfl, sent_settleOver (sent_replyPlain ..)⟩
  · refine ⟨_, exec_open hw, ?_⟩
    rw [openSession_noBerth hr hu hp hi h3 hnone]
    refine ⟨sent_settleOver (sent_send s.mod (plain h 1 0 0x1006 [])), fun j => ?_⟩
    rw [finish_mod, State.upd_mod, sess_settleOver, sess_replyPlain]
  · refine ⟨_, exec_open hw, ?_⟩
    rw [openSession_taken hr hu hp hi fun _ _ => by rwa [openBpid_tenant h3], sess_opened]
    exact ⟨rfl, rfl, openBpid_tenant h3⟩

end Sys2Proof.Machine
end

