-- ==== Sys2Proof/Proofs/StartUp.lean ====
section
/-! PROOFS. The steps of a start-up (R968 to R978), each under a name, and the attempt they make up. -/

namespace Sys2Proof.Machine

/-- A start-up's step 1: everything but what survives a reset is as at power on, and event 0x1003 tells of the reset (R974, R975). -/
def startOne (s : State) : State :=
  let m := keepAlarms { bare s.mod with sys := { (bare s.mod).sys with state := 0, step := 2, keel := true } }
  s.upd (raise m 0x1003 srcModule 0 (b4 (resetRecord m.sys)))

/-- Whether a step of this attempt fails. -/
def startFails (t : StartTrial) (s : State) (step : Nat) : Bool := t.failStep == step && decide ((startOne s).mod.sys.attempt < t.fails)

/-- After a failed step the start-up begins again, or fails for good at the last attempt (R976). -/
def startAgain (n : Nat) (t : StartTrial) (s : State) (step unit : Nat) : State :=
  if n = 0 then failStart s step unit 3
  else startFrom n t (s.upd { s.mod with sys := { s.mod.sys with cause := 6, stopStep := step, attempt := s.mod.sys.attempt + 1 } })

/-- Steps 2 and 3: the tests of source B and the keel (R555, R977, R1008). -/
def startThree (t : StartTrial) (s : State) : State :=
  let u := stepTwo (testSourceB s t.units) (stepTwoSource t.units) (t.units.contains 316)
  u.upd { u.mod with sys := { u.mod.sys with cxlClock := true } }

/-- A slot left installing is invalid (R941). -/
def settledSlot (x : FwSlot) : FwSlot := if x.state = 1 then { x with state := 3 } else x

/-- Step 4 before the boot ROM's choice: slots left installing are invalid (R941). -/
def startFour (s : State) : State :=
  { s with flash := { s.flash with slotA := settledSlot s.flash.slotA, slotB := settledSlot s.flash.slotB } }

/-- Step 5 and the later ones, from the slot that boots (R978). -/
def startLater (n : Nat) (t : StartTrial) (fails5 : Bool) (s : State) (i : Nat) : State :=
  if fails5 then startAgain n t (laterSteps s i true t.units) 5 2 else laterSteps s i false t.units

/-- Step 4 and what follows it. -/
def startBoot (n : Nat) (t : StartTrial) (fails4 fails5 : Bool) (s : State) : State :=
  match if fails4 then none else bootSlot s with
  | none => failStart s 4 1 (s.mod.sys.attempt + 1)
  | some i => startLater n t fails5 s i

theorem startFrom_succ (n : Nat) (t : StartTrial) (s : State) :
    startFrom (n + 1) t s =
      if startFails t s 2 then startAgain n t (startOne s) 2 2
      else if startFails t s 3 then startAgain n t (startThree t (startOne s)) 3 0
      else startBoot n t (startFails t s 4) (startFails t s 5) (startFour (startThree t (startOne s))) := by
  have three (v : State) : startThree t v = (stepTwo (testSourceB v t.units) (stepTwoSource t.units) (t.units.contains 316)).upd
      { (stepTwo (testSourceB v t.units) (stepTwoSource t.units) (t.units.contains 316)).mod with
        sys := { (stepTwo (testSourceB v t.units) (stepTwoSource t.units) (t.units.contains 316)).mod.sys with cxlClock := true } } := rfl
  conv_lhs => whnf
  refine if_congr Iff.rfl rfl (if_congr Iff.rfl ?_ ?_)
  all_goals
    rw [three]
    generalize hu : testSourceB _ t.units = u
    rw [show testSourceB (startOne s) t.units = u from hu]
    generalize stepTwo u _ _ = w
    rfl

end Sys2Proof.Machine
end

