-- ==== Sys2Proof/Proofs/Fuses.lean ====
section
/-! PROOFS. What every step keeps of the fuses (R878 to R890, R949) and of the queue of waiting commands (log 1): each operation on the whole
state is a `Fused` move, a step is one command's move, so the fuses only burn, stay within their number, and the queue stays. -/

namespace Sys2Proof.Machine

/-! ### Setting bits -/

theorem setBit_true (v k : Nat) : setBit v k true = if v.testBit k then v else v + 2 ^ k := by
  unfold setBit bitAt
  split
  · have : 2 ^ k ≤ v := Nat.ge_two_pow_of_testBit ‹_›
    simp only [if_true]
    omega
  · simp

theorem testBit_add_two_pow {v k : Nat} (hk : v.testBit k = false) (i : Nat) (hi : v.testBit i = true) : (v + 2 ^ k).testBit i = true := by
  have hlt : v % 2 ^ k < 2 ^ k := Nat.mod_lt _ (Nat.two_pow_pos k)
  have hv : v = 2 ^ k * (v / 2 ^ k) + v % 2 ^ k := (Nat.div_add_mod ..).symm
  have hs : v + 2 ^ k = 2 ^ k * (v / 2 ^ k + 1) + v % 2 ^ k := by rw [Nat.mul_add_one]; omega
  rw [hv, Nat.testBit_two_pow_mul_add _ hlt] at hi
  rw [hs, Nat.testBit_two_pow_mul_add _ hlt]
  rw [Nat.testBit_eq_decide_div_mod_eq, decide_eq_false_iff_not] at hk
  split at hi
  · rwa [if_pos ‹_›]
  · rw [if_neg ‹_›]
    cases hj : i - k with
    | zero => rw [hj, Nat.testBit_zero, decide_eq_true_eq] at hi; omega
    | succ j =>
      rw [hj, Nat.testBit_succ] at hi
      rw [Nat.testBit_succ, show (v / 2 ^ k + 1) / 2 = v / 2 ^ k / 2 by omega, hi]

/-- Setting a bit of a number keeps those it has. -/
theorem and_setBit (v k : Nat) : v &&& setBit v k true = v := by
  refine Nat.eq_of_testBit_eq fun i => ?_
  rw [Nat.testBit_and, setBit_true]
  split
  · exact Bool.and_self _
  · cases hi : v.testBit i with
    | false => rfl
    | true => rw [testBit_add_two_pow (Bool.eq_false_iff.mpr ‹_›) i hi]; rfl
/-! ### Moves that only burn fuses -/

theorem FusesBurn.refl (o : Otp) : FusesBurn o o := ⟨le_rfl, le_rfl, le_rfl, Nat.and_self _, id, rfl⟩

theorem FusesBurn.trans {a b c : Otp} (h : FusesBurn a b) (k : FusesBurn b c) : FusesBurn a c := by
  obtain ⟨h0, h1, hr, hv, ht, he⟩ := h
  obtain ⟨k0, k1, kr, kv, kt, ke⟩ := k
  exact ⟨h0.trans k0, h1.trans k1, hr.trans kr, by rw [← hv, Nat.and_assoc, kv], kt ∘ ht, ke.trans he⟩

/-- Between two states fuses have only burned and stayed within their number, and the queue of commands is the same. -/
structure Fused (s t : State) : Prop where
  burn : FusesBurn s.otp t.otp
  fit : FusesFit s.otp → FusesFit t.otp
  pending : t.pending = s.pending

namespace Fused

/-- Where fuses and queue are the same, whatever else changed. -/
theorem of_eq {s t : State} (ho : t.otp = s.otp) (hp : t.pending = s.pending) : Fused s t :=
  ⟨ho ▸ .refl _, fun h => ho ▸ h, hp⟩

@[simp] theorem refl (s : State) : Fused s s := of_eq rfl rfl

/-- The state of an answer. -/
theorem pair {α : Type} {s t : State} {x : α} (h : Fused s t) : Fused s (t, x).1 := h

theorem trans {s t u : State} (h : Fused s t) (k : Fused t u) : Fused s u :=
  ⟨h.burn.trans k.burn, k.fit ∘ h.fit, k.pending.trans h.pending⟩

@[simp] theorem upd (s : State) (m : Mod) : Fused s (s.upd m) := of_eq rfl rfl

/-- Another module on either side does not matter. -/
@[simp] theorem upd_left {s t : State} {m : Mod} : Fused (s.upd m) t ↔ Fused s t := ⟨fun h => ⟨h.burn, h.fit, h.pending⟩, fun h => ⟨h.burn, h.fit, h.pending⟩⟩

@[simp] theorem upd_right {s t : State} {m : Mod} : Fused s (t.upd m) ↔ Fused s t := ⟨fun h => ⟨h.burn, h.fit, h.pending⟩, fun h => ⟨h.burn, h.fit, h.pending⟩⟩

/-- What moves by `Fused` at every element of a list does so over the list. -/
theorem foldl {α : Type} {g : State → α → State} (h : ∀ s x, Fused s (g s x)) (l : List α) (s : State) : Fused s (l.foldl g s) := by
  induction l generalizing s with
  | nil => exact refl s
  | cons x r ih => exact (h s x).trans (ih (g s x))

@[simp] theorem onMod (f : Mod → Mod) (s : State) : Fused s (onMod f s) := upd ..

@[simp] theorem finish_right {s t : State} : Fused s (finish t) ↔ Fused s t := upd_right

theorem whileOn {f : State → State} {s : State} (h : Fused s (f s)) : Fused s (whileOn f s) := by
  unfold Machine.whileOn
  split
  · exact h
  · exact refl s

/-- A choice between two moves is a move. -/
@[simp] theorem ite {c : Prop} [Decidable c] {s t u : State} (ht : Fused s t) (hu : Fused s u) : Fused s (if c then t else u) := by
  split
  · exact ht
  · exact hu

/-! ### The tether -/

/-- A Retire burns the retire fuse (R889). -/
@[simp] theorem retire (s : State) (cause : Nat) : Fused s (retire s cause) :=
  ⟨⟨le_rfl, le_rfl, le_rfl, Nat.and_self _, fun _ => rfl, rfl⟩, id, rfl⟩

@[simp] theorem respond (s : State) (i unit rank : Nat) : Fused s (respond s i unit rank) := by
  unfold Machine.respond
  dsimp only
  split
  case h_6 => exact upd_left.mp (retire ..)
  all_goals simp

@[simp] theorem sourceEvent (s : State) (i unit code src bpid rank : Nat) (params : Nat → Octets) :
    Fused s (sourceEvent s i unit code src bpid rank params) :=
  .ite (upd ..) (upd_left.mp (respond ..))

@[simp] theorem quantityAlarm (s : State) (q : Nat) (det : Detector) : Fused s (quantityAlarm s q det) :=
  .ite (refl s) (.ite (upd ..) (upd_left.mp (sourceEvent ..)))

@[simp] theorem monitorAlarm (s : State) (q det : Nat) : Fused s (monitorAlarm s q det) := .ite (refl s) (upd_left.mp (sourceEvent ..))

@[simp] theorem zeroizePins (s : State) : Fused s (zeroizePins s) := by
  unfold Machine.zeroizePins
  exact sourceEvent ..

@[simp] theorem quiesceAssert (s : State) : Fused s (quiesceAssert s) := .ite (refl s) (.ite (upd ..) (upd_left.mp (sourceEvent ..)))

@[simp] theorem loopPulse (s : State) (returned : Bool) : Fused s (loopPulse s returned) :=
  .ite (refl s) (.ite (upd ..) (.ite (upd_left.mp (sourceEvent ..)) (upd ..)))

@[simp] theorem cellRecord (s : State) : Fused s (cellRecord s) := sourceEvent ..

@[simp] theorem removeCell (s : State) : Fused s (removeCell s) :=
  .ite (refl s) (.ite (upd ..) (.ite (upd_left.mp (cellRecord _)) (upd_left.mp (quantityAlarm ..))))

@[simp] theorem insertCell (s : State) : Fused s (insertCell s) := .ite (refl s) (.ite (upd_left.mp (cellRecord _)) (upd ..))

@[simp] theorem expireWindow (s : State) : Fused s (expireWindow s) := by
  unfold Machine.expireWindow
  split
  · exact refl s
  · exact .ite (upd ..) (upd_left.mp (quantityAlarm ..))

/-- One bit more in both mirrors, within their 4,096 (R878, R883). -/
theorem burnBit (s : State) (m : Mod) : Fused s { s with otp := burnBit s.otp, mod := m } :=
  ⟨⟨le_max_left .., le_max_left .., le_rfl, Nat.and_self _, id, rfl⟩,
    fun ⟨h0, h1, hr⟩ => ⟨max_le h0 (min_le_left ..), max_le h1 (min_le_left ..), hr⟩, rfl⟩

@[simp] theorem burn_entry (s : State) : Fused s (Machine.burn s) := .ite (upd ..) (.ite (burnBit s _) (burnBit s s.mod))

@[simp] theorem burnEntry (s : State) : Fused s (burnEntry s) := .ite (upd_right.mpr (burn_entry s)) (refl s)

@[simp] theorem confirmRetire (s : State) (cred : Nat) (serial : Octets) : Fused s (confirmRetire s cred serial).1 := by
  unfold Machine.confirmRetire
  dsimp only
  split
  · exact refl s
  · split
    · exact upd ..
    · split
      · exact refl s
      · split
        · exact upd ..
        · exact upd_left.mp (retire ..)

/-! ### Firmware and identity -/

@[simp] theorem generateService (s : State) (b : Bool) : Fused s (generateService s b).1 := by
  unfold Machine.generateService
  dsimp only
  split
  · exact refl s
  · split
    · exact refl s
    · exact upd ..

@[simp] theorem installCert (s : State) : Fused s (installCert s).1 := by
  unfold Machine.installCert
  dsimp only
  split
  · exact refl s
  · split
    · exact refl s
    · split
      · exact refl s
      · split
        · exact refl s
        · exact of_eq rfl rfl

@[simp] theorem eraseService (s : State) : Fused s (eraseService s) := of_eq rfl rfl

@[simp] theorem writeAnchor (s : State) (anchor : Octets) : Fused s (writeAnchor s anchor).1 := by
  unfold Machine.writeAnchor
  split
  · exact refl s
  · exact of_eq rfl rfl

@[simp] theorem writeCoRequired (s : State) (v : Bool) : Fused s (writeCoRequired s v).1 := by
  unfold Machine.writeCoRequired
  split
  · exact refl s
  · exact of_eq rfl rfl

@[simp] theorem verifyImage (s : State) : Fused s (verifyImage s).1 := upd ..

@[simp] theorem beginInstall (s : State) : Fused s (beginInstall s).1 := by
  unfold Machine.beginInstall
  dsimp only
  split
  · exact refl s
  · exact of_eq rfl rfl

@[simp] theorem endInstall (s : State) : Fused s (endInstall s) := by
  unfold Machine.endInstall
  dsimp only
  split
  · exact refl s
  · exact of_eq rfl rfl

@[simp] theorem beginActivation (s : State) (i : Nat) : Fused s (beginActivation s i).1 := by
  unfold Machine.beginActivation
  dsimp only
  split
  · exact refl s
  · split
    · exact refl s
    · exact of_eq rfl rfl

theorem pilotsRun (s : State) (i : Nat) (fell : Option (Nat × Nat)) : Fused s (pilotsRun s i fell) := upd ..

@[simp] theorem firmwareRuns (s : State) : Fused s (firmwareRuns s) := by
  unfold Machine.firmwareRuns
  split
  · split
    · split
      · exact pilotsRun ..
      · exact of_eq rfl rfl
    · exact refl s
  · exact refl s

@[simp] theorem firmwareTimeout (s : State) : Fused s (firmwareTimeout s) := by
  unfold Machine.firmwareTimeout
  split
  · exact of_eq rfl rfl
  · exact refl s

/-- Bits of a number set one after another, where a test picks them, keep those it has. -/
theorem and_foldl_setBit (p : Nat → Bool) (l : List Nat) (v : Nat) :
    v &&& l.foldl (fun a k => if p k then setBit a k true else a) v = v := by
  induction l generalizing v with
  | nil => exact Nat.and_self v
  | cons k r ih =>
    rw [List.foldl_cons]
    split
    · calc v &&& r.foldl _ (setBit v k true)
          _ = v &&& setBit v k true &&& r.foldl _ (setBit v k true) := by rw [and_setBit]
          _ = v &&& setBit v k true := by rw [Nat.and_assoc, ih]
          _ = v := and_setBit ..
    · exact ih v

/-- The confirmation of an image raises the rollback counter and adds revocations (R949). -/
@[simp] theorem confirmImage (s : State) : Fused s (confirmImage s) :=
  .ite (refl s) ⟨⟨le_rfl, le_rfl, le_max_left .., and_foldl_setBit .., id, rfl⟩,
    fun ⟨h0, h1, hr⟩ => ⟨h0, h1, max_le hr (min_le_left ..)⟩, rfl⟩

@[simp] theorem newReport (s : State) (slot : Nat) (digest : Octets) : Fused s (newReport s slot digest).1 := by
  unfold Machine.newReport
  dsimp only
  split
  · exact refl s
  · split
    · exact refl s
    · exact upd ..

@[simp] theorem saveConfig (s : State) : Fused s (saveConfig s) := of_eq rfl rfl

@[simp] theorem writeConfig (s : State) : Fused s (writeConfig s) := .ite (saveConfig s) (refl s)

@[simp] theorem saveRuntime (s : State) : Fused s (saveRuntime s) := .ite (refl s) (of_eq rfl rfl)

@[simp] theorem earlyWarning (s : State) : Fused s (earlyWarning s) := by
  unfold Machine.earlyWarning
  split
  · exact refl s
  · exact .ite (refl s) (of_eq rfl rfl)

/-! ### Crypto banks and entropy sources -/

@[simp] theorem beyondRepair (s : State) (k cause : Nat) : Fused s (beyondRepair s k cause) := sourceEvent ..

@[simp] theorem retireUnit (s : State) (k : Nat) (u : CipherUnit) (cause : Nat) : Fused s (retireUnit s k u cause) := by
  unfold Machine.retireUnit
  dsimp only
  split
  · exact .ite (upd_left.mp (beyondRepair ..)) (.ite (upd ..) (upd ..))
  · exact upd ..

@[simp] theorem flagged (s : State) (k : Nat) (u : CipherUnit) (e : Exit) (stage : Nat) (inKey : Bool) :
    Fused s (flagged s k u e stage inKey) := by
  unfold Machine.flagged
  refine .ite (upd_left.mp (beyondRepair ..)) (.ite (upd ..) ?_)
  split
  · exact upd_left.mp (beyondRepair ..)
  · exact .ite (upd_left.mp (beyondRepair ..)) (upd ..)

@[simp] theorem judged (s : State) (k : Nat) (u : CipherUnit) (e : Exit) (out : Nat) (flag : Option (Nat × Bool)) :
    Fused s (judged s k u e out flag) := by
  unfold Machine.judged
  dsimp only
  split
  · exact upd_left.mp (flagged ..)
  · exact .ite (upd ..) (upd ..)

@[simp] theorem pipelineFault (s : State) (k : Nat) (u : CipherUnit) (x : Upset) : Fused s (pipelineFault s k u x) := by
  unfold Machine.pipelineFault
  refine .ite (refl s) ?_
  split
  · exact refl s
  · exact judged ..

@[simp] theorem unitDrained (s : State) (k : Nat) (u : CipherUnit) : Fused s (unitDrained s k u) :=
  .ite (refl s) (.ite (upd_left.mp (retireUnit ..)) (upd ..))

@[simp] theorem quarantineEnd (s : State) (k : Nat) (u : CipherUnit) (passed : Bool) : Fused s (quarantineEnd s k u passed) :=
  .ite (refl s) (.ite (retireUnit ..) (upd ..))

@[simp] theorem knownAnswer (s : State) (k : Nat) (u : CipherUnit) (x : Upset) : Fused s (knownAnswer s k u x) := by
  unfold Machine.knownAnswer
  refine .ite (refl s) ?_
  dsimp only
  split
  · exact upd_left.mp (flagged ..)
  · exact .ite (upd ..) (upd_left.mp (retireUnit ..))

@[simp] theorem ghashMismatch (s : State) (k : Nat) (n : Fin 18) (flips repeatFlips : Nat) : Fused s (ghashMismatch s k n flips repeatFlips) := by
  unfold Machine.ghashMismatch
  refine .ite (refl s) ?_
  dsimp only
  split
  · exact upd ..
  · split
    · exact upd_left.mp (beyondRepair ..)
    · exact .ite (upd ..) (upd_left.mp (beyondRepair ..))

@[simp] theorem keyStoreError (s : State) (k : Nat) (double : Bool) : Fused s (keyStoreError s k double) :=
  .ite (refl s) (.ite (beyondRepair ..) (upd ..))

@[simp] theorem declareFailed (s : State) (h : Nat) (isB : Bool) : Fused s (declareFailed s h isB) := by
  unfold Machine.declareFailed
  have alarm (m : Mod) (i unit code src bpid rank : Nat) (ps : Nat → Octets) : Fused s (Machine.sourceEvent (s.upd m) i unit code src bpid rank ps) :=
    upd_left.mp (sourceEvent ..)
  refine .ite (refl s) (.ite (.trans ?_ (foldl (fun s i => beyondRepair ..) _ _)) ?_)
  · exact .ite (alarm ..) (upd_right.mpr (alarm ..))
  · exact .ite (alarm ..) (upd_right.mpr (alarm ..))

@[simp] theorem entropyTestFailure (s : State) (h : Nat) (isB proportion : Bool) (samples : List Bool) :
    Fused s (entropyTestFailure s h isB proportion samples) :=
  .ite (refl s) (.ite (upd_left.mp (declareFailed ..)) (upd ..))

/-! ### Stowage -/

theorem afterLoss (s : State) (h : Nat) (x : LossPart) (cause : Nat) : Fused s (afterLoss s h x cause) := by
  unfold Machine.afterLoss
  dsimp only
  split
  · exact .ite (sourceEvent ..) (refl s)
  · exact upd ..
  · exact upd ..
  · exact refl s

theorem losePart (h cause : Nat) (evented : Bool) (s : State) (x : LossPart) : Fused s (losePart h cause evented s x) := upd_left.mp (afterLoss ..)

theorem loseLines (s : State) (h : Nat) (parts : List LossPart) (cause : Nat) (evented : Bool) : Fused s (loseLines s h parts cause evented) :=
  upd_right.mpr (foldl (losePart h cause evented) ..)

theorem violation (s : State) (h r line kind : Nat) : Fused s (violation s h r line kind) := by
  unfold Machine.violation
  exact upd_left.mp (sourceEvent ..)

theorem loseOne (s : State) (h r line : Nat) : Fused s (loseOne s h r line) := upd_left.mp (loseLines ..)

theorem mergeFails (s : State) (h r line : Nat) : Fused s (mergeFails s h r line) := .trans (upd_left.mp (loseLines ..)) (violation ..)

theorem counterLoss {s t : State} {h line : Nat} {dev : DeviceResult} (ht : counterLoss s h line dev = some t) : Fused s t := by
  unfold Machine.counterLoss at ht
  dsimp only at ht
  split at ht
  · split at ht
    · cases ht; exact upd_left.mp (loseLines ..)
    · cases ht
  · split at ht
    · cases ht; exact .trans (loseLines ..) (foldl (fun s x => violation ..) ..)
    · cases ht
  · cases ht

theorem readLine (s : State) (h r line : Nat) (dev : DeviceResult) : Fused s (readLine s h r line dev).1 := by
  unfold Machine.readLine
  dsimp only
  split
  · exact refl s
  · split
    · exact refl s
    · split
      · split
        · exact upd ..
        · exact refl s
        · exact pair (loseOne ..)
        · exact pair (.trans (loseLines ..) (violation ..))
      · exact pair (loseOne ..)
      · exact refl s

theorem carriedOut (s : State) (h line : Nat) (corrected : Bool) (data : Octets) : Fused s (carriedOut s h line corrected data).1 := upd ..

theorem mergeLine (s : State) (h r line at_ : Nat) (data : Octets) (dev : DeviceResult) : Fused s (mergeLine s h r line at_ data dev).1 := by
  unfold Machine.mergeLine
  dsimp only
  split
  · split
    · exact refl s
    · exact carriedOut ..
  · split
    · split
      · split
        · exact refl s
        · exact carriedOut ..
      · exact pair (loseOne ..)
      · exact pair (mergeFails ..)
    · exact pair (loseLines ..)
    · split
      · exact refl s
      · exact carriedOut ..

theorem serveAccess (s : State) (h r line : Nat) (kind : AccessKind) (dev : DeviceResult) : Fused s (serveAccess s h r line kind dev).1 := by
  unfold Machine.serveAccess
  split
  · exact counterLoss ‹_›
  · split
    · exact readLine ..
    · exact mergeLine ..
    · split
      · exact upd_left.mp (carriedOut ..)
      · exact refl s

@[simp] theorem stowageAccess (s : State) (h master line : Nat) (kind : AccessKind) (dev : DeviceResult) :
    Fused s (stowageAccess s h master line kind dev) := by
  have access : Fused s (accessed s h master line kind dev).1 := by
    unfold accessed
    dsimp only
    split
    · exact serveAccess ..
    · exact upd ..
  unfold Machine.stowageAccess
  dsimp only
  split
  · exact refl s
  · refine upd_right.mpr ?_
    split
    · exact access
    · split
      · exact upd ..
      · exact refl s

@[simp] theorem linkDown (s : State) (h : Nat) : Fused s (linkDown s h) := .ite (refl s) (upd_left.mp (loseLines ..))

/-! ### Start-up -/

theorem testSourceB (s : State) (units : List Nat) : Fused s (testSourceB s units) := foldl (fun s _ => .ite (declareFailed ..) (refl s)) ..

/-- The mirrors equalised at step 2 (R879). -/
theorem equalise (s : State) (m : Mod) :
    Fused s { s with otp := { s.otp with mirror0 := max s.otp.mirror0 s.otp.mirror1, mirror1 := max s.otp.mirror0 s.otp.mirror1 }, mod := m } :=
  ⟨⟨le_max_left .., le_max_right .., le_rfl, Nat.and_self _, id, rfl⟩, fun ⟨h0, h1, hr⟩ => ⟨max_le h0 h1, max_le h0 h1, hr⟩, rfl⟩

/-- A retire fuse burned at step 2 (R877). -/
theorem retireFuse (s : State) (m : Mod) : Fused s { s with otp := { s.otp with retired := true }, mod := m } :=
  ⟨⟨le_rfl, le_rfl, le_rfl, Nat.and_self _, fun _ => rfl, rfl⟩, id, rfl⟩

theorem stepTwo (s : State) (src : Option Nat) (badBit : Bool) : Fused s (stepTwo s src badBit) := by
  have canary (m : Mod) : Fused s (match s.mod.tether.vault.canary with
      | .valid => s
      | .marker => s
      | .lost => Machine.sourceEvent (s.upd m) 14 0 0x900B srcTether 0 1 fun _ => b4 m.tether.runtime) := by
    split
    · exact refl s
    · exact refl s
    · exact upd_left.mp (sourceEvent ..)
  have burned (m n : Mod) (k : Nat) {u : State} (hu : Fused s u) : Fused s (((List.range k).foldl (fun s _ => Machine.burn s)
      { u with otp := { u.otp with mirror0 := max u.otp.mirror0 u.otp.mirror1, mirror1 := max u.otp.mirror0 u.otp.mirror1 }, mod := m }).upd n) :=
    upd_right.mpr (.trans (.trans hu (equalise u m)) (foldl (fun s _ => burn_entry s) ..))
  unfold Machine.stepTwo
  exact upd_right.mpr (.ite (.trans (burned _ _ _ (canary _)) (retireFuse _ _)) (burned _ _ _ (canary _)))

theorem selfTests (s : State) (units : List Nat) : Fused s (selfTests s units) := by
  refine upd_right.mpr (foldl (fun s n => ?_) ..)
  split
  · exact retireUnit ..
  · exact .ite (declareFailed ..) (refl s)

theorem failStart (s : State) (step unit attempt : Nat) : Fused s (failStart s step unit attempt) := upd ..

theorem laterSteps (s : State) (i : Nat) (fails5 : Bool) (units : List Nat) : Fused s (laterSteps s i fails5 units) := by
  have boots (f : Flash) (m : Mod) : Fused s { s with flash := f, mod := m } := of_eq rfl rfl
  exact .ite (boots ..) (upd_right.mpr (.trans (boots ..) (selfTests ..)))

theorem startFrom (n : Nat) (t : StartTrial) (s : State) : Fused s (startFrom n t s) := by
  induction n generalizing s with
  | zero => exact refl s
  | succ n ih =>
    have first : Fused s (startOne s) := upd ..
    have third : Fused s (startThree t (startOne s)) := upd_right.mpr (first.trans (.trans (testSourceB ..) (stepTwo ..)))
    have fourth : Fused s (startFour (startThree t (startOne s))) := third.trans (of_eq rfl rfl)
    have again {u : State} (hu : Fused s u) (step unit : Nat) : Fused s (startAgain n t u step unit) :=
      .ite (hu.trans (failStart ..)) (hu.trans (upd_left.mp (ih _)))
    rw [startFrom_succ]
    refine .ite (again first ..) (.ite (again third ..) ?_)
    unfold startBoot startLater
    split
    · exact fourth.trans (failStart ..)
    · exact .ite (again (fourth.trans (laterSteps ..)) ..) (fourth.trans (laterSteps ..))

theorem restart (s : State) (cause : Nat) (t : StartTrial) : Fused s (restart s cause t) := upd_left.mp (startFrom ..)

@[simp] theorem mainsApplied (s : State) (t : StartTrial) : Fused s (mainsApplied s t) :=
  .ite (refl s) (.ite (refl s) (upd_left.mp (startFrom ..)))

@[simp] theorem makeReady (s : State) : Fused s (makeReady s) := .ite (refl s) (.ite (upd_left.mp (sourceEvent ..)) (upd ..))

@[simp] theorem keelLost (s : State) (t : StartTrial) : Fused s (keelLost s t) := .ite (restart ..) (refl s)

@[simp] theorem zeroRestart (s : State) (t : StartTrial) : Fused s (zeroRestart s t) := by
  unfold Machine.zeroRestart
  dsimp only
  split
  · exact refl s
  · exact .ite (refl s) (upd_left.mp (restart ..))

@[simp] theorem commandedRestart (s : State) (t : StartTrial) : Fused s (commandedRestart s t) := by
  unfold Machine.commandedRestart
  split
  · exact refl s
  · exact upd_left.mp (restart ..)

/-! ### Messages -/

/-- A message served moves as what it asks for does. -/
theorem serve {act : State → Nat → State × Nat × List Octets} (ha : ∀ s i, Fused s (act s i).1) (s : State) (h : Hdr) (op : Nat) :
    Fused s (serve s h op act) := by
  unfold Machine.serve
  split
  · exact upd ..
  · exact upd_right.mpr (upd_left.mp (ha ..))

@[simp] theorem closeSession (s : State) (h : Hdr) : Fused s (closeSession s h) := by
  unfold Machine.closeSession
  split
  · exact upd ..
  · exact upd ..

@[simp] theorem openSession (s : State) (h : Hdr) (role method cred : Nat) (nonce : Octets) (sid : Nat) (mn : Octets) :
    Fused s (openSession s h role method cred nonce sid mn) := by
  unfold Machine.openSession
  refine .ite (refl s) (.ite (upd ..) (.ite (refl s) (.ite (upd ..) (.ite (upd ..) (.ite (upd ..) (.ite (upd ..) ?_))))))
  dsimp only
  split
  · exact refl s
  · exact upd ..

@[simp] theorem proveSession (s : State) (h : Hdr) (proof : Option Secret) : Fused s (proveSession s h proof) := by
  unfold Machine.proveSession
  refine .ite (refl s) (.ite (upd ..) (.ite (refl s) (.ite (upd ..) ?_)))
  split
  · exact upd ..
  · exact .ite (upd ..) (.ite (upd ..) (.ite (upd ..) (upd ..)))

theorem subscribeAct (filters : List (Nat × Nat)) (s : State) (i : Nat) : Fused s (subscribeAct filters s i).1 := by
  unfold Machine.subscribeAct
  split
  · exact refl s
  · exact upd ..

theorem commitAct (dry : Bool) (s : State) (i : Nat) : Fused s (commitAct dry s i).1 := by
  unfold Machine.commitAct
  dsimp only
  split
  · exact .ite (upd ..) (refl s)
  · split
    · exact refl s
    · exact upd ..

theorem readValue (s : State) (slot : Nat) (a : Addr) : Fused s (readValue s slot a).1 := by
  have reach (r : Reach) : Fused s (match r with
      | .ok w m => (s.upd m, (.ok (.nat w) : Except (Nat × List Nat) Val))
      | .fail st vs m => (s.upd m, .error (st, vs))).1 := by cases r <;> exact upd ..
  unfold Machine.readValue
  dsimp only
  split
  · split
    · exact upd ..
    · exact refl s
  · split
    · exact upd ..
    · exact upd ..
  · exact reach _
  · exact reach _
  · exact reach _
  · split
    · exact newReport ..
    · exact newReport ..
  · split
    · exact refl s
    · exact refl s

theorem readEntry (s : State) (slot : Nat) (a : Addr) : Fused s (readEntry s slot a).1 := by
  unfold Machine.readEntry
  have value := readValue s slot a
  split
  · exact .ite (upd ..) (refl s)
  · split
    · simp_all
    · exact .ite (upd_right.mpr (by simp_all)) (by simp_all)

theorem readAll (slot : Nat) (s : State) (l : List Addr) : Fused s (readAll slot s l).1 := by
  induction l generalizing s with
  | nil => exact refl s
  | cons a r ih => exact .trans (readEntry s slot a) (ih _)

theorem readAct (l : List Addr) (s : State) (i : Nat) : Fused s (readAct l s i).1 := by
  unfold Machine.readAct
  split
  · exact refl s
  · exact readAll ..

theorem readElementsAct (first : Addr) (count : Nat) (s : State) (i : Nat) : Fused s (readElementsAct first count s i).1 := by
  unfold Machine.readElementsAct
  split
  · exact refl s
  · exact readAll ..

theorem locatorWrite (s : State) (slot : Nat) (record : Octets) : Fused s (locatorWrite s slot record).1 := by
  unfold Machine.locatorWrite
  split
  · exact refl s
  · split
    · exact refl s
    · exact upd ..

theorem effR (s : State) (r : Reach) : Fused s (effR s r).s := by cases r <;> exact upd ..

theorem effSession (s : State) (slot idx sub e : Nat) (v : Val) : Fused s (effSession s slot idx sub e v).s := by
  unfold Machine.effSession
  split
  case h_8 => exact locatorWrite ..
  case h_9 | h_10 | h_12 => exact effR ..
  case h_1 | h_6 => dsimp only; split; exacts [upd .., refl s]
  case h_13 => exact refl s
  all_goals exact upd ..

theorem effData (s : State) (slot idx sub e : Nat) (v : Val) : Fused s (effData s slot idx sub e v).s := by
  unfold Machine.effData
  split
  case h_3 | h_5 | h_17 => dsimp only; split; exacts [upd .., refl s]
  case h_6 => dsimp only; split; exacts [refl s, upd ..]
  case h_18 => exact refl s
  all_goals exact upd ..

theorem effModule (s : State) (slot idx sub e : Nat) (v : Val) : Fused s (effModule s slot idx sub e v).s := by
  unfold Machine.effModule
  split
  case h_1 | h_4 | h_8 => dsimp only; split; exacts [upd .., refl s]
  case h_3 => exact confirmRetire ..
  case h_11 => dsimp only; split; exacts [verifyImage s, refl s]
  case h_12 => dsimp only; split; exacts [beginInstall s, refl s]
  case h_13 => exact beginActivation ..
  case h_14 => dsimp only; split; exacts [confirmImage s, refl s]
  case h_15 => exact writeCoRequired ..
  case h_17 => dsimp only; split; exacts [generateService .., refl s]
  case h_20 => dsimp only; split; exacts [installCert s, refl s]
  case h_21 => dsimp only; split; exacts [eraseService s, refl s]
  case h_22 => exact writeAnchor ..
  case h_23 => exact refl s
  all_goals exact upd ..

theorem effect (s : State) (slot idx sub e : Nat) (v : Val) : Fused s (effect s slot idx sub e v).s := by
  unfold Machine.effect
  split
  · exact effSession ..
  · split
    · exact effData ..
    · exact effModule ..

theorem writeRecord (s : State) (slot : Nat) (r : ValueRec) : Fused s (writeRecord s slot r).s := by
  unfold Machine.writeRecord
  split
  · exact refl s
  · split
    · unfold toPending
      dsimp only
      split
      · exact refl s
      · exact upd ..
    · exact effect ..

theorem writeAll (slot : Nat) (s : State) (n : Nat) (x : Octets) (l : List ValueRec) : Fused s (writeAll slot s n x l).1 := by
  induction l generalizing s n x with
  | nil => exact refl s
  | cons r rs ih =>
    unfold Machine.writeAll
    dsimp only
    split
    · exact writeRecord ..
    · exact .trans (writeRecord ..) (ih ..)

theorem writeAct (l : List ValueRec) (s : State) (i : Nat) : Fused s (writeAct l s i).1 := by
  unfold Machine.writeAct
  split
  · exact refl s
  · exact upd_right.mpr (writeAll ..)

theorem writeElementsAct (first : Addr) (stride : Nat) (vals : List Octets) (s : State) (i : Nat) :
    Fused s (writeElementsAct first stride vals s i).1 := by
  unfold Machine.writeElementsAct
  split
  · exact refl s
  · exact upd_right.mpr (writeAll ..)

@[simp] theorem writeRow (s : State) (h : Hdr) (idx sub : Nat) (elem : Option Nat) (data : Octets) : Fused s (writeRow s h idx sub elem data) :=
  by
  refine serve (fun s i => ?_) ..
  unfold writeOne
  exact upd_right.mpr (writeRecord ..)

end Fused

/-! ### Commands -/

/-- A command that completes has run its effect, and what follows it. -/
theorem fused_of_run {name : String} {i : Instr} {s t : State} {f : State → State} (h : run name i s f = .next t) (hf : Fused s (f s)) :
    Fused s t := by
  obtain ⟨-, rfl⟩ := run_next h
  exact Fused.finish_right.mpr hf

theorem exec_fused {c : Instr} {s t : State} (h : exec c s = .next t) : Fused s t := by
  cases c <;> unfold exec at h
  case read => exact fused_of_run h (.serve (.readAct _) ..)
  case write => exact fused_of_run h (.serve (.writeAct _) ..)
  case readElements => exact fused_of_run h (.serve (.readElementsAct _ _) ..)
  case writeElements => exact fused_of_run h (.serve (.writeElementsAct _ _ _) ..)
  case commit => exact fused_of_run h (.serve (.commitAct _) ..)
  case commitDryRun => exact fused_of_run h (.serve (.commitAct _) ..)
  case subscribe => exact fused_of_run h (.serve (.subscribeAct _) ..)
  case captureRead | indirectDataRead | attestationReportRead => exact fused_of_run h (.serve (.readAct _) ..)
  all_goals refine fused_of_run h ?_
  all_goals simp [Fused.whileOn]

/-- A step burns fuses and leaves the rest of the queue. -/
theorem step_fused {s t : State} (h : step s = .next t) : FusesBurn s.otp t.otp ∧ (FusesFit s.otp → FusesFit t.otp) := by
  unfold step at h
  split at h
  · cases h
    rw [idle_otp]
    exact ⟨.refl _, id⟩
  · obtain ⟨burn, fit, -⟩ := exec_fused h
    exact ⟨burn, fit⟩

/-- Every command is its check and its effect: no meaning refuses. -/
theorem exec_run (c : Instr) (s : State) : ∃ name f, exec c s = run name c s f := by
  cases c <;> unfold exec <;> exact ⟨_, _, rfl⟩

/-- Settles O1: on a queue that is not empty `step` is `exec` of its head. -/
theorem stepRunsTheFrontCommand : Obligations.StepRunsTheFrontCommand := fun _ _ => rfl

/-- Settles O3: every command is a `run` of its effect, and effects are `Fused` moves, which leave the queue. -/
theorem wellFormedCommandsCompleteAndLeaveTheQueue : Obligations.WellFormedCommandsCompleteAndLeaveTheQueue := by
  refine ⟨fun c s => ?_, fun c s t h => (exec_fused h).pending⟩
  obtain ⟨name, f, hf⟩ := exec_run c s
  rw [hf]
  exact ⟨fun hw => ⟨_, run_wf name c s f hw⟩, fun hw => ⟨name, run_ill name c s f hw⟩⟩

/-- Settles O4: every operation on the whole state keeps the counters within their fuses. -/
theorem fuseCountersStayWithinTheirFuses : Obligations.FuseCountersStayWithinTheirFuses := fun _ _ hf h => (step_fused h).2 hf

/-- Settles O5: every operation on the whole state only burns fuses. -/
theorem stepsOnlyBurnFuses : Obligations.StepsOnlyBurnFuses := fun _ _ h => (step_fused h).1

end Sys2Proof.Machine
end

