-- ==== Sys2Proof/Proofs/TypedWrites.lean ====
section
/-! PROOFS. A WRITE of one record of any object that takes effect at once (R777, R778): the whole state it leaves, and its answer. -/

namespace Sys2Proof.Machine

variable {s : State} {h : Hdr} {i idx sub : Nat} {elem : Option Nat} {data : Octets} {v : Val} {f : Eff}

/-- The reply of an accepted WRITE of one record, from the slot that it was accepted in. -/
def answerWrite (s n : State) (h : Hdr) (i status : Nat) (bodies : List Octets) : State :=
  n.upd (replySealed n.mod i (sess s.mod i).id (sess s.mod i).sent h 0x11 status bodies)

theorem writeOne_outcome {r : ValueRec} {o : Obj} (hchk : recordCheck s.mod i r = .ok (o, v)) (hacc : o.acc ≠ .rwc)
    (hf : effect s i r.addr.idx r.addr.sub r.addr.elem v = f) :
    ∃ bodies ≠ [], writeOne r s i = (f.s.upd (expertEvent s.mod i (if f.status = 0 then [r] else []) f.s.mod), f.status, bodies) := by
  unfold writeOne writeRecord
  rw [hchk]
  dsimp only
  rw [if_neg hacc, hf]
  by_cases hs : f.status = 0
  · rw [if_pos hs, if_pos hs, hs]
    exact ⟨_, List.cons_ne_nil _ _, rfl⟩
  · rw [if_neg hs, if_neg hs]
    exact ⟨_, List.cons_ne_nil _ _, rfl⟩

/-- Event 0xC103 changes the events alone. -/
theorem expertEvent_form (before m : Mod) (i : Nat) (l : List ValueRec) : ∃ ev, expertEvent before i l m = { m with ev := ev } := by
  unfold expertEvent
  split
  · exact ⟨m.ev, rfl⟩
  · exact ⟨_, rfl⟩

/-- An accepted WRITE of one record of an object that is not kept pending: its effect, what the expert access tells of it, and the answer. -/
theorem writeRow_outcome (o : Obj) (hw : WriteClears s.mod h i idx sub elem data) (hrow : objRow idx sub = some o) (hacc : o.acc ≠ .rwc)
    (hdec : decodeVal o.ty data = some v) (hf : effect (s.upd (accept s.mod h i)) i idx sub (elem.getD 0) v = f) :
    ∃ bodies ≠ [], writeRow s h idx sub elem data = answerWrite s
      (f.s.upd (expertEvent (accept s.mod h i) i (if f.status = 0 then [recOf idx sub elem data] else []) f.s.mod)) h i f.status bodies := by
  obtain ⟨hacc', hclr⟩ := hw
  obtain ⟨v', hdec', hchk⟩ := recordCheck_of_clears hclr hrow
  obtain rfl : v' = v := Option.some.inj (hdec'.symm.trans hdec)
  obtain ⟨bodies, hb, hone⟩ := writeOne_outcome (s := s.upd (accept s.mod h i)) (f := f) hchk hacc hf
  refine ⟨bodies, hb, ?_⟩
  rw [writeRow, serve_accepted _ _ _ i _ hacc', hone]
  rfl

/-- The same for an object that reaches no register: its effect and the answer. -/
theorem writeRow_answered (o : Obj) (hw : WriteClears s.mod h i idx sub elem data) (hrow : objRow idx sub = some o) (hacc : o.acc ≠ .rwc)
    (hdec : decodeVal o.ty data = some v) (hx : isExpert (recOf idx sub elem data) = false)
    (hf : effect (s.upd (accept s.mod h i)) i idx sub (elem.getD 0) v = f) :
    ∃ bodies ≠ [], writeRow s h idx sub elem data = answerWrite s f.s h i f.status bodies := by
  obtain ⟨bodies, hb, heq⟩ := writeRow_outcome o hw hrow hacc hdec hf
  rw [expertEvent_none _ _ _ (by split <;> simp [hx]), State.upd_self] at heq
  exact ⟨bodies, hb, heq⟩

/-- The same where the effect is on the module alone. -/
theorem writeRow_module {n : Mod} (o : Obj) (hw : WriteClears s.mod h i idx sub elem data) (hrow : objRow idx sub = some o) (hacc : o.acc ≠ .rwc)
    (hdec : decodeVal o.ty data = some v) (hx : isExpert (recOf idx sub elem data) = false)
    (hf : effect (s.upd (accept s.mod h i)) i idx sub (elem.getD 0) v = effM (s.upd (accept s.mod h i)) n) :
    ∃ bodies ≠ [], writeRow s h idx sub elem data = answerWrite s (s.upd n) h i 0 bodies :=
  writeRow_answered o hw hrow hacc hdec hx hf

/-- The same where the effect is on the module alone and answers a status. -/
theorem writeRow_status {r : Mod × Nat} (o : Obj) (hw : WriteClears s.mod h i idx sub elem data) (hrow : objRow idx sub = some o) (hacc : o.acc ≠ .rwc)
    (hdec : decodeVal o.ty data = some v) (hx : isExpert (recOf idx sub elem data) = false)
    (hf : effect (s.upd (accept s.mod h i)) i idx sub (elem.getD 0) v = effN (s.upd (accept s.mod h i)) r) :
    ∃ bodies ≠ [], writeRow s h idx sub elem data = answerWrite s (s.upd r.1) h i r.2 bodies :=
  writeRow_answered o hw hrow hacc hdec hx hf

/-- The same where the effect is on the whole state and answers a status. -/
theorem writeRow_state {r : State × Nat} (o : Obj) (hw : WriteClears s.mod h i idx sub elem data) (hrow : objRow idx sub = some o) (hacc : o.acc ≠ .rwc)
    (hdec : decodeVal o.ty data = some v) (hx : isExpert (recOf idx sub elem data) = false)
    (hf : effect (s.upd (accept s.mod h i)) i idx sub (elem.getD 0) v = effS r) :
    ∃ bodies ≠ [], writeRow s h idx sub elem data = answerWrite s r.1 h i r.2 bodies :=
  writeRow_answered o hw hrow hacc hdec hx hf

/-- The same for any object, with the events left open. -/
theorem writeRow_events (o : Obj) (hw : WriteClears s.mod h i idx sub elem data) (hrow : objRow idx sub = some o) (hacc : o.acc ≠ .rwc)
    (hdec : decodeVal o.ty data = some v) (hf : effect (s.upd (accept s.mod h i)) i idx sub (elem.getD 0) v = f) :
    ∃ ev bodies, bodies ≠ [] ∧ writeRow s h idx sub elem data = answerWrite s (f.s.upd { f.s.mod with ev := ev }) h i f.status bodies := by
  obtain ⟨bodies, hb, heq⟩ := writeRow_outcome o hw hrow hacc hdec hf
  obtain ⟨ev, hev⟩ := expertEvent_form (accept s.mod h i) f.s.mod i (if f.status = 0 then [recOf idx sub elem data] else [])
  exact ⟨ev, bodies, hb, by rw [heq, hev]⟩

/-- A session that goes on through the effect is answered. -/
theorem answered_answerWrite {n : State} {status : Nat} {bodies : List Octets} (hb : bodies ≠ []) (h2 : (sess s.mod i).state = 2)
    (hstate : (sess n.mod i).state = (sess s.mod i).state) (hid : (sess n.mod i).id = (sess s.mod i).id) :
    Answered (finish (answerWrite s n h i status bodies)).mod i h.sequence status :=
  (wrote_replySealed hb (hstate.trans h2) hid).answered

@[simp] theorem answerWrite_otp (s n : State) (h : Hdr) (i status : Nat) (bodies : List Octets) : (answerWrite s n h i status bodies).otp = n.otp := rfl
@[simp] theorem answerWrite_flash (s n : State) (h : Hdr) (i status : Nat) (bodies : List Octets) : (answerWrite s n h i status bodies).flash = n.flash :=
  rfl

theorem answerWrite_mod (s n : State) (h : Hdr) (i status : Nat) (bodies : List Octets) :
    (answerWrite s n h i status bodies).mod = replySealed n.mod i (sess s.mod i).id (sess s.mod i).sent h 0x11 status bodies := rfl

/-! ### What the answer leaves alone -/

section
variable (s n : State) (h : Hdr) (i status : Nat) (bodies : List Octets)

@[simp] theorem answerWrite_sys : (finish (answerWrite s n h i status bodies)).mod.sys = n.mod.sys := by
  rw [finish_mod, settleOver_sys, answerWrite_mod, replySealed_sys]
@[simp] theorem answerWrite_tether : (finish (answerWrite s n h i status bodies)).mod.tether = n.mod.tether := by
  rw [finish_mod, settleOver_tether, answerWrite_mod, replySealed_tether]
@[simp] theorem answerWrite_snap : (finish (answerWrite s n h i status bodies)).mod.snap = n.mod.snap := by
  rw [finish_mod, settleOver_snap, answerWrite_mod, replySealed_snap]
@[simp] theorem answerWrite_fw : (finish (answerWrite s n h i status bodies)).mod.fw = n.mod.fw := by
  rw [finish_mod, settleOver_fw, answerWrite_mod, replySealed_fw]
@[simp] theorem answerWrite_sources : (finish (answerWrite s n h i status bodies)).mod.sources = n.mod.sources := by
  rw [finish_mod, settleOver_sources, answerWrite_mod, replySealed_sources]
@[simp] theorem answerWrite_fails : (finish (answerWrite s n h i status bodies)).mod.mgmt.fails = n.mod.mgmt.fails := by
  rw [finish_mod, settleOver_mgmt, answerWrite_mod, replySealed_mgmt_fails]
@[simp] theorem answerWrite_lockedTo : (finish (answerWrite s n h i status bodies)).mod.mgmt.lockedTo = n.mod.mgmt.lockedTo := by
  rw [finish_mod, settleOver_mgmt, answerWrite_mod, replySealed_mgmt_lockedTo]
@[simp] theorem answerWrite_grants : (finish (answerWrite s n h i status bodies)).mod.mgmt.grants = n.mod.mgmt.grants := by
  rw [finish_mod, settleOver_mgmt, answerWrite_mod, replySealed_mgmt_grants]
@[simp] theorem answerWrite_debugBy : (finish (answerWrite s n h i status bodies)).mod.mgmt.debugBy = n.mod.mgmt.debugBy := by
  rw [finish_mod, settleOver_mgmt, answerWrite_mod, replySealed_mgmt_debugBy]
@[simp] theorem answerWrite_retireBy : (finish (answerWrite s n h i status bodies)).mod.mgmt.retireBy = n.mod.mgmt.retireBy := by
  rw [finish_mod, settleOver_mgmt, answerWrite_mod, replySealed_mgmt_retireBy]
@[simp] theorem answerWrite_scratch : (finish (answerWrite s n h i status bodies)).mod.mgmt.scratch = n.mod.mgmt.scratch := by
  rw [finish_mod, settleOver_mgmt, answerWrite_mod, replySealed_mgmt_scratch]
@[simp] theorem answerWrite_taps : (finish (answerWrite s n h i status bodies)).mod.mgmt.taps = n.mod.mgmt.taps := by
  rw [finish_mod, settleOver_mgmt, answerWrite_mod, replySealed_mgmt_taps]
@[simp] theorem look_answerWrite : look (finish (answerWrite s n h i status bodies)).mod = look n.mod := by
  rw [finish_mod, look_settleOver, answerWrite_mod, look_replySealed]
@[simp] theorem inf_answerWrite : inf (finish (answerWrite s n h i status bodies)).mod = inf n.mod := by unfold inf; rw [look_answerWrite]

end

/-! ### Sessions after the answer -/

/-- The other sessions are as the effect left them. -/
theorem sess_answerWrite_ne (s n : State) (h : Hdr) (i status : Nat) (bodies : List Octets) {j : Nat} (hj : j ≠ i) :
    sess (finish (answerWrite s n h i status bodies)).mod j = sess n.mod j := by
  rw [finish_mod, sess_settleOver, answerWrite_mod, sess_replySealed_ne _ _ _ _ _ _ _ _ hj]

/-- A session that the effect ended is as it left it, the writing one too. -/
theorem sess_answerWrite_ended {s n : State} {h : Hdr} {i status j : Nat} {bodies : List Octets} (hj : (sess n.mod j).state ≠ 2) :
    sess (finish (answerWrite s n h i status bodies)).mod j = sess n.mod j := by
  by_cases hji : j = i
  · subst hji
    rw [finish_mod, sess_settleOver, answerWrite_mod, sess_replySealed_ended _ _ _ _ _ _ _ _ hj]
  · exact sess_answerWrite_ne s n h i status bodies hji

end Sys2Proof.Machine
end

