-- ==== Sys2Proof/Proofs/SessionLife.lean ====
section
/-! PROOFS. The limits of OPEN (R747, R748), PROVE and the lock of a credential (R753 to R756), the ends of sessions (R755, R762, R763, R797). -/

namespace Sys2Proof.Machine

variable {s : State} {m : Mod} {h : Hdr} {i : Nat}

/-! ### OPEN at its limits -/

/-- With every slot in use OPEN is refused (R747). -/
theorem openSession_full {role method cred sid : Nat} {nonce mn : Octets} (hr : Reaches s.mod h) (hu : slotsUsed s.mod = 32) :
    openSession s h role method cred nonce sid mn = s.upd (replyPlain s.mod h 1 0 0x3001 (detail { idx := 0, sub := 0 } [32])) := by
  obtain ⟨harr, hrun, hst, hpilot, hv, hres, hl⟩ := hr
  have hfull : 32 ≤ ((List.range 32).filter fun i => (sess s.mod i).state != 0).length := Nat.le_of_eq hu.symm
  unfold openSession
  simp only [harr, hst, hrun, hv, hres, hl, serving, hpilot, hfull, Bool.not_true, Bool.false_eq_true, if_false, Bool.and_true,
    beq_self_eq_true, bne_self_eq_false, Bool.or_false, if_true]

/-- With eight sessions not yet proved OPEN is refused (R748). -/
theorem openSession_unproved {role method cred sid : Nat} {nonce mn : Octets} (hr : Reaches s.mod h) (hu : slotsUsed s.mod < 32)
    (hp : 8 ≤ slotsUnproved s.mod) :
    openSession s h role method cred nonce sid mn = s.upd (replyPlain s.mod h 1 0 0x3001 (detail { idx := 0, sub := 0 } [8])) := by
  obtain ⟨harr, hrun, hst, hpilot, hv, hres, hl⟩ := hr
  have hfree : ¬32 ≤ ((List.range 32).filter fun i => (sess s.mod i).state != 0).length := Nat.not_le.mpr hu
  have hopen : 8 ≤ (((List.range 32).filter fun i => (sess s.mod i).state != 0).filter fun i => (sess s.mod i).state == 1).length := by
    rwa [slotsUnproved_eq]
  unfold openSession
  simp only [harr, hst, hrun, hv, hres, hl, serving, hpilot, hfree, hopen, Bool.not_true, Bool.false_eq_true, if_false, Bool.and_true,
    beq_self_eq_true, bne_self_eq_false, Bool.or_false, if_true]

/-- Fewer than 32 slots in use leave a lowest free one. -/
theorem firstBelow_free (hu : slotsUsed m < 32) :
    ∃ i, firstBelow 32 (fun i => (sess m i).state == 0) = some i ∧ i < 32 ∧ (sess m i).state = 0 := by
  obtain ⟨x, hx, hfree⟩ : ∃ x ∈ List.range 32, ¬((sess m x).state != 0) = true :=
    List.length_filter_lt_length_iff_exists.mp (by simpa [slotsUsed] using hu)
  obtain ⟨i, hi⟩ := Option.isSome_iff_exists.mp
    (List.find?_isSome (p := fun i => (sess m i).state == 0).mpr ⟨x, hx, by simpa using hfree⟩)
  exact ⟨i, hi, List.mem_range.mp (List.mem_of_find?_eq_some hi), beq_iff_eq.mp (List.find?_some (p := fun i => (sess m i).state == 0) hi)⟩

/-- After an unprotected reply and what follows, the sessions are as they were. -/
theorem sess_finish_replyPlain (s : State) (m : Mod) (h : Hdr) (op session status : Nat) (body : Octets) (j : Nat) :
    sess (finish (s.upd (replyPlain m h op session status body))).mod j = sess m j := by
  rw [finish_mod, State.upd_mod, sess_settleOver, sess_replyPlain]

/-- An unprotected reply of a module whose paths and output are those of another is sent from that other too. -/
theorem sent_finish_replyPlain {m n : Mod} (s : State) (h : Hdr) (op session status : Nat) (body : Octets) (hout : n.out = m.out)
    (hicept : n.mgmt.icept = m.mgmt.icept) (hel : n.sys.elapsed = m.sys.elapsed) :
    Sent m (finish (s.upd (replyPlain n h op session status body))).mod (plain h op session status body) := by
  have hs : Sent n (settleOver (replyPlain n h op session status body)) (plain h op session status body) := sent_settleOver (sent_send n _)
  unfold Sent at hs ⊢
  rwa [hout, hicept, hel] at hs

/-- Settles O7: either limit is answered with itself, and below both a free slot holds the session. -/
theorem openWithinTheLimits : Obligations.OpenWithinTheLimits := by
  intro s h role method cred nonce sid mn hw hr
  refine ⟨fun hu => ?_, fun hu hp => ?_, fun hu hp hrole => ?_⟩
  · refine ⟨_, exec_open hw, ?_⟩
    rw [openSession_full hr hu]
    exact ⟨sent_finish_replyPlain s h _ _ _ _ rfl rfl rfl, fun j => sess_finish_replyPlain ..⟩
  · refine ⟨_, exec_open hw, ?_⟩
    rw [openSession_unproved hr hu hp]
    exact ⟨sent_finish_replyPlain s h _ _ _ _ rfl rfl rfl, fun j => sess_finish_replyPlain ..⟩
  · obtain ⟨i, hi, hlt, hfree⟩ := firstBelow_free hu
    refine ⟨_, i, exec_open hw, hlt, hfree, ?_⟩
    rw [openSession_taken hr hu hp hi fun h3 => absurd h3 hrole]
    exact ⟨congrArg Sess.state (sess_opened ..), fun j hj => by rw [sess_finish_replyPlain, sess_setSess_ne _ _ hj]⟩

/-! ### PROVE -/

/-- The session of an accepted proof (R754). -/
def provedSess (m : Mod) (h : Hdr) (i : Nat) : Sess :=
  { sess m i with state := 2, requestAt := m.sys.elapsed, requestTime := now m, path := h.path, src := h.src }

/-- The module once a proof is accepted, before its reply (R754, R756). -/
def proved (m : Mod) (h : Hdr) (i : Nat) : Mod :=
  let x := sess m i
  let m1 := setSess m i (provedSess m h i)
  let m2 := { m1 with mgmt := { m1.mgmt with fails := tset 0 m1.mgmt.fails x.cred 0, lastUse := tset 0 m1.mgmt.lastUse x.cred (now m) },
                      ev := { m1.ev with subs := tins i { role := x.role, bpid := x.bpid, session := x.id } (tdel m1.ev.subs i) } }
  raise m2 0xC001 2 x.bpid (b4 x.id ++ b1 x.role ++ b2 x.cred ++ b4 x.bpid ++ b1 (pathCode h.path))

/-- A failed proof of a credential that exists is counted against it, and the fifth in a row locks it (R756). -/
def countProof (m : Mod) (cred bpid n : Nat) : Mod :=
  if n = 5 then
    raise { m with mgmt := { m.mgmt with fails := tset 0 m.mgmt.fails cred 0,
                                         lockedTo := tset none m.mgmt.lockedTo cred (some (m.sys.elapsed + 300 * secCycles)) } }
      0xC004 2 bpid (b2 cred ++ b1 1)
  else { m with mgmt := { m.mgmt with fails := tset 0 m.mgmt.fails cred n } }

/-- A failed proof releases its session (R755). -/
def releaseProof (m : Mod) (h : Hdr) (i : Nat) : Mod :=
  raise (freeSlot (bump m 0x2000 7 0 1) i) 0xC003 2 (sess m i).bpid (b2 (sess m i).cred ++ b1 (pathCode h.path))

/-- The module once a proof has failed, before its reply (R755, R756). -/
def unproved (m : Mod) (h : Hdr) (i : Nat) (locked : Bool) : Mod :=
  if (sess m i).cred < 64 ∧ inf m 0x2100 1 (sess m i).cred ≠ 0 ∧ !locked then
    countProof (bump (releaseProof m h i) 0x2100 8 (sess m i).cred 1) (sess m i).cred (sess m i).bpid (tget 0 m.mgmt.fails (sess m i).cred + 1)
  else releaseProof m h i

theorem failProof_eq (m : Mod) (h : Hdr) (i : Nat) (locked : Bool) :
    failProof m h i locked = replyPlain (unproved m h i locked) h 2 h.session 0x6001 [] := by
  have hel : (bump (releaseProof m h i) 0x2100 8 (sess m i).cred 1).sys.elapsed = m.sys.elapsed := by
    rw [bump_sys]; exact congrArg (·.elapsed) (bump_sys ..)
  unfold failProof unproved countProof
  rw [hel]
  unfold releaseProof
  rfl

theorem exec_prove {proof : Option Secret} (hw : (Instr.prove h proof).wf = true) :
    exec (.prove h proof) s = .next (finish (proveSession s h proof)) :=
  run_wf "PROVE" _ s (fun s => proveSession s h proof) hw

/-- What a PROVE for a session not yet proved comes to (R753 to R756). -/
theorem proveSession_eq {proof : Option Secret} (hr : Reaches s.mod h) (hslot : slotOf s.mod h.session = some i)
    (h1 : (sess s.mod i).state = 1) (hb : h.bpid = if (sess s.mod i).role = 3 then (sess s.mod i).bpid else 0) :
    proveSession s h proof =
      if (tget none s.mod.mgmt.lockedTo (sess s.mod i).cred).isSome || (sess s.mod i).secret.isNone || proof != (sess s.mod i).secret ||
          ((sess s.mod i).cred == 0xFFFF && officerInForce s.mod) then
        s.upd (failProof s.mod h i (tget none s.mod.mgmt.lockedTo (sess s.mod i).cred).isSome)
      else s.upd (replyPlain (proved s.mod h i) h 2 (sess s.mod i).id 0
        (hmac (((sess s.mod i).secret.map secretBytes).getD []) (ascii "CAMANENT ACCEPT" ++ (sess s.mod i).transcript))) := by
  obtain ⟨harr, hrun, hst, hpilot, hv, hres, hl⟩ := hr
  unfold proveSession
  simp only [harr, hst, hrun, hv, hres, hl, serving, hpilot, hslot, h1, hb, Bool.not_true, Bool.false_eq_true, if_false, Bool.and_true,
    beq_self_eq_true, bne_self_eq_false, Bool.or_false, ne_eq, not_true_eq_false]
  rfl

/-- A PROVE of an ID that no slot holds (R762). -/
theorem proveSession_noSlot {proof : Option Secret} (hr : Reaches s.mod h) (hslot : slotOf s.mod h.session = none) :
    proveSession s h proof = s.upd (replyPlain s.mod h 2 h.session (if s.mod.mgmt.expired.any (·.1 == h.session) then 0x6004 else 0x4001) []) := by
  obtain ⟨harr, hrun, hst, hpilot, hv, hres, hl⟩ := hr
  unfold proveSession
  simp only [harr, hst, hrun, hv, hres, hl, serving, hpilot, hslot, Bool.not_true, Bool.false_eq_true, if_false, Bool.and_true,
    beq_self_eq_true, bne_self_eq_false, Bool.or_false]

theorem sess_proved_same (m : Mod) (h : Hdr) (i : Nat) : sess (proved m h i) i = provedSess m h i :=
  sess_setSess_same m i (provedSess m h i)

theorem sess_proved_ne (m : Mod) (h : Hdr) {i j : Nat} (hj : j ≠ i) : sess (proved m h i) j = sess m j :=
  sess_setSess_ne m (provedSess m h i) hj

theorem fails_proved (m : Mod) (h : Hdr) (i : Nat) : tget 0 (proved m h i).mgmt.fails (sess m i).cred = 0 :=
  tget_tset_same 0 m.mgmt.fails (sess m i).cred 0

theorem sess_freeSlot_same (m : Mod) (i : Nat) : sess (freeSlot m i) i = {} := sess_setSess_same ..

theorem sess_countProof (m : Mod) (cred bpid n : Nat) : sess (countProof m cred bpid n) = sess m := by
  unfold countProof
  split <;> rfl

/-- The slot of a failed proof is free. -/
theorem sess_unproved (m : Mod) (h : Hdr) (i : Nat) (locked : Bool) : sess (unproved m h i locked) i = {} := by
  have hfree : sess (releaseProof m h i) i = {} := sess_freeSlot_same ..
  unfold unproved
  split
  · rw [sess_countProof, sess, bump_mgmt]
    exact hfree
  · exact hfree

/-- A counted proof changes the run of failures and the lock alone. -/
theorem countProof_form (m : Mod) (cred bpid n : Nat) : ∃ fails lockedTo ev,
    countProof m cred bpid n = { m with mgmt := { m.mgmt with fails := fails, lockedTo := lockedTo }, ev := ev } := by
  unfold countProof
  split
  · exact ⟨_, _, _, rfl⟩
  · exact ⟨_, m.mgmt.lockedTo, m.ev, rfl⟩

theorem releaseProof_paths (m : Mod) (h : Hdr) (i : Nat) :
    (releaseProof m h i).out = m.out ∧ (releaseProof m h i).mgmt.icept = m.mgmt.icept ∧ (releaseProof m h i).sys = m.sys := by
  have hout := bump_out m 0x2000 7 0 1
  have hmgmt := bump_mgmt m 0x2000 7 0 1
  have hsys := bump_sys m 0x2000 7 0 1
  unfold releaseProof
  generalize bump m 0x2000 7 0 1 = n at hout hmgmt hsys
  exact ⟨hout, show n.mgmt.icept = _ by rw [hmgmt], hsys⟩

/-- A failed proof hands no message to a path before its reply. -/
theorem unproved_paths (m : Mod) (h : Hdr) (i : Nat) (locked : Bool) :
    (unproved m h i locked).out = m.out ∧ (unproved m h i locked).mgmt.icept = m.mgmt.icept ∧ (unproved m h i locked).sys = m.sys := by
  unfold unproved
  split
  · obtain ⟨f, l, e, hform⟩ := countProof_form (bump (releaseProof m h i) 0x2100 8 (sess m i).cred 1) (sess m i).cred (sess m i).bpid
      (tget 0 m.mgmt.fails (sess m i).cred + 1)
    rw [hform]
    dsimp only
    rw [bump_out, bump_mgmt, bump_sys]
    exact releaseProof_paths m h i
  · exact releaseProof_paths m h i

theorem releaseProof_lockedTo (m : Mod) (h : Hdr) (i : Nat) : (releaseProof m h i).mgmt.lockedTo = m.mgmt.lockedTo :=
  show (bump m 0x2000 7 0 1).mgmt.lockedTo = _ by rw [bump_mgmt]

theorem fails_countProof (m : Mod) {cred bpid n : Nat} (hn : n ≠ 5) : tget 0 (countProof m cred bpid n).mgmt.fails cred = n := by
  rw [countProof, if_neg hn]
  exact tget_tset_same 0 m.mgmt.fails cred n

theorem lockedTo_countProof (m : Mod) {cred bpid n : Nat} (hn : n ≠ 5) : (countProof m cred bpid n).mgmt.lockedTo = m.mgmt.lockedTo := by
  rw [countProof, if_neg hn]

theorem countProof_locks (m : Mod) (cred bpid : Nat) :
    tget none (countProof m cred bpid 5).mgmt.lockedTo cred = some (m.sys.elapsed + 300 * secCycles) :=
  tget_tset_same none m.mgmt.lockedTo cred (some (m.sys.elapsed + 300 * secCycles))

/-- A failed proof of an unlocked credential that exists, and that has not failed four times before, is counted (R756). -/
theorem unproved_counts (hl : (sess m i).cred < 64) (hc : inf m 0x2100 1 (sess m i).cred ≠ 0) (hf : tget 0 m.mgmt.fails (sess m i).cred < 4) :
    tget 0 (unproved m h i false).mgmt.fails (sess m i).cred = tget 0 m.mgmt.fails (sess m i).cred + 1 ∧
      (unproved m h i false).mgmt.lockedTo = m.mgmt.lockedTo := by
  have hn : tget 0 m.mgmt.fails (sess m i).cred + 1 ≠ 5 := by omega
  rw [unproved, if_pos ⟨hl, hc, rfl⟩, fails_countProof _ hn, lockedTo_countProof _ hn, bump_mgmt, releaseProof_lockedTo]
  exact ⟨rfl, rfl⟩

/-- The fifth failed proof in a row locks the credential for 300 s (R756). -/
theorem unproved_locks (hl : (sess m i).cred < 64) (hc : inf m 0x2100 1 (sess m i).cred ≠ 0) (hf : tget 0 m.mgmt.fails (sess m i).cred = 4) :
    tget none (unproved m h i false).mgmt.lockedTo (sess m i).cred = some (m.sys.elapsed + 300 * secCycles) := by
  rw [unproved, if_pos ⟨hl, hc, rfl⟩, hf, countProof_locks, bump_sys, (releaseProof_paths m h i).2.2]

theorem exec_credentialLockExpire (s : State) (c : Fin 64) : exec (.credentialLockExpire c) s = .next (finish (s.upd (unlockCred s.mod c))) :=
  run_wf "CREDENTIAL_LOCK_EXPIRE" (.credentialLockExpire c) s (onMod fun m => unlockCred m c) rfl

/-- A credential's lock lapses at its time (R756). -/
theorem unlockCred_lapses {c e : Nat} (he : tget none m.mgmt.lockedTo c = some e) :
    tget none (unlockCred m c).mgmt.lockedTo c = none ∧ e ≤ (unlockCred m c).sys.elapsed := by
  unfold unlockCred
  rw [he]
  exact ⟨tget_tset_same none (advanceTo m e).mgmt.lockedTo c none, le_advanceTo_elapsed m e⟩

theorem fails_finish_replyPlain (s : State) (m : Mod) (h : Hdr) (op session status : Nat) (body : Octets) :
    (finish (s.upd (replyPlain m h op session status body))).mod.mgmt.fails = m.mgmt.fails := by
  rw [finish_mod, State.upd_mod, settleOver_mgmt, replyPlain, send_mgmt_fails]

theorem lockedTo_finish_replyPlain (s : State) (m : Mod) (h : Hdr) (op session status : Nat) (body : Octets) :
    (finish (s.upd (replyPlain m h op session status body))).mod.mgmt.lockedTo = m.mgmt.lockedTo := by
  rw [finish_mod, State.upd_mod, settleOver_mgmt, replyPlain, send_mgmt_lockedTo]

/-- A locked credential, a session without a secret and a proof other than by its secret each fail the proof (R755). -/
theorem wrong_proof {proof : Option Secret} {lock : Option Nat} {secret : Option Secret} {b : Bool}
    (hwrong : lock.isSome = true ∨ secret = none ∨ proof ≠ secret) : (lock.isSome || secret.isNone || proof != secret || b) = true := by
  rcases hwrong with hlock | hnone | hne
  · simp [hlock]
  · simp [hnone]
  · simp [hne]

/-- Settles O9: the proof that matches opens the session, every other releases it, and the fifth locks the credential until its lock lapses. -/
theorem proofsOpenOrReleaseTheSession : Obligations.ProofsOpenOrReleaseTheSession := by
  refine ⟨fun s h secret i hw hr hslot h1 hb hsec hlock hcode => ?_, fun s h proof i hw hr hslot h1 hb hwrong => ?_, fun s c e he => ?_⟩
  · refine ⟨_, exec_prove hw, ?_⟩
    have hcode' : ((sess s.mod i).cred == 0xFFFF && officerInForce s.mod) = false := by
      cases hcred : (sess s.mod i).cred == 0xFFFF with
      | false => rfl
      | true => exact hcode (beq_iff_eq.mp hcred)
    rw [proveSession_eq hr hslot h1 hb, hlock, hsec, hcode', if_neg (by simp)]
    refine ⟨?_, ?_, ?_, ?_, ?_, sent_finish_replyPlain s h _ _ _ _ rfl rfl rfl, fun j hj => ?_⟩
    iterate 4 rw [sess_finish_replyPlain, sess_proved_same]; rfl
    · rw [fails_finish_replyPlain]; exact fails_proved ..
    · rw [sess_finish_replyPlain, sess_proved_ne s.mod h hj]
  · refine ⟨_, exec_prove hw, ?_⟩
    rw [proveSession_eq hr hslot h1 hb, if_pos (wrong_proof hwrong), failProof_eq]
    obtain ⟨hout, hicept, hsys⟩ := unproved_paths s.mod h i (tget none s.mod.mgmt.lockedTo (sess s.mod i).cred).isSome
    rw [sess_finish_replyPlain, sess_unproved, fails_finish_replyPlain, lockedTo_finish_replyPlain]
    refine ⟨rfl, sent_finish_replyPlain s h _ _ _ _ hout hicept (congrArg (·.elapsed) hsys), fun hlock hlt hc => ?_⟩
    rw [hlock]
    refine ⟨fun hf => ?_, fun hf => unproved_locks hlt hc hf⟩
    obtain ⟨hfails, hlocked⟩ := unproved_counts (h := h) hlt hc hf
    exact ⟨hfails, by rw [Option.isSome_none, hlocked, hlock]⟩
  · refine ⟨_, exec_credentialLockExpire s c, ?_⟩
    rw [finish_mod, State.upd_mod, settleOver_mgmt, settleOver_sys]
    exact unlockCred_lapses he

/-! ### Sessions that end -/

theorem sess_endSession_ended {slot : Nat} (cause : Nat) (hst : (sess m slot).state = 1 ∨ (sess m slot).state = 2) :
    sess (endSession m slot cause) slot = {} := by
  unfold endSession
  dsimp only
  split
  · rw [sess_raise]
    exact sess_freeSlot_same ..
  · next h2 =>
    rw [if_pos (hst.resolve_right h2)]
    exact sess_freeSlot_same ..

/-- The end of sessions leaves the failed proofs and locks of credentials alone. -/
theorem locks_endSession (m : Mod) (slot cause : Nat) :
    ((endSession m slot cause).mgmt.fails, (endSession m slot cause).mgmt.lockedTo, (endSession m slot cause).mgmt.expired) =
      (m.mgmt.fails, m.mgmt.lockedTo, m.mgmt.expired) := by
  have closed (n : Mod) (id : Nat) : ((closeDebug n slot id).mgmt.fails, (closeDebug n slot id).mgmt.lockedTo, (closeDebug n slot id).mgmt.expired) =
      (n.mgmt.fails, n.mgmt.lockedTo, n.mgmt.expired) := by
    unfold closeDebug
    split
    · dsimp only
      split <;> rfl
    · rfl
  have granted : ((endGrant m slot).mgmt.fails, (endGrant m slot).mgmt.lockedTo, (endGrant m slot).mgmt.expired) =
      (m.mgmt.fails, m.mgmt.lockedTo, m.mgmt.expired) := by
    unfold endGrant
    split
    · rfl
    · exact (closed ..).trans rfl
  unfold endSession
  dsimp only
  split
  · exact granted
  · split <;> rfl

theorem locks_endSessions (m : Mod) (cause : Nat) (p : Sess → Bool) :
    ((endSessions m cause p).mgmt.fails, (endSessions m cause p).mgmt.lockedTo, (endSessions m cause p).mgmt.expired) =
      (m.mgmt.fails, m.mgmt.lockedTo, m.mgmt.expired) := by
  unfold endSessions
  refine foldl_keeps (fun n : Mod => (n.mgmt.fails, n.mgmt.lockedTo, n.mgmt.expired))
    (fun n i => if (sess n i).state != 0 && p (sess n i) then endSession n i cause else n) (fun n i => ?_) (List.range 32) m
  split
  · exact locks_endSession ..
  · rfl

theorem exec_close (hw : (Instr.close h).wf = true) : exec (.close h) s = .next (finish (closeSession s h)) :=
  run_wf "CLOSE" _ s (fun s => closeSession s h) hw

/-- After an accepted CLOSE its slot is free. -/
theorem sess_closeSession (ha : Accepted s.mod h i) : sess (finish (closeSession s h)).mod i = {} := by
  unfold closeSession
  rw [admission_accepted s.mod h 3 i ha]
  obtain ⟨-, -, -, h2, -⟩ := ha
  have hst : (sess (accept s.mod h i) i).state = 2 := by rw [sess_accept_same]; exact h2
  rw [finish_mod, State.upd_mod, sess_settleOver]
  refine sess_endSession_ended 0 (.inr ?_)
  rw [sess_replySealed_same _ _ _ _ _ _ _ _ hst rfl]
  exact hst

/-- A session not proved in time is released 5 s after its OPEN (R755). -/
theorem proveTimeout_releases {slot : Nat} (h1 : (sess m slot).state = 1) :
    sess (proveTimeout m slot) slot = {} ∧ (sess m slot).openedAt + 5 * secCycles ≤ (proveTimeout m slot).sys.elapsed := by
  unfold proveTimeout
  dsimp only
  rw [if_pos h1]
  exact ⟨sess_freeSlot_same .., le_advanceTo_elapsed m _⟩

/-- A credential erased, before its sessions end (R797). -/
def credentialErased (m : Mod) (c : Nat) : Mod :=
  { m with tether := { m.tether with vault := { m.tether.vault with
                                                secrets := tset none m.tether.vault.secrets c none,
                                                cfg := [1, 2, 3, 6].foldl (fun t s => tdel t (okey 0x2100 s c)) m.tether.vault.cfg } },
           mgmt := { m.mgmt with fails := tset 0 m.mgmt.fails c 0, lockedTo := tset none m.mgmt.lockedTo c none,
                                 lastUse := tset 0 m.mgmt.lastUse c 0 } }

theorem eraseCredential_eq (m : Mod) (c : Nat) : eraseCredential m c = endSessions (credentialErased m c) 4 fun x => x.cred == c := rfl

/-- The end of its sessions leaves the vault of an erased credential as it is. -/
theorem eraseCredential_tether (m : Mod) (c : Nat) : (eraseCredential m c).tether = (credentialErased m c).tether := by
  rw [eraseCredential_eq]
  obtain ⟨mgmt, obj, ev, hform⟩ := endSessions_form (credentialErased m c) 4 fun x => x.cred == c
  rw [hform]

theorem eraseCredential_locks (m : Mod) (c : Nat) :
    tget 0 (eraseCredential m c).mgmt.fails c = 0 ∧ tget none (eraseCredential m c).mgmt.lockedTo c = none := by
  have hl := locks_endSessions (credentialErased m c) 4 fun x => x.cred == c
  rw [← eraseCredential_eq, Prod.mk.injEq, Prod.mk.injEq] at hl
  obtain ⟨hfails, hlocked, -⟩ := hl
  rw [hfails, hlocked]
  exact ⟨tget_tset_same 0 m.mgmt.fails c 0, tget_tset_same none m.mgmt.lockedTo c none⟩

/-- Without a role among the vault's records a credential has none. -/
theorem role_of_cfg {c : Nat} (hc : tfind m.tether.vault.cfg (okey 0x2100 1 c) = none) : inf m 0x2100 1 c = 0 := by
  have hlook : look m [] 0x2100 1 c = dfltOf 0x2100 1 c := by
    unfold look
    dsimp only
    rw [tfind_nil, show store m 0x2100 1 = m.tether.vault.cfg from rfl, hc]
    rfl
  rw [inf, hlook]
  rfl

theorem cfg_credentialErased (m : Mod) (c : Nat) : tfind (credentialErased m c).tether.vault.cfg (okey 0x2100 1 c) = none :=
  foldl_of_mem (g := fun t x => tdel t (okey 0x2100 x c)) (P := fun t : Tbl Val => tfind t (okey 0x2100 1 c) = none) (fun t => tfind_tdel_same t _)
    (fun _ _ ht => tfind_tdel_none ht _) (by decide : 1 ∈ [1, 2, 3, 6])

/-- A command that leaves the vault of an erased credential leaves it out of force (R763, R797). -/
theorem erased_of_tether {n : Mod} {c : Nat} (hn : n.tether = (credentialErased m c).tether) :
    credSecret n c = none ∧ inf n 0x2100 1 c = 0 ∧ credInForce n c = false ∧ ∀ d, d ≠ c → credSecret n d = credSecret m d := by
  have hrole : inf n 0x2100 1 c = 0 := role_of_cfg (by rw [hn]; exact cfg_credentialErased m c)
  refine ⟨?_, hrole, by rw [credInForce, hrole]; rfl, fun d hd => ?_⟩
  · rw [credSecret, hn]
    exact tget_tset_same none m.tether.vault.secrets c none
  · rw [credSecret, hn]
    exact tget_tset_ne none m.tether.vault.secrets none hd

theorem exec_sessionTerminate {j : Nat} {v : Bool} (hw : (Instr.sessionTerminate h j v).wf = true) :
    exec (.sessionTerminate h j v) s = .next (finish (writeRow s h 0x2010 0x0B (some j) (b1 (b01 v)))) :=
  run_wf "SESSION_TERMINATE" _ s (fun s => writeRow s h 0x2010 0x0B (some j) (b1 (b01 v))) hw

theorem exec_credentialErase {c : Nat} {v : Bool} (hw : (Instr.credentialErase h c v).wf = true) :
    exec (.credentialErase h c v) s = .next (finish (writeRow s h 0x2100 0x0A (some c) (b1 (b01 v)))) :=
  run_wf "CREDENTIAL_ERASE" _ s (fun s => writeRow s h 0x2100 0x0A (some c) (b1 (b01 v))) hw

theorem exec_sessionProveTimeout (s : State) (i : Fin 32) : exec (.sessionProveTimeout i) s = .next (finish (s.upd (proveTimeout s.mod i))) :=
  run_wf "SESSION_PROVE_TIMEOUT" (.sessionProveTimeout i) s (onMod fun m => proveTimeout m i) rfl

theorem cred_accept (m : Mod) (h : Hdr) (i j : Nat) :
    (sess (accept m h i) j).cred = (sess m j).cred ∧ (sess (accept m h i) j).state = (sess m j).state := by
  by_cases hj : j = i
  · subst hj
    rw [sess_accept_same]
    exact ⟨rfl, rfl⟩
  · rw [sess_accept_ne m h hj]
    exact ⟨rfl, rfl⟩

/-- Settles O10: a CLOSE, the time for a proof, an Officer's word and the erasure of its credential each end a session and free its slot. -/
theorem sessionsEndAndFreeTheirSlots : Obligations.SessionsEndAndFreeTheirSlots := by
  refine ⟨⟨fun s h i hw ha => ?_, fun s i h1 => ?_, fun s h i j hw hc hst => ?_⟩, fun s h i c hw hc => ?_⟩
  · exact ⟨_, exec_close hw, by rw [sess_closeSession ha]; exact ⟨rfl, rfl, rfl⟩⟩
  · obtain ⟨hfree, htime⟩ := proveTimeout_releases h1
    refine ⟨_, exec_sessionProveTimeout s i, ?_⟩
    rw [finish_mod, State.upd_mod, sess_settleOver, settleOver_sys, hfree]
    exact ⟨rfl, htime⟩
  · have hst' : (sess (accept s.mod h i) j).state = 1 ∨ (sess (accept s.mod h i) j).state = 2 := by rwa [(cred_accept s.mod h i j).2]
    obtain ⟨bodies, -, heq⟩ := writeRow_module (v := .nat 1) (n := endSession (accept s.mod h i) j 2) _ hc rfl
      (by decide) rfl rfl rfl
    have hend := sess_endSession_ended 2 hst'
    refine ⟨_, exec_sessionTerminate hw, ?_⟩
    rw [show b1 (b01 true) = b1 1 from rfl, heq, sess_answerWrite_ended (by rw [State.upd_mod, hend]; decide), State.upd_mod, hend]
    exact ⟨rfl, rfl, rfl⟩
  · obtain ⟨bodies, -, heq⟩ := writeRow_module (v := .nat 1) (n := eraseCredential (accept s.mod h i) c) _ hc rfl
      (by decide) rfl rfl rfl
    refine ⟨_, exec_credentialErase hw, ?_⟩
    rw [show b1 (b01 true) = b1 1 from rfl, heq]
    obtain ⟨hfails, hlocked⟩ := eraseCredential_locks (accept s.mod h i) c
    obtain ⟨hsecret, hrole, hforce, hothers⟩ := erased_of_tether (m := accept s.mod h i) (c := c)
      (n := (finish (answerWrite s (s.upd (eraseCredential (accept s.mod h i) c)) h i 0 bodies)).mod)
      (by rw [answerWrite_tether, State.upd_mod, eraseCredential_tether])
    refine ⟨hsecret, hrole, hforce, ?_, ?_, fun j hj hcred hst => ?_, hothers⟩
    · rw [answerWrite_fails, State.upd_mod, hfails]
    · rw [answerWrite_lockedTo, State.upd_mod, hlocked]
    obtain ⟨hc', hs'⟩ := cred_accept s.mod h i j
    have hend : (sess (eraseCredential (accept s.mod h i) c) j).state = 0 := by
      rw [eraseCredential_eq]
      exact endSessions_picked (credentialErased (accept s.mod h i) c) 4 hj (hs'.trans_le hst) (beq_iff_eq.mpr (hc'.trans hcred))
    rw [sess_answerWrite_ended (by rw [State.upd_mod, hend]; decide), State.upd_mod, hend]

/-! ### Sessions that expire -/

theorem exec_sessionIdleExpire (s : State) (i : Fin 32) : exec (.sessionIdleExpire i) s = .next (finish (s.upd (idleExpire s.mod i))) :=
  run_wf "SESSION_IDLE_EXPIRE" (.sessionIdleExpire i) s (onMod fun m => idleExpire m i) rfl

theorem exec_sessionIdForget {sid : Nat} (hw : (Instr.sessionIdForget sid).wf = true) :
    exec (.sessionIdForget sid) s = .next (finish (s.upd (forgetId s.mod sid))) :=
  run_wf "SESSION_ID_FORGET" (.sessionIdForget sid) s (onMod fun m => forgetId m sid) hw

theorem advanceTo_mgmt (m : Mod) (t : Nat) : (advanceTo m t).mgmt = m.mgmt := advance_mgmt ..

theorem endSession_sys (m : Mod) (slot cause : Nat) : (endSession m slot cause).sys = m.sys := by
  obtain ⟨mgmt, obj, ev, hf⟩ := endSession_form m slot cause
  rw [hf]

/-- An idle session expires once its time has passed, and its ID is kept (R762). -/
theorem idleExpire_expires {slot : Nat} (h2 : (sess m slot).state = 2) :
    sess (idleExpire m slot) slot = {} ∧ (sess m slot).requestAt + inf m 0x2000 3 0 * secCycles ≤ (idleExpire m slot).sys.elapsed ∧
      (idleExpire m slot).mgmt.expired = m.mgmt.expired ++ [((sess m slot).id, (idleExpire m slot).sys.elapsed)] := by
  have hsess : sess (idleExpire m slot) slot =
      sess (endSession (advanceTo m ((sess m slot).requestAt + inf m 0x2000 3 0 * secCycles)) slot 1) slot := by
    unfold idleExpire
    dsimp only
    rw [if_pos h2]
    rfl
  have hsys : (idleExpire m slot).sys = (advanceTo m ((sess m slot).requestAt + inf m 0x2000 3 0 * secCycles)).sys := by
    unfold idleExpire
    dsimp only
    rw [if_pos h2]
    exact endSession_sys ..
  have hlocks := locks_endSession (advanceTo m ((sess m slot).requestAt + inf m 0x2000 3 0 * secCycles)) slot 1
  rw [Prod.mk.injEq, Prod.mk.injEq] at hlocks
  refine ⟨?_, ?_, ?_⟩
  · rw [hsess]
    exact sess_endSession_ended 1 (.inr (by rw [sess_advanceTo]; exact h2))
  · rw [hsys]
    exact le_advanceTo_elapsed m _
  · rw [hsys]
    unfold idleExpire
    dsimp only
    rw [if_pos h2]
    dsimp only
    rw [hlocks.2.2, advanceTo_mgmt]

/-- An expired ID is forgotten 3,600 s after it expired (R762). -/
theorem forgetId_forgets {sid since : Nat} (hf : m.mgmt.expired.find? (·.1 == sid) = some (sid, since)) :
    (forgetId m sid).mgmt.expired.find? (·.1 == sid) = none ∧ since + 3600 * secCycles ≤ (forgetId m sid).sys.elapsed := by
  unfold forgetId
  rw [hf]
  refine ⟨List.find?_eq_none.mpr fun x hx => ?_, le_advanceTo_elapsed m _⟩
  have hne := (List.mem_filter.mp hx).2
  simpa using hne

/-- A message for an ID that no slot holds (R762). -/
theorem admission_noSlot (hr : Reaches m h) (hslot : slotOf m h.session = none) (op : Nat) :
    admission m h op = .stop (replyPlain m h op h.session (if m.mgmt.expired.any (·.1 == h.session) then 0x6004 else 0x4001) []) := by
  obtain ⟨harr, hrun, hst, hpilot, hv, hres, hl⟩ := hr
  unfold admission
  simp only [harr, hst, hrun, hv, hres, hl, serving, hpilot, hslot, Bool.not_true, Bool.false_eq_true, if_false, Bool.and_true,
    beq_self_eq_true, bne_self_eq_false, Bool.or_false]

/-- Settles O11: an idle session's ID is kept for its time, and messages for it are told apart from those for an ID never seen. -/
theorem idleSessionsExpireAndAreRemembered : Obligations.IdleSessionsExpireAndAreRemembered := by
  refine ⟨fun s i h2 => ?_, fun s sid since hw hf => ?_, fun m h op hr hslot => admission_noSlot hr hslot op, fun s h proof hw hr hslot => ?_⟩
  · obtain ⟨hfree, htime, hkept⟩ := idleExpire_expires h2
    refine ⟨_, exec_sessionIdleExpire s i, ?_⟩
    rw [finish_mod, State.upd_mod, sess_settleOver, settleOver_sys, settleOver_mgmt, hfree]
    exact ⟨rfl, rfl, rfl, htime, hkept⟩
  · refine ⟨_, exec_sessionIdForget hw, ?_⟩
    rw [finish_mod, State.upd_mod, settleOver_sys, settleOver_mgmt]
    exact forgetId_forgets hf
  · refine ⟨_, exec_prove hw, ?_⟩
    rw [proveSession_noSlot hr hslot]
    exact ⟨sent_finish_replyPlain s h _ _ _ _ rfl rfl rfl, fun j => sess_finish_replyPlain ..⟩

end Sys2Proof.Machine
end

