-- ==== Sys2Proof/Proofs/RequestOrder.lean ====
section
/-! PROOFS. Requests in and out of turn: repeats, stale and far SEQUENCEs (R759, R760), and accepted READ, READ_ELEMENTS and SUBSCRIBE (R758, R764,
R775, R787). -/

namespace Sys2Proof.Machine

variable {s : State} {m : Mod} {h : Hdr} {i op : Nat}

/-! ### Admission -/

/-- What the admission of a message of a proved session comes to (R758 to R760). -/
theorem admission_proved (hr : Reaches m h) (hslot : slotOf m h.session = some i) (htag : h.tagOk = true) (h2 : (sess m i).state = 2) :
    admission m h op =
      match (sess m i).stored.find? fun r => r.sequence == h.sequence && r.cipher == h.cipher with
      | some r => .stop (r.reply.foldl send m)
      | none =>
        if h.sequence ≤ (sess m i).hi then
          .stop (setSess ((replyMsgs h op 0x6003 (sess m i).sent (sess m i).id [[]]).foldl send m) i { sess m i with sent := (sess m i).sent + 1 })
        else if (sess m i).hi + 65536 < h.sequence then
          .stop (setSess ((replyMsgs h op 0x6002 (sess m i).sent (sess m i).id [[]]).foldl send m) i { sess m i with sent := (sess m i).sent + 1 })
        else if h.bpid != (if (sess m i).role = 3 then (sess m i).bpid else 0) then
          .stop (replySealed (accept m h i) i (sess m i).id (sess m i).sent h op 0x1006 [[]])
        else .go (accept m h i) i := by
  obtain ⟨harr, hrun, hst, hpilot, hv, hres, hl⟩ := hr
  unfold admission
  have hproved : ¬((sess m i).state != 2) = true := by rw [h2]; decide
  simp only [harr, hst, hrun, hv, hres, hl, serving, hpilot, hslot, htag, hproved, Bool.not_true, Bool.false_eq_true, if_false, Bool.and_true,
    beq_self_eq_true, bne_self_eq_false, Bool.or_false]
  rfl

theorem serve_stop {n : Mod} (ha : admission s.mod h op = .stop n) (act : State → Nat → State × Nat × List Octets) : serve s h op act = s.upd n := by
  unfold serve
  rw [ha]

/-- A request that repeats a stored one is answered by the stored reply (R759). -/
theorem serve_repeated (hr : Reaches s.mod h) (hslot : slotOf s.mod h.session = some i) (htag : h.tagOk = true) (h2 : (sess s.mod i).state = 2)
    {r : Stored} (hf : (sess s.mod i).stored.find? (fun r => r.sequence == h.sequence && r.cipher == h.cipher) = some r)
    (act : State → Nat → State × Nat × List Octets) : serve s h op act = s.upd (r.reply.foldl send s.mod) :=
  serve_stop (by rw [admission_proved hr hslot htag h2, hf]) act

/-- The module once a request out of turn is answered (R760). -/
def outOfTurn (m : Mod) (h : Hdr) (op i : Nat) : Mod :=
  setSess (send m { path := h.path, dst := h.src, op, session := (sess m i).id, sequence := (sess m i).sent + 1,
                    status := if h.sequence ≤ (sess m i).hi then 0x6003 else 0x6002, reference := h.sequence % 2 ^ 32 })
    i { sess m i with sent := (sess m i).sent + 1 }

/-- A request whose SEQUENCE is not above the highest accepted, or too far above it, is answered and not carried out (R760). -/
theorem serve_outOfTurn (hr : Reaches s.mod h) (hslot : slotOf s.mod h.session = some i) (htag : h.tagOk = true) (h2 : (sess s.mod i).state = 2)
    (hnew : ∀ r ∈ (sess s.mod i).stored, ¬(r.sequence = h.sequence ∧ r.cipher = h.cipher))
    (hout : h.sequence ≤ (sess s.mod i).hi ∨ (sess s.mod i).hi + 65536 < h.sequence) (act : State → Nat → State × Nat × List Octets) :
    serve s h op act = s.upd (outOfTurn s.mod h op i) := by
  have hf : (sess s.mod i).stored.find? (fun r => r.sequence == h.sequence && r.cipher == h.cipher) = none :=
    List.find?_eq_none.mpr fun r hr' => by simpa using hnew r hr'
  refine serve_stop ?_ act
  rw [admission_proved hr hslot htag h2, hf]
  dsimp only
  unfold outOfTurn
  by_cases hlow : h.sequence ≤ (sess s.mod i).hi
  · rw [if_pos hlow, if_pos hlow]
    rfl
  · rw [if_neg hlow, if_pos (hout.resolve_left hlow), if_neg hlow]
    rfl

/-- A message of a session not yet proved (R783). -/
theorem serve_unproved (hr : Reaches s.mod h) (hslot : slotOf s.mod h.session = some i) (htag : h.tagOk = true) (h1 : (sess s.mod i).state = 1)
    (act : State → Nat → State × Nat × List Octets) : serve s h op act = s.upd (replyPlain s.mod h op h.session 0x6002 []) := by
  obtain ⟨harr, hrun, hst, hpilot, hv, hres, hl⟩ := hr
  refine serve_stop ?_ act
  unfold admission
  simp only [harr, hst, hrun, hv, hres, hl, serving, hpilot, hslot, htag, h1, Bool.not_true, Bool.false_eq_true, if_false, Bool.and_true,
    beq_self_eq_true, bne_self_eq_false, Bool.or_false]
  rfl

/-! ### What resending changes -/

/-- Messages for the management ports are put out in their order. -/
theorem sends_out {l : List Msg} (hl : ∀ x ∈ l, ∃ k, x.path = .mgmt k) (m : Mod) : (l.foldl send m).out = m.out ++ l.map .message := by
  induction l generalizing m with
  | nil => exact (List.append_nil _).symm
  | cons x r ih =>
    obtain ⟨k, hk⟩ := hl x List.mem_cons_self
    have hx : (send m x).out = m.out ++ [.message x] := by
      unfold send
      rw [hk]
      rfl
    rw [List.foldl_cons, ih fun y hy => hl y (List.mem_cons_of_mem _ hy), hx, List.append_assoc]
    rfl

theorem exec_write {recs : List ValueRec} (hw : (Instr.write h recs).wf = true) :
    exec (.write h recs) s = .next (finish (serve s h 0x11 (writeAct recs))) :=
  run_wf "WRITE" _ s (fun s => serve s h 0x11 (writeAct recs)) hw

/-- Settles O12: admission stops each request that repeats, lies below or lies too far above, before what it asks is looked at. -/
theorem requestsOutOfTurnAreNotCarriedOut : Obligations.RequestsOutOfTurnAreNotCarriedOut := by
  refine ⟨fun s h op i act hr hslot htag h2 => ⟨fun r hf => serve_repeated hr hslot htag h2 hf act, fun hnew hout => ?_⟩,
    fun s h i hw hr hslot htag h1 => ?_, fun s h i recs r hw hr hslot htag h2 hf => ?_⟩
  · refine ⟨outOfTurn s.mod h op i, serve_outOfTurn hr hslot htag h2 hnew hout act, ?_⟩
    have hown : sess (outOfTurn s.mod h op i) i = { sess s.mod i with sent := (sess s.mod i).sent + 1 } := sess_setSess_same _ i _
    refine ⟨send_obj .., by rw [hown], by rw [hown], fun j hj => ?_, sent_send s.mod _⟩
    rw [outOfTurn, sess_setSess_ne _ _ hj, sess_send]
  · refine ⟨_, run_wf "COMMIT" _ s (fun s => serve s h 0x14 (commitAct false)) hw, ?_⟩
    rw [serve_unproved hr hslot htag h1]
    refine ⟨sent_finish_replyPlain s h _ _ _ _ rfl rfl rfl, ?_⟩
    rw [finish_mod, State.upd_mod, settleOver_obj]
    exact send_obj ..
  · refine ⟨_, exec_write hw, ?_⟩
    rw [serve_repeated hr hslot htag h2 hf, finish_otp, finish_flash, finish_mod, State.upd_mod, settleOver_obj, settleOver_tether,
      settleOver_assocs, settleOver_keks, settleOver_out, sess_settleOver]
    refine ⟨by simp, rfl, rfl, by simp, fun j => by rw [sess_sends], by simp, by simp, fun hl => sends_out hl _⟩

/-! ### What reading leaves of the sessions -/

/-- A session without what reading changes of it: the words latched, the indirect address and the report (R810, R819, R929). -/
def seat (x : Sess) : Sess := { x with latch := [], indirect := 0, report := [], reportSig := [] }

/-- From one module to another the sessions have only been read in. -/
structure OnlyRead (m n : Mod) : Prop where
  seats : ∀ j, seat (sess n j) = seat (sess m j)

namespace OnlyRead

variable {m n k : Mod}

theorem refl (m : Mod) : OnlyRead m m := ⟨fun _ => rfl⟩

theorem trans (h : OnlyRead m n) (h' : OnlyRead n k) : OnlyRead m k := ⟨fun j => (h'.seats j).trans (h.seats j)⟩

theorem of_mgmt (h : n.mgmt.sessions = m.mgmt.sessions) : OnlyRead m n := ⟨fun j => by unfold sess; rw [h]⟩

theorem bump (m : Mod) (idx sub e n : Nat) : OnlyRead m (bump m idx sub e n) := of_mgmt (by rw [bump_mgmt])

theorem setSess (m : Mod) (i : Nat) {x : Sess} (hx : seat x = seat (sess m i)) : OnlyRead m (setSess m i x) where
  seats j := by
    by_cases hj : j = i
    · subst hj
      rw [sess_setSess_same, hx]
    · rw [sess_setSess_ne m x hj]

theorem ite {c : Prop} [Decidable c] (hn : OnlyRead m n) (hk : OnlyRead m k) : OnlyRead m (if c then n else k) := by
  split
  · exact hn
  · exact hk

theorem raiseOnce (m : Mod) (code unit src bpid : Nat) (ps : Octets) : OnlyRead m (raiseOnce m code unit src bpid ps) :=
  of_mgmt (by rw [raiseOnce_eq])

theorem refuseAccess (m : Mod) (h master : Nat) (r : Option Nat) (n : Nat) : OnlyRead m (refuseAccess m h master r n) := by
  unfold Machine.refuseAccess
  exact .ite (bump ..) (.trans (bump ..) (raiseOnce ..))

theorem refusedRead (m : Mod) (a : Addr) : OnlyRead m (refusedRead m a) := by
  unfold Machine.refusedRead
  refine .ite (refl m) (.ite (.ite (refuseAccess ..) (refl m)) (.ite ?_ (refl m)))
  dsimp only
  split
  · exact .ite (refuseAccess ..) (refl m)
  · exact refl m

end OnlyRead

/-- The module an access to a register leaves. -/
def Reach.mod : Reach → Mod
  | .ok _ m => m
  | .fail _ _ m => m

namespace OnlyRead

theorem busError (m : Mod) (h addr : Nat) : OnlyRead m (busError m h addr).mod := .trans (.bump m 0xE000 4 0 1) (.of_mgmt rfl)

theorem readLatched (m : Mod) (slot key base : Nat) (words : List Nat) : OnlyRead m (readLatched m slot key base words).mod := by
  unfold Machine.readLatched
  dsimp only
  split
  · exact setSess m slot rfl
  · split <;> exact refl m

theorem countNow (m : Mod) (l : Nat) : OnlyRead m (countNow m l) := by
  have start : OnlyRead m { m with counted := tset 0 m.counted l m.sys.elapsed } := of_mgmt rfl
  have add (n : Mod) (sub : Nat) : OnlyRead n (Machine.bump n 0x3000 sub l (Config.laneErrors sub l n.sys.elapsed)) := bump ..
  have errors := OnlyRead.trans (.trans (start.trans (add _ 6)) (add _ 7)) (add _ 8)
  unfold Machine.countNow countLane
  exact .ite (refl m) (.ite (.trans (.ite errors start) (add _ 0x0A)) (.ite errors start))

theorem countShown (m : Mod) (fields : List (Nat × Nat × Nat × Nat × Nat)) : OnlyRead m (countShown m fields) :=
  List.foldlRecOn (motive := OnlyRead m) fields _ (refl m) fun n hn _ _ => hn.trans (.ite (countNow ..) (refl n))

theorem windowRead (s : State) (slot h addr : Nat) : OnlyRead s.mod (windowRead s slot h addr).mod := by
  have iteMod {c : Prop} [Decidable c] {a b : Reach} (ha : OnlyRead s.mod a.mod) (hb : OnlyRead s.mod b.mod) :
      OnlyRead s.mod (if c then a else b).mod := by
    split
    · exact ha
    · exact hb
  unfold Machine.windowRead
  refine iteMod (refl _) ?_
  dsimp only
  split
  · exact busError ..
  · refine iteMod (refl _) (iteMod (refl _) (iteMod (refl _) (iteMod (busError ..) ?_)))
    split
    · exact busError ..
    · exact (countShown ..).trans (readLatched ..)

theorem stepIndirect (m : Mod) (slot : Nat) : OnlyRead m (stepIndirect m slot) := setSess m slot rfl

theorem indirectRead (m : Mod) (slot : Nat) : OnlyRead m (indirectRead m slot).mod := by
  have moved {r : Reach} (hr : OnlyRead m r.mod) : OnlyRead m (match r with
      | .ok v m1 => Reach.ok v (Machine.stepIndirect m1 slot)
      | .fail st vs m1 => .fail st vs m1).mod := by
    cases r with
    | ok v m1 => exact OnlyRead.trans hr (stepIndirect m1 slot)
    | fail st vs m1 => exact hr
  unfold Machine.indirectRead
  refine moved ?_
  split
  · split
    · exact readLatched ..
    · exact busError ..
  · split
    · exact busError ..
    · split
      · exact refl m
      · split
        · exact refl m
        · exact busError ..

theorem newReport (s : State) (slot : Nat) (digest : Octets) : OnlyRead s.mod (newReport s slot digest).1.mod := by
  have made (r : Octets) : OnlyRead s.mod
      (Machine.setSess s.mod slot { sess s.mod slot with report := r, reportSig := Config.slhSign (birthSecret s.otp) r }) :=
    setSess s.mod slot (x := { sess s.mod slot with report := r, reportSig := Config.slhSign (birthSecret s.otp) r }) rfl
  unfold Machine.newReport
  dsimp only
  split
  · exact refl _
  · split
    · exact refl _
    · exact (made (reportBytes s slot digest)).trans (of_mgmt rfl)

theorem readValue (s : State) (slot : Nat) (a : Addr) : OnlyRead s.mod (readValue s slot a).1.mod := by
  have reached (r : Reach) (hr : OnlyRead s.mod r.mod) : OnlyRead s.mod (match r with
      | .ok w m => ((s.upd m, .ok (.nat w)) : State × Except (Nat × List Nat) Val)
      | .fail st vs m => (s.upd m, .error (st, vs))).1.mod := by
    cases r with
    | ok w m => exact hr
    | fail st vs m => exact hr
  unfold Machine.readValue
  split
  · split
    · next r n hr =>
      unfold takeCapture at hr
      split at hr
      · cases hr
      · cases hr
        exact of_mgmt rfl
    · exact refl _
  · dsimp only
    split <;> exact countNow ..
  · exact reached _ (windowRead ..)
  · exact reached _ (windowRead ..)
  · exact reached _ (indirectRead ..)
  · dsimp only
    split <;> exact newReport ..
  · split <;> exact refl _

theorem readEntry (s : State) (slot : Nat) (a : Addr) : OnlyRead s.mod (readEntry s slot a).1.mod := by
  have refused (u : State) (hu : OnlyRead s.mod u.mod) (st : Nat) : OnlyRead s.mod (if st = 0x1002 then u.upd (Machine.refusedRead u.mod a) else u).mod := by
    split
    · exact hu.trans (refusedRead ..)
    · exact hu
  have value := readValue s slot a
  unfold Machine.readEntry
  split
  · exact refused s (refl _) _
  · split
    · next hv => rw [hv] at value; exact value
    · next hv => rw [hv] at value; exact refused _ value _

theorem readAll (slot : Nat) (l : List Addr) (s : State) : OnlyRead s.mod (readAll slot s l).1.mod := by
  induction l generalizing s with
  | nil => exact refl _
  | cons a l ih => exact (readEntry s slot a).trans (ih _)

end OnlyRead

/-! ### Accepted requests -/

/-- A request whose act only reads is answered, and its reply stored, with its SEQUENCE (R758, R764). -/
theorem serve_onlyRead {act : State → Nat → State × Nat × List Octets} (ha : Accepted s.mod h i)
    (hact : OnlyRead (accept s.mod h i) (act (s.upd (accept s.mod h i)) i).1.mod) (hb : (act (s.upd (accept s.mod h i)) i).2.2 ≠ []) :
    (sess (finish (serve s h op act)).mod i).hi = h.sequence ∧
      Answered (finish (serve s h op act)).mod i h.sequence (act (s.upd (accept s.mod h i)) i).2.1 := by
  have hseat := hact.seats i
  have hstate := congrArg Sess.state hseat
  have hid := congrArg Sess.id hseat
  have hhi := congrArg Sess.hi hseat
  simp only [seat, sess_accept_same] at hstate hid hhi
  rw [serve_accepted _ _ _ i _ ha]
  obtain ⟨-, -, -, h2, -⟩ := ha
  refine ⟨?_, (wrote_replySealed hb (hstate.trans h2) hid).answered⟩
  rw [finish_mod, sess_settleOver, State.upd_mod, sess_replySealed_same _ _ _ _ _ _ _ _ (hstate.trans h2) hid]
  exact hhi

theorem exec_read {addrs : List Addr} (hw : (Instr.read h addrs).wf = true) : exec (.read h addrs) s = .next (finish (serve s h 0x10 (readAct addrs))) :=
  run_wf "READ" _ s (fun s => serve s h 0x10 (readAct addrs)) hw

theorem exec_readElements {first : Addr} {count : Nat} (hw : (Instr.readElements h first count).wf = true) :
    exec (.readElements h first count) s = .next (finish (serve s h 0x12 (readElementsAct first count))) :=
  run_wf "READ_ELEMENTS" _ s (fun s => serve s h 0x12 (readElementsAct first count)) hw

theorem exec_subscribe {filters : List (Nat × Nat)} (hw : (Instr.subscribe h filters).wf = true) :
    exec (.subscribe h filters) s = .next (finish (serve s h 0x20 (subscribeAct filters))) :=
  run_wf "SUBSCRIBE" _ s (fun s => serve s h 0x20 (subscribeAct filters)) hw

theorem readAct_eq {addrs : List Addr} (h0 : 0 < addrs.length) (h64 : addrs.length ≤ 64) (s : State) (slot : Nat) :
    readAct addrs s slot = ((readAll slot s addrs).1, 0, splitBody [] (readAll slot s addrs).2) := by
  have hne : ¬(addrs = [] ∨ 64 < addrs.length) := by
    rintro (rfl | hlong)
    · exact absurd h0 (by decide)
    · omega
  rw [readAct, if_neg hne]

theorem readElementsAct_eq {first : Addr} {count : Nat} (h0 : 0 < count) (h1024 : count ≤ 1024) (s : State) (slot : Nat) :
    readElementsAct first count s slot =
      ((readAll slot s ((List.range count).map fun i => { first with elem := first.elem + i })).1, 0,
        splitBody [] (readAll slot s ((List.range count).map fun i => { first with elem := first.elem + i })).2) := by
  rw [readElementsAct, if_neg (by omega)]

/-- The filters of a session after its SUBSCRIBE (R787). -/
def subscribed (m : Mod) (i : Nat) (filters : List (Nat × Nat)) : Mod :=
  { m with ev := { m.ev with subs := tins i { tget ({} : Sub) m.ev.subs i with filters, role := (sess m i).role, bpid := (sess m i).bpid, session := (sess m i).id } (tdel m.ev.subs i) } }

theorem subscribeAct_eq {filters : List (Nat × Nat)} (h16 : filters.length ≤ 16) (s : State) (slot : Nat) :
    subscribeAct filters s slot = (s.upd (subscribed s.mod slot filters), 0, [[]]) := by
  rw [subscribeAct, if_neg (by omega)]
  rfl

/-! ### What events leave of the subscriptions -/

/-- What a session has subscribed to, without its queue (R787). -/
def Sub.terms (x : Sub) : List (Nat × Nat) × Nat × Nat := (x.filters, x.role, x.bpid)

theorem Sub.terms_offer (x : Sub) (r : EvRec) : (x.offer r).1.terms = x.terms := by
  unfold Sub.offer
  split
  · rfl
  · split <;> rfl

/-- The value of a key in a table whose values have been changed in place. -/
theorem tget_map {α β : Type} (f : α → β) (d : α) (t : Tbl α) (k : Nat) : tget (f d) (t.map fun x => (x.1, f x.2)) k = f (tget d t k) := by
  induction t with
  | nil => rfl
  | cons x t ih =>
    rw [List.map_cons, tget, tget]
    split
    · rfl
    · exact ih

/-- The terms of the subscription of a session. -/
def termsAt (e : Ev) (i : Nat) : List (Nat × Nat) × Nat × Nat := (tget ({} : Sub) e.subs i).terms

theorem termsAt_offerAll (e : Ev) (r : EvRec) (i : Nat) : (tget ({} : Sub) (offerAll e.subs r).1 i).terms = termsAt e i :=
  (congrArg Sub.terms (tget_map (fun x : Sub => (x.offer r).1) {} e.subs i)).trans (Sub.terms_offer ..)

/-- Taking a record changes no subscription's terms. -/
theorem termsAt_take (m : Mod) (i n : Nat) (e : Ev) (r : EvRec) : termsAt (take m n e r) i = termsAt e i := by
  induction n generalizing e r with
  | zero => rfl
  | succ n ih =>
    unfold take
    dsimp only
    rw [foldl_keeps (fun e : Ev => termsAt e i)]
    · rw [foldl_keeps (fun e : Ev => termsAt e i)]
      · split
        · exact (ih ..).trans (termsAt_offerAll e r i)
        · exact termsAt_offerAll e r i
      · exact fun _ _ => (ih ..).trans rfl
    · intro x hr
      split
      · exact (ih ..).trans rfl
      · rfl

theorem termsAt_record (m : Mod) (i : Nat) (e : Ev) (r : EvRec) : termsAt (record m e r) i = termsAt e i := by
  have either {c : Prop} [Decidable c] {a b : Ev} (ha : termsAt a i = termsAt e i) (hb : termsAt b i = termsAt e i) :
      termsAt (if c then a else b) i = termsAt e i := by
    split
    · exact ha
    · exact hb
  exact either (termsAt_take ..) (either (either (either rfl rfl) (either rfl rfl)) rfl)

theorem termsAt_raise (m : Mod) (code src bpid : Nat) (ps : Octets) (i : Nat) : termsAt (raise m code src bpid ps).ev i = termsAt m.ev i :=
  termsAt_record ..

theorem termsAt_settleOver (m : Mod) (i : Nat) : termsAt (settleOver m).ev i = termsAt m.ev i := by
  refine foldl_keeps (fun m : Mod => termsAt m.ev i) _ (fun n e => ?_) (m.overs.map (·.1)) m
  refine foldl_keeps (fun m : Mod => termsAt m.ev i) (fun m r => clearOver m e r) (fun n r => ?_) [1, 2, 3, 4, 5, 6] n
  unfold clearOver
  split
  · exact termsAt_raise ..
  · rfl

/-- The terms of a session that has just subscribed. -/
theorem termsAt_subscribed (m : Mod) (i : Nat) (filters : List (Nat × Nat)) :
    termsAt (subscribed m i filters).ev i = (filters, (sess m i).role, (sess m i).bpid) :=
  congrArg Sub.terms (tget_tins_same ({} : Sub) (tdel m.ev.subs i) i _ (tdel_key_ne m.ev.subs i))

/-- Settles O13: what a read changes of a session is not what answers it, so that each of the three is answered in its slot. -/
theorem acceptedReadsAreAnsweredAndStored : Obligations.AcceptedReadsAreAnsweredAndStored := by
  refine ⟨fun s h i addrs hw ha h0 h64 => ?_, fun s h i first count hw ha h0 h1024 => ?_, fun s h i filters hw ha h16 => ?_⟩
  · have hact := readAct_eq h0 h64 (s.upd (accept s.mod h i)) i
    obtain ⟨hhi, hans⟩ := serve_onlyRead (op := 0x10) (act := readAct addrs) ha (by rw [hact]; exact OnlyRead.readAll _ _ (s.upd (accept s.mod h i)))
      (by rw [hact]; exact splitBody_ne_nil [] _)
    exact ⟨_, exec_read hw, hhi, by rwa [hact] at hans⟩
  · have hact := readElementsAct_eq (first := first) h0 h1024 (s.upd (accept s.mod h i)) i
    obtain ⟨hhi, hans⟩ := serve_onlyRead (op := 0x12) (act := readElementsAct first count) ha (by rw [hact]; exact OnlyRead.readAll _ _ (s.upd (accept s.mod h i)))
      (by rw [hact]; exact splitBody_ne_nil [] _)
    exact ⟨_, exec_readElements hw, hhi, by rwa [hact] at hans⟩
  · have hact := subscribeAct_eq h16 (s.upd (accept s.mod h i)) i
    obtain ⟨hhi, hans⟩ := serve_onlyRead (op := 0x20) (act := subscribeAct filters) ha (by rw [hact]; exact OnlyRead.of_mgmt rfl)
      (by rw [hact]; exact List.cons_ne_nil _ _)
    have hterms : termsAt (finish (serve s h 0x20 (subscribeAct filters))).mod.ev i = (filters, (sess s.mod i).role, (sess s.mod i).bpid) := by
      rw [serve_accepted _ _ _ i _ ha, hact, finish_mod, termsAt_settleOver, State.upd_mod, replySealed_ev, State.upd_mod, termsAt_subscribed,
        State.upd_mod, sess_accept_same]
    refine ⟨_, exec_subscribe hw, hhi, by rwa [hact] at hans, congrArg Prod.fst hterms, congrArg (·.2.1) hterms, congrArg (·.2.2) hterms⟩

end Sys2Proof.Machine
end

