-- ==== Sys2Proof/Proofs/PendingWrites.lean ====
section
/-! PROOFS. WRITE and WRITE_ELEMENTS (R775, R777 to R779): the pending set, the first refusal, and strides. -/

namespace Sys2Proof.Machine

variable {s : State} {h : Hdr} {i : Nat}

/-! ### The reply of a session -/

/-- A reply changes of a session its number of messages and its stored replies alone. -/
theorem pend_replySealed (m : Mod) (slot id sent : Nat) (h : Hdr) (op status : Nat) (bodies : List Octets) :
    (sess (replySealed m slot id sent h op status bodies) slot).pend = (sess m slot).pend := by
  by_cases hs : (sess m slot).state = 2 ∧ (sess m slot).id = id
  · obtain ⟨h2, hid⟩ := hs
    rw [sess_replySealed_same m slot id sent h op status bodies h2 hid]
  · unfold replySealed
    dsimp only
    rw [if_neg (by rw [sess_sends]; exact hs), sess_sends]

/-! ### Records in order -/

/-- A module with another pending set of a session. -/
def withPend (m : Mod) (i : Nat) (p : Tbl Val) : Mod := setSess m i { sess m i with pend := p }

theorem sess_withPend (m : Mod) (i : Nat) (p : Tbl Val) : sess (withPend m i p) i = { sess m i with pend := p } := sess_setSess_same ..

/-- A record kept pending (R778, R779). -/
def pendWith (x : Tbl Val) (a : Addr) (v : Val) : Tbl Val := tins (okey a.idx a.sub a.elem) v (tdel x (okey a.idx a.sub a.elem))

theorem writeRecord_entered {r : ValueRec} {o : Obj} {v : Val} (hchk : recordCheck s.mod i r = .ok (o, v)) (hacc : o.acc = .rwc)
    (hroom : (tfind (sess s.mod i).pend (okey r.addr.idx r.addr.sub r.addr.elem)).isSome = true ∨ (sess s.mod i).pend.length < 4096) :
    writeRecord s i r = { s := s.upd (withPend s.mod i (pendWith (sess s.mod i).pend r.addr v)) } := by
  unfold writeRecord toPending
  rw [hchk]
  dsimp only
  rw [if_pos hacc, if_neg]
  · rfl
  · rintro ⟨hnone, hfull⟩
    obtain hsome | hlt := hroom
    · rw [Option.isNone_iff_eq_none] at hnone
      rw [hnone] at hsome
      cases hsome
    · omega

theorem writeRecord_full {r : ValueRec} {o : Obj} {v : Val} (hchk : recordCheck s.mod i r = .ok (o, v)) (hacc : o.acc = .rwc)
    (hnone : tfind (sess s.mod i).pend (okey r.addr.idx r.addr.sub r.addr.elem) = none) (hfull : 4096 ≤ (sess s.mod i).pend.length) :
    writeRecord s i r = { s, refuse := some { status := 0x3001, addr := r.addr, vals := [4096] } } := by
  unfold writeRecord toPending
  rw [hchk]
  dsimp only
  rw [if_pos hacc, if_pos ⟨by rw [hnone]; rfl, hfull⟩]

theorem writeRecord_refused {r : ValueRec} {e : Refuse} (hchk : recordCheck s.mod i r = .error e) :
    writeRecord s i r = { s, refuse := some e } := by
  unfold writeRecord
  rw [hchk]

/-- A set with room, or with a record of the object, keeps to its limit (R779). -/
theorem length_pendWith {x : Tbl Val} {a : Addr} (v : Val) (hroom : (tfind x (okey a.idx a.sub a.elem)).isSome = true ∨ x.length < 4096)
    (hx : x.length ≤ 4096) : (pendWith x a v).length ≤ 4096 := by
  have grown (t : Tbl Val) (k : Nat) : (tins k v t).length = t.length + 1 := by
    induction t with
    | nil => rfl
    | cons e t ih =>
      unfold tins
      split
      · rfl
      · rw [List.length_cons, ih, List.length_cons]
  have shrunk (t : Tbl Val) (k : Nat) : (tdel t k).length ≤ t.length := List.length_filter_le ..
  have removed (t : Tbl Val) (k : Nat) (hk : (tfind t k).isSome = true) : (tdel t k).length < t.length := by
    refine List.length_filter_lt_length_iff_exists.mpr ?_
    induction t with
    | nil => cases hk
    | cons e t ih =>
      unfold tfind at hk
      split at hk
      · next he => exact ⟨e, List.mem_cons_self, by simp [he]⟩
      · obtain ⟨y, hy, hne⟩ := ih hk
        exact ⟨y, List.mem_cons_of_mem _ hy, hne⟩
  unfold pendWith
  rw [grown]
  obtain hsome | hlt := hroom
  · have hr := removed x _ hsome
    omega
  · have hs := shrunk x (okey a.idx a.sub a.elem)
    omega

/-! ### WRITE -/

/-- What an accepted WRITE leaves where its act leaves a module with the session as it was but for its pending set. -/
structure WroteTo (s : State) (h : Hdr) (i : Nat) (p : Tbl Val) (status : Nat) (t : State) : Prop where
  pend : (sess t.mod i).pend = p
  obj : t.mod.obj = s.mod.obj
  tether : t.mod.tether = s.mod.tether
  otp : t.otp = s.otp
  flash : t.flash = s.flash
  answered : Answered t.mod i h.sequence status

/-- A WRITE of 1 to 64 records, once its records are processed (R777). -/
theorem writeAct_processed {recs : List ValueRec} {n : Nat} {u : State} {extra : Octets} {r : Option Refuse} (h0 : recs ≠ []) (h64 : recs.length ≤ 64)
    (hall : writeAll i s 0 [] recs = (u, n, extra, r)) :
    ∃ ev, writeAct recs s i = (u.upd { u.mod with ev := ev }, writeReply n extra r) := by
  obtain ⟨ev, hev⟩ := expertEvent_form s.mod u.mod i (recs.take n)
  refine ⟨ev, ?_⟩
  unfold writeAct
  rw [if_neg (by rintro (hnil | hlong); exacts [h0 hnil, absurd h64 (by omega)]), hall]
  dsimp only
  rw [hev]

theorem writeAll_refused {r : ValueRec} {rest : List ValueRec} {e : Refuse} {n : Nat} {x : Octets} (hr : writeRecord s i r = { s, refuse := some e }) :
    writeAll i s n x (r :: rest) = (s, n, x, some e) := by
  rw [writeAll, hr]

theorem writeAll_passed {r : ValueRec} {rest : List ValueRec} {u : State} {n : Nat} {x : Octets} (hr : writeRecord s i r = { s := u }) :
    writeAll i s n x (r :: rest) = writeAll i u (n + 1) x rest := by
  rw [writeAll, hr]
  dsimp only
  rw [List.append_nil]

/-! ### The cases of a WRITE -/

/-- A module that differs from an accepted message's in the pending set of its session, and in events (R778). -/
structure PendingOnly (m n : Mod) (h : Hdr) (i : Nat) (p : Tbl Val) : Prop where
  sess : sess n i = { sess (accept m h i) i with pend := p }
  obj : n.obj = m.obj
  tether : n.tether = m.tether

theorem pendingOnly_withPend (m : Mod) (h : Hdr) (i : Nat) (p : Tbl Val) (ev : Ev) : PendingOnly m { withPend (accept m h i) i p with ev := ev } h i p :=
  ⟨sess_withPend .., rfl, rfl⟩

theorem pendingOnly_accept (m : Mod) (h : Hdr) (i : Nat) (ev : Ev) : PendingOnly m { accept m h i with ev := ev } h i (sess m i).pend :=
  ⟨by rw [show Machine.sess { accept m h i with ev := ev } i = Machine.sess (accept m h i) i from rfl, sess_accept_same], rfl, rfl⟩

theorem pend_accept (m : Mod) (h : Hdr) (i : Nat) : (sess (accept m h i) i).pend = (sess m i).pend := by rw [sess_accept_same]

/-- An act that leaves all but the pending set of its session, and events, is answered with its status and bodies. -/
theorem serve_pending {op status : Nat} {p : Tbl Val} {n : Mod} {bodies : List Octets} {act : State → Nat → State × Nat × List Octets}
    (ha : Accepted s.mod h i) (hb : bodies ≠ []) (hn : PendingOnly s.mod n h i p)
    (hact : act (s.upd (accept s.mod h i)) i = (s.upd n, status, bodies)) :
    WroteTo s h i p status (finish (serve s h op act)) ∧
      (sess (finish (serve s h op act)).mod i).stored =
        ({ sequence := h.sequence, cipher := h.cipher, reply := replyMsgs h op status (sess s.mod i).sent (sess s.mod i).id bodies } ::
          (sess s.mod i).stored).take 16 := by
  obtain ⟨hsess, hobj, htether⟩ := hn
  rw [sess_accept_same] at hsess
  have hserve := serve_accepted s h op i act ha
  rw [hact] at hserve
  obtain ⟨-, -, -, h2, -⟩ := ha
  have hstate : (sess n i).state = 2 := by rw [hsess]; exact h2
  have hid : (sess n i).id = (sess s.mod i).id := by rw [hsess]
  refine ⟨⟨?_, ?_, ?_, ?_, ?_, ?_⟩, ?_⟩
  · rw [hserve, finish_mod, sess_settleOver, State.upd_mod, pend_replySealed, State.upd_mod, hsess]
  · rw [hserve, finish_mod, settleOver_obj, State.upd_mod, replySealed_obj]
    exact hobj
  · rw [hserve, finish_mod, settleOver_tether, State.upd_mod, replySealed_tether]
    exact htether
  · rw [hserve]
    rfl
  · rw [hserve]
    rfl
  · rw [hserve]
    exact (wrote_replySealed hb hstate hid).answered
  · rw [hserve, finish_mod, sess_settleOver, State.upd_mod, State.upd_mod, sess_replySealed_same _ _ _ _ _ _ _ _ hstate hid, hsess]

/-- A WRITE of one record that is kept pending (R778). -/
theorem write_entered {r : ValueRec} {o : Obj} {v : Val} (ha : Accepted s.mod h i) (hchk : recordCheck (accept s.mod h i) i r = .ok (o, v))
    (hacc : o.acc = .rwc)
    (hroom : (tfind (sess s.mod i).pend (okey r.addr.idx r.addr.sub r.addr.elem)).isSome = true ∨ (sess s.mod i).pend.length < 4096) :
    WroteTo s h i (pendWith (sess s.mod i).pend r.addr v) 0 (finish (serve s h 0x11 (writeAct [r]))) := by
  have hr := writeRecord_entered (s := s.upd (accept s.mod h i)) hchk hacc (by rwa [State.upd_mod, pend_accept])
  obtain ⟨ev, hact⟩ := writeAct_processed (List.cons_ne_nil r []) (by simp) ((writeAll_passed hr).trans rfl)
  rw [State.upd_mod, pend_accept] at hact
  exact (serve_pending ha (List.cons_ne_nil _ _) (pendingOnly_withPend s.mod h i _ ev) hact).1

/-- A WRITE of one record that is refused (R777). -/
theorem write_refused {r : ValueRec} {e : Refuse} (ha : Accepted s.mod h i)
    (hr : writeRecord (s.upd (accept s.mod h i)) i r = { s := s.upd (accept s.mod h i), refuse := some e }) :
    WroteTo s h i (sess s.mod i).pend e.status (finish (serve s h 0x11 (writeAct [r]))) ∧
      (sess (finish (serve s h 0x11 (writeAct [r]))).mod i).stored =
        ({ sequence := h.sequence, cipher := h.cipher,
           reply := replyMsgs h 0x11 e.status (sess s.mod i).sent (sess s.mod i).id [b2 0 ++ detail e.addr e.vals] } :: (sess s.mod i).stored).take 16 := by
  obtain ⟨ev, hact⟩ := writeAct_processed (List.cons_ne_nil r []) (by simp) (writeAll_refused hr)
  exact serve_pending ha (List.cons_ne_nil _ _) (pendingOnly_accept s.mod h i ev) hact

/-- A WRITE whose second record is refused (R777). -/
theorem write_second_refused {r x : ValueRec} {rest : List ValueRec} {o : Obj} {v : Val} {e : Refuse} (ha : Accepted s.mod h i)
    (h62 : rest.length ≤ 62) (hchk : recordCheck (accept s.mod h i) i r = .ok (o, v)) (hacc : o.acc = .rwc) (hroom : (sess s.mod i).pend.length < 4096)
    (hx : ∀ p, recordCheck (setSess (accept s.mod h i) i { sess (accept s.mod h i) i with pend := p }) i x = .error e) :
    WroteTo s h i (pendWith (sess s.mod i).pend r.addr v) e.status (finish (serve s h 0x11 (writeAct (r :: x :: rest)))) := by
  have hr := writeRecord_entered (s := s.upd (accept s.mod h i)) hchk hacc (.inr (by rwa [State.upd_mod, pend_accept]))
  have hall := (writeAll_passed (rest := x :: rest) (n := 0) (x := []) hr).trans (writeAll_refused (writeRecord_refused (hx _)))
  obtain ⟨ev, hact⟩ := writeAct_processed (List.cons_ne_nil r (x :: rest)) (by simp only [List.length_cons]; omega) hall
  rw [State.upd_mod, pend_accept] at hact
  exact (serve_pending ha (List.cons_ne_nil _ _) (pendingOnly_withPend s.mod h i _ ev) hact).1

/-! ### WRITE_ELEMENTS -/

theorem exec_writeElements {first : Addr} {stride : Nat} {vals : List Octets} (hw : (Instr.writeElements h first stride vals).wf = true) :
    exec (.writeElements h first stride vals) s = .next (finish (serve s h 0x13 (writeElementsAct first stride vals))) :=
  run_wf "WRITE_ELEMENTS" _ s (fun s => serve s h 0x13 (writeElementsAct first stride vals)) hw

/-- Within the limits WRITE_ELEMENTS does what a WRITE of its elements does (R775). -/
theorem writeElementsAct_eq {first : Addr} {stride : Nat} {vals : List Octets} (h0 : 0 < stride) (h4096 : stride ≤ 4096) (hv0 : 0 < vals.length)
    (hv64 : vals.length ≤ 64) : writeElementsAct first stride vals = writeAct (elementRecs first stride vals) := by
  have hlen : (elementRecs first stride vals).length = vals.length := by simp [elementRecs]
  funext u slot
  unfold writeElementsAct writeAct
  rw [if_neg (by omega), if_neg]
  rintro (hnil | hlong)
  · rw [hnil] at hlen
    exact absurd hlen.symm (Nat.ne_of_gt hv0)
  · omega

/-- Settles O14: a record kept pending replaces its set's record or finds room, and processing ends with the first that is refused. -/
theorem writesEnterThePendingSet : Obligations.WritesEnterThePendingSet := by
  refine ⟨fun s h i r hw ha => ⟨fun o v hchk hacc => ⟨fun hroom => ?_, fun hnone hfull => ?_⟩, fun e hchk => ?_⟩,
    fun s h i r x rest o v e hw ha h62 hchk hacc hroom hx => ?_,
    fun s h i first stride vals hw hw' ha => ⟨fun h0 h4096 hv0 hv64 => ?_, fun hstride => ?_⟩⟩
  · have w := write_entered ha hchk hacc hroom
    exact ⟨_, exec_write hw, w.pend, fun hle => by rw [w.pend]; exact length_pendWith v hroom hle, w.obj, w.answered⟩
  · have hr := writeRecord_full (s := s.upd (accept s.mod h i)) hchk hacc (by rwa [State.upd_mod, pend_accept]) (by rwa [State.upd_mod, pend_accept])
    obtain ⟨w, hstored⟩ := write_refused ha hr
    exact ⟨_, _, _, _, exec_write hw, w.pend, w.obj, hstored, rfl, rfl, rfl⟩
  · obtain ⟨w, -⟩ := write_refused ha (writeRecord_refused (s := s.upd (accept s.mod h i)) hchk)
    exact ⟨_, exec_write hw, w.pend, w.obj, w.tether, w.otp, w.flash, w.answered⟩
  · have w := write_second_refused ha h62 hchk hacc hroom hx
    exact ⟨_, exec_write hw, w.pend, w.obj, w.answered⟩
  · refine ⟨_, _, exec_writeElements hw, exec_write hw', ?_⟩
    rw [writeElementsAct_eq h0 h4096 hv0 hv64, serve_accepted _ _ _ i _ ha, serve_accepted _ _ _ i _ ha]
    simp [pend_replySealed]
  · have hact : writeElementsAct first stride vals (s.upd (accept s.mod h i)) i = (s.upd { accept s.mod h i with ev := (accept s.mod h i).ev }, 0x2001, [[]]) := by
      rw [writeElementsAct, if_pos (by omega)]
    have w := (serve_pending (op := 0x13) ha (List.cons_ne_nil _ _) (pendingOnly_accept s.mod h i _) hact).1
    exact ⟨_, exec_writeElements hw, w.obj, w.pend, w.answered⟩

end Sys2Proof.Machine
end

