-- ==== Sys2Proof/Proofs/Paths.lean ====
section
/-! PROOFS. Relay (R733 to R737), and the management paths: MCH messages, the ports M0 and M1, waiting replies, the other pilot's take-over
(R143, R722, R729 to R732, R739, R795). -/

namespace Sys2Proof.Machine

variable {s : State} {m : Mod} {h : Hdr} {msg : Octets}

/-! ### Relay -/

theorem exec_relayMessage (hw : (Instr.relayMessage h msg).wf = true) : exec (.relayMessage h msg) s = .next (finish (s.upd (relayOut s.mod h msg))) :=
  run_wf "RELAY_MESSAGE" _ s (onMod fun m => relayOut m h msg) hw

theorem exec_relayReturn {p : Fin 64} {sid : Nat} (hw : (Instr.relayReturn p sid msg).wf = true) :
    exec (.relayReturn p sid msg) s = .next (finish (s.upd (relayBack s.mod p sid msg))) :=
  run_wf "RELAY_RETURN" _ s (onMod fun m => relayBack m p sid msg) hw

theorem exec_relayEntryLapse {p : Fin 64} {sid : Nat} (hw : (Instr.relayEntryLapse p sid).wf = true) :
    exec (.relayEntryLapse p sid) s = .next (finish (s.upd (relayLapse s.mod p sid))) :=
  run_wf "RELAY_ENTRY_LAPSE" _ s (onMod fun m => relayLapse m p sid) hw

/-- A message that names a relay port does not arrive at the module's own commands (R733). -/
theorem arrives_relay (hpath : ∀ p, h.path ≠ .mch p) (hrelay : h.relay ≠ 0xFF) : arrives m h = false := by
  unfold arrives
  cases hp : h.path with
  | mgmt k => simp [hrelay]
  | clear p => simp [hrelay]
  | mch p => exact absurd hp (hpath p)

/-- The entry of a message relayed now (R734). -/
def relayEntry (m : Mod) (h : Hdr) : Relay := { port := h.relay, session := h.session, path := h.path, src := h.src, usedAt := m.sys.elapsed }

/-- The relay table without a session's entry of a port. -/
def otherRelays (m : Mod) (h : Hdr) : List Relay := m.mgmt.relay.filter fun x => !(x.port == h.relay && x.session == h.session)

/-- A message relayed: entered in the table, counted, put on the port's channel (R733 to R735). -/
theorem relayOut_relayed (hs : serving m = true) (hr : reachable m h.path = true) (hpath : ∀ p, h.path ≠ .mch p) (hrelay : h.relay ≠ 0xFF)
    (hon : infB m 0x2000 4 0 = true) (hport : relayPort m h.relay = true) (hroom : m.mgmt.relay.length < 64) :
    relayOut m h msg = setTx (bump { m with mgmt := { m.mgmt with relay := otherRelays m h ++ [relayEntry m h] } } 0x2000 9 0 1) h.relay
      { txOf m h.relay with mchQueue := (txOf m h.relay).mchQueue ++ [msg] } := by
  have hle : (otherRelays m h).length ≤ m.mgmt.relay.length := List.length_filter_le ..
  unfold relayOut
  rw [if_neg (by simp [hs, hr, arrives_relay hpath hrelay]), if_neg (by simp [hon, hport])]
  exact if_neg (Nat.not_le.mpr (Nat.lt_of_le_of_lt hle hroom))

/-- With relay disabled, or a port not in line mode, the message is answered (R736). -/
theorem relayOut_refused (hs : serving m = true) (hr : reachable m h.path = true) (hpath : ∀ p, h.path ≠ .mch p) (hrelay : h.relay ≠ 0xFF)
    (hoff : infB m 0x2000 4 0 = false ∨ relayPort m h.relay = false) :
    relayOut m h msg = replyPlain m h (natAt msg 1 1) h.session 0x4002 [] := by
  unfold relayOut
  rw [if_neg (by simp [hs, hr, arrives_relay hpath hrelay]), if_pos]
  obtain hon | hport := hoff
  · simp [hon]
  · simp [hport]

/-- The entry a return comes back to is used anew (R737). -/
def relayUsed (m : Mod) (port session : Nat) : Mod :=
  { m with mgmt := { m.mgmt with relay := m.mgmt.relay.map fun x => if x.port == port && x.session == session then { x with usedAt := m.sys.elapsed } else x } }

/-- A relayed message as it waits at a clear port (R728, R737). -/
def relayedMsg (e : Relay) (session : Nat) (msg : Octets) : Msg :=
  { path := e.path, dst := e.src, op := natAt msg 1 1, session, sequence := natAt msg 8 8, status := natAt msg 20 2, reference := natAt msg 28 4,
    isReply := (natAt msg 2 2).testBit 15, body := [], raw := some msg }

/-- A return goes to its entry's path (R737). -/
theorem relayBack_found {port session : Nat} {e : Relay} (hs : serving m = true)
    (hf : m.mgmt.relay.find? (fun x => x.port == port && x.session == session) = some e) :
    relayBack m port session msg = match e.path with
      | .clear p => sendLater (relayUsed m port session) p.val (relayedMsg e session msg)
      | path => emit (relayUsed m port session) (.relayed path e.src msg) := by
  unfold relayBack
  rw [hf]
  exact if_neg (by simp [hs])

/-- Settles O16: the relay table names the path of a session's messages over a port, for the way out and the way back. -/
theorem relayForwardsAndReturns : Obligations.RelayForwardsAndReturns := by
  refine ⟨fun s h msg hw hs hr hpath hrelay => ⟨fun hon hport hroom => ?_, fun hoff => ?_⟩, fun s p sid msg e hw hs hf => ?_, fun s p sid e hw hf => ?_⟩
  · refine ⟨_, relayEntry s.mod h, exec_relayMessage hw, ?_⟩
    rw [relayOut_relayed hs hr hpath hrelay hon hport hroom]
    refine ⟨?_, ?_, rfl, rfl, rfl, rfl, rfl, fun j => ?_⟩
    · rw [finish_mod, State.upd_mod, txOf, settleOver_tx]
      exact congrArg GelTx.mchQueue (txOf_setTx_same (bump _ 0x2000 9 0 1) h.relay _)
    · rw [finish_mod, State.upd_mod, settleOver_mgmt, setTx_mgmt, bump_mgmt]
      exact List.getLast?_concat
    · rw [finish_mod, State.upd_mod, sess_settleOver, sess_setTx, sess, bump_mgmt]
      rfl
  · refine ⟨_, exec_relayMessage hw, ?_⟩
    rw [relayOut_refused hs hr hpath hrelay hoff]
    exact ⟨sent_finish_replyPlain s h _ _ _ _ rfl rfl rfl, by rw [finish_mod, State.upd_mod, settleOver_mgmt]; exact send_mgmt_relay ..⟩
  · refine ⟨_, exec_relayReturn hw, ?_⟩
    rw [relayBack_found hs hf]
    refine ⟨fun k hk => ?_, fun c hc => ?_⟩
    · rw [finish_mod, State.upd_mod, settleOver_out, hk]
      rfl
    · rw [finish_mod, State.upd_mod, settleOver_out, settleOver_mgmt, hc]
      refine ⟨rfl, relayedMsg e sid msg, rfl, hc, rfl, ?_⟩
      exact congrArg Intercept.replies (tget_tset_same ({} : Intercept) s.mod.mgmt.icept c.val _)
  · refine ⟨_, exec_relayEntryLapse hw, ?_⟩
    rw [finish_mod, State.upd_mod, settleOver_mgmt, settleOver_sys]
    unfold relayLapse
    rw [hf]
    refine ⟨List.find?_eq_none.mpr fun x hx => ?_, le_advanceTo_elapsed s.mod _⟩
    have hne := (List.mem_filter.mp hx).2
    simpa [imp_iff_not_or] using hne

/-! ### Messages of MCH -/

theorem exec_mchMessageReceive {p : Fin 64} {keyed : Bool} (hrun : s.mod.sys.running = true) :
    exec (.mchMessageReceive p msg keyed) s = .next (finish (s.upd (mchReceive s.mod p msg keyed))) := by
  refine (run_wf "MCH_MESSAGE_RECEIVE" (.mchMessageReceive p msg keyed) s (whileOn (onMod fun m => mchReceive m p msg keyed)) rfl).trans ?_
  rw [whileOn, if_pos hrun]
  rfl

/-- A message that a port in SYNC has reassembled and a running pilot takes (R143, R144). -/
theorem mchReceive_taken {p : Nat} {keyed : Bool} (hp : pilotUp m (harbourOf p) = true) (hf : framing m p = true) (hst : (rxOf m p).st = 2)
    (hmsg : msg ≠ []) (hlen : msg.length ≤ 9216) (hok : mchLengthOk msg = true) : mchReceive m p msg keyed = mchMessage m p msg keyed := by
  unfold mchReceive
  rw [if_neg (by simp [hp, hf, hst, hmsg]), if_neg (by omega), if_pos hok]

/-- A message that is neither Camanent nor a report has no length of its own (R144, R732). -/
theorem mchLengthOk_other {b : Byte} (h1 : b ≠ 0x01) (hff : b ≠ 0xFF) : mchLengthOk (b :: msg) = true := by
  unfold mchLengthOk
  split
  · next heq => exact absurd (List.cons.inj heq).1 h1
  · next heq => exact absurd (List.cons.inj heq).1 hff
  · rfl

theorem mchMessage_other {p : Nat} {keyed : Bool} {b : Byte} (h1 : b ≠ 0x01) (hff : b ≠ 0xFF) :
    mchMessage m p (b :: msg) keyed = bump m 0x2000 0x0B 0 1 := by
  unfold mchMessage
  split
  · next heq => exact absurd (List.cons.inj heq).1 h1
  · next heq => exact absurd (List.cons.inj heq).1 hff
  · rfl

/-! ### The management ports -/

theorem exec_mgmtPortFrame {k : Fin 2} {src : Nat} {kind : MgmtKind} (hw : (Instr.mgmtPortFrame k src kind).wf = true) :
    exec (.mgmtPortFrame k src kind) s = .next (finish (s.upd (mgmtFrame s.mod k kind))) :=
  run_wf "MGMT_PORT_FRAME" _ s (onMod fun m => mgmtFrame m k kind) hw

theorem exec_managementPortLinkChange (s : State) (k : Fin 2) (up : Bool) :
    exec (.managementPortLinkChange k up) s = .next (finish (s.upd (mgmtLink s.mod k up))) :=
  run_wf "MANAGEMENT_PORT_LINK_CHANGE" (.managementPortLinkChange k up) s (onMod fun m => mgmtLink m k up) rfl

/-- What a frame comes to on a management port that is up, enabled and served by its pilot (R722, R795). -/
theorem mgmtFrame_heard {k : Fin 2} {kind : MgmtKind} (hrun : m.sys.running = true) (hp : pilotUp m k.val = true)
    (hl : tget false m.mgmt.linkUp k.val = true) (he : infB m 0x2020 1 k.val = true) :
    mgmtFrame m k kind = if !mgmtTakes m k kind then bump m 0x2020 0x0C k 1 else match kind with
      | .camanent _ _ => bump m 0x2020 0x0B k 1
      | .ptp => m
      | a => emit m (.mgmtAnswer k a) := by
  have hreach : reachable m (.mgmt (if k.val = 1 then 1 else 0)) = true := by
    obtain rfl | rfl : k = 0 ∨ k = 1 := by omega
    · exact Bool.and_eq_true_iff.mpr ⟨hl, he⟩
    · exact Bool.and_eq_true_iff.mpr ⟨hl, he⟩
  unfold mgmtFrame
  exact if_neg (by simp [hrun, hp, hreach])

/-! ### The session pilot -/

theorem exec_sessionPilotTakeover (s : State) : exec .sessionPilotTakeover s = .next (finish (s.upd (takeover s.mod))) :=
  run_wf "SESSION_PILOT_TAKEOVER" .sessionPilotTakeover s (onMod takeover) rfl

/-- The other pilot takes over 100 ms after the stop of the session pilot (R739). -/
theorem takeover_taken (hrun : m.sys.running = true) (hdown : pilotUp m m.mgmt.pilot = false) (hup : pilotUp m (1 - m.mgmt.pilot) = true) :
    (takeover m).mgmt.pilot = 1 - m.mgmt.pilot ∧ (∀ j, sess (takeover m) j = sess m j) ∧ m.sys.pilotDownAt + 100 * msCycles ≤ (takeover m).sys.elapsed := by
  unfold takeover
  dsimp only
  rw [if_pos ⟨hrun, by simp [hdown], hup⟩]
  exact ⟨rfl, fun j => congrFun (sess_advanceTo m (m.sys.pilotDownAt + 100 * msCycles)) j, le_advanceTo_elapsed m _⟩

/-! ### Waiting replies -/

theorem exec_interceptReplySend (s : State) (p : Fin 64) : exec (.interceptReplySend p) s = .next (finish (s.upd (sendReply s.otp.serial s.mod p))) :=
  run_wf "INTERCEPT_REPLY_SEND" (.interceptReplySend p) s (fun s => s.upd (sendReply s.otp.serial s.mod p)) rfl

theorem exec_interceptReplyDiscard (s : State) (p : Fin 64) : exec (.interceptReplyDiscard p) s = .next (finish (s.upd (discardReply s.mod p))) :=
  run_wf "INTERCEPT_REPLY_DISCARD" (.interceptReplyDiscard p) s (onMod fun m => discardReply m p) rfl

/-- With no gate bank fitted no class waits for an opening. -/
theorem fittedOpenings_nil {g : Gate} (hg : ∀ d, d < 8 → (banksOf g).any (·.fits d) = false) (t : Nat) : fittedOpenings g t = [] := by
  have unfit (d : Nat) (hd : d < 8) (u : Nat) : fitsAt g d u = false := by
    have hbanks := hg d hd
    rw [banksOf, List.any_cons, Bool.or_eq_false_iff] at hbanks
    obtain ⟨hforce, hpend⟩ := hbanks
    unfold fitsAt
    split
    · next b hb =>
      rw [hb, Option.toList_some, List.any_cons, List.any_nil, Bool.or_false] at hpend
      split
      · exact hpend
      · exact hforce
    · exact hforce
  unfold fittedOpenings
  refine List.flatMap_eq_nil_iff.mpr fun d hd => List.filter_eq_nil_iff.mpr fun o _ => ?_
  rw [unfit d (List.mem_range.mp hd)]
  exact Bool.false_ne_true

/-- The first waiting reply of an idle clear port goes out (R728, R729). -/
theorem sendReply_sent {serial : Octets} {p at_ : Nat} {r : Msg} {rest : List (Nat × Msg)} (hr : (interceptOf m p).replies = (at_, r) :: rest)
    (hline : isLine p = false) (hrun : m.sys.running = true) (hup : (port m p).up = true) (hidle : pickNext m p = none)
    (hpace : (arb m p).pace ≤ m.sys.elapsed * 800000) (hage : m.sys.elapsed ≤ at_ + secCycles)
    (hg : ∀ d, d < 8 → (banksOf (gate m p)).any (·.fits d) = false) :
    (sendReply serial m p).out = m.out ++ [match r.raw with
      | some b => .relayed r.path r.dst b
      | none => .message { r with head := replyHead serial m p r.dst }] ∧
    (tget ({} : Intercept) (sendReply serial m p).mgmt.icept p).replies = rest := by
  unfold sendReply
  dsimp only
  rw [hr]
  dsimp only
  rw [if_neg (by simp [hline, hrun, hup, hidle, hpace, Nat.not_lt.mpr hage, fittedOpenings_nil hg])]
  refine ⟨?_, ?_⟩
  · rw [emit, bump_out]
    rfl
  · rw [emit_mgmt, bump_mgmt, setArb_mgmt]
    exact congrArg Intercept.replies (tget_tset_same ({} : Intercept) m.mgmt.icept p _)

/-- The first waiting reply of a clear port is discarded after 1 s (R730). -/
theorem discardReply_clear {p at_ : Nat} {r : Msg} {rest : List (Nat × Msg)} (hr : (interceptOf m p).replies = (at_, r) :: rest)
    (hline : isLine p = false) :
    discardReply m p = bump (setIntercept (advanceTo m (at_ + secCycles)) p { interceptOf m p with replies := rest }) 0x2030 5 p 1 := by
  unfold discardReply
  dsimp only
  rw [hr]
  dsimp only
  rw [hline]
  exact if_neg Bool.false_ne_true

/-- A reply that waits at a line port leaves in the cells alone (R143). -/
theorem sendReply_line {serial : Octets} {p : Nat} (hline : isLine p = true) : sendReply serial m p = m := by
  unfold sendReply
  dsimp only
  split
  · rfl
  · exact if_pos (by simp [hline])

theorem discardReply_line {p : Nat} (hline : isLine p = true) : discardReply m p = m := by
  unfold discardReply
  dsimp only
  split
  · rfl
  · exact if_pos hline

/-- Settles O17: each path's message is taken, answered or counted by what it is, and waits for its own way out. -/
theorem pathsTakeAnswerAndPassOver : Obligations.PathsTakeAnswerAndPassOver := by
  refine ⟨⟨fun s p b msg keyed hw hrun hp hf hst hlen => ⟨fun hb hl => ?_, fun h1 hff => ?_⟩, fun s k src kind hw hrun hp hl he =>
    ⟨fun hno => ?_, fun hyes hk => ?_, fun hyes hk => ?_⟩, fun s k up => ?_⟩, fun s hrun hle hdown hup => ?_, fun s p at_ r rest hr =>
    ⟨fun hline hrun hup hidle hpace hage hg => ?_, fun hline => ?_, fun hline => ?_⟩⟩
  · refine ⟨_, exec_mchMessageReceive hrun, ?_⟩
    subst hb
    rw [mchReceive_taken hp hf hst (List.cons_ne_nil _ _) (by simp; omega) (by simp [mchLengthOk, hl]), finish_mod, State.upd_mod, settleOver_time]
    exact congrArg Tt.got (tget_tset_same ({} : Tt) s.mod.time.tts p.val _)
  · refine ⟨_, exec_mchMessageReceive hrun, ?_⟩
    rw [mchReceive_taken hp hf hst (List.cons_ne_nil _ _) (by simp; omega) (mchLengthOk_other h1 hff), mchMessage_other h1 hff, finish_mod, State.upd_mod,
      inf_settleOver]
    exact inf_bump_same s.mod 0x2000 0x0B 0 1 _ rfl (by decide)
  · refine ⟨_, exec_mgmtPortFrame hw, ?_⟩
    rw [mgmtFrame_heard hrun hp hl he, if_pos (by simp [hno]), finish_mod, State.upd_mod, inf_settleOver, settleOver_out]
    exact ⟨inf_bump_same s.mod 0x2020 0x0C k.val 1 _ rfl (by decide), bump_out ..⟩
  · obtain ⟨q, msg, rfl⟩ := hk
    refine ⟨_, exec_mgmtPortFrame hw, ?_⟩
    rw [mgmtFrame_heard hrun hp hl he, if_neg (by simp [hyes]), finish_mod, State.upd_mod, inf_settleOver]
    exact inf_bump_same s.mod 0x2020 0x0B k.val 1 _ rfl (by decide)
  · refine ⟨_, exec_mgmtPortFrame hw, ?_⟩
    rw [mgmtFrame_heard hrun hp hl he, if_neg (by simp [hyes]), finish_mod, State.upd_mod, settleOver_out]
    rcases hk with rfl | rfl | rfl | rfl <;> rfl
  · refine ⟨_, exec_managementPortLinkChange s k up, ?_⟩
    rw [finish_mod, State.upd_mod, settleOver_mgmt]
    exact ⟨tget_tset_same false s.mod.mgmt.linkUp k.val up, fun j hj => tget_tset_ne false s.mod.mgmt.linkUp up hj⟩
  · refine ⟨_, exec_sessionPilotTakeover s, ?_⟩
    rw [finish_mod, State.upd_mod, settleOver_mgmt, settleOver_sys, sess_settleOver]
    exact takeover_taken hrun hdown hup
  · refine ⟨_, exec_interceptReplySend s p, ?_⟩
    rw [finish_mod, State.upd_mod, settleOver_out, settleOver_mgmt]
    exact sendReply_sent hr hline hrun hup hidle hpace hage hg
  · refine ⟨_, exec_interceptReplyDiscard s p, ?_⟩
    rw [discardReply_clear hr hline, finish_mod, State.upd_mod, settleOver_out, settleOver_mgmt, settleOver_sys, inf_settleOver, bump_out, bump_mgmt, bump_sys]
    refine ⟨rfl, ?_, le_advanceTo_elapsed s.mod _, ?_⟩
    · exact congrArg Intercept.replies (tget_tset_same ({} : Intercept) (advanceTo s.mod (at_ + secCycles)).mgmt.icept p.val _)
    · rw [inf_bump_same _ 0x2030 5 p.val 1 _ rfl (by decide)]
      exact congrArg (satAdd 64 · 1) (inf_advanceTo_ne s.mod _ p.val (by decide) (by decide))
  · refine ⟨_, _, exec_interceptReplySend s p, ?_, ?_, exec_interceptReplyDiscard s p, ?_, ?_⟩
    · rw [sendReply_line hline, finish_mod, State.upd_mod, settleOver_out]
    · rw [sendReply_line hline, finish_mod, State.upd_mod, settleOver_mgmt]
    · rw [discardReply_line hline, finish_mod, State.upd_mod, settleOver_out]
    · rw [discardReply_line hline, finish_mod, State.upd_mod, settleOver_mgmt]

end Sys2Proof.Machine
end

