-- ==== Sys2Proof/Proofs/ExpertAccess.lean ====
section
/-! PROOFS. Expert access: grants and the debug access ports (R799 to R804), the register window and the locator (R806 to R815), the indirect pair
(R818 to R822). -/

namespace Sys2Proof.Machine

variable {s : State} {m : Mod} {h : Hdr} {i : Nat}

/-! ### The session that is answered -/

/-- A reply changes of any session its number of messages and its stored replies at most. -/
theorem sess_replySealed_form (m : Mod) (slot id sent : Nat) (h : Hdr) (op status : Nat) (bodies : List Octets) (j : Nat) : ∃ n l,
    sess (replySealed m slot id sent h op status bodies) j = { sess m j with sent := n, stored := l } := by
  by_cases hj : j = slot
  · subst hj
    by_cases hs : (sess m j).state = 2 ∧ (sess m j).id = id
    · obtain ⟨h2, hid⟩ := hs
      exact ⟨_, _, sess_replySealed_same m j id sent h op status bodies h2 hid⟩
    · refine ⟨(sess m j).sent, (sess m j).stored, ?_⟩
      unfold replySealed
      dsimp only
      rw [if_neg (by rw [sess_sends]; exact hs), sess_sends]
  · exact ⟨(sess m j).sent, (sess m j).stored, sess_replySealed_ne m slot id sent h op status bodies hj⟩

theorem sess_answerWrite_form (s n : State) (h : Hdr) (i status : Nat) (bodies : List Octets) (j : Nat) : ∃ sent stored,
    sess (finish (answerWrite s n h i status bodies)).mod j = { sess n.mod j with sent := sent, stored := stored } := by
  rw [finish_mod, sess_settleOver, answerWrite_mod]
  exact sess_replySealed_form ..

theorem unlocked_answerWrite (s n : State) (h : Hdr) (i status : Nat) (bodies : List Octets) (e : Nat) :
    unlocked (finish (answerWrite s n h i status bodies)).mod e = unlocked n.mod e := by
  obtain ⟨sent, stored, hform⟩ := sess_answerWrite_form s n h i status bodies e
  unfold unlocked
  rw [hform, answerWrite_grants]

/-! ### The end of a grant -/

theorem inf_setNat_other (m : Mod) {idx sub c x : Nat} (elem n e : Nat) (hx : x < 256) (hsub : sub < 256) (hne : ¬(c = idx ∧ x = sub))
    (hd : (idx, sub) ∉ [(0x4000, 1), (0x4000, 2), (0x8010, 1), (0x8010, 5)]) : inf (setNat m idx sub elem n) c x e = inf m c x e :=
  inf_setNat_ne m (okey_ne e elem hx hsub hne) hd hsub

theorem closeDebug_form (m : Mod) (slot id : Nat) : ∃ debugBy ev,
    closeDebug m slot id = { m with mgmt := { m.mgmt with debugBy := debugBy }, ev := ev } ∧ debugBy.contains slot = false := by
  unfold closeDebug
  split
  · have hrest : (m.mgmt.debugBy.filter (· != slot)).contains slot = false := by simp
    dsimp only
    split
    · exact ⟨_, _, rfl, hrest⟩
    · exact ⟨_, _, rfl, hrest⟩
  · next hno => exact ⟨m.mgmt.debugBy, m.ev, rfl, by simpa using hno⟩

/-- A grant that runs ends with its session's opening of the debug access ports and both its objects (R802 to R804). -/
theorem endGrant_running {slot : Nat} {g : Nat × Nat × Nat} (hg : tget none m.mgmt.grants slot = some g) : ∃ debugBy ev,
    endGrant m slot = { setNat (setNat m 0x2040 1 slot 0) 0x2040 2 slot 0 with
      mgmt := { m.mgmt with grants := tset none m.mgmt.grants slot none, debugBy := debugBy }, ev := ev } ∧ debugBy.contains slot = false := by
  obtain ⟨debugBy, ev, hclose, hno⟩ :=
    closeDebug_form { m with mgmt := { m.mgmt with grants := tset none m.mgmt.grants slot none } } slot (sess m slot).id
  unfold endGrant
  rw [hg]
  dsimp only
  rw [hclose]
  exact ⟨_, _, rfl, hno⟩

theorem grants_endGrant (m : Mod) (slot : Nat) : tget none (endGrant m slot).mgmt.grants slot = none := by
  cases hg : tget none m.mgmt.grants slot with
  | none =>
    unfold endGrant
    rw [hg]
    exact hg
  | some g =>
    obtain ⟨debugBy, ev, hend, -⟩ := endGrant_running hg
    rw [hend]
    exact tget_tset_same none m.mgmt.grants slot none

theorem exec_expertGrantExpire {e : Fin 32} (hrun : s.mod.sys.running = true) :
    exec (.expertGrantExpire e) s = .next (finish (s.upd (expireGrant s.mod e))) := by
  refine (run_wf "EXPERT_GRANT_EXPIRE" (.expertGrantExpire e) s (whileOn (onMod fun m => expireGrant m e)) rfl).trans ?_
  rw [whileOn, if_pos hrun]
  rfl

/-- A grant whose time has passed ends (R802). -/
theorem expireGrant_ends {e : Nat} {g : Nat × Nat × Nat} (hg : tget none m.mgmt.grants e = some g) :
    tget none (expireGrant m e).mgmt.grants e = none ∧ (expireGrant m e).mgmt.debugBy.contains e = false ∧ inf (expireGrant m e) 0x2040 1 e = 0 ∧
      inf (expireGrant m e) 0x2040 2 e = 0 ∧ g.1 ≤ (expireGrant m e).sys.elapsed := by
  obtain ⟨at_, n, officer⟩ := g
  have hg' : tget none (advanceTo m at_).mgmt.grants e = some (at_, n, officer) := by rw [advanceTo_mgmt]; exact hg
  obtain ⟨debugBy, ev, hend, hno⟩ := endGrant_running hg'
  have heq : expireGrant m e = endGrant (advanceTo m at_) e := by
    unfold expireGrant
    rw [hg]
  rw [heq, hend]
  refine ⟨tget_tset_same none (advanceTo m at_).mgmt.grants e none, hno, ?_, ?_, le_advanceTo_elapsed m at_⟩
  · exact (inf_setNat_other (idx := 0x2040) (sub := 2) (c := 0x2040) (x := 1) (setNat (advanceTo m at_) 0x2040 1 e 0) e 0 e (by decide) (by decide) (by decide) (by decide)).trans
      (inf_setNat_same (advanceTo m at_) 0x2040 1 e 0 (by decide))
  · exact inf_setNat_same (setNat (advanceTo m at_) 0x2040 1 e 0) 0x2040 2 e 0 (by decide)

/-! ### The beginning of a grant -/

theorem role_accept (m : Mod) (h : Hdr) (i j : Nat) : (sess (accept m h i) j).role = (sess m j).role := by
  by_cases hj : j = i
  · subst hj
    rw [sess_accept_same]
  · rw [sess_accept_ne m h hj]

theorem exec_expertGrantWrite {e minutes : Nat} (hw : (Instr.expertGrantWrite h e minutes).wf = true) :
    exec (.expertGrantWrite h e minutes) s = .next (finish (writeRow s h 0x2040 1 (some e) (b2 minutes))) :=
  run_wf "EXPERT_GRANT_WRITE" _ s (fun s => writeRow s h 0x2040 1 (some e) (b2 minutes)) hw

theorem minutes_fit {e minutes : Nat} (hw : (Instr.expertGrantWrite h e minutes).wf = true) : minutes < 256 ^ 2 := by
  simp only [Instr.wf, fitsU, Bool.and_eq_true, decide_eq_true_eq] at hw
  omega

theorem writeRow_grant {e minutes : Nat} (hc : WriteClears s.mod h i 0x2040 1 (some e) (b2 minutes)) (hfit : minutes < 256 ^ 2) : ∃ bodies ≠ [],
    writeRow s h 0x2040 1 (some e) (b2 minutes) =
      answerWrite s (s.upd (grantExpert (accept s.mod h i) (sess s.mod i).cred e minutes).1) h i
        (grantExpert (accept s.mod h i) (sess s.mod i).cred e minutes).2 bodies := by
  refine writeRow_status (v := .nat minutes) (r := grantExpert (accept s.mod h i) (sess s.mod i).cred e minutes) _ hc rfl (by decide) ?_ rfl ?_
  · exact congrArg (fun n => some (Val.nat n)) (natOf_bytesOf hfit)
  · rw [← (cred_accept s.mod h i i).1]
    rfl

/-- The module once a grant begins (R799, R800). -/
def granted (m : Mod) (officer e minutes : Nat) : Mod :=
  let g := (m.sys.elapsed + minutes * 60 * secCycles, now m + minutes * 60 * nsPerSec, officer)
  raise (setNat { m with mgmt := { m.mgmt with grants := tset none m.mgmt.grants e (some g) } } 0x2040 1 e minutes) 0xC101 srcModule 0
    (b4 (sess m e).id ++ b2 (sess m e).cred ++ b2 officer ++ b1 1)

theorem grants_granted (m : Mod) (officer e minutes : Nat) : tget none (granted m officer e minutes).mgmt.grants e =
    some (m.sys.elapsed + minutes * 60 * secCycles, now m + minutes * 60 * nsPerSec, officer) :=
  tget_tset_same none m.mgmt.grants e (some (m.sys.elapsed + minutes * 60 * secCycles, now m + minutes * 60 * nsPerSec, officer))

theorem grantExpert_granted {officer e minutes : Nat} (hmin : minutes ≠ 0) (h2 : (sess m e).state = 2) (h4 : (sess m e).role = 4) :
    grantExpert m officer e minutes = (granted m officer e minutes, 0) := by
  unfold grantExpert
  dsimp only
  rw [if_neg hmin, if_neg (by simp [h2, h4])]
  rfl

/-! ### The debug access ports -/

theorem exec_debugPortOpen {v : Bool} (hw : (Instr.debugPortOpen h v).wf = true) :
    exec (.debugPortOpen h v) s = .next (finish (writeRow s h 0xE000 2 none (b1 (b01 v)))) :=
  run_wf "DEBUG_PORT_OPEN" _ s (fun s => writeRow s h 0xE000 2 none (b1 (b01 v))) hw

theorem writeDebug_opens (hm : infB m 0x2040 2 i = true) : (writeDebug m i true).1.mgmt.debugBy.contains i = true := by
  unfold writeDebug
  dsimp only
  rw [hm]
  by_cases hin : m.mgmt.debugBy.contains i = true
  · rw [if_neg (by decide), if_neg (by decide), if_pos hin]
    exact hin
  · have hadded : (m.mgmt.debugBy ++ [i]).contains i = true := by simp
    rw [if_neg (by decide), if_neg (by decide), if_neg hin]
    dsimp only
    split <;> exact hadded

theorem writeDebug_closes (m : Mod) (i : Nat) : (writeDebug m i false).1.mgmt.debugBy.contains i = false := by
  obtain ⟨debugBy, ev, hclose, hno⟩ := closeDebug_form m i (sess m i).id
  rw [show writeDebug m i false = (closeDebug m i (sess m i).id, 0) from rfl, hclose]
  exact hno

/-! ### The register window -/

theorem exec_windowWrite {k : Fin 2} {w v : Nat} (hw : (Instr.windowWrite h k w v).wf = true) :
    exec (.windowWrite h k w v) s = .next (finish (writeRow s h 0xE100 (k.val + 1) (some w) (b4 v))) :=
  run_wf "WINDOW_WRITE" _ s (fun s => writeRow s h 0xE100 (k.val + 1) (some w) (b4 v)) hw

/-- The status an access to a register answers. -/
def Reach.status : Reach → Nat
  | .ok _ _ => 0
  | .fail st _ _ => st

theorem effR_mod (s : State) (m : Mod) (r : Reach) : (effR (s.upd m) r).s = s.upd r.mod := by cases r <;> rfl
theorem effR_status (s : State) (r : Reach) : (effR s r).status = r.status := by cases r <;> rfl

/-- What an access leaves once the events that tell of it are raised too. -/
structure ToldOf (r : Reach) (n : Mod) : Prop where
  mgmt : n.mgmt = r.mod.mgmt
  inf : ∀ c x e, inf n c x e = inf r.mod c x e

theorem ToldOf.sess {r : Reach} {n : Mod} (hn : ToldOf r n) (j : Nat) : sess n j = sess r.mod j := by
  unfold Machine.sess
  rw [hn.mgmt]

/-- A typed write whose effect is an access to a register, with the events that tell of it left open (R803). -/
theorem writeRow_reach {idx sub : Nat} {elem : Option Nat} {data : Octets} {v : Val} {r : Reach} (o : Obj)
    (hc : WriteClears s.mod h i idx sub elem data) (hrow : objRow idx sub = some o) (hacc : o.acc ≠ .rwc) (hdec : decodeVal o.ty data = some v)
    (hf : effect (s.upd (accept s.mod h i)) i idx sub (elem.getD 0) v = effR (s.upd (accept s.mod h i)) r) :
    ∃ n bodies, ToldOf r n ∧ bodies ≠ [] ∧ writeRow s h idx sub elem data = answerWrite s (s.upd n) h i r.status bodies := by
  obtain ⟨ev, bodies, hb, heq⟩ := writeRow_events o hc hrow hacc hdec hf
  rw [effR_mod, effR_status] at heq
  exact ⟨{ r.mod with ev := ev }, bodies, ⟨rfl, fun _ _ _ => rfl⟩, hb, heq⟩

theorem word_fit {k : Fin 2} {w v : Nat} (hw : (Instr.windowWrite h k w v).wf = true) : v < 256 ^ 4 := by
  simp only [Instr.wf, fitsU, Bool.and_eq_true, decide_eq_true_eq] at hw
  omega

theorem data_fit {v : Nat} (hw : (Instr.indirectDataWrite h v).wf = true) : v < 256 ^ 4 := by
  simp only [Instr.wf, fitsU, Bool.and_eq_true, decide_eq_true_eq] at hw
  omega

/-- A write of a word of a harbour's register space (R806). -/
theorem writeRow_window {k : Fin 2} {w v : Nat} (hc : WriteClears s.mod h i 0xE100 (k.val + 1) (some w) (b4 v)) (hfit : v < 256 ^ 4) :
    ∃ n bodies, ToldOf (windowWrite (accept s.mod h i) k (w * 4) v) n ∧ bodies ≠ [] ∧ writeRow s h 0xE100 (k.val + 1) (some w) (b4 v) =
      answerWrite s (s.upd n) h i (windowWrite (accept s.mod h i) k (w * 4) v).status bodies := by
  have hdec : decodeVal (.u 4) (b4 v) = some (.nat v) := congrArg (fun n => some (Val.nat n)) (natOf_bytesOf hfit)
  obtain rfl | rfl : k = 0 ∨ k = 1 := by omega
  · exact writeRow_reach (v := .nat v) (r := windowWrite (accept s.mod h i) 0 (w * 4) v) _ hc rfl (by decide) hdec rfl
  · exact writeRow_reach (v := .nat v) (r := windowWrite (accept s.mod h i) 1 (w * 4) v) _ hc rfl (by decide) hdec rfl

/-- A SCRATCH register written, and the write counted (R806, R811). -/
def withScratch (m : Mod) (k a v : Nat) : Mod :=
  bump { m with mgmt := { m.mgmt with scratch := tset 0 m.mgmt.scratch (k * 2 ^ 32 + a) v } } 0xE000 3 0 1

theorem withScratch_mgmt (m : Mod) (k a v : Nat) : (withScratch m k a v).mgmt = { m.mgmt with scratch := tset 0 m.mgmt.scratch (k * 2 ^ 32 + a) v } :=
  bump_mgmt { m with mgmt := { m.mgmt with scratch := tset 0 m.mgmt.scratch (k * 2 ^ 32 + a) v } } 0xE000 3 0 1

theorem windowWrite_scratch {k a v : Nat} (hp : pilotUp m k = true) (hb : (blockAt m k a).isSome = true) (ha : a % 0x100000 = 0xF0004) :
    windowWrite m k a v = .ok v (withScratch m k a v) := by
  obtain ⟨b, hb⟩ := Option.isSome_iff_exists.mp hb
  unfold windowWrite
  simp only [hp, hb, ha, Bool.not_true, Bool.false_eq_true, if_false, if_true, withScratch]

theorem windowWrite_noBlock {k a v : Nat} (hp : pilotUp m k = true) (hb : blockAt m k a = none) : windowWrite m k a v = busError m k a := by
  unfold windowWrite
  rw [hp, hb]
  rfl

/-- A bus error keeps its harbour and address (R807, R815). -/
theorem busError_kept (m : Mod) (k a : Nat) :
    (busError m k a).mod.mgmt = m.mgmt ∧ inf (busError m k a).mod 0xE000 5 0 = a ∧ inf (busError m k a).mod 0xE000 6 0 = k := by
  have hm : (busError m k a).mod = setNat (setNat (bump m 0xE000 4 0 1) 0xE000 5 0 a) 0xE000 6 0 k := rfl
  rw [hm]
  generalize hn : bump m 0xE000 4 0 1 = n
  refine ⟨by rw [setNat_mgmt, setNat_mgmt, ← hn, bump_mgmt], ?_, inf_setNat_same (setNat n 0xE000 5 0 a) 0xE000 6 0 k (by decide)⟩
  exact (inf_setNat_other (idx := 0xE000) (sub := 6) (c := 0xE000) (x := 5) (setNat n 0xE000 5 0 a) 0 k 0 (by decide) (by decide) (by decide)
    (by decide)).trans (inf_setNat_same n 0xE000 5 0 a (by decide))

/-- An effect that keeps the table of sessions is answered in the slot of its request. -/
theorem answered_of_sessions {n : Mod} {status : Nat} {bodies : List Octets} (hb : bodies ≠ []) (ha : Accepted s.mod h i)
    (hn : n.mgmt.sessions = (accept s.mod h i).mgmt.sessions) : Answered (finish (answerWrite s (s.upd n) h i status bodies)).mod i h.sequence status := by
  have hsess : sess n i = sess (accept s.mod h i) i := by unfold sess; rw [hn]
  obtain ⟨-, -, -, h2, -⟩ := ha
  exact answered_answerWrite hb h2 (by rw [State.upd_mod, hsess, sess_accept_same]) (by rw [State.upd_mod, hsess, sess_accept_same])

/-! ### The locator -/

theorem exec_locatorQuery {record : Octets} (hw : (Instr.locatorQuery h record).wf = true) :
    exec (.locatorQuery h record) s = .next (finish (writeRow s h 0xE010 1 none record)) :=
  run_wf "LOCATOR_QUERY" _ s (fun s => writeRow s h 0xE010 1 none record) hw

theorem length_locate (idx sub e : Nat) : (locate idx sub e).length = 8 := by
  simp [locate, b1, b4, length_bytesOf, zeros]

/-- A query that names a value is kept with its result (R813). -/
theorem locatorWrite_found {record : Octets} {a : Addr} {ov : Obj × Val} (ha : addrOf record = some a) (hr : readObject s i a = .ok ov) :
    locatorWrite s i record = (s.upd (setSess s.mod i { sess s.mod i with locQuery := record, locResult := locate a.idx a.sub a.elem }), 0) := by
  unfold locatorWrite
  rw [ha]
  dsimp only
  rw [hr]

/-! ### The indirect pair -/

theorem exec_indirectDataRead (hw : (Instr.indirectDataRead h).wf = true) :
    exec (.indirectDataRead h) s = .next (finish (serve s h 0x10 (readAct [{ idx := 0xE200, sub := 2 }]))) :=
  run_wf "INDIRECT_DATA_READ" _ s (fun s => serve s h 0x10 (readAct [{ idx := 0xE200, sub := 2 }])) hw

theorem exec_indirectDataWrite {v : Nat} (hw : (Instr.indirectDataWrite h v).wf = true) :
    exec (.indirectDataWrite h v) s = .next (finish (writeRow s h 0xE200 2 none (b4 v))) :=
  run_wf "INDIRECT_DATA_WRITE" _ s (fun s => writeRow s h 0xE200 2 none (b4 v)) hw

/-- A READ of one address that clears, and whose value is read with an effect on the module. -/
theorem readAct_one {a : Addr} {n : Mod} {v : Val} (hc : (readCheck s i a).isOk = true) (hv : readValue s i a = (s.upd n, .ok v)) :
    ∃ bodies ≠ [], readAct [a] s i = (s.upd n, 0, bodies) := by
  obtain ⟨o, hk⟩ : ∃ o, readCheck s i a = .ok o := by
    cases hk : readCheck s i a with
    | error st => rw [hk] at hc; cases hc
    | ok o => exact ⟨o, rfl⟩
  have entry : readEntry s i a = (s.upd n, b2 0 ++ valueRecord a o.ty v) := by
    unfold readEntry
    rw [hk]
    dsimp only
    rw [hv]
  refine ⟨splitBody [] [b2 0 ++ valueRecord a o.ty v], splitBody_ne_nil [] [_], ?_⟩
  unfold readAct
  rw [if_neg (by simp), readAll, entry]
  rfl

/-- What a read of a register's word answers. -/
def reachValue (s : State) : Reach → State × Except (Nat × List Nat) Val
  | .ok w m => (s.upd m, .ok (.nat w))
  | .fail st vs m => (s.upd m, .error (st, vs))

theorem readValue_indirect {n : Mod} {v : Nat} (hr : indirectRead s.mod i = .ok v n) :
    readValue s i { idx := 0xE200, sub := 2 } = (s.upd n, .ok (.nat v)) := by
  rw [show readValue s i { idx := 0xE200, sub := 2 } = reachValue s (indirectRead s.mod i) from rfl, hr]
  rfl

/-- A read that reaches its register moves the indirect address on (R819). -/
theorem indirectRead_moves {n : Mod} {v : Nat} (hr : indirectRead m i = .ok v n) : (sess n i).indirect = ((sess m i).indirect + 4) % 2 ^ 32 := by
  have latched (key base : Nat) (words : List Nat) : (sess (readLatched m i key base words).mod i).indirect = (sess m i).indirect := by
    unfold readLatched
    dsimp only
    split
    · exact (congrArg Sess.indirect (sess_setSess_same m i (latchWords (sess m i) base words))).trans rfl
    · split <;> rfl
  have stepped (n : Mod) (hn : (sess n i).indirect = (sess m i).indirect) : (sess (stepIndirect n i) i).indirect = ((sess m i).indirect + 4) % 2 ^ 32 := by
    rw [← hn]
    exact congrArg Sess.indirect (sess_setSess_same n i _)
  have moved (r : Reach) (hr : (match r with
      | .ok v m1 => Reach.ok v (stepIndirect m1 i)
      | .fail st vs m1 => .fail st vs m1) = .ok v n) (hi : (sess r.mod i).indirect = (sess m i).indirect) :
      (sess n i).indirect = ((sess m i).indirect + 4) % 2 ^ 32 := by
    cases r with
    | ok w m1 =>
      cases hr
      exact stepped m1 hi
    | fail st vs m1 => cases hr
  have failed (k a : Nat) : (sess (busError m k a).mod i).indirect = (sess m i).indirect := by
    unfold sess
    rw [(busError_kept m k a).1]
  refine moved _ hr ?_
  split
  · split
    · exact latched ..
    · exact failed ..
  · split
    · exact failed ..
    · split
      · rfl
      · split
        · rfl
        · exact failed ..

/-- A write in the tether range is refused (R822). -/
theorem indirectWrite_tether {v : Nat} (ha : (sess m i).indirect < 0x1000) : indirectWrite m i v = .fail 0x1003 [0, (sess m i).indirect] m := by
  unfold indirectWrite
  exact if_pos ha

/-- A tap written within its range (R818, R822). -/
def withTap (m : Mod) (e off v : Nat) : Mod :=
  bump { m with mgmt := { m.mgmt with taps := tset none m.mgmt.taps (e * 256 + off) (some v) } } 0xE000 3 0 1

theorem indirectWrite_tap {v e off : Nat} (ha : 0x1000 ≤ (sess m i).indirect) (hs : serdesAt (sess m i).indirect = some (e, off))
    (hp : pilotUp m (serdesHarbour e) = true) (hoff : off < 0x14) (hv : v ≤ serdesTop off) :
    indirectWrite m i v = .ok v (stepIndirect (withTap m e off v) i) := by
  unfold indirectWrite
  dsimp only
  rw [if_neg (Nat.not_lt.mpr ha), hs]
  dsimp only
  rw [if_neg (by simp [hp]), if_neg (by omega), if_neg (by omega), Nat.mod_eq_of_lt (Nat.lt_succ_of_le hv)]
  rfl

theorem indirect_stepped (m : Mod) (i e off v : Nat) :
    sess (stepIndirect (withTap m e off v) i) i = { sess m i with indirect := ((sess m i).indirect + 4) % 2 ^ 32 } := by
  have hsess : sess (withTap m e off v) i = sess m i := by
    unfold withTap sess
    rw [bump_mgmt]
  rw [stepIndirect, sess_setSess_same, hsess]

theorem taps_stepped (m : Mod) (i e off v : Nat) : tget none (stepIndirect (withTap m e off v) i).mgmt.taps (e * 256 + off) = some v := by
  have htaps : (stepIndirect (withTap m e off v) i).mgmt.taps = tset none m.mgmt.taps (e * 256 + off) (some v) := by
    show (withTap m e off v).mgmt.taps = _
    rw [withTap, bump_mgmt]
  rw [htaps, tget_tset_same]

theorem writeRow_indirect {v : Nat} (hc : WriteClears s.mod h i 0xE200 2 none (b4 v)) (hfit : v < 256 ^ 4) :
    ∃ n bodies, ToldOf (indirectWrite (accept s.mod h i) i v) n ∧ bodies ≠ [] ∧ writeRow s h 0xE200 2 none (b4 v) =
      answerWrite s (s.upd n) h i (indirectWrite (accept s.mod h i) i v).status bodies := by
  have hdec : decodeVal (.u 4) (b4 v) = some (.nat v) := congrArg (fun n => some (Val.nat n)) (natOf_bytesOf hfit)
  exact writeRow_reach (v := .nat v) (r := indirectWrite (accept s.mod h i) i v) _ hc rfl (by decide) hdec rfl

theorem state_accept (m : Mod) (h : Hdr) (i : Nat) : (sess (accept m h i) i).state = (sess m i).state := by rw [sess_accept_same]
theorem id_accept (m : Mod) (h : Hdr) (i : Nat) : (sess (accept m h i) i).id = (sess m i).id := by rw [sess_accept_same]

theorem proved_state (ha : Accepted s.mod h i) : (sess s.mod i).state = 2 := by
  obtain ⟨-, -, -, h2, -⟩ := ha
  exact h2

theorem indirect_accept (m : Mod) (h : Hdr) (i : Nat) : (sess (accept m h i) i).indirect = (sess m i).indirect := by rw [sess_accept_same]

/-- Settles O18: a grant opens and closes what it covers, and an access moves the indirect address where it reaches its register. -/
theorem expertAccessIsGrantedUsedAndEnded : Obligations.ExpertAccessIsGrantedUsedAndEnded := by
  refine ⟨⟨fun s h i e minutes hw hc => ⟨fun hmin => ?_, fun hmin h2 h4 => ?_⟩, fun s e g hrun hg => ?_⟩,
    ⟨fun s h i hw hc hun => ?_, fun s h i hw hc => ?_, fun s h i k w v hw hc hp => ⟨fun hb ha => ?_, fun hb => ?_⟩,
      fun s h i record a ov hw hc ha hr => ?_⟩,
    fun s h i v m hw hc hr => ?_, fun s h i v e off hw hc => ⟨fun ha hs hp hoff hv => ?_, fun ha => ?_⟩⟩
  · obtain ⟨bodies, -, heq⟩ := writeRow_grant hc (minutes_fit hw)
    refine ⟨_, exec_expertGrantWrite hw, ?_⟩
    rw [heq, answerWrite_grants, State.upd_mod, grantExpert, if_pos hmin]
    exact grants_endGrant ..
  · obtain ⟨bodies, -, heq⟩ := writeRow_grant hc (minutes_fit hw)
    have hrole : (sess (accept s.mod h i) e).role = 4 := (role_accept s.mod h i e).trans h4
    rw [grantExpert_granted hmin ((cred_accept s.mod h i e).2.trans h2) hrole] at heq
    have hgrant := grants_granted (accept s.mod h i) (sess s.mod i).cred e minutes
    refine ⟨_, now (accept s.mod h i) + minutes * 60 * nsPerSec, exec_expertGrantWrite hw, ?_⟩
    rw [heq, answerWrite_grants, inf_answerWrite, unlocked_answerWrite, State.upd_mod, hgrant]
    refine ⟨rfl, inf_setNat_same _ 0x2040 1 e minutes (by decide), ?_⟩
    unfold unlocked
    rw [hgrant, Bool.and_eq_true, beq_iff_eq]
    exact ⟨hrole, rfl⟩
  · refine ⟨_, exec_expertGrantExpire hrun, ?_⟩
    obtain ⟨hgrants, hdebug, h1, h2, htime⟩ := expireGrant_ends hg
    rw [finish_mod, State.upd_mod, inf_settleOver, settleOver_mgmt, settleOver_sys, unlocked, settleOver_mgmt, hgrants]
    exact ⟨rfl, Bool.and_false _, hdebug, h1, h2, htime⟩
  · obtain ⟨bodies, -, heq⟩ := writeRow_status (v := .nat 1) (r := writeDebug (accept s.mod h i) i true) _ hc rfl (by decide) rfl rfl rfl
    refine ⟨_, exec_debugPortOpen hw, ?_⟩
    rw [show b1 (b01 true) = b1 1 from rfl, heq, answerWrite_debugBy, State.upd_mod]
    exact writeDebug_opens hun
  · obtain ⟨bodies, -, heq⟩ := writeRow_status (v := .nat 0) (r := writeDebug (accept s.mod h i) i false) _ hc rfl (by decide) rfl rfl rfl
    refine ⟨_, exec_debugPortOpen hw, ?_⟩
    rw [show b1 (b01 false) = b1 0 from rfl, heq, answerWrite_debugBy, State.upd_mod]
    exact writeDebug_closes ..
  · obtain ⟨n, bodies, hn, hbody, heq⟩ := writeRow_window hc (word_fit hw)
    rw [windowWrite_scratch (m := accept s.mod h i) hp hb ha] at hn heq
    have hmgmt := hn.mgmt.trans (withScratch_mgmt (accept s.mod h i) k (w * 4) v)
    refine ⟨_, exec_windowWrite hw, ?_⟩
    rw [heq, answerWrite_scratch, State.upd_mod, hmgmt]
    exact ⟨tget_tset_same .., answered_of_sessions hbody hc.1 (by rw [hmgmt])⟩
  · obtain ⟨n, bodies, hn, hbody, heq⟩ := writeRow_window hc (word_fit hw)
    rw [windowWrite_noBlock (m := accept s.mod h i) hp hb] at hn heq
    obtain ⟨hbus, haddr, hharbour⟩ := busError_kept (accept s.mod h i) k.val (w * 4)
    have hmgmt := hn.mgmt.trans hbus
    refine ⟨_, exec_windowWrite hw, ?_⟩
    rw [heq, answerWrite_scratch, inf_answerWrite, State.upd_mod, hn.inf, hn.inf, hmgmt]
    exact ⟨rfl, haddr, hharbour, answered_of_sessions hbody hc.1 (by rw [hmgmt])⟩
  · obtain ⟨bodies, hbody, heq⟩ := writeRow_state (v := .oct record) (r := locatorWrite (s.upd (accept s.mod h i)) i record) _ hc rfl (by decide) rfl rfl rfl
    rw [locatorWrite_found ha hr] at heq
    have hasked := sess_setSess_same (accept s.mod h i) i
      { sess (accept s.mod h i) i with locQuery := record, locResult := locate a.idx a.sub a.elem }
    obtain ⟨sent, stored, hform⟩ := sess_answerWrite_form s ((s.upd (accept s.mod h i)).upd (setSess (accept s.mod h i) i
      { sess (accept s.mod h i) i with locQuery := record, locResult := locate a.idx a.sub a.elem })) h i 0 bodies i
    refine ⟨_, exec_locatorQuery hw, ?_⟩
    rw [heq]
    refine ⟨?_, ?_, answered_answerWrite hbody (proved_state hc.1) ?_ ?_⟩
    · exact (congrArg Sess.locQuery hform).trans (congrArg Sess.locQuery hasked)
    · exact (congrArg (fun x => x.locResult.length) hform).trans ((congrArg (fun x => x.locResult.length) hasked).trans (length_locate ..))
    · exact (congrArg Sess.state hasked).trans (state_accept ..)
    · exact (congrArg Sess.id hasked).trans (id_accept ..)
  · obtain ⟨haccept, hcheck⟩ := hc
    obtain ⟨bodies, hbody, hact⟩ := readAct_one hcheck (readValue_indirect (s := s.upd (accept s.mod h i)) hr)
    have hread : OnlyRead (accept s.mod h i) m := by
      have hr' := OnlyRead.indirectRead (accept s.mod h i) i
      rwa [hr] at hr'
    obtain ⟨-, hans⟩ := serve_onlyRead (op := 0x10) (act := readAct [{ idx := 0xE200, sub := 2 }]) haccept (by rw [hact]; exact hread)
      (by rw [hact]; exact hbody)
    rw [hact] at hans
    refine ⟨_, exec_indirectDataRead hw, ?_, hans⟩
    rw [serve_accepted _ _ _ i _ haccept, hact, finish_mod, sess_settleOver, State.upd_mod]
    obtain ⟨sent, stored, hform⟩ := sess_replySealed_form m i (sess s.mod i).id (sess s.mod i).sent h 0x10 0 bodies i
    exact (congrArg Sess.indirect hform).trans ((indirectRead_moves hr).trans (by rw [indirect_accept]))
  · obtain ⟨n, bodies, hn, hbody, heq⟩ := writeRow_indirect hc (data_fit hw)
    rw [indirectWrite_tap (m := accept s.mod h i) (by rwa [indirect_accept]) (by rwa [indirect_accept]) hp hoff hv] at hn heq
    have hsess := (hn.sess i).trans (indirect_stepped (accept s.mod h i) i e off v)
    obtain ⟨sent, stored, hform⟩ := sess_answerWrite_form s (s.upd n) h i 0 bodies i
    refine ⟨_, exec_indirectDataWrite hw, ?_⟩
    rw [heq, answerWrite_taps, State.upd_mod, hn.mgmt]
    refine ⟨taps_stepped .., ?_, answered_answerWrite hbody (proved_state hc.1) ?_ ?_⟩
    · refine (congrArg Sess.indirect hform).trans ((congrArg Sess.indirect hsess).trans ?_)
      rw [indirect_accept]
    · exact (congrArg Sess.state hsess).trans (state_accept ..)
    · exact (congrArg Sess.id hsess).trans (id_accept ..)
  · obtain ⟨n, bodies, hn, hbody, heq⟩ := writeRow_indirect hc (data_fit hw)
    rw [indirectWrite_tether (m := accept s.mod h i) (by rwa [indirect_accept])] at hn heq
    obtain ⟨sent, stored, hform⟩ := sess_answerWrite_form s (s.upd n) h i 0x1003 bodies i
    have hsess : sess n i = sess (accept s.mod h i) i := hn.sess i
    have hmgmt : n.mgmt = (accept s.mod h i).mgmt := hn.mgmt
    refine ⟨_, exec_indirectDataWrite hw, ?_⟩
    rw [heq, answerWrite_taps, State.upd_mod, hmgmt]
    refine ⟨rfl, ?_, answered_of_sessions hbody hc.1 (by rw [hmgmt])⟩
    exact (congrArg Sess.indirect hform).trans ((congrArg Sess.indirect hsess).trans (indirect_accept ..))

end Sys2Proof.Machine
end

