-- ==== Sys2Proof/Proofs/AlarmPins.lean ====
section
/-! PROOFS. The release of an alarm pin in pulse mode (R847), for a filter with the code 0x8004, which `PinQuiet` allows. -/

namespace Sys2Proof.Machine

/-- A state whose pin 0 is asserted in pulse mode, with 0x8004 in its filter. Berth 0 is marked over its share in basin 0 and is not over it any
more, so the command ends with the event 0xA004 (R696); the journal region of harbour 0 takes no write, so the copy of that entry is refused and
raises 0x8004 (R652). -/
def pulsedPin : State :=
  { mod := {
      sys := { pilot0 := true }
      ev := { pins := [(0, { asserted := true })] }
      overs := [(0, 1)]
      stow := [(0, { st := 2 })]
      obj := [(okey 0xB100 1 0, .oct (b2 0x8004 ++ b2 0xFFFF)), (okey 0xB100 2 0, .nat 1), (okey 0x8010 1 0, .nat 2), (okey 0x8010 7 0, .nat 1),
        (okey 0x8010 6 0, .nat 0)] } }

theorem exec_alarmPulseEnd (s : State) (pin : Fin 4) : exec (.alarmPulseEnd pin) s = .next (finish (s.upd (pulseEnd s.mod pin))) :=
  run_wf "ALARM_PULSE_END" (.alarmPulseEnd pin) s (onMod fun m => pulseEnd m pin) rfl

theorem pulsedPin_asserted_again : (tget ({} : Pin) (finish (pulsedPin.upd (pulseEnd pulsedPin.mod 0))).mod.ev.pins 0).asserted = true := by decide

theorem pulsedPin_quiet : PinQuiet pulsedPin.mod 0 := by
  unfold PinQuiet
  decide

/-- Refutes O40: a pin whose filter holds 0x8004 is released at the end of its pulse and asserted again by the event the same command raises. -/
theorem not_eventsReachJournalSubscribersAndPins : ¬ Obligations.EventsReachJournalSubscribersAndPins := by
  rintro ⟨-, -, hend⟩
  obtain ⟨t, ht, hreleased, -⟩ := hend pulsedPin 0 (by decide) (by decide) pulsedPin_quiet
  rw [exec_alarmPulseEnd] at ht
  cases ht
  exact Bool.noConfusion (hreleased.symm.trans pulsedPin_asserted_again)

end Sys2Proof.Machine
end

