-- ==== Sys2Proof/Proofs/Snapshots.lean ====
section
/-! PROOFS. Snapshots: their capture, the drain of their parts, and what an acknowledgement frees (R830 to R843). -/

namespace Sys2Proof.Machine

variable {s : State} {m n : Mod} {h : Hdr} {i : Nat}

/-! ### The capture -/

/-- What a capture reads of the module beside the lane counters. -/
def besideCounts (m : Mod) : Snap × TimeSt := (m.snap, m.time)

theorem besideCounts_countNow (m : Mod) (l : Nat) : besideCounts (countNow m l) = besideCounts m := by
  unfold countNow countLane
  split
  · rfl
  · dsimp only
    cases lanePowered m l <;> cases inf m 0x3000 9 l != 0 <;> simp [besideCounts]

/-- The counters of a harbour's lanes brought up to now. -/
def lanesCounted (m : Mod) (k : Nat) : Mod := ((List.range 64).filter fun l => l % 32 / 16 == k).foldl countNow m

theorem besideCounts_lanesCounted (m : Mod) (k : Nat) : besideCounts (lanesCounted m k) = besideCounts m := foldl_keeps besideCounts countNow besideCounts_countNow _ m

/-- The number a capture gives: the first of a snapshot takes the next (R830). -/
def captureSeq (x : Snap) : Nat := if x.captured = [] then satAdd 32 x.seq 1 else x.seq

/-- A capture drains: its harbour is captured, under the number of the first (R830, R831, R836). -/
theorem captureNow_captures (m : Mod) (k : Nat) (stepped : Bool) :
    (captureNow m k stepped).snap.st = 2 ∧ (captureNow m k stepped).snap.captured = m.snap.captured ++ [k] ∧
      (captureNow m k stepped).snap.seq = captureSeq m.snap ∧ inf (captureNow m k stepped) 0xB000 4 0 = 0 ∧
      (captureNow m k stepped).time = m.time := by
  have hbeside : besideCounts (lanesCounted m k) = besideCounts m := besideCounts_lanesCounted m k
  have hsnap : (lanesCounted m k).snap = m.snap := congrArg Prod.fst hbeside
  have htime : (lanesCounted m k).time = m.time := congrArg Prod.snd hbeside
  unfold captureNow
  rw [show ((List.range 64).filter fun l => l % 32 / 16 == k).foldl countNow m = lanesCounted m k from rfl]
  generalize lanesCounted m k = c at hsnap htime
  dsimp only
  rw [raise_snap, raise_time, setNat_snap, setNat_time, inf_raise, hsnap]
  refine ⟨rfl, rfl, ?_, inf_setNat_same _ 0xB000 4 0 0 (by decide), htime⟩
  show Snap.seq (List.foldl _ _ _) = _
  rw [foldl_keeps Snap.seq]
  · unfold captureSeq
    split <;> rfl
  · exact fun _ _ => rfl

theorem exec_snapshotCapture {k : Fin 2} (hrun : s.mod.sys.running = true) :
    exec (.snapshotCapture k) s = .next (finish (s.upd (snapCapture s.mod k))) := by
  refine (run_wf "SNAPSHOT_CAPTURE" (.snapshotCapture k) s (whileOn (onMod fun m => snapCapture m k)) rfl).trans ?_
  rw [whileOn, if_pos hrun]
  rfl

theorem snapCapture_due {k : Nat} (hst : m.snap.st = 1 ∨ m.snap.st = 2) (hin : (snapHarbours m.snap.scope m.snap.value).contains k = true)
    (hnew : m.snap.captured.contains k = false) : snapCapture m k = captureNow (advanceToNet m k m.snap.time) k false := by
  unfold snapCapture
  exact if_pos ⟨hst, hin, by rw [hnew]; rfl⟩

/-! ### The drain of a part -/

theorem raiseOnce_snap (m : Mod) (code unit src bpid : Nat) (ps : Octets) : (raiseOnce m code unit src bpid ps).snap = m.snap := by rw [raiseOnce_eq]
theorem raiseOnce_sys (m : Mod) (code unit src bpid : Nat) (ps : Octets) : (raiseOnce m code unit src bpid ps).sys = m.sys := by rw [raiseOnce_eq]

theorem refuseAccess_snap (m : Mod) (k master : Nat) (r : Option Nat) (n : Nat) : (refuseAccess m k master r n).snap = m.snap := by
  unfold refuseAccess
  dsimp only
  split
  · rw [bump_snap]
  · rw [raiseOnce_snap, bump_snap]

theorem refuseAccess_mgmt (m : Mod) (k master : Nat) (r : Option Nat) (n : Nat) : (refuseAccess m k master r n).mgmt = m.mgmt := by
  unfold refuseAccess
  dsimp only
  split
  · rw [bump_mgmt]
  · rw [raiseOnce_eq, bump_mgmt]

theorem refuseAccess_sys (m : Mod) (k master : Nat) (r : Option Nat) (n : Nat) : (refuseAccess m k master r n).sys = m.sys := by
  unfold refuseAccess
  dsimp only
  split
  · rw [bump_sys]
  · rw [raiseOnce_sys, bump_sys]

/-- The words of a basin's part. -/
def partLength (m : Mod) (b : Nat) : Nat := (tget [] m.snap.words b).length

/-- What the drain of a basin leaves: no part gets longer or shorter, and the other basins stand as they did. -/
structure Drains (b : Nat) (m n : Mod) : Prop where
  mgmt : n.mgmt = m.mgmt
  elapsed : n.sys.elapsed = m.sys.elapsed
  length : ∀ j, partLength n j = partLength m j
  wf : twf [] m.snap.words = true → twf [] n.snap.words = true
  written : ∀ j, j ≠ b → tget 0 n.snap.written j = tget 0 m.snap.written j
  drained : ∀ j, j ≠ b → tget 0 n.snap.drained j = tget 0 m.snap.drained j

theorem Drains.refl (b : Nat) (m : Mod) : Drains b m m := ⟨rfl, rfl, fun _ => rfl, id, fun _ _ => rfl, fun _ _ => rfl⟩

/-- A part in which a flag of the first word may be set: its words are as many. -/
def Marked (b : Nat) (t u : Tbl (List Nat)) : Prop := u = t ∨ ∃ a a' r, tget [] t b = a :: r ∧ u = tset [] t b (a' :: r)

theorem Marked.length {b : Nat} {t u : Tbl (List Nat)} (hu : Marked b t u) (j : Nat) : (tget [] u j).length = (tget [] t j).length := by
  obtain rfl | ⟨a, a', r, ht, rfl⟩ := hu
  · rfl
  · by_cases hj : j = b
    · subst hj
      rw [tget_tset_same, ht]
      rfl
    · rw [tget_tset_ne _ _ _ hj]

theorem Marked.wf {b : Nat} {t u : Tbl (List Nat)} (hu : Marked b t u) (ht : twf [] t = true) : twf [] u = true := by
  obtain rfl | ⟨a, a', r, -, rfl⟩ := hu
  · exact ht
  · exact twf_tset [] t b (a' :: r) ht

/-- The drain of a part that has words: as many are written as its time, its length and the room allow (R837, R839). -/
theorem drainBasin_writes {b : Nat} (hw : partLength m b ≠ 0) : ∃ room archived oldest words flags, Marked b m.snap.words words ∧
    (drainBasin m b).mgmt = m.mgmt ∧ (drainBasin m b).sys = m.sys ∧ (drainBasin m b).snap = { m.snap with
      written := tset 0 m.snap.written b (min (partLength m b)
        (min (tget 0 m.snap.written b + (m.sys.elapsed - tget 0 m.snap.drained b) / 2) (room + 131072)))
      drained := tset 0 m.snap.drained b (tget 0 m.snap.drained b + 2 * ((m.sys.elapsed - tget 0 m.snap.drained b) / 2))
      archived := archived, oldest := oldest, words := words, flags := flags } := by
  have told (c : Bool) (x : Mod) (code src bpid : Nat) (ps : Octets) :
      (if c then raise x code src bpid ps else x).snap = x.snap ∧ (if c then raise x code src bpid ps else x).sys = x.sys ∧
        (if c then raise x code src bpid ps else x).mgmt = x.mgmt := by
    cases c <;> exact ⟨rfl, rfl, rfl⟩
  unfold drainBasin
  dsimp only
  rw [if_neg (show ¬(tget [] m.snap.words b).length = 0 from hw)]
  generalize (if archiveRefused m b then none else archiveOf m b) = arch
  refine ⟨_, _, _, _, _, ?_, (told ..).2.2.trans (refuseAccess_mgmt ..), (told ..).2.1.trans (refuseAccess_sys ..), (told ..).1.trans (refuseAccess_snap ..)⟩
  split
  · cases hb : tget [] m.snap.words b with
    | nil => exact absurd (congrArg List.length hb) hw
    | cons a r => exact .inr ⟨a, _, r, hb, rfl⟩
  · exact .inl rfl

theorem drainBasin_drains (m : Mod) (b : Nat) : Drains b m (drainBasin m b) := by
  by_cases hw : partLength m b = 0
  · have heq : drainBasin m b = m := if_pos hw
    rw [heq]
    exact Drains.refl b m
  · obtain ⟨room, archived, oldest, words, flags, hmark, hmgmt, hsys, hsnap⟩ := drainBasin_writes hw
    refine ⟨hmgmt, by rw [hsys], fun j => ?_, fun hwf => ?_, fun j hj => ?_, fun j hj => ?_⟩
    · unfold partLength
      rw [hsnap]
      exact hmark.length j
    · rw [hsnap]
      exact hmark.wf hwf
    · rw [hsnap]
      exact tget_tset_ne 0 m.snap.written _ hj
    · rw [hsnap]
      exact tget_tset_ne 0 m.snap.drained _ hj

/-- A part that has had the time for its words is written. -/
def InTime (m : Mod) (b : Nat) : Prop :=
  partLength m b ≠ 0 → partLength m b ≤ 131072 ∧ tget 0 m.snap.drained b + 2 * (partLength m b - tget 0 m.snap.written b) ≤ m.sys.elapsed

def Written (m : Mod) (b : Nat) : Prop := partLength m b ≠ 0 → tget 0 m.snap.written b = partLength m b

theorem drainBasin_written {b : Nat} (ht : InTime m b) : Written (drainBasin m b) b := by
  intro hw
  rw [(drainBasin_drains m b).length] at hw ⊢
  obtain ⟨hmax, htime⟩ := ht hw
  obtain ⟨room, archived, oldest, words, flags, -, -, -, hsnap⟩ := drainBasin_writes hw
  rw [hsnap]
  refine (tget_tset_same 0 m.snap.written b _).trans ?_
  omega

theorem Drains.inTime {b j : Nat} (hd : Drains b m n) (hj : j ≠ b) (ht : InTime m j) : InTime n j := by
  unfold InTime
  rw [hd.length, hd.written j hj, hd.drained j hj, hd.elapsed]
  exact ht

theorem Drains.isWritten {b j : Nat} (hd : Drains b m n) (hj : j ≠ b) (ht : Written m j) : Written n j := by
  unfold Written
  rw [hd.length, hd.written j hj]
  exact ht

/-- All four parts drained. -/
structure DrainedAll (m n : Mod) : Prop where
  length : ∀ j, partLength n j = partLength m j
  wf : twf [] m.snap.words = true → twf [] n.snap.words = true
  written : (∀ b, b < 4 → InTime m b) → ∀ b, b < 4 → Written n b

theorem drainedAll (m : Mod) : DrainedAll m ([0, 1, 2, 3].foldl drainBasin m) := by
  have drain (n : Mod) (b : Nat) : ∃ n', drainBasin n b = n' ∧ Drains b n n' ∧ (InTime n b → Written n' b) :=
    ⟨_, rfl, drainBasin_drains n b, drainBasin_written⟩
  obtain ⟨m0, h0, d0, w0⟩ := drain m 0
  obtain ⟨m1, h1, d1, w1⟩ := drain m0 1
  obtain ⟨m2, h2, d2, w2⟩ := drain m1 2
  obtain ⟨m3, h3, d3, w3⟩ := drain m2 3
  rw [List.foldl_cons, h0, List.foldl_cons, h1, List.foldl_cons, h2, List.foldl_cons, h3, List.foldl_nil]
  refine ⟨fun j => ((d3.length j).trans ((d2.length j).trans ((d1.length j).trans (d0.length j)))), fun hwf => d3.wf (d2.wf (d1.wf (d0.wf hwf))),
    fun ht b hb => ?_⟩
  obtain rfl | rfl | rfl | rfl : b = 0 ∨ b = 1 ∨ b = 2 ∨ b = 3 := by omega
  · exact d3.isWritten (by decide) (d2.isWritten (by decide) (d1.isWritten (by decide) (w0 (ht 0 hb))))
  · exact d3.isWritten (by decide) (d2.isWritten (by decide) (w1 (d0.inTime (by decide) (ht 1 hb))))
  · exact d3.isWritten (by decide) (w2 (d1.inTime (by decide) (d0.inTime (by decide) (ht 2 hb))))
  · exact w3 (d2.inTime (by decide) (d1.inTime (by decide) (d0.inTime (by decide) (ht 3 hb))))

/-! ### The end of the drain -/

/-- The cycle at which the last part has drained. -/
def drainEnd (x : Snap) : Nat := x.words.foldl (fun a e => max a (tget 0 x.drained e.1 + 2 * (e.2.length - tget 0 x.written e.1))) 0

theorem le_foldl_max {α : Type} (f : α → Nat) (l : List α) : ∀ a, a ≤ l.foldl (fun a e => max a (f e)) a ∧ ∀ e ∈ l, f e ≤ l.foldl (fun a e => max a (f e)) a := by
  induction l with
  | nil => exact fun a => ⟨Nat.le_refl a, fun e he => absurd he (by simp)⟩
  | cons x r ih =>
    intro a
    obtain ⟨hfrom, hall⟩ := ih (max a (f x))
    refine ⟨(Nat.le_max_left ..).trans hfrom, fun e he => ?_⟩
    obtain rfl | he := List.mem_cons.mp he
    · exact (Nat.le_max_right ..).trans hfrom
    · exact hall e he

theorem le_drainEnd (x : Snap) {e : Nat × List Nat} (he : e ∈ x.words) :
    tget 0 x.drained e.1 + 2 * (e.2.length - tget 0 x.written e.1) ≤ drainEnd x :=
  (le_foldl_max (fun e : Nat × List Nat => tget 0 x.drained e.1 + 2 * (e.2.length - tget 0 x.written e.1)) x.words 0).2 e he

theorem tget_of_mem {α : Type} [DecidableEq α] {d : α} {t : Tbl α} (ht : twf d t = true) {e : Nat × α} (he : e ∈ t) : tget d t e.1 = e.2 := by
  obtain ⟨hsorted, -⟩ := (twf_iff d t).mp ht
  clear ht
  induction t with
  | nil => cases he
  | cons x r ih =>
    obtain ⟨hfirst, hrest⟩ := List.pairwise_cons.mp hsorted
    obtain rfl | he := List.mem_cons.mp he
    · exact if_pos rfl
    · rw [tget, if_neg (Nat.ne_of_lt (hfirst e he))]
      exact ih he hrest

theorem mem_of_tget {α : Type} {d : α} {t : Tbl α} {k : Nat} (hk : tget d t k ≠ d) : (k, tget d t k) ∈ t := by
  induction t with
  | nil => exact absurd rfl hk
  | cons x r ih =>
    rw [tget] at hk ⊢
    split at hk
    · next heq => rw [if_pos heq, ← heq]; exact List.mem_cons_self
    · next hne => rw [if_neg hne]; exact List.mem_cons_of_mem _ (ih hk)

/-- The parts of a snapshot as they can stand: each is a basin's, and fits the room of one (R834, R837). -/
structure Parts (x : Snap) : Prop where
  wf : twf [] x.words = true
  fit : ∀ e ∈ x.words, e.1 < 4 ∧ e.2.length ≤ 131072

theorem inTime_drainEnd (hp : Parts m.snap) (b : Nat) : InTime (advanceTo m (drainEnd m.snap)) b := by
  have hsnap : (advanceTo m (drainEnd m.snap)).snap = m.snap := advance_snap ..
  unfold InTime partLength
  rw [hsnap]
  intro hw
  have hmem := mem_of_tget (d := []) (t := m.snap.words) (k := b) fun hnil => hw (by rw [hnil]; rfl)
  exact ⟨(hp.fit _ hmem).2, (le_drainEnd m.snap hmem).trans (le_advanceTo_elapsed m _)⟩

/-- At the end of the drain every part is written. -/
theorem drained_written (hp : Parts m.snap) (hn : DrainedAll (advanceTo m (drainEnd m.snap)) n) :
    (∀ e ∈ m.snap.words, tget 0 n.snap.written e.1 = e.2.length) ∧ allWritten n.snap = true := by
  have hsnap : (advanceTo m (drainEnd m.snap)).snap = m.snap := advance_snap ..
  have hwritten := hn.written fun b _ => inTime_drainEnd hp b
  have hlength : ∀ j, partLength n j = (tget [] m.snap.words j).length := fun j => by
    rw [hn.length, partLength, hsnap]
  have nonempty {t : Tbl (List Nat)} (ht : twf [] t = true) {e : Nat × List Nat} (he : e ∈ t) : e.2.length ≠ 0 := fun h0 =>
    ((twf_iff [] t).mp ht).2 e he (List.length_eq_zero_iff.mp h0)
  refine ⟨fun e he => ?_, List.all_eq_true.mpr fun e he => ?_⟩
  · have hlen : partLength n e.1 = e.2.length := by rw [hlength, tget_of_mem hp.wf he]
    rw [← hlen]
    exact hwritten e.1 (hp.fit e he).1 (by rw [hlen]; exact nonempty hp.wf he)
  · have hwf : twf [] n.snap.words = true := hn.wf (by rw [hsnap]; exact hp.wf)
    have hlen : partLength n e.1 = e.2.length := by rw [partLength, tget_of_mem hwf he]
    have hsome : (tget [] m.snap.words e.1).length ≠ 0 := by
      rw [← hlength, hlen]
      exact nonempty hwf he
    have hmem := mem_of_tget (d := []) (t := m.snap.words) (k := e.1) fun hnil => hsome (by rw [hnil]; rfl)
    rw [beq_iff_eq, ← hlen]
    exact hwritten e.1 (hp.fit _ hmem).1 (by rw [hlen]; exact nonempty hwf he)

/-- A snapshot that holds nothing any more is idle, and is otherwise as it was. -/
theorem settleSnap_form (m : Mod) : ∃ st, settleSnap m = { m with snap := { m.snap with st := st } } := by
  unfold settleSnap
  split
  · exact ⟨0, rfl⟩
  · exact ⟨m.snap.st, rfl⟩

theorem settleSnap_written (m : Mod) : (settleSnap m).snap.written = m.snap.written := by
  obtain ⟨st, hform⟩ := settleSnap_form m
  rw [hform]

theorem settleSnap_held (h3 : m.snap.st = 3) :
    (settleSnap m).snap.st = if (settleSnap m).snap.words.all fun e => heldWords (settleSnap m).snap e.1 == 0 then 0 else 3 := by
  cases hall : m.snap.words.all fun e => heldWords m.snap e.1 == 0 with
  | true =>
    rw [settleSnap, if_pos ⟨h3, hall⟩]
    exact (if_pos hall).symm
  | false =>
    rw [settleSnap, if_neg (by rw [hall]; simp), hall, h3]
    rfl

theorem exec_snapshotComplete (hrun : s.mod.sys.running = true) : exec .snapshotComplete s = .next (finish (s.upd (snapComplete s.mod))) := by
  refine (run_wf "SNAPSHOT_COMPLETE" .snapshotComplete s (whileOn (onMod fun m => snapComplete m)) rfl).trans ?_
  rw [whileOn, if_pos hrun]
  rfl

/-- The words drained by the end of the drain. -/
def drainedOut (m : Mod) : Mod := [0, 1, 2, 3].foldl drainBasin (advanceTo m (drainEnd m.snap))

/-- A snapshot that has drained is held, and event 0xB003 tells of it. -/
def completed (d : Mod) (seq : Nat) : Mod :=
  raise { d with snap := { d.snap with st := 3 } } 0xB003 srcModule 0 (b4 seq ++ b4 (d.snap.words.foldl (fun s e => s + e.2.length) 0))

theorem completed_st (d : Mod) (seq : Nat) : (completed d seq).snap.st = 3 := rfl
theorem completed_written (d : Mod) (seq : Nat) : (completed d seq).snap.written = d.snap.written := rfl

theorem snapComplete_eq (hst : m.snap.st = 2) (hall : (snapHarbours m.snap.scope m.snap.value).all m.snap.captured.contains = true)
    (hdone : allWritten (drainedOut m).snap = true) : snapComplete m = settleSnap (completed (drainedOut m) m.snap.seq) := by
  have hgo : ¬(m.snap.st ≠ 2 ∨ (!(snapHarbours m.snap.scope m.snap.value).all m.snap.captured.contains) = true) := by simp [hst, hall]
  unfold snapComplete
  dsimp only
  rw [if_neg hgo]
  unfold completed
  rw [drainedOut, drainEnd] at hdone ⊢
  rw [if_pos hdone]

theorem snapComplete_writes (hp : Parts m.snap) (hst : m.snap.st = 2)
    (hall : (snapHarbours m.snap.scope m.snap.value).all m.snap.captured.contains = true) :
    (∀ e ∈ m.snap.words, tget 0 (snapComplete m).snap.written e.1 = e.2.length) ∧
      (snapComplete m).snap.st = if (snapComplete m).snap.words.all fun e => heldWords (snapComplete m).snap e.1 == 0 then 0 else 3 := by
  have hdrained : DrainedAll (advanceTo m (drainEnd m.snap)) (drainedOut m) := by
    unfold drainedOut
    exact drainedAll (advanceTo m (drainEnd m.snap))
  obtain ⟨hwritten, hdone⟩ := drained_written hp hdrained
  rw [snapComplete_eq hst hall hdone]
  refine ⟨fun e he => ?_, settleSnap_held (completed_st ..)⟩
  rw [settleSnap_written, completed_written]
  exact hwritten e he

/-! ### The acknowledgement -/

theorem exec_snapshotAcknowledge {b w : Nat} (hw : (Instr.snapshotAcknowledge h b w).wf = true) :
    exec (.snapshotAcknowledge h b w) s = .next (finish (writeRow s h 0xB020 4 (some b) (b4 w))) :=
  run_wf "SNAPSHOT_ACKNOWLEDGE" _ s (fun s => writeRow s h 0xB020 4 (some b) (b4 w)) hw

theorem word_acknowledged {b w : Nat} (hw : (Instr.snapshotAcknowledge h b w).wf = true) : w < 256 ^ 4 := by
  simp only [Instr.wf, fitsU, Bool.and_eq_true, decide_eq_true_eq] at hw
  omega

theorem mgmt_drainAll (m : Mod) : (drainAll m).mgmt = m.mgmt := by
  obtain ⟨st, hform⟩ := settleSnap_form ([0, 1, 2, 3].foldl drainBasin m)
  have hkept : ([0, 1, 2, 3].foldl drainBasin m).mgmt = m.mgmt := foldl_keeps Mod.mgmt drainBasin (fun n b => (drainBasin_drains n b).mgmt) [0, 1, 2, 3] m
  unfold drainAll
  rw [hform, ← hkept]

theorem writeRow_acknowledged {b w : Nat} (hc : WriteClears s.mod h i 0xB020 4 (some b) (b4 w)) (hfit : w < 256 ^ 4) : ∃ bodies ≠ [],
    writeRow s h 0xB020 4 (some b) (b4 w) =
      answerWrite s (s.upd (snapAck (accept s.mod h i) b w).1) h i (snapAck (accept s.mod h i) b w).2 bodies :=
  writeRow_status (v := .nat w) (r := snapAck (accept s.mod h i) b w) _ hc rfl (by decide)
    (congrArg (fun n => some (Val.nat n)) (natOf_bytesOf hfit)) rfl rfl

/-- A word freed with those before it. -/
def freed (m : Mod) (b w : Nat) : Mod := { m with snap := { m.snap with oldest := tset 0 m.snap.oldest b (w + 1) } }

/-- A word that is held frees itself and those before it (R838). -/
theorem snapAck_held {b w : Nat} (hlo : tget 0 (drainAll m).snap.oldest b ≤ w) (hhi : w < tget 0 (drainAll m).snap.written b) :
    (snapAck m b w).2 = 0 ∧ (snapAck m b w).1.mgmt = m.mgmt ∧ tget 0 (snapAck m b w).1.snap.oldest b = w + 1 ∧
      (snapAck m b w).1.snap.written = (drainAll m).snap.written := by
  have hmgmt := mgmt_drainAll m
  unfold snapAck
  generalize drainAll m = d at *
  obtain ⟨st, hform⟩ := settleSnap_form (freed d b w)
  dsimp only
  rw [if_pos ⟨hlo, hhi⟩]
  rw [show settleSnap { d with snap := { d.snap with oldest := tset 0 d.snap.oldest b (w + 1) } } = settleSnap (freed d b w) from rfl, hform]
  exact ⟨rfl, hmgmt, tget_tset_same 0 d.snap.oldest b (w + 1), rfl⟩

theorem snapAck_notHeld {b w : Nat} (hout : w < tget 0 (drainAll m).snap.oldest b ∨ tget 0 (drainAll m).snap.written b ≤ w) :
    snapAck m b w = (drainAll m, 0x2001) := by
  unfold snapAck
  exact if_neg (by omega)

/-- Settles O39: a capture loads its harbour's parts, the drain gives every part its time, and an acknowledgement frees what it holds. -/
theorem snapshotsAreCapturedDrainedAndFreed : Obligations.SnapshotsAreCapturedDrainedAndFreed := by
  refine ⟨fun s k hrun hst hin hnew => ?_, fun s hrun hst hall hwf hfit => ?_, fun s h i b w hw hc x hx => ?_⟩
  · obtain ⟨h2, hcaptured, hseq, hreq, htime⟩ := captureNow_captures (advanceToNet s.mod k s.mod.snap.time) k false
    have hsnap : (advanceToNet s.mod k s.mod.snap.time).snap = s.mod.snap := advance_snap ..
    rw [hsnap] at hcaptured hseq
    refine ⟨_, exec_snapshotCapture hrun, ?_⟩
    rw [snapCapture_due hst hin hnew, finish_mod, State.upd_mod, settleOver_snap, inf_settleOver]
    refine ⟨h2, hcaptured, hseq, hreq, fun c hctr hslew hinc => ?_⟩
    subst hctr
    rw [nowH_settleOver, nowH, htime]
    exact le_nowH_advanceToNet s.mod.snap.time hrun hslew hinc
  · obtain ⟨hwritten, hidle⟩ := snapComplete_writes ⟨hwf, hfit⟩ hst hall
    refine ⟨_, exec_snapshotComplete hrun, ?_⟩
    rw [finish_mod, State.upd_mod, settleOver_snap]
    exact ⟨hwritten, hidle⟩
  · rw [hx]
    obtain ⟨bodies, hbody, heq⟩ := writeRow_acknowledged hc (word_acknowledged hw)
    refine ⟨fun hlo hhi => ⟨_, exec_snapshotAcknowledge hw, ?_⟩, fun hout => ⟨_, exec_snapshotAcknowledge hw, ?_⟩⟩
    · obtain ⟨h0, hmgmt, holdest, hwritten⟩ := snapAck_held hlo hhi
      rw [h0] at heq
      rw [heq, answerWrite_snap, State.upd_mod]
      exact ⟨holdest, congrArg (tget 0 · b) hwritten, answered_of_sessions hbody hc.1 (congrArg Mgmt.sessions hmgmt)⟩
    · rw [snapAck_notHeld hout] at heq
      dsimp only at heq
      rw [heq, answerWrite_snap, State.upd_mod]
      exact ⟨rfl, answered_of_sessions hbody hc.1 (congrArg Mgmt.sessions (mgmt_drainAll (accept s.mod h i)))⟩

end Sys2Proof.Machine
end

