-- ==== Sys2Proof/Proofs/JournalSeals.lean ====
section
/-! PROOFS. The seals of the journal, which only the journal writer issues, and the saved configuration (R894 to R898, R972). -/

namespace Sys2Proof.Machine

variable {s : State} {m n : Mod}

/-! ### No event touches a seal -/

/-- The seals held, the number issued and the runtime of the last. -/
def sealsOf (e : Ev) : List Seal × Nat × Nat := (e.seals, e.sealsIssued, e.sealRuntime)

theorem sealsOf_take (m : Mod) (k : Nat) (e : Ev) (r : EvRec) : sealsOf (take m k e r) = sealsOf e := by
  induction k generalizing e r with
  | zero => rfl
  | succ k ih =>
    unfold take
    dsimp only
    rw [foldl_keeps sealsOf, foldl_keeps sealsOf]
    · split
      · exact ih ..
      · rfl
    · exact fun x i => ih ..
    · intro x hr
      split
      · exact ih ..
      · rfl

theorem sealsOf_record (m : Mod) (e : Ev) (r : EvRec) : sealsOf (record m e r) = sealsOf e := by
  have either (c : Prop) [Decidable c] {a b : Ev} (ha : sealsOf a = sealsOf e) (hb : sealsOf b = sealsOf e) : sealsOf (if c then a else b) = sealsOf e := by
    split
    · exact ha
    · exact hb
  unfold record
  exact either _ (sealsOf_take ..) (either _ (either _ (either _ rfl rfl) (either _ rfl rfl)) rfl)

/-- A part of a command that issues no seal. -/
structure SealsKept (m n : Mod) : Prop where
  seals : sealsOf n.ev = sealsOf m.ev

namespace SealsKept

variable {k : Mod}

theorem refl (m : Mod) : SealsKept m m := ⟨rfl⟩

/-- A change beside the events. -/
theorem of_ev (h : SealsKept m n) (he : k.ev = n.ev) : SealsKept m k := ⟨by rw [he]; exact h.seals⟩

theorem ite {c : Prop} [Decidable c] (hn : SealsKept m n) (hk : SealsKept m k) : SealsKept m (if c then n else k) := by
  split
  · exact hn
  · exact hk

theorem foldl {α : Type} {f : Mod → α → Mod} {l : List α} (h : SealsKept m n) (hf : ∀ k a, SealsKept m k → SealsKept m (f k a)) : SealsKept m (l.foldl f n) := by
  induction l generalizing n with
  | nil => exact h
  | cons a r ih => exact ih (hf n a h)

theorem raise {code src bpid : Nat} {ps : Octets} (h : SealsKept m n) : SealsKept m (raise n code src bpid ps) := ⟨(sealsOf_record ..).trans h.seals⟩

theorem bump {idx sub elem c : Nat} (h : SealsKept m n) : SealsKept m (bump n idx sub elem c) := by
  unfold Machine.bump
  cases objRow idx sub with
  | none =>
    dsimp only
    exact .ite (.raise ⟨h.seals⟩) ⟨h.seals⟩
  | some o =>
    dsimp only
    exact .ite (.raise ⟨h.seals⟩) ⟨h.seals⟩

theorem clearOver {e r : Nat} (h : SealsKept m n) : SealsKept m (clearOver n e r) := by
  unfold Machine.clearOver
  exact .ite (.raise ⟨h.seals⟩) h

theorem settleOver (h : SealsKept m n) : SealsKept m (settleOver n) := by
  unfold Machine.settleOver
  exact h.foldl (f := fun n e => [1, 2, 3, 4, 5, 6].foldl (fun n r => Machine.clearOver n e r) n)
    (fun _ e hk => hk.foldl (f := fun n r => Machine.clearOver n e r) (fun _ _ hj => hj.clearOver))

theorem keepSend {p : Nat} {x : Leaving} (h : SealsKept m n) : SealsKept m (keepSend n p x) := by
  obtain ⟨tts, hform⟩ := keepSend_form n p x
  exact h.of_ev (by rw [hform])

theorem leaveFrame {p : Nat} {x : Leaving} (h : SealsKept m n) : SealsKept m (leaveFrame p n x) := by
  have hput : SealsKept m (putOut n p x) := ⟨h.seals⟩
  unfold Machine.leaveFrame
  exact .keepSend (.bump (.bump hput))

theorem leavePort {p : Nat} (h : SealsKept m n) : SealsKept m (leavePort n p) := by
  unfold Machine.leavePort
  dsimp only
  exact .ite h (.foldl ⟨h.seals⟩ (fun _ _ hk => hk.leaveFrame))

theorem runBank {b c : Nat} (h : SealsKept m n) : SealsKept m (runBank n b c) := by
  unfold Machine.runBank
  exact .bump (.bump ⟨h.seals⟩)

theorem advance {c : Nat} (h : SealsKept m n) : SealsKept m (advance n c) := by
  have hclocks : SealsKept m (runClocks n c) := ⟨h.seals⟩
  unfold Machine.advance
  exact .ite (.foldl (.foldl hclocks fun _ _ hk => hk.runBank) fun _ _ hk => hk.leavePort) hclocks

end SealsKept

/-! ### A seal is issued -/

/-- The seal that the journal writer issues (R894, R896, R897). -/
theorem issueSeal_seals (m : Mod) : ∃ x rest, (issueSeal m).ev.seals = x :: rest ∧ x.num = m.ev.sealsIssued + 1 ∧
    (issueSeal m).ev.sealsIssued = m.ev.sealsIssued + 1 ∧ x.unsigned = !(m.tether.vault.svcState == 2) ∧ x.pending = (m.tether.vault.svcState == 2) ∧
    (issueSeal m).tether.headNum = x.entry ∧ (issueSeal m).tether.headChain = x.chain ∧ (issueSeal m).tether.vault.headNum = x.entry ∧
    (issueSeal m).tether.vault.headChain = x.chain ∧ (issueSeal m).ev.sealRuntime = m.tether.runtime ∧ (issueSeal m).tether.runtime = m.tether.runtime := by
  have hcount : (raise m 0x9022 srcModule 0 m.ev.chain).ev.sealsIssued = m.ev.sealsIssued :=
    congrArg (·.2.1) ((SealsKept.refl m).raise (code := 0x9022) (src := srcModule) (bpid := 0) (ps := m.ev.chain)).seals
  unfold issueSeal
  generalize hm : raise m 0x9022 srcModule 0 m.ev.chain = k at hcount
  have htether : k.tether = m.tether := by rw [← hm, raise_tether]
  dsimp only [storeHead]
  rw [hcount, htether]
  exact ⟨_, _, List.take_succ_cons, rfl, rfl, rfl, rfl, rfl, rfl, rfl, rfl, rfl, rfl⟩

theorem advance_runtime (m : Mod) (c : Nat) : (advance m c).tether = (runClocks m c).tether := by
  unfold advance
  dsimp only
  split
  · obtain ⟨b, o, e, h⟩ := runBanks_form (List.range 8) c (runClocks m c)
    obtain ⟨tt, tx, o', e', out, h'⟩ := leaveGelix_form ((List.range 8).foldl (fun m k => runBank m k c) (runClocks m c))
    rw [h', h]
  · rfl

/-- On mains the runtime has reached a second once the cycles to it have passed (R611). -/
theorem le_runtime_advance {t : Nat} (hmains : m.sys.mains = true) (hcell : m.tether.onCell = false) (ht : t < 2 ^ 32) :
    t ≤ (advance m ((t - m.tether.runtime) * secCycles)).tether.runtime := by
  have hruntime : (runClocks m ((t - m.tether.runtime) * secCycles)).tether.runtime =
      satAdd 32 m.tether.runtime ((m.tether.runtimeSub + (t - m.tether.runtime) * secCycles) / secCycles) := by
    unfold runClocks
    dsimp only
    rw [if_pos ⟨hmains, by rw [hcell]; rfl⟩]
  have hseconds : t - m.tether.runtime ≤ (m.tether.runtimeSub + (t - m.tether.runtime) * secCycles) / secCycles :=
    (Nat.le_div_iff_mul_le (by decide)).mpr (Nat.le_add_left ..)
  rw [advance_runtime, hruntime]
  unfold satAdd
  omega

/-- The module whose seal the journal writer issues: at once after 1,024 entries, else once 60 s of runtime have passed (R894). -/
def atSeal (m : Mod) : Mod := if 1024 ≤ m.ev.sinceSeal then m else advance m ((m.ev.sealRuntime + 60 - m.tether.runtime) * secCycles)

theorem sealDue_issues (hs : signing m = false) (hp : m.sys.pilot0 = true ∨ m.sys.pilot1 = true) : sealDue m = issueSeal (atSeal m) := by
  have hup : (m.sys.pilot0 || m.sys.pilot1) = true := by simpa using hp
  unfold sealDue atSeal
  rw [if_neg (by rw [hs, hup]; decide)]
  split <;> rfl

theorem sealsKept_atSeal (m : Mod) : SealsKept m (atSeal m) := .ite (.refl m) (.advance (.refl m))

theorem vault_atSeal (m : Mod) : (atSeal m).tether.vault = m.tether.vault := by
  unfold atSeal
  split
  · rfl
  · exact advance_tether_vault ..

/-! ### The commands -/

theorem exec_journalSeal (hrun : s.mod.sys.running = true) : exec .journalSeal s = .next (finish (s.upd (sealDue s.mod))) := by
  refine (run_wf "JOURNAL_SEAL" .journalSeal s (whileOn (onMod fun m => sealDue m)) rfl).trans ?_
  rw [whileOn, if_pos hrun]
  rfl

theorem exec_sealSigned (hrun : s.mod.sys.running = true) : exec .sealSigned s = .next (finish (s.upd (signSeal s.otp s.mod))) := by
  refine (run_wf "SEAL_SIGNED" .sealSigned s (whileOn fun s => s.upd (signSeal s.otp s.mod)) rfl).trans ?_
  rw [whileOn, if_pos hrun]

theorem exec_configSave (hrun : s.mod.sys.running = true) : exec .configSave s = .next (finish (writeConfig s)) := by
  refine (run_wf "CONFIG_SAVE" .configSave s (whileOn fun s => writeConfig s) rfl).trans ?_
  rw [whileOn, if_pos hrun]

/-- The pending seals of a list with their signature. -/
def signed (o : Otp) (m : Mod) (x : Seal) : Seal :=
  if x.pending then { x with pending := false, signature := Config.slhSign m.tether.vault.svcSecret (sealMessage o m x) } else x

theorem signed_pending (o : Otp) (m : Mod) (x : Seal) : (signed o m x).pending = false := by
  unfold signed
  cases h : x.pending with
  | true => rfl
  | false => exact h

theorem seals_signSeal (o : Otp) (hp : m.sys.pilot0 = true) (hv : m.tether.vault.svcState = 2) : (signSeal o m).ev.seals = m.ev.seals.map (signed o m) := by
  unfold signSeal
  rw [if_pos ⟨hp, hv⟩]
  rfl

/-- Settles O41: what follows a seal, events among it, issues no other. -/
theorem sealsAndConfigurationAreWritten : Obligations.SealsAndConfigurationAreWritten := by
  refine ⟨fun s hrun hs hp => ?_, fun s hrun hp hv => ?_, fun s hrun hu hp => ?_⟩
  · obtain ⟨x, rest, hseals, hnum, hissued, huns, hpend, hhead, hchain, hvhead, hvchain, hat, hruntime⟩ := issueSeal_seals (atSeal s.mod)
    have hkept := (sealsKept_atSeal s.mod).seals
    have hover := (SealsKept.refl (issueSeal (atSeal s.mod))).settleOver.seals
    rw [vault_atSeal] at huns hpend
    refine ⟨_, x, rest, exec_journalSeal hrun, ?_⟩
    rw [sealDue_issues hs hp, finish_mod, State.upd_mod, settleOver_tether]
    refine ⟨(congrArg (·.1) hover).trans hseals, hnum.trans (congrArg (·.2.1 + 1) hkept),
      (congrArg (·.2.1) hover).trans (hissued.trans (congrArg (·.2.1 + 1) hkept)), huns, hpend, hhead, hchain, hvhead, hvchain,
      (congrArg (·.2.2) hover).trans (hat.trans hruntime.symm), fun hdue hmains hcell hfit => ?_⟩
    rw [hruntime, atSeal, if_neg (Nat.not_le.mpr hdue)]
    exact le_runtime_advance hmains hcell hfit
  · have hseals := seals_signSeal s.otp hp hv
    have hover : (settleOver (signSeal s.otp s.mod)).ev.seals = (signSeal s.otp s.mod).ev.seals :=
      congrArg (·.1) (SealsKept.refl (signSeal s.otp s.mod)).settleOver.seals
    refine ⟨_, exec_sealSigned hrun, ?_⟩
    rw [finish_mod, State.upd_mod, signing, hover, hseals]
    refine ⟨?_, rfl⟩
    rw [List.any_map, List.any_eq_false]
    exact fun x _ => by rw [Function.comp, signed_pending]; exact Bool.false_ne_true
  · have hup : (s.mod.sys.pilot0 || s.mod.sys.pilot1) = true := by simpa using hp
    have hsave : writeConfig s = saveConfig s := if_pos (by rw [hu, hup]; rfl)
    refine ⟨_, exec_configSave hrun, ?_⟩
    rw [hsave, finish_flash, finish_mod, settleOver_sys, settleOver_obj]
    exact ⟨rfl, rfl, rfl, rfl⟩

end Sys2Proof.Machine
end

