-- ==== Sys2Proof/Proofs/TamperResponses.lean ====
section
/-! PROOFS. The responses of the tether's sources, and the events that call for them (R861 to R889). -/

namespace Sys2Proof.Machine

variable {s : State} {m n : Mod} {i : Nat}

/-! ### Bits -/

theorem setBit_succ (v k : Nat) (b : Bool) : setBit v (k + 1) b = 2 * setBit (v / 2) k b + v % 2 := by
  have hbit : v.testBit (k + 1) = (v / 2).testBit k := Nat.testBit_succ ..
  unfold setBit bitAt
  rw [hbit]
  cases h : (v / 2).testBit k with
  | false => cases b <;> simp <;> omega
  | true =>
    have hle : 2 ^ k ≤ v / 2 := Nat.ge_two_pow_of_testBit h
    cases b <;> simp <;> omega

theorem testBit_setBit (v k : Nat) (b : Bool) (r : Nat) : (setBit v k b).testBit r = if r = k then b else v.testBit r := by
  induction k generalizing v r with
  | zero =>
    have hzero : setBit v 0 b = 2 * (v / 2) + b.toNat := by
      unfold setBit bitAt
      rw [Nat.testBit_zero]
      obtain h | h := Nat.mod_two_eq_zero_or_one v
      · cases b <;> simp [h] <;> omega
      · cases b <;> simp [h] <;> omega
    rw [hzero]
    cases r with
    | zero => cases b <;> simp
    | succ r =>
      rw [if_neg (by omega), Nat.testBit_succ, Nat.testBit_succ]
      congr 1
      cases b with
      | false => simp
      | true => simp; omega
  | succ k ih =>
    rw [setBit_succ]
    cases r with
    | zero => rw [if_neg (by omega), Nat.testBit_zero, Nat.testBit_zero, decide_eq_decide]; omega
    | succ r =>
      rw [Nat.testBit_succ, show (2 * setBit (v / 2) k b + v % 2) / 2 = setBit (v / 2) k b by omega, ih, Nat.testBit_succ]
      simp

theorem testBit_setBit_same (v k : Nat) (b : Bool) : (setBit v k b).testBit k = b := by rw [testBit_setBit, if_pos rfl]
theorem testBit_setBit_ne (v : Nat) {k r : Nat} (b : Bool) (hr : r ≠ k) : (setBit v k b).testBit r = v.testBit r := by rw [testBit_setBit, if_neg hr]

/-! ### What a response leaves alone -/

/-- A part of a command that touches neither the tether and its sources nor the module's own state. -/
structure Aside (m n : Mod) : Prop where
  sources : n.sources = m.sources
  tether : n.tether = m.tether
  sys : n.sys = m.sys

namespace Aside

variable {k : Mod}

theorem refl (m : Mod) : Aside m m := ⟨rfl, rfl, rfl⟩

theorem ite {c : Prop} [Decidable c] (hn : Aside m n) (hk : Aside m k) : Aside m (if c then n else k) := by
  split
  · exact hn
  · exact hk

theorem foldl {α : Type} {f : Mod → α → Mod} {l : List α} (h : Aside m n) (hf : ∀ k a, Aside m k → Aside m (f k a)) : Aside m (l.foldl f n) := by
  induction l generalizing n with
  | nil => exact h
  | cons a r ih => exact ih (hf n a h)

theorem raise {code src bpid : Nat} {ps : Octets} (h : Aside m n) : Aside m (raise n code src bpid ps) := ⟨h.sources, h.tether, h.sys⟩

theorem discardFrames {f : Desc → Bool} {cut : Bool} {sub : Nat} (h : Aside m n) : Aside m (discardFrames n f cut sub).1 := by
  obtain ⟨tx, queues, arbs, obj, ev, hform⟩ := discardFrames_form n f cut sub
  rw [hform]
  exact ⟨h.sources, h.tether, h.sys⟩

theorem discardBasin {b sub : Nat} (h : Aside m n) : Aside m (discardBasin n b sub) := h.discardFrames

theorem retarget {q : Nat} (h : Aside m n) : Aside m (retarget n q) := by
  have rates : Aside m (switchRates n q) := by
    obtain ⟨queues, hform⟩ := switchRates_form n q
    rw [hform]
    exact ⟨h.sources, h.tether, h.sys⟩
  unfold Machine.retarget
  exact .ite rates (.ite rates (.raise ⟨h.sources, h.tether, h.sys⟩))

theorem throttleBasin {b : Nat} (h : Aside m n) : Aside m (throttleBasin n b) := .foldl h fun _ _ hk => hk.retarget

theorem rethrottle {was : Mod} (h : Aside m n) : Aside m (rethrottle was n) := by
  unfold Machine.rethrottle
  exact .foldl h fun _ _ hk => .ite hk hk.throttleBasin

theorem quiesceRegion {p r : Nat} (h : Aside m n) : Aside m (quiesceRegion n p r) := by
  unfold Machine.quiesceRegion
  exact .ite h (.raise (.discardFrames ⟨h.sources, h.tether, h.sys⟩))

theorem endSessions {cause : Nat} {p : Sess → Bool} (h : Aside m n) : Aside m (endSessions n cause p) := by
  obtain ⟨mgmt, obj, ev, hform⟩ := endSessions_form n cause p
  rw [hform]
  exact ⟨h.sources, h.tether, h.sys⟩

theorem eraseAllKeys (h : Aside m n) : Aside m (eraseAllKeys n) := ⟨h.sources, h.tether, h.sys⟩

end Aside

/-! ### Zeroize and Retire -/

/-- The accepted frames of every basin discarded as *Zeroize or Retire*. -/
def framesDiscarded (m : Mod) : Mod := [0, 1, 2, 3].foldl (fun m b => discardBasin m b 5) m

/-- The module as a zeroize has discarded its frames and erased its keys, and before its sessions end. -/
def keysErased (m : Mod) : Mod := eraseAllKeys (framesDiscarded m)

theorem sess_discardBasin (m : Mod) (b sub : Nat) : sess (discardBasin m b sub) = sess m := by
  obtain ⟨tx, queues, arbs, obj, ev, hform⟩ := discardFrames_form m (fun d => qBasin d.queue == b) false sub
  unfold discardBasin
  rw [hform]
  rfl

theorem aside_keysErased (m : Mod) : Aside m (keysErased m) := by
  unfold keysErased framesDiscarded
  exact .eraseAllKeys (.foldl (.refl m) fun _ _ hk => hk.discardBasin)

theorem sess_eraseAllKeys (m : Mod) : sess (eraseAllKeys m) = sess m := rfl

theorem sess_keysErased (m : Mod) : sess (keysErased m) = sess m := by
  unfold keysErased framesDiscarded
  rw [sess_eraseAllKeys]
  exact foldl_keeps sess (fun m b => discardBasin m b 5) (fun n b => sess_discardBasin n b 5) [0, 1, 2, 3] m

/-- What a zeroize leaves (R874, R875). -/
theorem zeroize_erases (m : Mod) (cause : Nat) :
    (zeroize m cause).sources = m.sources ∧ (zeroize m cause).tether = { m.tether with vault := erasedVault, zeroized := true } ∧
      (zeroize m cause).sys = { m.sys with birthOk := false, zeroAt := some (m.sys.elapsed + 100 * msCycles, cause) } ∧
      ∀ j, j < 32 → (sess m j).state ≤ 2 → (sess (zeroize m cause) j).state = 0 := by
  have haside : Aside m (endSessions (keysErased m) 6 fun _ => true) := (aside_keysErased m).endSessions
  have hended (j : Nat) (hj : j < 32) (h2 : (sess m j).state ≤ 2) : (sess (endSessions (keysErased m) 6 fun _ => true) j).state = 0 :=
    endSessions_ended (keysErased m) 6 hj (by rwa [sess_keysErased])
  unfold zeroize
  dsimp only
  rw [show eraseAllKeys ([0, 1, 2, 3].foldl (fun m b => discardBasin m b 5) m) = keysErased m from rfl]
  generalize endSessions (keysErased m) 6 (fun _ => true) = z at haside hended
  have hnoted : Aside m (if z.tether.vault.svcState ≠ 0 then raise z 0xF013 srcModule 0 (b1 (cause - 1)) else z) := .ite haside.raise haside
  have hsess : sess (if z.tether.vault.svcState ≠ 0 then raise z 0xF013 srcModule 0 (b1 (cause - 1)) else z) = sess z := by split <;> rfl
  generalize (if z.tether.vault.svcState ≠ 0 then raise z 0xF013 srcModule 0 (b1 (cause - 1)) else z) = y at hnoted hsess
  refine ⟨hnoted.sources, ?_, ?_, fun j hj h2 => ?_⟩
  · rw [← hnoted.tether]
    rfl
  · rw [← hnoted.sys]
    rfl
  · rw [← hended j hj h2, ← hsess]
    rfl

/-- What a Retire leaves (R889). -/
theorem retire_erases (s : State) (cause : Nat) :
    (retire s cause).mod.sources = s.mod.sources ∧ (retire s cause).mod.tether = { s.mod.tether with vault := erasedVault, zeroized := true } ∧
      (retire s cause).mod.sys = { s.mod.sys with birthOk := false, zeroAt := some (s.mod.sys.elapsed + 100 * msCycles, 3), retired := true } ∧
      (retire s cause).otp = { s.otp with retired := true } ∧
      ∀ j, j < 32 → (sess s.mod j).state ≤ 2 → (sess (retire s cause).mod j).state = 0 := by
  obtain ⟨hsources, htether, hsys, hended⟩ := zeroize_erases s.mod 3
  unfold retire
  generalize zeroize s.mod 3 = z at hsources htether hsys hended
  exact ⟨hsources, htether, by rw [raise_sys, hsys], rfl, hended⟩

/-! ### The response of a source -/

/-- The tether beside what a response changes of it. -/
def beside (t : Tether) : Tether := { t with vault := {}, zeroized := false, recorded := [], retirePending := false }

/-- What a response leaves (R868 to R877, R889): the event counted, its source's alarm and all other sources as they were, the vault erased from
Zeroize up and, on mains, sessions ended and the restart due. -/
structure Responded (i rank : Nat) (s t : State) : Prop where
  beside : Machine.beside t.mod.tether = Machine.beside s.mod.tether
  others : ∀ j, j ≠ i → source t.mod j = source s.mod j
  alarm : (source t.mod i).alarm = (source s.mod i).alarm
  events : (source t.mod i).events = (source s.mod i).events
  vault : rank < 4 → t.mod.tether.vault = s.mod.tether.vault
  erased : 4 ≤ rank → t.mod.tether.vault = erasedVault ∧ t.mod.tether.zeroized = true
  sys : rank < 4 → t.mod.sys = s.mod.sys
  elapsed : t.mod.sys.elapsed = s.mod.sys.elapsed
  inForce : s.mod.tether.onCell = false → rank ≤ (source t.mod i).inForce
  ended : s.mod.tether.onCell = false → 4 ≤ rank → ∀ j, j < 32 → (sess s.mod j).state ≤ 2 → (sess t.mod j).state = 0
  due : s.mod.tether.onCell = false → 4 ≤ rank → t.mod.sys.zeroAt = some (s.mod.sys.elapsed + 100 * msCycles, if rank = 4 then 2 else 3)
  fuse : s.mod.tether.onCell = false → 5 ≤ rank → t.otp.retired = true

/-- A source with a response put in force. -/
def inForceOf (m : Mod) (i unit rank : Nat) : Mod :=
  setSource m i { source m i with
    inForce := max (source m i).inForce rank
    units := if rank = 0 ∨ (source m i).units.contains unit then (source m i).units else (source m i).units ++ [unit] }

theorem source_inForceOf (m : Mod) (i unit rank : Nat) :
    (source (inForceOf m i unit rank) i).alarm = (source m i).alarm ∧ (source (inForceOf m i unit rank) i).events = (source m i).events ∧
      rank ≤ (source (inForceOf m i unit rank) i).inForce ∧ ∀ j, j ≠ i → source (inForceOf m i unit rank) j = source m j := by
  unfold inForceOf
  rw [source_setSource_same]
  exact ⟨rfl, rfl, Nat.le_max_right .., fun j hj => source_setSource_ne _ _ hj⟩

/-- A response below Zeroize (R870 to R872). -/
theorem Responded.of_aside {unit rank : Nat} (h4 : rank < 4) {t : State} (h : Aside (inForceOf s.mod i unit rank) t.mod) :
    Responded i rank s t := by
  obtain ⟨halarm, hevents, hforce, hothers⟩ := source_inForceOf s.mod i unit rank
  have hsource (j : Nat) : source t.mod j = source (inForceOf s.mod i unit rank) j := by unfold source; rw [h.sources]
  have htether : t.mod.tether = s.mod.tether := h.tether
  exact ⟨by rw [htether], fun j hj => (hsource j).trans (hothers j hj), by rw [hsource, halarm], by rw [hsource, hevents], fun _ => by rw [htether],
    fun hle => by omega, fun _ => h.sys, congrArg Sys.elapsed h.sys, fun _ => by rw [hsource]; exact hforce, fun _ hle => by omega, fun _ hle => by omega, fun _ hle => by omega⟩

/-- A Zeroize or a Retire of a source (R874 to R876, R889). -/
theorem Responded.of_erased {unit rank : Nat} (h4 : 4 ≤ rank) {t : State} (hsources : t.mod.sources = (inForceOf s.mod i unit rank).sources)
    (htether : t.mod.tether = { s.mod.tether with vault := erasedVault, zeroized := true })
    (hdue : t.mod.sys.zeroAt = some (s.mod.sys.elapsed + 100 * msCycles, if rank = 4 then 2 else 3)) (helapsed : t.mod.sys.elapsed = s.mod.sys.elapsed)
    (hended : ∀ j, j < 32 → (sess s.mod j).state ≤ 2 → (sess t.mod j).state = 0) (hfuse : 5 ≤ rank → t.otp.retired = true) : Responded i rank s t := by
  obtain ⟨halarm, hevents, hforce, hothers⟩ := source_inForceOf s.mod i unit rank
  have hsource (j : Nat) : source t.mod j = source (inForceOf s.mod i unit rank) j := by unfold source; rw [hsources]
  exact ⟨by rw [htether]; rfl, fun j hj => (hsource j).trans (hothers j hj), by rw [hsource, halarm], by rw [hsource, hevents], fun hlt => by omega,
    fun _ => by rw [htether]; exact ⟨rfl, rfl⟩, fun hlt => by omega, helapsed, fun _ => by rw [hsource]; exact hforce, fun _ _ => hended, fun _ _ => hdue,
    fun _ => hfuse⟩

theorem respond_none (s : State) (i unit : Nat) : Responded i 0 s (respond s i unit 0) :=
  ⟨rfl, fun _ _ => rfl, rfl, rfl, fun _ => rfl, fun h => by omega, fun _ => rfl, rfl, fun _ => Nat.zero_le _, fun _ h => by omega, fun _ h => by omega,
    fun _ h => by omega⟩

theorem respond_zeroize (s : State) (i unit : Nat) : Responded i 4 s (respond s i unit 4) := by
  obtain ⟨hsources, htether, hsys, hended⟩ := zeroize_erases (inForceOf s.mod i unit 4) 2
  have heq : respond s i unit 4 = s.upd (zeroize (inForceOf s.mod i unit 4) 2) := rfl
  have helapsed := congrArg Sys.elapsed hsys
  rw [heq]
  exact .of_erased (unit := unit) (by decide) hsources htether (congrArg Sys.zeroAt hsys) helapsed hended (fun h => by omega)

theorem respond_retire (s : State) (i unit rank : Nat) : Responded i (rank + 5) s (respond s i unit (rank + 5)) := by
  obtain ⟨hsources, htether, hsys, hotp, hended⟩ := retire_erases (s.upd (inForceOf s.mod i unit (rank + 5))) 0
  have heq : respond s i unit (rank + 5) = retire (s.upd (inForceOf s.mod i unit (rank + 5))) 0 := rfl
  have helapsed := congrArg Sys.elapsed hsys
  rw [heq]
  refine .of_erased (unit := unit) (by omega) hsources htether ?_ helapsed hended fun _ => congrArg Otp.retired hotp
  rw [if_neg (by omega)]
  exact congrArg Sys.zeroAt hsys

/-- A source's response on mains. -/
theorem respond_responds (s : State) (i unit rank : Nat) : Responded i rank s (respond s i unit rank) := by
  have aside (n : Mod) (r : Nat) (h : Aside (inForceOf s.mod i unit r) n) (h4 : r < 4) : Responded i r s (s.upd n) := .of_aside h4 h
  match rank with
  | 0 => exact respond_none ..
  | 1 => exact aside _ 1 (.refl _) (by decide)
  | 2 => exact aside _ 2 (Aside.rethrottle (.refl _)) (by decide)
  | 3 => exact aside _ 3 (.ite (Aside.quiesceRegion (.refl _)) (Aside.rethrottle (.foldl (.refl _) fun _ _ hk => hk.discardBasin))) (by decide)
  | 4 => exact respond_zeroize ..
  | r + 5 => exact respond_retire s i unit r

/-- A source's response on the cell (R877). -/
theorem respondOnCell_responds (i rank : Nat) (hcell : s.mod.tether.onCell = true) :
    Responded i rank s (s.upd (respondOnCell s.mod i rank)) := by
  have on {p : Prop} (h : s.mod.tether.onCell = false) : p := by rw [hcell] at h; cases h
  unfold respondOnCell
  split
  · next h0 => exact ⟨rfl, fun _ _ => rfl, rfl, rfl, fun _ => rfl, fun h => by omega, fun _ => rfl, rfl, on, on, on, on⟩
  · split
    · next h4 => exact ⟨rfl, fun _ _ => rfl, rfl, rfl, fun _ => rfl, fun h => by omega, fun _ => rfl, rfl, on, on, on, on⟩
    · next h4 => exact ⟨rfl, fun _ _ => rfl, rfl, rfl, fun h => by omega, fun _ => ⟨rfl, rfl⟩, fun _ => rfl, rfl, on, on, on, on⟩

/-! ### The event of a source -/

/-- The tether with the next sequence number, which an event of a tamper-class source takes (R878). -/
def nextSeq (m : Mod) (i : Nat) : Tether := if (sourceRow i).2.1 then { m.tether with tseq := (m.tether.tseq + 1) % 2 ^ 32 } else m.tether

/-- The tether once an event of a source has been recorded in it (R878, R881). -/
def eventTether (m : Mod) (i code src bpid : Nat) (params : Nat → Octets) : Tether :=
  if (sourceRow i).2.1 then
    buffer (nextSeq m i) (mkRec { m with tether := nextSeq m i } code src bpid (params (nextSeq m i).tseq)) ((m.sys.pilot0 || m.sys.pilot1) && !(nextSeq m i).onCell)
  else nextSeq m i

/-- The module with an event of a source recorded and counted, before the response. -/
def eventTaken (m : Mod) (i code src bpid : Nat) (params : Nat → Octets) : Mod :=
  eventCounted { m with tether := eventTether m i code src bpid params } i

/-- The tether beside the record of an event. -/
def unbuffered (t : Tether) : Tether := { t with tseq := 0, buffer := [], overflow := false, lost := 0 }

theorem unbuffered_buffer (t : Tether) (r : EvRec) (taken : Bool) : unbuffered (buffer t r taken) = unbuffered t := by
  unfold buffer
  split <;> rfl

theorem unbuffered_nextSeq (m : Mod) (i : Nat) : unbuffered (nextSeq m i) = unbuffered m.tether := by
  unfold nextSeq
  split <;> rfl

theorem unbuffered_eventTether (m : Mod) (i code src bpid : Nat) (params : Nat → Octets) :
    unbuffered (eventTether m i code src bpid params) = unbuffered m.tether := by
  unfold eventTether
  split
  · exact (unbuffered_buffer ..).trans (unbuffered_nextSeq m i)
  · exact unbuffered_nextSeq m i

/-- An event of a tamper-class source takes the next tether sequence and an entry of the buffer, or the overflow (R868, R878, R881). -/
theorem eventTether_recorded {m : Mod} {i : Nat} (hc : (sourceRow i).2.1 = true) (code src bpid : Nat) (params : Nat → Octets) :
    (eventTether m i code src bpid params).tseq = (m.tether.tseq + 1) % 2 ^ 32 ∧
      (m.tether.buffer.length < 16 → (eventTether m i code src bpid params).buffer.length = m.tether.buffer.length + 1) ∧
      (16 ≤ m.tether.buffer.length → (eventTether m i code src bpid params).overflow = true ∧
        (eventTether m i code src bpid params).lost = satAdd 8 m.tether.lost 1 ∧
        (eventTether m i code src bpid params).buffer = m.tether.buffer) := by
  have hnext : nextSeq m i = { m.tether with tseq := (m.tether.tseq + 1) % 2 ^ 32 } := if_pos hc
  unfold eventTether buffer
  rw [if_pos hc, hnext]
  dsimp only
  split
  · next hlt => exact ⟨rfl, fun _ => by simp, fun hle => by omega⟩
  · next hge => exact ⟨rfl, fun hlt => absurd hlt hge, fun _ => ⟨rfl, rfl, rfl⟩⟩

theorem Responded.of_raise {rank : Nat} {t : State} {n : Mod} {code src bpid : Nat} {ps : Octets} (h : Responded i rank (s.upd (raise n code src bpid ps)) t) :
    Responded i rank (s.upd n) t :=
  ⟨h.beside, h.others, h.alarm, h.events, h.vault, h.erased, h.sys, h.elapsed, h.inForce, h.ended, h.due, h.fuse⟩

theorem sourceEvent_eq (s : State) (i unit code src bpid rank : Nat) (params : Nat → Octets) :
    sourceEvent s i unit code src bpid rank params =
      if (nextSeq s.mod i).onCell then s.upd (respondOnCell (eventTaken s.mod i code src bpid params) i rank)
      else respond (s.upd (raise (eventTaken s.mod i code src bpid params) code src bpid (params (nextSeq s.mod i).tseq))) i unit rank := rfl

/-- An event of a source is recorded and counted, and the response acts on what that leaves. -/
theorem sourceEvent_responds (s : State) (i unit code src bpid rank : Nat) (params : Nat → Octets) :
    Responded i rank (s.upd (eventTaken s.mod i code src bpid params)) (sourceEvent s i unit code src bpid rank params) := by
  have hnext := congrArg Tether.onCell (unbuffered_nextSeq s.mod i)
  have htaken := congrArg Tether.onCell (unbuffered_eventTether s.mod i code src bpid params)
  rw [sourceEvent_eq]
  split
  · next hon =>
    exact respondOnCell_responds (s := s.upd (eventTaken s.mod i code src bpid params)) i rank (htaken.trans (hnext.symm.trans hon))
  · exact .of_raise (respond_responds (s.upd (raise (eventTaken s.mod i code src bpid params) code src bpid (params (nextSeq s.mod i).tseq))) i unit rank)

/-- The tether beside what an event of a source and its response change. -/
def untold (t : Tether) : Tether := beside (unbuffered t)

/-- What an event of a source does, with its response (R868 to R889). -/
structure Raised (i rank : Nat) (s t : State) : Prop where
  tether : untold t.mod.tether = untold s.mod.tether
  alarm : (source t.mod i).alarm = (source s.mod i).alarm
  events : (source t.mod i).events = satAdd 32 (source s.mod i).events 1
  seq : (sourceRow i).2.1 = true → t.mod.tether.tseq = (s.mod.tether.tseq + 1) % 2 ^ 32
  entry : (sourceRow i).2.1 = true → s.mod.tether.buffer.length < 16 → t.mod.tether.buffer.length = s.mod.tether.buffer.length + 1
  full : (sourceRow i).2.1 = true → 16 ≤ s.mod.tether.buffer.length →
    t.mod.tether.overflow = true ∧ t.mod.tether.lost = satAdd 8 s.mod.tether.lost 1 ∧ t.mod.tether.buffer = s.mod.tether.buffer
  vault : rank < 4 → t.mod.tether.vault = s.mod.tether.vault
  erased : 4 ≤ rank → t.mod.tether.vault = erasedVault ∧ t.mod.tether.zeroized = true
  sys : rank < 4 → t.mod.sys = s.mod.sys
  elapsed : t.mod.sys.elapsed = s.mod.sys.elapsed
  inForce : s.mod.tether.onCell = false → rank ≤ (source t.mod i).inForce
  ended : s.mod.tether.onCell = false → 4 ≤ rank → ∀ j, j < 32 → (sess s.mod j).state ≤ 2 → (sess t.mod j).state = 0
  due : s.mod.tether.onCell = false → 4 ≤ rank → t.mod.sys.zeroAt = some (s.mod.sys.elapsed + 100 * msCycles, if rank = 4 then 2 else 3)
  fuse : s.mod.tether.onCell = false → 5 ≤ rank → t.otp.retired = true

theorem sourceEvent_raised (s : State) (i unit code src bpid rank : Nat) (params : Nat → Octets) :
    Raised i rank s (sourceEvent s i unit code src bpid rank params) := by
  have h := sourceEvent_responds s i unit code src bpid rank params
  obtain ⟨halarm, hevents⟩ : (source (eventTaken s.mod i code src bpid params) i).alarm = (source s.mod i).alarm ∧
      (source (eventTaken s.mod i code src bpid params) i).events = satAdd 32 (source s.mod i).events 1 := by
    unfold eventTaken eventCounted
    rw [source_setSource_same]
    exact ⟨rfl, rfl⟩
  have hkept := unbuffered_eventTether s.mod i code src bpid params
  have hvault := congrArg Tether.vault hkept
  have honcell := congrArg Tether.onCell hkept
  have hcell {p : Prop} (hp : (eventTaken s.mod i code src bpid params).tether.onCell = false → p) (hoff : s.mod.tether.onCell = false) : p :=
    hp (honcell.trans hoff)
  refine ⟨(congrArg unbuffered h.beside).trans (congrArg beside hkept), h.alarm.trans halarm,
    h.events.trans hevents, fun hc => ?_, fun hc hlt => ?_, fun hc hle => ?_, fun hr => (h.vault hr).trans hvault,
    h.erased, h.sys, h.elapsed, hcell h.inForce, hcell h.ended, hcell h.due, hcell h.fuse⟩
  · obtain ⟨hseq, -, -⟩ := eventTether_recorded (m := s.mod) hc code src bpid params
    exact (congrArg Tether.tseq h.beside).trans hseq
  · obtain ⟨-, hentry, -⟩ := eventTether_recorded (m := s.mod) hc code src bpid params
    exact (congrArg (fun t => t.buffer.length) h.beside).trans (hentry hlt)
  · obtain ⟨-, -, hfull⟩ := eventTether_recorded (m := s.mod) hc code src bpid params
    obtain ⟨hover, hlost, hbuffer⟩ := hfull hle
    exact ⟨(congrArg Tether.overflow h.beside).trans hover, (congrArg Tether.lost h.beside).trans hlost, (congrArg Tether.buffer h.beside).trans hbuffer⟩

/-- What follows a command leaves what an event of a source did. -/
theorem Raised.finish {rank : Nat} {t : State} (h : Raised i rank s t) : Raised i rank s (finish t) := by
  obtain ⟨overs, ev, hform⟩ := settleOver_form t.mod
  have heq : Machine.finish t = t.upd { t.mod with overs := overs, ev := ev } := congrArg t.upd hform
  rw [heq]
  exact ⟨h.tether, h.alarm, h.events, h.seq, h.entry, h.full, h.vault, h.erased, h.sys, h.elapsed, h.inForce, h.ended, h.due, h.fuse⟩

end Sys2Proof.Machine
end

