-- ==== Sys2Proof/Proofs/TamperEvents.lean ====
section
/-! PROOFS. The quantities and monitors of the tether, its pins and the host loop (R861 to R867). -/

namespace Sys2Proof.Machine

variable {s : State} {m : Mod}

/-! ### Quantities and monitors -/

/-- A quantity newly in alarm (R861). -/
def quantityMarked (m : Mod) (q : Nat) (det : Detector) : Mod :=
  setAlarm { m with tether := { m.tether with qAlarm := setBit m.tether.qAlarm q true
                                              detectors := m.tether.detectors ||| detectorBits det * 4 ^ q } } q true

theorem source_setAlarm_same (m : Mod) (i : Nat) (on : Bool) : source (setAlarm m i on) i = { source m i with alarm := on } := source_setSource_same ..

theorem quantityAlarm_raised {q : Nat} {det : Detector} (hwatch : s.mod.tether.onCell = false ∨ q ≠ 2) (hnew : s.mod.tether.qAlarm.testBit q = false) :
    Raised q (responseOf s.mod q) (s.upd (quantityMarked s.mod q det)) (finish (quantityAlarm s q det)) := by
  have hon : ¬(s.mod.tether.onCell = true ∧ q = 2) := by
    rintro ⟨hcell, hq⟩
    obtain h | h := hwatch
    · rw [hcell] at h
      cases h
    · exact h hq
  unfold quantityAlarm
  dsimp only
  rw [if_neg hon, if_neg (by rw [hnew]; exact Bool.false_ne_true)]
  exact (sourceEvent_raised (s.upd (quantityMarked s.mod q det)) q ..).finish

/-- A monitor fault newly marked (R862, R865). -/
def faultMarked (m : Mod) (q : Nat) : Mod := setAlarm { m with tether := { m.tether with qFault := setBit m.tether.qFault q true } } 9 true

theorem monitorAlarm_raised {q det : Nat} (hwatch : s.mod.tether.onCell = false ∨ q ≠ 2) (hnew : s.mod.tether.qFault.testBit q = false) :
    Raised 9 (responseOf s.mod 9) (s.upd (faultMarked s.mod q)) (finish (monitorAlarm s q det)) := by
  have hon : ¬(s.mod.tether.qFault.testBit q = true ∨ s.mod.tether.onCell = true ∧ q = 2) := by
    rintro (hbit | ⟨hcell, hq⟩)
    · rw [hnew] at hbit
      cases hbit
    · obtain h | h := hwatch
      · rw [hcell] at h
        cases h
      · exact h hq
  unfold monitorAlarm
  dsimp only
  rw [if_neg hon]
  exact (sourceEvent_raised (s.upd (faultMarked s.mod q)) 9 ..).finish

/-- A monitor fault is marked, counted and puts source 9 in alarm. -/
theorem monitorAlarm_marks {q det : Nat} (hwatch : s.mod.tether.onCell = false ∨ q ≠ 2) (hnew : s.mod.tether.qFault.testBit q = false) :
    (finish (monitorAlarm s q det)).mod.tether.qFault.testBit q = true ∧ (source (finish (monitorAlarm s q det)).mod 9).alarm = true ∧
      (source (finish (monitorAlarm s q det)).mod 9).events = satAdd 32 (source s.mod 9).events 1 := by
  have h := monitorAlarm_raised (det := det) hwatch hnew
  have hmarked : source (faultMarked s.mod q) 9 = { source s.mod 9 with alarm := true } := source_setAlarm_same ..
  have hfault := congrArg (fun t => t.qFault.testBit q) h.tether
  refine ⟨hfault.trans (testBit_setBit_same ..), h.alarm.trans ?_, h.events.trans ?_⟩
  · rw [State.upd_mod, hmarked]
  · rw [State.upd_mod, hmarked]

theorem tamperClass_quantity (q : Fin 6) : (sourceRow q.val).2.1 = true := by
  have h : ∀ q : Fin 6, (sourceRow q.val).2.1 = true := by decide
  exact h q

theorem quantityClear_marked {q : Nat} (h : m.tether.qAlarm.testBit q = true) : quantityClear m q =
    setAlarm { m with tether := { m.tether with qAlarm := setBit m.tether.qAlarm q false
                                                detectors := m.tether.detectors - m.tether.detectors / 4 ^ q % 4 * 4 ^ q } } q false := if_pos h

theorem exec_tamperAlarm (q : Fin 6) (det : Detector) : exec (.tamperAlarm q det) s = .next (finish (quantityAlarm s q det)) :=
  run_wf "TAMPER_ALARM" (.tamperAlarm q det) s (fun s => quantityAlarm s q det) rfl
theorem exec_tamperAlarmClear (q : Fin 6) : exec (.tamperAlarmClear q) s = .next (finish (s.upd (quantityClear s.mod q))) :=
  run_wf "TAMPER_ALARM_CLEAR" (.tamperAlarmClear q) s (onMod fun m => quantityClear m q) rfl
theorem exec_monitorFault (q : Fin 6) (det : Detector) : exec (.monitorFault q det) s = .next (finish (monitorAlarm s q (detectorBits det))) :=
  run_wf "MONITOR_FAULT" (.monitorFault q det) s (fun s => monitorAlarm s q (detectorBits det)) rfl
theorem exec_zeroizePinFault (b : Bool) : exec (.zeroizePinFault b) s = .next (finish (monitorAlarm s 6 (if b then 2 else 1))) :=
  run_wf "ZEROIZE_PIN_FAULT" (.zeroizePinFault b) s (fun s => monitorAlarm s 6 (if b then 2 else 1)) rfl
theorem exec_monitorFaultClear (q : Fin 7) : exec (.monitorFaultClear q) s = .next (finish (s.upd (monitorClear s.mod q))) :=
  run_wf "MONITOR_FAULT_CLEAR" (.monitorFaultClear q) s (onMod fun m => monitorClear m q) rfl

/-- Settles O42: an alarm is marked before its event, and no response unmarks it. -/
theorem tamperAlarmsRecordAndRespond : Obligations.TamperAlarmsRecordAndRespond := by
  refine ⟨fun s q det hwatch hnew => ?_, fun s q hset => ?_, fun s q det hwatch hnew => ⟨_, exec_monitorFault q det, monitorAlarm_marks hwatch hnew⟩,
    fun s b hnew => ⟨_, exec_zeroizePinFault b, monitorAlarm_marks (.inr (by decide)) hnew⟩, fun s q => ?_⟩
  · have h := quantityAlarm_raised (det := det) hwatch hnew
    have hmarked : source (quantityMarked s.mod q det) q = { source s.mod q with alarm := true } := source_setAlarm_same ..
    have hclass := tamperClass_quantity q
    have halarm := congrArg (fun t => t.qAlarm.testBit q) h.tether
    refine ⟨_, exec_tamperAlarm q det, halarm.trans (testBit_setBit_same ..), h.alarm.trans (congrArg Source.alarm hmarked), h.events.trans ?_,
      h.seq hclass, h.entry hclass, h.full hclass, h.erased, fun hr hcell => ⟨h.ended hcell hr, h.due hcell hr, h.fuse hcell⟩⟩
    rw [State.upd_mod, hmarked]
  · refine ⟨_, exec_tamperAlarmClear q, ?_⟩
    rw [finish_mod, State.upd_mod, source_settleOver, settleOver_tether, quantityClear_marked hset, source_setAlarm_same]
    exact ⟨testBit_setBit_same .., rfl, rfl, fun r hr => testBit_setBit_ne _ _ hr⟩
  · refine ⟨_, exec_monitorFaultClear q, ?_⟩
    rw [finish_mod, State.upd_mod, source_settleOver, settleOver_tether, monitorClear, source_setAlarm_same]
    exact ⟨testBit_setBit_same .., rfl, fun r hr => testBit_setBit_ne _ _ hr⟩

/-! ### Pins and the host loop -/

theorem exec_zeroizePins : exec .zeroizePins s = .next (finish (zeroizePins s)) := run_wf "ZEROIZE_PINS" .zeroizePins s (fun s => zeroizePins s) rfl
theorem exec_quiesceNAssert : exec .quiesceNAssert s = .next (finish (quiesceAssert s)) :=
  run_wf "QUIESCE_N_ASSERT" .quiesceNAssert s (fun s => quiesceAssert s) rfl
theorem exec_quiesceNRelease : exec .quiesceNRelease s = .next (finish (s.upd (quiesceRelease s.mod))) :=
  run_wf "QUIESCE_N_RELEASE" .quiesceNRelease s (onMod fun m => quiesceRelease m) rfl
theorem exec_hostloopPulse (b : Bool) : exec (.hostloopPulse b) s = .next (finish (loopPulse s b)) :=
  run_wf "HOSTLOOP_PULSE" (.hostloopPulse b) s (fun s => loopPulse s b) rfl

/-- QUIESCE_N low, its source in alarm (R866). -/
def quiescing (m : Mod) : Mod := setAlarm { m with tether := { m.tether with quiescePin := true } } 8 true

theorem quiesceAssert_raised (hcell : s.mod.tether.onCell = false) (hrun : s.mod.sys.running = true) (hstep : 3 ≤ s.mod.sys.step)
    (hpin : s.mod.tether.quiescePin = false) : Raised 8 3 (s.upd (quiescing s.mod)) (finish (quiesceAssert s)) := by
  unfold quiesceAssert
  dsimp only
  rw [if_neg (by rw [hcell]; exact Bool.false_ne_true), if_neg (by rw [hrun, hpin]; simp; omega)]
  exact (sourceEvent_raised (s.upd (quiescing s.mod)) 8 ..).finish

/-- QUIESCE_N released ends its alarm and its Quiesce (R866). -/
theorem quiesceRelease_ends (hcell : m.tether.onCell = false) : (quiesceRelease m).tether.quiescePin = false ∧ (source (quiesceRelease m) 8).alarm = false ∧
    ((source m 8).alarm = true → (source (quiesceRelease m) 8).inForce = 0) := by
  unfold quiesceRelease
  dsimp only
  rw [if_neg (by rw [hcell]; exact Bool.false_ne_true)]
  split
  · have released (n : Mod) (hpin : n.tether.quiescePin = false) (hoff : (source n 8).alarm = false) (hnone : (source n 8).inForce = 0) :
        (rethrottle m n).tether.quiescePin = false ∧ (source (rethrottle m n) 8).alarm = false ∧ (source (rethrottle m n) 8).inForce = 0 := by
      have haside : Aside n (rethrottle m n) := (Aside.refl n).rethrottle
      have hsource : source (rethrottle m n) 8 = source n 8 := by unfold source; rw [haside.sources]
      rw [hsource, haside.tether]
      exact ⟨hpin, hoff, hnone⟩
    obtain ⟨hpin, hoff, hnone⟩ := released
      (raise (setSource { m with tether := { m.tether with quiescePin := false } } 8 { source m 8 with alarm := false, inForce := 0, units := [] })
        0x9009 srcTether 0 (b1 0)) rfl (congrArg Source.alarm (source_setSource_same _ 8 _)) (congrArg Source.inForce (source_setSource_same _ 8 _))
    exact ⟨hpin, hoff, fun _ => hnone⟩
  · next hoff => exact ⟨rfl, Bool.eq_false_iff.mpr hoff, fun hon => absurd hon hoff⟩

/-- The host loop with a pulse returned, and with one missed (R867). -/
def loopReturned (m : Mod) : Mod := { m with tether := { m.tether with loopMissed := 0, loopGood := m.tether.loopGood + 1 } }
def loopMiss (m : Mod) : Mod := { m with tether := { m.tether with loopMissed := m.tether.loopMissed + 1, loopGood := 0 } }

theorem loopPulse_returned (hloop : (if s.mod.tether.onCell then s.mod.tether.loopOn else infB s.mod 0x9000 7 0) = true) :
    loopPulse s true = s.upd (if 100 ≤ s.mod.tether.loopGood + 1 then setAlarm (loopReturned s.mod) 6 false else loopReturned s.mod) := by
  unfold loopPulse
  dsimp only
  rw [hloop]
  rfl

theorem loopPulse_missed (hloop : (if s.mod.tether.onCell then s.mod.tether.loopOn else infB s.mod 0x9000 7 0) = true)
    (h : s.mod.tether.loopMissed = 0 ∨ (source s.mod 6).alarm = true) : loopPulse s false = s.upd (loopMiss s.mod) := by
  have hno : ¬(2 ≤ s.mod.tether.loopMissed + 1 ∧ (!(source s.mod 6).alarm) = true) := by
    rintro ⟨htwo, halarm⟩
    obtain h | h := h
    · omega
    · rw [h] at halarm
      cases halarm
  unfold loopPulse
  dsimp only
  rw [hloop]
  exact if_neg hno

/-- The second pulse missed in a row raises source 6 (R867). -/
theorem loopPulse_raised (hloop : (if s.mod.tether.onCell then s.mod.tether.loopOn else infB s.mod 0x9000 7 0) = true)
    (hmissed : 1 ≤ s.mod.tether.loopMissed) (halarm : (source s.mod 6).alarm = false) :
    Raised 6 (responseOf s.mod 6) (s.upd (setAlarm (loopMiss s.mod) 6 true)) (finish (loopPulse s false)) := by
  unfold loopPulse
  dsimp only
  rw [hloop, if_neg (by decide), if_neg Bool.false_ne_true, if_pos ⟨by omega, by rw [halarm]; rfl⟩]
  exact (sourceEvent_raised (s.upd (setAlarm (loopMiss s.mod) 6 true)) 6 ..).finish

/-- Settles O43: each of the pins and the loop marks its source, and what the response does keeps the mark. -/
theorem pinsAndHostLoopAct : Obligations.PinsAndHostLoopAct := by
  refine ⟨fun s hrank => ?_, fun s hcell hrun hstep hpin => ?_, fun s hcell => ?_, fun s hloop => ⟨?_, ?_⟩⟩
  · have hraised : Raised 7 (responseOf s.mod 7) s (zeroizePins s) := by
      unfold zeroizePins
      exact sourceEvent_raised s 7 ..
    have h := hraised.finish
    exact ⟨_, exec_zeroizePins, h.events, h.seq rfl, (h.erased hrank).1, fun hcell => h.ended hcell hrank⟩
  · have h := quiesceAssert_raised hcell hrun hstep hpin
    have hmarked : source (quiescing s.mod) 8 = { source s.mod 8 with alarm := true } := source_setAlarm_same ..
    have hlow := congrArg Tether.quiescePin h.tether
    refine ⟨_, exec_quiesceNAssert, hlow, h.alarm.trans (congrArg Source.alarm hmarked), h.inForce hcell, h.events.trans ?_⟩
    rw [State.upd_mod, hmarked]
  · refine ⟨_, exec_quiesceNRelease, ?_⟩
    rw [finish_mod, State.upd_mod, source_settleOver, settleOver_tether]
    exact quiesceRelease_ends hcell
  · refine ⟨_, exec_hostloopPulse true, ?_⟩
    rw [loopPulse_returned hloop, finish_mod, State.upd_mod, source_settleOver, settleOver_tether]
    split
    · exact ⟨rfl, rfl, fun _ => by rw [source_setAlarm_same]⟩
    · next hfew => exact ⟨rfl, rfl, fun hmany => absurd (Nat.succ_le_succ hmany) hfew⟩
  · refine ⟨_, exec_hostloopPulse false, ?_⟩
    by_cases hquiet : s.mod.tether.loopMissed = 0 ∨ (source s.mod 6).alarm = true
    · rw [loopPulse_missed hloop hquiet, finish_mod, State.upd_mod, source_settleOver, settleOver_tether]
      refine ⟨rfl, rfl, fun hmissed => ?_, fun _ => rfl⟩
      have halarm : (source s.mod 6).alarm = true := hquiet.resolve_left (by omega)
      exact ⟨halarm, fun hoff => Bool.noConfusion (halarm.symm.trans hoff)⟩
    · obtain ⟨hmissed, hoff⟩ := not_or.mp hquiet
      have h := loopPulse_raised hloop (by omega) (Bool.eq_false_iff.mpr hoff)
      have hmarked : source (setAlarm (loopMiss s.mod) 6 true) 6 = { source s.mod 6 with alarm := true } := source_setAlarm_same ..
      have hcount := congrArg Tether.loopMissed h.tether
      have hgood := congrArg Tether.loopGood h.tether
      refine ⟨hcount, hgood, fun _ => ⟨h.alarm.trans (congrArg Source.alarm hmarked), fun _ => h.events.trans ?_⟩, fun h0 => absurd h0 hmissed⟩
      rw [State.upd_mod, hmarked]

end Sys2Proof.Machine
end

