-- ==== Sys2Proof/Proofs/CellAndRetire.lean ====
section
/-! PROOFS. The tamper bits, the cell and its swap window (R857, R878 to R887), and the release of responses and the retire confirmation (R873, R888). -/

namespace Sys2Proof.Machine

variable {s : State} {m n : Mod} {h : Hdr} {i : Nat}

/-! ### The tamper bits -/

theorem exec_tamperBitBurn : exec .tamperBitBurn s = .next (finish (burnEntry s)) :=
  run_wf "TAMPER_BIT_BURN" .tamperBitBurn s (fun s => burnEntry s) rfl

theorem burn_tether (s : State) : (burn s).mod.tether = s.mod.tether := by
  unfold burn
  dsimp only
  split
  · rfl
  · split <;> rfl

/-- A bit is burned in both mirrors, or counted past the last (R878, R882, R883). -/
theorem burn_burns (s : State) : (tamperCount s.otp ≠ 4096 → (burn s).otp = burnBit s.otp) ∧
    (tamperCount s.otp = 4096 → (burn s).otp = s.otp ∧ (burn s).mod.sys.pastSaturation = satAdd 32 s.mod.sys.pastSaturation 1) := by
  unfold burn
  dsimp only
  split
  · next hfull => exact ⟨fun hroom => absurd hfull hroom, fun _ => ⟨rfl, rfl⟩⟩
  · next hroom =>
    refine ⟨fun _ => ?_, fun hfull => absurd hfull hroom⟩
    split <;> rfl

theorem burnEntry_burns (hu : s.mod.tether.buffer.any (·.unburned) = true) (hp : s.mod.sys.pilot0 = true ∨ s.mod.sys.pilot1 = true)
    (hcell : s.mod.tether.onCell = false) :
    burnEntry s = (burn s).upd { (burn s).mod with tether := { (burn s).mod.tether with buffer := markBurned (burn s).mod.tether.buffer } } :=
  if_pos ⟨hu, hp, by rw [hcell]; rfl⟩

/-! ### The cell -/

theorem exec_cellRemove : exec .cellRemove s = .next (finish (removeCell s)) := run_wf "CELL_REMOVE" .cellRemove s (fun s => removeCell s) rfl
theorem exec_cellInsert : exec .cellInsert s = .next (finish (insertCell s)) := run_wf "CELL_INSERT" .cellInsert s (fun s => insertCell s) rfl
theorem exec_lossOfAllPower : exec .lossOfAllPower s = .next (finish (s.upd (allPowerLost s.mod))) :=
  run_wf "LOSS_OF_ALL_POWER" .lossOfAllPower s (onMod fun m => allPowerLost m) rfl

/-- A module with its cell removed, and with one fitted. -/
def cellOut (m : Mod) : Mod := { m with tether := { m.tether with cellPresent := false } }
def cellIn (m : Mod) : Mod := { m with tether := { m.tether with cellPresent := true, swapSwapped := true } }

theorem cellRecord_raised (s : State) : Raised 5 0 s (finish (cellRecord s)) := (sourceEvent_raised s 5 ..).finish

/-- An alarm of the cell's quantity, new or not, leaves the cell and the swap window as they were. -/
theorem quantityAlarm_cell (s : State) (det : Detector) :
    (finish (quantityAlarm s 5 det)).mod.tether.cellPresent = s.mod.tether.cellPresent ∧
      (finish (quantityAlarm s 5 det)).mod.tether.swapEnd = s.mod.tether.swapEnd := by
  cases hbit : s.mod.tether.qAlarm.testBit 5 with
  | false =>
    have h := quantityAlarm_raised (det := det) (.inr (by decide)) hbit
    exact ⟨(congrArg Tether.cellPresent h.tether).trans rfl, (congrArg Tether.swapEnd h.tether).trans rfl⟩
  | true =>
    unfold quantityAlarm
    dsimp only
    rw [if_neg (by omega), if_pos hbit, finish_mod, State.upd_mod, settleOver_tether]
    exact ⟨rfl, rfl⟩

theorem quantityAlarm_marks {q : Nat} {det : Detector} (hwatch : s.mod.tether.onCell = false ∨ q ≠ 2) (hnew : s.mod.tether.qAlarm.testBit q = false) :
    (finish (quantityAlarm s q det)).mod.tether.qAlarm.testBit q = true ∧ (source (finish (quantityAlarm s q det)).mod q).alarm = true := by
  have h := quantityAlarm_raised (det := det) hwatch hnew
  have hmarked : source (quantityMarked s.mod q det) q = { source s.mod q with alarm := true } := source_setAlarm_same ..
  have hset := congrArg (fun t => t.qAlarm.testBit q) h.tether
  exact ⟨hset.trans (testBit_setBit_same ..), h.alarm.trans (congrArg Source.alarm hmarked)⟩

theorem removeCell_onCell (hin : s.mod.tether.cellPresent = true) (hcell : s.mod.tether.onCell = true) :
    removeCell s = s.upd (losePower (cellOut s.mod)) := by
  unfold removeCell
  dsimp only
  rw [if_neg (by rw [hin]; decide), if_pos hcell]
  rfl

theorem removeCell_inWindow (hin : s.mod.tether.cellPresent = true) (hcell : s.mod.tether.onCell = false) (hw : s.mod.tether.swapEnd.isSome = true) :
    removeCell s = cellRecord (s.upd (cellOut s.mod)) := by
  unfold removeCell
  dsimp only
  rw [if_neg (by rw [hin]; decide), if_neg (by rw [hcell]; decide), if_pos hw]
  rfl

theorem removeCell_outside (hin : s.mod.tether.cellPresent = true) (hcell : s.mod.tether.onCell = false) (hw : s.mod.tether.swapEnd = none) :
    removeCell s = quantityAlarm (s.upd (cellOut s.mod)) 5 .both := by
  unfold removeCell
  dsimp only
  rw [if_neg (by rw [hin]; decide), if_neg (by rw [hcell]; decide), if_neg (by rw [hw]; decide)]
  rfl

theorem insertCell_fits (hout : s.mod.tether.cellPresent = false) :
    (finish (insertCell s)).mod.tether.cellPresent = true ∧ (finish (insertCell s)).mod.tether.swapSwapped = true := by
  have recorded := (cellRecord_raised (s.upd (cellIn s.mod))).tether
  have hin := congrArg Tether.cellPresent recorded
  have hswapped := congrArg Tether.swapSwapped recorded
  unfold insertCell
  dsimp only
  rw [if_neg (by rw [hout]; decide)]
  split
  · exact ⟨hin, hswapped⟩
  · rw [finish_mod, State.upd_mod, settleOver_tether]
    exact ⟨rfl, rfl⟩

/-! ### The swap window -/

theorem exec_cellSwapWindowWrite {minutes : Nat} (hw : (Instr.cellSwapWindowWrite h minutes).wf = true) :
    exec (.cellSwapWindowWrite h minutes) s = .next (finish (writeRow s h 0x9030 1 none (b1 minutes))) :=
  run_wf "CELL_SWAP_WINDOW_WRITE" _ s (fun s => writeRow s h 0x9030 1 none (b1 minutes)) hw
theorem exec_cellSwapWindowClose {mv : Nat} (hw : (Instr.cellSwapWindowClose mv).wf = true) :
    exec (.cellSwapWindowClose mv) s = .next (finish (s.upd (stableCell s.mod mv))) :=
  run_wf "CELL_SWAP_WINDOW_CLOSE" (.cellSwapWindowClose mv) s (onMod fun m => stableCell m mv) hw
theorem exec_cellSwapWindowExpire : exec .cellSwapWindowExpire s = .next (finish (expireWindow s)) :=
  run_wf "CELL_SWAP_WINDOW_EXPIRE" .cellSwapWindowExpire s (fun s => expireWindow s) rfl

theorem swapMinutes_fit {minutes : Nat} (hw : (Instr.cellSwapWindowWrite h minutes).wf = true) : minutes < 256 ^ 1 := by
  simp only [Instr.wf, fitsU, Bool.and_eq_true, decide_eq_true_eq] at hw
  omega

/-- A swap window is opened for its minutes, or closed with 0 (R885). -/
theorem swapWindow_sets (m : Mod) (minutes : Nat) : (swapWindow m minutes).mgmt = m.mgmt ∧
    (swapWindow m minutes).tether.swapEnd = if minutes = 0 then none else some (m.sys.elapsed + minutes * 60 * secCycles) := by
  unfold swapWindow
  split
  · cases hw : m.tether.swapEnd with
    | none => exact ⟨rfl, hw⟩
    | some e => exact ⟨rfl, rfl⟩
  · exact ⟨rfl, rfl⟩

theorem writeRow_swapWindow {minutes : Nat} (hc : WriteClears s.mod h i 0x9030 1 none (b1 minutes)) (hfit : minutes < 256 ^ 1) : ∃ bodies ≠ [],
    writeRow s h 0x9030 1 none (b1 minutes) =
      answerWrite s (s.upd (swapWindow (setObj (accept s.mod h i) 0x9030 1 0 (.nat minutes)) minutes)) h i 0 bodies :=
  writeRow_module (v := .nat minutes) (n := swapWindow (setObj (accept s.mod h i) 0x9030 1 0 (.nat minutes)) minutes) _ hc rfl (by decide)
    (congrArg (fun n => some (Val.nat n)) (natOf_bytesOf hfit)) rfl rfl

theorem stableCell_closes {mv : Nat} (hw : m.tether.swapEnd.isSome = true) (hin : m.tether.cellPresent = true) (hs : m.tether.swapSwapped = true)
    (hv : 2900 < mv) : stableCell m mv = closeWindow m mv 0 := if_pos (by rw [hw, hin, hs, decide_eq_true hv]; rfl)

/-- The swap window closed at its end (R886). -/
def windowExpired (m : Mod) (e : Nat) : Mod := closeWindow (advanceTo m e) (Config.sensor 0x9030 3 0 (advanceTo m e).sys.elapsed % 65536) 1

/-- The same, the cell's quantity ready to be in alarm again. -/
def cellMissed (m : Mod) (e : Nat) : Mod :=
  { windowExpired m e with tether := { (windowExpired m e).tether with qAlarm := setBit (windowExpired m e).tether.qAlarm 5 false } }

theorem expireWindow_eq {e : Nat} (he : s.mod.tether.swapEnd = some e) : expireWindow s =
    if (advanceTo s.mod e).tether.cellPresent then s.upd (windowExpired s.mod e) else quantityAlarm (s.upd (cellMissed s.mod e)) 5 .both := by
  unfold expireWindow
  rw [he]
  rfl

/-! ### The release of a response -/

theorem exec_responseRelease {x : Nat} (hw : (Instr.responseRelease h x true).wf = true) :
    exec (.responseRelease h x true) s = .next (finish (writeRow s h 0x9010 6 (some x) (b1 (b01 true)))) :=
  run_wf "RESPONSE_RELEASE" _ s (fun s => writeRow s h 0x9010 6 (some x) (b1 (b01 true))) hw

theorem writeRow_release {x : Nat} (hc : WriteClears s.mod h i 0x9010 6 (some x) (b1 1)) : ∃ bodies ≠ [],
    writeRow s h 0x9010 6 (some x) (b1 1) =
      answerWrite s (s.upd (releaseResponse (accept s.mod h i) x).1) h i (releaseResponse (accept s.mod h i) x).2 bodies :=
  writeRow_status (v := .nat 1) (r := releaseResponse (accept s.mod h i) x) _ hc rfl (by decide) rfl rfl rfl

theorem source_answerWrite (s n : State) (h : Hdr) (i status : Nat) (bodies : List Octets) (j : Nat) :
    source (finish (answerWrite s n h i status bodies)).mod j = source n.mod j := by
  unfold source
  rw [answerWrite_sources]

theorem retarget_mgmt (m : Mod) (q : Nat) : (retarget m q).mgmt = m.mgmt := by
  have hrates : (switchRates m q).mgmt = m.mgmt := by
    obtain ⟨queues, hform⟩ := switchRates_form m q
    rw [hform]
  have either (c : Prop) [Decidable c] {a b : Mod} (ha : a.mgmt = m.mgmt) (hb : b.mgmt = m.mgmt) : (if c then a else b).mgmt = m.mgmt := by
    split
    · exact ha
    · exact hb
  unfold retarget
  exact either _ hrates (either _ hrates rfl)

theorem rethrottle_mgmt (was m : Mod) : (rethrottle was m).mgmt = m.mgmt := by
  unfold rethrottle
  refine foldl_keeps Mod.mgmt _ (fun n b => ?_) [0, 1, 2, 3] m
  split
  · rfl
  · exact foldl_keeps Mod.mgmt retarget retarget_mgmt _ n

/-- A response that is released: its source has none in force (R873). -/
theorem releaseResponse_released {x : Nat} (hx : x ≠ 8) (halarm : (source m x).alarm = false) :
    (releaseResponse m x).2 = 0 ∧ (releaseResponse m x).1.mgmt = m.mgmt ∧ (source (releaseResponse m x).1 x).inForce = 0 ∧
      (source (releaseResponse m x).1 x).units = [] := by
  have haside (n : Mod) : Aside n (rethrottle m n) := (Aside.refl n).rethrottle
  have hsource (n : Mod) : source (rethrottle m n) x = source n x := by unfold source; rw [(haside n).sources]
  unfold releaseResponse
  rw [if_neg hx, if_neg (by rw [halarm]; decide)]
  dsimp only
  rw [hsource, source_setSource_same]
  refine ⟨rfl, ?_, rfl, rfl⟩
  exact rethrottle_mgmt m (setSource m x { source m x with inForce := 0, units := [] })

/-! ### The retire confirmation -/

theorem exec_retireConfirmation {serial : Octets} (hw : (Instr.retireConfirmation h serial).wf = true) :
    exec (.retireConfirmation h serial) s = .next (finish (writeRow s h 0x9040 1 none serial)) :=
  run_wf "RETIRE_CONFIRMATION" _ s (fun s => writeRow s h 0x9040 1 none serial) hw
theorem exec_retireConfirmationExpire : exec .retireConfirmationExpire s = .next (finish (s.upd (expireRetire s.mod))) :=
  run_wf "RETIRE_CONFIRMATION_EXPIRE" .retireConfirmationExpire s (onMod fun m => expireRetire m) rfl

theorem writeRow_retire {serial : Octets} (hc : WriteClears s.mod h i 0x9040 1 none serial) : ∃ bodies ≠ [],
    writeRow s h 0x9040 1 none serial = answerWrite s (confirmRetire (s.upd (accept s.mod h i)) (sess (accept s.mod h i) i).cred serial).1 h i
      (confirmRetire (s.upd (accept s.mod h i)) (sess (accept s.mod h i) i).cred serial).2 bodies :=
  writeRow_state (v := .oct serial) (r := confirmRetire (s.upd (accept s.mod h i)) (sess (accept s.mod h i) i).cred serial) _ hc rfl (by decide) rfl rfl rfl

/-- The slot of a session is one of 32. -/
theorem slot_lt {k : Nat} (hs : slotOf m k = some i) : i < 32 := by
  unfold slotOf firstBelow at hs
  exact List.mem_range.mp (List.mem_of_find?_eq_some hs)

/-- A first confirmation is held with its credential and time (R888). -/
def retireHeld (m : Mod) (cred : Nat) : Mod := { m with mgmt := { m.mgmt with retireBy := some (cred, m.sys.elapsed) } }

/-- The module as a second confirmation retires it: none is held any more. -/
def retireTaken (m : Mod) : Mod := { m with mgmt := { m.mgmt with retireBy := none } }

theorem confirmRetire_wrongSerial {cred : Nat} {serial : Octets} (hs : serial ≠ s.otp.serial) : confirmRetire s cred serial = (s, 0x2001) := if_pos hs

theorem confirmRetire_first {cred : Nat} {serial : Octets} (hs : serial = s.otp.serial) (hb : s.mod.mgmt.retireBy = none) :
    confirmRetire s cred serial = (s.upd (retireHeld s.mod cred), 0) := by
  unfold confirmRetire
  rw [if_neg (not_not.mpr hs), hb]
  rfl

theorem confirmRetire_second {cred c e : Nat} {serial : Octets} (hs : serial = s.otp.serial) (hb : s.mod.mgmt.retireBy = some (c, e)) :
    confirmRetire s cred serial =
    if c = cred then (s, 0x1005)
    else if e + 300 * secCycles < s.mod.sys.elapsed then (s.upd (retireHeld s.mod cred), 0)
    else (retire (s.upd (retireTaken s.mod)) 1, 0) := by
  unfold confirmRetire
  rw [if_neg (not_not.mpr hs), hb]
  rfl

/-- A held confirmation lapses after 300 s (R888). -/
theorem expireRetire_lapses {c e : Nat} (hb : m.mgmt.retireBy = some (c, e)) :
    (expireRetire m).mgmt.retireBy = none ∧ e + 300 * secCycles ≤ (expireRetire m).sys.elapsed := by
  unfold expireRetire
  rw [hb]
  exact ⟨rfl, le_advanceTo_elapsed m (e + 300 * secCycles)⟩

/-! ### The obligations -/

/-- Settles O45: the cell and its window are parts of the tether that no event of source 5 changes. -/
theorem tamperBitsAndCellAreKept : Obligations.TamperBitsAndCellAreKept := by
  refine ⟨fun s hu hp hcell => ?_, fun s hin => ?_, fun s hout => ⟨_, exec_cellInsert, insertCell_fits hout⟩, fun s h i minutes hw hc => ?_,
    fun s mv hw hopen hin hs hv => ?_, fun s e he => ?_, fun s hcell => ?_⟩
  · obtain ⟨hroom, hfull⟩ := burn_burns s
    refine ⟨_, exec_tamperBitBurn, ?_⟩
    rw [burnEntry_burns hu hp hcell, finish_mod, finish_otp, State.upd_mod, settleOver_tether, settleOver_sys, burn_tether]
    exact ⟨rfl, hroom, hfull⟩
  · refine ⟨_, exec_cellRemove, ?_⟩
    cases hcell : s.mod.tether.onCell with
    | true =>
      rw [removeCell_onCell hin hcell, finish_mod, State.upd_mod, settleOver_tether]
      exact ⟨rfl, fun _ => rfl, fun hoff => (Bool.noConfusion hoff), fun hoff => (Bool.noConfusion hoff)⟩
    | false =>
      cases hw : s.mod.tether.swapEnd with
      | none =>
        rw [removeCell_outside hin hcell hw]
        exact ⟨(quantityAlarm_cell (s.upd (cellOut s.mod)) .both).1, fun hon => (Bool.noConfusion hon),
          fun _ _ hnew => quantityAlarm_marks (s := s.upd (cellOut s.mod)) (.inr (by decide)) hnew, fun _ hsome => (Bool.noConfusion hsome)⟩
      | some e =>
        rw [removeCell_inWindow hin hcell (by rw [hw]; rfl)]
        have hraised := cellRecord_raised (s.upd (cellOut s.mod))
        have hkept := congrArg Tether.cellPresent hraised.tether
        exact ⟨hkept, fun hon => (Bool.noConfusion hon), fun _ hnone => absurd hnone (Option.some_ne_none e), fun _ _ => ⟨hraised.events, hraised.alarm⟩⟩
  · obtain ⟨bodies, hbody, heq⟩ := writeRow_swapWindow hc (swapMinutes_fit hw)
    obtain ⟨hmgmt, hend⟩ := swapWindow_sets (setObj (accept s.mod h i) 0x9030 1 0 (.nat minutes)) minutes
    refine ⟨_, exec_cellSwapWindowWrite hw, ?_⟩
    rw [heq, answerWrite_tether, State.upd_mod, hend]
    exact ⟨answered_of_sessions hbody hc.1 (congrArg Mgmt.sessions hmgmt), rfl⟩
  · refine ⟨_, exec_cellSwapWindowClose hw, ?_⟩
    rw [stableCell_closes hopen hin hs hv, finish_mod, State.upd_mod, settleOver_tether]
    exact ⟨rfl, rfl⟩
  · refine ⟨_, exec_cellSwapWindowExpire, ?_⟩
    have hpresent : (advanceTo s.mod e).tether.cellPresent = s.mod.tether.cellPresent := advance_tether_cellPresent ..
    rw [expireWindow_eq he, hpresent]
    cases hin : s.mod.tether.cellPresent with
    | true =>
      rw [if_pos rfl, finish_mod, State.upd_mod, settleOver_tether, settleOver_sys]
      exact ⟨rfl, le_advanceTo_elapsed s.mod e, fun hout => (Bool.noConfusion hout)⟩
    | false =>
      rw [if_neg Bool.false_ne_true]
      have hraised := quantityAlarm_raised (s := s.upd (cellMissed s.mod e)) (q := 5) (det := .both) (.inr (by decide)) (testBit_setBit_same ..)
      obtain ⟨-, halarm⟩ := quantityAlarm_marks (s := s.upd (cellMissed s.mod e)) (q := 5) (det := .both) (.inr (by decide)) (testBit_setBit_same ..)
      refine ⟨(quantityAlarm_cell (s.upd (cellMissed s.mod e)) .both).2, ?_, fun _ => halarm⟩
      rw [hraised.elapsed]
      exact le_advanceTo_elapsed s.mod e
  · refine ⟨_, exec_lossOfAllPower, ?_⟩
    rw [finish_mod, State.upd_mod, settleOver_tether, show allPowerLost s.mod = losePower (cellOut s.mod) from if_pos hcell]
    exact ⟨rfl, rfl, rfl⟩

/-- Settles O46: a release ends the response of a quiet source, and the second of two credentials within 300 s retires the module. -/
theorem responsesAndRetireConfirmations : Obligations.ResponsesAndRetireConfirmations := by
  refine ⟨fun s h i x hw hc => ?_, fun s h i serial hw hc => ?_, fun s c e hb => ?_⟩
  · obtain ⟨bodies, hbody, heq⟩ := writeRow_release hc
    refine ⟨_, exec_responseRelease hw, ?_⟩
    rw [show b1 (b01 true) = b1 1 from rfl, heq, source_answerWrite, State.upd_mod]
    refine ⟨fun h8 => ?_, fun h8 halarm => ?_, fun h8 halarm => ?_⟩
    · rw [show releaseResponse (accept s.mod h i) x = (accept s.mod h i, 0x4002) from if_pos h8]
      exact ⟨rfl, answered_of_sessions hbody hc.1 rfl⟩
    · rw [show releaseResponse (accept s.mod h i) x = (accept s.mod h i, 0x3003) from (if_neg h8).trans (if_pos halarm)]
      exact ⟨rfl, answered_of_sessions hbody hc.1 rfl⟩
    · obtain ⟨h0, hmgmt, hforce, hunits⟩ := releaseResponse_released (m := accept s.mod h i) h8 halarm
      rw [h0]
      exact ⟨hforce, hunits, answered_of_sessions hbody hc.1 (congrArg Mgmt.sessions hmgmt)⟩
  · obtain ⟨bodies, hbody, heq⟩ := writeRow_retire hc
    have hcred := (cred_accept s.mod h i i).1
    rw [hcred] at heq
    refine ⟨_, exec_retireConfirmation hw, fun hs => ?_, fun hs hb => ?_, fun hs c e hb => ⟨fun hsame => ?_, fun hother hlate => ?_, fun hother htime => ?_⟩⟩
    · rw [confirmRetire_wrongSerial (s := s.upd (accept s.mod h i)) hs] at heq
      rw [heq, answerWrite_retireBy, finish_otp, answerWrite_otp]
      exact ⟨rfl, rfl, answered_of_sessions hbody hc.1 rfl⟩
    · rw [confirmRetire_first (s := s.upd (accept s.mod h i)) hs hb] at heq
      rw [heq, answerWrite_retireBy, finish_otp, answerWrite_otp]
      exact ⟨rfl, rfl, answered_of_sessions hbody hc.1 rfl⟩
    · rw [confirmRetire_second (s := s.upd (accept s.mod h i)) hs hb, if_pos hsame] at heq
      rw [heq, answerWrite_retireBy, finish_otp, answerWrite_otp]
      exact ⟨hb, rfl, answered_of_sessions hbody hc.1 rfl⟩
    · rw [confirmRetire_second (s := s.upd (accept s.mod h i)) hs hb, if_neg hother, if_pos (show _ < (s.upd (accept s.mod h i)).mod.sys.elapsed from hlate)] at heq
      rw [heq, answerWrite_retireBy, finish_otp, answerWrite_otp]
      exact ⟨rfl, rfl⟩
    · rw [confirmRetire_second (s := s.upd (accept s.mod h i)) hs hb, if_neg hother, if_neg (show ¬_ < (s.upd (accept s.mod h i)).mod.sys.elapsed from Nat.not_lt.mpr htime)] at heq
      obtain ⟨-, htether, hsys, hotp, hended⟩ := retire_erases (s.upd (retireTaken (accept s.mod h i))) 1
      have h2 := proved_state hc.1
      obtain ⟨⟨-, hslot, -⟩, -⟩ := hc
      have hgone : (sess (retire (s.upd (retireTaken (accept s.mod h i))) 1).mod i).state = 0 :=
        hended i (slot_lt hslot) (by rw [State.upd_mod]; exact ((state_accept s.mod h i).trans h2).le)
      dsimp only [State.upd_mod] at heq
      rw [State.upd_upd] at heq
      rw [heq, finish_otp, answerWrite_otp, answerWrite_sys, answerWrite_tether, sess_answerWrite_ended (by rw [hgone]; decide), hgone, hsys, htether, hotp]
      exact ⟨rfl, rfl, rfl, rfl, rfl⟩
  · obtain ⟨hnone, htime⟩ := expireRetire_lapses hb
    refine ⟨_, exec_retireConfirmationExpire, ?_⟩
    rw [finish_mod, finish_otp, State.upd_mod, settleOver_mgmt, settleOver_sys]
    exact ⟨hnone, htime, rfl⟩

end Sys2Proof.Machine
end

