-- ==== Sys2Proof/Proofs/MainsLoss.lean ====
section
/-! PROOFS. The loss of mains: the early warning, the return and the bulk threshold (R984 to R986). -/

namespace Sys2Proof.Machine

variable {s : State} {m : Mod}

theorem exec_mainsLost : exec .mainsLost s = .next (finish (s.upd (loseMains s.mod))) := run_wf "MAINS_LOST" .mainsLost s (onMod fun m => loseMains m) rfl
theorem exec_mainsEarlyWarning : exec .mainsEarlyWarning s = .next (finish (earlyWarning s)) :=
  run_wf "MAINS_EARLY_WARNING" .mainsEarlyWarning s (fun s => earlyWarning s) rfl
theorem exec_mainsReturn : exec .mainsReturn s = .next (finish (s.upd (mainsBack s.mod))) :=
  run_wf "MAINS_RETURN" .mainsReturn s (onMod fun m => mainsBack m) rfl
theorem exec_bulkThreshold : exec .bulkThreshold s = .next (finish (s.upd (powerDown s.mod))) :=
  run_wf "BULK_THRESHOLD" .bulkThreshold s (onMod fun m => powerDown m) rfl

/-! ### The early warning -/

/-- The module at the early warning, before its seal. -/
def warnedAt (m : Mod) (e : Nat) : Mod :=
  raise { advanceTo m (e + inf m 0x9050 1 0 * msCycles) with
    sys := { (advanceTo m (e + inf m 0x9050 1 0 * msCycles)).sys with warned := true } } 0x1010 srcModule 0 (b4 (inf m 0x9050 1 0))

theorem earlyWarning_due {e : Nat} (he : s.mod.sys.mainsLostAt = some e) (hw : s.mod.sys.warned = false) (hrun : s.mod.sys.running = true) :
    earlyWarning s = saveConfig { s with flash := { s.flash with runtime := (issueSeal (warnedAt s.mod e)).tether.runtime }
                                         mod := issueSeal (warnedAt s.mod e) } := by
  unfold earlyWarning
  rw [he]
  dsimp only
  rw [if_neg (by rw [hw, hrun]; decide)]
  rfl

theorem sealsKept_warnedAt (m : Mod) (e : Nat) : SealsKept m (warnedAt m e) := by
  have hadvanced : SealsKept m (advanceTo m (e + inf m 0x9050 1 0 * msCycles)) := (SealsKept.refl m).advance
  unfold warnedAt
  exact .raise ⟨hadvanced.seals⟩

theorem sealsIssued_settleOver (m : Mod) : (settleOver m).ev.sealsIssued = m.ev.sealsIssued :=
  congrArg (·.2.1) (SealsKept.refl m).settleOver.seals

/-- What a command's end changes is not part of the configuration that is saved (R972). -/
theorem configCopy_settleOver (m : Mod) : configCopy (settleOver m) = configCopy m := by
  obtain ⟨overs, ev, hform⟩ := settleOver_form m
  rw [hform]
  rfl

/-! ### The bulk threshold -/

/-- The tether as it passes to the cell (R858, R986). -/
def tetherOnCell (m : Mod) : Tether :=
  { m.tether with onCell := true, runtimeAtLoss := m.tether.runtime, loopOn := infB m 0x9000 7 0, responses := (List.range 15).map (responseOf m) }

/-- The module with both harbours held in reset. -/
def heldInReset (m : Mod) (t : Tether) : Mod :=
  { tether := t, out := m.out, drawn := m.drawn, sources := loopAlarm m, sys := { elapsed := m.sys.elapsed, mains := false, cause := 1 } }

theorem powerDown_eq (hl : m.sys.mainsLostAt.isSome = true) : powerDown m =
    if m.tether.cellPresent then heldInReset m (tetherOnCell m) else losePower (heldInReset m (tetherOnCell m)) := by
  obtain ⟨e, he⟩ := Option.isSome_iff_exists.mp hl
  unfold powerDown
  rw [he]
  rfl

/-- Settles O47: every step of a mains loss is one change of the supply's record, and no session, key or pin outlives the bulk threshold. -/
theorem mainsLossIsRidden : Obligations.MainsLossIsRidden := by
  refine ⟨fun s hmains hnone => ?_, fun s e he hw hrun => ?_, fun s hl => ⟨?_, ?_⟩⟩
  · refine ⟨_, exec_mainsLost, ?_⟩
    rw [finish_mod, State.upd_mod, settleOver_sys, loseMains, if_pos ⟨hmains, by rw [hnone]; rfl⟩]
    exact ⟨rfl, rfl⟩
  · refine ⟨_, exec_mainsEarlyWarning, ?_⟩
    obtain ⟨-, -, -, -, hissued, -⟩ := issueSeal_seals (warnedAt s.mod e)
    have hkept := congrArg (·.2.1) (sealsKept_warnedAt s.mod e).seals
    rw [earlyWarning_due he hw hrun, finish_mod, finish_flash, configCopy_settleOver, settleOver_sys, settleOver_tether]
    exact ⟨rfl, le_advanceTo_elapsed s.mod (e + inf s.mod 0x9050 1 0 * msCycles), rfl, rfl,
      (sealsIssued_settleOver _).trans (hissued.trans (congrArg (· + 1) hkept))⟩
  · obtain ⟨e, he⟩ := Option.isSome_iff_exists.mp hl
    refine ⟨_, exec_mainsReturn, ?_⟩
    rw [finish_mod, State.upd_mod, settleOver_sys, mainsBack, he]
    exact ⟨rfl, rfl, rfl⟩
  · refine ⟨_, exec_bulkThreshold, ?_⟩
    rw [powerDown_eq hl]
    cases hin : s.mod.tether.cellPresent with
    | true => exact ⟨rfl, rfl, rfl, rfl, fun k => Bool.and_false (k == 2), fun k => rfl, rfl, fun j => rfl, rfl, rfl, fun _ => ⟨rfl, rfl⟩, fun h => Bool.noConfusion h⟩
    | false => exact ⟨rfl, rfl, rfl, rfl, fun k => Bool.and_false (k == 2), fun k => rfl, rfl, fun j => rfl, rfl, rfl, fun h => Bool.noConfusion h, fun _ => rfl⟩

end Sys2Proof.Machine
end

