-- ==== Sys2Proof/Proofs/RestartOnCell.lean ====
section
/-! PROOFS. A restart of a running module whose tether stands on the cell (R877, R962). -/

namespace Sys2Proof.Machine

/-- A running module whose tether is on the cell and keeps Zeroize as the response of source 11, the entropy sources. -/
def runningOnCell : State := { mod := { sys := { running := true }, tether := { onCell := true, responses := [0, 0, 0, 0, 0, 0, 0, 0, 0, 0, 0, 4] } } }

/-- A start-up in which the self-test of source A of H0 fails. -/
def sourceFails : StartTrial := { units := [288] }

theorem exec_keelLockLost {s : State} {tr : StartTrial} (hw : tr.wf = true) : exec (.keelLockLost tr) s = .next (finish (keelLost s tr)) :=
  run_wf "KEEL_LOCK_LOST" (.keelLockLost tr) s (fun s => keelLost s tr) hw

/-- The self-test of step 5 comes after the canary of step 2, so that its response erases the vault for good. -/
theorem runningOnCell_erased : (keelLost runningOnCell sourceFails).mod.tether.vault.canary = .marker := by decide +kernel

/-- The tether after a lost keel lock is the one the restart left: what ends the command leaves it. -/
theorem tether_keelLockLost {s t : State} {tr : StartTrial} (hw : tr.wf = true) (ht : exec (.keelLockLost tr) s = .next t) :
    t.mod.tether = (keelLost s tr).mod.tether := by
  rw [exec_keelLockLost hw] at ht
  cases ht
  rw [finish_mod, settleOver_tether]

/-- Refutes O44: a restart on the cell whose self-test fails leaves the marker of an erased vault where a restart's canary should stand. -/
theorem not_restartsAndStartUpRun : ¬ Obligations.RestartsAndStartUpRun := by
  rintro ⟨hrestarts, -⟩
  obtain ⟨hkeel, -⟩ := hrestarts runningOnCell sourceFails rfl rfl
  obtain ⟨t, ht, -, -, -, -, -, -, hcanary, -⟩ := hkeel rfl
  rw [tether_keelLockLost rfl ht, runningOnCell_erased] at hcanary
  cases hcanary

end Sys2Proof.Machine
end

