-- ==== Sys2Proof/Proofs/FirmwareImages.lean ====
section
/-! PROOFS. Firmware staged, verified and installed (R934 to R940). -/

namespace Sys2Proof.Machine

variable {s : State} {m : Mod} {h : Hdr} {i : Nat}

theorem exec_firmwareChunkWrite {n : Nat} {chunk : Octets} (hw : (Instr.firmwareChunkWrite h n chunk).wf = true) :
    exec (.firmwareChunkWrite h n chunk) s = .next (finish (writeRow s h 0xF020 1 (some n) chunk)) :=
  run_wf "FIRMWARE_CHUNK_WRITE" _ s (fun s => writeRow s h 0xF020 1 (some n) chunk) hw
theorem exec_firmwareVerify (hw : (Instr.firmwareVerify h true).wf = true) :
    exec (.firmwareVerify h true) s = .next (finish (writeRow s h 0xF010 2 none (b1 1))) :=
  run_wf "FIRMWARE_VERIFY" _ s (fun s => writeRow s h 0xF010 2 none (b1 (b01 true))) hw
theorem exec_firmwareInstall (hw : (Instr.firmwareInstall h true).wf = true) :
    exec (.firmwareInstall h true) s = .next (finish (writeRow s h 0xF010 5 none (b1 1))) :=
  run_wf "FIRMWARE_INSTALL" _ s (fun s => writeRow s h 0xF010 5 none (b1 (b01 true))) hw
theorem exec_firmwareInstallComplete (hrun : s.mod.sys.running = true) : exec .firmwareInstallComplete s = .next (finish (endInstall s)) := by
  refine (run_wf "FIRMWARE_INSTALL_COMPLETE" .firmwareInstallComplete s (whileOn fun s => endInstall s) rfl).trans ?_
  rw [whileOn, if_pos hrun]

/-! ### Chunks -/

theorem writeRow_chunk {n : Nat} {chunk : Octets} (hc : WriteClears s.mod h i 0xF020 1 (some n) chunk) : ∃ bodies ≠ [],
    writeRow s h 0xF020 1 (some n) chunk =
      answerWrite s (s.upd (writeChunk (accept s.mod h i) n chunk).1) h i (writeChunk (accept s.mod h i) n chunk).2 bodies :=
  writeRow_status (v := .oct chunk) (r := writeChunk (accept s.mod h i) n chunk) _ hc rfl (by decide) rfl rfl rfl

/-- The losses that end change the regions alone. -/
theorem endLosses_form (m : Mod) (g a b : Nat) (f : LostRec → Bool) : ∃ stow, endLosses m g a b f = { m with stow := stow } := by
  unfold endLosses
  generalize (losses (stow m g)).filter _ = l
  refine List.foldlRecOn l (motive := fun n : Mod => ∃ stow, n = { m with stow := stow }) _ ⟨m.stow, rfl⟩ ?_
  rintro n ⟨x, rfl⟩ e -
  dsimp only
  split <;> exact ⟨_, rfl⟩

theorem refuseAccess_fw (m : Mod) (k master : Nat) (r : Option Nat) (n : Nat) : (refuseAccess m k master r n).fw = m.fw := by
  unfold refuseAccess
  dsimp only
  split
  · rw [bump_fw]
  · rw [raiseOnce_eq, bump_fw]

/-- A loss of cause 2 or 5 that a span of lines overlaps (R664). -/
def Overlaps (m : Mod) (g line n : Nat) : Prop :=
  ∃ e ∈ losses (stow m g), (e.cause = 2 ∨ e.cause = 5) ∧ regionBase m g e.region + e.first < line + n ∧ line < regionBase m g e.region + e.first + e.count

theorem fullWrite_lost {g line n : Nat} (ho : Overlaps m g line n) : fullWrite m g line n = none := by
  obtain ⟨e, he, hcause, hlo, hhi⟩ := ho
  exact if_pos (List.any_eq_true.mpr ⟨e, he, by simp [hcause, hlo, hhi]⟩)

theorem fullWrite_clear {g line n : Nat} (ho : ¬Overlaps m g line n) : fullWrite m g line n = some (endLosses m g line (line + n) fun _ => true) := by
  refine if_neg fun hany => ho ?_
  obtain ⟨e, he, hbits⟩ := List.any_eq_true.mp hany
  simp only [Bool.and_eq_true, Bool.or_eq_true, beq_iff_eq, decide_eq_true_eq] at hbits
  exact ⟨e, he, hbits⟩

/-- A chunk that is not kept: no region, an install under way, or the engine, the port or lost lines refuse it (R936, R937). -/
theorem writeChunk_kept {g r n : Nat} {chunk : Octets} (hg : stagingRegion m = some g) (hr : regionOfKind m g 4 = some r) (hi : m.fw.installing = false)
    (hst : (stow m g).st = 2) (hd : denied m g r 0 3 = false) (ho : ¬Overlaps m g (regionBase m g r + 128 * n) 128) : ∃ stow,
    writeChunk m n chunk = ({ m with stow := stow, fw := { m.fw with chunks := tset [] m.fw.chunks n chunk, staging := 1 } }, 0) := by
  obtain ⟨x, hform⟩ := endLosses_form m g (regionBase m g r + 128 * n) (regionBase m g r + 128 * n + 128) fun _ => true
  unfold writeChunk
  rw [hg]
  dsimp only
  rw [hr, Option.getD_some, hd, if_neg (by rw [hi]; decide), if_neg (not_not.mpr hst), if_neg Bool.false_ne_true, fullWrite_clear ho, hform]
  dsimp only
  exact ⟨x, rfl⟩

theorem writeChunk_refused {g r n : Nat} {chunk : Octets} (hg : stagingRegion m = some g) (hr : regionOfKind m g 4 = some r) (hi : m.fw.installing = false)
    (hno : (stow m g).st ≠ 2 ∨ denied m g r 0 3 = true ∨ Overlaps m g (regionBase m g r + 128 * n) 128) :
    (writeChunk m n chunk).2 = 0x4002 ∧ (writeChunk m n chunk).1.fw = m.fw ∧ (writeChunk m n chunk).1.mgmt = m.mgmt := by
  unfold writeChunk
  rw [hg]
  dsimp only
  rw [hr, Option.getD_some, hi, if_neg Bool.false_ne_true]
  by_cases hst : (stow m g).st = 2
  · rw [if_neg (not_not.mpr hst)]
    by_cases hd : denied m g r 0 3 = true
    · rw [if_pos hd]
      exact ⟨rfl, refuseAccess_fw .., refuseAccess_mgmt ..⟩
    · rw [if_neg hd, fullWrite_lost ((hno.resolve_left (not_not.mpr hst)).resolve_left hd)]
      exact ⟨rfl, rfl, rfl⟩
  · rw [if_pos hst]
    exact ⟨rfl, rfl, rfl⟩

theorem writeChunk_noRegion {n : Nat} {chunk : Octets} (hg : stagingRegion m = none) : writeChunk m n chunk = (m, 0x4002) := by
  unfold writeChunk
  rw [hg]

theorem writeChunk_installing {n : Nat} {chunk : Octets} (hg : (stagingRegion m).isSome = true) (hi : m.fw.installing = true) :
    writeChunk m n chunk = (m, 0x3002) := by
  obtain ⟨g, hg⟩ := Option.isSome_iff_exists.mp hg
  unfold writeChunk
  rw [hg]
  exact if_pos hi

/-! ### Verification and installation -/

/-- The module once the staged image is verified (R938). -/
def verified (s : State) (c : Nat) : Mod := { s.mod with fw := { s.mod.fw with staging := if c = 0 then 2 else 3, cause := c } }

theorem verifyImage_form (s : State) : ∃ ev, verifyImage s =
    (s.upd { verified s (imageCause s (stagedImage s.mod.fw) s.mod.fw.length) with ev := ev },
      causeStatus (imageCause s (stagedImage s.mod.fw) s.mod.fw.length), [imageCause s (stagedImage s.mod.fw) s.mod.fw.length]) := ⟨_, rfl⟩

/-- The effect of a verification: its status and the cause that it carries. -/
def verifyEff (s : State) : Eff := { s := (verifyImage s).1, status := (verifyImage s).2.1, vals := (verifyImage s).2.2 }

theorem writeRow_verify {c : Nat} (hc : WriteClears s.mod h i 0xF010 2 none (b1 1)) (hcause : c = imageCause s (stagedImage s.mod.fw) s.mod.fw.length) :
    ∃ ev, ∃ bodies ≠ [], writeRow s h 0xF010 2 none (b1 1) =
      answerWrite s (s.upd { verified (s.upd (accept s.mod h i)) c with ev := ev }) h i (causeStatus c) bodies := by
  obtain ⟨ev, hform⟩ := verifyImage_form (s.upd (accept s.mod h i))
  obtain ⟨bodies, hb, heq⟩ := writeRow_answered (v := .nat 1) (f := verifyEff (s.upd (accept s.mod h i))) _ hc rfl (by decide) rfl rfl rfl
  have hsame : imageCause (s.upd (accept s.mod h i)) (stagedImage (accept s.mod h i).fw) (accept s.mod h i).fw.length = c := hcause.symm
  dsimp only [verifyEff] at heq
  dsimp only [State.upd_mod] at hform
  rw [hform, hsame] at heq
  exact ⟨ev, bodies, hb, heq⟩

theorem writeRow_install (hc : WriteClears s.mod h i 0xF010 5 none (b1 1)) : ∃ bodies ≠ [],
    writeRow s h 0xF010 5 none (b1 1) =
      answerWrite s (beginInstall (s.upd (accept s.mod h i))).1 h i (beginInstall (s.upd (accept s.mod h i))).2 bodies :=
  writeRow_state (v := .nat 1) (r := beginInstall (s.upd (accept s.mod h i))) _ hc rfl (by decide) rfl rfl rfl

/-- The firmware record once the copy of a verified image begins (R939). -/
def installBegun (f : Fw) : Fw := { f with staging := 4, installing := true, installInvalid := false }

theorem beginInstall_verified (hs : s.mod.fw.staging = 2) : beginInstall s =
    ({ s with flash := setSlot s.flash (1 - s.mod.fw.running) { state := 1 }, mod := { s.mod with fw := installBegun s.mod.fw } }, 0) :=
  if_neg (not_not.mpr hs)

/-- What the end of an install finds of the image that it copied (R939, R940). -/
def installedSlot (s : State) (img : Octets) : FwSlot :=
  let hdr := img.take 256
  let signedOk := Config.slhVerify (s.otp.vendorKeys.getD (hdrKey hdr) []) hdr (sub img (256 + hdrPayload hdr) 7856)
  let payloadOk := sha256 (sub img 256 (hdrPayload hdr)) == sub hdr 20 32
  let co := hdrCoSigned hdr && s.flash.anchor != zeros 32
  let coOk := !co || Config.slhVerify s.flash.anchor hdr (sub img (256 + hdrPayload hdr + 7856) 7856)
  let ok := !s.mod.fw.installInvalid && signedOk && payloadOk && coOk
  { state := if ok then 2 else 3, header := hdr, signedOk, payloadOk, coSigned := co && coOk }

theorem endInstall_form (hi : s.mod.fw.installing = true) : ∃ fw ev, fw.installing = false ∧
    endInstall s = { s with flash := setSlot s.flash (1 - s.mod.fw.running) (installedSlot s (stagedImage s.mod.fw)),
                            mod := { s.mod with fw := fw, ev := ev } } := by
  unfold endInstall
  dsimp only
  rw [if_neg (by rw [hi]; decide)]
  exact ⟨_, _, rfl, rfl⟩

theorem installedSlot_valid (s : State) (img : Octets) : (installedSlot s img).state = 2 ↔ s.mod.fw.installInvalid = false ∧
    Config.slhVerify (s.otp.vendorKeys.getD (hdrKey (img.take 256)) []) (img.take 256) (sub img (256 + hdrPayload (img.take 256)) 7856) = true ∧
    sha256 (sub img 256 (hdrPayload (img.take 256))) = sub (img.take 256) 20 32 ∧
    (hdrCoSigned (img.take 256) = true → s.flash.anchor ≠ zeros 32 →
      Config.slhVerify s.flash.anchor (img.take 256) (sub img (256 + hdrPayload (img.take 256) + 7856) 7856) = true) := by
  unfold installedSlot
  dsimp only
  generalize img.take 256 = hdr
  split
  · next hok =>
    simp only [Bool.and_eq_true, Bool.not_eq_true', Bool.or_eq_true, beq_iff_eq, and_assoc] at hok
    obtain ⟨hvalid, hsigned, hpayload, hco⟩ := hok
    refine iff_of_true rfl ⟨hvalid, hsigned, hpayload, fun hc ha => hco.resolve_left ?_⟩
    simp [hc, ha]
  · next hno =>
    refine iff_of_false (by decide) fun hall => hno ?_
    obtain ⟨hvalid, hsigned, hpayload, hco⟩ := hall
    simp only [Bool.and_eq_true, Bool.not_eq_true', Bool.or_eq_true, beq_iff_eq, and_assoc]
    refine ⟨hvalid, hsigned, hpayload, ?_⟩
    by_cases hneed : hdrCoSigned hdr = true ∧ s.flash.anchor ≠ zeros 32
    · exact .inr (hco hneed.1 hneed.2)
    · exact .inl (by simpa using hneed)

/-- Settles O53: the staging region decides what becomes of a chunk, and the same checks decide a staged and an installed image. -/
theorem firmwareIsStagedVerifiedAndInstalled : Obligations.FirmwareIsStagedVerifiedAndInstalled := by
  refine ⟨fun s h i n chunk hw hc => ?_, fun s h i c hw hc hcause => ?_, fun s h i hw hc => ?_, fun s img hrun hi himg => ?_⟩
  · obtain ⟨bodies, hb, heq⟩ := writeRow_chunk hc
    refine ⟨_, exec_firmwareChunkWrite hw, ?_⟩
    rw [heq, answerWrite_fw, State.upd_mod]
    refine ⟨fun hg => ?_, fun hg hi => ?_, fun g r lo hg hr hlo hi => ⟨fun hno => ?_, fun hst hd hclear => ?_⟩⟩
    · rw [writeChunk_noRegion (m := accept s.mod h i) hg]
      exact ⟨rfl, answered_of_sessions hb hc.1 rfl⟩
    · rw [writeChunk_installing (m := accept s.mod h i) hg hi]
      exact ⟨rfl, answered_of_sessions hb hc.1 rfl⟩
    · subst hlo
      obtain ⟨hstatus, hfw, hmgmt⟩ := writeChunk_refused (m := accept s.mod h i) (n := n) (chunk := chunk) hg hr hi hno
      rw [hstatus]
      exact ⟨hfw, answered_of_sessions hb hc.1 (congrArg Mgmt.sessions hmgmt)⟩
    · subst hlo
      have ho : ¬Overlaps (accept s.mod h i) g (regionBase s.mod g r + 128 * n) 128 := by
        rintro ⟨e, he, hcause, hlo, hhi⟩
        exact (hclear e he hcause).elim (Nat.not_le.mpr hlo) (Nat.not_le.mpr hhi)
      obtain ⟨x, hkept⟩ := writeChunk_kept (m := accept s.mod h i) (chunk := chunk) hg hr hi hst hd ho
      rw [hkept]
      exact ⟨tget_tset_same .., fun k hk => tget_tset_ne _ _ _ hk, rfl, answered_of_sessions hb hc.1 rfl⟩
  · obtain ⟨ev, bodies, hb, heq⟩ := writeRow_verify hc hcause
    refine ⟨_, exec_firmwareVerify hw, ?_⟩
    rw [heq, answerWrite_fw, finish_flash, answerWrite_flash]
    exact ⟨rfl, rfl, rfl, answered_of_sessions hb hc.1 rfl⟩
  · obtain ⟨bodies, hb, heq⟩ := writeRow_install hc
    refine ⟨_, exec_firmwareInstall hw, fun hs => ?_, fun hs => ?_⟩
    · rw [show beginInstall (s.upd (accept s.mod h i)) = (s.upd (accept s.mod h i), 0x4002) from if_pos hs] at heq
      rw [heq, answerWrite_fw, finish_flash, answerWrite_flash]
      exact ⟨rfl, rfl, answered_of_sessions hb hc.1 rfl⟩
    · rw [beginInstall_verified (s := s.upd (accept s.mod h i)) hs] at heq
      rw [heq, answerWrite_fw, finish_flash, answerWrite_flash]
      exact ⟨rfl, rfl, rfl, answered_of_sessions hb hc.1 rfl⟩
  · subst himg
    obtain ⟨fw, ev, hfw, heq⟩ := endInstall_form hi
    refine ⟨_, installedSlot s (stagedImage s.mod.fw), exec_firmwareInstallComplete hrun, ?_⟩
    rw [heq, finish_flash, finish_mod, settleOver_fw]
    refine ⟨rfl, hfw, rfl, ?_, installedSlot_valid ..⟩
    unfold installedSlot
    dsimp only
    split
    · exact .inl rfl
    · exact .inr rfl

end Sys2Proof.Machine
end

