-- ==== Sys2Proof/Proofs/FirmwareActivation.lean ====
section
/-! PROOFS. Activation and confirmation of firmware (R942 to R949). -/

namespace Sys2Proof.Machine

variable {s : State} {m n : Mod} {h : Hdr} {i : Nat}

theorem exec_firmwareActivate {x : Nat} (hw : (Instr.firmwareActivate h x).wf = true) :
    exec (.firmwareActivate h x) s = .next (finish (writeRow s h 0xF010 6 none (b1 x))) :=
  run_wf "FIRMWARE_ACTIVATE" _ s (fun s => writeRow s h 0xF010 6 none (b1 x)) hw
theorem exec_pilotsStop (hrun : s.mod.sys.running = true) :
    exec .pilotsStopForActivation s = .next (finish (s.upd (stopForActivation s.mod))) :=
  run_whileOn (c := .pilotsStopForActivation) "PILOTS_STOP_FOR_ACTIVATION" stopForActivation rfl hrun
theorem exec_firmwareRunning (hrun : s.mod.sys.running = true) : exec .firmwareRunning s = .next (finish (firmwareRuns s)) := by
  refine (run_wf "FIRMWARE_RUNNING" .firmwareRunning s (whileOn fun s => firmwareRuns s) rfl).trans ?_
  rw [whileOn, if_pos hrun]
theorem exec_firmwareStartTimeout (hrun : s.mod.sys.running = true) : exec .firmwareStartTimeout s = .next (finish (firmwareTimeout s)) := by
  refine (run_wf "FIRMWARE_START_TIMEOUT" .firmwareStartTimeout s (whileOn fun s => firmwareTimeout s) rfl).trans ?_
  rw [whileOn, if_pos hrun]
theorem exec_firmwareConfirm (hw : (Instr.firmwareConfirm h true).wf = true) :
    exec (.firmwareConfirm h true) s = .next (finish (writeRow s h 0xF010 7 none (b1 1))) :=
  run_wf "FIRMWARE_CONFIRM" _ s (fun s => writeRow s h 0xF010 7 none (b1 (b01 true))) hw

/-! ### Sessions that end issue no seal -/

namespace SealsKept

theorem closeDebug {slot id : Nat} (h : SealsKept m n) : SealsKept m (closeDebug n slot id) := by
  unfold Machine.closeDebug
  dsimp only
  exact .ite (.ite (.raise (.raise ⟨h.seals⟩)) ⟨h.seals⟩) h

theorem withMgmt {x : Mgmt} (h : SealsKept m n) : SealsKept m { n with mgmt := x } := ⟨h.seals⟩
theorem setNat {idx sub elem v : Nat} (h : SealsKept m n) : SealsKept m (setNat n idx sub elem v) := ⟨h.seals⟩
theorem freeSlot {slot : Nat} (h : SealsKept m n) : SealsKept m (freeSlot n slot) := ⟨h.seals⟩

theorem endGrant {slot : Nat} (h : SealsKept m n) : SealsKept m (endGrant n slot) := by
  unfold Machine.endGrant
  split
  · exact h
  · dsimp only
    exact .raise (.setNat (.setNat (.closeDebug (.withMgmt h))))

theorem endSession {slot cause : Nat} (h : SealsKept m n) : SealsKept m (endSession n slot cause) := by
  unfold Machine.endSession
  dsimp only
  exact .ite (.raise (.freeSlot (.endGrant h))) (.ite (.freeSlot h) h)

theorem endSessions {cause : Nat} {p : Sess → Bool} (h : SealsKept m n) : SealsKept m (endSessions n cause p) :=
  h.foldl fun _ _ hk => .ite hk.endSession hk

theorem issued (h : SealsKept m n) : n.ev.sealsIssued = m.ev.sealsIssued := congrArg (·.2.1) h.seals

end SealsKept

/-! ### Activation -/

theorem slot_fit {x : Nat} (hw : (Instr.firmwareActivate h x).wf = true) : x < 256 ^ 1 := by
  simp only [Instr.wf, fitsU, Bool.and_eq_true, decide_eq_true_eq] at hw
  omega

theorem writeRow_activate {x : Nat} (hc : WriteClears s.mod h i 0xF010 6 none (b1 x)) (hfit : x < 256 ^ 1) : ∃ bodies ≠ [],
    writeRow s h 0xF010 6 none (b1 x) =
      answerWrite s (beginActivation (s.upd (accept s.mod h i)) x).1 h i (beginActivation (s.upd (accept s.mod h i)) x).2 bodies :=
  writeRow_state (v := .nat x) (r := beginActivation (s.upd (accept s.mod h i)) x) _ hc rfl (by decide)
    (congrArg (fun n => some (Val.nat n)) (natOf_bytesOf hfit)) rfl rfl

theorem state_accept_any (m : Mod) (h : Hdr) (i j : Nat) : (sess (accept m h i) j).state = (sess m j).state := by
  by_cases hj : j = i
  · subst hj
    rw [sess_accept_same]
  · rw [sess_accept_ne m h hj]

/-- The module as an activation begins, before its seal (R942). -/
def activationTold (s : State) (x : Nat) : Mod :=
  raise { s.mod with fw := { s.mod.fw with activating := some (x, 1) } } 0xF003 srcModule 0 (b1 x ++ b4 (hdrVersion (slotOfFlash s.flash x).header))

theorem sealsKept_told (s : State) (x : Nat) : SealsKept s.mod (activationTold s x) := .raise ((SealsKept.refl s.mod).of_ev rfl)

/-- The module once an activation has begun (R943). -/
def activationBegun (s : State) (x : Nat) : Mod := endSessions (issueSeal (activationTold s x)) 5 fun _ => true

/-- An activation that begins: the boot slot recorded, a seal issued and every session ended (R942, R943). -/
theorem beginActivation_begins {x : Nat} (hx : slotState s x = 2) (hfree : (s.mod.fw.installing || anyResetting s.mod) = false) :
    beginActivation s x =
      ({ s with flash := { s.flash with boot := x }, mod := activationBegun s x }, 0) := by
  unfold beginActivation
  rw [if_neg (not_not.mpr hx), if_neg (by rw [hfree]; decide)]
  rfl

theorem sealsIssued_endSessions (m : Mod) (cause : Nat) (p : Sess → Bool) : (endSessions m cause p).ev.sealsIssued = m.ev.sealsIssued :=
  (SealsKept.endSessions (.refl m)).issued

theorem sealsIssued_activationTold (s : State) (x : Nat) : (activationTold s x).ev.sealsIssued = s.mod.ev.sealsIssued :=
  (sealsKept_told s x).issued

theorem sealsIssued_issueSeal (m : Mod) : (issueSeal m).ev.sealsIssued = m.ev.sealsIssued + 1 := by
  obtain ⟨-, -, -, -, hissued, -⟩ := issueSeal_seals m
  exact hissued

theorem fw_issueSeal (m : Mod) : (issueSeal m).fw = m.fw := rfl

theorem fw_endSessions (m : Mod) (cause : Nat) (p : Sess → Bool) : (endSessions m cause p).fw = m.fw := by
  obtain ⟨mgmt, obj, ev, hform⟩ := endSessions_form m cause p
  rw [hform]

theorem activationBegun_begun (s : State) (x : Nat) : (activationBegun s x).fw.activating = some (x, 1) ∧
    (activationBegun s x).ev.sealsIssued = s.mod.ev.sealsIssued + 1 ∧
    ∀ j, j < 32 → (sess s.mod j).state ≤ 2 → (sess (activationBegun s x) j).state = 0 := by
  refine ⟨?_, ?_, fun j hj hst => endSessions_ended _ 5 hj hst⟩
  · rw [activationBegun, fw_endSessions, fw_issueSeal]
    rfl
  · rw [activationBegun, sealsIssued_endSessions, sealsIssued_issueSeal, sealsIssued_activationTold]

/-! ### The pilots stop -/

theorem stopPilots_activating {x : Nat} (ha : m.fw.activating = some (x, 1)) : stopPilots m =
    { m with sys := { m.sys with pilot0 := false, pilot1 := false }, ev := { m.ev with notHeld := 0, seals := m.ev.seals },
             fw := { m.fw with activating := some (x, 2), stoppedAt := m.sys.elapsed } } := by
  unfold stopPilots
  rw [ha]
  rfl

theorem setSync_keeps (m : Mod) (st : Nat) : (setSync m st).sys = m.sys ∧ (setSync m st).fw = m.fw := by
  unfold setSync
  split
  · exact ⟨rfl, rfl⟩
  · obtain ⟨pm, hform⟩ := noteUnsynced_form (raise (raise { m with time := { m.time with state := st, good := 0, bad := 0 } } 0x7001 (srcH 0) 0
      (b1 0 ++ b1 st ++ b1 m.time.src)) 0x7001 (srcH 1) 0 (b1 1 ++ b1 st ++ b1 m.time.src))
    dsimp only
    rw [hform]
    exact ⟨rfl, rfl⟩

theorem holdIfStopped_keeps (m : Mod) : (holdIfStopped m).sys = m.sys ∧ (holdIfStopped m).fw = m.fw := by
  unfold holdIfStopped holdAsIs
  split
  · exact ⟨rfl, rfl⟩
  · split
    · exact ⟨rfl, rfl⟩
    · exact setSync_keeps ..

/-! ### The pilots run again -/

/-- The module with both pilots running on a slot, before its events. -/
def runningOn (s : State) (x : Nat) : Mod :=
  { s.mod with sys := { s.mod.sys with pilot0 := true, pilot1 := true },
               fw := { s.mod.fw with activating := none, running := x, version := hdrVersion (slotOfFlash s.flash x).header } }

/-- What the pilots that run again leave, whether or not the slot fell back (R943 to R945). -/
structure RunsOn (s : State) (x : Nat) (t : State) : Prop where
  sys : t.mod.sys = { s.mod.sys with pilot0 := true, pilot1 := true }
  fw : t.mod.fw = { s.mod.fw with activating := none, running := x, version := hdrVersion (slotOfFlash s.flash x).header }
  flash : t.flash = s.flash
  held : heldEvents t.mod.ev = ([], [])

theorem resumeJournal_keeps (m : Mod) : (resumeJournal m true true).sys = m.sys ∧ (resumeJournal m true true).fw = m.fw ∧
    heldEvents (resumeJournal m true true).ev = ([], []) := by
  unfold resumeJournal
  dsimp only
  generalize hk : ({ m with ev := _ } : Mod) = k
  obtain ⟨hsys, -, hheld⟩ := takeAll_keeps k ((if true = true then m.ev.held0 else []) ++ if true = true then m.ev.held1 else [])
  have hfw : (takeAll k ((if true = true then m.ev.held0 else []) ++ if true = true then m.ev.held1 else [])).fw = k.fw :=
    foldl_keeps Mod.fw _ (fun _ _ => by rfl) _ k
  rw [hsys, hfw, hheld, ← hk]
  exact ⟨rfl, rfl, rfl⟩

/-- An event of the module is not held while H0's pilot runs (R944). -/
theorem heldEvents_raise (hp : m.sys.pilot0 = true) (code bpid : Nat) (ps : Octets) :
    heldEvents (raise m code srcModule bpid ps).ev = heldEvents m.ev := by
  unfold raise
  dsimp only
  rw [record_taken (h := 0) hp _ _ (by rw [mkRec_src m (by decide : srcModule < 4)]; exact .inr rfl), heldEvents_take]
  rfl

theorem pilotsRun_runs (s : State) (x : Nat) (fell : Option (Nat × Nat)) : RunsOn s x (pilotsRun s x fell) := by
  obtain ⟨k, hk, hrun⟩ : ∃ k : Mod, (k.sys = (runningOn s x).sys ∧ k.fw = (runningOn s x).fw) ∧ pilotsRun s x fell =
      s.upd { raise (resumeJournal k true true) 0xF004 srcModule 0 (b1 x ++ b4 (hdrVersion (slotOfFlash s.flash x).header) ++ b4 k.ev.notHeld) with
        ev := { (raise (resumeJournal k true true) 0xF004 srcModule 0
          (b1 x ++ b4 (hdrVersion (slotOfFlash s.flash x).header) ++ b4 k.ev.notHeld)).ev with notHeld := 0 } } := by
    cases fell with
    | none => exact ⟨runningOn s x, ⟨rfl, rfl⟩, rfl⟩
    | some p => exact ⟨raise (runningOn s x) 0xF005 srcModule 0 (b1 p.1 ++ b1 x ++ b1 p.2), ⟨rfl, rfl⟩, rfl⟩
  obtain ⟨hsys, hfw, hheld⟩ := resumeJournal_keeps k
  rw [hk.1] at hsys
  rw [hk.2] at hfw
  rw [hrun]
  exact ⟨hsys, hfw, rfl, (heldEvents_raise (by rw [hsys]; rfl) ..).trans hheld⟩

/-- No event is held after the command's end, where none is before it and both pilots run. -/
theorem held_settleOver (h0 : m.sys.pilot0 = true) (h1 : m.sys.pilot1 = true) (hh : heldEvents m.ev = ([], [])) :
    (settleOver m).ev.held0 = [] ∧ (settleOver m).ev.held1 = [] := by
  obtain ⟨held0, held1⟩ := Prod.mk.inj hh
  exact ⟨(Journaling.settleOver (h := 0) ⟨h0, held0⟩).held, (Journaling.settleOver (h := 1) ⟨h1, held1⟩).held⟩

/-! ### Confirmation -/

theorem writeRow_confirm (hc : WriteClears s.mod h i 0xF010 7 none (b1 1)) : ∃ bodies ≠ [],
    writeRow s h 0xF010 7 none (b1 1) = answerWrite s (confirmImage (s.upd (accept s.mod h i))) h i 0 bodies :=
  writeRow_answered (v := .nat 1) (f := eff (confirmImage (s.upd (accept s.mod h i)))) _ hc rfl (by decide) rfl rfl rfl

/-- The revocation bits once the image's are burned, its own key's never (R949). -/
def killBits (revoked : Nat) (hd : Octets) (l : List Nat) : Nat :=
  l.foldl (fun a k => if (hdrRevoke hd).testBit k && k != hdrKey hd then setBit a k true else a) revoked

theorem testBit_killBits (hd : Octets) (l : List Nat) (a k : Nat) :
    (killBits a hd l).testBit k = (a.testBit k || (decide (k ∈ l) && (hdrRevoke hd).testBit k && k != hdrKey hd)) := by
  induction l generalizing a with
  | nil => simp [killBits]
  | cons b l ih =>
    have hstep : killBits a hd (b :: l) = killBits (if (hdrRevoke hd).testBit b && b != hdrKey hd then setBit a b true else a) hd l := rfl
    rw [hstep, ih]
    by_cases hkb : k = b
    · subst hkb
      cases hburn : (hdrRevoke hd).testBit k && k != hdrKey hd with
      | true => simp_all [testBit_setBit_same]
      | false => simp [Bool.and_assoc, hburn]
    · have hbit : (if (hdrRevoke hd).testBit b && b != hdrKey hd then setBit a b true else a).testBit k = a.testBit k := by
        split
        · exact testBit_setBit_ne _ _ hkb
        · rfl
      rw [hbit]
      simp [hkb]

theorem testBit_killBits_four (hd : Octets) (a k : Nat) :
    (killBits a hd (List.range 4)).testBit k = (a.testBit k || (decide (k < 4) && (hdrRevoke hd).testBit k && k != hdrKey hd)) := by
  rw [testBit_killBits, decide_eq_decide.mpr List.mem_range]

/-- The fuses once the running image is confirmed (R949). -/
def confirmedOtp (o : Otp) (hd : Octets) : Otp :=
  { o with rollback := max o.rollback (min 255 (hdrSecurity hd)), revoked := killBits o.revoked hd (List.range 4) }

theorem confirmImage_form (s : State) : ∃ ev, confirmImage s =
    { s with otp := confirmedOtp s.otp (slotOfFlash s.flash s.mod.fw.running).header, mod := { s.mod with ev := ev } } := by
  unfold confirmImage
  dsimp only
  split
  · next hsame =>
    refine ⟨s.mod.ev, ?_⟩
    have hotp : confirmedOtp s.otp (slotOfFlash s.flash s.mod.fw.running).header = s.otp := by
      unfold confirmedOtp killBits
      rw [hsame.1, hsame.2]
    rw [hotp]
  · exact ⟨_, rfl⟩

/-! ### The obligation -/

/-- The module at the end of the 4 s that the pilots have to start (R947). -/
def startLate (s : State) (x : Nat) : State :=
  { s with flash := { setSlot s.flash x { slotOfFlash s.flash x with state := 3 } with boot := 1 - x }, mod := advanceTo s.mod (s.mod.fw.stoppedAt + 4 * secCycles) }

theorem firmwareTimeout_starting {x : Nat} (ha : s.mod.fw.activating = some (x, 2)) :
    firmwareTimeout s = pilotsRun (startLate s x) (1 - x) (some (x, 1)) := by
  unfold firmwareTimeout
  rw [ha]
  rfl

theorem firmwareRuns_starting {x y : Nat} (ha : s.mod.fw.activating = some (x, 2)) (hy : bootSlot s = some y) : firmwareRuns s =
    if y = x then pilotsRun s x none else pilotsRun { s with flash := { s.flash with boot := y } } y (some (x, 0)) := by
  unfold firmwareRuns
  rw [ha, hy]
  rfl

/-- Settles O54: each step of an activation acts on the record of the one before it, and the pilots that run again hold no event. -/
theorem activationRunsOrFallsBack : Obligations.ActivationRunsOrFallsBack := by
  refine ⟨fun s h i x hw hc => ?_, fun s x hrun ha hs => ?_, fun s x y hrun ha hy => ?_, fun s x hrun ha => ?_, fun s h i hd hw hc hhd => ?_⟩
  · obtain ⟨bodies, hb, heq⟩ := writeRow_activate hc (slot_fit hw)
    refine ⟨_, exec_firmwareActivate hw, fun hx => ?_, fun hx hbusy => ?_, fun hx hfree => ?_⟩
    · rw [show beginActivation (s.upd (accept s.mod h i)) x = (s.upd (accept s.mod h i), 0x3003) from if_pos hx] at heq
      rw [heq, answerWrite_fw, finish_flash, answerWrite_flash]
      exact ⟨rfl, rfl, answered_of_sessions hb hc.1 rfl⟩
    · rw [show beginActivation (s.upd (accept s.mod h i)) x = (s.upd (accept s.mod h i), 0x3002) from (if_neg (not_not.mpr hx)).trans (if_pos hbusy)] at heq
      rw [heq, answerWrite_fw, finish_flash, answerWrite_flash]
      exact ⟨rfl, rfl, answered_of_sessions hb hc.1 rfl⟩
    · obtain ⟨hact, hissued, hended⟩ := activationBegun_begun (s.upd (accept s.mod h i)) x
      rw [beginActivation_begins (s := s.upd (accept s.mod h i)) hx hfree] at heq
      generalize activationBegun (s.upd (accept s.mod h i)) x = n at hact hissued hended heq
      rw [heq, answerWrite_fw, finish_flash, answerWrite_flash]
      refine ⟨rfl, hact, ?_, fun j hj hst => ?_⟩
      · rw [finish_mod, sealsIssued_settleOver, answerWrite_mod, replySealed_ev]
        exact hissued
      · have hgone := hended j hj ((state_accept_any s.mod h i j).trans_le hst)
        rw [sess_answerWrite_ended (by rw [hgone]; decide)]
        exact hgone
  · refine ⟨_, exec_pilotsStop hrun, ?_⟩
    obtain ⟨hsys, hfw⟩ := holdIfStopped_keeps (stopPilots s.mod)
    have hgo : stopForActivation s.mod = holdIfStopped (stopPilots s.mod) := if_neg (by cases hs <;> simp_all)
    rw [finish_mod, State.upd_mod, settleOver_sys, settleOver_fw, hgo, hsys, hfw, stopPilots_activating ha]
    exact ⟨rfl, rfl, rfl, rfl, hrun⟩
  · refine ⟨_, exec_firmwareRunning hrun, ?_⟩
    obtain ⟨f, hruns, hboot⟩ : ∃ f, RunsOn { s with flash := f } y (firmwareRuns s) ∧ slotOfFlash f y = slotOfFlash s.flash y ∧ (x ≠ y → f.boot = y) := by
      rw [firmwareRuns_starting ha hy]
      split
      · next hsame =>
        subst hsame
        exact ⟨s.flash, pilotsRun_runs .., rfl, fun hne => absurd rfl hne⟩
      · exact ⟨_, pilotsRun_runs .., rfl, fun _ => rfl⟩
    obtain ⟨hslot, hboot⟩ := hboot
    obtain ⟨held0, held1⟩ := held_settleOver (by rw [hruns.sys]) (by rw [hruns.sys]) hruns.held
    rw [finish_mod, finish_flash, settleOver_sys, settleOver_fw, hruns.sys, hruns.fw, hruns.flash, hslot]
    exact ⟨rfl, rfl, rfl, rfl, rfl, held0, held1, hboot⟩
  · refine ⟨_, exec_firmwareStartTimeout hrun, ?_⟩
    have hruns := pilotsRun_runs (startLate s x) (1 - x) (some (x, 1))
    rw [firmwareTimeout_starting ha, finish_mod, finish_flash, settleOver_sys, settleOver_fw, hruns.sys, hruns.fw, hruns.flash]
    refine ⟨rfl, rfl, rfl, rfl, rfl, ?_, le_advanceTo_elapsed s.mod _⟩
    unfold startLate slotOfFlash setSlot
    split <;> rfl
  · obtain ⟨bodies, hb, heq⟩ := writeRow_confirm hc
    obtain ⟨ev, hform⟩ := confirmImage_form (s.upd (accept s.mod h i))
    refine ⟨_, exec_firmwareConfirm hw, ?_⟩
    rw [hform] at heq
    subst hhd
    rw [heq, finish_otp, answerWrite_otp]
    refine ⟨rfl, fun k => ?_, rfl, answered_of_sessions hb hc.1 rfl⟩
    exact testBit_killBits_four ..

end Sys2Proof.Machine
end

