-- ==== Sys2Proof/Proofs/IdentityReports.lean ====
section
/-! PROOFS. The service identity and its anchor (R916 to R925), attestation reports (R926 to R931) and the commanded restart (R983). -/

namespace Sys2Proof.Machine

variable {s : State} {m : Mod} {h : Hdr} {i : Nat}

theorem exec_serviceIdentityGenerate (hw : (Instr.serviceIdentityGenerate h true).wf = true) :
    exec (.serviceIdentityGenerate h true) s = .next (finish (writeRow s h 0xF200 1 none (b1 1))) :=
  run_wf "SERVICE_IDENTITY_GENERATE" _ s (fun s => writeRow s h 0xF200 1 none (b1 (b01 true))) hw
theorem exec_certificateInstall (hw : (Instr.certificateInstall h true).wf = true) :
    exec (.certificateInstall h true) s = .next (finish (writeRow s h 0xF200 0x0A none (b1 1))) :=
  run_wf "CERTIFICATE_INSTALL" _ s (fun s => writeRow s h 0xF200 0x0A none (b1 (b01 true))) hw
theorem exec_serviceIdentityErase (hw : (Instr.serviceIdentityErase h true).wf = true) :
    exec (.serviceIdentityErase h true) s = .next (finish (writeRow s h 0xF200 0x0B none (b1 1))) :=
  run_wf "SERVICE_IDENTITY_ERASE" _ s (fun s => writeRow s h 0xF200 0x0B none (b1 (b01 true))) hw
theorem exec_operatorAnchorWrite {anchor : Octets} (hw : (Instr.operatorAnchorWrite h anchor).wf = true) :
    exec (.operatorAnchorWrite h anchor) s = .next (finish (writeRow s h 0xF300 1 none anchor)) :=
  run_wf "OPERATOR_ANCHOR_WRITE" _ s (fun s => writeRow s h 0xF300 1 none anchor) hw
theorem exec_attestationReportRead (hw : (Instr.attestationReportRead h).wf = true) :
    exec (.attestationReportRead h) s = .next (finish (serve s h 0x10 (readAct [{ idx := 0xF100, sub := 2 }]))) :=
  run_wf "ATTESTATION_REPORT_READ" _ s (fun s => serve s h 0x10 (readAct [{ idx := 0xF100, sub := 2 }])) hw
theorem exec_moduleRestart (hw : (Instr.moduleRestart h true).wf = true) :
    exec (.moduleRestart h true) s = .next (finish (writeRow s h 0x9050 3 none (b1 1))) :=
  run_wf "MODULE_RESTART" _ s (fun s => writeRow s h 0x9050 3 none (b1 (b01 true))) hw

/-! ### The service identity -/

/-- The effect of SERVICE_IDENTITY_GENERATE, with source B of the session pilot's harbour. -/
def generated (s : State) : State × Nat := generateService s (entropyOf s.mod s.mod.mgmt.pilot).failB

theorem writeRow_generate (hc : WriteClears s.mod h i 0xF200 1 none (b1 1)) : ∃ bodies ≠ [],
    writeRow s h 0xF200 1 none (b1 1) = answerWrite s (generated (s.upd (accept s.mod h i))).1 h i (generated (s.upd (accept s.mod h i))).2 bodies :=
  writeRow_state (v := .nat 1) (r := generated (s.upd (accept s.mod h i))) _ hc rfl (by decide) rfl rfl rfl

/-- A key pair is generated from 48 bytes of source B and its request signed by the birth identity (R919, R920). -/
theorem generated_makes (hv : s.mod.tether.vault.svcState = 0) (hr : s.otp.retired = false)
    (hB : (entropyOf s.mod s.mod.mgmt.pilot).failB = false) (hb : s.mod.sys.birthOk = true) : ∃ n seeds, generated s = (s.upd n, 0) ∧
      n.mgmt = s.mod.mgmt ∧ n.tether.vault.svcState = 1 ∧ n.tether.vault.svcSecret = seeds ∧ seeds.length = 48 ∧
      n.tether.vault.svcPublic = Config.slhPublic seeds ∧ n.fw.requestSig = Config.slhSign (birthSecret s.otp) n.fw.request := by
  unfold generated generateService
  dsimp only
  rw [if_neg (by rw [hv]; decide), if_neg (by rw [hr, hB, hb]; decide)]
  refine ⟨_, (draw s.mod (srcB s.mod.mgmt.pilot) 48).1, rfl, rfl, rfl, rfl, ?_, rfl, rfl⟩
  rw [draw, List.length_map, List.length_range]

theorem writeRow_certificate (hc : WriteClears s.mod h i 0xF200 0x0A none (b1 1)) : ∃ bodies ≠ [],
    writeRow s h 0xF200 0x0A none (b1 1) = answerWrite s (installCert (s.upd (accept s.mod h i))).1 h i (installCert (s.upd (accept s.mod h i))).2 bodies :=
  writeRow_state (v := .nat 1) (r := installCert (s.upd (accept s.mod h i))) _ hc rfl (by decide) rfl rfl rfl

theorem installCert_refused (hno : s.mod.tether.vault.svcState ≠ 1 ∨ s.flash.anchor = zeros 32) : installCert s = (s, 0x4002) := by
  unfold installCert
  dsimp only
  by_cases hv : s.mod.tether.vault.svcState = 1
  · rw [if_neg (not_not.mpr hv), if_pos (hno.resolve_left (not_not.mpr hv))]
  · rw [if_pos hv]

/-- A certificate for this module and its key is decided by the anchor's signature (R922, R923). -/
theorem installCert_checked (hv : s.mod.tether.vault.svcState = 1) (ha : s.flash.anchor ≠ zeros 32) (hserial : sub s.mod.fw.certBody 4 12 = s.otp.serial)
    (hkey : sub s.mod.fw.certBody 16 32 = s.mod.tether.vault.svcPublic) {ok : Bool}
    (hok : Config.slhVerify s.flash.anchor s.mod.fw.certBody s.mod.fw.certSig = ok) : ∃ ev, installCert s =
      if !ok then (s, 0x6001)
      else ({ s with flash := { s.flash with certSignature := s.mod.fw.certSig }
                     mod := { s.mod with tether := { s.mod.tether with vault := { s.mod.tether.vault with svcState := 2, svcCert := s.mod.fw.certBody } }
                                         ev := ev } }, 0) := by
  unfold installCert
  dsimp only
  rw [if_neg (not_not.mpr hv), if_neg ha, if_neg (by simp [hserial, hkey]), hok]
  exact ⟨_, rfl⟩

theorem writeRow_serviceErase (hc : WriteClears s.mod h i 0xF200 0x0B none (b1 1)) : ∃ bodies ≠ [],
    writeRow s h 0xF200 0x0B none (b1 1) = answerWrite s (eraseService (s.upd (accept s.mod h i))) h i 0 bodies :=
  writeRow_answered (v := .nat 1) (f := eff (eraseService (s.upd (accept s.mod h i)))) _ hc rfl (by decide) rfl rfl rfl

theorem writeRow_anchor {anchor : Octets} (hc : WriteClears s.mod h i 0xF300 1 none anchor) : ∃ bodies ≠ [],
    writeRow s h 0xF300 1 none anchor =
      answerWrite s (writeAnchor (s.upd (accept s.mod h i)) anchor).1 h i (writeAnchor (s.upd (accept s.mod h i)) anchor).2 bodies :=
  writeRow_state (v := .oct anchor) (r := writeAnchor (s.upd (accept s.mod h i)) anchor) _ hc rfl (by decide) rfl rfl rfl

/-! ### Attestation reports -/

/-- The module once a report is made and signed (R926, R929). -/
def reported (s : State) (i : Nat) : Mod :=
  let r := reportBytes s i (configDigest s.mod)
  let m1 := setSess s.mod i { sess s.mod i with report := r, reportSig := Config.slhSign (birthSecret s.otp) r }
  raise { m1 with mgmt := { m1.mgmt with reports := m1.mgmt.reports + 1 } } 0xF014 srcModule 0 (b4 (sess s.mod i).id ++ b4 (s.mod.mgmt.reports + 1))

theorem newReport_makes (hb : s.mod.sys.birthOk = true) (hp : s.mod.sys.pilot1 = true) :
    newReport s i (configDigest s.mod) = (s.upd (reported s i), 0) := by
  unfold newReport
  dsimp only
  rw [if_neg (by rw [hb]; decide), if_neg (by rw [hp]; decide)]
  rfl

theorem newReport_refused (hno : s.mod.sys.birthOk = false ∨ s.mod.sys.pilot1 = false) :
    ∃ st, (st = 0x4002 ∨ st = 0x3002) ∧ newReport s i (configDigest s.mod) = (s, st) := by
  unfold newReport
  dsimp only
  by_cases hb : s.mod.sys.birthOk = false
  · exact ⟨0x4002, .inl rfl, by rw [hb]; rfl⟩
  · refine ⟨0x3002, .inr rfl, ?_⟩
    rw [if_neg (by simpa using hb), hno.resolve_left hb]
    rfl

/-- A READ of the report: its entry tells of a report made or refused, and the READ itself is answered with 0x0000. -/
theorem readAct_report (hc : (readCheck s i ⟨0xF100, 2, false, 0⟩).isOk = true) : ∃ bodies ≠ [],
    readAct [⟨0xF100, 2, false, 0⟩] s i = ((newReport s i (configDigest s.mod)).1, 0, bodies) := by
  by_cases hup : s.mod.sys.birthOk = true ∧ s.mod.sys.pilot1 = true
  · have hmade := newReport_makes (i := i) hup.1 hup.2
    have hvalue : readValue s i ⟨0xF100, 2, false, 0⟩ = (s.upd (reported s i), .ok (.oct (sess (reported s i) i).report)) := by
      unfold readValue
      dsimp only
      rw [hmade]
      rfl
    rw [hmade]
    exact readAct_one hc hvalue
  · obtain ⟨st, hst, hrefused⟩ := newReport_refused (i := i) (s := s) (by
      cases hb : s.mod.sys.birthOk with
      | false => exact .inl rfl
      | true => exact .inr (Bool.eq_false_iff.mpr fun hp => hup ⟨hb, hp⟩))
    have hvalue : readValue s i ⟨0xF100, 2, false, 0⟩ = (s, .error (st, [])) := by
      unfold readValue
      dsimp only
      rw [hrefused]
      exact if_pos (show st ≠ 0 by omega)
    have hentry : readEntry s i ⟨0xF100, 2, false, 0⟩ = (s, b2 st ++ addrBytes ⟨0xF100, 2, false, 0⟩) := by
      unfold readEntry
      cases hk : readCheck s i ⟨0xF100, 2, false, 0⟩ with
      | error st => rw [hk] at hc; cases hc
      | ok o =>
        dsimp only
        rw [hvalue]
        dsimp only
        rw [if_neg (by omega)]
    rw [hrefused, readAct_eq (by decide) (by decide), readAll, hentry]
    exact ⟨_, splitBody_ne_nil [] _, rfl⟩

theorem sess_reported (s : State) (i : Nat) : sess (reported s i) i =
    { sess s.mod i with report := reportBytes s i (configDigest s.mod), reportSig := Config.slhSign (birthSecret s.otp) (reportBytes s i (configDigest s.mod)) } := by
  unfold reported
  dsimp only
  rw [sess_raise]
  exact sess_setSess_same s.mod i _

/-- What a served READ leaves of the session and of the number of reports: what the reading left. -/
theorem serve_read_keeps {act : State → Nat → State × Nat × List Octets} {n : State} {bodies : List Octets} (ha : Accepted s.mod h i)
    (hact : act (s.upd (accept s.mod h i)) i = (n, 0, bodies)) : (finish (serve s h 0x10 act)).mod.mgmt.reports = n.mod.mgmt.reports ∧
      ∃ sent stored, sess (finish (serve s h 0x10 act)).mod i = { sess n.mod i with sent := sent, stored := stored } := by
  rw [serve_accepted _ _ _ i _ ha, hact, finish_mod, settleOver_mgmt, State.upd_mod, replySealed_mgmt_reports, sess_settleOver]
  exact ⟨rfl, sess_replySealed_form ..⟩

/-! ### The commanded restart -/

theorem writeRow_restart (hc : WriteClears s.mod h i 0x9050 3 none (b1 1)) : ∃ bodies ≠ [],
    writeRow s h 0x9050 3 none (b1 1) =
      answerWrite s (s.upd (commandRestart (accept s.mod h i)).1) h i (commandRestart (accept s.mod h i)).2 bodies :=
  writeRow_status (v := .nat 1) (r := commandRestart (accept s.mod h i)) _ hc rfl (by decide) rfl rfl rfl

/-- The module with its restart due within 100 ms, behind a seal (R983). -/
def restartDue (m : Mod) : Mod :=
  { issueSeal m with sys := { (issueSeal m).sys with restartAt := some (m.sys.elapsed + 100 * msCycles) } }

theorem commandRestart_due (hfree : (m.fw.installing || anyResetting m) = false) : commandRestart m = (restartDue m, 0) :=
  if_neg (by rw [hfree]; decide)

/-- Settles O55: each write decides on the identity it finds, and a report is the read's own effect. -/
theorem identitiesReportsAndRestartsAreMade : Obligations.IdentitiesReportsAndRestartsAreMade := by
  refine ⟨fun s h i hw hc => ?_, fun s h i hw hc => ?_, fun s h i hw hc => ?_, fun s h i anchor hw hc => ?_, fun s h i hw hc => ?_, fun s h i hw hc => ?_⟩
  · obtain ⟨bodies, hb, heq⟩ := writeRow_generate hc
    refine ⟨_, exec_serviceIdentityGenerate hw, fun hv => ?_, fun hv hr hB hbirth => ?_⟩
    · rw [show generated (s.upd (accept s.mod h i)) = (s.upd (accept s.mod h i), 0x3003) from if_pos hv] at heq
      rw [heq, answerWrite_tether]
      exact ⟨rfl, answered_of_sessions hb hc.1 rfl⟩
    · obtain ⟨n, seeds, hmade, hmgmt, hstate, hsecret, hlen, hpublic, hsig⟩ := generated_makes (s := s.upd (accept s.mod h i)) hv hr hB hbirth
      rw [hmade, State.upd_upd] at heq
      rw [heq, answerWrite_tether, answerWrite_fw, State.upd_mod, hsecret]
      exact ⟨hstate, hlen, hpublic, hsig, answered_of_sessions hb hc.1 (congrArg Mgmt.sessions hmgmt)⟩
  · obtain ⟨bodies, hb, heq⟩ := writeRow_certificate hc
    refine ⟨_, exec_certificateInstall hw, fun hno => ?_, fun hv ha hserial hkey => ?_⟩
    · rw [installCert_refused (s := s.upd (accept s.mod h i)) hno] at heq
      rw [heq, answerWrite_tether]
      exact ⟨rfl, answered_of_sessions hb hc.1 rfl⟩
    · refine ⟨fun hbad => ?_, fun hgood => ?_⟩
      · obtain ⟨ev, hchecked⟩ := installCert_checked (s := s.upd (accept s.mod h i)) hv ha hserial hkey hbad
        rw [hchecked, if_pos (by decide)] at heq
        rw [heq, answerWrite_tether]
        exact ⟨rfl, answered_of_sessions hb hc.1 rfl⟩
      · obtain ⟨ev, hchecked⟩ := installCert_checked (s := s.upd (accept s.mod h i)) hv ha hserial hkey hgood
        rw [hchecked, if_neg (by decide)] at heq
        rw [heq, answerWrite_tether, finish_flash, answerWrite_flash]
        exact ⟨rfl, rfl, rfl, answered_of_sessions hb hc.1 rfl⟩
  · obtain ⟨bodies, hb, heq⟩ := writeRow_serviceErase hc
    refine ⟨_, exec_serviceIdentityErase hw, ?_⟩
    rw [heq, answerWrite_tether, finish_flash, answerWrite_flash]
    exact ⟨rfl, rfl, rfl, rfl, rfl, answered_of_sessions hb hc.1 rfl⟩
  · obtain ⟨bodies, hb, heq⟩ := writeRow_anchor hc
    refine ⟨_, exec_operatorAnchorWrite hw, fun hzero hco => ?_, fun hset => ?_⟩
    · rw [show writeAnchor (s.upd (accept s.mod h i)) anchor = (s.upd (accept s.mod h i), 0x3003) from if_pos ⟨hzero, hco⟩] at heq
      rw [heq, finish_flash, answerWrite_flash]
      exact ⟨rfl, answered_of_sessions hb hc.1 rfl⟩
    · have hgo : ¬(anchor = zeros 32 ∧ (s.upd (accept s.mod h i)).flash.coRequired = true) := by
        rintro ⟨hzero, hco⟩
        exact absurd (hset.resolve_left (not_not.mpr hzero)) (by rw [show s.flash.coRequired = true from hco]; decide)
      rw [writeAnchor, if_neg hgo] at heq
      rw [heq, finish_flash, answerWrite_flash]
      exact ⟨rfl, answered_of_sessions hb hc.1 rfl⟩
  · obtain ⟨haccept, hcheck⟩ := hc
    obtain ⟨bodies, hb, hact⟩ := readAct_report hcheck
    obtain ⟨-, hans⟩ := serve_onlyRead (op := 0x10) (act := readAct [⟨0xF100, 2, false, 0⟩]) haccept
      (by rw [hact]; exact OnlyRead.newReport (s.upd (accept s.mod h i)) i _) (by rw [hact]; exact hb)
    rw [hact] at hans
    obtain ⟨hreports, sent, stored, hform⟩ := serve_read_keeps haccept hact
    refine ⟨_, exec_attestationReportRead hw, hans, fun hbirth hp u hu => ?_, fun hno => ?_⟩
    · subst hu
      have hmade := newReport_makes (s := s.upd (accept s.mod h i)) (i := i) hbirth hp
      rw [hmade] at hreports hform
      rw [hform, hreports, State.upd_mod, sess_reported]
      exact ⟨rfl, rfl, rfl⟩
    · obtain ⟨st, -, hrefused⟩ := newReport_refused (s := s.upd (accept s.mod h i)) (i := i) hno
      rw [hrefused] at hreports hform
      rw [hform, hreports, State.upd_mod, sess_accept_same]
      exact ⟨rfl, rfl⟩
  · obtain ⟨bodies, hb, heq⟩ := writeRow_restart hc
    refine ⟨_, exec_moduleRestart hw, fun hbusy => ?_, fun hfree => ?_⟩
    · rw [show commandRestart (accept s.mod h i) = (accept s.mod h i, 0x3002) from if_pos hbusy] at heq
      rw [heq, answerWrite_sys]
      exact ⟨rfl, answered_of_sessions hb hc.1 rfl⟩
    · rw [commandRestart_due (m := accept s.mod h i) hfree] at heq
      rw [heq, answerWrite_sys, finish_mod, sealsIssued_settleOver, answerWrite_mod, replySealed_ev]
      exact ⟨rfl, sealsIssued_issueSeal (accept s.mod h i), answered_of_sessions hb hc.1 rfl⟩

end Sys2Proof.Machine
end

