-- ==== Sys2Proof/Proofs/FrameRules.lean ====
section
/-! PROOFS. What a command leaves alone, as one relation: `Foot f m n` says that every part outside `f` is the same in the modules `m` and `n`. A rule for
each setter of the model, then for the operations that every command shares. Each rule extends a `Foot` by one operation. -/

namespace Sys2Proof.Machine

theorem Part.same_refl (p : Part) (s : State) : p.same s s := by
  cases p with
  | runtime => exact ⟨rfl, rfl⟩
  | counters => exact ⟨rfl, rfl, rfl⟩
  | obj => exact fun _ => rfl
  | _ => exact rfl

theorem Part.same_trans {p : Part} {s t u : State} (h : p.same s t) (k : p.same t u) : p.same s u := by
  cases p with
  | runtime =>
    obtain ⟨h1, h2⟩ := h
    obtain ⟨k1, k2⟩ := k
    exact ⟨k1.trans h1, k2.trans h2⟩
  | counters =>
    obtain ⟨h1, h2, h3⟩ := h
    obtain ⟨k1, k2, k3⟩ := k
    exact ⟨k1.trans h1, k2.trans h2, k3.trans h3⟩
  | obj => exact fun hs => (k hs).trans (h hs)
  | _ => exact Eq.trans k h

/-- Every part of the module outside `f` is the same. -/
structure Foot (f : Part → Bool) (m n : Mod) : Prop where
  kept : ∀ p, f p = false → p.same { mod := m } { mod := n }

/-- A footprint takes in another. -/
def Covers (f g : Part → Bool) : Prop := ∀ p, g p = true → f p = true

/-- A part is not both free and kept. -/
theorem free_kept {f : Part → Bool} {p : Part} {q : Prop} (hf : f p = true) (hp : f p = false) : q := absurd (hf.symm.trans hp) (by decide)

/-- The elements of a table that a write at a free element leaves. -/
theorem tget_tset_kept {α : Type} [DecidableEq α] {f : Part → Bool} {q : Nat → Part} {d x : α} {t : Tbl α} {i j : Nat} (hi : f (q i) = true)
    (hj : f (q j) = false) : tget d (tset d t i x) j = tget d t j :=
  tget_tset_ne _ _ _ (by rintro rfl; exact free_kept hi hj)

/-- The objects from which the default of another object is taken. -/
def sources : List (Nat × Nat) := [(0x4000, 1), (0x4000, 2), (0x8010, 1), (0x8010, 5)]

namespace Foot

variable {f : Part → Bool} {m n k : Mod}

theorem refl (m : Mod) : Foot f m m := ⟨fun p _ => Part.same_refl p { mod := m }⟩

theorem trans (h : Foot f m n) (h' : Foot f n k) : Foot f m k := ⟨fun p hp => Part.same_trans (h.kept p hp) (h'.kept p hp)⟩

theorem next (h : Foot f m n) (h' : ∀ p, f p = false → p.same { mod := n } { mod := k }) : Foot f m k := h.trans ⟨h'⟩

/-- The module of an answer. -/
theorem pair {α : Type} {x : α} (h : Foot f m n) : Foot f m (n, x).1 := h

theorem iteFst {α : Type} {x y : Mod × α} {c : Prop} [Decidable c] (hx : Foot f m x.1) (hy : Foot f m y.1) : Foot f m (if c then x else y).1 := by
  split
  · exact hx
  · exact hy

theorem ite {c : Prop} [Decidable c] (hn : Foot f m n) (hk : Foot f m k) : Foot f m (if c then n else k) := by
  split
  · exact hn
  · exact hk

theorem foldl {α : Type} {g : Mod → α → Mod} {l : List α} (h : Foot f m n) (hg : ∀ k a, Foot f m k → Foot f m (g k a)) : Foot f m (l.foldl g n) := by
  induction l generalizing n with
  | nil => exact h
  | cons a r ih => exact ih (hg n a h)

/-! ### The groups of the state -/

theorem withEv (h : Foot f m n) (hf : f .ev = true) {x : Ev} : Foot f m { n with ev := x } := h.next fun p hp => by
  have hsame := Part.same_refl p { mod := n }
  cases p with
  | ev => exact free_kept hf hp
  | _ => exact hsame

theorem withSys (h : Foot f m n) (hf : f .sys = true) {x : Sys} (hx : x.elapsed = n.sys.elapsed := by rfl) : Foot f m { n with sys := x } :=
  h.next fun p hp => by
    have hsame := Part.same_refl p { mod := n }
    cases p with
    | sys => exact free_kept hf hp
    | clock => exact hx
    | _ => exact hsame

theorem withTether (h : Foot f m n) (hf : f .tether = true) {x : Tether} (hr : x.runtime = n.tether.runtime := by rfl)
    (hs : x.runtimeSub = n.tether.runtimeSub := by rfl) (hc : x.vault.cfg = n.tether.vault.cfg := by rfl) : Foot f m { n with tether := x } :=
  h.next fun p hp => by
    have hsame := Part.same_refl p { mod := n }
    cases p with
    | tether => exact free_kept hf hp
    | runtime => exact ⟨hr, hs⟩
    | obj i s e =>
      intro _
      have hstore : ∀ j t, store { n with tether := x } j t = store n j t := fun j t => by unfold store; rw [hc]
      show look { n with tether := x } [] i s e = look n [] i s e
      unfold look
      simp only [hstore]
    | _ => exact hsame

theorem withMgmt (h : Foot f m n) (hf : f .mgmt = true) {x : Mgmt} (hs : x.sessions = n.mgmt.sessions := by rfl)
    (hi : x.icept = n.mgmt.icept := by rfl) : Foot f m { n with mgmt := x } := h.next fun p hp => by
  have hsame := Part.same_refl p { mod := n }
  cases p with
  | mgmt => exact free_kept hf hp
  | icept => exact hi
  | session j => show sess { n with mgmt := x } j = sess n j; unfold sess; rw [hs]
  | _ => exact hsame

theorem withIcept (h : Foot f m n) (hf : f .icept = true) {x : Tbl Intercept} : Foot f m { n with mgmt := { n.mgmt with icept := x } } :=
  h.next fun p hp => by
    have hsame := Part.same_refl p { mod := n }
    cases p with
    | icept => exact free_kept hf hp
    | _ => exact hsame

theorem withTime (h : Foot f m n) (hf : f .time = true) {x : TimeSt} (h0 : x.c0 = n.time.c0 := by rfl) (h1 : x.c1 = n.time.c1 := by rfl)
    (hl : x.locked = n.time.locked := by rfl) (ht : x.tts = n.time.tts := by rfl) : Foot f m { n with time := x } := h.next fun p hp => by
  have hsame := Part.same_refl p { mod := n }
  cases p with
  | time => exact free_kept hf hp
  | counters => exact ⟨h0, h1, hl⟩
  | tts => exact ht
  | _ => exact hsame

theorem withCounters (h : Foot f m n) (hf : f .time = true) (hc : f .counters = true) {x : TimeSt} (ht : x.tts = n.time.tts := by rfl) :
    Foot f m { n with time := x } := h.next fun p hp => by
  have hsame := Part.same_refl p { mod := n }
  cases p with
  | time => exact free_kept hf hp
  | counters => exact free_kept hc hp
  | tts => exact ht
  | _ => exact hsame

theorem withTts (h : Foot f m n) (hf : f .tts = true) {x : Tbl Tt} : Foot f m { n with time := { n.time with tts := x } } := h.next fun p hp => by
  have hsame := Part.same_refl p { mod := n }
  cases p with
  | tts => exact free_kept hf hp
  | _ => exact hsame

theorem withOvers (h : Foot f m n) (hf : f .overs = true) {x : Tbl Nat} : Foot f m { n with overs := x } := h.next fun p hp => by
  have hsame := Part.same_refl p { mod := n }
  cases p with
  | overs => exact free_kept hf hp
  | _ => exact hsame

theorem withOnceAt (h : Foot f m n) (hf : f .onceAt = true) {x : Tbl (Option Nat)} : Foot f m { n with onceAt := x } := h.next fun p hp => by
  have hsame := Part.same_refl p { mod := n }
  cases p with
  | onceAt => exact free_kept hf hp
  | _ => exact hsame

theorem withSnap (h : Foot f m n) (hf : f .snap = true) {x : Snap} : Foot f m { n with snap := x } := h.next fun p hp => by
  have hsame := Part.same_refl p { mod := n }
  cases p with
  | snap => exact free_kept hf hp
  | _ => exact hsame

theorem withFw (h : Foot f m n) (hf : f .fw = true) {x : Fw} : Foot f m { n with fw := x } := h.next fun p hp => by
  have hsame := Part.same_refl p { mod := n }
  cases p with
  | fw => exact free_kept hf hp
  | _ => exact hsame

theorem withCounted (h : Foot f m n) (hf : f .counted = true) {x : Tbl Nat} : Foot f m { n with counted := x } := h.next fun p hp => by
  have hsame := Part.same_refl p { mod := n }
  cases p with
  | counted => exact free_kept hf hp
  | _ => exact hsame

theorem withDrawn (h : Foot f m n) (hf : f .drawn = true) {x : Tbl Feed} : Foot f m { n with drawn := x } := h.next fun p hp => by
  have hsame := Part.same_refl p { mod := n }
  cases p with
  | drawn => exact free_kept hf hp
  | _ => exact hsame

theorem withSlots (h : Foot f m n) (hf : f .slots = true) {x : Tbl (List Nat)} : Foot f m { n with slots := x } := h.next fun p hp => by
  have hsame := Part.same_refl p { mod := n }
  cases p with
  | slots => exact free_kept hf hp
  | _ => exact hsame

theorem withSerials (h : Foot f m n) (hf : f .serials = true) {x : Nat} : Foot f m { n with serials := x } := h.next fun p hp => by
  have hsame := Part.same_refl p { mod := n }
  cases p with
  | serials => exact free_kept hf hp
  | _ => exact hsame

theorem emit {x : Out} (hf : f .out = true) (h : Foot f m n) : Foot f m (emit n x) := h.next fun p hp => by
  have hsame := Part.same_refl p { mod := n }
  cases p with
  | out => exact free_kept hf hp
  | _ => exact hsame

/-! ### The tables -/

section
variable {i : Nat}

theorem setSess {x : Sess} (hf : f (.session i) = true) (h : Foot f m n) : Foot f m (setSess n i x) := h.next fun p hp => by
  have hsame := Part.same_refl p { mod := n }
  have hkept (j : Nat) (hj : f (.session j) = false) : tget {} (tset {} n.mgmt.sessions i x) j = tget {} n.mgmt.sessions j := tget_tset_kept (q := .session) hf hj
  unfold Machine.setSess
  generalize tset {} n.mgmt.sessions i x = y at hkept ⊢
  cases p with
  | session j => exact hkept j hp
  | _ => exact hsame

theorem setLane {x : Lane} (hf : f (.lane i) = true) (h : Foot f m n) : Foot f m (setLane n i x) := h.next fun p hp => by
  have hsame := Part.same_refl p { mod := n }
  have hkept (j : Nat) (hj : f (.lane j) = false) : tget {} (tset {} n.lanes i x) j = tget {} n.lanes j := tget_tset_kept (q := .lane) hf hj
  unfold Machine.setLane
  generalize tset {} n.lanes i x = y at hkept ⊢
  cases p with
  | lane j => exact hkept j hp
  | _ => exact hsame

theorem setPort {x : Port} (hf : f (.port i) = true) (h : Foot f m n) : Foot f m (setPort n i x) := h.next fun p hp => by
  have hsame := Part.same_refl p { mod := n }
  have hkept (j : Nat) (hj : f (.port j) = false) : tget {} (tset {} n.ports i x) j = tget {} n.ports j := tget_tset_kept (q := .port) hf hj
  unfold Machine.setPort
  generalize tset {} n.ports i x = y at hkept ⊢
  cases p with
  | port j => exact hkept j hp
  | _ => exact hsame

theorem setRx {x : GelRx} (hf : f (.rx i) = true) (h : Foot f m n) : Foot f m (setRx n i x) := h.next fun p hp => by
  have hsame := Part.same_refl p { mod := n }
  have hkept (j : Nat) (hj : f (.rx j) = false) : tget {} (tset {} n.rx i x) j = tget {} n.rx j := tget_tset_kept (q := .rx) hf hj
  unfold Machine.setRx
  generalize tset {} n.rx i x = y at hkept ⊢
  cases p with
  | rx j => exact hkept j hp
  | _ => exact hsame

theorem setTx {x : GelTx} (hf : f (.tx i) = true) (h : Foot f m n) : Foot f m (setTx n i x) := h.next fun p hp => by
  have hsame := Part.same_refl p { mod := n }
  have hkept (j : Nat) (hj : f (.tx j) = false) : tget {} (tset {} n.tx i x) j = tget {} n.tx j := tget_tset_kept (q := .tx) hf hj
  unfold Machine.setTx
  generalize tset {} n.tx i x = y at hkept ⊢
  cases p with
  | tx j => exact hkept j hp
  | _ => exact hsame

theorem setPm {x : Pm} (hf : f (.pm i) = true) (h : Foot f m n) : Foot f m (setPm n i x) := h.next fun p hp => by
  have hsame := Part.same_refl p { mod := n }
  have hkept (j : Nat) (hj : f (.pm j) = false) : tget {} (tset {} n.pm i x) j = tget {} n.pm j := tget_tset_kept (q := .pm) hf hj
  unfold Machine.setPm
  generalize tset {} n.pm i x = y at hkept ⊢
  cases p with
  | pm j => exact hkept j hp
  | _ => exact hsame

theorem setStow {x : Stow} (hf : f (.stow i) = true) (h : Foot f m n) : Foot f m (setStow n i x) := h.next fun p hp => by
  have hsame := Part.same_refl p { mod := n }
  have hkept (j : Nat) (hj : f (.stow j) = false) : tget {} (tset {} n.stow i x) j = tget {} n.stow j := tget_tset_kept (q := .stow) hf hj
  unfold Machine.setStow
  generalize tset {} n.stow i x = y at hkept ⊢
  cases p with
  | stow j => exact hkept j hp
  | _ => exact hsame

theorem setBerth {x : Berth} (hf : f (.berth i) = true) (h : Foot f m n) : Foot f m (setBerth n i x) := h.next fun p hp => by
  have hsame := Part.same_refl p { mod := n }
  have hkept (j : Nat) (hj : f (.berth j) = false) : tget {} (tset {} n.berths i x) j = tget {} n.berths j := tget_tset_kept (q := .berth) hf hj
  unfold Machine.setBerth
  generalize tset {} n.berths i x = y at hkept ⊢
  cases p with
  | berth j => exact hkept j hp
  | _ => exact hsame

theorem setKek {x : Kek} (hf : f (.kek i) = true) (h : Foot f m n) : Foot f m (setKek n i x) := h.next fun p hp => by
  have hsame := Part.same_refl p { mod := n }
  have hkept (j : Nat) (hj : f (.kek j) = false) : tget {} (tset {} n.keks i x) j = tget {} n.keks j := tget_tset_kept (q := .kek) hf hj
  unfold Machine.setKek
  generalize tset {} n.keks i x = y at hkept ⊢
  cases p with
  | kek j => exact hkept j hp
  | _ => exact hsame

theorem setAssoc {x : Assoc} (hf : f (.assoc i) = true) (h : Foot f m n) : Foot f m (setAssoc n i x) := h.next fun p hp => by
  have hsame := Part.same_refl p { mod := n }
  have hkept (j : Nat) (hj : f (.assoc j) = false) : tget {} (tset {} n.assocs i x) j = tget {} n.assocs j := tget_tset_kept (q := .assoc) hf hj
  unfold Machine.setAssoc
  generalize tset {} n.assocs i x = y at hkept ⊢
  cases p with
  | assoc j => exact hkept j hp
  | _ => exact hsame

theorem withFilter {x : KeyFilter} (h : Foot f m n) (hf : f (.filter i) = true) : Foot f m { n with filters := tset {} n.filters i x } :=
  h.next fun p hp => by
    have hsame := Part.same_refl p { mod := n }
    cases p with
    | filter j => exact tget_tset_kept hf hp
    | _ => exact hsame

theorem setBank {x : Bank} (hf : f (.bank i) = true) (h : Foot f m n) : Foot f m (setBank n i x) := h.next fun p hp => by
  have hsame := Part.same_refl p { mod := n }
  have hkept (j : Nat) (hj : f (.bank j) = false) : tget {} (tset {} n.banks i x) j = tget {} n.banks j := tget_tset_kept (q := .bank) hf hj
  unfold Machine.setBank
  generalize tset {} n.banks i x = y at hkept ⊢
  cases p with
  | bank j => exact hkept j hp
  | _ => exact hsame

theorem setEntropy {x : Entropy} (hf : f (.entropy i) = true) (h : Foot f m n) : Foot f m (setEntropy n i x) := h.next fun p hp => by
  have hsame := Part.same_refl p { mod := n }
  have hkept (j : Nat) (hj : f (.entropy j) = false) : tget {} (tset {} n.entropy i x) j = tget {} n.entropy j := tget_tset_kept (q := .entropy) hf hj
  unfold Machine.setEntropy
  generalize tset {} n.entropy i x = y at hkept ⊢
  cases p with
  | entropy j => exact hkept j hp
  | _ => exact hsame

theorem setCls {x : Cls} (hf : f (.cls i) = true) (h : Foot f m n) : Foot f m (setCls n i x) := h.next fun p hp => by
  have hsame := Part.same_refl p { mod := n }
  have hkept (j : Nat) (hj : f (.cls j) = false) : tget {} (tset {} n.cls i x) j = tget {} n.cls j := tget_tset_kept (q := .cls) hf hj
  unfold Machine.setCls
  generalize tset {} n.cls i x = y at hkept ⊢
  cases p with
  | cls j => exact hkept j hp
  | _ => exact hsame

theorem setQueue {x : Queue} (hf : f (.queue i) = true) (h : Foot f m n) : Foot f m (setQueue n i x) := h.next fun p hp => by
  have hsame := Part.same_refl p { mod := n }
  have hkept (j : Nat) (hj : f (.queue j) = false) : tget {} (tset {} n.queues i x) j = tget {} n.queues j := tget_tset_kept (q := .queue) hf hj
  unfold Machine.setQueue
  generalize tset {} n.queues i x = y at hkept ⊢
  cases p with
  | queue j => exact hkept j hp
  | _ => exact hsame

theorem setNode {x : Node} (hf : f (.node i) = true) (h : Foot f m n) : Foot f m (setNode n i x) := h.next fun p hp => by
  have hsame := Part.same_refl p { mod := n }
  have hkept (j : Nat) (hj : f (.node j) = false) : tget {} (tset {} n.nodes i x) j = tget {} n.nodes j := tget_tset_kept (q := .node) hf hj
  unfold Machine.setNode
  generalize tset {} n.nodes i x = y at hkept ⊢
  cases p with
  | node j => exact hkept j hp
  | _ => exact hsame

theorem setArb {x : Arb} (hf : f (.arb i) = true) (h : Foot f m n) : Foot f m (setArb n i x) := h.next fun p hp => by
  have hsame := Part.same_refl p { mod := n }
  have hkept (j : Nat) (hj : f (.arb j) = false) : tget {} (tset {} n.arbs i x) j = tget {} n.arbs j := tget_tset_kept (q := .arb) hf hj
  unfold Machine.setArb
  generalize tset {} n.arbs i x = y at hkept ⊢
  cases p with
  | arb j => exact hkept j hp
  | _ => exact hsame

theorem setGate {x : Gate} (hf : f (.gate i) = true) (h : Foot f m n) : Foot f m (setGate n i x) := h.next fun p hp => by
  have hsame := Part.same_refl p { mod := n }
  have hkept (j : Nat) (hj : f (.gate j) = false) : tget {} (tset {} n.gates i x) j = tget {} n.gates j := tget_tset_kept (q := .gate) hf hj
  unfold Machine.setGate
  generalize tset {} n.gates i x = y at hkept ⊢
  cases p with
  | gate j => exact hkept j hp
  | _ => exact hsame

theorem setSource {x : Source} (hf : f (.source i) = true) (h : Foot f m n) : Foot f m (setSource n i x) := h.next fun p hp => by
  have hsame := Part.same_refl p { mod := n }
  have hkept (j : Nat) (hj : f (.source j) = false) : tget {} (tset {} n.sources i x) j = tget {} n.sources j := tget_tset_kept (q := .source) hf hj
  unfold Machine.setSource
  generalize tset {} n.sources i x = y at hkept ⊢
  cases p with
  | source j => exact hkept j hp
  | _ => exact hsame

end

/-! ### Objects and events -/

section
variable {idx sub elem : Nat}

/-- An object from which no other takes its default. -/
theorem setObj {v : Val} (hf : ∀ e, f (.obj idx sub e) = true) (h : Foot f m n) (hd : (idx, sub) ∉ sources := by decide) (hs : sub < 256 := by decide) :
    Foot f m (setObj n idx sub elem v) := h.next fun p hp => by
  have hsame := Part.same_refl p { mod := n }
  cases p with
  | obj i s e =>
    intro hlt
    refine look_setObj_ne n v (okey_ne e elem hlt hs ?_) hd hs
    rintro ⟨rfl, rfl⟩
    exact free_kept (hf e) hp
  | _ => exact hsame

theorem setNat {v : Nat} (hf : ∀ e, f (.obj idx sub e) = true) (h : Foot f m n) (hd : (idx, sub) ∉ sources := by decide) (hs : sub < 256 := by decide) :
    Foot f m (setNat n idx sub elem v) := h.setObj hf hd hs

theorem bump {c : Nat} (he : f .ev = true) (hf : ∀ e, f (.obj idx sub e) = true) (h : Foot f m n) (hd : (idx, sub) ∉ sources := by decide)
    (hs : sub < 256 := by decide) : Foot f m (bump n idx sub elem c) := by
  obtain ⟨v, ev, hform, -⟩ := bump_form n idx sub elem c
  rw [hform]
  exact (h.setNat hf hd hs).withEv he

end

theorem raise {code src bpid : Nat} {ps : Octets} (he : f .ev = true) (h : Foot f m n) : Foot f m (raise n code src bpid ps) := h.withEv he

theorem raiseOnce {code unit src bpid : Nat} {ps : Octets} (he : f .ev = true) (ho : f .onceAt = true) (h : Foot f m n) :
    Foot f m (raiseOnce n code unit src bpid ps) := by
  unfold Machine.raiseOnce
  dsimp only
  split
  · exact .ite h (.raise he (h.withOnceAt ho))
  · exact .raise he (h.withOnceAt ho)

theorem clearOver {e r : Nat} (he : f .ev = true) (ho : f .overs = true) (h : Foot f m n) : Foot f m (clearOver n e r) :=
  .ite (.raise he (h.withOvers ho)) h

theorem settleOver (he : f .ev = true) (ho : f .overs = true) (h : Foot f m n) : Foot f m (settleOver n) :=
  h.foldl fun _ _ hk => hk.foldl fun _ _ hj => hj.clearOver he ho

/-! ### Replies -/

theorem sendLater {p : Nat} {x : Msg} (hi : f .icept = true) (h : Foot f m n) : Foot f m (sendLater n p x) := h.withIcept hi

theorem send {x : Msg} (hi : f .icept = true) (ho : f .out = true) (h : Foot f m n) : Foot f m (send n x) := by
  unfold Machine.send
  split
  · exact .sendLater hi h
  · exact .sendLater hi h
  · exact .emit ho h

theorem sends {l : List Msg} (hi : f .icept = true) (ho : f .out = true) (h : Foot f m n) : Foot f m (l.foldl Machine.send n) :=
  h.foldl fun _ _ hk => hk.send hi ho

theorem replyPlain {x : Hdr} {op session status : Nat} {body : Octets} (hi : f .icept = true) (ho : f .out = true) (h : Foot f m n) :
    Foot f m (replyPlain n x op session status body) := .send hi ho h

variable {x : Hdr} {op : Nat}

theorem replySealed {slot id sent status : Nat} {bodies : List Octets} (hf : Covers f answers) (h : Foot f m n) :
    Foot f m (replySealed n slot id sent x op status bodies) :=
  .ite (.setSess (hf _ rfl) (.sends (hf _ rfl) (hf _ rfl) h)) (.sends (hf _ rfl) (hf _ rfl) h)

end Foot

/-! ### The whole state -/

/-- Every part of the state outside `f` is the same. -/
structure Frame (f : Part → Bool) (s t : State) : Prop where
  otp : f .otp = false → t.otp = s.otp
  flash : f .flash = false → t.flash = s.flash
  pending : f .pending = false → t.pending = s.pending
  mod : Foot f s.mod t.mod

namespace Frame

variable {f : Part → Bool} {s t u : State}

theorem refl (s : State) : Frame f s s := ⟨fun _ => rfl, fun _ => rfl, fun _ => rfl, .refl _⟩

theorem same (h : Frame f s t) (p : Part) (hp : f p = false) : p.same s t := by
  cases p with
  | otp => exact h.otp hp
  | flash => exact h.flash hp
  | pending => exact h.pending hp
  | _ => exact h.mod.kept _ hp

/-- The state of an answer. -/
theorem pair {α : Type} {x : α} (h : Frame f s t) : Frame f s (t, x).1 := h

theorem upd {m : Mod} (h : Frame f s t) (hm : Foot f s.mod m) : Frame f s (t.upd m) := ⟨h.otp, h.flash, h.pending, hm⟩

/-- A change of the module alone. -/
theorem of_mod {m : Mod} (hm : Foot f s.mod m) : Frame f s (s.upd m) := (refl s).upd hm

theorem onMod {g : Mod → Mod} (hm : Foot f s.mod (g s.mod)) : Frame f s (onMod g s) := of_mod hm

theorem ite {c : Prop} [Decidable c] (ht : Frame f s t) (hu : Frame f s u) : Frame f s (if c then t else u) := by
  split
  · exact ht
  · exact hu

theorem foldl {α : Type} {g : State → α → State} {l : List α} (h : Frame f s t) (hg : ∀ u a, Frame f s u → Frame f s (g u a)) :
    Frame f s (l.foldl g t) := by
  induction l generalizing t with
  | nil => exact h
  | cons a r ih => exact ih (hg t a h)

theorem whileOn {g : State → State} (h : Frame f s (g s)) : Frame f s (whileOn g s) := .ite h (refl s)

theorem finish (he : f .ev = true) (ho : f .overs = true) (h : Frame f s t) : Frame f s (finish t) := h.upd (.settleOver he ho h.mod)

end Frame

end Sys2Proof.Machine
end

