-- ==== Sys2Proof/Proofs/FrameSessions.lean ====
section
/-! PROOFS. What time and the operations on sessions leave alone. -/

namespace Sys2Proof.Machine

variable {f : Part → Bool} {m n : Mod} {s t : State}

/-- A footprint takes in what the answering of a message changes. -/
theorem covers_answers (hs : ∀ i, f (.session i) = true := by intro _; rfl) (ho : f .out = true := by rfl) (hi : f .icept = true := by rfl)
    (he : f .ev = true := by rfl) (hov : f .overs = true := by rfl) (hc : ∀ e, f (.obj 0x2000 8 e) = true := by intro _; rfl) : Covers f answers := by
  intro p hp
  cases p with
  | session i => exact hs i
  | out => exact ho
  | icept => exact hi
  | ev => exact he
  | overs => exact hov
  | obj idx sub e =>
    simp only [answers, Bool.and_eq_true, beq_iff_eq] at hp
    obtain ⟨rfl, rfl⟩ := hp
    exact hc e
  | _ => cases hp

/-- A footprint takes in what the passage of time changes. -/
theorem covers_time (hc : f .clock = true := by rfl) (hr : f .runtime = true := by rfl) (hn : f .counters = true := by rfl) (he : f .ev = true := by rfl)
    (hb : ∀ i, f (.bank i) = true := by intro _; rfl) (hx : ∀ i, f (.tx i) = true := by intro _; rfl) (ht : f .tts = true := by rfl)
    (ho : f .out = true := by rfl) (hobj : ∀ e, f (.obj 0x4200 7 e) = true ∧ f (.obj 0x4200 8 e) = true ∧ f (.obj 0x3200 7 e) = true ∧
      f (.obj 0x3200 8 e) = true := by intro _; exact ⟨rfl, rfl, rfl, rfl⟩) : Covers f timePasses := by
  intro p hp
  cases p with
  | clock => exact hc
  | runtime => exact hr
  | counters => exact hn
  | ev => exact he
  | bank i => exact hb i
  | tx i => exact hx i
  | tts => exact ht
  | out => exact ho
  | obj idx sub e =>
    simp only [timePasses, Bool.and_eq_true, Bool.or_eq_true, beq_iff_eq] at hp
    obtain ⟨h42a, h42b, h32a, h32b⟩ := hobj e
    obtain ⟨rfl | rfl, rfl | rfl⟩ := hp
    · exact h42a
    · exact h42b
    · exact h32a
    · exact h32b
  | _ => cases hp

namespace Foot

/-! ### Time -/

theorem runClocks {c : Nat} (hf : Covers f timePasses) (h : Foot f m n) : Foot f m (runClocks n c) := h.next fun p hp => by
  have hsame := Part.same_refl p { mod := n }
  cases p with
  | clock => exact free_kept (hf _ rfl) hp
  | runtime => exact free_kept (hf _ rfl) hp
  | counters => exact free_kept (hf _ rfl) hp
  | tether =>
    show { (Machine.runClocks n c).tether with runtime := 0, runtimeSub := 0 } = { n.tether with runtime := 0, runtimeSub := 0 }
    unfold Machine.runClocks
    dsimp only
    split <;> rfl
  | time =>
    show { (Machine.runClocks n c).time with c0 := {}, c1 := {}, locked := [], tts := [] } = { n.time with c0 := {}, c1 := {}, locked := [], tts := [] }
    unfold Machine.runClocks
    dsimp only
    split <;> rfl
  | tts =>
    show (Machine.runClocks n c).time.tts = n.time.tts
    unfold Machine.runClocks
    dsimp only
    split <;> rfl
  | obj i s e =>
    intro _
    show look (Machine.runClocks n c) [] i s e = look n [] i s e
    have hcfg : (Machine.runClocks n c).tether.vault.cfg = n.tether.vault.cfg := by
      unfold Machine.runClocks
      dsimp only
      split <;> rfl
    have hstore : ∀ j t, store (Machine.runClocks n c) j t = store n j t := fun j t => by unfold store; rw [hcfg]; rfl
    unfold look
    simp only [hstore]
  | _ => exact hsame

theorem runBank {k c : Nat} (hf : Covers f timePasses) (h : Foot f m n) : Foot f m (runBank n k c) := by
  unfold Machine.runBank
  exact .bump (hf _ rfl) (fun _ => hf _ rfl) (.bump (hf _ rfl) (fun _ => hf _ rfl) (.setBank (hf _ rfl) h))

theorem keepSend {p : Nat} {x : Leaving} (ht : f .tts = true) (h : Foot f m n) : Foot f m (keepSend n p x) := by
  unfold Machine.keepSend
  split
  · exact h
  · exact h.withTts ht

theorem leaveFrame {p : Nat} {x : Leaving} (hf : Covers f timePasses) (h : Foot f m n) : Foot f m (leaveFrame p n x) :=
  .keepSend (hf _ rfl) (.bump (hf _ rfl) (fun _ => hf _ rfl) (.bump (hf _ rfl) (fun _ => hf _ rfl) (.emit (hf _ rfl) (.setTx (hf _ rfl) h))))

theorem leavePort {p : Nat} (hf : Covers f timePasses) (h : Foot f m n) : Foot f m (leavePort n p) :=
  .ite h ((h.setTx (hf _ rfl)).foldl fun _ _ hk => hk.leaveFrame hf)

theorem advance {c : Nat} (hf : Covers f timePasses) (h : Foot f m n) : Foot f m (advance n c) :=
  .ite (((h.runClocks hf).foldl fun _ _ hk => hk.runBank hf).foldl fun _ _ hk => hk.leavePort hf) (h.runClocks hf)

theorem advanceTo {c : Nat} (hf : Covers f timePasses) (h : Foot f m n) : Foot f m (advanceTo n c) := h.advance hf

/-! ### The end of a session -/

theorem freeSlot {i : Nat} (hs : f (.session i) = true) (he : f .ev = true) (h : Foot f m n) : Foot f m (freeSlot n i) := (h.setSess hs).withEv he

theorem closeDebug {i id : Nat} (hm : f .mgmt = true) (he : f .ev = true) (h : Foot f m n) : Foot f m (closeDebug n i id) :=
  .ite (.ite (.raise he (.raise he (h.withMgmt hm))) (h.withMgmt hm)) h

/-- What the end of a grant changes (R802 to R804). -/
structure EndsGrants (f : Part → Bool) : Prop where
  mgmt : f .mgmt = true := by rfl
  ev : f .ev = true := by rfl
  minutes : ∀ e, f (.obj 0x2040 1 e) = true := by intro _; rfl
  debug : ∀ e, f (.obj 0x2040 2 e) = true := by intro _; rfl

theorem endGrant {i : Nat} (hf : EndsGrants f) (h : Foot f m n) : Foot f m (endGrant n i) := by
  unfold Machine.endGrant
  split
  · exact h
  · exact .raise hf.ev (.setNat hf.debug (.setNat hf.minutes (.closeDebug hf.mgmt hf.ev (h.withMgmt hf.mgmt))))

theorem endSession {i cause : Nat} (hs : f (.session i) = true) (hf : EndsGrants f) (h : Foot f m n) : Foot f m (endSession n i cause) :=
  .ite (.raise hf.ev (.freeSlot hs hf.ev (.endGrant hf h))) (.ite (.freeSlot hs hf.ev h) h)

theorem endSessions {cause : Nat} {q : Sess → Bool} (hs : ∀ i, f (.session i) = true) (hf : EndsGrants f) (h : Foot f m n) :
    Foot f m (endSessions n cause q) := h.foldl fun _ i hk => .ite (.endSession (hs i) hf hk) hk

end Foot

/-! ### Served requests -/

/-- The module that an admission leaves. -/
def Admit.left : Admit → Mod
  | .stop m => m
  | .go m _ => m

theorem Foot.stop {k : Mod} (h : Foot f m k) : Foot f m (Admit.stop k).left := h
theorem Foot.go {k : Mod} {i : Nat} (h : Foot f m k) : Foot f m (Admit.go k i).left := h

theorem Foot.leftIte {c : Prop} [Decidable c] {a b : Admit} (ha : Foot f m a.left) (hb : Foot f m b.left) : Foot f m (if c then a else b).left := by
  split
  · exact ha
  · exact hb

theorem Foot.admission {x : Hdr} {op : Nat} (hf : Covers f answers) (h : Foot f m n) : Foot f m (admission n x op).left := by
  have hdropped : Foot f m (Machine.bump n 0x2000 8 0 1) := .bump (hf _ rfl) (fun _ => hf _ rfl) h
  have hplain (session status : Nat) (body : Octets) : Foot f m (Machine.replyPlain n x op session status body) := .replyPlain (hf _ rfl) (hf _ rfl) h
  have hsent (l : List Msg) : Foot f m (l.foldl Machine.send n) := .sends (hf _ rfl) (hf _ rfl) h
  unfold Machine.admission
  refine .leftIte (.stop h) (.leftIte (.stop hdropped) (.leftIte (.stop h) (.leftIte (.stop hdropped) ?_)))
  split
  · exact .stop (hplain ..)
  · refine .leftIte (.stop hdropped) (.leftIte (.stop (hplain ..)) ?_)
    split
    · exact .stop (hsent _)
    · exact .leftIte (.stop (.setSess (hf _ rfl) (hsent _))) (.leftIte (.stop (.setSess (hf _ rfl) (hsent _)))
        (.leftIte (.stop (.replySealed hf (.setSess (hf _ rfl) h))) (.go (.setSess (hf _ rfl) h))))

/-- A served request leaves what its act leaves, where the answer is free. -/
theorem Frame.serve {x : Hdr} {op : Nat} {act : State → Nat → State × Nat × List Octets} (hf : Covers f answers)
    (hact : ∀ u i, Frame f s u → Frame f s (act u i).1) : Frame f s (serve s x op act) := by
  have hadmit := (Foot.refl s.mod).admission (x := x) (op := op) hf
  unfold Machine.serve
  split
  · next m hm =>
    rw [hm] at hadmit
    exact .of_mod hadmit
  · next m i hm =>
    rw [hm] at hadmit
    have hdone := hact (s.upd m) i (.of_mod hadmit)
    exact hdone.upd (hdone.mod.replySealed hf)

theorem Frame.closeSession {x : Hdr} (hf : Covers f answers) (hg : Foot.EndsGrants f) : Frame f s (closeSession s x) := by
  have hadmit := (Foot.refl s.mod).admission (x := x) (op := 3) hf
  unfold Machine.closeSession
  split
  · next m hm =>
    rw [hm] at hadmit
    exact .of_mod hadmit
  · next m i hm =>
    rw [hm] at hadmit
    exact .of_mod (.endSession (hf _ rfl) hg (.replySealed hf hadmit))

/-! ### OPEN and PROVE -/

theorem Frame.openSession {x : Hdr} {role method cred sid : Nat} {nonce moduleNonce : Octets} (hf : Covers f answers) :
    Frame f s (openSession s x role method cred nonce sid moduleNonce) := by
  have hdropped : Frame f s (s.upd (bump s.mod 0x2000 8 0 1)) := .of_mod (.bump (hf _ rfl) (fun _ => hf _ rfl) (.refl _))
  have hplain (k : Mod) (hk : Foot f s.mod k) (session status : Nat) (body : Octets) : Frame f s (s.upd (replyPlain k x 1 session status body)) :=
    .of_mod (.replyPlain (hf _ rfl) (hf _ rfl) hk)
  unfold Machine.openSession
  dsimp only
  refine .ite (.refl s) (.ite hdropped (.ite (.refl s) (.ite hdropped (.ite (hplain _ (.refl _) ..) (.ite (hplain _ (.refl _) ..)
    (.ite (hplain _ (.refl _) ..) ?_))))))
  split
  · exact .refl s
  · exact hplain _ (.setSess (hf _ rfl) (.refl _)) ..

/-- What a proof that fails changes (R755, R756). -/
theorem Foot.failProof {x : Hdr} {i : Nat} {locked : Bool} (hf : Covers f answers) (hm : f .mgmt = true) (h7 : ∀ e, f (.obj 0x2000 7 e) = true)
    (h8 : ∀ e, f (.obj 0x2100 8 e) = true) (h : Foot f m n) : Foot f m (failProof n x i locked) := by
  have he : f .ev = true := hf _ rfl
  unfold Machine.failProof
  extract_lets _ _ m2 m4
  have hfreed : Foot f m m2 := .raise he (.freeSlot (hf _ rfl) he (.bump he h7 h))
  have hcounted : Foot f m m4 := .bump he h8 hfreed
  clear_value m4
  refine .replyPlain (hf _ rfl) (hf _ rfl) (.ite ?_ hfreed)
  exact .ite (.raise he (hcounted.withMgmt hm)) (hcounted.withMgmt hm)

theorem Frame.proveSession {x : Hdr} {proof : Option Secret} (hf : Covers f answers) (hm : f .mgmt = true) (h7 : ∀ e, f (.obj 0x2000 7 e) = true)
    (h8 : ∀ e, f (.obj 0x2100 8 e) = true) : Frame f s (proveSession s x proof) := by
  have he : f .ev = true := hf _ rfl
  have hdropped : Frame f s (s.upd (bump s.mod 0x2000 8 0 1)) := .of_mod (.bump he (fun _ => hf _ rfl) (.refl _))
  have hplain (k : Mod) (hk : Foot f s.mod k) (session status : Nat) (body : Octets) : Frame f s (s.upd (replyPlain k x 2 session status body)) :=
    .of_mod (.replyPlain (hf _ rfl) (hf _ rfl) hk)
  unfold Machine.proveSession
  refine .ite (.refl s) (.ite hdropped (.ite (.refl s) (.ite hdropped ?_)))
  split
  · exact hplain _ (.refl _) ..
  · next i _ =>
    extract_lets _ _ m1 _ _ m2
    have hopened : Foot f s.mod m1 := .setSess (hf _ rfl) (.refl s.mod)
    have hnoted : Foot f s.mod m2 := (hopened.withEv he (x := m2.ev)).withMgmt hm (x := m2.mgmt)
    exact .ite (hplain _ (.refl _) ..) (.ite (hplain _ (.refl _) ..) (.ite (.of_mod (.failProof hf hm h7 h8 (.refl _))) (hplain _ (.raise he hnoted) ..)))

/-! ### Relay and the paths of management -/

namespace Foot

theorem relayOut {x : Hdr} {msg : Octets} (hi : f .icept = true) (ho : f .out = true) (hm : f .mgmt = true) (he : f .ev = true)
    (hx : ∀ i, f (.tx i) = true) (h9 : ∀ e, f (.obj 0x2000 9 e) = true) (h : Foot f m n) : Foot f m (relayOut n x msg) :=
  .ite h (.ite (.replyPlain hi ho h) (.ite (.raise he h) (.setTx (hx _) (.bump he h9 (h.withMgmt hm)))))

theorem relayBack {port session : Nat} {msg : Octets} (hi : f .icept = true) (ho : f .out = true) (hm : f .mgmt = true) (h : Foot f m n) :
    Foot f m (relayBack n port session msg) := by
  unfold Machine.relayBack
  split
  · exact h
  · refine .ite h ?_
    dsimp only
    split
    · exact .sendLater hi (h.withMgmt hm)
    · exact .emit ho (h.withMgmt hm)

theorem relayLapse {port session : Nat} (hf : Covers f timePasses) (hm : f .mgmt = true) (h : Foot f m n) : Foot f m (relayLapse n port session) := by
  unfold Machine.relayLapse
  split
  · exact h
  · exact (h.advanceTo hf).withMgmt hm

theorem mchMessage {p : Nat} {msg : Octets} {keyed : Bool} (he : f .ev = true) (ht : f .tts = true) (hc : ∀ e, f (.obj 0x2000 0xb e) = true)
    (h : Foot f m n) : Foot f m (mchMessage n p msg keyed) := by
  unfold Machine.mchMessage
  split
  · exact h
  · exact h.withTts ht
  · exact .bump he hc h

theorem dropMch {p cause : Nat} (he : f .ev = true) (hr : f (.rx p) = true) (hc : ∀ e, f (.obj 0x3200 0x12 e) = true) (h : Foot f m n) :
    Foot f m (dropMch n p cause) := .raise he (.bump he hc (.setRx hr h))

theorem mchReceive {p : Nat} {msg : Octets} {keyed : Bool} (he : f .ev = true) (hr : f (.rx p) = true) (ht : f .tts = true)
    (hb : ∀ e, f (.obj 0x2000 0xb e) = true) (hc : ∀ e, f (.obj 0x3200 0x12 e) = true) (h : Foot f m n) : Foot f m (mchReceive n p msg keyed) :=
  .ite h (.ite (.dropMch he hr hc h) (.ite (.mchMessage he ht hb h) (.dropMch he hr hc h)))

theorem mgmtFrame {k : Nat} {kind : MgmtKind} (he : f .ev = true) (ho : f .out = true) (hb : ∀ e, f (.obj 0x2020 0xb e) = true)
    (hc : ∀ e, f (.obj 0x2020 0xc e) = true) (h : Foot f m n) : Foot f m (mgmtFrame n k kind) := by
  unfold Machine.mgmtFrame
  refine .ite h (.ite (.bump he hc h) ?_)
  split
  · exact .bump he hb h
  · exact h
  · exact .emit ho h

theorem proveTimeout {i : Nat} (hf : Covers f timePasses) (hs : f (.session i) = true) (h : Foot f m n) : Foot f m (proveTimeout n i) :=
  .ite (.freeSlot hs (hf _ rfl) (h.advanceTo hf)) h

theorem idleExpire {i : Nat} (hf : Covers f timePasses) (hs : f (.session i) = true) (hg : EndsGrants f) (h : Foot f m n) : Foot f m (idleExpire n i) :=
  .ite ((((h.advanceTo hf).endSession hs hg)).withMgmt hg.mgmt) h

theorem forgetId {sid : Nat} (hf : Covers f timePasses) (hm : f .mgmt = true) (h : Foot f m n) : Foot f m (forgetId n sid) := by
  unfold Machine.forgetId
  split
  · exact h
  · exact (h.advanceTo hf).withMgmt hm

theorem unlockCred {c : Nat} (hf : Covers f timePasses) (hm : f .mgmt = true) (h : Foot f m n) : Foot f m (unlockCred n c) := by
  unfold Machine.unlockCred
  split
  · exact h
  · exact .raise (hf _ rfl) ((h.advanceTo hf).withMgmt hm)

theorem takeover (hf : Covers f timePasses) (hm : f .mgmt = true) (h : Foot f m n) : Foot f m (takeover n) :=
  .ite (.raise (hf _ rfl) ((h.advanceTo hf).withMgmt hm)) h

theorem sendReply {serial : Octets} {p : Nat} (he : f .ev = true) (hi : f .icept = true) (ho : f .out = true) (ha : f (.arb p) = true)
    (hc : ∀ e, f (.obj 0x2030 4 e) = true) (h : Foot f m n) : Foot f m (sendReply serial n p) := by
  unfold Machine.sendReply
  dsimp only
  split
  · exact h
  · exact .ite h (.emit ho (.bump he hc (.setArb ha (h.withIcept hi))))

theorem discardReply {p : Nat} (hf : Covers f timePasses) (hi : f .icept = true) (hc : ∀ e, f (.obj 0x2030 5 e) = true) (h : Foot f m n) :
    Foot f m (discardReply n p) := by
  unfold Machine.discardReply
  dsimp only
  split
  · exact h
  · exact .ite h (.bump (hf _ rfl) hc ((h.advanceTo hf).withIcept hi))

end Foot

end Sys2Proof.Machine
end

