-- ==== Sys2Proof/Proofs/FrameReads.lean ====
section
/-! PROOFS. What the reading of objects leaves alone (R775, R776, R806 to R822). -/

namespace Sys2Proof.Machine

variable {f : Part → Bool} {m n : Mod} {s t : State} {slot : Nat}

namespace Foot

/-! ### The counters of a lane -/

/-- What the counting of a lane's errors changes (R79, R81). -/
theorem countLane {l : Nat} {on pattern : Bool} (he : f .ev = true) (hc : f .counted = true) (hl : Covers f laneCounts) (h : Foot f m n) :
    Foot f m (countLane n l on pattern) := by
  have hmarked (x : Tbl Nat) : Foot f m { n with counted := x } := h.withCounted hc
  unfold Machine.countLane
  extract_lets add m1 m2
  have hadd (k : Mod) (hk : Foot f m k) (sub : Nat) (hsub : sub = 6 ∨ sub = 7 ∨ sub = 8 ∨ sub = 0xA) : Foot f m (add k sub) := by
    obtain rfl | rfl | rfl | rfl := hsub
    · exact .bump he (fun _ => hl _ rfl) hk
    · exact .bump he (fun _ => hl _ rfl) hk
    · exact .bump he (fun _ => hl _ rfl) hk
    · exact .bump he (fun _ => hl _ rfl) hk
  have hfirst : Foot f m m2 := by
    refine .ite ?_ (hmarked _)
    exact hadd _ (hadd _ (hadd _ (hmarked _) 6 (.inl rfl)) 7 (.inr (.inl rfl))) 8 (.inr (.inr (.inl rfl)))
  exact .ite h (.ite (hadd _ hfirst 0xA (.inr (.inr (.inr rfl)))) hfirst)

theorem countNow {l : Nat} (he : f .ev = true) (hc : f .counted = true) (hl : Covers f laneCounts) (h : Foot f m n) : Foot f m (countNow n l) :=
  h.countLane he hc hl

theorem countShown {fields : List (Nat × Nat × Nat × Nat × Nat)} (he : f .ev = true) (hc : f .counted = true) (hl : Covers f laneCounts)
    (h : Foot f m n) : Foot f m (countShown n fields) := h.foldl fun _ _ hk => .ite (hk.countNow he hc hl) hk

/-! ### Registers -/

/-- What a bus error counts (R807, R815). -/
structure BusErrors (f : Part → Bool) : Prop where
  ev : f .ev = true := by rfl
  errors : ∀ e, f (.obj 0xE000 4 e) = true := by intro _; rfl
  address : ∀ e, f (.obj 0xE000 5 e) = true := by intro _; rfl
  harbour : ∀ e, f (.obj 0xE000 6 e) = true := by intro _; rfl

/-- The module of an access that is carried out. -/
theorem reachOk {w : Nat} (h : Foot f m n) : Foot f m (Reach.ok w n).mod := h

theorem busError {a addr : Nat} (hf : BusErrors f) (h : Foot f m n) : Foot f m (busError n a addr).mod :=
  .setNat hf.harbour (.setNat hf.address (.bump hf.ev hf.errors h))

theorem readLatched {key base : Nat} {words : List Nat} (hs : f (.session slot) = true) (h : Foot f m n) :
    Foot f m (readLatched n slot key base words).mod := by
  unfold Machine.readLatched
  dsimp only
  split
  · exact .setSess hs h
  · split
    · exact h
    · exact h

theorem windowRead {k addr : Nat} (hf : BusErrors f) (hs : f (.session slot) = true) (hc : f .counted = true) (hl : Covers f laneCounts)
    (h : Foot f m s.mod) : Foot f m (windowRead s slot k addr).mod := by
  have herror : Foot f m (Machine.busError s.mod k addr).mod := .busError hf h
  unfold Machine.windowRead
  dsimp only
  split
  · exact h
  split
  · exact herror
  · split
    · exact h
    split
    · exact h
    split
    · exact h
    split
    · exact herror
    split
    · exact herror
    · exact .readLatched hs (.countShown hf.ev hc hl h)

theorem stepIndirect (hs : f (.session slot) = true) (h : Foot f m n) : Foot f m (stepIndirect n slot) := .setSess hs h

/-- The register that the indirect pair reads, before its address moves on. -/
theorem indirectRead (hf : BusErrors f) (hs : f (.session slot) = true) (h : Foot f m n) : Foot f m (indirectRead n slot).mod := by
  have herror (k a : Nat) : Foot f m (Machine.busError n k a).mod := .busError hf h
  have hstep (r : Reach) : Foot f m r.mod → Foot f m (Reach.mod (match r with
      | .ok v m1 => .ok v (Machine.stepIndirect m1 slot)
      | .fail st vs m1 => .fail st vs m1)) := by
    cases r with
    | ok v m1 => exact .stepIndirect hs
    | fail st vs m1 => exact id
  unfold Machine.indirectRead
  refine hstep _ ?_
  split
  · split
    · exact .readLatched hs h
    · exact herror ..
  · split
    · exact herror ..
    · split
      · exact h
      · split
        · exact h
        · exact herror ..

theorem takeCapture {i : Nat} {r : Octets} {k : Mod} (ht : f .time = true) (h : Foot f m n) (hr : takeCapture n i = some (r, k)) : Foot f m k := by
  unfold Machine.takeCapture at hr
  split at hr
  · cases hr
  · cases hr
    exact h.withTime ht

/-! ### Reads that are refused -/

theorem refuseAccess {k master c : Nat} {r : Option Nat} (he : f .ev = true) (ho : f .onceAt = true) (hc : ∀ e, f (.obj 0x8000 0xB e) = true)
    (h : Foot f m n) : Foot f m (refuseAccess n k master r c) := .ite (.bump he hc h) (.raiseOnce he ho (.bump he hc h))

/-- A refused read is counted only where the archive or the history refuses it. -/
theorem refusedRead {a : Addr} (hf : (a.idx ≠ 0x3430 ∧ a.idx ≠ 0xB010) ∨ (f .ev = true ∧ f .onceAt = true ∧ ∀ e, f (.obj 0x8000 0xB e) = true))
    (h : Foot f m n) : Foot f m (refusedRead n a) := by
  unfold Machine.refusedRead
  obtain ⟨h3, hB⟩ | ⟨he, ho, hc⟩ := hf
  · rw [if_neg h3, if_neg hB]
    exact .ite h h
  · refine .ite h (.ite (.ite (.refuseAccess he ho hc h) h) (.ite ?_ h))
    dsimp only
    split
    · exact .ite (.refuseAccess he ho hc h) h
    · exact h

end Foot

/-! ### Lists of reads -/

theorem Frame.newReport {digest : Octets} (hm : f .mgmt = true) (hs : f (.session slot) = true) (he : f .ev = true) (h : Frame f s t) :
    Frame f s (newReport t slot digest).1 := by
  unfold Machine.newReport
  extract_lets _ _ _ m1 _ m2
  have hmade : Foot f s.mod m1 := .setSess hs h.mod
  have hcounted : Foot f s.mod m2 := hmade.withMgmt hm
  split
  · exact h
  split
  · exact h
  · exact h.upd (.raise he hcounted)

/-- A read of one object leaves what its value's reading and its refusal leave. -/
theorem Frame.readEntry {a : Addr} (hv : Frame f s (readValue t slot a).1) (h : Frame f s t)
    (hr : ∀ k, Foot f s.mod k → Foot f s.mod (refusedRead k a)) : Frame f s (readEntry t slot a).1 := by
  have hrefused (u : State) (hu : Frame f s u) (st : Nat) : Frame f s (if st = 0x1002 then u.upd (refusedRead u.mod a) else u) :=
    .ite (hu.upd (hr _ hu.mod)) hu
  unfold Machine.readEntry
  split
  · exact hrefused _ h _
  · split
    · next hval => rw [hval] at hv; exact hv
    · next hval => rw [hval] at hv; exact hrefused _ hv _

theorem Frame.readAll {l : List Addr} (hl : ∀ u, Frame f s u → ∀ a ∈ l, Frame f s (Machine.readEntry u slot a).1) (h : Frame f s t) :
    Frame f s (readAll slot t l).1 := by
  induction l generalizing t with
  | nil => exact h
  | cons a l ih => exact ih (fun u hu b hb => hl u hu b (List.mem_cons_of_mem a hb)) (hl t h a List.mem_cons_self)

theorem Frame.readAct {l : List Addr} (hl : ∀ u, Frame f s u → ∀ a ∈ l, Frame f s (Machine.readEntry u slot a).1) (h : Frame f s t) :
    Frame f s (readAct l t slot).1 := by
  unfold Machine.readAct
  split
  · exact h
  · exact h.readAll hl

theorem Frame.readElementsAct {a : Addr} {c : Nat} (hl : ∀ u, Frame f s u → ∀ b, Frame f s (Machine.readEntry u slot b).1) (h : Frame f s t) :
    Frame f s (readElementsAct a c t slot).1 := by
  unfold Machine.readElementsAct
  split
  · exact h
  · exact h.readAll fun u hu b _ => hl u hu b

/-- What the reading of any object changes. -/
structure Reads (f : Part → Bool) : Prop extends Foot.BusErrors f where
  session : ∀ i, f (.session i) = true := by intro _; rfl
  mgmt : f .mgmt = true := by rfl
  time : f .time = true := by rfl
  counted : f .counted = true := by rfl
  onceAt : f .onceAt = true := by rfl
  lanes : Covers f laneCounts
  refused : ∀ e, f (.obj 0x8000 0xB e) = true := by intro _; rfl

theorem Frame.reach {r : Reach} (h : Frame f s t) : Foot f s.mod r.mod → Frame f s (match r with
    | .ok w m => (t.upd m, (.ok (.nat w) : Except (Nat × List Nat) Val))
    | .fail st vs m => (t.upd m, .error (st, vs))).1 := by
  cases r with
  | ok w m => exact h.upd
  | fail st vs m => exact h.upd

theorem Frame.readValue {a : Addr} (hf : Reads f) (h : Frame f s t) : Frame f s (readValue t slot a).1 := by
  have hcounted : Frame f s (t.upd (countNow t.mod a.elem)) := h.upd (.countNow hf.ev hf.counted hf.lanes h.mod)
  have hreport : Frame f s (Machine.newReport t slot (configDigest t.mod)).1 := .newReport hf.mgmt (hf.session _) hf.ev h
  unfold Machine.readValue
  dsimp only
  split
  · split
    · next r k hr => exact h.upd (.takeCapture hf.time h.mod hr)
    · exact h
  · split
    · exact hcounted
    · exact hcounted
  · exact .reach h (.windowRead hf.toBusErrors (hf.session _) hf.counted hf.lanes h.mod)
  · exact .reach h (.windowRead hf.toBusErrors (hf.session _) hf.counted hf.lanes h.mod)
  · exact .reach h (.indirectRead hf.toBusErrors (hf.session _) h.mod)
  · split
    · exact hreport
    · exact hreport
  · split
    · exact h
    · exact h

theorem Frame.readAny {a : Addr} (hf : Reads f) (h : Frame f s t) : Frame f s (Machine.readEntry t slot a).1 :=
  .readEntry (.readValue hf h) h fun _ hk => .refusedRead (.inr ⟨hf.ev, hf.onceAt, hf.refused⟩) hk

end Sys2Proof.Machine
end

