-- ==== Sys2Proof/Proofs/FramePorts.lean ====
section
/-! PROOFS. What queues, discards, ports, defects and lanes leave alone (R53 to R82, R470 to R520). -/

namespace Sys2Proof.Machine

variable {f : Part → Bool} {m n : Mod} {q p l : Nat}

theorem Covers.discards (hf : Covers f portMoves) : Covers f discards := fun p hp => hf p (by
  cases p with
  | obj idx sub e => exact Bool.or_eq_true_iff.mpr (.inl hp)
  | queue | arb | tx => rfl
  | _ => cases hp)

/-- A footprint takes in what a discard of frames changes. -/
theorem covers_discards (hq : ∀ i, f (.queue i) = true := by intro _; rfl) (ha : ∀ i, f (.arb i) = true := by intro _; rfl)
    (hx : ∀ i, f (.tx i) = true := by intro _; rfl) (hc : ∀ s e, f (.obj 0x6020 s e) = true := by intro _ _; rfl) : Covers f discards := by
  intro p hp
  cases p with
  | queue i => exact hq i
  | arb i => exact ha i
  | tx i => exact hx i
  | obj idx sub e =>
    simp only [Machine.discards, beq_iff_eq] at hp
    subst hp
    exact hc sub e
  | _ => cases hp

/-- A footprint takes in what a port that may go down changes. -/
theorem covers_portMoves (hd : Covers f discards) (hp : ∀ i, f (.port i) = true := by intro _; rfl) (hm : ∀ i, f (.pm i) = true := by intro _; rfl)
    (ho : f .out = true := by rfl) (hc : ∀ e, f (.obj 0x3100 0xB e) = true := by intro _; rfl) : Covers f portMoves := by
  intro p hx
  cases p with
  | port i => exact hp i
  | pm i => exact hm i
  | out => exact ho
  | obj idx sub e =>
    simp only [portMoves, objIn, Bool.or_eq_true, List.contains_eq_mem, List.mem_singleton, Prod.mk.injEq, decide_eq_true_eq] at hx
    obtain hx | ⟨rfl, rfl⟩ := hx
    · exact hd _ hx
    · exact hc e
  | queue i => exact hd _ rfl
  | arb i => exact hd _ rfl
  | tx i => exact hd _ rfl
  | _ => cases hx

namespace Foot

/-! ### Rates of a queue -/

theorem refillQueue (hq : f (.queue q) = true) (h : Foot f m n) : Foot f m (refillQueue n q) := by
  unfold Machine.refillQueue
  exact .setQueue hq h

theorem switchRates (hq : f (.queue q) = true) (h : Foot f m n) : Foot f m (switchRates n q) := .setQueue hq (.refillQueue hq h)

theorem retarget (he : f .ev = true) (hq : f (.queue q) = true) (h : Foot f m n) : Foot f m (retarget n q) := by
  unfold Machine.retarget
  dsimp only
  exact .ite (.switchRates hq h) (.ite (.switchRates hq h) (.raise he (.setQueue hq h)))

theorem throttleBasin {b : Nat} (he : f .ev = true) (hq : ∀ i, f (.queue i) = true) (h : Foot f m n) : Foot f m (throttleBasin n b) :=
  h.foldl fun _ i hk => hk.retarget he (hq i)

theorem rethrottle {was : Mod} (he : f .ev = true) (hq : ∀ i, f (.queue i) = true) (h : Foot f m n) : Foot f m (rethrottle was n) :=
  h.foldl fun _ _ hk => .ite hk (hk.throttleBasin he hq)

theorem applyLowering (he : f .ev = true) (hq : f (.queue q) = true) (h : Foot f m n) : Foot f m (applyLowering n q) :=
  .ite (.raise he (.switchRates hq h)) h

theorem drained (he : f .ev = true) (hq : f (.queue q) = true) (h : Foot f m n) : Foot f m (drained n q) :=
  .ite (.raise he (.setQueue hq (.applyLowering he hq h))) (.applyLowering he hq h)

theorem refillNode {k : Nat} (hn : f (.node k) = true) (h : Foot f m n) : Foot f m (refillNode n k) := by
  unfold Machine.refillNode
  dsimp only
  exact .ite (.ite h (.setNode hn h)) (.ite (.setNode hn h) (.setNode hn h))

/-! ### Discards -/

theorem countDiscards {sub : Nat} {ds : List Desc} (he : f .ev = true) (hc : ∀ s e, f (.obj 0x6020 s e) = true) (hs : sub < 256) (h : Foot f m n) :
    Foot f m (countDiscards n sub ds) :=
  h.foldl fun _ _ hk => .bump he (hc sub) hk (by simp [sources]) hs

/-- The tables that hold frames, rewritten. -/
theorem withFrames {queues : Tbl Queue} {arbs : Tbl Arb} {tx : Tbl GelTx} (hf : Covers f discards) (h : Foot f m n) :
    Foot f m { n with queues := queues, arbs := arbs, tx := tx } := h.next fun p hp => by
  have hsame := Part.same_refl p { mod := n }
  cases p with
  | queue j => exact free_kept (hf _ rfl) hp
  | arb j => exact free_kept (hf _ rfl) hp
  | tx j => exact free_kept (hf _ rfl) hp
  | _ => exact hsame

theorem discardFrames {g : Desc → Bool} {cut : Bool} {sub : Nat} (he : f .ev = true) (hf : Covers f discards) (h : Foot f m n)
    (hs : sub < 256 := by decide) : Foot f m (discardFrames n g cut sub).1 :=
  (countDiscards he (fun _ _ => hf _ rfl) hs (h.withFrames hf)).foldl fun _ _ hk => hk.drained he (hf _ rfl)

theorem discardBasin {b sub : Nat} (he : f .ev = true) (hf : Covers f discards) (h : Foot f m n) (hs : sub < 256 := by decide) :
    Foot f m (discardBasin n b sub) := h.discardFrames he hf hs

theorem discardPort (he : f .ev = true) (hf : Covers f discards) (h : Foot f m n) : Foot f m (discardPort n p).1 := h.discardFrames he hf

/-! ### Ports -/

theorem signalFault (hp : f (.port p) = true) (ho : f .out = true) (h : Foot f m n) : Foot f m (signalFault n p) := .ite h (.emit ho (.setPort hp h))

theorem forwardStop {src : Nat} (he : f .ev = true) (hf : Covers f portMoves) (h : Foot f m n) : Foot f m (forwardStop n p src) :=
  .ite (.raise he (.setPort (hf _ rfl) h)) h

theorem refreshPhase (hp : f (.port p) = true) (h : Foot f m n) : Foot f m (refreshPhase n p) := .ite (.setPort hp h) h

theorem portDown {cause : Nat} (he : f .ev = true) (hf : Covers f portMoves) (h : Foot f m n) : Foot f m (portDown n p cause) := by
  unfold Machine.portDown
  extract_lets _ m1
  have hdown : Foot f m m1 := .bump he (fun _ => hf _ rfl) (.setPort (hf _ rfl) h)
  have hgone : Foot f m (Machine.discardPort m1 p).1 := .discardPort he hf.discards hdown
  generalize Machine.discardPort m1 p = r at hgone
  obtain ⟨m2, c⟩ := r
  exact .ite h (.raise he (.raise he hgone))

theorem portUp (he : f .ev = true) (hf : Covers f portMoves) (h : Foot f m n) : Foot f m (portUp n p) := .ite h (.raise he (.setPort (hf _ rfl) h))

theorem refreshPort {cause : Nat} (he : f .ev = true) (hf : Covers f portMoves) (h : Foot f m n) : Foot f m (refreshPort n p cause) :=
  .ite (.refreshPhase (hf _ rfl) h) (.signalFault (hf _ rfl) (hf _ rfl) (.refreshPhase (hf _ rfl) (.ite (.portUp he hf h) (.portDown he hf h))))

theorem refreshForward (he : f .ev = true) (hf : Covers f portMoves) (h : Foot f m n) : Foot f m (refreshForward n l) :=
  h.foldl fun _ _ hk => .ite (.refreshPort he hf (.forwardStop he hf hk)) hk

theorem noteDefects (hf : Covers f portMoves) (h : Foot f m n) : Foot f m (noteDefects n p) := .setPm (hf _ rfl) h

theorem stampDefects (hf : Covers f portMoves) (h : Foot f m n) : Foot f m (stampDefects n p) := .setPort (hf _ rfl) h

theorem afterDefect {cause : Nat} (he : f .ev = true) (hf : Covers f portMoves) (h : Foot f m n) : Foot f m (afterDefect n p cause) :=
  .ite (.refreshForward he hf (.noteDefects hf (.stampDefects hf h))) (.refreshPort he hf (.stampDefects hf h))

theorem setDefect {b : Nat} {on : Bool} (he : f .ev = true) (hf : Covers f portMoves) (h : Foot f m n) : Foot f m (setDefect n p b on) :=
  .ite h (.afterDefect he hf (.raise he (.setPort (hf _ rfl) h)))

/-! ### Lanes -/

theorem setLos {on : Bool} (he : f .ev = true) (hf : Covers f portMoves) (hl : f (.lane l) = true) (h : Foot f m n) : Foot f m (setLos n l on) :=
  .ite h (.afterDefect he hf (.raise he (.setLane hl h)))

theorem setLol {on : Bool} (he : f .ev = true) (hf : Covers f portMoves) (hl : f (.lane l) = true) (h : Foot f m n) : Foot f m (setLol n l on) :=
  .ite h (.afterDefect he hf (.raise he (.setLane hl h)))

theorem lanePowerUp (hc : f .counted = true) (hl : f (.lane l) = true) (h : Foot f m n) : Foot f m (lanePowerUp n l) := .setLane hl (h.withCounted hc)

theorem lanePowerDown {pattern : Bool} (he : f .ev = true) (hf : Covers f portMoves) (hc : f .counted = true) (hk : Covers f laneCounts)
    (hl : f (.lane l) = true) (h : Foot f m n) : Foot f m (lanePowerDown n l pattern) :=
  .setLane hl (.setLol he hf hl (.setLos he hf hl (.countLane he hc hk h)))

theorem writePattern {v : Nat} (he : f .ev = true) (hf : Covers f portMoves) (hc : f .counted = true) (hk : Covers f laneCounts)
    (hl : f (.lane l) = true) (h9 : ∀ e, f (.obj 0x3000 9 e) = true) (h : Foot f m n) : Foot f m (writePattern n l v) := by
  unfold Machine.writePattern
  extract_lets m1
  have hset : Foot f m m1 := .setNat (fun _ => hk _ rfl) (.setNat h9 (.countNow he hc hk h))
  split
  · exact .lanePowerUp hc hl hset
  · exact .lanePowerDown he hf hc hk hl hset
  · exact hset

end Foot

end Sys2Proof.Machine
end

