-- ==== Sys2Proof/Proofs/FrameLines.lean ====
section
/-! PROOFS. What the events of lanes and ports and the seconds of a line leave alone (R53 to R82, R100 to R220). -/

namespace Sys2Proof.Machine

variable {f : Part → Bool} {m n : Mod} {p l : Nat}

/-- What the framer's return to HUNT changes (R111, R116, R144). -/
structure Foot.Hunts (f : Part → Bool) (p : Nat) : Prop where
  ev : f .ev = true := by rfl
  rx : f (.rx p) = true := by rfl
  pm : f (.pm p) = true := by rfl
  port : f (.port p) = true := by rfl
  records : ∀ e, f (.obj 0x3200 0x11 e) = true := by intro _; rfl
  messages : ∀ e, f (.obj 0x3200 0x12 e) = true := by intro _; rfl

namespace Foot

/-! ### Phases of a port -/

theorem setPhase {ph : Nat} (hp : f (.port p) = true) (ho : f .out = true) (h : Foot f m n) : Foot f m (setPhase n p ph) :=
  .ite (.signalFault hp ho (.setPort hp h)) h

theorem fallBack {ph : Nat} (hf : Covers f portMoves) (h : Foot f m n) : Foot f m (fallBack n p ph) := .setPhase (hf _ rfl) (hf _ rfl) h

theorem toHunt (hf : Hunts f p) (h : Foot f m n) : Foot f m (toHunt n p) := by
  unfold Machine.toHunt
  extract_lets _ _ _ _ _ _ m2 m3 m4 m5
  have h2 : Foot f m m2 := .setPm hf.pm (.setRx hf.rx h)
  have h3 : Foot f m m3 := .ite (.bump hf.ev hf.records h2) h2
  have h4 : Foot f m m4 := .ite (.raise hf.ev (.bump hf.ev hf.messages h3)) h3
  have h5 : Foot f m m5 := .ite (.raise hf.ev h4) h4
  exact .refreshPhase hf.port (.ite (.raise hf.ev h5) h5)

theorem declareLoal (hf : Covers f portMoves) (hh : Hunts f p) (h : Foot f m n) : Foot f m (declareLoal n p) :=
  have hset : Foot f m (Machine.setDefect n p 4 true) := .setDefect hh.ev hf h
  .fallBack hf (.ite (.toHunt hh hset) hset)

/-! ### Lanes -/

theorem laneAdapted (hp : ∀ p, f (.port p) = true) (ho : f .out = true) (hl : f (.lane l) = true) (h : Foot f m n) : Foot f m (laneAdapted n l) :=
  .ite h (.ite (.setPhase (hp _) ho (.setLane hl h)) (.setLane hl h))

theorem codewordLocked (hl : f (.lane l) = true) (h : Foot f m n) : Foot f m (codewordLocked n l) := .ite (.setLane hl h) h

theorem loseCodeword (hf : Covers f portMoves) (hl : f (.lane l) = true) (hh : ∀ p, Hunts f p) (h : Foot f m n) : Foot f m (loseCodeword n l) :=
  .ite h (.ite (.declareLoal hf (hh _) (.setLane hl h)) (.setLane hl h))

theorem laneLocked {k : Nat} (hl : f (.lane l) = true) (h : Foot f m n) : Foot f m (laneLocked n l k) := .ite (.setLane hl h) h

theorem loseLaneLock (hf : Covers f portMoves) (hl : f (.lane l) = true) (hh : ∀ p, Hunts f p) (h : Foot f m n) : Foot f m (loseLaneLock n l) :=
  .ite (.ite h (.declareLoal hf (hh _) (.setLane hl h))) (.ite (.declareLoal hf (hh _) h) h)

theorem laneLos {on : Bool} (he : f .ev = true) (hf : Covers f portMoves) (hl : f (.lane l) = true) (h : Foot f m n) : Foot f m (laneLos n l on) :=
  .ite (.ite (.fallBack hf (.setLos he hf hl h)) (.setLos he hf hl h)) h

theorem laneLol {on : Bool} (he : f .ev = true) (hf : Covers f portMoves) (hl : f (.lane l) = true) (h : Foot f m n) : Foot f m (laneLol n l on) :=
  have hset (b : Bool) : Foot f m (Machine.setLol n l b) := .setLol he hf hl h
  .ite (.ite (.fallBack hf (hset true)) (.ite (.setPhase (hf _ rfl) (hf _ rfl) (.setLane hl (hset false))) (.setLane hl (hset false)))) h

/-! ### Ports -/

theorem skewExceeded {k : Nat} (hf : Covers f portMoves) (hh : Hunts f p) (h : Foot f m n) : Foot f m (skewExceeded n p k) :=
  .ite (.declareLoal hf hh (.setPort hh.port h)) h

theorem align {k : Nat} (hf : Covers f portMoves) (hh : Hunts f p) (hc : ∀ e, f (.obj 0x3100 0xA e) = true) (h : Foot f m n) : Foot f m (align n p k) := by
  unfold Machine.align
  extract_lets _ _ x m1 m2
  have h1 : Foot f m m1 := .setDefect hh.ev hf (.bump hh.ev hc (.setPort hh.port h))
  have h2 : Foot f m m2 := .refreshPort hh.ev hf (.ite (.toHunt hh h1) h1)
  exact .ite h (.ite (.declareLoal hf hh (.setPort hh.port h)) (.afterDefect hh.ev hf h2))

theorem pcsLoss (he : f .ev = true) (hf : Covers f portMoves) (h : Foot f m n) : Foot f m (pcsLoss n p) :=
  .ite h (.afterDefect he hf (.setPort (hf _ rfl) h))

theorem faultReceived {k : Nat} (he : f .ev = true) (hf : Covers f portMoves) (h : Foot f m n) : Foot f m (faultReceived n p k) :=
  .ite h (.refreshPort he hf (.setPort (hf _ rfl) h))

theorem forwardStart (he : f .ev = true) (hf : Covers f portMoves) (ht : Covers f timePasses) (h : Foot f m n) : Foot f m (forwardStart n p) := by
  unfold Machine.forwardStart
  refine .ite h ?_
  split
  · exact h
  · exact .refreshPort he hf (.raise he (.setPort (hf _ rfl) (.advanceTo ht h)))

theorem upTimeout (ht : Covers f timePasses) (hl : ∀ i, f (.lane i) = true) (hp : f (.port p) = true) (h : Foot f m n) : Foot f m (upTimeout n p) := by
  unfold Machine.upTimeout
  extract_lets x m1 m2 m3
  have h1 : Foot f m m1 := .advanceTo ht h
  have h3 : Foot f m m3 := (Foot.ite h1 (.raise (ht _ rfl) h1)).foldl fun _ i hk => .setLane (hl i) hk
  exact .ite h (.ite (.setPort hp h3) (.emit (ht _ rfl) (.setPort hp (.setPort hp h3))))

theorem lofCleared (hf : Covers f portMoves) (ht : Covers f timePasses) (hr : f (.rx p) = true) (h : Foot f m n) : Foot f m (lofCleared n p) :=
  .ite h (.setDefect (ht _ rfl) hf (.setRx hr (.advanceTo ht h)))

theorem lofDeclared (hf : Covers f portMoves) (ht : Covers f timePasses) (h : Foot f m n) : Foot f m (lofDeclared n p) :=
  .ite h (.setDefect (ht _ rfl) hf (.advanceTo ht h))

theorem lomCleared (hf : Covers f portMoves) (ht : Covers f timePasses) (h : Foot f m n) : Foot f m (lomCleared n p) :=
  .ite h (.setDefect (ht _ rfl) hf (.advanceTo ht h))

theorem lomDeclared (hf : Covers f portMoves) (ht : Covers f timePasses) (h : Foot f m n) : Foot f m (lomDeclared n p) :=
  .ite h (.setDefect (ht _ rfl) hf (.advanceTo ht h))

/-! ### Seconds -/

section
variable {s : Second} {k : Nat}

theorem close15 (he : f .ev = true) (hp : f (.pm p) = true) (h : Foot f m n) : Foot f m (close15 n p k) := .raise he (.setPm hp h)

theorem toBin15 (he : f .ev = true) (hp : f (.pm p) = true) (h : Foot f m n) : Foot f m (toBin15 n p s) :=
  .ite h (.ite (.close15 he hp (.setPm hp h)) (.setPm hp h))

theorem close24 (he : f .ev = true) (hp : f (.pm p) = true) (h : Foot f m n) : Foot f m (close24 n p k) := .raise he (.setPm hp h)

theorem toBin24 (he : f .ev = true) (hp : f (.pm p) = true) (h : Foot f m n) : Foot f m (toBin24 n p s) :=
  .ite h (.ite (.close24 he hp (.setPm hp h)) (.setPm hp h))

theorem flush15 (he : f .ev = true) (hp : f (.pm p) = true) (h : Foot f m n) : Foot f m (flush15 n p) :=
  .setPm hp (h.foldl fun _ _ hk => hk.toBin15 he hp)

theorem flush24 (he : f .ev = true) (hp : f (.pm p) = true) (h : Foot f m n) : Foot f m (flush24 n p) :=
  .setPm hp (h.foldl fun _ _ hk => hk.toBin24 he hp)

theorem refuseHistory (he : f .ev = true) (ho : f .onceAt = true) (hc : ∀ e, f (.obj 0x8000 0xB e) = true) (h : Foot f m n) :
    Foot f m (refuseHistory n k) := .refuseAccess he ho hc h

theorem commitSecond (he : f .ev = true) (hp : f (.pm p) = true) (ho : f .onceAt = true) (hc : ∀ e, f (.obj 0x8000 0xB e) = true) (h : Foot f m n) :
    Foot f m (commitSecond n p s) :=
  have hbins : Foot f m (Machine.toBin24 (Machine.toBin15 n p s) p s) := .toBin24 he hp (.toBin15 he hp h)
  .ite (.refuseHistory he ho hc hbins) (.ite (.setPm hp hbins) hbins)

theorem availEvent {far : Bool} {a : Avail} (he : f .ev = true) (h : Foot f m n) : Foot f m (availEvent n p far a) := .ite (.raise he h) h

theorem degSecond (he : f .ev = true) (hf : Covers f portMoves) (h : Foot f m n) : Foot f m (degSecond n p k) := by
  unfold Machine.degSecond
  extract_lets x _ m1 m2
  have h1 : Foot f m m1 := .setPm (hf _ rfl) h
  have h2 : Foot f m m2 := .setPm (hf _ rfl) h
  exact .ite h (.ite (.ite (.setDefect he hf h1) h1) (.ite (.setDefect he hf h2) h2))

theorem endSecond (he : f .ev = true) (hf : Covers f portMoves) (ho : f .onceAt = true) (hc : ∀ e, f (.obj 0x8000 0xB e) = true) (h : Foot f m n) :
    Foot f m (endSecond n p k) := by
  unfold Machine.endSecond
  extract_lets m0 x s ne fe _ _ _ _ _ y m1
  have h1 : Foot f m m1 := .availEvent he (.availEvent he (.setPm (hf _ rfl) (.degSecond he hf h)))
  split
  · exact .commitSecond he (hf _ rfl) ho hc h1
  · exact h1

theorem advanceToNet {t : Nat} (hf : Covers f timePasses) (h : Foot f m n) : Foot f m (advanceToNet n k t) := .advance hf h

theorem lineSecond (hf : Covers f portMoves) (ht : Covers f timePasses) (ho : f .onceAt = true) (hc : ∀ e, f (.obj 0x8000 0xB e) = true)
    (h : Foot f m n) : Foot f m (lineSecond n p) := .ite h (.endSecond (ht _ rfl) hf ho hc (.advanceToNet ht h))

end

end Foot

end Sys2Proof.Machine
end

