-- ==== Sys2Proof/Proofs/FrameTime.lean ====
section
/-! PROOFS. What the clock, its steps and what waits for a time leave alone (R550 to R625). -/

namespace Sys2Proof.Machine

variable {f : Part → Bool} {m n : Mod} {p k i a h : Nat}

theorem Covers.laneCounts (hf : Covers f timeSteps) : Covers f laneCounts := fun p hp => hf p (by
  cases p with
  | obj idx sub e => exact Bool.or_eq_true_iff.mpr (.inl hp)
  | _ => cases hp)

/-- What a change of the state of synchronisation changes (R588 to R596). -/
structure Foot.Syncs (f : Part → Bool) : Prop where
  ev : f .ev = true := by rfl
  time : f .time = true := by rfl
  pm : ∀ p, f (.pm p) = true := by intro _; rfl

/-- What a step of the time counters changes. -/
structure Foot.Steps (f : Part → Bool) : Prop where
  ev : f .ev = true := by rfl
  steps : Covers f timeSteps

namespace Foot

theorem Steps.syncs (hf : Steps f) : Syncs f := ⟨hf.ev, hf.steps _ rfl, fun _ => hf.steps _ rfl⟩

/-! ### Synchronisation -/

theorem noteUnsynced (hp : ∀ p, f (.pm p) = true) (h : Foot f m n) : Foot f m (noteUnsynced n) := h.foldl fun _ _ hk => .ite hk (.setPm (hp _) hk)

theorem setSync {st : Nat} (hf : Syncs f) (h : Foot f m n) : Foot f m (setSync n st) :=
  .ite h (.noteUnsynced hf.pm (.raise hf.ev (.raise hf.ev (h.withTime hf.time))))

theorem enterHoldover (hf : Syncs f) (hc : f .counters = true) (h : Foot f m n) : Foot f m (enterHoldover n) :=
  .ite h (.setSync hf (h.withCounters hf.time hc))

theorem sourceLost {c : Nat} (hf : Syncs f) (hc : f .counters = true) (h : Foot f m n) : Foot f m (sourceLost n c) := .enterHoldover hf hc (.raise hf.ev h)

theorem endLease {c : Nat} (hf : Syncs f) (hc : f .counters = true) (h : Foot f m n) : Foot f m (endLease n c) :=
  .sourceLost hf hc (.raise hf.ev (h.withTime hf.time))

theorem holdoverEnd (hf : Syncs f) (ht : Covers f timePasses) (h : Foot f m n) : Foot f m (holdoverEnd n) := .ite h (.setSync hf (.advanceTo ht h))

theorem leaseExpires (hf : Syncs f) (ht : Covers f timePasses) (h : Foot f m n) : Foot f m (leaseExpires n) := by
  unfold Machine.leaseExpires
  split
  · exact h
  · exact .endLease hf (ht _ rfl) (.advanceTo ht h)

theorem loseSource (hf : Syncs f) (ht : Covers f timePasses) (h : Foot f m n) : Foot f m (loseSource n) := by
  have hlost {k : Mod} {c : Nat} (hk : Foot f m k) : Foot f m (Machine.sourceLost k c) := .sourceLost hf (ht _ rfl) hk
  unfold Machine.loseSource
  dsimp only
  refine .ite h ?_
  split
  · exact hlost ((Foot.advanceTo ht h).withTime hf.time)
  · exact .ite (hlost h) (hlost (.advanceTo ht h))
  · exact hlost (.advanceTo ht h)
  · exact h

theorem dieLinkDown (ht : f .time = true) (hp : ∀ p, f (.pm p) = true) (h : Foot f m n) : Foot f m (dieLinkDown n) := .noteUnsynced hp (h.withTime ht)

theorem dieLinkUp (ht : f .time = true) (h : Foot f m n) : Foot f m (dieLinkUp n) := h.withTime ht

theorem lockstepCheck (hf : Syncs f) (ht : Covers f timePasses) (h : Foot f m n) : Foot f m (lockstepCheck n) := by
  unfold Machine.lockstepCheck
  extract_lets k t d
  have hk : Foot f m k := .advanceTo ht h
  exact .ite h (.ite hk (.ite (hk.withTime hf.time) (.raise hf.ev (.noteUnsynced hf.pm (hk.withTime hf.time)))))

theorem slewComplete (ht : Covers f timePasses) (h : Foot f m n) : Foot f m (slewComplete n) := .ite h (.advance ht h)

/-! ### Switches, gates, captures and triggers -/

theorem flip (he : f .ev = true) (ha : f (.assoc a) = true) (hc : ∀ e, f (.obj 0x4040 1 e) = true) (h : Foot f m n) : Foot f m (flip n a) :=
  .raise he (.setNat hc (.setAssoc ha h))

theorem switchInForce (he : f .ev = true) (ha : f (.assoc a) = true) (hc : ∀ e, f (.obj 0x4040 1 e) = true) (h : Foot f m n) :
    Foot f m (switchInForce n a) := .ite (.setAssoc ha h) (.flip he ha hc h)

theorem scheduledSwitch (he : f .ev = true) (ha : f (.assoc a) = true) (hc : ∀ e, f (.obj 0x4040 1 e) = true) (h : Foot f m n) :
    Foot f m (scheduledSwitch n a) := .ite (.switchInForce he ha hc h) h

theorem switchTime (ht : Covers f timePasses) (ha : f (.assoc a) = true) (hc : ∀ e, f (.obj 0x4040 1 e) = true) (h : Foot f m n) :
    Foot f m (switchTime n a) := .ite (.scheduledSwitch (ht _ rfl) ha hc (.advanceToNet ht h)) h

theorem doSwap (he : f .ev = true) (hg : f (.gate p) = true) (h : Foot f m n) : Foot f m (doSwap n p) := by
  unfold Machine.doSwap
  dsimp only
  split
  · exact h
  · exact .raise he (.setGate hg h)

theorem gateSwap (ht : Covers f timePasses) (hg : f (.gate p) = true) (h : Foot f m n) : Foot f m (gateSwap n p) := by
  have he : f .ev = true := ht _ rfl
  unfold Machine.gateSwap
  dsimp only
  split
  · exact h
  · have hnow := h.advanceToNet ht (k := harbourOf p) (t := (gate n p).swap)
    split
    · exact .doSwap he hg hnow
    · exact .ite (.setGate hg hnow) (.raise he (.setGate hg hnow))

theorem nextEntry (ht : Covers f timePasses) (h : Foot f m n) : Foot f m (nextEntry n p) := by
  unfold Machine.nextEntry
  split
  · exact h
  · exact .advanceToNet ht h

theorem startNode (hn : f (.node k) = true) (h : Foot f m n) : Foot f m (startNode n k) := .setNode hn h

theorem applyNodeLowering (he : f .ev = true) (hn : f (.node k) = true) (h : Foot f m n) : Foot f m (applyNodeLowering n k) := by
  unfold Machine.applyNodeLowering
  extract_lets m1 r m2
  have h1 : Foot f m m1 := .refillNode hn h
  exact .ite (.raise he (.ite (.startNode hn h1) (.setNode hn h1))) h

theorem setCapture {x : Capture} (ht : f .time = true) (h : Foot f m n) : Foot f m (setCapture n i x) := h.withTime ht

theorem captureEdge {up : Bool} (he : f .ev = true) (ht : f .time = true) (hc : ∀ e, f (.obj 0x7050 4 e) = true) (h : Foot f m n) :
    Foot f m (captureEdge n i up) := by
  unfold Machine.captureEdge
  extract_lets _ _ x tell _ m1
  have htell (k : Mod) (hk : Foot f m k) : Foot f m (tell k) := .raise he hk
  have h1 : Foot f m m1 := .setCapture ht h
  exact .ite h (.ite (htell _ (.bump he hc h)) (.ite (htell _ h1) h1))

theorem setTrig {x : Trig} (ht : f .time = true) (h : Foot f m n) : Foot f m (setTrig n i x) := h.withTime ht

/-- What a pulse of a trigger pin changes (R614 to R620). -/
structure Pulses (f : Part → Bool) : Prop where
  ev : f .ev = true := by rfl
  time : f .time = true := by rfl
  out : f .out = true := by rfl
  count : ∀ e, f (.obj 0x7040 6 e) = true := by intro _; rfl
  record : ∀ e, f (.obj 0x7040 7 e) = true := by intro _; rfl

theorem firePulse {at_ edge : Nat} (hf : Pulses f) (h : Foot f m n) : Foot f m (firePulse n i at_ edge) :=
  .emit hf.out (.setObj hf.record (.bump hf.ev hf.count (.setTrig hf.time h)))

theorem triggerEdge (hf : Pulses f) (ht : Covers f timePasses) (h : Foot f m n) : Foot f m (triggerEdge n i) := by
  have hnet {j t : Nat} : Foot f m (Machine.advanceToNet n j t) := .advanceToNet ht h
  unfold Machine.triggerEdge
  dsimp only
  refine .ite h (.ite (.emit hf.out (.setTrig hf.time hnet)) ?_)
  split
  · exact .ite h (.firePulse hf hnet)
  · exact .ite (.setTrig hf.time hnet) (.firePulse hf hnet)
  · exact h

/-! ### A snapshot's capture -/

/-- What the capture of a snapshot changes (R830, R831). -/
structure Captures (f : Part → Bool) : Prop where
  ev : f .ev = true := by rfl
  counted : f .counted = true := by rfl
  snap : f .snap = true := by rfl
  lanes : Covers f laneCounts
  mark : ∀ e, f (.obj 0xB000 4 e) = true := by intro _; rfl

theorem captureNow {stepped : Bool} (hf : Captures f) (h : Foot f m n) : Foot f m (captureNow n k stepped) := by
  have hcounted : Foot f m (((List.range 64).filter fun l => l % 32 / 16 == k).foldl Machine.countNow n) :=
    h.foldl fun _ _ hk => .countNow hf.ev hf.counted hf.lanes hk
  exact .raise hf.ev (.setNat hf.mark (hcounted.withSnap hf.snap))

theorem snapStep {t : Nat} (hf : Captures f) (h : Foot f m n) : Foot f m (snapStep n k t) := .ite (.captureNow hf h) h

/-! ### A step of the counters -/

theorem gateStep {old new : Nat} (he : f .ev = true) (hg : f (.gate p) = true) (h : Foot f m n) : Foot f m (gateStep n p old new) :=
  have hset (x : Gate) : Foot f m (Machine.setGate n p x) := .setGate hg h
  .ite (.raise he (hset _)) (hset _)

theorem pmStep {t u : Nat} (he : f .ev = true) (hp : f (.pm p) = true) (h : Foot f m n) : Foot f m (pmStep n p t u) := by
  unfold Machine.pmStep
  extract_lets x mark un upto m1 q trace15 trace24 m2
  have h1 : Foot f m m1 := .setPm hp h
  have ht15 (k : Mod) (hk : Foot f m k) : Foot f m (trace15 k) := .setPm hp hk
  have ht24 (k : Mod) (hk : Foot f m k) : Foot f m (trace24 k) := .setPm hp hk
  have h2 : Foot f m m2 := .ite (.close15 he hp (ht15 _ (.flush15 he hp h1))) h1
  exact .ite (.close24 he hp (ht24 _ (.flush24 he hp h2))) h2

theorem Steps.pulses (hf : Steps f) : Pulses f :=
  ⟨hf.ev, hf.steps _ rfl, hf.steps _ rfl, fun _ => hf.steps _ rfl, fun _ => hf.steps _ rfl⟩

theorem Steps.captures (hf : Steps f) : Captures f := ⟨hf.ev, hf.steps _ rfl, hf.steps _ rfl, hf.steps.laneCounts, fun _ => hf.steps _ rfl⟩

theorem stepEffects {t : Nat} (hf : Steps f) (h : Foot f m n) : Foot f m (stepEffects n k t) := by
  unfold Machine.stepEffects
  extract_lets _ ports m1 m2 m3
  have h1 : Foot f m m1 := h.foldl fun _ _ hk => .gateStep hf.ev (hf.steps _ rfl) hk
  have h2 : Foot f m m2 := h1.foldl fun _ _ hk => .pmStep hf.ev (hf.steps _ rfl) hk
  have h3 : Foot f m m3 := h2.foldl fun _ _ hk => .setTrig (hf.steps _ rfl) (.setCapture (hf.steps _ rfl) hk)
  refine h3.foldl fun j x hk => ?_
  split
  · exact .scheduledSwitch hf.ev (hf.steps _ rfl) (fun _ => hf.steps _ rfl) (.setAssoc (hf.steps _ rfl) hk)
  · exact .raise hf.ev (.firePulse hf.pulses hk)
  · exact .snapStep hf.captures hk

theorem lockstepCopy (hf : Steps f) (ht : Covers f timePasses) (h : Foot f m n) : Foot f m (lockstepCopy n) := by
  unfold Machine.lockstepCopy
  split
  · exact h
  · next e _ =>
    extract_lets m0 t before m1
    have h0 : Foot f m m0 := .advanceTo ht h
    have h1 : Foot f m m1 := h0.withCounters (hf.steps _ rfl) (hf.steps _ rfl)
    exact .ite h0 (.stepEffects hf (.raise hf.ev h1))

theorem stepBy {x : Int} {c : Nat} (hf : Steps f) (h : Foot f m n) : Foot f m (stepBy n x c) := by
  unfold Machine.stepBy
  extract_lets t _ _ move m1 m2 m3
  have h1 : Foot f m m1 := h.withCounters (hf.steps _ rfl) (hf.steps _ rfl)
  have h3 : Foot f m m3 := .stepEffects hf (.raise hf.ev h1)
  exact .ite (.stepEffects hf h3) h3

theorem applyChange {c : TimeChange} (hf : Steps f) (h : Foot f m n) : Foot f m (applyChange n c) := by
  have hboth (x : TimeSt) (hx : x.tts = n.time.tts) : Foot f m { n with time := x } := h.withCounters (hf.steps _ rfl) (hf.steps _ rfl) hx
  unfold Machine.applyChange
  dsimp only
  split
  · exact hboth _ rfl
  · exact hboth _ rfl
  · exact .stepBy hf h
  · exact .stepBy hf h

theorem changeEdge (hf : Steps f) (ht : Covers f timePasses) (h : Foot f m n) : Foot f m (changeEdge n) := by
  unfold Machine.changeEdge
  split
  · exact h
  · exact .applyChange hf ((Foot.advanceTo ht h).withTime (hf.steps _ rfl))

/-! ### Sources of time -/

theorem servo {x : Int} (hf : Steps f) (h : Foot f m n) : Foot f m (servo n x) := by
  have hsync {k : Mod} (st : Nat) (hk : Foot f m k) : Foot f m (Machine.setSync k st) := .setSync hf.syncs hk
  unfold Machine.servo
  extract_lets t _ within far m1 m2 v trim
  have h1 : Foot f m m1 := h.withTime (hf.steps _ rfl)
  have h2 : Foot f m m2 := by
    show Foot f m (match t.state with
      | 3 => if 16 ≤ m1.time.good then Machine.setSync m1 1 else m1
      | 1 => if 4 ≤ m1.time.bad then Machine.setSync m1 3 else m1
      | 2 => Machine.setSync m1 (if within then 1 else 3)
      | _ => m1)
    split
    · exact .ite (hsync 1 h1) h1
    · exact .ite (hsync 3 h1) h1
    · exact hsync _ h1
    · exact h1
  exact .ite h (.ite (.stepBy hf h2) (h2.withCounters (hf.steps _ rfl) (hf.steps _ rfl)))

theorem ppsEdge (hf : Steps f) (h5 : ∀ e, f (.obj 0x7050 4 e) = true) (h8 : ∀ e, f (.obj 0x7010 8 e) = true) (hA : ∀ e, f (.obj 0x7010 0xA e) = true)
    (h : Foot f m n) : Foot f m (ppsEdge n) := by
  have ht : f .time = true := hf.steps _ rfl
  unfold Machine.ppsEdge
  extract_lets k0 _ k t v second near off set m1
  have hedge : Foot f m k0 := .captureEdge hf.ev ht h5 h
  have hk : Foot f m k := hedge.withTime ht
  refine .ite h (.ite hedge ?_)
  split
  · have hset : Foot f m m1 := .setNat h8 (hk.withTime ht)
    exact .ite hk (.ite (.ite (.bump hf.ev hA hk) (hk.withTime ht)) (.stepBy hf hset))
  · exact .ite (.bump hf.ev hA hk) (.servo hf (hk.withTime ht))

theorem syncMeasured {o r : Nat} {c : Int} (hf : Steps f) (h : Foot f m n) : Foot f m (syncMeasured n p o c r) := by
  have ht : f .time = true := hf.steps _ rfl
  unfold Machine.syncMeasured
  extract_lets _ m1
  have h1 : Foot f m m1 := h.withTime ht
  split
  · exact h1
  · exact .ite (.servo hf (h1.withTime ht)) h1

theorem ptpEmit {x : PtpKind} (ho : f .out = true) (h : Foot f m n) : Foot f m (ptpEmit n p x) := .ite (.emit ho h) h

theorem ptpReceive {d : Nat} {x : PtpKind} (hf : Steps f) (hC : ∀ e, f (.obj 0x7020 0xC e) = true) (h6 : ∀ e, f (.obj 0x7030 6 e) = true)
    (h : Foot f m n) : Foot f m (ptpReceive n p d x) := by
  have ht : f .time = true := hf.steps _ rfl
  have hemit {k : PtpKind} : Foot f m (Machine.ptpEmit n p k) := .ptpEmit (hf.steps _ rfl) h
  unfold Machine.ptpReceive
  extract_lets p2p clock receiver other
  have hother : Foot f m other := .ite (.bump hf.ev hC h) h
  refine .ite h ?_
  cases x with
  | pdelayReq => exact .ite hemit hother
  | pdelayResp link =>
    refine .ite ?_ hother
    extract_lets m1
    have h1 : Foot f m m1 := .ite (.setNat h6 h) h
    exact .ite (h1.withTime ht) h1
  | sync twoStep origin corr rx => exact .ite hother (.ite (h.withTime ht) (.syncMeasured hf h))
  | followUp origin corr =>
    dsimp only
    split
    · exact .ite (.syncMeasured hf h) hother
    · exact hother
  | delayResp rx corr =>
    dsimp only
    split
    · exact .ite (h.withTime ht) hother
    · exact hother
  | delayReq => exact .ite hemit hother
  | announce utc => exact .ite (h.withTime ht) hother
  | notActedOn => exact hother

theorem sendSync (ht : f .time = true) (ho : f .out = true) (h : Foot f m n) : Foot f m (sendSync n p) := by
  unfold Machine.sendSync
  extract_lets t _ m1
  have h1 : Foot f m m1 := .ite (.emit ho (h.withTime ht)) h
  exact .ite (.emit ho (.emit ho h1)) (.emit ho h1)

theorem ptpSend (ht : f .time = true) (hf : Covers f timePasses) (h : Foot f m n) : Foot f m (ptpSend n) := by
  have ho : f .out = true := hf _ rfl
  have hto {c : Nat} (x : TimeSt) (h0 : x.c0 = (Machine.advanceTo n c).time.c0) (h1 : x.c1 = (Machine.advanceTo n c).time.c1)
      (hl : x.locked = (Machine.advanceTo n c).time.locked) (hx : x.tts = (Machine.advanceTo n c).time.tts) :
      Foot f m { Machine.advanceTo n c with time := x } := (Foot.advanceTo hf h).withTime ht h0 h1 hl hx
  unfold Machine.ptpSend
  extract_lets q role p2p dueAt next ask m2 _ m1 m4 _ m3
  have h1 : Foot f m m1 := hto _ rfl rfl rfl rfl
  have h3 : Foot f m m3 := hto _ rfl rfl rfl rfl
  exact .ite h (.ite (.ite (.emit ho h1) h1) (.ite h3 (.ite (.sendSync ht ho h3) (.ite (.emit ho h3) (.emit ho (h3.withTime ht))))))

/-! ### Reports of time transfer -/

theorem reportReceive (hf : Steps f) (ht : f .tts = true) (h6 : ∀ e, f (.obj 0x7030 6 e) = true) (h7 : ∀ e, f (.obj 0x7030 7 e) = true)
    (h8 : ∀ e, f (.obj 0x7030 8 e) = true) (h9 : ∀ e, f (.obj 0x7030 9 e) = true) (h : Foot f m n) : Foot f m (reportReceive n p) := by
  have hk (x : Tbl Tt) : Foot f m { n with time := { n.time with tts := x } } := h.withTts ht
  have hbad (x : Tbl Tt) : Foot f m (Machine.bump { n with time := { n.time with tts := x } } 0x7030 9 p 1) := .bump hf.ev h9 (hk x)
  have hset (x : Tbl Tt) (v : Val) (w : Nat) : Foot f m (Machine.setNat (Machine.setObj { n with time := { n.time with tts := x } } 0x7030 7 p v) 0x7030 6 p w) :=
    .setNat h6 (.setObj h7 (hk x))
  have hdelay (j : Mod) (d : Nat) (hj : Foot f m j) : Foot f m { j with time := { j.time with delay := d } } := hj.withTime (hf.steps _ rfl)
  unfold Machine.reportReceive
  dsimp only
  split
  · exact h
  · split
    · exact hbad _
    · split
      · exact hbad _
      · exact .ite (hbad _) (.ite (.servo hf (hdelay _ _ (.bump hf.ev h8 (hset ..)))) (.bump hf.ev h9 (hset ..)))

theorem reportSend (hf : Covers f timePasses) (h : Foot f m n) : Foot f m (reportSend n p) := by
  unfold Machine.reportSend
  extract_lets k t
  have hk : Foot f m k := .advanceTo hf h
  refine .ite h ?_
  split
  · exact hk
  · exact .setTx (hf _ rfl) (hk.withTts (hf _ rfl))

end Foot

/-- The save of the runtime. -/
theorem Frame.saveRuntime {s : State} (hf : Covers f timePasses) (hflash : f .flash = true) : Frame f s (saveRuntime s) := by
  unfold Machine.saveRuntime
  dsimp only
  exact .ite (.refl s) ⟨fun _ => rfl, fun hp => free_kept hflash hp, fun _ => rfl, .advance hf (.refl _)⟩

end Sys2Proof.Machine
end

