-- ==== Sys2Proof/Proofs/FrameCovers.lean ====
section
/-! PROOFS. When a footprint takes in what a group of parts names. -/

namespace Sys2Proof.Machine

variable {f : Part → Bool}

/-- A footprint takes in the error counters of the lanes. -/
theorem covers_laneCounts (h : ∀ e, f (.obj 0x3000 6 e) = true ∧ f (.obj 0x3000 7 e) = true ∧ f (.obj 0x3000 8 e) = true ∧ f (.obj 0x3000 0xA e) = true
    := by intro _; exact ⟨rfl, rfl, rfl, rfl⟩) : Covers f laneCounts := by
  intro p hp
  cases p with
  | obj idx sub e =>
    simp only [laneCounts, objIn, List.contains_eq_mem, List.mem_cons, List.not_mem_nil, Prod.mk.injEq, decide_eq_true_eq, or_false] at hp
    obtain ⟨h6, h7, h8, hA⟩ := h e
    obtain ⟨rfl, rfl⟩ | ⟨rfl, rfl⟩ | ⟨rfl, rfl⟩ | ⟨rfl, rfl⟩ := hp
    · exact h6
    · exact h7
    · exact h8
    · exact hA
  | _ => cases hp

/-- A footprint takes in what a step of the time counters changes. -/
theorem covers_steps (hl : Covers f laneCounts) (ht : f .time = true := by rfl) (hc : f .counters = true := by rfl) (ho : f .out = true := by rfl)
    (hs : f .snap = true := by rfl) (ha : ∀ i, f (.assoc i) = true := by intro _; rfl) (hg : ∀ i, f (.gate i) = true := by intro _; rfl)
    (hp : ∀ i, f (.pm i) = true := by intro _; rfl) (hn : f .counted = true := by rfl)
    (hobj : ∀ e, f (.obj 0x4040 1 e) = true ∧ f (.obj 0x7040 6 e) = true ∧ f (.obj 0x7040 7 e) = true ∧ f (.obj 0xB000 4 e) = true
      := by intro _; exact ⟨rfl, rfl, rfl, rfl⟩) : Covers f timeSteps := by
  intro p hx
  cases p with
  | time => exact ht
  | counters => exact hc
  | out => exact ho
  | snap => exact hs
  | assoc i => exact ha i
  | gate i => exact hg i
  | pm i => exact hp i
  | counted => exact hn
  | obj idx sub e =>
    simp only [timeSteps, Bool.or_eq_true] at hx
    obtain hx | hx := hx
    · exact hl _ hx
    · simp only [objIn, List.contains_eq_mem, List.mem_cons, List.not_mem_nil, Prod.mk.injEq, decide_eq_true_eq, or_false] at hx
      obtain ⟨h4, h6, h7, hB⟩ := hobj e
      obtain ⟨rfl, rfl⟩ | ⟨rfl, rfl⟩ | ⟨rfl, rfl⟩ | ⟨rfl, rfl⟩ := hx
      · exact h4
      · exact h6
      · exact h7
      · exact hB
  | _ => cases hx

/-- A footprint takes in what a response changes. -/
theorem covers_responds (hd : Covers f discards) (hsess : ∀ i, f (.session i) = true := by intro _; rfl)
    (ha : ∀ i, f (.assoc i) = true := by intro _; rfl) (hk : ∀ i, f (.kek i) = true := by intro _; rfl)
    (hb : ∀ i, f (.bank i) = true := by intro _; rfl) (hw : ∀ i, f (.stow i) = true := by intro _; rfl)
    (hsrc : ∀ i, f (.source i) = true := by intro _; rfl)
    (hrest : f .otp = true ∧ f .sys = true ∧ f .tether = true ∧ f .mgmt = true ∧ f .ev = true ∧ f .overs = true := by exact ⟨rfl, rfl, rfl, rfl, rfl, rfl⟩)
    (h21 : ∀ s e, f (.obj 0x2100 s e) = true := by intro _ _; rfl)
    (hobj : ∀ e, f (.obj 0x2040 1 e) = true ∧ f (.obj 0x2040 2 e) = true ∧ f (.obj 0x4040 1 e) = true := by intro _; exact ⟨rfl, rfl, rfl⟩) :
    Covers f responds := by
  obtain ⟨hotp, hsys, htether, hmgmt, hev, hovers⟩ := hrest
  intro p hp
  cases p with
  | otp => exact hotp
  | sys => exact hsys
  | tether => exact htether
  | mgmt => exact hmgmt
  | ev => exact hev
  | overs => exact hovers
  | session i => exact hsess i
  | assoc i => exact ha i
  | kek i => exact hk i
  | bank i => exact hb i
  | stow i => exact hw i
  | source i => exact hsrc i
  | queue i => exact hd _ rfl
  | arb i => exact hd _ rfl
  | tx i => exact hd _ rfl
  | obj idx sub e =>
    obtain ⟨h1, h2, h4⟩ := hobj e
    simp only [responds, Bool.or_eq_true, Bool.and_eq_true, beq_iff_eq] at hp
    obtain ((rfl | rfl) | ⟨rfl, rfl | rfl⟩) | ⟨rfl, rfl⟩ := hp
    · exact hd _ rfl
    · exact h21 sub e
    · exact h1
    · exact h2
    · exact h4
  | _ => cases hp

end Sys2Proof.Machine
end

