-- ==== Sys2Proof/Proofs/FrameResponses.lean ====
section
/-! PROOFS. What the responses of the tether leave alone, up to Zeroize and Retire (R868 to R890). -/

namespace Sys2Proof.Machine

variable {f : Part → Bool} {m n : Mod} {s t : State}

theorem Covers.respondDiscards (hf : Covers f responds) : Covers f Machine.discards := fun p hp => hf p (by
  cases p with
  | obj idx sub e =>
    have hidx : idx = 0x6020 := beq_iff_eq.mp hp
    subst hidx
    rfl
  | queue | arb | tx => rfl
  | _ => cases hp)

/-- A response may end grants. -/
theorem Covers.endsGrants (hf : Covers f responds) : Foot.EndsGrants f := ⟨hf _ rfl, hf _ rfl, fun _ => hf _ rfl, fun _ => hf _ rfl⟩

theorem store_of_ne {x : Tether} {i j : Nat} (hi : i ≠ 0x2100) : store { n with tether := x } i j = store n i j := by
  unfold store
  rw [if_neg fun h => hi h.1, if_neg fun h => hi h.1]

/-- An object outside the credentials does not depend on the tether. -/
theorem look_tether {x : Tether} {i j e : Nat} (hi : i ≠ 0x2100) : look { n with tether := x } [] i j e = look n [] i j e := by
  unfold look
  simp only [store_of_ne hi, store_of_ne (show (0x4000 : Nat) ≠ 0x2100 by decide), store_of_ne (show (0x8010 : Nat) ≠ 0x2100 by decide)]

/-- Objects whose keys a filter of the object table keeps. -/
theorem tfind_filter_kept {α : Type} {q : Nat → Bool} {j : Nat} (hq : q j = true) (t : Tbl α) : tfind (t.filter fun e => q e.1) j = tfind t j := by
  induction t with
  | nil => rfl
  | cons e r ih =>
    rw [List.filter_cons]
    split
    · simp only [tfind, ih]
    · next hne =>
      have hj : e.1 ≠ j := by rintro rfl; exact hne hq
      simp only [tfind, if_neg hj, ih]

namespace Foot

/-- The tether and what shows of its vault. -/
structure Vaults (f : Part → Bool) : Prop where
  tether : f .tether = true := by rfl
  credentials : ∀ s e, f (.obj 0x2100 s e) = true := by intro _ _; rfl

/-- The tether with the credentials of its vault. -/
theorem withVault (h : Foot f m n) (hf : Vaults f) {x : Tether}
    (hr : x.runtime = n.tether.runtime := by rfl) (hs : x.runtimeSub = n.tether.runtimeSub := by rfl) : Foot f m { n with tether := x } :=
  h.next fun p hp => by
    have hsame := Part.same_refl p { mod := n }
    cases p with
    | tether => exact free_kept hf.tether hp
    | runtime => exact ⟨hr, hs⟩
    | obj i s e => exact fun _ => look_tether fun hi => by subst hi; exact free_kept (hf.credentials s e) hp
    | _ => exact hsame

/-! ### Keys and the vault -/

/-- The filter of `eraseAllKeys` drops the entries of 0x4040:01. -/
theorem okey_div {i s e : Nat} : okey i s e / 2 ^ 32 = i * 256 + s := by
  unfold okey
  omega

theorem eraseAllKeys (ha : ∀ i, f (.assoc i) = true) (hk : ∀ i, f (.kek i) = true) (hc : ∀ e, f (.obj 0x4040 1 e) = true) (h : Foot f m n) :
    Foot f m (eraseAllKeys n) := h.next fun p hp => by
  have hsame := Part.same_refl p { mod := n }
  cases p with
  | assoc i => exact free_kept (ha i) hp
  | kek i => exact free_kept (hk i) hp
  | obj i s e =>
    intro hs
    have hkeep (i' s' e' : Nat) (hne : i' * 256 + s' ≠ 0x404001) :
        tfind (store (Machine.eraseAllKeys n) i' s') (okey i' s' e') = tfind (store n i' s') (okey i' s' e') := by
      unfold store
      split
      · rfl
      · exact tfind_filter_kept (q := fun k => k / 2 ^ 32 != 0x404001) (by rw [okey_div]; simpa using hne) _
    have hne : i * 256 + s ≠ 0x404001 := fun heq => by
      obtain ⟨rfl, rfl⟩ : i = 0x4040 ∧ s = 1 := by omega
      exact free_kept (hc e) hp
    show look (Machine.eraseAllKeys n) [] i s e = look n [] i s e
    unfold look
    simp only [hkeep i s e hne, hkeep 0x4000 1 e (by decide), hkeep 0x4000 2 e (by decide), hkeep 0x8010 1 e (by decide), hkeep 0x8010 5 e (by decide)]
  | _ => exact hsame

theorem eraseVault (hf : Vaults f) (h : Foot f m n) : Foot f m (eraseVault n) := h.withVault hf

/-- The seeds, frames to throw and stowage keys, rewritten with the system group. -/
theorem withSeeds {banks : Tbl Bank} {tx : Tbl GelTx} {stow : Tbl Stow} {x : Sys} (hf : Covers f responds) (h : Foot f m n)
    (hx : x.elapsed = n.sys.elapsed) : Foot f m { n with banks := banks, tx := tx, stow := stow, sys := x } := h.next fun p hp => by
  have hsame := Part.same_refl p { mod := n }
  cases p with
  | bank i => exact free_kept (hf _ rfl) hp
  | tx i => exact free_kept (hf _ rfl) hp
  | stow i => exact free_kept (hf _ rfl) hp
  | sys => exact free_kept (hf _ rfl) hp
  | clock => exact hx
  | _ => exact hsame

theorem zeroize {c : Nat} (hf : Covers f responds) (h : Foot f m n) : Foot f m (zeroize n c) := by
  have he : f .ev = true := hf _ rfl
  unfold Machine.zeroize
  extract_lets m1 m2 m3 m4
  have h1 : Foot f m m1 := h.foldl fun _ _ hk => .discardBasin he hf.respondDiscards hk
  have h2 : Foot f m m2 :=
    .endSessions (fun _ => hf _ rfl) hf.endsGrants (.eraseAllKeys (fun _ => hf _ rfl) (fun _ => hf _ rfl) (fun _ => hf _ rfl) h1)
  have h4 : Foot f m m4 := .eraseVault ⟨hf _ rfl, fun _ _ => hf _ rfl⟩ (.ite (.raise he h2) h2)
  clear_value m4
  exact .withSeeds hf h4 rfl

end Foot

theorem Frame.retire {c : Nat} (hf : Covers f responds) (h : Frame f s t) : Frame f s (retire t c) := by
  have hgone : Foot f s.mod (Machine.zeroize t.mod 3) := .zeroize hf h.mod
  unfold Machine.retire
  generalize Machine.zeroize t.mod 3 = k at hgone
  exact ⟨fun hp => free_kept (hf _ rfl) hp, h.flash, h.pending, .raise (hf _ rfl) (hgone.withSys (hf _ rfl))⟩

/-! ### Sources and their responses -/

namespace Foot

theorem respondOnCell {i r : Nat} (hf : Vaults f) (h : Foot f m n) : Foot f m (respondOnCell n i r) :=
  .ite h (.ite (h.withTether hf.tether) (h.withVault hf))

theorem discardParked {b : Nat} (he : f .ev = true) (hf : Covers f discards) (h : Foot f m n) : Foot f m (discardParked n b).1 := h.discardFrames he hf

theorem quiesceRegion {k r : Nat} (he : f .ev = true) (hs : ∀ i, f (.stow i) = true) (hf : Covers f discards) (h : Foot f m n) :
    Foot f m (quiesceRegion n k r) := by
  unfold Machine.quiesceRegion
  extract_lets st m1 _ b
  have hgone : Foot f m (Machine.discardParked m1 b).1 := .discardParked he hf (.setStow (hs _) h)
  generalize Machine.discardParked m1 b = r at hgone
  obtain ⟨m2, c⟩ := r
  exact .ite h (.raise he hgone)

theorem setAlarm {i : Nat} {on : Bool} (hs : f (.source i) = true) (h : Foot f m n) : Foot f m (setAlarm n i on) := .setSource hs h

end Foot

theorem Frame.respond {i u r : Nat} (hf : Covers f responds) (h : Frame f s t) : Frame f s (respond t i u r) := by
  unfold Machine.respond
  extract_lets _ src m1 scope
  have h1 : Foot f s.mod m1 := .setSource (hf _ rfl) h.mod
  have hthrottled (was k : Mod) (hk : Foot f s.mod k) : Foot f s.mod (Machine.rethrottle was k) := .rethrottle (hf _ rfl) (fun _ => hf _ rfl) hk
  split
  · exact h
  · exact h.upd h1
  · exact h.upd (hthrottled _ _ h1)
  · refine h.upd (.ite (.quiesceRegion (hf _ rfl) (fun _ => hf _ rfl) hf.respondDiscards h1) (hthrottled _ _ ?_))
    exact h1.foldl fun _ _ hk => .discardBasin (hf _ rfl) hf.respondDiscards hk
  · exact h.upd (.zeroize hf h1)
  · exact .retire hf (h.upd h1)

/-- The runtime and the credentials of a tether. -/
def Tether.core (x : Tether) : Nat × Nat × Tbl Val := (x.runtime, x.runtimeSub, x.vault.cfg)

theorem core_buffer {x : Tether} {r : EvRec} {b : Bool} : (buffer x r b).core = x.core := by
  unfold buffer
  split
  · rfl
  · rfl

/-- A change of the tether that keeps its runtime and its credentials. -/
theorem Foot.withCore {x : Tether} (hf : f .tether = true) (hx : x.core = n.tether.core) (h : Foot f m n) : Foot f m { n with tether := x } :=
  h.withTether hf (congrArg (·.1) hx) (congrArg (·.2.1) hx) (congrArg (·.2.2) hx)

/-- The recording of an event of a source, before its response. -/
theorem Frame.sourceEvent {i u c src b r : Nat} {ps : Nat → Octets} (hf : Covers f responds) (h : Frame f s t) :
    Frame f s (sourceEvent t i u c src b r ps) := by
  unfold Machine.sourceEvent
  extract_lets k cls k1 tt rec up m1 so m2
  have hcore : tt.core = k.tether.core := by
    show (if cls then { k1 with tseq := (k.tether.tseq + 1) % 2 ^ 32 } else k.tether).core = k.tether.core
    split
    · rfl
    · rfl
  have h1 : Foot f s.mod m1 := by
    refine .withCore (hf _ rfl) ?_ h.mod
    split
    · exact core_buffer.trans hcore
    · exact hcore
  have h2 : Foot f s.mod m2 := .setSource (hf _ rfl) h1
  exact .ite (h.upd (.respondOnCell ⟨hf _ rfl, fun _ _ => hf _ rfl⟩ h2)) (.respond hf (h.upd (.raise (hf _ rfl) h2)))

end Sys2Proof.Machine
end

