-- ==== Sys2Proof/Proofs/FrameBanks.lean ====
section
/-! PROOFS. What the crypto banks, the entropy sources and the events of either leave alone (R350 to R400). -/

namespace Sys2Proof.Machine

variable {f : Part → Bool} {m n : Mod} {s t : State} {k : Nat} {u : CipherUnit}

namespace Foot

/-! ### Draws -/

theorem draw {src c : Nat} (hd : f .drawn = true) (h : Foot f m n) : Foot f m (draw n src c).2 := h.withDrawn hd

theorem discardInput {src : Nat} (hd : f .drawn = true) (h : Foot f m n) : Foot f m (discardInput n src) := h.withDrawn hd

theorem eachPipe {c : Nat} {g : Bank → Nat → Octets → Bank} (hd : f .drawn = true) (hb : ∀ i, f (.bank i) = true) (h : Foot f m n) :
    Foot f m (eachPipe n k c g) := h.foldl fun _ _ hk => .ite hk (.setBank (hb _) (hk.withDrawn hd))

theorem drawBallast (hd : f .drawn = true) (hb : ∀ i, f (.bank i) = true) (h : Foot f m n) : Foot f m (drawBallast n k) :=
  .ite (.setBank (hb _) (.eachPipe hd hb h)) h

theorem drawShuffle (hd : f .drawn = true) (hb : ∀ i, f (.bank i) = true) (h : Foot f m n) : Foot f m (drawShuffle n k) :=
  .ite (.setBank (hb _) (.eachPipe hd hb h)) h

theorem drawMasks (hd : f .drawn = true) (hb : ∀ i, f (.bank i) = true) (h : Foot f m n) : Foot f m (drawMasks n k) :=
  .ite h (.setBank (hb _) (h.withDrawn hd))

theorem throwKeys (hd : f .drawn = true) (hx : ∀ i, f (.tx i) = true) (h : Foot f m n) : Foot f m (throwKeys n k) :=
  .ite (h.foldl fun _ _ hk => .ite (.setTx (hx _) (hk.withDrawn hd)) hk) h

theorem ballastReseed (hd : f .drawn = true) (ht : Covers f timePasses) (h : Foot f m n) : Foot f m (ballastReseed n k) :=
  .ite (.drawBallast hd (fun _ => ht _ rfl) (.advanceTo ht h)) h

theorem shuffleReseed (hd : f .drawn = true) (ht : Covers f timePasses) (h : Foot f m n) : Foot f m (shuffleReseed n k) :=
  .ite (.drawShuffle hd (fun _ => ht _ rfl) (.advanceTo ht h)) h

theorem maskReseed (hd : f .drawn = true) (hb : ∀ i, f (.bank i) = true) (h : Foot f m n) : Foot f m (maskReseed n k) := .ite (.drawMasks hd hb h) h

theorem ballastShare (ht : Covers f timePasses) (hc : ∀ e, f (.obj 0x4200 6 e) = true) (h : Foot f m n) : Foot f m (ballastShare n k) :=
  .ite h ((h.advanceToNet ht).foldl fun _ _ hk => .setNat hc hk)

theorem divertBasin (he : f .ev = true) (hq : ∀ i, f (.queue i) = true) (h7 : ∀ e, f (.obj 0x6000 7 e) = true) (h9 : ∀ e, f (.obj 0x6000 9 e) = true)
    (h : Foot f m n) : Foot f m (divertBasin n k) := h.foldl fun _ _ hk => .retarget he (hq _) (.setNat h9 (.setNat h7 hk))

theorem engageFallback (he : f .ev = true) (hq : ∀ i, f (.queue i) = true) (h7 : ∀ e, f (.obj 0x6000 7 e) = true)
    (h9 : ∀ e, f (.obj 0x6000 9 e) = true) (h : Foot f m n) : Foot f m (engageFallback n k) :=
  .raise he (.ite (.divertBasin he hq h7 h9 h) h)

/-! ### Units -/

theorem unitEvent {st c : Nat} (he : f .ev = true) (h : Foot f m n) : Foot f m (unitEvent n k u st c) := by
  unfold Machine.unitEvent
  cases u with
  | pipeline i => exact .raise he h
  | maskedLane i => exact .raise he h
  | ghashPair i => exact .ite (.raise he h) h

theorem promote (he : f .ev = true) (hb : ∀ i, f (.bank i) = true) (h : Foot f m n) : Foot f m (promote n k u) := by
  unfold Machine.promote
  dsimp only
  split
  · exact h
  · refine .ite h ?_
    split
    · exact .setBank (hb _) h
    · exact .unitEvent he (.setBank (hb _) h)

theorem takeOut (he : f .ev = true) (hb : ∀ i, f (.bank i) = true) (h : Foot f m n) : Foot f m (takeOut n k u) := .promote he hb (.setBank (hb _) h)

theorem pairLeaves {i : Fin 18} (he : f .ev = true) (hb : ∀ i, f (.bank i) = true) (h : Foot f m n) : Foot f m (pairLeaves n k i) :=
  .raise he (.takeOut he hb h)

/-- The frames on their way out, rewritten. -/
theorem withLeaving {arbs : Tbl Arb} {tx : Tbl GelTx} (hf : Covers f discards) (h : Foot f m n) : Foot f m { n with arbs := arbs, tx := tx } :=
  h.next fun p hp => by
    have hsame := Part.same_refl p { mod := n }
    cases p with
    | arb j => exact free_kept (hf _ rfl) hp
    | tx j => exact free_kept (hf _ rfl) hp
    | _ => exact hsame

theorem failFrame {i : Nat} (he : f .ev = true) (hb : ∀ i, f (.bank i) = true) (hf : Covers f discards) (h : Foot f m n) : Foot f m (failFrame n k i) :=
  .ite h (.countDiscards he (fun _ _ => hf _ rfl) (by decide) (.setBank (hb _) (h.withLeaving hf)))

theorem spoil {i d : Nat} (hb : ∀ i, f (.bank i) = true) (hf : Covers f discards) (h : Foot f m n) : Foot f m (spoil n k i d) :=
  (h.setBank (hb _)).withLeaving hf

/-- What the use of a masked engine changes (R369). -/
structure Engines (f : Part → Bool) : Prop where
  ev : f .ev = true := by rfl
  bank : ∀ i, f (.bank i) = true := by intro _; rfl
  uses : ∀ e, f (.obj 0x4210 9 e) = true := by intro _; rfl

theorem engineTakes {c : Nat} {l : List Nat} {j : Job} (hf : Engines f) (h : Foot f m n) : Foot f m (engineTakes n k c l j) :=
  .bump hf.ev hf.uses (.setBank (hf.bank _) h)

theorem takeEngine {j : Job} (hf : Engines f) (h : Foot f m n) : Foot f m (takeEngine n k j) := .engineTakes hf h

theorem takeAnswer (hf : Engines f) (h : Foot f m n) : Foot f m (takeAnswer n k u) := by
  have hset (x : Bank) : Foot f m (Machine.setBank n k x) := .setBank (hf.bank _) h
  unfold Machine.takeAnswer
  cases u with
  | maskedLane i => exact .engineTakes hf (hset _)
  | pipeline i => exact hset _
  | ghashPair i => exact hset _

theorem answerDue (ht : Covers f timePasses) (h : Foot f m n) : Foot f m (answerDue n k u) := .ite (.advance ht h) h

end Foot

namespace Frame

/-! ### Failures -/

theorem beyondRepair {c : Nat} (hf : Covers f responds) (h : Frame f s t) : Frame f s (beyondRepair t k c) := .sourceEvent hf h

theorem retireUnit {c : Nat} (hf : Covers f responds) (h : Frame f s t) : Frame f s (retireUnit t k u c) := by
  have he : f .ev = true := hf _ rfl
  have hb (i : Nat) : f (.bank i) = true := hf _ rfl
  unfold Machine.retireUnit
  extract_lets b _ k0 _ _ _ m1
  have hout : Foot f s.mod k0 := .promote he hb (.unitEvent he (.setBank (hb _) h.mod))
  have h1 : Foot f s.mod m1 := by
    show Foot f s.mod (match (bank k0 k).spare with
      | some i => Machine.unitEvent (setBank k0 k { bank k0 k with spare := none }) k (withNum u i) 0 0
      | none => k0)
    split
    · exact .unitEvent he (.setBank (hb _) hout)
    · exact hout
  split
  · exact .ite (.beyondRepair hf (h.upd hout)) (.ite (h.upd (.raise he h1)) (h.upd hout))
  · exact h.upd hout

theorem unitDrained (hf : Covers f responds) (ht : Covers f timePasses) (h : Frame f s t) : Frame f s (unitDrained t k u) := by
  have hto {c : Nat} : Foot f s.mod (advanceTo t.mod c) := .advanceTo ht h.mod
  exact .ite h (.ite (.retireUnit hf (h.upd hto)) (h.upd (.unitEvent (ht _ rfl) (.setBank (ht _ rfl) hto))))

theorem quarantineEnd {ok : Bool} (hf : Covers f responds) (h : Frame f s t) : Frame f s (quarantineEnd t k u ok) :=
  .ite h (.ite (.retireUnit hf h) (h.upd (.unitEvent (hf _ rfl) (.setBank (hf _ rfl) h.mod))))

theorem flagged {e : Exit} {st : Nat} {key : Bool} (hf : Covers f responds) (h9 : ∀ e, f (.obj 0x4200 9 e) = true) (h : Frame f s t) :
    Frame f s (flagged t k u e st key) := by
  have he : f .ev = true := hf _ rfl
  have hb (i : Nat) : f (.bank i) = true := hf _ rfl
  unfold Machine.flagged
  extract_lets k0 b kind last _ m1 m2 m3 lost
  have h1 : Foot f s.mod m1 := .setBank (hb _) h.mod
  have h2 : Foot f s.mod m2 := by
    cases u with
    | pipeline i => exact .raise he h1
    | maskedLane i => exact .unitEvent he h1
    | ghashPair i => exact .unitEvent he h1
  have h3 : Foot f s.mod m3 := .takeOut he hb h2
  have hbeyond (c : Nat) : Frame f s (Machine.beyondRepair (t.upd lost) k c) := .beyondRepair hf (h.upd (.failFrame he hb hf.respondDiscards h3))
  refine .ite (hbeyond 0) (.ite (h.upd h3) ?_)
  split
  · exact hbeyond 1
  · exact .ite (hbeyond 1) (h.upd (.bump he h9 (.setBank (hb _) h3)))

theorem judged {e : Exit} {o : Nat} {x : Option (Nat × Bool)} (hf : Covers f responds) (ht : Covers f timePasses)
    (h9 : ∀ e, f (.obj 0x4200 9 e) = true) (h : Frame f s t) : Frame f s (judged t k u e o x) := by
  have hto : Frame f s (t.upd (advanceTo t.mod e.at_)) := h.upd (.advanceTo ht h.mod)
  unfold Machine.judged
  dsimp only
  split
  · exact .flagged hf h9 hto
  · exact .ite hto (hto.upd (.spoil (fun _ => ht _ rfl) hf.respondDiscards hto.mod))

theorem pipelineFault {x : Upset} (hf : Covers f responds) (ht : Covers f timePasses) (h9 : ∀ e, f (.obj 0x4200 9 e) = true) (h : Frame f s t) :
    Frame f s (pipelineFault t k u x) := by
  unfold Machine.pipelineFault
  refine .ite h ?_
  split
  · exact h
  · exact .judged hf ht h9 h

theorem knownAnswer {x : Upset} (hf : Covers f responds) (ht : Covers f timePasses) (h9 : ∀ e, f (.obj 0x4200 9 e) = true)
    (hE : ∀ e, f (.obj 0x4210 9 e) = true) (h : Frame f s t) : Frame f s (knownAnswer t k u x) := by
  unfold Machine.knownAnswer
  extract_lets m0 m1
  have h1 : Foot f s.mod m1 := .takeAnswer ⟨ht _ rfl, fun _ => ht _ rfl, hE⟩ (.answerDue ht h.mod)
  refine .ite h ?_
  split
  · exact .flagged hf h9 (h.upd h1)
  · exact .ite (h.upd h1) (.retireUnit hf (h.upd (.setBank (ht _ rfl) h1)))

theorem ghashMismatch {i : Fin 18} {a b : Nat} (hf : Covers f responds) (ht : Covers f timePasses) (hA : ∀ e, f (.obj 0x4200 0xA e) = true)
    (h : Frame f s t) : Frame f s (ghashMismatch t k i a b) := by
  have he : f .ev = true := hf _ rfl
  have hb (i : Nat) : f (.bank i) = true := hf _ rfl
  have hfail {j : Nat} (m : Mod) (hm : Foot f s.mod m) : Frame f s (Machine.beyondRepair (t.upd (failFrame m k j)) k 2) :=
    .beyondRepair hf (h.upd (.failFrame he hb hf.respondDiscards hm))
  unfold Machine.ghashMismatch
  extract_lets k0 m1 m2
  have h1 : Foot f s.mod m1 := .pairLeaves he hb h.mod
  have h2 : Foot f s.mod m2 := .bump he hA (.advance ht h1)
  refine .ite h ?_
  split
  · exact h.upd h1
  · split
    · exact hfail _ h1
    · exact .ite (h.upd h2) (hfail _ (.pairLeaves he hb h2))

theorem keyStoreError {two : Bool} (hf : Covers f responds) (hC : ∀ e, f (.obj 0x4200 0xC e) = true) (h : Frame f s t) :
    Frame f s (keyStoreError t k two) := .ite h (.ite (.beyondRepair hf h) (h.upd (.bump (hf _ rfl) hC h.mod)))

theorem declareFailed {isB : Bool} (hf : Covers f responds) (hx : f (.entropy k) = true) (hd : f .drawn = true) (h7 : ∀ e, f (.obj 0x6000 7 e) = true)
    (h9 : ∀ e, f (.obj 0x6000 9 e) = true) (h : Frame f s t) : Frame f s (declareFailed t k isB) := by
  have he : f .ev = true := hf _ rfl
  have hb (i : Nat) : f (.bank i) = true := hf _ rfl
  have hq (i : Nat) : f (.queue i) = true := hf _ rfl
  have hpair (m : Mod) (i : Nat) (hm : Foot f s.mod m) : Foot f s.mod (Machine.drawShuffle (Machine.drawBallast m (k * 4 + i)) (k * 4 + i)) :=
    .drawShuffle hd hb (.drawBallast hd hb hm)
  unfold Machine.declareFailed
  extract_lets e m1 s1 m2 s2 both
  have h1 : Frame f s s1 := .sourceEvent hf (h.upd (.setAlarm (hf _ rfl) (.setEntropy hx h.mod)))
  have h2 : Frame f s s2 := by
    refine .ite h1 (h1.upd (.engageFallback he hq h7 h9 (.engageFallback he hq h7 h9 (.throwKeys hd (fun _ => hf _ rfl) ?_))))
    exact h1.mod.foldl fun _ i hk => hpair _ i hk
  refine .ite h (.ite ?_ h2)
  exact h2.foldl fun _ _ hk => .beyondRepair hf hk

theorem entropyTestFailure {isB p : Bool} {l : List Bool} (hf : Covers f responds) (hx : f (.entropy k) = true) (hd : f .drawn = true)
    (h7 : ∀ e, f (.obj 0x6000 7 e) = true) (h9 : ∀ e, f (.obj 0x6000 9 e) = true) (hc : ∀ s e, f (.obj 0x4230 s e) = true) (h : Frame f s t) :
    Frame f s (entropyTestFailure t k isB p l) := by
  unfold Machine.entropyTestFailure
  extract_lets k0 e test recent m1 m2 m3
  have h1 : Foot f s.mod m1 := .discardInput hd (.setEntropy hx h.mod)
  have h2 : Foot f s.mod m2 := by
    refine .setNat (hc 8) ?_
    cases isB with
    | true => exact .bump (hf _ rfl) (hc 4) h1
    | false => exact .bump (hf _ rfl) (hc 3) h1
  have h3 : Foot f s.mod m3 := .raise (hf _ rfl) h2
  exact .ite h (.ite (.declareFailed hf hx hd h7 h9 (h.upd h3)) (h.upd h3))

end Frame

end Sys2Proof.Machine
end

