-- ==== Sys2Proof/Proofs/FrameReception.lean ====
section
/-! PROOFS. What the reception and classification of frames leaves alone (R400 to R470, R100 to R160). -/

namespace Sys2Proof.Machine

variable {f : Part → Bool} {m n : Mod} {p q a k : Nat}

/-- A footprint takes in the objects of a list. -/
theorem covers_objIn {l : List (Nat × Nat)} (h : ∀ e, (l.all fun x => f (.obj x.1 x.2 e)) = true := by intro _; rfl) : Covers f (objIn l) := by
  intro x hx
  cases x with
  | obj idx sub e => exact List.all_eq_true.mp (h e) _ (List.contains_iff_mem.mp hx)
  | _ => cases hx

namespace Foot

/-! ### Admission to a queue -/

/-- What the offer of a frame to a queue changes (R470 to R483). -/
structure Offers (f : Part → Bool) : Prop where
  ev : f .ev = true := by rfl
  onceAt : f .onceAt = true := by rfl
  slots : f .slots = true := by rfl
  queue : ∀ i, f (.queue i) = true := by intro _; rfl
  counts : ∀ s e, f (.obj 0x6010 s e) = true := by intro _ _; rfl
  noKey : ∀ e, f (.obj 0x4020 3 e) = true := by intro _; rfl

theorem takeSlot {c : Nat} (hs : f .slots = true) (h : Foot f m n) : Foot f m (takeSlot n k c) := h.withSlots hs

theorem offer {d : Desc} {ha : Bool} (hf : Offers f) (h : Foot f m n) : Foot f m (offer n d ha) := by
  unfold Machine.offer
  split
  · exact .bump hf.ev (hf.counts 2) (.bump hf.ev (hf.counts 1) (.setQueue (hf.queue _) (.takeSlot hf.slots h)))
  · next sub hsub =>
    extract_lets m1 m2
    have hlt : sub < 256 := (by decide : ∀ x ∈ [0x0C, 0x0B, 0x0A, 7, 6, 8, 9], x < 256) sub (admitCheck_mem hsub)
    have h1 : Foot f m m1 := .bump hf.ev (hf.counts sub) h (by simp [sources]) hlt
    have h2 : Foot f m m2 := .ite (.bump hf.ev hf.noKey h1) h1
    exact .ite (.raiseOnce hf.ev hf.onceAt h2) h2

/-- What the forwarding of a classified frame changes (R420 to R432). -/
structure Forwards (f : Part → Bool) : Prop extends Offers f where
  noAssoc : ∀ e, f (.obj 0x5040 4 e) = true := by intro _; rfl
  dropped : ∀ e, f (.obj 0x5040 5 e) = true := by intro _; rfl
  untagged : ∀ e, f (.obj 0x4020 7 e) = true := by intro _; rfl

theorem forward {bytes : Octets} {st t w : Nat} (hf : Forwards f) (h : Foot f m n) : Foot f m (forward n p bytes st t w q a) :=
  .ite (.bump hf.ev hf.noAssoc h) (.ite (.bump hf.ev hf.untagged h) (.offer hf.toOffers h))

theorem onMatch {bytes : Octets} {st t w : Nat} {x : Prefix} (hf : Forwards f) (h : Foot f m n) : Foot f m (onMatch n p bytes st t w x) :=
  .ite (.bump hf.ev hf.dropped h) (.forward hf h)

/-! ### Learning and held frames -/

theorem dropExpired (he : f .ev = true) (hc : f (.cls k) = true) (hb : ∀ e, f (.obj 0x5040 0xB e) = true) (h : Foot f m n) :
    Foot f m (dropExpired n k) := .ite ((h.setCls hc).foldl fun _ _ hk => .bump he hb hk) h

theorem expireHold (ht : Covers f timePasses) (hc : f (.cls k) = true) (hb : ∀ e, f (.obj 0x5040 0xB e) = true) (h : Foot f m n) :
    Foot f m (expireHold n k) := by
  unfold Machine.expireHold
  dsimp only
  split
  · exact h
  · exact .bump (ht _ rfl) hb (.setCls hc (.advanceTo ht h))

theorem setIntercept {x : Intercept} (hi : f .icept = true) (h : Foot f m n) : Foot f m (setIntercept n p x) := h.withIcept hi

theorem servePath {c : Nat} (hi : f .icept = true) (hm : f .mgmt = true) (h : Foot f m n) : Foot f m (servePath n k c) := by
  induction c generalizing n with
  | zero => exact h
  | succ c ih =>
    unfold Machine.servePath
    dsimp only
    split
    · exact h
    · split
      · exact h
      · exact .ite h (ih ((Foot.setIntercept hi h).withMgmt hm))

theorem intercept {bytes : Octets} (he : f .ev = true) (hi : f .icept = true) (hm : f .mgmt = true)
    (hl : Covers f (objIn [(0x2030, 1), (0x2030, 2), (0x2030, 6)])) (h : Foot f m n) : Foot f m (intercept n p bytes) := by
  unfold Machine.intercept
  extract_lets k0 k1 len
  have hserved : Foot f m k1 := .servePath hi hm h
  clear_value k1
  exact .ite (.bump he (fun _ => hl _ rfl) (.setIntercept hi hserved)) (.ite (.bump he (fun _ => hl _ rfl) (.setIntercept hi hserved))
    (.bump he (fun _ => hl _ rfl) (.setIntercept hi hserved)))

/-- The counts of classification and learning. -/
def classCounts : Part → Bool :=
  objIn [(0x5000, 9), (0x5040, 1), (0x5040, 2), (0x5040, 3), (0x5040, 6), (0x5040, 7), (0x5040, 8), (0x5040, 9), (0x5040, 0xB), (0x5040, 0xC),
    (0x5200, 5), (0x5200, 6)]

theorem notifyMiss {x : Nat × Bool × Nat} {r : Nat → Octets} (he : f .ev = true) (hc : ∀ i, f (.cls i) = true) (hl : Covers f classCounts)
    (h : Foot f m n) : Foot f m (notifyMiss n p x r) := by
  unfold Machine.notifyMiss
  extract_lets b c y full m1 m2 m3
  have h2 : Foot f m m2 := .bump he (fun _ => hl _ rfl) (.bump he (fun _ => hl _ rfl) (.setCls (hc _) h))
  have h3 : Foot f m m3 := .ite (.raise he h2) h2
  exact .ite (.bump he (fun _ => hl _ rfl) h) (.ite (.bump he (fun _ => hl _ rfl) (.bump he (fun _ => hl _ rfl) (.setCls (hc _) h))) (.ite (.raise he h3) h3))

theorem holdFrame {x : Held} (he : f .ev = true) (ho : f .onceAt = true) (hc : ∀ i, f (.cls i) = true) (hl : Covers f classCounts) (h : Foot f m n) :
    Foot f m (holdFrame n p x) :=
  have hfull : Foot f m (Machine.bump n 0x5040 0x0C p 1) := .bump he (fun _ => hl _ rfl) h
  .ite hfull (.ite (.raiseOnce he ho hfull) (.bump he (fun _ => hl _ rfl) (.setCls (hc _) h)))

theorem classify {bytes : Octets} {st t : Nat} (hf : Forwards f) (hc : ∀ i, f (.cls i) = true) (hl : Covers f classCounts) (h : Foot f m n) :
    Foot f m (classify n p bytes st t) := by
  have he : f .ev = true := hf.ev
  unfold Machine.classify
  extract_lets tg e b k dflt table c len
  have hk : Foot f m k := .bump he (fun _ => hl _ rfl) (.dropExpired he (hc _) (fun _ => hl _ rfl) h)
  have hdflt (j : Mod) (hj : Foot f m j) : Foot f m (dflt j) := .forward hf hj
  split
  · exact .ite (.bump he (fun _ => hl _ rfl) hk) (.ite (hdflt _ hk) (.bump he (fun _ => hl _ rfl) hk))
  · extract_lets flow waiting held willHold m1
    have hheld (j : Mod) (hj : Foot f m j) : Foot f m (Machine.holdFrame j p held) := .holdFrame he hf.onceAt hc hl hj
    have h1 : Foot f m m1 := .ite (.notifyMiss he hc hl hk) hk
    refine .ite (.ite (hheld _ hk) (.ite (hdflt _ hk) (.bump he (fun _ => hl _ rfl) hk))) ?_
    split
    · exact .ite (hheld _ hk) (.onMatch hf hk)
    · exact .ite (hheld _ h1) (.ite (hdflt _ h1) (.bump he (fun _ => hl _ rfl) h1))

theorem clearReceive {x : Sys2Proof.Frame} (hf : Forwards f) (hc : ∀ i, f (.cls i) = true) (hl : Covers f classCounts) (hi : f .icept = true)
    (hm : f .mgmt = true) (h3 : Covers f (objIn [(0x2030, 1), (0x2030, 2), (0x2030, 6)])) (hp : ∀ s e, f (.obj 0x3100 s e) = true) (h : Foot f m n) :
    Foot f m (clearReceive n p x) := by
  unfold Machine.clearReceive
  refine .ite h ?_
  dsimp only
  split
  · next sub hsub =>
    have hlt : sub < 256 := (by decide : ∀ x ∈ [0x0D, 0x0E, 0x0F], x < 256) sub (portDrop_mem hsub)
    exact .bump hf.ev (hp sub) h (by simp [sources]) hlt
  · exact .ite (.intercept hf.ev hi hm h3 h) (.ite (.intercept hf.ev hi hm h3 h) (.classify hf hc hl h))

/-! ### Verification -/

/-- What the verification of a received frame changes (R270 to R330). -/
structure Verifies (f : Part → Bool) : Prop extends Offers f where
  assoc : ∀ i, f (.assoc i) = true := by intro _; rfl
  bank : ∀ i, f (.bank i) = true := by intro _; rfl
  checks : ∀ s e, f (.obj 0x4020 s e) = true := by intro _ _; rfl
  full : ∀ e, f (.obj 0x4210 8 e) = true := by intro _; rfl
  masked : ∀ e, f (.obj 0x4210 9 e) = true := by intro _; rfl
  records : ∀ e, f (.obj 0x3200 0x16 e) = true := by intro _; rfl

theorem frameBlocks {j : Job} (hb : f (.bank k) = true) (h : Foot f m n) : Foot f m (frameBlocks n k j) := .setBank hb h

theorem rxVerified {ph pn : Nat} (ha : f (.assoc a) = true) (h : Foot f m n) : Foot f m (rxVerified n a ph pn) := .setAssoc ha h

theorem received {bytes : Octets} {st t : Nat} (hf : Verifies f) (h : Foot f m n) : Foot f m (received n p a bytes st t) :=
  have hcounted : Foot f m (Machine.bump (Machine.bump n 0x4020 8 a 1) 0x4020 9 a (bytes.length + 4)) :=
    .bump hf.ev (hf.checks 9) (.bump hf.ev (hf.checks 8) h)
  .ite hcounted (.offer hf.toOffers hcounted)

theorem verifyFrame {t : SecTag} {addr aad cipher : Octets} {len st w : Nat} {inner : Bool} {opened : Octets → Octets → Option Octets}
    (hf : Verifies f) (h : Foot f m n) : Foot f m (verifyFrame n p a t addr len st w inner aad cipher opened) := by
  unfold Machine.verifyFrame
  split
  · next sub hsub =>
    have hlt : sub < 256 := (by decide : ∀ x ∈ [0x0E, 0x0D, 0x0F, 0x0A, 0x0B], x < 256) sub (rxChecks_mem hsub)
    exact .bump hf.ev (hf.checks sub) h (by simp [sources]) hlt
  · extract_lets bk ha c y iv j m1 m2
    have h1 : Foot f m m1 := .ite (.takeEngine ⟨hf.ev, hf.bank, hf.masked⟩ h) (.frameBlocks (hf.bank _) h)
    refine .ite (.bump hf.ev hf.full h) ?_
    split
    · exact .bump hf.ev (hf.checks 0xC) h1
    · have h2 : Foot f m m2 := .rxVerified (hf.assoc _) h1
      exact .received hf (.ite (.bump hf.ev hf.records h2) h2)

theorem frameReceive {x : LineFrame} (hf : Verifies f) (hp : ∀ s e, f (.obj 0x3100 s e) = true)
    (hl : Covers f (objIn [(0x4030, 2), (0x4030, 3), (0x4030, 4), (0x5000, 0xA)])) (h : Foot f m n) : Foot f m (frameReceive n p x) := by
  have he : f .ev = true := hf.ev
  have hlook : Foot f m (lineLookup n p x.head).2 := by
    show Foot f m (Machine.bump n 0x5000 0xA (directElem p (tagsOf x.head)) 1)
    exact .bump he (fun _ => hl _ rfl) h
  unfold Machine.frameReceive
  refine .ite h ?_
  dsimp only
  split
  · next sub hsub =>
    have hlt : sub < 256 := (by decide : ∀ x ∈ [0x0D, 0x0E, 0x0F], x < 256) sub (portDrop_mem hsub)
    exact .bump he (hp sub) h (by simp [sources]) hlt
  · split
    · exact .ite (.offer hf.toOffers (.bump he (hf.checks 0x10) hlook)) (.bump he (fun _ => hl _ rfl) hlook)
    · refine .ite (.bump he (fun _ => hl _ rfl) h) ?_
      split
      · exact .ite (.bump he (fun _ => hl _ rfl) h) (.verifyFrame hf h)
      · exact .ite (.bump he (fun _ => hl _ rfl) hlook) (.verifyFrame hf hlook)

end Foot

end Sys2Proof.Machine
end

