-- ==== Sys2Proof/Proofs/FrameGelix.lean ====
section
/-! PROOFS. What the framer, the Gelix frames received and sent and the release of frames leave alone (R100 to R160, R340 to R365, R480 to R520). -/

namespace Sys2Proof.Machine

variable {f : Part → Bool} {m n : Mod} {p a k : Nat}

theorem outerCheck_mem {o : Option Nat} {x : GelixFrame} {sub : Nat} (h : outerCheck n o x = some sub) : sub ∈ [0x0B, 0x0A, 0x0C] := by
  unfold outerCheck at h
  split at h
  · cases h
    decide
  · dsimp only at h
    split at h
    · cases h
      decide
    split at h
    · cases h
      decide
    split at h
    · split at h
      · cases h
        decide
      · cases h
    · cases h

namespace Foot

/-! ### The framer -/

theorem dropCandidate {o : Nat} (he : f .ev = true) (hr : f (.rx p) = true) (hc : ∀ e, f (.obj 0x3200 0x13 e) = true) (h : Foot f m n) :
    Foot f m (dropCandidate n p o) := by
  unfold Machine.dropCandidate
  dsimp only
  refine .ite h ?_
  split
  · exact h
  · exact .bump he hc (.setRx hr h)

theorem multiframe {v : Nat} (he : f .ev = true) (hr : f (.rx p) = true) (h : Foot f m n) : Foot f m (multiframe n p v) := by
  have hset (x : GelRx) : Foot f m (Machine.setRx n p x) := .setRx hr h
  unfold Machine.multiframe
  dsimp only
  split
  · exact hset _
  · exact .ite (.ite (hset _) (.ite (hset _) (.raise he (hset _)))) (.ite (.raise he (hset _)) (hset _))

theorem checkFaw {c v : Nat} (hf : Hunts f p) (h : Foot f m n) : Foot f m (checkFaw n p c v) :=
  .ite h (.ite (.toHunt hf (.setRx hf.rx h)) (.multiframe hf.ev hf.rx (.setRx hf.rx h)))

theorem enterSync {v : Nat} (he : f .ev = true) (hr : f (.rx p) = true) (hp : f (.port p) = true) (h : Foot f m n) : Foot f m (enterSync n p v) :=
  .raise he (.refreshPhase hp (.setRx hr h))

theorem fawFound {o v : Nat} (he : f .ev = true) (hr : f (.rx p) = true) (hp : f (.port p) = true) (hc : ∀ e, f (.obj 0x3200 0x14 e) = true)
    (h : Foot f m n) : Foot f m (fawFound n p o v) := by
  have hset (x : GelRx) : Foot f m (Machine.setRx n p x) := .setRx hr h
  unfold Machine.fawFound
  dsimp only
  refine .ite h ?_
  split
  · exact .ite (.enterSync he hr hp h) (hset _)
  · exact .ite (hset _) (.ite (.bump he hc (hset _)) (.raise he (.bump he hc (hset _))))

/-! ### Gelix frames received -/

/-- What the reception of a Gelix frame changes (R111 to R160, R340 to R352). -/
structure Receives (f : Part → Bool) : Prop extends Verifies f where
  ports : Covers f portMoves
  rx : ∀ i, f (.rx i) = true := by intro _; rfl
  tts : f .tts = true := by rfl
  lines : ∀ s e, f (.obj 0x3200 s e) = true := by intro _ _; rfl
  tim : ∀ e, f (.obj 0x3300 6 e) = true := by intro _; rfl
  mch : ∀ e, f (.obj 0x2000 0xB e) = true := by intro _; rfl

variable (hf : Receives f)
include hf

theorem evaluateTim (h : Foot f m n) : Foot f m (evaluateTim n p) := .setDefect hf.ev hf.ports h

theorem takeRemote {st r : Nat} (h : Foot f m n) : Foot f m (takeRemote n p st r) := by
  unfold Machine.takeRemote
  extract_lets x rdi run st' m1 _ m2
  have h2 : Foot f m m2 := .setPm (hf.ports _ rfl) (.setRx (hf.rx _) h)
  exact .ite (.setDefect hf.ev hf.ports h2) h2

theorem erroredFrame (h : Foot f m n) : Foot f m (erroredFrame n p) := .setPm (hf.ports _ rfl) (.setTx (hf.ports _ rfl) h)

theorem takeCell {cell : Octets} {keyed : Bool} (h : Foot f m n) : Foot f m (takeCell n p cell keyed) := by
  have hdrop {j : Mod} {c : Nat} (hj : Foot f m j) : Foot f m (Machine.dropMch j p c) := .dropMch hf.ev (hf.rx _) (hf.lines 0x12) hj
  unfold Machine.takeCell
  extract_lets b count seq x m1 y start y1 m2
  have h1 : Foot f m m1 := .ite (hdrop h) (.ite (hdrop h) h)
  have h2 : Foot f m m2 := .setRx (hf.rx _) h1
  exact .ite h (.ite h2 (.ite (hdrop h2) (.ite (.ite (.mchMessage hf.ev hf.tts hf.mch (.setRx (hf.rx _) h2)) (hdrop h2)) h2)))

theorem losePayload (h : Foot f m n) : Foot f m (losePayload n p) :=
  have hset : Foot f m (Machine.setRx n p { rxOf n p with parse := { part := [], resync := true, stamp := 0 } }) := .setRx (hf.rx _) h
  .ite (.bump hf.ev (hf.lines 0x11) hset) hset

theorem takeRecord {half : Bool} {r : Rec} (h : Foot f m n) : Foot f m (takeRecord n p half r) := by
  have hbad : Foot f m (Machine.bump n 0x3200 0x10 p 1) := .bump hf.ev (hf.lines 0x10) h
  unfold Machine.takeRecord
  cases r with
  | bad => exact hbad
  | client bytes off =>
    dsimp only
    refine .ite hbad (.ite (.received hf.toVerifies (.bump hf.ev (hf.lines 0x16) h)) ?_)
    split
    · exact hbad
    · exact .ite hbad (.verifyFrame hf.toVerifies h)

theorem takePayload {half : Bool} {plain : Octets} (h : Foot f m n) : Foot f m (takePayload n p half plain) :=
  .ite h ((h.setRx (hf.rx _)).foldl fun _ _ hk => .takeRecord hf hk)

theorem takePassed {x : GelixFrame} (h : Foot f m n) : Foot f m (takePassed n p a x) := by
  unfold Machine.takePassed
  extract_lets ph hb y z rx ksp tell m1 m2 _ m3 m4 t own ttx t1 t2
  have h1 : Foot f m m1 := .setRx (hf.rx _) h
  have h2 : Foot f m m2 := .ite (.raise hf.ev h1) h1
  have h3 : Foot f m m3 := .setAssoc (hf.assoc _) h2
  have h4 : Foot f m m4 := .ite (.raiseOnce hf.ev hf.onceAt (.bump hf.ev (hf.lines 0xD) h3)) h3
  exact .ite h4 (h4.withTts hf.tts)

theorem takeTrace {c : Byte} (h : Foot f m n) : Foot f m (takeTrace n p c) := by
  have hset (x : GelRx) : Foot f m (Machine.setRx n p x) := .setRx (hf.rx _) h
  unfold Machine.takeTrace
  dsimp only
  split
  · exact .ite (hset _) (.ite (hset _) (.ite (hset _) (.ite (.evaluateTim hf (.setObj (hf.lines 4) (hset _))) (hset _))))
  · exact hset _

theorem takeAuth {ok : Bool} (h : Foot f m n) : Foot f m (takeAuth n p ok) := by
  unfold Machine.takeAuth
  extract_lets x hist good m1
  have h1 : Foot f m m1 := .setRx (hf.rx _) h
  exact .ite (.setDefect hf.ev hf.ports h1) (.ite (.setDefect hf.ev hf.ports h1) h1)

theorem gelixReceive {x : GelixFrame} (h : Foot f m n) : Foot f m (gelixReceive n p x) := by
  have he : f .ev = true := hf.ev
  unfold Machine.gelixReceive
  extract_lets r m1 diff m2 _ m3 m4 _ m5 m6 o b
  have h1 : Foot f m m1 := .bump he (hf.lines 9) (.setRx (hf.rx _) h)
  have h2 : Foot f m m2 := .takeTrace hf (.ite h1 (.bump he (hf.lines 0xF) h1))
  have h4 : Foot f m m4 := .takeRemote hf (.bump he (hf.lines 0xE) (.setPm (hf.ports _ rfl) h2))
  have h6 : Foot f m m6 := .losePayload hf (.takeCell hf (.setRx (hf.rx _) h4))
  clear_value m2 m6
  refine .ite h (.ite (.ite h6 (.erroredFrame hf h6)) ?_)
  split
  · extract_lets k3 k4 k5
    have h3 : Foot f m k3 := .takeAuth hf (.frameBlocks (hf.bank _) h2)
    have h4 : Foot f m k4 := .takeCell hf (.takePassed hf (.takeRemote hf h3))
    have h5 : Foot f m k5 := .ite h4 (.erroredFrame hf h4)
    exact .ite (.losePayload hf (.bump he hf.tim h5)) (.ite (.losePayload hf h5) (.takePayload hf h5))
  · extract_lets k3 k4
    have hlt : (outerCheck m2 o x).getD 0xB < 256 := by
      cases hc : outerCheck m2 o x with
      | none => decide
      | some sub => exact (by decide : ∀ x ∈ [0x0B, 0x0A, 0x0C], x < 256) sub (outerCheck_mem hc)
    have h3 : Foot f m k3 := .takeAuth hf (.bump he (hf.lines _) h2 (by simp [sources]) hlt)
    have h4 : Foot f m k4 := .ite h3 (.frameBlocks (hf.bank _) h3)
    exact .losePayload hf (.takeCell hf (.erroredFrame hf h4))

omit hf

end Foot

end Sys2Proof.Machine
end

