-- ==== Sys2Proof/Proofs/FrameRelease.lean ====
section
/-! PROOFS. What the release of frames, their encryption and their sending leave alone (R217 to R240, R340 to R365, R480 to R520). -/

namespace Sys2Proof.Machine

variable {f : Part → Bool} {m n : Mod} {p a k : Nat}

namespace Foot

/-! ### The scheduler -/

/-- What the choice of the next frame changes: the deficits of the queues and berths and the port's arbiter. -/
structure Picks (f : Part → Bool) (p : Nat) : Prop where
  node : ∀ i, f (.node i) = true := by intro _; rfl
  queue : ∀ i, f (.queue i) = true := by intro _; rfl
  arb : f (.arb p) = true := by rfl

theorem pickIn {c t : Nat} {x : Pick} (hf : Picks f p) (h : Foot f m n) (hx : pickIn n p c t = some x) : Foot f m x.m := by
  unfold Machine.pickIn at hx
  dsimp only at hx
  split at hx
  · cases hx
  · split at hx
    · cases hx
    · cases hx
      exact .setArb hf.arb ((h.foldl fun _ _ hk => hk.setNode (hf.node _)).foldl fun _ _ hk => .setQueue (hf.queue _) hk)

theorem pickLow {t : Nat} {x : Pick} (hf : Picks f p) (h : Foot f m n) (hx : pickLow n p t = some x) : Foot f m x.m := by
  unfold Machine.pickLow at hx
  dsimp only at hx
  split at hx
  · cases hx
  · exact .pickIn hf (.setArb hf.arb h) hx

/-- The alternatives of a choice that have a property. -/
theorem orElse_some {α : Type} {q : α → Prop} {o r : Option α} (ho : ∀ x, o = some x → q x) (hr : ∀ x, r = some x → q x) :
    ∀ x, (o <|> r) = some x → q x := by
  cases o with
  | none => exact hr
  | some y => exact ho

theorem pickNext {x : Pick} (hf : Picks f p) (h : Foot f m n) (hx : pickNext n p = some x) : Foot f m x.m := by
  have hin (c t : Nat) (y : Pick) (hy : Machine.pickIn n p c t = some y) : Foot f m y.m := .pickIn hf h hy
  have hlow (t : Nat) (y : Pick) (hy : Machine.pickLow n p t = some y) : Foot f m y.m := .pickLow hf h hy
  exact orElse_some (q := fun y => Foot f m y.m) (hin 7 1) (orElse_some (hin 7 2) (orElse_some (hin 6 1) (orElse_some (hin 6 2)
    (orElse_some (hlow 1) (hlow 2))))) x hx

theorem releaseFrame {c : Nat} (hf : Picks f p) (ht : Covers f timePasses) (hs : f .slots = true) (h9 : ∀ e, f (.obj 0x4210 9 e) = true)
    (h1 : ∀ s e, f (.obj 0x6010 s e) = true) (h2 : ∀ s e, f (.obj 0x6020 s e) = true) (h : Foot f m n) : Foot f m (releaseFrame n p c) := by
  have he : f .ev = true := ht _ rfl
  unfold Machine.releaseFrame
  extract_lets slot k0 ab bound m1 m2
  have h0 : Foot f m k0 := .advance ht h
  have hq : Foot f m m1 := h0.foldl fun _ _ hk => .refillQueue (hf.queue _) hk
  have hn : Foot f m m2 := hq.foldl fun _ _ hk => .refillNode (hf.node _) hk
  refine .ite h0 ?_
  split
  · exact hn
  · next pk hpk =>
    have hpick : Foot f m pk.m := .pickNext hf hn hpk
    extract_lets qu mode1 cl
    split
    · exact hn
    · extract_lets dt m3 nk nd m4 b start d' old m5 m6 m7
      have h4 : Foot f m m4 := .setNode (hf.node _) (.setQueue (hf.queue _) hpick)
      have h5 : Foot f m m5 := .setArb hf.arb h4
      have h6 : Foot f m m6 := .ite (.takeEngine ⟨he, fun _ => ht _ rfl, h9⟩ h5) h5
      have h7 : Foot f m m7 := .takeSlot hs h6
      refine .ite (.countDiscards he h2 (by decide) h7) ?_
      by_cases hk : pk.tier = 2
      · rw [if_pos hk]
        exact .bump he (h1 5) h7
      · rw [if_neg hk]
        exact .bump he (h1 4) h7

/-! ### The banks -/

theorem dropNotice (ha : f (.assoc a) = true) (h : Foot f m n) : Foot f m (dropNotice n a) := .ite (.setAssoc ha h) h

theorem assignPn (he : f .ev = true) (ha : f (.assoc a) = true) (h : Foot f m n) : Foot f m (assignPn n a).2 := by
  unfold Machine.assignPn
  extract_lets x ph y pn type src bp last m1 m2
  have h1 : Foot f m m1 := .setAssoc ha h
  have h2 : Foot f m m2 := .ite (.raise he h1) h1
  exact .ite (.dropNotice ha (.raise he h2)) h2

theorem txBlocks {d : Desc} {j : Job} (hb : f (.bank k) = true) (h : Foot f m n) : Foot f m (txBlocks n k d j) :=
  .ite (.setBank hb h) (.frameBlocks hb h)

theorem toLanes {d : Desc} (ha : f (.arb p) = true) (h : Foot f m n) : Foot f m (toLanes n p d) := .setArb ha h

theorem toPacker {d : Desc} {r : Octets} (he : f .ev = true) (hx : f (.tx p) = true) (hc : ∀ s e, f (.obj 0x6020 s e) = true) (h : Foot f m n) :
    Foot f m (toPacker n p d r) := by
  unfold Machine.toPacker
  dsimp only
  exact .ite (.countDiscards he hc (by split <;> split <;> decide) h) (.setTx hx h)

theorem bankEntry (he : f .ev = true) (ha : ∀ i, f (.arb i) = true) (hs : ∀ i, f (.assoc i) = true) (hb : ∀ i, f (.bank i) = true)
    (hx : ∀ i, f (.tx i) = true) (hn : f .serials = true)
    (hl : Covers f (objIn [(0x4020, 1), (0x4020, 2), (0x4020, 4), (0x4020, 5), (0x4020, 6)])) (hc : ∀ s e, f (.obj 0x6020 s e) = true) (h : Foot f m n) :
    Foot f m (bankEntry n k) := by
  have hdrop {j : Mod} {c : Nat} {l : List Desc} (hc' : c < 256) (hj : Foot f m j) : Foot f m (Machine.countDiscards j c l) := .countDiscards he hc hc' hj
  unfold Machine.bankEntry
  split
  · exact h
  · next p d rest _ =>
    extract_lets _ k0 b inner d0 y
    have h0 : Foot f m k0 := .setArb (ha _) h
    refine .ite (hdrop (by decide) h0) (.ite (hdrop (by decide) (.bump he (fun _ => hl _ rfl) h0)) (.ite (.ite (.toPacker he (hx _) hc h0)
      (.toLanes (ha _) (.bump he (fun _ => hl _ rfl) h0))) (.ite (hdrop (by decide) (.bump he (fun _ => hl _ rfl) h0))
      (.ite (hdrop (by decide) (.bump he (fun _ => hl _ rfl) h0)) ?_))))
    have hpn : Foot f m (Machine.assignPn k0 b).2 := .assignPn he (hs _) h0
    split
    next pn m1 hr =>
    rw [hr] at hpn
    extract_lets m2 t iv aad serial m3
    have h2 : Foot f m m2 := .bump he (fun _ => hl _ rfl) (.bump he (fun _ => hl _ rfl) hpn)
    have h3 : Foot f m m3 := .txBlocks (hb _) (h2.withSerials hn)
    exact .ite (.toPacker he (hx _) hc h3) (.toLanes (ha _) h3)

/-! ### Gelix frames sent -/

theorem goNoKey {spent : Bool} (he : f .ev = true) (hx : f (.tx p) = true) (hc : ∀ s e, f (.obj 0x6020 s e) = true) (h : Foot f m n) :
    Foot f m (goNoKey n p spent) :=
  have hset : Foot f m (Machine.setTx n p { txOf n p with noKey := true, told := true, cur := [], curDesc := none, waiting := [], inUse := none }) := .setTx hx h
  .countDiscards he hc (by split <;> decide) (.ite hset (.raise he hset))

theorem atMfas255 (he : f .ev = true) (ha : f (.assoc a) = true) (h : Foot f m n) : Foot f m (atMfas255 n p a) := by
  unfold Machine.atMfas255
  extract_lets x dec m1
  have hdec (j : Mod) (hj : Foot f m j) : Foot f m (dec j) :=
    have hset (y : Assoc) : Foot f m (Machine.setAssoc j a y) := .setAssoc ha hj
    .ite (hset _) (.ite (.raise he (hset _)) (hset _))
  have h1 : Foot f m m1 := .setAssoc ha h
  exact .ite (.ite (hdec _ h1) h1) (.ite (hdec _ h) h)

theorem loadMch (hx : f (.tx p) = true) (hi : f .icept = true) (h : Foot f m n) : Foot f m (loadMch n p) := by
  unfold Machine.loadMch
  dsimp only
  split
  · exact .ite (.setTx hx (.setIntercept hi h)) h
  · exact h

theorem emitGelix {o : Outer} {ksp : Bool} (ht : Covers f timePasses) (hi : f .icept = true) (hn : f .serials = true) (h : Foot f m n) :
    Foot f m (emitGelix n p o ksp) := by
  have hx (i : Nat) : f (.tx i) = true := ht _ rfl
  unfold Machine.emitGelix
  extract_lets k0
  have hload : Foot f m k0 := .loadMch (hx _) hi h
  clear_value k0
  split
  exact .leavePort ht (.frameBlocks (ht _ rfl) ((Foot.setTx (hx _) hload).withSerials hn))

theorem atMfas0 (he : f .ev = true) (ha : f (.assoc a) = true) (hc : ∀ e, f (.obj 0x4040 1 e) = true) (h : Foot f m n) : Foot f m (atMfas0 n a) :=
  .ite (.flip he ha hc h) (.ite (.setAssoc ha h) h)

/-- What the sending of a Gelix frame changes besides time (R340 to R365). -/
structure Sends (f : Part → Bool) : Prop where
  time : Covers f timePasses
  icept : f .icept = true := by rfl
  serials : f .serials = true := by rfl
  drawn : f .drawn = true := by rfl
  arb : ∀ i, f (.arb i) = true := by intro _; rfl
  assoc : ∀ i, f (.assoc i) = true := by intro _; rfl
  notice : ∀ e, f (.obj 0x4040 1 e) = true := by intro _; rfl
  frames : ∀ e, f (.obj 0x4020 1 e) = true := by intro _; rfl
  octets : ∀ e, f (.obj 0x4020 2 e) = true := by intro _; rfl
  discards : ∀ s e, f (.obj 0x6020 s e) = true := by intro _ _; rfl

theorem gelixSend (hf : Sends f) (h : Foot f m n) : Foot f m (gelixSend n p) := by
  have he : f .ev = true := hf.time _ rfl
  have hx (i : Nat) : f (.tx i) = true := hf.time _ rfl
  have hemit {j : Mod} {o : Outer} {ksp : Bool} (hj : Foot f m j) : Foot f m (Machine.emitGelix j p o ksp) := .emitGelix hf.time hf.icept hf.serials hj
  unfold Machine.gelixSend
  extract_lets mA due _ m0 hb rested mB ao m1 t
  have h0 : Foot f m m0 := .setTx (hx _) (.advanceTo hf.time h)
  have hB : Foot f m mB := .ite (.setTx (hx _) (h0.withDrawn hf.drawn)) h0
  have h1 : Foot f m m1 := by
    cases hao : ao with
    | none =>
      have hsame : m1 = mB := by simp only [m1, hao]
      rw [hsame]
      exact hB
    | some a =>
      have hstart : m1 = if (txOf mB p).mfas = 0 then Machine.atMfas0 mB a else mB := by simp only [m1, hao]
      rw [hstart]
      exact .ite (.atMfas0 he (hf.assoc _) hf.notice hB) hB
  clear_value m1 ao
  refine .ite h ?_
  split
  · next a =>
    refine .ite ?_ ?_
    · have hpn : Foot f m (Machine.assignPn m1 a).2 := .assignPn he (hf.assoc _) h1
      split
      next pn m2 hr =>
      rw [hr] at hpn
      extract_lets x y k m3 m4 m5 m6 key iv plain m7
      have h4 : Foot f m m4 := .countDiscards he hf.discards (by decide) (.setTx (hx _) hpn)
      have h5 : Foot f m m5 := h4.foldl fun _ _ hk => .toLanes (hf.arb _) hk
      have h7 : Foot f m m7 := hemit (.bump he hf.octets (.bump he hf.frames h5))
      exact .ite (.atMfas255 he (hf.assoc _) h7) h7
    · have h3 (sp : Bool) : Foot f m (Machine.emitGelix (Machine.goNoKey (Machine.dropNotice m1 a) p sp) p (noKeyOuter t) false) :=
        hemit (.goNoKey he (hx _) hf.discards (.dropNotice (hf.assoc _) h1))
      exact .ite (.atMfas255 he (hf.assoc _) (h3 _)) (h3 _)
  · exact hemit (.goNoKey he (hx _) hf.discards h1)

/-! ### Frames on the lanes -/

theorem egressComplete {x : Int} (ht : Covers f timePasses) (ha : f (.arb p) = true) (ho : f .onceAt = true) (h3 : ∀ e, f (.obj 0x6010 3 e) = true)
    (hA : ∀ e, f (.obj 0x7030 0xA e) = true) (h : Foot f m n) : Foot f m (egressComplete n p x) := by
  have he : f .ev = true := ht _ rfl
  unfold Machine.egressComplete
  split
  · exact h
  · next d rest _ =>
    extract_lets k0 _ m1 ok m2
    have h1 : Foot f m m1 := .bump he h3 (.setArb ha (.advanceTo ht h))
    have h2 : Foot f m m2 := by
      show Foot f m (match d.line with
        | some x => Machine.emit m1 (.lineFrame p { x with body := { x.body with intact := x.body.intact && ok } })
        | none => if isLine p then m1 else Machine.emit m1 (.clearFrame p (d.bytes ++ fcsOf d.bytes)))
      split
      · exact .emit (ht _ rfl) h1
      · exact .ite h1 (.emit (ht _ rfl) h1)
    exact .ite (.raiseOnce he ho (.bump he hA h2)) h2

end Foot

end Sys2Proof.Machine
end

