-- ==== Sys2Proof/Proofs/FrameModule.lean ====
section
/-! PROOFS. What stowage, berths, snapshots and firmware leave alone (R640 to R720, R830 to R843, R934 to R950). -/

namespace Sys2Proof.Machine

variable {f : Part → Bool} {m n : Mod} {s t : State} {k : Nat}

namespace Foot

/-! ### Stowage -/

theorem portState {st c : Nat} (he : f .ev = true) (hs : f (.stow k) = true) (h : Foot f m n) : Foot f m (portState n k st c) := .raise he (.setStow hs h)

theorem endLosses {a b : Nat} {q : LostRec → Bool} (hs : f (.stow k) = true) (h : Foot f m n) : Foot f m (endLosses n k a b q) :=
  h.foldl fun _ _ hk => .ite (.setStow hs hk) (.setStow hs hk)

theorem fullWrite {l c : Nat} {x : Mod} (hs : f (.stow k) = true) (h : Foot f m n) (hx : fullWrite n k l c = some x) : Foot f m x := by
  unfold Machine.fullWrite at hx
  split at hx
  · cases hx
  · cases hx
    exact .endLosses hs h

theorem clearArchive {a b : Nat} (hs : f .snap = true) (h : Foot f m n) : Foot f m (clearArchive n k a b) := by
  unfold Machine.clearArchive
  split
  · exact h
  · exact h.withSnap hs

theorem loseHistory {a b : Nat} (hp : ∀ i, f (.pm i) = true) (h : Foot f m n) : Foot f m (loseHistory n k a b) := h.foldl fun _ _ hk => hk.setPm (hp _)

theorem invalidateStaged (he : f .ev = true) (hw : f .fw = true) (h : Foot f m n) : Foot f m (invalidateStaged n k) := .ite (.raise he (h.withFw hw)) h

/-- What the loss of stowage contents changes besides the stowage itself: the history of the seconds, the archive of a snapshot, staged firmware. -/
structure Clears (f : Part → Bool) : Prop where
  ev : f .ev = true := by rfl
  fw : f .fw = true := by rfl
  snap : f .snap = true := by rfl
  pm : ∀ i, f (.pm i) = true := by intro _; rfl

theorem clearContents {a b : Nat} (hf : Clears f) (h : Foot f m n) : Foot f m (clearContents n k a b) :=
  have hgone : Foot f m (Machine.clearArchive (Machine.loseHistory n k a (b - a)) k a b) := .clearArchive hf.snap (.loseHistory hf.pm h)
  .ite (.invalidateStaged hf.ev hf.fw hgone) hgone

theorem restartSpans {op : Nat} {l : List (Nat × Nat)} (hf : Clears f) (hs : f (.stow k) = true) (h : Foot f m n) :
    Foot f m (restartSpans n k op l).1 := by
  unfold Machine.restartSpans
  dsimp only
  split
  · exact .raise hf.ev h
  · exact (h.setStow hs).foldl fun _ _ hk => .clearContents hf (.endLosses hs hk)

theorem releaseFree {l : List LossPart} (hf : Clears f) (hs : f (.stow k) = true) (h : Foot f m n) : Foot f m (releaseFree n k l) :=
  .ite h (.restartSpans hf hs h)

theorem linkReady {l r c b : Nat} {three : Bool} (he : f .ev = true) (hd : f .drawn = true) (hs : f (.stow k) = true) (h : Foot f m n) :
    Foot f m (linkReady n k l r c b three) := by
  have hstate {j : Mod} {st c : Nat} (hj : Foot f m j) : Foot f m (Machine.portState j k st c) := .portState he hs hj
  exact .ite h (.ite (hstate h) (.ite (hstate h) (.ite (hstate (.setStow hs h)) (.ite (hstate (.setStow hs h))
    (hstate (.setStow hs ((Foot.setStow hs h).withDrawn hd)))))))

theorem linkReturn (hf : Clears f) (hs : f (.stow k) = true) (h : Foot f m n) : Foot f m (linkReturn n k) := by
  have hback := h.restartSpans (k := k) (op := 2) (l := [(0, levelLines (inf n 0x8000 2 k) 1)]) hf hs
  unfold Machine.linkReturn
  refine .ite h ?_
  generalize Machine.restartSpans n k 2 [(0, levelLines (inf n 0x8000 2 k) 1)] = r at hback
  obtain ⟨m1, ok⟩ := r
  exact .ite (.setStow hs (.portState hf.ev hs hback)) hback

end Foot

namespace Frame

theorem afterLoss {x : LossPart} {c : Nat} (hf : Covers f responds) (hc : Foot.Clears f) (h : Frame f s t) : Frame f s (afterLoss t k x c) := by
  unfold Machine.afterLoss
  dsimp only
  split
  · exact .ite (.sourceEvent hf h) h
  · exact h.upd (.loseHistory hc.pm h.mod)
  · exact h.upd (.invalidateStaged hc.ev hc.fw h.mod)
  · exact h

theorem losePart {x : LossPart} {c : Nat} {ev : Bool} (hf : Covers f responds) (hc : Foot.Clears f) (h : Frame f s t) :
    Frame f s (losePart k c ev t x) := by
  have hlost (y : Stow) : Foot f s.mod (setStow t.mod k y) := .setStow (hf _ rfl) h.mod
  exact .afterLoss hf hc (h.upd (.ite (.raise hc.ev (hlost _)) (hlost _)))

theorem loseLines {l : List LossPart} {c : Nat} {ev : Bool} (hf : Covers f responds) (hc : Foot.Clears f) (h : Frame f s t) :
    Frame f s (loseLines t k l c ev) :=
  have hlost : Frame f s (l.foldl (Machine.losePart k c ev) t) := h.foldl fun _ _ hu => .losePart hf hc hu
  hlost.upd (.releaseFree hc (hf _ rfl) hlost.mod)

theorem linkDown (hf : Covers f responds) (hc : Foot.Clears f) (h : Frame f s t) : Frame f s (linkDown t k) :=
  .ite h (.loseLines hf hc (h.upd (.portState hc.ev (hf _ rfl) h.mod)))

/-- What an access to stowage changes besides the responses and the lost contents (R655 to R669). -/
structure Accesses (f : Part → Bool) : Prop extends Foot.Clears f where
  responds : Covers f responds
  onceAt : f .onceAt = true := by rfl
  corrected : ∀ e, f (.obj 0x8000 8 e) = true := by intro _; rfl
  lost : ∀ e, f (.obj 0x8000 9 e) = true := by intro _; rfl
  violations : ∀ e, f (.obj 0x8000 0xA e) = true := by intro _; rfl
  refused : ∀ e, f (.obj 0x8000 0xB e) = true := by intro _; rfl

variable (hf : Accesses f)
include hf

theorem violation {r l c : Nat} (h : Frame f s t) : Frame f s (violation t k r l c) := by
  unfold Machine.violation
  extract_lets m1
  have h1 : Foot f s.mod m1 := .bump hf.ev hf.violations h.mod
  clear_value m1
  exact .sourceEvent hf.responds (h.upd h1)

theorem lines {l : List LossPart} {c : Nat} {ev : Bool} (h : Frame f s t) : Frame f s (Machine.loseLines t k l c ev) :=
  .loseLines hf.responds hf.toClears h

theorem counterLoss {l : Nat} {d : DeviceResult} {u : State} (h : Frame f s t) (hu : counterLoss t k l d = some u) : Frame f s u := by
  unfold Machine.counterLoss at hu
  dsimp only at hu
  split at hu
  · split at hu
    · cases hu
      exact .lines hf (h.upd (.bump hf.ev hf.lost h.mod))
    · cases hu
  · split at hu
    · cases hu
      exact (Frame.lines hf h).foldl fun _ _ hv => .violation hf hv
    · cases hu
  · cases hu

theorem loseOne {r l : Nat} (h : Frame f s t) : Frame f s (loseOne t k r l) := .lines hf (h.upd (.bump hf.ev hf.lost h.mod))

theorem mergeFails {r l : Nat} (h : Frame f s t) : Frame f s (mergeFails t k r l) := by
  unfold Machine.mergeFails
  exact .violation hf (.lines hf (h.upd (.setStow (hf.responds _ rfl) h.mod)))

theorem carriedOut {l : Nat} {c : Bool} {d : Octets} (h : Frame f s t) : Frame f s (carriedOut t k l c d).1 :=
  h.upd (.setStow (hf.responds _ rfl) (.ite (.bump hf.ev hf.corrected h.mod) h.mod))

theorem mergeLine {r l a : Nat} {d : Octets} {x : DeviceResult} (h : Frame f s t) : Frame f s (mergeLine t k r l a d x).1 := by
  have hdone {c : Bool} {d : Octets} {lost : Bool} : Frame f s (if lost then (t, none) else Machine.carriedOut t k l c d).1 := by
    split
    · exact h
    · exact .carriedOut hf h
  unfold Machine.mergeLine
  dsimp only
  split
  · exact hdone
  · split
    · split
      · exact hdone
      · exact .pair (.loseOne hf h)
      · exact .pair (.mergeFails hf h)
    · exact .pair (.lines hf h)
    · exact hdone

theorem readLine {r l : Nat} {x : DeviceResult} (h : Frame f s t) : Frame f s (readLine t k r l x).1 := by
  unfold Machine.readLine
  dsimp only
  split
  · exact h
  split
  · exact h
  split
  · split
    · exact h.upd (.bump hf.ev hf.corrected h.mod)
    · exact h
    · exact .pair (.loseOne hf h)
    · exact .pair (.violation hf (.lines hf h))
  · exact .pair (.loseOne hf h)
  · exact h

theorem serveAccess {r l : Nat} {a : AccessKind} {x : DeviceResult} (h : Frame f s t) : Frame f s (serveAccess t k r l a x).1 := by
  unfold Machine.serveAccess
  split
  · next u hu => exact .counterLoss hf h hu
  · cases a with
    | read => exact .readLine hf h
    | partialWrite at_ data => exact .mergeLine hf h
    | write data =>
      dsimp only
      split
      · next m1 hm => exact .carriedOut hf (h.upd (.fullWrite (hf.responds _ rfl) h.mod hm))
      · exact h

theorem accessed {i l : Nat} {a : AccessKind} {x : DeviceResult} (h : Frame f s t) : Frame f s (accessed t k i l a x).1 := by
  unfold Machine.accessed
  dsimp only
  split
  · exact .serveAccess hf h
  · exact h.upd (.refuseAccess hf.ev hf.onceAt hf.refused h.mod)

theorem stowageAccess {i l : Nat} {a : AccessKind} {x : DeviceResult} (ho : f .out = true) (h : Frame f s t) :
    Frame f s (stowageAccess t k i l a x) := by
  have hrefused (r : Option Nat) : Frame f s (t.upd (Machine.refuseAccess t.mod k i r 1)) := h.upd (.refuseAccess hf.ev hf.onceAt hf.refused h.mod)
  have hdone := h.accessed (k := k) (i := i) (l := l) (a := a) (x := x) hf
  have hany (c d : Prop) [Decidable c] [Decidable d] :
      Frame f s (if c then Machine.accessed t k i l a x else if d then (t.upd (Machine.refuseAccess t.mod k i (regionOf t.mod k l) 1), none) else (t, none)).1 := by
    split
    · exact hdone
    split
    · exact hrefused _
    · exact h
  exact .ite h ((hany _ _).upd (.emit ho (hany _ _).mod))

omit hf

end Frame

/-! ### Berths -/

/-- A value depends on the entries of its own index alone. -/
theorem look_of_index {i j e : Nat} (hj : j < 256)
    (h : ∀ s' e', s' < 256 → tfind (store n i s') (okey i s' e') = tfind (store m i s') (okey i s' e')) : look n [] i j e = look m [] i j e := by
  unfold look
  dsimp only
  rw [h j e hj]
  split
  · rfl
  split
  · rfl
  · split
    · next hi =>
      obtain ⟨rfl, -⟩ := hi
      rw [h 1 e (by decide), h 2 e (by decide)]
    · split
      · next hi =>
        obtain ⟨rfl, -⟩ := hi
        rw [h 1 e (by decide), h 5 e (by decide)]
      · rfl

theorem tfind_dels {i idx s' e e' : Nat} {subs : List Nat} (hi : i ≠ idx) (hs : s' < 256) (hl : ∀ x ∈ subs, x < 256) (t : Tbl Val) :
    tfind (subs.foldl (fun t x => tdel t (okey idx x e)) t) (okey i s' e') = tfind t (okey i s' e') := by
  induction subs generalizing t with
  | nil => rfl
  | cons x l ih =>
    rw [List.foldl_cons, ih fun y hy => hl y (List.mem_cons_of_mem x hy)]
    exact tfind_tdel_ne _ (okey_ne e' e hs (hl x List.mem_cons_self) fun h => hi h.1)

namespace Foot

theorem defaultElem {idx e : Nat} {subs : List Nat} (hf : ∀ s e, f (.obj idx s e) = true) (h : Foot f m n) (hl : ∀ x ∈ subs, x < 256 := by decide) :
    Foot f m (defaultElem n idx subs e) := h.next fun p hp => by
  have hsame := Part.same_refl p { mod := n }
  cases p with
  | obj i s e' =>
    intro hs
    have hi : i ≠ idx := by rintro rfl; exact free_kept (hf s e') hp
    refine look_of_index hs fun s' e'' hs' => ?_
    unfold store
    split
    · rfl
    · exact tfind_dels hi hs' hl _
  | _ => exact hsame

theorem watchBank {i : Nat} (he : f .ev = true) (hc : f (.cls k) = true) (h : Foot f m n) : Foot f m (watchBank n k i) :=
  .ite (.raise he (.setCls hc h)) (.ite (.setCls hc h) h)

theorem watchBanks (he : f .ev = true) (hc : f (.cls k) = true) (h : Foot f m n) : Foot f m (watchBanks n k) :=
  h.foldl fun _ _ hk => hk.watchBank he hc

/-- What the release of a berth's resources changes (R697 to R703). -/
structure Frees (f : Part → Bool) : Prop where
  ev : f .ev = true := by rfl
  sys : f .sys = true := by rfl
  assoc : ∀ i, f (.assoc i) = true := by intro _; rfl
  cls : ∀ i, f (.cls i) = true := by intro _; rfl
  node : ∀ i, f (.node i) = true := by intro _; rfl
  queue : ∀ i, f (.queue i) = true := by intro _; rfl
  assocs : ∀ s e, f (.obj 0x4000 s e) = true := by intro _ _; rfl
  switches : ∀ s e, f (.obj 0x4040 s e) = true := by intro _ _; rfl
  policies : ∀ s e, f (.obj 0x5000 s e) = true := by intro _ _; rfl
  tables : ∀ s e, f (.obj 0x5100 s e) = true := by intro _ _; rfl
  queues : ∀ s e, f (.obj 0x6000 s e) = true := by intro _ _; rfl
  nodes : ∀ s e, f (.obj 0x6200 s e) = true := by intro _ _; rfl

theorem releaseAll (hf : Frees f) (h : Foot f m n) : Foot f m (releaseAll n k) := by
  unfold Machine.releaseAll
  extract_lets qs as ts es m1 _ m2 m3 m4 m5
  have h1 : Foot f m m1 := h.foldl fun _ _ hk => .setQueue (hf.queue _) (.defaultElem hf.queues hk)
  have h2 : Foot f m m2 := h1.foldl fun _ _ hk => .defaultElem hf.switches (.defaultElem hf.assocs (.setAssoc (hf.assoc _) hk))
  have h3 : Foot f m m3 := h2.foldl fun _ _ hk => .defaultElem hf.tables (.watchBanks hf.ev (hf.cls _) (.setCls (hf.cls _) hk))
  have h4 : Foot f m m4 := h3.foldl fun _ _ hk => .defaultElem hf.policies hk
  have h5 : Foot f m m5 := h4.foldl fun _ _ hk => .setNode (hf.node _) (.defaultElem hf.nodes hk)
  exact h5.withSys hf.sys

theorem finishReset (he : f .ev = true) (hb : f (.berth k) = true) (h : Foot f m n) : Foot f m (finishReset n k) := .raise he (.setBerth hb h)

theorem releaseComplete (hf : Frees f) (hb : f (.berth k) = true) (h : Foot f m n) : Foot f m (releaseComplete n k) :=
  .ite (.finishReset hf.ev hb (.releaseAll hf h)) h

theorem resetComplete (he : f .ev = true) (hb : f (.berth k) = true) (h : Foot f m n) : Foot f m (resetComplete n k) := .ite (.finishReset he hb h) h

theorem eraseKek (hk : f (.kek k) = true) (h : Foot f m n) : Foot f m (eraseKek n k) := .setKek hk h

theorem endTenant {b : Nat} (hs : ∀ i, f (.session i) = true) (hg : EndsGrants f) (hi : f .icept = true) (h : Foot f m n) : Foot f m (endTenant n k b) :=
  (h.endSessions hs hg).withIcept hi

theorem eraseBerthKeys (hk : f (.kek k) = true) (ha : ∀ i, f (.assoc i) = true) (hc : ∀ e, f (.obj 0x4040 1 e) = true) (h : Foot f m n) :
    Foot f m (eraseBerthKeys n k).1 := (h.eraseKek hk).foldl fun _ _ hj => .setNat hc (.setAssoc (ha _) hj)

theorem foldlPair {α β : Type} {g : Mod × β → α → Mod × β} {l : List α} {x : Mod × β} (h : Foot f m x.1)
    (hg : ∀ y a, Foot f m y.1 → Foot f m (g y a).1) : Foot f m (l.foldl g x).1 := by
  induction l generalizing x with
  | nil => exact h
  | cons a r ih => exact ih (hg x a h)

theorem dropHeld (hc : ∀ i, f (.cls i) = true) (h : Foot f m n) : Foot f m (dropHeld n k).1 :=
  foldlPair h fun _ _ hy => .setCls (hc _) hy

theorem resetEdge (ht : Covers f timePasses) (hd : Covers f discards) (hb : f (.berth k) = true) (hk : f (.kek k) = true)
    (hs : ∀ i, f (.session i) = true) (hg : EndsGrants f) (hi : f .icept = true) (ha : ∀ i, f (.assoc i) = true) (hc : ∀ i, f (.cls i) = true)
    (hn : ∀ e, f (.obj 0x4040 1 e) = true) (h : Foot f m n) : Foot f m (resetEdge n k) := by
  have he : f .ev = true := ht _ rfl
  unfold Machine.resetEdge
  split
  · exact h
  · extract_lets m0 x old bpid gens m1 m2
    have h2 : Foot f m m2 := .endTenant hs hg hi (.raise he (.raise he (.advanceTo ht h)))
    have hkeys : Foot f m (Machine.eraseBerthKeys m2 k).1 := .eraseBerthKeys hk ha hn h2
    generalize Machine.eraseBerthKeys m2 k = r at hkeys
    obtain ⟨m3, slots⟩ := r
    have hheld : Foot f m (Machine.dropHeld m3 k).1 := .dropHeld hc hkeys
    dsimp only
    generalize Machine.dropHeld m3 k = r at hheld
    obtain ⟨m4, held⟩ := r
    exact .setBerth hb (.discardFrames he hd (.setBerth hb hheld))

end Foot

end Sys2Proof.Machine
end

