-- ==== Sys2Proof/Proofs/FrameCommit.lean ====
section
/-! PROOFS. What the coming into force of a pending set leaves alone (R49, R490, R778 to R782). -/

namespace Sys2Proof.Machine

variable {m n : Mod} {s t : State} {p q k : Nat}

/-- What a COMMIT may change, apart from what answers it. -/
def commits : Part → Bool
  | .otp | .flash | .clock | .runtime | .drawn | .serials | .slots | .tts | .pending | .berth _ | .kek _ | .filter _ | .bank _ | .entropy _ | .cls _ => false
  | .source i => i == 6
  | _ => true

/-- What the parts of a COMMIT use: the moves of ports and lanes, and what ends with them. -/
structure Commits (f : Part → Bool) : Prop where
  ports : Covers f portMoves
  lanes : Covers f laneCounts
  hunts : ∀ p, Foot.Hunts f p
  grants : Foot.EndsGrants f
  syncs : Foot.Syncs f
  clears : Foot.Clears f

variable {f : Part → Bool} (hf : Covers f commits)
include hf

theorem Covers.committed : Commits f where
  ports := covers_portMoves (fun p hp => hf p (by
    cases p with
    | queue | arb | tx | obj => rfl
    | _ => cases hp)) (fun _ => hf _ rfl) (fun _ => hf _ rfl) (hf _ rfl) fun _ => hf _ rfl
  lanes := covers_laneCounts fun _ => ⟨hf _ rfl, hf _ rfl, hf _ rfl, hf _ rfl⟩
  hunts _ := ⟨hf _ rfl, hf _ rfl, hf _ rfl, hf _ rfl, fun _ => hf _ rfl, fun _ => hf _ rfl⟩
  grants := ⟨hf _ rfl, hf _ rfl, fun _ => hf _ rfl, fun _ => hf _ rfl⟩
  syncs := ⟨hf _ rfl, hf _ rfl, fun _ => hf _ rfl⟩
  clears := ⟨hf _ rfl, hf _ rfl, hf _ rfl, fun _ => hf _ rfl⟩

namespace Foot

/-! ### Values -/

omit hf in
/-- The object table, rewritten. -/
theorem withObj {x : Tbl Val} (h : Foot f m n) (ho : ∀ i s e, f (.obj i s e) = true) : Foot f m { n with obj := x } := h.next fun p hp => by
  have hsame := Part.same_refl p { mod := n }
  cases p with
  | obj i s e => exact free_kept (ho i s e) hp
  | _ => exact hsame

theorem setValue {i j e : Nat} {v : Val} (h : Foot f m n) : Foot f m (Machine.setObj n i j e v) := h.withObj fun _ _ _ => hf _ rfl

theorem releaseIndex (h : Foot f m n) : Foot f m (releaseIndex n p) := h.next fun p hp => by
  have hsame := Part.same_refl p { mod := n }
  cases p with
  | obj i s e => exact free_kept (hf (.obj i s e) rfl) hp
  | port i => exact free_kept (hf (.port i) rfl) hp
  | rx i => exact free_kept (hf (.rx i) rfl) hp
  | tx i => exact free_kept (hf (.tx i) rfl) hp
  | pm i => exact free_kept (hf (.pm i) rfl) hp
  | gate i => exact free_kept (hf (.gate i) rfl) hp
  | icept => exact free_kept (hf .icept rfl) hp
  | _ => exact hsame

theorem relayout {x : Tbl Val} (h : Foot f m n) : Foot f m (relayout n x) := h.foldl fun k e hk => by
  split
  · exact .releaseIndex hf hk
  · exact .setValue hf hk
  · exact hk

theorem applyValues {x : Tbl Val} (h : Foot f m n) : Foot f m (applyValues n x) :=
  h.foldl fun _ _ hk => .ite (hk.withVault ⟨hf _ rfl, fun _ _ => hf _ rfl⟩) (.setValue hf hk)

/-! ### Ports -/

theorem laneEnable (h : Foot f m n) : Foot f m (laneEnable n k) :=
  .ite (.lanePowerUp (hf _ rfl) (hf _ rfl) h)
    (.setLane (hf _ rfl) (.setNat (fun _ => hf _ rfl) (.countLane (hf _ rfl) (hf _ rfl) hf.committed.lanes h)))

theorem enablePort (h : Foot f m n) : Foot f m (enablePort n p) := by
  unfold Machine.enablePort
  extract_lets m1 x _ m2
  have h1 : Foot f m m1 := h.foldl fun _ _ hk => .laneEnable hf hk
  have h2 : Foot f m m2 := .setPm (hf _ rfl) (.setTx (hf _ rfl) (.setRx (hf _ rfl) (.setPort (hf _ rfl) h1)))
  exact .afterDefect (hf _ rfl) hf.committed.ports (.ite (.portUp (hf _ rfl) hf.committed.ports h2) h2)

theorem disablePort (h : Foot f m n) : Foot f m (disablePort n p k) := by
  have he : f .ev = true := hf _ rfl
  unfold Machine.disablePort
  extract_lets m1 m2 m3 m4 _ m5
  have h1 : Foot f m m1 := .signalFault (hf _ rfl) (hf _ rfl) (.forwardStop he hf.committed.ports (.portDown he hf.committed.ports h))
  have h2 : Foot f m m2 := h1.foldl fun _ _ hk => .setDefect he hf.committed.ports hk
  have h3 : Foot f m m3 := h2.foldl fun _ _ hk => .lanePowerDown he hf.committed.ports (hf _ rfl) hf.committed.lanes (hf _ rfl) hk
  have h4 : Foot f m m4 := .ite (.toHunt (hf.committed.hunts _) h3) h3
  have h5 : Foot f m m5 := .setPm (hf _ rfl) h4
  exact .refreshForward he hf.committed.ports (.setTx (hf _ rfl) (.setRx (hf _ rfl) (.setPort (hf _ rfl) h5)))

theorem endOverdue (h : Foot f m n) : Foot f m (endOverdue n p) :=
  .ite h (h.foldl fun _ _ hk => .endSecond (hf _ rfl) hf.committed.ports (hf _ rfl) (fun _ => hf _ rfl) hk)

/-- What the end of a switch request changes (R297, R298, R300, R322). -/
structure Switches (f : Part → Bool) (a : Nat) : Prop where
  ev : f .ev = true := by rfl
  assoc : f (.assoc a) = true := by rfl
  status : ∀ e, f (.obj 0x4040 1 e) = true := by intro _; rfl

omit hf in
theorem cancelSwitch {c : Nat} (hs : Switches f k) (h : Foot f m n) : Foot f m (cancelSwitch n k c) :=
  .ite h (.raise hs.ev (.setNat hs.status (.setAssoc hs.assoc h)))

theorem applyPorts {m0 : Mod} {x : Tbl Val} (h : Foot f m n) : Foot f m (applyPorts m0 n x) := by
  unfold Machine.applyPorts
  extract_lets ports lower upper m1
  have h1 : Foot f m m1 := by
    refine h.foldl fun k e hk => ?_
    extract_lets m'
    have hdown : Foot f m m' := .disablePort hf (.endOverdue hf hk)
    clear_value m'
    split
    · exact .cancelSwitch ⟨hf _ rfl, hf _ rfl, fun _ => hf _ rfl⟩ hdown
    · exact hdown
  exact h1.foldl fun _ _ hk => .enablePort hf (.endOverdue hf hk)

/-! ### Queues, nodes, gates and associations -/

theorem startQueue (h : Foot f m n) : Foot f m (startQueue n q) := .setQueue (hf _ rfl) h

theorem applyQueue {m0 : Mod} (h : Foot f m n) : Foot f m (applyQueue m0 n q) := by
  have hset {k : Mod} {x : Queue} (hk : Foot f m k) : Foot f m (Machine.setQueue k q x) := .setQueue (hf _ rfl) hk
  exact .ite h (.ite (hset h) (.ite (.startQueue hf h) (.retarget (hf _ rfl) (hf _ rfl) (hset (.refillQueue (hf _ rfl) h)))))

theorem applyNode {m0 : Mod} (h : Foot f m n) : Foot f m (applyNode m0 n k) := by
  have hset {j : Mod} {x : Node} (hj : Foot f m j) : Foot f m (Machine.setNode j k x) := .setNode (hf _ rfl) hj
  unfold Machine.applyNode
  extract_lets x r burst m1 y m2
  have h1 : Foot f m m1 := .refillNode (hf _ rfl) h
  have h2 : Foot f m m2 := .ite (hset h1) h1
  exact .ite (.ite (.ite (hset h) h) (.startNode (hf _ rfl) h)) (.ite (.ite (.startNode (hf _ rfl) h) (hset h)) (.ite h2 (.ite (hset h2) (hset h2))))

theorem commitBank (h : Foot f m n) : Foot f m (commitBank n p) :=
  .ite (.doSwap (hf _ rfl) (hf _ rfl) (.setGate (hf _ rfl) (.setGate (hf _ rfl) h))) (.setGate (hf _ rfl) h)

theorem refillTouched {x : Tbl Val} (h : Foot f m n) : Foot f m (refillTouched n x) :=
  Foot.foldl (h.foldl fun _ _ hk => .ite (.refillQueue (hf _ rfl) hk) hk) fun _ _ hk => .refillNode (hf _ rfl) hk

theorem applyAssoc {m0 : Mod} {c : Nat} (h : Foot f m n) : Foot f m (applyAssoc m0 c n k) := by
  unfold Machine.applyAssoc
  extract_lets was is_ x _ m1
  have h1 : Foot f m m1 := .ite h (.setAssoc (hf _ rfl) h)
  exact .ite h1 (.raise (hf _ rfl) h1)

theorem requestSwitch {r : Nat} (h : Foot f m n) : Foot f m (requestSwitch n k r) := by
  have hset (x : Assoc) : Foot f m (Machine.setAssoc n k x) := .setAssoc (hf _ rfl) h
  exact .ite (.cancelSwitch ⟨hf _ rfl, hf _ rfl, fun _ => hf _ rfl⟩ h)
    (.ite (.switchInForce (hf _ rfl) (hf _ rfl) (fun _ => hf _ rfl) (hset _)) (hset _))

theorem applyBerth {m0 : Mod} (h : Foot f m n) : Foot f m (applyBerth m0 n k) := .ite h (.raise (hf _ rfl) h)

/-! ### Time and the rest -/

theorem commitTrigger (h : Foot f m n) : Foot f m (commitTrigger n k) :=
  have hset (x : Trig) : Foot f m (Machine.setTrig n k x) := .setTrig (hf _ rfl) h
  .ite (hset _) (.emit (hf _ rfl) (hset _))

theorem selectReference (h : Foot f m n) : Foot f m (selectReference n) := by
  unfold Machine.selectReference
  extract_lets sel valid r st _ m1
  have h1 : Foot f m m1 := h.withSys (hf _ rfl)
  exact .ite h1 (.raise (hf _ rfl) h1)

theorem sourceCommitted (h : Foot f m n) : Foot f m (sourceCommitted n k) := by
  have hsync {j : Mod} {st : Nat} (hj : Foot f m j) : Foot f m (Machine.setSync j st) := .setSync hf.committed.syncs hj
  unfold Machine.sourceCommitted
  extract_lets tm m1
  have h1 : Foot f m m1 := .enterHoldover hf.committed.syncs (hf _ rfl) (h.withTime (hf _ rfl))
  exact .ite (.ite (hsync (h.withTime (hf _ rfl))) h) (.ite (hsync h1) (.ite (hsync h1) h1))

theorem applyTime {m0 : Mod} {x : Tbl Val} (h : Foot f m n) : Foot f m (applyTime m0 n x) := by
  unfold Machine.applyTime
  extract_lets m1 m2 sel m3
  have h1 : Foot f m m1 := h.foldl fun _ _ hk => .commitTrigger hf hk
  have h2 : Foot f m m2 := .ite (.sourceCommitted hf h1) h1
  have h3 : Foot f m m3 := .ite h2 (.selectReference hf h2)
  exact .ite h2 (.ite (.raise (hf _ rfl) h3) h3)

theorem regionEnabled {r : Nat} (h : Foot f m n) : Foot f m (regionEnabled n k r) := by
  have hback := h.restartSpans (k := k) (op := 0) (l := [regionGroups n k r]) hf.committed.clears (hf _ rfl)
  unfold Machine.regionEnabled
  generalize Machine.restartSpans n k 0 [regionGroups n k r] = x at hback
  obtain ⟨m1, ok⟩ := x
  exact .ite (.setStow (hf _ rfl) hback) hback

theorem loadPreset (h : Foot f m n) : Foot f m (loadPreset n k) := h.withMgmt (hf _ rfl)

theorem setOver {r : Nat} (h : Foot f m n) : Foot f m (setOver n k r) := .ite (.raise (hf _ rfl) (h.withOvers (hf _ rfl))) h

/-! ### Snapshots -/

/-- What the draining of a snapshot changes (R836, R837). -/
structure Drains (f : Part → Bool) : Prop where
  ev : f .ev = true := by rfl
  snap : f .snap = true := by rfl
  onceAt : f .onceAt = true := by rfl
  refused : ∀ e, f (.obj 0x8000 0xB e) = true := by intro _; rfl

omit hf in
theorem settleSnap (hs : f .snap = true) (h : Foot f m n) : Foot f m (settleSnap n) := .ite (h.withSnap hs) h

omit hf in
theorem drainBasin (hf : Drains f) (h : Foot f m n) : Foot f m (drainBasin n k) := by
  have hdrained {y : Snap} {i mst c : Nat} {r : Option Nat} : Foot f m (Machine.refuseAccess { n with snap := y } i mst r c) :=
    .refuseAccess hf.ev hf.onceAt hf.refused (h.withSnap hf.snap)
  exact .ite h (.ite (.raise hf.ev hdrained) hdrained)

omit hf in
theorem drainAll (hd : Drains f) (h : Foot f m n) : Foot f m (drainAll n) := .settleSnap hd.snap (h.foldl fun _ _ hk => .drainBasin hd hk)

theorem snapRequest {r : Nat} (h : Foot f m n) : Foot f m (snapRequest n r) := by
  unfold Machine.snapRequest
  extract_lets x m1
  have h1 : Foot f m m1 := .setValue hf h
  refine .ite ?_ (.ite (.raise (hf _ rfl) (h1.withSnap (hf _ rfl))) h1)
  split
  · exact h.withSnap (hf _ rfl)
  · exact h

/-! ### The whole set -/

theorem applyRest {m0 : Mod} {x : Tbl Val} (h : Foot f m n) : Foot f m (applyRest m0 n x) := by
  have he : f .ev = true := hf _ rfl
  have hq (i : Nat) : f (.queue i) = true := hf _ rfl
  unfold Machine.applyRest
  extract_lets m1 m2 m3 m4 m5 m6 m7 m8 _ m9
  have h1 : Foot f m m1 := h.foldl fun _ _ hk => .loadPreset hf hk
  have h2 : Foot f m m2 := h1.foldl fun _ _ hk => .setDefect he hf.committed.ports hk
  have h3 : Foot f m m3 := h2.foldl fun _ _ hk => .setPm (hf _ rfl) hk
  have h4 : Foot f m m4 := h3.foldl fun _ _ hk => .ite (.refreshPort he hf.committed.ports (.forwardStop he hf.committed.ports hk)) hk
  have h5 : Foot f m m5 := h4.foldl fun _ _ hk => .engageFallback he hq (fun _ => hf _ rfl) (fun _ => hf _ rfl) hk
  have h6 : Foot f m m6 := h5.foldl fun _ _ hk => hk.foldl fun _ _ hj => .regionEnabled hf hj
  have h7 : Foot f m m7 := h6.foldl fun _ _ hk => hk.foldl fun _ _ hj => .setOver hf (.setOver hf hj)
  have h8 : Foot f m m8 := .ite (h7.foldl fun _ _ hk => .throttleBasin he hq hk) h7
  have h9 : Foot f m m9 := .ite (.setAlarm (hf _ rfl) (h8.withTether (hf _ rfl))) h8
  exact .ite (.snapRequest hf (.drainAll ⟨he, hf _ rfl, hf _ rfl, fun _ => hf _ rfl⟩ h9)) h9

omit hf in
theorem closeEnrolment (hs : ∀ i, f (.session i) = true) (hg : EndsGrants f) (h : Foot f m n) : Foot f m (closeEnrolment n) :=
  .ite (.endSessions hs hg h) h

theorem commitApply {c : Nat} {x : Tbl Val} (h : Foot f m n) : Foot f m (commitApply n c x) := by
  unfold Machine.commitApply
  extract_lets m0 m1 m2 m3 m4 m5 m6 m7 m8
  have h1 : Foot f m m1 := .applyPorts hf (.applyValues hf (.relayout hf (.refillTouched hf h)))
  have h2 : Foot f m m2 := h1.foldl fun _ _ hk => .applyAssoc hf hk
  have h3 : Foot f m m3 := h2.foldl fun _ _ hk => .commitBank hf hk
  have h4 : Foot f m m4 := h3.foldl fun _ _ hk => .applyQueue hf hk
  have h5 : Foot f m m5 := h4.foldl fun _ _ hk => .applyNode hf hk
  have h6 : Foot f m m6 := h5.foldl fun _ _ hk => .requestSwitch hf hk
  have h7 : Foot f m m7 := h6.foldl fun _ _ hk => .applyBerth hf hk
  have h8 : Foot f m m8 := .closeEnrolment (fun _ => hf _ rfl) hf.committed.grants (.applyRest hf (.applyTime hf h7))
  exact h8.withSys (hf _ rfl)

end Foot

theorem Frame.commitAct {dry : Bool} {i : Nat} (h : Frame f s t) : Frame f s (commitAct dry t i).1 := by
  unfold Machine.commitAct
  dsimp only
  split
  · exact .ite (h.upd (.raise (hf _ rfl) h.mod)) h
  · split
    · exact h
    · exact h.upd (.commitApply hf (.setSess (hf _ rfl) h.mod))

omit hf

/-- A trial run of a COMMIT changes nothing itself. -/
theorem Frame.commitDry {i : Nat} (h : Frame f s t) : Frame f s (Machine.commitAct true t i).1 := by
  unfold Machine.commitAct
  dsimp only
  split
  · rw [Bool.not_true, Bool.and_false]
    exact h
  · exact h

end Sys2Proof.Machine
end

