-- ==== Sys2Proof/Proofs/FrameTether.lean ====
section
/-! PROOFS. What snapshots, firmware, the journal, the tether and the supply leave alone (R830 to R900, R934 to R990). -/

namespace Sys2Proof.Machine

variable {f : Part → Bool} {m n : Mod} {s t : State} {k : Nat}

namespace Foot

/-! ### Snapshots -/

theorem snapCapture (hf : Captures f) (ht : Covers f timePasses) (h : Foot f m n) : Foot f m (snapCapture n k) :=
  .ite (.captureNow hf (.advanceToNet ht h)) h

theorem snapComplete (hf : Drains f) (ht : Covers f timePasses) (h : Foot f m n) : Foot f m (snapComplete n) := by
  unfold Machine.snapComplete
  extract_lets x end_ m1
  have h1 : Foot f m m1 := (h.advanceTo ht).foldl fun _ _ hk => .drainBasin hf hk
  clear_value m1
  exact .ite h (.ite (.settleSnap hf.snap (.raise hf.ev (h1.withSnap hf.snap))) h1)

/-! ### Time that ends something -/

theorem pulseEnd (ht : Covers f timePasses) (h : Foot f m n) : Foot f m (pulseEnd n k) := .ite ((h.advanceTo ht).withEv (ht _ rfl)) h

theorem expireGrant (ht : Covers f timePasses) (hg : EndsGrants f) (h : Foot f m n) : Foot f m (expireGrant n k) := by
  unfold Machine.expireGrant
  split
  · exact h
  · exact .endGrant hg (.advanceTo ht h)

theorem expireShare (ht : Covers f timePasses) (hk : f (.kek k) = true) (h : Foot f m n) : Foot f m (expireShare n k) := by
  unfold Machine.expireShare
  dsimp only
  split
  · exact h
  · exact .raise (ht _ rfl) (.setKek hk (.advanceTo ht h))
  · exact .raise (ht _ rfl) (.setKek hk (.advanceTo ht h))

theorem expireRetire (ht : Covers f timePasses) (hm : f .mgmt = true) (h : Foot f m n) : Foot f m (expireRetire n) := by
  unfold Machine.expireRetire
  split
  · exact h
  · exact (h.advanceTo ht).withMgmt hm

/-! ### The journal -/

theorem storeHead (ht : f .tether = true) (h : Foot f m n) : Foot f m (storeHead n) := h.withTether ht

/-- What the journal changes as it writes to the tether (R894 to R898). -/
structure Seals (f : Part → Bool) : Prop where
  ev : f .ev = true := by rfl
  tether : f .tether = true := by rfl

theorem issueSeal (hj : Seals f) (h : Foot f m n) : Foot f m (issueSeal n) :=
  .storeHead hj.tether ((Foot.raise hj.ev h).withEv hj.ev)

theorem sealDue (hp : Covers f timePasses) (ht : f .tether = true) (h : Foot f m n) : Foot f m (sealDue n) :=
  .ite h (.ite (.issueSeal ⟨hp _ rfl, ht⟩ h) (.issueSeal ⟨hp _ rfl, ht⟩ (.advance hp h)))

theorem signSeal {o : Otp} (he : f .ev = true) (h : Foot f m n) : Foot f m (signSeal o n) := .ite (h.withEv he) h

theorem takeAll {l : List EvRec} (he : f .ev = true) (h : Foot f m n) : Foot f m (takeAll n l) := h.foldl fun _ _ hk => hk.withEv he

theorem resumeJournal {a b : Bool} (hj : Seals f) (h : Foot f m n) : Foot f m (resumeJournal n a b) :=
  (Foot.takeAll hj.ev (h.withEv hj.ev)).withTether hj.tether

/-! ### The pilots -/

theorem holdAsIs (hf : Syncs f) (h : Foot f m n) : Foot f m (holdAsIs n) := .ite h (.setSync hf (h.withTime hf.time))

theorem holdIfStopped (hf : Syncs f) (h : Foot f m n) : Foot f m (holdIfStopped n) := .ite h (.holdAsIs hf h)

theorem setPilot {on : Bool} (hs : f .sys = true) (h : Foot f m n) : Foot f m (setPilot n k on) := by
  refine h.withSys hs ?_
  split
  · rfl
  · rfl

theorem watchdog (hs : f .sys = true) (h : Foot f m n) : Foot f m (watchdog n k) := .ite ((Foot.setPilot hs h).withSys hs) h

theorem pilotStops (hf : Syncs f) (hs : f .sys = true) (h : Foot f m n) : Foot f m (pilotStops n k) := .holdIfStopped hf (.watchdog hs h)

theorem stopPilots (he : f .ev = true) (hs : f .sys = true) (hw : f .fw = true) (h : Foot f m n) : Foot f m (stopPilots n) := by
  unfold Machine.stopPilots
  split
  · exact (((h.withSys hs (x := { n.sys with pilot0 := false, pilot1 := false })).withEv he).withFw hw)
  · exact h

theorem stopForActivation (hf : Syncs f) (hs : f .sys = true) (hw : f .fw = true) (h : Foot f m n) : Foot f m (stopForActivation n) :=
  .ite h (.holdIfStopped hf (.stopPilots hf.ev hs hw h))

theorem pilotBack (hg : EndsGrants f) (hs : ∀ i, f (.session i) = true) (hy : f .sys = true) (ht : f .tether = true) (h : Foot f m n) :
    Foot f m (pilotBack n k) := by
  unfold Machine.pilotBack
  extract_lets m1 m2
  have h2 : Foot f m m2 := .raise hg.ev (.resumeJournal ⟨hg.ev, ht⟩ (.setPilot hy h))
  exact .ite (.ite (.endSessions hs hg h2) h2) h

/-! ### The tether -/

theorem closeWindow {v c : Nat} (hj : Seals f) (h : Foot f m n) : Foot f m (closeWindow n v c) := .raise hj.ev (h.withTether hj.tether)

theorem stableCell {v : Nat} (hj : Seals f) (h : Foot f m n) : Foot f m (stableCell n v) := .ite (.closeWindow hj h) h

theorem losePower (hv : Vaults f) (hr : f .runtime = true) (h : Foot f m n) : Foot f m (losePower n) := h.next fun p hp => by
  have hsame := Part.same_refl p { mod := n }
  cases p with
  | tether => exact free_kept hv.tether hp
  | runtime => exact free_kept hr hp
  | obj i s e => exact fun _ => look_tether fun hi => by subst hi; exact free_kept (hv.credentials s e) hp
  | _ => exact hsame

theorem allPowerLost (hv : Vaults f) (hr : f .runtime = true) (h : Foot f m n) : Foot f m (allPowerLost n) :=
  .ite (.losePower hv hr (h.withTether hv.tether)) h

theorem quantityClear (ht : f .tether = true) (hs : f (.source k) = true) (h : Foot f m n) : Foot f m (quantityClear n k) :=
  .ite (.setAlarm hs (h.withTether ht)) h

theorem monitorClear (ht : f .tether = true) (hs : f (.source 9) = true) (h : Foot f m n) : Foot f m (monitorClear n k) :=
  .setAlarm hs (h.withTether ht)

theorem quiesceRelease (he : f .ev = true) (ht : f .tether = true) (hs : f (.source 8) = true) (hq : ∀ i, f (.queue i) = true) (h : Foot f m n) :
    Foot f m (quiesceRelease n) := by
  unfold Machine.quiesceRelease
  extract_lets _ m1
  have h1 : Foot f m m1 := h.withTether ht
  exact .ite h (.ite (.rethrottle he hq (.raise he (.setSource hs h1))) h1)

/-! ### The supply and the references -/

theorem loseMains (hs : f .sys = true) (h : Foot f m n) : Foot f m (loseMains n) := .ite (h.withSys hs) h

/-- What a change of the supply or of a reference changes (R984 to R990, R962). -/
structure Supplies (f : Part → Bool) : Prop where
  ev : f .ev = true := by rfl
  sys : f .sys = true := by rfl

theorem mainsBack (hs : Supplies f) (h : Foot f m n) : Foot f m (mainsBack n) := by
  unfold Machine.mainsBack
  split
  · exact h
  · exact .raise hs.ev (h.withSys hs.sys)

theorem refChange (hs : Supplies f) (h : Foot f m n) : Foot f m (refChange n k) := .ite (.raise hs.ev (h.withSys hs.sys)) h

theorem refLock (hs : Supplies f) (h : Foot f m n) : Foot f m (refLock n k) := by
  unfold Machine.refLock
  extract_lets _ m1
  have h1 : Foot f m m1 := h.withSys hs.sys
  exact .ite (.ite h1 (.raise hs.ev h1)) h

theorem refLost (hs : Supplies f) (h : Foot f m n) : Foot f m (refLost n) := .ite (.raise hs.ev (h.withSys hs.sys)) h

end Foot

namespace Frame

/-! ### Sources in alarm -/

section
variable (hf : Covers f responds)
include hf

theorem quantityAlarm {d : Detector} (h : Frame f s t) : Frame f s (quantityAlarm t k d) := by
  unfold Machine.quantityAlarm
  extract_lets k0 _ tt rank
  have h1 : Foot f s.mod { k0 with tether := tt } := h.mod.withCore (hf _ rfl) rfl
  exact .ite h (.ite (h.upd h1) (.sourceEvent hf (h.upd (.setAlarm (hf _ rfl) h1))))

theorem monitorAlarm {d : Nat} (h : Frame f s t) : Frame f s (monitorAlarm t k d) := by
  unfold Machine.monitorAlarm
  extract_lets k0 _ m1
  have h1 : Foot f s.mod m1 := .setAlarm (hf _ rfl) (h.mod.withTether (hf _ rfl))
  clear_value m1
  exact .ite h (.sourceEvent hf (h.upd h1))

theorem zeroizePins (h : Frame f s t) : Frame f s (zeroizePins t) := by
  unfold Machine.zeroizePins
  exact .sourceEvent hf h

theorem quiesceAssert (h : Frame f s t) : Frame f s (quiesceAssert t) := by
  unfold Machine.quiesceAssert
  extract_lets k0 _ m1
  have h1 : Foot f s.mod m1 := h.mod.withTether (hf _ rfl)
  clear_value m1
  exact .ite h (.ite (h.upd h1) (.sourceEvent hf (h.upd (.setAlarm (hf _ rfl) h1))))

theorem loopPulse {ok : Bool} (h : Frame f s t) : Frame f s (loopPulse t ok) := by
  unfold Machine.loopPulse
  extract_lets k0 tt m1 m2 rank
  have h1 : Foot f s.mod m1 := h.mod.withTether (hf _ rfl)
  have h2 : Foot f s.mod m2 := h.mod.withTether (hf _ rfl)
  exact .ite h (.ite (h.upd (.ite (.setAlarm (hf _ rfl) h1) h1)) (.ite (.sourceEvent hf (h.upd (.setAlarm (hf _ rfl) h2))) (h.upd h2)))

theorem cellRecord (h : Frame f s t) : Frame f s (cellRecord t) := by
  unfold Machine.cellRecord
  exact .sourceEvent hf h

theorem insertCell (h : Frame f s t) : Frame f s (insertCell t) := by
  unfold Machine.insertCell
  extract_lets k0 _ m1
  have h1 : Foot f s.mod m1 := h.mod.withTether (hf _ rfl)
  exact .ite h (.ite (.cellRecord hf (h.upd h1)) (h.upd h1))

theorem removeCell (hr : f .runtime = true) (h : Frame f s t) : Frame f s (removeCell t) := by
  unfold Machine.removeCell
  extract_lets k0 _ m1
  have h1 : Foot f s.mod m1 := h.mod.withTether (hf _ rfl)
  exact .ite h (.ite (h.upd (.losePower ⟨hf _ rfl, fun _ _ => hf _ rfl⟩ hr h1)) (.ite (.cellRecord hf (h.upd h1)) (.quantityAlarm hf (h.upd h1))))

theorem expireWindow (ht : Covers f timePasses) (h : Frame f s t) : Frame f s (expireWindow t) := by
  unfold Machine.expireWindow
  split
  · exact h
  · extract_lets k0 m1 _ m2
    have h1 : Foot f s.mod m1 := .closeWindow ⟨ht _ rfl, hf _ rfl⟩ (.advanceTo ht h.mod)
    have h2 : Foot f s.mod m2 := h1.withTether (hf _ rfl)
    exact .ite (h.upd h1) (.quantityAlarm hf (h.upd h2))

theorem makeReady (h : Frame f s t) : Frame f s (makeReady t) := by
  unfold Machine.makeReady
  extract_lets k0 dur m0 _ m1 m2
  have h0 : Foot f s.mod m0 := h.mod.foldl fun _ _ hk => .ite (.portState (hf _ rfl) (hf _ rfl) hk) hk
  have h2 : Foot f s.mod m2 := .raise (hf _ rfl) (h0.withSys (hf _ rfl))
  exact .ite h (.ite (.sourceEvent hf (h.upd (.setAlarm (hf _ rfl) h2))) (h.upd h2))

end

/-! ### Fuses, flash and firmware -/

theorem burn (hotp : f .otp = true) (he : f .ev = true) (hs : f .sys = true) (h : Frame f s t) : Frame f s (burn t) := by
  unfold Machine.burn
  dsimp only
  exact .ite (h.upd (h.mod.withSys hs)) (.ite ⟨fun hp => free_kept hotp hp, h.flash, h.pending, .raise he h.mod⟩
    ⟨fun hp => free_kept hotp hp, h.flash, h.pending, h.mod⟩)

theorem burnEntry (hotp : f .otp = true) (he : f .ev = true) (hs : f .sys = true) (ht : f .tether = true) (h : Frame f s t) : Frame f s (burnEntry t) :=
  have hburned := h.burn hotp he hs
  .ite (hburned.upd (hburned.mod.withTether ht)) h

theorem saveConfig (hw : f .flash = true) (hs : f .sys = true) (h : Frame f s t) : Frame f s (saveConfig t) :=
  ⟨h.otp, fun hp => free_kept hw hp, h.pending, h.mod.withSys hs⟩

theorem writeConfig (hw : f .flash = true) (hs : f .sys = true) (h : Frame f s t) : Frame f s (writeConfig t) := .ite (.saveConfig hw hs h) h

theorem earlyWarning (hw : f .flash = true) (hs : f .sys = true) (ht : f .tether = true) (hp : Covers f timePasses) (h : Frame f s t) :
    Frame f s (earlyWarning t) := by
  unfold Machine.earlyWarning
  split
  · exact h
  · extract_lets d k0 _ m1
    have h1 : Foot f s.mod m1 := .issueSeal ⟨hp _ rfl, ht⟩ (.raise (hp _ rfl) ((Foot.advanceTo hp h.mod).withSys hs))
    exact .ite h (.saveConfig hw hs ⟨h.otp, fun hp => free_kept hw hp, h.pending, h1⟩)

theorem endInstall (hw : f .flash = true) (hfw : f .fw = true) (he : f .ev = true) (h : Frame f s t) : Frame f s (endInstall t) :=
  .ite h ⟨h.otp, fun hp => free_kept hw hp, h.pending, .raise he (h.mod.withFw hfw)⟩

/-- What the pilots change as they run on an image (R943 to R947). -/
structure Boots (f : Part → Bool) : Prop where
  ev : f .ev = true := by rfl
  sys : f .sys = true := by rfl
  fw : f .fw = true := by rfl
  tether : f .tether = true := by rfl

theorem pilotsRun {x : Option (Nat × Nat)} (hb : Boots f) (h : Frame f s t) : Frame f s (pilotsRun t k x) := by
  unfold Machine.pilotsRun
  extract_lets k0 v _ _ m1 m2 m3
  have h1 : Foot f s.mod m1 := (h.mod.withSys hb.sys (x := m1.sys)).withFw hb.fw (x := m1.fw)
  have h2 : Foot f s.mod m2 := by
    cases x with
    | none => exact h1
    | some y => exact .raise hb.ev h1
  have h3 : Foot f s.mod m3 := .raise hb.ev (.resumeJournal ⟨hb.ev, hb.tether⟩ h2)
  exact h.upd (h3.withEv hb.ev)

theorem firmwareRuns (hb : Boots f) (hw : f .flash = true) (h : Frame f s t) : Frame f s (firmwareRuns t) := by
  unfold Machine.firmwareRuns
  split
  · split
    · exact .ite (.pilotsRun hb h) (.pilotsRun hb ⟨h.otp, fun hp => free_kept hw hp, h.pending, h.mod⟩)
    · exact h
  · exact h

theorem firmwareTimeout (hb : Boots f) (hw : f .flash = true) (hp : Covers f timePasses) (h : Frame f s t) : Frame f s (firmwareTimeout t) := by
  unfold Machine.firmwareTimeout
  split
  · exact .pilotsRun hb ⟨h.otp, fun hp => free_kept hw hp, h.pending, .advanceTo hp h.mod⟩
  · exact h

end Frame

end Sys2Proof.Machine
end

