-- ==== Sys2Proof/Proofs/FrameExpert.lean ====
section
/-! PROOFS. What the effect of a write to sessions, credentials and expert access leaves alone (R774 to R778, R797 to R822). -/

namespace Sys2Proof.Machine

variable {f : Part → Bool} {m n : Mod} {s t : State} {a i k : Nat}

namespace Foot

/-! ### Sessions and credentials -/

theorem setSecret {c : Nat} {x : Option Secret} (ht : f .tether = true) (hs : ∀ i, f (.session i) = true) (hg : EndsGrants f) (h : Foot f m n) :
    Foot f m (setSecret n c x) := .closeEnrolment hs hg (h.withTether ht)

theorem eraseCredential {c : Nat} (hv : Vaults f) (hs : ∀ i, f (.session i) = true) (hg : EndsGrants f) (h : Foot f m n) :
    Foot f m (eraseCredential n c) := by
  unfold Machine.eraseCredential
  extract_lets v _ _ m1
  have hgone : Foot f m { n with tether := m1.tether } := h.withVault hv
  have h1 : Foot f m m1 := hgone.withMgmt hg.mgmt (x := m1.mgmt)
  exact .endSessions hs hg h1

theorem grantExpert {o minutes : Nat} (hg : EndsGrants f) (h : Foot f m n) : Foot f m (grantExpert n o i minutes).1 :=
  .iteFst (.endGrant hg h) (.iteFst h (.raise hg.ev (.setNat hg.minutes (h.withMgmt hg.mgmt))))

theorem writeDebug {v : Bool} (hm : f .mgmt = true) (he : f .ev = true) (h : Foot f m n) : Foot f m (writeDebug n i v).1 := by
  unfold Machine.writeDebug
  extract_lets _ _ m1
  have h1 : Foot f m m1 := h.withMgmt hm
  exact .iteFst (.closeDebug hm he h) (.iteFst h (.iteFst h (.ite (.raise he (.raise he h1)) h1)))

/-! ### Expert access -/

/-- What a write through the register window or the indirect pair changes (R806 to R822). -/
structure Windows (f : Part → Bool) : Prop extends BusErrors f where
  mgmt : f .mgmt = true := by rfl
  written : ∀ e, f (.obj 0xE000 3 e) = true := by intro _; rfl

theorem windowWrite {v : Nat} (hf : Windows f) (h : Foot f m n) :
    Foot f m (windowWrite n k a v).mod := by
  have hbus : Foot f m (Machine.busError n k a).mod := .busError hf.toBusErrors h
  unfold Machine.windowWrite
  split
  · exact h
  · split
    · exact hbus
    · dsimp only
      split
      · exact .reachOk (.bump hf.ev hf.written (h.withMgmt hf.mgmt))
      · split
        · exact h
        · split
          · exact hbus
          · split
            · exact hbus
            · exact h

theorem indirectWrite {v : Nat} (hf : Windows f) (hs : f (.session i) = true) (h : Foot f m n) : Foot f m (indirectWrite n i v).mod := by
  have hbus {x y : Nat} : Foot f m (Machine.busError n x y).mod := .busError hf.toBusErrors h
  unfold Machine.indirectWrite
  dsimp only
  split
  · exact h
  · split
    · exact hbus
    · split
      · exact h
      · split
        · exact hbus
        · split
          · exact h
          · exact .reachOk (.stepIndirect hs (.bump hf.ev hf.written (h.withMgmt hf.mgmt)))

end Foot

end Sys2Proof.Machine
end

