-- ==== Sys2Proof/Proofs/FrameRestarts.lean ====
section
/-! PROOFS. A start-up keeps the model's clock and its queue of commands; with it, what the events of the module, the tether and the supply leave
alone (R968 to R990). -/

namespace Sys2Proof.Machine

variable {m n k : Mod} {s t u : State}

/-- What a start-up may change: everything but the clock and the commands that wait. -/
def restarts : Part → Bool
  | .clock | .pending => false
  | _ => true

theorem restarts_covers {g : Part → Bool} (hc : g .clock = false) (hp : g .pending = false) : Covers restarts g := fun p h => by
  cases p with
  | clock => exact free_kept h hc
  | pending => exact free_kept h hp
  | _ => rfl

theorem restarts_responds : Covers restarts responds := restarts_covers rfl rfl

theorem restarts_commits : Covers restarts commits := restarts_covers rfl rfl

namespace Foot

/-- Whatever else changes, a module with the same clock. -/
theorem clock (h : Foot restarts m n) (hk : k.sys.elapsed = n.sys.elapsed := by rfl) : Foot restarts m k := h.next fun p hp => by
  cases p with
  | clock => exact hk
  | pending => exact rfl
  | _ => cases hp

theorem keepAlarms (h : Foot restarts m n) : Foot restarts m (keepAlarms n) :=
  have hq : Foot restarts m ((List.range 6).foldl (fun m q => if m.tether.qAlarm.testBit q then Machine.setAlarm m q true else m) n) :=
    h.foldl fun _ _ hk => .ite (.setAlarm rfl hk) hk
  .ite (.setAlarm rfl hq) hq

theorem runtimeCheck {x : Flash} {lost : Bool} (h : Foot restarts m n) : Foot restarts m (runtimeCheck x lost n) := .ite (.raise rfl h.clock) h

theorem freshEpoch {src : Option Nat} (h : Foot restarts m n) : Foot restarts m (freshEpoch src n) := by
  cases src with
  | none => exact .raise rfl h.clock
  | some b => exact .raise rfl h.clock

theorem startJournal (h : Foot restarts m n) : Foot restarts m (startJournal n) := by
  have htake (m : Mod) (l : List EvRec) : (Machine.takeAll m l).sys = m.sys := by
    induction l generalizing m with
    | nil => rfl
    | cons r l ih => exact ih _
  refine h.clock ?_
  unfold Machine.startJournal
  dsimp only
  rw [htake, htake]
  exact (apply_ite (fun x : Mod => x.sys.elapsed) _ _ _).trans (ite_self _)

theorem seedBanks (h : Foot restarts m n) : Foot restarts m (seedBanks n) :=
  h.foldl fun _ _ hk => .drawMasks rfl (fun _ => rfl) (.drawShuffle rfl (fun _ => rfl) (.drawBallast rfl (fun _ => rfl) hk))

theorem drawHashSeeds (h : Foot restarts m n) : Foot restarts m (drawHashSeeds n) :=
  h.foldl fun _ _ hk => .setCls rfl (hk.withDrawn rfl)

theorem restoreGate {p : Nat} {b : GBank} {pending : Bool} (h : Foot restarts m n) : Foot restarts m (restoreGate n p b pending) :=
  have hset : Foot restarts m (Machine.setGate n p { gate n p with force := b }) := .setGate rfl h
  .ite (.commitBank restarts_commits hset) hset

theorem restorePrefix {x : Octets} (h : Foot restarts m n) : Foot restarts m (restorePrefix n x) := by
  unfold Machine.restorePrefix
  dsimp only
  split
  · exact h
  · split
    · exact .raise rfl h
    · exact .watchBank rfl rfl (.bump rfl (fun _ => rfl) (.setCls rfl h))

theorem powerPorts (h : Foot restarts m n) : Foot restarts m (powerPorts n) := h.foldl fun _ _ hk => .ite (.enablePort restarts_commits hk) hk

theorem restoreConfig {x : Flash} (h : Foot restarts m n) : Foot restarts m (restoreConfig x n) := by
  have hc := restarts_commits
  unfold Machine.restoreConfig
  extract_lets k0
  have h0 : Foot restarts m k0 := .drawHashSeeds h
  clear_value k0
  split
  · exact .selectReference hc (.raise rfl h0)
  · extract_lets m1 m2 m3 bad m4 m5 m6 m7 m8 m9 m10
    have h1 : Foot restarts m m1 := h0.clock
    have h2 : Foot restarts m m2 := h1.foldl fun _ _ hk => .restoreGate hk
    have h3 : Foot restarts m m3 := h2.foldl fun _ _ hk => .restorePrefix hk
    have h4 : Foot restarts m m4 := h3.foldl fun _ _ hk => .setValue hc hk
    have h5 : Foot restarts m m5 := h4.foldl fun _ _ hk => .startNode rfl hk
    have h6 : Foot restarts m m6 := h5.foldl fun _ _ hk => .startQueue hc hk
    have h7 : Foot restarts m m7 := h6.foldl fun _ _ hk => .ite (.engageFallback rfl (fun _ => rfl) (fun _ => rfl) (fun _ => rfl) hk) hk
    have h8 : Foot restarts m m8 := .ite h7 (.raise rfl h7)
    have h9 : Foot restarts m m9 := h8.foldl fun _ _ hk => .ite (.regionEnabled hc hk) hk
    have h10 : Foot restarts m m10 := h9.foldl fun _ _ hk => .commitTrigger hc hk
    exact .selectReference hc (.sourceCommitted hc h10)

end Foot

end Sys2Proof.Machine
end

