-- ==== Sys2Proof/Proofs/FrameWrites.lean ====
section
/-! PROOFS. What the effect of a write to the other objects leaves alone (R774 to R778), object by object. -/

namespace Sys2Proof.Machine

variable {f : Part → Bool} {m n : Mod} {a b e i k : Nat}

namespace Foot

/-! ### Keys -/

theorem addFingerprint {l : List Nat} (he : f .ev = true) (hx : f (.filter k) = true) (h : Foot f m n) : Foot f m (addFingerprint n k l) :=
  have hadded {x : KeyFilter} : Foot f m { n with filters := tset {} n.filters k x } := h.withFilter hx
  .ite (.raise he hadded) hadded

/-- What the writing of a key changes (R247, R249 to R253, R281). -/
structure Loads (f : Part → Bool) (a : Nat) : Prop where
  ev : f .ev = true := by rfl
  assoc : f (.assoc a) = true := by rfl
  kek : ∀ i, f (.kek i) = true := by intro _; rfl
  filter : ∀ i, f (.filter i) = true := by intro _; rfl

theorem writeKey {r d : Bool} {ph : Nat} {g : Octets → Option Octets} (hl : Loads f a) (h : Foot f m n) : Foot f m (writeKey n r d a ph g).1 := by
  unfold Machine.writeKey
  extract_lets _ _ _ _ _ fail _ x
  have hfail : Foot f m fail.1 := .raise hl.ev (.setKek (hl.kek _) h)
  clear_value fail
  refine .iteFst h (.iteFst h (.iteFst h (.iteFst h (.iteFst h ?_))))
  split
  · exact hfail
  · refine .iteFst hfail (.iteFst h ?_)
    extract_lets ps y _ m1 m2
    have h2 : Foot f m m2 := .raise hl.ev (.setAssoc hl.assoc h)
    clear_value m2
    exact .iteFst (.raise hl.ev h) (.pair (.addFingerprint hl.ev (hl.filter _) h2))

theorem beforeErase {ph : Nat} (ht : Covers f timePasses) (hs : Switches f a) (h : Foot f m n) :
    Foot f m (beforeErase n a ph) :=
  .ite (.scheduledSwitch hs.ev hs.assoc hs.status h) (.ite (.flip hs.ev hs.assoc hs.status h) (.ite (.advance ht h) h))

theorem eraseSlot {ph : Nat} (ht : Covers f timePasses) (hs : Switches f a) (h : Foot f m n) :
    Foot f m (eraseSlot n a ph) := by
  unfold Machine.eraseSlot
  extract_lets m0 x active m1
  have h0 : Foot f m m0 := .beforeErase ht hs h
  have h1 : Foot f m m1 := .raise hs.ev (.setAssoc hs.assoc h0)
  exact .ite h0 (.ite (.cancelSwitch hs h1) (.dropNotice hs.assoc h1))

theorem keyEffect {w : Octets} (hl : Loads f (e / 2)) (hb : ∀ i, f (.bank i) = true)
    (h9 : ∀ e, f (.obj 0x4210 9 e) = true) (h : Foot f m n) : Foot f m (keyEffect n e w).1 := by
  unfold Machine.keyEffect
  extract_lets a k
  split
  next m1 st hr =>
  have h1 : Foot f m m1 := by
    have hwritten := h.writeKey (a := e / 2) (r := n.sys.retired) (d := (entropyOf n (aHarbour a)).failB) (ph := e % 2) (g := fun k => aesUnwrap k w) hl
    rw [hr] at hwritten
    exact hwritten
  exact .ite (.engineTakes ⟨hl.ev, hb, h9⟩ h1) h1

theorem writeShare {isB : Bool} {x : Octets} {c : Nat} (he : f .ev = true) (hk : f (.kek b) = true) (h : Foot f m n) :
    Foot f m (writeShare n b isB x c).1 := by
  unfold Machine.writeShare
  extract_lets y
  split
  · exact .setKek hk h
  · exact .iteFst h (.raise he (.setKek hk h))

/-! ### Prefixes and learning -/

/-- What the insertion of an LPM entry changes (R406 to R416, R422, R429). -/
structure Inserts (f : Part → Bool) (b : Nat) : Prop extends Forwards f where
  cls : f (.cls b) = true := by rfl
  expired : ∀ e, f (.obj 0x5040 0xB e) = true := by intro _; rfl
  released : ∀ e, f (.obj 0x5040 0xA e) = true := by intro _; rfl
  full : ∀ e, f (.obj 0x5100 7 e) = true := by intro _; rfl
  nodes : ∀ e, f (.obj 0x5130 2 e) = true := by intro _; rfl
  inserted : ∀ e, f (.obj 0x5130 3 e) = true := by intro _; rfl

theorem releaseHeld {p : Prefix} (hf : Inserts f b) (h : Foot f m n) : Foot f m (releaseHeld n b p) := by
  unfold Machine.releaseHeld
  refine (Foot.setCls hf.cls (.dropExpired hf.ev hf.cls hf.expired h)).foldl fun j x hj => ?_
  split
  · exact hj
  · exact .onMatch hf.toForwards (.bump hf.ev hf.released hj)

theorem insertPrefix {x : Octets} (hf : Inserts f (k / 8)) (h : Foot f m n) : Foot f m (insertPrefix n k x).1 := by
  unfold Machine.insertPrefix
  extract_lets basin owner c
  have hheld {p : Prefix} {j : Mod} (hj : Foot f m j) : Foot f m (Machine.releaseHeld j basin p) := .releaseHeld hf hj
  have hcls {x : Cls} : Foot f m (Machine.setCls n basin x) := .setCls hf.cls h
  split
  · exact h
  · refine .iteFst h (.iteFst h (.iteFst ?_ (.iteFst h (.iteFst h ?_))))
    · extract_lets ps
      exact .pair (hheld hcls)
    · split
      · exact .pair (.bump hf.ev hf.full h)
      · extract_lets b
        split
        · exact .pair (.bump hf.ev hf.nodes h)
        · extract_lets _ m1
          have h1 : Foot f m m1 := .bump hf.ev hf.inserted hcls
          clear_value m1
          exact .pair (hheld (.watchBank hf.ev hf.cls h1))

theorem deletePrefix {x : Octets} (he : f .ev = true) (hc : f (.cls (k / 8)) = true) (h : Foot f m n) : Foot f m (deletePrefix n k x).1 := by
  unfold Machine.deletePrefix
  extract_lets basin
  split
  · exact h
  · exact .iteFst (.watchBank he hc (.setCls hc h)) h

theorem acknowledgeLearn {q : Nat} (he : f .ev = true) (hc : f (.cls b) = true) (h : Foot f m n) : Foot f m (acknowledgeLearn n b q).1 :=
  .iteFst (.ite (.raise he (.setCls hc h)) (.setCls hc h)) h

/-! ### Time -/

theorem acceptChange {c : TimeChange} (ht : f .time = true) (h : Foot f m n) : Foot f m (acceptChange n c).1 := h.withTime ht

theorem writeIncrement {v : Nat} (ht : f .time = true) (h : Foot f m n) : Foot f m (writeIncrement n v).1 :=
  .iteFst h (.iteFst h (.acceptChange ht h))

theorem writeSlew {x : Int} (ht : f .time = true) (h : Foot f m n) : Foot f m (writeSlew n x).1 := .iteFst h (.iteFst h (.acceptChange ht h))

theorem writeStep {x : Int} (ht : f .time = true) (h : Foot f m n) : Foot f m (writeStep n x).1 :=
  .iteFst h (.iteFst h (.iteFst h (.acceptChange ht h)))

theorem writeTime {x : Time80} (ht : f .time = true) (h : Foot f m n) : Foot f m (writeTime n x).1 := by
  unfold Machine.writeTime
  exact .iteFst h (.iteFst h (.acceptChange ht h))

theorem writeLease {v : Nat} (hf : Syncs f) (hc : f .counters = true) (h : Foot f m n) : Foot f m (writeLease n v).1 :=
  .iteFst h (.iteFst (.ite (.endLease hf hc h) h) (.setSync hf (h.withTime hf.time)))

/-! ### Stowage, berths and snapshots -/

/-- What the release of a region changes (R668). -/
structure Regions (f : Part → Bool) (k : Nat) : Prop extends Clears f where
  stow : f (.stow k) = true := by rfl
  source : ∀ i, f (.source i) = true := by intro _; rfl

theorem reopen {r : Nat} (hf : Regions f k) (h : Foot f m n) : Foot f m (reopen n k r) :=
  (h.setStow hf.stow).foldl fun _ _ hj => .setSource (hf.source _) hj

theorem releaseRegion (hf : Regions f (k / 16)) (h : Foot f m n) :
    Foot f m (releaseRegion n k).1 := by
  have hspans {l : List (Nat × Nat)} : Foot f m (Machine.restartSpans n (k / 16) 1 l).1 := .restartSpans hf.toClears hf.stow h
  unfold Machine.releaseRegion
  extract_lets i r x pick lost base
  refine .iteFst ?_ ?_
  · exact .iteFst (.raise hf.ev (.reopen hf (.setStow hf.stow hspans))) hspans
  · have hlost {l : List (Nat × Nat)} : Foot f m (if lost = [] then (n, true) else Machine.restartSpans n i 1 l).1 := .iteFst h hspans
    exact .iteFst (.raise hf.ev (.setStow hf.stow hlost)) hlost

theorem requestReset {mode c : Nat} (hb : f (.berth b) = true) (h : Foot f m n) : Foot f m (requestReset n b mode c).1 :=
  .iteFst h (.iteFst h (.setBerth hb h))

theorem snapAck {w : Nat} (hf : Drains f) (h : Foot f m n) : Foot f m (snapAck n b w).1 := by
  unfold Machine.snapAck
  extract_lets m1 x
  have h1 : Foot f m m1 := h.drainAll hf
  clear_value m1
  exact .iteFst (.pair (.settleSnap hf.snap (h1.withSnap hf.snap))) h1

/-! ### The tether -/

theorem releaseResponse (he : f .ev = true) (hx : f (.source i) = true) (hq : ∀ i, f (.queue i) = true) (h : Foot f m n) :
    Foot f m (releaseResponse n i).1 :=
  .iteFst h (.iteFst h (.rethrottle he hq (.setSource hx h)))

theorem swapWindow {minutes : Nat} (hj : Seals f) (h : Foot f m n) : Foot f m (swapWindow n minutes) :=
  .ite (.ite (.closeWindow hj h) h) (h.withTether hj.tether)

theorem commandRestart (hj : Seals f) (hs : f .sys = true) (h : Foot f m n) : Foot f m (commandRestart n).1 :=
  .iteFst h ((h.issueSeal hj).withSys hs)

/-! ### Firmware -/

theorem writeChunk {x : Octets} (he : f .ev = true) (ho : f .onceAt = true) (hc : ∀ e, f (.obj 0x8000 0xB e) = true) (hw : f .fw = true)
    (hs : ∀ i, f (.stow i) = true) (h : Foot f m n) : Foot f m (writeChunk n k x).1 := by
  unfold Machine.writeChunk
  split
  · exact h
  · refine .iteFst h (.iteFst h (.iteFst (.refuseAccess he ho hc h) ?_))
    split
    · next hx => exact (Foot.fullWrite (hs _) h hx).withFw hw
    · exact h

/-- The event of an expert message changes the events alone. -/
theorem expertEvent {l : List ValueRec} {j : Mod} (he : f .ev = true) (h : Foot f m n) : Foot f m (expertEvent j i l n) := by
  unfold Machine.expertEvent
  split
  · exact h
  · exact .raise he h

end Foot

end Sys2Proof.Machine
end

