-- ==== Sys2Proof/Proofs/FrameStartUp.lean ====
section
/-! PROOFS. What the steps of a start-up leave alone, and with it a restart (R968 to R990). -/

namespace Sys2Proof.Machine

variable {s t u : State}

namespace Frame

/-- Everything but the clock and the queue of commands may differ. -/
theorem clock (h : Frame restarts s t) (hp : u.pending = t.pending := by rfl) (hk : u.mod.sys.elapsed = t.mod.sys.elapsed := by rfl) :
    Frame restarts s u :=
  ⟨nofun, nofun, fun hx => hp.trans (h.pending hx), h.mod.clock hk⟩

theorem startOne (h : Frame restarts s t) : Frame restarts s (startOne t) := h.upd (.raise rfl (.keepAlarms h.mod.clock))

theorem testSourceB {l : List Nat} (h : Frame restarts s t) : Frame restarts s (testSourceB t l) :=
  h.foldl fun _ _ hu => .ite (.declareFailed restarts_responds rfl rfl (fun _ => rfl) (fun _ => rfl) hu) hu

theorem canaryChecked {c : Canary} (ht : Frame restarts s t) (hu : Frame restarts s u) :
    Frame restarts s (match c with | .valid => t | .marker => t | .lost => u) := by
  cases c with
  | valid => exact ht
  | marker => exact ht
  | lost => exact hu

theorem stepTwo {src : Option Nat} {bad : Bool} (h : Frame restarts s t) : Frame restarts s (stepTwo t src bad) := by
  unfold Machine.stepTwo
  extract_lets m canary _ _ m1 s1 v top _
  have hlost : Foot restarts s.mod m1 := .runtimeCheck h.mod.clock
  have h1 : Frame restarts s s1 := .canaryChecked h (.sourceEvent restarts_responds (h.upd hlost))
  clear_value s1
  split
  next bytes m2 hdrawn =>
  have h2 : Foot restarts s.mod m2 := by
    cases src with
    | none => cases hdrawn; exact h1.mod
    | some b => cases hdrawn; exact h1.mod.clock
  extract_lets _ m3 s2 due s3 tt burned unread _ s4 _ _ _ s5 m6 m6' m7 _ _ m8
  have h3 : Foot restarts s.mod m3 := .ite h1.mod h2.clock
  have hs2 : Frame restarts s s2 := (h1.upd h3).clock
  have hs3 : Frame restarts s s3 := hs2.foldl fun _ _ hu => .burn rfl rfl rfl hu
  have hunread (k : Mod) (hk : Foot restarts s.mod k) : Foot restarts s.mod (unread k) := .ite (.raise rfl hk) hk
  have hs4 : Frame restarts s s4 := hs3.upd (hunread _ hs3.mod.clock)
  have hs5 : Frame restarts s s5 := .ite hs4.clock hs4
  have h6 : Foot restarts s.mod m6 := .ite hs5.mod.clock (.freshEpoch hs5.mod)
  have h6' : Foot restarts s.mod m6' := h6.foldl fun _ _ hk => .setSource rfl hk
  have h7 : Foot restarts s.mod m7 := .ite h6' (.runtimeCheck h6')
  have h8 : Foot restarts s.mod m8 := h7.clock
  exact hs5.upd (.ite h8 (.raise rfl h8))

theorem startThree {x : StartTrial} (h : Frame restarts s t) : Frame restarts s (startThree x t) := by
  unfold Machine.startThree
  extract_lets w
  have second : Frame restarts s w := .stepTwo (.testSourceB h)
  clear_value w
  exact second.clock

theorem startFour (h : Frame restarts s t) : Frame restarts s (startFour t) := h.clock

theorem selfTests {l : List Nat} (h : Frame restarts s t) : Frame restarts s (selfTests t l) := by
  unfold Machine.selfTests
  extract_lets s1 part word m2
  have h1 : Frame restarts s s1 := by
    refine h.foldl fun u n hu => ?_
    split
    · exact .retireUnit restarts_responds hu
    · exact .ite (.declareFailed restarts_responds rfl rfl (fun _ => rfl) (fun _ => rfl) hu) hu
  have h2 : Foot restarts s.mod m2 := h1.mod.foldl fun _ _ hk =>
    .raise rfl (.setValue restarts_commits (.setValue restarts_commits (.setValue restarts_commits (.setValue restarts_commits (.setEntropy rfl hk)))))
  exact h1.upd (.seedBanks h2)

theorem failStart {a b c : Nat} (h : Frame restarts s t) : Frame restarts s (failStart t a b c) := h.clock

theorem laterSteps {i : Nat} {fails : Bool} {l : List Nat} (h : Frame restarts s t) : Frame restarts s (laterSteps t i fails l) := by
  unfold Machine.laterSteps
  extract_lets m3 _ _ m4 m5 m6 _ s6 s7 m8 m9 _
  have h5 : Foot restarts s.mod m5 := .startJournal h.mod.clock
  have h6 : Frame restarts s s6 := (h.upd (Foot.ite h5 (.raise rfl h5))).clock
  have h7 : Frame restarts s s7 := .selfTests h6
  have h8 : Foot restarts s.mod m8 := .restoreConfig (h7.mod.foldl fun _ _ hk => .portState rfl rfl hk)
  have h9 : Foot restarts s.mod m9 := .powerPorts h8
  clear_value m9
  exact .ite h6 (h7.upd h9.clock)

theorem startFrom {n : Nat} {x : StartTrial} (h : Frame restarts s t) : Frame restarts s (startFrom n x t) := by
  induction n generalizing t with
  | zero => exact h
  | succ n ih =>
    have first : Frame restarts s (Machine.startOne t) := .startOne h
    have third : Frame restarts s (Machine.startThree x (Machine.startOne t)) := .startThree first
    have fourth : Frame restarts s (Machine.startFour (Machine.startThree x (Machine.startOne t))) := .startFour third
    have again {v : State} (hv : Frame restarts s v) (step unit : Nat) : Frame restarts s (startAgain n x v step unit) :=
      .ite (.failStart hv) (ih hv.clock)
    rw [startFrom_succ]
    refine .ite (again first ..) (.ite (again third ..) ?_)
    unfold startBoot startLater
    split
    · exact .failStart fourth
    · exact .ite (again (.laterSteps fourth) ..) (.laterSteps fourth)

theorem restart {c : Nat} {x : StartTrial} (h : Frame restarts s t) : Frame restarts s (restart t c x) := by
  unfold Machine.restart
  extract_lets m _
  have h1 : Frame restarts s (t.upd { m with sys := { m.sys with cause := c, stopStep := 0, attempt := 0, startedAt := m.sys.elapsed } }) := h.clock
  exact .startFrom h1

theorem keelLost {x : StartTrial} (h : Frame restarts s t) : Frame restarts s (keelLost t x) := .ite (.restart h) h

theorem zeroRestart {x : StartTrial} (h : Frame restarts s t) : Frame restarts s (zeroRestart t x) := by
  unfold Machine.zeroRestart
  dsimp only
  split
  · exact h
  · exact .ite h (.restart h.clock)

end Frame

end Sys2Proof.Machine
end

