-- ==== Sys2Proof/Proofs/FrameRecords.lean ====
section
/-! PROOFS. What the effects on the whole state, the writing of one record and the reading of one object leave alone (R774 to R778). -/

namespace Sys2Proof.Machine

variable {f : Part → Bool} {s t : State} {i k : Nat}

/-! ### Effects on the whole state -/

namespace Frame

/-- The flash with a change of the module. -/
theorem withFlash {x : Flash} {m : Mod} (hl : f .flash = true) (hm : Foot f s.mod m) (h : Frame f s t) : Frame f s { t with flash := x, mod := m } :=
  ⟨h.otp, fun hp => free_kept hl hp, h.pending, hm⟩

theorem locatorWrite {x : Octets} (hs : f (.session i) = true) (h : Frame f s t) : Frame f s (locatorWrite t i x).1 := by
  unfold Machine.locatorWrite
  split
  · exact h
  · split
    · exact h
    · exact h.upd (.setSess hs h.mod)

theorem confirmRetire {c : Nat} {x : Octets} (hf : Covers f responds) (h : Frame f s t) : Frame f s (confirmRetire t c x).1 := by
  have hm : f .mgmt = true := hf _ rfl
  have hnoted {y : Mgmt} (hy : y.sessions = t.mod.mgmt.sessions) (hi : y.icept = t.mod.mgmt.icept) : Frame f s (t.upd { t.mod with mgmt := y }) :=
    h.upd (h.mod.withMgmt hm hy hi)
  unfold Machine.confirmRetire
  dsimp only
  split
  · exact h
  · split
    · exact hnoted rfl rfl
    · split
      · exact h
      · split
        · exact hnoted rfl rfl
        · exact .retire hf (hnoted rfl rfl)

/-! ### Firmware and identity -/

theorem verifyImage (he : f .ev = true) (hw : f .fw = true) (h : Frame f s t) : Frame f s (verifyImage t).1 := h.upd (.raise he (h.mod.withFw hw))

theorem beginInstall (hw : f .fw = true) (hl : f .flash = true) (h : Frame f s t) : Frame f s (beginInstall t).1 := by
  unfold Machine.beginInstall
  dsimp only
  split
  · exact h
  · exact h.withFlash hl (h.mod.withFw hw)

/-- What a record in flash and tether changes: the boot slot with its seal, the identity of service (R920 to R926, R942). -/
structure Records (f : Part → Bool) : Prop extends Foot.Seals f where
  flash : f .flash = true := by rfl

theorem beginActivation (hr : Records f) (hw : f .fw = true) (hs : ∀ i, f (.session i) = true) (hg : Foot.EndsGrants f) (h : Frame f s t) :
    Frame f s (beginActivation t i).1 := by
  unfold Machine.beginActivation
  extract_lets _ _ m1
  have h1 : Foot f s.mod m1 := .raise hr.ev (h.mod.withFw hw)
  have hended : Foot f s.mod (Machine.endSessions (Machine.issueSeal m1) 5 fun _ => true) := .endSessions hs hg (.issueSeal hr.toSeals h1)
  clear_value m1
  split
  · exact h
  · split
    · exact h
    · exact h.withFlash hr.flash hended

theorem confirmImage (he : f .ev = true) (ho : f .otp = true) (h : Frame f s t) : Frame f s (confirmImage t) :=
  .ite h ⟨fun hp => free_kept ho hp, h.flash, h.pending, .raise he h.mod⟩

theorem writeCoRequired {v : Bool} (hl : f .flash = true) (h : Frame f s t) : Frame f s (writeCoRequired t v).1 := by
  unfold Machine.writeCoRequired
  split
  · exact h
  · exact h.withFlash hl h.mod

theorem generateService {b : Bool} (he : f .ev = true) (hd : f .drawn = true) (ht : f .tether = true) (hw : f .fw = true) (h : Frame f s t) :
    Frame f s (generateService t b).1 := by
  unfold Machine.generateService
  extract_lets m v
  split
  · exact h
  · split
    · exact h
    · split
      next seeds m1 hr =>
      have h1 : Foot f s.mod m1 := by
        have hdrawn : Foot f s.mod (Machine.draw m (srcB m.mgmt.pilot) 48).2 := .draw hd h.mod
        rw [hr] at hdrawn
        exact hdrawn
      have hkept : m1.tether = m.tether := (congrArg (·.2.tether) hr).symm
      extract_lets _ _ _ _ m2
      have htold : Foot f s.mod { m1 with tether := m2.tether } := h1.withTether ht rfl rfl (by rw [hkept])
      have h2 : Foot f s.mod m2 := htold.withFw hw (x := m2.fw)
      exact h.upd (.raise he h2)

theorem installCert (hr : Records f) (h : Frame f s t) : Frame f s (installCert t).1 := by
  unfold Machine.installCert
  dsimp only
  split
  · exact h
  · split
    · exact h
    · split
      · exact h
      · split
        · exact h
        · exact h.withFlash hr.flash (.raise hr.ev (h.mod.withTether hr.tether))

theorem eraseService (hr : Records f) (hw : f .fw = true) (h : Frame f s t) : Frame f s (eraseService t) := by
  unfold Machine.eraseService
  extract_lets _ _ _ _ m1
  have hgone : Foot f s.mod { t.mod with tether := m1.tether } := h.mod.withTether hr.tether
  exact h.withFlash hr.flash (.raise hr.ev (hgone.withFw hw))

theorem writeAnchor {x : Octets} (he : f .ev = true) (hl : f .flash = true) (h : Frame f s t) : Frame f s (writeAnchor t x).1 := by
  unfold Machine.writeAnchor
  split
  · exact h
  · exact h.withFlash hl (.raise he h.mod)

/-! ### One record -/

theorem effR {r : Reach} (hr : Foot f s.mod r.mod) (h : Frame f s t) : Frame f s (Machine.effR t r).s := by
  cases r with
  | ok w m => exact h.upd hr
  | fail st vs m => exact h.upd hr

theorem effIte {c : Prop} [Decidable c] {x y : Eff} (hx : c → Frame f s x.s) (hy : Frame f s y.s) : Frame f s (if c then x else y).s := by
  split
  · next hc => exact hx hc
  · exact hy

/-- A record leaves what its effect leaves: one that is refused changes nothing, one that waits for COMMIT its session's pending set. -/
theorem writeRecord {r : ValueRec} (hs : f (.session i) = true) (h : Frame f s t)
    (he : ∀ o v, objRow r.addr.idx r.addr.sub = some o → decodeVal o.ty r.data = some v →
      Frame f s (effect t i r.addr.idx r.addr.sub r.addr.elem v).s) : Frame f s (writeRecord t i r).s := by
  unfold Machine.writeRecord
  split
  · exact h
  · next o v hchk =>
    obtain ⟨hrow, hdec⟩ := recordCheck_ok hchk
    split
    · unfold Machine.toPending
      dsimp only
      split
      · exact h
      · exact h.upd (.setSess hs h.mod)
    · exact he o v hrow hdec

/-- A typed write of one record leaves what its effect leaves. -/
theorem writeRow {x : Hdr} {idx sub : Nat} {elem : Option Nat} {data : Octets} (hf : Covers f answers)
    (he : ∀ u i o v, Frame f s u → objRow idx sub = some o → decodeVal o.ty data = some v → Frame f s (effect u i idx sub (elem.getD 0) v).s) :
    Frame f s (writeRow s x idx sub elem data) :=
  .serve hf fun u i hu =>
    have hd := Frame.writeRecord (i := i) (r := recOf idx sub elem data) (hf _ rfl) hu fun o v hrow hdec => he u i o v hu hrow hdec
    hd.upd (.expertEvent (hf _ rfl) hd.mod)

end Frame

/-! ### One object read -/

namespace Frame

theorem readCapture {a : Nat} (ht : f .time = true) (h : Frame f s t) :
    Frame f s (Machine.readValue t i { idx := 0x7050, sub := 3, isElem := true, elem := a }).1 := by
  show Frame f s (match takeCapture t.mod a with
    | some (r, m) => (t.upd m, (.ok (.oct r) : Except (Nat × List Nat) Val))
    | none => (t, .error (0x1002, []))).1
  split
  · next r k hr => exact h.upd (.takeCapture ht h.mod hr)
  · exact h

theorem readReport (hm : f .mgmt = true) (hs : f (.session i) = true) (he : f .ev = true) (h : Frame f s t) :
    Frame f s (Machine.readValue t i { idx := 0xF100, sub := 2 }).1 := by
  have hreport : Frame f s (Machine.newReport t i (configDigest t.mod)).1 := .newReport hm hs he h
  show Frame f s (if (Machine.newReport t i (configDigest t.mod)).2 ≠ 0 then
    ((Machine.newReport t i (configDigest t.mod)).1, (.error ((Machine.newReport t i (configDigest t.mod)).2, []) : Except (Nat × List Nat) Val))
    else ((Machine.newReport t i (configDigest t.mod)).1, .ok (.oct (sess (Machine.newReport t i (configDigest t.mod)).1.mod i).report))).1
  split
  · exact hreport
  · exact hreport

end Frame

/-- The byte of FALSE decodes to no value that an object acts on. -/
theorem decodeVal_false {ty : Ty} {v : Val} (h : decodeVal ty (b1 (b01 false)) = some v) : v.toNat = 0 := by
  cases ty with
  | bool => cases h; rfl
  | u _ => cases h; rfl
  | i _ => cases h; rfl
  | oct _ => cases h; rfl
  | str _ => cases h; rfl
  | time => cases h; rfl
  | rate => cases h; rfl

/-- A write of a Bool to an object that acts on TRUE leaves all but what answers it, and on TRUE what its act leaves. -/
theorem Frame.writeBool {x : Hdr} {idx sub : Nat} {elem : Option Nat} {b : Bool} {g : State → Nat → Eff} (hf : Covers f answers)
    (hg : ∀ u i v, effect u i idx sub (elem.getD 0) v = if (v.toNat == 1) = true then g u i else eff u)
    (ht : b = true → ∀ u i, Frame f s u → Frame f s (g u i).s) : Frame f s (Machine.writeRow s x idx sub elem (b1 (b01 b))) := by
  refine .writeRow hf fun u i o v hu _ hdec => ?_
  rw [hg]
  cases b with
  | true => exact .effIte (fun _ => ht rfl u i hu) hu
  | false =>
    rw [if_neg (by rw [decodeVal_false hdec]; decide)]
    exact hu

theorem effect_share {u : State} {slot e : Nat} {isB : Bool} {v : Val} : effect u slot 0x4100 (if isB then 2 else 1) e v =
    if u.mod.sys.retired then { s := u, status := 0x4002 } else effN u (writeShare u.mod e isB v.toOct (sess u.mod slot).cred) := by
  cases isB with
  | true => rfl
  | false => rfl

theorem effect_alarmClear {u : State} {slot e : Nat} {v : Val} : effect u slot 0xB100 4 e v =
    if (v.toNat == 1) = true ∧ inf u.mod 0xB100 2 e = 0 then effM u { u.mod with ev := { u.mod.ev with pins := tset {} u.mod.ev.pins e {} } } else eff u :=
  rfl

theorem effect_window {u : State} {slot e : Nat} {b : Fin 2} {v : Val} :
    effect u slot 0xE100 (b.val + 1) e v = effR u (windowWrite u.mod b.val (e * 4) v.toNat) :=
  match b with
  | 0 => rfl
  | 1 => rfl

end Sys2Proof.Machine
end

