-- ==== Sys2Proof/Proofs/FrameWriteAny.lean ====
section
/-! PROOFS. What a WRITE of any records leaves alone (R775, R777): it may have the effect of any object. -/

namespace Sys2Proof.Machine

variable {s t : State} {i idx sub e : Nat} {v : Val}

/-- What a WRITE may change. -/
def writes : Part → Bool
  | .entropy _ | .rx _ | .gate _ | .serials | .pending => false
  | _ => true

namespace Frame

theorem effSession (h : Frame writes s t) : Frame writes s (effSession t i idx sub e v).s := by
  unfold Machine.effSession
  dsimp only
  split
  · exact .effIte (fun _ => h.upd (.endSession rfl {} h.mod)) h
  · exact h.upd (.grantExpert {} h.mod)
  · exact h.upd (h.mod.withObj fun _ _ _ => rfl)
  · exact h.upd (.setSecret rfl (fun _ => rfl) {} (.draw rfl h.mod))
  · exact h.upd (.setSecret rfl (fun _ => rfl) {} h.mod)
  · exact .effIte (fun _ => h.upd (.eraseCredential {} (fun _ => rfl) {} h.mod)) h
  · exact h.upd (.writeDebug rfl rfl h.mod)
  · exact .locatorWrite rfl h
  · exact .effR (.windowWrite {} h.mod) h
  · exact .effR (.windowWrite {} h.mod) h
  · exact h.upd (.setSess rfl h.mod)
  · exact .effR (.indirectWrite {} rfl h.mod) h
  · exact h

theorem effData (h : Frame writes s t) : Frame writes s (effData t i idx sub e v).s := by
  have hobj {i j e : Nat} {v : Val} : Foot writes s.mod (Machine.setObj t.mod i j e v) := h.mod.withObj fun _ _ _ => rfl
  unfold Machine.effData
  dsimp only
  split
  · exact h.upd (.writePattern rfl (covers_portMoves covers_discards) rfl covers_laneCounts rfl (fun _ => rfl) h.mod)
  · exact h.upd (.keyEffect {} (fun _ => rfl) (fun _ => rfl) h.mod)
  · exact .effIte (fun _ => h.upd (.eraseSlot covers_time {} h.mod)) h
  · exact h.upd hobj
  · exact .effIte (fun _ => h.upd (.eraseKek rfl h.mod)) h
  · exact .effIte (fun _ => h) (h.upd (.writeShare rfl rfl h.mod))
  · exact h.upd (.insertPrefix {} h.mod)
  · exact h.upd (.deletePrefix rfl rfl h.mod)
  · exact h.upd (.setSess rfl h.mod)
  · exact h.upd (.acknowledgeLearn rfl rfl h.mod)
  · exact h.upd (.writeIncrement rfl h.mod)
  · exact h.upd (.writeSlew rfl h.mod)
  · exact h.upd (.writeStep rfl h.mod)
  · exact h.upd (.writeTime rfl h.mod)
  · exact h.upd (.writeLease {} rfl h.mod)
  · exact h.upd hobj
  · exact .effIte (fun _ => h.upd (.releaseRegion {} h.mod)) h
  · exact h

theorem effModule (h : Frame writes s t) : Frame writes s (effModule t i idx sub e v).s := by
  have hobj {i j e : Nat} {v : Val} : Foot writes s.mod (Machine.setObj t.mod i j e v) := h.mod.withObj fun _ _ _ => rfl
  unfold Machine.effModule
  dsimp only
  split
  · exact .effIte (fun _ => h.upd (.releaseResponse rfl rfl (fun _ => rfl) h.mod)) h
  · exact h.upd (.swapWindow {} hobj)
  · exact .confirmRetire (covers_responds covers_discards) h
  · exact .effIte (fun _ => h.upd (.commandRestart {} rfl h.mod)) h
  · exact h.upd (h.mod.withEv rfl)
  · exact h.upd (.requestReset rfl h.mod)
  · exact h.upd (.snapAck {} h.mod)
  · exact .effIte (fun _ => h.upd (h.mod.withEv rfl)) h
  · exact h.upd hobj
  · exact h.upd (h.mod.withFw rfl)
  · exact .effIte (fun _ => .verifyImage rfl rfl h) h
  · exact .effIte (fun _ => .beginInstall rfl rfl h) h
  · exact .beginActivation {} rfl (fun _ => rfl) {} h
  · exact .effIte (fun _ => .confirmImage rfl rfl h) h
  · exact .writeCoRequired rfl h
  · exact h.upd (.writeChunk rfl rfl (fun _ => rfl) rfl (fun _ => rfl) h.mod)
  · exact .effIte (fun _ => .generateService rfl rfl rfl rfl h) h
  · exact h.upd (h.mod.withFw rfl)
  · exact h.upd (h.mod.withFw rfl)
  · exact .effIte (fun _ => .installCert {} h) h
  · exact .effIte (fun _ => .eraseService {} rfl h) h
  · exact .writeAnchor rfl rfl h
  · exact h

theorem effect (h : Frame writes s t) : Frame writes s (Machine.effect t i idx sub e v).s :=
  .effIte (fun _ => .effSession h) (.effIte (fun _ => .effData h) (.effModule h))

/-! ### The records of a WRITE -/

theorem writeAll {l : List ValueRec} {n : Nat} {x : Octets} (h : Frame writes s t) : Frame writes s (writeAll i t n x l).1 := by
  induction l generalizing t n x with
  | nil => exact h
  | cons r l ih =>
    have hd : Frame writes s (Machine.writeRecord t i r).s := .writeRecord rfl h fun _ _ _ _ => .effect h
    unfold Machine.writeAll
    dsimp only
    split
    · exact hd
    · exact ih hd

theorem writeAct {l : List ValueRec} (h : Frame writes s t) : Frame writes s (writeAct l t i).1 := by
  have hw : Frame writes s (Machine.writeAll i t 0 [] l).1 := .writeAll h
  unfold Machine.writeAct
  split
  · exact h
  · exact hw.upd (.expertEvent rfl hw.mod)

theorem writeElementsAct {a : Addr} {stride : Nat} {vals : List Octets} (h : Frame writes s t) :
    Frame writes s (writeElementsAct a stride vals t i).1 := by
  have hw : Frame writes s (Machine.writeAll i t 0 [] (elementRecs a stride vals)).1 := .writeAll h
  unfold Machine.writeElementsAct
  split
  · exact h
  · exact hw.upd (.expertEvent rfl hw.mod)

theorem subscribeAct {f : Part → Bool} {l : List (Nat × Nat)} (he : f .ev = true) (h : Frame f s t) : Frame f s (subscribeAct l t i).1 := by
  unfold Machine.subscribeAct
  split
  · exact h
  · exact h.upd (h.mod.withEv he)

end Frame

end Sys2Proof.Machine
end

