-- ==== Sys2Proof/Proofs/FrameOfEvents.lean ====
section
/-! PROOFS. The events of lanes, ports, queues, gates and time leave the rest of the state alone. -/

namespace Sys2Proof.Machine

variable {f : Part → Bool} {c : Instr} {name : String} {g : Mod → Mod}

section
variable {i : Instr} {s t : State}

/-- What a completed command leaves, when events and over flags are free. -/
theorem kept_run {g : State → State} (h : run name i s g = .next t) (hg : Frame f s (g s)) (he : f .ev = true := by rfl)
    (ho : f .overs = true := by rfl) : ∀ p, f p = false → p.same s t := by
  obtain ⟨-, rfl⟩ := run_next h
  exact (hg.finish he ho).same

/-- An event that acts on the module alone. -/
theorem kept_onMod (h : run name i s (onMod g) = .next t) (hg : Foot f s.mod (g s.mod)) (he : f .ev = true := by rfl) (ho : f .overs = true := by rfl) :
    ∀ p, f p = false → p.same s t := kept_run h (.onMod hg) he ho

/-- An event that acts on the module alone while its harbours run. -/
theorem kept_whileOn (h : run name i s (whileOn (onMod g)) = .next t) (hg : Foot f s.mod (g s.mod)) (he : f .ev = true := by rfl)
    (ho : f .overs = true := by rfl) : ∀ p, f p = false → p.same s t := kept_run h (.whileOn (.onMod hg)) he ho

end

/-- The events of lanes and ports. -/
theorem lineEvents_leave (hc : family c = .line) : Leaves c (may c) := by
  intro s t h
  unfold exec at h
  cases c with
  | losDeclare _ => exact kept_whileOn h (.laneLos rfl (covers_portMoves covers_discards) rfl (.refl _))
  | losClear _ => exact kept_whileOn h (.laneLos rfl (covers_portMoves covers_discards) rfl (.refl _))
  | lolDeclare _ => exact kept_whileOn h (.laneLol rfl (covers_portMoves covers_discards) rfl (.refl _))
  | lolClear _ => exact kept_whileOn h (.laneLol rfl (covers_portMoves covers_discards) rfl (.refl _))
  | adaptComplete _ => exact kept_whileOn h (.laneAdapted (fun _ => rfl) rfl rfl (.refl _))
  | codewordLock _ => exact kept_whileOn h (.codewordLocked rfl (.refl _))
  | codewordLockLoss _ => exact kept_whileOn h (.loseCodeword (covers_portMoves covers_discards) rfl (fun _ => {}) (.refl _))
  | laneLock _ _ => exact kept_whileOn h (.laneLocked rfl (.refl _))
  | laneLockLoss _ => exact kept_whileOn h (.loseLaneLock (covers_portMoves covers_discards) rfl (fun _ => {}) (.refl _))
  | skewLimitExceeded _ _ => exact kept_whileOn h (.skewExceeded (covers_portMoves covers_discards) {} (.refl _))
  | portAligned _ _ => exact kept_whileOn h (.align (covers_portMoves covers_discards) {} (fun _ => rfl) (.refl _))
  | faultSignalReceived _ _ => exact kept_whileOn h (.faultReceived rfl (covers_portMoves covers_discards) (.refl _))
  | portUpTimeout _ => exact kept_whileOn h (.upTimeout covers_time (fun _ => rfl) rfl (.refl _))
  | lofDeclare _ => exact kept_whileOn h (.lofDeclared (covers_portMoves covers_discards) covers_time (.refl _))
  | lofClear _ => exact kept_whileOn h (.lofCleared (covers_portMoves covers_discards) covers_time rfl (.refl _))
  | lomDeclare _ => exact kept_whileOn h (.lomDeclared (covers_portMoves covers_discards) covers_time (.refl _))
  | lomClear _ => exact kept_whileOn h (.lomCleared (covers_portMoves covers_discards) covers_time (.refl _))
  | faultForwardStart _ => exact kept_whileOn h (.forwardStart rfl (covers_portMoves covers_discards) covers_time (.refl _))
  | lineSecondEnd _ => exact kept_whileOn h (.lineSecond (covers_portMoves covers_discards) covers_time rfl (fun _ => rfl) (.refl _))
  | pcsFecLockLoss _ => exact kept_whileOn h (.pcsLoss rfl (covers_portMoves covers_discards) (.refl _))
  | _ => cases hc

/-- The events of queues and gates. -/
theorem queueEvents_leave (hc : family c = .queue) : Leaves c (may c) := by
  intro s t h
  unfold exec at h
  cases c with
  | switchScheduledTime _ => exact kept_whileOn h (.switchTime covers_time (decide_eq_true rfl) (fun _ => rfl) (.refl _))
  | queueDrained _ => exact kept_whileOn h (.drained rfl (decide_eq_true rfl) (.refl _))
  | rateLoweringApplied _ => exact kept_whileOn h (.applyLowering rfl (decide_eq_true rfl) (.refl _))
  | berthNodeLoweringApplied _ _ => exact kept_whileOn h (.applyNodeLowering rfl (decide_eq_true rfl) (.refl _))
  | gateEntryChange _ => exact kept_whileOn h (.nextEntry covers_time (.refl _))
  | gateSwap _ => exact kept_whileOn h (.gateSwap covers_time (decide_eq_true rfl) (.refl _))
  | _ => cases hc

/-- The events of time. -/
theorem timeEvents_leave (hc : family c = .time) : Leaves c (may c) := by
  intro s t h
  unfold exec at h
  cases c with
  | timeChangeEdge => exact kept_whileOn h (.changeEdge { steps := covers_steps covers_laneCounts } covers_time (.refl _))
  | slewComplete => exact kept_whileOn h (.slewComplete covers_time (.refl _))
  | ptpMessageReceive _ _ _ => exact kept_whileOn h (.ptpReceive { steps := covers_steps covers_laneCounts } (fun _ => rfl) (fun _ => rfl) (.refl _))
  | ptpMessageSend => exact kept_whileOn h (.ptpSend rfl covers_time (.refl _))
  | timeSourceLost => exact kept_whileOn h (.loseSource {} covers_time (.refl _))
  | holdoverExpire => exact kept_whileOn h (.holdoverEnd {} covers_time (.refl _))
  | hostLeaseExpire => exact kept_whileOn h (.leaseExpires {} covers_time (.refl _))
  | lockstepCheck => exact kept_whileOn h (.lockstepCheck {} covers_time (.refl _))
  | lockstepCopy => exact kept_whileOn h (.lockstepCopy { steps := covers_steps covers_laneCounts } covers_time (.refl _))
  | dieLinkDown => exact kept_whileOn h (.dieLinkDown rfl (fun _ => rfl) (.refl _))
  | dieLinkUp => exact kept_whileOn h (.dieLinkUp rfl (.refl _))
  | ttReportSend _ => exact kept_whileOn h (.reportSend covers_time (.refl _))
  | ttReportReceive _ => exact kept_whileOn h (.reportReceive { steps := covers_steps covers_laneCounts } rfl (fun _ => rfl) (fun _ => rfl) (fun _ => rfl) (fun _ => rfl) (.refl _))
  | ppsInEdge => exact kept_whileOn h (.ppsEdge { steps := covers_steps covers_laneCounts } (fun _ => rfl) (fun _ => rfl) (fun _ => rfl) (.refl _))
  | captureEdge _ _ => exact kept_whileOn h (.captureEdge rfl rfl (fun _ => rfl) (.refl _))
  | triggerEdge _ => exact kept_whileOn h (.triggerEdge {} covers_time (.refl _))
  | runtimeSave => exact kept_run h (.whileOn (.saveRuntime covers_time rfl))
  | _ => cases hc

/-- Settles O59: each event by the footprint of its operation. -/
theorem lineQueueAndTimeEventsLeaveTheRest : Obligations.LineQueueAndTimeEventsLeaveTheRest := by
  unfold Obligations.LineQueueAndTimeEventsLeaveTheRest
  rintro c (hc | hc | hc)
  · exact lineEvents_leave hc
  · exact queueEvents_leave hc
  · exact timeEvents_leave hc

end Sys2Proof.Machine
end

