-- ==== Sys2Proof/Proofs/FrameOfFrames.lean ====
section
/-! PROOFS. Frames, and the events of the crypto banks and the entropy sources, leave the rest of the state alone. -/

namespace Sys2Proof.Machine

variable {c : Instr}

/-- Frames received, classified, released and sent. -/
theorem frameEvents_leave (hc : family c = .frame) : Leaves c (may c) := by
  intro s t h
  unfold exec at h
  cases c with
  | clearFrameReceive _ _ => exact kept_whileOn h (.clearReceive {} (fun _ => rfl) covers_objIn rfl rfl covers_objIn (fun _ _ => rfl) (.refl _))
  | holdExpire _ => exact kept_whileOn h (.expireHold covers_time (decide_eq_true rfl) (fun _ => rfl) (.refl _))
  | frameModeReceive _ _ => exact kept_whileOn h (.frameReceive {} (fun _ _ => rfl) covers_objIn (.refl _))
  | gelixFrameReceive _ _ => exact kept_whileOn h (.gelixReceive { ports := covers_portMoves covers_discards } (.refl _))
  | fawFound _ _ _ => exact kept_whileOn h (.fawFound rfl (decide_eq_true rfl) (decide_eq_true rfl) (fun _ => rfl) (.refl _))
  | expectedFawCheck _ _ _ =>
    exact kept_whileOn h (.checkFaw { rx := decide_eq_true rfl, pm := decide_eq_true rfl, port := decide_eq_true rfl } (.refl _))
  | candidateDropped _ _ => exact kept_whileOn h (.dropCandidate rfl (decide_eq_true rfl) (fun _ => rfl) (.refl _))
  | gelixFrameSend _ => exact kept_whileOn h (.gelixSend { time := covers_time } (.refl _))
  | frameRelease _ _ => exact kept_whileOn h (.releaseFrame {} covers_time rfl (fun _ => rfl) (fun _ _ => rfl) (fun _ _ => rfl) (.refl _))
  | cryptoBankEntry _ =>
    exact kept_whileOn h (.bankEntry rfl (fun _ => rfl) (fun _ => rfl) (fun _ => rfl) (fun _ => rfl) rfl covers_objIn (fun _ _ => rfl) (.refl _))
  | frameEgressComplete _ _ => exact kept_whileOn h (.egressComplete covers_time rfl rfl (fun _ => rfl) (fun _ => rfl) (.refl _))
  | _ => cases hc

/-- The crypto banks and the entropy sources. -/
theorem cipherEvents_leave (hc : family c = .cipher) : Leaves c (may c) := by
  intro s t h
  unfold exec at h
  cases c with
  | pipelineFault _ _ _ _ _ _ _ _ => exact kept_run h (.whileOn (.pipelineFault (covers_responds covers_discards) covers_time (fun _ => rfl) (.refl _)))
  | pipelineDrained _ _ _ => exact kept_run h (.whileOn (.unitDrained (covers_responds covers_discards) covers_time (.refl _)))
  | quarantineTestEnd _ _ _ _ => exact kept_run h (.whileOn (.quarantineEnd (fun _ => id) (.refl _)))
  | knownAnswerTest _ _ _ _ _ _ _ _ => exact kept_run h (.whileOn (.knownAnswer (covers_responds covers_discards) covers_time (fun _ => rfl) (fun _ => rfl) (.refl _)))
  | ghashMismatch _ _ _ _ _ => exact kept_run h (.whileOn (.ghashMismatch (covers_responds covers_discards) covers_time (fun _ => rfl) (.refl _)))
  | keyStoreError _ _ _ => exact kept_run h (.whileOn (.keyStoreError (covers_responds covers_discards) (fun _ => rfl) (.refl _)))
  | ballastKeyReseed _ _ => exact kept_whileOn h (.ballastReseed rfl covers_time (.refl _))
  | shuffleReseed _ _ => exact kept_whileOn h (.shuffleReseed rfl covers_time (.refl _))
  | maskReseed _ _ => exact kept_whileOn h (.maskReseed rfl (fun _ => rfl) (.refl _))
  | entropyTestFailure _ _ _ _ =>
    exact kept_run h (.whileOn (.entropyTestFailure (covers_responds covers_discards) (decide_eq_true rfl) rfl (fun _ => rfl) (fun _ => rfl)
      (fun _ _ => rfl) (.refl _)))
  | ballastShareUpdate _ => exact kept_whileOn h (.ballastShare covers_time (fun _ => rfl) (.refl _))
  | _ => cases hc

/-- Settles O58: each event by the footprint of its operation. -/
theorem framesAndCryptoEventsLeaveTheRest : Obligations.FramesAndCryptoEventsLeaveTheRest := by
  unfold Obligations.FramesAndCryptoEventsLeaveTheRest
  rintro c (hc | hc)
  · exact frameEvents_leave hc
  · exact cipherEvents_leave hc

end Sys2Proof.Machine
end

