-- ==== Sys2Proof/Proofs/FrameOfModule.lean ====
section
/-! PROOFS. The events of the module, the tether and the supply leave the rest of the state alone. -/

namespace Sys2Proof.Machine

variable {c : Instr}

/-- The power that goes keeps the clock, what was put out and what was drawn. -/
theorem Foot.powerDown (m : Mod) : Foot (may .bulkThreshold) m (powerDown m) := ⟨fun p hp => by
  have hkept : (Machine.powerDown m).sys.elapsed = m.sys.elapsed ∧ (Machine.powerDown m).out = m.out ∧ (Machine.powerDown m).drawn = m.drawn := by
    unfold Machine.powerDown
    split
    · exact ⟨rfl, rfl, rfl⟩
    · dsimp only
      split
      · exact ⟨rfl, rfl, rfl⟩
      · exact ⟨rfl, rfl, rfl⟩
  obtain ⟨hclock, hout, hdrawn⟩ := hkept
  cases p with
  | clock => exact hclock
  | out => exact hout
  | drawn => exact hdrawn
  | otp => exact rfl
  | flash => exact rfl
  | pending => exact rfl
  | _ => cases hp⟩

/-- The events of stowage, berths, snapshots, firmware, the journal and the pilots. -/
theorem moduleEvents_leave (hc : family c = .module) : Leaves c (may c) := by
  intro s t h
  unfold exec at h
  cases c with
  | kekShareExpire _ => exact kept_whileOn h (.expireShare covers_time (decide_eq_true rfl) (.refl _))
  | firmwareInstallComplete => exact kept_run h (.whileOn (.endInstall rfl rfl rfl (.refl _)))
  | pilotsStopForActivation => exact kept_whileOn h (.stopForActivation {} rfl rfl (.refl _))
  | firmwareRunning => exact kept_run h (.whileOn (.firmwareRuns {} rfl (.refl _)))
  | firmwareStartTimeout => exact kept_run h (.whileOn (.firmwareTimeout {} rfl covers_time (.refl _)))
  | configSave => exact kept_run h (.whileOn (.writeConfig rfl rfl (.refl _)))
  | cxlLinkReady _ _ _ _ _ _ => exact kept_whileOn h (.linkReady rfl rfl (decide_eq_true rfl) (.refl _))
  | cxlLinkDown _ => exact kept_run h (.whileOn (.linkDown (covers_responds covers_discards) {} (.refl _)))
  | cxlLinkReturn _ => exact kept_whileOn h (.linkReturn {} (decide_eq_true rfl) (.refl _))
  | stowageAccess _ _ _ _ _ => exact kept_run h (.whileOn (.stowageAccess { responds := covers_responds covers_discards } rfl (.refl _)))
  | berthResetEdge _ =>
    exact kept_whileOn h (.resetEdge covers_time covers_discards (decide_eq_true rfl) (decide_eq_true rfl) (fun _ => rfl) {} rfl (fun _ => rfl)
      (fun _ => rfl) (fun _ => rfl) (.refl _))
  | berthResetComplete _ => exact kept_whileOn h (.resetComplete rfl (decide_eq_true rfl) (.refl _))
  | berthReleaseComplete _ => exact kept_whileOn h (.releaseComplete {} (decide_eq_true rfl) (.refl _))
  | expertGrantExpire _ => exact kept_whileOn h (.expireGrant covers_time {} (.refl _))
  | snapshotCapture _ => exact kept_whileOn h (.snapCapture { lanes := covers_laneCounts } covers_time (.refl _))
  | snapshotComplete => exact kept_whileOn h (.snapComplete {} covers_time (.refl _))
  | alarmPulseEnd _ => exact kept_onMod h (.pulseEnd covers_time (.refl _))
  | journalSeal => exact kept_whileOn h (.sealDue covers_time rfl (.refl _))
  | sealSigned => exact kept_run h (.whileOn (.of_mod (.signSeal rfl (.refl _))))
  | pilotWatchdog _ => exact kept_whileOn h (.pilotStops {} rfl (.refl _))
  | pilotRestarted _ => exact kept_whileOn h (.pilotBack {} (fun _ => rfl) rfl rfl (.refl _))
  | _ => cases hc

/-- The events of the tether, the supply and the references. -/
theorem tamperEvents_leave (hc : family c = .tamper) : Leaves c (may c) := by
  have hr : Covers responds responds := fun _ => id
  intro s t h
  have hqueue : t.pending = s.pending := (exec_fused h).pending
  unfold exec at h
  cases c with
  | retireConfirmationExpire => exact kept_onMod h (.expireRetire covers_time rfl (.refl _))
  | tamperAlarm _ _ => exact kept_run h (.quantityAlarm hr (.refl _))
  | tamperAlarmClear _ => exact kept_onMod h (.quantityClear rfl (decide_eq_true rfl) (.refl _))
  | monitorFault _ _ => exact kept_run h (.monitorAlarm hr (.refl _))
  | monitorFaultClear _ => exact kept_onMod h (.monitorClear rfl rfl (.refl _))
  | zeroizePins => exact kept_run h (.zeroizePins hr (.refl _))
  | zeroizePinFault _ => exact kept_run h (.monitorAlarm hr (.refl _))
  | quiesceNAssert => exact kept_run h (.quiesceAssert hr (.refl _))
  | quiesceNRelease => exact kept_onMod h (.quiesceRelease rfl rfl rfl (fun _ => rfl) (.refl _))
  | hostloopPulse _ => exact kept_run h (.loopPulse hr (.refl _))
  | zeroizeRestart _ => exact kept_run h (.zeroRestart (.refl _))
  | tamperBitBurn => exact kept_run h (.burnEntry rfl rfl rfl rfl (.refl _))
  | cellRemove => exact kept_run h (.removeCell (covers_responds covers_discards) rfl (.refl _))
  | cellInsert => exact kept_run h (.insertCell hr (.refl _))
  | cellSwapWindowClose _ => exact kept_onMod h (.stableCell {} (.refl _))
  | cellSwapWindowExpire => exact kept_run h (.expireWindow (covers_responds covers_discards) covers_time (.refl _))
  | ready => exact kept_run h (.makeReady hr (.refl _))
  | mainsLost => exact kept_onMod h (.loseMains rfl (.refl _))
  | mainsEarlyWarning => exact kept_run h (.earlyWarning rfl rfl rfl covers_time (.refl _))
  | mainsReturn => exact kept_onMod h (.mainsBack {} (.refl _))
  | bulkThreshold => exact kept_onMod h (.powerDown _)
  | keelLockLost _ => exact kept_run h (.keelLost (.refl _))
  | referenceLock _ => exact kept_whileOn h (.refLock {} (.refl _))
  | referenceLost => exact kept_whileOn h (.refLost {} (.refl _))
  | referenceChange _ => exact kept_whileOn h (.refChange {} (.refl _))
  | lossOfAllPower => exact kept_onMod h (.allPowerLost {} rfl (.refl _))
  | mainsInRange _ _ _ =>
    intro p hp
    cases p with
    | pending => exact hqueue
    | _ => cases hp
  | commandedRestartBegin _ =>
    intro p hp
    cases p with
    | pending => exact hqueue
    | _ => cases hp
  | _ => cases hc

/-- Settles O60: each event by the footprint of its operation; a start-up keeps the clock, and no command touches those that wait. -/
theorem moduleAndTamperEventsLeaveTheRest : Obligations.ModuleAndTamperEventsLeaveTheRest := by
  unfold Obligations.ModuleAndTamperEventsLeaveTheRest
  rintro c (hc | hc)
  · exact moduleEvents_leave hc
  · exact tamperEvents_leave hc

end Sys2Proof.Machine
end

