-- ==== Sys2Proof/Proofs/FrameOfRequests.lean ====
section
/-! PROOFS. The typed writes and reads of one object leave the rest of the state alone. -/

namespace Sys2Proof.Machine

variable {c : Instr}

/-- The typed requests of sessions, keys, tables, time and stowage. -/
theorem requests_leave (hc : family c = .request) : Leaves c (may c) := by
  intro s t h
  unfold exec at h
  cases c with
  | sessionTerminate _ _ _ =>
    exact kept_run h (.writeBool covers_answers (fun _ _ _ => rfl) fun hv _ _ hu => by
      subst hv; exact hu.upd (.endSession rfl {} hu.mod))
  | credentialErase _ _ _ =>
    exact kept_run h (.writeBool covers_answers (fun _ _ _ => rfl) fun hv _ _ hu => by
      subst hv; exact hu.upd (.eraseCredential {} (fun _ => rfl) {} hu.mod))
  | keyWrite _ _ _ =>
    exact kept_run h (.writeRow covers_answers fun _ _ _ _ hu _ _ =>
      hu.upd (.keyEffect { assoc := decide_eq_true rfl } (fun _ => rfl) (fun _ => rfl) hu.mod))
  | keySlotErase _ _ _ =>
    exact kept_run h (.writeBool covers_answers (fun _ _ _ => rfl) fun hv _ _ hu => by
      subst hv; exact hu.upd (.eraseSlot covers_time { assoc := decide_eq_true rfl } hu.mod))
  | kekShareWrite _ _ shareB _ =>
    exact kept_run h (.writeRow covers_answers fun _ _ _ _ hu _ _ => by
      rw [effect_share]; exact .effIte (fun _ => hu) (hu.upd (.writeShare rfl (decide_eq_true rfl) hu.mod)))
  | kekErase _ _ _ =>
    exact kept_run h (.writeBool covers_answers (fun _ _ _ => rfl) fun hv _ _ hu => by
      subst hv; exact hu.upd (.eraseKek (decide_eq_true rfl) hu.mod))
  | learnAcknowledge _ _ _ =>
    exact kept_run h (.writeRow covers_answers fun _ _ _ _ hu _ _ => hu.upd (.acknowledgeLearn rfl (decide_eq_true rfl) hu.mod))
  | lpmInsert _ _ _ =>
    exact kept_run h (.writeRow covers_answers fun _ _ _ _ hu _ _ =>
      hu.upd (.insertPrefix {} hu.mod))
  | lpmDelete _ _ _ => exact kept_run h (.writeRow covers_answers fun _ _ _ _ hu _ _ => hu.upd (.deletePrefix rfl (decide_eq_true rfl) hu.mod))
  | lpmQuery _ _ _ => exact kept_run h (.writeRow covers_answers fun _ _ _ _ hu _ _ => hu.upd (.setSess rfl hu.mod))
  | testPatternWrite _ _ _ =>
    exact kept_run h (.writeRow covers_answers fun _ _ _ _ hu _ _ =>
      hu.upd (.writePattern rfl (covers_portMoves covers_discards) rfl covers_laneCounts rfl (fun _ => rfl) hu.mod))
  | timeIncrementWrite _ _ => exact kept_run h (.writeRow covers_answers fun _ _ _ _ hu _ _ => hu.upd (.writeIncrement rfl hu.mod))
  | timeSlewWrite _ _ => exact kept_run h (.writeRow covers_answers fun _ _ _ _ hu _ _ => hu.upd (.writeSlew rfl hu.mod))
  | timeStepWrite _ _ => exact kept_run h (.writeRow covers_answers fun _ _ _ _ hu _ _ => hu.upd (.writeStep rfl hu.mod))
  | timeSetWrite _ _ => exact kept_run h (.writeRow covers_answers fun _ _ _ _ hu _ _ => hu.upd (.writeTime rfl hu.mod))
  | hostLeaseWrite _ _ => exact kept_run h (.writeRow covers_answers fun _ _ _ _ hu _ _ => hu.upd (.writeLease {} rfl hu.mod))
  | expertGrantWrite _ _ _ => exact kept_run h (.writeRow covers_answers fun _ _ _ _ hu _ _ => hu.upd (.grantExpert {} hu.mod))
  | debugPortOpen _ _ => exact kept_run h (.writeRow covers_answers fun _ _ _ _ hu _ _ => hu.upd (.writeDebug rfl rfl hu.mod))
  | windowWrite _ _ _ _ =>
    exact kept_run h (.writeRow covers_answers fun _ _ _ _ hu _ _ => by
      rw [effect_window]; exact .effR (.windowWrite {} hu.mod) hu)
  | locatorQuery _ _ => exact kept_run h (.writeRow covers_answers fun _ _ _ _ hu _ _ => .locatorWrite rfl hu)
  | indirectDataWrite _ _ =>
    exact kept_run h (.writeRow covers_answers fun _ _ _ _ hu _ _ => .effR (.indirectWrite {} rfl hu.mod) hu)
  | snapshotAcknowledge _ _ _ => exact kept_run h (.writeRow covers_answers fun _ _ _ _ hu _ _ => hu.upd (.snapAck {} hu.mod))
  | alarmClear _ _ _ => exact kept_run h (.writeRow covers_answers fun _ _ _ _ hu _ _ => by
      rw [effect_alarmClear]; exact .effIte (fun _ => hu.upd (hu.mod.withEv rfl)) hu)
  | responseRelease _ _ _ =>
    exact kept_run h (.writeBool covers_answers (fun _ _ _ => rfl) fun hv _ _ hu => by
      subst hv; exact hu.upd (.releaseResponse rfl (decide_eq_true rfl) (fun _ => rfl) hu.mod))
  | cellSwapWindowWrite _ _ =>
    exact kept_run h (.writeRow covers_answers fun _ _ _ _ hu _ _ => hu.upd (.swapWindow {} (.setObj (fun _ => rfl) hu.mod)))
  | retireConfirmation _ _ => exact kept_run h (.writeRow covers_answers fun _ _ _ _ hu _ _ => .confirmRetire (covers_responds covers_discards) hu)
  | regionRelease _ _ _ =>
    exact kept_run h (.writeBool covers_answers (fun _ _ _ => rfl) fun hv _ _ hu => by
      subst hv; exact hu.upd (.releaseRegion { stow := decide_eq_true rfl } hu.mod))
  | berthResetKeep _ _ => exact kept_run h (.writeRow covers_answers fun _ _ _ _ hu _ _ => hu.upd (.requestReset (decide_eq_true rfl) hu.mod))
  | berthResetRelease _ _ => exact kept_run h (.writeRow covers_answers fun _ _ _ _ hu _ _ => hu.upd (.requestReset (decide_eq_true rfl) hu.mod))
  | firmwareChunkWrite _ _ _ =>
    exact kept_run h (.writeRow covers_answers fun _ _ _ _ hu _ _ => hu.upd (.writeChunk rfl rfl (fun _ => rfl) rfl (fun _ => rfl) hu.mod))
  | firmwareVerify _ _ =>
    exact kept_run h (.writeBool covers_answers (fun _ _ _ => rfl) fun hv _ _ hu => by subst hv; exact .verifyImage rfl rfl hu)
  | firmwareInstall _ _ =>
    exact kept_run h (.writeBool covers_answers (fun _ _ _ => rfl) fun hv _ _ hu => by subst hv; exact .beginInstall rfl rfl hu)
  | firmwareActivate _ _ =>
    exact kept_run h (.writeRow covers_answers fun _ _ _ _ hu _ _ => .beginActivation {} rfl (fun _ => rfl) {} hu)
  | firmwareConfirm _ _ =>
    exact kept_run h (.writeBool covers_answers (fun _ _ _ => rfl) fun hv _ _ hu => by subst hv; exact .confirmImage rfl rfl hu)
  | serviceIdentityGenerate _ _ =>
    exact kept_run h (.writeBool covers_answers (fun _ _ _ => rfl) fun hv _ _ hu => by subst hv; exact .generateService rfl rfl rfl rfl hu)
  | certificateInstall _ _ =>
    exact kept_run h (.writeBool covers_answers (fun _ _ _ => rfl) fun hv _ _ hu => by subst hv; exact .installCert {} hu)
  | serviceIdentityErase _ _ =>
    exact kept_run h (.writeBool covers_answers (fun _ _ _ => rfl) fun hv _ _ hu => by subst hv; exact .eraseService {} rfl hu)
  | operatorAnchorWrite _ _ => exact kept_run h (.writeRow covers_answers fun _ _ _ _ hu _ _ => .writeAnchor rfl rfl hu)
  | moduleRestart _ _ =>
    exact kept_run h (.writeBool covers_answers (fun _ _ _ => rfl) fun hv _ _ hu => by
      subst hv; exact hu.upd (.commandRestart {} rfl hu.mod))
  | captureRead _ _ =>
    exact kept_run h (.serve covers_answers fun _ _ hu => .readAct (fun u hu a ha => by
      obtain rfl := List.mem_singleton.mp ha
      exact .readEntry (.readCapture rfl hu) hu fun _ hk => .refusedRead (.inl ⟨Nat.ne_of_beq_eq_false rfl, Nat.ne_of_beq_eq_false rfl⟩) hk) hu)
  | indirectDataRead _ =>
    exact kept_run h (.serve covers_answers fun _ _ hu => .readAct (fun u hu a ha => by
      obtain rfl := List.mem_singleton.mp ha
      exact .readEntry (.reach hu (.indirectRead {} rfl hu.mod)) hu fun _ hk => .refusedRead (.inl ⟨by decide, by decide⟩) hk) hu)
  | attestationReportRead _ =>
    exact kept_run h (.serve covers_answers fun _ _ hu => .readAct (fun u hu a ha => by
      obtain rfl := List.mem_singleton.mp ha
      exact .readEntry (.readReport rfl rfl rfl hu) hu fun _ hk => .refusedRead (.inl ⟨by decide, by decide⟩) hk) hu)
  | _ => cases hc

/-- Settles O57: each request by the footprint of its object's effect; a write of FALSE decodes to a value no object acts on. -/
theorem requestsLeaveTheRest : Obligations.RequestsLeaveTheRest := by
  unfold Obligations.RequestsLeaveTheRest
  exact fun _ hc => requests_leave hc

end Sys2Proof.Machine
end

