-- ==== Sys2Proof/Proofs/FrameOfSessions.lean ====
section
/-! PROOFS. The commands of sessions, relay and the management paths leave the rest of the state alone. -/

namespace Sys2Proof.Machine

variable {c : Instr}

theorem sessions_leave (hc : family c = .session) : Leaves c (may c) := by
  intro s t h
  unfold exec at h
  cases c with
  | open_ _ _ _ _ _ _ _ => exact kept_run h (.openSession covers_answers)
  | prove _ _ => exact kept_run h (.proveSession covers_answers rfl (fun _ => rfl) (fun _ => rfl))
  | close _ => exact kept_run h (.closeSession covers_answers {})
  | read _ _ => exact kept_run h (.serve covers_answers fun _ _ hu => .readAct (fun _ hu _ _ => .readAny { lanes := covers_laneCounts } hu) hu)
  | readElements _ _ _ =>
    exact kept_run h (.serve covers_answers fun _ _ hu => .readElementsAct (fun _ hu _ => .readAny { lanes := covers_laneCounts } hu) hu)
  | write _ _ => exact kept_run h (.serve (f := writes) covers_answers fun _ _ hu => .writeAct hu)
  | writeElements _ _ _ _ => exact kept_run h (.serve (f := writes) covers_answers fun _ _ hu => .writeElementsAct hu)
  | commit _ => exact kept_run h (.serve (f := commits) covers_answers fun _ _ hu => .commitAct (fun _ => id) hu)
  | commitDryRun _ => exact kept_run h (.serve covers_answers fun _ _ hu => .commitDry hu)
  | subscribe _ _ => exact kept_run h (.serve covers_answers fun _ _ hu => .subscribeAct rfl hu)
  | relayMessage _ _ => exact kept_onMod h (.relayOut rfl rfl rfl rfl (fun _ => rfl) (fun _ => rfl) (.refl _))
  | relayReturn _ _ _ => exact kept_onMod h (.relayBack rfl rfl rfl (.refl _))
  | mchMessageReceive _ _ _ => exact kept_whileOn h (.mchReceive rfl rfl rfl (fun _ => rfl) (fun _ => rfl) (.refl _))
  | mgmtPortFrame _ _ _ => exact kept_onMod h (.mgmtFrame rfl rfl (fun _ => rfl) (fun _ => rfl) (.refl _))
  | sessionProveTimeout _ => exact kept_onMod h (.proveTimeout covers_time (decide_eq_true rfl) (.refl _))
  | sessionIdleExpire _ => exact kept_onMod h (.idleExpire covers_time (decide_eq_true rfl) {} (.refl _))
  | sessionIdForget _ => exact kept_onMod h (.forgetId covers_time rfl (.refl _))
  | credentialLockExpire _ => exact kept_onMod h (.unlockCred covers_time rfl (.refl _))
  | relayEntryLapse _ _ => exact kept_onMod h (.relayLapse covers_time rfl (.refl _))
  | sessionPilotTakeover => exact kept_onMod h (.takeover covers_time rfl (.refl _))
  | interceptReplySend _ => exact kept_run h (.of_mod (.sendReply rfl rfl rfl rfl (fun _ => rfl) (.refl _)))
  | interceptReplyDiscard _ => exact kept_onMod h (.discardReply covers_time rfl (fun _ => rfl) (.refl _))
  | managementPortLinkChange _ _ => exact kept_onMod h ((Foot.refl _).withMgmt rfl)
  | _ => cases hc

/-- Settles O56: each command by the footprint of what it serves, a WRITE by that of every object's effect. -/
theorem sessionCommandsLeaveTheRest : Obligations.SessionCommandsLeaveTheRest := by
  unfold Obligations.SessionCommandsLeaveTheRest
  exact fun _ hc => sessions_leave hc

end Sys2Proof.Machine
end
